-- ==== Sys2Proof/Word.lean ====
section
/-!
DEFINITION. The plain value types of the model: bytes, words, sparse maps, and the arithmetic the spec uses everywhere.
-/

namespace Sys2Proof

/-- One byte. -/
abbrev Byte := BitVec 8

/-- One 64-bit register or sequencer value. -/
abbrev Word := BitVec 64

/-- Sparse data by number: (key, value) pairs, keys strictly rising. -/
abbrev Map (α : Type) := List (Nat × α)

/-- Quotient rounded up. -/
def ceilDiv (a b : Nat) : Nat := (a + b - 1) / b

/-- Rounded up to a multiple of `b`. -/
def roundUp (a b : Nat) : Nat := ceilDiv a b * b

/-- A bit as a number. -/
def bit (b : Bool) : Nat := if b then 1 else 0

/-- Bits `lo` to `lo + w - 1` of a number. -/
def slice (v lo w : Nat) : Nat := v / 2 ^ lo % 2 ^ w

/-- Bit `i` of a number, as a truth value. -/
def bitOn (v i : Nat) : Bool := v / 2 ^ i % 2 == 1

/-- A `w`-bit two's complement value as an integer. -/
def signedOf (w v : Nat) : Int := if v % 2 ^ w < 2 ^ (w - 1) then (v % 2 ^ w : Nat) else ((v % 2 ^ w : Nat) : Int) - (2 ^ w : Nat)

/-- An integer as a `w`-bit two's complement value. -/
def unsignedOf (w : Nat) (x : Int) : Nat := (x % ((2 ^ w : Nat) : Int)).toNat

/-- Clamp a natural number to a range. -/
def clampN (lo hi v : Nat) : Nat := if v < lo then lo else if hi < v then hi else v

/-- Clamp an integer to a range. -/
def clampI (lo hi v : Int) : Int := if v < lo then lo else if hi < v then hi else v

/-- Serial comparison (R14): `a` is later than `b` among `n`-bit values. -/
def serialLater (n a b : Nat) : Bool :=
  let d := (a + 2 ^ n - b % 2 ^ n) % 2 ^ n
  d != 0 && decide (d < 2 ^ (n - 1))

end Sys2Proof
end

