-- ==== Sys2Proof/Syntax.lean ====
section
/-!
DEFINITION. The commands of the KZ9680 block and the operand structures they carry.
-/

namespace Sys2Proof

/-- The parts of an Announce message that the BMCA uses (R84, R93): header and dataset fields of IEEE 1588-2019, with the transport it
came by (the codes of R102). -/
structure Announce where
  domain : BitVec 8
  transport : BitVec 2
  profile : Bool
  sender : BitVec 64
  senderPort : BitVec 16
  priority1 : BitVec 8
  gmClass : BitVec 8
  gmAccuracy : BitVec 8
  gmVariance : BitVec 16
  priority2 : BitVec 8
  gm : BitVec 64
  steps : BitVec 16
  utcOffset : BitVec 16
  utcValid : Bool
  leap61 : Bool
  leap59 : Bool
  logInterval : BitVec 8
  deriving DecidableEq, Repr

/-- A Delay_Resp (R88), with the transport it came by (the codes of R102). -/
structure DelayResp where
  domain : BitVec 8
  transport : BitVec 2
  seq : BitVec 16
  mine : Bool
  receive : Nat
  correction : Int
  deriving DecidableEq, Repr

/-- A Sync, one-step or two-step, or a Follow_Up (R81, R88): times in ns. A Sync's receive time is its MAC's stamp (R83). -/
structure SyncMsg where
  domain : BitVec 8
  transport : BitVec 2
  sender : BitVec 64
  seq : BitVec 16
  followUp : Bool
  twoStep : Bool
  origin : Nat
  correction : Int
  logInterval : BitVec 8
  deriving DecidableEq, Repr

/-- What the entropy engine reads of the parameter sets that an access unit activates (R175 to R178, R188, R191), named as the coding
standards name it: profile_idc or general_profile_idc, constraint_set1_flag, the HEVC compatibility flags of Main and Main 10, level_idc,
chroma_format_idc, the bit depths, frame_mbs_only_flag, field_seq_flag, num_slice_groups_minus1, redundant_pic_cnt_present_flag, the coded
size, the cropping in luma samples, the DPB size and the reorder limit where the syntax gives one, MaxFrameNum, max_num_ref_frames and
gaps_in_frame_num_value_allowed_flag. -/
structure SpsInfo where
  profile : Nat := 100
  constraint1 : Bool := false
  compatMain : Bool := false
  compatMain10 : Bool := false
  level : Nat := 40
  constraint3 : Bool := false
  chroma : Nat := 1
  depthY : Nat := 8
  depthC : Nat := 8
  frameMbsOnly : Bool := true
  fieldSeq : Bool := false
  sliceGroups : Nat := 0
  redundant : Bool := false
  codedW : Nat := 16
  codedH : Nat := 16
  cropL : Nat := 0
  cropR : Nat := 0
  cropT : Nat := 0
  cropB : Nat := 0
  dpb : Option Nat := some 1
  reorder : Option Nat := some 0
  maxFrameNum : Nat := 16
  maxRefFrames : Nat := 1
  gaps : Bool := false
  deriving DecidableEq, Repr

/-- A memory management control operation of an H.264 picture (R191): 1 to 6 of the standard, with their syntax elements. -/
inductive Mmco where
  | shortUnused (diff : Nat) | longUnused (num : Nat) | toLong (diff idx : Nat) | maxLong (plus1 : Nat) | clearAll | currentLong (idx : Nat)
  deriving DecidableEq, Repr

/-- A picture that an HEVC reference picture set keeps (R191): its order count, whether as a long-term picture, and the modulus of the order
count where only its low bits are given (0: the whole count is). -/
structure RpsPic where
  poc : Int
  long : Bool := false
  modulus : Nat := 0
  deriving DecidableEq, Repr

/-- What the entropy engine learns of an access unit (R177 to R191): the SPS it activates, the bytes of its symbols, whether a slice has a
syntax error, its picture order count, the order counts it references, frame_num, long_term_reference_flag, the adaptive marking operations
(none: the sliding window), the reference picture set, and no_output_of_prior_pics_flag. -/
structure PicInfo where
  sps : Option SpsInfo := none
  symbols : Nat := 0
  syntaxError : Bool := false
  poc : Int := 0
  refs : List Int := []
  frameNum : Nat := 0
  longRef : Bool := false
  mmco : Option (List Mmco) := none
  rps : List RpsPic := []
  noOutput : Bool := false
  deriving DecidableEq, Repr

/-- What reconstruction of a picture from its references gives (R187, R192): the lines of each plane as stored bytes, and the blocks that could not be decoded,
as left, top, width and height in luma samples. -/
structure Recon where
  luma : List (List Byte) := []
  chroma : List (List Byte) := []
  missing : List (Nat × Nat × Nat × Nat) := []
  deriving DecidableEq, Repr

/-- A mirror as the link delivers it (R394). -/
structure MirrorMsg where
  gallery : Fin 8
  cancel : Bool
  slots : List (Fin 1024 × List Byte)
  epoch : BitVec 32
  target : BitVec 64
  deriving DecidableEq, Repr

/-- A resync image of one gallery as the link delivers it (R399). -/
structure ImageMsg where
  gallery : Fin 8
  slots : List (Fin 1024 × List Byte)
  epoch : BitVec 32
  frame : BitVec 48
  deriving DecidableEq, Repr

/-- A pixel of the canvas line being sent (R322): its canvas and its place in the line. -/
structure CanvasPixel where
  canvas : Fin 32
  x : BitVec 16
  deriving DecidableEq, Repr

/-- A block as an Ndosin lane brings it (R529): the 58 bits received before its body, the latest in bit 0; its sync header; the body as
scrambled, the first bit received in bit 0. -/
structure WireBlock where
  before : BitVec 58
  header : BitVec 2
  bits : BitVec 128
  deriving DecidableEq, Repr

/-- Sync headers that reach an Ndosin lane one after another (R530). -/
structure LaneHeaders where
  lane : Fin 4
  headers : List (BitVec 2)
  deriving DecidableEq, Repr

/-- What a receive lane finds with its CDR lock (R515, R517, R518): the CTLE setting; its PCS is aligned; the lanes of its port are aligned with
one another. -/
structure RxLock where
  ctle : BitVec 4
  aligned : Bool
  together : Bool
  deriving DecidableEq, Repr

/-- The 12 DFE taps of a lane at the start and at the end of 4,096 LANE cycles (R517). -/
structure Adaptation where
  before : List (BitVec 6)
  after : List (BitVec 6)
  deriving DecidableEq, Repr

/-- How the link procedure of a DisplayPort transmitter ends (R314, R511): its cause, 0 for success, and the sink's MSA_TIMING_PAR_IGNORED. -/
structure TrainingEnd where
  cause : BitVec 4
  ignored : Bool
  deriving DecidableEq, Repr

/-- The ECC error that an access finds (R597, R598): an inline one, or a link error on a read or on a write. -/
inductive EccKind where
  | inline | linkRead | linkWrite
  deriving DecidableEq, Repr

/-- What names a response (R560, R564): the master it returns to, the ID of its request, and the port it comes from. -/
structure RespName where
  master : BitVec 7
  id : BitVec 8
  port : Fin 13
  deriving DecidableEq, Repr


/-- The commands of the block, one constructor per row of spec/opcode_table.json. -/
inductive Instr where
  /-- REGISTER_WRITE (R652): A write to a register field that has no behaviour of its own sets it, or keeps the old value when the value is outside its range. -/
  | registerWrite (off : BitVec 26) (wide : Bool) (value : BitVec 64)
  /-- W1C_FLAG_CLEAR (R21): A write of 1 to a W1C flag clears it, unless hardware sets it in the same cycle. -/
  | w1cFlagClear (off : BitVec 26) (mask : BitVec 32)
  /-- CNT_CLR (R654): A write of 1 to a CNT_CLR bit clears the event counts of its register, keeping occurrences of the same cycle. -/
  | cntClr (off : BitVec 26)
  /-- BLOCK_LOCK_SET (R18): A write that sets a block lock fixes the RWL fields it guards until power-on reset, taking the values of the same write. -/
  | blockLockSet (off : BitVec 26) (value : BitVec 32)
  /-- ISLAND_LOST (R30): REFCLK fails or a fixed-island PLL loses lock; the device enters Gesso hold, asserts WP_ALERT_N and interrupts the host. -/
  | islandLost (refclk : Bool) (islands : BitVec 6)
  /-- GALLERY_LOST (R31): A gallery PLL loses lock; its canvases go dark and are reported not live. -/
  | galleryLost (g : Fin 8)
  /-- GALLERY_PLL_RELOCK (R31): A gallery PLL locks again, and each of its canvases shows Gesso until its first verified frame. -/
  | galleryPllRelock (g : Fin 8)
  /-- PUBLISH_REQUEST (R243): A hardware producer requests publication of a provisionally sealed frame, and the Easel reserves its sequence. -/
  | publishRequest (d : Fin 8192)
  /-- FRAME_PUBLISH (R53): The seal engine completes the record of a requested frame and the frame becomes its source's CURRENT frame. -/
  | framePublish (d : Fin 8192)
  /-- RECORD_HEADER_READ (R59): The record header of a leased buffer returns to the composer and is checked against the lease. -/
  | recordHeaderRead (layer : Fin 1024) (err : Bool)
  /-- LAYER_SLOT_READ (R685): The read of a committed layer's active slot at a latch returns, and an error response leaves the layer undrawn with cause TABLE. -/
  | layerSlotRead (layer : Fin 1024) (err : Bool)
  /-- TILE_FETCH_ISSUE (R58): The composer issues the fetch of a whole tile, after the row's tile CRC read. -/
  | tileFetchIssue (layer : Fin 1024) (tile : BitVec 16)
  /-- TILE_DATA_ARRIVAL (R61): The last data beat of a fetched tile arrives and its seal comparison completes 6 CMP cycles later. -/
  | tileDataArrival (layer : Fin 1024) (tile : BitVec 16) (err : Bool)
  /-- CHK_START (R73): A write of START starts a check-unit job, or refuses it under R75. -/
  | chkStart (n : Fin 16) (value : BitVec 32)
  /-- CHK_ABORT (R77): ABORT ends a running check-unit job within 8 FAB cycles with END_CODE 1. -/
  | chkAbort (n : Fin 16)
  /-- CHK_JOB_DONE (R73): A check-unit job's result is held 14 FAB cycles after its last data beat, DONE is set and MISMATCH is judged. -/
  | chkJobDone (n : Fin 16)
  /-- CHK_PROT_ERROR (R77): A protection error on a job read ends the job with END_CODE 2 and PROT_ERR. -/
  | chkProtError (n : Fin 16)
  /-- CHK_CONFIG_WRITE (R76): A write to a check-unit configuration register while BUSY has no effect and is refused with code 5. -/
  | chkConfigWrite (off : BitVec 26) (wide : Bool) (value : BitVec 64)
  /-- PTP_CTRL_WRITE (R102): A write to PTP_CTRL that changes profile, transport or domain restarts the port in LISTENING, and EN at 0 disables it. -/
  | ptpCtrlWrite (value : BitVec 32)
  /-- RELOCK (R90): A RELOCK write arms one step for the next accepted offset sample. -/
  | relock
  /-- CAPTURE (R97): A CAPTURE write copies the PTP clock into the snapshot registers in one NET cycle. -/
  | capture
  /-- ANNOUNCE_RX (R93): An Announce message is run through the BMCA, which may change the grandmaster or end a HOLDOVER. -/
  | announceRx (port : Fin 16) (msg : Announce)
  /-- ANNOUNCE_TIMEOUT (R94): No Announce arrives within announceReceiptTimeout intervals and the clock enters HOLDOVER. -/
  | announceTimeout
  /-- DELAY_REQ_SEND (R81): The clock sends a Delay_Req with two-step timestamping from the bound port. -/
  | delayReqSend
  /-- DELAY_RESP_RX (R88): A Delay_Resp updates the meanPathDelay used for offset samples. -/
  | delayRespRx (port : Fin 16) (msg : DelayResp)
  /-- OFFSET_SAMPLE (R88): A Sync or Follow_Up forms an offset sample, which steps the clock, feeds the servo or is discarded. -/
  | offsetSample (port : Fin 16) (msg : SyncMsg)
  /-- MAC_FRAME_RX (R108): A MAC receives a frame, stamps it, checks it and classifies its datagram to a flow or a host queue. -/
  | macFrameRx (port : Fin 16) (bytes : List Byte) (fcsOk : Bool)
  /-- HOSTQ_TX_FRAME (R132): A frame from transmit host queue n is sent on port n. -/
  | hostqTxFrame (queue : Fin 16) (port : Fin 16)
  /-- FLOW_INSTALL (R116): INSTALL places the staged flow entry at the lowest free index, or refuses it with a code. -/
  | flowInstall
  /-- FLOW_REMOVE (R118): REMOVE clears VALID of an entry, discards the frame it assembles and orphans a kind 0 source. -/
  | flowRemove (index : BitVec 10)
  /-- FLOW_READ (R115): READ copies an entry into NET_FLOW_STAGE and its counts into NET_FLOW_STATS. -/
  | flowRead (index : BitVec 10)
  /-- FLOW_CMD_DONE (R115): A flow command completes 20 NET cycles after its write and the table change takes effect at one NET edge. -/
  | flowCmdDone
  /-- ST2110_PACKET_SEND (R130): A paced ST 2110-20 packet of a send entry leaves at its scheduled time. -/
  | st2110PacketSend (index : BitVec 10)
  /-- ETH_LINK_DOWN (R136): An Ethernet port goes down, raising LINK_DOWN, and sending entries on it drop their frames. -/
  | ethLinkDown (port : Fin 16)
  /-- ETH_LINK_UP (R82): An Ethernet port comes up, and a PTP clock with both ports down binds to it. -/
  | ethLinkUp (port : Fin 16)
  /-- DP_FRAME_START (R144): A DisplayPort receiver frame starts, its format is checked and a buffer is taken from the pool. -/
  | dpFrameStart (quad : Fin 16) (width : BitVec 14) (format : BitVec 4)
  /-- DP_LINE_RX (R145): A landed DisplayPort line is written and a completed tile row is sealed provisionally. -/
  | dpLineRx (quad : Fin 16) (pixels : List (BitVec 48))
  /-- DP_FRAME_END (R147): A DisplayPort frame ends and is requested for publication, or closed as SHORT or LONG. -/
  | dpFrameEnd (quad : Fin 16)
  /-- WDOG_NO_START (R149): A context's watchdog period passes without a frame start and the watchdog fires. -/
  | wdogNoStart (c : Fin 64)
  /-- WDOG_INCOMPLETE (R149): A started frame has not ended within WDOG_MS, and the watchdog fires and abandons it. -/
  | wdogIncomplete (c : Fin 64)
  /-- SLU_JOB_RELEASE (R153): A Sluice job is released on a parent frame, leasing the parent, or the frame becomes the pending job. -/
  | sluJobRelease (c : Fin 64)
  /-- SLU_STRIPE_START (R161): A free pipeline starts the ready stripe with the earliest deadline. -/
  | sluStripeStart (p : Fin 2)
  /-- SLU_STRIPE_END (R162): A stripe ends, and at a job's last stripe its outputs are requested for publication in order. -/
  | sluStripeEnd (p : Fin 2)
  /-- SLU_JOB_DROP (R165): A stripe's deadline passes unfinished; the job is dropped with MISS and its pipeline is freed. -/
  | sluJobDrop (c : Fin 64)
  /-- SLU_APPLY (R169): A write of APPLY starts validation of a context's staged set. -/
  | sluApply (c : Fin 64)
  /-- SLU_APPLY_DONE (R171): After 40 SLU cycles the staged set becomes pending, or is refused with a code. -/
  | sluApplyDone
  /-- VDC_ADMIT (R180): ADMIT of a decode stream binds it to an entropy engine or refuses it. -/
  | vdcAdmit (stream : BitVec 8)
  /-- VDC_REMOVE (R183): REMOVE abandons a stream's work, drops its reference marks and orphans its source. -/
  | vdcRemove (stream : BitVec 8)
  /-- VDC_INJECT (R184): INJECT reads parameter sets into a stream as if they arrived in band. -/
  | vdcInject (stream : BitVec 8)
  /-- VDC_CMD_DONE (R182): A decode command ends its 64 FAB cycles of BUSY and takes effect at one VID edge. -/
  | vdcCmdDone
  /-- ENTROPY_AU_START (R186): A free entropy engine takes the queued access unit with the earliest arrival stamp. -/
  | entropyAuStart (engine : Fin 4)
  /-- ENTROPY_AU_DONE (R186): The last symbol of a picture is written, or the picture is abandoned with OVERRUN or UNSUP. -/
  | entropyAuDone (engine : Fin 4) (info : PicInfo)
  /-- PIXEL_ENGINE_START (R187): A free pixel engine starts the waiting picture with the earliest arrival stamp, taking a buffer. -/
  | pixelEngineStart (engine : Fin 4)
  /-- RECON_DONE (R187): A picture's reconstruction ends, with concealment applied, and pictures are published in output order. -/
  | reconDone (engine : Fin 4) (result : Recon)
  /-- VEN_ADMIT (R199): ADMIT of an encoder session admits it or refuses it with a code. -/
  | venAdmit (session : BitVec 5)
  /-- VEN_REMOVE (R200): REMOVE ends a session and abandons the picture being coded. -/
  | venRemove (session : BitVec 5)
  /-- VEN_IDR (R203): The IDR command makes the session's next picture an IDR. -/
  | venIdr (session : BitVec 5)
  /-- VEN_CMD_DONE (R200): An encoder command ends its 64 FAB cycles of BUSY and takes effect at one VID edge. -/
  | venCmdDone
  /-- ENC_PICTURE_START (R207): The free encoder starts the waiting write-back frame with the earliest publish. -/
  | encPictureStart
  /-- ENC_ROW_DONE (R211): A coded row is tested against the cap and accepted, or discarded and replaced by floor rows. -/
  | encRowDone (bits : BitVec 32) (payload : List Byte) (sealFail : Bool)
  /-- ENC_PICTURE_DONE (R208): The last row of a picture is coded, with its provenance SEI message and rate-control update. -/
  | encPictureDone
  /-- ENC_AU_WRITTEN (R209): A coded access unit is complete in the output ring and WPTR advances, or RING_FULL is raised. -/
  | encAuWritten (session : BitVec 5)
  /-- POOL_CFG (R226): POOL_CFG gives an empty pool its class of format and size. -/
  | poolCfg (arg0 : BitVec 64) (arg1 : BitVec 64)
  /-- BUF_ADD (R226): BUF_ADD binds a descriptor to a buffer base in a configured pool. -/
  | bufAdd (arg0 : BitVec 64) (arg1 : BitVec 64)
  /-- BUF_REMOVE (R232): BUF_REMOVE unbinds a FREE buffer's descriptor. -/
  | bufRemove (arg0 : BitVec 64) (arg1 : BitVec 64)
  /-- TAKE (R227): TAKE gives host software the lowest FREE buffer of a pool as a host-owned FILLING buffer. -/
  | take (arg0 : BitVec 64) (arg1 : BitVec 64)
  /-- PUBLISH (R244): PUBLISH seals a host-owned buffer by one read and makes it CURRENT with a new sequence. -/
  | publish (arg0 : BitVec 64) (arg1 : BitVec 64)
  /-- FREE (R230): FREE returns a buffer to its pool, or makes a held buffer RETIRING. -/
  | free (arg0 : BitVec 64) (arg1 : BitVec 64)
  /-- LEASE (R237): LEASE adds a HOST lease to a CURRENT or SUPERSEDED buffer. -/
  | lease (arg0 : BitVec 64) (arg1 : BitVec 64)
  /-- RELEASE (R237): RELEASE drops a HOST or PROG lease, freeing the buffer when its last hold drops. -/
  | release (arg0 : BitVec 64) (arg1 : BitVec 64)
  /-- SRC_ALLOC (R241): SRC_ALLOC binds the lowest FREE source ID of the window to host software. -/
  | srcAlloc (arg0 : BitVec 64) (arg1 : BitVec 64)
  /-- SRC_CLAIM (R241): SRC_CLAIM binds a named source ID to host software. -/
  | srcClaim (arg0 : BitVec 64) (arg1 : BitVec 64)
  /-- SRC_RETIRE (R242): SRC_RETIRE ends an orphan or host source, moving its ID to QUARANTINE or FREE. -/
  | srcRetire (arg0 : BitVec 64) (arg1 : BitVec 64)
  /-- STAGE (R246): STAGE reads and validates a layer's staging slot and adds it to its gallery's staged set. -/
  | stage (arg0 : BitVec 64) (arg1 : BitVec 64)
  /-- COMMIT (R249): COMMIT makes a gallery's staged layers pending for the next eligible latch. -/
  | commit (arg0 : BitVec 64) (arg1 : BitVec 64)
  /-- COMMIT_AT (R251): COMMIT_AT makes a gallery's staged layers pending for the first latch at or after a PTP time. -/
  | commitAt (arg0 : BitVec 64) (arg1 : BitVec 64)
  /-- CANCEL (R252): CANCEL withdraws a gallery's pending commit and keeps its staged set. -/
  | cancel (arg0 : BitVec 64) (arg1 : BitVec 64)
  /-- SNAPSHOT (R255): SNAPSHOT arms one capture of a gallery's state at its next latch. -/
  | snapshot (arg0 : BitVec 64) (arg1 : BitVec 64)
  /-- EAS_RESERVED_OP (R257): A write of OP 17 to 31 is a command refused with RESERVED. -/
  | easReservedOp (op : BitVec 5)
  /-- EAS_COMMAND_COMPLETE (R257): An Easel command ends its BUSY and takes effect, writing EAS_RESULT and DONE or REFUSED. -/
  | easCommandComplete
  /-- SCAN_LEASE_DROP (R234): A canvas frame's SCAN leases drop 4 FAB cycles after its last fetch data, freeing unheld buffers. -/
  | scanLeaseDrop (canvas : Fin 32)
  /-- GALLERY_LATCH (R310): A gallery takes its latch point, advancing its frame number and taking the commit, leases, configuration and enables. -/
  | galleryLatch (g : Fin 8) (failed : List (Fin 1024))
  /-- GAL_STATE_UPDATE (R254): EAS_GAL_STATE and, after a commit, EAS_GAL_ACK change 1 SCN + 3 FAB cycles after a latch, raising COMMITTED. -/
  | galStateUpdate (g : Fin 8)
  /-- HIT_TABLE_SWITCH (R471): The on-chip hit-test table of a gallery switches 1 SCN + 3 SEQ cycles after an epoch change. -/
  | hitTableSwitch (g : Fin 8)
  /-- ENGINE_WRITE (R264): A write to CMP_CNV_CFG.ENGINE reassigns the canvas or is refused with ENG_REFUSED. -/
  | engineWrite (canvas : Fin 32) (engine : BitVec 3)
  /-- FLATTEN_START (R286): The flattener starts a canvas flatten, leasing the static layers' sources. -/
  | flattenStart (canvas : Fin 32)
  /-- FLATTEN_DONE (R287): A flatten completes and its plane set becomes pending, or fails with FLAT_FAIL. -/
  | flattenDone (canvas : Fin 32)
  /-- PLANE_SET_FREE (R287): A replaced plane set is freed 4 FAB cycles after the last fetch data of its last frame. -/
  | planeSetFree (canvas : Fin 32)
  /-- WB_FRAME_PUBLISH (R298): A write-back frame whose last tile row is written is published as the canvas's write-back frame. -/
  | wbFramePublish (canvas : Fin 32)
  /-- GALLERY_ENABLE (R316): A write of CNV_GAL_CTRL.EN validates the gallery and starts its PLL, or refuses it. -/
  | galleryEnable (g : Fin 8) (value : BitVec 32)
  /-- CANVAS_ENABLE (R317): A write of CNV_CTRL.EN to 1 validates the canvas, which joins its gallery at the next latch in Gesso. -/
  | canvasEnable (canvas : Fin 32) (value : BitVec 32)
  /-- CANVAS_DISABLE (R317): A write of CNV_CTRL.EN to 0 makes the canvas leave its gallery at the next latch. -/
  | canvasDisable (canvas : Fin 32) (value : BitVec 32)
  /-- WEIR_LEVEL_CROSSING (R319): A canvas FIFO level crosses a Weir level, raising the fetch QoS or DRAM panic. -/
  | weirLevelCrossing (canvas : Fin 32) (level : BitVec 16) (row : BitVec 8)
  /-- FIFO_EMPTY (R322): The output stage finds the FIFO empty and shows Gesso to the end of the frame. -/
  | fifoEmpty (pixel : CanvasPixel)
  /-- TILE_ROW_EVALUATION (R330): At a tile-row boundary the Ledger samples time, evaluates every region and updates the Watch words. -/
  | tileRowEvaluation (g : Fin 8) (row : BitVec 8)
  /-- GLASS_ROW_RESULT (R361): The Glass check comparison of a tile row is held 21 LANE + 9 CMP cycles after its last symbol. -/
  | glassRowResult (canvas : Fin 32) (row : BitVec 8) (crc : BitVec 32) (more : List (BitVec 32))
  /-- SET_DEADLINE (R338): A write to LDG_SET_DL gives a committed layer a new deadline and warning level, or raises SET_REFUSED. -/
  | setDeadline (layer : Fin 1024) (value : BitVec 32)
  /-- PROOF_START (R369): A write of LDG_PROOF_CMD.START starts a proof test on a layer or refuses it. -/
  | proofStart (value : BitVec 32)
  /-- WATCH_PORT_READ (R366): An external read on the Watch port pins returns the addressed word. -/
  | watchPortRead (addr : BitVec 8)
  /-- HEARTBEAT_SEND (R391): A heartbeat leaves 1 SCN + 6 CMP cycles after each latch of a paired gallery. -/
  | heartbeatSend (g : Fin 8)
  /-- HEARTBEAT_RX (R392): A twin's heartbeat is paired with an own latch, resetting misses and checking epoch agreement. -/
  | heartbeatRx (port : Fin 4) (bytes : List Byte)
  /-- ROW_RECORD_SEND (R388): A row record leaves 8 CMP cycles after the last composed pixel of a tile row. -/
  | rowRecordSend (canvas : Fin 32) (row : BitVec 8)
  /-- ROW_RECORD_RX (R389): A twin's row record is received and checked for RECORD_SUM. -/
  | rowRecordRx (port : Fin 4) (bytes : List Byte)
  /-- ROW_COMPARE (R389): Own and twin row records are compared 12 CMP cycles after the later one is held. -/
  | rowCompare (canvas : Fin 32) (row : BitVec 8)
  /-- ROW_RECORD_TIMEOUT (R389): A twin record not held within 4 tile-row periods leaves the row unmatched as LATE. -/
  | rowRecordTimeout (canvas : Fin 32) (row : BitVec 8)
  /-- TWIN_LINE_RX (R385): A line of the twin's stream is held in the output stage and its tiles are checked. -/
  | twinLineRx (canvas : Fin 32) (line : BitVec 16) (bytes : List Byte)
  /-- TWIN_LATE (R384): A twin line is not held when needed and the canvas shows Gesso to the end of the frame. -/
  | twinLate (canvas : Fin 32)
  /-- MIRROR_RX (R394): The twin writes and stages a mirrored commit and commits it at the target, or raises MIRROR_FAIL. -/
  | mirrorRx (mirror : MirrorMsg)
  /-- YIELD (R396): TND_CMD.YIELD declares FAULT in the device's heartbeats. -/
  | yield
  /-- RESYNC (R398): TND_CMD.RESYNC starts a resync on a paired standby device, or raises CMD_REFUSED. -/
  | resync
  /-- RESYNC_IMAGE_RX (R399): The resyncing device takes the active device's slots, epoch and frame number at its next latch. -/
  | resyncImageRx (image : ImageMsg)
  /-- SEQ_START (R415): A write of SEQ_CMD.START begins the header check of a sequencer's program. -/
  | seqStart (n : Fin 16)
  /-- SEQ_START_DONE (R415): The header check ends and the sequencer runs from ENTRY 24 SEQ cycles later, or the start is refused. -/
  | seqStartDone (n : Fin 16)
  /-- HALT (R417): SEQ_CMD.HALT stops a sequencer at the next instruction boundary. -/
  | halt (n : Fin 16)
  /-- SEQ_HALT_DONE (R417): All posted writes of a halting sequencer are acknowledged and HALTED is raised. -/
  | seqHaltDone (n : Fin 16)
  /-- RESUME (R418): SEQ_CMD.RESUME continues a HALTED sequencer at its program counter. -/
  | resume (n : Fin 16)
  /-- STEP (R418): SEQ_CMD.STEP executes exactly one instruction of a HALTED sequencer. -/
  | step (n : Fin 16)
  /-- SEQ_SIGNAL (R423): A write to SEQ_SIGNAL signals a software event, ignored below 768. -/
  | seqSignal (number : BitVec 10)
  /-- SEQ_REG_WRITE (R420): A write to SEQ_REGk sets a register of a HALTED or FAULTED sequencer and is ignored otherwise. -/
  | seqRegWrite (n : Fin 16) (k : Fin 32) (value : BitVec 64)
  /-- SEQ_WINDOW_WRITE (R412): A fabric write into a sequencer window writes data memory, or is dropped from instruction memory of a running sequencer. -/
  | seqWindowWrite (n : Fin 16) (off : BitVec 19) (bytes : List Byte)
  /-- SEQ_TIMER_EXPIRY (R426): A sequencer timer expires and signals its event to its owner. -/
  | seqTimerExpiry (n : Fin 16) (t : Fin 4)
  /-- SEQ_WAIT_COMPLETE (R424): An event wait, time wait or latch wait completes and the sequencer issues its next instruction. -/
  | seqWaitComplete (n : Fin 16)
  /-- SEQ_FABRIC_READ_RETURN (R430): The data of a sequencer's fabric read returns to its register. -/
  | seqFabricReadReturn (n : Fin 16)
  /-- SEQ_WRITE_RESPONSE (R429): A posted write is acknowledged, or its error response faults the sequencer. -/
  | seqWriteResponse (n : Fin 16)
  /-- UNDEFINED_OPCODE (R437): An undefined opcode or reserved function faults with cause OPCODE. -/
  | undefinedOpcode (n : Fin 16) (word : BitVec 64)
  /-- ADD (R441): add writes ra + rb. -/
  | add (n : Fin 16) (rd : BitVec 5) (ra : BitVec 5) (rb : BitVec 5) (fn : BitVec 9) (imm : BitVec 32)
  /-- SUB (R441): sub writes ra − rb. -/
  | sub (n : Fin 16) (rd : BitVec 5) (ra : BitVec 5) (rb : BitVec 5) (fn : BitVec 9) (imm : BitVec 32)
  /-- AND (R441): and writes ra & rb. -/
  | and (n : Fin 16) (rd : BitVec 5) (ra : BitVec 5) (rb : BitVec 5) (fn : BitVec 9) (imm : BitVec 32)
  /-- OR (R441): or writes ra | rb. -/
  | or (n : Fin 16) (rd : BitVec 5) (ra : BitVec 5) (rb : BitVec 5) (fn : BitVec 9) (imm : BitVec 32)
  /-- XOR (R441): xor writes ra ^ rb. -/
  | xor (n : Fin 16) (rd : BitVec 5) (ra : BitVec 5) (rb : BitVec 5) (fn : BitVec 9) (imm : BitVec 32)
  /-- SHL (R441): shl shifts ra left by rb. -/
  | shl (n : Fin 16) (rd : BitVec 5) (ra : BitVec 5) (rb : BitVec 5) (fn : BitVec 9) (imm : BitVec 32)
  /-- SHR (R441): shr shifts ra right by rb with zero fill. -/
  | shr (n : Fin 16) (rd : BitVec 5) (ra : BitVec 5) (rb : BitVec 5) (fn : BitVec 9) (imm : BitVec 32)
  /-- SRA (R441): sra shifts ra right by rb with sign fill. -/
  | sra (n : Fin 16) (rd : BitVec 5) (ra : BitVec 5) (rb : BitVec 5) (fn : BitVec 9) (imm : BitVec 32)
  /-- ADDI (R441): addi adds the sign-extended immediate. -/
  | addi (n : Fin 16) (rd : BitVec 5) (ra : BitVec 5) (rb : BitVec 5) (fn : BitVec 9) (imm : BitVec 32)
  /-- ANDI (R441): andi ands the zero-extended immediate. -/
  | andi (n : Fin 16) (rd : BitVec 5) (ra : BitVec 5) (rb : BitVec 5) (fn : BitVec 9) (imm : BitVec 32)
  /-- ORI (R441): ori ors the zero-extended immediate. -/
  | ori (n : Fin 16) (rd : BitVec 5) (ra : BitVec 5) (rb : BitVec 5) (fn : BitVec 9) (imm : BitVec 32)
  /-- XORI (R441): xori xors the zero-extended immediate. -/
  | xori (n : Fin 16) (rd : BitVec 5) (ra : BitVec 5) (rb : BitVec 5) (fn : BitVec 9) (imm : BitVec 32)
  /-- SHLI (R441): shli shifts left by an immediate. -/
  | shli (n : Fin 16) (rd : BitVec 5) (ra : BitVec 5) (rb : BitVec 5) (fn : BitVec 9) (imm : BitVec 32)
  /-- SHRI (R441): shri shifts right by an immediate with zero fill. -/
  | shri (n : Fin 16) (rd : BitVec 5) (ra : BitVec 5) (rb : BitVec 5) (fn : BitVec 9) (imm : BitVec 32)
  /-- SRAI (R441): srai shifts right by an immediate with sign fill. -/
  | srai (n : Fin 16) (rd : BitVec 5) (ra : BitVec 5) (rb : BitVec 5) (fn : BitVec 9) (imm : BitVec 32)
  /-- LIH (R441): lih places the immediate in the high half over ra's low half. -/
  | lih (n : Fin 16) (rd : BitVec 5) (ra : BitVec 5) (rb : BitVec 5) (fn : BitVec 9) (imm : BitVec 32)
  /-- MUL (R442): mul writes the low 64 bits of the product. -/
  | mul (n : Fin 16) (rd : BitVec 5) (ra : BitVec 5) (rb : BitVec 5) (fn : BitVec 9) (imm : BitVec 32)
  /-- MULHU (R442): mulhu writes the high 64 bits of the unsigned product. -/
  | mulhu (n : Fin 16) (rd : BitVec 5) (ra : BitVec 5) (rb : BitVec 5) (fn : BitVec 9) (imm : BitVec 32)
  /-- DIVU (R442): divu writes the unsigned quotient. -/
  | divu (n : Fin 16) (rd : BitVec 5) (ra : BitVec 5) (rb : BitVec 5) (fn : BitVec 9) (imm : BitVec 32)
  /-- REMU (R442): remu writes the unsigned remainder. -/
  | remu (n : Fin 16) (rd : BitVec 5) (ra : BitVec 5) (rb : BitVec 5) (fn : BitVec 9) (imm : BitVec 32)
  /-- CMP (R443): cmp writes 1 when the condition holds on ra and rb. -/
  | cmp (n : Fin 16) (rd : BitVec 5) (ra : BitVec 5) (rb : BitVec 5) (fn : BitVec 9) (imm : BitVec 32)
  /-- CMPI (R443): cmpi writes 1 when the condition holds on ra and the immediate. -/
  | cmpi (n : Fin 16) (rd : BitVec 5) (ra : BitVec 5) (rb : BitVec 5) (fn : BitVec 9) (imm : BitVec 32)
  /-- BR (R443): br branches relative when the condition holds. -/
  | br (n : Fin 16) (rd : BitVec 5) (ra : BitVec 5) (rb : BitVec 5) (fn : BitVec 9) (imm : BitVec 32)
  /-- JMP (R443): jmp links and jumps to the immediate index. -/
  | jmp (n : Fin 16) (rd : BitVec 5) (ra : BitVec 5) (rb : BitVec 5) (fn : BitVec 9) (imm : BitVec 32)
  /-- JR (R443): jr links and jumps to ra plus the immediate. -/
  | jr (n : Fin 16) (rd : BitVec 5) (ra : BitVec 5) (rb : BitVec 5) (fn : BitVec 9) (imm : BitVec 32)
  /-- LD (R444): ld loads from local data memory. -/
  | ld (n : Fin 16) (rd : BitVec 5) (ra : BitVec 5) (rb : BitVec 5) (fn : BitVec 9) (imm : BitVec 32)
  /-- ST (R444): st stores to local data memory. -/
  | st (n : Fin 16) (rd : BitVec 5) (ra : BitVec 5) (rb : BitVec 5) (fn : BitVec 9) (imm : BitVec 32)
  /-- FLD (R444): fld issues a blocking fabric read. -/
  | fld (n : Fin 16) (rd : BitVec 5) (ra : BitVec 5) (rb : BitVec 5) (fn : BitVec 9) (imm : BitVec 32)
  /-- FST (R444): fst issues a posted fabric write. -/
  | fst (n : Fin 16) (rd : BitVec 5) (ra : BitVec 5) (rb : BitVec 5) (fn : BitVec 9) (imm : BitVec 32)
  /-- FENCE (R444): fence waits until no posted write is outstanding. -/
  | fence (n : Fin 16) (rd : BitVec 5) (ra : BitVec 5) (rb : BitVec 5) (fn : BitVec 9) (imm : BitVec 32)
  /-- KSIS_HALT (R445): halt ends the program and halts the sequencer. -/
  | ksisHalt (n : Fin 16) (rd : BitVec 5) (ra : BitVec 5) (rb : BitVec 5) (fn : BitVec 9) (imm : BitVec 32)
  /-- TRAP (R445): trap faults with cause TRAP. -/
  | trap (n : Fin 16) (rd : BitVec 5) (ra : BitVec 5) (rb : BitVec 5) (fn : BitVec 9) (imm : BitVec 32)
  /-- UMODE (R445): umode enters user mode at an index. -/
  | umode (n : Fin 16) (rd : BitVec 5) (ra : BitVec 5) (rb : BitVec 5) (fn : BitVec 9) (imm : BitVec 32)
  /-- SYSRD (R446): sysrd reads a system value. -/
  | sysrd (n : Fin 16) (rd : BitVec 5) (ra : BitVec 5) (rb : BitVec 5) (fn : BitVec 9) (imm : BitVec 32)
  /-- EWAIT (R447): ewait consumes a pending event or enters WAITING. -/
  | ewait (n : Fin 16) (rd : BitVec 5) (ra : BitVec 5) (rb : BitVec 5) (fn : BitVec 9) (imm : BitVec 32)
  /-- ESIG (R447): esig signals a software event. -/
  | esig (n : Fin 16) (rd : BitVec 5) (ra : BitVec 5) (rb : BitVec 5) (fn : BitVec 9) (imm : BitVec 32)
  /-- EMASK (R447): emask updates a mask word. -/
  | emask (n : Fin 16) (rd : BitVec 5) (ra : BitVec 5) (rb : BitVec 5) (fn : BitVec 9) (imm : BitVec 32)
  /-- TSET (R448): tset arms, re-arms or disarms a timer. -/
  | tset (n : Fin 16) (rd : BitVec 5) (ra : BitVec 5) (rb : BitVec 5) (fn : BitVec 9) (imm : BitVec 32)
  /-- TRD (R447): trd reads the full or short time of the SEQ time copy. -/
  | trd (n : Fin 16) (rd : BitVec 5) (ra : BitVec 5) (rb : BitVec 5) (fn : BitVec 9) (imm : BitVec 32)
  /-- TWAIT (R447): twait waits until the time reaches a target. -/
  | twait (n : Fin 16) (rd : BitVec 5) (ra : BitVec 5) (rb : BitVec 5) (fn : BitVec 9) (imm : BitVec 32)
  /-- LSET (R450): lset writes a descriptor into a staging slot and stages it. -/
  | lset (n : Fin 16) (rd : BitVec 5) (ra : BitVec 5) (rb : BitVec 5) (fn : BitVec 9) (imm : BitVec 32)
  /-- LSHOW (R451): lshow stages a layer with SHOW at 1. -/
  | lshow (n : Fin 16) (rd : BitVec 5) (ra : BitVec 5) (rb : BitVec 5) (fn : BitVec 9) (imm : BitVec 32)
  /-- LHIDE (R451): lhide stages a layer with SHOW at 0. -/
  | lhide (n : Fin 16) (rd : BitVec 5) (ra : BitVec 5) (rb : BitVec 5) (fn : BitVec 9) (imm : BitVec 32)
  /-- CSET_CFG (R449): cset with FN 0 writes CMP_CNV_CFG except ENGINE. -/
  | csetCfg (n : Fin 16) (rd : BitVec 5) (ra : BitVec 5) (rb : BitVec 5) (fn : BitVec 9) (imm : BitVec 32)
  /-- CSET_BG (R449): cset with FN 1 writes CMP_CNV_BG. -/
  | csetBg (n : Fin 16) (rd : BitVec 5) (ra : BitVec 5) (rb : BitVec 5) (fn : BitVec 9) (imm : BitVec 32)
  /-- ESTAGE (R449): estage issues STAGE of a layer. -/
  | estage (n : Fin 16) (rd : BitVec 5) (ra : BitVec 5) (rb : BitVec 5) (fn : BitVec 9) (imm : BitVec 32)
  /-- KSIS_COMMIT (R449): commit with FN 0 issues COMMIT of a gallery. -/
  | ksisCommit (n : Fin 16) (rd : BitVec 5) (ra : BitVec 5) (rb : BitVec 5) (fn : BitVec 9) (imm : BitVec 32)
  /-- KSIS_CANCEL (R449): commit with FN 1 issues CANCEL of a gallery. -/
  | ksisCancel (n : Fin 16) (rd : BitVec 5) (ra : BitVec 5) (rb : BitVec 5) (fn : BitVec 9) (imm : BitVec 32)
  /-- CMTAT (R449): cmtat issues COMMIT_AT of a gallery. -/
  | cmtat (n : Fin 16) (rd : BitVec 5) (ra : BitVec 5) (rb : BitVec 5) (fn : BitVec 9) (imm : BitVec 32)
  /-- LWAIT (R452): lwait waits for a latch of a gallery. -/
  | lwait (n : Fin 16) (rd : BitVec 5) (ra : BitVec 5) (rb : BitVec 5) (fn : BitVec 9) (imm : BitVec 32)
  /-- DLSET (R455): dlset writes LDG_SET_DL for a layer. -/
  | dlset (n : Fin 16) (rd : BitVec 5) (ra : BitVec 5) (rb : BitVec 5) (fn : BitVec 9) (imm : BitVec 32)
  /-- VREAD (R455): vread reads a layer's verdict status. -/
  | vread (n : Fin 16) (rd : BitVec 5) (ra : BitVec 5) (rb : BitVec 5) (fn : BitVec 9) (imm : BitVec 32)
  /-- PINJ (R455): pinj starts a proof test. -/
  | pinj (n : Fin 16) (rd : BitVec 5) (ra : BitVec 5) (rb : BitVec 5) (fn : BitVec 9) (imm : BitVec 32)
  /-- KSIS_LEASE (R455): lease takes a PROG lease on a descriptor. -/
  | ksisLease (n : Fin 16) (rd : BitVec 5) (ra : BitVec 5) (rb : BitVec 5) (fn : BitVec 9) (imm : BitVec 32)
  /-- KSIS_RELEASE (R455): release drops a lease on a descriptor. -/
  | ksisRelease (n : Fin 16) (rd : BitVec 5) (ra : BitVec 5) (rb : BitVec 5) (fn : BitVec 9) (imm : BitVec 32)
  /-- KSIS_FREE (R455): free issues FREE of a descriptor. -/
  | ksisFree (n : Fin 16) (rd : BitVec 5) (ra : BitVec 5) (rb : BitVec 5) (fn : BitVec 9) (imm : BitVec 32)
  /-- THIT (R456): thit runs the hit test at a canvas point. -/
  | thit (n : Fin 16) (rd : BitVec 5) (ra : BitVec 5) (rb : BitVec 5) (fn : BitVec 9) (imm : BitVec 32)
  /-- JAPP (R457): japp appends a PROGRAM Journal entry. -/
  | japp (n : Fin 16) (rd : BitVec 5) (ra : BitVec 5) (rb : BitVec 5) (fn : BitVec 9) (imm : BitVec 32)
  /-- CKRUN (R455): ckrun sets a check unit's source and length and starts it. -/
  | ckrun (n : Fin 16) (rd : BitVec 5) (ra : BitVec 5) (rb : BitVec 5) (fn : BitVec 9) (imm : BitVec 32)
  /-- TOUCH_SCAN_START (R464): A touch port starts a scan at the start of each report period. -/
  | touchScanStart (i : Fin 2)
  /-- TOUCH_SCAN_END (R466): A scan ends; peaks, contacts and baselines are computed and the record is written. -/
  | touchScanEnd (i : Fin 2) (counts : List (BitVec 16))
  /-- TOUCH_REPORT_EVENT (R474): A report's contact or motion event is signalled after its fixed delay. -/
  | touchReportEvent (i : Fin 6)
  /-- TOUCH_REMOTE_REPORT_RX (R540): A KZ4400 touch report arrives and is mapped, hit-tested and recorded. -/
  | touchRemoteReportRx (port : Fin 4) (report : List Byte)
  /-- TOUCH_TEST_START (R478): TCH_TEST_CMD.START ends contacts and starts the line self-test, or raises CFG_REFUSED. -/
  | touchTestStart (i : Fin 2)
  /-- TOUCH_TEST_DONE (R478): The 60 test steps end, results are set and active scanning resumes. -/
  | touchTestDone (i : Fin 2) (coupled : List (BitVec 16)) (stray : List (BitVec 16))
  /-- TOUCH_CONFIG_WRITE (R479): A touch configuration write takes effect at the next report or is refused. -/
  | touchConfigWrite (off : BitVec 26) (value : BitVec 32)
  /-- WAKE_SCAN (R476): In Still a port takes a self-capacitance wake scan every 1,024 AON cycles. -/
  | wakeScan (i : Fin 2) (counts : List (BitVec 16))
  /-- CPR_TAIL_WRITE (R480): A write of CPR_TAIL gives an engine new descriptors. -/
  | cprTailWrite (e : Fin 2) (value : BitVec 16)
  /-- CPR_JOB_START (R482): An engine takes the next descriptor and starts the job or refuses it. -/
  | cprJobStart (e : Fin 2)
  /-- CPR_JOB_END (R489): A compression job ends, writing its results and STATUS and advancing CPR_HEAD. -/
  | cprJobEnd (e : Fin 2)
  /-- JOURNAL_REQUEST (R491): An append request is taken into the Journal input queue, or lost when the queue is full. -/
  | journalRequest
  /-- JOURNAL_APPEND (R492): The Journal forms the next chained entry every 128 FAB cycles. -/
  | journalAppend
  /-- JOURNAL_RING_WRITE (R495): A staged entry drains to the ring, raising OVERWRITE over an unacknowledged slot. -/
  | journalRingWrite
  /-- JNL_ACK_WRITE (R495): A write of JNL_ACK records the highest exported index. -/
  | jnlAckWrite (value : BitVec 64)
  /-- HEAD_CAPTURE (R503): JNL_HEAD_CAPTURE copies the chain head index and digest. -/
  | headCapture
  /-- HOST_APPEND (R497): JNL_HOST_CMD.APPEND requests a HOST entry, refused while the Journal is off. -/
  | hostAppend
  /-- EVID_CAPTURE_START (R498): JNL_EVID_CMD.START leases a canvas write-back frame and queues a capture, or refuses it. -/
  | evidCaptureStart (canvas : Fin 32)
  /-- EVID_CAPTURE_DONE (R501): A capture job finishes and an EVIDENCE entry is requested. -/
  | evidCaptureDone
  /-- QUAD_USE_COMMIT (R506): LANE_QUAD_COMMIT validates the quad uses, locks them and starts the quad PLLs, or refuses them. -/
  | quadUseCommit
  /-- QUAD_PLL_LOCK (R506): A used quad's PLL locks and READY rises when all are locked. -/
  | quadPllLock (q : Fin 16)
  /-- QUAD_PLL_LOCK_LOSS (R518): A quad PLL loses lock on every lane of the quad and READY falls. -/
  | quadPllLockLoss (q : Fin 16)
  /-- LANE_LOCK_LOSS (R518): A receive lane loses CDR lock or alignment, with the consequence of its port's use. -/
  | laneLockLoss (lane : Fin 64)
  /-- DPTX_TRAINING_START (R511): A transmitter with EN 1 and HPD high starts link training. -/
  | dptxTrainingStart (q : Fin 16)
  /-- DPTX_TRAINING_END (R511): Training succeeds, or fails with a cause and TRAIN_FAIL. -/
  | dptxTrainingEnd (q : Fin 16) (result : TrainingEnd) (levels : List (BitVec 4))
  /-- DPTX_RETRY (R511): RETRY_MS after a failure, training starts again. -/
  | dptxRetry (q : Fin 16)
  /-- IRQ_HPD (R512): A low of 250 to 2,000 µs on HPD is an IRQ_HPD and the link status is read. -/
  | irqHpd (q : Fin 16) (low : BitVec 12) (status : List Byte)
  /-- HPD_UNPLUG (R512): A low reaching 2,001 µs is an unplug and the transmitter goes IDLE. -/
  | hpdUnplug (q : Fin 16)
  /-- AUX_START (R513): LANE_AUX_CMD.START begins a host AUX transaction, or refuses it with AUX_ERR. -/
  | auxStart (q : Fin 16) (value : BitVec 32)
  /-- AUX_DONE (R513): A host AUX transaction ends with its reply held. -/
  | auxDone (q : Fin 16) (reply : BitVec 2) (bytes : List Byte)
  /-- DPRX_AUX_REQUEST (R514): A receiver answers a source's AUX request from its DPCD and EDID. -/
  | dprxAuxRequest (q : Fin 16) (req : BitVec 4) (addr : BitVec 20) (bytes : List Byte) (len : BitVec 5)
  /-- DPRX_TRAINED (R515): The source ends training and the receiver becomes TRAINED. -/
  | dprxTrained (q : Fin 16)
  /-- TX_FIR_WRITE (R516): A LANE_TX_FIR write sets the taps or is refused with CFG_REFUSED. -/
  | txFirWrite (lane : Fin 64) (value : BitVec 32)
  /-- LANE_TEST_WRITE (R522): A LANE_TEST write sets PRBS and loop fields on an idle port or is refused. -/
  | laneTestWrite (lane : Fin 64) (value : BitVec 32)
  /-- PRBS_SYNC (R520): The PRBS checker gains or loses PRBS_LOCK. -/
  | prbsSync (lane : Fin 64) (first : Bool) (more : List Bool)
  /-- LNK_CFG_WRITE (R549): A write of LNK_CFG starts bring-up with EN 1 or is refused. -/
  | lnkCfgWrite (port : Fin 4) (value : BitVec 32)
  /-- BLOCK_LOCK_ACQUIRED (R530): An Ndosin lane gains block lock after 64 valid headers. -/
  | blockLockAcquired (port : Fin 4) (lane : LaneHeaders)
  /-- MARKER_RX (R531): A MARKER block is received and used for deskew and lane identity. -/
  | markerRx (port : Fin 4) (lane : Fin 4) (block : WireBlock) (at_ : BitVec 32)
  /-- MARKER_SEND (R531): Every 4,096th LANE cycle each active lane sends a MARKER. -/
  | markerSend (port : Fin 4)
  /-- CAP_RX (R536): Partner CAP blocks are acknowledged and the link version, features and rate are agreed. -/
  | capRx (port : Fin 4) (block : WireBlock)
  /-- NDOSIN_RATE_CHANGE (R533): The quad PLL relocks at the agreed rate and locking and deskew repeat. -/
  | ndosinRateChange (port : Fin 4)
  /-- BRINGUP_TIMEOUT (R533): A bring-up step passes its limit, BRINGUP_FAIL is raised and the port is DOWN. -/
  | bringupTimeout (port : Fin 4)
  /-- BRINGUP_RESTART (R533): 10 ms after going DOWN with EN 1 a port restarts bring-up. -/
  | bringupRestart (port : Fin 4)
  /-- NDOSIN_PACKET_SEND (R539): At a packet end the transmitter starts the highest-priority waiting packet. -/
  | ndosinPacketSend (port : Fin 4)
  /-- NDOSIN_PACKET_RX (R538): A received packet is checked and delivered to its destination, or discarded with PKT_BAD. -/
  | ndosinPacketRx (port : Fin 4) (skip : Fin 4) (lanes : List (List WireBlock)) (room : Bool)
  /-- WIDTH_RX (R544): A WIDTH block with COUNTDOWN 0 restripes the receiver and may start an own width change. -/
  | widthRx (port : Fin 4) (block : WireBlock)
  /-- WIDTH_CHANGE_DONE (R545): A countdown ends and the port stripes over the new lane set. -/
  | widthChangeDone (port : Fin 4)
  /-- LANE_RESTORE_TRY (R546): Every 100 ms a dropped lane pair is tried again and restored when ready. -/
  | laneRestoreTry (port : Fin 4)
  /-- PROTECTION_CHECK (R579): A held transaction is checked by its group's protection unit and refused whole on a forbidden granule. -/
  | protectionCheck (master : BitVec 7)
  /-- FABRIC_GRANT (R557): A target port grants the waiting request of highest effective QoS. -/
  | fabricGrant (port : Fin 11)
  /-- DECODE_ERROR (R562): The default target answers a rejected request with an error response and records it. -/
  | decodeError
  /-- RESPONSE_RETURN (R564): A target response returns to its master, discarded if of an older generation. -/
  | responseReturn (name : RespName)
  /-- MASTER_RESET (R564): XBR_MRESET.START resets a master's shim, dropping unpresented bursts and advancing its generation. -/
  | masterReset (master : BitVec 7)
  /-- MRESET_DONE (R565): The reset shim releases its IDs and reports MRESET_DONE. -/
  | mresetDone
  /-- HOST_REQUEST (R568): A PCIe host request enters the fabric, split at 256-byte boundaries, in arrival order. -/
  | hostRequest (write : Bool) (addr : BitVec 40) (len : BitVec 13) (bytes : List (Option Byte))
  /-- HOST_COMPLETION (R569): A host read completes, or an error response gives Completer Abort and HOST_ERR. -/
  | hostCompletion
  /-- MSIX_MESSAGE (R570): A raised enabled vector sends its MSI-X message 12 FAB cycles later and clears its pending bit. -/
  | msixMessage (vector : Fin 512)
  /-- MSIX_UNMASK (R570): Unmasking a pending vector sends its message at once. -/
  | msixUnmask (vector : Fin 512)
  /-- MBX_DOORBELL_H2D (R571): The H2D doorbell signals the mailbox event to the sequencers. -/
  | mbxDoorbellH2d
  /-- MBX_DOORBELL_D2H (R571): The D2H doorbell raises the mailbox interrupt. -/
  | mbxDoorbellD2h
  /-- MBX_ATTACH (R572): A write of GLB_MBX_ATTACH attaches version 2 or is refused. -/
  | mbxAttach (version : BitVec 8)
  /-- PCIE_PERST (R669): PCIE_PERST_N low resets the PCIe layer and its link only. -/
  | pciePerst
  /-- PCIE_HOT_RESET (R621): A PCIe Hot Reset with HOTRST_EN 1 causes a warm reset. -/
  | pcieHotReset
  /-- PRT_HOLD_REQUEST (R583): A write of PRT_HOLD.REQ 1 holds new transactions of the group. -/
  | prtHoldRequest (u : Fin 13)
  /-- PRT_HOLD_HELD (R583): HELD is set 3 FAB cycles after the request. -/
  | prtHoldHeld (u : Fin 13)
  /-- PRT_HOLD_RELEASE (R583): A write of REQ 0 ends the hold. -/
  | prtHoldRelease (u : Fin 13)
  /-- PRT_CONFIG_EFFECT (R583): The new protection configuration takes effect 2 FAB cycles after the release and waiting transactions are checked. -/
  | prtConfigEffect (u : Fin 13)
  /-- PRT_REGION_WRITE (R584): A region or default write is accepted under a hold, or raises UPD_REFUSED. -/
  | prtRegionWrite (off : BitVec 26) (value : BitVec 64)
  /-- DRAM_INIT (R604): DMC_CTRL.INIT starts full training of all channels. -/
  | dramInit
  /-- DRAM_INIT_DONE (R604): Training and ECC initialisation end with READY and INIT_DONE, or INIT_FAIL. -/
  | dramInitDone (failed : BitVec 8) (margins : List (BitVec 8))
  /-- DRAM_RESET (R614): DMC_CTRL.RESET stops every channel and enters Gesso hold. -/
  | dramReset
  /-- FREQ_REQUEST (R609): DMC_FREQ.START requests a set point, deferred during a window or refused. -/
  | freqRequest (sp : BitVec 2)
  /-- FREQ_DONE (R608): The frequency change ends and traffic resumes at the new set point. -/
  | freqDone
  /-- RETRAIN_WINDOW_START (R606): A channel's retraining window opens in its slot of each 100 ms interval. -/
  | retrainWindowStart (c : Fin 8)
  /-- RETRAIN_WINDOW_END (R610): The window closes with its measured margin applied or kept, changing MARGIN_OK. -/
  | retrainWindowEnd (c : Fin 8) (margin : BitVec 8)
  /-- REFRESH (R603): A channel refreshes at the interval MR4 requires, postponed under panic. -/
  | refresh (c : Fin 8)
  /-- MR4_READ (R603): Every 4 ms a channel reads MR4 for the refresh rate. -/
  | mr4Read (c : Fin 8) (code : BitVec 3)
  /-- PANIC_RAISE (R601): A real-time port crosses its panic level and panic reaches all channels. -/
  | panicRaise (source : Fin 33)
  /-- PANIC_RELEASE (R601): A real-time port leaves its panic level and panic ends. -/
  | panicRelease (source : Fin 33)
  /-- DRAM_READ_ECC (R597): A DRAM read finds a correctable or uncorrectable ECC error. -/
  | dramReadEcc (addr : BitVec 36) (uncorr : Bool) (kind : EccKind)
  /-- POWER_ON_RESET (R634): Release of PWR_POR_N runs the AON island, clears retention and raises PWR_MAIN_EN. -/
  | powerOnReset (device : BitVec 6) (position : Bool) (bootSrc : Bool)
  /-- MAIN_POWER_GOOD (R634): PWR_PG_MAIN high lets the main domain leave reset 1 ms later. -/
  | mainPowerGood
  /-- BROWNOUT (R620): PWR_PG_MAIN falls with PWR_MAIN_EN high and the main domain is held in reset. -/
  | brownout
  /-- WARM_RESET (R621): WARM_RST_N low for 1 µs causes a warm reset. -/
  | warmReset
  /-- WARM (R621): PWR_CTRL.WARM starts a warm reset. -/
  | warm
  /-- BOOT_START (R630): A boot checks the image header and brings up DRAM. -/
  | bootStart (image : List Byte)
  /-- BOOT_GO (R627): PWR_BOOT_GO starts the load of a host-written image in WAIT_HOST. -/
  | bootGo
  /-- BOOT_DIGEST_DONE (R630): The image digest is computed and compared with DIGEST, retention and OTP. -/
  | bootDigestDone
  /-- BOOT_RECORD (R629): A boot record matching the reset kind is executed. -/
  | bootRecord
  /-- BOOT_WAIT_EXPIRY (R629): A WAIT record's time expires and the boot continues. -/
  | bootWaitExpiry
  /-- BOOT_END (R630): The END record sets DONE, raises BOOT_DONE and writes the retention store. -/
  | bootEnd
  /-- OTP_PROGRAM (R633): PROGRAM burns a digest into an EMPTY OTP slot. -/
  | otpProgram (slot : BitVec 2)
  /-- OTP_REVOKE (R633): REVOKE marks a PROGRAMMED OTP slot REVOKED. -/
  | otpRevoke (slot : BitVec 2)
  /-- OTP_DONE (R633): An OTP command completes and OTP_DONE is raised. -/
  | otpDone
  /-- STILL_ENTER (R635): PWR_STILL_CMD.ENTER starts Still entry or is refused. -/
  | stillEnter
  /-- STILL_DRAIN_DONE (R636): The Journal drain ends and every channel enters self-refresh. -/
  | stillDrainDone
  /-- STILL_MAIN_OFF (R636): Self-refresh is held and PWR_MAIN_EN goes low. -/
  | stillMainOff
  /-- WAKE_PIN (R637): WAKE_N low for 2 AON cycles fires a wake source. -/
  | wakePin
  /-- RTC_ALARM (R637): The RTC reaches ALARM and fires a wake source. -/
  | rtcAlarm
  /-- WAKE (R640): A wake decision raises PWR_MAIN_EN 2 AON cycles later and the wake boot follows. -/
  | wake (device : BitVec 6) (position : Bool) (bootSrc : Bool)
  /-- WAKE_HOLD_EXPIRY (R638): A held wake source acts once PWR_MAIN_EN has been low for 10 ms. -/
  | wakeHoldExpiry
  /-- RTC_WRITE (R639): A write of PWR_RTC_SEC sets the seconds and clears the fraction. -/
  | rtcWrite (seconds : BitVec 48)
  /-- LBIST (R642): BST_CMD.LBIST starts logic self-test or is refused. -/
  | lbist
  /-- MBIST (R642): BST_CMD.MBIST starts memory self-test or is refused. -/
  | mbist
  /-- BIST_DONE (R643): The self-test run ends, results are held and a warm reset follows. -/
  | bistDone (signature : BitVec 64) (failed : BitVec 12)
  /-- SCN_LINE_BOUNDARY (R323): A gallery's timing generator reaches a line boundary: the output stage switches to Gesso for a pending cause, stopped video stops, latch conditions are tested, and missing Glass tiles are counted at the end of blanking. -/
  | scnLineBoundary (g : Fin 8)
  /-- ISLAND_RELOCK (R32): REFCLK returns or a fixed-island PLL locks again, setting REFCLK_OK or its ISLAND_LOCK bit while Gesso hold remains until warm reset. -/
  | islandRelock (refclk : Bool) (islands : BitVec 6)
  /-- LANE_CDR_LOCK (R517): A receive lane's CDR gains lock and its PCS gains alignment, setting CDR_LOCK and PCS_LOCK, after which the equalisers adapt and ADAPTED is set. -/
  | laneCdrLock (lane : Fin 64) (found : RxLock) (taps : Adaptation)
  /-- HPD_PULSE_END (R518): The 0.5 ms HPD low pulse that a DisplayPort receiver sends after a link loss ends and HPD is driven high again. -/
  | hpdPulseEnd (q : Fin 16)
  /-- DEBUG_MASTER_REQUEST (R582): The JTAG debug master, selected by the DEBUG instruction, issues a fabric read or write that is checked by unit 1 and the fixed debug rules. -/
  | debugMasterRequest (addr : BitVec 40) (write : Bool) (len : BitVec 9) (bytes : List (Option Byte))
  deriving DecidableEq, Repr

end Sys2Proof
end

