-- ==== Sys2Proof/Config.lean ====
section
/-!
DEFINITION. What the spec leaves open: free values (constants with no body, applied to State.free or to the operands they depend
on), and the figures that an implementation fixes.
-/

namespace Sys2Proof

/-- A free natural number, drawn at a count of draws (log entry 5). -/
opaque Config.freeNat : Nat → Nat

/-- A free integer, drawn at a count of draws (log entry 5). -/
opaque Config.freeInt : Nat → Int

/-- Free bytes, drawn at a count of draws (log entry 5). -/
opaque Config.freeBytes : Nat → List Byte

/-- The bits by which a dynamic block gives its codes (R483: the spec does not state how they are built; log entry 12): a function of the
block's literals and matches, as (byte, 0) and (length, distance). -/
opaque Config.dynamicHeader : List (Nat × Nat) → List Bool

/-- The bits that a part of stepping A0 adds to a raw DEFLATE stream (R645: fixed per stepping and not stated; log entry 12): the data before,
the bits not yet in a byte, the job's input, STORED, and whether the stream ends. -/
opaque Config.deflateA0 : List Byte → List Bool → List Byte → Bool → Bool → List Bool

/-- A sample between the stored ones, where the spec gives no interpolation: chroma upsampling before the Sluice's matrix (R154) and the
chroma of a sent 4:2:2 line (log entry 13); a function of the stored samples around it and of its place. -/
opaque Config.scaleSample : List Nat → Nat → Nat

/-- One output of a polyphase filter of the Sluice (R156: the spec gives no coefficients; log entry 13): the samples under its taps, how
many input samples each is the sum of, and the phase. -/
opaque Config.filterSample : List Nat → Nat → Nat → Nat

/-- A line of a picture as decoded with references that stand in for missing ones (R192; log entry 30): the bytes of its NAL units, the samples of
each stand-in, plane, line. -/
opaque Config.decodedLine : List (List Byte) → List (Int × List Byte) → Nat → Nat → List Byte

/-- Main and post taps of a DisplayPort lane for a swing and a pre-emphasis level (R516: the spec gives no values; log entry 151). -/
opaque Config.dpTaps : Nat → Nat → Nat × Nat

/-- Depth of the write queue of a DRAM channel (R602: not stated; log entry 143). -/
opaque Config.writeQueue : Nat

/-- Base address of host receive queue `n` (R132: no register of the spec names it; log entry 14). -/
opaque Config.hostRing : Nat → Nat

/-- Slots of host receive queue `n` (log entry 14). -/
opaque Config.hostSlots : Nat → Nat

/-- Base address and slots of host transmit queue `n` (log entry 14). -/
opaque Config.hostTxRing : Nat → Nat
opaque Config.hostTxSlots : Nat → Nat

/-- The buffer address and the frame length that the 32 bytes of a transmit descriptor give (R132: their layout is not given; log entry
14). -/
opaque Config.txDescriptor : List Byte → Nat × Nat

/-- The bytes of a commit mirror on the link (R394: the spec gives its contents and no layout; log entry 15): gallery, cancel,
slots, epoch, target. -/
opaque Config.mirrorBytes : Nat → Bool → List (Nat × List Byte) → Nat → Nat → List Byte

/-- The sections of a resync image on the link, each one packet (R399, R539; log entry 15): gallery, slots, epoch, frame. -/
opaque Config.imageSections : Nat → List (Nat × List Byte) → Nat → Nat → List (List Byte)

/-- A pixel of the glyph ROM (R355: the spec names the glyphs and gives no bitmaps; log entry 16): character, column, row. -/
opaque Config.glyph : Nat → Nat → Nat → Bool

/-- By how much a matrix result of R279 differs from the nearest integer, within the bound of 1 of the exact equation that the spec
allows (log entry 17): numerator and denominator of the exact result. -/
opaque Config.matrixError : Int → Nat → Int

/-- The unicast MAC address of Ethernet port `n` (R107: no register of the spec holds it; log entry 14). -/
opaque Config.macAddress : Nat → List Byte

/-- The IPv4 and IPv6 address (the first 4 of 16 bytes, or all) from which the clock sends on Ethernet port `n`, and the clock's
clockIdentity (R81: the spec gives neither; log entry 106). -/
opaque Config.ipAddress : Nat → List Byte
opaque Config.clockIdentity : Nat → List Byte

/-- A parameter set parses, by the coding standard (R182, R184; log entry 30): codec, NAL unit. -/
opaque Config.psetParses : Nat → List Byte → Bool

/-- The payload of a parameter set that the encoder writes, by the coding standard (R203; log entry 122): its kind (1 VPS, 2 SPS, 3 PPS) and
what the parameter sets say, in the order of ParamInfo. -/
opaque Config.paramBody : Nat → List Nat → List Byte

/-- The bits of a floor row, by the coding standard (R211; log entry 123): codec, whether of an I picture, blocks in the row, the row. -/
opaque Config.floorRow : Nat → Bool → Nat → Nat → List Byte

end Sys2Proof
end

