-- ==== Sys2Proof/Machine/Maps.lean ====
section
/-!
DEFINITION. The operations on sparse maps and on byte memory, and the byte-order helpers: every structure of State that is
sparse data is read and written through these.
-/

namespace Sys2Proof

/-- The value at a key, if the map lists one. -/
def Map.find {α : Type} : Map α → Nat → Option α
  | [], _ => none
  | (a, b) :: t, k => if k = a then some b else Map.find t k

/-- The value at a key, or `d` where the map lists none. -/
def Map.get {α : Type} (m : Map α) (k : Nat) (d : α) : α := (m.find k).getD d

/-- The map with `v` at key `k`; keys stay strictly rising. -/
def Map.put {α : Type} : Map α → Nat → α → Map α
  | [], k, v => [(k, v)]
  | (a, b) :: t, k, v =>
    if k < a then (k, v) :: (a, b) :: t else if k = a then (k, v) :: t else (a, b) :: Map.put t k v

/-- The map without key `k`. -/
def Map.del {α : Type} : Map α → Nat → Map α
  | [], _ => []
  | (a, b) :: t, k => if k = a then Map.del t k else (a, b) :: Map.del t k

/-- The map with the value at `k` (or `d`) changed by `f`. -/
def Map.upd {α : Type} (m : Map α) (k : Nat) (d : α) (f : α → α) : Map α := m.put k (f (m.get k d))

/-- The entries whose key satisfies `p`. -/
def Map.keep {α : Type} (m : Map α) (p : Nat → Bool) : Map α := m.filter fun e => p e.1

/-- Keys strictly rising, the canonical form of a map. -/
def Map.wf {α : Type} : Map α → Bool
  | [] => true
  | [_] => true
  | (a, _) :: (b, v) :: t => decide (a < b) && Map.wf ((b, v) :: t)

/-- Byte memory: what an unlisted address reads as (log entry 2, DESIGN CHOICE). -/
def Memory.empty : Byte := 0

/-- One byte of memory. -/
def Memory.read (m : List Host.Cell) (a : Nat) : Byte := Map.get m a Memory.empty

/-- One byte written; writing what an unlisted address reads as removes the entry. -/
def Memory.write (m : List Host.Cell) (a : Nat) (b : Byte) : List Host.Cell :=
  if b = Memory.empty then Map.del m a else Map.put m a b

/-- The canonical form of a byte memory: addresses strictly rising and no entry equal to what an unlisted address reads as. -/
def Memory.wf (m : List Host.Cell) : Bool := Map.wf m && m.all fun c => c.2 != Memory.empty

/-- `n` bytes from address `a` upwards. -/
def Memory.readBytes (m : List Host.Cell) (a : Nat) : Nat → List Byte
  | 0 => []
  | n + 1 => Memory.read m a :: Memory.readBytes m (a + 1) n

/-- Bytes written from address `a` upwards. -/
def Memory.writeBytes (m : List Host.Cell) (a : Nat) : List Byte → List Host.Cell
  | [] => m
  | b :: t => Memory.writeBytes (Memory.write m a b) (a + 1) t

/-- A little-endian number from its bytes, the byte order of every multi-byte value of the spec unless it says otherwise. -/
def leNat : List Byte → Nat
  | [] => 0
  | b :: t => b.toNat + 256 * leNat t

/-- The `n` low bytes of a number, least significant first. -/
def leBytes (v : Nat) : Nat → List Byte
  | 0 => []
  | n + 1 => BitVec.ofNat 8 v :: leBytes (v / 256) n

/-- A big-endian number from its bytes (network byte order). -/
def beNat (l : List Byte) : Nat := leNat l.reverse

/-- The `n` low bytes of a number, most significant first. -/
def beBytes (v n : Nat) : List Byte := (leBytes v n).reverse

/-- `n` bytes of a list from position `a`, zero beyond its end. -/
def bytesAt (l : List Byte) (a n : Nat) : List Byte := ((l.drop a) ++ List.replicate n 0).take n

/-- The little-endian number of `n` bytes at position `a` of a list. -/
def leAt (l : List Byte) (a n : Nat) : Nat := leNat (bytesAt l a n)

/-- The big-endian number of `n` bytes at position `a` of a list. -/
def beAt (l : List Byte) (a n : Nat) : Nat := beNat (bytesAt l a n)

/-- A list of bytes with the bytes at position `a` replaced. -/
def patchBytes (l : List Byte) (a : Nat) (p : List Byte) : List Byte :=
  l.take a ++ p ++ l.drop (a + p.length)

/-- The numbers below `n`, lowest first. -/
def upto (n : Nat) : List Nat := List.range n

/-- The lowest number below `n` with a property. -/
def lowest (n : Nat) (p : Nat → Bool) : Option Nat := (List.range n).find? p

/-- An item put in its place in a sorted list. -/
def insertBy {α : Type} (le : α → α → Bool) (x : α) : List α → List α
  | [] => [x]
  | y :: t => if le x y then x :: y :: t else y :: insertBy le x t

/-- A list sorted by an order; items that compare equal keep their order. -/
def sortBy {α : Type} (le : α → α → Bool) (l : List α) : List α := l.foldr (insertBy le) []

end Sys2Proof
end

