-- ==== Sys2Proof/Machine/Registers.lean ====
section
/-!
DEFINITION. The register tables of the spec: one `R.<REGISTER>` per register (its BAR0 offset under R16, its instances,
its fields with their access types of R17, ranges and reset values), one `F.<REGISTER>_<FIELD>` per field, and one
`K.<REGISTER>_<FLAG>` per W1C flag with its event count (R22) and its interrupt vector (R658).
-/

namespace Sys2Proof.Machine

/-- The access types of R17. -/
inductive Access where
  | ro | rw | rwl | wo | w1c | w1s | rws
  deriving DecidableEq, Repr

/-- One field of a register: where it sits, its type, and the range a write of it must keep to (R652). -/
structure Field where
  lo : Nat
  w : Nat
  acc : Access
  min : Nat := 0
  max : Nat := 2 ^ w - 1
  deriving DecidableEq, Repr

/-- One register of the spec with all its instances (R15, R16).
`n1`, `s1` count and space its block instances, `n2`, `s2` the registers of one instance; `quarter` is the bit at which
instance ÷ 4 stands at reset; only the first `nReset` registers of an instance have the reset value; `align` holds the
low bits a write must leave 0 (R652); `lock` is the offset (in instance `i`, `j`) and bit of the block lock (R18). -/
structure Reg where
  base : Nat
  n1 : Nat := 1
  s1 : Nat := 0
  n2 : Nat := 1
  s2 : Nat := 0
  wide : Bool := false
  remote : Bool := false
  reset : Nat := 0
  quarter : Option Nat := none
  nReset : Nat := 65536
  align : Nat := 0
  lock : Option (Nat × Nat) := none
  fields : List Field
  deriving DecidableEq, Repr

/-- A named field: its register, its lowest bit and its width. -/
structure Fld where
  reg : Reg
  lo : Nat
  w : Nat
  deriving DecidableEq, Repr

/-- Offset of instance `i`, register `j` (R16). The remote touch inputs 2 to 5 stand at a stride of their own. -/
def Reg.addr (r : Reg) (i j : Nat) : Nat :=
  (if r.remote && decide (2 ≤ i) then r.base + 0x20000 + (i - 2) * 0x100 else r.base + i * r.s1) + j * r.s2

/-- The value of instance `i`, register `j` at reset, as the spec's tables state it. -/
def Reg.resetValue (r : Reg) (i j : Nat) : BitVec 64 :=
  BitVec.ofNat 64 ((if j < r.nReset then r.reset else 0) +
    (match r.quarter with | none => 0 | some b => (i / 4) <<< b))

namespace R

/-- PWR_CLK_STATUS (R32). -/
def PWR_CLK_STATUS : Reg := { base := 0x100, fields := [⟨0, 6, .ro, 0, 0x3f⟩, ⟨6, 8, .ro, 0, 0xff⟩, ⟨14, 1, .ro, 0, 0x1⟩] }
/-- PWR_CLK_EVENT (R33). -/
def PWR_CLK_EVENT : Reg := { base := 0x104, fields := [⟨0, 1, .w1c, 0, 0x1⟩, ⟨1, 1, .w1c, 0, 0x1⟩, ⟨8, 8, .ro, 0, 0xff⟩, ⟨16, 8, .ro, 0, 0xff⟩, ⟨31, 1, .wo, 0, 0x1⟩] }
/-- SEAL_CTRL (R67). -/
def SEAL_CTRL : Reg := { base := 0x1c00000, reset := 0x8, fields := [⟨0, 8, .rw, 1, 255⟩, ⟨31, 1, .wo, 0, 0x1⟩] }
/-- SEAL_EVENT (R68). -/
def SEAL_EVENT : Reg := { base := 0x1c00004, fields := [⟨0, 1, .w1c, 0, 0x1⟩, ⟨1, 1, .w1c, 0, 0x1⟩, ⟨2, 1, .w1c, 0, 0x1⟩, ⟨8, 8, .ro, 0, 0xff⟩, ⟨16, 8, .ro, 0, 0xff⟩, ⟨24, 8, .ro, 0, 0xff⟩] }
/-- SEAL_TOTAL (R69). -/
def SEAL_TOTAL : Reg := { base := 0x1c00008, fields := [⟨0, 32, .ro, 0, 0xffffffff⟩] }
/-- SEAL_LAST (R70). -/
def SEAL_LAST : Reg := { base := 0x1c00010, wide := true, fields := [⟨0, 16, .ro, 0, 0xffff⟩, ⟨16, 10, .ro, 0, 0x3ff⟩, ⟨26, 5, .ro, 0, 0x1f⟩, ⟨31, 1, .ro, 0, 0x1⟩, ⟨32, 12, .ro, 0, 0xfff⟩] }
/-- CHK_CTRL (R79). -/
def CHK_CTRL : Reg := { base := 0x1c01000, n1 := 16, s1 := 0x100, reset := 0x200000, fields := [⟨0, 1, .wo, 0, 0x1⟩, ⟨1, 1, .wo, 0, 0x1⟩, ⟨2, 1, .rw, 0, 0x1⟩, ⟨3, 1, .rw, 0, 0x1⟩, ⟨4, 2, .rw, 0, 0x3⟩, ⟨6, 1, .rw, 0, 0x1⟩, ⟨7, 1, .rw, 0, 0x1⟩, ⟨8, 1, .rw, 0, 0x1⟩, ⟨16, 7, .rw, 0, 0x7f⟩] }
/-- CHK_POLY (R79). -/
def CHK_POLY : Reg := { base := 0x1c01008, n1 := 16, s1 := 0x100, wide := true, reset := 0x1edc6f41, fields := [⟨0, 64, .rw, 0, 0xffffffffffffffff⟩] }
/-- CHK_INIT (R79). -/
def CHK_INIT : Reg := { base := 0x1c01010, n1 := 16, s1 := 0x100, wide := true, reset := 0xffffffff, fields := [⟨0, 64, .rw, 0, 0xffffffffffffffff⟩] }
/-- CHK_XOROUT (R79). -/
def CHK_XOROUT : Reg := { base := 0x1c01018, n1 := 16, s1 := 0x100, wide := true, reset := 0xffffffff, fields := [⟨0, 64, .rw, 0, 0xffffffffffffffff⟩] }
/-- CHK_EXPECT (R79). -/
def CHK_EXPECT : Reg := { base := 0x1c01020, n1 := 16, s1 := 0x100, wide := true, fields := [⟨0, 64, .rw, 0, 0xffffffffffffffff⟩] }
/-- CHK_RESULT (R79). -/
def CHK_RESULT : Reg := { base := 0x1c01028, n1 := 16, s1 := 0x100, wide := true, fields := [⟨0, 64, .ro, 0, 0xffffffffffffffff⟩] }
/-- CHK_SRC (R79). -/
def CHK_SRC : Reg := { base := 0x1c01030, n1 := 16, s1 := 0x100, wide := true, fields := [⟨0, 40, .rw, 0, 0xffffffffff⟩] }
/-- CHK_LEN (R79). -/
def CHK_LEN : Reg := { base := 0x1c01038, n1 := 16, s1 := 0x100, fields := [⟨0, 32, .rw, 0, 0xffffffff⟩] }
/-- CHK_FOLD (R79). -/
def CHK_FOLD : Reg := { base := 0x1c01040, n1 := 16, s1 := 0x100, n2 := 4, s2 := 0x4, fields := [⟨0, 32, .rw, 0, 0xffffffff⟩] }
/-- CHK_STATUS (R79). -/
def CHK_STATUS : Reg := { base := 0x1c01050, n1 := 16, s1 := 0x100, fields := [⟨0, 1, .ro, 0, 0x1⟩, ⟨1, 1, .w1c, 0, 0x1⟩, ⟨2, 1, .w1c, 0, 0x1⟩, ⟨3, 1, .w1c, 0, 0x1⟩, ⟨4, 1, .w1c, 0, 0x1⟩, ⟨5, 1, .ro, 0, 0x1⟩, ⟨6, 2, .ro, 0, 0x3⟩, ⟨8, 4, .ro, 0, 0xf⟩, ⟨31, 1, .wo, 0, 0x1⟩] }
/-- CHK_COUNT (R79). -/
def CHK_COUNT : Reg := { base := 0x1c01054, n1 := 16, s1 := 0x100, fields := [⟨0, 8, .ro, 0, 0xff⟩, ⟨8, 8, .ro, 0, 0xff⟩, ⟨16, 8, .ro, 0, 0xff⟩, ⟨24, 8, .ro, 0, 0xff⟩] }
/-- PTP_CTRL (R102). -/
def PTP_CTRL : Reg := { base := 0xa00000, fields := [⟨0, 1, .rw, 0, 0x1⟩, ⟨1, 1, .rw, 0, 0x1⟩, ⟨2, 2, .rw, 0, 2⟩, ⟨4, 4, .rw, 0, 0xf⟩, ⟨8, 4, .rw, 0, 0xf⟩, ⟨12, 1, .rw, 0, 0x1⟩, ⟨13, 8, .rw, 0, 0xff⟩, ⟨21, 1, .wo, 0, 0x1⟩, ⟨22, 1, .wo, 0, 0x1⟩] }
/-- PTP_STATE (R103). -/
def PTP_STATE : Reg := { base := 0xa00004, fields := [⟨0, 3, .ro, 0, 0x7⟩, ⟨3, 1, .ro, 0, 0x1⟩, ⟨4, 1, .ro, 0, 0x1⟩, ⟨5, 4, .ro, 0, 0xf⟩, ⟨9, 1, .ro, 0, 0x1⟩, ⟨10, 1, .ro, 0, 0x1⟩, ⟨11, 1, .ro, 0, 0x1⟩, ⟨16, 16, .ro, 0, 0xffff⟩] }
/-- PTP_EVENT (R104). -/
def PTP_EVENT : Reg := { base := 0xa00008, fields := [⟨0, 1, .w1c, 0, 0x1⟩, ⟨1, 1, .w1c, 0, 0x1⟩, ⟨2, 1, .w1c, 0, 0x1⟩, ⟨3, 1, .w1c, 0, 0x1⟩, ⟨4, 1, .w1c, 0, 0x1⟩, ⟨31, 1, .wo, 0, 0x1⟩] }
/-- PTP_EVENT_CNT (R104). -/
def PTP_EVENT_CNT : Reg := { base := 0xa00010, wide := true, fields := [⟨0, 8, .ro, 0, 0xff⟩, ⟨8, 8, .ro, 0, 0xff⟩, ⟨16, 8, .ro, 0, 0xff⟩, ⟨24, 8, .ro, 0, 0xff⟩, ⟨32, 8, .ro, 0, 0xff⟩, ⟨40, 8, .ro, 0, 0xff⟩] }
/-- PTP_SERVO (R105). -/
def PTP_SERVO : Reg := { base := 0xa00018, reset := 0x3e8003e8, fields := [⟨0, 20, .rw, 1, 1000000⟩, ⟨20, 12, .rw, 1, 4095⟩] }
/-- PTP_MAP (R105). -/
def PTP_MAP : Reg := { base := 0xa0001c, reset := 0x3e8, fields := [⟨0, 11, .rw, 1, 2000⟩] }
/-- PTP_OFFSET (R105). -/
def PTP_OFFSET : Reg := { base := 0xa00020, fields := [⟨0, 32, .ro, 0, 0xffffffff⟩] }
/-- PTP_RATE (R105). -/
def PTP_RATE : Reg := { base := 0xa00024, fields := [⟨0, 32, .ro, 0, 0xffffffff⟩] }
/-- PTP_GM_ID (R105). -/
def PTP_GM_ID : Reg := { base := 0xa00028, wide := true, fields := [⟨0, 64, .ro, 0, 0xffffffffffffffff⟩] }
/-- PTP_SNAP_SEC (R105). -/
def PTP_SNAP_SEC : Reg := { base := 0xa00030, wide := true, fields := [⟨0, 48, .ro, 0, 0xffffffffffff⟩] }
/-- PTP_SNAP_NS (R105). -/
def PTP_SNAP_NS : Reg := { base := 0xa00038, fields := [⟨0, 30, .ro, 0, 0x3fffffff⟩] }
/-- PTP_SNAP_SHORT (R105). -/
def PTP_SNAP_SHORT : Reg := { base := 0xa0003c, fields := [⟨0, 32, .ro, 0, 0xffffffff⟩] }
/-- NET_MAC_CTRL (R135). -/
def NET_MAC_CTRL : Reg := { base := 0x800000, n1 := 16, s1 := 0x10000, fields := [⟨0, 1, .rw, 0, 0x1⟩, ⟨1, 1, .rw, 0, 0x1⟩, ⟨2, 1, .rw, 0, 0x1⟩, ⟨3, 1, .rw, 0, 0x1⟩, ⟨4, 4, .rw, 0, 0xf⟩] }
/-- NET_MAC_STATUS (R135). -/
def NET_MAC_STATUS : Reg := { base := 0x800004, n1 := 16, s1 := 0x10000, fields := [⟨0, 1, .ro, 0, 0x1⟩, ⟨1, 1, .ro, 0, 0x1⟩] }
/-- NET_MAC_EVENT (R136). -/
def NET_MAC_EVENT : Reg := { base := 0x800008, n1 := 16, s1 := 0x10000, fields := [⟨0, 1, .w1c, 0, 0x1⟩, ⟨1, 1, .w1c, 0, 0x1⟩, ⟨2, 1, .w1c, 0, 0x1⟩, ⟨31, 1, .wo, 0, 0x1⟩] }
/-- NET_MAC_EVENT_CNT (R136). -/
def NET_MAC_EVENT_CNT : Reg := { base := 0x80000c, n1 := 16, s1 := 0x10000, fields := [⟨0, 8, .ro, 0, 0xff⟩, ⟨8, 8, .ro, 0, 0xff⟩, ⟨16, 8, .ro, 0, 0xff⟩] }
/-- NET_FLOW_CMD (R136). -/
def NET_FLOW_CMD : Reg := { base := 0x808000, fields := [⟨0, 2, .wo, 0, 0x3⟩, ⟨2, 10, .wo, 0, 0x3ff⟩] }
/-- NET_FLOW_STATUS (R136). -/
def NET_FLOW_STATUS : Reg := { base := 0x808004, fields := [⟨0, 1, .ro, 0, 0x1⟩, ⟨1, 1, .w1c, 0, 0x1⟩, ⟨2, 1, .w1c, 0, 0x1⟩, ⟨3, 3, .ro, 0, 0x7⟩, ⟨6, 6, .ro, 0, 0x3f⟩, ⟨12, 10, .ro, 0, 0x3ff⟩, ⟨22, 8, .ro, 0, 0xff⟩, ⟨31, 1, .wo, 0, 0x1⟩] }
/-- NET_FLOW_FREE (R136). -/
def NET_FLOW_FREE : Reg := { base := 0x808008, reset := 0x400, fields := [⟨0, 11, .ro, 0, 0x7ff⟩] }
/-- NET_FLOW_CNT (R136). -/
def NET_FLOW_CNT : Reg := { base := 0x80800c, fields := [⟨0, 8, .ro, 0, 0xff⟩] }
/-- NET_FLOW_STATS_FRAMES (R136). -/
def NET_FLOW_STATS_FRAMES : Reg := { base := 0x808010, fields := [⟨0, 32, .ro, 0, 0xffffffff⟩] }
/-- NET_FLOW_STATS_LOSS (R136). -/
def NET_FLOW_STATS_LOSS : Reg := { base := 0x808014, fields := [⟨0, 32, .ro, 0, 0xffffffff⟩] }
/-- NET_FLOW_STATS_DROP (R136). -/
def NET_FLOW_STATS_DROP : Reg := { base := 0x808018, fields := [⟨0, 16, .ro, 0, 0xffff⟩, ⟨16, 16, .ro, 0, 0xffff⟩] }
/-- NET_FLOW_STATS_SSRC (R136). -/
def NET_FLOW_STATS_SSRC : Reg := { base := 0x80801c, fields := [⟨0, 8, .ro, 0, 0xff⟩] }
/-- NET_FLOW_STAGE (R136). -/
def NET_FLOW_STAGE : Reg := { base := 0x808040, n2 := 16, s2 := 0x4, fields := [⟨0, 32, .rw, 0, 0xffffffff⟩] }
/-- SLU_APPLY_STATUS (R172). -/
def SLU_APPLY_STATUS : Reg := { base := 0xc00000, fields := [⟨0, 1, .ro, 0, 0x1⟩, ⟨1, 1, .w1c, 0, 0x1⟩, ⟨2, 1, .w1c, 0, 0x1⟩, ⟨4, 4, .ro, 0, 0xf⟩, ⟨8, 6, .ro, 0, 0x3f⟩, ⟨16, 8, .ro, 0, 0xff⟩, ⟨24, 5, .ro, 0, 0x1f⟩] }
/-- SLU_APPLY_CNT (R172). -/
def SLU_APPLY_CNT : Reg := { base := 0xc00004, fields := [⟨0, 8, .ro, 0, 0xff⟩, ⟨8, 8, .ro, 0, 0xff⟩, ⟨31, 1, .wo, 0, 0x1⟩] }
/-- SLU_CARRY_FREE (R172). -/
def SLU_CARRY_FREE : Reg := { base := 0xc00008, reset := 0x600000, fields := [⟨0, 23, .ro, 0, 0x7fffff⟩] }
/-- SLU_PIPE_STATUS (R172). -/
def SLU_PIPE_STATUS : Reg := { base := 0xc00010, fields := [⟨0, 6, .ro, 0, 0x3f⟩, ⟨6, 1, .ro, 0, 0x1⟩, ⟨8, 6, .ro, 0, 0x3f⟩, ⟨14, 1, .ro, 0, 0x1⟩] }
/-- SLU_CTX_CTRL (R173). -/
def SLU_CTX_CTRL : Reg := { base := 0xc10000, n1 := 64, s1 := 0x400, fields := [⟨0, 1, .rw, 0, 0x1⟩, ⟨1, 2, .rw, 0, 0x3⟩, ⟨3, 4, .rw, 0, 0xf⟩, ⟨7, 4, .rw, 0, 0xf⟩] }
/-- SLU_CTX_CMD (R173). -/
def SLU_CTX_CMD : Reg := { base := 0xc10004, n1 := 64, s1 := 0x400, fields := [⟨0, 1, .wo, 0, 0x1⟩] }
/-- SLU_CTX_SRC (R173). -/
def SLU_CTX_SRC : Reg := { base := 0xc10008, n1 := 64, s1 := 0x400, fields := [⟨0, 12, .rw, 0, 0xfff⟩, ⟨12, 12, .rw, 0, 0xfff⟩] }
/-- SLU_CTX_GEOM (R173). -/
def SLU_CTX_GEOM : Reg := { base := 0xc1000c, n1 := 64, s1 := 0x400, fields := [⟨0, 14, .rw, 0, 0x3fff⟩, ⟨16, 14, .rw, 0, 0x3fff⟩] }
/-- SLU_CTX_CROP_POS (R173). -/
def SLU_CTX_CROP_POS : Reg := { base := 0xc10010, n1 := 64, s1 := 0x400, fields := [⟨0, 14, .rw, 0, 0x3fff⟩, ⟨16, 14, .rw, 0, 0x3fff⟩] }
/-- SLU_CTX_CROP_SIZE (R173). -/
def SLU_CTX_CROP_SIZE : Reg := { base := 0xc10014, n1 := 64, s1 := 0x400, fields := [⟨0, 14, .rw, 0, 0x3fff⟩, ⟨16, 14, .rw, 0, 0x3fff⟩] }
/-- SLU_CTX_COLOUR (R173). -/
def SLU_CTX_COLOUR : Reg := { base := 0xc10018, n1 := 64, s1 := 0x400, reset := 0x9, fields := [⟨0, 2, .rw, 0, 0x3⟩, ⟨2, 1, .rw, 0, 0x1⟩, ⟨3, 2, .rw, 0, 0x3⟩, ⟨5, 1, .rw, 0, 0x1⟩, ⟨6, 4, .rw, 0, 0xf⟩] }
/-- SLU_CTX_TIMING (R173). -/
def SLU_CTX_TIMING : Reg := { base := 0xc1001c, n1 := 64, s1 := 0x400, fields := [⟨0, 16, .rw, 0, 0xffff⟩, ⟨16, 11, .rw, 0, 0x7ff⟩] }
/-- SLU_CTX_ALLOW (R173). -/
def SLU_CTX_ALLOW : Reg := { base := 0xc10020, n1 := 64, s1 := 0x400, fields := [⟨0, 11, .rw, 0, 0x7ff⟩] }
/-- SLU_CTX_OUT_CTRL (R173). -/
def SLU_CTX_OUT_CTRL : Reg := { base := 0xc10040, n1 := 64, s1 := 0x400, n2 := 4, s2 := 0x10, fields := [⟨0, 12, .rw, 0, 0xfff⟩, ⟨12, 4, .rw, 0, 0xf⟩, ⟨16, 1, .rw, 0, 0x1⟩] }
/-- SLU_CTX_OUT_CROP_POS (R173). -/
def SLU_CTX_OUT_CROP_POS : Reg := { base := 0xc10044, n1 := 64, s1 := 0x400, n2 := 4, s2 := 0x10, fields := [⟨0, 14, .rw, 0, 0x3fff⟩, ⟨16, 14, .rw, 0, 0x3fff⟩] }
/-- SLU_CTX_OUT_CROP_SIZE (R173). -/
def SLU_CTX_OUT_CROP_SIZE : Reg := { base := 0xc10048, n1 := 64, s1 := 0x400, n2 := 4, s2 := 0x10, fields := [⟨0, 14, .rw, 0, 0x3fff⟩, ⟨16, 14, .rw, 0, 0x3fff⟩] }
/-- SLU_CTX_OUT_SIZE (R173). -/
def SLU_CTX_OUT_SIZE : Reg := { base := 0xc1004c, n1 := 64, s1 := 0x400, n2 := 4, s2 := 0x10, fields := [⟨0, 14, .rw, 0, 0x3fff⟩, ⟨16, 14, .rw, 0, 0x3fff⟩] }
/-- SLU_CTX_STATE (R173). -/
def SLU_CTX_STATE : Reg := { base := 0xc10100, n1 := 64, s1 := 0x400, fields := [⟨0, 1, .ro, 0, 0x1⟩, ⟨1, 1, .ro, 0, 0x1⟩, ⟨2, 1, .ro, 0, 0x1⟩, ⟨3, 1, .ro, 0, 0x1⟩, ⟨8, 8, .ro, 0, 0xff⟩, ⟨16, 2, .ro, 0, 0x3⟩] }
/-- SLU_CTX_EVENT (R174). -/
def SLU_CTX_EVENT : Reg := { base := 0xc10104, n1 := 64, s1 := 0x400, fields := [⟨0, 1, .w1c, 0, 0x1⟩, ⟨1, 1, .w1c, 0, 0x1⟩, ⟨2, 1, .w1c, 0, 0x1⟩, ⟨3, 1, .w1c, 0, 0x1⟩, ⟨4, 1, .w1c, 0, 0x1⟩, ⟨5, 1, .w1c, 0, 0x1⟩, ⟨6, 1, .w1c, 0, 0x1⟩, ⟨7, 1, .w1c, 0, 0x1⟩, ⟨31, 1, .wo, 0, 0x1⟩] }
/-- SLU_CTX_EVENT_CNT (R174). -/
def SLU_CTX_EVENT_CNT : Reg := { base := 0xc10108, n1 := 64, s1 := 0x400, wide := true, fields := [⟨0, 8, .ro, 0, 0xff⟩, ⟨8, 8, .ro, 0, 0xff⟩, ⟨16, 8, .ro, 0, 0xff⟩, ⟨24, 8, .ro, 0, 0xff⟩, ⟨32, 8, .ro, 0, 0xff⟩, ⟨40, 8, .ro, 0, 0xff⟩, ⟨48, 8, .ro, 0, 0xff⟩, ⟨56, 8, .ro, 0, 0xff⟩] }
/-- SLU_CTX_LAND_SEQ (R174). -/
def SLU_CTX_LAND_SEQ : Reg := { base := 0xc10110, n1 := 64, s1 := 0x400, fields := [⟨0, 32, .ro, 0, 0xffffffff⟩] }
/-- SLU_CTX_OUT_SEQ (R174). -/
def SLU_CTX_OUT_SEQ : Reg := { base := 0xc10120, n1 := 64, s1 := 0x400, n2 := 4, s2 := 0x4, fields := [⟨0, 32, .ro, 0, 0xffffffff⟩] }
/-- VDC_CMD (R195). -/
def VDC_CMD : Reg := { base := 0x1000000, fields := [⟨0, 2, .wo, 0, 0x3⟩, ⟨2, 8, .wo, 0, 0xff⟩] }
/-- VDC_STATUS (R195). -/
def VDC_STATUS : Reg := { base := 0x1000004, fields := [⟨0, 1, .ro, 0, 0x1⟩, ⟨1, 1, .w1c, 0, 0x1⟩, ⟨2, 1, .w1c, 0, 0x1⟩, ⟨4, 4, .ro, 0, 0xf⟩, ⟨8, 8, .ro, 0, 0xff⟩, ⟨16, 8, .ro, 0, 0xff⟩, ⟨24, 5, .ro, 0, 0x1f⟩] }
/-- VDC_STATUS_CNT (R195). -/
def VDC_STATUS_CNT : Reg := { base := 0x1000008, fields := [⟨0, 8, .ro, 0, 0xff⟩, ⟨8, 8, .ro, 0, 0xff⟩, ⟨31, 1, .wo, 0, 0x1⟩] }
/-- VDC_CAP_STREAMS (R195). -/
def VDC_CAP_STREAMS : Reg := { base := 0x1000010, fields := [⟨0, 9, .ro, 0, 0x1ff⟩] }
/-- VDC_CAP_PIX (R195). -/
def VDC_CAP_PIX : Reg := { base := 0x1000014, reset := 0x1f40, fields := [⟨0, 13, .ro, 0, 0x1fff⟩] }
/-- VDC_CAP_KBPS (R195). -/
def VDC_CAP_KBPS : Reg := { base := 0x1000020, n2 := 4, s2 := 0x4, reset := 0xea600, fields := [⟨0, 20, .ro, 0, 0xfffff⟩] }
/-- VDC_STR_CFG (R196). -/
def VDC_STR_CFG : Reg := { base := 0x1010000, n1 := 256, s1 := 0x100, fields := [⟨0, 1, .rw, 0, 0x1⟩, ⟨1, 1, .rw, 0, 0x1⟩, ⟨2, 5, .rw, 0, 0x1f⟩, ⟨8, 12, .rw, 0, 0xfff⟩] }
/-- VDC_STR_GEOM (R196). -/
def VDC_STR_GEOM : Reg := { base := 0x1010004, n1 := 256, s1 := 0x100, fields := [⟨0, 13, .rw, 0, 0x1fff⟩, ⟨16, 13, .rw, 0, 0x1fff⟩] }
/-- VDC_STR_RATE (R196). -/
def VDC_STR_RATE : Reg := { base := 0x1010008, n1 := 256, s1 := 0x100, fields := [⟨0, 8, .rw, 0, 0xff⟩, ⟨8, 20, .rw, 0, 0xfffff⟩] }
/-- VDC_STR_SYM_ADDR (R196). -/
def VDC_STR_SYM_ADDR : Reg := { base := 0x1010010, n1 := 256, s1 := 0x100, wide := true, fields := [⟨0, 40, .rw, 0, 0xffffffffff⟩] }
/-- VDC_STR_CTX_ADDR (R196). -/
def VDC_STR_CTX_ADDR : Reg := { base := 0x1010020, n1 := 256, s1 := 0x100, wide := true, fields := [⟨0, 40, .rw, 0, 0xffffffffff⟩] }
/-- VDC_STR_PSET_ADDR (R196). -/
def VDC_STR_PSET_ADDR : Reg := { base := 0x1010028, n1 := 256, s1 := 0x100, wide := true, fields := [⟨0, 40, .rw, 0, 0xffffffffff⟩] }
/-- VDC_STR_SIZE (R196). -/
def VDC_STR_SIZE : Reg := { base := 0x1010018, n1 := 256, s1 := 0x100, fields := [⟨0, 11, .rw, 0, 0x7ff⟩, ⟨16, 7, .rw, 0, 0x7f⟩] }
/-- VDC_STR_PSET_LEN (R196). -/
def VDC_STR_PSET_LEN : Reg := { base := 0x1010030, n1 := 256, s1 := 0x100, fields := [⟨0, 17, .rw, 0, 0x1ffff⟩] }
/-- VDC_STR_STATE (R196). -/
def VDC_STR_STATE : Reg := { base := 0x1010080, n1 := 256, s1 := 0x100, fields := [⟨0, 1, .ro, 0, 0x1⟩, ⟨1, 2, .ro, 0, 0x3⟩, ⟨3, 1, .ro, 0, 0x1⟩, ⟨4, 1, .ro, 0, 0x1⟩, ⟨5, 3, .ro, 0, 0x7⟩, ⟨8, 4, .ro, 0, 0xf⟩, ⟨12, 5, .ro, 0, 0x1f⟩] }
/-- VDC_STR_EVENT (R197). -/
def VDC_STR_EVENT : Reg := { base := 0x1010084, n1 := 256, s1 := 0x100, fields := [⟨0, 1, .w1c, 0, 0x1⟩, ⟨1, 1, .w1c, 0, 0x1⟩, ⟨2, 1, .w1c, 0, 0x1⟩, ⟨3, 1, .w1c, 0, 0x1⟩, ⟨4, 1, .w1c, 0, 0x1⟩, ⟨5, 1, .w1c, 0, 0x1⟩, ⟨6, 1, .w1c, 0, 0x1⟩, ⟨7, 1, .w1c, 0, 0x1⟩, ⟨31, 1, .wo, 0, 0x1⟩] }
/-- VDC_STR_EVENT_CNT (R197). -/
def VDC_STR_EVENT_CNT : Reg := { base := 0x1010088, n1 := 256, s1 := 0x100, wide := true, fields := [⟨0, 8, .ro, 0, 0xff⟩, ⟨8, 8, .ro, 0, 0xff⟩, ⟨16, 8, .ro, 0, 0xff⟩, ⟨24, 8, .ro, 0, 0xff⟩, ⟨32, 8, .ro, 0, 0xff⟩, ⟨40, 8, .ro, 0, 0xff⟩, ⟨48, 8, .ro, 0, 0xff⟩, ⟨56, 8, .ro, 0, 0xff⟩] }
/-- VDC_STR_SEQ (R197). -/
def VDC_STR_SEQ : Reg := { base := 0x1010090, n1 := 256, s1 := 0x100, fields := [⟨0, 32, .ro, 0, 0xffffffff⟩] }
/-- VEN_CMD (R220). -/
def VEN_CMD : Reg := { base := 0x1400000, fields := [⟨0, 2, .wo, 0, 0x3⟩, ⟨2, 5, .wo, 0, 0x1f⟩] }
/-- VEN_STATUS (R220). -/
def VEN_STATUS : Reg := { base := 0x1400004, fields := [⟨0, 1, .ro, 0, 0x1⟩, ⟨1, 1, .w1c, 0, 0x1⟩, ⟨2, 1, .w1c, 0, 0x1⟩, ⟨4, 4, .ro, 0, 0xf⟩, ⟨8, 5, .ro, 0, 0x1f⟩, ⟨16, 8, .ro, 0, 0xff⟩, ⟨24, 5, .ro, 0, 0x1f⟩] }
/-- VEN_STATUS_CNT (R220). -/
def VEN_STATUS_CNT : Reg := { base := 0x1400008, fields := [⟨0, 8, .ro, 0, 0xff⟩, ⟨8, 8, .ro, 0, 0xff⟩, ⟨31, 1, .wo, 0, 0x1⟩] }
/-- VEN_CAP (R220). -/
def VEN_CAP : Reg := { base := 0x1400010, reset := 0x7d00000, fields := [⟨0, 6, .ro, 0, 0x3f⟩, ⟨16, 11, .ro, 0, 0x7ff⟩] }
/-- VEN_SES_CFG (R221). -/
def VEN_SES_CFG : Reg := { base := 0x1410000, n1 := 32, s1 := 0x100, reset := 0x1000, fields := [⟨0, 1, .rw, 0, 0x1⟩, ⟨1, 1, .rw, 0, 0x1⟩, ⟨2, 2, .rw, 0, 0x3⟩, ⟨4, 8, .rw, 0, 0xff⟩, ⟨12, 4, .rw, 0, 0xf⟩, ⟨16, 10, .rw, 0, 0x3ff⟩] }
/-- VEN_SES_RATE (R221). -/
def VEN_SES_RATE : Reg := { base := 0x1410004, n1 := 32, s1 := 0x100, fields := [⟨0, 18, .rw, 0, 0x3ffff⟩] }
/-- VEN_SES_PEAK (R221). -/
def VEN_SES_PEAK : Reg := { base := 0x1410008, n1 := 32, s1 := 0x100, fields := [⟨0, 18, .rw, 0, 0x3ffff⟩] }
/-- VEN_SES_QP (R221). -/
def VEN_SES_QP : Reg := { base := 0x141000c, n1 := 32, s1 := 0x100, reset := 0x330a1e1c, fields := [⟨0, 6, .rw, 0, 0x3f⟩, ⟨8, 6, .rw, 0, 0x3f⟩, ⟨16, 6, .rw, 0, 0x3f⟩, ⟨24, 6, .rw, 0, 0x3f⟩] }
/-- VEN_SES_CPB (R221). -/
def VEN_SES_CPB : Reg := { base := 0x1410010, n1 := 32, s1 := 0x100, fields := [⟨0, 18, .rw, 0, 0x3ffff⟩] }
/-- VEN_SES_PIC_MAX (R221). -/
def VEN_SES_PIC_MAX : Reg := { base := 0x1410014, n1 := 32, s1 := 0x100, fields := [⟨0, 16, .rw, 0, 0xffff⟩] }
/-- VEN_SES_OUT_ADDR (R221). -/
def VEN_SES_OUT_ADDR : Reg := { base := 0x1410018, n1 := 32, s1 := 0x100, wide := true, fields := [⟨0, 40, .rw, 0, 0xffffffffff⟩, ⟨40, 8, .rw, 0, 0xff⟩] }
/-- VEN_SES_RPTR (R221). -/
def VEN_SES_RPTR : Reg := { base := 0x1410020, n1 := 32, s1 := 0x100, align := 0x3f, fields := [⟨0, 28, .rw, 0, 0xfffffff⟩] }
/-- VEN_SES_WPTR (R221). -/
def VEN_SES_WPTR : Reg := { base := 0x1410080, n1 := 32, s1 := 0x100, fields := [⟨0, 28, .ro, 0, 0xfffffff⟩] }
/-- VEN_SES_STATE (R221). -/
def VEN_SES_STATE : Reg := { base := 0x1410084, n1 := 32, s1 := 0x100, fields := [⟨0, 1, .ro, 0, 0x1⟩, ⟨1, 1, .ro, 0, 0x1⟩, ⟨2, 1, .ro, 0, 0x1⟩, ⟨8, 6, .ro, 0, 0x3f⟩, ⟨16, 8, .ro, 0, 0xff⟩] }
/-- VEN_SES_EVENT (R222). -/
def VEN_SES_EVENT : Reg := { base := 0x1410088, n1 := 32, s1 := 0x100, fields := [⟨0, 1, .w1c, 0, 0x1⟩, ⟨1, 1, .w1c, 0, 0x1⟩, ⟨2, 1, .w1c, 0, 0x1⟩, ⟨3, 1, .w1c, 0, 0x1⟩, ⟨4, 1, .w1c, 0, 0x1⟩, ⟨31, 1, .wo, 0, 0x1⟩] }
/-- VEN_SES_EVENT_CNT (R222). -/
def VEN_SES_EVENT_CNT : Reg := { base := 0x1410090, n1 := 32, s1 := 0x100, wide := true, fields := [⟨0, 8, .ro, 0, 0xff⟩, ⟨8, 8, .ro, 0, 0xff⟩, ⟨16, 8, .ro, 0, 0xff⟩, ⟨24, 8, .ro, 0, 0xff⟩, ⟨32, 8, .ro, 0, 0xff⟩] }
/-- EAS_ARG0 (R258). -/
def EAS_ARG0 : Reg := { base := 0x1800000, wide := true, fields := [⟨0, 64, .rw, 0, 0xffffffffffffffff⟩] }
/-- EAS_ARG1 (R258). -/
def EAS_ARG1 : Reg := { base := 0x1800008, wide := true, fields := [⟨0, 64, .rw, 0, 0xffffffffffffffff⟩] }
/-- EAS_CMD (R258). -/
def EAS_CMD : Reg := { base := 0x1800010, fields := [⟨0, 5, .wo, 0, 0x1f⟩] }
/-- EAS_RESULT (R258). -/
def EAS_RESULT : Reg := { base := 0x1800020, wide := true, fields := [⟨0, 64, .ro, 0, 0xffffffffffffffff⟩] }
/-- EAS_STATUS (R259). -/
def EAS_STATUS : Reg := { base := 0x1800014, fields := [⟨0, 1, .ro, 0, 0x1⟩, ⟨1, 1, .w1c, 0, 0x1⟩, ⟨2, 1, .w1c, 0, 0x1⟩, ⟨4, 5, .ro, 0, 0x1f⟩, ⟨12, 10, .ro, 0, 0x3ff⟩, ⟨22, 5, .ro, 0, 0x1f⟩] }
/-- EAS_STATUS_CNT (R259). -/
def EAS_STATUS_CNT : Reg := { base := 0x1800018, fields := [⟨0, 8, .ro, 0, 0xff⟩, ⟨8, 8, .ro, 0, 0xff⟩, ⟨31, 1, .wo, 0, 0x1⟩] }
/-- EAS_SRC_WINDOW (R259). -/
def EAS_SRC_WINDOW : Reg := { base := 0x1800028, reset := 0x2000000, lock := some (0x180003c, 0), fields := [⟨0, 12, .rwl, 0, 0xfff⟩, ⟨13, 13, .rwl, 0, 0x1fff⟩] }
/-- EAS_LT_BASE (R259). -/
def EAS_LT_BASE : Reg := { base := 0x1800030, wide := true, align := 0x3ffff, lock := some (0x180003c, 0), fields := [⟨0, 40, .rwl, 0, 0xffffffffff⟩] }
/-- EAS_FREE (R259). -/
def EAS_FREE : Reg := { base := 0x1800038, reset := 0x2000, fields := [⟨0, 14, .ro, 0, 0x3fff⟩, ⟨16, 10, .ro, 0, 0x3ff⟩] }
/-- EAS_CTRL (R259). -/
def EAS_CTRL : Reg := { base := 0x180003c, fields := [⟨0, 1, .w1s, 0, 0x1⟩] }
/-- EAS_EVENT (R259). -/
def EAS_EVENT : Reg := { base := 0x1800040, fields := [⟨0, 1, .w1c, 0, 0x1⟩, ⟨1, 1, .w1c, 0, 0x1⟩, ⟨2, 1, .w1c, 0, 0x1⟩, ⟨31, 1, .wo, 0, 0x1⟩] }
/-- EAS_EVENT_CNT (R259). -/
def EAS_EVENT_CNT : Reg := { base := 0x1800044, fields := [⟨0, 8, .ro, 0, 0xff⟩, ⟨8, 8, .ro, 0, 0xff⟩, ⟨16, 8, .ro, 0, 0xff⟩] }
/-- EAS_POOL_CLASS (R260). -/
def EAS_POOL_CLASS : Reg := { base := 0x1800400, n1 := 64, s1 := 0x10, fields := [⟨0, 4, .ro, 0, 0xf⟩, ⟨4, 14, .ro, 0, 0x3fff⟩, ⟨18, 14, .ro, 0, 0x3fff⟩] }
/-- EAS_POOL_COUNT (R260). -/
def EAS_POOL_COUNT : Reg := { base := 0x1800404, n1 := 64, s1 := 0x10, fields := [⟨0, 14, .ro, 0, 0x3fff⟩, ⟨16, 14, .ro, 0, 0x3fff⟩] }
/-- EAS_POOL_BYTES (R260). -/
def EAS_POOL_BYTES : Reg := { base := 0x1800408, n1 := 64, s1 := 0x10, fields := [⟨0, 16, .ro, 0, 0xffff⟩] }
/-- EAS_GAL_STATE (R261). -/
def EAS_GAL_STATE : Reg := { base := 0x1800800, n1 := 8, s1 := 0x20, wide := true, fields := [⟨0, 32, .ro, 0, 0xffffffff⟩, ⟨32, 32, .ro, 0, 0xffffffff⟩] }
/-- EAS_GAL_ACK (R261). -/
def EAS_GAL_ACK : Reg := { base := 0x1800808, n1 := 8, s1 := 0x20, wide := true, fields := [⟨0, 32, .ro, 0, 0xffffffff⟩, ⟨32, 32, .ro, 0, 0xffffffff⟩] }
/-- EAS_GAL_PEND (R261). -/
def EAS_GAL_PEND : Reg := { base := 0x1800810, n1 := 8, s1 := 0x20, fields := [⟨0, 1, .ro, 0, 0x1⟩, ⟨1, 1, .ro, 0, 0x1⟩, ⟨2, 1, .ro, 0, 0x1⟩, ⟨3, 11, .ro, 0, 0x7ff⟩] }
/-- EAS_GAL_EVENT (R261). -/
def EAS_GAL_EVENT : Reg := { base := 0x1800814, n1 := 8, s1 := 0x20, fields := [⟨0, 1, .w1c, 0, 0x1⟩, ⟨1, 1, .w1c, 0, 0x1⟩, ⟨2, 1, .w1c, 0, 0x1⟩, ⟨3, 1, .w1c, 0, 0x1⟩, ⟨4, 1, .w1c, 0, 0x1⟩, ⟨31, 1, .wo, 0, 0x1⟩] }
/-- EAS_GAL_EVENT_CNT (R261). -/
def EAS_GAL_EVENT_CNT : Reg := { base := 0x1800818, n1 := 8, s1 := 0x20, wide := true, fields := [⟨0, 8, .ro, 0, 0xff⟩, ⟨8, 8, .ro, 0, 0xff⟩, ⟨16, 8, .ro, 0, 0xff⟩, ⟨24, 8, .ro, 0, 0xff⟩, ⟨32, 8, .ro, 0, 0xff⟩] }
/-- EAS_DESC (08_easel_and_epochs.md). -/
def EAS_DESC : Reg := { base := 0x1810000, n1 := 8192, s1 := 0x10, fields := [] }
/-- CMP_ENG_MAP (R300). -/
def CMP_ENG_MAP : Reg := { base := 0x2800000, n1 := 8, s1 := 0x10000, fields := [⟨0, 32, .ro, 0, 0xffffffff⟩] }
/-- CMP_STORE_FREE (R301). -/
def CMP_STORE_FREE : Reg := { base := 0x2880000, reset := 0xc0000, fields := [⟨0, 20, .ro, 0, 0xfffff⟩] }
/-- CMP_SPILL_ADDR (R301). -/
def CMP_SPILL_ADDR : Reg := { base := 0x2880008, wide := true, align := 0xfffff, fields := [⟨0, 40, .rw, 0, 0xffffffffff⟩] }
/-- CMP_SPILL_SIZE (R301). -/
def CMP_SPILL_SIZE : Reg := { base := 0x2880010, fields := [⟨0, 7, .rw, 0, 64⟩] }
/-- CMP_SPILL_FREE (R301). -/
def CMP_SPILL_FREE : Reg := { base := 0x2880014, fields := [⟨0, 21, .ro, 0, 0x1fffff⟩] }
/-- CMP_CNV_CFG (R302). -/
def CMP_CNV_CFG : Reg := { base := 0x2900000, n1 := 32, s1 := 0x100, reset := 0x250250, quarter := some 0, fields := [⟨0, 3, .rw, 0, 0x7⟩, ⟨4, 2, .rw, 0, 2⟩, ⟨6, 2, .rw, 0, 2⟩, ⟨8, 1, .rw, 0, 0x1⟩, ⟨9, 2, .rw, 0, 2⟩, ⟨11, 1, .rw, 0, 0x1⟩, ⟨12, 4, .rw, 0, 0xf⟩, ⟨16, 1, .rw, 0, 0x1⟩, ⟨17, 1, .rw, 0, 0x1⟩, ⟨18, 4, .rw, 9, 10⟩] }
/-- CMP_CNV_BG (R302). -/
def CMP_CNV_BG : Reg := { base := 0x2900008, n1 := 32, s1 := 0x100, wide := true, fields := [⟨0, 12, .rw, 0, 0xfff⟩, ⟨16, 12, .rw, 0, 0xfff⟩, ⟨32, 12, .rw, 0, 0xfff⟩] }
/-- CMP_CNV_STATE (R302). -/
def CMP_CNV_STATE : Reg := { base := 0x2900010, n1 := 32, s1 := 0x100, fields := [⟨0, 7, .ro, 0, 0x7f⟩, ⟨8, 2, .ro, 0, 0x3⟩, ⟨10, 2, .ro, 0, 0x3⟩] }
/-- CMP_CNV_EVENT (R303). -/
def CMP_CNV_EVENT : Reg := { base := 0x2900014, n1 := 32, s1 := 0x100, fields := [⟨0, 1, .w1c, 0, 0x1⟩, ⟨1, 1, .w1c, 0, 0x1⟩, ⟨2, 1, .w1c, 0, 0x1⟩, ⟨3, 1, .w1c, 0, 0x1⟩, ⟨4, 1, .w1c, 0, 0x1⟩, ⟨5, 1, .w1c, 0, 0x1⟩, ⟨6, 1, .w1c, 0, 0x1⟩, ⟨31, 1, .wo, 0, 0x1⟩] }
/-- CMP_CNV_EVENT_CNT (R303). -/
def CMP_CNV_EVENT_CNT : Reg := { base := 0x2900018, n1 := 32, s1 := 0x100, wide := true, fields := [⟨0, 8, .ro, 0, 0xff⟩, ⟨8, 8, .ro, 0, 0xff⟩, ⟨16, 8, .ro, 0, 0xff⟩, ⟨24, 8, .ro, 0, 0xff⟩, ⟨32, 8, .ro, 0, 0xff⟩, ⟨40, 8, .ro, 0, 0xff⟩, ⟨48, 8, .ro, 0, 0xff⟩] }
/-- CMP_CNV_PLANE (R303). -/
def CMP_CNV_PLANE : Reg := { base := 0x2900020, n1 := 32, s1 := 0x100, wide := true, fields := [⟨0, 20, .ro, 0, 0xfffff⟩, ⟨20, 20, .ro, 0, 0xfffff⟩, ⟨40, 1, .ro, 0, 0x1⟩, ⟨41, 1, .ro, 0, 0x1⟩] }
/-- CMP_CNV_PLANE_EPOCH (R303). -/
def CMP_CNV_PLANE_EPOCH : Reg := { base := 0x2900028, n1 := 32, s1 := 0x100, fields := [⟨0, 32, .ro, 0, 0xffffffff⟩] }
/-- CMP_CNV_WB_FRAME (R303). -/
def CMP_CNV_WB_FRAME : Reg := { base := 0x290002c, n1 := 32, s1 := 0x100, fields := [⟨0, 32, .ro, 0, 0xffffffff⟩] }
/-- CNV_GAL_CTRL (R325). -/
def CNV_GAL_CTRL : Reg := { base := 0x2420000, n1 := 8, s1 := 0x100, fields := [⟨0, 1, .rw, 0, 0x1⟩, ⟨1, 1, .rw, 0, 0x1⟩] }
/-- CNV_GAL_PLL (R325). -/
def CNV_GAL_PLL : Reg := { base := 0x2420004, n1 := 8, s1 := 0x100, fields := [⟨0, 16, .rw, 0, 0xffff⟩, ⟨16, 12, .rw, 0, 0xfff⟩] }
/-- CNV_GAL_HV (R325). -/
def CNV_GAL_HV : Reg := { base := 0x2420008, n1 := 8, s1 := 0x100, fields := [⟨0, 14, .rw, 0, 0x3fff⟩, ⟨16, 12, .rw, 0, 0xfff⟩] }
/-- CNV_GAL_VB (R325). -/
def CNV_GAL_VB : Reg := { base := 0x242000c, n1 := 8, s1 := 0x100, fields := [⟨0, 12, .rw, 0, 0xfff⟩, ⟨12, 12, .rw, 0, 0xfff⟩, ⟨24, 4, .rw, 0, 0xf⟩] }
/-- CNV_GAL_VSYNC (R325). -/
def CNV_GAL_VSYNC : Reg := { base := 0x2420010, n1 := 8, s1 := 0x100, fields := [⟨0, 8, .rw, 0, 0xff⟩, ⟨8, 8, .rw, 0, 0xff⟩] }
/-- CNV_GAL_ALIGN_BASE (R325). -/
def CNV_GAL_ALIGN_BASE : Reg := { base := 0x2420018, n1 := 8, s1 := 0x100, wide := true, fields := [⟨0, 64, .rw, 0, 0xffffffffffffffff⟩] }
/-- CNV_GAL_ALIGN_RATE (R325). -/
def CNV_GAL_ALIGN_RATE : Reg := { base := 0x2420020, n1 := 8, s1 := 0x100, reset := 0x1003c, fields := [⟨0, 16, .rw, 1, 65535⟩, ⟨16, 16, .rw, 1, 65535⟩] }
/-- CNV_GAL_STATUS (R325). -/
def CNV_GAL_STATUS : Reg := { base := 0x2420028, n1 := 8, s1 := 0x100, wide := true, fields := [⟨0, 13, .ro, 0, 0x1fff⟩, ⟨13, 1, .ro, 0, 0x1⟩, ⟨14, 1, .ro, 0, 0x1⟩, ⟨16, 12, .ro, 0, 0xfff⟩, ⟨28, 4, .ro, 0, 0xf⟩, ⟨32, 5, .ro, 0, 0x1f⟩] }
/-- CNV_GAL_EVENT (R325). -/
def CNV_GAL_EVENT : Reg := { base := 0x2420030, n1 := 8, s1 := 0x100, fields := [⟨0, 1, .w1c, 0, 0x1⟩, ⟨1, 1, .w1c, 0, 0x1⟩, ⟨2, 1, .w1c, 0, 0x1⟩, ⟨31, 1, .wo, 0, 0x1⟩] }
/-- CNV_GAL_EVENT_CNT (R325). -/
def CNV_GAL_EVENT_CNT : Reg := { base := 0x2420034, n1 := 8, s1 := 0x100, fields := [⟨0, 8, .ro, 0, 0xff⟩, ⟨8, 8, .ro, 0, 0xff⟩, ⟨16, 8, .ro, 0, 0xff⟩] }
/-- CNV_GAL_LATCH (R325). -/
def CNV_GAL_LATCH : Reg := { base := 0x2420038, n1 := 8, s1 := 0x100, fields := [⟨0, 32, .ro, 0, 0xffffffff⟩] }
/-- CNV_CTRL (R326). -/
def CNV_CTRL : Reg := { base := 0x2400000, n1 := 32, s1 := 0x1000, quarter := some 10, fields := [⟨0, 1, .rw, 0, 0x1⟩, ⟨1, 2, .rw, 0, 0x3⟩, ⟨3, 4, .rw, 0, 0xf⟩, ⟨7, 1, .rw, 0, 0x1⟩, ⟨8, 1, .rw, 0, 0x1⟩, ⟨9, 1, .rw, 0, 0x1⟩, ⟨10, 3, .rw, 0, 0x7⟩] }
/-- CNV_H (R326). -/
def CNV_H : Reg := { base := 0x2400004, n1 := 32, s1 := 0x1000, fields := [⟨0, 13, .rw, 0, 0x1fff⟩, ⟨16, 13, .rw, 0, 0x1fff⟩] }
/-- CNV_HSYNC (R326). -/
def CNV_HSYNC : Reg := { base := 0x2400008, n1 := 32, s1 := 0x1000, fields := [⟨0, 13, .rw, 0, 0x1fff⟩] }
/-- CNV_WEIR (R326). -/
def CNV_WEIR : Reg := { base := 0x240000c, n1 := 32, s1 := 0x1000, reset := 0xc8020810, fields := [⟨0, 5, .rw, 0, 0x1f⟩, ⟨8, 5, .rw, 0, 0x1f⟩, ⟨16, 5, .rw, 0, 0x1f⟩, ⟨24, 4, .rw, 0, 0xf⟩, ⟨28, 4, .rw, 0, 0xf⟩] }
/-- CNV_STATUS (R326). -/
def CNV_STATUS : Reg := { base := 0x2400010, n1 := 32, s1 := 0x1000, reset := 0x100, fields := [⟨0, 6, .ro, 0, 0x3f⟩, ⟨6, 1, .ro, 0, 0x1⟩, ⟨7, 1, .ro, 0, 0x1⟩, ⟨8, 1, .ro, 0, 0x1⟩, ⟨9, 1, .ro, 0, 0x1⟩] }
/-- CNV_EVENT (R326). -/
def CNV_EVENT : Reg := { base := 0x2400014, n1 := 32, s1 := 0x1000, fields := [⟨0, 1, .w1c, 0, 0x1⟩, ⟨1, 1, .w1c, 0, 0x1⟩, ⟨2, 1, .w1c, 0, 0x1⟩, ⟨3, 1, .w1c, 0, 0x1⟩, ⟨4, 1, .w1c, 0, 0x1⟩, ⟨31, 1, .wo, 0, 0x1⟩] }
/-- CNV_EVENT_CNT (R326). -/
def CNV_EVENT_CNT : Reg := { base := 0x2400018, n1 := 32, s1 := 0x1000, wide := true, fields := [⟨0, 8, .ro, 0, 0xff⟩, ⟨8, 8, .ro, 0, 0xff⟩, ⟨16, 8, .ro, 0, 0xff⟩, ⟨24, 8, .ro, 0, 0xff⟩, ⟨32, 8, .ro, 0, 0xff⟩] }
/-- CNV_LAST_CUT (R326). -/
def CNV_LAST_CUT : Reg := { base := 0x2400020, n1 := 32, s1 := 0x1000, wide := true, fields := [⟨0, 10, .ro, 0, 0x3ff⟩, ⟨10, 8, .ro, 0, 0xff⟩, ⟨18, 1, .ro, 0, 0x1⟩, ⟨32, 32, .ro, 0, 0xffffffff⟩] }
/-- LDG_CTRL (R374). -/
def LDG_CTRL : Reg := { base := 0x2000000, reset := 0x3, lock := some (0x2000008, 0), fields := [⟨0, 4, .rwl, 2, 15⟩] }
/-- LDG_WATCH_EXPECT (R374). -/
def LDG_WATCH_EXPECT : Reg := { base := 0x2000004, lock := some (0x2000008, 0), fields := [⟨0, 32, .rwl, 0, 0xffffffff⟩] }
/-- LDG_LOCK (R374). -/
def LDG_LOCK : Reg := { base := 0x2000008, fields := [⟨0, 1, .w1s, 0, 0x1⟩] }
/-- LDG_SET_DL (R375). -/
def LDG_SET_DL : Reg := { base := 0x2000010, fields := [⟨0, 10, .wo, 0, 0x3ff⟩, ⟨10, 11, .wo, 0, 0x7ff⟩, ⟨21, 7, .wo, 0, 0x7f⟩] }
/-- LDG_EVENT (R376). -/
def LDG_EVENT : Reg := { base := 0x2000018, fields := [⟨0, 1, .w1c, 0, 0x1⟩, ⟨1, 1, .w1c, 0, 0x1⟩, ⟨2, 1, .w1c, 0, 0x1⟩, ⟨3, 1, .w1c, 0, 0x1⟩, ⟨4, 1, .w1c, 0, 0x1⟩, ⟨5, 1, .w1c, 0, 0x1⟩, ⟨6, 1, .w1c, 0, 0x1⟩, ⟨7, 1, .w1c, 0, 0x1⟩, ⟨8, 1, .w1c, 0, 0x1⟩, ⟨31, 1, .wo, 0, 0x1⟩] }
/-- LDG_EVENT_CNT (R376). -/
def LDG_EVENT_CNT : Reg := { base := 0x2000020, wide := true, fields := [⟨0, 8, .ro, 0, 0xff⟩, ⟨8, 8, .ro, 0, 0xff⟩, ⟨16, 8, .ro, 0, 0xff⟩, ⟨24, 8, .ro, 0, 0xff⟩, ⟨32, 8, .ro, 0, 0xff⟩, ⟨40, 8, .ro, 0, 0xff⟩, ⟨48, 8, .ro, 0, 0xff⟩, ⟨56, 8, .ro, 0, 0xff⟩] }
/-- LDG_PROOF_CMD (R377). -/
def LDG_PROOF_CMD : Reg := { base := 0x2000030, fields := [⟨0, 10, .wo, 0, 0x3ff⟩, ⟨10, 2, .wo, 0, 0x3⟩, ⟨12, 8, .wo, 0, 0xff⟩, ⟨31, 1, .wo, 0, 0x1⟩] }
/-- LDG_PROOF_STATUS (R377). -/
def LDG_PROOF_STATUS : Reg := { base := 0x2000034, fields := [⟨0, 1, .ro, 0, 0x1⟩, ⟨1, 2, .ro, 0, 0x3⟩, ⟨3, 3, .ro, 0, 0x7⟩, ⟨6, 3, .ro, 0, 0x7⟩] }
/-- LDG_LAYER_STATUS (R378). -/
def LDG_LAYER_STATUS : Reg := { base := 0x2010000, n1 := 1024, s1 := 0x10, wide := true, reset := 0x5, fields := [⟨0, 3, .ro, 0, 0x7⟩, ⟨3, 1, .ro, 0, 0x1⟩, ⟨4, 4, .ro, 0, 0xf⟩, ⟨8, 1, .ro, 0, 0x1⟩, ⟨9, 8, .ro, 0, 0xff⟩, ⟨20, 12, .ro, 0, 0xfff⟩, ⟨32, 16, .ro, 0, 0xffff⟩, ⟨48, 8, .ro, 0, 0xff⟩] }
/-- TND_CTRL (R404). -/
def TND_CTRL : Reg := { base := 0x2c00000, reset := 0x10460, lock := some (0x2c00000, 31), fields := [⟨0, 1, .rwl, 0, 0x1⟩, ⟨1, 4, .rwl, 0, 0xf⟩, ⟨5, 4, .rwl, 2, 15⟩, ⟨9, 4, .rwl, 1, 15⟩, ⟨13, 4, .rwl, 1, 15⟩, ⟨17, 8, .rwl, 0, 0xff⟩, ⟨31, 1, .w1s, 0, 0x1⟩] }
/-- TND_EXPORT (R404). -/
def TND_EXPORT : Reg := { base := 0x2c00004, lock := some (0x2c00000, 31), fields := [⟨0, 32, .rwl, 0, 0xffffffff⟩] }
/-- TND_CMD (R404). -/
def TND_CMD : Reg := { base := 0x2c00008, fields := [⟨0, 1, .wo, 0, 0x1⟩, ⟨1, 1, .wo, 0, 0x1⟩] }
/-- TND_STATUS (R404). -/
def TND_STATUS : Reg := { base := 0x2c0000c, fields := [⟨0, 2, .ro, 0, 0x3⟩, ⟨2, 1, .ro, 0, 0x1⟩, ⟨3, 1, .ro, 0, 0x1⟩, ⟨4, 1, .ro, 0, 0x1⟩, ⟨5, 1, .ro, 0, 0x1⟩, ⟨6, 1, .ro, 0, 0x1⟩, ⟨7, 1, .ro, 0, 0x1⟩, ⟨8, 4, .ro, 0, 0xf⟩, ⟨16, 16, .ro, 0, 0xffff⟩] }
/-- TND_TWIN (R404). -/
def TND_TWIN : Reg := { base := 0x2c00010, fields := [⟨0, 16, .ro, 0, 0xffff⟩, ⟨16, 6, .ro, 0, 0x3f⟩, ⟨22, 2, .ro, 0, 0x3⟩, ⟨24, 1, .ro, 0, 0x1⟩] }
/-- TND_EVENT (R404). -/
def TND_EVENT : Reg := { base := 0x2c00014, fields := [⟨0, 1, .w1c, 0, 0x1⟩, ⟨1, 1, .w1c, 0, 0x1⟩, ⟨2, 1, .w1c, 0, 0x1⟩, ⟨3, 1, .w1c, 0, 0x1⟩, ⟨4, 1, .w1c, 0, 0x1⟩, ⟨5, 1, .w1c, 0, 0x1⟩, ⟨6, 1, .w1c, 0, 0x1⟩, ⟨7, 1, .w1c, 0, 0x1⟩, ⟨8, 1, .w1c, 0, 0x1⟩, ⟨31, 1, .wo, 0, 0x1⟩] }
/-- TND_EVENT_CNT (R404). -/
def TND_EVENT_CNT : Reg := { base := 0x2c00018, wide := true, fields := [⟨0, 8, .ro, 0, 0xff⟩, ⟨8, 8, .ro, 0, 0xff⟩, ⟨16, 8, .ro, 0, 0xff⟩, ⟨24, 8, .ro, 0, 0xff⟩, ⟨32, 8, .ro, 0, 0xff⟩, ⟨40, 8, .ro, 0, 0xff⟩, ⟨48, 8, .ro, 0, 0xff⟩, ⟨56, 8, .ro, 0, 0xff⟩] }
/-- TND_COMPARE (R404). -/
def TND_COMPARE : Reg := { base := 0x2c00020, wide := true, fields := [⟨0, 32, .ro, 0, 0xffffffff⟩, ⟨32, 32, .ro, 0, 0xffffffff⟩] }
/-- TND_LAST_MISMATCH (R404). -/
def TND_LAST_MISMATCH : Reg := { base := 0x2c00028, wide := true, fields := [⟨0, 5, .ro, 0, 0x1f⟩, ⟨5, 8, .ro, 0, 0xff⟩, ⟨13, 5, .ro, 0, 0x1f⟩, ⟨18, 1, .ro, 0, 0x1⟩, ⟨32, 32, .ro, 0, 0xffffffff⟩] }
/-- SEQ_FEATURES (R434). -/
def SEQ_FEATURES : Reg := { base := 0x3010000, wide := true, reset := 0xfff, fields := [⟨0, 64, .ro, 0, 0xffffffffffffffff⟩] }
/-- SEQ_SIGNAL (R434). -/
def SEQ_SIGNAL : Reg := { base := 0x3010008, fields := [⟨0, 10, .wo, 0, 0x3ff⟩] }
/-- SEQ_CMD (R435). -/
def SEQ_CMD : Reg := { base := 0x3000000, n1 := 16, s1 := 0x1000, fields := [⟨0, 1, .wo, 0, 0x1⟩, ⟨1, 1, .wo, 0, 0x1⟩, ⟨2, 1, .wo, 0, 0x1⟩, ⟨3, 1, .wo, 0, 0x1⟩] }
/-- SEQ_CFG (R435). -/
def SEQ_CFG : Reg := { base := 0x3000004, n1 := 16, s1 := 0x1000, fields := [⟨0, 8, .rw, 0, 0xff⟩, ⟨8, 1, .rw, 0, 0x1⟩, ⟨9, 1, .rw, 0, 0x1⟩] }
/-- SEQ_STATE (R435). -/
def SEQ_STATE : Reg := { base := 0x3000008, n1 := 16, s1 := 0x1000, fields := [⟨0, 2, .ro, 0, 0x3⟩, ⟨2, 1, .ro, 0, 0x1⟩, ⟨3, 5, .ro, 0, 0x1f⟩] }
/-- SEQ_PC (R435). -/
def SEQ_PC : Reg := { base := 0x300000c, n1 := 16, s1 := 0x1000, fields := [⟨0, 14, .ro, 0, 0x3fff⟩] }
/-- SEQ_START_STATUS (R435). -/
def SEQ_START_STATUS : Reg := { base := 0x3000010, n1 := 16, s1 := 0x1000, fields := [⟨0, 4, .ro, 0, 0xf⟩, ⟨8, 8, .ro, 0, 0xff⟩] }
/-- SEQ_FAULT (R435). -/
def SEQ_FAULT : Reg := { base := 0x3000018, n1 := 16, s1 := 0x1000, wide := true, fields := [⟨0, 4, .ro, 0, 0xf⟩, ⟨4, 1, .ro, 0, 0x1⟩, ⟨5, 14, .ro, 0, 0x3fff⟩, ⟨24, 40, .ro, 0, 0xffffffffff⟩] }
/-- SEQ_EVENT (R435). -/
def SEQ_EVENT : Reg := { base := 0x3000020, n1 := 16, s1 := 0x1000, fields := [⟨0, 1, .w1c, 0, 0x1⟩, ⟨1, 1, .w1c, 0, 0x1⟩, ⟨2, 1, .w1c, 0, 0x1⟩, ⟨3, 1, .w1c, 0, 0x1⟩, ⟨4, 1, .w1c, 0, 0x1⟩, ⟨31, 1, .wo, 0, 0x1⟩] }
/-- SEQ_EVENT_CNT (R435). -/
def SEQ_EVENT_CNT : Reg := { base := 0x3000028, n1 := 16, s1 := 0x1000, wide := true, fields := [⟨0, 8, .ro, 0, 0xff⟩, ⟨8, 8, .ro, 0, 0xff⟩, ⟨16, 8, .ro, 0, 0xff⟩, ⟨24, 8, .ro, 0, 0xff⟩, ⟨32, 8, .ro, 0, 0xff⟩] }
/-- SEQ_CYCLES (R435). -/
def SEQ_CYCLES : Reg := { base := 0x3000030, n1 := 16, s1 := 0x1000, wide := true, fields := [⟨0, 64, .ro, 0, 0xffffffffffffffff⟩] }
/-- SEQ_RETIRED (R435). -/
def SEQ_RETIRED : Reg := { base := 0x3000038, n1 := 16, s1 := 0x1000, wide := true, fields := [⟨0, 64, .ro, 0, 0xffffffffffffffff⟩] }
/-- SEQ_REG (R435). -/
def SEQ_REG : Reg := { base := 0x3000100, n1 := 16, s1 := 0x1000, n2 := 32, s2 := 0x8, wide := true, fields := [⟨0, 64, .rw, 0, 0xffffffffffffffff⟩] }
/-- SEQ_EV_MASK (R435). -/
def SEQ_EV_MASK : Reg := { base := 0x3000200, n1 := 16, s1 := 0x1000, n2 := 16, s2 := 0x8, wide := true, fields := [⟨0, 64, .rw, 0, 0xffffffffffffffff⟩] }
/-- SEQ_EV_PEND (R435). -/
def SEQ_EV_PEND : Reg := { base := 0x3000400, n1 := 16, s1 := 0x1000, n2 := 128, s2 := 0x8, wide := true, fields := [⟨0, 64, .ro, 0, 0xffffffffffffffff⟩] }
/-- TCH_CTRL (R479). -/
def TCH_CTRL : Reg := { base := 0x3400000, n1 := 2, s1 := 0x10000, fields := [⟨0, 1, .rw, 0, 0x1⟩] }
/-- TCH_SCAN (R479). -/
def TCH_SCAN : Reg := { base := 0x3400004, n1 := 2, s1 := 0x10000, reset := 0x1e0288, fields := [⟨0, 7, .rw, 0, 0x7f⟩, ⟨7, 8, .rw, 1, 0xff⟩, ⟨15, 16, .rw, 0, 0xffff⟩] }
/-- TCH_THRESH (R479). -/
def TCH_THRESH : Reg := { base := 0x3400008, n1 := 2, s1 := 0x10000, reset := 0x6400c8, fields := [⟨0, 16, .rw, 0, 0xffff⟩, ⟨16, 16, .rw, 0, 0xffff⟩] }
/-- TCH_LIMITS (R479). -/
def TCH_LIMITS : Reg := { base := 0x340000c, n1 := 2, s1 := 0x10000, reset := 0x100064, fields := [⟨0, 16, .rw, 0, 0xffff⟩, ⟨16, 8, .rw, 0, 0xff⟩] }
/-- TCH_HOLD (R479). -/
def TCH_HOLD : Reg := { base := 0x3400010, n1 := 2, s1 := 0x10000, reset := 0x1e, fields := [⟨0, 10, .rw, 0, 0x3ff⟩] }
/-- TCH_WAKE (R479). -/
def TCH_WAKE : Reg := { base := 0x3400014, n1 := 2, s1 := 0x10000, reset := 0x200c, fields := [⟨0, 1, .rws, 0, 0x1⟩, ⟨1, 6, .rws, 0, 0x3f⟩, ⟨7, 16, .rws, 0, 0xffff⟩] }
/-- TCH_XFORM (R479). -/
def TCH_XFORM : Reg := { base := 0x3400020, n1 := 6, s1 := 0x10000, n2 := 6, s2 := 0x4, remote := true, fields := [⟨0, 32, .rw, 0, 0xffffffff⟩] }
/-- TCH_ROUTE (R479). -/
def TCH_ROUTE : Reg := { base := 0x3400038, n1 := 6, s1 := 0x10000, remote := true, fields := [⟨0, 5, .rw, 0, 0x1f⟩, ⟨5, 4, .rw, 0, 0xf⟩, ⟨9, 16, .rw, 0, 0xffff⟩] }
/-- TCH_STATUS (R479). -/
def TCH_STATUS : Reg := { base := 0x3400040, n1 := 2, s1 := 0x10000, fields := [⟨0, 2, .ro, 0, 0x3⟩, ⟨2, 4, .ro, 0, 0xf⟩, ⟨6, 1, .ro, 0, 0x1⟩] }
/-- TCH_EVENT (R479). -/
def TCH_EVENT : Reg := { base := 0x3400044, n1 := 6, s1 := 0x10000, remote := true, fields := [⟨0, 1, .w1c, 0, 0x1⟩, ⟨1, 1, .w1c, 0, 0x1⟩, ⟨2, 1, .w1c, 0, 0x1⟩, ⟨3, 1, .w1c, 0, 0x1⟩, ⟨4, 1, .w1c, 0, 0x1⟩, ⟨5, 1, .w1c, 0, 0x1⟩, ⟨31, 1, .wo, 0, 0x1⟩] }
/-- TCH_EVENT_CNT (R479). -/
def TCH_EVENT_CNT : Reg := { base := 0x3400048, n1 := 6, s1 := 0x10000, wide := true, remote := true, fields := [⟨0, 8, .ro, 0, 0xff⟩, ⟨8, 8, .ro, 0, 0xff⟩, ⟨16, 8, .ro, 0, 0xff⟩, ⟨24, 8, .ro, 0, 0xff⟩, ⟨32, 8, .ro, 0, 0xff⟩, ⟨40, 8, .ro, 0, 0xff⟩] }
/-- TCH_TEST_CMD (R479). -/
def TCH_TEST_CMD : Reg := { base := 0x3400050, n1 := 2, s1 := 0x10000, fields := [⟨0, 1, .wo, 0, 0x1⟩] }
/-- TCH_TEST_LIMITS (R479). -/
def TCH_TEST_LIMITS : Reg := { base := 0x3400054, n1 := 2, s1 := 0x10000, reset := 0x800100, fields := [⟨0, 16, .rw, 0, 0xffff⟩, ⟨16, 16, .rw, 0, 0xffff⟩] }
/-- TCH_TEST_OPEN (R479). -/
def TCH_TEST_OPEN : Reg := { base := 0x3400058, n1 := 2, s1 := 0x10000, wide := true, fields := [⟨0, 36, .ro, 0, 0xfffffffff⟩, ⟨36, 24, .ro, 0, 0xffffff⟩] }
/-- TCH_TEST_SHORT (R479). -/
def TCH_TEST_SHORT : Reg := { base := 0x3400060, n1 := 2, s1 := 0x10000, wide := true, fields := [⟨0, 36, .ro, 0, 0xfffffffff⟩, ⟨36, 24, .ro, 0, 0xffffff⟩] }
/-- TCH_NODE (R479). -/
def TCH_NODE : Reg := { base := 0x3401000, n1 := 2, s1 := 0x10000, n2 := 864, s2 := 0x8, wide := true, fields := [⟨0, 24, .ro, 0, 0xffffff⟩, ⟨32, 24, .ro, 0, 0xffffff⟩] }
/-- CPR_RING_BASE (R502). -/
def CPR_RING_BASE : Reg := { base := 0x3800000, n1 := 2, s1 := 0x1000, wide := true, align := 0x3f, fields := [⟨0, 40, .rw, 0, 0xffffffffff⟩] }
/-- CPR_RING_CFG (R502). -/
def CPR_RING_CFG : Reg := { base := 0x3800008, n1 := 2, s1 := 0x1000, reset := 0x4, fields := [⟨0, 5, .rw, 4, 16⟩, ⟨5, 1, .rw, 0, 0x1⟩] }
/-- CPR_TAIL (R502). -/
def CPR_TAIL : Reg := { base := 0x380000c, n1 := 2, s1 := 0x1000, fields := [⟨0, 16, .rw, 0, 0xffff⟩] }
/-- CPR_HEAD (R502). -/
def CPR_HEAD : Reg := { base := 0x3800010, n1 := 2, s1 := 0x1000, fields := [⟨0, 16, .ro, 0, 0xffff⟩] }
/-- CPR_EVENT (R502). -/
def CPR_EVENT : Reg := { base := 0x3800014, n1 := 2, s1 := 0x1000, fields := [⟨0, 1, .w1c, 0, 0x1⟩, ⟨1, 1, .w1c, 0, 0x1⟩, ⟨31, 1, .wo, 0, 0x1⟩] }
/-- CPR_EVENT_CNT (R502). -/
def CPR_EVENT_CNT : Reg := { base := 0x3800018, n1 := 2, s1 := 0x1000, fields := [⟨0, 8, .ro, 0, 0xff⟩, ⟨8, 8, .ro, 0, 0xff⟩] }
/-- JNL_CTRL (R503). -/
def JNL_CTRL : Reg := { base := 0x3810000, lock := some (0x3810000, 10), fields := [⟨0, 1, .rwl, 0, 0x1⟩, ⟨1, 9, .rwl, 1, 256⟩, ⟨10, 1, .w1s, 0, 0x1⟩] }
/-- JNL_RING_BASE (R503). -/
def JNL_RING_BASE : Reg := { base := 0x3810008, wide := true, align := 0xfffff, lock := some (0x3810000, 10), fields := [⟨0, 40, .rwl, 0, 0xffffffffff⟩] }
/-- JNL_ACK (R503). -/
def JNL_ACK : Reg := { base := 0x3810010, wide := true, fields := [⟨0, 64, .rw, 0, 0xffffffffffffffff⟩] }
/-- JNL_HEAD_INDEX (R503). -/
def JNL_HEAD_INDEX : Reg := { base := 0x3810018, wide := true, fields := [⟨0, 64, .ro, 0, 0xffffffffffffffff⟩] }
/-- JNL_HEAD_DIGEST (R503). -/
def JNL_HEAD_DIGEST : Reg := { base := 0x3810020, n2 := 8, s2 := 0x4, fields := [⟨0, 32, .ro, 0, 0xffffffff⟩] }
/-- JNL_HEAD_CAPTURE (R503). -/
def JNL_HEAD_CAPTURE : Reg := { base := 0x3810060, fields := [⟨0, 1, .wo, 0, 0x1⟩] }
/-- JNL_EVENT (R503). -/
def JNL_EVENT : Reg := { base := 0x3810040, fields := [⟨0, 1, .w1c, 0, 0x1⟩, ⟨1, 1, .w1c, 0, 0x1⟩, ⟨2, 1, .w1c, 0, 0x1⟩, ⟨3, 1, .w1c, 0, 0x1⟩, ⟨4, 1, .w1c, 0, 0x1⟩, ⟨31, 1, .wo, 0, 0x1⟩] }
/-- JNL_EVENT_CNT (R503). -/
def JNL_EVENT_CNT : Reg := { base := 0x3810048, wide := true, fields := [⟨0, 40, .ro, 0, 0xffffffffff⟩] }
/-- JNL_LOST (R503). -/
def JNL_LOST : Reg := { base := 0x3810050, wide := true, fields := [⟨0, 64, .ro, 0, 0xffffffffffffffff⟩] }
/-- JNL_HOST_DATA (R503). -/
def JNL_HOST_DATA : Reg := { base := 0x3810080, n2 := 12, s2 := 0x4, fields := [⟨0, 32, .rw, 0, 0xffffffff⟩] }
/-- JNL_HOST_CMD (R503). -/
def JNL_HOST_CMD : Reg := { base := 0x38100b0, fields := [⟨0, 1, .wo, 0, 0x1⟩] }
/-- JNL_EVID_CMD (R503). -/
def JNL_EVID_CMD : Reg := { base := 0x38100c0, fields := [⟨0, 5, .wo, 0, 0x1f⟩, ⟨5, 1, .wo, 0, 0x1⟩] }
/-- JNL_EVID_CTRL (R503). -/
def JNL_EVID_CTRL : Reg := { base := 0x38100c4, reset := 0x78, fields := [⟨0, 1, .rw, 0, 0x1⟩, ⟨1, 16, .rw, 1, 65535⟩] }
/-- JNL_EVID_AUTO (R503). -/
def JNL_EVID_AUTO : Reg := { base := 0x38100c8, fields := [⟨0, 32, .rw, 0, 0xffffffff⟩] }
/-- JNL_EVID_BASE (R503). -/
def JNL_EVID_BASE : Reg := { base := 0x38100d0, wide := true, align := 0xfffff, fields := [⟨0, 40, .rw, 0, 0xffffffffff⟩, ⟨40, 8, .rw, 0, 0xff⟩] }
/-- JNL_EVID_RPTR (R503). -/
def JNL_EVID_RPTR : Reg := { base := 0x38100d8, align := 0xfff, fields := [⟨0, 28, .rw, 0, 0xfffffff⟩] }
/-- JNL_EVID_WPTR (R503). -/
def JNL_EVID_WPTR : Reg := { base := 0x38100dc, fields := [⟨0, 28, .ro, 0, 0xfffffff⟩] }
/-- LANE_QUAD_USE (R523). -/
def LANE_QUAD_USE : Reg := { base := 0x430000, wide := true, lock := some (0x430008, 1), fields := [⟨0, 64, .rwl, 0, 0xffffffffffffffff⟩] }
/-- LANE_QUAD_COMMIT (R523). -/
def LANE_QUAD_COMMIT : Reg := { base := 0x430008, fields := [⟨0, 1, .wo, 0, 0x1⟩, ⟨1, 1, .ro, 0, 0x1⟩, ⟨2, 1, .ro, 0, 0x1⟩, ⟨3, 3, .ro, 0, 0x7⟩, ⟨6, 4, .ro, 0, 0xf⟩, ⟨10, 1, .w1c, 0, 0x1⟩, ⟨11, 8, .ro, 0, 0xff⟩, ⟨31, 1, .wo, 0, 0x1⟩] }
/-- LANE_DPTX_CFG (R524). -/
def LANE_DPTX_CFG : Reg := { base := 0x420000, n1 := 16, s1 := 0x400, reset := 0x7d16, fields := [⟨0, 1, .rw, 0, 0x1⟩, ⟨1, 2, .rw, 0, 0x3⟩, ⟨3, 2, .rw, 0, 0x3⟩, ⟨5, 11, .rw, 0, 0x7ff⟩] }
/-- LANE_DPTX_STATUS (R524). -/
def LANE_DPTX_STATUS : Reg := { base := 0x420004, n1 := 16, s1 := 0x400, fields := [⟨0, 2, .ro, 0, 0x3⟩, ⟨2, 1, .ro, 0, 0x1⟩, ⟨3, 4, .ro, 0, 0xf⟩] }
/-- LANE_DPRX_CFG (R524). -/
def LANE_DPRX_CFG : Reg := { base := 0x420008, n1 := 16, s1 := 0x400, reset := 0x2e, fields := [⟨0, 1, .rw, 0, 0x1⟩, ⟨1, 2, .rw, 0, 0x3⟩, ⟨3, 2, .rw, 0, 0x3⟩, ⟨5, 2, .rw, 0, 0x3⟩] }
/-- LANE_DPRX_STATUS (R524). -/
def LANE_DPRX_STATUS : Reg := { base := 0x42000c, n1 := 16, s1 := 0x400, fields := [⟨0, 1, .ro, 0, 0x1⟩, ⟨1, 2, .ro, 0, 0x3⟩, ⟨3, 2, .ro, 0, 0x3⟩] }
/-- LANE_AUX_CMD (R524). -/
def LANE_AUX_CMD : Reg := { base := 0x420010, n1 := 16, s1 := 0x400, fields := [⟨0, 4, .rw, 0, 0xf⟩, ⟨4, 20, .rw, 0, 0xfffff⟩, ⟨24, 5, .rw, 0, 0x1f⟩, ⟨31, 1, .wo, 0, 0x1⟩] }
/-- LANE_AUX_STATUS (R524). -/
def LANE_AUX_STATUS : Reg := { base := 0x420014, n1 := 16, s1 := 0x400, fields := [⟨0, 1, .ro, 0, 0x1⟩, ⟨1, 2, .ro, 0, 0x3⟩, ⟨3, 5, .ro, 0, 0x1f⟩] }
/-- LANE_AUX_DATA (R524). -/
def LANE_AUX_DATA : Reg := { base := 0x420020, n1 := 16, s1 := 0x400, n2 := 4, s2 := 0x4, fields := [⟨0, 32, .rw, 0, 0xffffffff⟩] }
/-- LANE_Q_EVENT (R524). -/
def LANE_Q_EVENT : Reg := { base := 0x420030, n1 := 16, s1 := 0x400, fields := [⟨0, 6, .w1c, 0, 0x3f⟩, ⟨31, 1, .wo, 0, 0x1⟩] }
/-- LANE_Q_EVENT_CNT (R524). -/
def LANE_Q_EVENT_CNT : Reg := { base := 0x420038, n1 := 16, s1 := 0x400, wide := true, fields := [⟨0, 48, .ro, 0, 0xffffffffffff⟩] }
/-- LANE_DPRX_EDID (R524). -/
def LANE_DPRX_EDID : Reg := { base := 0x420100, n1 := 16, s1 := 0x400, n2 := 64, s2 := 0x4, fields := [⟨0, 32, .rw, 0, 0xffffffff⟩] }
/-- LANE_TX_FIR (R525). -/
def LANE_TX_FIR : Reg := { base := 0x400000, n1 := 64, s1 := 0x800, reset := 0x300, fields := [⟨0, 4, .rw, 0, 0xf⟩, ⟨4, 6, .rw, 0, 0x3f⟩, ⟨10, 5, .rw, 0, 0x1f⟩] }
/-- LANE_RX_CFG (R525). -/
def LANE_RX_CFG : Reg := { base := 0x400004, n1 := 64, s1 := 0x800, fields := [⟨0, 1, .rw, 0, 0x1⟩] }
/-- LANE_STATUS (R525). -/
def LANE_STATUS : Reg := { base := 0x400008, n1 := 64, s1 := 0x800, fields := [⟨0, 1, .ro, 0, 0x1⟩, ⟨1, 1, .ro, 0, 0x1⟩, ⟨2, 1, .ro, 0, 0x1⟩, ⟨3, 1, .ro, 0, 0x1⟩, ⟨4, 4, .ro, 0, 0xf⟩] }
/-- LANE_EVENT (R525). -/
def LANE_EVENT : Reg := { base := 0x40000c, n1 := 64, s1 := 0x800, fields := [⟨0, 1, .w1c, 0, 0x1⟩, ⟨1, 1, .w1c, 0, 0x1⟩, ⟨31, 1, .wo, 0, 0x1⟩] }
/-- LANE_EVENT_CNT (R525). -/
def LANE_EVENT_CNT : Reg := { base := 0x400010, n1 := 64, s1 := 0x800, fields := [⟨0, 16, .ro, 0, 0xffff⟩] }
/-- LANE_TEST (R525). -/
def LANE_TEST : Reg := { base := 0x400018, n1 := 64, s1 := 0x800, fields := [⟨0, 1, .rw, 0, 0x1⟩, ⟨1, 1, .rw, 0, 0x1⟩, ⟨2, 2, .rw, 0, 0x3⟩, ⟨4, 2, .rw, 0, 0x3⟩] }
/-- LANE_PRBS_ERRS (R525). -/
def LANE_PRBS_ERRS : Reg := { base := 0x40001c, n1 := 64, s1 := 0x800, fields := [⟨0, 32, .ro, 0, 0xffffffff⟩] }
/-- LANE_RX_DFE (R525). -/
def LANE_RX_DFE : Reg := { base := 0x400040, n1 := 64, s1 := 0x800, n2 := 12, s2 := 0x4, fields := [⟨0, 6, .ro, 0, 0x3f⟩] }
/-- LNK_CFG (R549). -/
def LNK_CFG : Reg := { base := 0x600000, n1 := 4, s1 := 0x10000, reset := 0x1fc, fields := [⟨0, 1, .rw, 0, 0x1⟩, ⟨1, 3, .rw, 0, 0x7⟩, ⟨4, 4, .rw, 0, 0xf⟩, ⟨8, 3, .rw, 0, 0x7⟩] }
/-- LNK_STATUS (R549). -/
def LNK_STATUS : Reg := { base := 0x600004, n1 := 4, s1 := 0x10000, fields := [⟨0, 3, .ro, 0, 0x7⟩, ⟨3, 1, .ro, 0, 0x1⟩, ⟨4, 4, .ro, 0, 0xf⟩, ⟨8, 4, .ro, 0, 0xf⟩, ⟨12, 2, .ro, 0, 0x3⟩, ⟨14, 5, .ro, 0, 0x1f⟩, ⟨19, 3, .ro, 0, 0x7⟩] }
/-- LNK_PARTNER (R549). -/
def LNK_PARTNER : Reg := { base := 0x600008, n1 := 4, s1 := 0x10000, fields := [⟨0, 4, .ro, 0, 0xf⟩, ⟨4, 6, .ro, 0, 0x3f⟩, ⟨10, 2, .ro, 0, 0x3⟩, ⟨12, 6, .ro, 0, 0x3f⟩, ⟨18, 3, .ro, 0, 0x7⟩] }
/-- LNK_NEG (R549). -/
def LNK_NEG : Reg := { base := 0x60000c, n1 := 4, s1 := 0x10000, fields := [⟨0, 6, .ro, 0, 0x3f⟩, ⟨8, 6, .ro, 0, 0x3f⟩] }
/-- LNK_EVENT (R549). -/
def LNK_EVENT : Reg := { base := 0x600010, n1 := 4, s1 := 0x10000, fields := [⟨0, 1, .w1c, 0, 0x1⟩, ⟨1, 1, .w1c, 0, 0x1⟩, ⟨2, 1, .w1c, 0, 0x1⟩, ⟨3, 1, .w1c, 0, 0x1⟩, ⟨4, 1, .w1c, 0, 0x1⟩, ⟨5, 1, .w1c, 0, 0x1⟩, ⟨6, 1, .w1c, 0, 0x1⟩, ⟨7, 1, .w1c, 0, 0x1⟩, ⟨31, 1, .wo, 0, 0x1⟩] }
/-- LNK_EVENT_CNT (R549). -/
def LNK_EVENT_CNT : Reg := { base := 0x600018, n1 := 4, s1 := 0x10000, wide := true, fields := [⟨0, 64, .ro, 0, 0xffffffffffffffff⟩] }
/-- LNK_THROTTLE (R549). -/
def LNK_THROTTLE : Reg := { base := 0x600020, n1 := 4, s1 := 0x10000, fields := [⟨0, 32, .ro, 0, 0xffffffff⟩] }
/-- LNK_RX_PKTS (R549). -/
def LNK_RX_PKTS : Reg := { base := 0x600024, n1 := 4, s1 := 0x10000, fields := [⟨0, 32, .ro, 0, 0xffffffff⟩] }
/-- GLB_ID (R573). -/
def GLB_ID : Reg := { base := 0x0, reset := 0x96800100, fields := [⟨0, 6, .ro, 0, 0x3f⟩, ⟨6, 1, .ro, 0, 0x1⟩, ⟨8, 4, .ro, 0, 0xf⟩, ⟨16, 16, .ro, 0, 0xffff⟩] }
/-- GLB_MBX_VERSION (R573). -/
def GLB_MBX_VERSION : Reg := { base := 0x1000, reset := 0x2, fields := [⟨0, 8, .ro, 0, 0xff⟩] }
/-- GLB_MBX_FEATURES (R573). -/
def GLB_MBX_FEATURES : Reg := { base := 0x1008, wide := true, reset := 0x3f, fields := [⟨0, 64, .ro, 0, 0xffffffffffffffff⟩] }
/-- GLB_MBX_ATTACH (R573). -/
def GLB_MBX_ATTACH : Reg := { base := 0x1010, fields := [⟨0, 8, .wo, 0, 0xff⟩] }
/-- GLB_MBX_STATE (R573). -/
def GLB_MBX_STATE : Reg := { base := 0x1014, fields := [⟨0, 1, .ro, 0, 0x1⟩, ⟨1, 1, .w1c, 0, 0x1⟩, ⟨8, 8, .ro, 0, 0xff⟩, ⟨16, 8, .ro, 0, 0xff⟩, ⟨31, 1, .wo, 0, 0x1⟩] }
/-- GLB_MBX_DOORBELL (R573). -/
def GLB_MBX_DOORBELL : Reg := { base := 0x1018, fields := [⟨0, 1, .wo, 0, 0x1⟩, ⟨1, 1, .wo, 0, 0x1⟩] }
/-- GLB_MBX_H2D (R573). -/
def GLB_MBX_H2D : Reg := { base := 0x1040, n2 := 16, s2 := 0x4, fields := [⟨0, 32, .rw, 0, 0xffffffff⟩] }
/-- GLB_MBX_D2H (R573). -/
def GLB_MBX_D2H : Reg := { base := 0x1080, n2 := 16, s2 := 0x4, fields := [⟨0, 32, .rw, 0, 0xffffffff⟩] }
/-- XBR_CTRL (R574). -/
def XBR_CTRL : Reg := { base := 0x100000, reset := 0x4000, fields := [⟨0, 1, .rw, 0, 0x1⟩, ⟨1, 16, .rw, 256, 65535⟩] }
/-- XBR_QOS_SW (R574). -/
def XBR_QOS_SW : Reg := { base := 0x100004, reset := 0x322714, fields := [⟨0, 4, .rw, 0, 14⟩, ⟨4, 4, .rw, 0, 14⟩, ⟨8, 4, .rw, 0, 14⟩, ⟨12, 4, .rw, 0, 14⟩, ⟨16, 4, .rw, 0, 14⟩, ⟨20, 4, .rw, 0, 14⟩] }
/-- XBR_PARK (R574). -/
def XBR_PARK : Reg := { base := 0x100010, n2 := 11, s2 := 0x4, reset := 0x50, nReset := 8, fields := [⟨0, 7, .rw, 0, 0x7f⟩] }
/-- XBR_MRESET (R574). -/
def XBR_MRESET : Reg := { base := 0x100040, fields := [⟨0, 7, .wo, 0, 0x7f⟩, ⟨31, 1, .wo, 0, 0x1⟩] }
/-- XBR_MRESET_STATUS (R574). -/
def XBR_MRESET_STATUS : Reg := { base := 0x100044, fields := [⟨0, 1, .ro, 0, 0x1⟩, ⟨1, 7, .ro, 0, 0x7f⟩] }
/-- XBR_EVENT (R574). -/
def XBR_EVENT : Reg := { base := 0x100048, fields := [⟨0, 1, .w1c, 0, 0x1⟩, ⟨1, 1, .w1c, 0, 0x1⟩, ⟨2, 1, .w1c, 0, 0x1⟩, ⟨31, 1, .wo, 0, 0x1⟩] }
/-- XBR_EVENT_CNT (R574). -/
def XBR_EVENT_CNT : Reg := { base := 0x10004c, fields := [⟨0, 24, .ro, 0, 0xffffff⟩] }
/-- XBR_ERR_LAST (R574). -/
def XBR_ERR_LAST : Reg := { base := 0x100050, wide := true, fields := [⟨0, 40, .ro, 0, 0xffffffffff⟩, ⟨40, 7, .ro, 0, 0x7f⟩, ⟨47, 1, .ro, 0, 0x1⟩, ⟨48, 3, .ro, 0, 0x7⟩, ⟨51, 1, .ro, 0, 0x1⟩] }
/-- PRT_CTRL (R589). -/
def PRT_CTRL : Reg := { base := 0x180000, n1 := 13, s1 := 0x1000, lock := some (0x180000, 2), fields := [⟨0, 2, .rwl, 0, 2⟩, ⟨2, 1, .w1s, 0, 0x1⟩, ⟨3, 1, .rwl, 0, 0x1⟩] }
/-- PRT_HOLD (R589). -/
def PRT_HOLD : Reg := { base := 0x180004, n1 := 13, s1 := 0x1000, fields := [⟨0, 1, .rw, 0, 0x1⟩, ⟨1, 1, .ro, 0, 0x1⟩] }
/-- PRT_EVENT (R589). -/
def PRT_EVENT : Reg := { base := 0x180008, n1 := 13, s1 := 0x1000, fields := [⟨0, 1, .w1c, 0, 0x1⟩, ⟨1, 1, .w1c, 0, 0x1⟩, ⟨31, 1, .wo, 0, 0x1⟩] }
/-- PRT_EVENT_CNT (R589). -/
def PRT_EVENT_CNT : Reg := { base := 0x18000c, n1 := 13, s1 := 0x1000, fields := [⟨0, 16, .ro, 0, 0xffff⟩] }
/-- PRT_VIOL_LAST (R589). -/
def PRT_VIOL_LAST : Reg := { base := 0x180010, n1 := 13, s1 := 0x1000, wide := true, fields := [⟨0, 40, .ro, 0, 0xffffffffff⟩, ⟨40, 7, .ro, 0, 0x7f⟩, ⟨47, 1, .ro, 0, 0x1⟩, ⟨48, 1, .ro, 0, 0x1⟩, ⟨49, 4, .ro, 0, 0xf⟩, ⟨53, 3, .ro, 0, 0x7⟩, ⟨56, 4, .ro, 0, 0xf⟩, ⟨63, 1, .ro, 0, 0x1⟩] }
/-- PRT_VIOL_TOTAL (R589). -/
def PRT_VIOL_TOTAL : Reg := { base := 0x180018, n1 := 13, s1 := 0x1000, fields := [⟨0, 32, .ro, 0, 0xffffffff⟩] }
/-- PRT_RGN_START (R590). -/
def PRT_RGN_START : Reg := { base := 0x180100, n1 := 13, s1 := 0x1000, n2 := 16, s2 := 0x20, wide := true, lock := some (0x180110, 5), fields := [⟨6, 34, .rwl, 0, 0x3ffffffff⟩] }
/-- PRT_RGN_END (R590). -/
def PRT_RGN_END : Reg := { base := 0x180108, n1 := 13, s1 := 0x1000, n2 := 16, s2 := 0x20, wide := true, lock := some (0x180110, 5), fields := [⟨6, 34, .rwl, 0, 0x3ffffffff⟩] }
/-- PRT_RGN_ATTR (R590). -/
def PRT_RGN_ATTR : Reg := { base := 0x180110, n1 := 13, s1 := 0x1000, n2 := 16, s2 := 0x20, lock := some (0x180110, 5), fields := [⟨0, 1, .rwl, 0, 0x1⟩, ⟨1, 1, .rwl, 0, 0x1⟩, ⟨2, 1, .rwl, 0, 0x1⟩, ⟨3, 1, .rwl, 0, 0x1⟩, ⟨4, 1, .rwl, 0, 0x1⟩, ⟨5, 1, .w1s, 0, 0x1⟩] }
/-- DMC_CTRL (R616). -/
def DMC_CTRL : Reg := { base := 0x208000, reset := 0x110, lock := some (0x208000, 9), fields := [⟨0, 1, .wo, 0, 0x1⟩, ⟨1, 1, .wo, 0, 0x1⟩, ⟨2, 2, .rwl, 0, 2⟩, ⟨4, 5, .rwl, 14, 17⟩, ⟨9, 1, .w1s, 0, 0x1⟩] }
/-- DMC_ECC_EN (R616). -/
def DMC_ECC_EN : Reg := { base := 0x208008, wide := true, lock := some (0x208000, 9), fields := [⟨0, 64, .rwl, 0, 0xffffffffffffffff⟩] }
/-- DMC_FREQ (R616). -/
def DMC_FREQ : Reg := { base := 0x208010, fields := [⟨0, 2, .wo, 0, 0x3⟩, ⟨31, 1, .wo, 0, 0x1⟩] }
/-- DMC_GSTATUS (R616). -/
def DMC_GSTATUS : Reg := { base := 0x208014, fields := [⟨0, 2, .ro, 0, 0x3⟩, ⟨2, 1, .ro, 0, 0x1⟩, ⟨3, 1, .ro, 0, 0x1⟩, ⟨4, 1, .ro, 0, 0x1⟩, ⟨5, 1, .ro, 0, 0x1⟩, ⟨6, 1, .ro, 0, 0x1⟩, ⟨7, 1, .ro, 0, 0x1⟩] }
/-- DMC_GEVENT (R616). -/
def DMC_GEVENT : Reg := { base := 0x208018, fields := [⟨0, 7, .w1c, 0, 0x7f⟩, ⟨31, 1, .wo, 0, 0x1⟩] }
/-- DMC_GEVENT_CNT (R616). -/
def DMC_GEVENT_CNT : Reg := { base := 0x208020, wide := true, fields := [⟨0, 56, .ro, 0, 0xffffffffffffff⟩] }
/-- DMC_CH_STATUS (R617). -/
def DMC_CH_STATUS : Reg := { base := 0x200000, n1 := 8, s1 := 0x10000, fields := [⟨0, 2, .ro, 0, 0x3⟩, ⟨2, 1, .ro, 0, 0x1⟩, ⟨3, 8, .ro, 0, 0xff⟩, ⟨11, 3, .ro, 0, 0x7⟩, ⟨14, 4, .ro, 0, 0xf⟩] }
/-- DMC_CH_THRESH (R617). -/
def DMC_CH_THRESH : Reg := { base := 0x200004, n1 := 8, s1 := 0x10000, reset := 0x80040, fields := [⟨0, 16, .rw, 1, 65535⟩, ⟨16, 8, .rw, 1, 255⟩] }
/-- DMC_CH_EVENT (R617). -/
def DMC_CH_EVENT : Reg := { base := 0x200008, n1 := 8, s1 := 0x10000, fields := [⟨0, 5, .w1c, 0, 0x1f⟩, ⟨31, 1, .wo, 0, 0x1⟩] }
/-- DMC_CH_EVENT_CNT (R617). -/
def DMC_CH_EVENT_CNT : Reg := { base := 0x200010, n1 := 8, s1 := 0x10000, wide := true, fields := [⟨0, 40, .ro, 0, 0xffffffffff⟩] }
/-- DMC_CH_CE_WINDOW (R617). -/
def DMC_CH_CE_WINDOW : Reg := { base := 0x200018, n1 := 8, s1 := 0x10000, fields := [⟨0, 16, .ro, 0, 0xffff⟩] }
/-- DMC_CH_CE_TOTAL (R617). -/
def DMC_CH_CE_TOTAL : Reg := { base := 0x20001c, n1 := 8, s1 := 0x10000, fields := [⟨0, 32, .ro, 0, 0xffffffff⟩] }
/-- DMC_CH_ECC_LAST (R617). -/
def DMC_CH_ECC_LAST : Reg := { base := 0x200020, n1 := 8, s1 := 0x10000, wide := true, fields := [⟨0, 40, .ro, 0, 0xffffffffff⟩, ⟨40, 1, .ro, 0, 0x1⟩, ⟨41, 1, .ro, 0, 0x1⟩, ⟨63, 1, .ro, 0, 0x1⟩] }
/-- PWR_CTRL (R646). -/
def PWR_CTRL : Reg := { base := 0x200, fields := [⟨0, 1, .wo, 0, 0x1⟩, ⟨1, 1, .rws, 0, 0x1⟩] }
/-- PWR_STATUS (R646). -/
def PWR_STATUS : Reg := { base := 0x204, fields := [⟨0, 3, .ro, 0, 0x7⟩, ⟨3, 2, .ro, 0, 0x3⟩, ⟨5, 1, .ro, 0, 0x1⟩, ⟨6, 1, .ro, 0, 0x1⟩, ⟨7, 4, .ro, 0, 0xf⟩, ⟨11, 1, .ro, 0, 0x1⟩, ⟨12, 3, .ro, 0, 0x7⟩] }
/-- PWR_STILL_CMD (R646). -/
def PWR_STILL_CMD : Reg := { base := 0x208, fields := [⟨0, 1, .wo, 0, 0x1⟩] }
/-- PWR_EVENT (R646). -/
def PWR_EVENT : Reg := { base := 0x210, fields := [⟨0, 6, .w1c, 0, 0x3f⟩, ⟨31, 1, .wo, 0, 0x1⟩] }
/-- PWR_EVENT_CNT (R646). -/
def PWR_EVENT_CNT : Reg := { base := 0x218, wide := true, fields := [⟨0, 48, .ro, 0, 0xffffffffffff⟩] }
/-- PWR_BOOT_ADDR (R646). -/
def PWR_BOOT_ADDR : Reg := { base := 0x220, wide := true, fields := [⟨0, 40, .rw, 0, 0xffffffffff⟩] }
/-- PWR_BOOT_GO (R646). -/
def PWR_BOOT_GO : Reg := { base := 0x228, fields := [⟨0, 1, .wo, 0, 0x1⟩] }
/-- PWR_BOOT_STATUS (R646). -/
def PWR_BOOT_STATUS : Reg := { base := 0x22c, fields := [⟨0, 4, .ro, 0, 0xf⟩, ⟨4, 12, .ro, 0, 0xfff⟩, ⟨16, 8, .ro, 0, 0xff⟩] }
/-- PWR_WAKE_CFG (R646). -/
def PWR_WAKE_CFG : Reg := { base := 0x230, fields := [⟨0, 1, .rws, 0, 0x1⟩, ⟨1, 1, .rws, 0, 0x1⟩] }
/-- PWR_RTC_SEC (R646). -/
def PWR_RTC_SEC : Reg := { base := 0x238, wide := true, fields := [⟨0, 48, .rw, 0, 0xffffffffffff⟩, ⟨48, 15, .ro, 0, 0x7fff⟩] }
/-- PWR_RTC_ALARM (R646). -/
def PWR_RTC_ALARM : Reg := { base := 0x240, wide := true, fields := [⟨0, 48, .rws, 0, 0xffffffffffff⟩] }
/-- PWR_OTP_CMD (R646). -/
def PWR_OTP_CMD : Reg := { base := 0x250, fields := [⟨0, 2, .wo, 0, 0x3⟩, ⟨2, 1, .wo, 0, 0x1⟩, ⟨3, 1, .wo, 0, 0x1⟩] }
/-- PWR_OTP_STATE (R646). -/
def PWR_OTP_STATE : Reg := { base := 0x254, fields := [⟨0, 8, .ro, 0, 0xff⟩, ⟨8, 1, .ro, 0, 0x1⟩] }
/-- PWR_OTP_DATA (R646). -/
def PWR_OTP_DATA : Reg := { base := 0x260, n2 := 8, s2 := 0x4, fields := [⟨0, 32, .rw, 0, 0xffffffff⟩] }
/-- BST_CMD (R647). -/
def BST_CMD : Reg := { base := 0x3c00000, fields := [⟨0, 1, .wo, 0, 0x1⟩, ⟨1, 1, .wo, 0, 0x1⟩] }
/-- BST_STATUS (R647). -/
def BST_STATUS : Reg := { base := 0x3c00004, fields := [⟨0, 1, .ro, 0, 0x1⟩, ⟨1, 1, .ro, 0, 0x1⟩, ⟨2, 1, .ro, 0, 0x1⟩, ⟨3, 1, .ro, 0, 0x1⟩, ⟨4, 2, .ro, 0, 0x3⟩] }
/-- BST_LB_SIG (R647). -/
def BST_LB_SIG : Reg := { base := 0x3c00008, wide := true, fields := [⟨0, 64, .ro, 0, 0xffffffffffffffff⟩] }
/-- BST_MB_SIG (R647). -/
def BST_MB_SIG : Reg := { base := 0x3c00010, wide := true, fields := [⟨0, 64, .ro, 0, 0xffffffffffffffff⟩] }
/-- BST_MB_MAP (R647). -/
def BST_MB_MAP : Reg := { base := 0x3c00018, wide := true, fields := [⟨0, 12, .ro, 0, 0xfff⟩] }
/-- BST_EVENT (R647). -/
def BST_EVENT : Reg := { base := 0x3c00020, fields := [⟨0, 1, .w1c, 0, 0x1⟩, ⟨31, 1, .wo, 0, 0x1⟩] }
/-- BST_EVENT_CNT (R647). -/
def BST_EVENT_CNT : Reg := { base := 0x3c00024, fields := [⟨0, 8, .ro, 0, 0xff⟩] }

end R

namespace F

def PWR_CLK_STATUS_ISLAND_LOCK : Fld := ⟨R.PWR_CLK_STATUS, 0, 6⟩
def PWR_CLK_STATUS_GALLERY_LOCK : Fld := ⟨R.PWR_CLK_STATUS, 6, 8⟩
def PWR_CLK_STATUS_REFCLK_OK : Fld := ⟨R.PWR_CLK_STATUS, 14, 1⟩
def PWR_CLK_EVENT_ISLAND_LOST : Fld := ⟨R.PWR_CLK_EVENT, 0, 1⟩
def PWR_CLK_EVENT_GALLERY_LOST : Fld := ⟨R.PWR_CLK_EVENT, 1, 1⟩
def PWR_CLK_EVENT_ISLAND_CNT : Fld := ⟨R.PWR_CLK_EVENT, 8, 8⟩
def PWR_CLK_EVENT_GALLERY_CNT : Fld := ⟨R.PWR_CLK_EVENT, 16, 8⟩
def PWR_CLK_EVENT_CNT_CLR : Fld := ⟨R.PWR_CLK_EVENT, 31, 1⟩
def SEAL_CTRL_ESC_THRESH : Fld := ⟨R.SEAL_CTRL, 0, 8⟩
def SEAL_CTRL_CNT_CLR : Fld := ⟨R.SEAL_CTRL, 31, 1⟩
def SEAL_EVENT_TILE_MISMATCH : Fld := ⟨R.SEAL_EVENT, 0, 1⟩
def SEAL_EVENT_HEADER_BAD : Fld := ⟨R.SEAL_EVENT, 1, 1⟩
def SEAL_EVENT_PERSIST : Fld := ⟨R.SEAL_EVENT, 2, 1⟩
def SEAL_EVENT_TILE_CNT : Fld := ⟨R.SEAL_EVENT, 8, 8⟩
def SEAL_EVENT_HEADER_CNT : Fld := ⟨R.SEAL_EVENT, 16, 8⟩
def SEAL_EVENT_PERSIST_CNT : Fld := ⟨R.SEAL_EVENT, 24, 8⟩
def SEAL_TOTAL_TILES : Fld := ⟨R.SEAL_TOTAL, 0, 32⟩
def SEAL_LAST_TILE : Fld := ⟨R.SEAL_LAST, 0, 16⟩
def SEAL_LAST_LAYER : Fld := ⟨R.SEAL_LAST, 16, 10⟩
def SEAL_LAST_CANVAS : Fld := ⟨R.SEAL_LAST, 26, 5⟩
def SEAL_LAST_VALID : Fld := ⟨R.SEAL_LAST, 31, 1⟩
def SEAL_LAST_SOURCE_ID : Fld := ⟨R.SEAL_LAST, 32, 12⟩
def CHK_CTRL_START : Fld := ⟨R.CHK_CTRL, 0, 1⟩
def CHK_CTRL_ABORT : Fld := ⟨R.CHK_CTRL, 1, 1⟩
def CHK_CTRL_REFIN : Fld := ⟨R.CHK_CTRL, 2, 1⟩
def CHK_CTRL_REFOUT : Fld := ⟨R.CHK_CTRL, 3, 1⟩
def CHK_CTRL_FOLD_MODE : Fld := ⟨R.CHK_CTRL, 4, 2⟩
def CHK_CTRL_COMPARE_EN : Fld := ⟨R.CHK_CTRL, 6, 1⟩
def CHK_CTRL_INT_DONE : Fld := ⟨R.CHK_CTRL, 7, 1⟩
def CHK_CTRL_INT_MISMATCH : Fld := ⟨R.CHK_CTRL, 8, 1⟩
def CHK_CTRL_WIDTH : Fld := ⟨R.CHK_CTRL, 16, 7⟩
def CHK_POLY_POLY : Fld := ⟨R.CHK_POLY, 0, 64⟩
def CHK_INIT_INIT : Fld := ⟨R.CHK_INIT, 0, 64⟩
def CHK_XOROUT_XOROUT : Fld := ⟨R.CHK_XOROUT, 0, 64⟩
def CHK_EXPECT_EXPECT : Fld := ⟨R.CHK_EXPECT, 0, 64⟩
def CHK_RESULT_RESULT : Fld := ⟨R.CHK_RESULT, 0, 64⟩
def CHK_SRC_ADDR : Fld := ⟨R.CHK_SRC, 0, 40⟩
def CHK_LEN_LEN : Fld := ⟨R.CHK_LEN, 0, 32⟩
def CHK_FOLD_FOLD : Fld := ⟨R.CHK_FOLD, 0, 32⟩
def CHK_STATUS_BUSY : Fld := ⟨R.CHK_STATUS, 0, 1⟩
def CHK_STATUS_DONE : Fld := ⟨R.CHK_STATUS, 1, 1⟩
def CHK_STATUS_MISMATCH : Fld := ⟨R.CHK_STATUS, 2, 1⟩
def CHK_STATUS_REFUSED : Fld := ⟨R.CHK_STATUS, 3, 1⟩
def CHK_STATUS_PROT_ERR : Fld := ⟨R.CHK_STATUS, 4, 1⟩
def CHK_STATUS_RESULT_VALID : Fld := ⟨R.CHK_STATUS, 5, 1⟩
def CHK_STATUS_END_CODE : Fld := ⟨R.CHK_STATUS, 6, 2⟩
def CHK_STATUS_REFUSE_CODE : Fld := ⟨R.CHK_STATUS, 8, 4⟩
def CHK_STATUS_CNT_CLR : Fld := ⟨R.CHK_STATUS, 31, 1⟩
def CHK_COUNT_DONE_CNT : Fld := ⟨R.CHK_COUNT, 0, 8⟩
def CHK_COUNT_MISMATCH_CNT : Fld := ⟨R.CHK_COUNT, 8, 8⟩
def CHK_COUNT_REFUSED_CNT : Fld := ⟨R.CHK_COUNT, 16, 8⟩
def CHK_COUNT_PROT_CNT : Fld := ⟨R.CHK_COUNT, 24, 8⟩
def PTP_CTRL_EN : Fld := ⟨R.PTP_CTRL, 0, 1⟩
def PTP_CTRL_PROFILE : Fld := ⟨R.PTP_CTRL, 1, 1⟩
def PTP_CTRL_TRANSPORT : Fld := ⟨R.PTP_CTRL, 2, 2⟩
def PTP_CTRL_PORT : Fld := ⟨R.PTP_CTRL, 4, 4⟩
def PTP_CTRL_ALT_PORT : Fld := ⟨R.PTP_CTRL, 8, 4⟩
def PTP_CTRL_ALT_EN : Fld := ⟨R.PTP_CTRL, 12, 1⟩
def PTP_CTRL_DOMAIN : Fld := ⟨R.PTP_CTRL, 13, 8⟩
def PTP_CTRL_RELOCK : Fld := ⟨R.PTP_CTRL, 21, 1⟩
def PTP_CTRL_CAPTURE : Fld := ⟨R.PTP_CTRL, 22, 1⟩
def PTP_STATE_STATE : Fld := ⟨R.PTP_STATE, 0, 3⟩
def PTP_STATE_LOCKED : Fld := ⟨R.PTP_STATE, 3, 1⟩
def PTP_STATE_STEPPED : Fld := ⟨R.PTP_STATE, 4, 1⟩
def PTP_STATE_PORT_ACTIVE : Fld := ⟨R.PTP_STATE, 5, 4⟩
def PTP_STATE_UTC_VALID : Fld := ⟨R.PTP_STATE, 9, 1⟩
def PTP_STATE_LEAP61 : Fld := ⟨R.PTP_STATE, 10, 1⟩
def PTP_STATE_LEAP59 : Fld := ⟨R.PTP_STATE, 11, 1⟩
def PTP_STATE_UTC_OFFSET : Fld := ⟨R.PTP_STATE, 16, 16⟩
def PTP_EVENT_GM_CHANGE : Fld := ⟨R.PTP_EVENT, 0, 1⟩
def PTP_EVENT_STEP_REFUSED : Fld := ⟨R.PTP_EVENT, 1, 1⟩
def PTP_EVENT_HOLDOVER : Fld := ⟨R.PTP_EVENT, 2, 1⟩
def PTP_EVENT_LOCK_LOST : Fld := ⟨R.PTP_EVENT, 3, 1⟩
def PTP_EVENT_MAP_REJECT : Fld := ⟨R.PTP_EVENT, 4, 1⟩
def PTP_EVENT_CNT_CLR : Fld := ⟨R.PTP_EVENT, 31, 1⟩
def PTP_EVENT_CNT_GM_CNT : Fld := ⟨R.PTP_EVENT_CNT, 0, 8⟩
def PTP_EVENT_CNT_REFUSED_CNT : Fld := ⟨R.PTP_EVENT_CNT, 8, 8⟩
def PTP_EVENT_CNT_HOLD_CNT : Fld := ⟨R.PTP_EVENT_CNT, 16, 8⟩
def PTP_EVENT_CNT_LOST_CNT : Fld := ⟨R.PTP_EVENT_CNT, 24, 8⟩
def PTP_EVENT_CNT_MAP_CNT : Fld := ⟨R.PTP_EVENT_CNT, 32, 8⟩
def PTP_EVENT_CNT_DISCARD_CNT : Fld := ⟨R.PTP_EVENT_CNT, 40, 8⟩
def PTP_SERVO_STEP_THRESH_US : Fld := ⟨R.PTP_SERVO, 0, 20⟩
def PTP_SERVO_LOCK_NS : Fld := ⟨R.PTP_SERVO, 20, 12⟩
def PTP_MAP_WINDOW_MS : Fld := ⟨R.PTP_MAP, 0, 11⟩
def PTP_OFFSET_OFFSET : Fld := ⟨R.PTP_OFFSET, 0, 32⟩
def PTP_RATE_ADJ : Fld := ⟨R.PTP_RATE, 0, 32⟩
def PTP_GM_ID_ID : Fld := ⟨R.PTP_GM_ID, 0, 64⟩
def PTP_SNAP_SEC_SEC : Fld := ⟨R.PTP_SNAP_SEC, 0, 48⟩
def PTP_SNAP_NS_NS : Fld := ⟨R.PTP_SNAP_NS, 0, 30⟩
def PTP_SNAP_SHORT_SHORT : Fld := ⟨R.PTP_SNAP_SHORT, 0, 32⟩
def NET_MAC_CTRL_EN : Fld := ⟨R.NET_MAC_CTRL, 0, 1⟩
def NET_MAC_CTRL_RATE : Fld := ⟨R.NET_MAC_CTRL, 1, 1⟩
def NET_MAC_CTRL_FEC_EN : Fld := ⟨R.NET_MAC_CTRL, 2, 1⟩
def NET_MAC_CTRL_PROMISC : Fld := ⟨R.NET_MAC_CTRL, 3, 1⟩
def NET_MAC_CTRL_HOSTQ : Fld := ⟨R.NET_MAC_CTRL, 4, 4⟩
def NET_MAC_STATUS_LINK_UP : Fld := ⟨R.NET_MAC_STATUS, 0, 1⟩
def NET_MAC_STATUS_FEC_LOCK : Fld := ⟨R.NET_MAC_STATUS, 1, 1⟩
def NET_MAC_EVENT_LINK_DOWN : Fld := ⟨R.NET_MAC_EVENT, 0, 1⟩
def NET_MAC_EVENT_RX_BAD : Fld := ⟨R.NET_MAC_EVENT, 1, 1⟩
def NET_MAC_EVENT_HOSTQ_FULL : Fld := ⟨R.NET_MAC_EVENT, 2, 1⟩
def NET_MAC_EVENT_CNT_CLR : Fld := ⟨R.NET_MAC_EVENT, 31, 1⟩
def NET_MAC_EVENT_CNT_DOWN_CNT : Fld := ⟨R.NET_MAC_EVENT_CNT, 0, 8⟩
def NET_MAC_EVENT_CNT_BAD_CNT : Fld := ⟨R.NET_MAC_EVENT_CNT, 8, 8⟩
def NET_MAC_EVENT_CNT_FULL_CNT : Fld := ⟨R.NET_MAC_EVENT_CNT, 16, 8⟩
def NET_FLOW_CMD_OP : Fld := ⟨R.NET_FLOW_CMD, 0, 2⟩
def NET_FLOW_CMD_INDEX : Fld := ⟨R.NET_FLOW_CMD, 2, 10⟩
def NET_FLOW_STATUS_BUSY : Fld := ⟨R.NET_FLOW_STATUS, 0, 1⟩
def NET_FLOW_STATUS_DONE : Fld := ⟨R.NET_FLOW_STATUS, 1, 1⟩
def NET_FLOW_STATUS_REFUSED : Fld := ⟨R.NET_FLOW_STATUS, 2, 1⟩
def NET_FLOW_STATUS_CODE : Fld := ⟨R.NET_FLOW_STATUS, 3, 3⟩
def NET_FLOW_STATUS_FIELD : Fld := ⟨R.NET_FLOW_STATUS, 6, 6⟩
def NET_FLOW_STATUS_INDEX : Fld := ⟨R.NET_FLOW_STATUS, 12, 10⟩
def NET_FLOW_STATUS_REFUSED_CNT : Fld := ⟨R.NET_FLOW_STATUS, 22, 8⟩
def NET_FLOW_STATUS_CNT_CLR : Fld := ⟨R.NET_FLOW_STATUS, 31, 1⟩
def NET_FLOW_FREE_FREE : Fld := ⟨R.NET_FLOW_FREE, 0, 11⟩
def NET_FLOW_CNT_DONE_CNT : Fld := ⟨R.NET_FLOW_CNT, 0, 8⟩
def NET_FLOW_STATS_FRAMES_FRAMES : Fld := ⟨R.NET_FLOW_STATS_FRAMES, 0, 32⟩
def NET_FLOW_STATS_LOSS_LOSS : Fld := ⟨R.NET_FLOW_STATS_LOSS, 0, 32⟩
def NET_FLOW_STATS_DROP_DROPPED : Fld := ⟨R.NET_FLOW_STATS_DROP, 0, 16⟩
def NET_FLOW_STATS_DROP_DISCARD : Fld := ⟨R.NET_FLOW_STATS_DROP, 16, 16⟩
def NET_FLOW_STATS_SSRC_SSRC_CHANGE : Fld := ⟨R.NET_FLOW_STATS_SSRC, 0, 8⟩
def NET_FLOW_STAGE_WORD : Fld := ⟨R.NET_FLOW_STAGE, 0, 32⟩
def SLU_APPLY_STATUS_BUSY : Fld := ⟨R.SLU_APPLY_STATUS, 0, 1⟩
def SLU_APPLY_STATUS_DONE : Fld := ⟨R.SLU_APPLY_STATUS, 1, 1⟩
def SLU_APPLY_STATUS_REFUSED : Fld := ⟨R.SLU_APPLY_STATUS, 2, 1⟩
def SLU_APPLY_STATUS_CODE : Fld := ⟨R.SLU_APPLY_STATUS, 4, 4⟩
def SLU_APPLY_STATUS_CONTEXT : Fld := ⟨R.SLU_APPLY_STATUS, 8, 6⟩
def SLU_APPLY_STATUS_REG : Fld := ⟨R.SLU_APPLY_STATUS, 16, 8⟩
def SLU_APPLY_STATUS_BIT : Fld := ⟨R.SLU_APPLY_STATUS, 24, 5⟩
def SLU_APPLY_CNT_DONE_CNT : Fld := ⟨R.SLU_APPLY_CNT, 0, 8⟩
def SLU_APPLY_CNT_REFUSED_CNT : Fld := ⟨R.SLU_APPLY_CNT, 8, 8⟩
def SLU_APPLY_CNT_CNT_CLR : Fld := ⟨R.SLU_APPLY_CNT, 31, 1⟩
def SLU_CARRY_FREE_FREE : Fld := ⟨R.SLU_CARRY_FREE, 0, 23⟩
def SLU_PIPE_STATUS_P0_CTX : Fld := ⟨R.SLU_PIPE_STATUS, 0, 6⟩
def SLU_PIPE_STATUS_P0_BUSY : Fld := ⟨R.SLU_PIPE_STATUS, 6, 1⟩
def SLU_PIPE_STATUS_P1_CTX : Fld := ⟨R.SLU_PIPE_STATUS, 8, 6⟩
def SLU_PIPE_STATUS_P1_BUSY : Fld := ⟨R.SLU_PIPE_STATUS, 14, 1⟩
def SLU_CTX_CTRL_EN : Fld := ⟨R.SLU_CTX_CTRL, 0, 1⟩
def SLU_CTX_CTRL_INPUT : Fld := ⟨R.SLU_CTX_CTRL, 1, 2⟩
def SLU_CTX_CTRL_DP_QUAD : Fld := ⟨R.SLU_CTX_CTRL, 3, 4⟩
def SLU_CTX_CTRL_OUT_EN : Fld := ⟨R.SLU_CTX_CTRL, 7, 4⟩
def SLU_CTX_CMD_APPLY : Fld := ⟨R.SLU_CTX_CMD, 0, 1⟩
def SLU_CTX_SRC_LAND_SRC : Fld := ⟨R.SLU_CTX_SRC, 0, 12⟩
def SLU_CTX_SRC_PARENT_SRC : Fld := ⟨R.SLU_CTX_SRC, 12, 12⟩
def SLU_CTX_GEOM_IN_WIDTH : Fld := ⟨R.SLU_CTX_GEOM, 0, 14⟩
def SLU_CTX_GEOM_IN_HEIGHT : Fld := ⟨R.SLU_CTX_GEOM, 16, 14⟩
def SLU_CTX_CROP_POS_X : Fld := ⟨R.SLU_CTX_CROP_POS, 0, 14⟩
def SLU_CTX_CROP_POS_Y : Fld := ⟨R.SLU_CTX_CROP_POS, 16, 14⟩
def SLU_CTX_CROP_SIZE_X : Fld := ⟨R.SLU_CTX_CROP_SIZE, 0, 14⟩
def SLU_CTX_CROP_SIZE_Y : Fld := ⟨R.SLU_CTX_CROP_SIZE, 16, 14⟩
def SLU_CTX_COLOUR_IN_MATRIX : Fld := ⟨R.SLU_CTX_COLOUR, 0, 2⟩
def SLU_CTX_COLOUR_IN_FULL : Fld := ⟨R.SLU_CTX_COLOUR, 2, 1⟩
def SLU_CTX_COLOUR_OUT_MATRIX : Fld := ⟨R.SLU_CTX_COLOUR, 3, 2⟩
def SLU_CTX_COLOUR_OUT_FULL : Fld := ⟨R.SLU_CTX_COLOUR, 5, 1⟩
def SLU_CTX_COLOUR_TRANSFER : Fld := ⟨R.SLU_CTX_COLOUR, 6, 4⟩
def SLU_CTX_TIMING_DEADLINE_US : Fld := ⟨R.SLU_CTX_TIMING, 0, 16⟩
def SLU_CTX_TIMING_WDOG_MS : Fld := ⟨R.SLU_CTX_TIMING, 16, 11⟩
def SLU_CTX_ALLOW_ALLOW_MS : Fld := ⟨R.SLU_CTX_ALLOW, 0, 11⟩
def SLU_CTX_OUT_CTRL_SRC : Fld := ⟨R.SLU_CTX_OUT_CTRL, 0, 12⟩
def SLU_CTX_OUT_CTRL_FORMAT : Fld := ⟨R.SLU_CTX_OUT_CTRL, 12, 4⟩
def SLU_CTX_OUT_CTRL_RGB : Fld := ⟨R.SLU_CTX_OUT_CTRL, 16, 1⟩
def SLU_CTX_OUT_CROP_POS_X : Fld := ⟨R.SLU_CTX_OUT_CROP_POS, 0, 14⟩
def SLU_CTX_OUT_CROP_POS_Y : Fld := ⟨R.SLU_CTX_OUT_CROP_POS, 16, 14⟩
def SLU_CTX_OUT_CROP_SIZE_X : Fld := ⟨R.SLU_CTX_OUT_CROP_SIZE, 0, 14⟩
def SLU_CTX_OUT_CROP_SIZE_Y : Fld := ⟨R.SLU_CTX_OUT_CROP_SIZE, 16, 14⟩
def SLU_CTX_OUT_SIZE_X : Fld := ⟨R.SLU_CTX_OUT_SIZE, 0, 14⟩
def SLU_CTX_OUT_SIZE_Y : Fld := ⟨R.SLU_CTX_OUT_SIZE, 16, 14⟩
def SLU_CTX_STATE_ACTIVE : Fld := ⟨R.SLU_CTX_STATE, 0, 1⟩
def SLU_CTX_STATE_JOB : Fld := ⟨R.SLU_CTX_STATE, 1, 1⟩
def SLU_CTX_STATE_PENDING : Fld := ⟨R.SLU_CTX_STATE, 2, 1⟩
def SLU_CTX_STATE_SET_PENDING : Fld := ⟨R.SLU_CTX_STATE, 3, 1⟩
def SLU_CTX_STATE_STRIPE : Fld := ⟨R.SLU_CTX_STATE, 8, 8⟩
def SLU_CTX_STATE_WDOG_CAUSE : Fld := ⟨R.SLU_CTX_STATE, 16, 2⟩
def SLU_CTX_EVENT_SHORT : Fld := ⟨R.SLU_CTX_EVENT, 0, 1⟩
def SLU_CTX_EVENT_LONG : Fld := ⟨R.SLU_CTX_EVENT, 1, 1⟩
def SLU_CTX_EVENT_WDOG : Fld := ⟨R.SLU_CTX_EVENT, 2, 1⟩
def SLU_CTX_EVENT_MISS : Fld := ⟨R.SLU_CTX_EVENT, 3, 1⟩
def SLU_CTX_EVENT_PARENT_BAD : Fld := ⟨R.SLU_CTX_EVENT, 4, 1⟩
def SLU_CTX_EVENT_NO_BUF : Fld := ⟨R.SLU_CTX_EVENT, 5, 1⟩
def SLU_CTX_EVENT_FMT : Fld := ⟨R.SLU_CTX_EVENT, 6, 1⟩
def SLU_CTX_EVENT_SKIP : Fld := ⟨R.SLU_CTX_EVENT, 7, 1⟩
def SLU_CTX_EVENT_CNT_CLR : Fld := ⟨R.SLU_CTX_EVENT, 31, 1⟩
def SLU_CTX_EVENT_CNT_SHORT_CNT : Fld := ⟨R.SLU_CTX_EVENT_CNT, 0, 8⟩
def SLU_CTX_EVENT_CNT_LONG_CNT : Fld := ⟨R.SLU_CTX_EVENT_CNT, 8, 8⟩
def SLU_CTX_EVENT_CNT_WDOG_CNT : Fld := ⟨R.SLU_CTX_EVENT_CNT, 16, 8⟩
def SLU_CTX_EVENT_CNT_MISS_CNT : Fld := ⟨R.SLU_CTX_EVENT_CNT, 24, 8⟩
def SLU_CTX_EVENT_CNT_PARENT_CNT : Fld := ⟨R.SLU_CTX_EVENT_CNT, 32, 8⟩
def SLU_CTX_EVENT_CNT_NO_BUF_CNT : Fld := ⟨R.SLU_CTX_EVENT_CNT, 40, 8⟩
def SLU_CTX_EVENT_CNT_FMT_CNT : Fld := ⟨R.SLU_CTX_EVENT_CNT, 48, 8⟩
def SLU_CTX_EVENT_CNT_SKIP_CNT : Fld := ⟨R.SLU_CTX_EVENT_CNT, 56, 8⟩
def SLU_CTX_LAND_SEQ_SEQ : Fld := ⟨R.SLU_CTX_LAND_SEQ, 0, 32⟩
def SLU_CTX_OUT_SEQ_SEQ : Fld := ⟨R.SLU_CTX_OUT_SEQ, 0, 32⟩
def VDC_CMD_OP : Fld := ⟨R.VDC_CMD, 0, 2⟩
def VDC_CMD_STREAM : Fld := ⟨R.VDC_CMD, 2, 8⟩
def VDC_STATUS_BUSY : Fld := ⟨R.VDC_STATUS, 0, 1⟩
def VDC_STATUS_DONE : Fld := ⟨R.VDC_STATUS, 1, 1⟩
def VDC_STATUS_REFUSED : Fld := ⟨R.VDC_STATUS, 2, 1⟩
def VDC_STATUS_CODE : Fld := ⟨R.VDC_STATUS, 4, 4⟩
def VDC_STATUS_STREAM : Fld := ⟨R.VDC_STATUS, 8, 8⟩
def VDC_STATUS_REG : Fld := ⟨R.VDC_STATUS, 16, 8⟩
def VDC_STATUS_BIT : Fld := ⟨R.VDC_STATUS, 24, 5⟩
def VDC_STATUS_CNT_DONE_CNT : Fld := ⟨R.VDC_STATUS_CNT, 0, 8⟩
def VDC_STATUS_CNT_REFUSED_CNT : Fld := ⟨R.VDC_STATUS_CNT, 8, 8⟩
def VDC_STATUS_CNT_CNT_CLR : Fld := ⟨R.VDC_STATUS_CNT, 31, 1⟩
def VDC_CAP_STREAMS_STREAMS : Fld := ⟨R.VDC_CAP_STREAMS, 0, 9⟩
def VDC_CAP_PIX_PIX_FREE : Fld := ⟨R.VDC_CAP_PIX, 0, 13⟩
def VDC_CAP_KBPS_KBPS_FREE : Fld := ⟨R.VDC_CAP_KBPS, 0, 20⟩
def VDC_STR_CFG_CODEC : Fld := ⟨R.VDC_STR_CFG, 0, 1⟩
def VDC_STR_CFG_TEN_BIT : Fld := ⟨R.VDC_STR_CFG, 1, 1⟩
def VDC_STR_CFG_DPB_MAX : Fld := ⟨R.VDC_STR_CFG, 2, 5⟩
def VDC_STR_CFG_SRC : Fld := ⟨R.VDC_STR_CFG, 8, 12⟩
def VDC_STR_GEOM_MAX_WIDTH : Fld := ⟨R.VDC_STR_GEOM, 0, 13⟩
def VDC_STR_GEOM_MAX_HEIGHT : Fld := ⟨R.VDC_STR_GEOM, 16, 13⟩
def VDC_STR_RATE_MAX_FPS : Fld := ⟨R.VDC_STR_RATE, 0, 8⟩
def VDC_STR_RATE_MAX_KBPS : Fld := ⟨R.VDC_STR_RATE, 8, 20⟩
def VDC_STR_SYM_ADDR_ADDR : Fld := ⟨R.VDC_STR_SYM_ADDR, 0, 40⟩
def VDC_STR_CTX_ADDR_ADDR : Fld := ⟨R.VDC_STR_CTX_ADDR, 0, 40⟩
def VDC_STR_PSET_ADDR_ADDR : Fld := ⟨R.VDC_STR_PSET_ADDR, 0, 40⟩
def VDC_STR_SIZE_SYM_SIZE : Fld := ⟨R.VDC_STR_SIZE, 0, 11⟩
def VDC_STR_SIZE_AU_MIB : Fld := ⟨R.VDC_STR_SIZE, 16, 7⟩
def VDC_STR_PSET_LEN_LEN : Fld := ⟨R.VDC_STR_PSET_LEN, 0, 17⟩
def VDC_STR_STATE_ADMITTED : Fld := ⟨R.VDC_STR_STATE, 0, 1⟩
def VDC_STR_STATE_ENGINE : Fld := ⟨R.VDC_STR_STATE, 1, 2⟩
def VDC_STR_STATE_WAIT_RAP : Fld := ⟨R.VDC_STR_STATE, 3, 1⟩
def VDC_STR_STATE_TAINT : Fld := ⟨R.VDC_STR_STATE, 4, 1⟩
def VDC_STR_STATE_LAST_OVR : Fld := ⟨R.VDC_STR_STATE, 5, 3⟩
def VDC_STR_STATE_UNSUP_CODE : Fld := ⟨R.VDC_STR_STATE, 8, 4⟩
def VDC_STR_STATE_DPB_USED : Fld := ⟨R.VDC_STR_STATE, 12, 5⟩
def VDC_STR_EVENT_CONCEAL : Fld := ⟨R.VDC_STR_EVENT, 0, 1⟩
def VDC_STR_EVENT_REF_MISSING : Fld := ⟨R.VDC_STR_EVENT, 1, 1⟩
def VDC_STR_EVENT_SYNTAX : Fld := ⟨R.VDC_STR_EVENT, 2, 1⟩
def VDC_STR_EVENT_OVERRUN : Fld := ⟨R.VDC_STR_EVENT, 3, 1⟩
def VDC_STR_EVENT_NO_BUF : Fld := ⟨R.VDC_STR_EVENT, 4, 1⟩
def VDC_STR_EVENT_UNSUP : Fld := ⟨R.VDC_STR_EVENT, 5, 1⟩
def VDC_STR_EVENT_BIND : Fld := ⟨R.VDC_STR_EVENT, 6, 1⟩
def VDC_STR_EVENT_DISCARD : Fld := ⟨R.VDC_STR_EVENT, 7, 1⟩
def VDC_STR_EVENT_CNT_CLR : Fld := ⟨R.VDC_STR_EVENT, 31, 1⟩
def VDC_STR_EVENT_CNT_CONCEAL_CNT : Fld := ⟨R.VDC_STR_EVENT_CNT, 0, 8⟩
def VDC_STR_EVENT_CNT_REF_CNT : Fld := ⟨R.VDC_STR_EVENT_CNT, 8, 8⟩
def VDC_STR_EVENT_CNT_SYNTAX_CNT : Fld := ⟨R.VDC_STR_EVENT_CNT, 16, 8⟩
def VDC_STR_EVENT_CNT_OVR_CNT : Fld := ⟨R.VDC_STR_EVENT_CNT, 24, 8⟩
def VDC_STR_EVENT_CNT_NO_BUF_CNT : Fld := ⟨R.VDC_STR_EVENT_CNT, 32, 8⟩
def VDC_STR_EVENT_CNT_UNSUP_CNT : Fld := ⟨R.VDC_STR_EVENT_CNT, 40, 8⟩
def VDC_STR_EVENT_CNT_BIND_CNT : Fld := ⟨R.VDC_STR_EVENT_CNT, 48, 8⟩
def VDC_STR_EVENT_CNT_DISCARD_CNT : Fld := ⟨R.VDC_STR_EVENT_CNT, 56, 8⟩
def VDC_STR_SEQ_SEQ : Fld := ⟨R.VDC_STR_SEQ, 0, 32⟩
def VEN_CMD_OP : Fld := ⟨R.VEN_CMD, 0, 2⟩
def VEN_CMD_SESSION : Fld := ⟨R.VEN_CMD, 2, 5⟩
def VEN_STATUS_BUSY : Fld := ⟨R.VEN_STATUS, 0, 1⟩
def VEN_STATUS_DONE : Fld := ⟨R.VEN_STATUS, 1, 1⟩
def VEN_STATUS_REFUSED : Fld := ⟨R.VEN_STATUS, 2, 1⟩
def VEN_STATUS_CODE : Fld := ⟨R.VEN_STATUS, 4, 4⟩
def VEN_STATUS_SESSION : Fld := ⟨R.VEN_STATUS, 8, 5⟩
def VEN_STATUS_REG : Fld := ⟨R.VEN_STATUS, 16, 8⟩
def VEN_STATUS_BIT : Fld := ⟨R.VEN_STATUS, 24, 5⟩
def VEN_STATUS_CNT_DONE_CNT : Fld := ⟨R.VEN_STATUS_CNT, 0, 8⟩
def VEN_STATUS_CNT_REFUSED_CNT : Fld := ⟨R.VEN_STATUS_CNT, 8, 8⟩
def VEN_STATUS_CNT_CNT_CLR : Fld := ⟨R.VEN_STATUS_CNT, 31, 1⟩
def VEN_CAP_SESSIONS : Fld := ⟨R.VEN_CAP, 0, 6⟩
def VEN_CAP_PIX_FREE : Fld := ⟨R.VEN_CAP, 16, 11⟩
def VEN_SES_CFG_CODEC : Fld := ⟨R.VEN_SES_CFG, 0, 1⟩
def VEN_SES_CFG_TEN_BIT : Fld := ⟨R.VEN_SES_CFG, 1, 1⟩
def VEN_SES_CFG_MODE : Fld := ⟨R.VEN_SES_CFG, 2, 2⟩
def VEN_SES_CFG_LEVEL : Fld := ⟨R.VEN_SES_CFG, 4, 8⟩
def VEN_SES_CFG_FRAME_DIV : Fld := ⟨R.VEN_SES_CFG, 12, 4⟩
def VEN_SES_CFG_GOP_LEN : Fld := ⟨R.VEN_SES_CFG, 16, 10⟩
def VEN_SES_RATE_KBPS : Fld := ⟨R.VEN_SES_RATE, 0, 18⟩
def VEN_SES_PEAK_PEAK_KBPS : Fld := ⟨R.VEN_SES_PEAK, 0, 18⟩
def VEN_SES_QP_QP_I : Fld := ⟨R.VEN_SES_QP, 0, 6⟩
def VEN_SES_QP_QP_P : Fld := ⟨R.VEN_SES_QP, 8, 6⟩
def VEN_SES_QP_QP_MIN : Fld := ⟨R.VEN_SES_QP, 16, 6⟩
def VEN_SES_QP_QP_MAX : Fld := ⟨R.VEN_SES_QP, 24, 6⟩
def VEN_SES_CPB_CPB_KBIT : Fld := ⟨R.VEN_SES_CPB, 0, 18⟩
def VEN_SES_PIC_MAX_PIC_MAX_KBIT : Fld := ⟨R.VEN_SES_PIC_MAX, 0, 16⟩
def VEN_SES_OUT_ADDR_ADDR : Fld := ⟨R.VEN_SES_OUT_ADDR, 0, 40⟩
def VEN_SES_OUT_ADDR_OUT_MIB : Fld := ⟨R.VEN_SES_OUT_ADDR, 40, 8⟩
def VEN_SES_RPTR_PTR : Fld := ⟨R.VEN_SES_RPTR, 0, 28⟩
def VEN_SES_WPTR_PTR : Fld := ⟨R.VEN_SES_WPTR, 0, 28⟩
def VEN_SES_STATE_ADMITTED : Fld := ⟨R.VEN_SES_STATE, 0, 1⟩
def VEN_SES_STATE_WAITING : Fld := ⟨R.VEN_SES_STATE, 1, 1⟩
def VEN_SES_STATE_CODING : Fld := ⟨R.VEN_SES_STATE, 2, 1⟩
def VEN_SES_STATE_QP_LAST : Fld := ⟨R.VEN_SES_STATE, 8, 6⟩
def VEN_SES_STATE_FLOOR_LAST : Fld := ⟨R.VEN_SES_STATE, 16, 8⟩
def VEN_SES_EVENT_FLOOR : Fld := ⟨R.VEN_SES_EVENT, 0, 1⟩
def VEN_SES_EVENT_RING_FULL : Fld := ⟨R.VEN_SES_EVENT, 1, 1⟩
def VEN_SES_EVENT_SKIP : Fld := ⟨R.VEN_SES_EVENT, 2, 1⟩
def VEN_SES_EVENT_GAP : Fld := ⟨R.VEN_SES_EVENT, 3, 1⟩
def VEN_SES_EVENT_SEAL_FAIL : Fld := ⟨R.VEN_SES_EVENT, 4, 1⟩
def VEN_SES_EVENT_CNT_CLR : Fld := ⟨R.VEN_SES_EVENT, 31, 1⟩
def VEN_SES_EVENT_CNT_FLOOR_CNT : Fld := ⟨R.VEN_SES_EVENT_CNT, 0, 8⟩
def VEN_SES_EVENT_CNT_FULL_CNT : Fld := ⟨R.VEN_SES_EVENT_CNT, 8, 8⟩
def VEN_SES_EVENT_CNT_SKIP_CNT : Fld := ⟨R.VEN_SES_EVENT_CNT, 16, 8⟩
def VEN_SES_EVENT_CNT_GAP_CNT : Fld := ⟨R.VEN_SES_EVENT_CNT, 24, 8⟩
def VEN_SES_EVENT_CNT_SEAL_CNT : Fld := ⟨R.VEN_SES_EVENT_CNT, 32, 8⟩
def EAS_ARG0_ARG : Fld := ⟨R.EAS_ARG0, 0, 64⟩
def EAS_ARG1_ARG : Fld := ⟨R.EAS_ARG1, 0, 64⟩
def EAS_CMD_OP : Fld := ⟨R.EAS_CMD, 0, 5⟩
def EAS_RESULT_RESULT : Fld := ⟨R.EAS_RESULT, 0, 64⟩
def EAS_STATUS_BUSY : Fld := ⟨R.EAS_STATUS, 0, 1⟩
def EAS_STATUS_DONE : Fld := ⟨R.EAS_STATUS, 1, 1⟩
def EAS_STATUS_REFUSED : Fld := ⟨R.EAS_STATUS, 2, 1⟩
def EAS_STATUS_CODE : Fld := ⟨R.EAS_STATUS, 4, 5⟩
def EAS_STATUS_FIELD : Fld := ⟨R.EAS_STATUS, 12, 10⟩
def EAS_STATUS_OP : Fld := ⟨R.EAS_STATUS, 22, 5⟩
def EAS_STATUS_CNT_DONE_CNT : Fld := ⟨R.EAS_STATUS_CNT, 0, 8⟩
def EAS_STATUS_CNT_REFUSED_CNT : Fld := ⟨R.EAS_STATUS_CNT, 8, 8⟩
def EAS_STATUS_CNT_CNT_CLR : Fld := ⟨R.EAS_STATUS_CNT, 31, 1⟩
def EAS_SRC_WINDOW_BASE : Fld := ⟨R.EAS_SRC_WINDOW, 0, 12⟩
def EAS_SRC_WINDOW_COUNT : Fld := ⟨R.EAS_SRC_WINDOW, 13, 13⟩
def EAS_LT_BASE_ADDR : Fld := ⟨R.EAS_LT_BASE, 0, 40⟩
def EAS_FREE_DESC_FREE : Fld := ⟨R.EAS_FREE, 0, 14⟩
def EAS_FREE_SRC_ACTIVE : Fld := ⟨R.EAS_FREE, 16, 10⟩
def EAS_CTRL_LOCK : Fld := ⟨R.EAS_CTRL, 0, 1⟩
def EAS_EVENT_FREE_DEFERRED : Fld := ⟨R.EAS_EVENT, 0, 1⟩
def EAS_EVENT_POOL_EMPTY : Fld := ⟨R.EAS_EVENT, 1, 1⟩
def EAS_EVENT_QUARANTINE : Fld := ⟨R.EAS_EVENT, 2, 1⟩
def EAS_EVENT_CNT_CLR : Fld := ⟨R.EAS_EVENT, 31, 1⟩
def EAS_EVENT_CNT_DEFER_CNT : Fld := ⟨R.EAS_EVENT_CNT, 0, 8⟩
def EAS_EVENT_CNT_EMPTY_CNT : Fld := ⟨R.EAS_EVENT_CNT, 8, 8⟩
def EAS_EVENT_CNT_QUAR_CNT : Fld := ⟨R.EAS_EVENT_CNT, 16, 8⟩
def EAS_POOL_CLASS_FORMAT : Fld := ⟨R.EAS_POOL_CLASS, 0, 4⟩
def EAS_POOL_CLASS_WIDTH : Fld := ⟨R.EAS_POOL_CLASS, 4, 14⟩
def EAS_POOL_CLASS_HEIGHT : Fld := ⟨R.EAS_POOL_CLASS, 18, 14⟩
def EAS_POOL_COUNT_BUFFERS : Fld := ⟨R.EAS_POOL_COUNT, 0, 14⟩
def EAS_POOL_COUNT_FREE : Fld := ⟨R.EAS_POOL_COUNT, 16, 14⟩
def EAS_POOL_BYTES_BUF_BYTES : Fld := ⟨R.EAS_POOL_BYTES, 0, 16⟩
def EAS_GAL_STATE_EPOCH : Fld := ⟨R.EAS_GAL_STATE, 0, 32⟩
def EAS_GAL_STATE_FRAME : Fld := ⟨R.EAS_GAL_STATE, 32, 32⟩
def EAS_GAL_ACK_EPOCH : Fld := ⟨R.EAS_GAL_ACK, 0, 32⟩
def EAS_GAL_ACK_FRAME : Fld := ⟨R.EAS_GAL_ACK, 32, 32⟩
def EAS_GAL_PEND_PENDING : Fld := ⟨R.EAS_GAL_PEND, 0, 1⟩
def EAS_GAL_PEND_AT : Fld := ⟨R.EAS_GAL_PEND, 1, 1⟩
def EAS_GAL_PEND_SNAP : Fld := ⟨R.EAS_GAL_PEND, 2, 1⟩
def EAS_GAL_PEND_STAGED : Fld := ⟨R.EAS_GAL_PEND, 3, 11⟩
def EAS_GAL_EVENT_COMMITTED : Fld := ⟨R.EAS_GAL_EVENT, 0, 1⟩
def EAS_GAL_EVENT_LATE : Fld := ⟨R.EAS_GAL_EVENT, 1, 1⟩
def EAS_GAL_EVENT_UNLOCKED : Fld := ⟨R.EAS_GAL_EVENT, 2, 1⟩
def EAS_GAL_EVENT_CANCELLED : Fld := ⟨R.EAS_GAL_EVENT, 3, 1⟩
def EAS_GAL_EVENT_SNAP_DONE : Fld := ⟨R.EAS_GAL_EVENT, 4, 1⟩
def EAS_GAL_EVENT_CNT_CLR : Fld := ⟨R.EAS_GAL_EVENT, 31, 1⟩
def EAS_GAL_EVENT_CNT_COMMIT_CNT : Fld := ⟨R.EAS_GAL_EVENT_CNT, 0, 8⟩
def EAS_GAL_EVENT_CNT_LATE_CNT : Fld := ⟨R.EAS_GAL_EVENT_CNT, 8, 8⟩
def EAS_GAL_EVENT_CNT_UNLOCK_CNT : Fld := ⟨R.EAS_GAL_EVENT_CNT, 16, 8⟩
def EAS_GAL_EVENT_CNT_CANCEL_CNT : Fld := ⟨R.EAS_GAL_EVENT_CNT, 24, 8⟩
def EAS_GAL_EVENT_CNT_SNAP_CNT : Fld := ⟨R.EAS_GAL_EVENT_CNT, 32, 8⟩
def CMP_ENG_MAP_CANVASES : Fld := ⟨R.CMP_ENG_MAP, 0, 32⟩
def CMP_STORE_FREE_FREE_G : Fld := ⟨R.CMP_STORE_FREE, 0, 20⟩
def CMP_SPILL_ADDR_ADDR : Fld := ⟨R.CMP_SPILL_ADDR, 0, 40⟩
def CMP_SPILL_SIZE_SPILL_MIB : Fld := ⟨R.CMP_SPILL_SIZE, 0, 7⟩
def CMP_SPILL_FREE_FREE_G : Fld := ⟨R.CMP_SPILL_FREE, 0, 21⟩
def CMP_CNV_CFG_ENGINE : Fld := ⟨R.CMP_CNV_CFG, 0, 3⟩
def CMP_CNV_CFG_DEPTH : Fld := ⟨R.CMP_CNV_CFG, 4, 2⟩
def CMP_CNV_CFG_DITHER : Fld := ⟨R.CMP_CNV_CFG, 6, 2⟩
def CMP_CNV_CFG_OUT_YCC : Fld := ⟨R.CMP_CNV_CFG, 8, 1⟩
def CMP_CNV_CFG_OUT_MATRIX : Fld := ⟨R.CMP_CNV_CFG, 9, 2⟩
def CMP_CNV_CFG_OUT_FULL : Fld := ⟨R.CMP_CNV_CFG, 11, 1⟩
def CMP_CNV_CFG_TRANSFER : Fld := ⟨R.CMP_CNV_CFG, 12, 4⟩
def CMP_CNV_CFG_PLANES_EN : Fld := ⟨R.CMP_CNV_CFG, 16, 1⟩
def CMP_CNV_CFG_WB_EN : Fld := ⟨R.CMP_CNV_CFG, 17, 1⟩
def CMP_CNV_CFG_WB_FMT : Fld := ⟨R.CMP_CNV_CFG, 18, 4⟩
def CMP_CNV_BG_R : Fld := ⟨R.CMP_CNV_BG, 0, 12⟩
def CMP_CNV_BG_G : Fld := ⟨R.CMP_CNV_BG, 16, 12⟩
def CMP_CNV_BG_B : Fld := ⟨R.CMP_CNV_BG, 32, 12⟩
def CMP_CNV_STATE_SHOWN : Fld := ⟨R.CMP_CNV_STATE, 0, 7⟩
def CMP_CNV_STATE_PLANES : Fld := ⟨R.CMP_CNV_STATE, 8, 2⟩
def CMP_CNV_STATE_FAIL_CODE : Fld := ⟨R.CMP_CNV_STATE, 10, 2⟩
def CMP_CNV_EVENT_OVERLAP : Fld := ⟨R.CMP_CNV_EVENT, 0, 1⟩
def CMP_CNV_EVENT_CROP_OUT : Fld := ⟨R.CMP_CNV_EVENT, 1, 1⟩
def CMP_CNV_EVENT_FLAT_DONE : Fld := ⟨R.CMP_CNV_EVENT, 2, 1⟩
def CMP_CNV_EVENT_FLAT_FAIL : Fld := ⟨R.CMP_CNV_EVENT, 3, 1⟩
def CMP_CNV_EVENT_SPILL : Fld := ⟨R.CMP_CNV_EVENT, 4, 1⟩
def CMP_CNV_EVENT_WB_NO_BUF : Fld := ⟨R.CMP_CNV_EVENT, 5, 1⟩
def CMP_CNV_EVENT_ENG_REFUSED : Fld := ⟨R.CMP_CNV_EVENT, 6, 1⟩
def CMP_CNV_EVENT_CNT_CLR : Fld := ⟨R.CMP_CNV_EVENT, 31, 1⟩
def CMP_CNV_EVENT_CNT_OVERLAP_CNT : Fld := ⟨R.CMP_CNV_EVENT_CNT, 0, 8⟩
def CMP_CNV_EVENT_CNT_CROP_CNT : Fld := ⟨R.CMP_CNV_EVENT_CNT, 8, 8⟩
def CMP_CNV_EVENT_CNT_DONE_CNT : Fld := ⟨R.CMP_CNV_EVENT_CNT, 16, 8⟩
def CMP_CNV_EVENT_CNT_FAIL_CNT : Fld := ⟨R.CMP_CNV_EVENT_CNT, 24, 8⟩
def CMP_CNV_EVENT_CNT_SPILL_CNT : Fld := ⟨R.CMP_CNV_EVENT_CNT, 32, 8⟩
def CMP_CNV_EVENT_CNT_WB_CNT : Fld := ⟨R.CMP_CNV_EVENT_CNT, 40, 8⟩
def CMP_CNV_EVENT_CNT_ENG_CNT : Fld := ⟨R.CMP_CNV_EVENT_CNT, 48, 8⟩
def CMP_CNV_PLANE_UNDER_G : Fld := ⟨R.CMP_CNV_PLANE, 0, 20⟩
def CMP_CNV_PLANE_OVER_G : Fld := ⟨R.CMP_CNV_PLANE, 20, 20⟩
def CMP_CNV_PLANE_UNDER_SPILL : Fld := ⟨R.CMP_CNV_PLANE, 40, 1⟩
def CMP_CNV_PLANE_OVER_SPILL : Fld := ⟨R.CMP_CNV_PLANE, 41, 1⟩
def CMP_CNV_PLANE_EPOCH_EPOCH : Fld := ⟨R.CMP_CNV_PLANE_EPOCH, 0, 32⟩
def CMP_CNV_WB_FRAME_FRAME : Fld := ⟨R.CMP_CNV_WB_FRAME, 0, 32⟩
def CNV_GAL_CTRL_EN : Fld := ⟨R.CNV_GAL_CTRL, 0, 1⟩
def CNV_GAL_CTRL_ALIGN_EN : Fld := ⟨R.CNV_GAL_CTRL, 1, 1⟩
def CNV_GAL_PLL_N : Fld := ⟨R.CNV_GAL_PLL, 0, 16⟩
def CNV_GAL_PLL_M : Fld := ⟨R.CNV_GAL_PLL, 16, 12⟩
def CNV_GAL_HV_HTOTAL : Fld := ⟨R.CNV_GAL_HV, 0, 14⟩
def CNV_GAL_HV_VACT : Fld := ⟨R.CNV_GAL_HV, 16, 12⟩
def CNV_GAL_VB_VBLANK_MIN : Fld := ⟨R.CNV_GAL_VB, 0, 12⟩
def CNV_GAL_VB_VBLANK_MAX : Fld := ⟨R.CNV_GAL_VB, 12, 12⟩
def CNV_GAL_VB_LATCH_GUARD : Fld := ⟨R.CNV_GAL_VB, 24, 4⟩
def CNV_GAL_VSYNC_VSYNC_LEN : Fld := ⟨R.CNV_GAL_VSYNC, 0, 8⟩
def CNV_GAL_VSYNC_VBACK : Fld := ⟨R.CNV_GAL_VSYNC, 8, 8⟩
def CNV_GAL_ALIGN_BASE_BASE_NS : Fld := ⟨R.CNV_GAL_ALIGN_BASE, 0, 64⟩
def CNV_GAL_ALIGN_RATE_NUM : Fld := ⟨R.CNV_GAL_ALIGN_RATE, 0, 16⟩
def CNV_GAL_ALIGN_RATE_DEN : Fld := ⟨R.CNV_GAL_ALIGN_RATE, 16, 16⟩
def CNV_GAL_STATUS_LINE : Fld := ⟨R.CNV_GAL_STATUS, 0, 13⟩
def CNV_GAL_STATUS_BLANK : Fld := ⟨R.CNV_GAL_STATUS, 13, 1⟩
def CNV_GAL_STATUS_FORCED : Fld := ⟨R.CNV_GAL_STATUS, 14, 1⟩
def CNV_GAL_STATUS_VBLANK_LAST : Fld := ⟨R.CNV_GAL_STATUS, 16, 12⟩
def CNV_GAL_STATUS_CODE : Fld := ⟨R.CNV_GAL_STATUS, 28, 4⟩
def CNV_GAL_STATUS_CANVAS : Fld := ⟨R.CNV_GAL_STATUS, 32, 5⟩
def CNV_GAL_EVENT_PACE_TIMEOUT : Fld := ⟨R.CNV_GAL_EVENT, 0, 1⟩
def CNV_GAL_EVENT_ALIGN_SLIP : Fld := ⟨R.CNV_GAL_EVENT, 1, 1⟩
def CNV_GAL_EVENT_CFG_REFUSED : Fld := ⟨R.CNV_GAL_EVENT, 2, 1⟩
def CNV_GAL_EVENT_CNT_CLR : Fld := ⟨R.CNV_GAL_EVENT, 31, 1⟩
def CNV_GAL_EVENT_CNT_PACE_CNT : Fld := ⟨R.CNV_GAL_EVENT_CNT, 0, 8⟩
def CNV_GAL_EVENT_CNT_SLIP_CNT : Fld := ⟨R.CNV_GAL_EVENT_CNT, 8, 8⟩
def CNV_GAL_EVENT_CNT_CFG_CNT : Fld := ⟨R.CNV_GAL_EVENT_CNT, 16, 8⟩
def CNV_GAL_LATCH_SHORT : Fld := ⟨R.CNV_GAL_LATCH, 0, 32⟩
def CNV_CTRL_EN : Fld := ⟨R.CNV_CTRL, 0, 1⟩
def CNV_CTRL_OUT_KIND : Fld := ⟨R.CNV_CTRL, 1, 2⟩
def CNV_CTRL_OUT_INDEX : Fld := ⟨R.CNV_CTRL, 3, 4⟩
def CNV_CTRL_ADAPTIVE : Fld := ⟨R.CNV_CTRL, 7, 1⟩
def CNV_CTRL_HSYNC_POL : Fld := ⟨R.CNV_CTRL, 8, 1⟩
def CNV_CTRL_VSYNC_POL : Fld := ⟨R.CNV_CTRL, 9, 1⟩
def CNV_CTRL_GALLERY : Fld := ⟨R.CNV_CTRL, 10, 3⟩
def CNV_H_HACT : Fld := ⟨R.CNV_H, 0, 13⟩
def CNV_H_HFP : Fld := ⟨R.CNV_H, 16, 13⟩
def CNV_HSYNC_HSYNC_LEN : Fld := ⟨R.CNV_HSYNC, 0, 13⟩
def CNV_WEIR_LOW : Fld := ⟨R.CNV_WEIR, 0, 5⟩
def CNV_WEIR_PANIC : Fld := ⟨R.CNV_WEIR, 8, 5⟩
def CNV_WEIR_UNDER : Fld := ⟨R.CNV_WEIR, 16, 5⟩
def CNV_WEIR_QOS_BASE : Fld := ⟨R.CNV_WEIR, 24, 4⟩
def CNV_WEIR_QOS_LOW : Fld := ⟨R.CNV_WEIR, 28, 4⟩
def CNV_STATUS_LEVEL : Fld := ⟨R.CNV_STATUS, 0, 6⟩
def CNV_STATUS_QOS_UP : Fld := ⟨R.CNV_STATUS, 6, 1⟩
def CNV_STATUS_PANIC_UP : Fld := ⟨R.CNV_STATUS, 7, 1⟩
def CNV_STATUS_GESSO : Fld := ⟨R.CNV_STATUS, 8, 1⟩
def CNV_STATUS_ACTIVE : Fld := ⟨R.CNV_STATUS, 9, 1⟩
def CNV_EVENT_WEIR_LOW : Fld := ⟨R.CNV_EVENT, 0, 1⟩
def CNV_EVENT_WEIR_PANIC : Fld := ⟨R.CNV_EVENT, 1, 1⟩
def CNV_EVENT_UNDERRUN : Fld := ⟨R.CNV_EVENT, 2, 1⟩
def CNV_EVENT_EMPTY : Fld := ⟨R.CNV_EVENT, 3, 1⟩
def CNV_EVENT_GESSO_ON : Fld := ⟨R.CNV_EVENT, 4, 1⟩
def CNV_EVENT_CNT_CLR : Fld := ⟨R.CNV_EVENT, 31, 1⟩
def CNV_EVENT_CNT_LOW_CNT : Fld := ⟨R.CNV_EVENT_CNT, 0, 8⟩
def CNV_EVENT_CNT_PANIC_CNT : Fld := ⟨R.CNV_EVENT_CNT, 8, 8⟩
def CNV_EVENT_CNT_UNDER_CNT : Fld := ⟨R.CNV_EVENT_CNT, 16, 8⟩
def CNV_EVENT_CNT_EMPTY_CNT : Fld := ⟨R.CNV_EVENT_CNT, 24, 8⟩
def CNV_EVENT_CNT_GESSO_CNT : Fld := ⟨R.CNV_EVENT_CNT, 32, 8⟩
def CNV_LAST_CUT_LAYER : Fld := ⟨R.CNV_LAST_CUT, 0, 10⟩
def CNV_LAST_CUT_TILE_ROW : Fld := ⟨R.CNV_LAST_CUT, 10, 8⟩
def CNV_LAST_CUT_VALID : Fld := ⟨R.CNV_LAST_CUT, 18, 1⟩
def CNV_LAST_CUT_FRAME : Fld := ⟨R.CNV_LAST_CUT, 32, 32⟩
def LDG_CTRL_GLASS_FRAMES : Fld := ⟨R.LDG_CTRL, 0, 4⟩
def LDG_WATCH_EXPECT_CANVASES : Fld := ⟨R.LDG_WATCH_EXPECT, 0, 32⟩
def LDG_LOCK_LOCK : Fld := ⟨R.LDG_LOCK, 0, 1⟩
def LDG_SET_DL_LAYER : Fld := ⟨R.LDG_SET_DL, 0, 10⟩
def LDG_SET_DL_DEADLINE_MS : Fld := ⟨R.LDG_SET_DL, 10, 11⟩
def LDG_SET_DL_WARN_PCT : Fld := ⟨R.LDG_SET_DL, 21, 7⟩
def LDG_EVENT_SUBST : Fld := ⟨R.LDG_EVENT, 0, 1⟩
def LDG_EVENT_RESTORED : Fld := ⟨R.LDG_EVENT, 1, 1⟩
def LDG_EVENT_FUTURE : Fld := ⟨R.LDG_EVENT, 2, 1⟩
def LDG_EVENT_GLASS_TILE : Fld := ⟨R.LDG_EVENT, 3, 1⟩
def LDG_EVENT_GLASS_CANVAS : Fld := ⟨R.LDG_EVENT, 4, 1⟩
def LDG_EVENT_PROOF_DONE : Fld := ⟨R.LDG_EVENT, 5, 1⟩
def LDG_EVENT_PROOF_FAIL : Fld := ⟨R.LDG_EVENT, 6, 1⟩
def LDG_EVENT_PROOF_REFUSED : Fld := ⟨R.LDG_EVENT, 7, 1⟩
def LDG_EVENT_SET_REFUSED : Fld := ⟨R.LDG_EVENT, 8, 1⟩
def LDG_EVENT_CNT_CLR : Fld := ⟨R.LDG_EVENT, 31, 1⟩
def LDG_EVENT_CNT_SUBST_CNT : Fld := ⟨R.LDG_EVENT_CNT, 0, 8⟩
def LDG_EVENT_CNT_REST_CNT : Fld := ⟨R.LDG_EVENT_CNT, 8, 8⟩
def LDG_EVENT_CNT_FUTURE_CNT : Fld := ⟨R.LDG_EVENT_CNT, 16, 8⟩
def LDG_EVENT_CNT_GTILE_CNT : Fld := ⟨R.LDG_EVENT_CNT, 24, 8⟩
def LDG_EVENT_CNT_GCNV_CNT : Fld := ⟨R.LDG_EVENT_CNT, 32, 8⟩
def LDG_EVENT_CNT_PROOF_CNT : Fld := ⟨R.LDG_EVENT_CNT, 40, 8⟩
def LDG_EVENT_CNT_PREF_CNT : Fld := ⟨R.LDG_EVENT_CNT, 48, 8⟩
def LDG_EVENT_CNT_SET_CNT : Fld := ⟨R.LDG_EVENT_CNT, 56, 8⟩
def LDG_PROOF_CMD_LAYER : Fld := ⟨R.LDG_PROOF_CMD, 0, 10⟩
def LDG_PROOF_CMD_KIND : Fld := ⟨R.LDG_PROOF_CMD, 10, 2⟩
def LDG_PROOF_CMD_ROW : Fld := ⟨R.LDG_PROOF_CMD, 12, 8⟩
def LDG_PROOF_CMD_START : Fld := ⟨R.LDG_PROOF_CMD, 31, 1⟩
def LDG_PROOF_STATUS_BUSY : Fld := ⟨R.LDG_PROOF_STATUS, 0, 1⟩
def LDG_PROOF_STATUS_RESULT : Fld := ⟨R.LDG_PROOF_STATUS, 1, 2⟩
def LDG_PROOF_STATUS_FAILED_STEP : Fld := ⟨R.LDG_PROOF_STATUS, 3, 3⟩
def LDG_PROOF_STATUS_REFUSE : Fld := ⟨R.LDG_PROOF_STATUS, 6, 3⟩
def LDG_LAYER_STATUS_VERDICT : Fld := ⟨R.LDG_LAYER_STATUS, 0, 3⟩
def LDG_LAYER_STATUS_EVALUATED : Fld := ⟨R.LDG_LAYER_STATUS, 3, 1⟩
def LDG_LAYER_STATUS_CAUSE : Fld := ⟨R.LDG_LAYER_STATUS, 4, 4⟩
def LDG_LAYER_STATUS_RAP_WAIT : Fld := ⟨R.LDG_LAYER_STATUS, 8, 1⟩
def LDG_LAYER_STATUS_RUN : Fld := ⟨R.LDG_LAYER_STATUS, 9, 8⟩
def LDG_LAYER_STATUS_SOURCE : Fld := ⟨R.LDG_LAYER_STATUS, 20, 12⟩
def LDG_LAYER_STATUS_AGE_MS : Fld := ⟨R.LDG_LAYER_STATUS, 32, 16⟩
def LDG_LAYER_STATUS_TILE_ROW : Fld := ⟨R.LDG_LAYER_STATUS, 48, 8⟩
def TND_CTRL_EN : Fld := ⟨R.TND_CTRL, 0, 1⟩
def TND_CTRL_PORTS : Fld := ⟨R.TND_CTRL, 1, 4⟩
def TND_CTRL_HB_MISS : Fld := ⟨R.TND_CTRL, 5, 4⟩
def TND_CTRL_SPLIT_FRAMES : Fld := ⟨R.TND_CTRL, 9, 4⟩
def TND_CTRL_RESYNC_FRAMES : Fld := ⟨R.TND_CTRL, 13, 4⟩
def TND_CTRL_GALLERIES : Fld := ⟨R.TND_CTRL, 17, 8⟩
def TND_CTRL_LOCK : Fld := ⟨R.TND_CTRL, 31, 1⟩
def TND_EXPORT_CANVASES : Fld := ⟨R.TND_EXPORT, 0, 32⟩
def TND_CMD_YIELD : Fld := ⟨R.TND_CMD, 0, 1⟩
def TND_CMD_RESYNC : Fld := ⟨R.TND_CMD, 1, 1⟩
def TND_STATUS_STATE : Fld := ⟨R.TND_STATUS, 0, 2⟩
def TND_STATUS_PAIRED : Fld := ⟨R.TND_STATUS, 2, 1⟩
def TND_STATUS_TWIN_LOST : Fld := ⟨R.TND_STATUS, 3, 1⟩
def TND_STATUS_SELF_SUSPECT : Fld := ⟨R.TND_STATUS, 4, 1⟩
def TND_STATUS_TWIN_SUSPECT : Fld := ⟨R.TND_STATUS, 5, 1⟩
def TND_STATUS_FAULT : Fld := ⟨R.TND_STATUS, 6, 1⟩
def TND_STATUS_POSITION : Fld := ⟨R.TND_STATUS, 7, 1⟩
def TND_STATUS_MISS : Fld := ⟨R.TND_STATUS, 8, 4⟩
def TND_STATUS_CLAIM : Fld := ⟨R.TND_STATUS, 16, 16⟩
def TND_TWIN_CLAIM : Fld := ⟨R.TND_TWIN, 0, 16⟩
def TND_TWIN_DEVICE : Fld := ⟨R.TND_TWIN, 16, 6⟩
def TND_TWIN_STATE : Fld := ⟨R.TND_TWIN, 22, 2⟩
def TND_TWIN_FAULT : Fld := ⟨R.TND_TWIN, 24, 1⟩
def TND_EVENT_TAKEOVER : Fld := ⟨R.TND_EVENT, 0, 1⟩
def TND_EVENT_YIELDED : Fld := ⟨R.TND_EVENT, 1, 1⟩
def TND_EVENT_TWIN_LOST : Fld := ⟨R.TND_EVENT, 2, 1⟩
def TND_EVENT_SUSPECT : Fld := ⟨R.TND_EVENT, 3, 1⟩
def TND_EVENT_EPOCH_SPLIT : Fld := ⟨R.TND_EVENT, 4, 1⟩
def TND_EVENT_TWIN_LATE : Fld := ⟨R.TND_EVENT, 5, 1⟩
def TND_EVENT_MIRROR_FAIL : Fld := ⟨R.TND_EVENT, 6, 1⟩
def TND_EVENT_RESYNC_DONE : Fld := ⟨R.TND_EVENT, 7, 1⟩
def TND_EVENT_CMD_REFUSED : Fld := ⟨R.TND_EVENT, 8, 1⟩
def TND_EVENT_CNT_CLR : Fld := ⟨R.TND_EVENT, 31, 1⟩
def TND_EVENT_CNT_TAKE_CNT : Fld := ⟨R.TND_EVENT_CNT, 0, 8⟩
def TND_EVENT_CNT_LOST_CNT : Fld := ⟨R.TND_EVENT_CNT, 8, 8⟩
def TND_EVENT_CNT_SUSP_CNT : Fld := ⟨R.TND_EVENT_CNT, 16, 8⟩
def TND_EVENT_CNT_SPLIT_CNT : Fld := ⟨R.TND_EVENT_CNT, 24, 8⟩
def TND_EVENT_CNT_LATE_CNT : Fld := ⟨R.TND_EVENT_CNT, 32, 8⟩
def TND_EVENT_CNT_MIRROR_CNT : Fld := ⟨R.TND_EVENT_CNT, 40, 8⟩
def TND_EVENT_CNT_RESYNC_CNT : Fld := ⟨R.TND_EVENT_CNT, 48, 8⟩
def TND_EVENT_CNT_CMD_CNT : Fld := ⟨R.TND_EVENT_CNT, 56, 8⟩
def TND_COMPARE_COMPARED : Fld := ⟨R.TND_COMPARE, 0, 32⟩
def TND_COMPARE_UNMATCHED : Fld := ⟨R.TND_COMPARE, 32, 32⟩
def TND_LAST_MISMATCH_CANVAS : Fld := ⟨R.TND_LAST_MISMATCH, 0, 5⟩
def TND_LAST_MISMATCH_ROW : Fld := ⟨R.TND_LAST_MISMATCH, 5, 8⟩
def TND_LAST_MISMATCH_TILE : Fld := ⟨R.TND_LAST_MISMATCH, 13, 5⟩
def TND_LAST_MISMATCH_VALID : Fld := ⟨R.TND_LAST_MISMATCH, 18, 1⟩
def TND_LAST_MISMATCH_FRAME : Fld := ⟨R.TND_LAST_MISMATCH, 32, 32⟩
def SEQ_FEATURES_FEATURES : Fld := ⟨R.SEQ_FEATURES, 0, 64⟩
def SEQ_SIGNAL_NUMBER : Fld := ⟨R.SEQ_SIGNAL, 0, 10⟩
def SEQ_CMD_START : Fld := ⟨R.SEQ_CMD, 0, 1⟩
def SEQ_CMD_HALT : Fld := ⟨R.SEQ_CMD, 1, 1⟩
def SEQ_CMD_RESUME : Fld := ⟨R.SEQ_CMD, 2, 1⟩
def SEQ_CMD_STEP : Fld := ⟨R.SEQ_CMD, 3, 1⟩
def SEQ_CFG_USER_GAL : Fld := ⟨R.SEQ_CFG, 0, 8⟩
def SEQ_CFG_INT_FAULT : Fld := ⟨R.SEQ_CFG, 8, 1⟩
def SEQ_CFG_INT_HALT : Fld := ⟨R.SEQ_CFG, 9, 1⟩
def SEQ_STATE_STATE : Fld := ⟨R.SEQ_STATE, 0, 2⟩
def SEQ_STATE_USER : Fld := ⟨R.SEQ_STATE, 2, 1⟩
def SEQ_STATE_WRITES : Fld := ⟨R.SEQ_STATE, 3, 5⟩
def SEQ_PC_PC : Fld := ⟨R.SEQ_PC, 0, 14⟩
def SEQ_START_STATUS_CODE : Fld := ⟨R.SEQ_START_STATUS, 0, 4⟩
def SEQ_START_STATUS_VALUE : Fld := ⟨R.SEQ_START_STATUS, 8, 8⟩
def SEQ_FAULT_CAUSE : Fld := ⟨R.SEQ_FAULT, 0, 4⟩
def SEQ_FAULT_USER : Fld := ⟨R.SEQ_FAULT, 4, 1⟩
def SEQ_FAULT_PC : Fld := ⟨R.SEQ_FAULT, 5, 14⟩
def SEQ_FAULT_ADDR : Fld := ⟨R.SEQ_FAULT, 24, 40⟩
def SEQ_EVENT_FAULT : Fld := ⟨R.SEQ_EVENT, 0, 1⟩
def SEQ_EVENT_REFUSED : Fld := ⟨R.SEQ_EVENT, 1, 1⟩
def SEQ_EVENT_HALTED : Fld := ⟨R.SEQ_EVENT, 2, 1⟩
def SEQ_EVENT_EV_OVERFLOW : Fld := ⟨R.SEQ_EVENT, 3, 1⟩
def SEQ_EVENT_IMEM_WR : Fld := ⟨R.SEQ_EVENT, 4, 1⟩
def SEQ_EVENT_CNT_CLR : Fld := ⟨R.SEQ_EVENT, 31, 1⟩
def SEQ_EVENT_CNT_FAULT_CNT : Fld := ⟨R.SEQ_EVENT_CNT, 0, 8⟩
def SEQ_EVENT_CNT_REFUSED_CNT : Fld := ⟨R.SEQ_EVENT_CNT, 8, 8⟩
def SEQ_EVENT_CNT_HALT_CNT : Fld := ⟨R.SEQ_EVENT_CNT, 16, 8⟩
def SEQ_EVENT_CNT_OVF_CNT : Fld := ⟨R.SEQ_EVENT_CNT, 24, 8⟩
def SEQ_EVENT_CNT_IMEM_CNT : Fld := ⟨R.SEQ_EVENT_CNT, 32, 8⟩
def SEQ_CYCLES_COUNT : Fld := ⟨R.SEQ_CYCLES, 0, 64⟩
def SEQ_RETIRED_COUNT : Fld := ⟨R.SEQ_RETIRED, 0, 64⟩
def SEQ_REG_VALUE : Fld := ⟨R.SEQ_REG, 0, 64⟩
def SEQ_EV_MASK_MASK : Fld := ⟨R.SEQ_EV_MASK, 0, 64⟩
def SEQ_EV_PEND_COUNTS : Fld := ⟨R.SEQ_EV_PEND, 0, 64⟩
def TCH_CTRL_EN : Fld := ⟨R.TCH_CTRL, 0, 1⟩
def TCH_SCAN_CHIP_US : Fld := ⟨R.TCH_SCAN, 0, 7⟩
def TCH_SCAN_IDLE1_S : Fld := ⟨R.TCH_SCAN, 7, 8⟩
def TCH_SCAN_IDLE2_S : Fld := ⟨R.TCH_SCAN, 15, 16⟩
def TCH_THRESH_TOUCH_THRESH : Fld := ⟨R.TCH_THRESH, 0, 16⟩
def TCH_THRESH_RELEASE_THRESH : Fld := ⟨R.TCH_THRESH, 16, 16⟩
def TCH_LIMITS_NEG_THRESH : Fld := ⟨R.TCH_LIMITS, 0, 16⟩
def TCH_LIMITS_MOVE_THRESH : Fld := ⟨R.TCH_LIMITS, 16, 8⟩
def TCH_HOLD_T_HOLD_S : Fld := ⟨R.TCH_HOLD, 0, 10⟩
def TCH_WAKE_EN : Fld := ⟨R.TCH_WAKE, 0, 1⟩
def TCH_WAKE_GROUP : Fld := ⟨R.TCH_WAKE, 1, 6⟩
def TCH_WAKE_WAKE_THRESH : Fld := ⟨R.TCH_WAKE, 7, 16⟩
def TCH_XFORM_COEF : Fld := ⟨R.TCH_XFORM, 0, 32⟩
def TCH_ROUTE_CANVAS : Fld := ⟨R.TCH_ROUTE, 0, 5⟩
def TCH_ROUTE_SEQ : Fld := ⟨R.TCH_ROUTE, 5, 4⟩
def TCH_ROUTE_REC : Fld := ⟨R.TCH_ROUTE, 9, 16⟩
def TCH_STATUS_RATE : Fld := ⟨R.TCH_STATUS, 0, 2⟩
def TCH_STATUS_CONTACTS : Fld := ⟨R.TCH_STATUS, 2, 4⟩
def TCH_STATUS_TESTING : Fld := ⟨R.TCH_STATUS, 6, 1⟩
def TCH_EVENT_ABSORBED : Fld := ⟨R.TCH_EVENT, 0, 1⟩
def TCH_EVENT_REBASE_NEG : Fld := ⟨R.TCH_EVENT, 1, 1⟩
def TCH_EVENT_OVER : Fld := ⟨R.TCH_EVENT, 2, 1⟩
def TCH_EVENT_TEST_DONE : Fld := ⟨R.TCH_EVENT, 3, 1⟩
def TCH_EVENT_TEST_FAIL : Fld := ⟨R.TCH_EVENT, 4, 1⟩
def TCH_EVENT_CFG_REFUSED : Fld := ⟨R.TCH_EVENT, 5, 1⟩
def TCH_EVENT_CNT_CLR : Fld := ⟨R.TCH_EVENT, 31, 1⟩
def TCH_EVENT_CNT_ABS_CNT : Fld := ⟨R.TCH_EVENT_CNT, 0, 8⟩
def TCH_EVENT_CNT_NEG_CNT : Fld := ⟨R.TCH_EVENT_CNT, 8, 8⟩
def TCH_EVENT_CNT_OVER_CNT : Fld := ⟨R.TCH_EVENT_CNT, 16, 8⟩
def TCH_EVENT_CNT_DONE_CNT : Fld := ⟨R.TCH_EVENT_CNT, 24, 8⟩
def TCH_EVENT_CNT_FAIL_CNT : Fld := ⟨R.TCH_EVENT_CNT, 32, 8⟩
def TCH_EVENT_CNT_CFG_CNT : Fld := ⟨R.TCH_EVENT_CNT, 40, 8⟩
def TCH_TEST_CMD_START : Fld := ⟨R.TCH_TEST_CMD, 0, 1⟩
def TCH_TEST_LIMITS_TEST_OPEN_MIN : Fld := ⟨R.TCH_TEST_LIMITS, 0, 16⟩
def TCH_TEST_LIMITS_TEST_SHORT_MAX : Fld := ⟨R.TCH_TEST_LIMITS, 16, 16⟩
def TCH_TEST_OPEN_DRIVE : Fld := ⟨R.TCH_TEST_OPEN, 0, 36⟩
def TCH_TEST_OPEN_SENSE : Fld := ⟨R.TCH_TEST_OPEN, 36, 24⟩
def TCH_TEST_SHORT_DRIVE : Fld := ⟨R.TCH_TEST_SHORT, 0, 36⟩
def TCH_TEST_SHORT_SENSE : Fld := ⟨R.TCH_TEST_SHORT, 36, 24⟩
def TCH_NODE_VALUE : Fld := ⟨R.TCH_NODE, 0, 24⟩
def TCH_NODE_BASE : Fld := ⟨R.TCH_NODE, 32, 24⟩
def CPR_RING_BASE_BASE : Fld := ⟨R.CPR_RING_BASE, 0, 40⟩
def CPR_RING_CFG_LOG2 : Fld := ⟨R.CPR_RING_CFG, 0, 5⟩
def CPR_RING_CFG_EN : Fld := ⟨R.CPR_RING_CFG, 5, 1⟩
def CPR_TAIL_TAIL : Fld := ⟨R.CPR_TAIL, 0, 16⟩
def CPR_HEAD_HEAD : Fld := ⟨R.CPR_HEAD, 0, 16⟩
def CPR_EVENT_JOB_DONE : Fld := ⟨R.CPR_EVENT, 0, 1⟩
def CPR_EVENT_JOB_ERR : Fld := ⟨R.CPR_EVENT, 1, 1⟩
def CPR_EVENT_CNT_CLR : Fld := ⟨R.CPR_EVENT, 31, 1⟩
def CPR_EVENT_CNT_DONE_CNT : Fld := ⟨R.CPR_EVENT_CNT, 0, 8⟩
def CPR_EVENT_CNT_ERR_CNT : Fld := ⟨R.CPR_EVENT_CNT, 8, 8⟩
def JNL_CTRL_EN : Fld := ⟨R.JNL_CTRL, 0, 1⟩
def JNL_CTRL_RING_MIB : Fld := ⟨R.JNL_CTRL, 1, 9⟩
def JNL_CTRL_LOCK : Fld := ⟨R.JNL_CTRL, 10, 1⟩
def JNL_RING_BASE_BASE : Fld := ⟨R.JNL_RING_BASE, 0, 40⟩
def JNL_ACK_ACK : Fld := ⟨R.JNL_ACK, 0, 64⟩
def JNL_HEAD_INDEX_INDEX : Fld := ⟨R.JNL_HEAD_INDEX, 0, 64⟩
def JNL_HEAD_DIGEST_DIGEST : Fld := ⟨R.JNL_HEAD_DIGEST, 0, 32⟩
def JNL_HEAD_CAPTURE_CAPTURE : Fld := ⟨R.JNL_HEAD_CAPTURE, 0, 1⟩
def JNL_EVENT_OVERWRITE : Fld := ⟨R.JNL_EVENT, 0, 1⟩
def JNL_EVENT_STAGE_LOST : Fld := ⟨R.JNL_EVENT, 1, 1⟩
def JNL_EVENT_QUEUE_LOST : Fld := ⟨R.JNL_EVENT, 2, 1⟩
def JNL_EVENT_EVID_DONE : Fld := ⟨R.JNL_EVENT, 3, 1⟩
def JNL_EVENT_EVID_REFUSED : Fld := ⟨R.JNL_EVENT, 4, 1⟩
def JNL_EVENT_CNT_CLR : Fld := ⟨R.JNL_EVENT, 31, 1⟩
def JNL_EVENT_CNT_COUNTS : Fld := ⟨R.JNL_EVENT_CNT, 0, 40⟩
def JNL_LOST_LOST : Fld := ⟨R.JNL_LOST, 0, 64⟩
def JNL_HOST_DATA_DATA : Fld := ⟨R.JNL_HOST_DATA, 0, 32⟩
def JNL_HOST_CMD_APPEND : Fld := ⟨R.JNL_HOST_CMD, 0, 1⟩
def JNL_EVID_CMD_CANVAS : Fld := ⟨R.JNL_EVID_CMD, 0, 5⟩
def JNL_EVID_CMD_START : Fld := ⟨R.JNL_EVID_CMD, 5, 1⟩
def JNL_EVID_CTRL_ENGINE : Fld := ⟨R.JNL_EVID_CTRL, 0, 1⟩
def JNL_EVID_CTRL_EVID_HOLDOFF_S : Fld := ⟨R.JNL_EVID_CTRL, 1, 16⟩
def JNL_EVID_AUTO_CANVASES : Fld := ⟨R.JNL_EVID_AUTO, 0, 32⟩
def JNL_EVID_BASE_BASE : Fld := ⟨R.JNL_EVID_BASE, 0, 40⟩
def JNL_EVID_BASE_EVID_MIB : Fld := ⟨R.JNL_EVID_BASE, 40, 8⟩
def JNL_EVID_RPTR_RPTR : Fld := ⟨R.JNL_EVID_RPTR, 0, 28⟩
def JNL_EVID_WPTR_WPTR : Fld := ⟨R.JNL_EVID_WPTR, 0, 28⟩
def LANE_QUAD_USE_USE : Fld := ⟨R.LANE_QUAD_USE, 0, 64⟩
def LANE_QUAD_COMMIT_COMMIT : Fld := ⟨R.LANE_QUAD_COMMIT, 0, 1⟩
def LANE_QUAD_COMMIT_LOCKED : Fld := ⟨R.LANE_QUAD_COMMIT, 1, 1⟩
def LANE_QUAD_COMMIT_READY : Fld := ⟨R.LANE_QUAD_COMMIT, 2, 1⟩
def LANE_QUAD_COMMIT_CODE : Fld := ⟨R.LANE_QUAD_COMMIT, 3, 3⟩
def LANE_QUAD_COMMIT_QUAD : Fld := ⟨R.LANE_QUAD_COMMIT, 6, 4⟩
def LANE_QUAD_COMMIT_REFUSED : Fld := ⟨R.LANE_QUAD_COMMIT, 10, 1⟩
def LANE_QUAD_COMMIT_REFUSED_CNT : Fld := ⟨R.LANE_QUAD_COMMIT, 11, 8⟩
def LANE_QUAD_COMMIT_CNT_CLR : Fld := ⟨R.LANE_QUAD_COMMIT, 31, 1⟩
def LANE_DPTX_CFG_EN : Fld := ⟨R.LANE_DPTX_CFG, 0, 1⟩
def LANE_DPTX_CFG_RATE : Fld := ⟨R.LANE_DPTX_CFG, 1, 2⟩
def LANE_DPTX_CFG_LANES : Fld := ⟨R.LANE_DPTX_CFG, 3, 2⟩
def LANE_DPTX_CFG_RETRY_MS : Fld := ⟨R.LANE_DPTX_CFG, 5, 11⟩
def LANE_DPTX_STATUS_STATE : Fld := ⟨R.LANE_DPTX_STATUS, 0, 2⟩
def LANE_DPTX_STATUS_HPD : Fld := ⟨R.LANE_DPTX_STATUS, 2, 1⟩
def LANE_DPTX_STATUS_CAUSE : Fld := ⟨R.LANE_DPTX_STATUS, 3, 4⟩
def LANE_DPRX_CFG_HPD_EN : Fld := ⟨R.LANE_DPRX_CFG, 0, 1⟩
def LANE_DPRX_CFG_MAX_RATE : Fld := ⟨R.LANE_DPRX_CFG, 1, 2⟩
def LANE_DPRX_CFG_REQ_SWING : Fld := ⟨R.LANE_DPRX_CFG, 3, 2⟩
def LANE_DPRX_CFG_REQ_PRE : Fld := ⟨R.LANE_DPRX_CFG, 5, 2⟩
def LANE_DPRX_STATUS_TRAINED : Fld := ⟨R.LANE_DPRX_STATUS, 0, 1⟩
def LANE_DPRX_STATUS_RATE : Fld := ⟨R.LANE_DPRX_STATUS, 1, 2⟩
def LANE_DPRX_STATUS_LANES : Fld := ⟨R.LANE_DPRX_STATUS, 3, 2⟩
def LANE_AUX_CMD_REQ : Fld := ⟨R.LANE_AUX_CMD, 0, 4⟩
def LANE_AUX_CMD_ADDR : Fld := ⟨R.LANE_AUX_CMD, 4, 20⟩
def LANE_AUX_CMD_LEN : Fld := ⟨R.LANE_AUX_CMD, 24, 5⟩
def LANE_AUX_CMD_START : Fld := ⟨R.LANE_AUX_CMD, 31, 1⟩
def LANE_AUX_STATUS_BUSY : Fld := ⟨R.LANE_AUX_STATUS, 0, 1⟩
def LANE_AUX_STATUS_REPLY : Fld := ⟨R.LANE_AUX_STATUS, 1, 2⟩
def LANE_AUX_STATUS_COUNT : Fld := ⟨R.LANE_AUX_STATUS, 3, 5⟩
def LANE_AUX_DATA_DATA : Fld := ⟨R.LANE_AUX_DATA, 0, 32⟩
def LANE_Q_EVENT_FLAGS : Fld := ⟨R.LANE_Q_EVENT, 0, 6⟩
def LANE_Q_EVENT_CNT_CLR : Fld := ⟨R.LANE_Q_EVENT, 31, 1⟩
def LANE_Q_EVENT_CNT_COUNTS : Fld := ⟨R.LANE_Q_EVENT_CNT, 0, 48⟩
def LANE_DPRX_EDID_EDID : Fld := ⟨R.LANE_DPRX_EDID, 0, 32⟩
def LANE_TX_FIR_PRE : Fld := ⟨R.LANE_TX_FIR, 0, 4⟩
def LANE_TX_FIR_MAIN : Fld := ⟨R.LANE_TX_FIR, 4, 6⟩
def LANE_TX_FIR_POST : Fld := ⟨R.LANE_TX_FIR, 10, 5⟩
def LANE_RX_CFG_FREEZE : Fld := ⟨R.LANE_RX_CFG, 0, 1⟩
def LANE_STATUS_CDR_LOCK : Fld := ⟨R.LANE_STATUS, 0, 1⟩
def LANE_STATUS_PCS_LOCK : Fld := ⟨R.LANE_STATUS, 1, 1⟩
def LANE_STATUS_ADAPTED : Fld := ⟨R.LANE_STATUS, 2, 1⟩
def LANE_STATUS_PRBS_LOCK : Fld := ⟨R.LANE_STATUS, 3, 1⟩
def LANE_STATUS_CTLE : Fld := ⟨R.LANE_STATUS, 4, 4⟩
def LANE_EVENT_LOCK_LOST : Fld := ⟨R.LANE_EVENT, 0, 1⟩
def LANE_EVENT_CFG_REFUSED : Fld := ⟨R.LANE_EVENT, 1, 1⟩
def LANE_EVENT_CNT_CLR : Fld := ⟨R.LANE_EVENT, 31, 1⟩
def LANE_EVENT_CNT_COUNTS : Fld := ⟨R.LANE_EVENT_CNT, 0, 16⟩
def LANE_TEST_GEN_EN : Fld := ⟨R.LANE_TEST, 0, 1⟩
def LANE_TEST_CHK_EN : Fld := ⟨R.LANE_TEST, 1, 1⟩
def LANE_TEST_PATTERN : Fld := ⟨R.LANE_TEST, 2, 2⟩
def LANE_TEST_LOOP : Fld := ⟨R.LANE_TEST, 4, 2⟩
def LANE_PRBS_ERRS_ERRS : Fld := ⟨R.LANE_PRBS_ERRS, 0, 32⟩
def LANE_RX_DFE_TAP : Fld := ⟨R.LANE_RX_DFE, 0, 6⟩
def LNK_CFG_EN : Fld := ⟨R.LNK_CFG, 0, 1⟩
def LNK_CFG_RATE : Fld := ⟨R.LNK_CFG, 1, 3⟩
def LNK_CFG_LANE_MASK : Fld := ⟨R.LNK_CFG, 4, 4⟩
def LNK_CFG_WIDTH_MIN : Fld := ⟨R.LNK_CFG, 8, 3⟩
def LNK_STATUS_STATE : Fld := ⟨R.LNK_STATUS, 0, 3⟩
def LNK_STATUS_REVERSED : Fld := ⟨R.LNK_STATUS, 3, 1⟩
def LNK_STATUS_TX_MASK : Fld := ⟨R.LNK_STATUS, 4, 4⟩
def LNK_STATUS_RX_MASK : Fld := ⟨R.LNK_STATUS, 8, 4⟩
def LNK_STATUS_VERSION : Fld := ⟨R.LNK_STATUS, 12, 2⟩
def LNK_STATUS_SKEW : Fld := ⟨R.LNK_STATUS, 14, 5⟩
def LNK_STATUS_RATE : Fld := ⟨R.LNK_STATUS, 19, 3⟩
def LNK_PARTNER_KIND : Fld := ⟨R.LNK_PARTNER, 0, 4⟩
def LNK_PARTNER_DEVICE : Fld := ⟨R.LNK_PARTNER, 4, 6⟩
def LNK_PARTNER_VERSION : Fld := ⟨R.LNK_PARTNER, 10, 2⟩
def LNK_PARTNER_FEATURES : Fld := ⟨R.LNK_PARTNER, 12, 6⟩
def LNK_PARTNER_MAX_RATE : Fld := ⟨R.LNK_PARTNER, 18, 3⟩
def LNK_NEG_ON : Fld := ⟨R.LNK_NEG, 0, 6⟩
def LNK_NEG_OFF : Fld := ⟨R.LNK_NEG, 8, 6⟩
def LNK_EVENT_LINK_UP : Fld := ⟨R.LNK_EVENT, 0, 1⟩
def LNK_EVENT_LINK_DOWN : Fld := ⟨R.LNK_EVENT, 1, 1⟩
def LNK_EVENT_BRINGUP_FAIL : Fld := ⟨R.LNK_EVENT, 2, 1⟩
def LNK_EVENT_WIDTH_CHANGE : Fld := ⟨R.LNK_EVENT, 3, 1⟩
def LNK_EVENT_PKT_BAD : Fld := ⟨R.LNK_EVENT, 4, 1⟩
def LNK_EVENT_RX_DROP : Fld := ⟨R.LNK_EVENT, 5, 1⟩
def LNK_EVENT_FEATURE_OFF : Fld := ⟨R.LNK_EVENT, 6, 1⟩
def LNK_EVENT_CFG_REFUSED : Fld := ⟨R.LNK_EVENT, 7, 1⟩
def LNK_EVENT_CNT_CLR : Fld := ⟨R.LNK_EVENT, 31, 1⟩
def LNK_EVENT_CNT_COUNTS : Fld := ⟨R.LNK_EVENT_CNT, 0, 64⟩
def LNK_THROTTLE_ROW_DISCARD : Fld := ⟨R.LNK_THROTTLE, 0, 32⟩
def LNK_RX_PKTS_PKTS : Fld := ⟨R.LNK_RX_PKTS, 0, 32⟩
def GLB_ID_DEVICE : Fld := ⟨R.GLB_ID, 0, 6⟩
def GLB_ID_POSITION : Fld := ⟨R.GLB_ID, 6, 1⟩
def GLB_ID_STEPPING : Fld := ⟨R.GLB_ID, 8, 4⟩
def GLB_ID_PART : Fld := ⟨R.GLB_ID, 16, 16⟩
def GLB_MBX_VERSION_VERSION : Fld := ⟨R.GLB_MBX_VERSION, 0, 8⟩
def GLB_MBX_FEATURES_FEATURES : Fld := ⟨R.GLB_MBX_FEATURES, 0, 64⟩
def GLB_MBX_ATTACH_VERSION : Fld := ⟨R.GLB_MBX_ATTACH, 0, 8⟩
def GLB_MBX_STATE_ATTACHED : Fld := ⟨R.GLB_MBX_STATE, 0, 1⟩
def GLB_MBX_STATE_ATT_REFUSED : Fld := ⟨R.GLB_MBX_STATE, 1, 1⟩
def GLB_MBX_STATE_FOUND : Fld := ⟨R.GLB_MBX_STATE, 8, 8⟩
def GLB_MBX_STATE_REF_CNT : Fld := ⟨R.GLB_MBX_STATE, 16, 8⟩
def GLB_MBX_STATE_CNT_CLR : Fld := ⟨R.GLB_MBX_STATE, 31, 1⟩
def GLB_MBX_DOORBELL_H2D : Fld := ⟨R.GLB_MBX_DOORBELL, 0, 1⟩
def GLB_MBX_DOORBELL_D2H : Fld := ⟨R.GLB_MBX_DOORBELL, 1, 1⟩
def GLB_MBX_H2D_WORD : Fld := ⟨R.GLB_MBX_H2D, 0, 32⟩
def GLB_MBX_D2H_WORD : Fld := ⟨R.GLB_MBX_D2H, 0, 32⟩
def XBR_CTRL_PARK_MODE : Fld := ⟨R.XBR_CTRL, 0, 1⟩
def XBR_CTRL_AGE_LIMIT : Fld := ⟨R.XBR_CTRL, 1, 16⟩
def XBR_QOS_SW_HOST : Fld := ⟨R.XBR_QOS_SW, 0, 4⟩
def XBR_QOS_SW_DEBUG : Fld := ⟨R.XBR_QOS_SW, 4, 4⟩
def XBR_QOS_SW_SEQ : Fld := ⟨R.XBR_QOS_SW, 8, 4⟩
def XBR_QOS_SW_CHK : Fld := ⟨R.XBR_QOS_SW, 12, 4⟩
def XBR_QOS_SW_CPR : Fld := ⟨R.XBR_QOS_SW, 16, 4⟩
def XBR_QOS_SW_JNL : Fld := ⟨R.XBR_QOS_SW, 20, 4⟩
def XBR_PARK_MASTER : Fld := ⟨R.XBR_PARK, 0, 7⟩
def XBR_MRESET_MASTER : Fld := ⟨R.XBR_MRESET, 0, 7⟩
def XBR_MRESET_START : Fld := ⟨R.XBR_MRESET, 31, 1⟩
def XBR_MRESET_STATUS_BUSY : Fld := ⟨R.XBR_MRESET_STATUS, 0, 1⟩
def XBR_MRESET_STATUS_MASTER : Fld := ⟨R.XBR_MRESET_STATUS, 1, 7⟩
def XBR_EVENT_DECODE : Fld := ⟨R.XBR_EVENT, 0, 1⟩
def XBR_EVENT_HOST_ERR : Fld := ⟨R.XBR_EVENT, 1, 1⟩
def XBR_EVENT_MRESET_DONE : Fld := ⟨R.XBR_EVENT, 2, 1⟩
def XBR_EVENT_CNT_CLR : Fld := ⟨R.XBR_EVENT, 31, 1⟩
def XBR_EVENT_CNT_COUNTS : Fld := ⟨R.XBR_EVENT_CNT, 0, 24⟩
def XBR_ERR_LAST_ADDR : Fld := ⟨R.XBR_ERR_LAST, 0, 40⟩
def XBR_ERR_LAST_MASTER : Fld := ⟨R.XBR_ERR_LAST, 40, 7⟩
def XBR_ERR_LAST_WRITE : Fld := ⟨R.XBR_ERR_LAST, 47, 1⟩
def XBR_ERR_LAST_KIND : Fld := ⟨R.XBR_ERR_LAST, 48, 3⟩
def XBR_ERR_LAST_VALID : Fld := ⟨R.XBR_ERR_LAST, 51, 1⟩
def PRT_CTRL_DEFAULT : Fld := ⟨R.PRT_CTRL, 0, 2⟩
def PRT_CTRL_LOCK : Fld := ⟨R.PRT_CTRL, 2, 1⟩
def PRT_CTRL_INT_EN : Fld := ⟨R.PRT_CTRL, 3, 1⟩
def PRT_HOLD_REQ : Fld := ⟨R.PRT_HOLD, 0, 1⟩
def PRT_HOLD_HELD : Fld := ⟨R.PRT_HOLD, 1, 1⟩
def PRT_EVENT_VIOLATION : Fld := ⟨R.PRT_EVENT, 0, 1⟩
def PRT_EVENT_UPD_REFUSED : Fld := ⟨R.PRT_EVENT, 1, 1⟩
def PRT_EVENT_CNT_CLR : Fld := ⟨R.PRT_EVENT, 31, 1⟩
def PRT_EVENT_CNT_COUNTS : Fld := ⟨R.PRT_EVENT_CNT, 0, 16⟩
def PRT_VIOL_LAST_ADDR : Fld := ⟨R.PRT_VIOL_LAST, 0, 40⟩
def PRT_VIOL_LAST_MASTER : Fld := ⟨R.PRT_VIOL_LAST, 40, 7⟩
def PRT_VIOL_LAST_WRITE : Fld := ⟨R.PRT_VIOL_LAST, 47, 1⟩
def PRT_VIOL_LAST_USER : Fld := ⟨R.PRT_VIOL_LAST, 48, 1⟩
def PRT_VIOL_LAST_REGION : Fld := ⟨R.PRT_VIOL_LAST, 49, 4⟩
def PRT_VIOL_LAST_KIND : Fld := ⟨R.PRT_VIOL_LAST, 53, 3⟩
def PRT_VIOL_LAST_UNIT : Fld := ⟨R.PRT_VIOL_LAST, 56, 4⟩
def PRT_VIOL_LAST_VALID : Fld := ⟨R.PRT_VIOL_LAST, 63, 1⟩
def PRT_VIOL_TOTAL_TOTAL : Fld := ⟨R.PRT_VIOL_TOTAL, 0, 32⟩
def PRT_RGN_START_START : Fld := ⟨R.PRT_RGN_START, 6, 34⟩
def PRT_RGN_END_END : Fld := ⟨R.PRT_RGN_END, 6, 34⟩
def PRT_RGN_ATTR_EN : Fld := ⟨R.PRT_RGN_ATTR, 0, 1⟩
def PRT_RGN_ATTR_READ : Fld := ⟨R.PRT_RGN_ATTR, 1, 1⟩
def PRT_RGN_ATTR_WRITE : Fld := ⟨R.PRT_RGN_ATTR, 2, 1⟩
def PRT_RGN_ATTR_USER : Fld := ⟨R.PRT_RGN_ATTR, 3, 1⟩
def PRT_RGN_ATTR_DEBUG_DENY : Fld := ⟨R.PRT_RGN_ATTR, 4, 1⟩
def PRT_RGN_ATTR_LOCK : Fld := ⟨R.PRT_RGN_ATTR, 5, 1⟩
def DMC_CTRL_INIT : Fld := ⟨R.DMC_CTRL, 0, 1⟩
def DMC_CTRL_RESET : Fld := ⟨R.DMC_CTRL, 1, 1⟩
def DMC_CTRL_INIT_SP : Fld := ⟨R.DMC_CTRL, 2, 2⟩
def DMC_CTRL_ROW_BITS : Fld := ⟨R.DMC_CTRL, 4, 5⟩
def DMC_CTRL_LOCK : Fld := ⟨R.DMC_CTRL, 9, 1⟩
def DMC_ECC_EN_REGIONS : Fld := ⟨R.DMC_ECC_EN, 0, 64⟩
def DMC_FREQ_SETPOINT : Fld := ⟨R.DMC_FREQ, 0, 2⟩
def DMC_FREQ_START : Fld := ⟨R.DMC_FREQ, 31, 1⟩
def DMC_GSTATUS_SP : Fld := ⟨R.DMC_GSTATUS, 0, 2⟩
def DMC_GSTATUS_READY : Fld := ⟨R.DMC_GSTATUS, 2, 1⟩
def DMC_GSTATUS_INIT_BUSY : Fld := ⟨R.DMC_GSTATUS, 3, 1⟩
def DMC_GSTATUS_FREQ_BUSY : Fld := ⟨R.DMC_GSTATUS, 4, 1⟩
def DMC_GSTATUS_DEFERRED : Fld := ⟨R.DMC_GSTATUS, 5, 1⟩
def DMC_GSTATUS_HOLD : Fld := ⟨R.DMC_GSTATUS, 6, 1⟩
def DMC_GSTATUS_PANIC : Fld := ⟨R.DMC_GSTATUS, 7, 1⟩
def DMC_GEVENT_FLAGS : Fld := ⟨R.DMC_GEVENT, 0, 7⟩
def DMC_GEVENT_CNT_CLR : Fld := ⟨R.DMC_GEVENT, 31, 1⟩
def DMC_GEVENT_CNT_COUNTS : Fld := ⟨R.DMC_GEVENT_CNT, 0, 56⟩
def DMC_CH_STATUS_STATE : Fld := ⟨R.DMC_CH_STATUS, 0, 2⟩
def DMC_CH_STATUS_MARGIN_OK : Fld := ⟨R.DMC_CH_STATUS, 2, 1⟩
def DMC_CH_STATUS_MARGIN : Fld := ⟨R.DMC_CH_STATUS, 3, 8⟩
def DMC_CH_STATUS_REFRESH : Fld := ⟨R.DMC_CH_STATUS, 11, 3⟩
def DMC_CH_STATUS_POSTPONED : Fld := ⟨R.DMC_CH_STATUS, 14, 4⟩
def DMC_CH_THRESH_CE_THRESH : Fld := ⟨R.DMC_CH_THRESH, 0, 16⟩
def DMC_CH_THRESH_MARGIN_MIN : Fld := ⟨R.DMC_CH_THRESH, 16, 8⟩
def DMC_CH_EVENT_FLAGS : Fld := ⟨R.DMC_CH_EVENT, 0, 5⟩
def DMC_CH_EVENT_CNT_CLR : Fld := ⟨R.DMC_CH_EVENT, 31, 1⟩
def DMC_CH_EVENT_CNT_COUNTS : Fld := ⟨R.DMC_CH_EVENT_CNT, 0, 40⟩
def DMC_CH_CE_WINDOW_COUNT : Fld := ⟨R.DMC_CH_CE_WINDOW, 0, 16⟩
def DMC_CH_CE_TOTAL_TOTAL : Fld := ⟨R.DMC_CH_CE_TOTAL, 0, 32⟩
def DMC_CH_ECC_LAST_ADDR : Fld := ⟨R.DMC_CH_ECC_LAST, 0, 40⟩
def DMC_CH_ECC_LAST_UNCORR : Fld := ⟨R.DMC_CH_ECC_LAST, 40, 1⟩
def DMC_CH_ECC_LAST_LINK : Fld := ⟨R.DMC_CH_ECC_LAST, 41, 1⟩
def DMC_CH_ECC_LAST_VALID : Fld := ⟨R.DMC_CH_ECC_LAST, 63, 1⟩
def PWR_CTRL_WARM : Fld := ⟨R.PWR_CTRL, 0, 1⟩
def PWR_CTRL_HOTRST_EN : Fld := ⟨R.PWR_CTRL, 1, 1⟩
def PWR_STATUS_BOOT_STATE : Fld := ⟨R.PWR_STATUS, 0, 3⟩
def PWR_STATUS_RESET_KIND : Fld := ⟨R.PWR_STATUS, 3, 2⟩
def PWR_STATUS_RETAINED : Fld := ⟨R.PWR_STATUS, 5, 1⟩
def PWR_STATUS_FALLBACK : Fld := ⟨R.PWR_STATUS, 6, 1⟩
def PWR_STATUS_WAKE_CAUSE : Fld := ⟨R.PWR_STATUS, 7, 4⟩
def PWR_STATUS_BOOT_SRC : Fld := ⟨R.PWR_STATUS, 11, 1⟩
def PWR_STATUS_STILL_CODE : Fld := ⟨R.PWR_STATUS, 12, 3⟩
def PWR_STILL_CMD_ENTER : Fld := ⟨R.PWR_STILL_CMD, 0, 1⟩
def PWR_EVENT_FLAGS : Fld := ⟨R.PWR_EVENT, 0, 6⟩
def PWR_EVENT_CNT_CLR : Fld := ⟨R.PWR_EVENT, 31, 1⟩
def PWR_EVENT_CNT_COUNTS : Fld := ⟨R.PWR_EVENT_CNT, 0, 48⟩
def PWR_BOOT_ADDR_ADDR : Fld := ⟨R.PWR_BOOT_ADDR, 0, 40⟩
def PWR_BOOT_GO_GO : Fld := ⟨R.PWR_BOOT_GO, 0, 1⟩
def PWR_BOOT_STATUS_CODE : Fld := ⟨R.PWR_BOOT_STATUS, 0, 4⟩
def PWR_BOOT_STATUS_RECORD : Fld := ⟨R.PWR_BOOT_STATUS, 4, 12⟩
def PWR_BOOT_STATUS_FIELD : Fld := ⟨R.PWR_BOOT_STATUS, 16, 8⟩
def PWR_WAKE_CFG_PIN_EN : Fld := ⟨R.PWR_WAKE_CFG, 0, 1⟩
def PWR_WAKE_CFG_RTC_EN : Fld := ⟨R.PWR_WAKE_CFG, 1, 1⟩
def PWR_RTC_SEC_SEC : Fld := ⟨R.PWR_RTC_SEC, 0, 48⟩
def PWR_RTC_SEC_FRAC : Fld := ⟨R.PWR_RTC_SEC, 48, 15⟩
def PWR_RTC_ALARM_ALARM : Fld := ⟨R.PWR_RTC_ALARM, 0, 48⟩
def PWR_OTP_CMD_SLOT : Fld := ⟨R.PWR_OTP_CMD, 0, 2⟩
def PWR_OTP_CMD_PROGRAM : Fld := ⟨R.PWR_OTP_CMD, 2, 1⟩
def PWR_OTP_CMD_REVOKE : Fld := ⟨R.PWR_OTP_CMD, 3, 1⟩
def PWR_OTP_STATE_SLOTS : Fld := ⟨R.PWR_OTP_STATE, 0, 8⟩
def PWR_OTP_STATE_BUSY : Fld := ⟨R.PWR_OTP_STATE, 8, 1⟩
def PWR_OTP_DATA_DATA : Fld := ⟨R.PWR_OTP_DATA, 0, 32⟩
def BST_CMD_LBIST : Fld := ⟨R.BST_CMD, 0, 1⟩
def BST_CMD_MBIST : Fld := ⟨R.BST_CMD, 1, 1⟩
def BST_STATUS_LB_DONE : Fld := ⟨R.BST_STATUS, 0, 1⟩
def BST_STATUS_LB_PASS : Fld := ⟨R.BST_STATUS, 1, 1⟩
def BST_STATUS_MB_DONE : Fld := ⟨R.BST_STATUS, 2, 1⟩
def BST_STATUS_MB_PASS : Fld := ⟨R.BST_STATUS, 3, 1⟩
def BST_STATUS_CODE : Fld := ⟨R.BST_STATUS, 4, 2⟩
def BST_LB_SIG_MISR : Fld := ⟨R.BST_LB_SIG, 0, 64⟩
def BST_MB_SIG_SIG : Fld := ⟨R.BST_MB_SIG, 0, 64⟩
def BST_MB_MAP_MAP : Fld := ⟨R.BST_MB_MAP, 0, 12⟩
def BST_EVENT_REFUSED : Fld := ⟨R.BST_EVENT, 0, 1⟩
def BST_EVENT_CNT_CLR : Fld := ⟨R.BST_EVENT, 31, 1⟩
def BST_EVENT_CNT_REFUSED_CNT : Fld := ⟨R.BST_EVENT_CNT, 0, 8⟩

end F

/-- A W1C flag, the 8-bit event count beside it (R22) and the MSI-X vector it raises (R658): `vec` for `div` 0, `vec + i` for
`div` 1 and `vec + i ÷ 4` for `div` 4. -/
structure Flag where
  fld : Fld
  cnt : Fld
  vec : Nat
  div : Nat
  deriving DecidableEq, Repr

namespace K

def PWR_CLK_EVENT_ISLAND_LOST : Flag := ⟨⟨R.PWR_CLK_EVENT, 0, 1⟩, ⟨R.PWR_CLK_EVENT, 8, 8⟩, 0, 0⟩
def PWR_CLK_EVENT_GALLERY_LOST : Flag := ⟨⟨R.PWR_CLK_EVENT, 1, 1⟩, ⟨R.PWR_CLK_EVENT, 16, 8⟩, 0, 0⟩
def SEAL_EVENT_TILE_MISMATCH : Flag := ⟨⟨R.SEAL_EVENT, 0, 1⟩, ⟨R.SEAL_EVENT, 8, 8⟩, 5, 0⟩
def SEAL_EVENT_HEADER_BAD : Flag := ⟨⟨R.SEAL_EVENT, 1, 1⟩, ⟨R.SEAL_EVENT, 16, 8⟩, 5, 0⟩
def SEAL_EVENT_PERSIST : Flag := ⟨⟨R.SEAL_EVENT, 2, 1⟩, ⟨R.SEAL_EVENT, 24, 8⟩, 5, 0⟩
def CHK_STATUS_DONE : Flag := ⟨⟨R.CHK_STATUS, 1, 1⟩, ⟨R.CHK_COUNT, 0, 8⟩, 96, 1⟩
def CHK_STATUS_MISMATCH : Flag := ⟨⟨R.CHK_STATUS, 2, 1⟩, ⟨R.CHK_COUNT, 8, 8⟩, 96, 1⟩
def CHK_STATUS_REFUSED : Flag := ⟨⟨R.CHK_STATUS, 3, 1⟩, ⟨R.CHK_COUNT, 16, 8⟩, 96, 1⟩
def CHK_STATUS_PROT_ERR : Flag := ⟨⟨R.CHK_STATUS, 4, 1⟩, ⟨R.CHK_COUNT, 24, 8⟩, 96, 1⟩
def PTP_EVENT_GM_CHANGE : Flag := ⟨⟨R.PTP_EVENT, 0, 1⟩, ⟨R.PTP_EVENT_CNT, 0, 8⟩, 7, 0⟩
def PTP_EVENT_STEP_REFUSED : Flag := ⟨⟨R.PTP_EVENT, 1, 1⟩, ⟨R.PTP_EVENT_CNT, 8, 8⟩, 7, 0⟩
def PTP_EVENT_HOLDOVER : Flag := ⟨⟨R.PTP_EVENT, 2, 1⟩, ⟨R.PTP_EVENT_CNT, 16, 8⟩, 7, 0⟩
def PTP_EVENT_LOCK_LOST : Flag := ⟨⟨R.PTP_EVENT, 3, 1⟩, ⟨R.PTP_EVENT_CNT, 24, 8⟩, 7, 0⟩
def PTP_EVENT_MAP_REJECT : Flag := ⟨⟨R.PTP_EVENT, 4, 1⟩, ⟨R.PTP_EVENT_CNT, 32, 8⟩, 7, 0⟩
def NET_MAC_EVENT_LINK_DOWN : Flag := ⟨⟨R.NET_MAC_EVENT, 0, 1⟩, ⟨R.NET_MAC_EVENT_CNT, 0, 8⟩, 48, 1⟩
def NET_MAC_EVENT_RX_BAD : Flag := ⟨⟨R.NET_MAC_EVENT, 1, 1⟩, ⟨R.NET_MAC_EVENT_CNT, 8, 8⟩, 48, 1⟩
def NET_MAC_EVENT_HOSTQ_FULL : Flag := ⟨⟨R.NET_MAC_EVENT, 2, 1⟩, ⟨R.NET_MAC_EVENT_CNT, 16, 8⟩, 48, 1⟩
def NET_FLOW_STATUS_DONE : Flag := ⟨⟨R.NET_FLOW_STATUS, 1, 1⟩, ⟨R.NET_FLOW_CNT, 0, 8⟩, 64, 0⟩
def NET_FLOW_STATUS_REFUSED : Flag := ⟨⟨R.NET_FLOW_STATUS, 2, 1⟩, ⟨R.NET_FLOW_STATUS, 22, 8⟩, 64, 0⟩
def SLU_APPLY_STATUS_DONE : Flag := ⟨⟨R.SLU_APPLY_STATUS, 1, 1⟩, ⟨R.SLU_APPLY_CNT, 0, 8⟩, 67, 0⟩
def SLU_APPLY_STATUS_REFUSED : Flag := ⟨⟨R.SLU_APPLY_STATUS, 2, 1⟩, ⟨R.SLU_APPLY_CNT, 8, 8⟩, 67, 0⟩
def SLU_CTX_EVENT_SHORT : Flag := ⟨⟨R.SLU_CTX_EVENT, 0, 1⟩, ⟨R.SLU_CTX_EVENT_CNT, 0, 8⟩, 192, 1⟩
def SLU_CTX_EVENT_LONG : Flag := ⟨⟨R.SLU_CTX_EVENT, 1, 1⟩, ⟨R.SLU_CTX_EVENT_CNT, 8, 8⟩, 192, 1⟩
def SLU_CTX_EVENT_WDOG : Flag := ⟨⟨R.SLU_CTX_EVENT, 2, 1⟩, ⟨R.SLU_CTX_EVENT_CNT, 16, 8⟩, 192, 1⟩
def SLU_CTX_EVENT_MISS : Flag := ⟨⟨R.SLU_CTX_EVENT, 3, 1⟩, ⟨R.SLU_CTX_EVENT_CNT, 24, 8⟩, 192, 1⟩
def SLU_CTX_EVENT_PARENT_BAD : Flag := ⟨⟨R.SLU_CTX_EVENT, 4, 1⟩, ⟨R.SLU_CTX_EVENT_CNT, 32, 8⟩, 192, 1⟩
def SLU_CTX_EVENT_NO_BUF : Flag := ⟨⟨R.SLU_CTX_EVENT, 5, 1⟩, ⟨R.SLU_CTX_EVENT_CNT, 40, 8⟩, 192, 1⟩
def SLU_CTX_EVENT_FMT : Flag := ⟨⟨R.SLU_CTX_EVENT, 6, 1⟩, ⟨R.SLU_CTX_EVENT_CNT, 48, 8⟩, 192, 1⟩
def SLU_CTX_EVENT_SKIP : Flag := ⟨⟨R.SLU_CTX_EVENT, 7, 1⟩, ⟨R.SLU_CTX_EVENT_CNT, 56, 8⟩, 192, 1⟩
def VDC_STATUS_DONE : Flag := ⟨⟨R.VDC_STATUS, 1, 1⟩, ⟨R.VDC_STATUS_CNT, 0, 8⟩, 65, 0⟩
def VDC_STATUS_REFUSED : Flag := ⟨⟨R.VDC_STATUS, 2, 1⟩, ⟨R.VDC_STATUS_CNT, 8, 8⟩, 65, 0⟩
def VDC_STR_EVENT_CONCEAL : Flag := ⟨⟨R.VDC_STR_EVENT, 0, 1⟩, ⟨R.VDC_STR_EVENT_CNT, 0, 8⟩, 256, 1⟩
def VDC_STR_EVENT_REF_MISSING : Flag := ⟨⟨R.VDC_STR_EVENT, 1, 1⟩, ⟨R.VDC_STR_EVENT_CNT, 8, 8⟩, 256, 1⟩
def VDC_STR_EVENT_SYNTAX : Flag := ⟨⟨R.VDC_STR_EVENT, 2, 1⟩, ⟨R.VDC_STR_EVENT_CNT, 16, 8⟩, 256, 1⟩
def VDC_STR_EVENT_OVERRUN : Flag := ⟨⟨R.VDC_STR_EVENT, 3, 1⟩, ⟨R.VDC_STR_EVENT_CNT, 24, 8⟩, 256, 1⟩
def VDC_STR_EVENT_NO_BUF : Flag := ⟨⟨R.VDC_STR_EVENT, 4, 1⟩, ⟨R.VDC_STR_EVENT_CNT, 32, 8⟩, 256, 1⟩
def VDC_STR_EVENT_UNSUP : Flag := ⟨⟨R.VDC_STR_EVENT, 5, 1⟩, ⟨R.VDC_STR_EVENT_CNT, 40, 8⟩, 256, 1⟩
def VDC_STR_EVENT_BIND : Flag := ⟨⟨R.VDC_STR_EVENT, 6, 1⟩, ⟨R.VDC_STR_EVENT_CNT, 48, 8⟩, 256, 1⟩
def VDC_STR_EVENT_DISCARD : Flag := ⟨⟨R.VDC_STR_EVENT, 7, 1⟩, ⟨R.VDC_STR_EVENT_CNT, 56, 8⟩, 256, 1⟩
def VEN_STATUS_DONE : Flag := ⟨⟨R.VEN_STATUS, 1, 1⟩, ⟨R.VEN_STATUS_CNT, 0, 8⟩, 66, 0⟩
def VEN_STATUS_REFUSED : Flag := ⟨⟨R.VEN_STATUS, 2, 1⟩, ⟨R.VEN_STATUS_CNT, 8, 8⟩, 66, 0⟩
def VEN_SES_EVENT_FLOOR : Flag := ⟨⟨R.VEN_SES_EVENT, 0, 1⟩, ⟨R.VEN_SES_EVENT_CNT, 0, 8⟩, 160, 1⟩
def VEN_SES_EVENT_RING_FULL : Flag := ⟨⟨R.VEN_SES_EVENT, 1, 1⟩, ⟨R.VEN_SES_EVENT_CNT, 8, 8⟩, 160, 1⟩
def VEN_SES_EVENT_SKIP : Flag := ⟨⟨R.VEN_SES_EVENT, 2, 1⟩, ⟨R.VEN_SES_EVENT_CNT, 16, 8⟩, 160, 1⟩
def VEN_SES_EVENT_GAP : Flag := ⟨⟨R.VEN_SES_EVENT, 3, 1⟩, ⟨R.VEN_SES_EVENT_CNT, 24, 8⟩, 160, 1⟩
def VEN_SES_EVENT_SEAL_FAIL : Flag := ⟨⟨R.VEN_SES_EVENT, 4, 1⟩, ⟨R.VEN_SES_EVENT_CNT, 32, 8⟩, 160, 1⟩
def EAS_STATUS_DONE : Flag := ⟨⟨R.EAS_STATUS, 1, 1⟩, ⟨R.EAS_STATUS_CNT, 0, 8⟩, 8, 0⟩
def EAS_STATUS_REFUSED : Flag := ⟨⟨R.EAS_STATUS, 2, 1⟩, ⟨R.EAS_STATUS_CNT, 8, 8⟩, 8, 0⟩
def EAS_EVENT_FREE_DEFERRED : Flag := ⟨⟨R.EAS_EVENT, 0, 1⟩, ⟨R.EAS_EVENT_CNT, 0, 8⟩, 8, 0⟩
def EAS_EVENT_POOL_EMPTY : Flag := ⟨⟨R.EAS_EVENT, 1, 1⟩, ⟨R.EAS_EVENT_CNT, 8, 8⟩, 8, 0⟩
def EAS_EVENT_QUARANTINE : Flag := ⟨⟨R.EAS_EVENT, 2, 1⟩, ⟨R.EAS_EVENT_CNT, 16, 8⟩, 8, 0⟩
def EAS_GAL_EVENT_COMMITTED : Flag := ⟨⟨R.EAS_GAL_EVENT, 0, 1⟩, ⟨R.EAS_GAL_EVENT_CNT, 0, 8⟩, 72, 1⟩
def EAS_GAL_EVENT_LATE : Flag := ⟨⟨R.EAS_GAL_EVENT, 1, 1⟩, ⟨R.EAS_GAL_EVENT_CNT, 8, 8⟩, 72, 1⟩
def EAS_GAL_EVENT_UNLOCKED : Flag := ⟨⟨R.EAS_GAL_EVENT, 2, 1⟩, ⟨R.EAS_GAL_EVENT_CNT, 16, 8⟩, 72, 1⟩
def EAS_GAL_EVENT_CANCELLED : Flag := ⟨⟨R.EAS_GAL_EVENT, 3, 1⟩, ⟨R.EAS_GAL_EVENT_CNT, 24, 8⟩, 72, 1⟩
def EAS_GAL_EVENT_SNAP_DONE : Flag := ⟨⟨R.EAS_GAL_EVENT, 4, 1⟩, ⟨R.EAS_GAL_EVENT_CNT, 32, 8⟩, 72, 1⟩
def CMP_CNV_EVENT_OVERLAP : Flag := ⟨⟨R.CMP_CNV_EVENT, 0, 1⟩, ⟨R.CMP_CNV_EVENT_CNT, 0, 8⟩, 128, 1⟩
def CMP_CNV_EVENT_CROP_OUT : Flag := ⟨⟨R.CMP_CNV_EVENT, 1, 1⟩, ⟨R.CMP_CNV_EVENT_CNT, 8, 8⟩, 128, 1⟩
def CMP_CNV_EVENT_FLAT_DONE : Flag := ⟨⟨R.CMP_CNV_EVENT, 2, 1⟩, ⟨R.CMP_CNV_EVENT_CNT, 16, 8⟩, 128, 1⟩
def CMP_CNV_EVENT_FLAT_FAIL : Flag := ⟨⟨R.CMP_CNV_EVENT, 3, 1⟩, ⟨R.CMP_CNV_EVENT_CNT, 24, 8⟩, 128, 1⟩
def CMP_CNV_EVENT_SPILL : Flag := ⟨⟨R.CMP_CNV_EVENT, 4, 1⟩, ⟨R.CMP_CNV_EVENT_CNT, 32, 8⟩, 128, 1⟩
def CMP_CNV_EVENT_WB_NO_BUF : Flag := ⟨⟨R.CMP_CNV_EVENT, 5, 1⟩, ⟨R.CMP_CNV_EVENT_CNT, 40, 8⟩, 128, 1⟩
def CMP_CNV_EVENT_ENG_REFUSED : Flag := ⟨⟨R.CMP_CNV_EVENT, 6, 1⟩, ⟨R.CMP_CNV_EVENT_CNT, 48, 8⟩, 128, 1⟩
def CNV_GAL_EVENT_PACE_TIMEOUT : Flag := ⟨⟨R.CNV_GAL_EVENT, 0, 1⟩, ⟨R.CNV_GAL_EVENT_CNT, 0, 8⟩, 72, 1⟩
def CNV_GAL_EVENT_ALIGN_SLIP : Flag := ⟨⟨R.CNV_GAL_EVENT, 1, 1⟩, ⟨R.CNV_GAL_EVENT_CNT, 8, 8⟩, 72, 1⟩
def CNV_GAL_EVENT_CFG_REFUSED : Flag := ⟨⟨R.CNV_GAL_EVENT, 2, 1⟩, ⟨R.CNV_GAL_EVENT_CNT, 16, 8⟩, 72, 1⟩
def CNV_EVENT_WEIR_LOW : Flag := ⟨⟨R.CNV_EVENT, 0, 1⟩, ⟨R.CNV_EVENT_CNT, 0, 8⟩, 128, 1⟩
def CNV_EVENT_WEIR_PANIC : Flag := ⟨⟨R.CNV_EVENT, 1, 1⟩, ⟨R.CNV_EVENT_CNT, 8, 8⟩, 128, 1⟩
def CNV_EVENT_UNDERRUN : Flag := ⟨⟨R.CNV_EVENT, 2, 1⟩, ⟨R.CNV_EVENT_CNT, 16, 8⟩, 128, 1⟩
def CNV_EVENT_EMPTY : Flag := ⟨⟨R.CNV_EVENT, 3, 1⟩, ⟨R.CNV_EVENT_CNT, 24, 8⟩, 128, 1⟩
def CNV_EVENT_GESSO_ON : Flag := ⟨⟨R.CNV_EVENT, 4, 1⟩, ⟨R.CNV_EVENT_CNT, 32, 8⟩, 128, 1⟩
def LDG_EVENT_SUBST : Flag := ⟨⟨R.LDG_EVENT, 0, 1⟩, ⟨R.LDG_EVENT_CNT, 0, 8⟩, 4, 0⟩
def LDG_EVENT_RESTORED : Flag := ⟨⟨R.LDG_EVENT, 1, 1⟩, ⟨R.LDG_EVENT_CNT, 8, 8⟩, 4, 0⟩
def LDG_EVENT_FUTURE : Flag := ⟨⟨R.LDG_EVENT, 2, 1⟩, ⟨R.LDG_EVENT_CNT, 16, 8⟩, 4, 0⟩
def LDG_EVENT_GLASS_TILE : Flag := ⟨⟨R.LDG_EVENT, 3, 1⟩, ⟨R.LDG_EVENT_CNT, 24, 8⟩, 4, 0⟩
def LDG_EVENT_GLASS_CANVAS : Flag := ⟨⟨R.LDG_EVENT, 4, 1⟩, ⟨R.LDG_EVENT_CNT, 32, 8⟩, 4, 0⟩
def LDG_EVENT_PROOF_DONE : Flag := ⟨⟨R.LDG_EVENT, 5, 1⟩, ⟨R.LDG_EVENT_CNT, 40, 8⟩, 4, 0⟩
def LDG_EVENT_PROOF_FAIL : Flag := ⟨⟨R.LDG_EVENT, 6, 1⟩, ⟨R.LDG_EVENT_CNT, 40, 8⟩, 4, 0⟩
def LDG_EVENT_PROOF_REFUSED : Flag := ⟨⟨R.LDG_EVENT, 7, 1⟩, ⟨R.LDG_EVENT_CNT, 48, 8⟩, 4, 0⟩
def LDG_EVENT_SET_REFUSED : Flag := ⟨⟨R.LDG_EVENT, 8, 1⟩, ⟨R.LDG_EVENT_CNT, 56, 8⟩, 4, 0⟩
def TND_EVENT_TAKEOVER : Flag := ⟨⟨R.TND_EVENT, 0, 1⟩, ⟨R.TND_EVENT_CNT, 0, 8⟩, 6, 0⟩
def TND_EVENT_YIELDED : Flag := ⟨⟨R.TND_EVENT, 1, 1⟩, ⟨R.TND_EVENT_CNT, 0, 8⟩, 6, 0⟩
def TND_EVENT_TWIN_LOST : Flag := ⟨⟨R.TND_EVENT, 2, 1⟩, ⟨R.TND_EVENT_CNT, 8, 8⟩, 6, 0⟩
def TND_EVENT_SUSPECT : Flag := ⟨⟨R.TND_EVENT, 3, 1⟩, ⟨R.TND_EVENT_CNT, 16, 8⟩, 6, 0⟩
def TND_EVENT_EPOCH_SPLIT : Flag := ⟨⟨R.TND_EVENT, 4, 1⟩, ⟨R.TND_EVENT_CNT, 24, 8⟩, 6, 0⟩
def TND_EVENT_TWIN_LATE : Flag := ⟨⟨R.TND_EVENT, 5, 1⟩, ⟨R.TND_EVENT_CNT, 32, 8⟩, 6, 0⟩
def TND_EVENT_MIRROR_FAIL : Flag := ⟨⟨R.TND_EVENT, 6, 1⟩, ⟨R.TND_EVENT_CNT, 40, 8⟩, 6, 0⟩
def TND_EVENT_RESYNC_DONE : Flag := ⟨⟨R.TND_EVENT, 7, 1⟩, ⟨R.TND_EVENT_CNT, 48, 8⟩, 6, 0⟩
def TND_EVENT_CMD_REFUSED : Flag := ⟨⟨R.TND_EVENT, 8, 1⟩, ⟨R.TND_EVENT_CNT, 56, 8⟩, 6, 0⟩
def SEQ_EVENT_FAULT : Flag := ⟨⟨R.SEQ_EVENT, 0, 1⟩, ⟨R.SEQ_EVENT_CNT, 0, 8⟩, 112, 1⟩
def SEQ_EVENT_REFUSED : Flag := ⟨⟨R.SEQ_EVENT, 1, 1⟩, ⟨R.SEQ_EVENT_CNT, 8, 8⟩, 112, 1⟩
def SEQ_EVENT_HALTED : Flag := ⟨⟨R.SEQ_EVENT, 2, 1⟩, ⟨R.SEQ_EVENT_CNT, 16, 8⟩, 112, 1⟩
def SEQ_EVENT_EV_OVERFLOW : Flag := ⟨⟨R.SEQ_EVENT, 3, 1⟩, ⟨R.SEQ_EVENT_CNT, 24, 8⟩, 112, 1⟩
def SEQ_EVENT_IMEM_WR : Flag := ⟨⟨R.SEQ_EVENT, 4, 1⟩, ⟨R.SEQ_EVENT_CNT, 32, 8⟩, 112, 1⟩
def TCH_EVENT_ABSORBED : Flag := ⟨⟨R.TCH_EVENT, 0, 1⟩, ⟨R.TCH_EVENT_CNT, 0, 8⟩, 80, 1⟩
def TCH_EVENT_REBASE_NEG : Flag := ⟨⟨R.TCH_EVENT, 1, 1⟩, ⟨R.TCH_EVENT_CNT, 8, 8⟩, 80, 1⟩
def TCH_EVENT_OVER : Flag := ⟨⟨R.TCH_EVENT, 2, 1⟩, ⟨R.TCH_EVENT_CNT, 16, 8⟩, 80, 1⟩
def TCH_EVENT_TEST_DONE : Flag := ⟨⟨R.TCH_EVENT, 3, 1⟩, ⟨R.TCH_EVENT_CNT, 24, 8⟩, 80, 1⟩
def TCH_EVENT_TEST_FAIL : Flag := ⟨⟨R.TCH_EVENT, 4, 1⟩, ⟨R.TCH_EVENT_CNT, 32, 8⟩, 80, 1⟩
def TCH_EVENT_CFG_REFUSED : Flag := ⟨⟨R.TCH_EVENT, 5, 1⟩, ⟨R.TCH_EVENT_CNT, 40, 8⟩, 80, 1⟩
def CPR_EVENT_JOB_DONE : Flag := ⟨⟨R.CPR_EVENT, 0, 1⟩, ⟨R.CPR_EVENT_CNT, 0, 8⟩, 68, 1⟩
def CPR_EVENT_JOB_ERR : Flag := ⟨⟨R.CPR_EVENT, 1, 1⟩, ⟨R.CPR_EVENT_CNT, 8, 8⟩, 68, 1⟩
def JNL_EVENT_OVERWRITE : Flag := ⟨⟨R.JNL_EVENT, 0, 1⟩, ⟨R.JNL_EVENT_CNT, 0, 8⟩, 70, 0⟩
def JNL_EVENT_STAGE_LOST : Flag := ⟨⟨R.JNL_EVENT, 1, 1⟩, ⟨R.JNL_EVENT_CNT, 8, 8⟩, 70, 0⟩
def JNL_EVENT_QUEUE_LOST : Flag := ⟨⟨R.JNL_EVENT, 2, 1⟩, ⟨R.JNL_EVENT_CNT, 16, 8⟩, 70, 0⟩
def JNL_EVENT_EVID_DONE : Flag := ⟨⟨R.JNL_EVENT, 3, 1⟩, ⟨R.JNL_EVENT_CNT, 24, 8⟩, 70, 0⟩
def JNL_EVENT_EVID_REFUSED : Flag := ⟨⟨R.JNL_EVENT, 4, 1⟩, ⟨R.JNL_EVENT_CNT, 32, 8⟩, 70, 0⟩
def LANE_QUAD_COMMIT_REFUSED : Flag := ⟨⟨R.LANE_QUAD_COMMIT, 10, 1⟩, ⟨R.LANE_QUAD_COMMIT, 11, 8⟩, 31, 0⟩
def LANE_Q_EVENT_LINK_LOSS : Flag := ⟨⟨R.LANE_Q_EVENT, 0, 1⟩, ⟨R.LANE_Q_EVENT_CNT, 0, 8⟩, 32, 1⟩
def LANE_Q_EVENT_TRAIN_FAIL : Flag := ⟨⟨R.LANE_Q_EVENT, 1, 1⟩, ⟨R.LANE_Q_EVENT_CNT, 8, 8⟩, 32, 1⟩
def LANE_Q_EVENT_IRQ_HPD : Flag := ⟨⟨R.LANE_Q_EVENT, 2, 1⟩, ⟨R.LANE_Q_EVENT_CNT, 16, 8⟩, 32, 1⟩
def LANE_Q_EVENT_AUX_DONE : Flag := ⟨⟨R.LANE_Q_EVENT, 3, 1⟩, ⟨R.LANE_Q_EVENT_CNT, 24, 8⟩, 32, 1⟩
def LANE_Q_EVENT_AUX_ERR : Flag := ⟨⟨R.LANE_Q_EVENT, 4, 1⟩, ⟨R.LANE_Q_EVENT_CNT, 32, 8⟩, 32, 1⟩
def LANE_Q_EVENT_CFG_REFUSED : Flag := ⟨⟨R.LANE_Q_EVENT, 5, 1⟩, ⟨R.LANE_Q_EVENT_CNT, 40, 8⟩, 32, 1⟩
def LANE_EVENT_LOCK_LOST : Flag := ⟨⟨R.LANE_EVENT, 0, 1⟩, ⟨R.LANE_EVENT_CNT, 0, 8⟩, 32, 4⟩
def LANE_EVENT_CFG_REFUSED : Flag := ⟨⟨R.LANE_EVENT, 1, 1⟩, ⟨R.LANE_EVENT_CNT, 8, 8⟩, 32, 4⟩
def LNK_EVENT_LINK_UP : Flag := ⟨⟨R.LNK_EVENT, 0, 1⟩, ⟨R.LNK_EVENT_CNT, 0, 8⟩, 86, 1⟩
def LNK_EVENT_LINK_DOWN : Flag := ⟨⟨R.LNK_EVENT, 1, 1⟩, ⟨R.LNK_EVENT_CNT, 8, 8⟩, 86, 1⟩
def LNK_EVENT_BRINGUP_FAIL : Flag := ⟨⟨R.LNK_EVENT, 2, 1⟩, ⟨R.LNK_EVENT_CNT, 16, 8⟩, 86, 1⟩
def LNK_EVENT_WIDTH_CHANGE : Flag := ⟨⟨R.LNK_EVENT, 3, 1⟩, ⟨R.LNK_EVENT_CNT, 24, 8⟩, 86, 1⟩
def LNK_EVENT_PKT_BAD : Flag := ⟨⟨R.LNK_EVENT, 4, 1⟩, ⟨R.LNK_EVENT_CNT, 32, 8⟩, 86, 1⟩
def LNK_EVENT_RX_DROP : Flag := ⟨⟨R.LNK_EVENT, 5, 1⟩, ⟨R.LNK_EVENT_CNT, 40, 8⟩, 86, 1⟩
def LNK_EVENT_FEATURE_OFF : Flag := ⟨⟨R.LNK_EVENT, 6, 1⟩, ⟨R.LNK_EVENT_CNT, 48, 8⟩, 86, 1⟩
def LNK_EVENT_CFG_REFUSED : Flag := ⟨⟨R.LNK_EVENT, 7, 1⟩, ⟨R.LNK_EVENT_CNT, 56, 8⟩, 86, 1⟩
def GLB_MBX_STATE_ATT_REFUSED : Flag := ⟨⟨R.GLB_MBX_STATE, 1, 1⟩, ⟨R.GLB_MBX_STATE, 16, 8⟩, 3, 0⟩
def XBR_EVENT_DECODE : Flag := ⟨⟨R.XBR_EVENT, 0, 1⟩, ⟨R.XBR_EVENT_CNT, 0, 8⟩, 1, 0⟩
def XBR_EVENT_HOST_ERR : Flag := ⟨⟨R.XBR_EVENT, 1, 1⟩, ⟨R.XBR_EVENT_CNT, 8, 8⟩, 1, 0⟩
def XBR_EVENT_MRESET_DONE : Flag := ⟨⟨R.XBR_EVENT, 2, 1⟩, ⟨R.XBR_EVENT_CNT, 16, 8⟩, 1, 0⟩
def PRT_EVENT_VIOLATION : Flag := ⟨⟨R.PRT_EVENT, 0, 1⟩, ⟨R.PRT_EVENT_CNT, 0, 8⟩, 18, 1⟩
def PRT_EVENT_UPD_REFUSED : Flag := ⟨⟨R.PRT_EVENT, 1, 1⟩, ⟨R.PRT_EVENT_CNT, 8, 8⟩, 18, 1⟩
def DMC_GEVENT_INIT_DONE : Flag := ⟨⟨R.DMC_GEVENT, 0, 1⟩, ⟨R.DMC_GEVENT_CNT, 0, 8⟩, 9, 0⟩
def DMC_GEVENT_INIT_FAIL : Flag := ⟨⟨R.DMC_GEVENT, 1, 1⟩, ⟨R.DMC_GEVENT_CNT, 8, 8⟩, 9, 0⟩
def DMC_GEVENT_FREQ_DONE : Flag := ⟨⟨R.DMC_GEVENT, 2, 1⟩, ⟨R.DMC_GEVENT_CNT, 16, 8⟩, 9, 0⟩
def DMC_GEVENT_FREQ_DEFERRED : Flag := ⟨⟨R.DMC_GEVENT, 3, 1⟩, ⟨R.DMC_GEVENT_CNT, 24, 8⟩, 9, 0⟩
def DMC_GEVENT_FREQ_REFUSED : Flag := ⟨⟨R.DMC_GEVENT, 4, 1⟩, ⟨R.DMC_GEVENT_CNT, 32, 8⟩, 9, 0⟩
def DMC_GEVENT_HOLD_ON : Flag := ⟨⟨R.DMC_GEVENT, 5, 1⟩, ⟨R.DMC_GEVENT_CNT, 40, 8⟩, 9, 0⟩
def DMC_GEVENT_PANIC_ON : Flag := ⟨⟨R.DMC_GEVENT, 6, 1⟩, ⟨R.DMC_GEVENT_CNT, 48, 8⟩, 9, 0⟩
def DMC_CH_EVENT_MARGIN_LOST : Flag := ⟨⟨R.DMC_CH_EVENT, 0, 1⟩, ⟨R.DMC_CH_EVENT_CNT, 0, 8⟩, 10, 1⟩
def DMC_CH_EVENT_CH_FAULT : Flag := ⟨⟨R.DMC_CH_EVENT, 1, 1⟩, ⟨R.DMC_CH_EVENT_CNT, 8, 8⟩, 10, 1⟩
def DMC_CH_EVENT_CE : Flag := ⟨⟨R.DMC_CH_EVENT, 2, 1⟩, ⟨R.DMC_CH_EVENT_CNT, 16, 8⟩, 10, 1⟩
def DMC_CH_EVENT_UE : Flag := ⟨⟨R.DMC_CH_EVENT, 3, 1⟩, ⟨R.DMC_CH_EVENT_CNT, 24, 8⟩, 10, 1⟩
def DMC_CH_EVENT_TRAIN_FAIL : Flag := ⟨⟨R.DMC_CH_EVENT, 4, 1⟩, ⟨R.DMC_CH_EVENT_CNT, 32, 8⟩, 10, 1⟩
def PWR_EVENT_BOOT_DONE : Flag := ⟨⟨R.PWR_EVENT, 0, 1⟩, ⟨R.PWR_EVENT_CNT, 0, 8⟩, 0, 0⟩
def PWR_EVENT_BOOT_FAIL : Flag := ⟨⟨R.PWR_EVENT, 1, 1⟩, ⟨R.PWR_EVENT_CNT, 8, 8⟩, 0, 0⟩
def PWR_EVENT_STILL_REFUSED : Flag := ⟨⟨R.PWR_EVENT, 2, 1⟩, ⟨R.PWR_EVENT_CNT, 16, 8⟩, 0, 0⟩
def PWR_EVENT_STILL_ABORT : Flag := ⟨⟨R.PWR_EVENT, 3, 1⟩, ⟨R.PWR_EVENT_CNT, 24, 8⟩, 0, 0⟩
def PWR_EVENT_OTP_DONE : Flag := ⟨⟨R.PWR_EVENT, 4, 1⟩, ⟨R.PWR_EVENT_CNT, 32, 8⟩, 0, 0⟩
def PWR_EVENT_OTP_REFUSED : Flag := ⟨⟨R.PWR_EVENT, 5, 1⟩, ⟨R.PWR_EVENT_CNT, 40, 8⟩, 0, 0⟩
def BST_EVENT_REFUSED : Flag := ⟨⟨R.BST_EVENT, 0, 1⟩, ⟨R.BST_EVENT_CNT, 0, 8⟩, 2, 0⟩

end K

/-- The registers with a CNT_CLR bit (bit 31) and the event counts it clears (R22, R654), each as a register and its low bit. -/
def cntClr : List (Reg × List (Reg × Nat)) := [
  (R.PWR_CLK_EVENT, [(R.PWR_CLK_EVENT, 8), (R.PWR_CLK_EVENT, 16)]),
  (R.SEAL_CTRL, [(R.SEAL_EVENT, 8), (R.SEAL_EVENT, 16), (R.SEAL_EVENT, 24)]),
  (R.CHK_STATUS, [(R.CHK_COUNT, 0), (R.CHK_COUNT, 8), (R.CHK_COUNT, 16), (R.CHK_COUNT, 24)]),
  (R.PTP_EVENT, [(R.PTP_EVENT_CNT, 0), (R.PTP_EVENT_CNT, 8), (R.PTP_EVENT_CNT, 16), (R.PTP_EVENT_CNT, 24), (R.PTP_EVENT_CNT, 32), (R.PTP_EVENT_CNT, 40)]),
  (R.NET_MAC_EVENT, [(R.NET_MAC_EVENT_CNT, 0), (R.NET_MAC_EVENT_CNT, 8), (R.NET_MAC_EVENT_CNT, 16)]),
  (R.NET_FLOW_STATUS, [(R.NET_FLOW_CNT, 0), (R.NET_FLOW_STATUS, 22)]),
  (R.SLU_APPLY_CNT, [(R.SLU_APPLY_CNT, 0), (R.SLU_APPLY_CNT, 8)]),
  (R.SLU_CTX_EVENT, [(R.SLU_CTX_EVENT_CNT, 0), (R.SLU_CTX_EVENT_CNT, 8), (R.SLU_CTX_EVENT_CNT, 16), (R.SLU_CTX_EVENT_CNT, 24), (R.SLU_CTX_EVENT_CNT, 32), (R.SLU_CTX_EVENT_CNT, 40), (R.SLU_CTX_EVENT_CNT, 48), (R.SLU_CTX_EVENT_CNT, 56)]),
  (R.VDC_STATUS_CNT, [(R.VDC_STATUS_CNT, 0), (R.VDC_STATUS_CNT, 8)]),
  (R.VDC_STR_EVENT, [(R.VDC_STR_EVENT_CNT, 0), (R.VDC_STR_EVENT_CNT, 8), (R.VDC_STR_EVENT_CNT, 16), (R.VDC_STR_EVENT_CNT, 24), (R.VDC_STR_EVENT_CNT, 32), (R.VDC_STR_EVENT_CNT, 40), (R.VDC_STR_EVENT_CNT, 48), (R.VDC_STR_EVENT_CNT, 56)]),
  (R.VEN_STATUS_CNT, [(R.VEN_STATUS_CNT, 0), (R.VEN_STATUS_CNT, 8)]),
  (R.VEN_SES_EVENT, [(R.VEN_SES_EVENT_CNT, 0), (R.VEN_SES_EVENT_CNT, 8), (R.VEN_SES_EVENT_CNT, 16), (R.VEN_SES_EVENT_CNT, 24), (R.VEN_SES_EVENT_CNT, 32)]),
  (R.EAS_STATUS_CNT, [(R.EAS_STATUS_CNT, 0), (R.EAS_STATUS_CNT, 8)]),
  (R.EAS_EVENT, [(R.EAS_EVENT_CNT, 0), (R.EAS_EVENT_CNT, 8), (R.EAS_EVENT_CNT, 16)]),
  (R.EAS_GAL_EVENT, [(R.EAS_GAL_EVENT_CNT, 0), (R.EAS_GAL_EVENT_CNT, 8), (R.EAS_GAL_EVENT_CNT, 16), (R.EAS_GAL_EVENT_CNT, 24), (R.EAS_GAL_EVENT_CNT, 32)]),
  (R.CMP_CNV_EVENT, [(R.CMP_CNV_EVENT_CNT, 0), (R.CMP_CNV_EVENT_CNT, 8), (R.CMP_CNV_EVENT_CNT, 16), (R.CMP_CNV_EVENT_CNT, 24), (R.CMP_CNV_EVENT_CNT, 32), (R.CMP_CNV_EVENT_CNT, 40), (R.CMP_CNV_EVENT_CNT, 48)]),
  (R.CNV_GAL_EVENT, [(R.CNV_GAL_EVENT_CNT, 0), (R.CNV_GAL_EVENT_CNT, 8), (R.CNV_GAL_EVENT_CNT, 16)]),
  (R.CNV_EVENT, [(R.CNV_EVENT_CNT, 0), (R.CNV_EVENT_CNT, 8), (R.CNV_EVENT_CNT, 16), (R.CNV_EVENT_CNT, 24), (R.CNV_EVENT_CNT, 32)]),
  (R.LDG_EVENT, [(R.LDG_EVENT_CNT, 0), (R.LDG_EVENT_CNT, 8), (R.LDG_EVENT_CNT, 16), (R.LDG_EVENT_CNT, 24), (R.LDG_EVENT_CNT, 32), (R.LDG_EVENT_CNT, 40), (R.LDG_EVENT_CNT, 48), (R.LDG_EVENT_CNT, 56)]),
  (R.TND_EVENT, [(R.TND_EVENT_CNT, 0), (R.TND_EVENT_CNT, 8), (R.TND_EVENT_CNT, 16), (R.TND_EVENT_CNT, 24), (R.TND_EVENT_CNT, 32), (R.TND_EVENT_CNT, 40), (R.TND_EVENT_CNT, 48), (R.TND_EVENT_CNT, 56)]),
  (R.SEQ_EVENT, [(R.SEQ_EVENT_CNT, 0), (R.SEQ_EVENT_CNT, 8), (R.SEQ_EVENT_CNT, 16), (R.SEQ_EVENT_CNT, 24), (R.SEQ_EVENT_CNT, 32)]),
  (R.TCH_EVENT, [(R.TCH_EVENT_CNT, 0), (R.TCH_EVENT_CNT, 8), (R.TCH_EVENT_CNT, 16), (R.TCH_EVENT_CNT, 24), (R.TCH_EVENT_CNT, 32), (R.TCH_EVENT_CNT, 40)]),
  (R.CPR_EVENT, [(R.CPR_EVENT_CNT, 0), (R.CPR_EVENT_CNT, 8)]),
  (R.JNL_EVENT, [(R.JNL_EVENT_CNT, 0), (R.JNL_EVENT_CNT, 8), (R.JNL_EVENT_CNT, 16), (R.JNL_EVENT_CNT, 24), (R.JNL_EVENT_CNT, 32)]),
  (R.LANE_QUAD_COMMIT, [(R.LANE_QUAD_COMMIT, 11)]),
  (R.LANE_Q_EVENT, [(R.LANE_Q_EVENT_CNT, 0), (R.LANE_Q_EVENT_CNT, 8), (R.LANE_Q_EVENT_CNT, 16), (R.LANE_Q_EVENT_CNT, 24), (R.LANE_Q_EVENT_CNT, 32), (R.LANE_Q_EVENT_CNT, 40)]),
  (R.LANE_EVENT, [(R.LANE_EVENT_CNT, 0), (R.LANE_EVENT_CNT, 8)]),
  (R.LNK_EVENT, [(R.LNK_EVENT_CNT, 0), (R.LNK_EVENT_CNT, 8), (R.LNK_EVENT_CNT, 16), (R.LNK_EVENT_CNT, 24), (R.LNK_EVENT_CNT, 32), (R.LNK_EVENT_CNT, 40), (R.LNK_EVENT_CNT, 48), (R.LNK_EVENT_CNT, 56)]),
  (R.GLB_MBX_STATE, [(R.GLB_MBX_STATE, 16)]),
  (R.XBR_EVENT, [(R.XBR_EVENT_CNT, 0), (R.XBR_EVENT_CNT, 8), (R.XBR_EVENT_CNT, 16)]),
  (R.PRT_EVENT, [(R.PRT_EVENT_CNT, 0), (R.PRT_EVENT_CNT, 8)]),
  (R.DMC_GEVENT, [(R.DMC_GEVENT_CNT, 0), (R.DMC_GEVENT_CNT, 8), (R.DMC_GEVENT_CNT, 16), (R.DMC_GEVENT_CNT, 24), (R.DMC_GEVENT_CNT, 32), (R.DMC_GEVENT_CNT, 40), (R.DMC_GEVENT_CNT, 48)]),
  (R.DMC_CH_EVENT, [(R.DMC_CH_EVENT_CNT, 0), (R.DMC_CH_EVENT_CNT, 8), (R.DMC_CH_EVENT_CNT, 16), (R.DMC_CH_EVENT_CNT, 24), (R.DMC_CH_EVENT_CNT, 32)]),
  (R.PWR_EVENT, [(R.PWR_EVENT_CNT, 0), (R.PWR_EVENT_CNT, 8), (R.PWR_EVENT_CNT, 16), (R.PWR_EVENT_CNT, 24), (R.PWR_EVENT_CNT, 32), (R.PWR_EVENT_CNT, 40)]),
  (R.BST_EVENT, [(R.BST_EVENT_CNT, 0)])]

/-- Every register of the spec, in the order of its files. -/
def regTable0 : List Reg := [
  R.PWR_CLK_STATUS, R.PWR_CLK_EVENT, R.SEAL_CTRL, R.SEAL_EVENT, R.SEAL_TOTAL, R.SEAL_LAST, R.CHK_CTRL, R.CHK_POLY, R.CHK_INIT, R.CHK_XOROUT, R.CHK_EXPECT, R.CHK_RESULT, R.CHK_SRC, R.CHK_LEN, R.CHK_FOLD, R.CHK_STATUS, R.CHK_COUNT, R.PTP_CTRL, R.PTP_STATE, R.PTP_EVENT, R.PTP_EVENT_CNT, R.PTP_SERVO, R.PTP_MAP, R.PTP_OFFSET, R.PTP_RATE, R.PTP_GM_ID, R.PTP_SNAP_SEC, R.PTP_SNAP_NS, R.PTP_SNAP_SHORT, R.NET_MAC_CTRL, R.NET_MAC_STATUS, R.NET_MAC_EVENT, R.NET_MAC_EVENT_CNT, R.NET_FLOW_CMD, R.NET_FLOW_STATUS, R.NET_FLOW_FREE, R.NET_FLOW_CNT, R.NET_FLOW_STATS_FRAMES, R.NET_FLOW_STATS_LOSS, R.NET_FLOW_STATS_DROP]
def regTable1 : List Reg := [
  R.NET_FLOW_STATS_SSRC, R.NET_FLOW_STAGE, R.SLU_APPLY_STATUS, R.SLU_APPLY_CNT, R.SLU_CARRY_FREE, R.SLU_PIPE_STATUS, R.SLU_CTX_CTRL, R.SLU_CTX_CMD, R.SLU_CTX_SRC, R.SLU_CTX_GEOM, R.SLU_CTX_CROP_POS, R.SLU_CTX_CROP_SIZE, R.SLU_CTX_COLOUR, R.SLU_CTX_TIMING, R.SLU_CTX_ALLOW, R.SLU_CTX_OUT_CTRL, R.SLU_CTX_OUT_CROP_POS, R.SLU_CTX_OUT_CROP_SIZE, R.SLU_CTX_OUT_SIZE, R.SLU_CTX_STATE, R.SLU_CTX_EVENT, R.SLU_CTX_EVENT_CNT, R.SLU_CTX_LAND_SEQ, R.SLU_CTX_OUT_SEQ, R.VDC_CMD, R.VDC_STATUS, R.VDC_STATUS_CNT, R.VDC_CAP_STREAMS, R.VDC_CAP_PIX, R.VDC_CAP_KBPS, R.VDC_STR_CFG, R.VDC_STR_GEOM, R.VDC_STR_RATE, R.VDC_STR_SYM_ADDR, R.VDC_STR_CTX_ADDR, R.VDC_STR_PSET_ADDR, R.VDC_STR_SIZE, R.VDC_STR_PSET_LEN, R.VDC_STR_STATE, R.VDC_STR_EVENT]
def regTable2 : List Reg := [
  R.VDC_STR_EVENT_CNT, R.VDC_STR_SEQ, R.VEN_CMD, R.VEN_STATUS, R.VEN_STATUS_CNT, R.VEN_CAP, R.VEN_SES_CFG, R.VEN_SES_RATE, R.VEN_SES_PEAK, R.VEN_SES_QP, R.VEN_SES_CPB, R.VEN_SES_PIC_MAX, R.VEN_SES_OUT_ADDR, R.VEN_SES_RPTR, R.VEN_SES_WPTR, R.VEN_SES_STATE, R.VEN_SES_EVENT, R.VEN_SES_EVENT_CNT, R.EAS_ARG0, R.EAS_ARG1, R.EAS_CMD, R.EAS_RESULT, R.EAS_STATUS, R.EAS_STATUS_CNT, R.EAS_SRC_WINDOW, R.EAS_LT_BASE, R.EAS_FREE, R.EAS_CTRL, R.EAS_EVENT, R.EAS_EVENT_CNT, R.EAS_POOL_CLASS, R.EAS_POOL_COUNT, R.EAS_POOL_BYTES, R.EAS_GAL_STATE, R.EAS_GAL_ACK, R.EAS_GAL_PEND, R.EAS_GAL_EVENT, R.EAS_GAL_EVENT_CNT, R.EAS_DESC, R.CMP_ENG_MAP]
def regTable3 : List Reg := [
  R.CMP_STORE_FREE, R.CMP_SPILL_ADDR, R.CMP_SPILL_SIZE, R.CMP_SPILL_FREE, R.CMP_CNV_CFG, R.CMP_CNV_BG, R.CMP_CNV_STATE, R.CMP_CNV_EVENT, R.CMP_CNV_EVENT_CNT, R.CMP_CNV_PLANE, R.CMP_CNV_PLANE_EPOCH, R.CMP_CNV_WB_FRAME, R.CNV_GAL_CTRL, R.CNV_GAL_PLL, R.CNV_GAL_HV, R.CNV_GAL_VB, R.CNV_GAL_VSYNC, R.CNV_GAL_ALIGN_BASE, R.CNV_GAL_ALIGN_RATE, R.CNV_GAL_STATUS, R.CNV_GAL_EVENT, R.CNV_GAL_EVENT_CNT, R.CNV_GAL_LATCH, R.CNV_CTRL, R.CNV_H, R.CNV_HSYNC, R.CNV_WEIR, R.CNV_STATUS, R.CNV_EVENT, R.CNV_EVENT_CNT, R.CNV_LAST_CUT, R.LDG_CTRL, R.LDG_WATCH_EXPECT, R.LDG_LOCK, R.LDG_SET_DL, R.LDG_EVENT, R.LDG_EVENT_CNT, R.LDG_PROOF_CMD, R.LDG_PROOF_STATUS, R.LDG_LAYER_STATUS]
def regTable4 : List Reg := [
  R.TND_CTRL, R.TND_EXPORT, R.TND_CMD, R.TND_STATUS, R.TND_TWIN, R.TND_EVENT, R.TND_EVENT_CNT, R.TND_COMPARE, R.TND_LAST_MISMATCH, R.SEQ_FEATURES, R.SEQ_SIGNAL, R.SEQ_CMD, R.SEQ_CFG, R.SEQ_STATE, R.SEQ_PC, R.SEQ_START_STATUS, R.SEQ_FAULT, R.SEQ_EVENT, R.SEQ_EVENT_CNT, R.SEQ_CYCLES, R.SEQ_RETIRED, R.SEQ_REG, R.SEQ_EV_MASK, R.SEQ_EV_PEND, R.TCH_CTRL, R.TCH_SCAN, R.TCH_THRESH, R.TCH_LIMITS, R.TCH_HOLD, R.TCH_WAKE, R.TCH_XFORM, R.TCH_ROUTE, R.TCH_STATUS, R.TCH_EVENT, R.TCH_EVENT_CNT, R.TCH_TEST_CMD, R.TCH_TEST_LIMITS, R.TCH_TEST_OPEN, R.TCH_TEST_SHORT, R.TCH_NODE]
def regTable5 : List Reg := [
  R.CPR_RING_BASE, R.CPR_RING_CFG, R.CPR_TAIL, R.CPR_HEAD, R.CPR_EVENT, R.CPR_EVENT_CNT, R.JNL_CTRL, R.JNL_RING_BASE, R.JNL_ACK, R.JNL_HEAD_INDEX, R.JNL_HEAD_DIGEST, R.JNL_HEAD_CAPTURE, R.JNL_EVENT, R.JNL_EVENT_CNT, R.JNL_LOST, R.JNL_HOST_DATA, R.JNL_HOST_CMD, R.JNL_EVID_CMD, R.JNL_EVID_CTRL, R.JNL_EVID_AUTO, R.JNL_EVID_BASE, R.JNL_EVID_RPTR, R.JNL_EVID_WPTR, R.LANE_QUAD_USE, R.LANE_QUAD_COMMIT, R.LANE_DPTX_CFG, R.LANE_DPTX_STATUS, R.LANE_DPRX_CFG, R.LANE_DPRX_STATUS, R.LANE_AUX_CMD, R.LANE_AUX_STATUS, R.LANE_AUX_DATA, R.LANE_Q_EVENT, R.LANE_Q_EVENT_CNT, R.LANE_DPRX_EDID, R.LANE_TX_FIR, R.LANE_RX_CFG, R.LANE_STATUS, R.LANE_EVENT, R.LANE_EVENT_CNT]
def regTable6 : List Reg := [
  R.LANE_TEST, R.LANE_PRBS_ERRS, R.LANE_RX_DFE, R.LNK_CFG, R.LNK_STATUS, R.LNK_PARTNER, R.LNK_NEG, R.LNK_EVENT, R.LNK_EVENT_CNT, R.LNK_THROTTLE, R.LNK_RX_PKTS, R.GLB_ID, R.GLB_MBX_VERSION, R.GLB_MBX_FEATURES, R.GLB_MBX_ATTACH, R.GLB_MBX_STATE, R.GLB_MBX_DOORBELL, R.GLB_MBX_H2D, R.GLB_MBX_D2H, R.XBR_CTRL, R.XBR_QOS_SW, R.XBR_PARK, R.XBR_MRESET, R.XBR_MRESET_STATUS, R.XBR_EVENT, R.XBR_EVENT_CNT, R.XBR_ERR_LAST, R.PRT_CTRL, R.PRT_HOLD, R.PRT_EVENT, R.PRT_EVENT_CNT, R.PRT_VIOL_LAST, R.PRT_VIOL_TOTAL, R.PRT_RGN_START, R.PRT_RGN_END, R.PRT_RGN_ATTR, R.DMC_CTRL, R.DMC_ECC_EN, R.DMC_FREQ, R.DMC_GSTATUS]
def regTable7 : List Reg := [
  R.DMC_GEVENT, R.DMC_GEVENT_CNT, R.DMC_CH_STATUS, R.DMC_CH_THRESH, R.DMC_CH_EVENT, R.DMC_CH_EVENT_CNT, R.DMC_CH_CE_WINDOW, R.DMC_CH_CE_TOTAL, R.DMC_CH_ECC_LAST, R.PWR_CTRL, R.PWR_STATUS, R.PWR_STILL_CMD, R.PWR_EVENT, R.PWR_EVENT_CNT, R.PWR_BOOT_ADDR, R.PWR_BOOT_GO, R.PWR_BOOT_STATUS, R.PWR_WAKE_CFG, R.PWR_RTC_SEC, R.PWR_RTC_ALARM, R.PWR_OTP_CMD, R.PWR_OTP_STATE, R.PWR_OTP_DATA, R.BST_CMD, R.BST_STATUS, R.BST_LB_SIG, R.BST_MB_SIG, R.BST_MB_MAP, R.BST_EVENT, R.BST_EVENT_CNT]
def regTable : List Reg := regTable0 ++ regTable1 ++ regTable2 ++ regTable3 ++ regTable4 ++ regTable5 ++ regTable6 ++ regTable7

end Sys2Proof.Machine
end

