-- ==== Sys2Proof/Machine/State.lean ====
section
/-!
DEFINITION. The state of the KZ9680 as plain data: one structure per block, and State over them, with the state after reset.
-/

namespace Sys2Proof.Machine

/-! ## Time (R24, R29, R85, R639) and the PTP clock's hidden state (R82 to R94) -/

/-- The straps sampled at power-on reset: device ID, Tandem position, boot source, stepping (R573, R646). -/
structure Straps where
  device : Nat := 0
  position : Bool := false
  bootSrc : Bool := false
  stepping : Nat := 1
  deriving DecidableEq, Repr

/-- Time: NET cycles since reset, the PTP clock and the RTC. The clock's 48-bit seconds, nanoseconds and 32-bit sub-nanosecond accumulator
(R84) are one number in units of ns ÷ (5 × 2^40), the accumulator's unit being 1,280 of them: R85's addition is kept exact below it (log
entry 105). -/
structure Time where
  /-- NET cycles since reset; every other island's cycle count is derived from it (R24). -/
  cyc : Nat := 0
  ptp : Nat := 0
  /-- AON cycles of the present second (R639) and the part of the next AON cycle, in 1/625,000,000. -/
  aonPart : Nat := 0
  deriving DecidableEq, Repr

/-- What the PTP port holds beside its registers. -/
structure Ptp where
  integ : Int := 0
  /-- Consecutive samples inside and outside the lock band, and consecutive discards (R88, R89). -/
  inRun : Nat := 0
  outRun : Nat := 0
  discards : Nat := 0
  /-- A step is armed (R90). -/
  relock : Bool := false
  /-- meanPathDelay in ns, once known (R88). -/
  path : Option Int := .none
  /-- The Delay_Req outstanding: its sequence number and transmit time in ns. -/
  req : Option (Nat × Int) := .none
  reqSeq : Nat := 0
  /-- Corrected origin and receive time of the latest Sync, in ns. -/
  sync : Option (Int × Int) := .none
  /-- A two-step Sync that waits for its Follow_Up: sequence number, receive time, correction and logMessageInterval. -/
  half : Option (Nat × Int × Int × Int) := .none
  /-- The HOLDOVER was entered for want of Announce (R94). -/
  byAnnounce : Bool := false
  /-- The latest Announce of each sender with the NET cycle in which it came, and the sender selected. -/
  masters : List (Announce × Nat) := []
  parent : Option (BitVec 64) := .none
  deriving DecidableEq, Repr
/-! ## Easel: frames, buffers, sources, layers, galleries (R223 to R262) -/

/-- What a frame carries besides its pixels: the fields of its seal record (R50) and what the Ledger keeps with it (R332, R343). -/
structure Frame where
  format : Nat := 0
  width : Nat := 0
  height : Nat := 0
  origin : Nat := 0
  concealed : Bool := false
  rap : Bool := false
  static : Bool := false
  derived : Bool := false
  ptpStamp : Bool := false
  source : Nat := 0
  seq : Nat := 0
  /-- Transfer code of a derived frame (R154). -/
  transfer : Nat := 0
  /-- Capture short stamp. -/
  capture : Nat := 0
  /-- Capture as a full time in ns (R332). -/
  captureFull : Int := 0
  allow : Nat := 0
  parentId : Nat := 0
  parentSeq : Nat := 0
  /-- CRC-32C of all tile bytes, without fold. -/
  content : Nat := 0
  /-- Published under RAP_WAIT, itself or through its chain (R343). -/
  rapWait : Bool := false
  /-- NET cycle of its publication (R309). -/
  pubCyc : Nat := 0
  deriving DecidableEq, Repr

/-- The buffer states of R229. -/
inductive BufState where
  | free | filling | current | superseded | retiring
  deriving DecidableEq, Repr

/-- One buffer descriptor (R228). -/
structure Desc where
  bound : Bool := false
  pool : Nat := 0
  base : Nat := 0
  st : BufState := .free
  ownerHost : Bool := false
  refS : Bool := false
  refL : Bool := false
  source : Nat := 0
  leases : Nat := 0
  /-- HOST and PROG leases among them (R237). -/
  soft : Nat := 0
  seq : Nat := 0
  frame : Frame := {}
  deriving DecidableEq, Repr

/-- The class of a pool (R226); `format` 0 while unconfigured. -/
structure Pool where
  format : Nat := 0
  width : Nat := 0
  height : Nat := 0
  deriving DecidableEq, Repr

/-- Who a source ID is bound to (R238). -/
inductive Owner where
  | none | host | decode (n : Nat) | landing (c : Nat) | output (c k : Nat) | flow (n : Nat)
  deriving DecidableEq, Repr

/-- The source states of R238. -/
inductive SrcState where
  | free | bound | orphan | quarantine
  deriving DecidableEq, Repr

/-- One source ID: its Easel state (R238 to R243) and what the Ledger keeps with it (R332, R334, R343). -/
structure Source where
  st : SrcState := .free
  owner : Owner := .none
  /-- Descriptor of the CURRENT buffer. -/
  cur : Option Nat := .none
  /-- The CURRENT buffer before it: descriptor, sequence, NET cycle of its publication (R235, R309). -/
  prev : Option (Nat × Nat × Nat) := .none
  rapWait : Bool := false
  /-- The four most recent sequences with their RAP_WAIT, newest first. -/
  recent : List (Nat × Bool) := []
  /-- Sequences marked FUTURE. -/
  future : List Nat := []
  lastCapture : Option Int := .none
  deriving DecidableEq, Repr

/-- A layer descriptor as read from its slot (R266). -/
structure LayerDesc where
  shown : Bool := false
  static : Bool := false
  pacing : Bool := false
  glaze : Bool := false
  keyEn : Bool := false
  nearest : Bool := false
  canvas : Nat := 0
  z : Nat := 0
  source : Nat := 0
  alpha : Nat := 0
  mat : Nat := 0
  full : Bool := false
  transfer : Nat := 0
  srcX : Nat := 0
  srcY : Nat := 0
  srcW : Nat := 0
  srcH : Nat := 0
  dstX : Int := 0
  dstY : Int := 0
  dstW : Nat := 0
  dstH : Nat := 0
  key : Nat := 0
  deadline : Nat := 0
  warn : Nat := 0
  motion : Nat := 0
  frozenN : Nat := 0
  tickMs : Nat := 0
  tickX : Nat := 0
  tickY : Nat := 0
  tickW : Nat := 0
  tickH : Nat := 0
  deriving DecidableEq, Repr

/-- A SCAN lease of a layer: the buffer it pinned and the identity its checks use (R60, R235). -/
structure Lease where
  desc : Nat := 0
  base : Nat := 0
  pool : Nat := 0
  frame : Frame := {}
  deriving DecidableEq, Repr

/-- The verdicts of R327. -/
inductive Verdict where
  | live | aged | stale | frozen | unverified | absent | static
  deriving DecidableEq, Repr

/-- The causes of R378. -/
inductive Cause where
  | none | age | noisy | tick | header | tile | cropOut | concealed | future | glass | cut | noFrame | proving
  | staticMismatch | table
  deriving DecidableEq, Repr

/-- Painting of a region from a tile row of the frame on (R350 to R352). -/
structure Paint where
  row : Nat := 0
  verdict : Verdict := .unverified
  hatch : Bool := true
  deriving DecidableEq, Repr

/-- One layer: its slots in the Easel (R245, R246), its lease and checks in the composer (R59 to R66), its state in the
Ledger (R328 to R349, R367). -/
structure Layer where
  /-- A slot of the layer is active. -/
  committed : Bool := false
  /-- Gallery in which it is committed. -/
  gallery : Nat := 0
  /-- The active-slot bit b of R245. -/
  b : Bool := true
  /-- Gallery in which it is staged, and the slot as STAGE read it (R246). -/
  staged : Option Nat := .none
  stagedDesc : LayerDesc := {}
  /-- Active slot as read at the last latch. -/
  desc : LayerDesc := {}
  /-- On-chip copy of the committed slot as loaded at the last epoch change (R471). -/
  chip : LayerDesc := {}
  /-- The layer's entry of the hit-test table: its gallery and rectangle's descriptor (R471). -/
  hit : Option (Nat × LayerDesc) := .none
  lease : Option Lease := .none
  /-- Sequence leased at the previous latch. -/
  prevSeq : Option Nat := .none
  /-- Source named at the previous latch (R349). -/
  prevSource : Option Nat := .none
  hdrOk : Bool := false
  hdrFail : Bool := false
  cropFail : Bool := false
  tileFail : Bool := false
  tableFail : Bool := false
  glassFail : Bool := false
  /-- The first tile row painted for a mismatch at the Glass tap, or of a received tile, in this canvas frame (R351, R361, R385). -/
  glassRow : Option Nat := .none
  cut : Option Nat := .none
  /-- Failed tiles of the leased frame, this canvas frame. -/
  badTiles : List Nat := []
  /-- Tile fetches outstanding: (tile, stored CRC read for it, QoS it was issued with). -/
  fetch : List (Nat × Nat × Nat) := []
  /-- Tiles of the leased frame that have arrived in this canvas frame, with their bytes as they were checked (R58, R61). -/
  got : Map (List Byte) := []
  /-- The tile CRCs of the frame's tile row read last: row, whether the read failed, and the bytes (R63). -/
  crcs : Option (Nat × Bool × List Byte) := .none
  /-- Consecutive frames with a failed tile or header (R66). -/
  failRun : Nat := 0
  failCounted : Bool := false
  /-- PERSIST was raised in the present run of failing frames: no further entry until the count returns to 0. -/
  persisted : Bool := false
  evaluated : Bool := false
  verdict : Verdict := .absent
  cause : Cause := .none
  /-- Ages of this canvas frame by the tile row of their evaluation, newest first (R356). -/
  ages : List (Nat × Option Nat) := []
  /-- Age at the last evaluation, in ns; none where no age existed (R354). -/
  age : Option Nat := some 0
  row : Nat := 0
  /-- The substitution that a proof's fault has brought has not ended: what follows from it is not counted (R372). -/
  injected : Bool := false
  /-- A raw substituted verdict arose in the present canvas frame. -/
  rawSubst : Bool := false
  run : Nat := 0
  prevContent : Nat := 0
  tickLast : Int := 0
  tickDigest : Nat := 0
  started : Bool := false
  /-- DEADLINE_MS and WARN_PCT set by LDG_SET_DL (R338). -/
  override : Option (Nat × Nat) := .none
  /-- How the region is painted in this canvas frame, newest first: from a tile row on, under a verdict, with Hatch or Glaze. -/
  paint : List Paint := []
  /-- The verdicts of this canvas frame by the tile row from which each holds, newest first (R218). -/
  hist : List (Nat × Verdict) := []
  /-- The label text fixed for this canvas frame: verdict word and age in tenths of a second (R354, R356). -/
  label : Option (Verdict × Option Nat) := .none
  /-- FAB cycles of the VERDICT entries of the last 1,000 ms (R367). -/
  entries : List Nat := []
  suppressed : Nat := 0
  deriving DecidableEq, Repr

/-- A pending commit (R249 to R252): the time it waits for, and whether the PTP lock was lost meanwhile. -/
structure Commit where
  at? : Option Nat := .none
  /-- It was accepted late, and takes the next latch whatever the time then (R251). -/
  late : Bool := false
  /-- NET cycle of its acceptance. -/
  since : Nat := 0
  unlocked : Bool := false
  deriving DecidableEq, Repr

/-- One gallery: its epochs (R248 to R255), its raster (R304 to R312), its PLL (R31) and its Watch update count (R364). -/
structure Gallery where
  locked : Bool := false
  /-- Its next latch is its first (R248, R316). -/
  first : Bool := true
  epoch : Nat := 0
  /-- 48-bit frame number of the latest latch. -/
  frame : Nat := 0
  pend : Option Commit := .none
  snap : Option Nat := .none
  /-- A commit took effect at the latest latch, and its acknowledgement is outstanding. -/
  ackDue : Bool := false
  ackUnlocked : Bool := false
  stateDue : Bool := false
  /-- The hit-test table switch of R471 is outstanding since the latch in this SEQ cycle. -/
  hitDue : Option Nat := .none
  /-- Line of the raster: active line, or VACT + blanking line. -/
  line : Nat := 0
  /-- A latch is due at this line boundary; `forced` when taken at L_max. -/
  latchDue : Bool := false
  forced : Bool := false
  /-- Blanking line of the latest latch. -/
  latchLine : Nat := 0
  /-- The latch of the coming frame has been taken. -/
  latched : Bool := false
  /-- Tile rows of the present frame whose boundary evaluation has been made or was the latch's (R329). -/
  rowDone : Nat := 0
  /-- Full time of the latest latch, in ns. -/
  latchTime : Int := 0
  /-- Full time of the latch at which the epoch in force took effect, in ns. -/
  commitTime : Int := 0
  upd : Nat := 0
  /-- The gallery's Watch word without UPD (R365). -/
  word : Nat := 0
  /-- ALIGN_EN, ALIGN_BASE, NUM and DEN in effect (R316). -/
  align : Bool × Nat × Nat × Nat := (false, 0, 60, 1)
  /-- The epoch of the on-chip hit-test table (R471). -/
  hitEpoch : Nat := 0
  deriving DecidableEq, Repr

/-- An Easel command in flight (R257). -/
structure EasOp where
  op : Nat := 0
  arg0 : Nat := 0
  arg1 : Nat := 0
  deriving DecidableEq, Repr

/-- The Easel's own state beside its registers. -/
structure Easel where
  pools : Map Pool := []
  descs : Map Desc := []
  sources : Map Source := []
  /-- Last sequence of each source ID since power-on reset (R243, R684). -/
  lastSeq : Map Nat := []
  layers : Map Layer := []
  gals : Map Gallery := []
  op : Option EasOp := .none
  /-- Frames whose producer has asked for publication, oldest first (R243). -/
  requests : List Nat := []
  /-- Frames whose sequence is reserved and whose record is being completed (R53). -/
  sealing : List Nat := []
  deriving DecidableEq, Repr
/-! ## Canvases: composition, planes, scan-out, Glass check, Watch words (R263 to R378) -/

/-- Why a canvas shows Gesso (R323). -/
structure GessoCauses where
  /-- Power-up, warm reset or canvas enable. -/
  start : Bool := true
  hold : Bool := false
  engine : Bool := false
  empty : Bool := false
  bist : Bool := false
  tandem : Bool := false
  glass : Bool := false
  deriving DecidableEq, Repr

/-- One plane of a plane set: its record's address, its tile count, and the granules its tiles occupy (R290 to R294). -/
structure Plane where
  present : Bool := false
  base : Nat := 0
  count : Nat := 0
  /-- Per tile: granule offset, LEN_G, in the spill region. -/
  tiles : List (Nat × Nat × Bool) := []
  deriving DecidableEq, Repr

/-- A plane set (R287). -/
structure PlaneSet where
  epoch : Nat := 0
  /-- NET cycle in which its flatten completed. -/
  made : Nat := 0
  /-- The layers it shows, each with the frame it was flattened from. -/
  frames : List (Nat × Frame) := []
  under : Plane := {}
  above : Plane := {}
  deriving DecidableEq, Repr

/-- A flatten that runs (R286): its epoch, its layers and the leases it holds. -/
structure Flatten where
  epoch : Nat := 0
  under : List Nat := []
  above : List Nat := []
  leases : List (Nat × Lease) := []
  /-- Full time of the commit of its epoch, in ns (R54). -/
  commit : Int := 0
  failed : Bool := false
  deriving DecidableEq, Repr

/-- A write-back frame being written (R298). -/
structure WriteBack where
  desc : Nat := 0
  frame : Nat := 0
  latch : Nat := 0
  epoch : Nat := 0
  /-- The canvas's encoder session codes it, as which of the frames it has selected (R202, R210). -/
  coded : Bool := false
  ord : Nat := 0
  /-- Lines that have left the tap, those of the tile row that is being written, and the register of CONTENT (R54). -/
  done : Nat := 0
  lines : List (Nat × Nat × List Byte) := []
  content : Nat := 0xFFFFFFFF
  /-- Map codes of the canvas tiles, and the sources leased with their sequences, for the provenance message (R218, R219). -/
  map : List Nat := []
  sources : List (Nat × Nat) := []
  deriving DecidableEq, Repr

/-- One canvas. -/
structure Canvas where
  /-- CMP_CNV_CFG and CMP_CNV_BG as latched (R302, R310). -/
  cfg : Nat := 0x250
  bg : Nat := 0
  /-- CMP_CNV_CFG and CMP_CNV_BG as they stood before each NET cycle in which one was written, and that cycle, oldest first: those of the SCN cycle
  of the latest write (R302). -/
  before : List (Nat × Nat × Nat) := []
  /-- The output FIFO: the lines of the canvas that it holds whole, oldest first; their pixels are those the composer made (R318). -/
  fifo : List Nat := []
  /-- The level changed in blanking, and active scan-out has still to compare it: the tile row being composed, and the level compared last. -/
  weirDue : Option (Nat × Nat) := .none
  gesso : GessoCauses := {}
  /-- Video is stopped: disabled, link lost or Still. -/
  dark : Bool := true
  /-- Frames in composition or scan-out with the descriptors they lease, oldest first. -/
  held : List (Nat × List Nat) := []
  /-- Rows written to the Watch word as cut, this frame (R320). -/
  cutNow : Bool := false
  /-- Frame since the last latch: every check passed, no tile mismatched at the Glass tap. -/
  clean : Bool := true
  glassRows : Nat := 0
  /-- Reference registers of the tile columns of the tile row that leaves, and the references of the rows that have left (R359). -/
  glassRegs : List Nat := []
  glassRefs : List (List Nat) := []
  /-- Mismatching tiles of the frame: row and mask, without a proof's injected tile. -/
  glassTiles : List (Nat × Nat) := []
  glassBad : Bool := false
  /-- A tile mismatched in this frame and in the last one, a proof's injected tile included (R365, R372). -/
  glassMark : Bool := false
  glassPrev : Bool := false
  glassRun : Nat := 0
  glassFail : Bool := false
  /-- A frame is under the Glass check: its line 0 has passed and its comparison has not ended. -/
  glassOn : Bool := false
  emptyNow : Bool := false
  /-- Pixel of the present line from which the FIFO was empty (R322). -/
  emptyX : Option Nat := .none
  /-- Gesso is left only at a verified frame (R323, R358), and a latch has been taken with every cause ended. -/
  owesFrame : Bool := true
  armed : Bool := false
  /-- Video stops at the next line boundary (R518). -/
  stopDue : Bool := false
  planes : Option PlaneSet := .none
  pendingSet : Option PlaneSet := .none
  oldSets : List (Nat × PlaneSet) := []
  flat : Option Flatten := .none
  /-- A trigger waits: whether it is a commit, and the NET cycle in which it came (R285, R289). -/
  trigger : Option (Bool × Nat) := .none
  direct : Bool := false
  /-- The present frame is composed through the planes in use. -/
  planar : Bool := false
  /-- Tiles of the planes in use that failed their checks, as canvas tiles (R351). -/
  planeBad : List Nat := []
  /-- The decompressed bytes of the tiles of the planes in use, as this frame's read of them was checked (R56). -/
  underPx : Map (List Byte) := []
  overPx : Map (List Byte) := []
  wb : Option WriteBack := .none
  /-- The latest published write-back frame. -/
  wbCur : Option WriteBack := .none
  /-- The Watch word (R365). -/
  word : Nat := 0x2D
  deriving DecidableEq, Repr

/-- A proof test in progress (R369 to R371). -/
structure Proof where
  layer : Nat := 0
  kind : Nat := 0
  row : Nat := 0
  step : Nat := 1
  injected : Bool := false
  frame : Nat := 0
  seq : Nat := 0
  /-- First tile row painted by its fault, as observed at step 2. -/
  painted : Nat := 0
  seen : Nat := 0
  alertLow : Nat := 0
  frames : Nat := 0
  deriving DecidableEq, Repr

/-- The composer's, the scan-out's and the Ledger's own state beside their registers. -/
structure Compose where
  canvases : Map Canvas := []
  /-- Varnish store bytes, listed where not 0 (R290). -/
  store : List Host.Cell := []
  proof : Option Proof := .none
  /-- WP_ALERT_N driven low. -/
  alert : Bool := false
  /-- The Watch summary word as last updated, without DEVICE and UPD_ALL (R365). -/
  summary : Nat := 0x40
  updAll : Nat := 0
  /-- The Tandem word as last updated, without POSITION (R364, R365). -/
  tandem : Nat := 0
  updTime : Nat := 0
  deriving DecidableEq, Repr
/-! ## Network flows (R106 to R136) -/

/-- A packet held in the reordering window of a compressed flow (R126): extended sequence number, timestamp, marker, payload, its MAC's
stamp in ns, and the NET cycle in which it arrived. -/
structure RtpPacket where
  seq : Nat := 0
  ts : Nat := 0
  marker : Bool := false
  payload : List Byte := []
  arrival : Nat := 0
  cyc : Nat := 0
  deriving DecidableEq, Repr

/-- The access unit that a flow of kind 1 or 2 assembles (R125 to R127). -/
structure Assembly where
  /-- NET cycle and stamp of its earliest-arriving packet (R128). -/
  first : Option (Nat × Nat) := .none
  /-- NAL units so far, and the fragments of the one in assembly. -/
  nals : List (List Byte) := []
  frag : Option (List Byte) := .none
  lossMark : Bool := false
  deriving DecidableEq, Repr

/-- A canvas frame on its way through a send entry: its latch time in ns, its lines, and the samples of its lines that have left the encoder, from
line 0 on (R129). -/
structure SendFrame where
  latch : Nat := 0
  height : Nat := 0
  lines : List (List Byte) := []
  deriving DecidableEq, Repr

/-- What a flow entry is assembling and counting (R118 to R128). -/
structure FlowRun where
  ssrc : Option Nat := .none
  /-- Timestamp of the frame in assembly, and of the last one that ended. -/
  ts : Option Nat := .none
  lastTs : Option Nat := .none
  /-- Sequence numbers received of the frame, and the highest number taken or given up (kind 0: of the frames that ended). -/
  seqs : List Nat := []
  last : Option Nat := .none
  /-- Kind 0: the runs of bytes taken of each line of the frame, as (first, count) (R124). -/
  pix : Map (List (Nat × Nat)) := []
  /-- Kinds 1 and 2: packets that wait for an earlier one, ascending; and the access unit. -/
  window : List RtpPacket := []
  au : Assembly := {}
  /-- Kinds 1 and 2: a number before the next packet has been given up (R126). -/
  gap : Bool := false
  frames : Nat := 0
  loss : Nat := 0
  ptMiss : Nat := 0
  ssrcMiss : Nat := 0
  dup : Nat := 0
  late : Nat := 0
  srdBad : Nat := 0
  unsupNal : Nat := 0
  dropped : Nat := 0
  incomplete : Nat := 0
  tsSplit : Nat := 0
  auSize : Nat := 0
  ssrcChange : Nat := 0
  /-- Send entries: canvas frames whose lines have left for it, oldest first, packets of the oldest sent, and the extended RTP sequence
  number. -/
  sending : List SendFrame := []
  sent : Nat := 0
  rtpSeq : Nat := 0
  deriving DecidableEq, Repr

/-- The flow table (64 bytes an entry, R113), the host queues' positions (R132), and each MAC's latest receive and transmit stamp in ns
(R83). -/
structure Net where
  entries : Map (List Byte) := []
  runs : Map FlowRun := []
  /-- Flow command in flight: OP and INDEX (R115). -/
  op : Option (Nat × Nat) := .none
  rxPos : Map Nat := []
  txPos : Map Nat := []
  rxStamp : Map Nat := []
  txStamp : Map Nat := []
  deriving DecidableEq, Repr

/-! ## Sluice (R137 to R174) -/

/-- One output of a context's set. -/
structure CtxOut where
  on : Bool := false
  src : Nat := 0
  format : Nat := 0
  rgb : Bool := false
  cropX : Nat := 0
  cropY : Nat := 0
  cropW : Nat := 0
  cropH : Nat := 0
  width : Nat := 0
  height : Nat := 0
  deriving DecidableEq, Repr

/-- A set of a context's staged registers (R169). -/
structure CtxSet where
  en : Bool := false
  input : Nat := 0
  quad : Nat := 0
  landSrc : Nat := 0
  parentSrc : Nat := 0
  inW : Nat := 0
  inH : Nat := 0
  cropX : Nat := 0
  cropY : Nat := 0
  cropW : Nat := 0
  cropH : Nat := 0
  colour : Nat := 0
  deadline : Nat := 0
  wdog : Nat := 0
  allow : Nat := 0
  outs : List CtxOut := []
  deriving DecidableEq, Repr

/-- A frame being landed (R144 to R147). -/
structure Landing where
  /-- The receiver quad, or the flow entry. -/
  quad : Option Nat := .none
  flow : Option Nat := .none
  /-- Buffer taken; none while the frame is not landed. -/
  desc : Option Nat := .none
  frame : Frame := {}
  /-- DisplayPort lines received so far. -/
  lines : Nat := 0
  /-- Bytes landed of each line, and the runs of bytes that have landed, as (first, count). -/
  data : Map (List Byte) := []
  got : Map (List (Nat × Nat)) := []
  /-- Tile rows sealed provisionally. -/
  rows : List Nat := []
  /-- A job has been released on it, or has been made the pending job. -/
  released : Bool := false
  deriving DecidableEq, Repr

/-- A Sluice job (R153 to R166). -/
structure Job where
  parent : Lease := {}
  live : Bool := false
  /-- SLU cycle of its release, its stripes, and the stripes that have ended. -/
  t0 : Nat := 0
  n : Nat := 0
  k : Nat := 0
  /-- Pipeline that runs its present stripe, and the one that ran its last. -/
  pipe : Option Nat := .none
  last : Nat := 0
  /-- Output and buffer. -/
  outs : List (Nat × Nat) := []
  set : CtxSet := {}
  /-- Tiles of the parent that have been read whole and verified (R153). -/
  tiles : Map (List Byte) := []
  deriving DecidableEq, Repr

/-- One context. -/
structure Context where
  /-- Accepted set, and whether it waits for the landing side and for the pipeline side (R170). -/
  pend : Option CtxSet := .none
  pendLand : Bool := false
  pendPipe : Bool := false
  /-- SLU cycle in which the set became pending. -/
  pendAt : Nat := 0
  /-- Sets in effect. -/
  land : Option CtxSet := .none
  pipe : Option CtxSet := .none
  landing : Option Landing := .none
  job : Option Job := .none
  /-- The pending job: buffer and sequence of its parent, and whether it is a live input (R166). -/
  next : Option (Nat × Nat × Bool) := .none
  /-- A parent frame that waits for the release of a job on it: a published one of a memory input, or a landed one whose landing has
  ended; with its sequence (0 before its publish) and whether it is a live input (R160, R164). -/
  due : Option (Nat × Nat × Bool) := .none
  /-- NET cycle from which the watchdog period runs (R149). -/
  wdogFrom : Nat := 0
  deriving DecidableEq, Repr

/-- The Sluice's own state beside its registers. -/
structure Sluice where
  ctxs : Map Context := []
  /-- The APPLY that is validated: its context and the staged set (R169). -/
  apply : Option (Nat × CtxSet) := .none
  /-- Buffers whose publication a context has requested, with 8 × context + output (4 for a landed frame). -/
  asked : Map Nat := []
  deriving DecidableEq, Repr

/-! ## Decoder (R175 to R197) -/

/-- An access unit in a stream's queue (R185): its NAL units, its arrival in ns, its capture; LOSS of R126; first after units were discarded
for want of room. -/
structure AccessUnit where
  nals : List (List Byte) := []
  arrival : Nat := 0
  capture : Nat := 0
  ptpStamp : Bool := false
  allow : Nat := 0
  lossMark : Bool := false
  afterDrop : Bool := false
  deriving DecidableEq, Repr

/-- A picture between its symbols and its publication (R186 to R189). -/
structure Picture where
  au : AccessUnit := {}
  info : PicInfo := {}
  sps : SpsInfo := {}
  desc : Nat := 0
  concealed : Bool := false
  /-- Decoding starts afresh at it: an IDR or BLA picture, or a CRA of R177. -/
  start : Bool := false
  /-- An end of sequence follows it (R188). -/
  last : Bool := false
  /-- The pixel engine that makes it (R187, R555). -/
  pixel : Nat := 0
  /-- Its references that are missing, with the buffer of the reference that stands in for each; none: mid-grey (R192). -/
  standIns : List (Int × Option Nat) := []
  /-- Its place in output order: the resets of the order count before it, and its count (R188). -/
  era : Nat := 0
  order : Int := 0
  frame : Frame := {}
  deriving DecidableEq, Repr

/-- A picture of the DPB (R191), in decode order: order count, buffer (none for an H.264 non-existing frame), long-term frame index where
it is a long-term picture, frame_num, stored format and coded size. -/
structure DpbPic where
  poc : Int := 0
  desc : Option Nat := .none
  long : Option Nat := .none
  frameNum : Nat := 0
  format : Nat := 0
  width : Nat := 0
  height : Nat := 0
  deriving DecidableEq, Repr

/-- One decode stream. -/
structure Stream where
  admitted : Bool := false
  engine : Nat := 0
  codec : Nat := 0
  tenBit : Bool := false
  dpbMax : Nat := 0
  src : Nat := 0
  maxW : Nat := 0
  maxH : Nat := 0
  fps : Nat := 0
  kbps : Nat := 0
  symSize : Nat := 0
  auMib : Nat := 0
  queue : List AccessUnit := []
  /-- Access units are discarded as they arrive until a RAP, after one that found no room (R185). -/
  ringWait : Bool := false
  /-- An access unit was discarded for want of room since the last one queued. -/
  ringLost : Bool := false
  /-- Access units are discarded at the entropy engine until a RAP (R176, R185, R194), and no RAP has been met since ADMIT. -/
  waitRap : Bool := false
  fresh : Bool := false
  /-- An unsupported SPS has been met (R176). -/
  unsup : Bool := false
  taint : Bool := false
  /-- RASL pictures of the CRA that started decoding, or that followed a discard, are discarded; and an access unit has been discarded under
  R185 or R186 since the last RAP (R177). -/
  dropRasl : Bool := false
  lost : Bool := false
  /-- Parameter sets held: kind (1 VPS, 2 SPS, 3 PPS), identifier, bytes (R184). -/
  psets : List (Nat × Nat × List Byte) := []
  sps : Option SpsInfo := .none
  parsing : Option AccessUnit := .none
  waiting : List Picture := []
  recon : Option (Picture × Nat) := .none
  /-- Reconstructed, unpublished pictures in output order (R188). -/
  done : List Picture := []
  dpb : List DpbPic := []
  /-- H.264: frame_num of the last reference picture, MaxLongTermFrameIdx (none: no long-term indices), and the resets of the order count
  so far. -/
  prevFrameNum : Nat := 0
  maxLong : Option Nat := .none
  era : Nat := 0
  deriving DecidableEq, Repr

/-- The decoder's own state beside its registers. -/
structure Decode where
  streams : Map Stream := []
  op : Option (Nat × Nat) := .none
  /-- Buffers whose publication a stream has requested, with the stream. -/
  asked : Map Nat := []
  deriving DecidableEq, Repr

/-! ## Encoder (R198 to R222) -/

/-- How a coding-block row was coded (R211): normally at the picture's QP, as skip, or at QP 51 with intra DC prediction and no residual. -/
inductive RowCode where
  | coded | skip | dcFloor
  deriving DecidableEq, Repr

/-- What the parameter sets of an IDR picture say (R201, R203, R204): codec and profile_idc or general_profile_idc, the level, the bit depth
(4:2:0 always), the coded size and the cropped size, CABAC, the reference pictures, the timing of the VUI as pictures (numerator,
denominator) per second, and the HRD's rate in kbit/s and CPB in kbit. -/
structure ParamInfo where
  codec : Nat := 0
  profile : Nat := 100
  level : Nat := 0
  chroma : Nat := 1
  depth : Nat := 8
  codedW : Nat := 0
  codedH : Nat := 0
  cropW : Nat := 0
  cropH : Nat := 0
  cabac : Bool := true
  refs : Nat := 1
  rateNum : Nat := 0
  rateDen : Nat := 1
  hrdKbps : Nat := 0
  cpbKbit : Nat := 0
  deriving DecidableEq, Repr

/-- The picture being coded (R207 to R212). -/
structure Coding where
  desc : Nat := 0
  frame : Nat := 0
  idr : Bool := false
  gap : Bool := false
  qp : Nat := 0
  cap : Nat := 0
  row : Nat := 0
  rows : Nat := 0
  /-- Ordinal of its frame among those R202 selected, for the CPB (R210). -/
  ord : Nat := 0
  /-- Frame number of the reference picture; none for an I picture (R201). -/
  reference : Option Nat := .none
  /-- F of R211, and the bits of the rows accepted so far, in their order in the stream. -/
  floorBits : Nat := 0
  stream : List Bool := []
  /-- How each row so far was coded, and the rows whose tiles have been checked (R205, R211). -/
  codes : List RowCode := []
  checked : Nat := 0
  /-- The picture as it is coded, by plane and line: converted, subsampled, with mid-grey for the tiles that failed (R204, R205). -/
  input : List (Nat × Nat × List Byte) := []
  floors : Nat := 0
  floored : Bool := false
  sealFail : Bool := false
  hdrBad : Bool := false
  /-- What its parameter sets say, and their NAL units; none outside an IDR picture (R203). -/
  info : Option ParamInfo := .none
  params : List Byte := []
  map : List Nat := []
  sources : List (Nat × Nat) := []
  latch : Nat := 0
  epoch : Nat := 0
  bytes : List Byte := []
  deriving DecidableEq, Repr

/-- One session. -/
structure Session where
  admitted : Bool := false
  codec : Nat := 0
  tenBit : Bool := false
  mode : Nat := 0
  level : Nat := 0
  div : Nat := 1
  gop : Nat := 0
  kbps : Nat := 0
  peak : Nat := 0
  qpI : Nat := 0
  qpP : Nat := 0
  qpMin : Nat := 0
  qpMax : Nat := 0
  cpbKbit : Nat := 0
  picMax : Nat := 0
  addr : Nat := 0
  mib : Nat := 0
  /-- Canvas size and coded picture rate (numerator, denominator) at ADMIT. -/
  width : Nat := 0
  height : Nat := 0
  rateNum : Nat := 0
  rateDen : Nat := 1
  /-- Frames since the last one R202 selected. -/
  phase : Nat := 0
  /-- The waiting frame, with the FAB cycle of its publish (R206, R207). -/
  waiting : Option (Nat × WriteBack) := .none
  coding : Option Coding := .none
  /-- A coded access unit on its way to the ring, with the padding before its entry; none where the ring is full (R213, R215). -/
  ready : Option (Coding × Option Nat) := .none
  first : Bool := true
  sinceIdr : Nat := 0
  idrPend : Bool := false
  gapBefore : Bool := false
  notWritten : Bool := false
  lastI : Option (Nat × Nat) := .none
  lastP : Option (Nat × Nat) := .none
  /-- Frame number of the previous coded picture (R201). -/
  reference : Option Nat := .none
  /-- Frames selected under R202; CPB fullness in bits after the removal of the picture with an ordinal among them (R210, R212). -/
  sel : Nat := 0
  cpb : Nat := 0
  cpbAt : Nat := 0
  /-- Coded sizes of the last second: (NET cycle, bits). -/
  recent : List (Nat × Nat) := []
  deriving DecidableEq, Repr

/-- The encoder's own state beside its registers. -/
structure Encode where
  sessions : Map Session := []
  op : Option (Nat × Nat) := .none
  deriving DecidableEq, Repr

/-! ## Check units (R71 to R79) -/

/-- A job in flight: the register's start and the bytes read when it started. -/
structure CheckJob where
  user : Bool := false
  deriving DecidableEq, Repr

/-! ## Tandem (R379 to R404) -/

/-- One region entry of a row record (R388). -/
structure RegionEntry where
  layer : Nat := 0
  verdict : Nat := 0
  style : Bool := false
  painted : Bool := false
  cause : Nat := 0
  age : Nat := 0
  deriving DecidableEq, Repr

/-- A row record (R388), own or the twin's. -/
structure RowRecord where
  canvas : Nat := 0
  row : Nat := 0
  frame : Nat := 0
  epoch : Nat := 0
  rowSet : Nat := 0
  crcs : List Nat := []
  regions : List RegionEntry := []
  deriving DecidableEq, Repr

/-- A heartbeat (R391). -/
structure Heartbeat where
  state : Nat := 0
  fault : Bool := false
  suspect : Bool := false
  position : Bool := false
  gallery : Nat := 0
  device : Nat := 0
  claim : Nat := 0
  epoch : Nat := 0
  frame : Nat := 0
  latch : Nat := 0
  deriving DecidableEq, Repr

/-- The resync image of one gallery (R399). -/
structure ResyncImage where
  gallery : Nat := 0
  slots : List (Nat × List Byte) := []
  epoch : Nat := 0
  frame : Nat := 0
  deriving DecidableEq, Repr

/-- One own latch of a paired gallery, for pairing heartbeats (R392, R393). -/
structure OwnLatch where
  time : Nat := 0
  epoch : Nat := 0
  frame : Nat := 0
  seen : Bool := false
  deriving DecidableEq, Repr

/-- Per paired gallery: its latest own latches, newest first, its misses and its consecutive splits. -/
structure TwinGallery where
  latches : List OwnLatch := []
  miss : Nat := 0
  splits : Nat := 0
  /-- Clean frames towards R400, and whether a mismatch fell into the present frame. -/
  clean : Nat := 0
  bad : Bool := false
  /-- The heartbeat taken last, of which the copies on other ports count for nothing (R541), and heartbeats that a coming own latch may lie nearest
  to (R392). -/
  heard : Option Heartbeat := .none
  early : List Heartbeat := []
  /-- A heartbeat and a plain commit's mirror are owed for the latest latch. -/
  hbDue : Bool := false
  mirrorDue : Option (List Nat) := .none
  deriving DecidableEq, Repr

/-- Per canvas of a paired gallery: the stream passed (0 own, 1 the twin's, 2 neither), a late line in the frame, and the rows
compared in the frame. -/
structure TwinCanvas where
  stream : Nat := 0
  late : Bool := false
  compared : Nat := 0
  /-- The tile row whose own record is due next (R388). -/
  row : Nat := 0
  /-- Next line of the twin's stream, and the pixels of the lines of its present tile row. -/
  line : Nat := 0
  lines : List (List Byte) := []
  /-- The Tandem ports of the latch that gave the canvas its port, and that port (R541). -/
  ports : List Nat := []
  port : Option Nat := .none
  deriving DecidableEq, Repr

/-- The Tandem block beside its registers. -/
structure Tandem where
  gals : Map TwinGallery := []
  cnvs : Map TwinCanvas := []
  own : List RowRecord := []
  twin : List RowRecord := []
  /-- The twin's last heartbeat. -/
  last : Option Heartbeat := .none
  faultSeen : Bool := false
  images : Map ResyncImage := []
  deriving DecidableEq, Repr

/-! ## Sequencers (R405 to R435) -/

/-- The states of R416. -/
inductive SeqRun where
  | halted | running | waiting | faulted
  deriving DecidableEq, Repr

/-- What a WAITING sequencer waits for (R424, R426, R452); a wait for a latch with the FAB cycle in which it reached the FAB island. -/
inductive SeqWait where
  | event (rd base : Nat) (mask : Nat)
  | time (t : Nat)
  | latch (rd g since : Nat)
  | latched (rd value : Nat)
  deriving DecidableEq, Repr

/-- A posted write (R429): in its shim, presented under a tag, or made, when its response is on its way. -/
structure Posted where
  addr : Nat := 0
  size : Nat := 1
  value : Nat := 0
  user : Bool := false
  sent : Option Nat := .none
  made : Bool := false
  /-- Cause its response will carry: 0, PROT or DECODE. -/
  cause : Nat := 0
  deriving DecidableEq, Repr

/-- A fabric read in flight (R430). -/
structure SeqRead where
  rd : Nat := 0
  addr : Nat := 0
  size : Nat := 1
  user : Bool := false
  /-- The tag under which it was presented, and the error and data of its response once that is back. -/
  sent : Option Nat := .none
  answer : Option (Nat × List Byte) := .none
  deriving DecidableEq, Repr

/-- An armed timer (R426): its interval, whether it repeats, and the SEQ cycle from which the interval counts. -/
structure SeqTimer where
  interval : Nat := 0
  repeating : Bool := false
  since : Nat := 0
  deriving DecidableEq, Repr

/-- One sequencer. -/
structure Seq where
  run : SeqRun := .halted
  user : Bool := false
  pc : Nat := 0
  /-- s1 to s31, listed where written. -/
  regs : Map Word := []
  imem : List Host.Cell := []
  dmem : List Host.Cell := []
  mask : Map Word := []
  /-- Pending counts, by event number. -/
  pend : Map Nat := []
  timers : Map SeqTimer := []
  posted : List Posted := []
  read : Option SeqRead := .none
  wait : Option SeqWait := .none
  /-- A header check runs (R415). -/
  starting : Bool := false
  /-- A HALT waits for a read or for posted writes (R417). -/
  halting : Bool := false
  stepping : Bool := false
  /-- An Easel command of its program waits for the Easel (R431). -/
  easWait : Bool := false
  /-- VERSION, FEATURES, CODE_LEN and TRAP of the program started. -/
  version : Nat := 0
  features : Nat := 0
  codeLen : Nat := 0
  trap : Nat := 0
  deriving DecidableEq, Repr

/-! ## Touch (R459 to R479) -/

/-- A contact (R466): its ID, position and peak node, and the NET cycle of its DOWN. -/
structure Contact where
  id : Nat := 0
  u : Nat := 0
  v : Nat := 0
  node : Nat := 0
  delta : Nat := 0
  down : Nat := 0
  deriving DecidableEq, Repr

/-- One entry of a report before mapping: contact, EVENT code, position and strength. -/
structure TouchEntry where
  id : Nat := 0
  event : Nat := 0
  u : Nat := 0
  v : Nat := 0
  strength : Nat := 0
  deriving DecidableEq, Repr

/-- One touch input. -/
structure Touch where
  /-- v and baseline of each node (R463, R467). -/
  vals : Map Int := []
  base : Map Int := []
  /-- Consecutive scans with δ ≤ −NEG_THRESH. -/
  neg : Map Nat := []
  contacts : List Contact := []
  /-- The next scan sets the baselines (R467). -/
  fresh : Bool := true
  scanning : Bool := false
  /-- Reports made. -/
  report : Nat := 0
  /-- NET cycle since which no contact is present. -/
  idleFrom : Nat := 0
  /-- The events owed for reports: the SEQ cycle at which each is taken, and whether it is a contact event (R474). -/
  due : List (Nat × Bool) := []
  /-- The latest scan or self-test: the SEQ cycle in which it started, none where scanning starts anew (R464, R478), and its integration
  window in µs. -/
  since : Option Nat := .none
  chip : Nat := 0
  /-- A self-test waits for the end of the present scan (R478). -/
  testPend : Bool := false
  /-- Wake scanning (R476, R477): the baselines of the groups, the scans since each touch-in of the last 16 scans, and whether the
  last scan found a count below its baseline. -/
  wakeBase : List Nat := []
  taps : List Nat := []
  wasIn : Bool := false
  /-- The NET cycle of the latest wake scan. -/
  wakeAt : Nat := 0
  deriving DecidableEq, Repr

/-! ## Compression, Journal, evidence (R480 to R504) -/

/-- A stopped stream, as a context area holds it (R487). -/
structure CprStream where
  op : Nat := 0
  container : Nat := 0
  /-- COMPRESS: the uncompressed data so far, output that found no room, the bits of its last byte, and whether its final block is made. -/
  data : List Byte := []
  rest : List Byte := []
  bits : List Bool := []
  final : Bool := false
  /-- DECOMPRESS: the input so far, and how many output bytes were written. -/
  input : List Byte := []
  given : Nat := 0
  /-- Input bytes of the stopped job that were taken in beyond its CONSUMED: the resumed job presents them again. -/
  skip : Nat := 0
  deriving DecidableEq, Repr

/-- A compression job in flight: its descriptor's address and bytes, or an evidence capture. -/
structure CprJob where
  addr : Nat := 0
  desc : List Byte := []
  evid : Bool := false
  /-- The stopped stream that it resumes. -/
  prev : Option CprStream := .none
  deriving DecidableEq, Repr

/-- The compression engines. -/
structure Cpr where
  jobs : Map CprJob := []
  /-- Stopped streams by the number of the free value that fills their context areas, newest first (log entry 12). -/
  streams : List (Nat × CprStream) := []
  /-- A capture queued on an engine, behind the descriptors up to this ring position. -/
  queued : Option (Nat × Nat) := .none
  deriving DecidableEq, Repr

/-- An append request (R490): its source's place in the order, the NET cycle asked, type and payload; and, once taken, its time
in ns and the LOCKED flag. -/
structure JournalRequest where
  rank : Nat := 0
  cyc : Nat := 0
  ty : Nat := 0
  payload : List Byte := []
  time : Nat := 0
  unlocked : Bool := false
  deriving DecidableEq, Repr

/-- An evidence capture (R498 to R501). -/
structure Evidence where
  canvas : Nat := 0
  auto : Bool := false
  desc : Nat := 0
  lease : Lease := {}
  frame : Nat := 0
  latch : Nat := 0
  out : Nat := 0
  deriving DecidableEq, Repr

/-- The Journal. -/
structure Journal where
  /-- Requests presented and not yet taken. -/
  asked : List JournalRequest := []
  queue : List JournalRequest := []
  /-- RING and STAGING BOUNDARY entries owed: payloads. -/
  owed : List (List Byte) := []
  /-- Requests lost and not yet recorded, and whether the queue has had room since the first of them (R491). -/
  lost : Nat := 0
  room : Bool := false
  next : Nat := 0
  /-- Digest of the newest entry; 32 zero bytes before the first. -/
  digest : List Byte := List.replicate 32 0
  staging : Map (List Byte) := []
  /-- Next INDEX to drain to the ring. -/
  drain : Nat := 0
  /-- INDEX of the entry that each slot of the ring holds, by address (R495). -/
  ring : Map Nat := []
  /-- First undrained entry lost, and how many (R496). -/
  gap : Option (Nat × Nat) := .none
  /-- A BOUNDARY of KIND RING was appended since the last write of JNL_ACK or reset (R495). -/
  bounded : Bool := false
  evid : Option Evidence := .none
  /-- Captures fill the evidence area up to its oldest unreleased byte (R500). -/
  evidFull : Bool := false
  /-- NET cycle of the latest automatic capture of each canvas. -/
  auto : Map Nat := []
  deriving DecidableEq, Repr

/-! ## Lanes (R505 to R525) -/

/-- A PRBS checker (R520): the bits that its next one is held to, newest first; while it looks for lock, the bits without error in a row;
while it has lock, which of the last 64 bits were in error. -/
structure Prbs where
  shift : List Bool := []
  run : Nat := 0
  errors : List Bool := []
  deriving DecidableEq, Repr

/-- A host AUX transaction: request, address, length and the bytes to write (R513). -/
structure AuxCommand where
  req : Nat := 0
  addr : Nat := 0
  len : Nat := 0
  data : List Byte := []
  deriving DecidableEq, Repr

/-- What a quad holds beside its registers. -/
structure Quad where
  pll : Bool := false
  /-- NET cycle of the latest failure of training (R511). -/
  failAt : Nat := 0
  /-- The PRBS checkers of its lanes, by lane (R520). -/
  prbs : Map Prbs := []
  /-- Consecutive low samples of HPD are measured outside; training that waits for an AUX transaction. -/
  trainWait : Bool := false
  /-- A host AUX transaction runs (`true`) or waits for training to end (`false`), and the command that started it (R513). -/
  aux : Option Bool := .none
  auxCmd : AuxCommand := {}
  /-- The bits that the PRBS generators of its lanes sent last, newest first, by lane (R520). -/
  gen : Map (List Bool) := []
  /-- The receive lanes are aligned with one another (R515). -/
  together : Bool := false
  /-- The receiver's 0.5 ms HPD low pulse (R518). -/
  pulse : Bool := false
  /-- The receiver has reported equalisation done (R515). -/
  eqDone : Bool := false
  /-- LINK_RATE_SET and LANE_COUNT_SET as the source wrote them. -/
  linkRate : Nat := 0
  laneCount : Nat := 0
  /-- EDID byte that the next I2C read returns (R514). -/
  edidPos : Nat := 0
  deriving DecidableEq, Repr

/-! ## Ndosin ports (R526 to R549) -/

/-- A packet waiting for the link (R538, R539). -/
structure Packet where
  cls : Nat := 0
  tag : List Byte := []
  payload : List Byte := []
  deriving DecidableEq, Repr

/-- What a lane has seen of sync headers (R530): without lock, the valid ones in a row; with lock, which of the last 64 were invalid. -/
structure HeaderRun where
  run : Nat := 0
  bad : List Bool := []
  deriving DecidableEq, Repr

/-- One Ndosin port. -/
structure Port where
  /-- Sync headers since a lane's lock was gained or lost, by own lane (R530). -/
  headers : Map HeaderRun := []
  /-- The last 58 scrambled bits of each lane, the latest in bit 0 (R529). -/
  scrambler : Map Nat := []
  /-- Active lanes that have had their block of the present LANE cycle (R531). -/
  turn : Nat := 0
  /-- Per lane: partner's lane, COUNT and arrival in LANE cycles of the latest marker. -/
  markers : Map (Nat × Nat × Nat) := []
  /-- Partner's last two LOCK_MASKs, newest first. -/
  partnerLock : List Nat := []
  /-- COUNT of the next own marker. -/
  count : Nat := 0
  /-- Latest partner CAP body without ACK and CRC, and how many identical ones in a row; own ACK. -/
  cap : List Byte := []
  capRun : Nat := 0
  capAck : Bool := false
  /-- The second pass of steps 1 and 2 runs at the agreed rate; step 2 of the present pass runs. -/
  rated : Bool := false
  aligning : Bool := false
  /-- The own width change that is counting down, and one that must follow it. -/
  width : Option Nat := .none
  widthNext : Option Nat := .none
  /-- Dropped pairs being tried, and the NET cycle of the latest try (R546). -/
  tried : Nat := 0
  triedAt : Nat := 0
  /-- NET cycle in which the present step of bring-up started, or the port went DOWN (R533). -/
  since : Nat := 0
  queue : List Packet := []
  deriving DecidableEq, Repr

/-! ## Fabric, host, MSI-X (R550 to R574) -/

/-- A fabric transaction (R553, R559). -/
structure Xact where
  master : Nat := 0
  gen : Nat := 0
  addr : Nat := 0
  write : Bool := false
  len : Nat := 0
  data : List Byte := []
  user : Bool := false
  qos : Nat := 0
  /-- FAB cycle in which it arrived at its port. -/
  arrived : Nat := 0
  /-- The host request it belongs to, and the ID the master gave it (R559). -/
  tag : Nat := 0
  id : Nat := 0
  /-- KIND of R562 with which it was rejected; 0 where it was not. -/
  kind : Nat := 0
  /-- The bytes of a write whose byte enables are 0, by their place in the burst (R553). -/
  holes : List Nat := []
  deriving DecidableEq, Repr

/-- A response on its way back (R564): the kind of error, 0 none, 1 protection, 2 decode or DRAM. -/
structure Resp where
  master : Nat := 0
  addr : Nat := 0
  gen : Nat := 0
  write : Bool := false
  data : List Byte := []
  err : Nat := 0
  tag : Nat := 0
  id : Nat := 0
  /-- The target port it comes from. -/
  port : Nat := 0
  /-- The offset of the upper of two 32-bit registers, whose sample is still to come (R554). -/
  late : Option Nat := none
  deriving DecidableEq, Repr

/-- A host request in the fabric (R567, R568): parts still to answer, the data of each part by its address, and whether one failed. -/
structure HostReq where
  tag : Nat := 0
  write : Bool := false
  parts : Nat := 0
  data : Map (List Byte) := []
  err : Bool := false
  deriving DecidableEq, Repr

/-- What the configuration space of the PCIe function holds of R566, R569 and R570: MSI-X Enable, Function Mask and Bus Master Enable, and the
Uncorrectable Error Status of AER. -/
structure PcieConfig where
  msix : Bool := false
  masked : Bool := false
  busMaster : Bool := false
  aer : Nat := 0
  deriving DecidableEq, Repr

/-- One MSI-X table entry (R567). -/
structure MsixEntry where
  addr : Nat := 0
  data : Nat := 0
  masked : Bool := true
  deriving DecidableEq, Repr

/-- The crossbar, the host port and MSI-X beside their registers. -/
structure Fabric where
  /-- Transactions held whole in their shims, oldest first. -/
  held : List Xact := []
  /-- Transactions at a target port, by port; rejected ones at the default target (port 11). -/
  ports : Map (List Xact) := []
  resps : List Resp := []
  /-- Current generation of each master. -/
  gens : Map Nat := []
  /-- Master granted last, by port (R558). -/
  granted : Map Nat := []
  /-- FAB cycle up to which a port is occupied by what it granted last (R557). -/
  busyTo : Map Nat := []
  /-- The master resets that have not been reported done: master and FAB cycle of the reset edge, oldest first (R564). -/
  resets : List (Nat × Nat) := []
  /-- PARK_MODE and XBR_PARKk as they are in effect, by port (R558). -/
  park : Map (Bool × Nat) := []
  hostWait : List Xact := []
  host : List HostReq := []
  nextTag : Nat := 0
  table : Map MsixEntry := []
  pba : List Nat := []
  cfg : PcieConfig := {}
  deriving DecidableEq, Repr

/-- Protection (R575 to R590): the configuration in effect, by register offset, and the units whose release is in progress. -/
structure Protect where
  eff : Map Word := []
  releasing : List Nat := []
  /-- FAB cycle of each unit's latest refusal (R588). -/
  violAt : Map Nat := []
  deriving DecidableEq, Repr

/-! ## DRAM (R591 to R617) -/

/-- The DRAM controller beside its registers. -/
structure Dram where
  /-- Words of 8 bytes that hold an uncorrectable error, and those that hold a single-bit error (R597). -/
  bad : List Nat := []
  weak : List Nat := []
  /-- Words whose next read fails for an uncorrectable link error (R598). -/
  linkBad : List Nat := []
  /-- The open row of each bank, by channel, bank group and bank (R593, R600). -/
  open_ : Map Nat := []
  /-- DMC_ECC_EN as INIT took it. -/
  ecc : Nat := 0
  rowBits : Nat := 17
  /-- Channels that a Gesso hold names: clock loss; channel fault or RESET (R30, R612, R614). -/
  holdClock : Bool := false
  holdMem : Bool := false
  /-- A frequency change requested or running: its set point. -/
  freq : Option Nat := .none
  window : Option Nat := .none
  /-- FAB cycle in which READY was last set, the interval of each channel's latest window, and the FAB cycle in which a window last restored
  its margin (R606, R612). -/
  readyAt : Nat := 0
  windows : Map Nat := []
  restored : Map Nat := []
  /-- Real-time ports in panic: canvases 0 to 31, landing 32. -/
  panic : List Nat := []
  /-- NET cycle of the latest UE entry of a channel, and the UEs suppressed since. -/
  ueLast : Map Nat := []
  ueHeld : Map Nat := []
  /-- Last good delay setting of each channel: the margin it was found with. -/
  setting : Map Nat := []
  deriving DecidableEq, Repr

/-! ## Power, boot, OTP, Still, self-test (R618 to R647) -/

/-- Where the power sequence stands (R634, R636). -/
inductive PowerPhase where
  | off | raising | main | still | waking
  deriving DecidableEq, Repr

/-- The reset kinds of R621. -/
inductive ResetKind where
  | powerOn | warm | wake
  deriving DecidableEq, Repr

/-- A boot in progress (R630). -/
structure Boot where
  kind : ResetKind := .powerOn
  image : List Byte := []
  /-- Step of R630 reached: 0 reset, 1 header checked, 2 DRAM up, 3 digest good, 4 END. -/
  stage : Nat := 0
  /-- Offset and index of the next record. -/
  pos : Nat := 64
  record : Nat := 0
  /-- A WAIT record runs, until this NET cycle (R629). -/
  waiting : Bool := false
  until_ : Nat := 0
  retained : Bool := false
  /-- Started by PWR_BOOT_GO: the host has written the image where it lies (R627). -/
  host : Bool := false
  /-- Writes of the present record already made, where an update hold stopped it (R583). -/
  sub : Nat := 0
  deriving DecidableEq, Repr

/-- The retention store (R630). -/
structure Retention where
  base : Nat := 0
  len : Nat := 0
  digest : List Byte := []
  rowBits : Nat := 17
  initSp : Nat := 0
  ecc : Nat := 0
  deriving DecidableEq, Repr

/-- The power, boot and self-test state beside the registers. -/
structure Power where
  phase : PowerPhase := .off
  boot : Option Boot := .none
  retention : Option Retention := .none
  /-- Digests of the programmed OTP slots. -/
  otp : Map (List Byte) := []
  otpOp : Option (Nat × Bool) := .none
  /-- Still entry: 0 none, 1 accepted, 3 every gallery dark, 4 drain done, 5 off. -/
  still : Nat := 0
  /-- Wake sources fired and held, as WAKE_CAUSE bits. -/
  wake : Nat := 0
  /-- NET cycle in which PWR_MAIN_EN went low, and whether it has been low for 10 ms (R638). -/
  offAt : Nat := 0
  offLong : Bool := false
  mainEn : Bool := false
  /-- The self-test that runs: `true` logic, `false` memory. -/
  bist : Option Bool := .none
  /-- FAB cycle in which it started. -/
  bistAt : Nat := 0
  /-- The Journal chain head the retention store keeps. -/
  head : Option (Nat × List Byte) := .none
  deriving DecidableEq, Repr

/-! ## What leaves the part -/

/-- Everything the part sends out on pins or to the host, newest first (log entry 4). -/
inductive Output where
  | frame (port : Nat) (bytes : List Byte)
  /-- A block on a lane of an Ndosin port: its sync header and its scrambled body, sent from bit 0 on (R529). -/
  | block (port lane header : Nat) (bits : Nat)
  /-- Bits of a lane under test, in the order sent: its PRBS generator's, or in the far-end loop those received (R520, R521). -/
  | testBits (lane : Nat) (bits : List Bool)
  | aux (quad : Nat) (reply : Nat) (data : List Byte)
  /-- A request of a DisplayPort transmitter on AUX: command, address, length and the bytes it writes (R314, R513). -/
  | auxRequest (quad req addr len : Nat) (data : List Byte)
  | message (vector addr data : Nat)
  | completion (ok : Bool) (data : List Byte)
  | debug (write ok : Bool) (data : List Byte)
  | watch (word : Nat)
  /-- A command to the SPI NOR: its bytes, the dummy clocks after them, and the µs waited before it (R626). -/
  | spi (bytes : List Byte) (dummy wait : Nat)
  /-- A line of a DisplayPort canvas on its quad: canvas, line of the raster, the blanking and vertical sync flags, the horizontal timing
  (HACT, HFP, HSYNC_LEN, HTOTAL, HSYNC_POL, VSYNC_POL) and the active samples, DEPTH bits each (R305, R307, R313 to R315). -/
  | video (quad canvas line : Nat) (blank vsync : Bool) (timing : List Nat) (pixels : List Byte)
  deriving DecidableEq, Repr

/-- Why a step can stop. No command of this block stops with a fault: the spec gives every command its effect, and a command that
the block cannot take leaves the state unchanged. The type has no constructor, so no meaning can raise one. -/
inductive Fault where
  deriving DecidableEq, Repr

/-- Why a step can be refused. -/
inductive Refusal where
  /-- Raised by the dispatcher alone, for a command whose meaning is not written; safe: the model stops. -/
  | notModelled (mnemonic : String)
  deriving DecidableEq, Repr

/-- The state of the KZ9680. -/
structure State where
  /-- Registers by BAR0 offset; a register with no entry holds its reset value (R16, R17). -/
  regs : Map Word := []
  /-- DRAM bytes, listed where not what an unwritten byte reads as. -/
  mem : List Host.Cell := []
  time : Time := {}
  straps : Straps := {}
  ptp : Ptp := {}
  net : Net := {}
  slu : Sluice := {}
  vdc : Decode := {}
  ven : Encode := {}
  eas : Easel := {}
  cmp : Compose := {}
  /-- Check-unit jobs in flight, by unit. -/
  chk : Map CheckJob := []
  tnd : Tandem := {}
  seqs : Map Seq := []
  tch : Map Touch := []
  cpr : Cpr := {}
  jnl : Journal := {}
  lane : Map Quad := []
  lnk : Map Port := []
  fab : Fabric := {}
  prt : Protect := {}
  dmc : Dram := {}
  pwr : Power := {}
  /-- What has left the part, newest first: the model's own field. -/
  out : List Output := []
  /-- Free values drawn so far: the model's own field. -/
  free : Nat := 0
  /-- Commands waiting, first in, first out. -/
  pending : List Instr := []
  deriving DecidableEq, Repr

/-- The machine right after reset: every register at the reset value of its table, nothing configured, nothing in flight. -/
def State.reset : State := {}

end Sys2Proof.Machine
end

