-- ==== Sys2Proof/Machine/Ops.lean ====
section
/-!
DEFINITION. The named operations on State that every block shares: registers and their fields, free values, time in each island,
DRAM and its order of checks, outputs.
-/

namespace Sys2Proof.Machine

/-- A register of instance `i`, `j`, as a number. -/
def rdReg (s : State) (r : Reg) (i : Nat := 0) (j : Nat := 0) : Nat :=
  (s.regs.get (r.addr i j) (r.resetValue i j)).toNat

/-- A register of instance `i`, `j` set whole. -/
def wrReg (s : State) (r : Reg) (i j v : Nat) : State :=
  { s with regs := s.regs.put (r.addr i j) (BitVec.ofNat 64 v) }

/-- A number with bits `lo` to `lo + w - 1` replaced. -/
def setBits (old lo w v : Nat) : Nat := old - slice old lo w * 2 ^ lo + v % 2 ^ w * 2 ^ lo

/-- A register field. -/
def rd (s : State) (f : Fld) (i : Nat := 0) (j : Nat := 0) : Nat := slice (rdReg s f.reg i j) f.lo f.w

/-- A one-bit register field as a truth value. -/
def rdb (s : State) (f : Fld) (i : Nat := 0) (j : Nat := 0) : Bool := rd s f i j != 0

/-- A register field set; the register's other bits keep their values. -/
def wr (s : State) (f : Fld) (i j v : Nat) : State :=
  wrReg s f.reg i j (setBits (rdReg s f.reg i j) f.lo f.w v)

/-- A register field of the only instance set. -/
def wr0 (s : State) (f : Fld) (v : Nat) : State := wr s f 0 0 v

/-- A free natural number (log entry 5): the value now, for `draw` to move past. -/
def freeNat (s : State) : Nat := Config.freeNat s.free

/-- One free value has been drawn. -/
def draw (s : State) : State := { s with free := s.free + 1 }

/-- Something leaves the part. -/
def emit (s : State) (o : Output) : State := { s with out := o :: s.out }

/-- What a condition adds to a state. -/
def also (b : Bool) (f : State → State) (s : State) : State := if b then f s else s

/-! ### Time (R24, R29) -/

/-- Units of the PTP clock in one ns: ns ÷ (5 × 2^40). R85's sum is kept exact, below the 32-bit fraction of R84 too (DEDUCED, log entry
105). -/
def ptpUnit : Nat := 5 * 2 ^ 40

/-- Where the clock's 48-bit seconds wrap (R84). -/
def ptpEnd : Nat := ptpUnit * 1000000000 * 2 ^ 48

/-- The PTP clock in whole ns since its epoch (R85). -/
def netNs (s : State) : Nat := s.time.ptp / ptpUnit

/-- The time copy in ns of an island that runs at `num` ÷ `den` MHz (R29): the NET clock within one cycle of the island; where in
that band it reads is a free value (log entry 6). -/
def islandNs (num den : Nat) (s : State) : Nat :=
  let p : Int := ((ptpUnit * 1000 * den / num : Nat) : Int)
  ((s.time.ptp : Int) + clampI (-p) p (Config.freeInt s.free)).toNat % ptpEnd / ptpUnit

/-- The FAB time copy in ns. -/
def fabNs (s : State) : Nat := islandNs 1100 1 s
/-- The CMP time copy in ns. -/
def cmpNs (s : State) : Nat := islandNs 640 1 s
/-- The SEQ time copy in ns. -/
def seqNs (s : State) : Nat := islandNs 1200 1 s
/-- The SLU time copy in ns. -/
def sluNs (s : State) : Nat := islandNs 600 1 s
/-- The SCN time copy of a gallery in ns: its PLL runs at 100 × N ÷ M MHz (R25). -/
def scnNs (s : State) (g : Nat) : Nat := islandNs (100 * rd s F.CNV_GAL_PLL_N g) (rd s F.CNV_GAL_PLL_M g) s

/-- FAB cycles since reset (R24: 44 for every 25 NET cycles). -/
def fabCyc (s : State) : Nat := s.time.cyc * 44 / 25
/-- SEQ cycles since reset (48 for every 25 NET cycles). -/
def seqCyc (s : State) : Nat := s.time.cyc * 48 / 25
/-- SLU cycles since reset (24 for every 25 NET cycles). -/
def sluCyc (s : State) : Nat := s.time.cyc * 24 / 25
/-- NET cycles in a number of ms. -/
def msCyc (ms : Nat) : Nat := ms * 625000

/-- The short stamp of a time in ns (R95). -/
def shortStamp (ns : Nat) : Nat := ns % 2 ^ 32

/-! ### DRAM (R550, R551, R592, R594, R595, R605, R613) -/

/-- Populated DRAM in bytes (R592). -/
def dramSize (s : State) : Nat := 2 ^ (s.dmc.rowBits + 19)

/-- The address lies in the check area of a region with ECC (R595). -/
def inCheckArea (s : State) (a : Nat) : Bool :=
  bitOn s.dmc.ecc (a / 2 ^ 30) && decide (a % 2 ^ 30 ≥ 0x38000000)

/-- DRAM is served at all (R605, R613). -/
def dramUp (s : State) : Bool := rdb s F.DMC_GSTATUS_READY && !rdb s F.DMC_GSTATUS_HOLD

/-- What a DRAM address selects (R593): channel, bank group, bank, column chunk and row. -/
def dramChannel (a : Nat) : Nat := a / 2 ^ 8 % 8
def dramGroup (a : Nat) : Nat := a / 2 ^ 11 % 4
def dramBank (a : Nat) : Nat := a / 2 ^ 13 % 4
def dramChunk (a : Nat) : Nat := a / 2 ^ 15 % 16
def dramRow (a : Nat) : Nat := a / 2 ^ 19 % 2 ^ 17

/-- The bank of an address among those of all channels. -/
def bankKey (a : Nat) : Nat := (dramChannel a * 4 + dramGroup a) * 4 + dramBank a

/-- An address lies in the open row of its bank (R600). -/
def rowOpen (s : State) (a : Nat) : Bool := s.dmc.open_.find (bankKey a) == some (dramRow a)

/-- A range lies wholly in populated DRAM, outside every check area. -/
def inDram (s : State) (a n : Nat) : Bool :=
  decide (a + n ≤ dramSize s) && !inCheckArea s a && (n == 0 || !inCheckArea s (a + n - 1)) &&
    (upto 64).all fun r => !(bitOn s.dmc.ecc r && decide (a < r * 2 ^ 30 + 0x38000000) && decide (r * 2 ^ 30 + 0x38000000 < a + n))

/-- The word `w` of 8 bytes has bytes in a range. -/
def wordMeets (a n w : Nat) : Bool := decide (w * 8 < a + n) && decide (a < w * 8 + 8)

/-- A read of `n` bytes meets a word with an uncorrectable error, or one whose read an uncorrectable link error spoils (R597, R598). -/
def poisoned (s : State) (a n : Nat) : Bool := s.dmc.bad.any (wordMeets a n) || s.dmc.linkBad.any (wordMeets a n)

/-- The bytes a DRAM read returns: none is an error response (R597, R605). -/
def dramRead (s : State) (a n : Nat) : Option (List Byte) :=
  if dramUp s && inDram s a n && !poisoned s a n then some (Memory.readBytes s.mem a n) else none

/-- A range covers the word `w` of 8 bytes whole. -/
def wordCovered (a n w : Nat) : Bool := decide (a ≤ w * 8) && decide (w * 8 + 8 ≤ a + n)

/-- A DRAM write: the new state and whether it was made. A write that covers only part of a word with an uncorrectable error is
not made; one that covers it whole clears the error. Any write clears a single-bit error of a word it touches, a part of it through the corrected
data of its read-modify-write (R596, R597). -/
def dramWrite (s : State) (a : Nat) (l : List Byte) : State × Bool :=
  if !(dramUp s && inDram s a l.length) then (s, false)
  else if s.dmc.bad.any fun w => wordMeets a l.length w && !wordCovered a l.length w then (s, false)
  else ({ s with mem := Memory.writeBytes s.mem a l,
                 dmc := { s.dmc with bad := s.dmc.bad.filter fun w => !wordCovered a l.length w
                                     weak := s.dmc.weak.filter fun w => !wordMeets a l.length w } }, true)

/-- The place in a burst at `a` of byte `k` of word `w`. -/
def placeInBurst (a w k : Nat) : Nat := w * 8 + k - a

/-- A byte of word `w` is enabled in a burst of `n` bytes at `a` with the holes given (R553). -/
def byteEnabled (a n : Nat) (holes : List Nat) (w k : Nat) : Bool :=
  decide (a ≤ w * 8 + k) && decide (w * 8 + k < a + n) && !holes.contains (placeInBurst a w k)

/-- A DRAM write with byte enables (R553): the bytes in `holes` keep what they hold. A word of which some bytes are enabled and others not is
covered in part (R596, R597); one of which none is enabled is not touched. -/
def dramWriteMasked (s : State) (a : Nat) (l : List Byte) (holes : List Nat) : State × Bool :=
  if holes.isEmpty then dramWrite s a l
  else
    let on := byteEnabled a l.length holes
    let touched := fun w => (upto 8).any (on w)
    let whole := fun w => (upto 8).all (on w)
    if !(dramUp s && inDram s a l.length) || s.dmc.bad.any (fun w => touched w && !whole w) then (s, false)
    else
      let merged := l.zipIdx.map fun e => if holes.contains e.2 then Memory.read s.mem (a + e.2) else e.1
      ({ s with mem := Memory.writeBytes s.mem a merged,
                dmc := { s.dmc with bad := s.dmc.bad.filter (fun w => !whole w), weak := s.dmc.weak.filter (fun w => !touched w) } }, true)

/-! ### Sequencer memories (R406, R407) -/

/-- Sequencer `n`. -/
def seqOf (s : State) (n : Nat) : Seq := s.seqs.get n {}
/-- Sequencer `n` replaced. -/
def setSeq (s : State) (n : Nat) (q : Seq) : State := { s with seqs := s.seqs.put n q }
/-- Sequencer `n` changed. -/
def updSeq (s : State) (n : Nat) (f : Seq → Seq) : State := setSeq s n (f (seqOf s n))

/-- Register sk of a sequencer: s0 reads 0 (R405). -/
def sreg (q : Seq) (k : Nat) : Word := if k = 0 then 0 else q.regs.get k 0
/-- Register sk written; a write to s0 is discarded (R405). -/
def setSreg (q : Seq) (k : Nat) (v : Word) : Seq := if k = 0 then q else { q with regs := q.regs.put k v }

/-! ### The Journal's requests (R490) -/

/-- The sources of Journal requests in the order of R490; sequencer `n` is 5 + n. -/
def rankLedger : Nat := 0
def rankSeal : Nat := 1
def rankPtp : Nat := 2
def rankTandem : Nat := 3
def rankDram : Nat := 4
def rankSeq (n : Nat) : Nat := 5 + n
def rankEvidence : Nat := 21
def rankHost : Nat := 22

/-- A payload padded to its 48 bytes with zeros (R494). -/
def payload48 (l : List Byte) : List Byte := bytesAt l 0 48

/-- An append request is presented to the Journal. -/
def askJournal (s : State) (rank ty : Nat) (l : List Byte) : State :=
  { s with jnl := { s.jnl with asked := s.jnl.asked ++ [{ rank := rank, cyc := s.time.cyc, ty := ty, payload := payload48 l }] } }

/-! ### Small helpers over the per-block maps -/

def galOf (s : State) (g : Nat) : Gallery := s.eas.gals.get g {}
def setGal (s : State) (g : Nat) (x : Gallery) : State := { s with eas := { s.eas with gals := s.eas.gals.put g x } }
def updGal (s : State) (g : Nat) (f : Gallery → Gallery) : State := setGal s g (f (galOf s g))
def layOf (s : State) (l : Nat) : Layer := s.eas.layers.get l {}
def setLay (s : State) (l : Nat) (x : Layer) : State := { s with eas := { s.eas with layers := s.eas.layers.put l x } }
def updLay (s : State) (l : Nat) (f : Layer → Layer) : State := setLay s l (f (layOf s l))
def descOf (s : State) (d : Nat) : Desc := s.eas.descs.get d {}
def setDesc (s : State) (d : Nat) (x : Desc) : State := { s with eas := { s.eas with descs := s.eas.descs.put d x } }
def updDesc (s : State) (d : Nat) (f : Desc → Desc) : State := setDesc s d (f (descOf s d))
def srcOf (s : State) (i : Nat) : Source := s.eas.sources.get i {}
def setSrc (s : State) (i : Nat) (x : Source) : State := { s with eas := { s.eas with sources := s.eas.sources.put i x } }
def updSrc (s : State) (i : Nat) (f : Source → Source) : State := setSrc s i (f (srcOf s i))
def cnvOf (s : State) (c : Nat) : Canvas := s.cmp.canvases.get c {}
def setCnv (s : State) (c : Nat) (x : Canvas) : State := { s with cmp := { s.cmp with canvases := s.cmp.canvases.put c x } }
def updCnv (s : State) (c : Nat) (f : Canvas → Canvas) : State := setCnv s c (f (cnvOf s c))

/-- A step over a list of indices, in order. -/
def each {α : Type} (l : List α) (f : State → α → State) (s : State) : State := l.foldl f s

end Sys2Proof.Machine
end

