-- ==== Sys2Proof/Machine/Flags.lean ====
section
/-!
DEFINITION. Status flags and their event counts (R21, R22, R654), interrupt vectors (R570, R658, R659) and event signals (R422,
R657).
-/

namespace Sys2Proof.Machine

/-- An MSI-X vector is raised: its pending bit is set (R570). -/
def raiseVector (s : State) (v : Nat) : State :=
  { s with fab := { s.fab with pba := if s.fab.pba.contains v then s.fab.pba else s.fab.pba ++ [v] } }

/-- The vector a flag raises in instance `i` (R658). -/
def flagVector (k : Flag) (i : Nat) : Nat :=
  k.vec + (if k.div = 0 then 0 else i / k.div)

/-- A hardware set of a W1C flag: the bit is set and its event count advances to at most 255 (R22), with no interrupt. -/
def raiseQuiet (s : State) (k : Flag) (i : Nat := 0) : State :=
  let s := wr s k.fld i 0 1
  wr s k.cnt i 0 (min 255 (rd s k.cnt i 0 + 1))

/-- A hardware set of a W1C flag, raising its vector while `en` holds (R658). -/
def raiseIf (en : Bool) (s : State) (k : Flag) (i : Nat := 0) : State :=
  let s := raiseQuiet s k i
  if en then raiseVector s (flagVector k i) else s

/-- A hardware set of a W1C flag with its interrupt (R22, R658). -/
def raise (s : State) (k : Flag) (i : Nat := 0) : State := raiseIf true s k i

/-- An event count advanced beside no flag. -/
def countUp (s : State) (f : Fld) (i : Nat := 0) : State := wr s f i 0 (min 255 (rd s f i 0 + 1))

/-- A traffic counter or total advanced by `n`, saturating at the width of its field. -/
def addSat (s : State) (f : Fld) (i n : Nat) : State := wr s f i 0 (min (2 ^ f.w - 1) (rd s f i 0 + n))

/-- A traffic counter advanced by `n`, wrapping at the width of its field. -/
def addWrap (s : State) (f : Fld) (i n : Nat) : State := wr s f i 0 ((rd s f i 0 + n) % 2 ^ f.w)

/-- The mask bit of event `ev` in a sequencer (R422). -/
def maskOn (q : Seq) (ev : Nat) : Bool := (q.mask.get (ev / 64) 0).getLsbD (ev % 64)

/-- Event `ev` is signalled to sequencer `n` (R422). -/
def signalTo (s : State) (n ev : Nat) : State :=
  let q := seqOf s n
  if !maskOn q ev then s
  else if q.pend.get ev 0 ≥ 255 then raise s K.SEQ_EVENT_EV_OVERFLOW n
  else setSeq s n { q with pend := q.pend.put ev (q.pend.get ev 0 + 1) }

/-- Event `ev` is signalled to every sequencer (R422, R657). -/
def signal (s : State) (ev : Nat) : State := each (upto 16) (fun s n => signalTo s n ev) s

/-- A flag of PTP_EVENT is set: it also signals event 139 (R657). -/
def raisePtp (s : State) (k : Flag) : State := signal (raise s k) 139

end Sys2Proof.Machine
end

