-- ==== Sys2Proof/Machine/Ecc.lean ====
section
/-!
DEFINITION. DRAM errors and what they lead to: Journal entries, Gesso hold, channel fault, and the errors that accesses meet (R597, R611 to
R613, R615).
-/

namespace Sys2Proof.Machine

/-- A DRAM Journal entry (R615). -/
def dramEntry (s : State) (kind channel margin window supp addr cause : Nat) : State :=
  askJournal s rankDram 0x0050 ([BitVec.ofNat 8 kind, BitVec.ofNat 8 channel, BitVec.ofNat 8 (rd s F.DMC_GSTATUS_SP),
    BitVec.ofNat 8 margin] ++ leBytes window 4 ++ [BitVec.ofNat 8 supp] ++ leBytes addr 5 ++ [BitVec.ofNat 8 cause])

/-- The causes of a hold that have come are remembered (R613, R615). -/
def noteCause (s : State) (cause : Nat) : State :=
  { s with dmc := { s.dmc with holdClock := s.dmc.holdClock || cause == 2, holdMem := s.dmc.holdMem || cause != 2 } }

/-- Every canvas is to show Gesso for the hold (R613). -/
def holdAll (s : State) : State := each (upto 32) (fun s c => updCnv s c fun x => { x with gesso := { x.gesso with hold := true } }) s

/-- Gesso hold is entered for a cause of R615 (0 channel fault, 1 RESET, 2 clock loss): every canvas is to show Gesso, Tandem
declares FAULT, HOLD_ON is raised and HOLD_ENTER is staged (R613). A cause that comes during a hold is only remembered. -/
def enterHold (s : State) (cause : Nat) : State :=
  let s := noteCause s cause
  if rdb s F.DMC_GSTATUS_HOLD then s
  else dramEntry (raise (wr0 (holdAll (wr0 s F.DMC_GSTATUS_HOLD 1)) F.TND_STATUS_FAULT 1) K.DMC_GEVENT_HOLD_ON) 4 0xFF 0 0 0 0 cause

/-- A channel without margin whose correctable count reaches CE_THRESH faults, and the device enters Gesso hold; the fault is taken also in the
FAB cycle of a window that restores the margin (R612). -/
def testThreshold (s : State) (c : Nat) : State :=
  if (!rdb s F.DMC_CH_STATUS_MARGIN_OK c || s.dmc.restored.find c == some (fabCyc s)) && decide (rd s F.DMC_CH_THRESH_CE_THRESH c ≤ rd s F.DMC_CH_CE_WINDOW_COUNT c) then
    let s := raise (wr s F.DMC_CH_STATUS_STATE c 0 3) K.DMC_CH_EVENT_CH_FAULT c
    let s := dramEntry s 3 c 0 (rd s F.DMC_CH_CE_WINDOW_COUNT c) 0 0 0
    enterHold (wr0 s F.DMC_GSTATUS_READY 0) 0
  else s

/-- A UE entry of channel `c` was appended in the 100 ms before (R615). -/
def ueRecent (s : State) (c : Nat) : Bool :=
  match s.dmc.ueLast.find c with
  | none => false
  | some t => decide (s.time.cyc < t + msCyc 100)

/-- The UE entry of channel `c`: appended when none was in the 100 ms before, counted otherwise (R615). -/
def ueEntry (s : State) (c addr : Nat) : State :=
  let supp := s.dmc.ueHeld.get c 0
  if ueRecent s c then { s with dmc := { s.dmc with ueHeld := s.dmc.ueHeld.put c (min 255 (supp + 1)) } }
  else
    let s := dramEntry s 6 c 0 (rd s F.DMC_CH_CE_WINDOW_COUNT c) supp addr 0
    { s with dmc := { s.dmc with ueLast := s.dmc.ueLast.put c s.time.cyc, ueHeld := s.dmc.ueHeld.put c 0 } }

/-- The last error of channel `c`, and its count in the refresh window (R597, R611). -/
def eccRecord (s : State) (c a : Nat) (uncorr link : Bool) : State :=
  addSat (wr (wr (wr (wr s F.DMC_CH_ECC_LAST_ADDR c 0 a) F.DMC_CH_ECC_LAST_UNCORR c 0 (bit uncorr)) F.DMC_CH_ECC_LAST_LINK c 0 (bit link))
    F.DMC_CH_ECC_LAST_VALID c 0 1) F.DMC_CH_CE_WINDOW_COUNT c 1

/-- An access that serves a master finds an error at an address: it is recorded and counted, a double-bit error as UE, and the channel's
threshold is tested (R597, R598, R611, R612, R615). -/
def eccError (s : State) (a : Nat) (uncorr link : Bool) : State :=
  let c := dramChannel a
  let s := eccRecord s c a uncorr link
  testThreshold (if uncorr then ueEntry (raise s K.DMC_CH_EVENT_UE c) c a
    else addSat (raise s K.DMC_CH_EVENT_CE c) F.DMC_CH_CE_TOTAL_TOTAL c 1) c

/-- An access of `n` bytes that is not made meets a word that holds an uncorrectable error: the error is found again (R597). A read that an
uncorrectable link error has spoiled, which was reported as it came, takes the error with it (R598). -/
def meetPoison (s : State) (a n : Nat) : State :=
  if !(dramUp s && inDram s a n) then s
  else match s.dmc.bad.find? (wordMeets a n) with
    | some w => eccError s (w * 8) true false
    | none => { s with dmc := { s.dmc with linkBad := s.dmc.linkBad.filter fun w => !wordMeets a n w } }

/-- An access finds the single-bit errors of words, and corrects what it returns or writes back in a read-modify-write: each is counted
again (R597, R611). -/
def meetWeak (words : List Nat) (s : State) : State := each words (fun s w => eccError s (w * 8) false false) s

end Sys2Proof.Machine
end

