-- ==== Sys2Proof/Machine/Bus.lean ====
section
/-!
DEFINITION. The path of a fabric access: the protection check of a master's group (R575 to R588), the decode of the address (R550
to R555, R562), and the access of DRAM, the Varnish store and the sequencer windows.
-/

namespace Sys2Proof.Machine

/-- An access as the checks see it: a master, an address of any width, a length, its direction and its attribute. -/
structure Access1 where
  master : Nat
  addr : Nat
  len : Nat
  write : Bool
  user : Bool := false
  /-- Some of its byte enables are 0 (R553). -/
  masked : Bool := false
  deriving DecidableEq, Repr

/-! ### Protection -/

/-- The protection unit of a master (R575); none for a number that is no master. -/
def unitOf (m : Nat) : Option Nat :=
  if m = 0 then some 0 else if m = 1 then some 1
  else if 16 ≤ m ∧ m ≤ 31 then some 2 else if 32 ≤ m ∧ m ≤ 47 then some 3
  else if m = 48 ∨ m = 49 then some 4 else if m = 50 then some 5 else if m = 51 then some 6
  else if m = 52 then some 7 else if m = 53 then some 8 else if 54 ≤ m ∧ m ≤ 56 then some 9
  else if 64 ≤ m ∧ m ≤ 71 then some 10 else if m = 72 then some 11
  else if 80 ≤ m ∧ m ≤ 95 then some 12 else none

/-- A protection register as it is in effect (R583). -/
def effReg (s : State) (r : Reg) (u j : Nat) : Nat := (s.prt.eff.get (r.addr u j) (r.resetValue u j)).toNat
/-- A protection field as it is in effect. -/
def eff (s : State) (f : Fld) (u : Nat) (j : Nat := 0) : Nat := slice (effReg s f.reg u j) f.lo f.w

/-- An enabled region that covers a 64-byte granule (R578). -/
def covers (s : State) (u r granule : Nat) : Bool :=
  eff s F.PRT_RGN_ATTR_EN u r == 1 && decide (eff s F.PRT_RGN_START_START u r ≤ granule) &&
    decide (granule ≤ eff s F.PRT_RGN_END_END u r)

/-- The deciding region of a granule: the enabled region of lowest number that covers it (R579). -/
def deciding (s : State) (u granule : Nat) : Option Nat := lowest 16 fun r => covers s u r granule

/-- Why a granule is forbidden (R579, R580): region and KIND, or none when it is allowed. -/
def granuleDenied (s : State) (u granule : Nat) (write user : Bool) : Option (Nat × Nat) :=
  match deciding s u granule with
  | some r =>
    let ok := (if write then eff s F.PRT_RGN_ATTR_WRITE u r else eff s F.PRT_RGN_ATTR_READ u r) == 1
    if ok && (!user || eff s F.PRT_RGN_ATTR_USER u r == 1) then none else some (r, 1)
  | none =>
    if user then some (0, 2)
    else
      let d := eff s F.PRT_CTRL_DEFAULT u
      if d = 0 ∨ (d = 1 ∧ !write) then none else some (0, 3)

/-- The granules a transaction touches, lowest first (R579). -/
def granules (a n : Nat) : List Nat := (upto ((a + n - 1) / 64 + 1 - a / 64)).map (· + a / 64)

/-- A refusal: first forbidden byte, region, KIND and the unit holding the region (R588). -/
structure Denial where
  addr : Nat
  region : Nat
  kind : Nat
  unit : Nat
  deriving DecidableEq, Repr

/-- The first byte of a transaction in granule `g`. -/
def firstByte (a g : Nat) : Nat := max a (g * 64)

/-- A region of any unit that shuts the debug master out of a granule (R582). -/
def debugDenied (s : State) (granule : Nat) : Option (Nat × Nat) :=
  (((upto 13).map fun u => (upto 16).map fun r => (u, r)).flatten).find? fun x =>
    covers s x.1 x.2 granule && eff s F.PRT_RGN_ATTR_DEBUG_DENY x.1 x.2 == 1

/-- A fabric address inside a block of register space. -/
def inBlock (a lo hi : Nat) : Bool := decide (0x1800000000 + lo ≤ a) && decide (a ≤ 0x1800000000 + hi)

/-- Why a granule of a transaction is refused: by the unit of its master's group, or for the debug master by DEBUG_DENY of any unit or by
the fixed rule of the Ledger block (R579 to R582). -/
def granuleRefused (s : State) (u : Nat) (x : Access1) (g : Nat) : Option Denial :=
  match granuleDenied s u g x.write x.user with
  | some d => some ⟨firstByte x.addr g, d.1, d.2, u⟩
  | none =>
    if u != 1 then none
    else match debugDenied s g with
      | some d => some ⟨firstByte x.addr g, d.2, 4, d.1⟩
      | none => if x.write && inBlock (g * 64) 0x2000000 0x23FFFFF then some ⟨firstByte x.addr g, 0, 5, 1⟩ else none

/-- The check of R579 to R582 and R585: none allows the transaction. Accesses to the protection block are checked by the fixed rule
of R585 alone. -/
def protCheck (s : State) (x : Access1) : Option Denial :=
  match unitOf x.master with
  | none => none
  | some u =>
    if inBlock x.addr 0x180000 0x18FFFF then
      if (u == 0 || u == 2) && !x.user then none
      else if u == 1 && !x.write then none
      else some ⟨x.addr, 0, 5, u⟩
    else
      (granules x.addr x.len).findSome? fun g => granuleRefused s u x g

/-- A refusal of a lower master in the present FAB cycle stands in PRT_VIOL_LAST of unit `u` (R588). -/
def lowerStands (s : State) (u m : Nat) : Bool := s.prt.violAt.find u == some (fabCyc s) && decide (rd s F.PRT_VIOL_LAST_MASTER u < m)

/-- PRT_VIOL_LAST of unit `u` takes a refusal (R588). -/
def recordDenial (s : State) (u : Nat) (x : Access1) (d : Denial) : State :=
    let s := wr (wr (wr (wr s F.PRT_VIOL_LAST_ADDR u 0 d.addr) F.PRT_VIOL_LAST_MASTER u 0 x.master)
      F.PRT_VIOL_LAST_WRITE u 0 (bit x.write)) F.PRT_VIOL_LAST_USER u 0 (bit x.user)
    let s := wr (wr (wr (wr s F.PRT_VIOL_LAST_REGION u 0 d.region) F.PRT_VIOL_LAST_KIND u 0 d.kind)
      F.PRT_VIOL_LAST_UNIT u 0 d.unit) F.PRT_VIOL_LAST_VALID u 0 1
    { s with prt := { s.prt with violAt := s.prt.violAt.put u (fabCyc s) } }

/-- A refusal is reported in the unit that refused it; of several in one FAB cycle PRT_VIOL_LAST keeps that of the lowest master, and each
counts (R588). -/
def violate (s : State) (x : Access1) (d : Denial) : State :=
  match unitOf x.master with
  | none => s
  | some u =>
    let s := if lowerStands s u x.master then s else recordDenial s u x d
    raiseIf (rdb s F.PRT_CTRL_INT_EN u) (addSat s F.PRT_VIOL_TOTAL_TOTAL u 1) K.PRT_EVENT_VIOLATION u

/-- A unit's group is under an update hold: it presents no new transaction (R583). -/
def groupHeld (s : State) (u : Nat) : Bool := rdb s F.PRT_HOLD_REQ u || rdb s F.PRT_HOLD_HELD u

/-! ### Decode -/

/-- The ranges of R550. -/
inductive Target where
  | dram | varnish | window | register
  deriving DecidableEq, Repr

/-- The range an address lies in, DRAM as far as 64 GiB. -/
def targetOf (a : Nat) : Option Target :=
  if a ≤ 0x0FFFFFFFFF then some .dram
  else if 0x1000000000 ≤ a ∧ a ≤ 0x1002FFFFFF then some .varnish
  else if 0x1010000000 ≤ a ∧ a ≤ 0x10107FFFFF then some .window
  else if 0x1800000000 ≤ a ∧ a ≤ 0x1803FFFFFF then some .register
  else none

/-- The targets a master is connected to (R555). -/
def connected (m : Nat) (t : Target) : Bool :=
  match t with
  | .dram => true
  | .varnish => decide (m ≤ 1) || (decide (16 ≤ m) && decide (m ≤ 47))
  | .window => decide (m ≤ 1) || (decide (16 ≤ m) && decide (m ≤ 47))
  | .register => decide (m ≤ 1) || (decide (16 ≤ m) && decide (m ≤ 31))

/-- The KIND of the first rule of R562 that an access breaks; 0 for none. -/
def decodeKind (s : State) (x : Access1) : Nat :=
  if x.addr ≥ 2 ^ 40 then 5
  else match targetOf x.addr with
    | none => 1
    | some t =>
      let cross := decide (x.addr / 256 ≠ (x.addr + x.len - 1) / 256)
      if t = .dram ∧ (decide (x.addr ≥ dramSize s) || inCheckArea s x.addr || !dramUp s) then 2
      else if !connected x.master t then 3
      else if cross || decide (x.len = 0) || decide (x.len > 256) then 4
      else if t = .register ∧ !((x.len = 4 ∨ x.len = 8) ∧ x.addr % x.len = 0) then 4
      else if t ≠ .dram ∧ x.masked then 4
      else if t = .varnish ∧ x.write then 6
      else 0

/-- A request rejected by the default target is recorded (R562). -/
def decodeError (s : State) (x : Access1) (kind : Nat) : State :=
  let s := wr (wr (wr s F.XBR_ERR_LAST_ADDR 0 0 x.addr) F.XBR_ERR_LAST_MASTER 0 0 x.master)
    F.XBR_ERR_LAST_WRITE 0 0 (bit x.write)
  raise (wr (wr s F.XBR_ERR_LAST_KIND 0 0 kind) F.XBR_ERR_LAST_VALID 0 0 1) K.XBR_EVENT_DECODE

/-- The error a checked access ends with: 0 none, 1 protection, 2 decode (or an uncorrectable DRAM error, which each master treats
alike, R597). A violation or a decode error is recorded on the way. -/
def checkAccess (s : State) (x : Access1) : State × Nat :=
  match protCheck s x with
  | some d => (violate s x d, 1)
  | none =>
    let k := decodeKind s x
    if k = 0 then (s, 0) else (decodeError s x k, 2)

/-! ### QoS, ports and waits (R550, R556 to R559, R564, R583, R606, R608) -/

/-- The highest QoS with which the fetches of a canvas on a composition engine are issued now (R319). -/
def fetchQos (s : State) (c : Nat) : Nat :=
  if rdb s F.CNV_STATUS_PANIC_UP c then 15
  else if rdb s F.CNV_STATUS_QOS_UP c then rd s F.CNV_WEIR_QOS_LOW c else rd s F.CNV_WEIR_QOS_BASE c

/-- QoS of a master's transactions (R556); the composer's fetches carry that of their canvas, `fetchQos`, and masters 80 to 87 the flatten
reads beside them. -/
def qosOf (s : State) (m : Nat) (write : Bool) : Nat :=
  if m = 0 then rd s F.XBR_QOS_SW_HOST
  else if m = 1 then rd s F.XBR_QOS_SW_DEBUG
  else if m < 32 then rd s F.XBR_QOS_SW_SEQ
  else if m < 48 then rd s F.XBR_QOS_SW_CHK
  else if m < 50 then rd s F.XBR_QOS_SW_CPR
  else if m = 50 then rd s F.XBR_QOS_SW_JNL
  else if m < 53 then 9
  else if m = 53 then 11
  else if m = 54 then (if write && s.dmc.panic.contains 32 then 15 else 13)
  else if m < 72 then 6
  else if m = 72 then 5
  else if m < 88 then 4
  else 10

/-- The port that serves an address: a DRAM channel by bits [10:8], or 8 to 10 (R550). -/
def portNo (a : Nat) : Nat :=
  match targetOf a with
  | some .dram => dramChannel a
  | some .varnish => 8
  | some .window => 9
  | _ => 10

/-- FAB cycles for which a granted request occupies its port: one for each 32-byte beat of a write burst, one for a read (R557). -/
def beats (write : Bool) (n : Nat) : Nat := if write then max 1 (ceilDiv n 32) else 1

/-- A port grants a request of master `m`: it is parked on it in compatibility mode (R558), it is occupied for its beats, after those of what it
granted before (R557), and a DRAM channel has the row of its bank open (R600). -/
def noteGrant (s : State) (p m a n : Nat) (write : Bool) : State :=
  let f := { s.fab with granted := s.fab.granted.put p m
                        busyTo := s.fab.busyTo.put p (max (s.fab.busyTo.get p 0) (fabCyc s) + beats write n) }
  { s with fab := f, dmc := if p < 8 then { s.dmc with open_ := s.dmc.open_.put (bankKey a) (dramRow a) } else s.dmc }

/-- The shim of a master waits for a reset of it to end (R564). -/
def inReset (s : State) (m : Nat) : Bool := s.fab.resets.any fun x => x.1 == m

/-- Channel `p` serves nothing: its retraining window is open, or a change of the set point runs (R606, R608). -/
def channelStopped (s : State) (p : Nat) : Bool := s.dmc.window == some p || rdb s F.DMC_GSTATUS_FREQ_BUSY

/-- An access of a hardware master cannot be made now: its group is under an update hold, its shim in reset, or DRAM stopped on a channel, over all
of which its bursts spread (R564, R583, R606, R608). A command that brings such an access is not taken, and its sender gives it again (DESIGN
CHOICE, log entry 141). -/
def accessWaits (s : State) (m : Nat) : Bool :=
  (match unitOf m with | some u => groupHeld s u | none => false) || inReset s m || s.dmc.window.isSome || rdb s F.DMC_GSTATUS_FREQ_BUSY

/-! ### Accesses of memory targets -/

/-- Bytes of a sequencer window (R406). -/
def windowRead (s : State) (off n : Nat) : List Byte :=
  (upto n).map fun k =>
    let a := off + k
    let q := seqOf s (a / 0x80000)
    let o := a % 0x80000
    if o < 0x20000 then Memory.read q.imem o else Memory.read q.dmem (o - 0x20000)

/-- The state in which a sequencer's instruction memory may be written (R412). -/
def loadable (q : Seq) : Bool := q.run == .halted || q.run == .faulted

/-- A fabric write into the window of sequencer `n`: data memory takes it in any state; instruction memory only while HALTED or
FAULTED, and otherwise the write is dropped with an error response and raises IMEM_WR (R412). -/
def windowWrite (s : State) (n off : Nat) (l : List Byte) : State × Nat :=
  let q := seqOf s n
  if off ≥ 0x20000 then (setSeq s n { q with dmem := Memory.writeBytes q.dmem (off - 0x20000) l }, 0)
  else if loadable q then (setSeq s n { q with imem := Memory.writeBytes q.imem off l }, 0)
  else (raise s K.SEQ_EVENT_IMEM_WR n, 2)

/-- A read of DRAM, the Varnish store or a window that has passed its checks: the state, which an ECC error changes, an error and the
bytes. -/
def targetRead (s : State) (a n : Nat) : State × Nat × List Byte :=
  match targetOf a with
  | some .dram => match dramRead s a n with
    | some l => (meetWeak (s.dmc.weak.filter (wordMeets a n)) s, 0, l)
    | none => (meetPoison s a n, 2, List.replicate n 0)
  | some .varnish => (s, 0, Memory.readBytes s.cmp.store (a - 0x1000000000) n)
  | some .window => (s, 0, windowRead s (a - 0x1010000000) n)
  | _ => (s, 2, List.replicate n 0)

/-- Words with a single-bit error of which a write covers a part alone: its read-modify-write finds the error (R596, R597). -/
def partlyWritten (s : State) (a n : Nat) (holes : List Nat) : List Nat :=
  s.dmc.weak.filter fun w => (upto 8).any (byteEnabled a n holes w) && !(upto 8).all (byteEnabled a n holes w)

/-- A write of DRAM or a window that has passed its checks; the bytes in `holes` are not enabled (R553). -/
def targetWrite (s : State) (a : Nat) (l : List Byte) (holes : List Nat := []) : State × Nat :=
  match targetOf a with
  | some .dram =>
    let r := dramWriteMasked s a l holes
    if r.2 then (meetWeak (partlyWritten s a l.length holes) r.1, 0) else (meetPoison s a l.length, 2)
  | some .window => windowWrite s ((a - 0x1010000000) / 0x80000) ((a - 0x1010000000) % 0x80000) l
  | _ => (s, 2)

/-- The pieces of a range, none crossing a 256-byte boundary (R553): a hardware master splits its own bursts. -/
def pieces (a : Nat) : Nat → Nat → List (Nat × Nat)
  | 0, _ => []
  | fuel + 1, n =>
    if n = 0 then [] else
      let k := min n (256 - a % 256)
      (a, k) :: pieces (a + k) fuel (n - k)

/-- The error that several pieces of one access end with: a protection error where any piece met one (R77), otherwise the first. -/
def firstError (a b : Nat) : Nat := if a = 1 ∨ b = 1 then 1 else if a = 0 then b else a

/-- The masters whose job ends at its first protection error, so that nothing follows it: the check units and the compression engines (R77,
R482). -/
def endsAtDenial (master : Nat) : Bool := decide (32 ≤ master) && decide (master ≤ 49)

/-- A piece of a hardware master's read after what the pieces before it came to: checked, granted at its port, and served. -/
def readPiece (master : Nat) (acc : State × Nat × List Byte) (p : Nat × Nat) : State × Nat × List Byte :=
  if endsAtDenial master && acc.2.1 == 1 then (acc.1, 1, acc.2.2 ++ List.replicate p.2 0)
  else
    let c := checkAccess acc.1 { master := master, addr := p.1, len := p.2, write := false }
    if c.2 ≠ 0 then (c.1, firstError acc.2.1 c.2, acc.2.2 ++ List.replicate p.2 0)
    else
      let r := targetRead (noteGrant c.1 (portNo p.1) master p.1 p.2 false) p.1 p.2
      (r.1, firstError acc.2.1 r.2.1, acc.2.2 ++ r.2.2)

/-- A hardware master's read of a range: the state, the error it ends with, and the bytes (zeros where a piece fails). Its bursts are granted and
answered one after another within the command that brings them (DESIGN CHOICE, log entry 141). -/
def busRead (s : State) (master a n : Nat) : State × Nat × List Byte := (pieces a (n / 256 + 2) n).foldl (readPiece master) (s, 0, [])

/-- A piece of a hardware master's write. -/
def writePiece (master a : Nat) (l : List Byte) (acc : State × Nat) (p : Nat × Nat) : State × Nat :=
  if endsAtDenial master && acc.2 == 1 then acc
  else
    let c := checkAccess acc.1 { master := master, addr := p.1, len := p.2, write := true }
    if c.2 ≠ 0 then (c.1, firstError acc.2 c.2)
    else
      let r := targetWrite (noteGrant c.1 (portNo p.1) master p.1 p.2 true) p.1 (bytesAt l (p.1 - a) p.2)
      (r.1, firstError acc.2 r.2)

/-- A hardware master's write of a range: the state and the error it ends with. -/
def busWrite (s : State) (master a : Nat) (l : List Byte) : State × Nat :=
  (pieces a (l.length / 256 + 2) l.length).foldl (writePiece master a l) (s, 0)

/-- A range lies wholly in DRAM, as the size checks of jobs ask (R75, R482). -/
def wholeInDram (s : State) (a n : Nat) : Bool := decide (a < 2 ^ 40) && inDram s a n

/-! ### Master resets (R564) -/

/-- Current generation of a master. -/
def genOf (s : State) (m : Nat) : Nat := s.fab.gens.get m 0

/-- What a sequencer has outstanding goes with its IDs at a reset of its shim: nothing comes back for it, and an fld that waits for its data is
issued again (DESIGN CHOICE, log entry 142: R564 does not say what the sequencer does). -/
def dropIssued (q : Seq) : Seq := { q with posted := [], read := none }

/-- A master reset: bursts not yet presented, those presented in this FAB cycle among them, are dropped whole, and the shim advances its 2-bit
generation (R564). What the host's shim answers to goes with its requests. The shim is busy until MRESET_DONE. -/
def shimReset (s : State) (m : Nat) : State :=
  let stays := fun (x : Xact) => x.master != m || x.arrived != fabCyc s
  let f := { s.fab with held := s.fab.held.filter (fun x => x.master != m), ports := s.fab.ports.map fun e => (e.1, e.2.filter stays)
                        gens := s.fab.gens.put m ((genOf s m + 1) % 4)
                        resets := s.fab.resets.filter (fun x => x.1 != m) ++ [(m, fabCyc s)] }
  let s := { s with fab := if m = 0 then { f with hostWait := [], host := [] } else f }
  let s := if 16 ≤ m ∧ m ≤ 31 then updSeq s (m - 16) dropIssued else s
  wr0 (wr0 s F.XBR_MRESET_STATUS_BUSY 1) F.XBR_MRESET_STATUS_MASTER m

/-- The masters of R555. -/
def allMasters : List Nat := [0, 1] ++ (upto 16).map (16 + ·) ++ (upto 16).map (32 + ·) ++ [48, 49, 50, 51, 52, 53, 54, 55, 56] ++
  (upto 9).map (64 + ·) ++ (upto 16).map (80 + ·)

/-- The hardware masters: all but the host and the debug master. -/
def hardwareMasters : List Nat := allMasters.filter (2 ≤ ·)

/-- Every hardware master is reset (R636, R642). -/
def resetMasters (s : State) : State := each hardwareMasters shimReset s

end Sys2Proof.Machine
end

