-- ==== Sys2Proof/Machine/Dram.lean ====
section
/-!
DEFINITION. The DRAM controller: training, retraining windows, refresh, panic, frequency changes, ECC errors, channel fault and
Gesso hold (R591 to R617).
-/

namespace Sys2Proof.Machine

/-- A Gesso hold that a channel fault or RESET brought in ends, unless the clock loss of R30 holds it (R614). -/
def leaveMemHold (s : State) : State :=
  let s := { s with dmc := { s.dmc with holdMem := false } }
  if !rdb s F.DMC_GSTATUS_HOLD || s.dmc.holdClock then s
  else
    let s := wr0 s F.DMC_GSTATUS_HOLD 0
    let s := each (upto 32) (fun s c => updCnv s c fun x => { x with gesso := { x.gesso with hold := false } }) s
    dramEntry s 5 0xFF 0 0 0 0 0

/-- A frequency change that runs or is deferred ends without FREQ_DONE, as INIT and RESET leave none to resume at (DESIGN CHOICE, log entry
36: R608 and R614 do not say). -/
def dropFreq (s : State) : State :=
  wr0 (wr0 { s with dmc := { s.dmc with freq := none } } F.DMC_GSTATUS_FREQ_BUSY 0) F.DMC_GSTATUS_DEFERRED 0

/-- INIT is accepted: no training runs, that of a boot among them, and no Gesso hold of R30 (R605). -/
def initAccepted (s : State) : Bool :=
  !rdb s F.DMC_GSTATUS_INIT_BUSY && !rdb s F.DMC_GSTATUS_READY && !s.dmc.holdClock &&
    !(upto 8).any fun c => rd s F.DMC_CH_STATUS_STATE c == 1

/-- INIT starts: every channel is TRAINING and what DRAM held is lost (R604, R614). -/
def startInit (s : State) : State :=
  if !initAccepted s then s
  else
    let s := each (upto 8) (fun s c => wr s F.DMC_CH_STATUS_STATE c 0 1) (dropFreq s)
    { wr0 s F.DMC_GSTATUS_INIT_BUSY 1 with
      mem := [], jnl := { s.jnl with ring := [] },
      dmc := { s.dmc with bad := [], weak := [], linkBad := [], open_ := [], ecc := rdReg s R.DMC_ECC_EN, rowBits := rd s F.DMC_CTRL_ROW_BITS, window := none } }

/-- DRAM_INIT: DMC_CTRL.INIT (R604, R605). -/
def execDramInit (s : State) : Host.Outcome State Fault Refusal := .next (startInit s)

/-- Channel `c` failed its training: a step did not complete, or its margin is below MARGIN_MIN (R604). -/
def trainFailed (s : State) (failed : Nat) (margins : List (BitVec 8)) (c : Nat) : Bool :=
  bitOn failed c || decide ((margins.getD c 0).toNat < rd s F.DMC_CH_THRESH_MARGIN_MIN c)

/-- READY is set: the retraining intervals are counted from this FAB edge (R604, R606). -/
def readySet (s : State) : State :=
  { wr0 s F.DMC_GSTATUS_READY 1 with dmc := { s.dmc with readyAt := fabCyc s, windows := [] } }

/-- Training ends with the channels that failed and the margins found (R604). -/
def finishInit (s : State) (failed : Nat) (margins : List (BitVec 8)) : State :=
  let bad := (upto 8).filter (trainFailed s failed margins)
  let s := wr0 s F.DMC_GSTATUS_INIT_BUSY 0
  let s := each (upto 8) (fun s c => wr s F.DMC_CH_STATUS_MARGIN c 0 (margins.getD c 0).toNat) s
  if bad.isEmpty then
    let s := each (upto 8) (fun s c => wr (wr s F.DMC_CH_STATUS_STATE c 0 2) F.DMC_CH_STATUS_MARGIN_OK c 0 1) s
    let s := readySet (wr0 s F.DMC_GSTATUS_SP (rd s F.DMC_CTRL_INIT_SP))
    leaveMemHold (raise s K.DMC_GEVENT_INIT_DONE)
  else
    let s := each (upto 8) (fun s c =>
      if bad.contains c then raise (wr s F.DMC_CH_STATUS_STATE c 0 3) K.DMC_CH_EVENT_TRAIN_FAIL c
      else wr s F.DMC_CH_STATUS_STATE c 0 2) s
    dramEntry (raise s K.DMC_GEVENT_INIT_FAIL) 8 0xFF 0 0 0 0 0

/-- DMC_CTRL.RESET stops every channel and enters Gesso hold; the contents are lost (R614). -/
def dramReset (s : State) : State :=
  let s := each (upto 8) (fun s c => wr s F.DMC_CH_STATUS_STATE c 0 0) (dropFreq s)
  let s := wr0 (wr0 s F.DMC_GSTATUS_READY 0) F.DMC_GSTATUS_INIT_BUSY 0
  enterHold { s with mem := [], jnl := { s.jnl with ring := [] }, dmc := { s.dmc with bad := [], weak := [], linkBad := [], open_ := [], window := none } } 1

/-- DRAM_RESET (R614). -/
def execDramReset (s : State) : Host.Outcome State Fault Refusal := .next (dramReset s)

/-- A frequency request is refused (R609). -/
def freqRefused (s : State) (sp : Nat) : Bool :=
  !rdb s F.DMC_GSTATUS_READY || rdb s F.DMC_GSTATUS_FREQ_BUSY || rdb s F.DMC_GSTATUS_DEFERRED ||
    rdb s F.DMC_GSTATUS_HOLD || sp == 3 || sp == rd s F.DMC_GSTATUS_SP

/-- DMC_FREQ.START: the change starts, is deferred by an open window, or is refused (R608, R609). -/
def freqRequest (s : State) (sp : Nat) : State :=
  if freqRefused s sp then raise s K.DMC_GEVENT_FREQ_REFUSED
  else
    let s := { s with dmc := { s.dmc with freq := some sp } }
    if s.dmc.window.isSome then raise (wr0 s F.DMC_GSTATUS_DEFERRED 1) K.DMC_GEVENT_FREQ_DEFERRED
    else wr0 s F.DMC_GSTATUS_FREQ_BUSY 1

/-- FREQ_REQUEST (R608, R609). -/
def execFreqRequest (sp : BitVec 2) (s : State) : Host.Outcome State Fault Refusal := .next (freqRequest s sp.toNat)

/-- FREQ_DONE: traffic resumes at the new set point (R608). -/
def execFreqDone (s : State) : Host.Outcome State Fault Refusal :=
  match s.dmc.freq with
  | none => .next s
  | some sp =>
    if !rdb s F.DMC_GSTATUS_FREQ_BUSY then .next s
    else
      let s := { s with dmc := { s.dmc with freq := none } }
      let s := wr0 (wr0 s F.DMC_GSTATUS_SP sp) F.DMC_GSTATUS_FREQ_BUSY 0
      .next (dramEntry (raise s K.DMC_GEVENT_FREQ_DONE) 7 0xFF 0 0 0 0 0)

/-- The retraining interval of 100 ms that runs, and the FAB cycles since its start (R606). -/
def retrainInterval (s : State) : Nat × Nat := ((fabCyc s - s.dmc.readyAt) / 110000000, (fabCyc s - s.dmc.readyAt) % 110000000)

/-- The window of channel `c` is due: c × 12.5 ms of the interval have passed and it has had none in it; while a panic is raised it waits up to
1 ms more (R602, R606). -/
def windowDue (s : State) (c : Nat) : Bool :=
  let k := retrainInterval s
  s.dmc.windows.find c != some k.1 && decide (c * 13750000 + (if rdb s F.DMC_GSTATUS_PANIC then 1100000 else 0) ≤ k.2)

/-- RETRAIN_WINDOW_START: the window of channel `c` opens and its correctable count returns to 0; a window waits for a frequency
change that runs (R606, R609, R611). -/
def execRetrainWindowStart (c : Fin 8) (s : State) : Host.Outcome State Fault Refusal :=
  if !rdb s F.DMC_GSTATUS_READY || s.dmc.window.isSome || rdb s F.DMC_GSTATUS_FREQ_BUSY || !windowDue s c.val then .next s
  else
    let d := { s.dmc with window := some c.val, windows := s.dmc.windows.put c.val (retrainInterval s).1 }
    .next (wr { s with dmc := d } F.DMC_CH_CE_WINDOW_COUNT c.val 0 0)

/-- The margin of a window is applied, or the last good setting kept (R610). -/
def windowMargin (s : State) (c margin : Nat) : State :=
  let s := wr s F.DMC_CH_STATUS_MARGIN c 0 margin
  let ok := rdb s F.DMC_CH_STATUS_MARGIN_OK c
  if margin < rd s F.DMC_CH_THRESH_MARGIN_MIN c then
    if ok then
      let s := raise (wr s F.DMC_CH_STATUS_MARGIN_OK c 0 0) K.DMC_CH_EVENT_MARGIN_LOST c
      dramEntry s 1 c margin (rd s F.DMC_CH_CE_WINDOW_COUNT c) 0 0 0
    else s
  else
    let s := { s with dmc := { s.dmc with setting := s.dmc.setting.put c margin } }
    if ok then s
    else dramEntry { wr s F.DMC_CH_STATUS_MARGIN_OK c 0 1 with dmc := { s.dmc with restored := s.dmc.restored.put c (fabCyc s) } } 2 c margin (rd s F.DMC_CH_CE_WINDOW_COUNT c) 0 0 0

/-- RETRAIN_WINDOW_END: the window of channel `c` closes with the margin measured; a deferred frequency change starts (R609, R610). -/
def execRetrainWindowEnd (c : Fin 8) (margin : BitVec 8) (s : State) : Host.Outcome State Fault Refusal :=
  if s.dmc.window ≠ some c.val then .next s
  else
    let s := windowMargin { s with dmc := { s.dmc with window := none } } c.val margin.toNat
    if rdb s F.DMC_GSTATUS_DEFERRED then .next (wr0 (wr0 s F.DMC_GSTATUS_DEFERRED 0) F.DMC_GSTATUS_FREQ_BUSY 1)
    else .next s

/-- REFRESH: channel `c` comes to a refresh interval: postponed under panic while fewer than 8 are owed, taken otherwise, and
without panic a postponed one is repaid with it (R602, R603). -/
def execRefresh (c : Fin 8) (s : State) : Host.Outcome State Fault Refusal :=
  let p := rd s F.DMC_CH_STATUS_POSTPONED c.val
  if rd s F.DMC_CH_STATUS_STATE c.val ≠ 2 then .next s
  else if rdb s F.DMC_GSTATUS_PANIC then
    .next (if p < 8 then wr s F.DMC_CH_STATUS_POSTPONED c.val 0 (p + 1) else s)
  else .next (wr s F.DMC_CH_STATUS_POSTPONED c.val 0 (p - 1))

/-- MR4_READ: channel `c` takes the refresh-rate code of its devices (R603). -/
def execMr4Read (c : Fin 8) (code : BitVec 3) (s : State) : Host.Outcome State Fault Refusal :=
  if rd s F.DMC_CH_STATUS_STATE c.val ≠ 2 then .next s
  else .next (wr s F.DMC_CH_STATUS_REFRESH c.val 0 code.toNat)

/-- The FIFO of a canvas is in panic (R319). -/
def fifoPanic (s : State) (source : Nat) : Bool := decide (source < 32) && rdb s F.CNV_STATUS_PANIC_UP source

/-- PANIC_RAISE: the panic of a real-time port reaches the channels: that of a canvas fetch (0 to 31) while its FIFO is in panic, or the
landing's (32), whose buffer level only the sender knows (R319, R601, R603). -/
def execPanicRaise (source : Fin 33) (s : State) : Host.Outcome State Fault Refusal :=
  if s.dmc.panic.contains source.val || (decide (source.val < 32) && !fifoPanic s source.val) then .next s
  else
    let first := s.dmc.panic.isEmpty
    let s := wr0 { s with dmc := { s.dmc with panic := s.dmc.panic ++ [source.val] } } F.DMC_GSTATUS_PANIC 1
    .next (if first then raise s K.DMC_GEVENT_PANIC_ON else s)

/-- PANIC_RELEASE: a real-time port has left its panic level (R319, R601). -/
def execPanicRelease (source : Fin 33) (s : State) : Host.Outcome State Fault Refusal :=
  if fifoPanic s source.val then .next s
  else
    let p := s.dmc.panic.filter (· != source.val)
    .next (wr0 { s with dmc := { s.dmc with panic := p } } F.DMC_GSTATUS_PANIC (bit (!p.isEmpty)))

/-- The error could be found: inline ECC is enabled for the region, or link ECC runs at the set point (R591, R594). -/
def eccChecks (s : State) (addr : Nat) (kind : EccKind) : Bool :=
  if kind != .inline then rd s F.DMC_GSTATUS_SP != 2 else bitOn s.dmc.ecc (addr / 2 ^ 30)

/-- What an error leaves for the accesses to come: an inline one stays in its word until that is written, and every access finds it again; an
uncorrectable link error on a read spoils the read that finds it, the next of its word (R597, R598). -/
def plantError (s : State) (w : Nat) (uncorr : Bool) (kind : EccKind) : State :=
  let add := fun (l : List Nat) => if l.contains w then l else l ++ [w]
  match kind, uncorr with
  | .inline, true => { s with dmc := { s.dmc with bad := add s.dmc.bad, weak := s.dmc.weak.filter (· != w) } }
  | .inline, false => if s.dmc.bad.contains w then s else { s with dmc := { s.dmc with weak := add s.dmc.weak } }
  | .linkRead, true => { s with dmc := { s.dmc with linkBad := add s.dmc.linkBad } }
  | _, _ => s

/-- DRAM_READ_ECC: an access that serves a master finds an error, inline or on the link, corrected or uncorrectable (R597, R598, R611, R612,
R615). The command comes before the one that brings the access (log entry 145). -/
def execDramReadEcc (addr : BitVec 36) (uncorr : Bool) (kind : EccKind) (s : State) : Host.Outcome State Fault Refusal :=
  let a := addr.toNat
  let c := dramChannel a
  if rd s F.DMC_CH_STATUS_STATE c ≠ 2 ∨ s.dmc.window = some c ∨ !(dramUp s && inDram s a 1) ∨ !eccChecks s a kind then .next s
  else
    .next (eccError (plantError s (a / 8) uncorr kind) a uncorr (kind != .inline))

end Sys2Proof.Machine
end

