-- ==== Sys2Proof/Machine/Crc.lean ====
section
/-!
DEFINITION. The sums the spec computes: CRC-32C of the seals (R42, R44, R53), the parameterised CRC of the check units (R71),
CRC-32 and Adler-32 of the compression engines (R485), and SHA-256 of the Journal chain and the boot image (R492, R630).
-/

namespace Sys2Proof.Machine

/-- One bit of the reflected CRC-32C register (R44). -/
def crc32cBit (r : BitVec 32) : BitVec 32 := (r >>> 1) ^^^ (if r.getLsbD 0 then 0x82F63B78 else 0)

/-- One byte through the reflected CRC-32C register (R44). -/
def crc32cByte (r : BitVec 32) (b : Byte) : BitVec 32 :=
  let x := r ^^^ b.setWidth 32
  crc32cBit (crc32cBit (crc32cBit (crc32cBit (crc32cBit (crc32cBit (crc32cBit (crc32cBit x)))))))

/-- Bytes through the register: crc32c_update of R44. -/
def crc32cUpdate (r : BitVec 32) : List Byte → BitVec 32
  | [] => r
  | b :: t => crc32cUpdate (crc32cByte r b) t

/-- CRC-32C without fold. -/
def crc32c (l : List Byte) : BitVec 32 := crc32cUpdate 0xFFFFFFFF l ^^^ 0xFFFFFFFF

/-- The seal CRC of a tile: crc over its address block and then its bytes, as the fold of R44 defines. -/
def sealTile (block tile : List Byte) : BitVec 32 :=
  let f := crc32cUpdate 0xFFFFFFFF block ^^^ 0xFFFFFFFF
  crc32cUpdate (f ^^^ 0xFFFFFFFF) tile ^^^ 0xFFFFFFFF

/-- `n` zero bytes through the register. -/
def crc32cZeros (r : BitVec 32) : Nat → BitVec 32
  | 0 => r
  | n + 1 => crc32cZeros (crc32cByte r 0) n

/-- seq_term of R53: the linear CRC of the SEQ bytes in place, shifted over `n` tile bytes. -/
def seqTerm (s n : Nat) : BitVec 32 :=
  let d : List Byte := [0, 0, 0, 0] ++ leBytes s 4 ++ List.replicate 8 0
  crc32cZeros (crc32cUpdate 0 d) n

/-- seal_from_provisional of R53. -/
def sealFromProvisional (prov : BitVec 32) (s n : Nat) : BitVec 32 := prov ^^^ seqTerm s n

/-- The CRC of the tile bytes alone from a seal CRC: the address block's contribution removed by shifting (R340). `blk` is the
address block and `n` the tile's byte count. -/
def unfoldSeal (crc : BitVec 32) (blk : List Byte) (n : Nat) : BitVec 32 :=
  let f := crc32cUpdate 0xFFFFFFFF blk
  crc ^^^ crc32cZeros (f ^^^ 0xFFFFFFFF) n

/-- Bits of a number reversed over `w` bits. -/
def reverseBits (v : Nat) : Nat → Nat
  | 0 => 0
  | w + 1 => (v % 2) * 2 ^ w + reverseBits (v / 2) w

/-- One bit, most significant first, through a CRC register of width `w` (R71). -/
def crcGenBit (w poly r b : Nat) : Nat :=
  let top := r / 2 ^ (w - 1) % 2
  let s := r * 2 % 2 ^ w
  if (top + b) % 2 == 1 then s ^^^ poly else s

/-- The `k` top-first bits of a byte through the register. -/
def crcGenBits (w poly r v : Nat) : Nat → Nat
  | 0 => r
  | k + 1 => crcGenBits w poly (crcGenBit w poly r (v / 2 ^ k % 2)) v k

/-- One byte through the register; with `refin` its least significant bit goes first (R71). -/
def crcGenByte (w poly : Nat) (refin : Bool) (r : Nat) (b : Byte) : Nat :=
  crcGenBits w poly r (if refin then reverseBits b.toNat 8 else b.toNat) 8

/-- The parameterised CRC of R71 over bytes from the starting register `r`. -/
def crcGeneric (w poly : Nat) (refin refout : Bool) (xorout r : Nat) (l : List Byte) : Nat :=
  let e := l.foldl (crcGenByte w poly refin) r
  ((if refout then reverseBits e w else e) ^^^ xorout) % 2 ^ w

/-- One bit of the reflected CRC-32 register of gzip. -/
def crc32Bit (r : BitVec 32) : BitVec 32 := (r >>> 1) ^^^ (if r.getLsbD 0 then 0xEDB88320 else 0)

/-- One byte through the reflected CRC-32 register. -/
def crc32Byte (r : BitVec 32) (b : Byte) : BitVec 32 :=
  let x := r ^^^ b.setWidth 32
  crc32Bit (crc32Bit (crc32Bit (crc32Bit (crc32Bit (crc32Bit (crc32Bit (crc32Bit x)))))))

/-- CRC-32 as gzip uses it. -/
def crc32 (l : List Byte) : BitVec 32 := l.foldl crc32Byte 0xFFFFFFFF ^^^ 0xFFFFFFFF

/-- Adler-32 as zlib uses it. -/
def adler32 (l : List Byte) : Nat :=
  let p := l.foldl (fun (p : Nat × Nat) b => let a := (p.1 + b.toNat) % 65521; (a, (p.2 + a) % 65521)) (1, 0)
  p.2 * 65536 + p.1

/-! ### SHA-256 (R492, R630): its constants are the fractions of roots of primes, and its eight working words are two histories -/

/-- The greatest number above `r` by fewer than `2 ^ n` whose `k`-th power is at most `x`. -/
def rootBits (k x : Nat) : Nat → Nat → Nat
  | 0, r => r
  | n + 1, r => rootBits k x n (if (r + 2 ^ n) ^ k ≤ x then r + 2 ^ n else r)

/-- The first 32 binary digits of the fraction of the `k`-th root of `p`. -/
def rootFraction (k p : Nat) : BitVec 32 := BitVec.ofNat 32 (rootBits k (p * 2 ^ (32 * k)) 37 0)

/-- The first 64 primes. -/
def primes64 : List Nat := (List.range 312).filter fun n => decide (2 ≤ n) && (List.range 18).all fun d => decide (d < 2) || d == n || n % d != 0

/-- The sum without carry of a word turned right by several amounts. -/
def turns (x : BitVec 32) (amounts : List Nat) : BitVec 32 := amounts.foldl (fun acc k => acc ^^^ x.rotateRight k) 0

/-- The word that follows a message schedule kept newest first. -/
def nextWord (w : List (BitVec 32)) : BitVec 32 :=
  let far := w.getD 14 0
  let near := w.getD 1 0
  w.getD 15 0 + (turns far [7, 18] ^^^ (far >>> 3)) + w.getD 6 0 + (turns near [17, 19] ^^^ (near >>> 10))

/-- A schedule extended by `n` words. -/
def extendWords (w : List (BitVec 32)) : Nat → List (BitVec 32)
  | 0 => w
  | n + 1 => extendWords (nextWord w :: w) n

/-- One round: each history gains its newest word in front. -/
def mixRound (h : List (BitVec 32) × List (BitVec 32)) (add : BitVec 32) : List (BitVec 32) × List (BitVec 32) :=
  let p := fun k => h.1.getD k 0
  let q := fun k => h.2.getD k 0
  let choose := (q 0 &&& q 1) ||| (~~~(q 0) &&& q 2)
  let most := (p 0 &&& p 1) ||| (p 2 &&& (p 0 ||| p 1))
  let u := q 3 + turns (q 0) [6, 11, 25] + choose + add
  ((u + turns (p 0) [2, 13, 22] + most) :: h.1.take 3, (p 3 + u) :: h.2.take 3)

/-- A 64-byte block taken into the eight hash words. -/
def hashBlock (hash : List (BitVec 32)) (blk : List Byte) : List (BitVec 32) :=
  let first := ((List.range 16).map fun i => BitVec.ofNat 32 (beAt blk (4 * i) 4)).reverse
  let adds := ((primes64.map (rootFraction 3)).zip (extendWords first 48).reverse).map fun p => p.1 + p.2
  let r := adds.foldl mixRound (hash.take 4, hash.drop 4)
  (hash.zip (r.1 ++ r.2)).map fun p => p.1 + p.2

/-- The blocks of a padded message, `n` at most, taken in. -/
def hashBlocks (hash : List (BitVec 32)) (l : List Byte) : Nat → List (BitVec 32)
  | 0 => hash
  | n + 1 => if l.isEmpty then hash else hashBlocks (hashBlock hash (l.take 64)) (l.drop 64) n

/-- SHA-256 of a byte string. -/
def sha256 (l : List Byte) : List Byte :=
  let m := l ++ 0x80 :: List.replicate ((119 - l.length % 64) % 64) 0 ++ beBytes (8 * l.length) 8
  (hashBlocks ((primes64.take 8).map (rootFraction 2)) m (m.length / 64)).flatMap fun x => beBytes x.toNat 4

end Sys2Proof.Machine
end

