-- ==== Sys2Proof/Machine/Journal.lean ====
section
/-!
DEFINITION. The Journal: requests and their order, entries and their chain, staging and the ring (R490 to R497, R503).
-/

namespace Sys2Proof.Machine

/-- The request comes from a program or from host software, and waits for a place when the queue is full (R491). -/
def requestWaits (r : JournalRequest) : Bool := r.ty == 0x0041 || r.ty == 0x0070

/-- `a` is taken before `b`: it is START, the first entry after every reset (R493), or it arrived in an earlier cycle, or earlier in the order
of R490. -/
def requestBefore (a b : JournalRequest) : Bool :=
  (a.ty == 0x0001 && b.ty != 0x0001) ||
    (b.ty != 0x0001 && (decide (a.cyc < b.cyc) || (a.cyc == b.cyc && decide (a.rank < b.rank))))

/-- The request that is taken next: the earliest in the order of R490, those that wait left out while the queue is full. -/
def nextRequest (full : Bool) : List JournalRequest → Option JournalRequest
  | [] => none
  | r :: t =>
    match nextRequest full t with
    | none => if full && requestWaits r then none else some r
    | some b => if !(full && requestWaits r) && !requestBefore b r then some r else some b

/-- The list without its first element equal to `r`. -/
def dropRequest (r : JournalRequest) : List JournalRequest → List JournalRequest
  | [] => []
  | x :: t => if x = r then t else x :: dropRequest r t

/-- JOURNAL_REQUEST: one request is taken into the queue of 256 with its time, or a hardware request is lost when the queue is full
(R490, R491). -/
def execJournalRequest (s : State) : Host.Outcome State Fault Refusal :=
  let full := decide (s.jnl.queue.length ≥ 256)
  match nextRequest full s.jnl.asked with
  | none => .next s
  | some r =>
    let asked := dropRequest r s.jnl.asked
    if full then
      let s := { s with jnl := { s.jnl with asked := asked, lost := s.jnl.lost + 1 } }
      .next (raise (addSat s F.JNL_LOST_LOST 0 1) K.JNL_EVENT_QUEUE_LOST)
    else
      let t : JournalRequest := { r with time := fabNs s, unlocked := !rdb s F.PTP_STATE_LOCKED }
      .next (draw { s with jnl := { s.jnl with asked := asked, queue := s.jnl.queue ++ [t] } })

/-- Entries drain to the ring (R496). -/
def draining (s : State) : Bool :=
  rdb s F.JNL_CTRL_EN && rd s F.JNL_CTRL_RING_MIB != 0 && dramUp s && !rdb s F.DMC_GSTATUS_INIT_BUSY

/-- The 128 bytes of an entry (R492). -/
def entryBytes (s : State) (ty time : Nat) (unlocked : Bool) (payload : List Byte) : List Byte :=
  leBytes ty 2 ++ [1, BitVec.ofNat 8 (bit (!draining s) + 2 * bit unlocked)] ++ leBytes s.jnl.next 8 ++
  leBytes (time / 1000000000) 6 ++ leBytes (time % 1000000000) 4 ++
  [BitVec.ofNat 8 s.straps.device, BitVec.ofNat 8 (bit s.straps.position + 2 * bit (rdb s F.TND_STATUS_PAIRED))] ++
  List.replicate 24 0 ++ payload48 payload ++ s.jnl.digest

/-- An entry is appended: it takes the next INDEX, is chained to the head and formed in the staging SRAM; an undrained entry in its
slot is lost (R493, R496). -/
def appendEntry (s : State) (ty time : Nat) (unlocked : Bool) (payload : List Byte) : State :=
  let e := entryBytes s ty time unlocked payload
  let i := s.jnl.next
  let lose := decide (s.jnl.drain + 2048 ≤ i)
  let gap := if lose then (match s.jnl.gap with | none => some (s.jnl.drain, 1) | some (f, n) => some (f, n + 1)) else s.jnl.gap
  let s := { s with jnl := { s.jnl with next := i + 1, digest := sha256 e, staging := s.jnl.staging.put (i % 2048) e,
                                        gap := gap, drain := if lose then s.jnl.drain + 1 else s.jnl.drain } }
  if lose then raise (addSat s F.JNL_LOST_LOST 0 1) K.JNL_EVENT_STAGE_LOST else s

/-- The payload of a BOUNDARY entry (R494). -/
def boundaryPayload (kind ack first count : Nat) : List Byte :=
  [BitVec.ofNat 8 kind] ++ leBytes ack 8 ++ leBytes first 8 ++ leBytes count 8

/-- A BOUNDARY entry is appended, with the time at which it is formed (R491, R494 to R496; log entry 6). -/
def appendBoundary (s : State) (payload : List Byte) : State :=
  draw (appendEntry s 0x0002 (fabNs s) (!rdb s F.PTP_STATE_LOCKED) payload)

/-- JOURNAL_APPEND: the next entry is formed: the BOUNDARY for lost requests, which follows the entry that made room in the queue, a BOUNDARY
that is owed, or the oldest request of the queue (R490 to R494). -/
def execJournalAppend (s : State) : Host.Outcome State Fault Refusal :=
  if s.jnl.lost ≠ 0 ∧ s.jnl.room then
    .next (appendBoundary { s with jnl := { s.jnl with lost := 0, room := false } } (boundaryPayload 3 0 0 s.jnl.lost))
  else match s.jnl.owed, s.jnl.queue with
    | p :: t, _ => .next (appendBoundary { s with jnl := { s.jnl with owed := t } } p)
    | [], r :: t =>
      .next (appendEntry { s with jnl := { s.jnl with queue := t, room := s.jnl.lost != 0 } } r.ty r.time r.unlocked r.payload)
    | [], [] => .next s

/-- The first entry drains to the ring, or nothing where draining is stopped or every entry is drained (R495, R496). -/
def drainOne (s : State) : State :=
  if !(draining s && decide (s.jnl.drain < s.jnl.next)) || accessWaits s 50 then s
  else
    let i := s.jnl.drain
    let n := rd s F.JNL_CTRL_RING_MIB * 8192
    let a := rdReg s R.JNL_RING_BASE + i % n * 128
    let held := s.jnl.ring.find a
    let owed := match s.jnl.gap with
      | none => s.jnl.owed
      | some (f, c) => s.jnl.owed ++ [boundaryPayload 2 0 f c]
    let w := busWrite s 50 a (s.jnl.staging.get (i % 2048) [])
    let ring := if w.2 = 0 then s.jnl.ring.put a i else s.jnl.ring
    let s := { w.1 with jnl := { w.1.jnl with drain := i + 1, gap := none, owed := owed, ring := ring } }
    let ack := rdReg s R.JNL_ACK
    match held with
    | none => s
    | some k =>
      if w.2 = 0 ∧ ack < k then
        let s1 := raise (addSat s F.JNL_LOST_LOST 0 1) K.JNL_EVENT_OVERWRITE
        if s1.jnl.bounded then s1
        else { s1 with jnl := { s1.jnl with bounded := true, owed := s1.jnl.owed ++ [boundaryPayload 1 ack k 1] } }
      else s

/-- JOURNAL_RING_WRITE: a staged entry drains to the ring (R495, R496). -/
def execJournalRingWrite (s : State) : Host.Outcome State Fault Refusal := .next (drainOne s)

/-- JNL_ACK_WRITE: the highest exported index is recorded; the next overwrite appends a BOUNDARY again (R495). -/
def execJnlAckWrite (value : BitVec 64) (s : State) : Host.Outcome State Fault Refusal :=
  let s := wrReg s R.JNL_ACK 0 0 value.toNat
  .next { s with jnl := { s.jnl with bounded := false } }

/-- The chain head is copied: INDEX and digest of the newest entry (R493, R503). -/
def captureHead (s : State) : State :=
  let s := wrReg s R.JNL_HEAD_INDEX 0 0 (s.jnl.next - 1)
  each (upto 8) (fun s k => wrReg s R.JNL_HEAD_DIGEST 0 k (leAt s.jnl.digest (4 * k) 4)) s

/-- HEAD_CAPTURE (R503). -/
def execHeadCapture (s : State) : Host.Outcome State Fault Refusal := .next (captureHead s)

/-- The payload of a HOST entry: JNL_HOST_DATA0 to 11 (R494, R503). -/
def hostPayload (s : State) : List Byte := ((upto 12).map fun k => leBytes (rdReg s R.JNL_HOST_DATA 0 k) 4).flatten

/-- HOST_APPEND: a HOST entry is requested; refused, with no effect, while JNL_CTRL.EN is 0 (R497) and where the main domain has no power. -/
def execHostAppend (s : State) : Host.Outcome State Fault Refusal :=
  .next (if rdb s F.JNL_CTRL_EN && s.pwr.phase == .main then askJournal s rankHost 0x0070 (hostPayload s) else s)

end Sys2Proof.Machine
end

