-- ==== Sys2Proof/Machine/RegCore.lean ====
section
/-!
DEFINITION. Register accesses as R15 to R22 and R652 to R654 give them for every register: finding the register at an offset, and
the effect of a write on each of its fields by access type. Registers whose writes do more stand in RegWrite.
-/

namespace Sys2Proof.Machine

/-- The instance and register index at which `r` stands at offset `off`, if it does (R16). -/
def indexIn (r : Reg) (off : Nat) : Option (Nat × Nat) :=
  if off < r.base then none
  else
    let d := off - r.base
    let ij : Nat × Nat :=
      if r.remote && decide (0x20000 ≤ d) then (2 + (d - 0x20000) / 0x100, if r.n2 = 1 then 0 else (d - 0x20000) % 0x100 / r.s2)
      else
        let i := if r.n1 = 1 then 0 else d / r.s1
        (i, if r.n2 = 1 then 0 else (d - i * r.s1) / r.s2)
    if ij.1 < r.n1 ∧ ij.2 < r.n2 ∧ r.addr ij.1 ij.2 = off then some ij else none

/-- A register at an offset: the register, its instance and index, and whether the offset names the upper half of a 64-bit one. -/
structure Located where
  reg : Reg
  i : Nat
  j : Nat
  upper : Bool
  deriving DecidableEq, Repr

/-- The register that an offset hits, if any (R554). -/
def locate (off : Nat) : Option Located :=
  regTable.findSome? fun r =>
    match indexIn r off with
    | some (i, j) => some ⟨r, i, j, false⟩
    | none =>
      if r.wide && decide (4 ≤ off) then (indexIn r (off - 4)).map fun x => ⟨r, x.1, x.2, true⟩ else none

/-- The block lock that guards a register's RWL fields is set (R18). -/
def lockedReg (s : State) (r : Reg) (i j : Nat) : Bool :=
  match r.lock with
  | none => false
  | some (a, b) => bitOn (s.regs.get (a + i * r.s1 + j * r.s2) 0).toNat b

/-- What one field reads after a write of `v` under a byte mask `m`, by its type (R17, R18, R652). -/
def fieldAfter (old v m : Nat) (locked : Bool) (f : Field) : Nat :=
  let was := slice old f.lo f.w
  let new := slice v f.lo f.w
  let msk := slice m f.lo f.w
  let merged := (was &&& ((2 ^ f.w - 1) ^^^ msk)) ||| (new &&& msk)
  match f.acc with
  | .ro => was
  | .wo => was
  | .w1c => was &&& ((2 ^ f.w - 1) ^^^ (new &&& msk))
  | .w1s => was ||| (new &&& msk)
  | .rwl => if locked then was else if f.min ≤ merged ∧ merged ≤ f.max then merged else was
  | _ => if f.min ≤ merged ∧ merged ≤ f.max then merged else was

/-- A register's value after a write of `v` under a byte mask: field by field; an address field with a low bit set that must be 0
leaves the whole register unchanged (R652). -/
def regAfter (s : State) (r : Reg) (i j v m : Nat) : Nat :=
  let old := rdReg s r i j
  if (((old &&& (2 ^ 64 - 1 - m)) ||| (v &&& m)) &&& r.align) ≠ 0 then old
  else r.fields.foldl (fun acc f => setBits acc f.lo f.w (fieldAfter old v m (lockedReg s r i j) f)) old

/-- The generic write of a register (R17, R652). -/
def writeReg (s : State) (r : Reg) (i j v m : Nat) : State := wrReg s r i j (regAfter s r i j v m)

/-- A register's bits above its 32 or 64 are not written. -/
def fullMask (r : Reg) : Nat := if r.wide then 2 ^ 64 - 1 else 2 ^ 32 - 1

/-- The event counts of a register's CNT_CLR bit, in instance `i` (R22, R654). -/
def clearCounts (s : State) (r : Reg) (i : Nat) : State :=
  match cntClr.find? fun x => x.1.base == r.base with
  | none => s
  | some x => each x.2 (fun s c => wr s ⟨c.1, c.2, 8⟩ i 0 0) s

/-- Writing 1s to W1C flags clears them (R17, R21). -/
def clearFlags (s : State) (l : Located) (mask : Nat) : State :=
  let clr := l.reg.fields.foldl (fun acc f => if f.acc = .w1c then acc ||| (mask &&& ((2 ^ f.w - 1) <<< f.lo)) else acc) 0
  wrReg s l.reg l.i l.j (rdReg s l.reg l.i l.j &&& (2 ^ 64 - 1 - clr))

/-- W1C_FLAG_CLEAR: the W1C flags at a register that the mask names are cleared (R21). An occurrence of the same cycle is a command of
its own that comes after this one, so a set wins. -/
def execW1cFlagClear (off : BitVec 26) (mask : BitVec 32) (s : State) : Host.Outcome State Fault Refusal :=
  match locate off.toNat with
  | none => .next s
  | some l => .next (clearFlags s l mask.toNat)

/-- CNT_CLR: the event counts beside a register are cleared; occurrences of the same cycle count from 0 after it (R22, R654). -/
def execCntClr (off : BitVec 26) (s : State) : Host.Outcome State Fault Refusal :=
  match locate off.toNat with
  | none => .next s
  | some l => .next (clearCounts s l.reg l.i)

end Sys2Proof.Machine
end

