-- ==== Sys2Proof/Machine/SeqCore.lean ====
section
/-!
DEFINITION. The sequencers apart from their instructions: start, halt, resume, register window, events, timers, faults
(R405 to R428, R435).
-/

namespace Sys2Proof.Machine

/-- The features stepping A1 supports (R414); A0 lacks CHECK (R645). -/
def seqFeatures (s : State) : Nat := if s.straps.stepping = 0 then 0xBFF else 0xFFF

/-- The features a version 1 program may declare (R414). -/
def version1Mask : Nat := 0x9D7

/-- A start is refused with a code and the value found (R415); where R415 gives a code no value, what VALUE holds is a free value. -/
def startRefused (s : State) (n code : Nat) (value : Option Nat) : State :=
  let s := updSeq s n fun q => { q with starting := false }
  let s := wr s F.SEQ_START_STATUS_CODE n 0 code
  let s := match value with
    | some v => wr s F.SEQ_START_STATUS_VALUE n 0 v
    | none => draw (wr s F.SEQ_START_STATUS_VALUE n 0 (slice (freeNat s) 0 8))
  raise s K.SEQ_EVENT_REFUSED n

/-- The sequencer is RUNNING or WAITING. -/
def seqBusy (q : Seq) : Bool := q.run == .running || q.run == .waiting

/-- SEQ_CMD.START: the header check begins, or is refused with BUSY (R415). -/
def seqStart (s : State) (n : Nat) : State :=
  if seqBusy (seqOf s n) then startRefused s n 1 none else updSeq s n fun q => { q with starting := true }

/-- SEQ_START (R415). -/
def execSeqStart (n : Fin 16) (s : State) : Host.Outcome State Fault Refusal := .next (seqStart s n.val)

/-- An offset that follows the rule of ENTRY (R413). -/
def entryOk (codeLen e : Nat) : Bool := e % 8 == 0 && decide (64 ≤ e) && decide (e ≤ 64 + codeLen - 8)

/-- The features declared that are not allowed (R415). -/
def badFeature (s : State) (version features : Nat) : Option Nat :=
  lowest 64 fun b => bitOn features b && (!bitOn (seqFeatures s) b || (version == 1 && !bitOn version1Mask b))

/-- The first check of R415 that the image in a sequencer's memory fails: code and value recorded. -/
def headerCheck (s : State) (q : Seq) : Option (Nat × Option Nat) :=
  let h := Memory.readBytes q.imem 0 64
  let version := leAt h 4 1
  let codeLen := leAt h 16 4
  let entry := leAt h 20 4
  let trap := leAt h 24 4
  if seqBusy q then some (1, none)
  else if leAt h 0 4 ≠ 0x5349534B then some (2, none)
  else if (crc32c (h.take 60)).toNat ≠ leAt h 60 4 then some (3, none)
  else if version ≠ 1 ∧ version ≠ 2 then some (4, some version)
  else if codeLen % 8 ≠ 0 ∨ codeLen < 8 ∨ 131008 < codeLen then some (5, some 16)
  else if !entryOk codeLen entry then some (5, some 20)
  else if trap ≠ 0 ∧ !entryOk codeLen trap then some (5, some 24)
  else match badFeature s version (leAt h 8 8) with
    | some b => some (6, some b)
    | none =>
      if (crc32c (Memory.readBytes q.imem 64 codeLen)).toNat ≠ leAt h 28 4 then some (7, none) else none

/-- The header check ends: the sequencer runs from ENTRY in supervisor mode with its registers, counts and timers cleared, or the
start is refused (R415). -/
def finishStart (s : State) (n : Nat) : State :=
  let q := seqOf s n
  match headerCheck s q with
  | some (code, value) => startRefused s n code value
  | none =>
    let h := Memory.readBytes q.imem 0 64
    let s := setSeq s n { q with
      starting := false, run := .running, user := false, pc := leAt h 20 4 / 8, regs := [], pend := [], timers := [],
      read := none, wait := none, halting := false, stepping := false, easWait := false,
      version := leAt h 4 1, features := leAt h 8 8, codeLen := leAt h 16 4, trap := leAt h 24 4 }
    let s := wr s F.SEQ_START_STATUS_CODE n 0 0
    wrReg (wrReg s R.SEQ_CYCLES n 0 0) R.SEQ_RETIRED n 0 0

/-- SEQ_START_DONE (R415). -/
def execSeqStartDone (n : Fin 16) (s : State) : Host.Outcome State Fault Refusal :=
  .next (if (seqOf s n.val).starting then finishStart s n.val else s)

/-- SEQ_CMD.HALT: the sequencer stops at the next instruction boundary: an instruction that waits for read data completes first, a
wait is abandoned with the program counter at it (R417). -/
def haltSeq (s : State) (n : Nat) : State :=
  let q := seqOf s n
  if seqBusy q then setSeq s n { q with halting := true, wait := none, run := .running } else s

/-- HALT (R417). -/
def execHalt (n : Fin 16) (s : State) : Host.Outcome State Fault Refusal := .next (haltSeq s n.val)

/-- The state becomes HALTED and HALTED is raised, with its interrupt while INT_HALT is 1 (R417, R658). -/
def becomeHalted (s : State) (n : Nat) : State :=
  let s := updSeq s n fun q => { q with run := .halted, halting := false, stepping := false, wait := none, easWait := false }
  raiseIf (rdb s F.SEQ_CFG_INT_HALT n) s K.SEQ_EVENT_HALTED n

/-- SEQ_HALT_DONE: every posted write of a halting sequencer is acknowledged (R417). -/
def execSeqHaltDone (n : Fin 16) (s : State) : Host.Outcome State Fault Refusal :=
  let q := seqOf s n.val
  .next (if q.halting && q.read.isNone && q.posted.isEmpty then becomeHalted s n.val else s)

/-- SEQ_CMD.RESUME of a HALTED sequencer (R418). -/
def resumeSeq (s : State) (n : Nat) : State :=
  let q := seqOf s n
  if q.run = .halted then setSeq s n { q with run := .running } else s

/-- RESUME (R418). -/
def execResume (n : Fin 16) (s : State) : Host.Outcome State Fault Refusal := .next (resumeSeq s n.val)

/-- SEQ_SIGNAL: a software event is signalled; a number below 768 is ignored (R423). -/
def seqSignal (s : State) (ev : Nat) : State := if ev < 768 then s else signal s ev

/-- SEQ_SIGNAL (R423, R434). -/
def execSeqSignal (number : BitVec 10) (s : State) : Host.Outcome State Fault Refusal := .next (seqSignal s number.toNat)

/-- A write of SEQ_REGk: sets sk while HALTED or FAULTED, ignored otherwise; s0 discards it (R405, R420). -/
def seqRegWrite (s : State) (n k : Nat) (v : Word) : State :=
  let q := seqOf s n
  if loadable q then setSeq s n (setSreg q k v) else s

/-- SEQ_REG_WRITE (R420). -/
def execSeqRegWrite (n : Fin 16) (k : Fin 32) (value : BitVec 64) (s : State) : Host.Outcome State Fault Refusal :=
  .next (seqRegWrite s n.val k.val value)

/-- SEQ_WINDOW_WRITE: a fabric write into a sequencer's window (R406, R412). -/
def execSeqWindowWrite (n : Fin 16) (off : BitVec 19) (bytes : List Byte) (s : State) : Host.Outcome State Fault Refusal :=
  .next (windowWrite s n.val off.toNat bytes).1

/-- SEQ_TIMER_EXPIRY: an interval has passed: the timer's event goes to its owner; a timer that does not repeat is disarmed (R426, R657). -/
def execSeqTimerExpiry (n : Fin 16) (t : Fin 4) (s : State) : Host.Outcome State Fault Refusal :=
  let q := seqOf s n.val
  match q.timers.find t.val with
  | none => .next s
  | some tm =>
    if seqCyc s < tm.since + tm.interval then .next s
    else
      let timers := if tm.repeating then q.timers.put t.val { tm with since := tm.since + tm.interval } else q.timers.del t.val
      .next (signalTo (setSeq s n.val { q with timers := timers }) n.val (192 + 4 * n.val + t.val))

/-! ### Faults (R427, R428) -/

/-- The cause codes of R427. -/
def causeOpcode : Nat := 1
def causeVersion : Nat := 2
def causePriv : Nat := 3
def causeAlign : Nat := 4
def causeLocal : Nat := 5
def causeFetch : Nat := 6
def causeProt : Nat := 7
def causeDecode : Nat := 8
def causeEvent : Nat := 9
def causeTrap : Nat := 10

/-- SEQ_FAULT records a fault: cause, mode, program counter and address (R428, R435). -/
def recordFault (s : State) (n cause addr : Nat) : State :=
  let q := seqOf s n
  wrReg s R.SEQ_FAULT n 0 (cause + 16 * bit q.user + 32 * (q.pc % 2 ^ 14) + 2 ^ 24 * (addr % 2 ^ 40))

/-- R428 gives the faults of this cause an address. -/
def hasAddress (cause : Nat) : Bool := cause == causeAlign || cause == causeProt || cause == causeDecode

/-- The payload of a SEQ_FAULT entry (R428). -/
def faultPayload (q : Seq) (n cause addr : Nat) : List Byte :=
  [BitVec.ofNat 8 (n + 128 * bit q.user), BitVec.ofNat 8 cause] ++ leBytes q.pc 2 ++ leBytes addr 5

/-- Taking a fault: in user mode with a handler, the sequencer goes on at TRAP in supervisor mode; otherwise it halts in FAULTED,
raises FAULT, signals its fault event and appends a Journal entry (R428). What ADDR shows for a cause without an address is free. -/
def seqFault (s : State) (n cause addr : Nat) : State :=
  let q := seqOf s n
  let addr := if hasAddress cause then addr else freeNat s % 2 ^ 40
  let s := recordFault (also (!hasAddress cause) draw s) n cause addr
  if q.user ∧ q.trap ≠ 0 then
    setSeq s n { q with user := false, pc := q.trap / 8, run := .running, wait := none, read := none, easWait := false }
  else
    let s := setSeq s n { q with run := .faulted, halting := false, stepping := false, wait := none, read := none, easWait := false }
    let s := raiseIf (rdb s F.SEQ_CFG_INT_FAULT n) s K.SEQ_EVENT_FAULT n
    askJournal (signal s (104 + n)) (rankSeq n) 0x0040 (faultPayload q n cause addr)

end Sys2Proof.Machine
end

