-- ==== Sys2Proof/Machine/Power.lean ====
section
/-!
DEFINITION. Resets and what each keeps, the power sequence, OTP commands, Still entry and wake, and the self-tests
(R618 to R624, R633 to R647).
-/

namespace Sys2Proof.Machine

/-! ### Resets (R621 to R624) -/

/-- A START entry is requested (R494): reset kind, stepping, PTP_STATE bits [7:0]. -/
def askStart (s : State) (kind : Nat) : State :=
  askJournal s rankDram 0x0001 [BitVec.ofNat 8 kind, BitVec.ofNat 8 s.straps.stepping, BitVec.ofNat 8 (rdReg s R.PTP_STATE)]

/-- The registers that show straps, and the features of the stepping (R434, R573, R645, R646). -/
def showStraps (s : State) : State :=
  let s := wr0 (wr0 (wr0 s F.GLB_ID_DEVICE s.straps.device) F.GLB_ID_POSITION (bit s.straps.position))
    F.GLB_ID_STEPPING s.straps.stepping
  let s := wrReg s R.SEQ_FEATURES 0 0 (seqFeatures s)
  wr0 (wr0 s F.TND_STATUS_POSITION (bit s.straps.position)) F.PWR_STATUS_BOOT_SRC (bit s.straps.bootSrc)

/-- What a reset of the whole part leaves apart from what its kind keeps: the reset state with the sender's queue, the outbox, the
count of draws, OTP and straps. -/
def clearAll (s : State) : State :=
  { State.reset with
    pending := s.pending, out := s.out, free := s.free, straps := s.straps,
    time := { cyc := s.time.cyc }, pwr := { otp := s.pwr.otp } }

/-- The OTP slots' states as PWR_OTP_STATE shows them survive every reset. -/
def keepOtp (old s : State) : State := wr0 s F.PWR_OTP_STATE_SLOTS (rd old F.PWR_OTP_STATE_SLOTS)

/-- A power-on reset (R620, R621): nothing but OTP is kept, and PWR_MAIN_EN goes high (R634). -/
def powerOnReset (s : State) : State :=
  let n := keepOtp s (showStraps (clearAll s))
  { n with pwr := { n.pwr with phase := .raising, mainEn := true } }

/-- POWER_ON_RESET: PWR_POR_N is released: the straps are sampled, retention is cleared, PWR_MAIN_EN goes high (R634). -/
def execPowerOnReset (device : BitVec 6) (position : Bool) (bootSrc : Bool) (s : State) : Host.Outcome State Fault Refusal :=
  .next (powerOnReset { s with straps := { s.straps with device := device.toNat, position := position, bootSrc := bootSrc } })

/-- BROWNOUT: PWR_PG_MAIN falls while PWR_MAIN_EN is high: a power-on reset with the straps as sampled (R620, R624). -/
def execBrownout (s : State) : Host.Outcome State Fault Refusal :=
  if s.pwr.mainEn && s.pwr.phase != .raising && s.pwr.phase != .waking then .next (powerOnReset s) else .next s

/-- Registers that a warm reset keeps whole beside locks and RWS fields: protection configuration and the totals "since power-on
reset", self-test results, the RTC, the state of OTP slots (R69, R587, R589, R617, R621, R643, R503). PWR_CLK_STATUS is kept too, so that ISLAND_LOCK
and REFCLK_OK stay at their live values, while GALLERY_LOCK becomes 0 with the galleries (DESIGN CHOICE, log entry 35: R32 and R621 do not say). -/
def keptWhole : List Reg := [R.PRT_CTRL, R.PRT_RGN_START, R.PRT_RGN_END, R.PRT_RGN_ATTR, R.PRT_VIOL_TOTAL, R.DMC_CH_CE_TOTAL, R.SEAL_TOTAL,
  R.JNL_LOST, R.BST_STATUS, R.BST_LB_SIG, R.BST_MB_SIG, R.BST_MB_MAP, R.PWR_RTC_SEC, R.PWR_OTP_STATE, R.PWR_CLK_STATUS]

/-- The bits of a register that a warm reset keeps (R18, R621). -/
def keptBits (s : State) (l : Located) : Nat :=
  if keptWhole.any fun r => r.base == l.reg.base then 2 ^ 64 - 1
  else if l.reg.base = R.LANE_QUAD_COMMIT.base then 6
  else l.reg.fields.foldl (fun acc f =>
    let m := (2 ^ f.w - 1) <<< f.lo
    match f.acc with
    | .rws => acc ||| m
    | .w1s => acc ||| m
    | .rwl => if lockedReg s l.reg l.i l.j then acc ||| m else acc
    | _ => acc) 0

/-- The registers after a warm reset: kept bits as they were, all others at their reset values. -/
def keptRegs (s : State) : Map Word :=
  s.regs.filterMap fun e =>
    match locate e.1 with
    | none => none
    | some l =>
      let k := BitVec.ofNat 64 (keptBits s l)
      some (e.1, (e.2 &&& k) ||| (l.reg.resetValue l.i l.j &&& ~~~k))

/-- The bits that RWS fields hold, which also survive Still (R623). -/
def rwsBits (l : Located) : Nat :=
  l.reg.fields.foldl (fun acc f => if f.acc = .rws then acc ||| ((2 ^ f.w - 1) <<< f.lo) else acc) 0

/-- The registers after a wake: RWS fields and the RTC are kept (R621, R622). -/
def wakeRegs (s : State) : Map Word :=
  s.regs.filterMap fun e =>
    match locate e.1 with
    | none => none
    | some l =>
      let k := BitVec.ofNat 64 (if l.reg.base = R.PWR_RTC_SEC.base then 2 ^ 64 - 1 else rwsBits l)
      some (e.1, (e.2 &&& k) ||| (l.reg.resetValue l.i l.j &&& ~~~k))

/-- A warm reset: what R621 keeps is kept, everything else is as after reset; the boot starts over in LOADING, and the Journal's first
entry is START of kind 1 (R493, R507, R587, R621, R623, R684). Its end leaves the Watch words at their reset values, with WP_ALERT_N low as
ALERT's reset value says (R365, R634). -/
def warmReset (s : State) : State :=
  let n := clearAll s
  let n := { n with
    regs := keptRegs s
    mem := s.mem
    time := { s.time with ptp := 0 }
    eas := { n.eas with lastSeq := s.eas.lastSeq }
    seqs := s.seqs.map fun e => (e.1, { imem := e.2.imem, dmem := e.2.dmem })
    jnl := { n.jnl with next := s.jnl.next, digest := s.jnl.digest, staging := s.jnl.staging, drain := s.jnl.drain, gap := s.jnl.gap,
                        ring := s.jnl.ring }
    lane := s.lane.map fun e => (e.1, { pll := e.2.pll })
    prt := { s.prt with releasing := [] }
    dmc := { n.dmc with bad := s.dmc.bad, weak := s.dmc.weak, ecc := s.dmc.ecc, rowBits := s.dmc.rowBits }
    cmp := { n.cmp with alert := true }
    cpr := { n.cpr with streams := s.cpr.streams }
    pwr := { phase := .main, mainEn := true, retention := s.pwr.retention, otp := s.pwr.otp } }
  let n := wr0 (wr0 (showStraps n) F.PWR_STATUS_RESET_KIND 1) F.PWR_CLK_STATUS_GALLERY_LOCK 0
  let n := wr0 n F.PWR_OTP_STATE_BUSY 0
  askStart n 1

/-- WARM_RESET: WARM_RST_N low for 1 µs (R621). -/
def execWarmReset (s : State) : Host.Outcome State Fault Refusal :=
  .next (if s.pwr.phase = .main then warmReset s else s)

/-- WARM: PWR_CTRL.WARM (R621). -/
def execWarm (s : State) : Host.Outcome State Fault Refusal :=
  .next (if s.pwr.phase = .main then warmReset s else s)

/-- PCIE_HOT_RESET: a PCIe Hot Reset causes a warm reset while HOTRST_EN is 1 (R621). -/
def execPcieHotReset (s : State) : Host.Outcome State Fault Refusal :=
  .next (if rdb s F.PWR_CTRL_HOTRST_EN && s.pwr.phase == .main then warmReset s else s)

/-- PCIE_PERST: the PCIe layer and its link are reset, and nothing else (R669). -/
def execPciePerst (s : State) : Host.Outcome State Fault Refusal :=
  .next { s with fab := { s.fab with hostWait := [], host := [], table := [], pba := [], cfg := {},
                                     held := s.fab.held.filter (fun x => x.master != 0) } }

/-- MAIN_POWER_GOOD: PWR_PG_MAIN is high: the main domain leaves reset, the PLLs lock, WP_ALERT_N is low until the Watch words are updated,
the Journal stages START; a device that boots from the PCIe host comes to WAIT_HOST (R627, R634, R640). -/
def execMainPowerGood (s : State) : Host.Outcome State Fault Refusal :=
  if s.pwr.phase ≠ .raising ∧ s.pwr.phase ≠ .waking then .next s
  else
    let kind := rd s F.PWR_STATUS_RESET_KIND
    let s := { s with pwr := { s.pwr with phase := .main }, cmp := { s.cmp with alert := true } }
    let s := wr0 (wr0 s F.PWR_CLK_STATUS_ISLAND_LOCK 0x3F) F.PWR_CLK_STATUS_REFCLK_OK 1
    let s := if kind = 0 ∧ s.straps.bootSrc then
        wr0 s F.PWR_STATUS_BOOT_STATE 1 else s
    .next (askStart s kind)

/-! ### OTP (R633) -/

/-- State of an OTP slot. -/
def slotState (s : State) (slot : Nat) : Nat := slice (rd s F.PWR_OTP_STATE_SLOTS) (2 * slot) 2

/-- An OTP command: accepted in WAIT_HOST after a power-on reset, PROGRAM of an EMPTY slot and REVOKE of a PROGRAMMED one; anything
else is refused (R633). -/
def otpCommand (s : State) (slot : Nat) (program : Bool) : State :=
  if rd s F.PWR_STATUS_BOOT_STATE = 1 ∧ rd s F.PWR_STATUS_RESET_KIND = 0 ∧ !rdb s F.PWR_OTP_STATE_BUSY ∧
      slotState s slot = (if program then 0 else 1) then
    wr0 { s with pwr := { s.pwr with otpOp := some (slot, program) } } F.PWR_OTP_STATE_BUSY 1
  else raise s K.PWR_EVENT_OTP_REFUSED

/-- OTP_PROGRAM (R633). -/
def execOtpProgram (slot : BitVec 2) (s : State) : Host.Outcome State Fault Refusal := .next (otpCommand s slot.toNat true)

/-- OTP_REVOKE (R633). -/
def execOtpRevoke (slot : BitVec 2) (s : State) : Host.Outcome State Fault Refusal := .next (otpCommand s slot.toNat false)

/-- The digest staged in PWR_OTP_DATA0 to 7. -/
def otpData (s : State) : List Byte := ((upto 8).map fun k => leBytes (rdReg s R.PWR_OTP_DATA 0 k) 4).flatten

/-- OTP_DONE: the slot is burnt or revoked, and OTP_DONE is raised (R633). -/
def execOtpDone (s : State) : Host.Outcome State Fault Refusal :=
  match s.pwr.otpOp with
  | none => .next s
  | some (slot, program) =>
    let otp := if program then s.pwr.otp.put slot (otpData s) else s.pwr.otp
    let n := { s with pwr := { s.pwr with otpOp := none, otp := otp } }
    let n := wr0 n F.PWR_OTP_STATE_SLOTS (setBits (rd s F.PWR_OTP_STATE_SLOTS) (2 * slot) 2 (if program then 1 else 2))
    .next (raise (wr0 n F.PWR_OTP_STATE_BUSY 0) K.PWR_EVENT_OTP_DONE)

/-! ### Still (R635 to R640) -/

/-- A wake source of R637 is armed. -/
def wakeArmed (s : State) : Bool :=
  rdb s F.PWR_WAKE_CFG_PIN_EN || rdb s F.PWR_WAKE_CFG_RTC_EN || rdb s F.TCH_WAKE_EN 0 || rdb s F.TCH_WAKE_EN 1

/-- The code with which a Still request is refused; 0 when it is accepted (R635). -/
def stillCode (s : State) : Nat :=
  if rd s F.PWR_STATUS_BOOT_STATE ≠ 2 then 1
  else if !wakeArmed s then 2
  else if !rdb s F.JNL_CTRL_EN || rd s F.JNL_CTRL_RING_MIB == 0 then 3
  else if s.pwr.bist.isSome || rdb s F.DMC_GSTATUS_INIT_BUSY || rdb s F.DMC_GSTATUS_FREQ_BUSY ||
      rdb s F.DMC_GSTATUS_DEFERRED || s.pwr.still != 0 then 4
  else if !rdb s F.DMC_GSTATUS_READY then 5
  else 0

/-- Touch contacts end without a report (R636); the events of the reports before it are still to come (R474). -/
def dropContacts (s : State) : State :=
  let s := each [0, 1] (fun s i => wr s F.TCH_STATUS_CONTACTS i 0 0) s
  { s with tch := s.tch.map fun e => (e.1, { e.2 with contacts := [], scanning := false, since := none, fresh := true, wakeBase := [], taps := [], wasIn := false }) }

/-- PWR_STILL_CMD.ENTER: Still entry is accepted: contacts end, every sequencer halts; or the request is refused (R635, R636). -/
def stillEnter (s : State) : State :=
  let c := stillCode s
  if c ≠ 0 then raise (wr0 s F.PWR_STATUS_STILL_CODE c) K.PWR_EVENT_STILL_REFUSED
  else
    let s := each (upto 16) haltSeq (dropContacts s)
    wr0 { s with pwr := { s.pwr with still := 1, wake := 0, offLong := false } } F.PWR_STATUS_BOOT_STATE 4

/-- STILL_ENTER (R635, R636). -/
def execStillEnter (s : State) : Host.Outcome State Fault Refusal := .next (stillEnter s)

/-- Every canvas is dark. -/
def allDark (s : State) : Bool := (upto 32).all fun c => (cnvOf s c).dark

/-- STILL_DRAIN_DONE: with every gallery dark the masters are reset and the Journal has drained; its head goes to the retention store
and the channels enter self-refresh: the point of no return (R636). -/
def execStillDrainDone (s : State) : Host.Outcome State Fault Refusal :=
  if s.pwr.still ≠ 1 ∨ !allDark s ∨ s.jnl.drain < s.jnl.next ∨ s.jnl.queue ≠ [] ∨ s.jnl.owed ≠ [] ∨ s.jnl.asked ≠ [] then .next s
  else
    let s := resetMasters s
    .next { s with pwr := { s.pwr with still := 4, head := some (s.jnl.next, s.jnl.digest) } }

/-- STILL_MAIN_OFF: self-refresh is held and PWR_MAIN_EN goes low; WP_ALERT_N is released, and with the main domain the gallery clocks stop (R365,
R636). -/
def execStillMainOff (s : State) : Host.Outcome State Fault Refusal :=
  if s.pwr.still ≠ 4 then .next s
  else
    let s := each (upto 8) (fun s g => updGal s g fun x => { x with locked := false, latchDue := false, latched := false }) s
    let s := wr0 s F.PWR_CLK_STATUS_GALLERY_LOCK 0
    .next { s with pwr := { s.pwr with still := 5, phase := .still, mainEn := false, offAt := s.time.cyc, offLong := false }, cmp := { s.cmp with alert := false } }

/-- A wake source fires: before the point of no return it cancels the entry with a warm reset, which leaves STILL_ABORT and WAKE_CAUSE
to be read; after it, it is held (R637, R638). -/
def wakeFires (s : State) (cause : Nat) : State :=
  if s.pwr.still = 0 then s
  else if s.pwr.still < 4 then raise (wr0 (warmReset s) F.PWR_STATUS_WAKE_CAUSE cause) K.PWR_EVENT_STILL_ABORT
  else { s with pwr := { s.pwr with wake := s.pwr.wake ||| cause } }

/-- WAKE_PIN: WAKE_N low for 2 AON cycles (R637). -/
def execWakePin (s : State) : Host.Outcome State Fault Refusal :=
  .next (if rdb s F.PWR_WAKE_CFG_PIN_EN then wakeFires s 1 else s)

/-- RTC_ALARM: the RTC has reached ALARM (R637, R639). -/
def execRtcAlarm (s : State) : Host.Outcome State Fault Refusal :=
  .next (if rdb s F.PWR_WAKE_CFG_RTC_EN && decide (rd s F.PWR_RTC_ALARM_ALARM ≤ rd s F.PWR_RTC_SEC_SEC) then wakeFires s 2 else s)

/-- WAKE_HOLD_EXPIRY: PWR_MAIN_EN has been low for 10 ms, and a held source may act (R638). -/
def execWakeHoldExpiry (s : State) : Host.Outcome State Fault Refusal :=
  .next (if s.pwr.phase = .still ∧ s.pwr.offAt + msCyc 10 ≤ s.time.cyc then { s with pwr := { s.pwr with offLong := true } } else s)

/-- WAKE: a wake decision raises PWR_MAIN_EN; the part comes up as after power-on but for what R621 keeps, with the straps sampled
again (R621, R622, R624, R640). -/
def execWake (device : BitVec 6) (position : Bool) (bootSrc : Bool) (s : State) : Host.Outcome State Fault Refusal :=
  if s.pwr.phase ≠ .still ∨ s.pwr.wake = 0 ∨ !s.pwr.offLong then .next s
  else
    let n := clearAll { s with straps := { s.straps with device := device.toNat, position := position, bootSrc := bootSrc } }
    let n := { n with
      regs := wakeRegs s
      mem := s.mem
      time := { s.time with ptp := 0 }
      jnl := { n.jnl with next := (s.pwr.head.getD (0, [])).1, drain := (s.pwr.head.getD (0, [])).1,
                          digest := (s.pwr.head.getD (0, List.replicate 32 0)).2, ring := s.jnl.ring }
      dmc := { n.dmc with bad := s.dmc.bad, weak := s.dmc.weak, ecc := s.dmc.ecc, rowBits := s.dmc.rowBits }
      cpr := { n.cpr with streams := s.cpr.streams }
      pwr := { phase := .waking, mainEn := true, retention := s.pwr.retention, otp := s.pwr.otp } }
    let n := keepOtp s (showStraps n)
    .next (wr0 (wr0 n F.PWR_STATUS_RESET_KIND 2) F.PWR_STATUS_WAKE_CAUSE s.pwr.wake)

/-- The RTC's seconds are set and its fraction cleared (R639). -/
def rtcSet (s : State) (seconds : Nat) : State :=
  { wrReg s R.PWR_RTC_SEC 0 0 (seconds % 2 ^ 48) with time := { s.time with aonPart := 0 } }

/-- RTC_WRITE (R639). -/
def execRtcWrite (seconds : BitVec 48) (s : State) : Host.Outcome State Fault Refusal := .next (rtcSet s seconds.toNat)

/-! ### Self-test (R642 to R644) -/

/-- The code with which a self-test is refused; 0 when it starts (R644). -/
def bistCode (s : State) : Nat :=
  if rd s F.PWR_STATUS_BOOT_STATE = 0 ∨ s.pwr.bist.isSome ∨ s.pwr.still ≠ 0 then 1
  else if rd s F.TND_STATUS_STATE = 1 then 2 else 0

/-- BST_CMD: a self-test starts: every canvas is to show Gesso with its word at VERDICT 5, OUTPUT 1 and SUBST 1, WP_ALERT_N is low, the
masters are reset; or it is refused (R642, R644). -/
def bistStart (s : State) (logic : Bool) : State :=
  let c := bistCode s
  if c ≠ 0 then raise (wr0 s F.BST_STATUS_CODE c) K.BST_EVENT_REFUSED
  else
    let s := each (upto 32) (fun s c => updCnv s c fun x =>
      { x with gesso := { x.gesso with bist := true }, word := setBits x.word 0 6 0x1D }) s
    let s := resetMasters s
    { s with cmp := { s.cmp with alert := true, summary := setBits s.cmp.summary 6 1 1 }, pwr := { s.pwr with bist := some logic, bistAt := fabCyc s } }

/-- LBIST (R642, R644). -/
def execLbist (s : State) : Host.Outcome State Fault Refusal := .next (bistStart s true)

/-- MBIST (R642, R644). -/
def execMbist (s : State) : Host.Outcome State Fault Refusal := .next (bistStart s false)

/-- The signature a part of a stepping gives when it is good (R643). -/
def goodSignature (stepping : Nat) (logic : Bool) : Nat :=
  if logic then (if stepping = 0 then 0x51B8E03C7A942D66 else 0x9D3E47A20C85F61B)
  else (if stepping = 0 then 0x7F21C6D894A30B5E else 0x0E6CB91358F2A47D)

/-- FAB cycles of a self-test (R642). -/
def bistRun (logic : Bool) : Nat := if logic then 165000000 else 418000000

/-- BIST_DONE: the run ends with its signature and, for memories, its map; a warm reset follows and keeps the results; MBIST has destroyed
the memories it tested (R642, R643). -/
def execBistDone (signature : BitVec 64) (failed : BitVec 12) (s : State) : Host.Outcome State Fault Refusal :=
  match s.pwr.bist with
  | none => .next s
  | some logic =>
    if fabCyc s < s.pwr.bistAt + bistRun logic then .next s else
    let pass := bit (signature.toNat == goodSignature s.straps.stepping logic)
    let s := if logic then
        wrReg (wr0 (wr0 s F.BST_STATUS_LB_DONE 1) F.BST_STATUS_LB_PASS pass) R.BST_LB_SIG 0 0 signature.toNat
      else
        let s := wrReg (wr0 (wr0 s F.BST_STATUS_MB_DONE 1) F.BST_STATUS_MB_PASS pass) R.BST_MB_SIG 0 0 signature.toNat
        { wrReg s R.BST_MB_MAP 0 0 failed.toNat with seqs := [] }
    .next (warmReset s)

end Sys2Proof.Machine
end

