-- ==== Sys2Proof/Machine/BootCore.lean ====
section
/-!
DEFINITION. The boot image header and the start and the failure of a boot (R625 to R628, R630 to R632).
-/

namespace Sys2Proof.Machine

/-- IMG_LEN, RETAIN_BASE and RECORDS of an image. -/
def imageLen (b : List Byte) : Nat := leAt b 8 4
def imageBase (b : List Byte) : Nat := leAt b 24 5
def imageRecords (b : List Byte) : Nat := leAt b 6 2

/-- The ranges of R628, as (byte offset, holds). -/
def headerRanges (b : List Byte) : List (Nat × Bool) :=
  let n := imageLen b
  let rec_ := imageRecords b
  let rows := leAt b 12 1
  [(6, decide (1 ≤ rec_) && decide (rec_ ≤ 4096)), (8, n % 16 == 0 && decide (112 ≤ n) && decide (n ≤ 33554432)),
   (12, decide (14 ≤ rows) && decide (rows ≤ 17)), (13, decide (leAt b 13 1 ≤ 2)), (24, imageBase b % 4096 == 0)]

/-- The first check of a header that fails, as (CODE, FIELD) (R628, R631). -/
def headerFault (b : List Byte) : Option (Nat × Nat) :=
  if leAt b 0 4 ≠ 0x474D494B then some (1, 0)
  else if leAt b 4 1 ≠ 1 then some (2, 4)
  else if (crc32c (bytesAt b 0 60)).toNat ≠ leAt b 60 4 then some (2, 60)
  else ((headerRanges b).find? fun x => !x.2).map fun x => (3, x.1)

/-- The part falls back to a full boot from the strapped source, with a DRAM INIT of its own (R625, R632). -/
def bootFallback (s : State) : State :=
  let s := wr0 (wr0 (wr0 s F.PWR_STATUS_FALLBACK 1) F.PWR_STATUS_RETAINED 0) F.DMC_GSTATUS_READY 0
  wr0 { s with pwr := { s.pwr with boot := none } } F.PWR_STATUS_BOOT_STATE (bit s.straps.bootSrc)

/-- A boot fails with a code, at a record and a field: a failure of DRAM or of the digest of a retained image falls back, any other ends in
FAILED (R631, R632). -/
def bootFail (s : State) (code rec_ field : Nat) : State :=
  let s := wr0 (wr0 (wr0 s F.PWR_BOOT_STATUS_CODE code) F.PWR_BOOT_STATUS_RECORD rec_) F.PWR_BOOT_STATUS_FIELD field
  let retained := s.pwr.boot.any fun b => b.retained
  if retained && (code == 4 || code == 5) then bootFallback s
  else raise (wr0 { s with pwr := { s.pwr with boot := none } } F.PWR_STATUS_BOOT_STATE 3) K.PWR_EVENT_BOOT_FAIL

/-- The kind of reset the boot follows. -/
def resetKind (s : State) : ResetKind :=
  match rd s F.PWR_STATUS_RESET_KIND with
  | 1 => .warm
  | 2 => .wake
  | _ => .powerOn

/-- A write of 1 to PWR_BOOT_GO in WAIT_HOST starts the load of the image that the host wrote, with DRAM as the host left it (R627). The image is
read as master 0, through unit 0 (R575, R630). -/
def bootGo (s : State) : State :=
  if rd s F.PWR_STATUS_BOOT_STATE ≠ 1 ∨ s.pwr.boot.isSome ∨ accessWaits s 0 then s
  else
    let a := rdReg s R.PWR_BOOT_ADDR
    let r := busRead s 0 a 64
    let h := r.2.2
    let s := wr0 r.1 F.PWR_STATUS_BOOT_STATE 0
    match headerFault h with
    | some f => bootFail s f.1 0 f.2
    | none =>
      if a ≠ imageBase h then bootFail s 2 0 24
      else
        let d := busRead s 0 a (imageLen h)
        { d.1 with pwr := { d.1.pwr with boot := some { kind := resetKind s, stage := 2, image := d.2.2, host := true } } }

/-- BOOT_GO (R627). -/
def execBootGo (s : State) : Host.Outcome State Fault Refusal := .next (bootGo s)

end Sys2Proof.Machine
end

