-- ==== Sys2Proof/Machine/Check.lean ====
section
/-!
DEFINITION. The 16 check units: starting, refusing, ending and aborting a CRC job (R71 to R79).
-/

namespace Sys2Proof.Machine

/-- A unit refuses a START or a write: REFUSED and its cause (R75). -/
def chkRefuse (s : State) (n code : Nat) : State :=
  raise (wr s F.CHK_STATUS_REFUSE_CODE n 0 code) K.CHK_STATUS_REFUSED n

/-- Where the range of R550 that holds a fabric address ends; none for an unmapped address, as one in a check area is (R595). -/
def chkRangeEnd (s : State) (a : Nat) : Option Nat :=
  match targetOf a with
  | some .dram => if a < dramSize s && !inCheckArea s a then some (dramSize s) else none
  | some .varnish => some 0x1003000000
  | some .window => some 0x1010800000
  | some .register => some 0x1804000000
  | none => none

/-- A 64-bit parameter has a bit set at or above WIDTH. -/
def aboveWidth (s : State) (n : Nat) (r : Reg) : Bool := decide (rdReg s r n ≥ 2 ^ rd s F.CHK_CTRL_WIDTH n)

/-- The lowest code of R75 that a START breaks; 0 for none. -/
def chkCause (s : State) (n : Nat) : Nat :=
  let src := rd s F.CHK_SRC_ADDR n
  let len := rd s F.CHK_LEN_LEN n
  let w := rd s F.CHK_CTRL_WIDTH n
  let past := match chkRangeEnd s src with | none => false | some e => decide (e < src + len)
  if len = 0 ∨ len = 0xFFFFFFFF ∨ past = true then 1
  else if w < 8 ∨ 64 < w then 2
  else if aboveWidth s n R.CHK_POLY || aboveWidth s n R.CHK_INIT || aboveWidth s n R.CHK_XOROUT || aboveWidth s n R.CHK_EXPECT then 3
  else if (chkRangeEnd s src).isNone || targetOf src == some .register then 4
  else 0

/-- A START: the job runs, or the unit refuses it before any data moves (R73, R75). -/
def chkBegin (s : State) (n : Nat) : State :=
  if rdb s F.CHK_STATUS_BUSY n then chkRefuse s n 5
  else
    let c := chkCause s n
    if c ≠ 0 then chkRefuse s n c
    else { wr s F.CHK_STATUS_BUSY n 0 1 with chk := s.chk.put n {} }

/-- A job ends: DONE with its END_CODE, raising the interrupt and the event that INT_DONE enables (R73, R77, R78). -/
def chkEnd (s : State) (n code : Nat) : State :=
  let s := wr (wr s F.CHK_STATUS_BUSY n 0 0) F.CHK_STATUS_END_CODE n 0 code
  let s := { wr s F.CHK_STATUS_RESULT_VALID n 0 (bit (code == 0)) with chk := s.chk.del n }
  let en := rdb s F.CHK_CTRL_INT_DONE n
  also en (fun s => signal s (64 + n)) (raiseIf en s K.CHK_STATUS_DONE n)

/-- ABORT of a running job; nothing when idle (R77, R79). -/
def chkAbortJob (s : State) (n : Nat) : State := if rdb s F.CHK_STATUS_BUSY n then chkEnd s n 1 else s

/-- A write of CHK_CTRL: while BUSY only ABORT acts and anything else is refused with code 5; otherwise the settings are taken and
START starts a job with them (R73, R76, R77). -/
def writeChkCtrl (s : State) (n v m : Nat) : State :=
  let start := bitOn (v &&& m) 0
  let abort := bitOn (v &&& m) 1
  if rdb s F.CHK_STATUS_BUSY n then
    if abort then chkAbortJob (also start (fun s => chkRefuse s n 5) s) n else chkRefuse s n 5
  else also start (fun s => chkBegin s n) (writeReg s R.CHK_CTRL n 0 v m)

/-- CHK_START: a write of CHK_CTRL with START (R73, R75, R76). -/
def execChkStart (n : Fin 16) (value : BitVec 32) (s : State) : Host.Outcome State Fault Refusal :=
  .next (writeChkCtrl s n (value.toNat ||| 1) 0xFFFFFFFF)

/-- CHK_ABORT (R77). -/
def execChkAbort (n : Fin 16) (s : State) : Host.Outcome State Fault Refusal := .next (chkAbortJob s n)

/-- The configuration registers that R76 guards while BUSY, CHK_CTRL apart. -/
def chkConfig : List Reg := [R.CHK_POLY, R.CHK_INIT, R.CHK_XOROUT, R.CHK_EXPECT, R.CHK_SRC, R.CHK_LEN, R.CHK_FOLD]

/-- A write of a configuration register of a unit: refused with code 5 while BUSY (R76). -/
def writeChkConfig (s : State) (r : Reg) (i j v m : Nat) : State :=
  if rdb s F.CHK_STATUS_BUSY i then chkRefuse s i 5 else writeReg s r i j v m

/-- CHK_CONFIG_WRITE: the register at the offset, when it is a check-unit configuration register, is written under R76. -/
def execChkConfigWrite (off : BitVec 26) (wide : Bool) (value : BitVec 64) (s : State) : Host.Outcome State Fault Refusal :=
  match locate off.toNat with
  | none => .next s
  | some l =>
    let v := if l.upper then value.toNat * 2 ^ 32 else value.toNat
    let m := if l.upper then 0xFFFFFFFF00000000 else if wide then fullMask l.reg else 0xFFFFFFFF
    if l.reg = R.CHK_CTRL then .next (writeChkCtrl s l.i v m)
    else if chkConfig.contains l.reg then .next (writeChkConfig s l.reg l.i l.j v m)
    else .next s

/-- The starting register and the bytes put before the data, by FOLD_MODE (R72). -/
def chkSeed (s : State) (n : Nat) : Nat × List Byte :=
  let init := rd s F.CHK_INIT_INIT n
  match rd s F.CHK_CTRL_FOLD_MODE n with
  | 0 => (init, [])
  | 1 => (init, ((upto 4).map fun k => leBytes (rd s F.CHK_FOLD_FOLD n k) 4).flatten)
  | 2 => (init ^^^ (rd s F.CHK_FOLD_FOLD n 0 % 2 ^ rd s F.CHK_CTRL_WIDTH n), [])
  | _ => (init ^^^ (rd s F.CHK_SRC_ADDR n / 64 % 2 ^ rd s F.CHK_CTRL_WIDTH n), [])

/-- The CRC of a unit's settings over data (R71, R72). -/
def chkCrc (s : State) (n : Nat) (data : List Byte) : Nat :=
  let seed := chkSeed s n
  crcGeneric (rd s F.CHK_CTRL_WIDTH n) (rd s F.CHK_POLY_POLY n) (rdb s F.CHK_CTRL_REFIN n) (rdb s F.CHK_CTRL_REFOUT n)
    (rd s F.CHK_XOROUT_XOROUT n) seed.1 (seed.2 ++ data)

/-- A job ends with a protection error on a read (R77). -/
def chkProtEnd (s : State) (n : Nat) : State := chkEnd (raise s K.CHK_STATUS_PROT_ERR n) n 2

/-- CHK_JOB_DONE: the data have been read and the result is held; a difference from CHK_EXPECT is a MISMATCH (R73, R74). A read that
ends with another error than a protection error returns data 0 (R562, R597; log entry 21). -/
def execChkJobDone (n : Fin 16) (s : State) : Host.Outcome State Fault Refusal :=
  if !rdb s F.CHK_STATUS_BUSY n || accessWaits s (32 + n) then .next s
  else
    let r := busRead s (32 + n) (rd s F.CHK_SRC_ADDR n) (rd s F.CHK_LEN_LEN n)
    let s := r.1
    if r.2.1 = 1 then .next (chkProtEnd s n)
    else
      let v := chkCrc s n r.2.2
      let s := wr s F.CHK_RESULT_RESULT n 0 v
      let en := rdb s F.CHK_CTRL_INT_MISMATCH n
      let s := if rdb s F.CHK_CTRL_COMPARE_EN n && decide (v ≠ rd s F.CHK_EXPECT_EXPECT n) then
          also en (fun s => signal s (80 + n)) (raiseIf en s K.CHK_STATUS_MISMATCH n)
        else s
      .next (chkEnd s n 0)

/-- CHK_PROT_ERROR: the job comes to a read that protection refuses: the refusal is reported in unit 3, and the job ends (R77, R588). Where
protection refuses none of its reads there is nothing to end it. -/
def execChkProtError (n : Fin 16) (s : State) : Host.Outcome State Fault Refusal :=
  if !rdb s F.CHK_STATUS_BUSY n || accessWaits s (32 + n) then .next s
  else
    let r := busRead s (32 + n) (rd s F.CHK_SRC_ADDR n) (rd s F.CHK_LEN_LEN n)
    .next (if r.2.1 = 1 then chkProtEnd r.1 n else s)

end Sys2Proof.Machine
end

