-- ==== Sys2Proof/Machine/Operands.lean ====
section
/-!
DEFINITION. The operand forms of a KSIS word: its fields, the extensions of its immediate, and the condition of compare and branch
(R14, R436, R440, R443).
-/

namespace Sys2Proof.Machine

/-- The fields of a word besides its opcode (R436). -/
structure Fields where
  rd : Nat := 0
  ra : Nat := 0
  rb : Nat := 0
  fn : Nat := 0
  imm : BitVec 32 := 0
  deriving DecidableEq, Repr

/-- The fields of a word of 64 bits (R436). -/
def fieldsOf (w : Nat) : Fields :=
  { rd := slice w 51 5, ra := slice w 46 5, rb := slice w 41 5, fn := slice w 32 9, imm := BitVec.ofNat 32 (slice w 0 32) }

/-- The fields of a row's operands. -/
def wordFields (rd ra rb : BitVec 5) (fn : BitVec 9) (imm : BitVec 32) : Fields :=
  { rd := rd.toNat, ra := ra.toNat, rb := rb.toNat, fn := fn.toNat, imm := imm }

/-- IMM sign-extended. -/
def sext (i : BitVec 32) : Word := i.signExtend 64
/-- IMM zero-extended. -/
def zext (i : BitVec 32) : Word := i.setWidth 64

/-- The condition c of compare and branch. -/
def cond (c : Nat) (a b : Word) : Bool :=
  match c with
  | 0 => a == b
  | 1 => a != b
  | 2 => a.slt b
  | 3 => !a.slt b
  | 4 => a.ult b
  | 5 => !a.ult b
  | _ => serialLater 32 (a.toNat % 2 ^ 32) (b.toNat % 2 ^ 32)

end Sys2Proof.Machine
end

