-- ==== Sys2Proof/Machine/Nal.lean ====
section
/-!
DEFINITION. The bitstreams that the decoder takes: their NAL units and parameter sets (R175 to R178, R184) and the marking of reference
pictures (R191). What the spec leaves to the coding standards is PRESUMED from them (log entry 30).
-/

namespace Sys2Proof.Machine

/-! ### NAL units (PRESUMED: the syntax of H.264 and HEVC; log entry 30) -/

/-- The type of a NAL unit. -/
def nalType (codec : Nat) (n : List Byte) : Nat := if codec = 0 then leAt n 0 1 % 32 else leAt n 0 1 / 2 % 64

/-- A NAL unit is kept: an HEVC one with nuh_layer_id above 0 is discarded (R175). -/
def nalKept (codec : Nat) (n : List Byte) : Bool := codec == 0 || (leAt n 0 1 % 2 == 0 && decide (leAt n 1 1 < 8))

/-- A NAL unit holds a slice. -/
def nalSlice (codec : Nat) (n : List Byte) : Bool :=
  let t := nalType codec n
  nalKept codec n && if codec = 0 then decide (1 ≤ t) && decide (t ≤ 5) else decide (t < 32)

/-- NAL units of the access unit that hold slices of the picture. -/
def slices (codec : Nat) (a : AccessUnit) : List (List Byte) := a.nals.filter (nalSlice codec)

/-- The access unit is a random access point (R177). -/
def isRap (codec : Nat) (a : AccessUnit) : Bool :=
  (slices codec a).any fun n => let t := nalType codec n; if codec = 0 then t == 5 else decide (16 ≤ t) && decide (t ≤ 23)

/-- A CRA, and a RASL picture. -/
def isCra (codec : Nat) (a : AccessUnit) : Bool := codec == 1 && (slices codec a).any fun n => nalType codec n == 21
def isRasl (codec : Nat) (a : AccessUnit) : Bool := codec == 1 && (slices codec a).any fun n => nalType codec n == 8 || nalType codec n == 9

/-- The picture is used for reference (R185). -/
def isReference (codec : Nat) (a : AccessUnit) : Bool :=
  (slices codec a).any fun n =>
    if codec = 0 then leAt n 0 1 / 32 % 4 != 0
    else !(nalType codec n % 2 == 0 && decide (nalType codec n < 16))

/-- An end-of-sequence NAL unit stands in the access unit (R188). -/
def endsSequence (codec : Nat) (a : AccessUnit) : Bool := a.nals.any fun n => nalKept codec n && nalType codec n == if codec = 0 then 10 else 36

/-- The kind of a parameter set: 1 VPS, 2 SPS, 3 PPS, 0 none. -/
def psetKind (codec : Nat) (n : List Byte) : Nat :=
  match codec, nalType codec n with
  | 0, 7 => 2
  | 0, 8 => 3
  | 0, _ => 0
  | _, 32 => 1
  | _, 33 => 2
  | _, 34 => 3
  | _, _ => 0

/-- A NAL unit without its emulation prevention bytes: `z` zero bytes stand before. -/
def unescape : Nat → List Byte → List Byte
  | _, [] => []
  | z, a :: t => if 2 ≤ z ∧ a = 3 then unescape 0 t else a :: unescape (if a = 0 then z + 1 else 0) t

/-- The bits of bytes, most significant first. -/
def msbBits (l : List Byte) : List Bool := (l.map fun b => (upto 8).map fun i => b.getLsbD (7 - i)).flatten

/-- The bits of a NAL unit in the order of the standards. -/
def nalBits (n : List Byte) : List Bool := msbBits (unescape 0 n)

/-- A number of bits, most significant first. -/
def bitsNat (l : List Bool) : Nat := l.foldl (fun a b => 2 * a + b.toNat) 0

/-- Bits as bytes, most significant first, zeros after the last. -/
def bitsToBytes (l : List Bool) : List Byte :=
  (upto (ceilDiv l.length 8)).map fun i => BitVec.ofNat 8 (bitsNat ((l.drop (8 * i) ++ List.replicate 8 false).take 8))

/-- The Exp-Golomb code that starts a list of bits. -/
def ueAt (l : List Bool) : Option Nat :=
  let z := (l.takeWhile (!·)).length
  if 31 < z ∨ l.length < 2 * z + 1 then none else some (bitsNat ((l.drop z).take (z + 1)) - 1)

/-- The bit of an HEVC SPS at which its identifier stands: after its header, 8 bits, and the profile_tier_level of its sub-layers. -/
def hevcSpsIdAt (b : List Bool) : Nat :=
  let m := bitsNat ((b.drop 20).take 3)
  120 + (if m = 0 then 0 else 16) +
    ((upto m).map fun i => 88 * (b.getD (120 + 2 * i) false).toNat + 8 * (b.getD (121 + 2 * i) false).toNat).foldl (· + ·) 0

/-- The identifier that a parameter set carries (R184). -/
def psetId (codec : Nat) (n : List Byte) : Option Nat :=
  let b := nalBits n
  match codec, psetKind codec n with
  | 0, 2 => ueAt (b.drop 32)
  | 0, 3 => ueAt (b.drop 8)
  | _, 1 => if b.length < 20 then none else some (bitsNat ((b.drop 16).take 4))
  | _, 2 => ueAt (b.drop (hevcSpsIdAt b))
  | _, 3 => ueAt (b.drop 16)
  | _, _ => none

/-- How many parameter sets of a kind a stream holds, whose identifiers lie below that number (R184). -/
def psetLimit (codec kind : Nat) : Nat :=
  match codec, kind with
  | 0, 2 => 32
  | 0, 3 => 256
  | _, 1 => 16
  | _, 2 => 16
  | _, 3 => 64
  | _, _ => 0

/-- A parameter set parses: its identifier does, and lies within the limit, and the rest of it parses (R182, R184). -/
def psetGood (codec : Nat) (n : List Byte) : Bool :=
  (psetId codec n).any (fun i => decide (i < psetLimit codec (psetKind codec n))) && Config.psetParses codec n

/-- A parameter set is held; one with an identifier already held is replaced (R184). -/
def holdPset (codec : Nat) (l : List (Nat × Nat × List Byte)) (n : List Byte) : List (Nat × Nat × List Byte) :=
  match psetId codec n with
  | none => l
  | some i =>
    let k := psetKind codec n
    if nalKept codec n && psetGood codec n then l.filter (fun e => !(e.1 == k && e.2.1 == i)) ++ [(k, i, n)] else l

/-- The NAL units of an Annex B byte stream: `cur` is the one being read, newest byte first; none before the first start code. -/
def annexB (cur : Option (List Byte)) : List Byte → List (List Byte)
  | [] => (cur.map endNal).toList
  | [a] => (cur.map fun c => endNal (a :: c)).toList
  | [a, b] => (cur.map fun c => endNal (b :: a :: c)).toList
  | a :: b :: c :: t =>
    if a = 0 ∧ b = 0 ∧ c = 1 then (cur.map endNal).toList ++ annexB (some []) t
    else annexB (cur.map fun l => a :: l) (b :: c :: t)
where
  /-- Trailing zero bytes are no part of a NAL unit. -/
  endNal (l : List Byte) : List Byte := (l.dropWhile (· == 0)).reverse

/-! ### What a parameter set allows (R175, R178, R188, R191) -/

/-- The cropped size. -/
def cropW (p : SpsInfo) : Nat := p.codedW - p.cropL - p.cropR
def cropH (p : SpsInfo) : Nat := p.codedH - p.cropT - p.cropB

/-- A bit depth is above 8: the picture is stored at 10 bits (R178). -/
def deepSps (p : SpsInfo) : Bool := decide (8 < p.depthY) || decide (8 < p.depthC)

/-- MaxDpbMbs of an H.264 level (PRESUMED: Table A-1 of the standard; log entry 30); constraint_set3_flag makes level 11 level 1b. -/
def maxDpbMbs (level : Nat) (b : Bool) : Nat :=
  match level with
  | 9 => 396 | 10 => 396 | 11 => if b then 396 else 900 | 12 => 2376 | 13 => 2376 | 20 => 2376 | 21 => 4752 | 22 => 8100 | 30 => 8100
  | 31 => 18000 | 32 => 20480 | 40 => 32768 | 41 => 32768 | 42 => 34816 | 50 => 110400 | 51 => 184320 | 52 => 184320
  | _ => 0

/-- The DPB size of the level for the coded size (R188). -/
def levelDpb (p : SpsInfo) : Nat := min 16 (maxDpbMbs p.level p.constraint3 / max 1 (ceilDiv p.codedW 16 * ceilDiv p.codedH 16))

/-- The DPB size of the bitstream: what the syntax of an HEVC SPS gives; that of the level for H.264, where only VUI content, which is not acted
on, could say less (R176, R191; log entry 120). -/
def dpbSize (codec : Nat) (p : SpsInfo) : Nat := if codec = 0 then levelDpb p else p.dpb.getD (levelDpb p)

/-- The reorder limit (R188). -/
def reorderLimit (p : SpsInfo) : Nat := p.reorder.getD (levelDpb p)

/-- The profile is accepted (R175). -/
def profileTaken (codec : Nat) (p : SpsInfo) : Bool :=
  if codec = 0 then p.profile == 66 || p.profile == 77 || p.profile == 100
  else p.profile == 1 || p.profile == 2 || p.compatMain || p.compatMain10

/-- The HEVC profile is Main 10: by general_profile_idc, or by the flag where the idc is not Main. -/
def isMain10 (p : SpsInfo) : Bool := p.profile == 2 || (p.profile != 1 && p.compatMain10)

/-- Chroma format and bit depth are accepted (R175, R196). -/
def depthTaken (codec : Nat) (tenBit : Bool) (p : SpsInfo) : Bool :=
  p.chroma == 1 && [p.depthY, p.depthC].all fun d => d == 8 || (codec == 1 && isMain10 p && tenBit && decide (8 ≤ d) && decide (d ≤ 10))

/-- Why an SPS is unsupported for a stream: the lowest cause of R196 that applies, 0 for none (R175, R191). FMO and redundant slices have a
code of their own, also where the profile is accepted only without them (log entry 121). The declared maxima are compared with the cropped size, as
the register table declares them, and not with the coded size that R175 names (DEDUCED, log entry 148). -/
def spsCause (x : Stream) (p : SpsInfo) : Nat :=
  (([(profileTaken x.codec p, 1), (decide (p.level ≤ if x.codec = 0 then 52 else 156), 2), (depthTaken x.codec x.tenBit p, 3),
    (if x.codec = 0 then p.frameMbsOnly else !p.fieldSeq, 4),
    (decide (cropW p ≤ x.maxW ∧ cropH p ≤ x.maxH ∧ 16 ≤ p.codedW ∧ p.codedW ≤ 4096 ∧ 16 ≤ p.codedH ∧ p.codedH ≤ 2304), 5),
    (decide (p.cropL = 0 ∧ p.cropT = 0 ∧ p.cropR ≤ 15 ∧ p.cropB ≤ 15), 6), (decide (dpbSize x.codec p ≤ x.dpbMax), 7),
    (x.codec != 0 || (p.sliceGroups == 0 && !p.redundant), 8)] : List (Bool × Nat)).find? fun c => !c.1).elim 0 (·.2)

/-! ### Reference marking (R191; PRESUMED: the processes of the standards, log entry 30) -/

/-- FrameNumWrap of a short-term picture, seen from a picture with frame_num `cur`. -/
def frameNumWrap (p : SpsInfo) (cur : Nat) (b : DpbPic) : Int := if cur < b.frameNum then (b.frameNum : Int) - p.maxFrameNum else b.frameNum

/-- The sliding window: where the marked pictures fill it, the short-term one of smallest FrameNumWrap goes. -/
def slide (p : SpsInfo) (cur : Nat) (l : List DpbPic) : List DpbPic :=
  if l.length < max 1 p.maxRefFrames then l
  else match (l.filter (·.long.isNone)).foldl (fun (a : Option DpbPic) b =>
      match a with
      | none => some b
      | some c => if frameNumWrap p cur b < frameNumWrap p cur c then some b else a) none with
    | none => l
    | some b => l.erase b

/-- The H.264 marks while operations run: the pictures, MaxLongTermFrameIdx, the current picture's long-term index, and whether operation 5
was among them. -/
structure Marks where
  pics : List DpbPic
  maxLong : Option Nat
  long : Option Nat := none
  reset : Bool := false

/-- One memory management control operation on a picture with frame_num `cur`. -/
def mmcoStep (p : SpsInfo) (cur : Nat) (m : Marks) (o : Mmco) : Marks :=
  let short := fun (d : Nat) (b : DpbPic) => b.long.isNone && frameNumWrap p cur b == (cur : Int) - (d + 1 : Nat)
  match o with
  | .shortUnused d => { m with pics := m.pics.filter fun b => !short d b }
  | .longUnused k => { m with pics := m.pics.filter fun b => b.long != some k }
  | .toLong d i => { m with pics := (m.pics.filter fun b => b.long != some i).map fun b => if short d b then { b with long := some i } else b }
  | .maxLong k =>
    { m with pics := m.pics.filter fun b => b.long.all fun i => decide (i < k), maxLong := if k = 0 then none else some (k - 1) }
  | .clearAll => { m with pics := [], maxLong := none, reset := true }
  | .currentLong i => { m with pics := m.pics.filter fun b => b.long != some i, long := some i }

/-- The marks that an H.264 reference picture leaves on the others, and its own long-term index. -/
def avcMarks (p : SpsInfo) (idr : Bool) (i : PicInfo) (l : List DpbPic) (maxLong : Option Nat) : Marks :=
  if idr then { pics := [], maxLong := if i.longRef then some 0 else none, long := if i.longRef then some 0 else none }
  else match i.mmco with
    | none => { pics := slide p i.frameNum l, maxLong := maxLong }
    | some ops => ops.foldl (mmcoStep p i.frameNum) { pics := l, maxLong := maxLong }

/-- The non-existing frames that a gap in frame_num brings, each through the sliding window; the last 16 of them suffice. -/
def fillGap (p : SpsInfo) (prev cur : Nat) (l : List DpbPic) : List DpbPic :=
  let n := max 1 p.maxFrameNum
  let gap := (cur + n - (prev + 1) % n) % n
  (upto (min 16 gap)).foldl (fun l (k : Nat) =>
    let f := (cur + n - (min 16 gap - k)) % n
    slide p f l ++ [{ frameNum := f }]) l

/-- The pictures that an HEVC reference picture set keeps. -/
def rpsMarks (rps : List RpsPic) (l : List DpbPic) : List DpbPic :=
  l.filterMap fun b => (rps.find? fun e => if e.modulus = 0 then e.poc == b.poc else e.poc % (e.modulus : Int) == b.poc % (e.modulus : Int)).map fun e =>
    { b with long := if e.long then some 0 else none }

end Sys2Proof.Machine
end

