-- ==== Sys2Proof/Machine/Pixels.lean ====
section
/-!
DEFINITION. Buffer formats and layouts (R223 to R225), tile numbering and the bytes of a tile (R45 to R48).
-/

namespace Sys2Proof.Machine

/-- Planes of a format: two for the 4:2:0 formats, one otherwise (R223). -/
def planesOf (fmt : Nat) : Nat := if fmt = 1 ∨ fmt = 6 then 2 else 1

/-- The bytes of plane `k` of a line that hold a sample of the pixel columns `x0` to `x1 − 1`: first byte and count (R47). `x0` is
a multiple of 128, so it starts a group in every format. -/
def spanOf (fmt k x0 x1 : Nat) : Nat × Nat :=
  let n := x1 - x0
  match fmt with
  | 1 => if k = 0 then (x0, n) else (x0, 2 * ceilDiv n 2)
  | 2 => (2 * x0, 2 * n + n % 2)
  | 3 => (x0 / 2 * 5, 5 * ceilDiv n 2)
  | 4 => (3 * x0, 3 * n)
  | 5 => (3 * x0, 3 * n)
  | 6 => if k = 0 then (x0 / 4 * 5, 5 * ceilDiv n 4) else (x0 / 4 * 5, 5 * ceilDiv (2 * ceilDiv n 2) 4)
  | 8 => (6 * x0, 6 * n)
  | 9 => (3 * x0, 3 * n)
  | 10 => (4 * x0, 4 * n)
  | _ => (0, 0)

/-- The pitch of plane `k` in a pool of width `w` (R224). -/
def pitchOf (fmt k w : Nat) : Nat := roundUp (spanOf fmt k 0 w).2 256

/-- Where plane `k` starts in a buffer of class `w` by `h` (R224). -/
def planeOff (fmt k w h : Nat) : Nat := if k = 0 then 0 else pitchOf fmt 0 w * h

/-- Where the seal record starts in a buffer (R224). -/
def recordOff (fmt w h : Nat) : Nat :=
  roundUp (pitchOf fmt 0 w * h + (if planesOf fmt = 2 then pitchOf fmt 1 w * ceilDiv h 2 else 0)) 64

/-- TILES_PER_ROW (R45). -/
def tilesPerRow (w : Nat) : Nat := ceilDiv w 128
/-- TILE_ROWS (R45). -/
def tileRows (h : Nat) : Nat := ceilDiv h 16

/-- BUF_BYTES of a class (R224). -/
def bufBytes (fmt w h : Nat) : Nat := roundUp (recordOff fmt w h + 64 + 4 * tilesPerRow w * tileRows h) 4096

/-- The pixel columns of tile column `c` of a frame of width `w`. -/
def tileX (w c : Nat) : Nat × Nat := (c * 128, min w (c * 128 + 128))
/-- The pixel lines of tile row `r` of a frame of height `h`. -/
def tileY (h r : Nat) : Nat × Nat := (r * 16, min h (r * 16 + 16))

/-- The parts of tile `t` of a frame in their order: plane, line of the plane, first byte in the line, bytes (R46, R47). -/
def tileParts (fmt w h t : Nat) : List (Nat × Nat × Nat × Nat) :=
  let x := tileX w (t % tilesPerRow w)
  let y := tileY h (t / tilesPerRow w)
  ((upto (planesOf fmt)).map fun k =>
    let sp := spanOf fmt k x.1 x.2
    let l0 := if k = 0 then y.1 else y.1 / 2
    let l1 := if k = 0 then y.2 else (y.2 - 1) / 2 + 1
    (upto (l1 - l0)).map fun i => (k, l0 + i, sp.1, sp.2)).flatten

/-- The byte count of a tile. -/
def tileLen (fmt w h t : Nat) : Nat := (tileParts fmt w h t).foldl (fun a p => a + p.2.2.2) 0

/-- Where a frame lies in memory: the buffer base, its pool's class and the frame's own size. -/
structure Place where
  base : Nat
  fmt : Nat
  pw : Nat
  ph : Nat
  w : Nat
  h : Nat
  deriving DecidableEq, Repr

/-- Address of byte `x` of line `l` of plane `k`. -/
def lineAddr (p : Place) (k l x : Nat) : Nat := p.base + planeOff p.fmt k p.pw p.ph + l * pitchOf p.fmt k p.pw + x

/-- Address of the seal record. -/
def recordAddr (p : Place) : Nat := p.base + recordOff p.fmt p.pw p.ph

/-- Tiles of the frame. -/
def tileCount (p : Place) : Nat := tilesPerRow p.w * tileRows p.h

/-- The size rule of R223 for a class: 0 when it holds, 1 when the width breaks it, 2 when the height does. -/
def sizeRule (fmt w h : Nat) : Nat :=
  if (fmt = 1 ∨ fmt = 2 ∨ fmt = 3) ∧ w % 2 ≠ 0 then 1
  else if fmt = 6 ∧ w % 4 ≠ 0 then 1
  else if (fmt = 1 ∨ fmt = 6) ∧ h % 2 ≠ 0 then 2
  else 0

/-- A read of the bytes of a tile by a master: the state, whether any read got an error response, and the bytes (R58). -/
def readTile (s : State) (master : Nat) (p : Place) (t : Nat) : State × Bool × List Byte :=
  (tileParts p.fmt p.w p.h t).foldl (fun (acc : State × Bool × List Byte) q =>
    let r := busRead acc.1 master (lineAddr p q.1 q.2.1 q.2.2.1) q.2.2.2
    (r.1, acc.2.1 || r.2.1 != 0, acc.2.2 ++ r.2.2)) (s, false, [])

end Sys2Proof.Machine
end

