-- ==== Sys2Proof/Machine/Seal.lean ====
section
/-!
DEFINITION. Seals: address blocks, record headers, the sealing of frames and the checks of headers and tiles (R42 to R60).
-/

namespace Sys2Proof.Machine

/-- DOMAIN bytes of R43. -/
def domSource : Nat := 0
def domUnder : Nat := 0x81
def domOver : Nat := 0x82
def domWriteBack : Nat := 0x90

/-- The address block of a tile (R43). -/
def addressBlock (dev dom ident seq tile base : Nat) : List Byte :=
  [BitVec.ofNat 8 (dev % 64), BitVec.ofNat 8 dom] ++ leBytes ident 2 ++ leBytes seq 4 ++ leBytes tile 2 ++ leBytes (base / 64) 5 ++ [0]

/-- The FLAGS byte of a record header (R50). -/
def frameFlags (f : Frame) : Nat :=
  bit f.concealed + 2 * bit f.rap + 4 * bit f.static + 8 * bit f.derived + 16 * bit f.ptpStamp

/-- Bytes [59:0] of a record header (R50). -/
def headerBody (dev dom ident seq publish base : Nat) (f : Frame) : List Byte :=
  leBytes 0x4C414553 4 ++ [1, BitVec.ofNat 8 f.format, BitVec.ofNat 8 f.origin, BitVec.ofNat 8 (frameFlags f),
    BitVec.ofNat 8 (dev % 64), BitVec.ofNat 8 dom] ++ leBytes ident 2 ++ leBytes seq 4 ++ leBytes f.capture 4 ++ leBytes publish 4 ++
  leBytes f.width 2 ++ leBytes f.height 2 ++ leBytes (tilesPerRow f.width) 2 ++ leBytes (tileRows f.height) 2 ++ leBytes base 8 ++
  leBytes (if f.derived then f.parentSeq else 0) 4 ++ leBytes (if f.derived then f.parentId else 0) 2 ++ leBytes f.allow 2 ++
  leBytes f.content 4 ++ List.replicate 8 0

/-- A whole record header: its body and HEADER_SUM (R50). -/
def withSum (body : List Byte) : List Byte := body ++ leBytes (crc32c body).toNat 4

/-- The seal CRC of tile bytes under an identity (R44, R60). -/
def tileSeal (dev dom ident seq tile base : Nat) (l : List Byte) : Nat :=
  (sealTile (addressBlock dev dom ident seq tile base) l).toNat

/-- The place of a leased frame. -/
def placeOf (s : State) (l : Lease) : Place :=
  let p := s.eas.pools.get l.pool {}
  { base := l.base, fmt := p.format, pw := p.width, ph := p.height, w := l.frame.width, h := l.frame.height }

/-- The place of the frame `f` in the buffer of descriptor `d`. -/
def placeIn (s : State) (d : Nat) (f : Frame) : Place :=
  let x := descOf s d
  let p := s.eas.pools.get x.pool {}
  { base := x.base, fmt := p.format, pw := p.width, ph := p.height, w := f.width, h := f.height }

/-- What the lease of a descriptor pins: the identity comes from the Easel, never from the record (R60). -/
def leaseOf (s : State) (d : Nat) : Lease :=
  let x := descOf s d
  { desc := d, base := x.base, pool := x.pool, frame := x.frame }

/-- A header as read: whether it passes R59 for an identity, and its WIDTH and HEIGHT. -/
def headerPasses (h : List Byte) (dev dom ident seq base : Nat) : Bool :=
  leAt h 0 4 == 0x4C414553 && leAt h 4 1 == 1 && leAt h 60 4 == (crc32c (bytesAt h 0 60)).toNat && leAt h 8 1 == dev % 64 &&
    leAt h 9 1 == dom && leAt h 10 2 == ident && leAt h 12 4 == seq && leAt h 32 8 == base

/-- The read and check of the record header of a leased frame (R59): the state, whether it passes, and the header. -/
def readHeader (s : State) (master : Nat) (l : Lease) : State × Bool × List Byte :=
  let r := busRead s master (recordAddr (placeOf s l)) 64
  (r.1, r.2.1 == 0 && headerPasses r.2.2 s.straps.device domSource l.frame.source l.frame.seq l.base, r.2.2)

/-- The CRC that a leased frame's record holds for a tile, and whether its read got an error response (R63). -/
def readCrc (s : State) (master : Nat) (l : Lease) (tile : Nat) : State × Bool × Nat :=
  let r := busRead s master (recordAddr (placeOf s l) + 64 + 4 * tile) 4
  (r.1, r.2.1 != 0, leNat r.2.2)

/-- The seal CRC of bytes as a tile of a leased frame: identity, sequence and base are the lease's (R60). -/
def leaseSeal (s : State) (l : Lease) (tile : Nat) (b : List Byte) : Nat :=
  tileSeal s.straps.device domSource l.frame.source l.frame.seq tile l.base b

/-- A leased tile read whole: whether it verifies, as it does when both reads return data and the CRCs are equal, and its bytes (R58, R60,
R597). -/
def tileOk (s : State) (master : Nat) (l : Lease) (tile : Nat) : State × Bool × List Byte :=
  let a := readCrc s master l tile
  let b := readTile a.1 master (placeOf s l) tile
  (b.1, !a.2.1 && !b.2.1 && a.2.2 == leaseSeal s l tile b.2.2, b.2.2)

/-- A tile mismatch is counted and recorded (R62, R68 to R70). -/
def tileMismatch (s : State) (tile layer canvas source : Nat) : State :=
  let s := addSat (raise s K.SEAL_EVENT_TILE_MISMATCH) F.SEAL_TOTAL_TILES 0 1
  let s := wr0 (wr0 s F.SEAL_LAST_TILE tile) F.SEAL_LAST_LAYER layer
  wr0 (wr0 (wr0 s F.SEAL_LAST_CANVAS canvas) F.SEAL_LAST_SOURCE_ID source) F.SEAL_LAST_VALID 1

/-! ### Making seals -/

/-- The bytes of a tile out of lines held by their producer: (plane, line, bytes of the whole line) (R52). -/
def tileOfLines (lines : List (Nat × Nat × List Byte)) (p : Place) (t : Nat) : List Byte :=
  ((tileParts p.fmt p.w p.h t).map fun q =>
    match lines.find? fun x => x.1 == q.1 && x.2.1 == q.2.1 with
    | some x => bytesAt x.2.2 q.2.2.1 q.2.2.2
    | none => List.replicate q.2.2.2 0).flatten

/-- The tiles of tile row `r`. -/
def rowTiles (p : Place) (r : Nat) : List Nat := (upto (tilesPerRow p.w)).map (· + r * tilesPerRow p.w)

/-- A producer writes lines of a frame into its buffer. -/
def writeLines (s : State) (master : Nat) (p : Place) (lines : List (Nat × Nat × List Byte)) : State :=
  lines.foldl (fun s x => (busWrite s master (lineAddr p x.1 x.2.1 0) x.2.2).1) s

/-- A producer seals tile row `r` from the lines it holds: their CRCs go into the record with SEQ bytes as given (R44, R52, R53). -/
def sealRow (s : State) (master : Nat) (p : Place) (dom ident seq r : Nat) (lines : List (Nat × Nat × List Byte)) : State :=
  (rowTiles p r).foldl (fun s t =>
    (busWrite s master (recordAddr p + 64 + 4 * t) (leBytes (tileSeal s.straps.device dom ident seq t p.base (tileOfLines lines p t)) 4)).1) s

/-- CONTENT's register after the tiles of a row, in tile index order (R50). -/
def contentRow (c : Nat) (p : Place) (r : Nat) (lines : List (Nat × Nat × List Byte)) : Nat :=
  (rowTiles p r).foldl (fun c t => (crc32cUpdate (BitVec.ofNat 32 c) (tileOfLines lines p t)).toNat) c

/-- CONTENT from its register. -/
def contentOf (c : Nat) : Nat := c ^^^ 0xFFFFFFFF

/-- A provisionally sealed frame's header is written: every field but SEQ and HEADER_SUM, whose bytes keep what they hold (R51, R53).
PUBLISH has no meaning before the record is complete, and what the producer puts there is a free value (log entry 45). -/
def writeProvisional (s : State) (master : Nat) (p : Place) (f : Frame) : State :=
  let h := headerBody s.straps.device domSource f.source 0 (freeNat s % 2 ^ 32) p.base f
  let s := (busWrite (draw s) master (recordAddr p) (h.take 12)).1
  (busWrite s master (recordAddr p + 16) (h.drop 16)).1

/-- The seal engine completes a provisional record: each CRC converted, then SEQ, then HEADER_SUM (R53). -/
def completeRecord (s : State) (p : Place) (seq publish : Nat) : State :=
  let s := (upto (tileCount p)).foldl (fun s t =>
    let r := busRead s 51 (recordAddr p + 64 + 4 * t) 4
    (busWrite r.1 51 (recordAddr p + 64 + 4 * t)
      (leBytes (sealFromProvisional (BitVec.ofNat 32 (leNat r.2.2)) seq (tileLen p.fmt p.w p.h t)).toNat 4)).1) s
  let r := busRead s 51 (recordAddr p) 64
  let body := patchBytes (patchBytes (bytesAt r.2.2 0 60) 12 (leBytes seq 4)) 20 (leBytes publish 4)
  (busWrite r.1 51 (recordAddr p) (withSum body)).1

/-- The seal engine reads a buffer once: the state, whether a read got an error response, CONTENT, and the tile CRCs for a sequence
(R52, R54, R244). -/
def sealBuffer (s : State) (p : Place) (ident seq : Nat) : State × Bool × Nat × List Byte :=
  let r := (upto (tileCount p)).foldl (fun (acc : State × Bool × Nat × List Byte) t =>
    let b := readTile acc.1 51 p t
    (b.1, acc.2.1 || b.2.1, (crc32cUpdate (BitVec.ofNat 32 acc.2.2.1) b.2.2).toNat,
      acc.2.2.2 ++ leBytes (tileSeal s.straps.device domSource ident seq t p.base b.2.2) 4)) (s, false, 0xFFFFFFFF, [])
  (r.1, r.2.1, contentOf r.2.2.1, r.2.2.2)

/-- A frame's whole header is written with its sequence known. -/
def writeHeader (s : State) (master : Nat) (p : Place) (dom ident seq publish : Nat) (f : Frame) : State :=
  (busWrite s master (recordAddr p) (withSum (headerBody s.straps.device dom ident seq publish p.base f))).1

end Sys2Proof.Machine
end

