-- ==== Sys2Proof/Machine/Freshness.lean ====
section
/-!
DEFINITION. What a publish does beyond the Easel: the Ledger's capture time and RAP_WAIT (R332, R343), and the triggers of
flattening (R282, R285, R288).
-/

namespace Sys2Proof.Machine

/-! ### The Ledger's part of a publish -/

/-- The full time of a capture short stamp against the full time of the publish (R332, R333). -/
def captureFull (publish : Int) (capture : Nat) : Int :=
  publish - signedOf 32 (unsignedOf 32 (publish - (capture : Int)))

/-- The RAP_WAIT flag recorded with a sequence of a source; a sequence not among the last four counts as set (R343). -/
def parentWaits (s : State) (source seq : Nat) : Bool :=
  match (srcOf s source).recent.find? fun x => x.1 == seq with
  | some x => x.2
  | none => true

/-- A frame is published at a full time: the Ledger extends its capture stamp, moves RAP_WAIT and records both (R332, R343). -/
def ledgerPublish (s : State) (f : Frame) (now : Int) : State × Frame :=
  let x := srcOf s f.source
  let rap := if f.concealed then true else if f.rap then false else x.rapWait
  let wait := rap || (f.derived && parentWaits s f.parentId f.parentSeq)
  let full := captureFull now f.capture
  (setSrc s f.source { x with rapWait := rap, recent := ((f.seq, wait) :: x.recent).take 4, lastCapture := some full },
   { f with captureFull := full, rapWait := wait })

/-- A check of R59 or R60 failed on a frame: a decoded one puts its source under RAP_WAIT (R343). -/
def checkFailed (s : State) (f : Frame) : State :=
  if f.origin = 2 then updSrc s f.source fun x => { x with rapWait := true } else s

/-! ### Shown layers and planes -/

/-- The size of a canvas: HACT by the VACT of its gallery. -/
def canvasW (s : State) (c : Nat) : Nat := rd s F.CNV_H_HACT c
def canvasH (s : State) (c : Nat) : Nat := rd s F.CNV_GAL_HV_VACT (rd s F.CNV_CTRL_GALLERY c)

/-- The layers committed for canvas `c` in its gallery and shown, in the order of R271, lowest first. -/
def shownOn (s : State) (c : Nat) : List Nat :=
  let l := (s.eas.layers.filter fun e => e.2.committed && e.2.desc.shown && e.2.desc.canvas == c &&
    e.2.gallery == rd s F.CNV_CTRL_GALLERY c).map fun e => (e.2.desc.z, e.1)
  (sortBy (fun a b => decide (a.1 < b.1) || (a.1 == b.1 && decide (a.2 ≤ b.2))) l).map (·.2)

/-- The region of a descriptor on a canvas of a size: left, top, right, bottom; none when empty (R269). -/
def regionOf (d : LayerDesc) (w h : Nat) : Option (Nat × Nat × Nat × Nat) :=
  let x0 := max d.dstX 0
  let y0 := max d.dstY 0
  let x1 := min (d.dstX + d.dstW) w
  let y1 := min (d.dstY + d.dstH) h
  if x0 < x1 ∧ y0 < y1 then some (x0.toNat, y0.toNat, x1.toNat, y1.toNat) else none

/-- The region of a layer on its canvas. -/
def layerRegion (s : State) (l : Nat) : Option (Nat × Nat × Nat × Nat) :=
  let d := (layOf s l).desc
  regionOf d (canvasW s d.canvas) (canvasH s d.canvas)

/-- The split of R282: underlay, direct, overlay. -/
def splitPlanes (s : State) (l : List Nat) (planesEn : Bool) : List Nat × List Nat × List Nat :=
  if !planesEn then ([], l, [])
  else
    let st := fun n => (layOf s n).desc.static
    let under := l.takeWhile st
    let rest := l.dropWhile st
    let top := (rest.reverse.takeWhile st).reverse
    (under, rest.take (rest.length - top.length), top)

/-- PLANES_EN of a canvas as latched. -/
def planesEn (s : State) (c : Nat) : Bool := bitOn (cnvOf s c).cfg 16

/-- The layers that canvas `c`'s planes are built from, underlay and overlay: one with an empty region takes no lease and gives nothing
(R269, R282). -/
def planeLayers (s : State) (c : Nat) : List Nat × List Nat :=
  let p := splitPlanes s (shownOn s c) (planesEn s c)
  let seen := fun (l : List Nat) => l.filter fun n => (layerRegion s n).isSome
  (seen p.1, seen p.2.2)

/-! ### Buffers and holds (R229 to R237) -/

/-- A buffer is held (R230). -/
def heldBuf (x : Desc) : Bool := decide (0 < x.leases) || x.refS || x.refL

/-- A buffer returns to FREE. -/
def toFree (x : Desc) : Desc := { x with st := .free, ownerHost := false }

/-- What the last dropped hold does (R230, R231). -/
def settle (x : Desc) : Desc :=
  if heldBuf x then x
  else if x.st = .retiring ∨ (x.st = .superseded ∧ x.ownerHost = false) then toFree x
  else x

/-- One lease is taken on a buffer (R234). -/
def takeLease (s : State) (d : Nat) : State := updDesc s d fun x => { x with leases := x.leases + 1 }

/-- One lease is dropped (R230, R234). -/
def dropLease (s : State) (d : Nat) : State := updDesc s d fun x => settle { x with leases := x.leases - 1 }

/-! ### Flatten triggers -/

/-- A running flatten is discarded: its leases drop (R285, R286). -/
def discardFlatten (s : State) (c : Nat) : State :=
  match (cnvOf s c).flat with
  | none => s
  | some f => updCnv (each f.leases (fun s x => dropLease s x.2.desc) s) c fun x => { x with flat := none }

/-- A flatten of canvas `c` is triggered; one trigger is held. A commit discards a running flatten and a pending set, and static layers are
composed directly from then on, so that no plane shows another epoch's layout; without PLANES_EN nothing is built (R285, R288). -/
def triggerFlatten (s : State) (c : Nat) (commit : Bool) : State :=
  let s := if commit then discardFlatten s c else s
  let s := updCnv s c fun x => { x with direct := x.direct || commit, pendingSet := if commit then none else x.pendingSet }
  if !planesEn s c then s
  else updCnv s c fun x =>
    { x with trigger := match x.trigger with | none => some (commit, s.time.cyc) | some t => some (t.1 || commit, t.2) }

/-! ### When a context's pending set takes effect (R170) -/

/-- The enabled outputs of a set, with their numbers. -/
def enabledOuts (t : CtxSet) : List (Nat × CtxOut) := (upto 4).filterMap fun k => (t.outs[k]?).bind fun o => if o.on then some (k, o) else none

/-- The pending set may come into effect at SLU cycle `now`: one that became pending in that cycle waits for the following frame start or job
release. -/
def pendReady (x : Context) (now : Nat) : Bool := x.pendAt != now

/-- The set that a frame of a context that starts now lands under, and the one that a job released now runs under. -/
def nextLand (x : Context) (now : Nat) : Option CtxSet := if x.pendLand && pendReady x now then x.pend else x.land
def nextPipe (x : Context) (now : Nat) : Option CtxSet := if x.pendPipe && pendReady x now then x.pend else x.pipe

/-- A frame starts: the landing side takes the pending set. A set with no output enabled has no job release to wait for, and the pipeline side
takes it with the landing side (log entry 29). -/
def landSide (x : Context) (now : Nat) : Context :=
  if !(x.pendLand && pendReady x now) then x
  else
    let all := x.pendPipe && x.pend.all fun t => (enabledOuts t).isEmpty
    { x with land := x.pend, pendLand := false, pipe := if all then x.pend else x.pipe, pendPipe := x.pendPipe && !all
             pend := if x.pendPipe && !all then x.pend else none }

/-- A job is released: the pipeline side takes the pending set. -/
def pipeSide (x : Context) (now : Nat) : Context :=
  if x.pendPipe && pendReady x now then { x with pipe := x.pend, pendPipe := false, pend := if x.pendLand then x.pend else none } else x

def ctxOf (s : State) (c : Nat) : Context := s.slu.ctxs.get c {}
def setCtx (s : State) (c : Nat) (x : Context) : State := { s with slu := { s.slu with ctxs := s.slu.ctxs.put c x } }
def updCtx (s : State) (c : Nat) (f : Context → Context) : State := setCtx s c (f (ctxOf s c))

/-- What a context shows in SLU_CTX_STATE (R173). -/
def showCtx (s : State) (c : Nat) : State :=
  let x := ctxOf s c
  let s := wr s F.SLU_CTX_STATE_ACTIVE c 0 (bit (x.land.any (·.en) || x.pipe.any (·.en)))
  let s := wr (wr s F.SLU_CTX_STATE_JOB c 0 (bit x.job.isSome)) F.SLU_CTX_STATE_PENDING c 0 (bit x.next.isSome)
  let s := wr s F.SLU_CTX_STATE_SET_PENDING c 0 (bit (x.pendLand || x.pendPipe))
  match x.job with
  | some j => wr s F.SLU_CTX_STATE_STRIPE c 0 j.k
  | none => s

/-- A publish of a memory input's parent, in buffer `d`: it counts as a frame start, and a job on it is due (R149, R153). -/
def parentPublished (s : State) (source : Nat) : State :=
  let now := sluCyc s
  let reads := fun (x : Context) => (nextPipe x now).any fun t => t.en && t.input == 2 && t.parentSrc == source
  let due := (srcOf s source).cur.map fun d => (d, (descOf s d).seq, false)
  each ((s.slu.ctxs.filter fun e => reads e.2).map (·.1)) (fun s c =>
    showCtx (updCtx s c fun x => { landSide x now with due := due, wdogFrom := s.time.cyc }) c) s

/-- What a publish of `source` sets going: flattens of the canvases whose planes show it (R285), jobs of the contexts that read it. -/
def publishTriggers (s : State) (source : Nat) : State :=
  parentPublished (each (upto 32) (fun s c =>
    let p := planeLayers s c
    if (p.1 ++ p.2).any fun l => (layOf s l).desc.source == source then triggerFlatten s c false else s) s) source

end Sys2Proof.Machine
end

