-- ==== Sys2Proof/Machine/Slots.lean ====
section
/-!
DEFINITION. Layer table slots: the descriptor of R266 read from its 128 bytes, and the checks of STAGE (R267, R272).
-/

namespace Sys2Proof.Machine

/-- The descriptor in a slot (R266). -/
def parseSlot (b : List Byte) : LayerDesc :=
  let fl := leAt b 1 1
  let col := leAt b 7 1
  { shown := bitOn fl 0, static := bitOn fl 1, pacing := bitOn fl 2, glaze := bitOn fl 3, keyEn := bitOn fl 4, nearest := bitOn fl 5
    canvas := leAt b 2 1 % 32, z := leAt b 3 1, source := leAt b 4 2 % 4096, alpha := leAt b 6 1
    mat := col % 4, full := bitOn col 2, transfer := slice col 3 4
    srcX := leAt b 8 2, srcY := leAt b 10 2, srcW := leAt b 12 2, srcH := leAt b 14 2
    dstX := signedOf 16 (leAt b 16 2), dstY := signedOf 16 (leAt b 18 2), dstW := leAt b 20 2, dstH := leAt b 22 2
    key := leAt b 24 3, deadline := leAt b 28 2, warn := leAt b 30 1, motion := leAt b 31 1 % 4, frozenN := leAt b 32 1
    tickMs := leAt b 34 2, tickX := leAt b 36 2, tickY := leAt b 38 2, tickW := leAt b 40 2, tickH := leAt b 42 2 }

/-- The vertical downscale limit by source width (R272). -/
def downLimit (srcW : Nat) : Nat := if srcW ≤ 1920 then 8 else if srcW ≤ 3840 then 4 else 2

/-- The checks that hold whatever SHOW is: VERSION, CANVAS and the reserved bits, as (byte offset, passes) (R266, R267). -/
def slotFixed (b : List Byte) : List (Nat × Bool) :=
  [(0, leAt b 0 1 == 1), (1, leAt b 1 1 < 64), (2, leAt b 2 1 < 32), (4, leAt b 4 2 < 4096), (7, leAt b 7 1 < 128),
   (27, leAt b 27 1 == 0), (31, leAt b 31 1 < 4), (33, leAt b 33 1 == 0), (44, leAt b 44 20 == 0)]

/-- The checks of a slot with SHOW at 1, given the TRANSFER its canvas expects and the other layers shown there (R267, R272). A
failure of the scaling limits is reported at SRC_W or SRC_H (log entry 22). -/
def slotShown (b : List Byte) (transfer others : Nat) : List (Nat × Bool) :=
  let d := parseSlot b
  [(2, decide (others < 64)), (7, d.mat != 3), (7, d.transfer == transfer), (8, decide (d.srcX ≤ 8191)), (10, decide (d.srcY ≤ 4351)),
   (12, decide (1 ≤ d.srcW) && decide (d.srcX + d.srcW ≤ 8192)), (14, decide (1 ≤ d.srcH) && decide (d.srcY + d.srcH ≤ 4352)),
   (12, decide (d.dstW ≤ 16 * d.srcW) && decide (d.srcW ≤ 8 * d.dstW)),
   (14, decide (d.dstH ≤ 16 * d.srcH) && decide (d.srcH ≤ downLimit d.srcW * d.dstH)),
   (16, decide (-8192 ≤ d.dstX) && decide (d.dstX ≤ 8191)), (18, decide (-8192 ≤ d.dstY) && decide (d.dstY ≤ 8191)),
   (20, decide (1 ≤ d.dstW) && decide (d.dstW ≤ 16384)), (22, decide (1 ≤ d.dstH) && decide (d.dstH ≤ 16384)),
   (28, decide (1 ≤ d.deadline) && decide (d.deadline ≤ 2000)), (30, decide (d.warn ≤ 100)), (31, d.motion != 3),
   (32, decide (2 ≤ d.frozenN)), (34, decide (1 ≤ d.tickMs) && decide (d.tickMs ≤ 2000)),
   (36, d.motion != 2 || decide (d.tickX + d.tickW ≤ 8192)), (38, d.motion != 2 || decide (d.tickY + d.tickH ≤ 4352)),
   (40, d.motion != 2 || decide (1 ≤ d.tickW)), (42, d.motion != 2 || decide (1 ≤ d.tickH))]

/-- The lowest byte offset among failing checks. -/
def lowestFail (l : List (Nat × Bool)) : Option Nat :=
  l.foldl (fun a x => if x.2 then a else match a with | none => some x.1 | some k => some (min k x.1)) none

/-- The byte offset at which STAGE refuses a slot; none when it is valid (R267). -/
def slotBad (b : List Byte) (transfer others : Nat) : Option Nat :=
  if (parseSlot b).shown then lowestFail (slotFixed b ++ slotShown b transfer others) else lowestFail (slotFixed b)

/-- The descriptor a layer has in gallery `g` with the gallery's staged slots in place of its active ones (R267). -/
def nextDesc (x : Layer) (g : Nat) : Option LayerDesc :=
  if x.staged = some g then some x.stagedDesc else if x.committed && x.gallery == g then some x.desc else none

/-- Layers other than `l` that are shown on canvas `c`, counting gallery `g`'s active and staged slots (R267). -/
def othersShown (s : State) (g c l : Nat) : Nat :=
  (s.eas.layers.filter fun e => e.1 != l &&
    match nextDesc e.2 g with | some d => d.shown && d.canvas == c | none => false).length

/-- A committed layer names a source in its active slot, shown or hidden (R242). -/
def namesSource (s : State) (id : Nat) : Bool := s.eas.layers.any fun e => e.2.committed && e.2.desc.source == id

end Sys2Proof.Machine
end

