-- ==== Sys2Proof/Machine/LinkCore.lean ====
section
/-!
DEFINITION. What other blocks use of the Ndosin link: which ports are up with a feature, and the queueing of packets (R526, R536 to
R541).
-/

namespace Sys2Proof.Machine

/-- The use of quad `q`: OFF until LANE_QUAD_COMMIT has fixed the uses (R505 to R507, R523). -/
def quadUse (s : State) (q : Nat) : Nat :=
  if rdb s F.LANE_QUAD_COMMIT_LOCKED then slice (rdReg s R.LANE_QUAD_USE) (4 * q) 4 else 0

/-- A lane has a test field set (R522). -/
def testSet (s : State) (lane : Nat) : Bool :=
  rdb s F.LANE_TEST_GEN_EN lane || rdb s F.LANE_TEST_CHK_EN lane || rdb s F.LANE_TEST_LOOP lane

/-- The quads with a use, ascending. -/
def quadsOf (s : State) (use : Nat) : List Nat := (upto 16).filter fun q => quadUse s q == use

/-- A lane holds no lock: LOCK_LOST (R518). -/
def lockLost (s : State) (l : Nat) : State :=
  raise (wr (wr (wr s F.LANE_STATUS_CDR_LOCK l 0 0) F.LANE_STATUS_PCS_LOCK l 0 0) F.LANE_STATUS_ADAPTED l 0 0) K.LANE_EVENT_LOCK_LOST l

/-- A receive lane has a lock to lose. -/
def hasLock (s : State) (l : Nat) : Bool := rdb s F.LANE_STATUS_CDR_LOCK l || rdb s F.LANE_STATUS_PCS_LOCK l

/-- The quad of Ndosin port `n` (R526). -/
def portQuad (s : State) (n : Nat) : Option Nat := (quadsOf s 4)[n]?

/-- Port `n`. -/
def portOf (s : State) (n : Nat) : Port := s.lnk.get n {}
/-- Port `n` replaced. -/
def setPort (s : State) (n : Nat) (p : Port) : State := { s with lnk := s.lnk.put n p }
/-- Port `n` changed. -/
def updPort (s : State) (n : Nat) (f : Port → Port) : State := setPort s n (f (portOf s n))

/-- The port is LINKED (R533). -/
def linked (s : State) (n : Nat) : Bool := rd s F.LNK_STATUS_STATE n == 5

/-- A feature of R535 is on at a port (R536, R537). -/
def featureOn (s : State) (n f : Nat) : Bool := linked s n && bitOn (rd s F.LNK_NEG_ON n) f

/-- The ports that carry Tandem traffic: LINKED, with TANDEM, and set in TND_CTRL.PORTS, ascending (R379, R537, R541). -/
def tandemPorts (s : State) : List Nat :=
  (upto 4).filter fun n => featureOn s n 3 && bitOn (rd s F.TND_CTRL_PORTS) n

/-- A packet waits at a port for its turn; a ninth ROW packet discards the oldest (R539). -/
def queuePacket (s : State) (n : Nat) (p : Packet) : State :=
  let q := (portOf s n).queue ++ [p]
  let rows := q.filter fun x => x.cls == 5
  match rows with
  | old :: _ =>
    if p.cls = 5 ∧ rows.length > 8 then addWrap (updPort s n fun x => { x with queue := q.erase old }) F.LNK_THROTTLE_ROW_DISCARD n 1
    else updPort s n fun x => { x with queue := q }
  | [] => updPort s n fun x => { x with queue := q }

/-- HEARTBEAT and BULK packets go on every port that carries Tandem traffic (R541). -/
def sendTandem (s : State) (cls gallery : Nat) (payload : List Byte) : State :=
  each (tandemPorts s) (fun s n => queuePacket s n { cls := cls, tag := leBytes gallery 8, payload := payload }) s

/-- The canvases that R541 ranks: enabled ones of paired galleries, ascending. -/
def pairedCanvases (s : State) : List Nat :=
  (upto 32).filter fun c => rdb s F.CNV_CTRL_EN c && bitOn (rd s F.TND_CTRL_GALLERIES) (rd s F.CNV_CTRL_GALLERY c)

/-- The port that R541 finds for a paired canvas among the present Tandem ports. -/
def rankPort (s : State) (c : Nat) : Option Nat :=
  let ports := tandemPorts s
  let r := ((pairedCanvases s).takeWhile (· < c)).length
  if ports.isEmpty then none else ports[r % ports.length]?

/-- At a latch a canvas of a paired gallery gets its port, where the set of Tandem ports has changed since it got one (R541; log entry
137). -/
def routeCanvas (s : State) (c : Nat) : State :=
  let x := s.tnd.cnvs.get c {}
  if x.ports = tandemPorts s then s
  else { s with tnd := { s.tnd with cnvs := s.tnd.cnvs.put c { x with ports := tandemPorts s, port := rankPort s c } } }

/-- The port that the LINE and ROW packets of a paired canvas go on: the one of its latest latch, while it is a Tandem port (R541). -/
def canvasPort (s : State) (c : Nat) : Option Nat :=
  (s.tnd.cnvs.get c {}).port.bind fun n => if (tandemPorts s).contains n then some n else none

/-- The body of a packet's SOP block (R532, R538). -/
def sopBody (p : Packet) : List Byte :=
  [0x2D, BitVec.ofNat 8 p.cls] ++ leBytes (ceilDiv (p.payload.length + 4) 16) 2 ++ leBytes p.payload.length 4 ++ bytesAt p.tag 0 8

/-- The bytes of a packet's data blocks: the payload, padding, and PKT_SUM in the last four (R538). -/
def packetData (p : Packet) : List Byte :=
  let d := bytesAt p.payload 0 (16 * ceilDiv (p.payload.length + 4) 16 - 4)
  d ++ leBytes (crc32c (sopBody p ++ d)).toNat 4

/-- The quad of an Ethernet port (R505): ports 4q to 4q + 3 are those of quad q. The 16 MACs have no port beyond 15, so an Ethernet quad above 3
takes the lowest four ports that no quad has by its number (log entry 32). -/
def ethQuad (s : State) (port : Nat) : Option Nat :=
  let g := port / 4
  if quadUse s g = 3 then some g
  else ((quadsOf s 3).filter (4 ≤ ·))[((upto g).filter fun k => quadUse s k != 3).length]?

/-- The lane of an Ethernet port, if a quad serves it. -/
def ethLane (s : State) (port : Nat) : Option Nat := (ethQuad s port).map fun q => 4 * q + port % 4

/-- The Ethernet port on a lane. -/
def lanePort (s : State) (lane : Nat) : Option Nat := lowest 16 fun p => ethLane s p == some lane

/-! ### Flow entries (R113) -/

/-- The bytes of entry `i`; zeros where none was ever installed. -/
def flowEntry (s : State) (i : Nat) : List Byte := s.net.entries.get i (List.replicate 64 0)

/-- A flag of an entry: 0 VALID, 1 IPV6, 2 SRC_MATCH, 3 PTP_LOCKED, 4 SSRC_MATCH, 5 VLAN_MATCH, 6 BPM, 7 WIDE. -/
def flowFlag (e : List Byte) (b : Nat) : Bool := bitOn (leAt e 39 1) b
def flowKind (e : List Byte) : Nat := leAt e 38 1
def flowValid (e : List Byte) : Bool := flowFlag e 0
def flowTarget (e : List Byte) : Nat := leAt e 42 2
def flowWidth (e : List Byte) : Nat := leAt e 60 2
def flowHeight (e : List Byte) : Nat := leAt e 62 2

/-- What an entry is doing. -/
def runOf (s : State) (i : Nat) : FlowRun := s.net.runs.get i {}
def updRun (s : State) (i : Nat) (f : FlowRun → FlowRun) : State :=
  { s with net := { s.net with runs := s.net.runs.put i (f (runOf s i)) } }

/-- The valid send entries (R113). -/
def sendEntries (s : State) : List (Nat × List Byte) := s.net.entries.filter fun e => flowFlag e.2 0 && flowKind e.2 == 3

/-- Egress port and canvas of a send entry. -/
def sendPort (e : List Byte) : Nat := leAt e 36 2 % 16
def sendCanvas (e : List Byte) : Nat := leAt e 40 2 % 32

/-- A frame of canvas `c` begins to leave: the send entries whose egress port is down do not send it and count it (R131). -/
def countUnsent (s : State) (c : Nat) : State :=
  each (sendEntries s) (fun s e =>
    if sendCanvas e.2 = c ∧ rdb s F.CNV_STATUS_ACTIVE c ∧ !rdb s F.NET_MAC_STATUS_LINK_UP (sendPort e.2) then
      updRun s e.1 fun r => { r with dropped := r.dropped + 1 }
    else s) s

end Sys2Proof.Machine
end

