-- ==== Sys2Proof/Machine/TandemCore.lean ====
section
/-!
DEFINITION. What other blocks use of the Tandem block: its state, claims, Journal entries, and the mirrors of commits (R379, R382,
R394, R403).
-/

namespace Sys2Proof.Machine

/-- Gallery `g` is paired (R380). -/
def paired (s : State) (g : Nat) : Bool := bitOn (rd s F.TND_CTRL_GALLERIES) g

/-- STATE codes of TND_STATUS. -/
def tndUnpaired : Nat := 0
def tndActive : Nat := 1
def tndStandby : Nat := 2
def tndResync : Nat := 3

/-- The device is the active one (R382). -/
def tndIsActive (s : State) : Bool := rd s F.TND_STATUS_STATE == tndActive

/-- The device's own claim wins over the twin's (R382). -/
def claimWins (s : State) : Bool :=
  let a := rd s F.TND_STATUS_CLAIM
  let b := rd s F.TND_TWIN_CLAIM
  serialLater 16 a b || (!serialLater 16 b a && !s.straps.position)

/-- A TANDEM entry is requested (R403): event, canvas or gallery, tile row, and the gallery whose frame and epoch it carries. -/
def tandemEntry (s : State) (event what row g : Nat) : State :=
  let x := galOf s g
  askJournal s rankTandem 0x0030 ([BitVec.ofNat 8 event,
    BitVec.ofNat 8 (rd s F.TND_STATUS_STATE + 4 * rd s F.TND_STATUS_SELF_SUSPECT + 8 * rd s F.TND_STATUS_TWIN_SUSPECT)] ++
    leBytes (rd s F.TND_STATUS_CLAIM) 2 ++ leBytes (rd s F.TND_TWIN_CLAIM) 2 ++ [BitVec.ofNat 8 what, 0] ++ leBytes row 2 ++
    leBytes x.frame 4 ++ leBytes x.epoch 4)

/-- The address of slot `k` of the layer table (R245). -/
def slotAddr (s : State) (layer b : Nat) : Nat := rdReg s R.EAS_LT_BASE + (2 * layer + b) * 128
/-- The active slot of a layer. -/
def activeSlot (s : State) (l : Nat) : Nat := slotAddr s l (bit (layOf s l).b)
/-- The staging slot of a layer. -/
def stagingSlot (s : State) (l : Nat) : Nat := slotAddr s l (bit (!(layOf s l).b))

/-- The layers staged in a gallery, ascending. -/
def stagedIn (s : State) (g : Nat) : List Nat := (s.eas.layers.filter fun e => e.2.staged == some g).map (·.1)

/-- A commit or a cancel of a paired gallery is mirrored to the twin: the contents of the slots (layer, address), the new epoch and the
target (R394). -/
def sendMirror (s : State) (g : Nat) (cancel : Bool) (slots : List (Nat × Nat)) (target epoch : Nat) : State :=
  let r := slots.foldl (fun (acc : State × List (Nat × List Byte)) l =>
    let x := busRead acc.1 52 l.2 128
    (x.1, acc.2 ++ [(l.1, x.2.2)])) (s, [])
  sendTandem r.1 4 g (Config.mirrorBytes g cancel r.2 epoch target)

/-- A command accepted on the active device of a paired gallery is mirrored. -/
def mirrored (s : State) (g : Nat) : Bool := paired s g && tndIsActive s

end Sys2Proof.Machine
end

