-- ==== Sys2Proof/Machine/Easel.lean ====
section
/-!
DEFINITION. The Easel: pools, descriptors, buffer states, leases, sources, publication, and the commands of EAS_CMD
(R223 to R262, R684).
-/

namespace Sys2Proof.Machine

/-! ### Buffers and sources -/

/-- The pool a hardware producer takes from: of its format, at least its size, smallest area, lowest number (R227). -/
def matchPool (s : State) (fmt w h : Nat) : Option Nat :=
  (s.eas.pools.filter fun e => e.2.format == fmt && decide (w ≤ e.2.width) && decide (h ≤ e.2.height)).foldl
    (fun (a : Option Nat) e =>
      match a with
      | none => some e.1
      | some k =>
        let p := s.eas.pools.get k {}
        if e.2.width * e.2.height < p.width * p.height then some e.1 else a) none

/-- The FREE buffer of lowest index in a pool. -/
def freeIn (s : State) (p : Nat) : Option Nat :=
  (s.eas.descs.find? fun e => e.2.bound && e.2.pool == p && e.2.st == .free).map (·.1)

/-- A hardware producer takes a buffer, or POOL_EMPTY is raised (R227, R230). -/
def takeBuffer (s : State) (fmt w h : Nat) : State × Option Nat :=
  match (matchPool s fmt w h).bind (freeIn s) with
  | none => (raise s K.EAS_EVENT_POOL_EMPTY, none)
  | some d => (updDesc s d fun x => { x with st := .filling, ownerHost := false }, some d)

/-- A producer abandons a FILLING buffer (R230). -/
def abandonBuffer (s : State) (d : Nat) : State := updDesc s d fun x => if x.st = .filling then toFree x else x

/-- An ID lies in EAS_SRC_WINDOW (R240). -/
def inWindow (s : State) (id : Nat) : Bool :=
  let b := rd s F.EAS_SRC_WINDOW_BASE
  decide (b ≤ id) && decide (id < b + rd s F.EAS_SRC_WINDOW_COUNT)

/-- Active sources: BOUND or ORPHAN (R239). -/
def activeSources (s : State) : Nat := (s.eas.sources.filter fun e => e.2.st == .bound || e.2.st == .orphan).length

/-- The DUP_SOURCE test of every admission (R240). -/
def dupSource (s : State) (id : Nat) : Bool :=
  !inWindow s id || (srcOf s id).st == .bound || (srcOf s id).st == .quarantine

/-- An admission of `n` new IDs would pass 512 active sources (R239). -/
def overLimit (s : State) (ids : List Nat) : Bool :=
  decide (activeSources s + (ids.filter fun i => (srcOf s i).st == .free).length > 512)

/-- A source is bound to an owner; an ORPHAN keeps its frame and sequence (R240). -/
def bindSource (s : State) (id : Nat) (o : Owner) : State := updSrc s id fun x => { x with st := .bound, owner := o }

/-- The source of a removed producer becomes ORPHAN (R242). -/
def orphanSource (s : State) (id : Nat) : State :=
  updSrc s id fun x => if x.st = .bound then { x with st := .orphan, owner := .none } else x

/-- A source's CURRENT buffer is superseded (R230). -/
def supersede (s : State) (d : Nat) : State :=
  updDesc s d fun x => if heldBuf x || x.ownerHost then { x with st := .superseded } else toFree x

/-- The next sequence of a source is reserved (R243). -/
def reserveSeq (s : State) (id : Nat) : State × Nat :=
  let q := (s.eas.lastSeq.get id 0 + 1) % 2 ^ 32
  ({ s with eas := { s.eas with lastSeq := s.eas.lastSeq.put id q } }, q)

/-- A frame becomes its source's CURRENT frame (R230, R332, R343, R285). -/
def makeCurrent (s : State) (d : Nat) (f : Frame) : State :=
  let r := ledgerPublish s { f with pubCyc := s.time.cyc } (cmpNs s)
  let s := draw r.1
  let old := (srcOf s f.source).cur.map fun o => (o, (descOf s o).seq, (descOf s o).frame.pubCyc)
  let s := match (srcOf s f.source).cur with
    | some old => if old = d then s else supersede s old
    | none => s
  let s := updDesc s d fun x => { x with st := .current, source := f.source, seq := f.seq, frame := r.2 }
  publishTriggers (updSrc s f.source fun x => { x with cur := some d, prev := old }) f.source

/-- A hardware producer asks for publication of the provisionally sealed frame in `d` (R51, R53). -/
def requestPublish (s : State) (d : Nat) : State := { s with eas := { s.eas with requests := s.eas.requests ++ [d] } }

/-- The context whose output a frame is, where its publication has been requested by a context. -/
def outputContext (s : State) (d : Nat) : Option Nat := (s.slu.asked.find d).bind fun v => if v % 8 < 4 then some (v / 8) else none

/-- The frame in `d` may go on before the others of a list of descriptors: none of its source stands before it, nor an output of its own
context, whose outputs are published in their order (R167, R243). -/
def firstOfSource (s : State) (l : List Nat) (d : Nat) : Bool :=
  (l.takeWhile (· != d)).all fun e => (descOf s e).frame.source != (descOf s d).frame.source &&
    ((outputContext s e).isNone || outputContext s e != outputContext s d)

/-- PUBLISH_REQUEST: the Easel accepts a request and reserves its sequence (R243). -/
def execPublishRequest (d : Fin 8192) (s : State) : Host.Outcome State Fault Refusal :=
  if !(s.eas.requests.contains d.val && firstOfSource s s.eas.requests d.val) then .next s
  else
    let r := reserveSeq s (descOf s d.val).frame.source
    let s := updDesc r.1 d.val fun x => { x with frame := { x.frame with seq := r.2 } }
    .next { s with eas := { s.eas with requests := s.eas.requests.erase d.val, sealing := s.eas.sealing ++ [d.val] } }

/-- The seal engine completes the record of the requested frame in `d`, and the frame becomes CURRENT (R53). -/
def framePublish (s : State) (d : Nat) : State :=
  let f := (descOf s d).frame
  let s1 := draw (completeRecord s (placeIn s d f) f.seq (shortStamp (fabNs s)))
  let s2 := makeCurrent s1 d f
  { s2 with eas := { s2.eas with sealing := s2.eas.sealing.erase d } }

/-! ### Commands: what each does at the end of its BUSY (R257, R258) -/

/-- The outcome of a command: accepted with a result, or refused with a code and a field. -/
inductive EasResult where
  | ok (s : State) (result : Nat)
  | no (s : State) (code field : Nat)

/-- The first cause that applies, of causes given in ascending order of code (R258). -/
def firstCause (l : List (Bool × Nat × Nat)) : Option (Nat × Nat) := (l.find? fun x => x.1).map (·.2)

/-- A command whose causes are known before it acts. -/
def easJudge (s : State) (causes : List (Bool × Nat × Nat)) (act : State → State × Nat) : EasResult :=
  match firstCause causes with
  | some c => .no s c.1 c.2
  | none => let r := act s; .ok r.1 r.2

/-- Bits of an argument outside its named fields. -/
def unnamed (a mask : Nat) : Bool := (a &&& (2 ^ 64 - 1 - mask)) != 0

/-- The class formats of R226. -/
def poolFormat (f : Nat) : Bool := (decide (1 ≤ f) && decide (f ≤ 6)) || f == 9 || f == 10

/-- POOL_CFG (R226). -/
def easPoolCfg (s : State) (a0 a1 : Nat) : EasResult :=
  let p := slice a0 0 6
  let f := slice a0 8 4
  let w := slice a0 12 14
  let h := slice a0 26 14
  let rule := if poolFormat f then sizeRule f w h else 0
  easJudge s [(decide (w < 16) || decide (8192 < w), 1, 12), (decide (h < 16) || decide (4352 < h), 1, 26), (rule == 1, 1, 12),
      (rule == 2, 1, 26), (unnamed a0 0xFFFFFFFF3F || unnamed a1 0, 2, 0), (!poolFormat f, 2, 0),
      (s.eas.descs.any fun e => e.2.bound && e.2.pool == p, 4, 0)]
    fun s => ({ s with eas := { s.eas with pools := s.eas.pools.put p { format := f, width := w, height := h } } }, 0)

/-- The lowest unbound descriptor. -/
def freeDesc (s : State) : Option Nat := lowest 8192 fun n => !(descOf s n).bound

/-- BUF_ADD (R226). -/
def easBufAdd (s : State) (a0 a1 : Nat) : EasResult :=
  let p := slice a0 0 6
  let base := slice a1 0 40
  let c := s.eas.pools.get p {}
  let size := if c.format = 0 then 0 else bufBytes c.format c.width c.height
  easJudge s [(base % 4096 != 0 || !inDram s base size, 1, 64), (unnamed a0 0x3F || unnamed a1 (2 ^ 40 - 1), 2, 0),
      ((freeDesc s).isNone, 3, 0), (c.format == 0, 5, 0)]
    fun s => let d := (freeDesc s).getD 0
      (setDesc s d { bound := true, pool := p, base := base }, d)

/-- BUF_REMOVE (R230, R232). -/
def easBufRemove (s : State) (a0 a1 : Nat) : EasResult :=
  let d := slice a0 0 13
  easJudge s [(unnamed a0 0x1FFF || unnamed a1 0, 2, 0), (!(descOf s d).bound || (descOf s d).st != .free, 5, 0)]
    fun s => ({ s with eas := { s.eas with descs := s.eas.descs.del d } }, 0)

/-- TAKE (R227, R231). -/
def easTake (s : State) (a0 a1 : Nat) : EasResult :=
  let p := slice a0 0 6
  easJudge s [(unnamed a0 0x3F || unnamed a1 0, 2, 0), ((freeIn s p).isNone, 4, 0)]
    fun s => let d := (freeIn s p).getD 0
      (updDesc s d fun x => { x with st := .filling, ownerHost := true }, d)

/-- PUBLISH by host software: the seal engine reads the buffer once and writes the record with the sequence reserved at this edge
(R52, R54, R243, R244). -/
def easPublish (s : State) (a0 a1 : Nat) : EasResult :=
  let d := slice a0 0 13
  let id := slice a0 16 12
  let x := descOf s d
  let c := s.eas.pools.get x.pool {}
  let w := slice a1 32 14
  let h := slice a1 46 14
  let allow := slice a0 32 11
  let pw := if x.bound then c.width else 8192
  let ph := if x.bound then c.height else 4352
  match firstCause [(decide (2000 < allow), 1, 32), (w == 0 || decide (pw < w), 1, 96), (h == 0 || decide (ph < h), 1, 110),
      (unnamed a0 0x7FF1FFF1FFF || unnamed a1 (2 ^ 60 - 1), 2, 0),
      (x.bound && decide (8 ≤ c.format), 2, 0),
      (!x.bound || x.st != .filling || !x.ownerHost || (srcOf s id).st != .bound || (srcOf s id).owner != .host, 5, 0)] with
  | some k => .no s k.1 k.2
  | none =>
    let q := (s.eas.lastSeq.get id 0 + 1) % 2 ^ 32
    let f : Frame := { format := c.format, width := w, height := h, origin := 4, static := bitOn a0 28, source := id, seq := q,
                       capture := slice a1 0 32, allow := allow }
    let pl := placeIn s d f
    let r := sealBuffer s pl id q
    if r.2.1 then .no r.1 16 0
    else
      let f := { f with content := r.2.2.1 }
      let s := (reserveSeq r.1 id).1
      let s := (busWrite s 51 (recordAddr pl + 64) r.2.2.2).1
      let s := draw (writeHeader s 51 pl domSource id q (shortStamp (fabNs s)) f)
      .ok (makeCurrent s d f) q

/-- FREE by software (R230 to R233). -/
def easFree (s : State) (a0 a1 : Nat) : EasResult :=
  let d := slice a0 0 13
  let x := descOf s d
  easJudge s [(unnamed a0 0x1FFF || unnamed a1 0, 2, 0),
      (!x.bound || x.st == .free || x.st == .current || x.st == .retiring || (x.st == .filling && !x.ownerHost), 5, 0)]
    fun s =>
      if x.st = .superseded ∧ heldBuf x then
        (raise (setDesc s d { x with st := .retiring }) K.EAS_EVENT_FREE_DEFERRED, 0)
      else (setDesc s d (toFree x), 0)

/-- LEASE (R237). -/
def easLease (s : State) (a0 a1 : Nat) : EasResult :=
  let d := slice a0 0 13
  let x := descOf s d
  easJudge s [(unnamed a0 0x1FFF || unnamed a1 0, 2, 0), (!x.bound || !(x.st == .current || x.st == .superseded), 5, 0),
      (decide (x.leases ≥ 4095), 12, 0)]
    fun s => (setDesc s d { x with leases := x.leases + 1, soft := x.soft + 1 }, x.leases + 1)

/-- RELEASE (R237). -/
def easRelease (s : State) (a0 a1 : Nat) : EasResult :=
  let d := slice a0 0 13
  let x := descOf s d
  easJudge s [(unnamed a0 0x1FFF || unnamed a1 0, 2, 0), (!x.bound || x.soft == 0, 5, 0)]
    fun s => (setDesc s d (settle { x with leases := x.leases - 1, soft := x.soft - 1 }), x.leases - 1)

/-- The lowest FREE ID of the window (R241). -/
def freeSource (s : State) : Option Nat := lowest 4096 fun i => inWindow s i && (srcOf s i).st == .free

/-- SRC_ALLOC (R239, R241). -/
def easSrcAlloc (s : State) (a0 a1 : Nat) : EasResult :=
  easJudge s [(unnamed a0 0 || unnamed a1 0, 2, 0), ((freeSource s).isNone, 6, 0), (decide (activeSources s ≥ 512), 8, 0)]
    fun s => let i := (freeSource s).getD 0
      (bindSource s i .host, i)

/-- SRC_CLAIM (R239 to R241). -/
def easSrcClaim (s : State) (a0 a1 : Nat) : EasResult :=
  let i := slice a0 0 12
  easJudge s [(unnamed a0 0xFFF || unnamed a1 0, 2, 0), (dupSource s i, 7, 0), (overLimit s [i], 8, 0)]
    fun s => (bindSource s i .host, 0)

/-- SRC_RETIRE (R242). -/
def easSrcRetire (s : State) (a0 a1 : Nat) : EasResult :=
  let i := slice a0 0 12
  let x := srcOf s i
  easJudge s [(unnamed a0 0xFFF || unnamed a1 0, 2, 0), (!(x.st == .orphan || (x.st == .bound && x.owner == .host)), 5, 0)]
    fun s =>
      let s := match x.cur with | some d => supersede s d | none => s
      if namesSource s i then
        (raise (updSrc s i fun y => { y with st := .quarantine, owner := .none, cur := none, prev := none }) K.EAS_EVENT_QUARANTINE, 0)
      else (updSrc s i fun y => { y with st := .free, owner := .none, cur := none, prev := none }, 0)

/-- After a commit, a quarantined ID that no committed layer names becomes FREE (R242). -/
def endQuarantine (s : State) : State :=
  { s with eas := { s.eas with sources := s.eas.sources.map fun e =>
      if e.2.st == .quarantine && !namesSource s e.1 then (e.1, { e.2 with st := .free }) else e } }

/-! ### The layer table and commits -/

/-- A gallery has a commit pending. -/
def pendingIn (s : State) (g : Nat) : Bool := (galOf s g).pend.isSome

/-- STAGE (R246, R267). -/
def easStage (s : State) (a0 a1 : Nat) : EasResult :=
  let l := slice a0 0 10
  let x := layOf s l
  let oldPend := match x.staged with | some g => pendingIn s g | none => false
  let r := busRead s 51 (stagingSlot s l) 128
  let s := r.1
  let extra := unnamed a0 0x3FF || unnamed a1 0
  if r.2.1 ≠ 0 then
    match firstCause [(extra, 2, 0), (oldPend, 9, 0)] with
    | some k => .no s k.1 k.2
    | none => .no s 16 0
  else
    let d := parseSlot r.2.2
    let g := rd s F.CNV_CTRL_GALLERY d.canvas
    let bad := slotBad r.2.2 (rd s F.CMP_CNV_CFG_TRANSFER d.canvas) (othersShown s g d.canvas l)
    easJudge s [(bad.isSome, 1, bad.getD 0), (extra, 2, 0), (oldPend || pendingIn s g, 9, 0),
        (x.committed && x.gallery != g && x.desc.shown, 14, 0)]
      fun s => (setLay s l { x with staged := some g, stagedDesc := d }, 0)

/-- A commit becomes pending. -/
def putPending (s : State) (g : Nat) (at? : Option Nat) (late : Bool := false) : State :=
  updGal s g fun x => { x with pend := some { at? := at?, late := late, since := s.time.cyc } }

/-- COMMIT (R249, R250). -/
def easCommit (s : State) (a0 a1 : Nat) : EasResult :=
  let g := slice a0 0 3
  easJudge s [(unnamed a0 7 || unnamed a1 0, 2, 0), (pendingIn s g, 9, 0)] fun s => (putPending s g none, 0)

/-- Twice R249's window, 1 FAB + 3 SCN cycles, against a time in ps: the time is at least the window. The SCN period is
10,000 × M ÷ N ps under R25. -/
def pastWindow (s : State) (g : Nat) (ps : Int) : Bool :=
  let n := max 1 (rd s F.CNV_GAL_PLL_N g)
  let m := rd s F.CNV_GAL_PLL_M g
  decide (ps * (11 * n : Nat) ≥ ((10000 * n + 330000 * m : Nat) : Int))

/-- The frame of a source published in NET cycle `pub` counts at a line boundary of a gallery now: its publish came at least 1 FAB + 3 SCN cycles
before it (R309). -/
def publishCounts (s : State) (g pub : Nat) : Bool := pastWindow s g ((s.time.cyc - pub : Nat) * 1600)

/-- The sequence of a source that counts at a line boundary of gallery `g`: that of its CURRENT frame, or of the frame before it where the publish of
the former is too near to count (R309; log entry 133). -/
def countedSeq (s : State) (g src : Nat) : Option Nat :=
  let x := srcOf s src
  x.cur.bind fun d =>
    if publishCounts s g (descOf s d).frame.pubCyc then some (descOf s d).seq
    else x.prev.bind fun p => if publishCounts s g p.2.2 then some p.2.1 else none

/-- COMMIT_AT with T in ns (R250, R251, R394). -/
def easCommitAt (s : State) (a0 a1 : Nat) : EasResult :=
  let g := slice a0 0 3
  let t := a1
  let now := fabNs s
  let late := !pastWindow s g (((t : Int) - now) * 1000)
  let s := draw s
  easJudge s [(decide (t > now + 60000000000), 1, 64), (unnamed a0 0xF, 2, 0), (pendingIn s g, 9, 0),
      (!rdb s F.PTP_STATE_LOCKED, 10, 0), (late && bitOn a0 3, 11, 0)]
    fun s =>
      let s := also late (fun s => raise s K.EAS_GAL_EVENT_LATE g) (putPending s g (some t) late)
      (if mirrored s g then sendMirror s g false ((stagedIn s g).map fun l => (l, stagingSlot s l)) t ((galOf s g).epoch + 1) else s, 0)

/-- CANCEL (R252, R394). -/
def easCancel (s : State) (a0 a1 : Nat) : EasResult :=
  let g := slice a0 0 3
  easJudge s [(unnamed a0 7 || unnamed a1 0, 2, 0), (!pendingIn s g, 13, 0)]
    fun s =>
      let s := raise (updGal s g fun x => { x with pend := none }) K.EAS_GAL_EVENT_CANCELLED g
      (if mirrored s g then sendMirror s g true [] 0 (galOf s g).epoch else s, 0)

/-- SNAPSHOT (R255). -/
def easSnapshot (s : State) (a0 a1 : Nat) : EasResult :=
  let g := slice a0 0 3
  easJudge s [(a1 % 64 != 0, 1, 64), (unnamed a0 7 || unnamed a1 (2 ^ 40 - 1), 2, 0), ((galOf s g).snap.isSome, 9, 0)]
    fun s => (updGal s g fun x => { x with snap := some (slice a1 0 40) }, 0)

/-- An Easel operation by its OP (R257). -/
def easRun (s : State) (op a0 a1 : Nat) : EasResult :=
  match op with
  | 1 => easPoolCfg s a0 a1
  | 2 => easBufAdd s a0 a1
  | 3 => easBufRemove s a0 a1
  | 4 => easTake s a0 a1
  | 5 => easPublish s a0 a1
  | 6 => easFree s a0 a1
  | 7 => easLease s a0 a1
  | 8 => easRelease s a0 a1
  | 9 => easSrcAlloc s a0 a1
  | 10 => easSrcClaim s a0 a1
  | 11 => easSrcRetire s a0 a1
  | 12 => easStage s a0 a1
  | 13 => easCommit s a0 a1
  | 14 => easCommitAt s a0 a1
  | 15 => easCancel s a0 a1
  | 16 => easSnapshot s a0 a1
  | _ => .no s 2 0

/-! ### The command registers -/

/-- A refusal (R258). -/
def easRefuse (s : State) (code field : Nat) : State :=
  raise (wr0 (wr0 s F.EAS_STATUS_CODE code) F.EAS_STATUS_FIELD field) K.EAS_STATUS_REFUSED

/-- A write of EAS_CMD with the arguments in EAS_ARG0 and EAS_ARG1: nothing for OP 0; refused with BUSY while a command runs;
otherwise the command holds BUSY (R257, R258). -/
def easCmdWrite (s : State) (op : Nat) : State :=
  if op = 0 then s
  else if rdb s F.EAS_STATUS_BUSY then easRefuse s 15 0
  else
    let s := wr0 (wr0 s F.EAS_STATUS_BUSY 1) F.EAS_STATUS_OP op
    { s with eas := { s.eas with op := some { op := op, arg0 := rdReg s R.EAS_ARG0, arg1 := rdReg s R.EAS_ARG1 } } }

/-- A command is written: its arguments, then its operation. -/
def easIssue (s : State) (op a0 a1 : Nat) : State := easCmdWrite (wrReg (wrReg s R.EAS_ARG0 0 0 a0) R.EAS_ARG1 0 0 a1) op

def execPoolCfg (arg0 arg1 : BitVec 64) (s : State) : Host.Outcome State Fault Refusal := .next (easIssue s 1 arg0.toNat arg1.toNat)
def execBufAdd (arg0 arg1 : BitVec 64) (s : State) : Host.Outcome State Fault Refusal := .next (easIssue s 2 arg0.toNat arg1.toNat)
def execBufRemove (arg0 arg1 : BitVec 64) (s : State) : Host.Outcome State Fault Refusal := .next (easIssue s 3 arg0.toNat arg1.toNat)
def execTake (arg0 arg1 : BitVec 64) (s : State) : Host.Outcome State Fault Refusal := .next (easIssue s 4 arg0.toNat arg1.toNat)
def execPublish (arg0 arg1 : BitVec 64) (s : State) : Host.Outcome State Fault Refusal := .next (easIssue s 5 arg0.toNat arg1.toNat)
def execFree (arg0 arg1 : BitVec 64) (s : State) : Host.Outcome State Fault Refusal := .next (easIssue s 6 arg0.toNat arg1.toNat)
def execLease (arg0 arg1 : BitVec 64) (s : State) : Host.Outcome State Fault Refusal := .next (easIssue s 7 arg0.toNat arg1.toNat)
def execRelease (arg0 arg1 : BitVec 64) (s : State) : Host.Outcome State Fault Refusal := .next (easIssue s 8 arg0.toNat arg1.toNat)
def execSrcAlloc (arg0 arg1 : BitVec 64) (s : State) : Host.Outcome State Fault Refusal := .next (easIssue s 9 arg0.toNat arg1.toNat)
def execSrcClaim (arg0 arg1 : BitVec 64) (s : State) : Host.Outcome State Fault Refusal := .next (easIssue s 10 arg0.toNat arg1.toNat)
def execSrcRetire (arg0 arg1 : BitVec 64) (s : State) : Host.Outcome State Fault Refusal := .next (easIssue s 11 arg0.toNat arg1.toNat)
def execStage (arg0 arg1 : BitVec 64) (s : State) : Host.Outcome State Fault Refusal := .next (easIssue s 12 arg0.toNat arg1.toNat)
def execCommit (arg0 arg1 : BitVec 64) (s : State) : Host.Outcome State Fault Refusal := .next (easIssue s 13 arg0.toNat arg1.toNat)
def execCommitAt (arg0 arg1 : BitVec 64) (s : State) : Host.Outcome State Fault Refusal := .next (easIssue s 14 arg0.toNat arg1.toNat)
def execCancel (arg0 arg1 : BitVec 64) (s : State) : Host.Outcome State Fault Refusal := .next (easIssue s 15 arg0.toNat arg1.toNat)
def execSnapshot (arg0 arg1 : BitVec 64) (s : State) : Host.Outcome State Fault Refusal := .next (easIssue s 16 arg0.toNat arg1.toNat)

/-- EAS_RESERVED_OP: a write of EAS_CMD with an OP and the arguments as they stand; OP 17 to 31 end refused with RESERVED (R257). -/
def execEasReservedOp (op : BitVec 5) (s : State) : Host.Outcome State Fault Refusal := .next (easCmdWrite s op.toNat)

/-- The end of a command: DONE with its result, or REFUSED with its code (R257, R258). -/
def easEnd : EasResult → State
  | .ok s r => raise (wrReg s R.EAS_RESULT 0 0 r) K.EAS_STATUS_DONE
  | .no s code field => easRefuse s code field

/-- A command's accesses to DRAM, or those of the mirror it sends, cannot be made now (log entry 141). -/
def easWaits (s : State) (op : Nat) : Bool :=
  ((op == 5 || op == 12) && accessWaits s 51) || ((op == 14 || op == 15) && accessWaits s 52)

/-- EAS_COMMAND_COMPLETE: BUSY ends, the command takes effect, and DONE or REFUSED is raised (R257, R258). -/
def execEasCommandComplete (s : State) : Host.Outcome State Fault Refusal :=
  match s.eas.op with
  | none => .next s
  | some c =>
    if easWaits s c.op then .next s
    else
    let s := wr0 { s with eas := { s.eas with op := none } } F.EAS_STATUS_BUSY 0
    .next (easEnd (easRun s c.op c.arg0 c.arg1))

end Sys2Proof.Machine
end

