-- ==== Sys2Proof/Machine/Deflate.lean ====
section
/-!
DEFINITION. DEFLATE streams and their containers: decoding as R485 asks (RFC 1951), and the coding of R483, in which only the codes of a
dynamic block are left open (log entry 12).
-/

namespace Sys2Proof.Machine

/-- What reading a piece of a stream gives: a value and the bit position after it, too little input, or an invalid stream. -/
inductive Rd (α : Type) where
  | ok (v : α) (pos : Nat)
  | need
  | bad

/-- A piece read, then the rest. -/
def Rd.bind {α β : Type} (r : Rd α) (f : α → Nat → Rd β) : Rd β :=
  match r with
  | .ok v p => f v p
  | .need => .need
  | .bad => .bad

/-- `n` bits from bit position `p`, least significant first. -/
def readBits (l : List Byte) (p n : Nat) : Rd Nat :=
  if p + n ≤ 8 * l.length then .ok (slice (leNat (bytesAt l (p / 8) 9)) (p % 8) n) (p + n) else .need

/-- A Huffman code: symbols in order of code, and the count of codes of each length 0 to 15. -/
structure Huff where
  syms : List Nat
  counts : List Nat

/-- The canonical code of a list of lengths. -/
def huffOf (lens : List Nat) : Huff :=
  { syms := ((upto 15).map fun k => (upto lens.length).filter fun i => lens.getD i 0 == k + 1).flatten
    counts := (upto 16).map fun k => if k = 0 then 0 else (lens.filter (· == k)).length }

/-- More codes of some length than fit. -/
def overSubscribed (h : Huff) : Bool :=
  ((upto 15).foldl (fun (a : Int × Bool) k =>
    let left := a.1 * 2 - (h.counts.getD (k + 1) 0 : Nat)
    (left, a.2 || decide (left < 0))) (1, false)).2

/-- One symbol: the code so far, the first code and the index of this length; `n` lengths left. -/
def readSym (l : List Byte) (h : Huff) (p code first index : Nat) : Nat → Rd Nat
  | 0 => .bad
  | n + 1 =>
    (readBits l p 1).bind fun b p =>
      let code := code * 2 + b
      let first := first * 2
      let count := h.counts.getD (15 - n) 0
      if code < first + count then .ok (h.syms.getD (index + code - first) 0) p
      else readSym l h p code (first + count) (index + count) n

/-- Base and extra bits of length codes 257 to 285. -/
def lengthBase : List (Nat × Nat) := [(3, 0), (4, 0), (5, 0), (6, 0), (7, 0), (8, 0), (9, 0), (10, 0), (11, 1), (13, 1), (15, 1), (17, 1),
  (19, 2), (23, 2), (27, 2), (31, 2), (35, 3), (43, 3), (51, 3), (59, 3), (67, 4), (83, 4), (99, 4), (115, 4), (131, 5), (163, 5),
  (195, 5), (227, 5), (258, 0)]

/-- Base and extra bits of distance codes 0 to 29. -/
def distBase (k : Nat) : Nat × Nat := if k < 4 then (k + 1, 0) else (2 ^ (k / 2 - 1) * (2 + k % 2) + 1, k / 2 - 1)

/-- `n` bytes copied from distance `d` back; the output is held newest byte first. -/
def copyBack (out : List Byte) (d : Nat) : Nat → List Byte
  | 0 => out
  | n + 1 => copyBack (out.getD (d - 1) 0 :: out) d n

/-- The symbols of a compressed block, to its end-of-block symbol. The output is newest first; a stop gives what was produced. -/
def readCodes (l : List Byte) (lit dist : Huff) (p : Nat) (out : List Byte) : Nat → Rd Unit × List Byte
  | 0 => (.need, out)
  | n + 1 =>
    match readSym l lit p 0 0 0 15 with
    | .need => (.need, out)
    | .bad => (.bad, out)
    | .ok v p =>
      if v < 256 then readCodes l lit dist p (BitVec.ofNat 8 v :: out) n
      else if v = 256 then (.ok () p, out)
      else if v > 285 then (.bad, out)
      else
        let lb := lengthBase.getD (v - 257) (0, 0)
        match (readBits l p lb.2).bind fun e p => (readSym l dist p 0 0 0 15).bind fun k p =>
            if k > 29 then .bad else (readBits l p (distBase k).2).bind fun x p => .ok (lb.1 + e, (distBase k).1 + x) p with
        | .need => (.need, out)
        | .bad => (.bad, out)
        | .ok c p => if c.2 > out.length then (.bad, out) else readCodes l lit dist p (copyBack out c.2 c.1) n

/-- The code lengths of a dynamic block: `want` of them. -/
def readLens (l : List Byte) (h : Huff) (want p : Nat) (acc : List Nat) : Nat → Rd (List Nat)
  | 0 => .need
  | n + 1 =>
    if acc.length = want then .ok acc p
    else if acc.length > want then .bad
    else
      (readSym l h p 0 0 0 15).bind fun v p =>
        if v < 16 then readLens l h want p (acc ++ [v]) n
        else if v = 16 then
          (readBits l p 2).bind fun e p => if acc = [] then .bad else readLens l h want p (acc ++ List.replicate (3 + e) (acc.getLast?.getD 0)) n
        else (readBits l p (if v = 17 then 3 else 7)).bind fun e p =>
          readLens l h want p (acc ++ List.replicate ((if v = 17 then 3 else 11) + e) 0) n

/-- The order of the code length code lengths. -/
def clOrder : List Nat := [16, 17, 18, 0, 8, 7, 9, 6, 10, 5, 11, 4, 12, 3, 13, 2, 14, 1, 15]

/-- The two codes of a dynamic block. -/
def readDynamic (l : List Byte) (p : Nat) : Rd (Huff × Huff) :=
  (readBits l p 5).bind fun hlit p => (readBits l p 5).bind fun hdist p => (readBits l p 4).bind fun hclen p =>
    if hlit > 29 ∨ hdist > 29 then .bad
    else
      let n := hclen + 4
      (readBits l p (3 * n)).bind fun v p =>
        let cl := (upto 19).map fun i => let k := clOrder.idxOf i; if k < n then slice v (3 * k) 3 else 0
        let h := huffOf cl
        if overSubscribed h then .bad
        else (readLens l h (hlit + 257 + hdist + 1) p [] 400).bind fun a p =>
          let lit := huffOf (a.take (hlit + 257))
          let dist := huffOf (a.drop (hlit + 257))
          if overSubscribed lit || overSubscribed dist then .bad else .ok (lit, dist) p

/-- The codes of a fixed block. -/
def fixedLit : Huff := huffOf ((upto 288).map fun i => if i < 144 then 8 else if i < 256 then 9 else if i < 280 then 7 else 8)
def fixedDist : Huff := huffOf (List.replicate 30 5)

/-- The blocks of a raw stream from bit `p`, to the end of the final block; the output is newest first. -/
def readBlocks (l : List Byte) (p : Nat) (out : List Byte) : Nat → Rd Unit × List Byte
  | 0 => (.need, out)
  | n + 1 =>
    match readBits l p 3 with
    | .need => (.need, out)
    | .bad => (.bad, out)
    | .ok hd p =>
      let r : Rd Unit × List Byte :=
        match hd / 2 with
        | 0 =>
          let q := roundUp p 8
          match (readBits l q 16).bind fun a q => (readBits l q 16).bind fun b q => .ok (a, b) q with
          | .need => (.need, out)
          | .bad => (.bad, out)
          | .ok c q =>
            if c.1 + c.2 ≠ 65535 then (.bad, out)
            else if q / 8 + c.1 ≤ l.length then (.ok () (q + 8 * c.1), (bytesAt l (q / 8) c.1).reverse ++ out)
            else (.need, (l.drop (q / 8)).reverse ++ out)
        | 1 => readCodes l fixedLit fixedDist p out (8 * l.length + 1)
        | 2 =>
          match readDynamic l p with
          | .need => (.need, out)
          | .bad => (.bad, out)
          | .ok c p => readCodes l c.1 c.2 p out (8 * l.length + 1)
        | _ => (.bad, out)
      match r.1 with
      | .ok _ p => if hd % 2 = 1 then (.ok () p, r.2) else readBlocks l p r.2 n
      | e => (e, r.2)

/-- The end of a header field that runs to a zero byte. -/
def skipZero (l : List Byte) (p : Nat) : Nat → Rd Unit
  | 0 => .need
  | n + 1 => if p < l.length then (if l.getD p 0 = 0 then .ok () (p + 1) else skipZero l (p + 1) n) else .need

/-- What decoding a whole stream gives: END code (0, 4, 5, 6, 7 or 9), input bytes to its end, and the output (R482, R485). -/
structure Inflated where
  code : Nat
  used : Nat
  out : List Byte
  deriving DecidableEq, Repr

/-- The header of a gzip member: END code 0 and the offset of the data, or the code it ends with (R485). -/
def gzipHeader (l : List Byte) : Nat × Nat :=
  if l.length < 10 then (4, 0)
  else if leAt l 0 3 ≠ 0x088B1F then (6, 0)
  else
    let flg := leAt l 3 1
    if flg ≥ 32 then (6, 0)
    else
      let a : Rd Unit := if bitOn flg 2 then (if l.length < 12 then .need else
        if l.length < 12 + leAt l 10 2 then .need else .ok () (12 + leAt l 10 2)) else .ok () 10
      let b := a.bind fun _ p => if bitOn flg 3 then skipZero l p l.length else .ok () p
      let c := b.bind fun _ p => if bitOn flg 4 then skipZero l p l.length else .ok () p
      match c with
      | .ok _ p =>
        if bitOn flg 1 then
          if l.length < p + 2 then (4, 0)
          else if leAt l p 2 = (crc32 (l.take p)).toNat % 65536 then (0, p + 2) else (7, 0)
        else (0, p)
      | _ => (4, 0)

/-- The header of a zlib stream (R485). -/
def zlibHeader (l : List Byte) : Nat × Nat :=
  if l.length < 2 then (4, 0)
  else
    let cmf := leAt l 0 1
    let flg := leAt l 1 1
    if cmf % 16 ≠ 8 ∨ cmf / 16 > 7 ∨ (cmf * 256 + flg) % 31 ≠ 0 then (6, 0)
    else if bitOn flg 5 then (9, 0) else (0, 2)

/-- Decoding of a whole input by its container: 0 raw, 1 zlib, 2 gzip (R485). -/
def inflate (l : List Byte) (container : Nat) : Inflated :=
  let h := if container = 1 then zlibHeader l else if container = 2 then gzipHeader l else (0, 0)
  if h.1 ≠ 0 then { code := h.1, used := l.length, out := [] }
  else
    let r := readBlocks (l.drop h.2) 0 [] (8 * l.length + 1)
    let out := r.2.reverse
    match r.1 with
    | .need => { code := 4, used := l.length, out := out }
    | .bad => { code := 5, used := l.length, out := out }
    | .ok _ p =>
      let e := h.2 + ceilDiv p 8
      if container = 1 then
        if l.length < e + 4 then { code := 4, used := l.length, out := out }
        else { code := if beAt l e 4 = adler32 out then 0 else 7, used := e + 4, out := out }
      else if container = 2 then
        if l.length < e + 8 then { code := 4, used := l.length, out := out }
        else { code := if leAt l e 4 = (crc32 out).toNat ∧ leAt l (e + 4) 4 = out.length % 2 ^ 32 then 0 else 7, used := e + 8, out := out }
      else { code := 0, used := e, out := out }

/-! ### Coding (R483, R484) -/

/-- The low `n` bits of a number, least significant first. -/
def bitsOf (v n : Nat) : List Bool := (upto n).map (bitOn v)

/-- A code word of `n` bits, most significant first. -/
def wordOf (v n : Nat) : List Bool := (bitsOf v n).reverse

/-- Bits in bytes, least significant first; a last byte that is not full is filled with zeros. -/
def streamBytes (l : List Bool) : List Byte :=
  (upto (ceilDiv l.length 8)).map fun k => BitVec.ofNat 8 ((upto 8).foldl (fun a i => a + bit (l.getD (8 * k + i) false) * 2 ^ i) 0)

/-- How many bytes of `l`, 258 at most, are those that lie `d` before them; `past` holds the data before, newest byte first. -/
def matchLength (past : List Byte) (d : Nat) (l : List Byte) : Nat :=
  ((upto (min 258 l.length)).takeWhile fun k =>
    l.getD k 0 == (if k < d then past.getD (d - 1 - k) 0 else l.getD (k - d) 0)).length

/-- The longest match in the 32 KiB before, and the nearest of equal length: its length and distance (R483). -/
def longestMatch (past l : List Byte) : Nat × Nat :=
  (upto (min 32768 past.length)).foldl (fun (a : Nat × Nat) k => if a.1 < matchLength past (k + 1) l then (matchLength past (k + 1) l, k + 1) else a) (0, 0)

/-- The literals, as (byte, 0), and matches, as (length, distance), of a block (R483). -/
def blockTokens (past l : List Byte) : Nat → List (Nat × Nat)
  | 0 => []
  | n + 1 =>
    match l with
    | [] => []
    | b :: t =>
      let m := longestMatch past l
      if 3 ≤ m.1 then m :: blockTokens ((l.take m.1).reverse ++ past) (l.drop m.1) n else (b.toNat, 0) :: blockTokens (b :: past) t n

/-- The code word of the symbol at place `i` of a code, from `first` code and `index` of this length on; none where it has no code. -/
def placeWord (h : Huff) (i first index : Nat) : Nat → Option (List Bool)
  | 0 => none
  | n + 1 =>
    let first := first * 2
    let count := h.counts.getD (15 - n) 0
    if i < index + count then some (wordOf (first + i - index) (15 - n)) else placeWord h i (first + count) (index + count) n

/-- The code word of a symbol. -/
def symWord (h : Huff) (v : Nat) : Option (List Bool) := if h.syms.contains v then placeWord h (h.syms.idxOf v) 0 0 15 else none

/-- The last entry of a table at or below `v`. -/
def lastAtMost (l : List (Nat × Nat)) (v : Nat) : Nat := (l.filter fun e => decide (e.1 ≤ v)).length - 1

/-- The bits of a literal or match, none where a code lacks a symbol. -/
def tokenBits (lit dist : Huff) (t : Nat × Nat) : Option (List Bool) :=
  if t.2 = 0 then symWord lit t.1
  else
    let k := lastAtMost lengthBase t.1
    let d := lastAtMost ((upto 30).map distBase) t.2
    let lb := lengthBase.getD k (0, 0)
    (symWord lit (257 + k)).bind fun a => (symWord dist d).map fun b =>
      a ++ bitsOf (t.1 - lb.1) lb.2 ++ b ++ bitsOf (t.2 - (distBase d).1) (distBase d).2

/-- The literals and matches of a block and its end-of-block symbol under two codes. -/
def codedTokens (lit dist : Huff) (l : List (Nat × Nat)) : Option (List Bool) :=
  l.foldr (fun t a => (tokenBits lit dist t).bind fun x => a.map fun y => x ++ y) (symWord lit 256)

/-- A dynamic block after its three header bits: the codes it gives, which must hold every symbol used, then the symbols. -/
def dynamicBits (l : List (Nat × Nat)) : Option (List Bool) :=
  let h := Config.dynamicHeader l
  match readDynamic (streamBytes h) 0 with
  | .ok c p => if p = h.length then (codedTokens c.1 c.2 l).map (h ++ ·) else none
  | _ => none

/-- A stored block after `pos` bits of the stream. -/
def storedBits (pos : Nat) (fin : Bool) (l : List Byte) : List Bool :=
  [fin, false, false] ++ List.replicate (roundUp (pos + 3) 8 - (pos + 3)) false ++ bitsOf l.length 16 ++ bitsOf (65535 - l.length) 16 ++
    (l.map fun b => bitsOf b.toNat 8).flatten

/-- A block in the shortest of its three codings; a tie goes to stored, then fixed (R483). -/
def blockBits (past : List Byte) (pos : Nat) (stored fin : Bool) (l : List Byte) : List Bool :=
  let st := storedBits pos fin l
  let tk := blockTokens past l l.length
  let shorter := fun (a : List Bool) (b : Option (List Bool)) => match b with | some b => if b.length < a.length then b else a | none => a
  if stored then st
  else shorter (shorter st ((codedTokens fixedLit fixedDist tk).map ([fin, true, false] ++ ·))) ((dynamicBits tk).map ([fin, false, true] ++ ·))

/-- The blocks of an input after the data before it and the bits of the stream not yet in a whole byte: 65,535 bytes each, the last one the
remainder, and final where the stream ends (R483). -/
def inputBits (before : List Byte) (bits : List Bool) (l : List Byte) (stored fin : Bool) : List Bool :=
  let n := max 1 (ceilDiv l.length 65535)
  (upto n).foldl (fun a k => a ++ blockBits ((before ++ l.take (k * 65535)).reverse) a.length stored (fin && k + 1 == n)
    ((l.drop (k * 65535)).take 65535)) bits

/-- What a COMPRESS job adds to a raw stream on a part of stepping A1 or A0: its whole bytes, and the bits of the last byte while the stream
stays open (R483, R487, R645). -/
def deflateChunk (a1 : Bool) (before : List Byte) (bits : List Bool) (l : List Byte) (stored fin : Bool) : List Byte × List Bool :=
  let b := if a1 then inputBits before bits l stored fin else Config.deflateA0 before bits l stored fin
  if fin then (streamBytes b, []) else (streamBytes (b.take (b.length / 8 * 8)), b.drop (b.length / 8 * 8))

/-- The header of a container as COMPRESS writes it (R483). -/
def containerHead (container : Nat) : List Byte :=
  if container = 1 then [0x78, 0x9C] else if container = 2 then [0x1F, 0x8B, 8, 0, 0, 0, 0, 0, 0, 0xFF] else []

/-- The trailer of a container. -/
def containerTail (container : Nat) (data : List Byte) : List Byte :=
  if container = 1 then beBytes (adler32 data) 4
  else if container = 2 then leBytes (crc32 data).toNat 4 ++ leBytes data.length 4 else []

/-- The running check of a stream (R481). -/
def runningCheck (container : Nat) (data : List Byte) : Nat := if container = 1 then adler32 data else (crc32 data).toNat

end Sys2Proof.Machine
end

