-- ==== Sys2Proof/Machine/Cpr.lean ====
section
/-!
DEFINITION. The compression engines and evidence captures (R480 to R489, R498 to R501).
-/

namespace Sys2Proof.Machine

/-- Descriptors of an engine's ring. -/
def cprRing (s : State) (e : Nat) : Nat := 2 ^ rd s F.CPR_RING_CFG_LOG2 e

/-- CPR_TAIL_WRITE: a new tail inside the ring; another value leaves the register unchanged (R480, R652). -/
def execCprTailWrite (e : Fin 2) (value : BitVec 16) (s : State) : Host.Outcome State Fault Refusal :=
  .next (if value.toNat < cprRing s e.val then wr s F.CPR_TAIL_TAIL e.val 0 value.toNat else s)

/-- The range checks of a descriptor, as (byte offset, passes) (R481, R482, R651). -/
def cprSizes (s : State) (d : List Byte) : List (Nat × Bool) :=
  let sl := leAt d 4 4
  let dl := leAt d 24 4
  let src := leAt d 8 5
  let dst := leAt d 16 5
  let ctx := leAt d 32 5
  [(4, sl != 0 && sl != 0xFFFFFFFF), (24, dl != 0 && dl != 0xFFFFFFFF), (8, inDram s src sl), (16, inDram s dst dl),
   (8, decide (src + sl ≤ dst) || decide (dst + dl ≤ src)), (32, ctx % 4096 == 0 && inDram s ctx 0xC000)]

/-- The lowest offset among failing checks. -/
def lowestBad (l : List (Nat × Bool)) : Option Nat :=
  l.foldl (fun a x => if x.2 then a else match a with | none => some x.1 | some k => some (min k x.1)) none

/-- A descriptor breaks a rule of END code 2. -/
def cprReserved (d : List Byte) : Bool :=
  let op := leAt d 0 1
  let fl := leAt d 1 1
  !(op == 1 || op == 2) || fl % 4 == 3 || (op == 2 && (bitOn fl 3 || bitOn fl 4)) || decide (fl ≥ 64) ||
    leAt d 13 3 != 0 || leAt d 21 3 != 0 || leAt d 28 4 != 0 || leAt d 37 3 != 0 || leAt d 52 12 != 0

/-- The bytes of a context area, by the number of the free value that fills it: R487 says what state they hold and not how
(log entry 12). -/
def cprContext (n : Nat) : List Byte := bytesAt (Config.freeBytes n) 0 0xC000

/-- The stopped stream that a context area's bytes hold (R487). -/
def cprHeld (s : State) (l : List Byte) : Option CprStream := (s.cpr.streams.find? fun x => cprContext x.1 == l).map (·.2)

/-- The stopped stream a RESUME names: what CTX holds, if its OP and CONTAINER agree (R482, R487). -/
def cprResume (s : State) (d ctx : List Byte) : Option CprStream :=
  (cprHeld s ctx).bind fun x => if x.op = leAt d 0 1 ∧ x.container = leAt d 1 1 % 4 then some x else none

/-- The refusal of a descriptor for its own fields: END code and FIELD (R482). -/
def cprRefusal (s : State) (d : List Byte) : Option (Nat × Nat) :=
  match lowestBad (cprSizes s d) with
  | some k => some (1, k)
  | none => if cprReserved d then some (2, 0) else none

/-- A context area is written with bytes that hold a stopped stream, or with bytes that hold none (R487). -/
def cprWriteContext (s : State) (e a : Nat) (x : Option CprStream) : State × Nat :=
  let w := busWrite (draw s) (48 + e) a (cprContext s.free)
  let rest := w.1.cpr.streams.filter fun y => cprContext y.1 != cprContext s.free
  ({ w.1 with cpr := { w.1.cpr with streams := (match x with | some st => [(s.free, st)] | none => []) ++ rest } }, w.2)

/-- What a descriptor that passes its own checks resumes: the END code that refuses or ends it (0: none) and the stream. A resumed context is
cleared at once (R482, R487). -/
def cprOpen (s : State) (e : Nat) (d : List Byte) : State × Nat × Option CprStream :=
  if !bitOn (leAt d 1 1) 2 then (s, 0, none)
  else
    let c := busRead s (48 + e) (leAt d 32 5) 0xC000
    if c.2.1 = 1 then (c.1, 8, none)
    else match cprResume c.1 d c.2.2 with
      | none => (c.1, 10, none)
      | some x =>
        let w := cprWriteContext c.1 e (leAt d 32 5) none
        (w.1, if w.2 = 1 then 8 else 0, some x)

/-- The end of a descriptor's job: its results are written, where a protection error makes the code 8; HEAD advances, JOB_DONE and JOB_ERR,
the event and the interrupt (R489, R658). -/
def cprEnd (s : State) (e : Nat) (addr : Nat) (int : Bool) (code : Nat) (l : List (Nat × List Byte)) : State :=
  let w := l.foldl (fun (a : State × Bool) x => let b := busWrite a.1 (48 + e) (addr + x.1) x.2; (b.1, a.2 || b.2 == 1)) (s, false)
  let s := w.1
  let code := if w.2 then 8 else code
  let s := { s with cpr := { s.cpr with jobs := s.cpr.jobs.del e } }
  let s := wr s F.CPR_HEAD_HEAD e 0 ((rd s F.CPR_HEAD_HEAD e + 1) % cprRing s e)
  let s := raiseIf int s K.CPR_EVENT_JOB_DONE e
  let s := if code = 1 ∨ code = 2 ∨ (5 ≤ code ∧ code ≤ 10) then raiseIf int s K.CPR_EVENT_JOB_ERR e else s
  signal s (136 + e)

/-- The STATUS and FIELD bytes. -/
def cprStatus (code field : Nat) : Nat × List Byte := (2, [BitVec.ofNat 8 (code + 128), BitVec.ofNat 8 field])

/-- The results of a job that a protection error ends: CONSUMED and PRODUCED are free values up to the bytes that it could have taken and
written, CHECK is a free value (R481, R482, R489; log entry 12). It draws two free values. -/
def cprProt (s : State) (taken written : Nat) : List (Nat × List Byte) :=
  [(40, leBytes (Config.freeNat s.free % (taken + 1)) 4 ++ leBytes (Config.freeNat (s.free + 1) % (written + 1)) 4 ++
    bytesAt (Config.freeBytes s.free) 0 4), cprStatus 8 0]

/-- CPR_JOB_START: a free engine that is enabled takes the capture whose turn has come, or its next descriptor, and starts the job or
refuses it (R480, R482, R499). -/
def execCprJobStart (e : Fin 2) (s : State) : Host.Outcome State Fault Refusal :=
  let k := e.val
  let h := rd s F.CPR_HEAD_HEAD k
  if (s.cpr.jobs.find k).isSome || !rdb s F.CPR_RING_CFG_EN k then .next s
  else if s.cpr.queued = some (k, h) then
    .next { s with cpr := { s.cpr with queued := none, jobs := s.cpr.jobs.put k { evid := true } } }
  else if h = rd s F.CPR_TAIL_TAIL k || accessWaits s (48 + k) then .next s
  else
    let a := rdReg s R.CPR_RING_BASE k + h * 64
    let r := busRead s (48 + k) a 64
    let s := r.1
    let int := bitOn (leAt r.2.2 1 1) 5
    if r.2.1 = 1 then .next (cprEnd (draw (draw s)) k a int 8 (cprProt s 0 0))
    else match cprRefusal s r.2.2 with
      | some c => .next (cprEnd s k a int c.1 [cprStatus c.1 c.2])
      | none =>
        let o := cprOpen s k r.2.2
        let s := o.1
        .next (if o.2.1 = 8 then cprEnd (draw (draw s)) k a int 8 (cprProt s 0 0)
          else if o.2.1 = 10 then cprEnd s k a int 10 [cprStatus 10 0]
          else { s with cpr := { s.cpr with jobs := s.cpr.jobs.put k { addr := a, desc := r.2.2, prev := o.2.2 } } })

/-- What a job makes of its input: END code, bytes consumed, output, running check and the stream left in the context. -/
structure CprResult where
  code : Nat
  consumed : Nat
  out : List Byte
  check : Nat
  stream : Option CprStream := none

/-- A COMPRESS job (R483, R484, R487). Where it stops for want of space, how much input it has taken is a free value, of which R484's bound and
the SRC_LEN of a resumed job leave at least as many bytes as output waits, and one (log entry 12). -/
def cprCompress (s : State) (d input : List Byte) (prev : Option CprStream) : CprResult :=
  let fl := leAt d 1 1
  let c := fl % 4
  let st := prev.getD { op := 1, container := c }
  let new := input.drop st.skip
  let fin := !bitOn fl 4
  let data := st.data ++ new
  let z := if (new = [] ∧ !fin) ∨ st.final then ([], st.bits) else deflateChunk (s.straps.stepping != 0) st.data st.bits new (bitOn fl 3) fin
  let all := st.rest ++ (if prev.isNone then containerHead c else []) ++ z.1 ++ (if fin && !st.final then containerTail c data else [])
  let space := leAt d 24 4
  if all.length > space then
    let k := freeNat s % max 1 (input.length - min (input.length - 1) (all.length - space))
    let skip := max input.length st.skip - k
    { code := 3, consumed := k, out := all.take space, check := runningCheck c (data.take (data.length - skip))
      stream := some { op := 1, container := c, data := data, rest := all.drop space, bits := z.2, final := fin, skip := skip } }
  else
    { code := 0, consumed := input.length, out := all, check := runningCheck c data
      stream := if fin then none else some { op := 1, container := c, data := data, bits := z.2, skip := st.skip - input.length } }

/-- The input of a DECOMPRESS stream with the bytes of a job added. -/
def cprWhole (input : List Byte) (prev : Option CprStream) : List Byte :=
  match prev with | none => input | some st => st.input ++ input.drop st.skip

/-- How many of the bytes at SRC a DECOMPRESS job reads: none after the stream's end (R485). -/
def cprNeeded (d input : List Byte) (prev : Option CprStream) : Nat :=
  let whole := cprWhole input prev
  let r := inflate whole (leAt d 1 1 % 4)
  if r.code = 0 ∨ r.code = 7 then r.used + input.length - whole.length else input.length

/-- A DECOMPRESS job over the bytes that it reads (R485, R487). Where it stops for want of space or at invalid data, how much of them it has
taken is a free value; a stop for want of space leaves one at least, as the SRC_LEN of a resumed job asks (log entry 12). -/
def cprDecompress (s : State) (d input : List Byte) (prev : Option CprStream) : CprResult :=
  let c := leAt d 1 1 % 4
  let st := prev.getD { op := 2, container := c }
  let whole := cprWhole input prev
  let r := inflate whole c
  let new := r.out.drop st.given
  let space := leAt d 24 4
  if new.length > space then
    let k := freeNat s % max 1 input.length
    { code := 3, consumed := k, out := new.take space, check := runningCheck c (r.out.take (st.given + space))
      stream := some { op := 2, container := c, input := whole, given := st.given + space, skip := max input.length st.skip - k } }
  else
    { code := r.code
      consumed := if r.code = 4 ∨ r.code = 0 ∨ r.code = 7 then input.length else freeNat s % (input.length + 1)
      out := new, check := runningCheck c r.out
      stream := if r.code = 4 then some { op := 2, container := c, input := whole, given := r.out.length, skip := st.skip - input.length }
        else none }

/-- CPR_JOB_END: a descriptor's job ends: its output, context and results are written (R485 to R489). The bytes of a context are free
values. A protection error on any access ends it with END 8. -/
def execCprJobEnd (e : Fin 2) (s : State) : Host.Outcome State Fault Refusal :=
  let k := e.val
  match s.cpr.jobs.find k with
  | none => .next s
  | some j =>
    if j.evid || accessWaits s (48 + k) then .next s
    else
      let d := j.desc
      let int := bitOn (leAt d 1 1) 5
      let src := leAt d 8 5
      let len := leAt d 4 4
      let pack := leAt d 0 1 == 1
      let n := if pack then len else cprNeeded d (busRead s (48 + k) src len).2.2 j.prev
      let r := busRead s (48 + k) src n
      let s := r.1
      if r.2.1 = 1 then .next (cprEnd (draw (draw s)) k j.addr int 8 (cprProt s len (leAt d 24 4)))
      else
        let x := if pack then cprCompress s d r.2.2 j.prev else cprDecompress s d r.2.2 j.prev
        let w := busWrite (draw s) (48 + k) (leAt d 16 5) x.out
        let s := w.1
        if w.2 = 1 then .next (cprEnd (draw (draw s)) k j.addr int 8 (cprProt s len x.out.length))
        else
          let v := if x.stream.isSome then cprWriteContext s k (leAt d 32 5) x.stream else (s, 0)
          let code := if v.2 = 1 then 8 else x.code
          .next (cprEnd v.1 k j.addr int code [(40, leBytes x.consumed 4), (44, leBytes x.out.length 4), (48, leBytes x.check 4),
            cprStatus code 0])

/-! ### Evidence captures (R498 to R501) -/

/-- The place of a write-back frame, of the size that it was published with (R52, R499). -/
def wbPlace (s : State) (d : Nat) : Place := placeIn s d (descOf s d).frame

/-- The uncompressed length of a capture (R499). -/
def evidLength (p : Place) : Nat := 64 + (64 + 4 * tileCount p) + p.h * (spanOf p.fmt 0 0 p.w).2

/-- Its reservation: the bound of R484 for gzip, in units of 4,096 bytes (R500). -/
def evidReserve (n : Nat) : Nat := roundUp (n + 5 * ceilDiv n 65535 + 18) 4096

/-- Bytes of the evidence area. -/
def evidArea (s : State) : Nat := rd s F.JNL_EVID_BASE_EVID_MIB * 2 ^ 20

/-- Free bytes of the area: a ring from WPTR to RPTR (R500). -/
def evidFree (s : State) : Nat :=
  let a := evidArea s
  if a = 0 || s.jnl.evidFull then 0 else a - (rd s F.JNL_EVID_WPTR_WPTR + a - rd s F.JNL_EVID_RPTR_RPTR % a) % a

/-- A capture starts: the SNAP lease, the reservation and its place in the engine's ring order; or it is refused and no lease is taken
(R498 to R500). -/
def evidStart (s : State) (c : Nat) (auto : Bool) : State :=
  match (cnvOf s c).wbCur with
  | none => raise s K.JNL_EVENT_EVID_REFUSED
  | some w =>
    let p := wbPlace s w.desc
    let n := evidReserve (evidLength p)
    if !rdb s F.CMP_CNV_CFG_WB_EN c || s.jnl.evid.isSome || decide (evidFree s < n) then raise s K.JNL_EVENT_EVID_REFUSED
    else
      let e := rd s F.JNL_EVID_CTRL_ENGINE
      let s := takeLease s w.desc
      { s with
        jnl := { s.jnl with evid := some { canvas := c, auto := auto, desc := w.desc, lease := leaseOf s w.desc, frame := w.frame,
                                           latch := w.latch, out := rd s F.JNL_EVID_WPTR_WPTR } }
        cpr := { s.cpr with queued := some (e, rd s F.CPR_TAIL_TAIL e) } }

/-- EVID_CAPTURE_START: JNL_EVID_CMD.START (R498). -/
def execEvidCaptureStart (canvas : Fin 32) (s : State) : Host.Outcome State Fault Refusal := .next (evidStart s canvas.val false)

/-- A canvas word's N_SUBST goes from `old` to `new`: an automatic capture, unless one of the canvas was made within the last
EVID_HOLDOFF_S seconds (R498). -/
def evidAuto (s : State) (c old new : Nat) : State :=
  let held := match s.jnl.auto.find c with
    | some t => decide (s.time.cyc < t + msCyc (1000 * rd s F.JNL_EVID_CTRL_EVID_HOLDOFF_S))
    | none => false
  if old = 0 ∧ new ≠ 0 ∧ bitOn (rd s F.JNL_EVID_AUTO_CANVASES) c ∧ !held then
    let t := evidStart s c true
    if t.jnl.evid.isSome && s.jnl.evid.isNone then { t with jnl := { t.jnl with auto := t.jnl.auto.put c t.time.cyc } } else t
  else s

/-- Bytes written into the evidence ring from an offset on. -/
def evidWrite (s : State) (master off : Nat) (l : List Byte) : State × Nat :=
  let base := rd s F.JNL_EVID_BASE_BASE
  let n := min l.length (evidArea s - off)
  let a := busWrite s master (base + off) (l.take n)
  let b := busWrite a.1 master base (l.drop n)
  (b.1, max a.2 b.2)

/-- EVID_CAPTURE_DONE: the queued capture's job ends: header, record and pixels as one gzip member in the area; the lease drops, and an
EVIDENCE entry is requested (R499 to R501). -/
def execEvidCaptureDone (s : State) : Host.Outcome State Fault Refusal :=
  match s.jnl.evid, s.cpr.jobs.find? fun j => j.2.evid with
  | some v, some (e, _) =>
    let m := 48 + e
    if accessWaits s m then .next s
    else
    let p := wbPlace s v.desc
    let rec_ := busRead s m (recordAddr p) (64 + 4 * tileCount p)
    let tiles := (upto (tileCount p)).foldl (fun (acc : State × Bool × Bool) t =>
      let b := readTile acc.1 m p t
      let ok := !b.2.1 && tileSeal s.straps.device domWriteBack v.canvas (v.frame % 2 ^ 32) t p.base b.2.2 == leAt rec_.2.2 (64 + 4 * t) 4
      (b.1, acc.2.1 || !ok, acc.2.2 || b.2.1)) (rec_.1, false, false)
    let lines := (upto p.h).foldl (fun (acc : State × Bool × List Byte) y =>
      let b := busRead acc.1 m (lineAddr p 0 y 0) (spanOf p.fmt 0 0 p.w).2
      (b.1, acc.2.1 || b.2.1 == 1, acc.2.2 ++ b.2.2)) (tiles.1, rec_.2.1 == 1, [])
    let fail := tiles.2.1 || rec_.2.1 != 0 ||
      !headerPasses rec_.2.2 s.straps.device domWriteBack v.canvas (v.frame % 2 ^ 32) p.base
    let head := leBytes 0x44495645 4 ++ [1, BitVec.ofNat 8 v.canvas] ++ leBytes v.frame 6 ++ leBytes (v.latch / 1000000000) 6 ++
      leBytes (v.latch % 1000000000) 4 ++ List.replicate 42 0
    let content := head ++ rec_.2.2 ++ lines.2.2
    let prot := lines.2.1
    let z := if prot then [] else containerHead 2 ++ (deflateChunk (s.straps.stepping != 0) [] [] content false true).1 ++ containerTail 2 content
    let w := evidWrite lines.1 m v.out z
    let code := if prot || w.2 == 1 then 8 else 0
    let s := dropLease w.1 v.desc
    let a := evidArea s
    let wptr := (v.out + roundUp z.length 4096) % max 1 a
    let s := wr0 s F.JNL_EVID_WPTR_WPTR wptr
    let full := s.jnl.evidFull || (z.length != 0 && wptr == rd s F.JNL_EVID_RPTR_RPTR % max 1 a)
    let s := { s with jnl := { s.jnl with evid := none, evidFull := full }, cpr := { s.cpr with jobs := s.cpr.jobs.del e } }
    let s := raise s K.JNL_EVENT_EVID_DONE
    .next (askJournal s rankEvidence 0x0060 ([BitVec.ofNat 8 v.canvas,
      BitVec.ofNat 8 (bit fail + 2 * bit v.auto + 4 * bit (code != 0))] ++ leBytes v.frame 4 ++
      leBytes (rd s F.JNL_EVID_BASE_BASE + v.out) 5 ++ leBytes z.length 4 ++ sha256 z ++ [BitVec.ofNat 8 code]))
  | _, _ => .next s

end Sys2Proof.Machine
end

