-- ==== Sys2Proof/Machine/Paint.lean ====
section
/-!
DEFINITION. The pixel path: sources, scaling, blending, Varnish tiles, substitution, write-back and dither (R266 to R299, R350 to
R357).
-/

namespace Sys2Proof.Machine

/-- A premultiplied 12-bit RGBA pixel (R275). -/
structure Px where
  r : Nat := 0
  g : Nat := 0
  b : Nat := 0
  a : Nat := 0
  deriving DecidableEq, Repr

/-! ### Reading a source pixel (R276 to R279) -/

/-- Depth expansion of 8 and 10 bits to 12 (R278). -/
def expand8 (v : Nat) : Nat := v * 16 + v / 16
def expand10 (v : Nat) : Nat := v * 4 + v / 256

/-- How the bytes of a frame are had: plane, line of the plane, first byte of the line, count. -/
abbrev PlaneReader := Nat → Nat → Nat → Nat → List Byte

/-- Where byte `x` of line `l` of plane `k` stands among a frame's tiles: the tile, and its place among the tile's bytes (R45 to R47). -/
def tileSpot (p : Place) (k l x : Nat) : Nat × Nat :=
  let c := x / (spanOf p.fmt k 0 128).2
  let r := l / (if k = 0 then 16 else 8)
  let tx := tileX p.w c
  let ty := tileY p.h r
  let sp := spanOf p.fmt k tx.1 tx.2
  let luma := if k = 0 then 0 else (ty.2 - ty.1) * (spanOf p.fmt 0 tx.1 tx.2).2
  (r * tilesPerRow p.w + c, luma + (l - (if k = 0 then ty.1 else ty.1 / 2)) * sp.2 + (x - sp.1))

/-- The bytes of a frame out of tiles that have been read whole and checked (R58, R61). -/
def tileReader (m : Map (List Byte)) (p : Place) : PlaneReader := fun k l x n =>
  let q := tileSpot p k l x
  bytesAt (m.get q.1 []) q.2 n

/-- A stored byte of a frame. -/
def pixByte (b : PlaneReader) (k l x : Nat) : Nat := leNat (b k l x 1)

/-- Sample `i` of a packed 10-bit line of format 0x6 (R223). -/
def packed10 (b : PlaneReader) (k l i : Nat) : Nat := slice (leNat (b k l (i / 4 * 5) 5)) (10 * (i % 4)) 10

/-- Sample `i` (Cb, Y0, Cr, Y1) of the 10-bit 4:2:2 pgroup that holds column `x`; the pgroup is big-endian (PRESUMED, ST 2110-20; log
entry 18). -/
def pgroup (b : PlaneReader) (l x i : Nat) : Nat := slice (beNat (b 0 l (x / 2 * 5) 5)) (30 - 10 * i) 10

/-- The luma sample at a pixel, in 12 bits. -/
def lumaAt (b : PlaneReader) (p : Place) (x y : Nat) : Nat :=
  match p.fmt with
  | 1 => expand8 (pixByte b 0 y x)
  | 2 => expand8 (pixByte b 0 y (2 * x + 1))
  | 3 => expand10 (pgroup b y x (1 + 2 * (x % 2)))
  | 4 => expand8 (pixByte b 0 y (3 * x + 1))
  | _ => expand10 (packed10 b 0 y x)

/-- A stored chroma sample (`c` 0 Cb, 1 Cr) at chroma column `i` and line `j`, edges repeated, in 12 bits. -/
def chromaAt (b : PlaneReader) (p : Place) (c i j : Nat) : Nat :=
  let i := min i (if p.fmt = 4 then p.w - 1 else ceilDiv p.w 2 - 1)
  let j := min j (if planesOf p.fmt = 2 then ceilDiv p.h 2 - 1 else p.h - 1)
  match p.fmt with
  | 1 => expand8 (pixByte b 1 j (2 * i + c))
  | 2 => expand8 (pixByte b 0 j (4 * i + 2 * c))
  | 3 => expand10 (pgroup b j (2 * i) (2 * c))
  | 4 => expand8 (pixByte b 0 j (3 * i + 2 * c))
  | _ => expand10 (packed10 b 1 j (2 * i + c))

/-- Twice a chroma component at column `x` of chroma line `j`: co-sited on the left, interpolated between (R278). -/
def chromaH (b : PlaneReader) (p : Place) (c x j : Nat) : Nat :=
  if x % 2 = 0 then 2 * chromaAt b p c (x / 2) j else chromaAt b p c (x / 2) j + chromaAt b p c (x / 2 + 1) j

/-- Eight times a chroma component at a pixel after upsampling to 4:4:4 (R278). -/
def chroma8 (b : PlaneReader) (p : Place) (c x y : Nat) : Nat :=
  if p.fmt = 4 then 8 * chromaAt b p c x y
  else if planesOf p.fmt = 1 then 4 * chromaH b p c x y
  else 3 * chromaH b p c x (y / 2) + chromaH b p c x (if y % 2 = 0 then y / 2 - 1 else y / 2 + 1)

/-- A component from the exact quotient `n / d`: an integer within 1 of it, clamped to 12 bits (R279; log entry 17). -/
def nearExact (n : Int) (d : Nat) : Nat :=
  let lo := -((d - n) / (d : Int))
  let hi := (n + d) / (d : Int)
  let v := clampI lo hi ((2 * n + d) / (2 * d : Int) + Config.matrixError n d)
  (clampI 0 4095 v).toNat

/-- Kr and Kb of a matrix in 1/10,000 (R279). -/
def lumaCoef (m : Nat) : Nat × Nat := if m = 0 then (2990, 1140) else if m = 1 then (2126, 722) else (2627, 593)

/-- YCbCr to full-range RGB: `y` in 12 bits, chroma times 8 (R279). -/
def toRgb (m : Nat) (full : Bool) (y cb cr : Nat) : Nat × Nat × Nat :=
  let kr := (lumaCoef m).1
  let kb := (lumaCoef m).2
  let kg := 10000 - kr - kb
  let dy : Nat := if full then 4095 else 3504
  let dc : Nat := if full then 4095 else 3584
  let yy : Int := (y : Int) - (if full then 0 else 256)
  let b : Int := (cb : Int) - 16384
  let r : Int := (cr : Int) - 16384
  let d := dy * 8 * dc * 10000
  (nearExact (4095 * (yy * 80000 * dc + 2 * (10000 - kr : Nat) * r * dy)) d,
   nearExact (4095 * (yy * 80000 * dc * kg - 2 * (kb * (10000 - kb : Nat) * b + kr * (10000 - kr : Nat) * r) * dy)) (d * kg),
   nearExact (4095 * (yy * 80000 * dc + 2 * (10000 - kb : Nat) * b * dy)) d)

/-- An RGB component: as stored when FULL, else expanded from the limited range (R279). -/
def rgbComp (full : Bool) (v : Nat) : Nat := if full then v else nearExact (4095 * ((v : Int) - 256)) 3504

/-- The stored bytes that the key test compares (R277). -/
def keyBytes (b : PlaneReader) (x y : Nat) : Nat := leNat (b 0 y (3 * x) 3)

/-- A source pixel, premultiplied by its key alpha (R276, R277). -/
def sourcePx (b : PlaneReader) (d : LayerDesc) (p : Place) (x y : Nat) : Px :=
  if d.keyEn && (p.fmt == 4 || p.fmt == 5) && keyBytes b x y == d.key then {}
  else
    let c := if p.fmt = 5 then
        let v := fun k => rgbComp d.full (expand8 (pixByte b 0 y (3 * x + k)))
        (v 0, v 1, v 2)
      else toRgb d.mat d.full (lumaAt b p x y) (chroma8 b p 0 x y) (chroma8 b p 1 x y)
    { r := c.1, g := c.2.1, b := c.2.2, a := 4095 }

/-! ### Scaling (R273 to R275) -/

/-- The source position of output index `i` in 16-bit fixed point (R273). -/
def srcPos (start size dst i : Nat) : Int :=
  let step := size * 65536 / max 1 dst
  ((start * 65536 + i * step + step / 2 : Nat) : Int) - 32768

/-- π in units of 2^−96. -/
def piFix : Int := 248902613312231085230521944622

/-- The Taylor series of the sine of `t` in units of 2^−96: term `k` and those after it. -/
def sinSeries (t term : Int) (k : Nat) : Nat → Int
  | 0 => 0
  | n + 1 => term + sinSeries t (-(term * t / 2 ^ 96 * t / 2 ^ 96) / ((2 * k) * (2 * k + 1) : Nat)) (k + 1) n

/-- sinc of `n / d` in units of 2^−96 (R274). -/
def sincFix (n : Int) (d : Nat) : Int :=
  if n = 0 then 2 ^ 96
  else
    let t := piFix * n / d
    sinSeries t t 1 60 * 2 ^ 96 / t

/-- Rounding half away from zero of `512 w / sum`. -/
def round512 (w sum : Int) : Int :=
  if 0 ≤ w then (1024 * w + sum) / (2 * sum) else -((-1024 * w + sum) / (2 * sum))

/-- The raw weight of tap `k` in phase `p`, with the ratio in sixteenths clamped to 1 to 2 (R274; double arithmetic is taken to round
as exact arithmetic does, log entry 19). -/
def tapWeight (taps ratio p k : Nat) : Int :=
  let n : Int := 64 * (k : Int) - 64 * ((taps / 2 : Nat) - 1 : Int) - p
  let q := clampN 16 32 ratio
  sincFix n (4 * q) * sincFix n (32 * taps) / 2 ^ 96

/-- The coefficients of a phase (R274). -/
def coefSet (taps ratio p : Nat) : List Int :=
  let w := (upto taps).map (tapWeight taps ratio p)
  let sum := w.foldl (· + ·) 0
  let c := w.map fun x => round512 x sum
  let rest := 512 - c.foldl (· + ·) 0
  let k := taps / 2 - 1 + (if p ≥ 32 then 1 else 0)
  (upto taps).map fun i => c.getD i 0 + (if i = k then rest else 0)

/-- A filtered component: rounded half up and clamped (R275). -/
def filterComp (c : List Int) (v : List Nat) : Nat :=
  (clampI 0 4095 (((c.zip v).foldl (fun (a : Int) x => a + x.1 * x.2) 0 + 256) / 512)).toNat

/-- A filter pass over pixels; each colour is clamped to its alpha (R275). -/
def filterPx (c : List Int) (v : List Px) : Px :=
  let a := filterComp c (v.map Px.a)
  { r := min a (filterComp c (v.map Px.r)), g := min a (filterComp c (v.map Px.g)), b := min a (filterComp c (v.map Px.b)), a := a }

/-- A source index with the nearest edge sample of the crop repeated (R273). -/
def cropIndex (start size : Nat) (i : Int) : Nat := (clampI start ((start + size : Nat) - 1 : Int) i).toNat

/-- The ratio of an axis in sixteenths, rounded down (R274). -/
def ratio16 (src dst : Nat) : Nat := 16 * src / max 1 dst

/-- The phase of a position: bits [15:10]. -/
def phaseOf (p : Int) : Nat := (p / 1024 % 64).toNat

/-- A horizontally filtered pixel of source row `y` at output column `i`. -/
def scaleH (b : PlaneReader) (d : LayerDesc) (p : Place) (i y : Nat) : Px :=
  let pos := srcPos d.srcX d.srcW d.dstW i
  filterPx (coefSet 8 (ratio16 d.srcW d.dstW) (phaseOf pos))
    ((upto 8).map fun (k : Nat) => sourcePx b d p (cropIndex d.srcX d.srcW (pos / 65536 + k - 3)) y)

/-- The scaled pixel of a layer at output column `i` and row `j` of its unclipped destination (R273 to R275). -/
def scaledPx (b : PlaneReader) (d : LayerDesc) (p : Place) (i j : Nat) : Px :=
  let py := srcPos d.srcY d.srcH d.dstH j
  if d.nearest then
    sourcePx b d p (cropIndex d.srcX d.srcW ((srcPos d.srcX d.srcW d.dstW i + 32768) / 65536))
      (cropIndex d.srcY d.srcH ((py + 32768) / 65536))
  else
    filterPx (coefSet 6 (ratio16 d.srcH d.dstH) (phaseOf py))
      ((upto 6).map fun (k : Nat) => scaleH b d p i (cropIndex d.srcY d.srcH (py / 65536 + k - 2)))

/-! ### Blending (R280, R281) -/

/-- scale12 of R280. -/
def scale12 (v k : Nat) : Nat := (v * k + 2047) / 4095

/-- over of R280. -/
def blend12 (c a o g12 : Nat) : Nat := min 4095 (scale12 c g12 + scale12 o (4095 - scale12 a g12))

/-- A pixel over another. -/
def overPx (t u : Px) (g12 : Nat) : Px :=
  { r := blend12 t.r t.a u.r g12, g := blend12 t.g t.a u.g g12, b := blend12 t.b t.a u.b g12, a := blend12 t.a t.a u.a g12 }

/-- The expanded global alpha (R280). -/
def alpha12 (g : Nat) : Nat := g * 16 + g / 16

/-! ### Varnish tiles (R284, R291 to R293) -/

/-- A pixel as its 6-byte colour (R284). -/
def packPx (p : Px) : List Byte := leBytes (p.r + p.g * 2 ^ 12 + p.b * 2 ^ 24 + p.a * 2 ^ 36) 6
/-- A 6-byte colour as a pixel. -/
def unpackPx (v : Nat) : Px := { r := slice v 0 12, g := slice v 12 12, b := slice v 24 12, a := slice v 36 12 }

/-- The distinct colours of a tile, in order of appearance (log entry 23). -/
def coloursOf (l : List Px) : List Px := l.foldl (fun a p => if a.contains p then a else a ++ [p]) []

/-- The runs of a tile. -/
def runsOf (l : List Px) : List (Px × Nat) :=
  (l.foldl (fun (a : List (Px × Nat)) p =>
    match a with
    | [] => [(p, 1)]
    | (q, n) :: t => if p = q ∧ n < 2048 then (q, n + 1) :: t else (p, 1) :: (q, n) :: t) []).reverse

/-- The header of an encoded tile and its body, padded to whole granules (R292). -/
def tileBytes (mode count : Nat) (body : List Byte) : List Byte :=
  let g := ceilDiv (8 + body.length) 64
  let l := [BitVec.ofNat 8 mode, 0] ++ leBytes count 2 ++ leBytes g 2 ++ [0, 0] ++ body
  l ++ List.replicate (g * 64 - l.length) 0

/-- Numbers below 2^w packed from the least significant bits of the first byte. -/
def packBits (w : Nat) (l : List Nat) : List Byte :=
  leBytes (l.foldr (fun v a => v + 2 ^ w * a) 0) (ceilDiv (w * l.length) 8)

/-- Index width of a palette (R292). -/
def paletteBits (n : Nat) : Nat := if n ≤ 2 then 1 else if n ≤ 4 then 2 else 4

/-- The encodings a tile admits, in the order of R293. -/
def tileModes (l : List Px) : List (List Byte) :=
  let cs := coloursOf l
  let rs := runsOf l
  (if cs.length = 1 then [tileBytes 1 1 ((cs.map packPx).flatten)] else []) ++
  (if 2 ≤ cs.length ∧ cs.length ≤ 16 then
    [tileBytes 2 cs.length ((cs.map packPx).flatten ++ List.replicate (roundUp (6 * cs.length) 8 - 6 * cs.length) 0 ++
      packBits (paletteBits cs.length) (l.map fun p => cs.idxOf p))] else []) ++
  [tileBytes 3 rs.length ((rs.map fun x => packPx x.1 ++ leBytes x.2 2).flatten), tileBytes 0 0 ((l.map packPx).flatten)]

/-- A tile encoded in its mode of smallest LEN_G, ties to the earlier mode (R293). -/
def encodeTile (l : List Px) : List Byte :=
  (tileModes l).foldl (fun a m => if a = [] ∨ m.length < a.length then m else a) []

/-- Pixel `i` of an encoded tile (R292). -/
def decodePx (b : List Byte) (i : Nat) : Px :=
  let n := leAt b 2 2
  match leAt b 0 1 with
  | 0 => unpackPx (leAt b (8 + 6 * i) 6)
  | 1 => unpackPx (leAt b 8 6)
  | 2 =>
    let w := paletteBits n
    let k := slice (leAt b (8 + roundUp (6 * n) 8 + i * w / 8) 1) (i * w % 8) w
    unpackPx (leAt b (8 + 6 * k) 6)
  | _ =>
    let r := (upto n).foldl (fun (a : Option Nat × Nat) k =>
      match a.1 with
      | some _ => a
      | none => let e := a.2 + leAt b (8 + 8 * k + 6) 2
        if i < e then (some k, e) else (none, e)) (none, 0)
    unpackPx (leAt b (8 + 8 * r.1.getD 0) 6)

/-- Bytes at an address of the Varnish store or of DRAM. -/
def storeBytes (s : State) (a n : Nat) : List Byte :=
  if a ≥ 0x1000000000 then Memory.readBytes s.cmp.store (a - 0x1000000000) n else Memory.readBytes s.mem a n

/-- Granules of a plane's record and of its tile index (R290). -/
def recordG (count : Nat) : Nat := ceilDiv (64 + 4 * count) 64
def indexG (count : Nat) : Nat := ceilDiv (4 * count) 64

/-- The address of granule `g` of the store or of the spill region. -/
def granuleAddr (s : State) (spill : Bool) (g : Nat) : Nat := if spill then rdReg s R.CMP_SPILL_ADDR + 64 * g else 0x1000000000 + 64 * g

/-- Where a tile of a plane stands, from the bytes of its index entry: address and bytes (R291). -/
def planeEntry (s : State) (b : List Byte) : Nat × Nat :=
  let e := leNat b
  (granuleAddr s (bitOn e 20) (slice e 0 20), 64 * slice e 24 8)

/-- A plane's pixel at a canvas position from the decompressed bytes of its tiles (R56); transparent where there is no plane. -/
def planePx (m : Map (List Byte)) (pl : Plane) (w x y : Nat) : Px :=
  if !pl.present then {}
  else
    let tx := tileX w (x / 128)
    unpackPx (leAt (m.get (y / 16 * tilesPerRow w + x / 128) []) (6 * (y % 16 * (tx.2 - tx.1) + x % 128)) 6)

/-! ### What of a source a tile row uses (R58, R273, R274, R278) -/

/-- The gallery of a canvas. -/
def galleryOf (s : State) (c : Nat) : Nat := rd s F.CNV_CTRL_GALLERY c

/-- The canvas has joined its gallery (R317). -/
def onCanvas (s : State) (c : Nat) : Bool := rdb s F.CNV_STATUS_ACTIVE c

/-- First and last tile row that a layer's region intersects. -/
def regionRows (s : State) (l : Nat) : Option (Nat × Nat) :=
  (layerRegion s l).map fun q => (q.2.1 / 16, (q.2.2.2 - 1) / 16)

/-- First and last source sample of an axis that the output indices `i0` to `i1` use. -/
def axisSpan (nearest : Bool) (taps start size dst i0 i1 : Nat) : Nat × Nat :=
  let a := srcPos start size dst i0
  let b := srcPos start size dst i1
  if nearest then (cropIndex start size ((a + 32768) / 65536), cropIndex start size ((b + 32768) / 65536))
  else (cropIndex start size (a / 65536 - (taps / 2 - 1 : Nat)), cropIndex start size (b / 65536 + (taps / 2 : Nat)))

/-- A span of columns widened by what chroma interpolation takes (R278). -/
def chromaSpanX (fmt w : Nat) (p : Nat × Nat) : Nat × Nat :=
  if fmt = 4 ∨ fmt = 5 then (p.1, min (w - 1) p.2) else (p.1, min (w - 1) (if p.2 % 2 = 1 then p.2 + 1 else p.2))

/-- A span of lines widened by what chroma interpolation takes (R278). -/
def chromaSpanY (fmt h : Nat) (p : Nat × Nat) : Nat × Nat :=
  if planesOf fmt = 1 then (p.1, min (h - 1) p.2)
  else (if p.1 % 2 = 0 then p.1 - 1 else p.1, min (h - 1) (if p.2 % 2 = 1 then p.2 + 1 else p.2))

/-- The source tiles that contribute to the lines `ya` to `yb − 1` of a region of a layer. -/
def tilesUsed (d : LayerDesc) (p : Place) (q : Nat × Nat × Nat × Nat) (ya yb : Nat) : List Nat :=
  if yb ≤ ya then []
  else
    let col := fun (v : Nat) => ((v : Int) - d.dstX).toNat
    let row := fun (v : Nat) => ((v : Int) - d.dstY).toNat
    let cx := chromaSpanX p.fmt p.w (axisSpan d.nearest 8 d.srcX d.srcW d.dstW (col q.1) (col (q.2.2.1 - 1)))
    let cy := chromaSpanY p.fmt p.h (axisSpan d.nearest 6 d.srcY d.srcH d.dstH (row ya) (row (yb - 1)))
    (((upto (tileRows p.h)).filter fun i => decide (cy.1 / 16 ≤ i) && decide (i ≤ cy.2 / 16)).map fun i =>
      ((upto (tilesPerRow p.w)).filter fun j => decide (cx.1 / 128 ≤ j) && decide (j ≤ cx.2 / 128)).map fun j =>
        i * tilesPerRow p.w + j).flatten

/-- The source tiles that contribute to canvas tile row `r` of a layer's region. -/
def sourceTiles (s : State) (l r : Nat) : List Nat :=
  let x := layOf s l
  match layerRegion s l, x.lease with
  | some q, some k => tilesUsed x.desc (placeOf s k) q (max q.2.1 (16 * r)) (min q.2.2.2 (16 * r + 16))
  | _, _ => []

/-- The first tile row of a layer's region to which a source tile contributes. -/
def firstRowOf (s : State) (l tile : Nat) : Option Nat :=
  match regionRows s l with
  | none => none
  | some q => ((upto (q.2 + 1 - q.1)).map (· + q.1)).find? fun r => (sourceTiles s l r).contains tile

/-- A layer's tile data for tile row `r` have all arrived: none that contributes to it is outstanding or has never been fetched
(R320). -/
def rowArrived (s : State) (l r : Nat) : Bool :=
  (sourceTiles s l r).all fun t => ((layOf s l).got.find t).isSome

/-! ### The composed canvas (R271, R281) -/

/-- The present frame of the canvas is composed through its planes (R287, R288). -/
def usesPlanes (s : State) (c : Nat) : Bool := (cnvOf s c).planar && (cnvOf s c).planes.isSome

/-- The directly composed layers of a canvas, lowest first (R282, R288). -/
def directLayers (s : State) (c : Nat) : List Nat := (splitPlanes s (shownOn s c) (usesPlanes s c)).2.1

/-- A layer is drawn in tile row `r`: it has a lease and is not left out by R270, R685 or a cut (R320). -/
def drawnAt (x : Layer) (r : Nat) : Bool :=
  x.lease.isSome && !x.cropFail && !x.tableFail && (match x.cut with | some k => decide (r < k) | none => true)

/-- A point lies in a region. -/
def inside (q : Option (Nat × Nat × Nat × Nat)) (x y : Nat) : Bool :=
  match q with
  | none => false
  | some (x0, y0, x1, y1) => decide (x0 ≤ x) && decide (x < x1) && decide (y0 ≤ y) && decide (y < y1)

/-- The layers drawn at a pixel: of those that cover it, the highest 16 (R271). -/
def layersAt (s : State) (c x y : Nat) : List Nat :=
  let l := (directLayers s c).filter fun n => drawnAt (layOf s n) (y / 16) && inside (layerRegion s n) x y
  l.drop (l.length - 16)

/-- A layer's pixel at a canvas position. -/
def layerPx (s : State) (n x y : Nat) : Px :=
  let l := layOf s n
  match l.lease with
  | none => {}
  | some k => scaledPx (tileReader l.got (placeOf s k)) l.desc (placeOf s k) ((x : Int) - l.desc.dstX).toNat ((y : Int) - l.desc.dstY).toNat

/-- A directly composed layer holds nothing of tile row `r` back: it is not drawn there, its header has failed, which paints it whole, or
its header has passed and the comparison of every tile that contributes is complete (R59, R61, R331). -/
def layerReady (s : State) (n r : Nat) : Bool :=
  let x := layOf s n
  !drawnAt x r || x.hdrFail || (x.hdrOk && rowArrived s n r)

/-- The directly composed layers of a canvas that hold tile row `r` back. -/
def rowWaits (s : State) (c r : Nat) : List Nat :=
  (directLayers s c).filter fun n =>
    match regionRows s n with | some q => decide (q.1 ≤ r) && decide (r ≤ q.2) && !layerReady s n r | none => false

/-- The composed pixel of a canvas, before selection and substitution (R281). -/
def composedPx (s : State) (c x y : Nat) : Px :=
  let k := cnvOf s c
  let o : Px := { r := slice k.bg 0 12, g := slice k.bg 16 12, b := slice k.bg 32 12, a := 4095 }
  let w := canvasW s c
  let o := match k.planes with | some p => if usesPlanes s c then overPx (planePx k.underPx p.under w x y) o 4095 else o | none => o
  let o := (layersAt s c x y).foldl (fun o n => overPx (layerPx s n x y) o (alpha12 (layOf s n).desc.alpha)) o
  match k.planes with | some p => if usesPlanes s c then overPx (planePx k.overPx p.above w x y) o 4095 else o | none => o

/-! ### Substitution (R350 to R357) -/

/-- How a region is painted in a tile row, and how its label reads: from which row, verdict and age in tenths. -/
structure Mark where
  layer : Nat
  hatch : Bool
  row0 : Nat
  label : Option (Verdict × Option Nat)
  deriving DecidableEq, Repr

/-- The first tile row that a region's painting covers. -/
def firstPaint (l : List Paint) : Nat := l.foldl (fun a p => min a p.row) ((l.headD {}).row)

/-- The painting of a region in tile row `r`, own composition. -/
def ownMark (s : State) (n r : Nat) : Option Mark :=
  let x := layOf s n
  (x.paint.find? fun p => decide (p.row ≤ r)).map fun p =>
    { layer := n, hatch := p.hatch, row0 := firstPaint x.paint, label := x.label }

/-- The verdict with a code (R327). -/
def verdictOf (k : Nat) : Verdict :=
  match k with | 0 => .live | 1 => .aged | 2 => .stale | 3 => .frozen | 4 => .unverified | 6 => .static | _ => .absent

/-- The twin's record of a tile row of the present frame. -/
def twinRow (s : State) (c r : Nat) : Option RowRecord :=
  s.tnd.twin.find? fun x => x.canvas == c && x.row == r && x.frame == (galOf s (rd s F.CNV_CTRL_GALLERY c)).frame % 2 ^ 32

/-- The entry of a layer in the twin's record of a tile row of the present frame. -/
def twinEntry (s : State) (c n r : Nat) : Option RegionEntry := (twinRow s c r).bind fun x => x.regions.find? fun e => e.layer == n

/-- The first tile row from which the twin's records paint a layer's region (R351, R385). -/
def twinFirst (s : State) (c n : Nat) : Option Nat := (upto 135).find? fun r => (twinEntry s c n r).any fun e => e.painted

/-- The age of a layer at the evaluation of tile row `r` of this canvas frame, or at the last before it. -/
def ageAt (x : Layer) (r : Nat) : Option Nat := ((x.ages.find? fun e => decide (e.1 ≤ r)).map (·.2)).getD x.age

/-- The painting of a region of the twin's stream in tile row `r` after a tile of it did not match: UNVERIFIED, with the age that the twin's record
gives for the label's row (R356, R361, R385). -/
def mismatchMark (s : State) (c n r : Nat) : Option Mark :=
  match (layOf s n).glassRow, layerRegion s n with
  | some r0, some q =>
    let age := match twinEntry s c n ((max q.2.1 (r0 * 16) + 8) / 16) with
      | some b => if b.age = 0xFFFFFFFF then none else some (b.age / 100)
      | none => (ageAt (layOf s n) r).map (· / 100000000)
    if r0 ≤ r then some { layer := n, hatch := true, row0 := r0, label := some (.unverified, age) } else none
  | _, _ => none

/-- The painting of a region in tile row `r` from the twin's records; the label's text is that of the row that holds the box's first line
(R355, R356, R385). -/
def twinMark (s : State) (c n r : Nat) : Option Mark :=
  match twinEntry s c n r, twinFirst s c n, layerRegion s n with
  | some e, some r0, some q =>
    let glaze := e.style && (e.verdict == 2 || e.verdict == 3 || (e.verdict == 4 && e.cause == 12))
    let lab := (twinEntry s c n ((max q.2.1 (r0 * 16) + 8) / 16)).map fun b =>
      (verdictOf b.verdict, if b.age = 0xFFFFFFFF then none else some (b.age / 100))
    if e.painted then some { layer := n, hatch := !glaze, row0 := r0, label := lab } else none
  | _, _, _ => none

/-- The layer is hidden at a pixel by a higher directly composed layer or by the overlay plane at full alpha (R350). Every directly
composed layer is higher than a layer of the underlay; nothing hides a layer that is part of the overlay (DEDUCED, log entry 101). -/
def hiddenAt (s : State) (c n x y : Nat) : Bool :=
  let k := cnvOf s c
  let p := splitPlanes s (shownOn s c) (usesPlanes s c)
  if p.2.2.contains n then false
  else
    let above := if p.1.contains n then p.2.1 else (p.2.1.dropWhile (· != n)).drop 1
    (above.any fun m => (layersAt s c x y).contains m &&
      scale12 (layerPx s m x y).a (alpha12 (layOf s m).desc.alpha) == 4095) ||
    (usesPlanes s c && match k.planes with | some p => (planePx k.overPx p.above (canvasW s c) x y).a == 4095 | none => false)

/-- The mark that paints a pixel: that of the highest substituted region that covers it unhidden (R350). -/
def markAt (s : State) (c x y : Nat) : Option Mark :=
  let pick := fun n =>
    if (s.tnd.cnvs.get c {}).stream = 1 then (mismatchMark s c n (y / 16)).or (twinMark s c n (y / 16)) else ownMark s n (y / 16)
  (shownOn s c).reverse.findSome? fun n =>
    if inside (layerRegion s n) x y && !hiddenAt s c n x y then pick n else none

/-- Decimal digits as ASCII codes. -/
def digits2 (n : Nat) : List Nat := [48 + n / 10 % 10, 48 + n % 10]

/-- The age part of a label (R354). -/
def ageText (a : Option Nat) : List Nat :=
  match a with
  | none => "--:--.-".toList.map Char.toNat
  | some a => if a > 59999 then ">99 MIN".toList.map Char.toNat
    else digits2 (a / 600) ++ [58] ++ digits2 (a / 10 % 60) ++ [46, 48 + a % 10]

/-- The verdict word of a label (R354). -/
def verdictWord (v : Verdict) : List Nat :=
  (match v with | .stale => "STALE" | .frozen => "FROZEN" | .absent => "ABSENT" | _ => "UNVERIFIED").toList.map Char.toNat

/-- A text drawn at scale `k` with its top left at (0, 0): a lit pixel (R355). -/
def textLit (t : List Nat) (k x y : Nat) : Bool :=
  decide (x / k / 8 < t.length) && decide (y / k < 16) && Config.glyph (t.getD (x / k / 8) 32) (x / k % 8) (y / k)

/-- White, black, and the fixed patterns of R353. -/
def white : Px := { r := 4095, g := 4095, b := 4095, a := 4095 }
def black : Px := { a := 4095 }
def hatchPx (x y : Nat) : Px :=
  if (x + y) % 32 < 8 then { r := 3584, g := 2304, b := 0, a := 4095 } else { r := 1024, g := 1024, b := 1024, a := 4095 }
def glazePx (x y : Nat) (o : Px) : Px :=
  if (x + y) % 32 < 2 then { r := 3584, g := 2304, b := 0, a := 4095 }
  else { r := o.r / 4 + 1024, g := o.g / 4 + 1024, b := o.b / 4 + 1024, a := 4095 }

/-- The label of a mark at a pixel: text, box, or none; scale 2 where the box fits, else 1, else no label (R355). -/
def labelPx (s : State) (m : Mark) (x y : Nat) : Option Px :=
  match layerRegion s m.layer, m.label with
  | some (x0, y0, x1, y1), some lab =>
    let top := max y0 (m.row0 * 16) + 8
    let left := x0 + 8
    let t := verdictWord lab.1 ++ [32] ++ ageText lab.2
    let fits := fun k => decide (left + (8 * t.length + 8) * k ≤ x1) && decide (top + 24 * k ≤ y1)
    let k := if fits 2 then 2 else if fits 1 then 1 else 0
    if k = 0 ∨ x < left ∨ y < top ∨ left + (8 * t.length + 8) * k ≤ x ∨ top + 24 * k ≤ y then none
    else if left + 4 * k ≤ x ∧ top + 4 * k ≤ y ∧ textLit t k (x - left - 4 * k) (y - top - 4 * k) then some white
    else some black
  | _, _ => none

/-- The Gesso picture of a canvas (R353, R357; the placing of its two lines inside their block is log entry 24). -/
def gessoPx (s : State) (c x y : Nat) : Px :=
  let w := canvasW s c
  let h := canvasH s c
  let k := if w ≥ 1280 ∧ h ≥ 720 then 4 else 2
  let t1 := "NO LIVE PICTURE".toList.map Char.toNat
  let t2 := "CANVAS ".toList.map Char.toNat ++ digits2 c
  let bw := (8 * 15 + 8) * k
  let bh := 40 * k
  let left := (w - bw) / 2
  let top := (h - bh) / 2
  if left ≤ x ∧ x < left + bw ∧ top ≤ y ∧ y < top + bh then
    let dx := x - left
    let dy := y - top
    if (4 * k ≤ dx && 4 * k ≤ dy && textLit t1 k (dx - 4 * k) (dy - 4 * k)) ||
       (28 * k ≤ dx && 20 * k ≤ dy && textLit t2 k (dx - 28 * k) (dy - 20 * k)) then white else black
  else if (x + y) % 64 < 16 then { r := 1536, g := 1536, b := 1536, a := 4095 } else { r := 2048, g := 2048, b := 2048, a := 4095 }

/-- The twin's pixel: 36 bits of a LINE36 line (R385, R539). -/
def twinPx (s : State) (c x y : Nat) : Px :=
  let v := slice (leNat (bytesAt ((s.tnd.cnvs.get c {}).lines.getD y []) (x * 36 / 8) 6)) (x * 36 % 8) 36
  { r := slice v 0 12, g := slice v 12 12, b := slice v 24 12, a := 4095 }

/-- The canvas shows Gesso now (R324). -/
def inGesso (s : State) (c : Nat) : Bool := rdb s F.CNV_STATUS_GESSO c

/-- The pixel lies in a canvas tile whose plane tile has failed (R351). -/
def planeFailed (s : State) (c x y : Nat) : Bool :=
  usesPlanes s c && (s.tnd.cnvs.get c {}).stream != 1 && (cnvOf s c).planeBad.contains (y / 16 * tilesPerRow (canvasW s c) + x / 128)

/-- The output stage shows Gesso at column `x` of the line that leaves: the canvas is in Gesso, on the line in which the FIFO ran empty from
the pixel that it lacked (R322, R324). -/
def gessoAt (s : State) (c x : Nat) : Bool :=
  inGesso s c && match (cnvOf s c).emptyX with | some e => decide (e ≤ x) | none => true

/-- The pixel of a canvas after selection and substitution, which the write-back tap takes (R296, steps 1 to 3). -/
def shownPx (s : State) (c x y : Nat) : Px :=
  if gessoAt s c x then gessoPx s c x y
  else if planeFailed s c x y then hatchPx x y
  else
    let o := if (s.tnd.cnvs.get c {}).stream = 1 then twinPx s c x y else composedPx s c x y
    match markAt s c x y with
    | none => o
    | some m => (labelPx s m x y).getD (if m.hatch then hatchPx x y else glazePx x y o)

/-! ### Write-back, conversion and dither (R296, R297, R299) -/

/-- The bytes of a pixel in a write-back format (R297). -/
def wbPx (fmt : Nat) (p : Px) : List Byte :=
  if fmt = 9 then [p.r, p.g, p.b].map fun v => BitVec.ofNat 8 (min ((v + 8) / 16) 255)
  else
    let q := fun v => min ((v + 2) / 4) 1023
    leBytes (q p.r + q p.g * 2 ^ 10 + q p.b * 2 ^ 20) 4

/-- A line of a canvas in a write-back format. -/
def wbLine (s : State) (c fmt y : Nat) : List Byte := ((upto (canvasW s c)).map fun x => wbPx fmt (shownPx s c x y)).flatten

/-- Conversion to YCbCr in 12 bits (R296, step 4; rounded as R279 rounds). -/
def toYcc (m : Nat) (full : Bool) (p : Px) : Nat × Nat × Nat :=
  let kr := (lumaCoef m).1
  let kb := (lumaCoef m).2
  let kg := 10000 - kr - kb
  let y : Int := ((kr * p.r + kg * p.g + kb * p.b : Nat) : Int)
  let sy : Nat := if full then 4095 else 3504
  let sc : Nat := if full then 4095 else 3584
  let off : Int := if full then 0 else 256
  (nearExact (off * (4095 * 10000) + y * sy) (4095 * 10000),
   nearExact (2048 * (4095 * 2 * (10000 - kb : Nat)) + ((p.b : Int) * 10000 - y) * sc) (4095 * 2 * (10000 - kb)),
   nearExact (2048 * (4095 * 2 * (10000 - kr : Nat)) + ((p.r : Int) * 10000 - y) * sc) (4095 * 2 * (10000 - kr)))

/-- A value rounded half up from `n / d` and clamped to a component's range (R156). -/
def rounded (full chroma ten : Bool) (n d : Nat) : Nat :=
  let v := (2 * n + d) / (2 * d)
  let m := if ten then 4 else 1
  if full then min v (if ten then 1023 else 255) else clampN (16 * m) ((if chroma then 240 else 235) * m) v

/-- The matrix B of R299. -/
def ditherB : List Nat := [0, 8, 2, 10, 12, 4, 14, 6, 3, 11, 1, 9, 15, 7, 13, 5]

/-- Dither of a component to `d` bits (R299). -/
def ditherComp (mode d frame x y c v : Nat) : Nat :=
  let sh := 12 - d
  let i := if mode = 2 then (x + frame + 2 * c) % 4 else x % 4
  let j := if mode = 2 then (y + frame / 4 + c) % 4 else y % 4
  let add := if mode = 0 then 2 ^ (sh - 1) else ditherB.getD (4 * j + i) 0 * 2 ^ sh / 16
  min ((v + add) / 2 ^ sh) (2 ^ d - 1)

/-- Bits per component of DEPTH (R302). -/
def depthBits (cfg : Nat) : Nat := if slice cfg 4 2 = 0 then 6 else if slice cfg 4 2 = 1 then 8 else 10

/-- The three components of a canvas pixel as its connector carries them (R296, steps 4 and 5). -/
def outPx (s : State) (c x y : Nat) : Nat × Nat × Nat :=
  let cfg := (cnvOf s c).cfg
  let p := shownPx s c x y
  let v := if bitOn cfg 8 then toYcc (slice cfg 9 2) (bitOn cfg 11) p else (p.r, p.g, p.b)
  let f := (galOf s (rd s F.CNV_CTRL_GALLERY c)).frame
  let q := ditherComp (slice cfg 6 2) (depthBits cfg) f x y
  (q 0 v.1, q 1 v.2.1, q 2 v.2.2)

/-- A canvas line as a LINE packet carries it: DEPTH bits per component, packed from bit 0 of byte 0 (R539). -/
def outLine (s : State) (c y : Nat) : List Byte :=
  let d := depthBits (cnvOf s c).cfg
  packBits d ((upto (canvasW s c)).map fun x => let p := outPx s c x y; [p.1, p.2.1, p.2.2]).flatten

/-- A composed canvas line before substitution, 12 bits per component, as LINE36 carries it (R385, R539). -/
def composedLine (s : State) (c y : Nat) : List Byte :=
  packBits 12 ((upto (canvasW s c)).map fun x => let p := composedPx s c x y; [p.r, p.g, p.b]).flatten

/-! ### What the output encoder packs (R129, R223, R359) -/

/-- Component `i` of a coded pixel. -/
def pick (v : Nat × Nat × Nat) (i : Nat) : Nat := if i = 0 then v.1 else if i = 1 then v.2.1 else v.2.2

/-- The bytes of plane `k` of a line from its samples: `g` gives component i (Y Cb Cr or R G B) at a column; the chroma of a pair is that
of its even column (R223). -/
def packLine (fmt k w : Nat) (g : Nat → Nat → Nat) : List Byte :=
  let b := fun (v : Nat) => BitVec.ofNat 8 v
  match fmt with
  | 1 => if k = 0 then (upto w).map fun x => b (g 0 x) else ((upto (ceilDiv w 2)).map fun i => [b (g 1 (2 * i)), b (g 2 (2 * i))]).flatten
  | 2 => ((upto (ceilDiv w 2)).map fun i => [b (g 1 (2 * i)), b (g 0 (2 * i)), b (g 2 (2 * i)), b (g 0 (2 * i + 1))]).flatten
  | 3 => ((upto (ceilDiv w 2)).map fun i =>
      beBytes (g 1 (2 * i) % 1024 * 2 ^ 30 + g 0 (2 * i) % 1024 * 2 ^ 20 + g 2 (2 * i) % 1024 * 2 ^ 10 + g 0 (2 * i + 1) % 1024) 5).flatten
  | 4 => ((upto w).map fun x => [b (g 1 x), b (g 0 x), b (g 2 x)]).flatten
  | _ => ((upto w).map fun x => [b (g 0 x), b (g 1 x), b (g 2 x)]).flatten

/-- The sampling code of a flow entry (R113). -/
def flowSampling (e : List Byte) : Nat := leAt e 47 1

/-- Bytes and pixels of a pgroup of a sampling code, and the landed format (R114, R142). -/
def pgroupOf (sampling : Nat) : Nat × Nat × Nat := if sampling = 1 then (4, 2, 2) else if sampling = 2 then (5, 2, 3) else (3, 1, 5)

/-- A canvas pixel in the sampling of a send entry: the picture after substitution, rounded and dithered as the canvas sets (R129, R299).
Chroma of a pair is a free function of its two pixels' (the spec gives no filter; log entry 13). -/
def sendComp (s : State) (c sampling i x y : Nat) : Nat :=
  let cfg := (cnvOf s c).cfg
  let at_ := fun x =>
    let p := shownPx s c x y
    pick (if sampling = 3 then (p.r, p.g, p.b) else toYcc (slice cfg 9 2) (bitOn cfg 11) p) i
  let v := if i = 0 ∨ sampling = 3 then at_ x else Config.scaleSample [at_ x, at_ (x + 1)] 1 % 4096
  ditherComp (slice cfg 6 2) (if sampling = 3 then 8 else 10) (galOf s (galleryOf s c)).frame x y i v

/-- A canvas line as pgroups (R114). -/
def sendSamples (s : State) (c sampling y : Nat) : List Byte :=
  packLine (if sampling = 3 then 5 else 3) 0 (canvasW s c) fun i x => sendComp s c sampling i x y

/-- The samples that the output encoder of a canvas packs for columns `x0` to `x1 − 1` of a line, after subsampling (R359): of an
ST 2110-20 canvas in the order of its send entry's pgroup, else per pixel R G B, or Cb Y Cr as format 0x4 stores them (DEDUCED from R47 and
R223, log entry 102). -/
def encSamples (s : State) (c y x0 x1 : Nat) : List Nat :=
  if rd s F.CNV_CTRL_OUT_KIND c = 2 then
    let k := ((sendEntries s).find? fun e => sendCanvas e.2 == c).elim 3 fun e => flowSampling e.2
    if k = 3 then ((upto (x1 - x0)).map fun i => (upto 3).map fun j => sendComp s c k j (x0 + i) y).flatten
    else ((upto (ceilDiv (x1 - x0) 2)).map fun i =>
      let x := x0 + 2 * i
      [sendComp s c k 1 x y, sendComp s c k 0 x y, sendComp s c k 2 x y, sendComp s c k 0 (x + 1) y]).flatten
  else ((upto (x1 - x0)).map fun i =>
    let p := outPx s c (x0 + i) y
    if bitOn (cnvOf s c).cfg 8 then [p.2.1, p.1, p.2.2] else [p.1, p.2.1, p.2.2]).flatten

/-- The reference registers of the tile columns of a canvas after line `y`, whose samples count as 16-bit little-endian values (R359). -/
def encRegs (s : State) (c y : Nat) (regs : List Nat) : List Nat :=
  (upto (tilesPerRow (canvasW s c))).map fun t =>
    let x := tileX (canvasW s c) t
    (crc32cUpdate (BitVec.ofNat 32 (if y % 16 = 0 then 0xFFFFFFFF else regs.getD t 0xFFFFFFFF))
      ((encSamples s c y x.1 x.2).map fun v => leBytes v 2).flatten).toNat

end Sys2Proof.Machine
end

