-- ==== Sys2Proof/Machine/Ledger.lean ====
section
/-!
DEFINITION. The Ledger: ages, frozen content, verdicts and their transitions, painting, the Watch words, VERDICT entries and the proof
test (R327 to R378).
-/

namespace Sys2Proof.Machine

/-! ### Verdicts and causes -/

/-- The code of a verdict (R327). -/
def verdictCode : Verdict → Nat
  | .live => 0 | .aged => 1 | .stale => 2 | .frozen => 3 | .unverified => 4 | .absent => 5 | .static => 6

/-- Severity in the order of R218, most severe highest. -/
def severity : Verdict → Nat
  | .static => 0 | .live => 1 | .aged => 2 | .stale => 3 | .frozen => 4 | .absent => 5 | .unverified => 6

/-- The substituted verdicts (R344). -/
def substituted : Verdict → Bool
  | .stale | .frozen | .unverified | .absent => true
  | _ => false

/-- The code of a cause (R378). -/
def causeCode : Cause → Nat
  | .none => 0 | .age => 1 | .noisy => 2 | .tick => 3 | .header => 4 | .tile => 5 | .cropOut => 6 | .concealed => 7 | .future => 8
  | .glass => 9 | .cut => 10 | .noFrame => 11 | .proving => 12 | .staticMismatch => 13 | .table => 14

/-- A layer's region is painted with Hatch under a verdict; otherwise Glaze (R352). -/
def paintsHatch (v : Verdict) (c : Cause) (glaze : Bool) : Bool :=
  !(glaze && (v == .stale || v == .frozen || (v == .unverified && c == .proving)))

/-! ### What is evaluated (R328, R329) -/

/-- The Ledger evaluates the layer (R328): shown in the epoch in force on a canvas of its gallery, with a region. -/
def evaluable (s : State) (l : Nat) : Bool :=
  let x := layOf s l
  x.committed && x.desc.shown && onCanvas s x.desc.canvas && galleryOf s x.desc.canvas == x.gallery && (layerRegion s l).isSome

/-- The layers evaluated in a gallery, ascending. -/
def evaluatedIn (s : State) (g : Nat) : List Nat :=
  (s.eas.layers.filter fun e => e.2.gallery == g && evaluable s e.1).map (·.1)

/-- The layers evaluated on a canvas. -/
def evaluatedOn (s : State) (c : Nat) : List Nat :=
  (s.eas.layers.filter fun e => e.2.desc.canvas == c && evaluable s e.1).map (·.1)

/-- VBLANK_MIN − LATCH_GUARD: lines from a latch to the line 0 that follows it (R306). -/
def latchLead (s : State) (g : Nat) : Nat := rd s F.CNV_GAL_VB_VBLANK_MIN g - rd s F.CNV_GAL_VB_LATCH_GUARD g

/-- The boundary of a tile row falls after the latch point (R329). -/
def rowAfterLatch (s : State) (g row : Nat) : Bool := decide (32 < 16 * row + latchLead s g)

/-- How many tile rows take the latch evaluation as their own (R329): rows below this one. -/
def latchRows (s : State) (g : Nat) : Nat := ((upto 135).filter fun r => !rowAfterLatch s g r).length

/-- The line of gallery `g` that runs is line 16 × `row` − 32 of the frame that is composed, counted from its line 0; negative lines count
back into the blanking before it (R329). -/
def rowBoundary (s : State) (g row : Nat) : Bool :=
  let x := galOf s g
  let v := rd s F.CNV_GAL_HV_VACT g
  if 32 ≤ 16 * row then decide (x.line = 16 * row - 32 ∧ x.line < v)
  else x.latched && decide (v ≤ x.line ∧ x.line + (32 - 16 * row) = v + x.latchLine + latchLead s g)

/-! ### Ages and frozen content (R333, R337 to R341) -/

/-- The age of a capture at a sample time (R333). -/
def ageNs (now full : Int) (allowMs : Nat) : Int :=
  let a := now - full + allowMs * 1000000
  if a < 0 ∧ -1000 ≤ a then 0 else a

/-- The allowance of a leased frame (R333). -/
def allowance (f : Frame) : Nat := if f.ptpStamp then 0 else f.allow

/-- The proof fault of kind `k` is injected into layer `l` in the present frame (R370). -/
def injectedNow (s : State) (l k : Nat) : Bool :=
  match s.cmp.proof with
  | some p => p.injected && p.layer == l && p.kind == k && p.frame == (galOf s (layOf s l).gallery).frame
  | none => false

/-- The age of a layer's leased frame at a sample, with the proof's injection. -/
def leaseAge (s : State) (l : Nat) (k : Lease) (now : Int) : Int :=
  ageNs now k.frame.captureFull (allowance k.frame) + (if injectedNow s l 0 then 2001000000 else 0)

/-- DEADLINE_MS and WARN_PCT in force for a layer (R338). -/
def deadlineOf (x : Layer) : Nat × Nat := x.override.getD (x.desc.deadline, x.desc.warn)

/-- The verdict of an age (R337). -/
def ageVerdict (x : Layer) (age : Int) : Verdict × Cause :=
  let d := deadlineOf x
  let dl : Int := d.1 * 1000000
  if dl ≤ age then (.stale, .age) else if dl * d.2 / 100 < age then (.aged, .age) else (.live, .none)

/-- The frozen test of a layer at a sample (R339, R340). -/
def frozenCause (s : State) (l : Nat) (k : Lease) (now : Int) : Option Cause :=
  let x := layOf s l
  if injectedNow s l 1 then some (if x.desc.motion = 2 then .tick else .noisy)
  else if x.desc.motion = 1 ∧ x.desc.frozenN ≤ x.run then some .noisy
  else if x.desc.motion = 2 ∧ now - x.tickLast + allowance k.frame * 1000000 ≥ (x.desc.tickMs : Int) * 1000000 then some .tick
  else none

/-- The tiles of a frame that the tick window touches, in index order (R340). -/
def tickTiles (x : Layer) (p : Place) : List Nat :=
  let d := x.desc
  (upto (tileCount p)).filter fun t =>
    let c := tileX p.w (t % tilesPerRow p.w)
    let r := tileY p.h (t / tilesPerRow p.w)
    decide (c.1 < d.tickX + d.tickW) && decide (d.tickX < c.2) && decide (r.1 < d.tickY + d.tickH) && decide (d.tickY < r.2)

/-- The tick digest of a leased frame, from the CRCs of its record (R340). -/
def tickDigest (s : State) (x : Layer) (k : Lease) : State × Nat :=
  let p := placeOf s k
  let r := (tickTiles x p).foldl (fun (acc : State × List Byte) t =>
    let b := busRead acc.1 (80 + rd s F.CMP_CNV_CFG_ENGINE x.desc.canvas) (recordAddr p + 64 + 4 * t) 4
    let blk := addressBlock s.straps.device domSource k.frame.source k.frame.seq t k.base
    (b.1, acc.2 ++ leBytes (unfoldSeal (BitVec.ofNat 32 (leNat b.2.2)) blk (tileLen p.fmt p.w p.h t)).toNat 4)) (s, [])
  (r.1, (crc32c r.2).toNat)

/-- What a latch does with the run count and the tick of a layer (R339 to R341): a layer that starts keeps nothing, with a lease or
without, and the first frame it then leases is its first. -/
def frozenLatch (s : State) (l : Nat) : State :=
  let x := layOf s l
  match x.lease with
  | none => if x.started then setLay s l { x with run := 0, tickLast := 0, prevSeq := none } else s
  | some k =>
    let f := k.frame
    let r := if x.desc.motion = 2 then tickDigest s x k else (s, x.tickDigest)
    let new : Layer :=
      if x.started || x.prevSeq.isNone then
        { x with run := 1, tickLast := f.captureFull, prevContent := f.content, tickDigest := r.2, prevSeq := some f.seq }
      else if serialLater 32 f.seq (x.prevSeq.getD 0) then
        { x with
          run := if f.content = x.prevContent then min 255 (x.run + 1) else 1
          tickLast := if r.2 = x.tickDigest then x.tickLast else f.captureFull
          prevContent := f.content
          tickDigest := r.2
          prevSeq := some f.seq }
      else x
    setLay r.1 l new

/-! ### The raw verdict (R334, R342) -/

/-- The cause of row 1 of R342, in the order of its list. -/
def checkCause (x : Layer) : Option Cause :=
  if x.hdrFail then some .header else if x.cropFail then some .cropOut else if x.tileFail then some .tile
  else if x.cut.isSome then some .cut else if x.tableFail then some .table else if x.glassFail then some .glass else none

/-- The leased sequence is marked FUTURE, or the age at this sample marks it (R334). -/
def isFuture (s : State) (k : Lease) (age : Int) : Bool :=
  decide (age < -1000) || (srcOf s k.frame.source).future.contains k.frame.seq

/-- The frame from which a layer was flattened into the planes that its canvas composes through, while its source has a CURRENT
buffer (R282, R286). -/
def flattenedFrame (s : State) (l : Nat) : Option Frame :=
  let x := layOf s l
  if usesPlanes s x.desc.canvas && (srcOf s x.desc.source).cur.isSome then
    ((cnvOf s x.desc.canvas).planes.bind fun p => p.frames.find? fun e => e.1 == l).map (·.2)
  else none

/-- The raw verdict of a layer that is shown through a plane, on the rows of R342 marked S. -/
def planeVerdict (s : State) (f : Frame) : Verdict × Cause :=
  if f.concealed || f.rapWait then (.unverified, .concealed)
  else if (srcOf s f.source).future.contains f.seq then (.unverified, .future)
  else if f.static then (.static, .none) else (.unverified, .staticMismatch)

/-- The raw verdict of a layer at a sample time (R342). -/
def rawVerdict (s : State) (l : Nat) (now : Int) : Verdict × Cause :=
  let x := layOf s l
  match checkCause x, x.lease with
  | some c, _ => (.unverified, c)
  | none, none => match flattenedFrame s l with | some f => planeVerdict s f | none => (.absent, .noFrame)
  | none, some k =>
    let age := leaseAge s l k now
    if k.frame.concealed || k.frame.rapWait then (.unverified, .concealed)
    else if isFuture s k (ageNs now k.frame.captureFull (allowance k.frame)) then (.unverified, .future)
    else if x.desc.static then (if k.frame.static then (.static, .none) else (.unverified, .staticMismatch))
    else match frozenCause s l k now with
      | some c => (.frozen, c)
      | none => ageVerdict x age

/-- The age a label and a status show, in ns; none where no age exists (R354). A layer shown through a plane has the age of the frame it was
flattened from; one that took no lease shows the age of its source's last capture. -/
def shownAge (s : State) (l : Nat) (now : Int) : Option Nat :=
  let x := layOf s l
  match x.lease, flattenedFrame s l with
  | some k, _ => let a := leaseAge s l k now
    if a < 0 then none else some a.toNat
  | none, some f => let a := ageNs now f.captureFull (allowance f)
    if a < 0 then none else some a.toNat
  | none, none => if x.tableFail then none
    else (srcOf s x.desc.source).lastCapture.bind fun c => let a := ageNs now c 0; if a < 0 then none else some a.toNat

/-- The frame that an evaluation of a layer is made on: the leased one, or the one it was flattened from (R286, R333). -/
def evaluatedFrame (s : State) (l : Nat) : Option Frame := ((layOf s l).lease.map fun k => k.frame).or (flattenedFrame s l)

/-- An evaluation that finds a stamp from the future marks the leased sequence (R334). -/
def markFuture (s : State) (l : Nat) (now : Int) : State :=
  match evaluatedFrame s l with
  | none => s
  | some f =>
    if ageNs now f.captureFull (allowance f) < -1000 ∧ !(srcOf s f.source).future.contains f.seq then
      raise (updSrc s f.source fun x => { x with future := f.seq :: x.future }) K.LDG_EVENT_FUTURE
    else s

/-! ### Painting and labels (R351, R354 to R356) -/

/-- The tile row that holds the first line of a layer's label box (R355, R356). -/
def labelRow (s : State) (l : Nat) : Nat :=
  let x := layOf s l
  match layerRegion s l with
  | some q => (max q.2.1 (firstPaint x.paint * 16) + 8) / 16
  | none => 0

/-- The label of a painted layer is fixed once the evaluation of its row has been reached (R356). -/
def fixLabel (s : State) (l row : Nat) : State :=
  let x := layOf s l
  if x.paint.isEmpty || x.label.isSome || decide (row < labelRow s l) then s
  else setLay s l { x with label := some (x.verdict, (ageAt x (labelRow s l)).map (· / 100000000)) }

/-- A layer's region is painted from a tile row on under a verdict (R351, R352). -/
def paintFrom (s : State) (l row : Nat) (v : Verdict) (c : Cause) : State :=
  updLay s l fun x => { x with paint := { row := row, verdict := v, hatch := paintsHatch v c x.desc.glaze } :: x.paint }

/-- A check in composition fails in tile row `row`: the region is painted from that row at once (R331), as UNVERIFIED. A label whose row has
been evaluated already is fixed with the age of that evaluation (R356). -/
def paintCheck (s : State) (l row : Nat) : State :=
  let s := updLay s l fun x =>
    { x with paint := { row := row, verdict := .unverified, hatch := true } :: x.paint, hist := (row, .unverified) :: x.hist }
  let x := layOf s l
  if x.label.isNone && decide (labelRow s l < (galOf s x.gallery).rowDone) then
    setLay s l { x with label := some (.unverified, (ageAt x (labelRow s l)).map (· / 100000000)) }
  else s

/-- The first tile row of a gallery's present frame that is composed after now; past the last row once the frame has ended (R351). -/
def nextRow (s : State) (g : Nat) : Nat :=
  let x := galOf s g
  let v := rd s F.CNV_GAL_HV_VACT g
  if x.line < v then (x.line + 32) / 16 + 1
  else if !x.latched then tileRows v
  else
    let left := x.latchLine + latchLead s g - (x.line - v)
    if 32 < left then 0 else (32 - left) / 16 + 1

/-- The tiles of a row of canvas `c` that a mask names. -/
def maskTiles (s : State) (c mask : Nat) : List Nat := (upto (tilesPerRow (canvasW s c))).filter fun t => bitOn mask t

/-- A region covers one of the canvas tiles of tile row `row` that a mask names. -/
def coversTile (s : State) (c row mask l : Nat) : Bool :=
  let w := canvasW s c
  match layerRegion s l with
  | some q => decide (q.2.1 < row * 16 + 16) && decide (row * 16 < q.2.2.2) &&
      (maskTiles s c mask).any fun t => decide (q.1 < (tileX w t).2) && decide ((tileX w t).1 < q.2.2.1)
  | none => false

/-- Tiles of a tile row of canvas `c` mismatch at the Glass tap, as a mask: GLASS_TILE for each, the regions that cover them become
UNVERIFIED with cause GLASS, painted from the next row composed, and the canvas is marked (R351, R361). `own` names the layer under a proof
of kind GLASS and the mask that its injected reference gives: that layer alone is judged by it, and it counts for nothing else (R370,
R372). -/
def glassMismatch (s : State) (c row mask : Nat) (own : Option (Nat × Nat) := none) : State :=
  let next := nextRow s (galleryOf s c)
  let hit := (evaluatedOn s c).filter fun l => coversTile s c row (match own with | some o => if o.1 = l then o.2 else mask | none => mask) l
  let s := each (maskTiles s c mask) (fun s _ => raise s K.LDG_EVENT_GLASS_TILE) s
  let s := each hit (fun s l => paintCheck (updLay s l fun x => { x with glassFail := true, glassRow := some (x.glassRow.elim next (min next)) }) l next) s
  let real := !(maskTiles s c mask).isEmpty
  updCnv s c fun x =>
    { x with
      glassBad := x.glassBad || real
      glassTiles := if real then (row, mask) :: x.glassTiles else x.glassTiles
      glassMark := x.glassMark || real || !hit.isEmpty }

/-! ### Reported verdicts (R345, R367) -/

/-- An age in ms, saturating; where a layer has no age, what a field shows for it is a free value, since the spec gives none (log entry
103). -/
def ageMs (s : State) (x : Layer) (limit : Nat) : Nat :=
  match x.age with | some a => min limit (a / 1000000) | none => freeNat s % (limit + 1)

/-- A VERDICT entry (R367, R368): requested unless 4 of the layer were appended in the 1,000 ms before it. -/
def verdictEntry (s : State) (l old row : Nat) : State :=
  let x := layOf s l
  let now := fabCyc s
  let recent := x.entries.filter fun t => decide (now < t + 1100000000)
  if recent.length ≥ 4 then setLay s l { x with entries := recent, suppressed := x.suppressed + 1 }
  else
    let g := galOf s x.gallery
    let s := setLay s l { x with entries := now :: recent, suppressed := 0 }
    askJournal (also x.age.isNone draw s) rankLedger 0x0010 (leBytes l 2 ++
      [BitVec.ofNat 8 x.desc.canvas, BitVec.ofNat 8 (old + 16 * verdictCode x.verdict)] ++ leBytes x.desc.source 2 ++
      [BitVec.ofNat 8 (causeCode x.cause), BitVec.ofNat 8 row] ++
      leBytes (match x.lease with | some k => k.frame.seq | none => 0) 4 ++ leBytes g.frame 4 ++
      leBytes (ageMs s x 0xFFFFFFFF) 4 ++ leBytes g.epoch 4 ++ [BitVec.ofNat 8 (min 255 x.suppressed)])

/-- A proof's fault has substituted layer `l`, and its region has not returned: what follows counts towards no event count (R372). -/
def underProof (s : State) (l : Nat) : Bool := (layOf s l).injected

/-- A layer's reported verdict becomes `v` with cause `c` (R345): painted from `row`, entered in the Journal and flagged. A layer that
starts has no held verdict (R349); what its entry shows as the old one is free. -/
def report (s : State) (l row : Nat) (v : Verdict) (c : Cause) : State :=
  let x := layOf s l
  let held := substituted x.verdict && !x.started
  let old := if x.started then freeNat s % 7 else verdictCode x.verdict
  let s := also x.started draw (setLay s l { x with verdict := v, cause := c, hist := (row, v) :: x.hist,
                                                    injected := x.injected && substituted v })
  let s := also (substituted v) (fun s => paintFrom s l row v c) s
  let s := also (substituted v && !held && !underProof s l) (fun s => raise s K.LDG_EVENT_SUBST) s
  if (held || substituted v) && !(held && v == x.verdict) then verdictEntry s l old row else s

/-- An evaluation of a layer within a canvas frame (R345): only a more severe raw verdict changes what is reported, and any substituted
one ends a proving frame, which stays UNVERIFIED with that cause. -/
def evalRow (s : State) (l row : Nat) (now : Int) : State :=
  let s := markFuture s l now
  let raw := rawVerdict s l now
  let age := shownAge s l now
  let s := updLay s l fun x =>
    { x with age := age, ages := (row, age) :: x.ages, row := row, evaluated := true, rawSubst := x.rawSubst || substituted raw.1 }
  let x := layOf s l
  let proving := x.verdict == .unverified && x.cause == .proving
  let s := if proving && substituted raw.1 then report s l row .unverified raw.2
    else if severity x.verdict < severity raw.1 then report s l row raw.1 raw.2 else s
  fixLabel s l row

/-- What the checks of a frame found after its last evaluation is reported before the latch (R331, R345). -/
def settleChecks (s : State) (l : Nat) : State :=
  match checkCause (layOf s l), regionRows s l with
  | some c, some q =>
    let x := layOf s l
    let s := setLay s l { x with rawSubst := true }
    if severity x.verdict < severity .unverified ∨ x.cause = .proving then report s l q.2 .unverified c else s
  | _, _ => s

/-- The Glass check has matched every canvas tile that a layer covers, as far as R346 asks (R360). -/
def glassMatched (s : State) (l : Nat) : Bool :=
  let x := layOf s l
  rd s F.CNV_CTRL_OUT_KIND x.desc.canvas == 0 ||
    (!x.glassFail && match regionRows s l with | some q => decide (q.2 < (cnvOf s x.desc.canvas).glassRows) | none => false)

/-- Every tile that a layer's region uses in its canvas frame has been fetched and has verified, with the header: of the leased frame where it
is composed directly, of the planes where it is shown through one (R346, R358). -/
def tilesVerified (s : State) (l : Nat) : Bool :=
  let x := layOf s l
  match layerRegion s l, regionRows s l with
  | some q, some r =>
    if x.lease.isSome then
      x.hdrOk && (checkCause x).isNone && (upto (r.2 + 1 - r.1)).all fun k => rowArrived s l (r.1 + k)
    else
      let w := canvasW s x.desc.canvas
      (cnvOf s x.desc.canvas).planeBad.all fun t =>
        !(decide (q.1 < t % tilesPerRow w * 128 + 128) && decide (t % tilesPerRow w * 128 < q.2.2.1) &&
          decide (r.1 ≤ t / tilesPerRow w) && decide (t / tilesPerRow w ≤ r.2))
  | _, _ => true

/-- The frame that ends at this latch has proved the layer: every fetched tile, every evaluation and the Glass check (R346). -/
def proved (s : State) (l : Nat) : Bool :=
  let x := layOf s l
  x.verdict == .unverified && x.cause == .proving && !x.rawSubst && tilesVerified s l && glassMatched s l

/-- The latch evaluation of a layer (R345, R349), given whether the frame that ended proved it. -/
def evalLatch (s : State) (l : Nat) (now : Int) (ok : Bool) : State :=
  let s := markFuture s l now
  let raw := rawVerdict s l now
  let age := shownAge s l now
  let s := updLay s l fun x => { x with age := age, ages := [(0, age)], row := 0, evaluated := true, rawSubst := substituted raw.1 }
  let x := layOf s l
  let proof := underProof s l
  let keep := substituted x.verdict && !x.started && !substituted raw.1 && !ok
  let s := if keep then report s l 0 .unverified .proving else report s l 0 raw.1 raw.2
  let s := also (substituted x.verdict && !x.started && ok && !substituted raw.1 && !proof)
    (fun s => raise s K.LDG_EVENT_RESTORED) s
  let s := updLay s l fun x => { x with started := false, injected := x.injected && !x.started }
  if latchRows s x.gallery = 0 then s else fixLabel s l (latchRows s x.gallery - 1)

/-! ### The Watch words (R363 to R366) -/

/-- The link that carries a canvas is down (R131, R365, R537): its DisplayPort transmitter is not trained, the egress port of the send entry
that names it is down, or its Ndosin port is not LINKED with LINE. -/
def linkDown (s : State) (c : Nat) : Bool :=
  let i := rd s F.CNV_CTRL_OUT_INDEX c
  match rd s F.CNV_CTRL_OUT_KIND c with
  | 1 => rd s F.LANE_DPTX_STATUS_STATE i != 2
  | 2 =>
    let l := (sendEntries s).filter fun e => sendCanvas e.2 == c
    !l.isEmpty && l.all fun e => !rdb s F.NET_MAC_STATUS_LINK_UP (sendPort e.2)
  | 3 => !featureOn s i 0
  | _ => false

/-- OUTPUT of a canvas word (R365). -/
def outputCode (s : State) (c : Nat) : Nat :=
  if (cnvOf s c).dark || !(onCanvas s c || rdb s F.CNV_CTRL_EN c) || !(galOf s (galleryOf s c)).locked || linkDown s c then 2
  else if inGesso s c then 1
  else if (s.tnd.cnvs.get c {}).stream = 1 then 3
  else 0

/-- The reported verdicts that a canvas word counts: the Ledger's, or those of the twin's records while its stream is passed, where a mismatch found
here makes a region UNVERIFIED (R361, R385). -/
def wordVerdicts (s : State) (c : Nat) : List Verdict :=
  if (s.tnd.cnvs.get c {}).stream = 1 then
    let recs := sortBy (fun a b => decide (a.row ≤ b.row))
      (s.tnd.twin.filter fun r => r.canvas == c && r.frame == (galOf s (galleryOf s c)).frame % 2 ^ 32)
    (recs.foldl (fun (m : Map Nat) r => r.regions.foldl (fun m e => m.put e.layer e.verdict) m) []).map fun e =>
      if (layOf s e.1).glassFail then .unverified else verdictOf e.2
  else (evaluatedOn s c).map fun l => (layOf s l).verdict

/-- A canvas word without UPD (R365). -/
def canvasWord (s : State) (c : Nat) : Nat :=
  let x := cnvOf s c
  let vs := wordVerdicts s c
  let out := outputCode s c
  let worst := vs.foldl (fun a v => if severity a < severity v then v else a) .static
  let v := if out = 1 ∨ out = 2 then 5 else verdictCode worst
  let n := (vs.filter substituted).length
  v + 8 * bit (decide (0 < n) || out == 1 || out == 2 || x.glassFail) + 16 * out + 64 * bit (x.glassMark || x.glassPrev) +
    128 * bit x.cutNow + 256 * min 64 n + 2 ^ 15 * min 64 (vs.filter (· == .aged)).length

/-- SUBST and N_SUBST of a canvas word. -/
def wordSubst (w : Nat) : Bool := bitOn w 3
def wordCount (w : Nat) : Nat := slice w 8 7

/-- A canvas's word is written with the update count of its gallery (R364): a change of SUBST is signalled (R657), and N_SUBST leaving 0 may
start a capture (R498). -/
def writeWord (s : State) (c : Nat) : State :=
  let old := (cnvOf s c).word
  let new := canvasWord s c + 2 ^ 28 * (galOf s (galleryOf s c)).upd
  let s := updCnv s c fun x => { x with word := new }
  let s := also (wordSubst old != wordSubst new) (fun s => signal s (160 + c)) s
  evidAuto s c (wordCount old) (wordCount new)

/-- The watched canvases (R365). -/
def watched (s : State) (c : Nat) : Bool := rdb s F.CNV_CTRL_EN c || bitOn (rd s F.LDG_WATCH_EXPECT_CANVASES) c

/-- Watched canvases whose word has SUBST at 1. -/
def alerting (s : State) : Nat := ((upto 32).filter fun c => watched s c && wordSubst (cnvOf s c).word).length

/-- The summary word without DEVICE and UPD_ALL, and WP_ALERT_N (R365). -/
def writeSummary (s : State) : State :=
  let n := alerting s
  let alert := decide (0 < n) || s.dmc.holdClock
  let glass := (upto 32).any fun c => (cnvOf s c).glassFail
  { s with cmp := { s.cmp with
      alert := alert
      summary := 64 * bit alert + 128 * rd s F.DMC_GSTATUS_HOLD + 256 * n + 2 ^ 14 * rd s F.PTP_STATE_LOCKED + 2 ^ 15 * bit glass +
        2 ^ 16 * bit s.cmp.proof.isSome } }

/-- The words of a gallery and its canvases, the Tandem word, the summary and the words of its time are updated at one edge (R364); updates
stop while a self-test runs, and in Still (R365, R642). -/
def watchUpdate (s : State) (g : Nat) (now : Int) : State :=
  if s.pwr.bist.isSome || s.pwr.phase == .still then s else
  let s := updGal s g fun x =>
    let u := (x.upd + 1) % 16
    { x with upd := u,
             word := rd s F.CNV_GAL_CTRL_EN g + 2 * bit x.forced + 4 * bit x.pend.isSome + 2 ^ 8 * (x.epoch % 256) + 2 ^ 16 * (x.frame % 256) +
               2 ^ 28 * u }
  let s := each ((upto 32).filter fun c => galleryOf s c == g) writeWord s
  let t := rd s F.TND_STATUS_PAIRED + 4 * bit (claimWins s) + 8 * rd s F.TND_STATUS_TWIN_SUSPECT + 16 * rd s F.TND_STATUS_SELF_SUSPECT +
    32 * rd s F.TND_STATUS_TWIN_LOST + 2 ^ 16 * rd s F.TND_STATUS_CLAIM
  writeSummary { s with cmp := { s.cmp with updAll := (s.cmp.updAll + 1) % 256, updTime := now.toNat, tandem := t } }

/-- The word at an address of the Watch port (R363, R365). -/
def watchWord (s : State) (a : Nat) : Nat :=
  if a = 0 then s.cmp.summary + s.straps.device + 2 ^ 24 * s.cmp.updAll
  else if 1 ≤ a ∧ a ≤ 0x20 then (cnvOf s (a - 1)).word
  else if 0x21 ≤ a ∧ a ≤ 0x28 then (galOf s (a - 0x21)).word
  else if a = 0x30 then s.cmp.tandem + 2 * bit s.straps.position
  else if a = 0x31 then s.cmp.updTime % 2 ^ 32
  else if a = 0x32 then s.cmp.updTime / 2 ^ 32 % 2 ^ 32
  else if a = 0x3F then 1
  else 0

/-- WATCH_PORT_READ: the port returns a whole word; in reset and in Still it drives nothing (R363, R365). -/
def execWatchPortRead (addr : BitVec 8) (s : State) : Host.Outcome State Fault Refusal :=
  .next (if s.pwr.phase = .main then emit s (.watch (watchWord s addr.toNat)) else s)

/-! ### The proof test (R369 to R372) -/

/-- A proof entry (R368): type 0x0011 PROOF_START or 0x0012 PROOF_RESULT, with its RESULT and FAILED_STEP. -/
def proofEntry (s : State) (p : Proof) (ty result step : Nat) : State :=
  let x := layOf s p.layer
  askJournal s rankLedger ty (leBytes p.layer 2 ++ [BitVec.ofNat 8 x.desc.canvas, BitVec.ofNat 8 (p.kind + 16 * result)] ++
    leBytes x.desc.source 2 ++ [BitVec.ofNat 8 step, BitVec.ofNat 8 p.row] ++ leBytes p.seq 4 ++ leBytes p.frame 4 ++
    leBytes p.seen 4 ++ leBytes (galOf s x.gallery).epoch 4 ++ [BitVec.ofNat 8 p.alertLow])

/-- The proof ends: 0 passed, or the failed step (R371). -/
def endProof (s : State) (p : Proof) (failed : Nat) : State :=
  let ok := decide (failed = 0)
  let s := { s with cmp := { s.cmp with proof := none } }
  let s := wr0 (wr0 (wr0 s F.LDG_PROOF_STATUS_BUSY 0) F.LDG_PROOF_STATUS_RESULT (if ok then 1 else 2)) F.LDG_PROOF_STATUS_FAILED_STEP failed
  raise (proofEntry s p 0x0012 (if ok then 1 else 2) failed) (if ok then K.LDG_EVENT_PROOF_DONE else K.LDG_EVENT_PROOF_FAIL)

/-- Why a proof is refused, as REFUSE; 0 when it starts (R369, R377). -/
def proofRefusal (s : State) (l kind row : Nat) : Nat :=
  let x := layOf s l
  if s.cmp.proof.isSome then 1
  else if !evaluable s l then 2
  else if substituted x.verdict then 3
  else if (match regionRows s l with | some q => decide (row < q.1) || decide (q.2 < row) | none => true) then 4
  else if x.desc.static && decide (kind < 2) then 5
  else 0

/-- A proof of a layer starts, or is refused (R369, R371). The flag says whether it was accepted. -/
def proofStart (s : State) (l kind row : Nat) : State × Bool :=
  let c := proofRefusal s l kind row
  if c ≠ 0 then (raise (wr0 s F.LDG_PROOF_STATUS_REFUSE c) K.LDG_EVENT_PROOF_REFUSED, false)
  else
    let p : Proof := { layer := l, kind := kind, row := row }
    let s := { s with cmp := { s.cmp with proof := some p } }
    let s := wr0 (wr0 (wr0 s F.LDG_PROOF_STATUS_BUSY 1) F.LDG_PROOF_STATUS_RESULT 0) F.LDG_PROOF_STATUS_FAILED_STEP 0
    (proofEntry s p 0x0011 0 0, true)

/-- PROOF_START: a write of LDG_PROOF_CMD (R369, R377). -/
def execProofStart (value : BitVec 32) (s : State) : Host.Outcome State Fault Refusal :=
  let v := value.toNat
  .next (if bitOn v 31 then (proofStart s (slice v 0 10) (slice v 10 2) (slice v 12 8)).1 else s)

/-- The verdict that a proof kind expects (R370). -/
def proofExpects (kind : Nat) : Verdict := if kind = 0 then .stale else if kind = 1 then .frozen else .unverified

/-- The proof changed. -/
def setProof (s : State) (p : Proof) : State := { s with cmp := { s.cmp with proof := some p } }

/-- The proof's fault enters (R370): its frame and leased sequence are noted. -/
def injectProof (s : State) (p : Proof) : State :=
  let x := layOf s p.layer
  setProof (setLay s p.layer { x with injected := true }) { p with injected := true, frame := (galOf s x.gallery).frame, seq := match x.lease with | some k => k.frame.seq | none => 0 }

/-- The proof that waits to inject kind `kind` into layer `l`, in a canvas frame latched after its acceptance. -/
def proofWaits (s : State) (l kind : Nat) : Option Proof :=
  match s.cmp.proof with
  | some p => if p.layer = l ∧ p.kind = kind ∧ !p.injected ∧ 1 ≤ p.frames then some p else none
  | none => none

/-- Before the evaluation of rows up to `hi` from `lo` on in gallery `g`, the Ledger injects AGE or FROZEN at the evaluation of ROW
(R370). -/
def injectAtRow (s : State) (g lo hi : Nat) : State :=
  match s.cmp.proof with
  | some p =>
    if p.kind < 2 ∧ !p.injected ∧ 1 ≤ p.frames ∧ lo ≤ p.row ∧ p.row ≤ hi ∧ (layOf s p.layer).gallery = g then injectProof s p else s
  | none => s

/-- Steps 1 and 2 are judged at the first evaluation that can show the fault, as far as tile row `row`: of the layer, or, once its last row has
passed, of the rows or the frame after it (R371). -/
def judgePaint (s : State) (ls : List Nat) (row : Nat) : State :=
  match s.cmp.proof with
  | none => s
  | some p =>
    let x := layOf s p.layer
    if !p.injected ∨ p.step ≠ 1 ∨ !ls.contains p.layer then s
    else
      let q := { p with seen := verdictCode x.verdict }
      if x.verdict ≠ proofExpects p.kind then endProof s q 1
      else if !(x.paint.any fun k => decide (k.row ≤ max row p.row)) then endProof s q 2
      else setProof s { q with step := 3, painted := firstPaint x.paint }

/-- Step 3 is judged at the update that follows (R371). -/
def judgeWord (s : State) : State :=
  match s.cmp.proof with
  | none => s
  | some p =>
    if p.step ≠ 3 then s
    else
      let q := { p with alertLow := bit (!s.cmp.alert) }
      if wordSubst (cnvOf s (layOf s p.layer).desc.canvas).word && s.cmp.alert then setProof s { q with step := 4, frames := 0 } else endProof s q 3

/-- The proof after the update of an evaluation of the layers `ls`, or past them, as far as tile row `row`. -/
def judgeProof (s : State) (ls : List Nat) (row : Nat) : State := judgeWord (judgePaint s ls row)

/-- The proof at a latch of gallery `g`, before the latch evaluation: the frame of injection comes, or has passed with no place found for
the fault, or the layer is no longer shown (R370, R371). -/
def proofFrame (s : State) (g : Nat) : State :=
  match s.cmp.proof with
  | none => s
  | some p =>
    if (layOf s p.layer).gallery ≠ g then s
    else if !evaluable s p.layer then endProof s p p.step
    else if p.injected then s
    else if 1 ≤ p.frames then endProof s p 1
    else setProof s { p with frames := 1 }

/-- Step 4 of a proof as far as the comparisons of the painted rows are held: none while one of them is not (R371). A canvas with no Glass
check meets it (R360). -/
def proofGlass (s : State) (p : Proof) : Option Bool :=
  let c := (layOf s p.layer).desc.canvas
  let k := cnvOf s c
  let stop := match regionRows s p.layer with | some q => q.2 + 1 | none => p.painted
  if rd s F.CNV_CTRL_OUT_KIND c = 0 then some true
  else if k.glassTiles.any fun t => decide (p.painted ≤ t.1 ∧ t.1 < stop) then some false
  else if stop ≤ k.glassRows then some true
  else none

/-- Step 4 is judged while the Glass state of the frame of injection stands; comparisons that are not held wait while they may still come
(R361, R371). -/
def proofStep4 (s : State) : State :=
  match s.cmp.proof with
  | none => s
  | some p =>
    if p.step ≠ 4 then s
    else match proofGlass s p with
      | some true => setProof s { p with step := 5 }
      | some false => endProof s p 4
      | none => if (cnvOf s (layOf s p.layer).desc.canvas).glassOn then s else endProof s p 4

/-- The proof at a latch of gallery `g`, after the latch evaluation: step 4, and step 5: the region returns by proving, which `ok` says of the
frame that ended, within 4 frames (R371). -/
def proofLatch (s : State) (g : Nat) (ok : List Nat) : State :=
  match s.cmp.proof with
  | none => s
  | some p =>
    if (layOf s p.layer).gallery ≠ g ∨ p.step < 4 ∨ p.frame = (galOf s g).frame then s
    else
      let s := proofStep4 (setProof s { p with frames := p.frames + 1 })
      match s.cmp.proof with
      | none => s
      | some p =>
        if p.step < 5 then s
        else if !substituted (layOf s p.layer).verdict then endProof s p (if ok.contains p.layer then 0 else 5)
        else if p.frames ≥ 4 then endProof s p 5
        else s

/-! ### Evaluations -/

/-- TILE_ROW_EVALUATION: at the boundary of a tile row that falls after the latch, the Ledger samples time once, evaluates every region
that intersects the row, and updates the words, which take what the checks of the rows before found (R328 to R331, R342, R345, R364). -/
def execTileRowEvaluation (g : Fin 8) (row : BitVec 8) (s : State) : Host.Outcome State Fault Refusal :=
  let r := row.toNat
  if !(rdb s F.CNV_GAL_CTRL_EN g.val && (galOf s g.val).locked && rowAfterLatch s g.val r && rowBoundary s g.val r &&
      decide (r < tileRows (rd s F.CNV_GAL_HV_VACT g.val) ∧ (galOf s g.val).rowDone ≤ r)) then .next s
  else
    let now : Int := cmpNs s
    let s := updGal (injectAtRow (draw s) g.val r r) g.val fun x => { x with rowDone := r + 1 }
    let past := (evaluatedIn s g.val).filter fun l => match regionRows s l with | some q => decide (q.2 < r) | none => false
    let s := each past settleChecks s
    let ls := (evaluatedIn s g.val).filter fun l => match regionRows s l with | some q => decide (q.1 ≤ r) && decide (r ≤ q.2) | none => false
    let s := each ls (fun s l => evalRow s l r now) s
    .next (judgeProof (watchUpdate s g.val now) (ls ++ past) r)

/-- The Ledger's part of a latch of gallery `g` at a sample time: frozen tests, then every region's latch evaluation, then the words
(R339 to R342, R345). -/
def ledgerLatch (s : State) (g : Nat) (now : Int) (ok : List Nat) : State :=
  let ls := evaluatedIn s g
  let s := each ls frozenLatch s
  let s := proofFrame (updGal s g fun x => { x with rowDone := latchRows s g }) g
  let s := if latchRows s g = 0 then s else injectAtRow s g 0 (latchRows s g - 1)
  let s := each ls (fun s l => evalLatch s l now (ok.contains l)) s
  let off := fun (e : Nat × Layer) => if e.2.gallery = g ∧ e.1 ∉ ls then (e.1, { e.2 with evaluated := false }) else e
  let s := { s with eas := { s.eas with layers := s.eas.layers.map off } }
  let s := watchUpdate s g now
  proofLatch (judgeWord (if latchRows s g = 0 then s else judgePaint s ls (latchRows s g - 1))) g ok

/-! ### Registers -/

/-- LDG_SET_DL (R338, R375). -/
def setDeadline (s : State) (l dl warn : Nat) : State × Bool :=
  let x := layOf s l
  if !(x.committed && x.desc.shown) || x.desc.static || dl = 0 || decide (2000 < dl) || decide (100 < warn) then
    (raise s K.LDG_EVENT_SET_REFUSED, false)
  else (setLay s l { x with override := some (dl, warn) }, true)

/-- SET_DEADLINE: a write of LDG_SET_DL for a layer (R338, R375). -/
def execSetDeadline (layer : Fin 1024) (value : BitVec 32) (s : State) : Host.Outcome State Fault Refusal :=
  .next (setDeadline s layer.val (slice value.toNat 10 11) (slice value.toNat 21 7)).1

/-- LDG_LAYER_STATUS of a layer (R378). -/
def layerStatus (s : State) (l : Nat) : Nat :=
  let x := layOf s l
  verdictCode x.verdict + 8 * bit x.evaluated + 16 * causeCode x.cause + 2 ^ 8 * bit (srcOf s x.desc.source).rapWait +
    2 ^ 9 * x.run + 2 ^ 20 * x.desc.source + 2 ^ 32 * ageMs s x 65535 + 2 ^ 48 * (x.row % 256)

end Sys2Proof.Machine
end

