-- ==== Sys2Proof/Machine/Tandem.lean ====
section
/-!
DEFINITION. Tandem: heartbeats, claims, stream selection, shadow comparison, mirrors, takeover and resync (R379 to R404).
-/

namespace Sys2Proof.Machine

def tgalOf (s : State) (g : Nat) : TwinGallery := s.tnd.gals.get g {}
def updTgal (s : State) (g : Nat) (f : TwinGallery → TwinGallery) : State :=
  { s with tnd := { s.tnd with gals := s.tnd.gals.put g (f (tgalOf s g)) } }
def tcnvOf (s : State) (c : Nat) : TwinCanvas := s.tnd.cnvs.get c {}
def updTcnv (s : State) (c : Nat) (f : TwinCanvas → TwinCanvas) : State :=
  { s with tnd := { s.tnd with cnvs := s.tnd.cnvs.put c (f (tcnvOf s c)) } }

/-- The galleries that are paired. -/
def pairedGalleries (s : State) : List Nat := (upto 8).filter fun g => paired s g

/-- MISS of TND_STATUS: the highest miss count among paired galleries (R404). -/
def showMiss (s : State) : State := wr0 s F.TND_STATUS_MISS (min 15 (((pairedGalleries s).map fun g => (tgalOf s g).miss).foldl max 0))

/-- SELF_SUSPECT is set with a SUSPECT event (R390, R393); an entry names canvas and row. -/
def suspectSelf (s : State) (canvas row g : Nat) : State :=
  tandemEntry (raise (wr0 s F.TND_STATUS_SELF_SUSPECT 1) K.TND_EVENT_SUSPECT) 4 canvas row g

/-- The device enters RESYNC (R398): its images are asked for anew, unless it is in RESYNC already. -/
def enterResync (s : State) (g : Nat) : State :=
  let again := rd s F.TND_STATUS_STATE == tndResync
  let s := each (upto 8) (fun s g => updTgal s g fun x => { x with clean := 0, bad := false, splits := 0 }) s
  let s := { wr0 s F.TND_STATUS_STATE tndResync with tnd := { s.tnd with images := if again then s.tnd.images else [] } }
  tandemEntry s 6 g 0 g

/-! ### Heartbeats (R391 to R393) -/

/-- The bytes of a heartbeat without SUM (R391). -/
def heartbeatBody (s : State) (g : Nat) : List Byte :=
  let x := galOf s g
  [2, BitVec.ofNat 8 (rd s F.TND_STATUS_STATE + 4 * rd s F.TND_STATUS_FAULT + 8 * rd s F.TND_STATUS_SELF_SUSPECT + 16 * bit s.straps.position),
    BitVec.ofNat 8 g, BitVec.ofNat 8 (s.straps.device % 64)] ++ leBytes (rd s F.TND_STATUS_CLAIM) 2 ++ [0, 0] ++ leBytes x.epoch 4 ++
    leBytes x.frame 6 ++ leBytes (rd s F.CNV_GAL_LATCH_SHORT g) 4 ++ List.replicate 6 0

/-- A composer engine that serves a paired canvas has a fault: FAULT is declared (R396). -/
def declareFault (s : State) : State :=
  if (pairedCanvases s).any fun c => (cnvOf s c).gesso.engine then wr0 s F.TND_STATUS_FAULT 1 else s

/-- HEARTBEAT_SEND: the heartbeat owed for a latch of a paired gallery leaves (R391). -/
def execHeartbeatSend (g : Fin 8) (s : State) : Host.Outcome State Fault Refusal :=
  if !(paired s g.val && (tgalOf s g.val).hbDue && rdb s F.TND_CTRL_EN) then .next s
  else
    let s := declareFault s
    .next (sendTandem (updTgal s g.val fun x => { x with hbDue := false }) 1 g.val (withSum (heartbeatBody s g.val)))

/-- A heartbeat's fields; none when it is not valid: its form, its SUM, and a twin of opposite position and another device ID (R379,
R391). -/
def parseHeartbeat (s : State) (l : List Byte) : Option Heartbeat :=
  let fl := leAt l 1 1
  if l.length = 32 ∧ leAt l 0 1 = 2 ∧ leAt l 28 4 = (crc32c (bytesAt l 0 28)).toNat ∧ bitOn fl 4 ≠ s.straps.position ∧
      leAt l 3 1 % 64 ≠ s.straps.device % 64 then
    some { state := fl % 4, fault := bitOn fl 2, suspect := bitOn fl 3, position := bitOn fl 4, gallery := leAt l 2 1 % 8,
           device := leAt l 3 1 % 64, claim := leAt l 4 2, epoch := leAt l 8 4, frame := leAt l 12 6, latch := leAt l 18 4 }
  else none

/-- Distance of two short stamps. -/
def stampDistance (a b : Nat) : Nat := min ((a + 2 ^ 32 - b % 2 ^ 32) % 2 ^ 32) ((b + 2 ^ 32 - a % 2 ^ 32) % 2 ^ 32)

/-- The place in the list of the own latch whose time lies nearest a LATCH stamp (R392). -/
def nearestLatch (l : List OwnLatch) (stamp : Nat) : Option Nat :=
  ((upto l.length).foldl (fun (a : Option (Nat × Nat)) i =>
    let d := stampDistance ((l.getD i {}).time % 2 ^ 32) stamp
    match a with
    | none => some (i, d)
    | some (_, e) => if d < e then some (i, d) else a) none).map (·.1)

/-- The shortest frame of a gallery, in ps (R25, R306). -/
def framePs (s : State) (g : Nat) : Nat :=
  rd s F.CNV_GAL_HV_HTOTAL g * (rd s F.CNV_GAL_HV_VACT g + rd s F.CNV_GAL_VB_VBLANK_MIN g) * 10000 * rd s F.CNV_GAL_PLL_M g /
    max 1 (rd s F.CNV_GAL_PLL_N g)

/-- A LATCH stamp lies so long after the last own latch that the coming one may be nearer to it (R392). -/
def mayComeNearer (s : State) (g : Nat) (last stamp : Nat) : Bool :=
  let d := (stamp + 2 ^ 32 - last % 2 ^ 32) % 2 ^ 32
  decide (d < 2 ^ 31) && decide (framePs s g ≤ 2 * d * 1000)

/-- A heartbeat is paired with an own latch: its gallery's misses end, and its epoch and frame are compared, once for each latch (R392, R393). -/
def pairHeartbeat (s : State) (h : Heartbeat) : State :=
  let g := h.gallery
  let x := tgalOf s g
  match nearestLatch x.latches h.latch with
  | none => s
  | some i =>
    let own := x.latches.getD i {}
    let split := decide (h.epoch ≠ own.epoch) || decide (h.frame ≠ own.frame)
    let resync := rd s F.TND_STATUS_STATE == tndResync
    let n := if resync || !split then 0 else if own.seen then x.splits else x.splits + 1
    let s := updTgal s g fun x => { x with miss := 0, latches := x.latches.set i { own with seen := true }, splits := n }
    let s := showMiss s
    if !split then s
    else
      let s := tandemEntry (raise s K.TND_EVENT_EPOCH_SPLIT) 5 g 0 g
      if !resync ∧ rd s F.TND_CTRL_SPLIT_FRAMES ≤ n ∧ !claimWins s ∧ !rdb s F.TND_STATUS_SELF_SUSPECT then
        draw (suspectSelf s (freeNat s % 256) 0 g)
      else s

/-- A heartbeat is paired with the own latch it lies nearest to, or waits for the coming latch where that may be nearer (R392). -/
def meetHeartbeat (s : State) (h : Heartbeat) : State :=
  let x := tgalOf s h.gallery
  match x.latches with
  | [] => s
  | l :: _ =>
    if mayComeNearer s h.gallery l.time h.latch then updTgal s h.gallery fun x => { x with early := x.early ++ [h] } else pairHeartbeat s h

/-- At an own latch the heartbeats that waited for it are paired with the latches before it, as far as these lie nearer (R392). -/
def meetEarly (s : State) (g now : Nat) : State :=
  let x := tgalOf s g
  let old := x.early.filter fun h => (nearestLatch ({ time := now } :: x.latches) h.latch).any (0 < ·)
  each old pairHeartbeat (updTgal s g fun x => { x with early := x.early.filter fun h => !old.contains h })

/-- Those that wait still are paired with the latch that has come (R392). -/
def meetLate (s : State) (g : Nat) : State :=
  each (tgalOf s g).early pairHeartbeat (updTgal s g fun x => { x with early := [] })

/-- The resync images of the paired galleries are sent, in their sections: every active slot, the epoch and the frame number (R399, R539). -/
def sendImages (s : State) : State :=
  each (pairedGalleries s) (fun s g =>
    let ls := (s.eas.layers.filter fun e => e.2.committed && e.2.gallery == g).map (·.1)
    let r := ls.foldl (fun (acc : State × List (Nat × List Byte)) l =>
      let b := busRead acc.1 52 (activeSlot acc.1 l) 128
      (b.1, acc.2 ++ [(l, b.2.2)])) (s, [])
    each (Config.imageSections g r.2 (galOf s g).epoch (galOf s g).frame) (fun s b => sendTandem s 4 g b) r.1) s

/-- A valid heartbeat is taken (R379, R392, R397, R398). -/
def takeHeartbeat (s : State) (h : Heartbeat) : State :=
  let g := h.gallery
  let fresh := !rdb s F.TND_STATUS_PAIRED
  let wasLost := rdb s F.TND_STATUS_TWIN_LOST
  let asked := h.state == tndResync && (wasLost || match s.tnd.last with | some p => p.state != tndResync | none => true)
  let s := { s with tnd := { s.tnd with last := some h, faultSeen := s.tnd.faultSeen || h.fault } }
  let s := wr0 (wr0 (wr0 (wr0 s F.TND_TWIN_CLAIM h.claim) F.TND_TWIN_DEVICE h.device) F.TND_TWIN_STATE h.state) F.TND_TWIN_FAULT (bit h.fault)
  let s := wr0 s F.TND_STATUS_TWIN_LOST 0
  let s := if !fresh then s
    else
      let s := wr0 s F.TND_STATUS_PAIRED 1
      let s := if h.state = tndActive then wr0 s F.TND_STATUS_CLAIM ((h.claim + 2 ^ 16 - 1) % 2 ^ 16) else s
      tandemEntry s 9 g 0 g
  let s := if fresh then (if claimWins s then wr0 s F.TND_STATUS_STATE tndActive else enterResync s g)
    else
      let late := serialLater 16 h.claim (rd s F.TND_STATUS_CLAIM) && rd s F.TND_STATUS_STATE == tndActive
      let s := if late then tandemEntry (raise (wr0 s F.TND_STATUS_STATE tndStandby) K.TND_EVENT_YIELDED) 2 g 0 g else s
      if wasLost && !claimWins s && rd s F.TND_STATUS_STATE != tndResync then enterResync s g else s
  let s := meetHeartbeat s h
  if asked && tndIsActive s then sendImages s else s

/-- A twin's heartbeat arrives on a port that carries Tandem traffic; of its copies on several ports the first counts (R379, R392, R541). -/
def heartbeatRx (s : State) (port : Nat) (bytes : List Byte) : State :=
  if !(rdb s F.TND_CTRL_EN && (tandemPorts s).contains port) then s
  else match parseHeartbeat s bytes with
    | none => s
    | some h =>
      if (tgalOf s h.gallery).heard = some h then s else takeHeartbeat (updTgal s h.gallery fun x => { x with heard := some h }) h

/-- HEARTBEAT_RX (R379, R392). -/
def execHeartbeatRx (port : Fin 4) (bytes : List Byte) (s : State) : Host.Outcome State Fault Refusal :=
  .next (heartbeatRx s port.val bytes)

/-! ### Shadow comparison (R386 to R390) -/

/-- The tile CRC of composed or received pixels (R386). -/
def rowCrc (px : Nat → Nat → Px) (w h row t : Nat) : Nat :=
  let x := tileX w t
  let y := tileY h row
  (crc32c ((upto (y.2 - y.1)).map fun j => (upto (x.2 - x.1)).map fun i =>
    let p := px (x.1 + i) (y.1 + j)
    leBytes p.r 2 ++ leBytes p.g 2 ++ leBytes p.b 2).flatten.flatten).toNat

/-- A layer is omitted at some pixel of a tile row by the limit of 16 (R271). -/
def crowdedOut (s : State) (c l row : Nat) : Bool :=
  decide (16 < (directLayers s c).length) && (directLayers s c).contains l &&
    match layerRegion s l with
    | none => false
    | some q => (upto 16).any fun j => (upto (q.2.2.1 - q.1)).any fun i =>
        let y := row * 16 + j
        inside (some q) (q.1 + i) y && !(layersAt s c (q.1 + i) y).contains l

/-- The layers whose regions intersect a tile row of a canvas, lowest first. -/
def rowLayers (s : State) (c row : Nat) : List Nat :=
  (shownOn s c).filter fun l => match regionRows s l with | some q => decide (q.1 ≤ row) && decide (row ≤ q.2) | none => false

/-- The CONTENT of a layer in ROW_SET (R387). -/
def rowContent (s : State) (c l row : Nat) : Nat :=
  let x := layOf s l
  match x.lease with
  | some k => if drawnAt x row && !crowdedOut s c l row then k.frame.content else 0xFFFFFFFF
  | none => 0xFFFFFFFF

/-- ROW_SET (R387). -/
def rowSet (s : State) (c row : Nat) : Nat :=
  (crc32c (leBytes (galOf s (galleryOf s c)).epoch 4 ++ ((rowLayers s c row).map fun l =>
    leBytes l 2 ++ leBytes (layOf s l).desc.source 2 ++ leBytes (rowContent s c l row) 4).flatten)).toNat

/-- The region entry of a layer in a tile row (R388). -/
def regionEntry (s : State) (l row : Nat) : RegionEntry :=
  let x := layOf s l
  { layer := l, verdict := verdictCode x.verdict, style := x.desc.glaze, painted := (ownMark s l row).isSome, cause := causeCode x.cause,
    age := match x.age with | some a => min (a / 1000000) 0xFFFFFFFE | none => 0xFFFFFFFF }

/-- The own record of a tile row (R388). -/
def ownRecord (s : State) (c row : Nat) : RowRecord :=
  let g := galOf s (galleryOf s c)
  { canvas := c, row := row, frame := g.frame % 2 ^ 32, epoch := g.epoch, rowSet := rowSet s c row
    crcs := (upto (tilesPerRow (canvasW s c))).map fun t => rowCrc (composedPx s c) (canvasW s c) (canvasH s c) row t
    regions := (rowLayers s c row).map fun l => regionEntry s l row }

/-- The bytes of a row record (R388). -/
def recordBytes (r : RowRecord) : List Byte :=
  withSum ([1, BitVec.ofNat 8 r.canvas] ++ leBytes r.row 2 ++ leBytes r.frame 4 ++ leBytes r.epoch 4 ++ leBytes r.rowSet 4 ++
    [BitVec.ofNat 8 r.crcs.length, BitVec.ofNat 8 r.regions.length] ++ List.replicate 6 0 ++
    (r.crcs.map fun v => leBytes v 4).flatten ++
    (r.regions.map fun e => leBytes e.layer 2 ++ [BitVec.ofNat 8 (e.verdict + 8 * bit e.style + 16 * bit e.painted),
      BitVec.ofNat 8 e.cause] ++ leBytes e.age 4).flatten)

/-- A write of 0 to TND_CTRL.EN ends the pairing (R379): no twin's state is left. -/
def unpair (s : State) : State :=
  let s := wr0 (wr0 (wr0 (wr0 s F.TND_STATUS_PAIRED 0) F.TND_STATUS_STATE tndUnpaired) F.TND_STATUS_TWIN_LOST 0) F.TND_STATUS_MISS 0
  let s := each (upto 8) (fun s g => updTgal s g fun _ => {}) s
  { s with tnd := { s.tnd with last := none, faultSeen := false, images := [] } }

/-- A canvas of a paired gallery that is enabled, with such a tile row. -/
def rowExists (s : State) (c row : Nat) : Bool :=
  paired s (galleryOf s c) && onCanvas s c && decide (row < tileRows (canvasH s c))

/-- Records without those of a canvas and row. -/
def otherRows (l : List RowRecord) (c row : Nat) : List RowRecord := l.filter fun r => !(r.canvas == c && r.row == row)

/-- An own record that is replaced before it was compared had no twin record in time: its row counts as unmatched (R389). -/
def replaceOwn (s : State) (r : RowRecord) : State :=
  let s := also (s.tnd.own.any fun o => o.canvas == r.canvas && o.row == r.row) (fun s => addWrap s F.TND_COMPARE_UNMATCHED 0 1) s
  { s with tnd := { s.tnd with own := r :: otherRows s.tnd.own r.canvas r.row } }

/-- ROW_RECORD_SEND: a tile row has been composed, the rows before it first: the composer forms its record and the device sends it, once in
a frame (R386 to R388). -/
def execRowRecordSend (canvas : Fin 32) (row : BitVec 8) (s : State) : Host.Outcome State Fault Refusal :=
  let c := canvas.val
  let k := row.toNat
  if !(rowExists s c k && decide (k = (tcnvOf s c).row) && (rowWaits s c k).isEmpty) then .next s
  else
    let r := ownRecord s c k
    let s := updTcnv (replaceOwn s r) c fun x => { x with row := k + 1 }
    match canvasPort s c with
    | none => .next s
    | some p => .next (queuePacket s p { cls := 5, tag := leBytes c 8, payload := recordBytes r })

/-- A row record's fields; none where its RECORD_SUM or its form is bad (R388, R389). -/
def parseRecord (l : List Byte) : Option RowRecord :=
  let t := leAt l 16 1
  let n := leAt l 17 1
  let len := 24 + 4 * t + 8 * n
  if l.length = len + 4 ∧ leAt l 0 1 = 1 ∧ leAt l len 4 = (crc32c (bytesAt l 0 len)).toNat then
    some { canvas := leAt l 1 1 % 32, row := leAt l 2 2, frame := leAt l 4 4, epoch := leAt l 8 4, rowSet := leAt l 12 4
           crcs := (upto t).map fun i => leAt l (24 + 4 * i) 4
           regions := (upto n).map fun i =>
             let a := 24 + 4 * t + 8 * i
             let v := leAt l (a + 2) 1
             { layer := leAt l a 2 % 1024, verdict := v % 8, style := bitOn v 3, painted := bitOn v 4, cause := leAt l (a + 3) 1 % 16,
               age := leAt l (a + 4) 4 } }
  else none

/-- The tiles of a row of the twin's stream are checked against the record once the row's lines and its record are held, while that
stream is passed (R385); a canvas with no output takes no cause GLASS (R360). -/
def checkTwinRow (s : State) (c row : Nat) : State :=
  let h := canvasH s c
  if (tcnvOf s c).stream ≠ 1 ∨ rd s F.CNV_CTRL_OUT_KIND c = 0 ∨ (tcnvOf s c).line < (tileY h row).2 then s
  else match twinRow s c row with
    | none => s
    | some r =>
      let w := canvasW s c
      let mask := ((upto (tilesPerRow w)).filter fun t => rowCrc (twinPx s c) w h row t != r.crcs.getD t 0).foldl (fun a t => a + 2 ^ t) 0
      glassMismatch s c row mask

/-- Four tile-row periods, 64 lines, have passed since the boundary of a record's row, line 16 × ROW − 32 of its frame (R389). The lines of the last rows
run on past the latch of the next frame. -/
def recordLate (s : State) (o : RowRecord) : Bool :=
  let x := galOf s (galleryOf s o.canvas)
  let past := decide (16 * o.row + 32 ≤ x.line)
  if o.frame = x.frame % 2 ^ 32 then !x.latched && past
  else if o.frame = (x.frame + 2 ^ 48 - 1) % 2 ^ 32 then !x.latched || past
  else true

/-- The own record of a row has been compared or given up. -/
def dropOwn (s : State) (c row : Nat) : State := { s with tnd := { s.tnd with own := otherRows s.tnd.own c row } }

/-- The own record that a twin's record should be compared with was composed too long ago: its row is unmatched with cause LATE (R389). -/
def recordMissed (s : State) (r : RowRecord) : Bool :=
  s.tnd.own.any fun o => o.canvas == r.canvas && o.row == r.row && o.frame == r.frame && recordLate s o

/-- A twin's row record is held, or discarded for a bad RECORD_SUM (R389). -/
def rowRecordRx (s : State) (port : Nat) (bytes : List Byte) : State :=
  if !(rdb s F.TND_CTRL_EN && (tandemPorts s).contains port) then s
  else match parseRecord bytes with
    | none => s
    | some r =>
      if !rowExists s r.canvas r.row then s
      else if recordMissed s r then addWrap (dropOwn s r.canvas r.row) F.TND_COMPARE_UNMATCHED 0 1
      else checkTwinRow { s with tnd := { s.tnd with twin := r :: otherRows s.tnd.twin r.canvas r.row } } r.canvas r.row

/-- ROW_RECORD_RX (R389). -/
def execRowRecordRx (port : Fin 4) (bytes : List Byte) (s : State) : Host.Outcome State Fault Refusal :=
  .next (rowRecordRx s port.val bytes)

/-- The own record of a row and the twin's of equal CANVAS, ROW and FRAME. -/
def recordPair (s : State) (c row : Nat) : Option (RowRecord × Option RowRecord) :=
  (s.tnd.own.find? fun r => r.canvas == c && r.row == row).map fun o =>
    (o, s.tnd.twin.find? fun r => r.canvas == c && r.row == row && r.frame == o.frame)

/-- The first tile whose CRCs differ. -/
def firstDifference (a b : List Nat) : Option Nat := (upto (max a.length b.length)).find? fun i => a.getD i 0 != b.getD i 0

/-- A compared row holds a tile that differs (R390). -/
def mismatchFound (s : State) (o : RowRecord) (tile : Nat) : State :=
  let g := galleryOf s o.canvas
  let s := updTgal s g fun x => { x with bad := true }
  let s := wr0 s (if claimWins s then F.TND_STATUS_TWIN_SUSPECT else F.TND_STATUS_SELF_SUSPECT) 1
  let s := wr0 (wr0 (wr0 (wr0 (wr0 s F.TND_LAST_MISMATCH_CANVAS o.canvas) F.TND_LAST_MISMATCH_ROW o.row) F.TND_LAST_MISMATCH_TILE tile)
    F.TND_LAST_MISMATCH_VALID 1) F.TND_LAST_MISMATCH_FRAME o.frame
  tandemEntry (raise s K.TND_EVENT_SUSPECT) 4 o.canvas o.row g

/-- ROW_COMPARE: the own and the twin's record of a row are compared (R389, R390). -/
def execRowCompare (canvas : Fin 32) (row : BitVec 8) (s : State) : Host.Outcome State Fault Refusal :=
  match recordPair s canvas.val row.toNat with
  | some (o, some t) =>
    let s := dropOwn s o.canvas o.row
    if o.epoch ≠ t.epoch ∨ o.rowSet ≠ t.rowSet then .next (addWrap s F.TND_COMPARE_UNMATCHED 0 1)
    else
      let s := addWrap (updTcnv s o.canvas fun x => { x with compared := x.compared + 1 }) F.TND_COMPARE_COMPARED 0 1
      match firstDifference o.crcs t.crcs with
      | none => .next s
      | some i => .next (mismatchFound s o i)
  | _ => .next s

/-- ROW_RECORD_TIMEOUT: no twin record came in time, and the row is unmatched with cause LATE (R389). -/
def execRowRecordTimeout (canvas : Fin 32) (row : BitVec 8) (s : State) : Host.Outcome State Fault Refusal :=
  match recordPair s canvas.val row.toNat with
  | some (o, none) =>
    .next (if recordLate s o then addWrap (dropOwn s o.canvas o.row) F.TND_COMPARE_UNMATCHED 0 1 else s)
  | _ => .next s

/-! ### The twin's stream (R384, R385) -/

/-- A line of the twin's stream is held; a line out of turn leaves those before it missing, which the output stage then does not hold when
it needs them (R384). -/
def twinLineRx (s : State) (c y : Nat) (bytes : List Byte) : State :=
  let x := tcnvOf s c
  if !(rdb s F.TND_STATUS_PAIRED && paired s (galleryOf s c) && decide (y < canvasH s c)) || decide (y < x.line) then s
  else
    let s := updTcnv s c fun x =>
      { x with line := y + 1, lines := x.lines ++ List.replicate (y - x.line) [] ++ [bytes] }
    if (y + 1) % 16 = 0 ∨ y + 1 = canvasH s c then checkTwinRow s c (y / 16) else s

/-- TWIN_LINE_RX (R384). -/
def execTwinLineRx (canvas : Fin 32) (line : BitVec 16) (bytes : List Byte) (s : State) : Host.Outcome State Fault Refusal :=
  .next (twinLineRx s canvas.val line.toNat bytes)

/-- A line of the twin's stream is not held when its first pixel is due: the stream is late in this frame (R383), and a canvas that passes it
shows Gesso from there to the end of the frame, with TWIN_LATE raised once (R384). -/
def twinLate (s : State) (c : Nat) : State :=
  let first := !(tcnvOf s c).late
  let s := updTcnv s c fun x => { x with late := true }
  if (tcnvOf s c).stream ≠ 1 then s
  else
    let s := also first (fun s => raise s K.TND_EVENT_TWIN_LATE) s
    if inGesso s c then s else raise (wr s F.CNV_STATUS_GESSO c 0 1) K.CNV_EVENT_GESSO_ON c

/-- TWIN_LATE (R384). -/
def execTwinLate (canvas : Fin 32) (s : State) : Host.Outcome State Fault Refusal :=
  .next (if !(paired s (galleryOf s canvas.val) && rdb s F.TND_STATUS_PAIRED) || (tcnvOf s canvas.val).late then s
    else twinLate s canvas.val)

/-! ### Mirrors, yield and resync (R394 to R400) -/

/-- MIRROR_RX: the slots are written and staged, and the commit or the cancel is made; a refused commit raises MIRROR_FAIL and sets
SELF_SUSPECT (R394). -/
def execMirrorRx (mirror : MirrorMsg) (s : State) : Host.Outcome State Fault Refusal :=
  let g := mirror.gallery.val
  if !(rdb s F.TND_STATUS_PAIRED && paired s g) || accessWaits s 51 || accessWaits s 52 then .next s
  else if mirror.cancel then
    match easRun s 15 g 0 with
    | .ok s _ => .next s
    | .no s _ _ => .next s
  else
    let r := mirror.slots.foldl (fun (acc : State × Bool) e =>
      let s := (busWrite acc.1 52 (stagingSlot acc.1 e.1.val) (bytesAt e.2 0 128)).1
      match easRun s 12 e.1.val 0 with
      | .ok s _ => (s, acc.2)
      | .no s _ _ => (s, true)) (s, false)
    let fail := fun (s : State) =>
      tandemEntry (raise (wr0 s F.TND_STATUS_SELF_SUSPECT 1) K.TND_EVENT_MIRROR_FAIL) 8 g 0 g
    if r.2 then .next (fail r.1)
    else match easRun r.1 14 g mirror.target.toNat with
      | .ok s _ => .next s
      | .no s _ _ => .next (fail s)

/-- YIELD: TND_CMD.YIELD declares FAULT (R396). -/
def execYield (s : State) : Host.Outcome State Fault Refusal := .next (wr0 s F.TND_STATUS_FAULT 1)

/-- TND_CMD.RESYNC (R398, R404). The entry's gallery, and the EVENT of a refusal's entry, are stated nowhere: free values (R403; log entry
53). -/
def startResync (s : State) : State :=
  let g := freeNat s % 8
  if !rdb s F.TND_STATUS_PAIRED || tndIsActive s then
    draw (draw (tandemEntry (raise s K.TND_EVENT_CMD_REFUSED) (freeNat (draw s) % 256) g 0 g))
  else draw (enterResync s g)

/-- RESYNC: TND_CMD.RESYNC (R398). -/
def execResync (s : State) : Host.Outcome State Fault Refusal := .next (startResync s)

/-- RESYNC_IMAGE_RX: the image of one gallery is complete on a device in RESYNC (R399). -/
def execResyncImageRx (image : ImageMsg) (s : State) : Host.Outcome State Fault Refusal :=
  let g := image.gallery.val
  if rd s F.TND_STATUS_STATE ≠ tndResync ∨ !paired s g then .next s
  else .next { s with tnd := { s.tnd with images := s.tnd.images.put g { gallery := g, slots := image.slots.map fun e => (e.1.val, e.2),
                                                                         epoch := image.epoch.toNat, frame := image.frame.toNat } } }

/-! ### At a latch (R383, R392, R397, R399, R400) -/

/-- The image of a gallery, once complete, is taken at the latch: slots, epoch and the next frame number; every layer starts (R399). -/
def takeImage (s : State) (g : Nat) : State :=
  match s.tnd.images.find g with
  | none => s
  | some m =>
    let off := fun (e : Nat × Layer) =>
      if e.2.gallery = g ∧ e.2.committed then (e.1, { e.2 with committed := false, staged := none }) else e
    let s := { s with eas := { s.eas with layers := s.eas.layers.map off } }
    let s := each m.slots (fun s e =>
      let s := (busWrite s 52 (activeSlot s e.1) (bytesAt e.2 0 128)).1
      updLay s e.1 fun x => { x with committed := true, gallery := g, override := none, prevSource := none, prevSeq := none }) s
    let s := updGal s g fun x => { x with first := false, epoch := m.epoch, frame := m.frame, hitDue := some (seqCyc s) }
    { s with tnd := { s.tnd with images := s.tnd.images.del g } }

/-- A clean frame of a gallery (R400): every enabled canvas compared at least a quarter of its tile rows, with no mismatch. -/
def cleanFrame (s : State) (g : Nat) : Bool :=
  !(tgalOf s g).bad && (upto 32).all fun c =>
    galleryOf s c != g || !onCanvas s c || decide (tileRows (canvasH s c) ≤ 4 * (tcnvOf s c).compared)

/-- The resync counts the frame that ends, and completes when every paired gallery has had enough (R400). -/
def resyncLatch (s : State) (g : Nat) : State :=
  if rd s F.TND_STATUS_STATE ≠ tndResync then s
  else
    let s := updTgal s g fun x => { x with clean := if cleanFrame s g then x.clean + 1 else 0 }
    if (pairedGalleries s).all fun g => decide (rd s F.TND_CTRL_RESYNC_FRAMES ≤ (tgalOf s g).clean) then
      let s := wr0 (wr0 (wr0 s F.TND_STATUS_STATE tndStandby) F.TND_STATUS_SELF_SUSPECT 0) F.TND_STATUS_FAULT 0
      tandemEntry (raise s K.TND_EVENT_RESYNC_DONE) 7 g 0 g
    else s

/-- The previous own latch counts a miss when no heartbeat was paired with it; enough misses set TWIN_LOST (R392). The flag says whether
it was set here. -/
def missLatch (s : State) (g : Nat) : State × Bool :=
  match (tgalOf s g).latches with
  | [] => (s, false)
  | l :: _ =>
    if l.seen || !rdb s F.TND_STATUS_PAIRED then (s, false)
    else
      let s := showMiss (updTgal s g fun x => { x with miss := x.miss + 1 })
      if rd s F.TND_CTRL_HB_MISS ≤ (tgalOf s g).miss ∧ !rdb s F.TND_STATUS_TWIN_LOST then
        (tandemEntry (raise (wr0 s F.TND_STATUS_TWIN_LOST 1) K.TND_EVENT_TWIN_LOST) 3 g 0 g, true)
      else (s, false)

/-- A takeover (R397). -/
def takeover (s : State) (g : Nat) (lost : Bool) : State :=
  if rdb s F.TND_STATUS_PAIRED && (lost || s.tnd.faultSeen) && rd s F.TND_STATUS_STATE == tndStandby && !rdb s F.TND_STATUS_SELF_SUSPECT then
    let s := wr0 (wr0 s F.TND_STATUS_CLAIM ((rd s F.TND_TWIN_CLAIM + 1) % 2 ^ 16)) F.TND_STATUS_STATE tndActive
    tandemEntry (raise { s with tnd := { s.tnd with faultSeen := false } } K.TND_EVENT_TAKEOVER) 1 g 0 g
  else { s with tnd := { s.tnd with faultSeen := false } }

/-- The own stream of a canvas is eligible (R383). -/
def ownEligible (s : State) (c : Nat) : Bool :=
  !rdb s F.DMC_GSTATUS_HOLD && !(cnvOf s c).gesso.engine && !rdb s F.TND_STATUS_FAULT && !rdb s F.TND_STATUS_SELF_SUSPECT &&
    rd s F.TND_STATUS_STATE != tndResync

/-- The twin's stream of a canvas is eligible (R383). -/
def twinEligible (s : State) (c : Nat) : Bool :=
  rdb s F.TND_STATUS_PAIRED && !rdb s F.TND_STATUS_TWIN_LOST &&
    (match s.tnd.last with | some h => !h.fault && !h.suspect && h.state != tndResync | none => false) &&
    !(tcnvOf s c).late && decide (canvasH s c ≤ (tcnvOf s c).line)

/-- The stream a canvas of a paired gallery passes in the coming frame: 0 own, 1 the twin's, 2 neither (R383). -/
def selectStream (s : State) (c : Nat) : Nat :=
  match ownEligible s c, twinEligible s c with
  | true, true => if tndIsActive s then 0 else 1
  | true, false => 0
  | false, true => 1
  | false, false => 2

/-- The canvases of a gallery select their streams; one with neither shows Gesso (R383). -/
def selectStreams (s : State) (g : Nat) : State :=
  each ((upto 32).filter fun c => galleryOf s c == g) (fun s c =>
    let k := if paired s g then selectStream s c else 0
    let s := updTcnv s c fun x => { x with stream := k, late := false, compared := 0, row := 0, line := 0, lines := [] }
    updCnv s c fun x => { x with gesso := { x.gesso with tandem := k == 2 } }) s

/-- Tandem's part of a latch at the time `now`, before the frame number advances. -/
def tandemBefore (s : State) (g now : Nat) : State :=
  if !paired s g then s
  else
    let m := missLatch (meetEarly (declareFault s) g now) g
    let s := takeImage (resyncLatch (takeover m.1 g m.2) g) g
    updTgal s g fun x => { x with bad := false }

/-- Tandem's part of a latch once epoch and frame number stand: the own latch is noted and a heartbeat is owed (R391, R392). -/
def tandemAfter (s : State) (g : Nat) : State :=
  if !paired s g then s
  else
    let x := galOf s g
    let s := each ((pairedCanvases s).filter fun c => galleryOf s c == g) routeCanvas s
    let s := updTgal s g fun t =>
      { t with hbDue := true, latches := ({ time := x.latchTime.toNat, epoch := x.epoch, frame := x.frame } :: t.latches).take 16 }
    meetLate s g

end Sys2Proof.Machine
end

