-- ==== Sys2Proof/Machine/Encode.lean ====
section
/-!
DEFINITION. The encoder: sessions, admission, picture selection, rate control, output rings and the provenance SEI message (R198 to
R222).
-/

namespace Sys2Proof.Machine

def sesOf (s : State) (n : Nat) : Session := s.ven.sessions.get n {}
def setSes (s : State) (n : Nat) (x : Session) : State := { s with ven := { s.ven with sessions := s.ven.sessions.put n x } }
def updSes (s : State) (n : Nat) (f : Session → Session) : State := setSes s n (f (sesOf s n))

/-! ### Sizes and rates -/

/-- The refresh rate of a gallery at VBLANK_MIN, as numerator and denominator in Hz (R25, R306). -/
def refreshRate (s : State) (g : Nat) : Nat × Nat :=
  (100000000 * rd s F.CNV_GAL_PLL_N g, max 1 (rd s F.CNV_GAL_PLL_M g * rd s F.CNV_GAL_HV_HTOTAL g *
    (rd s F.CNV_GAL_HV_VACT g + rd s F.CNV_GAL_VB_VBLANK_MIN g)))

/-- Lines of a coding block (R201). -/
def blockOf (codec : Nat) : Nat := if codec = 1 then 64 else 16

/-- profile_idc or general_profile_idc of a session's stream (R201). -/
def profileOf (codec : Nat) (tenBit : Bool) : Nat := if codec = 0 then 100 else if tenBit then 2 else 1

/-- Bits of a session's samples (R201). -/
def depthOf (tenBit : Bool) : Nat := if tenBit then 10 else 8

/-- Coding-block rows N, floor row size F and header bound H of a picture, in bits (R211). -/
def rowCount (codec h : Nat) : Nat := ceilDiv h (blockOf codec)
def floorSize (codec w : Nat) : Nat := 16 * ceilDiv w (blockOf codec) + 48
def mapBytes (w h : Nat) : Nat := ceilDiv (tilesPerRow w * tileRows h) 2
def headBound (w h : Nat) : Nat := 12 * mapBytes w h + 11224

/-- The limits of a level of the codec's own level table (PRESUMED: the tables of the standards; log entry 26): largest picture, largest
rate and largest CPB in kbit. H.264 counts macroblocks, HEVC luma samples. -/
def levelLimits (codec level : Nat) : Option (Nat × Nat × Nat) :=
  if codec = 0 then
    match level with
    | 10 => some (99, 1485, 218) | 11 => some (396, 3000, 625) | 12 => some (396, 6000, 1250) | 13 => some (396, 11880, 2500)
    | 20 => some (396, 11880, 2500) | 21 => some (792, 19800, 5000) | 22 => some (1620, 20250, 5000)
    | 30 => some (1620, 40500, 12500) | 31 => some (3600, 108000, 17500) | 32 => some (5120, 216000, 25000)
    | 40 => some (8192, 245760, 31250) | 41 => some (8192, 245760, 78125) | 42 => some (8704, 522240, 78125)
    | 50 => some (22080, 589824, 168750) | 51 => some (36864, 983040, 300000) | 52 => some (36864, 2073600, 300000)
    | _ => none
  else
    match level with
    | 30 => some (36864, 552960, 350) | 60 => some (122880, 3686400, 1500) | 63 => some (245760, 7372800, 3000)
    | 90 => some (552960, 16588800, 6000) | 93 => some (983040, 33177600, 10000) | 120 => some (2228224, 66846720, 30000)
    | 123 => some (2228224, 133693440, 50000) | 150 => some (8912896, 267386880, 100000)
    | 153 => some (8912896, 534773760, 160000) | 156 => some (8912896, 1069547520, 240000)
    | _ => none

/-- A picture size and a rate (numerator, denominator) keep to a level. -/
def levelHolds (codec level w h num den : Nat) : Bool :=
  match levelLimits codec level with
  | none => false
  | some (fs, rate, _) =>
    let u := if codec = 0 then 16 else 1
    let b := blockOf codec
    let x := roundUp w b / u
    let y := roundUp h b / u
    decide (x * y ≤ fs) && decide (x * x ≤ 8 * fs) && decide (y * y ≤ 8 * fs) && decide (x * y * num ≤ rate * den)

/-- Admitted sessions. -/
def admittedSes (s : State) : List (Nat × Session) := s.ven.sessions.filter fun e => e.2.admitted

/-- A sum of pixel rates as a fraction. -/
def pixelSum (l : List (Nat × Session)) : Nat × Nat :=
  l.foldl (fun a e => (a.1 * e.2.rateDen + e.2.width * e.2.height * e.2.rateNum * a.2, a.2 * e.2.rateDen)) (0, 1)

/-- PIX_FREE of VEN_CAP, in Mpixel/s (R220). -/
def venPixFree (s : State) : Nat :=
  let p := pixelSum (admittedSes s)
  (2000000000 * p.2 - p.1) / (1000000 * p.2)

/-! ### Admission (R199, R221) -/

/-- The session as its registers stage it. -/
def stagedSession (s : State) (n : Nat) : Session :=
  let r := refreshRate s (galleryOf s n)
  let div := rd s F.VEN_SES_CFG_FRAME_DIV n
  { admitted := true, codec := rd s F.VEN_SES_CFG_CODEC n, tenBit := rdb s F.VEN_SES_CFG_TEN_BIT n, mode := rd s F.VEN_SES_CFG_MODE n
    level := rd s F.VEN_SES_CFG_LEVEL n, div := div, gop := rd s F.VEN_SES_CFG_GOP_LEN n, kbps := rd s F.VEN_SES_RATE_KBPS n
    peak := rd s F.VEN_SES_PEAK_PEAK_KBPS n, qpI := rd s F.VEN_SES_QP_QP_I n, qpP := rd s F.VEN_SES_QP_QP_P n
    qpMin := rd s F.VEN_SES_QP_QP_MIN n, qpMax := rd s F.VEN_SES_QP_QP_MAX n, cpbKbit := rd s F.VEN_SES_CPB_CPB_KBIT n
    picMax := rd s F.VEN_SES_PIC_MAX_PIC_MAX_KBIT n, addr := rd s F.VEN_SES_OUT_ADDR_ADDR n, mib := rd s F.VEN_SES_OUT_ADDR_OUT_MIB n
    width := canvasW s n, height := canvasH s n, rateNum := r.1, rateDen := max 1 (r.2 * div)
    cpb := rd s F.VEN_SES_CPB_CPB_KBIT n * 1000 }

/-- The range checks of a staged session, as (register, bit, passes), in ascending order (R199, R221). -/
def sesRanges (x : Session) : List (Nat × Nat × Bool) :=
  let limit := match levelLimits x.codec x.level with | some (_, _, c) => c | none => 240000
  [(0, 4, if x.codec = 0 then decide (10 ≤ x.level) && decide (x.level ≤ 52) else decide (30 ≤ x.level) && decide (x.level ≤ 156)),
   (0, 12, decide (1 ≤ x.div)), (1, 0, decide (100 ≤ x.kbps) && decide (x.kbps ≤ 240000)),
   (2, 0, x.mode != 1 || (decide (x.kbps ≤ x.peak) && decide (x.peak ≤ 240000))),
   (3, 0, decide (x.qpI ≤ 51)), (3, 8, decide (x.qpP ≤ 51)), (3, 16, decide (x.qpMin ≤ x.qpMax)),
   (3, 24, decide (x.qpMin ≤ x.qpMax) && decide (x.qpMax ≤ 51)),
   (4, 0, decide (1 ≤ x.cpbKbit) && decide (x.cpbKbit ≤ 240000) && decide (x.cpbKbit ≤ limit)),
   (5, 0, x.mode == 0 || decide (1 ≤ x.picMax)), (6, 0, x.addr % 2 ^ 20 == 0), (7, 8, decide (1 ≤ x.mib))]

/-- A quantity is below twice the floor of R199, code 5. -/
def belowFloor (x : Session) : Bool :=
  let need := 2 * (rowCount x.codec x.height * floorSize x.codec x.width + headBound x.width x.height)
  let rated := x.mode == 0 || x.mode == 1
  (rated && decide (x.kbps * 1000 * x.rateDen < need * x.rateNum)) || (rated && decide (x.cpbKbit * 1000 < need)) ||
    (x.mode != 0 && decide (x.picMax * 1000 < need))

/-- Why a command on session `n` is refused: code, register and bit (R199). -/
def venRefusal (s : State) (op n : Nat) : Option (Nat × Nat × Nat) :=
  let x := stagedSession s n
  if op = 1 then
    match (sesRanges x).find? fun c => !c.2.2 with
    | some c => some (1, c.1, c.2.1)
    | none =>
      let p := pixelSum ((n, x) :: (admittedSes s).filter fun e => e.1 != n)
      if (x.tenBit && x.codec == 0) || x.mode == 3 then some (2, 0, 0)
      else if p.1 > 2000000000 * p.2 then some (3, 0, 0)
      else if !levelHolds x.codec x.level x.width x.height x.rateNum x.rateDen then some (4, 0, 0)
      else if belowFloor x then some (5, 0, 0)
      else if (sesOf s n).admitted then some (6, 0, 0)
      else none
  else if (sesOf s n).admitted then none
  else some (7, 0, 0)

/-- A refused encoder command (R199). -/
def venRefuse (s : State) (n : Nat) (c : Nat × Nat × Nat) : State :=
  let s := wr0 (wr0 s F.VEN_STATUS_CODE c.1) F.VEN_STATUS_SESSION n
  let s := if c.1 = 1 then wr0 (wr0 s F.VEN_STATUS_REG c.2.1) F.VEN_STATUS_BIT c.2.2 else s
  raise s K.VEN_STATUS_REFUSED

/-- A write of VEN_CMD: it holds BUSY, or is refused while another command does (R199, R200). -/
def venCmdWrite (s : State) (op n : Nat) : State :=
  if op = 0 then s
  else if rdb s F.VEN_STATUS_BUSY then venRefuse s n (8, 0, 0)
  else { wr0 s F.VEN_STATUS_BUSY 1 with ven := { s.ven with op := some (op, n) } }

/-- VEN_ADMIT (R199). -/
def execVenAdmit (session : BitVec 5) (s : State) : Host.Outcome State Fault Refusal := .next (venCmdWrite s 1 session.toNat)
/-- VEN_REMOVE (R200). -/
def execVenRemove (session : BitVec 5) (s : State) : Host.Outcome State Fault Refusal := .next (venCmdWrite s 2 session.toNat)
/-- VEN_IDR (R203). -/
def execVenIdr (session : BitVec 5) (s : State) : Host.Outcome State Fault Refusal := .next (venCmdWrite s 3 session.toNat)

/-- What a session shows in VEN_SES_STATE. -/
def showSes (s : State) (n : Nat) : State :=
  let x := sesOf s n
  wr (wr (wr s F.VEN_SES_STATE_ADMITTED n 0 (bit x.admitted)) F.VEN_SES_STATE_WAITING n 0 (bit x.waiting.isSome))
    F.VEN_SES_STATE_CODING n 0 (bit x.coding.isSome)

/-- A session ends: what it holds is abandoned, and the write-back frame of its canvas is no longer one that it selected (R200, R202, R234). -/
def removeSession (s : State) (n : Nat) : State :=
  let x := sesOf s n
  let s := match x.waiting with | some (_, w) => dropLease s w.desc | none => s
  let s := match x.coding with | some c => dropLease s c.desc | none => s
  let s := updCnv s n fun y => { y with wb := y.wb.map fun w => { w with coded := false } }
  showSes (setSes s n {}) n

/-- VEN_CMD_DONE: BUSY ends and the command takes effect, or is refused (R199, R200). -/
def execVenCmdDone (s : State) : Host.Outcome State Fault Refusal :=
  match s.ven.op with
  | none => .next s
  | some (op, n) =>
    let s := wr0 { s with ven := { s.ven with op := none } } F.VEN_STATUS_BUSY 0
    match venRefusal s op n with
    | some c => .next (venRefuse s n c)
    | none =>
      let s := wr0 s F.VEN_STATUS_SESSION n
      let s := if op = 1 then showSes (wr (setSes s n (stagedSession s n)) F.VEN_SES_WPTR_PTR n 0 0) n
        else if op = 2 then removeSession s n
        else updSes s n fun x => { x with idrPend := true }
      .next (raise s K.VEN_STATUS_DONE)

/-! ### Frames (R202, R206) -/

/-- Bits that a picture period adds to the CPB (R210). -/
def periodBits (x : Session) : Nat := (if x.mode = 1 then x.peak else x.kbps) * 1000 * x.rateDen / max 1 x.rateNum

/-- A frame that R202 selects has no write-back frame: a gap (R206). -/
def encGap (s : State) (c : Nat) : State := raise (updSes s c fun x => { x with gapBefore := true }) K.VEN_SES_EVENT_GAP c

/-- At a latch the session of canvas `c` selects the coming frame, or not (R202). The flag says whether it is selected. -/
def encSelect (s : State) (c : Nat) : State × Bool :=
  let x := sesOf s c
  if !x.admitted then (s, false)
  else
    let sel := x.phase == 0
    (setSes s c { x with phase := (x.phase + 1) % max 1 x.div, sel := x.sel + bit sel }, sel)

/-- CPB fullness when the picture with an ordinal is removed: a picture period's bits for each frame selected since the last removal, at most
CPB_KBIT × 1,000 (R210, R212). -/
def cpbFull (x : Session) (ord : Nat) : Nat := min (x.cpbKbit * 1000) (x.cpb + (ord - x.cpbAt) * periodBits x)

/-- A write-back frame is published for its session: it waits, and replaces one that waits (R206, R234). -/
def encPublish (s : State) (c : Nat) (w : WriteBack) : State :=
  let x := sesOf s c
  if !(x.admitted && w.coded) then s
  else
    let s := match x.waiting with
      | some (_, old) => raise (dropLease s old.desc) K.VEN_SES_EVENT_SKIP c
      | none => s
    showSes (updSes (takeLease s w.desc) c fun x => { x with waiting := some (fabCyc s, w) }) c

/-! ### Pictures (R203 to R212) -/

/-- round(6 log2(a / b)) within −4 to 4 (R210): the largest k with (a / b)^12 at least 2^(2k − 1). -/
def qpStep (a b : Nat) : Int :=
  let ge := fun (k : Int) =>
    if 1 ≤ k then decide (a ^ 12 ≥ b ^ 12 * 2 ^ (2 * k - 1).toNat) else decide (a ^ 12 * 2 ^ (1 - 2 * k).toNat ≥ b ^ 12)
  ([4, 3, 2, 1, 0, -1, -2, -3] : List Int).find? ge |>.getD (-4)

/-- Bits coded in the last second exceed KBPS (R210, VBR). -/
def overAverage (s : State) (x : Session) : Bool :=
  decide (x.kbps * 1000 < ((x.recent.filter fun e => decide (s.time.cyc < e.1 + msCyc 1000)).map (·.2)).foldl (· + ·) 0)

/-- The QP of the next picture of a session (R210). -/
def nextQp (s : State) (x : Session) (idr : Bool) : Nat :=
  if x.mode = 2 then (if idr then x.qpI else x.qpP)
  else match (if idr then x.lastI else x.lastP) with
    | none => if idr then x.qpI else x.qpP
    | some (bits, q) =>
      let d := qpStep (bits * x.rateNum) ((if idr then 4 else 1) * x.kbps * 1000 * x.rateDen)
      let d := if x.mode = 1 ∧ overAverage s x ∧ d < 0 then 0 else d
      (clampI x.qpMin x.qpMax (q + d)).toNat

/-- The cap C of the picture with an ordinal (R210). -/
def capOf (x : Session) (ord : Nat) : Nat :=
  match x.mode with
  | 0 => cpbFull x ord
  | 1 => min (cpbFull x ord) (x.picMax * 1000)
  | _ => x.picMax * 1000

/-- The UUID of R216. -/
def seiUuid : List Byte := [0x5E, 0x1C, 0x7A, 0x20, 0x93, 0xB4, 0x4F, 0x6D, 0xA1, 0xE8, 0x0C, 0x3D, 0x9B, 0x72, 0x46, 0xF5]

/-- The map of R217: tile 2i in the low, tile 2i + 1 in the high half of byte i. -/
def seiMap (m : List Nat) : List Byte :=
  (upto (ceilDiv m.length 2)).map fun i => BitVec.ofNat 8 (m.getD (2 * i) 0 + 16 * m.getD (2 * i + 1) 0)

/-- The payload of the provenance SEI message (R217). -/
def seiPayload (s : State) (n : Nat) (x : Session) (c : Coding) : List Byte :=
  let list := (c.sources.map fun e => leBytes e.1 4 ++ leBytes e.2 4).flatten
  let body := [1, BitVec.ofNat 8 (bit (decide (0 < c.floors)) + 2 * bit c.idr + 4 * bit c.gap + 8 * bit c.sealFail),
    BitVec.ofNat 8 (s.straps.device % 64), BitVec.ofNat 8 n] ++ leBytes c.frame 4 ++ leBytes (c.latch / 1000000000) 6 ++
    leBytes (c.latch % 1000000000) 4 ++ leBytes c.epoch 4 ++ leBytes c.floors 2 ++ leBytes (tilesPerRow x.width) 2 ++
    leBytes (tileRows x.height) 2 ++ [BitVec.ofNat 8 c.sources.length, 0] ++ sha256 list ++ seiMap c.map ++ list
  seiUuid ++ withSum body

/-- Emulation prevention (R216): after two zero bytes a byte of at most 3 is preceded by 3. -/
def emulate (l : List Byte) : List Byte :=
  (l.foldl (fun (a : List Byte × Nat) b =>
    if 2 ≤ a.2 ∧ b.toNat ≤ 3 then (b :: 3 :: a.1, if b = 0 then 1 else 0)
    else (b :: a.1, if b = 0 then a.2 + 1 else 0)) ([], 0)).1.reverse

/-- A NAL unit of the Annex B byte stream. -/
def nalUnit (head body : List Byte) : List Byte := [0, 0, 0, 1] ++ head ++ emulate body

/-- The SEI message as its NAL unit (R216): payloadType 5, its size, the payload and the trailing bits. -/
def seiNal (codec : Nat) (p : List Byte) : List Byte :=
  nalUnit (if codec = 1 then [0x4E, 0x01] else [0x06])
    ([5] ++ List.replicate (p.length / 255) 0xFF ++ [BitVec.ofNat 8 (p.length % 255)] ++ p ++ [0x80])

/-- What the parameter sets of a session's stream say (R201, R203, R204). -/
def paramInfo (x : Session) : ParamInfo :=
  { codec := x.codec, profile := profileOf x.codec x.tenBit, level := x.level, depth := depthOf x.tenBit
    codedW := roundUp x.width (blockOf x.codec), codedH := roundUp x.height (blockOf x.codec), cropW := x.width, cropH := x.height
    rateNum := x.rateNum, rateDen := x.rateDen, hrdKbps := if x.mode = 1 then x.peak else x.kbps, cpbKbit := x.cpbKbit }

/-- The header of a parameter set's NAL unit: 1 VPS, 2 SPS, 3 PPS (PRESUMED: the NAL unit types of the standards; log entry 122). -/
def psetHead (codec kind : Nat) : List Byte :=
  if codec = 1 then [if kind = 1 then 0x40 else if kind = 2 then 0x42 else 0x44, 0x01] else [if kind = 2 then 0x67 else 0x68]

/-- The parameter sets before an IDR picture: VPS, SPS and PPS for HEVC, SPS and PPS for H.264 (R203). -/
def paramNals (p : ParamInfo) : List Byte :=
  ((if p.codec = 1 then [1, 2, 3] else [2, 3]).map fun k => nalUnit (psetHead p.codec k)
    (Config.paramBody k [p.codec, p.profile, p.level, p.chroma, p.depth, p.codedW, p.codedH, p.cropW, p.cropH, bit p.cabac, p.refs,
      p.rateNum, p.rateDen, p.hrdKbps, p.cpbKbit])).flatten

/-- The most bytes that the NAL unit of an SEI message of `n` payload bytes takes: an emulation prevention byte after every two. -/
def seiMost (n : Nat) : Nat := 6 + (3 + n / 255 + n) / 2 * 3 + 3

/-- Bits of a picture before its rows: parameter sets and SEI message, within H (R211). The message, whose contents later rows still change, counts
at its greatest length (DESIGN CHOICE, log entry 123). -/
def headBits (s : State) (n : Nat) (x : Session) (c : Coding) : Nat := 8 * (c.params.length + seiMost (seiPayload s n x c).length)

/-- Bits of the rows accepted so far. -/
def Coding.bits (c : Coding) : Nat := c.stream.length

/-- The head of a filler data NAL unit. -/
def fillerHead (codec : Nat) : List Byte := if codec = 1 then [0, 0, 0, 1, 0x4C, 0x01] else [0, 0, 0, 1, 0x0C]

/-- A filler data NAL unit of `n` bytes, which hold at least its head and its trailing bits. -/
def fillerNal (codec n : Nat) : List Byte :=
  if n = 0 then [] else fillerHead codec ++ List.replicate (n - (fillerHead codec).length - 1) 0xFF ++ [0x80]

/-- Bytes of filler for a CPB that would overflow by `excess` bits, where the cap leaves `room` bits: a whole NAL unit, or none where none fits (R210,
R212). -/
def fillerBytes (codec excess room : Nat) : Nat :=
  let least := (fillerHead codec).length + 1
  if excess = 0 ∨ room < 8 * least then 0 else min (max (ceilDiv excess 8) least) (room / 8)

/-- The encoder codes a picture. -/
def encoderBusy (s : State) : Bool := s.ven.sessions.any fun e => e.2.coding.isSome

/-- The session whose frame waits with the earliest publish; a tie goes to the lower number (R207). -/
def nextWaiting (s : State) : Option Nat :=
  (s.ven.sessions.foldl (fun (a : Option (Nat × Nat)) e =>
    match e.2.waiting, a with
    | none, _ => a
    | some (k, _), none => some (e.1, k)
    | some (k, _), some (_, j) => if k < j then some (e.1, k) else a) none).map (·.1)

/-- ENC_PICTURE_START: the free encoder takes the waiting frame of earliest publish: picture type, QP, cap, and the check of the
write-back header (R203, R205, R207, R210, R211). -/
def execEncPictureStart (s : State) : Host.Outcome State Fault Refusal :=
  if encoderBusy s || accessWaits s 72 then .next s
  else match nextWaiting s with
    | none => .next s
    | some n =>
      let x := sesOf s n
      match x.waiting with
      | none => .next s
      | some (_, w) =>
        let p := wbPlace s w.desc
        let resized := decide (x.width ≠ p.w) || decide (x.height ≠ p.h)
        let x := { x with width := p.w, height := p.h, waiting := none }
        let idr := x.first || (x.gop != 0 && decide (x.gop ≤ x.sinceIdr)) || x.idrPend || x.notWritten || resized
        let h := busRead s 72 (recordAddr p) 64
        let bad := h.2.1 != 0 || !headerPasses h.2.2 s.straps.device domWriteBack n (w.frame % 2 ^ 32) p.base
        let s := h.1
        let c : Coding :=
          { desc := w.desc, frame := w.frame, idr := idr, gap := x.gapBefore, qp := nextQp s x idr, cap := capOf x w.ord, ord := w.ord
            reference := if idr then none else x.reference, rows := rowCount x.codec x.height, floorBits := floorSize x.codec x.width
            hdrBad := bad, map := w.map, sources := w.sources, latch := w.latch, epoch := w.epoch }
        let room := (headBound x.width x.height - headBits s n x c) / 8
        let c := if idr then { c with info := some (paramInfo x), params := (paramNals (paramInfo x)).take room } else c
        .next (showSes (setSes s n { x with coding := some c, idrPend := false, notWritten := false, gapBefore := false }) n)

/-- The session that codes. -/
def codingSession (s : State) : Option (Nat × Coding) := s.ven.sessions.findSome? fun e => e.2.coding.map fun c => (e.1, c)

/-- The tile rows of a coding-block row. -/
def codedTileRows (codec h row : Nat) : List Nat :=
  let b := blockOf codec / 16
  (upto b).map (· + row * b) |>.filter fun r => decide (r < tileRows h)

/-- A tile of the write-back frame as the encoder has read it: its bytes, none where its check failed. -/
abbrev TileInput := Map (Option (List Byte))

/-- The write-back tiles of a coding-block row are read and checked, once; those that fail become UNVERIFIED in the map and raise SEAL_FAIL
(R205). -/
def checkCodedRow (s : State) (n : Nat) (x : Session) (c : Coding) (err : Bool) : State × Coding × TileInput :=
  let p := wbPlace s c.desc
  let tiles := ((codedTileRows x.codec x.height c.row).map fun r => rowTiles p r).flatten
  tiles.foldl (fun (a : State × Coding × TileInput) t =>
    let q := busRead a.1 72 (recordAddr p + 64 + 4 * t) 4
    let b := readTile q.1 72 p t
    let ok := !c.hdrBad && !err && q.2.1 == 0 && !b.2.1 &&
      tileSeal s.straps.device domWriteBack n (c.frame % 2 ^ 32) t p.base b.2.2 == leNat q.2.2
    if ok then (b.1, a.2.1, a.2.2.put t (some b.2.2))
    else (raise b.1 K.VEN_SES_EVENT_SEAL_FAIL n,
      { a.2.1 with sealFail := true, map := a.2.1.map.set t (verdictCode .unverified) }, a.2.2.put t none)) (s, c, [])

/-- Component `i` (Y, Cb, Cr) of a write-back pixel in 12 bits, by BT.709 in limited range; mid-grey in a tile that failed (R204, R205). -/
def codedPx (p : Place) (m : TileInput) (i x y : Nat) : Nat :=
  let t := y / 16 * tilesPerRow p.w + x / 128
  match (m.find t).getD none with
  | none => 2048
  | some b =>
    let px := if p.fmt = 9 then 3 else 4
    let at_ := ((y % 16) * ((tileX p.w (t % tilesPerRow p.w)).2 - x / 128 * 128) + x % 128) * px
    let w := leAt b at_ px
    let v := if p.fmt = 9 then fun k => expand8 (w / 2 ^ (8 * k) % 256) else fun k => expand10 (w / 2 ^ (10 * k) % 1024)
    pick (toYcc 1 false { r := v 0, g := v 1, b := v 2, a := 4095 }) i

/-- The tile of a pixel failed its check. -/
def codedBad (p : Place) (m : TileInput) (x y : Nat) : Bool := ((m.find (y / 16 * tilesPerRow p.w + x / 128)).getD none).isNone

/-- A sample of the picture as it is coded: luma as it is; chroma by [1, 2, 1] / 4 about the left column of a pair and, between the two lines,
their mean, as R156 subsamples; rounded half up (R204; log entry 127). A tile that failed is mid-grey in all of its samples (R205). -/
def codedSample (p : Place) (m : TileInput) (ten : Bool) (i x y : Nat) : Nat :=
  let d := if ten then 4 else 16
  if i = 0 then rounded false false ten (codedPx p m 0 x y) d
  else if codedBad p m x y then 2048 / d
  else
    let y1 := min (y + 1) (p.h - 1)
    let row := fun j => codedPx p m i (x - 1) j + 2 * codedPx p m i x j + codedPx p m i (min (x + 1) (p.w - 1)) j
    rounded false true ten (row y + row y1) (8 * d)

/-- The lines of a coding-block row as they are coded, by plane and line of the plane: one byte a sample at 8 bits, two at 10. -/
def codedLines (p : Place) (m : TileInput) (ten : Bool) (y0 y1 : Nat) : List (Nat × Nat × List Byte) :=
  let pack := fun (v : Nat) => leBytes v (if ten then 2 else 1)
  ((upto (y1 - y0)).map fun k => (0, y0 + k, ((upto p.w).map fun x => pack (codedSample p m ten 0 x (y0 + k))).flatten)) ++
    (upto (ceilDiv (y1 - y0) 2)).map fun k => (1, y0 / 2 + k, ((upto (ceilDiv p.w 2)).map fun x =>
      pack (codedSample p m ten 1 (2 * x) (y0 + 2 * k)) ++ pack (codedSample p m ten 2 (2 * x) (y0 + 2 * k))).flatten)

/-- A coding-block row is read, the first time the encoder comes to it: its tiles are checked and its samples are those to be coded (R204,
R205). -/
def readCodedRow (s : State) (n : Nat) (x : Session) (c : Coding) (err : Bool) : State × Coding :=
  if c.row < c.checked then (s, c)
  else
    let r := checkCodedRow s n x c err
    let b := blockOf x.codec
    (r.1, { r.2.1 with checked := c.row + 1, input := c.input ++
              codedLines (wbPlace s c.desc) r.2.2 x.tenBit (c.row * b) (min x.height (c.row * b + b)) })

/-- A floor row: skip in a P picture; QP 51, intra DC prediction and no residual in an I picture; at most F bits (R211; log entry 123). -/
def floorRow (x : Session) (c : Coding) : Coding :=
  let l := (Config.floorRow x.codec c.idr (ceilDiv x.width (blockOf x.codec)) c.row).take (c.floorBits / 8)
  { c with row := c.row + 1, floors := c.floors + 1, stream := c.stream ++ msbBits l
           codes := c.codes ++ [if c.idr then .dcFloor else .skip] }

/-- The first `n` bits of a row's payload. -/
def rowBits (payload : List Byte) (n : Nat) : List Bool := (msbBits payload ++ List.replicate n false).take n

/-- ENC_ROW_DONE: a coded row of `bits` bits is accepted, or is discarded and it and all later rows are floor rows (R205, R211). The
operand `sealFail` says that the reads of its tiles got an error response. -/
def execEncRowDone (bits : BitVec 32) (payload : List Byte) (sealFail : Bool) (s : State) : Host.Outcome State Fault Refusal :=
  match codingSession s with
  | none => .next s
  | some (n, c) =>
    if c.rows ≤ c.row ∨ accessWaits s 72 then .next s
    else
      let x := sesOf s n
      let r := readCodedRow s n x c sealFail
      let d := r.2
      if c.floored then .next (setSes r.1 n { x with coding := some (floorRow x d) })
      else if headBits s n x d + c.bits + bits.toNat + (c.rows - c.row - 1) * c.floorBits > c.cap then
        .next (setSes r.1 n { x with coding := some { d with floored := true } })
      else .next (setSes r.1 n { x with coding := some { d with row := c.row + 1, stream := c.stream ++ rowBits payload bits.toNat,
                                                                codes := c.codes ++ [.coded] } })

/-- The header of a ring entry (R214). -/
def entryHeader (len frame flags qp floors : Nat) : List Byte :=
  leBytes len 4 ++ leBytes frame 4 ++ [BitVec.ofNat 8 flags, BitVec.ofNat 8 qp] ++ leBytes floors 2 ++ [0, 0, 0, 0]

/-- Where an entry of `n` bytes goes in a ring of `size` bytes: the bytes of padding before it, or none when it would reach RPTR, or when the ring is
smaller (R213, R215). -/
def ringPlace (size w r n : Nat) : Option Nat :=
  if size < n then none
  else if w < r then (if r ≤ w + n then none else if w + n ≤ size then some 0 else some (size - w))
  else if w + n < size ∨ (w + n = size ∧ 0 < r) then some 0
  else if w + n ≤ size then none
  else if n < r then some (size - w)
  else none

/-- Bytes of the ring entry of an access unit (R213). -/
def entryLen (bytes : List Byte) : Nat := roundUp (16 + bytes.length) 64

/-- ENC_PICTURE_DONE: the last row is coded: the access unit is formed, rate control takes the picture's size, and the entry's place in the
ring is found: where there is none, the next picture is an IDR (R203, R208 to R212, R215 to R217). The access unit before it has been
written by then (R208, R209; log entry 134). -/
def execEncPictureDone (s : State) : Host.Outcome State Fault Refusal :=
  match codingSession s with
  | none => .next s
  | some (n, c) =>
    let x := sesOf s n
    if c.row < c.rows ∨ x.ready.isSome then .next s
    else
      let picture := c.params ++ seiNal x.codec (seiPayload s n x c) ++ bitsToBytes c.stream
      let bits := 8 * picture.length
      let full := cpbFull x c.ord
      let fill := if x.mode = 0 then fillerBytes x.codec (full - bits + periodBits x - x.cpbKbit * 1000) (full - bits) else 0
      let au := picture ++ fillerNal x.codec fill
      let place := ringPlace (x.mib * 2 ^ 20) (rd s F.VEN_SES_WPTR_PTR n) (rd s F.VEN_SES_RPTR_PTR n) (entryLen au)
      let y := { x with
        coding := none
        ready := some ({ c with bytes := au }, place)
        reference := some c.frame
        notWritten := place.isNone
        first := false
        sinceIdr := if c.idr then 1 else x.sinceIdr + 1
        lastI := if c.idr then some (bits, c.qp) else x.lastI
        lastP := if c.idr then x.lastP else some (bits, c.qp)
        cpb := full - 8 * au.length
        cpbAt := c.ord
        recent := (s.time.cyc, bits) :: x.recent.filter fun e => decide (s.time.cyc < e.1 + msCyc 1000) }
      let s := showSes (setSes (dropLease s c.desc) n y) n
      let s := wr (wr s F.VEN_SES_STATE_QP_LAST n 0 c.qp) F.VEN_SES_STATE_FLOOR_LAST n 0 c.floors
      .next (also (decide (0 < c.floors)) (fun s => raise s K.VEN_SES_EVENT_FLOOR n) s)

/-- ENC_AU_WRITTEN: the access unit is complete in the ring and WPTR advances, or RING_FULL is raised and it is not written (R209, R213
to R215). -/
def execEncAuWritten (session : BitVec 5) (s : State) : Host.Outcome State Fault Refusal :=
  let n := session.toNat
  let x := sesOf s n
  match x.ready with
  | none => .next s
  | some (c, place) =>
    if accessWaits s 72 then .next s else
    let s := setSes s n { x with ready := none }
    let w := rd s F.VEN_SES_WPTR_PTR n
    let len := entryLen c.bytes
    match place with
    | none => .next (raise s K.VEN_SES_EVENT_RING_FULL n)
    | some pad =>
      let s := if pad = 0 then s else (busWrite s 72 (x.addr + w) (entryHeader (pad - 16) 0 0x80 0 0)).1
      let at_ := if pad = 0 then w else 0
      let e := entryHeader c.bytes.length c.frame (bit c.idr + 2 * bit (decide (0 < c.floors)) + 4 * bit c.sealFail) c.qp c.floors ++ c.bytes
      let s := (busWrite s 72 (x.addr + at_) (e ++ List.replicate (len - e.length) 0)).1
      .next (wr s F.VEN_SES_WPTR_PTR n 0 ((at_ + len) % (x.mib * 2 ^ 20)))

end Sys2Proof.Machine
end

