-- ==== Sys2Proof/Machine/Compose.lean ====
section
/-!
DEFINITION. The composer: header reads, tile fetches and their checks, the flattener and its planes, and write-back frames (R58 to
R70, R263 to R303).
-/

namespace Sys2Proof.Machine

/-- The engine of a canvas, and its bus master. -/
def engineOf (s : State) (c : Nat) : Nat := rd s F.CMP_CNV_CFG_ENGINE c
def engineMaster (s : State) (c : Nat) : Nat := 80 + engineOf s c

/-! ### Failed checks (R59 to R66, R270) -/

/-- A frame of a layer fails a header or a tile: the consecutive count advances once per frame, and PERSIST is raised with its entry
once it has reached ESC_THRESH, one time until the count returns to 0 (R66). -/
def failFrame (s : State) (l : Nat) : State :=
  let x := layOf s l
  if x.failCounted then s
  else
    let n := x.failRun + 1
    let reached := !x.persisted && decide (rd s F.SEAL_CTRL_ESC_THRESH ≤ n)
    let s := setLay s l { x with failRun := n, failCounted := true, persisted := x.persisted || reached }
    if reached then
      let (src, seq) := match x.lease with | some k => (k.frame.source, k.frame.seq) | none => (x.desc.source, 0)
      askJournal (raise s K.SEAL_EVENT_PERSIST) rankSeal 0x0013 (leBytes l 2 ++ [BitVec.ofNat 8 x.desc.canvas, 0] ++ leBytes src 2 ++
        [0, 0] ++ leBytes seq 4 ++ [BitVec.ofNat 8 (min 255 n)])
    else s

/-- A region that was composed without a substituted raw verdict has not verified in this frame (R358). -/
def notVerified (s : State) (l : Nat) : State :=
  let x := layOf s l
  if x.rawSubst then s else updCnv s x.desc.canvas fun k => { k with clean := false }

/-- The header check of a layer's leased frame failed: HEADER_BAD, and every tile of the layer is UNVERIFIED (R59). -/
def headerFailed (s : State) (l : Nat) (k : Lease) : State :=
  let s := raise (updLay s l fun x => { x with hdrFail := true }) K.SEAL_EVENT_HEADER_BAD
  paintCheck (notVerified (failFrame (checkFailed s k.frame) l) l) l 0

/-- The crop lies outside the leased frame: the layer is not drawn, CROP_OUT is raised, and its tiles count as failed (R270). -/
def cropFailed (s : State) (l : Nat) : State :=
  let x := layOf s l
  let s := raise (setLay s l { x with hdrOk := true, cropFail := true }) K.CMP_CNV_EVENT_CROP_OUT x.desc.canvas
  paintCheck (notVerified (failFrame s l) l) l 0

/-- A layer takes part in the present frame of its canvas: evaluated, leased and not yet judged by its header. -/
def headerWaits (s : State) (l : Nat) : Bool :=
  let x := layOf s l
  evaluable s l && x.lease.isSome && !x.hdrOk && !x.hdrFail

/-- RECORD_HEADER_READ: the record header of a layer's leased buffer returns and is checked against the lease; the crop is compared with
its size (R59, R270). -/
def execRecordHeaderRead (layer : Fin 1024) (err : Bool) (s : State) : Host.Outcome State Fault Refusal :=
  let l := layer.val
  let x := layOf s l
  match x.lease with
  | none => .next s
  | some k =>
    if !headerWaits s l || accessWaits s (engineMaster s x.desc.canvas) then .next s
    else
      let r := readHeader s (engineMaster s x.desc.canvas) k
      let s := r.1
      if err || !r.2.1 then .next (headerFailed s l k)
      else if x.desc.srcX + x.desc.srcW > leAt r.2.2 24 2 ∨ x.desc.srcY + x.desc.srcH > leAt r.2.2 26 2 then .next (cropFailed s l)
      else .next (setLay s l { x with hdrOk := true })

/-- The sources a canvas frame leased, with their sequences, ascending (R219). -/
def frameSources (s : State) (c : Nat) : List (Nat × Nat) :=
  (evaluatedOn s c).foldl (fun (m : Map Nat) l =>
    match (layOf s l).lease with | some k => m.put k.frame.source k.frame.seq | none => m) []

/-- A layer's slot read failed: it is not drawn and holds no lease for the frame, nor is its source among those the frame leased; its region and order
come from the on-chip table (R219, R685). -/
def slotReadFails (s : State) (l : Nat) : State :=
  let x := layOf s l
  let s := match x.lease with
    | none => s
    | some k => updCnv (dropLease s k.desc) x.desc.canvas fun c =>
        { c with held := match c.held.reverse with
                 | [] => []
                 | h :: t => ((h.1, h.2.erase k.desc) :: t).reverse }
  let s := setLay s l { x with desc := x.chip, lease := none, fetch := [], got := [], tableFail := true, hdrOk := false, hdrFail := false }
  updCnv s x.desc.canvas fun c => { c with wb := c.wb.map fun w => { w with sources := frameSources s x.desc.canvas } }

/-- LAYER_SLOT_READ: the read of a committed layer's active slot at the latest latch returns; an error leaves the layer undrawn with cause
TABLE for the frame, painted with Hatch (R685). A read without error is the one that the latch has taken in already. -/
def execLayerSlotRead (layer : Fin 1024) (err : Bool) (s : State) : Host.Outcome State Fault Refusal :=
  let l := layer.val
  if !(err && (layOf s l).committed && !(layOf s l).tableFail) then .next s
  else
    let s := slotReadFails s l
    .next (if evaluable s l then paintCheck s l 0 else s)

/-! ### Tile fetches (R58 to R63) -/

/-- The layer is composed directly and drawn in the present frame, so its tiles are fetched. -/
def fetches (s : State) (l : Nat) : Bool :=
  let x := layOf s l
  evaluable s l && x.lease.isSome && !x.cropFail && !x.tableFail && x.cut.isNone && (directLayers s x.desc.canvas).contains l

/-- TILE_FETCH_ISSUE: the composer issues the fetch of a whole tile, after one read of its tile row's CRCs (R58, R63). -/
def execTileFetchIssue (layer : Fin 1024) (tile : BitVec 16) (s : State) : Host.Outcome State Fault Refusal :=
  let l := layer.val
  let t := tile.toNat
  let x := layOf s l
  match x.lease, firstRowOf s l t with
  | some k, some _ =>
    if !fetches s l || (x.got.find t).isSome || x.fetch.any (fun f => f.1 == t) || accessWaits s (engineMaster s x.desc.canvas) then .next s
    else
      let p := placeOf s k
      let row := t / tilesPerRow p.w
      let r := match x.crcs with
        | some q => if q.1 = row then (s, q.2) else
            let b := busRead s (engineMaster s x.desc.canvas) (recordAddr p + 64 + 4 * (row * tilesPerRow p.w)) (4 * tilesPerRow p.w)
            (b.1, b.2.1 != 0, b.2.2)
        | none =>
            let b := busRead s (engineMaster s x.desc.canvas) (recordAddr p + 64 + 4 * (row * tilesPerRow p.w)) (4 * tilesPerRow p.w)
            (b.1, b.2.1 != 0, b.2.2)
      let stored := if r.2.1 then 2 ^ 32 else leAt r.2.2 (4 * (t % tilesPerRow p.w)) 4
      .next (updLay r.1 l fun y => { y with crcs := some (row, r.2), fetch := y.fetch ++ [(t, stored, fetchQos s x.desc.canvas)] })
  | _, _ => .next s

/-- A tile of a layer failed its check: counted, recorded, and its region UNVERIFIED from the first row to which it contributes
(R62, R331, R343). -/
def tileFailed (s : State) (l tile : Nat) (k : Lease) : State :=
  let s := tileMismatch s tile l (layOf s l).desc.canvas k.frame.source
  let s := updLay s l fun x => { x with tileFail := true, badTiles := tile :: x.badTiles }
  let s := notVerified (failFrame (checkFailed s k.frame) l) l
  paintCheck s l ((firstRowOf s l tile).getD 0)

/-- The bytes of a tile that has arrived, for the pixels that use it: what an error response brings in their place is free. -/
def arrivedBytes (s : State) (err : Bool) (bytes : List Byte) : State × List Byte :=
  if err then (draw s, Config.freeBytes s.free) else (s, bytes)

/-- The proof of kind SEAL that inverts the recomputed CRC of this tile: the first to arrive of those first used in its row, once the
Ledger has evaluated that row (R370). -/
def sealProof (s : State) (l tile : Nat) : Option Proof :=
  (proofWaits s l 2).filter fun q =>
    firstRowOf s l tile == some q.row && decide (q.row < (galOf s (layOf s l).gallery).rowDone)

/-- TILE_DATA_ARRIVAL: a fetched tile has arrived and its comparison completes (R60 to R62); the data of a cut layer are discarded
(R320); a proof of kind SEAL inverts the first tile fetched in its row (R370, R372). -/
def execTileDataArrival (layer : Fin 1024) (tile : BitVec 16) (err : Bool) (s : State) : Host.Outcome State Fault Refusal :=
  let l := layer.val
  let t := tile.toNat
  let x := layOf s l
  match x.lease, x.fetch.find? fun f => f.1 == t with
  | some k, some f =>
    if accessWaits s (engineMaster s x.desc.canvas) then .next s else
    let s := setLay s l { x with fetch := x.fetch.erase f }
    if x.cut.isSome then .next s
    else
      let r := readTile s (engineMaster s x.desc.canvas) (placeOf s k) t
      let bad := err || r.2.1
      let b := arrivedBytes r.1 bad r.2.2
      let s := updLay b.1 l fun y => { y with got := y.got.put t b.2 }
      if bad || leaseSeal s k t b.2 != f.2.1 then .next (tileFailed s l t k)
      else match sealProof s l t with
        | none => .next s
        | some q => .next (paintCheck (updLay (injectProof s q) l fun y => { y with tileFail := true }) l q.row)
  | _, _ => .next s

/-- SCAN_LEASE_DROP: the SCAN leases of a canvas frame whose fetches are over drop: those of the oldest frame held, and of the newest only
once none of its fetches is outstanding (R230, R233, R234). -/
def execScanLeaseDrop (canvas : Fin 32) (s : State) : Host.Outcome State Fault Refusal :=
  let c := canvas.val
  match (cnvOf s c).held with
  | [] => .next s
  | h :: rest =>
    if rest.isEmpty && (s.eas.layers.any fun e => e.2.desc.canvas == c && !e.2.fetch.isEmpty) then .next s
    else .next (each h.2 dropLease (updCnv s c fun x => { x with held := rest }))

/-- Canvases other than `c` on engine `e`. -/
def onEngine (s : State) (c e : Nat) : Nat := ((upto 32).filter fun k => k != c && engineOf s k == e).length

/-- NET cycle `cyc` began less than one SCN cycle of gallery `g`, 10,000 × M ÷ N ps, ago. -/
def sameScnCycle (s : State) (g cyc : Nat) : Bool :=
  decide ((s.time.cyc - cyc) * 1600 * rd s F.CNV_GAL_PLL_N g < 10000 * rd s F.CNV_GAL_PLL_M g)

/-- CMP_CNV_CFG and CMP_CNV_BG as they stand before a write are kept for the length of an SCN cycle: a latch in the same one takes them
(R302). -/
def noteConfig (s : State) (c : Nat) : State :=
  updCnv s c fun x =>
    { x with before := if x.before.any fun b => b.2.2 == s.time.cyc then x.before
                       else x.before.filter (fun b => sameScnCycle s (galleryOf s c) b.2.2) ++
                         [(rdReg s R.CMP_CNV_CFG c, rdReg s R.CMP_CNV_BG c, s.time.cyc)] }

/-- A write of CMP_CNV_CFG.ENGINE, of the value it holds too (R263, R264). -/
def engineWrite (s : State) (c e : Nat) : State :=
  if rdb s F.CNV_CTRL_EN c || decide (onEngine s c e ≥ 4) then raise s K.CMP_CNV_EVENT_ENG_REFUSED c
  else wr s F.CMP_CNV_CFG_ENGINE c 0 e

/-- ENGINE_WRITE (R263, R264). -/
def execEngineWrite (canvas : Fin 32) (engine : BitVec 3) (s : State) : Host.Outcome State Fault Refusal :=
  .next (engineWrite s canvas.val engine.toNat)

/-! ### The Varnish store (R290, R291, R294, R301) -/

/-- Granules of the store and of the spill region. -/
def storeTotal : Nat := 786432
def spillTotal (s : State) : Nat := rd s F.CMP_SPILL_SIZE_SPILL_MIB * 16384

/-- The runs of granules that a plane occupies, in the store or in the spill region. -/
def planeRuns (s : State) (spill : Bool) (pl : Plane) : List (Nat × Nat) :=
  if !pl.present then []
  else
    let inSpill := decide (pl.base < 0x1000000000)
    (if inSpill = spill then [((pl.base - granuleAddr s spill 0) / 64, recordG pl.count + indexG pl.count)] else []) ++
    (pl.tiles.filter fun t => t.2.2 == spill).map fun t => (t.1, t.2.1)

/-- The runs of a plane set. -/
def setRuns (s : State) (spill : Bool) (p : PlaneSet) : List (Nat × Nat) := planeRuns s spill p.under ++ planeRuns s spill p.above

/-- Every plane set that holds granules. -/
def allSets (s : State) : List PlaneSet :=
  (s.cmp.canvases.map fun e => e.2.planes.toList ++ e.2.pendingSet.toList ++ e.2.oldSets.map (·.2)).flatten

/-- The runs of granules in use. -/
def usedRuns (s : State) (spill : Bool) : List (Nat × Nat) := ((allSets s).map (setRuns s spill)).flatten

/-- Granules that runs occupy. -/
def runTotal (l : List (Nat × Nat)) : Nat := (l.map (·.2)).foldl (· + ·) 0

/-- CMP_STORE_FREE and CMP_SPILL_FREE (R301). -/
def storeFree (s : State) : Nat := storeTotal - runTotal (usedRuns s false)
def spillFree (s : State) : Nat := spillTotal s - runTotal (usedRuns s true)

/-- A tile is spilled somewhere (R301). -/
def anySpilled (s : State) : Bool := !(usedRuns s true).isEmpty

/-- The free runs of a region of `total` granules: where each starts and its length. -/
def freeRuns (used : List (Nat × Nat)) (total : Nat) : List (Nat × Nat) :=
  let r := (sortBy (fun a b => decide (a.1 ≤ b.1)) used).foldl (fun (a : List (Nat × Nat) × Nat) u =>
    (if a.2 < u.1 then a.1 ++ [(a.2, u.1 - a.2)] else a.1, max a.2 (u.1 + u.2))) ([], 0)
  if r.2 < total then r.1 ++ [(r.2, total - r.2)] else r.1

/-- A place for `n` contiguous granules beside the runs in use; where several would do, which one is a free value (R290 says
anywhere). -/
def placeRun (s : State) (used : List (Nat × Nat)) (total n : Nat) : State × Option Nat :=
  let fit := (freeRuns used total).filter fun g => decide (n ≤ g.2)
  if fit.isEmpty then (s, none)
  else
    let g := fit.getD (freeNat s % fit.length) (0, 0)
    let s := draw s
    (draw s, some (g.1 + freeNat s % (g.2 - n + 1)))

/-- Granules are written in the store or, through the engine's master, in the spill region. -/
def writeGranules (s : State) (c a : Nat) (l : List Byte) : State :=
  if a ≥ 0x1000000000 then { s with cmp := { s.cmp with store := Memory.writeBytes s.cmp.store (a - 0x1000000000) l } }
  else (busWrite s (engineMaster s c) a l).1

/-! ### The flattener (R282 to R289, R295) -/

/-- The plane set in use goes out of use at a latch and waits to be freed (R287). -/
def retireSet (s : State) (c : Nat) : State :=
  updCnv s c fun x =>
    { x with planes := none, planar := false,
             oldSets := x.oldSets ++ x.planes.toList.map fun q => ((galOf s (galleryOf s c)).frame, q) }

/-- A canvas has no use for planes: none in use, none building, no granules; which epoch CMP_CNV_PLANE_EPOCH shows then is free (R288, R302,
R303; log entry 131). -/
def dropPlanes (s : State) (c : Nat) : State :=
  let had := (cnvOf s c).planes.isSome
  let s := retireSet (discardFlatten s c) c
  let s := updCnv s c fun x => { x with pendingSet := none, trigger := none, direct := false, planeBad := [], underPx := [], overPx := [] }
  let s := wr (wr s F.CMP_CNV_STATE_PLANES c 0 0) F.CMP_CNV_STATE_FAIL_CODE c 0 0
  if had then draw (wr (wrReg s R.CMP_CNV_PLANE c 0 0) F.CMP_CNV_PLANE_EPOCH_EPOCH c 0 (freeNat s)) else s

/-- FLATTEN_START: the flattener of a canvas's engine takes its earliest trigger, leases the CURRENT buffer of each static layer's source and
notes the epoch in force with the time of its commit (R54, R286, R289). With no static layer left there is nothing to build. -/
def flattenBegin (s : State) (c : Nat) : State :=
  let x := cnvOf s c
  let p := planeLayers s c
  let g := galOf s (galleryOf s c)
  let x := { x with trigger := none }
  if (p.1 ++ p.2).isEmpty then setCnv s c x
  else
    let held := (p.1 ++ p.2).filterMap fun l => (srcOf s (layOf s l).desc.source).cur.map fun d => (l, leaseOf s d)
    let s := each held (fun s e => takeLease s e.2.desc) s
    let f : Flatten := { epoch := g.epoch, commit := g.commitTime, under := p.1, above := p.2, leases := held,
                         failed := decide (held.length < (p.1 ++ p.2).length) }
    let s := setCnv s c { x with flat := some f }
    if x.direct || x.planes.isNone then wr s F.CMP_CNV_STATE_PLANES c 0 1 else s

/-- Its engine's flattener is free, and no canvas of the engine has an earlier trigger (R289). -/
def flattenNext (s : State) (c : Nat) : Bool :=
  match (cnvOf s c).trigger with
  | none => false
  | some t => planesEn s c && (upto 32).all fun k =>
      engineOf s k != engineOf s c ||
      ((cnvOf s k).flat.isNone && match (cnvOf s k).trigger with
        | some u => !planesEn s k || decide (t.2 < u.2) || (t.2 == u.2 && decide (c ≤ k))
        | none => true)

/-- FLATTEN_START (R286, R289). -/
def execFlattenStart (canvas : Fin 32) (s : State) : Host.Outcome State Fault Refusal :=
  .next (if flattenNext s canvas.val then flattenBegin s canvas.val else s)

/-- A layer of a flatten with its leased frame and the tiles read of it. -/
structure FlatLayer where
  layer : Nat
  lease : Lease
  tiles : Map (List Byte)

/-- One tile of a flatten's leased frame is read with its CRC and checked (R60, R286): state, passes, bytes. -/
def flattenTileRead (s : State) (c layer : Nat) (k : Lease) (tile : Nat) : State × Bool × List Byte :=
  let m := engineMaster s c
  let b := tileOk s m k tile
  if b.2.1 then b
  else (checkFailed (tileMismatch b.1 tile layer c k.frame.source) k.frame, false, b.2.2)

/-- The reads of a flatten of one layer: the record header, and the tiles that its crop and region use; the crop must lie inside the frame
(R59, R60, R270, R286). -/
def flattenReads (s : State) (c : Nat) (e : Nat × Lease) : State × Bool × FlatLayer :=
  let k := e.2
  let h := readHeader s (engineMaster s c) k
  let d := (layOf s e.1).desc
  if !h.2.1 then (checkFailed (raise h.1 K.SEAL_EVENT_HEADER_BAD) k.frame, false, ⟨e.1, k, []⟩)
  else
    let used := match layerRegion s e.1 with | some q => tilesUsed d (placeOf s k) q q.2.1 q.2.2.2 | none => []
    let r := used.foldl (fun (a : State × Bool × Map (List Byte)) t =>
      let b := flattenTileRead a.1 c e.1 k t
      (b.1, a.2.1 && b.2.1, a.2.2.put t b.2.2)) (h.1, true, [])
    (r.1, r.2.1 && decide (d.srcX + d.srcW ≤ leAt h.2.2 24 2) && decide (d.srcY + d.srcH ≤ leAt h.2.2 26 2), ⟨e.1, k, r.2.2⟩)

/-- A plane's pixel from its layers, over (0, 0, 0, 0) (R283). -/
def flattenPx (s : State) (c : Nat) (held : List FlatLayer) (x y : Nat) : Px :=
  held.foldl (fun o e =>
    let d := (layOf s e.layer).desc
    let p := placeOf s e.lease
    if inside (regionOf d (canvasW s c) (canvasH s c)) x y then
      overPx (scaledPx (tileReader e.tiles p) d p ((x : Int) - d.dstX).toNat ((y : Int) - d.dstY).toNat) o (alpha12 d.alpha)
    else o) {}

/-- The pixels of canvas tile `t` of a plane, line by line. -/
def flattenTile (s : State) (c : Nat) (held : List FlatLayer) (t : Nat) : List Px :=
  let w := canvasW s c
  let tx := tileX w (t % tilesPerRow w)
  let ty := tileY (canvasH s c) (t / tilesPerRow w)
  ((upto (ty.2 - ty.1)).map fun j => (upto (tx.2 - tx.1)).map fun i => flattenPx s c held (tx.1 + i) (ty.1 + j)).flatten

/-- A plane being built: state, its plane so far, the runs taken in the store and in the spill region, CONTENT's register, and whether
space ran out. -/
structure Building where
  s : State
  plane : Plane
  store : List (Nat × Nat)
  spill : List (Nat × Nat)
  content : Nat
  full : Bool

/-- One tile of a plane: encoded in its smallest mode, placed in the store or, where that has no room or the whole plane is spilled, in
the spill region; its seal CRC and its index entry are written (R291, R293, R294). -/
def buildTile (c dom epoch : Nat) (whole : Bool) (held : List FlatLayer) (b : Building) (t : Nat) : Building :=
  if b.full then b
  else
    let px := flattenTile b.s c held t
    let raw := (px.map packPx).flatten
    let enc := encodeTile px
    let n := enc.length / 64
    let a := if whole then (b.s, none) else placeRun b.s b.store storeTotal n
    let q := match a.2 with
      | some g => (a.1, some (g, false))
      | none =>
        let r := placeRun a.1 b.spill (spillTotal a.1) n
        (also (r.2.isSome && !whole) (fun s => raise s K.CMP_CNV_EVENT_SPILL c) r.1, r.2.map fun g => (g, true))
    match q.2 with
    | none => { b with s := q.1, full := true }
    | some (g, sp) =>
      let s := writeGranules q.1 c (granuleAddr q.1 sp g) enc
      let s := writeGranules s c (b.plane.base + 64 + 4 * t) (leBytes (tileSeal s.straps.device dom c epoch t b.plane.base raw) 4)
      let s := writeGranules s c (b.plane.base + 64 * recordG b.plane.count + 4 * t) (leBytes (g + 2 ^ 20 * bit sp + 2 ^ 24 * n) 4)
      { b with
        s := s
        plane := { b.plane with tiles := b.plane.tiles ++ [(g, n, sp)] }
        store := if sp then b.store else (g, n) :: b.store
        spill := if sp then (g, n) :: b.spill else b.spill
        content := (crc32cUpdate (BitVec.ofNat 32 b.content) raw).toNat }

/-- A plane built from its layers: its record and index in one run, its tiles, and its record's header last (R286, R290, R294). -/
def buildPlane (b : Building) (c dom epoch : Nat) (commit : Int) (held : List FlatLayer) : Building :=
  if held.isEmpty || b.full then { b with plane := {} }
  else
    let w := canvasW b.s c
    let h := canvasH b.s c
    let count := tilesPerRow w * tileRows h
    let n := recordG count + indexG count
    let a := placeRun b.s b.store storeTotal n
    let q := match a.2 with
      | some g => (a.1, some (g, false))
      | none =>
        let r := placeRun a.1 b.spill (spillTotal a.1) n
        (also r.2.isSome (fun s => raise s K.CMP_CNV_EVENT_SPILL c) r.1, r.2.map fun g => (g, true))
    match q.2 with
    | none => { b with s := q.1, plane := {}, full := true }
    | some (g, sp) =>
      let base := granuleAddr q.1 sp g
      let b := { b with
        s := q.1, plane := { present := true, base := base, count := count }, content := 0xFFFFFFFF
        store := if sp then b.store else (g, n) :: b.store
        spill := if sp then (g, n) :: b.spill else b.spill }
      let b := (upto count).foldl (buildTile c dom epoch sp held) b
      let f : Frame := { format := 8, width := w, height := h, origin := 5, static := true,
                         capture := commit.toNat % 2 ^ 32, content := contentOf b.content }
      { b with s := draw (writeGranules b.s c base
          (withSum (headerBody b.s.straps.device dom c epoch (shortStamp (cmpNs b.s)) base f))) }

/-- A flatten fails: FLAT_FAIL, PLANES 3 with its code, and static layers composed directly (R286, R288, R294, R295). -/
def flattenFails (s : State) (c code : Nat) : State :=
  let s := updCnv s c fun x => { x with direct := true }
  raise (wr (wr s F.CMP_CNV_STATE_PLANES c 0 3) F.CMP_CNV_STATE_FAIL_CODE c 0 code) K.CMP_CNV_EVENT_FLAT_FAIL c

/-- The running flatten of a canvas ends: its leases drop; its set becomes pending, or it fails (R286, R287). -/
def flattenEnd (s : State) (c : Nat) (f : Flatten) : State :=
  let r := f.leases.foldl (fun (a : State × Bool × List FlatLayer) e =>
    let b := flattenReads a.1 c e
    (b.1, a.2.1 && b.2.1, a.2.2 ++ [b.2.2])) (s, !f.failed, [])
  let pick := fun (ls : List Nat) => ls.filterMap fun l => r.2.2.find? fun e => e.layer == l
  let done := fun (s : State) => each f.leases (fun s e => dropLease s e.2.desc) (updCnv s c fun x => { x with flat := none })
  if !r.2.1 then flattenFails (done r.1) c 2
  else
    let b0 : Building := { s := r.1, plane := {}, store := usedRuns r.1 false, spill := usedRuns r.1 true, content := 0, full := false }
    let u := buildPlane b0 c domUnder f.epoch f.commit (pick f.under)
    let o := buildPlane u c domOver f.epoch f.commit (pick f.above)
    if o.full then flattenFails (done o.s) c 1
    else
      let p : PlaneSet := { epoch := f.epoch, made := s.time.cyc, frames := f.leases.map (fun e => (e.1, e.2.frame)),
                            under := u.plane, above := o.plane }
      updCnv (done o.s) c fun x => { x with pendingSet := some p }

/-- FLATTEN_DONE (R283, R284, R286 to R295). -/
def execFlattenDone (canvas : Fin 32) (s : State) : Host.Outcome State Fault Refusal :=
  match (cnvOf s canvas.val).flat with
  | none => .next s
  | some f => .next (if accessWaits s (engineMaster s canvas.val) then s else flattenEnd s canvas.val f)

/-- PLANE_SET_FREE: the oldest plane set out of use is freed, once a later frame has been latched (R287). -/
def execPlaneSetFree (canvas : Fin 32) (s : State) : Host.Outcome State Fault Refusal :=
  .next (updCnv s canvas.val fun x => { x with oldSets := x.oldSets.drop 1 })

/-- Twice R287's crossing, 1 CMP + 3 SCN cycles, has passed since NET cycle `made`. -/
def pastCrossing (s : State) (g made : Nat) : Bool :=
  let n := max 1 (rd s F.CNV_GAL_PLL_N g)
  decide ((s.time.cyc - made) * 3200 * n ≥ 3125 * n + 60000 * rd s F.CNV_GAL_PLL_M g)

/-- A pending plane set comes into use: its granules and epoch are shown, and FLAT_DONE is raised (R287, R303). -/
def useSet (s : State) (c : Nat) (p : PlaneSet) : State :=
  let gr := fun (pl : Plane) => if pl.present then recordG pl.count + indexG pl.count + runTotal (pl.tiles.map fun t => (t.1, t.2.1)) else 0
  let sp := fun (pl : Plane) => bit (pl.tiles.any fun t => t.2.2)
  let s := updCnv (retireSet s c) c fun x =>
    { x with planes := some p, pendingSet := none, direct := x.direct && x.trigger.any (·.1), planar := true }
  let s := wr (wr s F.CMP_CNV_PLANE_UNDER_G c 0 (gr p.under)) F.CMP_CNV_PLANE_OVER_G c 0 (gr p.above)
  let s := wr (wr s F.CMP_CNV_PLANE_UNDER_SPILL c 0 (sp p.under)) F.CMP_CNV_PLANE_OVER_SPILL c 0 (sp p.above)
  let s := wr (wr s F.CMP_CNV_PLANE_EPOCH_EPOCH c 0 p.epoch) F.CMP_CNV_STATE_PLANES c 0 2
  raise (wr s F.CMP_CNV_STATE_FAIL_CODE c 0 0) K.CMP_CNV_EVENT_FLAT_DONE c

/-- What a latch does with a canvas's planes: with PLANES_EN at 0 or no static layer for them they go; a pending set that is old enough comes
into use; while one is built for the epoch in force, static layers are composed directly and PLANES is 1 (R287, R288, R302). -/
def latchPlanes (s : State) (c : Nat) : State :=
  let l := planeLayers s c
  if (l.1 ++ l.2).isEmpty then dropPlanes s c
  else
    let s := match (cnvOf s c).pendingSet with
      | some p =>
        if pastCrossing s (galleryOf s c) p.made then useSet s c p
        else updCnv s c fun x => { x with planar := x.planes.isSome && !x.direct }
      | none => updCnv s c fun x => { x with planar := x.planes.isSome && !x.direct }
    let x := cnvOf s c
    if !x.planar && (x.trigger.isSome || x.flat.isSome) then
      wr (wr s F.CMP_CNV_STATE_PLANES c 0 1) F.CMP_CNV_STATE_FAIL_CODE c 0 0
    else s

/-- The check of one plane in use: header by R59 and tiles by R60 and R62, over its decompressed bytes (R56): the state, the bad tiles, which
are counted, and the bytes of this read, which the frame's pixels come from. -/
def checkPlane (s : State) (c dom epoch : Nat) (pl : Plane) : State × List Nat × Map (List Byte) :=
  if !pl.present then (s, [], [])
  else
    let w := canvasW s c
    let rd1 := fun (s : State) (a n : Nat) =>
      if a ≥ 0x1000000000 then (s, 0, storeBytes s a n) else busRead s (engineMaster s c) a n
    let h := rd1 s pl.base 64
    let good := h.2.1 = 0 ∧ headerPasses h.2.2 s.straps.device dom c epoch pl.base = true
    let s := if good then h.1 else raise h.1 K.SEAL_EVENT_HEADER_BAD
    (upto pl.count).foldl (fun (a : State × List Nat × Map (List Byte)) t =>
      let tx := tileX w (t % tilesPerRow w)
      let ty := tileY (canvasH s c) (t / tilesPerRow w)
      let k := rd1 a.1 (pl.base + 64 + 4 * t) 4
      let i := rd1 k.1 (pl.base + 64 * recordG pl.count + 4 * t) 4
      let e := planeEntry i.1 i.2.2
      let d := rd1 i.1 e.1 e.2
      let raw := ((upto ((tx.2 - tx.1) * (ty.2 - ty.1))).map fun i => packPx (decodePx d.2.2 i)).flatten
      let px := a.2.2.put t raw
      if k.2.1 = 0 ∧ i.2.1 = 0 ∧ d.2.1 = 0 ∧ leNat k.2.2 = tileSeal s.straps.device dom c epoch t pl.base raw then
        (d.1, if good then a.2.1 else a.2.1 ++ [t], px)
      else
        let l := freeNat d.1 % 1024
        let s := draw d.1
        (draw (tileMismatch s t l c (freeNat s % 4096)), a.2.1 ++ [t], px)) (s, [], [])

/-- The planes of a frame are checked; a failure paints its tiles and triggers a flatten (R285, R351). -/
def checkPlanes (s : State) (c : Nat) : State :=
  let none' := updCnv s c fun x => { x with planeBad := [], underPx := [], overPx := [] }
  match (cnvOf s c).planes with
  | none => none'
  | some p =>
    if !usesPlanes s c then none'
    else
      let u := checkPlane s c domUnder p.epoch p.under
      let o := checkPlane u.1 c domOver p.epoch p.above
      let bad := u.2.1 ++ o.2.1.filter fun t => !u.2.1.contains t
      let s := updCnv o.1 c fun x => { x with planeBad := bad, underPx := u.2.2, overPx := o.2.2, clean := x.clean && bad.isEmpty }
      if bad.isEmpty then s else triggerFlatten s c false

/-! ### Too many layers at a pixel (R271) -/

/-- More than 16 directly composed layers cover some pixel of a canvas: it is enough to look where left edges meet top edges. -/
def overlaps (s : State) (c : Nat) : Bool :=
  let rs := ((directLayers s c).filter fun l => drawnAt (layOf s l) 0).filterMap fun l => layerRegion s l
  rs.any fun a => rs.any fun b => decide (16 < (rs.filter fun q => inside (some q) a.1 b.2.1).length)

/-! ### Write-back (R297, R298) -/


/-- The write-back tap of a canvas takes a buffer at a latch, or WB_NO_BUF is raised; a frame that its session would code is then a gap
(R202, R206, R298). -/
def latchWriteBack (s : State) (c : Nat) : State :=
  let x := cnvOf s c
  let s := match x.wb with
    | some w => also w.coded (fun s => encGap s c) (abandonBuffer (updCnv s c fun y => { y with wb := none }) w.desc)
    | none => s
  let e := encSelect s c
  let s := e.1
  if !bitOn (cnvOf s c).cfg 17 then also e.2 (fun s => encGap s c) s
  else
    let r := takeBuffer s (slice (cnvOf s c).cfg 18 4) (canvasW s c) (canvasH s c)
    match r.2 with
    | none => also e.2 (fun s => encGap s c) (raise r.1 K.CMP_CNV_EVENT_WB_NO_BUF c)
    | some d =>
      let g := galOf s (galleryOf s c)
      updCnv r.1 c fun y =>
        { y with wb := some { desc := d, frame := g.frame, latch := g.latchTime.toNat, epoch := g.epoch, coded := e.2, ord := (sesOf r.1 c).sel, sources := frameSources s c } }

/-- The verdict a layer held in tile row `r` of the present frame. -/
def verdictAt (x : Layer) (r : Nat) : Verdict := ((x.hist.find? fun e => decide (e.1 ≤ r)).map (·.2)).getD x.verdict

/-- The map code of a canvas tile: the most severe verdict over the evaluated regions that cover it; STATIC where none of them is composed directly, so
where planes alone do (R218). -/
def mapCode (s : State) (c t : Nat) : Nat :=
  let w := canvasW s c
  let r := t / tilesPerRow w
  let tx := tileX w (t % tilesPerRow w)
  let ty := tileY (canvasH s c) r
  let hit := (evaluatedOn s c).filter fun l => (layerRegion s l).any fun q =>
    decide (q.1 < tx.2 ∧ tx.1 < q.2.2.1 ∧ q.2.1 < ty.2 ∧ ty.1 < q.2.2.2)
  if !hit.any (directLayers s c).contains then verdictCode .static
  else verdictCode ((hit.map fun l => verdictAt (layOf s l) r).foldl (fun a v => if severity a < severity v then v else a) .static)

/-- The write-back frame of a canvas as its record names it (R54, R298). -/
def wbFrame (s : State) (c : Nat) (w : WriteBack) : Frame :=
  { format := (s.eas.pools.get (descOf s w.desc).pool {}).format, width := canvasW s c, height := canvasH s c, origin := 6, source := c,
    seq := w.frame % 2 ^ 32, capture := w.latch % 2 ^ 32, content := contentOf w.content, pubCyc := s.time.cyc }

/-- A line leaves the write-back tap. With the last line of a tile row, the row is written and sealed, and its map codes are noted (R54, R218,
R297, R298). -/
def tapLine (s : State) (c y : Nat) : State :=
  match (cnvOf s c).wb with
  | none => s
  | some w =>
    if y ≠ w.done then s
    else
      let f := wbFrame s c w
      let lines := w.lines ++ [(0, y, wbLine s c f.format y)]
      if (y + 1) % 16 ≠ 0 ∧ y + 1 ≠ canvasH s c then updCnv s c fun x => { x with wb := some { w with done := y + 1, lines := lines } }
      else
        let p := placeIn s w.desc f
        let m := 88 + engineOf s c
        let s1 := sealRow (writeLines s m p lines) m p domWriteBack c f.seq (y / 16) lines
        updCnv s1 c fun x =>
          { x with wb := some { w with done := y + 1, lines := [], content := contentRow w.content p (y / 16) lines,
                                       map := w.map ++ (rowTiles p (y / 16)).map (mapCode s c) } }

/-- WB_FRAME_PUBLISH: the last tile row of a write-back frame has been written: its record is completed, and it becomes the canvas's
write-back frame (R54, R298). -/
def execWbFramePublish (canvas : Fin 32) (s : State) : Host.Outcome State Fault Refusal :=
  let c := canvas.val
  match (cnvOf s c).wb with
  | none => .next s
  | some w =>
    if w.done < canvasH s c ∨ accessWaits s (88 + engineOf s c) then .next s
    else
      let f := wbFrame s c w
      let s1 := draw (writeHeader s (88 + engineOf s c) (placeIn s w.desc f) domWriteBack c f.seq (shortStamp (fabNs s)) f)
      let s1 := updDesc s1 w.desc fun x => { x with st := .current, source := c, seq := f.seq, frame := f }
      let s1 := match (cnvOf s1 c).wbCur with
        | some old => supersede s1 old.desc
        | none => s1
      let s1 := updCnv s1 c fun x => { x with wb := none, wbCur := some w }
      .next (encPublish (wr s1 F.CMP_CNV_WB_FRAME_FRAME c 0 f.seq) c w)

end Sys2Proof.Machine
end

