-- ==== Sys2Proof/Machine/Scan.lean ====
section
/-!
DEFINITION. Scan-out: galleries and canvases, line boundaries and latches, Weir levels, Gesso, and the Glass check (R255, R304 to R326,
R358 to R362).
-/

namespace Sys2Proof.Machine

/-- The canvases whose CNV_CTRL names gallery `g`, ascending. -/
def canvasesOf (s : State) (g : Nat) : List Nat := (upto 32).filter fun c => galleryOf s c == g

/-- L_max (R306). -/
def lastLatch (s : State) (g : Nat) : Nat := rd s F.CNV_GAL_VB_VBLANK_MAX g - latchLead s g

/-! ### Enabling (R313 to R317) -/

/-- Lane rate of a DisplayPort quad in Mbit/s, and its lanes (R315, R524). -/
def dpRate (s : State) (q : Nat) : Nat := [1620, 2700, 5400, 8100].getD (rd s F.LANE_DPTX_CFG_RATE q) 0
def dpLanes (s : State) (q : Nat) : Nat := 2 ^ rd s F.LANE_DPTX_CFG_LANES q

/-- A gallery's own fields break a rule of code SIZE (R25, R307, R316). -/
def gallerySize (s : State) (g : Nat) : Bool :=
  let n := rd s F.CNV_GAL_PLL_N g
  let m := rd s F.CNV_GAL_PLL_M g
  let h := rd s F.CNV_GAL_HV_HTOTAL g
  let v := rd s F.CNV_GAL_HV_VACT g
  let lo := rd s F.CNV_GAL_VB_VBLANK_MIN g
  let hi := rd s F.CNV_GAL_VB_VBLANK_MAX g
  let gd := rd s F.CNV_GAL_VB_LATCH_GUARD g
  let vs := rd s F.CNV_GAL_VSYNC_VSYNC_LEN g
  n == 0 || m == 0 || decide (6 * m < n) || decide (h < 32) || decide (v < 16) || decide (2160 < v) || decide (lo < 8) || decide (hi < lo) ||
    decide (lo < gd + 8) || vs == 0 || decide (lo < vs + rd s F.CNV_GAL_VSYNC_VBACK g + gd) ||
    decide (100000000 * n > 240 * m * (h * (v + lo)))

/-- A canvas's horizontal fields break a rule of code SIZE (R304, R316). -/
def canvasSize (s : State) (c : Nat) : Bool :=
  let w := rd s F.CNV_H_HACT c
  let f := rd s F.CNV_H_HFP c
  let y := rd s F.CNV_HSYNC_HSYNC_LEN c
  decide (w < 16) || decide (4096 < w) || f == 0 || y == 0 || decide (rd s F.CNV_GAL_HV_HTOTAL (galleryOf s c) ≤ f + y + w)

/-- A canvas allows at most 2 lines of blanking range, and its gallery has more (R313, R316). -/
def syncMismatch (s : State) (c : Nat) : Bool :=
  let g := galleryOf s c
  let k := rd s F.CNV_CTRL_OUT_KIND c
  decide (rd s F.CNV_GAL_VB_VBLANK_MIN g + 2 < rd s F.CNV_GAL_VB_VBLANK_MAX g) &&
    ((k == 1 && !rdb s F.CNV_CTRL_ADAPTIVE c) || k == 2)

/-- A DisplayPort canvas needs more than its link carries (R315). -/
def linkRateBroken (s : State) (c : Nat) : Bool :=
  let g := galleryOf s c
  let q := rd s F.CNV_CTRL_OUT_INDEX c
  rd s F.CNV_CTRL_OUT_KIND c == 1 &&
    decide (100 * rd s F.CNV_GAL_PLL_N g * 3 * depthBits (rdReg s R.CMP_CNV_CFG c) * 10 > 8 * dpLanes s q * dpRate s q * rd s F.CNV_GAL_PLL_M g)

/-- OUT_INDEX names no port of its kind, or an output that another enabled canvas drives (R316). -/
def outBusy (s : State) (c : Nat) : Bool :=
  let k := rd s F.CNV_CTRL_OUT_KIND c
  let i := rd s F.CNV_CTRL_OUT_INDEX c
  (k == 1 && quadUse s i != 1) || (k == 3 && (portQuad s i).isNone) ||
    ((k == 1 || k == 3) && (upto 32).any fun e =>
      e != c && rdb s F.CNV_CTRL_EN e && rd s F.CNV_CTRL_OUT_KIND e == k && rd s F.CNV_CTRL_OUT_INDEX e == i)

/-- The pixel rate of a canvas's directly composed layers, as (pixels per frame × N, HTOTAL × lines × M), in units of 100 MHz (R265). -/
def layerPixels (s : State) (c : Nat) : Nat :=
  ((directLayers s c).map fun l => match layerRegion s l with | some q => (q.2.2.1 - q.1) * (q.2.2.2 - q.2.1) | none => 0).foldl (· + ·) 0

/-- Pixels per second of a canvas's directly composed layers, rounded down. -/
def layerRate (s : State) (c : Nat) : Nat :=
  let r := refreshRate s (galleryOf s c)
  layerPixels s c * r.1 / max 1 r.2

/-- The engine of a canvas already composes canvases of other galleries beyond what R265 allows (R316). -/
def engineFull (s : State) (c : Nat) : Bool :=
  let l := (upto 32).filter fun e => engineOf s e == engineOf s c && galleryOf s e != galleryOf s c && rdb s F.CNV_CTRL_EN e
  decide (((l.map (layerRate s)).foldl (· + ·) 0) > 5120000000)

/-- The code of R316 that a canvas breaks; 0 for none. -/
def canvasCode (s : State) (c : Nat) : Nat :=
  if canvasSize s c then 1 else if syncMismatch s c then 2 else if linkRateBroken s c then 3 else if outBusy s c then 4
  else if engineFull s c then 5 else 0

/-- The code of R316 that a gallery breaks with its enabled canvases, and the canvas it names; which canvas is shown for a cause of the
gallery alone is a free value. -/
def galleryCode (s : State) (g : Nat) : Nat × Nat :=
  if gallerySize s g then (1, freeNat s % 32)
  else
    let l := ((canvasesOf s g).filter fun c => rdb s F.CNV_CTRL_EN c).filterMap fun c => if canvasCode s c = 0 then none else some (canvasCode s c, c)
    (sortBy (fun a b => decide (a.1 < b.1) || (a.1 == b.1 && decide (a.2 ≤ b.2))) l).headD (0, 0)

/-- A refusal of R316 or R317. -/
def configRefused (s : State) (g code c : Nat) : State :=
  raise (wr (wr s F.CNV_GAL_STATUS_CODE g 0 code) F.CNV_GAL_STATUS_CANVAS g 0 c) K.CNV_GAL_EVENT_CFG_REFUSED g

/-- A cause of Gesso holds (R323). -/
def gessoCause (x : GessoCauses) : Bool := x.start || x.hold || x.engine || x.empty || x.bist || x.tandem || x.glass

/-- A canvas switches to Gesso: GESSO_ON at each entry (R324). -/
def enterGesso (s : State) (c : Nat) : State :=
  let s := updCnv s c fun x => { x with armed := false, owesFrame := true }
  if inGesso s c then s else raise (wr s F.CNV_STATUS_GESSO c 0 1) K.CNV_EVENT_GESSO_ON c

/-- The frames of a send entry whose last lines will not come are given up, counted as not sent (DESIGN CHOICE, log entry 147: R129 does not speak of
a frame that is cut short). -/
def dropCutFrames (r : FlowRun) : FlowRun :=
  let whole := r.sending.filter fun f => f.lines.length == f.height
  { r with sending := whole, dropped := r.dropped + (r.sending.length - whole.length)
           sent := if r.sending.head?.any fun f => f.lines.length != f.height then 0 else r.sent }

/-- What a canvas was sending is cut short where it stands. -/
def cutSending (s : State) (c : Nat) : State :=
  each ((sendEntries s).filter fun e => sendCanvas e.2 == c) (fun s e => updRun s e.1 dropCutFrames) s

/-- A gallery loses its pixel clock: its canvases carry no video and are not live (R31), which the Watch words say at once (log entry 140). -/
def galleryDark (s : State) (g : Nat) : State :=
  let s := updGal s g fun x => { x with locked := false, latchDue := false, latched := false }
  let s := wr0 s F.PWR_CLK_STATUS_GALLERY_LOCK (setBits (rd s F.PWR_CLK_STATUS_GALLERY_LOCK) g 1 0)
  let s := each (canvasesOf s g) (fun s c => updCnv s c fun x =>
    { x with dark := true, glassOn := false, armed := false, owesFrame := true, gesso := { x.gesso with start := true } }) s
  let s := each (canvasesOf s g) cutSending s
  let now : Int := cmpNs s
  watchUpdate (draw s) g now

/-- The alignment settings as written (R311, R316). -/
def alignNow (s : State) (g : Nat) : Bool × Nat × Nat × Nat :=
  (rdb s F.CNV_GAL_CTRL_ALIGN_EN g, rd s F.CNV_GAL_ALIGN_BASE_BASE_NS g, rd s F.CNV_GAL_ALIGN_RATE_NUM g, rd s F.CNV_GAL_ALIGN_RATE_DEN g)

/-- A canvas of a gallery that stops is on it no more: it keeps no planes, and PLANES_EN counts as latched 0, so that joining again builds them anew
(R285, R288). -/
def leaveGallery (s : State) (c : Nat) : State :=
  if onCanvas s c then updCnv (wr (dropPlanes s c) F.CNV_STATUS_ACTIVE c 0 0) c fun x => { x with cfg := setBits x.cfg 16 1 0 } else s

/-- A write of CNV_GAL_CTRL: EN from 0 to 1 validates and starts the gallery, or is refused; EN from 1 to 0 stops its PLL; ALIGN_EN is
taken either way (R316). -/
def writeGalCtrl (s : State) (g v m : Nat) : State :=
  let was := rdb s F.CNV_GAL_CTRL_EN g
  let en := bitOn v 0
  let s := if bitOn m 1 then wr s F.CNV_GAL_CTRL_ALIGN_EN g 0 (slice v 1 1) else s
  if !bitOn m 0 || en == was then s
  else if en then
    let k := galleryCode s g
    if k.1 ≠ 0 then configRefused (if gallerySize s g then draw s else s) g k.1 k.2
    else
      updGal (wr s F.CNV_GAL_CTRL_EN g 0 1) g fun x =>
        { x with locked := false, first := true, epoch := 0, frame := 0, latched := false, latchDue := false, align := alignNow s g }
  else
    let s := galleryDark (wr s F.CNV_GAL_CTRL_EN g 0 0) g
    each (canvasesOf s g) leaveGallery s

/-- GALLERY_ENABLE: a write of CNV_GAL_CTRL (R248, R316). -/
def execGalleryEnable (g : Fin 8) (value : BitVec 32) (s : State) : Host.Outcome State Fault Refusal :=
  .next (writeGalCtrl s g.val value.toNat 0xFFFFFFFF)

/-- A write of CNV_CTRL: the fields other than EN are taken while the canvas is disabled; EN from 0 to 1 validates the canvas (R317), which
shows Gesso from then on where its gallery's clock and its link allow (R9, R317). The canvas counts as disabled from the latch at which it
has left its gallery. -/
def writeCnvCtrl (s : State) (c v m : Nat) : State :=
  let was := rdb s F.CNV_CTRL_EN c
  let on := bitOn v 0
  let free := !was && !rdb s F.CNV_STATUS_ACTIVE c
  let s := if free then wrReg s R.CNV_CTRL c 0 (setBits (regAfter s R.CNV_CTRL c 0 v m) 0 1 0) else s
  if !bitOn m 0 || on == was then s
  else if !on then wr s F.CNV_CTRL_EN c 0 0
  else
    let g := galleryOf s c
    let code := if gallerySize s g then 1 else canvasCode s c
    if code ≠ 0 then configRefused s g code c
    else
      let s := wr s F.CNV_CTRL_EN c 0 1
      let stopped := s.pwr.still != 0 || linkDown s c
      enterGesso (updCnv s c fun x => { x with dark := stopped, emptyX := none, gesso := { x.gesso with start := true } }) c

/-- CANVAS_ENABLE: a write of CNV_CTRL with EN at 1 (R317). -/
def execCanvasEnable (canvas : Fin 32) (value : BitVec 32) (s : State) : Host.Outcome State Fault Refusal :=
  .next (writeCnvCtrl s canvas.val (value.toNat ||| 1) 0xFFFFFFFF)

/-- CANVAS_DISABLE: a write of CNV_CTRL with EN at 0 (R317). -/
def execCanvasDisable (canvas : Fin 32) (value : BitVec 32) (s : State) : Host.Outcome State Fault Refusal :=
  .next (writeCnvCtrl s canvas.val (setBits value.toNat 0 1 0) 0xFFFFFFFF)

/-! ### Gesso (R322 to R324) -/

/-- The output stage takes the pixels of its line from the canvas's FIFO: the canvas is in active scan-out of its own composition, and not in
Gesso, which needs no FIFO (R318, R324, R383). -/
def needsFifo (s : State) (c : Nat) : Bool :=
  let x := galOf s (galleryOf s c)
  onCanvas s c && x.locked && decide (x.line < rd s F.CNV_GAL_HV_VACT (galleryOf s c)) && !inGesso s c && (s.tnd.cnvs.get c {}).stream == 0

/-- The FIFO is empty when the output stage needs the pixel in column `x` of the present line: Gesso from it to the end of the frame, and
EMPTY (R322). -/
def fifoEmpty (s : State) (c x : Nat) : State :=
  if !needsFifo s c then s
  else
    let s := updCnv s c fun k => { k with fifo := [], emptyNow := true, emptyX := some x, gesso := { k.gesso with empty := true } }
    enterGesso (raise s K.CNV_EVENT_EMPTY c) c

/-- FIFO_EMPTY (R322). -/
def execFifoEmpty (pixel : CanvasPixel) (s : State) : Host.Outcome State Fault Refusal :=
  .next (fifoEmpty s pixel.canvas.val pixel.x.toNat)

/-- The frame that ends was composed with every cause ended; every tile of every region composed without a substituted raw verdict has
verified, none having been held back or left unread; the FIFO was never empty; and the Glass check matched every canvas tile (R322, R358). -/
def frameVerified (s : State) (c : Nat) : Bool :=
  let x := cnvOf s c
  x.armed && x.clean && !x.emptyNow &&
    ((evaluatedOn s c).all fun l => (layOf s l).rawSubst || tilesVerified s l) &&
    (rd s F.CNV_CTRL_OUT_KIND c == 0 || (!x.glassBad && decide (tileRows (canvasH s c) ≤ x.glassRows)))

/-- What a latch does with a canvas's Gesso, given whether the frame that ends was verified (R323, R358). Causes that last to a latch end
at it. -/
def latchGesso (s : State) (c : Nat) (verified : Bool) : State :=
  let x := cnvOf s c
  let gs := { x.gesso with start := false, empty := false }
  let s := setCnv s c { x with gesso := gs }
  if !inGesso s c then s
  else if gessoCause gs then updCnv s c fun x => { x with armed := false }
  else if !x.owesFrame || verified then
    updCnv (wr s F.CNV_STATUS_GESSO c 0 0) c fun x => { x with armed := false, owesFrame := false }
  else updCnv s c fun x => { x with armed := true }

/-! ### Weir levels (R318 to R321) -/

/-- A layer is cut in a tile row: omitted for the rest of the frame and painted with Hatch from that row, recorded in CNV_LAST_CUT (R320). -/
def cutLayer (s : State) (c row l : Nat) : State :=
  let s := notVerified (updLay s l fun x => { x with cut := some row }) l
  let s := wr (wr s F.CNV_LAST_CUT_LAYER c 0 l) F.CNV_LAST_CUT_TILE_ROW c 0 row
  let s := wr (wr s F.CNV_LAST_CUT_VALID c 0 1) F.CNV_LAST_CUT_FRAME c 0 ((galOf s (galleryOf s c)).frame % 2 ^ 32)
  updCnv (paintCheck s l row) c fun x => { x with cutNow := true }

/-- The layers of a canvas that a cut in tile row `row` takes (R320). -/
def cutLayers (s : State) (c row : Nat) : List Nat :=
  (directLayers s c).filter fun l => fetches s l && !rowArrived s l row

/-- Active scan-out compares the FIFO level `new`, after `old`: at LOW the QoS rises, at PANIC panic is raised, at UNDER the layers without the data of
the tile row being composed are cut (R318 to R320). The DRAM controller takes the panic at PANIC_RAISE. -/
def weirCompare (s : State) (c row old new : Nat) : State :=
    let s := if rdb s F.CNV_STATUS_QOS_UP c then (if rd s F.CNV_WEIR_LOW c + 2 ≤ new then wr s F.CNV_STATUS_QOS_UP c 0 0 else s)
      else if new ≤ rd s F.CNV_WEIR_LOW c then raise (wr s F.CNV_STATUS_QOS_UP c 0 1) K.CNV_EVENT_WEIR_LOW c else s
    let s := if rdb s F.CNV_STATUS_PANIC_UP c then (if rd s F.CNV_WEIR_PANIC c + 2 ≤ new then wr s F.CNV_STATUS_PANIC_UP c 0 0 else s)
      else if new ≤ rd s F.CNV_WEIR_PANIC c then raise (wr s F.CNV_STATUS_PANIC_UP c 0 1) K.CNV_EVENT_WEIR_PANIC c else s
    if new ≤ rd s F.CNV_WEIR_UNDER c ∧ rd s F.CNV_WEIR_UNDER c < old then
      each (cutLayers s c row) (fun s l => cutLayer s c row l) (raise s K.CNV_EVENT_UNDERRUN c)
    else s

/-- The FIFO of a canvas holds `n` whole lines: those that leave next (R318). -/
def fifoLines (s : State) (c n : Nat) : List Nat :=
  let g := galleryOf s c
  let y := if (galOf s g).line < rd s F.CNV_GAL_HV_VACT g then (galOf s g).line else 0
  (upto n).map (y + ·)

/-- WEIR_LEVEL_CROSSING: the FIFO of a canvas comes to hold `level` lines, while tile row `row` is being composed. Active scan-out compares the level at
once; one that is reached in blanking is compared when it begins (R318 to R320). -/
def execWeirLevelCrossing (canvas : Fin 32) (level : BitVec 16) (row : BitVec 8) (s : State) : Host.Outcome State Fault Refusal :=
  let c := canvas.val
  let new := min 32 level.toNat
  let old := rd s F.CNV_STATUS_LEVEL c
  let g := galleryOf s c
  if !(onCanvas s c && (galOf s g).locked) then .next s
  else
    let active := decide ((galOf s g).line < rd s F.CNV_GAL_HV_VACT g)
    let s := updCnv (wr s F.CNV_STATUS_LEVEL c 0 new) c fun x =>
      { x with fifo := fifoLines s c new, weirDue := if active then none else some (row.toNat, (x.weirDue.map (·.2)).getD old) }
    .next (if active then weirCompare s c row.toNat old new else s)

/-- Active scan-out begins: a level that was reached in blanking is compared (R318). -/
def weirBegins (s : State) (c : Nat) : State :=
  match (cnvOf s c).weirDue with
  | none => s
  | some w => weirCompare (updCnv s c fun x => { x with weirDue := none }) c w.1 w.2 (rd s F.CNV_STATUS_LEVEL c)

/-! ### The Glass check (R359 to R362) -/

/-- The Glass check runs on a canvas: it has an output, video leaves it, and its link is up (R360, R519). -/
def glassRuns (s : State) (c : Nat) : Bool :=
  onCanvas s c && rd s F.CNV_CTRL_OUT_KIND c != 0 && !(cnvOf s c).dark && !linkDown s c

/-- The Glass check of a frame ends: consecutive frames with a mismatch make a canvas-level failure, and a Gesso frame in which every tile
matched ends it (R362). -/
def glassEnd (s : State) (c : Nat) : State :=
  let x := cnvOf s c
  let n := if x.glassBad then x.glassRun + 1 else 0
  let s := setCnv s c { x with glassOn := false, glassRun := n }
  if !x.glassFail && x.glassBad && decide (rd s F.LDG_CTRL_GLASS_FRAMES ≤ n) then
    raise (updCnv s c fun x => { x with glassFail := true, gesso := { x.gesso with glass := true } }) K.LDG_EVENT_GLASS_CANVAS
  else if x.glassFail && !x.glassBad && inGesso s c then
    updCnv s c fun x => { x with glassFail := false, gesso := { x.gesso with glass := false } }
  else s

/-- The tiles of a tile row as a mask. -/
def rowMask (s : State) (c : Nat) : Nat := 2 ^ tilesPerRow (canvasW s c) - 1

/-- At the end of blanking, every tile of a row whose comparison is not held counts as a mismatch (R361). -/
def glassMissing (s : State) (c : Nat) : State :=
  let x := cnvOf s c
  if !x.glassOn then s
  else
    let rows := (upto (tileRows (canvasH s c))).drop x.glassRows
    let s := glassEnd (if glassRuns s c then each rows (fun s r => glassMismatch s c r (rowMask s c)) s else s) c
    if s.cmp.proof.any fun p => (layOf s p.layer).desc.canvas == c then proofStep4 s else s

/-- A canvas's frame starts scan-out: the Glass check begins it afresh. -/
def glassStart (s : State) (c : Nat) : State :=
  let s := glassMissing s c
  updCnv s c fun x =>
    { x with glassPrev := x.glassMark, glassMark := false, glassBad := false, glassTiles := [], glassRows := 0, glassRegs := [],
             glassRefs := [], glassOn := glassRuns s c }

/-- The Glass references take in a line that leaves the output encoder; with the last line of a tile row the row's are complete (R359). -/
def glassLine (s : State) (c y : Nat) : State :=
  let x := cnvOf s c
  if !x.glassOn then s
  else
    let regs := encRegs s c y x.glassRegs
    let done := (y + 1) % 16 == 0 || y + 1 == canvasH s c
    updCnv s c fun x => { x with glassRegs := regs, glassRefs := if done then x.glassRefs ++ [regs.map contentOf] else x.glassRefs }

/-- The tiles of a row whose CRC at the tap differs from the encoder's reference, or has not come, as a mask (R359, R361). -/
def tapMask (refs taps : List Nat) : Nat :=
  ((upto refs.length).filter fun t => taps[t]? != refs[t]?).foldl (fun a t => a + 2 ^ t) 0

/-- The leftmost canvas tile of a tile row inside a layer's region. -/
def leftmostTile (s : State) (l : Nat) : Option Nat := (layerRegion s l).map fun q => q.1 / 128

/-- The layer whose GLASS proof is injected in this row of this canvas (R370). -/
def glassProof (s : State) (c row : Nat) : Option Proof :=
  s.cmp.proof.bind fun p =>
    if (layOf s p.layer).desc.canvas = c ∧ p.row = row then proofWaits s p.layer 3 else none

/-- GLASS_ROW_RESULT: the CRCs that the tap computed over a tile row, left to right, are compared with the encoder's references of that row,
which has left it; mismatching tiles are counted; after the last row the frame's check ends (R359, R361, R362). A proof of kind GLASS inverts
bit 0 of the reference of one tile for its own layer (R370, R372). -/
def execGlassRowResult (canvas : Fin 32) (row : BitVec 8) (crc : BitVec 32) (more : List (BitVec 32)) (s : State) : Host.Outcome State Fault Refusal :=
  let c := canvas.val
  let r := row.toNat
  let x := cnvOf s c
  if !(x.glassOn && glassRuns s c && decide (r = x.glassRows ∧ r < x.glassRefs.length)) then .next s
  else
    let refs := x.glassRefs.getD r []
    let taps := (crc :: more).map BitVec.toNat
    let s := setCnv s c { x with glassRows := r + 1 }
    let s := match glassProof s c r with
      | some p =>
        let t := (leftmostTile s p.layer).getD 0
        glassMismatch (injectProof s p) c r (tapMask refs taps) (some (p.layer, tapMask (refs.set t (refs.getD t 0 ^^^ 1)) taps))
      | none => glassMismatch s c r (tapMask refs taps)
    .next (if r + 1 = tileRows (canvasH s c) then glassEnd s c else s)

/-! ### Line boundaries (R305 to R312) -/

/-- A pacing layer is ready at this boundary (R309). -/
def pacingReady (s : State) (g l : Nat) : Bool :=
  let x := layOf s l
  match countedSeq s g x.desc.source, x.lease with
  | none, _ => false
  | some _, none => true
  | some q, some k => serialLater 32 q k.frame.seq

/-- The pacing condition of a gallery (R308, R309). -/
def pacingHolds (s : State) (g : Nat) : Bool :=
  ((canvasesOf s g).filter fun c => rdb s F.CNV_CTRL_EN c).all fun c =>
    (shownOn s c).all fun l => !(layOf s l).desc.pacing || pacingReady s g l

/-- The grid instant of index `k` (R311). -/
def gridAt (a : Bool × Nat × Nat × Nat) (k : Int) : Int := a.2.1 + k * 1000000000 * a.2.2.2 / (a.2.2.1 : Int)

/-- The earliest grid instant later than a time (R311). -/
def nextGrid (a : Bool × Nat × Nat × Nat) (t : Int) : Int :=
  let k := (t - a.2.1) * a.2.2.1 / (1000000000 * a.2.2.2 : Int)
  if t < gridAt a k then gridAt a k else if t < gridAt a (k + 1) then gridAt a (k + 1) else gridAt a (k + 2)

/-- The alignment condition of a gallery at an SCN time (R308, R311). -/
def alignHolds (s : State) (g : Nat) (now : Int) : Bool :=
  let x := galOf s g
  !x.align.1 || x.first || decide (nextGrid x.align x.latchTime ≤ now)

/-- The line after a boundary, and whether it is line 0 of the next frame (R305, R306). -/
def nextLine (s : State) (g : Nat) : Nat × Bool :=
  let x := galOf s g
  let v := rd s F.CNV_GAL_HV_VACT g
  if x.latched ∧ v ≤ x.line ∧ x.line + 1 = v + x.latchLine + latchLead s g then (0, true) else (x.line + 1, false)

/-- The latch conditions are tested at a blanking line (R306, R308). -/
def testLatch (s : State) (g : Nat) : State :=
  let x := galOf s g
  let v := rd s F.CNV_GAL_HV_VACT g
  if x.latched ∨ x.line < v + rd s F.CNV_GAL_VB_LATCH_GUARD g then s
  else
    let now : Int := scnNs s g
    let s := draw s
    let pace := x.first || pacingHolds s g
    let alig := alignHolds s g now
    let forced := decide (v + lastLatch s g ≤ x.line)
    if pace && alig then updGal s g fun x => { x with latchDue := true, forced := forced }
    else if forced then
      let s := also (!pace) (fun s => raise s K.CNV_GAL_EVENT_PACE_TIMEOUT g) s
      let s := also (!alig) (fun s => raise s K.CNV_GAL_EVENT_ALIGN_SLIP g) s
      updGal s g fun x => { x with latchDue := true, forced := true }
    else s

/-- A canvas at a line boundary: video that is to stop stops, and a cause brings in Gesso (R323, R518). -/
def canvasBoundary (s : State) (c : Nat) : State :=
  let s := updCnv s c fun x => if x.stopDue then { x with dark := true, stopDue := false, glassOn := false } else x
  let x := cnvOf s c
  if (rdb s F.CNV_CTRL_EN c || onCanvas s c) && gessoCause x.gesso && !(inGesso s c && x.owesFrame && !x.armed) then enterGesso s c else s

/-- A blanking line lies in vertical sync: the VSYNC_LEN lines that end VBACK lines before line 0; every blanking line before them is front
porch (R307). -/
def inVsync (s : State) (g line : Nat) : Bool :=
  let x := galOf s g
  let v := rd s F.CNV_GAL_HV_VACT g
  let back := rd s F.CNV_GAL_VSYNC_VBACK g
  let left := v + x.latchLine + latchLead s g - line
  x.latched && decide (v ≤ line ∧ back < left ∧ left ≤ back + rd s F.CNV_GAL_VSYNC_VSYNC_LEN g)

/-- The horizontal timing of a canvas as its connector carries it (R304, R326). -/
def lineTiming (s : State) (c : Nat) : List Nat :=
  [rd s F.CNV_H_HACT c, rd s F.CNV_H_HFP c, rd s F.CNV_HSYNC_HSYNC_LEN c, rd s F.CNV_GAL_HV_HTOTAL (galleryOf s c), rd s F.CNV_CTRL_HSYNC_POL c,
   rd s F.CNV_CTRL_VSYNC_POL c]

/-- Video leaves a canvas: it is enabled or still on its gallery, not stopped, and its link is up (R9, R31, R317). -/
def showsVideo (s : State) (c : Nat) : Bool :=
  (onCanvas s c || rdb s F.CNV_CTRL_EN c) && (galOf s (galleryOf s c)).locked && !(cnvOf s c).dark && !linkDown s c

/-- The line of a send entry's frame that has left the encoder is held for its packets (R129). A frame starts with its line 0. -/
def holdSendLine (s : State) (c y : Nat) (e : Nat × List Byte) : State :=
  let b := sendSamples s c (flowSampling e.2) y
  let latch := (galOf s (galleryOf s c)).latchTime.toNat
  updRun s e.1 fun r =>
    let r := if y = 0 then dropCutFrames r else r
    { r with sending := if y = 0 then r.sending ++ [{ latch := latch, height := canvasH s c, lines := [b] }]
                        else match r.sending.reverse with
                          | f :: t => if f.lines.length = y then ({ f with lines := f.lines ++ [b] } :: t).reverse else r.sending
                          | [] => [] }

/-- A line leaves a canvas's connector: DisplayPort video, the samples of an ST 2110-20 stream, or a KZ1100's LINE packet (R129, R305, R307,
R313 to R315, R537, R539). -/
def driveLine (s : State) (c line : Nat) : State :=
  let g := galleryOf s c
  let i := rd s F.CNV_CTRL_OUT_INDEX c
  let active := decide (line < rd s F.CNV_GAL_HV_VACT g)
  let s := if line = 0 then countUnsent s c else s
  if !showsVideo s c then s
  else match rd s F.CNV_CTRL_OUT_KIND c, active with
    | 1, _ => emit s (.video i c line (!active) (inVsync s g line) (lineTiming s c) (if active then outLine s c line else []))
    | 2, true => each ((sendEntries s).filter fun e => sendCanvas e.2 == c && rdb s F.NET_MAC_STATUS_LINK_UP (sendPort e.2))
        (fun s e => holdSendLine s c line e) s
    | 3, true => queuePacket s i {
        cls := 3, payload := outLine s c line,
        tag := [BitVec.ofNat 8 c] ++ leBytes line 2 ++ leBytes (galOf s g).frame 4 ++ [0] }
    | _, _ => s

/-- A composed line goes to the twin where it is exported and no pixel of it is held back (R61, R385, R539). -/
def exportLine (s : State) (c y : Nat) : State :=
  match canvasPort s c with
  | none => s
  | some p =>
    if paired s (galleryOf s c) && bitOn (rd s F.TND_EXPORT_CANVASES) c && featureOn s p 1 && (rowWaits s c (y / 16)).isEmpty then
      queuePacket s p {
        cls := 3, payload := composedLine s c y,
        tag := [BitVec.ofNat 8 c] ++ leBytes y 2 ++ leBytes (galOf s (galleryOf s c)).frame 4 ++ [1] }
    else s

/-- A canvas's line ends: what it held has left for the connector, the Glass reference, the write-back tap and the twin. -/
def lineEnds (s : State) (c line : Nat) : State :=
  let s := driveLine s c line
  let s := if onCanvas s c && decide (line < rd s F.CNV_GAL_HV_VACT (galleryOf s c)) then exportLine (tapLine (glassLine s c line) c line) c line else s
  updCnv s c fun x => { x with emptyX := none }

/-- The leftmost column of line `y` from which a canvas's composition is held back: that of a directly composed layer whose header or tiles
have not passed their checks (R61, R331; that the FIFO then runs empty there is DEDUCED from R322, log entry 104). -/
def heldFrom (s : State) (c y : Nat) : Option Nat :=
  ((rowWaits s c (y / 16)).filterMap fun l => (layerRegion s l).bind fun q => if q.2.1 ≤ y ∧ y < q.2.2.2 then some q.1 else none).foldl
    (fun a x => some (match a with | none => x | some b => min b x)) none

/-- An active line of a canvas starts: the twin's line must be held (R383, R384), and so must the own one where the output stage takes it
(R61, R322). -/
def lineStarts (s : State) (c y : Nat) : State :=
  let g := galleryOf s c
  let s := weirBegins s c
  let s := if onCanvas s c && paired s g && rdb s F.TND_STATUS_PAIRED && ((s.tnd.cnvs.get c {}).lines.getD y []).isEmpty then twinLate s c else s
  match heldFrom s c y with
  | some x => fifoEmpty s c x
  | none => s

/-- SCN_LINE_BOUNDARY: the gallery's line ends, and what it held has left; the line counter comes to the next one (R305, R306); canvases switch
to Gesso or stop (R323, R518); line 0 starts the frame, after missing Glass tiles have been counted (R361); an active line needs its pixels
(R322, R384); in blanking the latch conditions are tested (R308). At a boundary where a latch is due, the latch comes first. -/
def execScnLineBoundary (g : Fin 8) (s : State) : Host.Outcome State Fault Refusal :=
  let g := g.val
  let x := galOf s g
  if !(rdb s F.CNV_GAL_CTRL_EN g && x.locked) || x.latchDue then .next s
  else
    let v := rd s F.CNV_GAL_HV_VACT g
    let n := nextLine s g
    let s := each (canvasesOf s g) (fun s c => lineEnds s c x.line) s
    let s := if n.2 then wr s F.CNV_GAL_STATUS_VBLANK_LAST g 0 (x.line + 1 - v) else s
    let s := updGal s g fun x => { x with line := n.1, latched := x.latched && !n.2 }
    let s := wr (wr s F.CNV_GAL_STATUS_LINE g 0 n.1) F.CNV_GAL_STATUS_BLANK g 0 (bit (decide (v ≤ n.1)))
    let s := each (canvasesOf s g) canvasBoundary s
    let s := if n.2 then each (canvasesOf s g) glassStart s else s
    .next (if n.1 < v then each (canvasesOf s g) (fun s c => lineStarts s c n.1) s else testLatch s g)

/-! ### The latch (R235, R249, R255, R310) -/

/-- The pending commit of a gallery takes effect at this latch (R249, R251). -/
def commitDue (s : State) (g : Nat) (now : Int) : Bool :=
  match (galOf s g).pend with
  | none => false
  | some p => pastWindow s g ((s.time.cyc - p.since : Nat) * 1600) && match p.at? with | some t => p.late || decide ((t : Int) ≤ now) | none => true

/-- A staged layer flips: its slot becomes active (R245, R249); it starts when it becomes shown or changes source (R349), and triggers a
flatten when it is static or changes SHOW or Z; one that moves to another canvas changes SHOW on both (R285; log entry 59). -/
def flipLayer (s : State) (g l : Nat) : State :=
  let x := layOf s l
  let old := x.desc
  let new := x.stagedDesc
  let wasShown := x.committed && old.shown
  let starts := new.shown && (!wasShown || old.source != new.source)
  let moved := (x.committed && old.static) || new.static || wasShown != new.shown ||
    (x.committed && (old.z != new.z || (new.shown && old.canvas != new.canvas)))
  let s := setLay s l { x with committed := true, gallery := g, b := !x.b, staged := none, desc := new, override := none,
                               started := x.started || starts }
  if moved then
    let s := triggerFlatten s new.canvas true
    if x.committed && old.canvas != new.canvas && galleryOf s old.canvas == g then triggerFlatten s old.canvas true else s
  else s

/-- A commit takes effect (R242, R249, R253, R394). -/
def takeCommit (s : State) (g : Nat) : State :=
  let st := stagedIn s g
  let p := ((galOf s g).pend).getD {}
  let s := each st (fun s l => flipLayer s g l) s
  let s := updGal s g fun x => { x with epoch := (x.epoch + 1) % 2 ^ 32, commitTime := x.latchTime, pend := none, ackDue := true,
                                        ackUnlocked := p.unlocked, hitDue := some (seqCyc s) }
  let s := if mirrored s g && p.at?.isNone then updTgal s g fun x => { x with mirrorDue := some st } else s
  endQuarantine s

/-- The composer reads the active slot of a committed layer (R247, R349, R685). -/
def readSlot (s : State) (l : Nat) (failed : Bool) : State :=
  let x := layOf s l
  let r := busRead s (engineMaster s x.desc.canvas) (activeSlot s l) 128
  let s := r.1
  if failed || r.2.1 != 0 then setLay s l { x with desc := x.chip, tableFail := true }
  else
    let d := parseSlot r.2.2
    setLay s l { x with desc := d, tableFail := false, started := x.started || (d.shown && x.prevSource != some d.source),
                        prevSource := some d.source }

/-- What the checks of the last frame left on a layer ends with it; a frame in which nothing failed ends the run of R66. -/
def freshLayer (x : Layer) : Layer :=
  { x with
    lease := none, hdrOk := false, hdrFail := false, cropFail := false, tileFail := false, tableFail := false, glassFail := false, glassRow := none,
    cut := none, badTiles := [], fetch := [], got := [], crcs := none, paint := [], hist := [], ages := [], label := none,
    failRun := if x.failCounted then x.failRun else 0, persisted := x.persisted && x.failCounted, failCounted := false }

/-- The SCAN leases of a canvas at a latch: each evaluated layer that is not shown through a plane pins the buffer of its source that the latch
finds CURRENT (R234 to R236, R288, R310, R685). -/
def takeScanLeases (s : State) (c frame : Nat) : State :=
  let ls := (directLayers s c).filter fun l => evaluable s l && !(layOf s l).tableFail
  let r := ls.foldl (fun (a : State × List Nat) l =>
    match (srcOf a.1 (layOf a.1 l).desc.source).cur with
    | none => a
    | some d => (updLay (takeLease a.1 d) l fun x => { x with lease := some (leaseOf a.1 d) }, a.2 ++ [d])) (s, [])
  updCnv r.1 c fun x => { x with held := x.held ++ [(frame, r.2)] }

/-- A canvas joins its gallery at this latch, or leaves it (R317). One that leaves keeps no planes, and PLANES_EN counts as latched 0, so that
joining again builds them anew (R285, R288). -/
def joinLeave (s : State) (c : Nat) : State :=
  let en := rdb s F.CNV_CTRL_EN c
  if en && !onCanvas s c then
    let stopped := s.pwr.still != 0 || linkDown s c
    let s := updCnv (wr s F.CNV_STATUS_ACTIVE c 0 1) c fun x =>
      { x with dark := stopped, glassOn := false, glassBad := false, glassMark := false, glassPrev := false, glassTiles := [], glassRows := 0,
               glassRefs := [], glassRun := 0, glassFail := false }
    enterGesso s c
  else if !en && onCanvas s c then
    let s := dropPlanes s c
    let s := match (cnvOf s c).wb with | some w => also w.coded (fun s => encGap s c) (abandonBuffer s w.desc) | none => s
    updCnv (wr s F.CNV_STATUS_ACTIVE c 0 0) c fun x =>
      { x with dark := true, glassOn := false, wb := none, cfg := setBits x.cfg 16 1 0 }
  else if en && (cnvOf s c).dark && s.pwr.still == 0 && !linkDown s c then
    enterGesso (updCnv s c fun x => { x with dark := false }) c
  else s

/-- The configuration of a canvas is latched: without a write of the same SCN cycle; PLANES_EN from 0 to 1 triggers a flatten (R285, R302). -/
def latchConfig (s : State) (c : Nat) : State :=
  let old := planesEn s c
  let now := match (cnvOf s c).before.find? fun b => sameScnCycle s (galleryOf s c) b.2.2 with
    | some b => (b.1, b.2.1)
    | none => (rdReg s R.CMP_CNV_CFG c, rdReg s R.CMP_CNV_BG c)
  let s := updCnv s c fun x => { x with cfg := now.1, bg := now.2 }
  if planesEn s c && !old then triggerFlatten s c false else s

/-- The composer's part of a latch for one canvas that stays in its gallery. -/
def latchCanvas (s : State) (frame c : Nat) : State :=
  let s := takeScanLeases (latchPlanes s c) c frame
  let s := updCnv s c fun x => { x with cutNow := false, clean := true, emptyNow := false, emptyX := none }
  let s := if overlaps s c then raise s K.CMP_CNV_EVENT_OVERLAP c else s
  latchWriteBack (checkPlanes s c) c

/-- The bytes of the snapshot record of a gallery (R256). -/
def snapshotRecord (s : State) (g : Nat) : List Byte :=
  let x := galOf s g
  let ls := (s.eas.layers.filter fun e => e.2.committed && e.2.gallery == g).map (·.1)
  let t := x.latchTime.toNat
  let head := leBytes 0x50414E53 4 ++ [1, BitVec.ofNat 8 g, BitVec.ofNat 8 s.straps.device, 0] ++ leBytes x.epoch 4 ++ leBytes x.frame 6 ++
    leBytes (t / 1000000000) 6 ++ leBytes (t % 1000000000) 4 ++ leBytes ls.length 2 ++ List.replicate 30 0
  withSum head ++ (ls.map fun l : Nat =>
    let y := layOf s l
    let k := y.lease
    leBytes l 2 ++ ([BitVec.ofNat 8 y.desc.canvas, BitVec.ofNat 8 (verdictCode y.verdict + 8 * bit k.isSome)] : List Byte) ++
      leBytes y.desc.source 2 ++ ([0, 0] : List Byte) ++
      leBytes (match k with | some q => q.frame.seq | none => 0) 4 ++ leBytes (match k with | some q => q.desc | none => 0) 2 ++
      leBytes (ageMs s y 65535) 2).flatten

/-- An armed snapshot is written (R255). -/
def writeSnapshot (s : State) (g : Nat) : State :=
  match (galOf s g).snap with
  | none => s
  | some a =>
    let s := draw (busWrite s 51 a (snapshotRecord s g)).1
    raise (updGal s g fun x => { x with snap := none }) K.EAS_GAL_EVENT_SNAP_DONE g

/-- The frame number, the latch time and the status of a latch (R248, R306, R308, R325). -/
def countLatch (s : State) (g : Nat) (now : Int) : State :=
  let v := rd s F.CNV_GAL_HV_VACT g
  let s := updGal s g fun x =>
    { x with frame := if x.first then 0 else (x.frame + 1) % 2 ^ 48, first := false, latchDue := false, latched := true,
             latchLine := x.line - v, latchTime := now, align := alignNow s g, stateDue := true }
  let s := wr s F.CNV_GAL_STATUS_FORCED g 0 (bit (galOf s g).forced)
  wr s F.CNV_GAL_LATCH_SHORT g 0 (shortStamp now.toNat)

/-- GALLERY_LATCH: a gallery takes its latch point in one SCN edge (R310): the frame that ends is judged, Tandem acts, the frame number and a
due commit advance, slots and configuration are read, canvases join and leave, leases are taken, and the Ledger evaluates every region.
`failed` names the layers whose slot read gets an error response (R685). -/
def execGalleryLatch (g : Fin 8) (failed : List (Fin 1024)) (s : State) : Host.Outcome State Fault Refusal :=
  let g := g.val
  if !(rdb s F.CNV_GAL_CTRL_EN g && (galOf s g).locked && (galOf s g).latchDue) then .next s
  else
    -- the frame that ends
    let s := each (evaluatedIn s g) settleChecks s
    let s := judgePaint s (evaluatedIn s g) (tileRows (rd s F.CNV_GAL_HV_VACT g))
    let ok := (evaluatedIn s g).filter (proved s)
    let good := (canvasesOf s g).filter (frameVerified s)
    -- Tandem, frame number, commit
    let scn : Int := scnNs s g
    let image := paired s g && (s.tnd.images.find g).isSome
    let s := countLatch (tandemBefore (draw s) g scn.toNat) g scn
    let due := commitDue s g scn
    let s := if due then takeCommit s g else s
    let s := if image then each (canvasesOf s g) (fun s c => triggerFlatten s c true) s else s
    -- layers and configuration
    let mine := (s.eas.layers.filter fun e => e.2.committed && e.2.gallery == g).map (·.1)
    let s := each mine (fun s l => updLay s l freshLayer) s
    let s := each mine (fun s l => readSlot s l (failed.any fun f => f.val == l)) s
    let s := if due || image then each mine (fun s l => updLay s l fun x => if x.tableFail then x else { x with chip := x.desc }) s else s
    let s := each (canvasesOf s g) (fun s c => wr s F.CMP_CNV_STATE_SHOWN c 0 (shownOn s c).length) s
    let s := each (canvasesOf s g) joinLeave s
    let on := (canvasesOf s g).filter (onCanvas s)
    let s := each on latchConfig s
    let s := if s.pwr.still = 0 then each on (fun s c => latchCanvas s (galOf s g).frame c) s
      else each (canvasesOf s g) (fun s c => updCnv s c fun x => { x with dark := true, glassOn := false }) s
    -- output, Ledger, snapshot
    let s := selectStreams s g
    let s := each on (fun s c => latchGesso s c (good.contains c)) s
    let now : Int := cmpNs s
    let s := ledgerLatch (draw s) g now ok
    .next (tandemAfter (writeSnapshot s g) g)

/-- A sequencer that waits for a latch of a gallery has it, where EAS_GAL_STATE changes after the FAB edge at which the wait reached the FAB
island (R452). -/
def wakeLatchWaits (s : State) (g : Nat) : State :=
  let x := galOf s g
  each (upto 16) (fun s n => updSeq s n fun q =>
    match q.wait with
    | some (.latch r k since) => if k = g ∧ since < fabCyc s then { q with wait := some (.latched r (x.epoch + (if q.version = 1 then 0 else 2 ^ 32 * (x.frame % 2 ^ 32)))) } else q
    | _ => q) s

/-- GAL_STATE_UPDATE: EAS_GAL_STATE changes after a latch, and after a commit EAS_GAL_ACK: COMMITTED is raised, its event signalled, and a
plain commit mirrored with the latch time as its target (R251, R253, R254, R394, R452). -/
def execGalStateUpdate (g : Fin 8) (s : State) : Host.Outcome State Fault Refusal :=
  let g := g.val
  let x := galOf s g
  if !x.stateDue then .next s
  else
    let s := updGal s g fun x => { x with stateDue := false, ackDue := false, ackUnlocked := false }
    let s := wr (wr s F.EAS_GAL_STATE_EPOCH g 0 x.epoch) F.EAS_GAL_STATE_FRAME g 0 (x.frame % 2 ^ 32)
    let s := wakeLatchWaits s g
    if !x.ackDue then .next s
    else
      let s := wr (wr s F.EAS_GAL_ACK_EPOCH g 0 x.epoch) F.EAS_GAL_ACK_FRAME g 0 (x.frame % 2 ^ 32)
      let s := signal (raise s K.EAS_GAL_EVENT_COMMITTED g) (96 + g)
      let s := also x.ackUnlocked (fun s => raise s K.EAS_GAL_EVENT_UNLOCKED g) s
      match (tgalOf s g).mirrorDue with
      | none => .next s
      | some ls =>
        .next (sendMirror (updTgal s g fun t => { t with mirrorDue := none }) g false (ls.map fun l => (l, activeSlot s l)) x.latchTime.toNat x.epoch)

/-- HIT_TABLE_SWITCH: 1 SCN + 3 SEQ cycles after the latch at which its epoch advanced, the hit-test table of a gallery takes the layers of
the epoch in force (R471). -/
def execHitTableSwitch (g : Fin 8) (s : State) : Host.Outcome State Fault Refusal :=
  let g := g.val
  match (galOf s g).hitDue with
  | none => .next s
  | some since =>
    let f := fun (e : Nat × Layer) =>
      if e.2.committed ∧ e.2.gallery = g then (e.1, { e.2 with hit := some (g, e.2.chip) })
      else if (e.2.hit.map (·.1)) = some g then (e.1, { e.2 with hit := none })
      else e
    .next (if (seqCyc s - since) * rd s F.CNV_GAL_PLL_N g < 12 * rd s F.CNV_GAL_PLL_M g + 3 * rd s F.CNV_GAL_PLL_N g then s
      else updGal { s with eas := { s.eas with layers := s.eas.layers.map f } } g fun x => { x with hitDue := none, hitEpoch := x.epoch })

end Sys2Proof.Machine
end

