-- ==== Sys2Proof/Machine/Touch.lean ====
section
/-!
DEFINITION. Console touch: scans, contacts and baselines, the mapping and the hit test, touch records and their events, wake scans and
self-test (R459 to R479).
-/

namespace Sys2Proof.Machine

/-- Touch input `i`. -/
def tchOf (s : State) (i : Nat) : Touch := s.tch.get i {}
/-- Touch input `i` changed. -/
def updTch (s : State) (i : Nat) (f : Touch → Touch) : State := { s with tch := s.tch.put i (f (tchOf s i)) }

/-! ### Mapping and hit test (R469 to R471) -/

/-- The layers of a canvas in the on-chip table, highest first in the order of R271. -/
def hitLayers (s : State) (c : Nat) : List (Nat × LayerDesc) :=
  let g := rd s F.CNV_CTRL_GALLERY c
  let l := s.eas.layers.filterMap fun e =>
    match e.2.hit with
    | some (h, d) => if h = g ∧ d.shown ∧ d.canvas = c then some (e.1, d) else none
    | none => none
  sortBy (fun a b => decide (b.2.z < a.2.z) || (a.2.z == b.2.z && decide (b.1 ≤ a.1))) l

/-- A point lies in the region of a descriptor (R269). -/
def inRegion (s : State) (c : Nat) (d : LayerDesc) (x y : Int) : Bool :=
  match regionOf d (canvasW s c) (canvasH s c) with
  | some q => decide ((q.1 : Int) ≤ x) && decide (x < q.2.2.1) && decide ((q.2.1 : Int) ≤ y) && decide (y < q.2.2.2)
  | none => false

/-- The hit test: the layer hit, its descriptor, and the layer-local point (R470). -/
def hitTest (s : State) (c : Nat) (x y : Int) : Option (Nat × LayerDesc × Int × Int) :=
  ((hitLayers s c).find? fun e => inRegion s c e.2 x y).map fun e => (e.1, e.2, x - e.2.dstX, y - e.2.dstY)

/-- Coefficient `k` of an input's transform. -/
def coef (s : State) (i k : Nat) : Int := signedOf 32 (rd s F.TCH_XFORM_COEF i k)

/-- The canvas point of a contact (R469); the shift is arithmetic. -/
def mapPoint (s : State) (i u v : Nat) : Int × Int :=
  ((coef s i 0 * u + coef s i 1 * v + coef s i 2) / 65536, (coef s i 3 * u + coef s i 4 * v + coef s i 5) / 65536)

/-! ### Reports (R472 to R475) -/

/-- The 16 bytes of an entry. -/
def entryOf (s : State) (i : Nat) (e : TouchEntry) : List Byte :=
  let c := rd s F.TCH_ROUTE_CANVAS i
  let p := mapPoint s i e.u e.v
  let h := hitTest s c p.1 p.2
  let hit := match h with
    | some (l, d, x, y) => leBytes l 2 ++ leBytes d.source 2 ++ leBytes (unsignedOf 16 x) 2 ++ leBytes (unsignedOf 16 y) 2
    | none => List.replicate 8 0
  ([BitVec.ofNat 8 (e.id % 16 + 16 * e.event), BitVec.ofNat 8 (c + 128 * bit h.isSome)] : List Byte) ++ hit ++
    leBytes (unsignedOf 16 (clampI (-32768) 32767 p.1)) 2 ++ leBytes (unsignedOf 16 (clampI (-32768) 32767 p.2)) 2 ++
    leBytes (min 65535 e.strength) 2

/-- DOWN entries first, each part in ascending ID (R473). -/
def entryOrder (l : List TouchEntry) : List TouchEntry :=
  let up := fun (x : List TouchEntry) => sortBy (fun a b => decide (a.id ≤ b.id)) x
  up (l.filter fun e => e.event == 1) ++ up (l.filter fun e => e.event != 1)

/-- An entry is DOWN, UP or ABSORBED. -/
def isContact (e : TouchEntry) : Bool := e.event == 1 || e.event == 4 || e.event == 5

/-- A report with entries writes the record of an input into the data memory of its sequencer, and its event is owed (R472, R474). -/
def writeReport (s : State) (i stamp : Nat) (l : List TouchEntry) : State :=
  if l.isEmpty then s
  else
    let l := (entryOrder l).take 10
    let n := tchOf s i
    let contact := l.any isContact
    let rep := leBytes n.report 4
    let body := rep ++ ([BitVec.ofNat 8 i, BitVec.ofNat 8 l.length, BitVec.ofNat 8 (bit contact), 0] : List Byte) ++ leBytes stamp 4 ++
      leBytes (galOf s (rd s F.CNV_CTRL_GALLERY (rd s F.TCH_ROUTE_CANVAS i))).hitEpoch 4 ++ bytesAt (l.map (entryOf s i)).flatten 0 160 ++
      rep ++ List.replicate 12 0
    let s := updSeq s (rd s F.TCH_ROUTE_SEQ i) fun q => { q with dmem := Memory.writeBytes q.dmem (rd s F.TCH_ROUTE_REC i * 8) body }
    let wait := (if i < 2 then 2256 else 400) + 64 * l.length
    updTch s i fun x => { x with report := (x.report + 1) % 2 ^ 32, due := x.due ++ [(seqCyc s + wait, contact)] }

/-- Of the events that reports owe, the one due first; of several due in one cycle that of the oldest report (R474). -/
def nextDue (l : List (Nat × Bool)) : Option (Nat × Bool) :=
  l.foldl (fun a x => match a with | none => some x | some b => if x.1 < b.1 then some x else a) none

/-- TOUCH_REPORT_EVENT: in its SEQ cycle the event that a report of an input owes is signalled: contact or motion (R474, R657). -/
def execTouchReportEvent (i : Fin 6) (s : State) : Host.Outcome State Fault Refusal :=
  match nextDue (tchOf s i.val).due with
  | none => .next s
  | some (t, c) =>
    .next (if seqCyc s < t then s
      else signal (updTch s i.val fun x => { x with due := x.due.erase (t, c) }) ((if c then 120 else 128) + i.val))

/-- The contact list of an input changed; TCH_STATUS.CONTACTS follows on a port. -/
def setContacts (s : State) (i : Nat) (l : List Contact) : State :=
  let had := !(tchOf s i).contacts.isEmpty || !l.isEmpty
  let s := updTch s i fun x => { x with contacts := l, idleFrom := if had then s.time.cyc else x.idleFrom }
  if i < 2 then wr s F.TCH_STATUS_CONTACTS i 0 l.length else s

/-- Every contact of an input ends with an UP entry at its last position (R478, R548). -/
def endContacts (s : State) (i : Nat) : State :=
  let l := (tchOf s i).contacts.map fun c => ({ id := c.id, event := 4, u := c.u, v := c.v, strength := c.delta } : TouchEntry)
  setContacts (writeReport (draw s) i (shortStamp (seqNs s)) l) i []

/-! ### Scans (R461 to R468) -/

/-- Entry `(k, j)` of the Walsh-Hadamard matrix of Sylvester's construction (R461). -/
def walsh (k j : Nat) : Int :=
  if ((upto 4).filter fun b => bitOn k b && bitOn j b).length % 2 = 0 then 1 else -1

/-- First row and length of the group of a drive line (R461). -/
def groupOf (d : Nat) : Nat × Nat := if d < 16 then (0, 16) else if d < 32 then (16, 16) else (32, 4)

/-- The value of node (d, s) from the counts of a scan, chip by chip and sense line by sense line (R463). -/
def nodeValue (counts : List (BitVec 16)) (d sense : Nat) : Int :=
  let g := groupOf d
  ((upto g.2).map fun j => walsh (d - g.1) j * (counts.getD ((g.1 + j) * 24 + sense) 0).toNat).foldl (· + ·) 0

/-- Drive and sense lines of a node, and the nodes within `r` of it. -/
def nodesNear (r n : Nat) : List Nat :=
  let d := n / 24
  let c := n % 24
  let ds := (upto 36).filter fun k => decide (k ≤ d + r) && decide (d ≤ k + r)
  let cs := (upto 24).filter fun k => decide (k ≤ c + r) && decide (c ≤ k + r)
  (ds.map fun k => cs.map fun j => 24 * k + j).flatten

/-- The delta of a node (R463). -/
def nodeDelta (x : Touch) (n : Nat) : Int := x.base.get n 0 - x.vals.get n 0

/-- A node is a contact peak (R465). -/
def isPeak (x : Touch) (thresh n : Nat) : Bool :=
  let m := nodeDelta x n
  decide ((thresh : Int) ≤ m) && (nodesNear 1 n).all fun k => decide (nodeDelta x k < m) || (decide (nodeDelta x k = m) && decide (n ≤ k))

/-- The position of a peak in panel units (R465). -/
def peakAt (x : Touch) (n : Nat) : Nat × Nat :=
  let l := nodesNear 1 n
  let w := fun k => (max (nodeDelta x k) 0).toNat
  let sum := fun (f : Nat → Nat) => (l.map f).foldl (· + ·) 0
  let sw := sum w
  let pos := fun (wi : Nat) => (64 * wi + 32 * sw + sw / 2) / max 1 sw
  (pos (sum fun k => w k * (k / 24)), pos (sum fun k => w k * (k % 24)))

/-- Distance of two positions (R466). -/
def panelDistance (a b : Nat × Nat) : Nat := (a.1 - b.1) + (b.1 - a.1) + ((a.2 - b.2) + (b.2 - a.2))

/-- The nearest pairs first, at an equal distance the lower contact ID: the pairs of contact and peak node that match (R466). -/
def matchPeaks : Nat → List Contact → List (Nat × Nat × Nat) → List (Contact × Nat × Nat × Nat)
  | 0, _, _ => []
  | fuel + 1, cs, ps =>
    let pairs := (cs.map fun c => ps.map fun p => (panelDistance (c.u, c.v) p.2, c, p)).flatten.filter fun q => decide (q.1 ≤ 384)
    match sortBy (fun a b => decide (a.1 < b.1) || (a.1 == b.1 && (decide (a.2.1.id < b.2.1.id) ||
        (a.2.1.id == b.2.1.id && decide (a.2.2.1 ≤ b.2.2.1))))) pairs with
    | [] => []
    | q :: _ => (q.2.1, q.2.2) :: matchPeaks fuel (cs.filter (·.id != q.2.1.id)) (ps.filter (·.1 != q.2.2.1))

/-- The lowest IDs of 0 to 9 that no contact of the scan before bears, for the new peaks in order (R466); the rest find none. -/
def newContacts (used : List Nat) (cyc : Nat) : List (Nat × Nat × Nat × Nat) → List Contact × Nat
  | [] => ([], 0)
  | p :: t =>
    match lowest 10 fun k => !used.contains k with
    | none => let r := newContacts used cyc t; (r.1, r.2 + 1)
    | some k =>
      let r := newContacts (k :: used) cyc t
      ({ id := k, u := p.2.1, v := p.2.2.1, node := p.1, delta := p.2.2.2, down := cyc } :: r.1, r.2)

/-- The baselines of nodes set to their values. -/
def rebase (x : Touch) (l : List Nat) : Touch := { x with base := l.foldl (fun b n => b.put n (x.vals.get n 0)) x.base }

/-- A scan that sets every baseline reports nothing (R467). -/
def freshScan (s : State) (i : Nat) : State :=
  setContacts (updTch s i fun x => { rebase x (upto 864) with fresh := false, neg := [] }) i []

/-- A scan moves the baselines of nodes away from contacts (R467, second row). -/
def trackBase (s : State) (i : Nat) (peaks : List Nat) : State :=
  let th := rd s F.TCH_THRESH_TOUCH_THRESH i
  let under := (peaks.map (nodesNear 1)).flatten
  updTch s i fun x =>
    let l := (upto 864).filter fun n => !under.contains n && decide (2 * (nodeDelta x n).natAbs < th)
    { x with base := l.foldl (fun b n => b.put n (x.base.get n 0 + Int.tdiv (x.vals.get n 0 - x.base.get n 0) 16)) x.base }

/-- Nodes negative in four consecutive scans are re-baselined with their neighbours (R467, third row); `d` holds the deltas of the
scan. -/
def rebaseNegative (s : State) (i : Nat) (d : Nat → Int) : State :=
  let th := rd s F.TCH_LIMITS_NEG_THRESH i
  let x := tchOf s i
  let counts := (upto 864).filterMap fun n => if d n ≤ -(th : Int) then some (n, x.neg.get n 0 + 1) else none
  let hit := (counts.filter fun e => decide (4 ≤ e.2)).map (·.1)
  let s := updTch s i fun x => { rebase x (hit.map (nodesNear 1)).flatten with neg := counts.filter fun e => decide (e.2 < 4) }
  each hit (fun s _ => raise s K.TCH_EVENT_REBASE_NEG i) s

/-- A scan with baselines: contacts matched, ended, started and absorbed, baselines moved, the report written (R466 to R468, R472). -/
def contactScan (s : State) (i : Nat) : State :=
  let x := tchOf s i
  let th := rd s F.TCH_THRESH_TOUCH_THRESH i
  let peaks := ((upto 864).filter (isPeak x th)).map fun n => (n, peakAt x n)
  let matched := matchPeaks (x.contacts.length + 1) x.contacts peaks
  let pairs := matched.filter fun q => decide ((rd s F.TCH_THRESH_RELEASE_THRESH i : Int) ≤ nodeDelta x q.2.1)
  let gone := x.contacts.filter fun c => !pairs.any fun q => q.1.id == c.id
  let held := pairs.map fun q => (q.1, ({ q.1 with u := q.2.2.1, v := q.2.2.2, node := q.2.1, delta := (nodeDelta x q.2.1).toNat } : Contact))
  let fresh := (peaks.filter fun p => !matched.any fun q => q.2.1 == p.1).map fun p => (p.1, p.2.1, p.2.2, (nodeDelta x p.1).toNat)
  let born := newContacts (x.contacts.map (·.id)) s.time.cyc fresh
  let old := fun (c : Contact) => decide (c.down + rd s F.TCH_HOLD_T_HOLD_S i * 625000000 ≤ s.time.cyc)
  let moved := fun (a b : Contact) =>
    let m := rd s F.TCH_LIMITS_MOVE_THRESH i
    decide (m < (a.u - b.u) + (b.u - a.u)) || decide (m < (a.v - b.v) + (b.v - a.v))
  let entry := fun (ev : Nat) (c : Contact) => ({ id := c.id, event := ev, u := c.u, v := c.v, strength := c.delta } : TouchEntry)
  let absorbed := (held.map (·.2)).filter old
  let stay := held.filter fun q => !old q.2
  let now := stay.map (·.2) ++ born.1
  let nodes := now.map (·.node)
  let s := trackBase s i (nodes ++ absorbed.map (·.node))
  let s := rebaseNegative s i (nodeDelta x)
  let area := fun (c : Contact) =>
    let others := ((nodes ++ absorbed.map (·.node)).filter (· != c.node)).map (nodesNear 1)
    (nodesNear 2 c.node).filter fun n => !others.flatten.contains n
  let s := each absorbed (fun s c => raise (updTch s i fun y => rebase y (area c)) K.TCH_EVENT_ABSORBED i) s
  let s := each (upto born.2) (fun s _ => raise s K.TCH_EVENT_OVER i) s
  let entries := born.1.map (entry 1) ++ stay.map (fun q => entry (if moved q.1 q.2 then 2 else 3) q.2) ++ gone.map (entry 4) ++
    absorbed.map (entry 5)
  setContacts (writeReport (draw s) i (shortStamp (seqNs s)) entries) i now

/-- Active scanning of a port is off while it is disabled, under self-test, or in Still. -/
def scansNow (s : State) (i : Nat) : Bool := rdb s F.TCH_CTRL_EN i && !rdb s F.TCH_STATUS_TESTING i && s.pwr.still == 0

/-- Fewer than `len` SEQ cycles have passed since the latest scan or self-test of a port started. -/
def scanEarly (s : State) (i len : Nat) : Bool :=
  match (tchOf s i).since with | none => false | some t => decide (seqCyc s < t + len)

/-- SEQ cycles of a report period at a rate of TCH_STATUS.RATE (R464). -/
def reportPeriod (rate : Nat) : Nat := if rate = 0 then 5000000 else if rate = 1 then 20000000 else 80000000

/-- TOUCH_SCAN_START: a report period has passed, and the next starts with a scan; the rate is that of the time since the last contact
(R464). -/
def execTouchScanStart (i : Fin 2) (s : State) : Host.Outcome State Fault Refusal :=
  let i := i.val
  let x := tchOf s i
  if !scansNow s i || x.scanning || scanEarly s i (reportPeriod (rd s F.TCH_STATUS_RATE i)) then .next s
  else
    let idle := s.time.cyc - x.idleFrom
    let rate := if !x.contacts.isEmpty ∨ idle < rd s F.TCH_SCAN_IDLE1_S i * 625000000 then 0
      else if idle < rd s F.TCH_SCAN_IDLE2_S i * 625000000 then 1 else 2
    .next (updTch (wr s F.TCH_STATUS_RATE i 0 rate) i fun x =>
      { x with scanning := true, since := some (seqCyc s), chip := rd s F.TCH_SCAN_CHIP_US i })

/-- The self-test of a port runs (R478). -/
def startTest (s : State) (i : Nat) : State :=
  updTch (wr s F.TCH_STATUS_TESTING i 0 1) i fun x =>
    { x with testPend := false, scanning := false, since := some (seqCyc s) }

/-- TOUCH_SCAN_END: after its 36 chips the counts of a scan give every node its value; baselines are set, or contacts found and reported; a
self-test that waits starts instead of a report (R463 to R468, R472, R478). -/
def execTouchScanEnd (i : Fin 2) (counts : List (BitVec 16)) (s : State) : Host.Outcome State Fault Refusal :=
  let i := i.val
  if !((tchOf s i).scanning && scansNow s i) || scanEarly s i (36 * ((tchOf s i).chip + 1) * 1200) then .next s
  else
    let vals := (upto 864).map fun n => (n, nodeValue counts (n / 24) (n % 24))
    let s := updTch s i fun x => { x with vals := vals, scanning := false }
    .next (if (tchOf s i).testPend then startTest s i else if (tchOf s i).fresh then freshScan s i else contactScan s i)

/-! ### Remote inputs (R459, R540, R548) -/

/-- The entries of a KZ4400 report (R540). -/
def remoteEntries (l : List Byte) : List TouchEntry :=
  (upto (leAt l 4 1)).map fun k =>
    let o := 12 + 8 * k
    { id := leAt l o 1 % 16, event := slice (leAt l o 1) 4 3, u := leAt l (o + 2) 2, v := leAt l (o + 4) 2, strength := leAt l (o + 6) 2 }

/-- A report of a KZ4400 held in the SEQ island is mapped, hit-tested and recorded; its contacts are kept for R548. -/
def remoteReport (s : State) (n : Nat) (l : List Byte) : State :=
  let k := leAt l 4 1
  if !featureOn s n 2 || k < 1 || 10 < k || l.length < 12 + 8 * k then s
  else
    let es := remoteEntries l
    let keep := (tchOf s (2 + n)).contacts.filter fun c => !es.any fun e => e.id == c.id
    let now := (es.filter fun e => decide (1 ≤ e.event) && decide (e.event ≤ 3)).map fun e =>
      ({ id := e.id, u := e.u, v := e.v, delta := e.strength, down := s.time.cyc } : Contact)
    setContacts (writeReport s (2 + n) (leAt l 8 4) es) (2 + n) (keep ++ now)

/-- TOUCH_REMOTE_REPORT_RX (R459, R472, R540). -/
def execTouchRemoteReportRx (port : Fin 4) (report : List Byte) (s : State) : Host.Outcome State Fault Refusal :=
  .next (remoteReport s port.val report)

/-! ### Self-test (R478) and configuration (R479) -/

/-- TCH_TEST_CMD.START: contacts end with an UP report, and the test starts at the end of the present scan; refused on a disabled port
or while a test runs. -/
def testStart (s : State) (i : Nat) : State :=
  if !rdb s F.TCH_CTRL_EN i || rdb s F.TCH_STATUS_TESTING i || (tchOf s i).testPend then raise s K.TCH_EVENT_CFG_REFUSED i
  else
    let s := endContacts s i
    if (tchOf s i).scanning then updTch s i fun x => { x with testPend := true } else startTest s i

/-- TOUCH_TEST_START (R478). -/
def execTouchTestStart (i : Fin 2) (s : State) : Host.Outcome State Fault Refusal := .next (testStart s i.val)

/-- TOUCH_TEST_DONE: after its 60 steps the coupled count of each line, D0 to D35 then S0 to S23, and the greatest count on a line it does
not cross, give the open and shorted lines; scanning resumes with new baselines (R478). -/
def execTouchTestDone (i : Fin 2) (coupled stray : List (BitVec 16)) (s : State) : Host.Outcome State Fault Refusal :=
  let i := i.val
  if !rdb s F.TCH_STATUS_TESTING i || scanEarly s i (60 * 1200000) then .next s
  else
    let bits := fun (p : Nat → Bool) => (upto 60).foldl (fun a k => a + (if p k then 2 ^ k else 0)) 0
    let isOpen := bits fun k => decide ((coupled.getD k 0).toNat < rd s F.TCH_TEST_LIMITS_TEST_OPEN_MIN i)
    let short := bits fun k => decide (rd s F.TCH_TEST_LIMITS_TEST_SHORT_MAX i < (stray.getD k 0).toNat)
    let s := wrReg (wrReg s R.TCH_TEST_OPEN i 0 isOpen) R.TCH_TEST_SHORT i 0 short
    let s := raise (updTch (wr s F.TCH_STATUS_TESTING i 0 0) i fun x => { x with fresh := true, since := none }) K.TCH_EVENT_TEST_DONE i
    .next (if isOpen ≠ 0 ∨ short ≠ 0 then raise s K.TCH_EVENT_TEST_FAIL i else s)

/-- A write that R479 refuses, judged on the value the register would take. -/
def touchRefused (r : Reg) (v : Nat) : Bool :=
  if r.base = R.TCH_SCAN.base then !(decide (2 ≤ slice v 0 7) && decide (slice v 0 7 ≤ 64)) || decide (slice v 15 16 < slice v 7 8)
  else if r.base = R.TCH_THRESH.base then decide (slice v 0 16 ≤ slice v 16 16)
  else if r.base = R.TCH_HOLD.base then !(decide (5 ≤ slice v 0 10) && decide (slice v 0 10 ≤ 600))
  else if r.base = R.TCH_WAKE.base then !(decide (1 ≤ slice v 1 6) && decide (slice v 1 6 ≤ 36))
  else if r.base = R.TCH_ROUTE.base then decide (393215 < slice v 9 16 * 8 + 191)
  else false

/-- A write of a touch register (R479); enabling a port sets its baselines anew (R467). -/
def writeTouch (s : State) (l : Located) (v m : Nat) : State :=
  let now := regAfter s l.reg l.i l.j v m
  if touchRefused l.reg now then raise s K.TCH_EVENT_CFG_REFUSED l.i
  else
    let was := rdb s F.TCH_CTRL_EN l.i
    let s := wrReg s l.reg l.i l.j now
    if l.reg.base = R.TCH_CTRL.base ∧ bitOn now 0 ∧ !was then
      updTch s l.i fun x => { x with fresh := true, scanning := false, since := none, idleFrom := s.time.cyc }
    else s

/-- The configuration registers of the touch block (R479). -/
def touchConfig : List Reg :=
  [R.TCH_CTRL, R.TCH_SCAN, R.TCH_THRESH, R.TCH_LIMITS, R.TCH_HOLD, R.TCH_WAKE, R.TCH_XFORM, R.TCH_ROUTE, R.TCH_TEST_LIMITS]

/-- TOUCH_CONFIG_WRITE: a write of a configuration register of the touch block (R479). -/
def execTouchConfigWrite (off : BitVec 26) (value : BitVec 32) (s : State) : Host.Outcome State Fault Refusal :=
  match locate off.toNat with
  | none => .next s
  | some l => .next (if touchConfig.any (fun r => r.base == l.reg.base) then writeTouch s l value.toNat (2 ^ 32 - 1) else s)

/-! ### Wake (R476, R477) -/

/-- WAKE_SCAN: every 1,024 AON cycles in Still a port with wake scanning armed counts each group of drive lines; a double tap fires its wake
source (R476, R477, R637). -/
def execWakeScan (i : Fin 2) (counts : List (BitVec 16)) (s : State) : Host.Outcome State Fault Refusal :=
  let i := i.val
  if s.pwr.still = 0 || !rdb s F.TCH_WAKE_EN i then .next s
  else
    let n := (upto (ceilDiv 36 (max 1 (rd s F.TCH_WAKE_GROUP i)))).map fun k => (counts.getD k 0).toNat
    let x := tchOf s i
    if x.wakeBase.isEmpty then .next (updTch s i fun x => { x with wakeBase := n, wakeAt := s.time.cyc })
    else if s.time.cyc < x.wakeAt + 19531250 then .next s
    else
      let low := (n.zip x.wakeBase).any fun p => decide (p.1 + rd s F.TCH_WAKE_WAKE_THRESH i ≤ p.2)
      let touchIn := low && !x.wasIn
      let aged := (x.taps.map (· + 1)).filter (· ≤ 16)
      let track := if touchIn then x.wakeBase
        else (n.zip x.wakeBase).map fun p => ((p.2 : Int) + Int.tdiv ((p.1 : Int) - p.2) 64).toNat
      let s := updTch s i fun x => { x with wakeBase := track, wakeAt := s.time.cyc, wasIn := low, taps := if touchIn then 0 :: aged else aged }
      .next (if touchIn && aged.any (5 ≤ ·) then wakeFires s (2 ^ (2 + i)) else s)

end Sys2Proof.Machine
end

