-- ==== Sys2Proof/Machine/Ksis.lean ====
section
/-!
DEFINITION. KSIS, the instructions of the Brush sequencers: issue and its checks, every instruction, waits (R418, R424, R426, R429 to
R432, R436 to R458).
-/

namespace Sys2Proof.Machine

/-! ### Issue and completion (R427, R428, R437 to R440) -/

/-- A halting or stepped sequencer stops once no read and no posted write is outstanding (R417). -/
def stopIfQuiet (s : State) (n : Nat) : State :=
  let q := seqOf s n
  if q.read.isNone && q.posted.isEmpty then becomeHalted s n else updSeq s n fun q => { q with halting := true }

/-- An instruction completes: it is counted, and a stepped sequencer halts (R418). -/
def retire (s : State) (n : Nat) : State :=
  let s := addWrap s F.SEQ_RETIRED_COUNT n 1
  if (seqOf s n).stepping then stopIfQuiet s n else s

/-- An instruction that writes `v` to its destination completes with the program counter at the next index. -/
def finish (s : State) (n rd : Nat) (v : Word) : State :=
  retire (updSeq s n fun q => setSreg { q with pc := q.pc + 1 } rd v) n

/-- An instruction without a destination completes. -/
def finishNone (s : State) (n : Nat) : State := retire (updSeq s n fun q => { q with pc := q.pc + 1 }) n

/-- An instruction faults; a stepped sequencer that goes on at its handler halts there (R418, R428). -/
def fault (s : State) (n cause addr : Nat) : State :=
  let s := seqFault s n cause addr
  let q := seqOf s n
  if q.run == .running && q.stepping then stopIfQuiet s n else s

/-- What an instruction needs besides its opcode: the function value is defined, its feature bit (R440), whether it is of version 2,
whether it is for supervisor mode only (R410). -/
structure Needs where
  fn : Bool
  feature : Nat
  v2 : Bool := false
  priv : Bool := false

/-- The checks of R439 as far as PRIV, then the instruction. -/
def check (s : State) (n : Nat) (k : Needs) (act : State) : State :=
  let q := seqOf s n
  if !k.fn then fault s n causeOpcode 0
  else if !bitOn q.features k.feature || (k.v2 && q.version == 1) then fault s n causeVersion 0
  else if k.priv && q.user then fault s n causePriv 0
  else act

/-- The program counter lies in the program (R427). -/
def inProgram (q : Seq) : Bool := decide (8 ≤ q.pc) && decide (q.pc ≤ (56 + q.codeLen) / 8)

/-- The sequencer can issue: it is RUNNING, no halt is asked, and no read is outstanding. -/
def canIssue (q : Seq) : Bool := q.run == .running && !q.halting && q.read.isNone

/-- An instruction issues on a sequencer that can issue; at an index outside the program it faults with FETCH (R427). -/
def issue (s : State) (n : Nat) (f : Fields) (op : State → Nat → Fields → State) : State :=
  let q := seqOf s n
  if !canIssue q then s
  else if !inProgram q then fault s n causeFetch 0
  else op s n f

/-! ### Features of R414 -/

def featCore : Nat := 0
def featMulDiv : Nat := 1
def featWall : Nat := 2
def featCommitAt : Nat := 3
def featFresh : Nat := 4
def featProof : Nat := 5
def featEasel : Nat := 6
def featEvents : Nat := 7
def featTouch : Nat := 8
def featJournal : Nat := 9
def featCheck : Nat := 10
def featTime : Nat := 11

/-! ### Arithmetic, logic, constants, multiply and divide (R441, R442) -/

/-- An instruction that computes a value from its registers and its immediate. -/
def compute (feat : Nat) (v : Word → Word → BitVec 32 → Word) (s : State) (n : Nat) (f : Fields) : State :=
  let q := seqOf s n
  check s n { fn := f.fn == 0, feature := feat } (finish s n f.rd (v (sreg q f.ra) (sreg q f.rb) f.imm))

/-- add. -/
def ksisAdd : State → Nat → Fields → State := compute featCore (fun a b _ => a + b)
/-- sub. -/
def ksisSub : State → Nat → Fields → State := compute featCore (fun a b _ => a - b)
/-- and. -/
def ksisAnd : State → Nat → Fields → State := compute featCore (fun a b _ => a &&& b)
/-- or. -/
def ksisOr : State → Nat → Fields → State := compute featCore (fun a b _ => a ||| b)
/-- xor. -/
def ksisXor : State → Nat → Fields → State := compute featCore (fun a b _ => a ^^^ b)
/-- shl. -/
def ksisShl : State → Nat → Fields → State := compute featCore (fun a b _ => a <<< (b.toNat % 64))
/-- shr. -/
def ksisShr : State → Nat → Fields → State := compute featCore (fun a b _ => a >>> (b.toNat % 64))
/-- sra. -/
def ksisSra : State → Nat → Fields → State := compute featCore (fun a b _ => a.sshiftRight (b.toNat % 64))
/-- addi. -/
def ksisAddi : State → Nat → Fields → State := compute featCore (fun a _ i => a + sext i)
/-- andi. -/
def ksisAndi : State → Nat → Fields → State := compute featCore (fun a _ i => a &&& zext i)
/-- ori. -/
def ksisOri : State → Nat → Fields → State := compute featCore (fun a _ i => a ||| zext i)
/-- xori. -/
def ksisXori : State → Nat → Fields → State := compute featCore (fun a _ i => a ^^^ zext i)
/-- shli. -/
def ksisShli : State → Nat → Fields → State := compute featCore (fun a _ i => a <<< (i.toNat % 64))
/-- shri. -/
def ksisShri : State → Nat → Fields → State := compute featCore (fun a _ i => a >>> (i.toNat % 64))
/-- srai. -/
def ksisSrai : State → Nat → Fields → State := compute featCore (fun a _ i => a.sshiftRight (i.toNat % 64))
/-- lih. -/
def ksisLih : State → Nat → Fields → State := compute featCore (fun a _ i => (zext i <<< 32) ||| (a &&& 0xFFFFFFFF#64))
/-- mul. -/
def ksisMul : State → Nat → Fields → State := compute featMulDiv (fun a b _ => a * b)
/-- mulhu. -/
def ksisMulhu : State → Nat → Fields → State := compute featMulDiv (fun a b _ => BitVec.ofNat 64 (a.toNat * b.toNat / 2 ^ 64))
/-- divu. -/
def ksisDivu : State → Nat → Fields → State := compute featMulDiv (fun a b _ => if b = 0 then 0xFFFFFFFFFFFFFFFF#64 else a / b)
/-- remu. -/
def ksisRemu : State → Nat → Fields → State := compute featMulDiv (fun a b _ => if b = 0 then a else a % b)

/-! ### Compare and branch (R443) -/

/-- A condition value that is defined: 0 to 5, and 6 in version 2. -/
def condDefined (q : Seq) (fn : Nat) : Bool := decide (fn < 6) || (fn == 6 && q.version != 1)

/-- A branch to index `pc` completes, with `v` in the destination of a jump. -/
def jumpTo (s : State) (n : Nat) (pc : Word) (link : Option (Nat × Word)) : State :=
  retire (updSeq s n fun q =>
    let q := match link with | some (rd, v) => setSreg q rd v | none => q
    { q with pc := pc.toNat }) n

/-- cmp. -/
def ksisCmp (s : State) (n : Nat) (f : Fields) : State :=
  let q := seqOf s n
  check s n { fn := condDefined q f.fn, feature := featCore } (finish s n f.rd (if cond f.fn (sreg q f.ra) (sreg q f.rb) then 1 else 0))

/-- cmpi. -/
def ksisCmpi (s : State) (n : Nat) (f : Fields) : State :=
  let q := seqOf s n
  check s n { fn := condDefined q f.fn, feature := featCore } (finish s n f.rd (if cond f.fn (sreg q f.ra) (sext f.imm) then 1 else 0))

/-- br. -/
def ksisBr (s : State) (n : Nat) (f : Fields) : State :=
  let q := seqOf s n
  check s n { fn := condDefined q f.fn, feature := featCore }
    (if cond f.fn (sreg q f.ra) (sreg q f.rb) then jumpTo s n (BitVec.ofNat 64 q.pc + sext f.imm) none else finishNone s n)

/-- jmp. -/
def ksisJmp (s : State) (n : Nat) (f : Fields) : State :=
  let q := seqOf s n
  check s n { fn := f.fn == 0, feature := featCore } (jumpTo s n (zext f.imm) (some (f.rd, BitVec.ofNat 64 (q.pc + 1))))

/-- jr. -/
def ksisJr (s : State) (n : Nat) (f : Fields) : State :=
  let q := seqOf s n
  check s n { fn := f.fn == 0, feature := featCore }
    (jumpTo s n (sreg q f.ra + sext f.imm) (some (f.rd, BitVec.ofNat 64 (q.pc + 1))))

/-! ### Memory (R444) -/

/-- The address of a memory operand. -/
def memAddr (q : Seq) (f : Fields) : Nat := (sreg q f.ra + sext f.imm).toNat

/-- The size that FN names, in bytes. -/
def memSize (fn : Nat) : Nat := 2 ^ (fn % 4)

/-- Checks of a local access of `size` bytes at `a`: ALIGN, then LOCAL (R439, R444). -/
def localCheck (s : State) (n a size align : Nat) (act : State) : State :=
  if a % align ≠ 0 then fault s n causeAlign a
  else if 393215 < a + size - 1 then fault s n causeLocal 0
  else act

/-- ld: FN[2] sign-extends. -/
def ksisLd (s : State) (n : Nat) (f : Fields) : State :=
  let q := seqOf s n
  let a := memAddr q f
  let z := memSize f.fn
  let v := leNat (Memory.readBytes q.dmem a z)
  check s n { fn := decide (f.fn < 8), feature := featCore }
    (localCheck s n a z z (finish s n f.rd (if f.fn < 4 then BitVec.ofNat 64 v else BitVec.ofInt 64 (signedOf (8 * z) v))))

/-- st. -/
def ksisSt (s : State) (n : Nat) (f : Fields) : State :=
  let q := seqOf s n
  let a := memAddr q f
  let z := memSize f.fn
  check s n { fn := decide (f.fn < 4), feature := featCore }
    (localCheck s n a z z (finishNone (setSeq s n { q with dmem := Memory.writeBytes q.dmem a (leBytes (sreg q f.rb).toNat z) }) n))

/-- Checks of a fabric access: ALIGN, then DECODE for an address of more than 40 bits (R439). -/
def fabricCheck (s : State) (n a size : Nat) (act : State) : State :=
  if a % size ≠ 0 then fault s n causeAlign a
  else if 2 ^ 40 ≤ a then fault s n causeDecode a
  else act

/-- fld: the read goes out, and the sequencer issues nothing until its data returns (R429, R430). -/
def ksisFld (s : State) (n : Nat) (f : Fields) : State :=
  let q := seqOf s n
  let a := memAddr q f
  let z := memSize f.fn
  check s n { fn := decide (f.fn < 4), feature := featCore }
    (fabricCheck s n a z (setSeq s n { q with read := some { rd := f.rd, addr := a, size := z, user := q.user } }))

/-- fst: a posted write; it stalls while 16 are outstanding (R429). -/
def ksisFst (s : State) (n : Nat) (f : Fields) : State :=
  let q := seqOf s n
  let a := memAddr q f
  let z := memSize f.fn
  let w : Posted := { addr := a, size := z, value := (sreg q f.rb).toNat % 2 ^ (8 * z), user := q.user }
  check s n { fn := decide (f.fn < 4), feature := featCore }
    (fabricCheck s n a z (if q.posted.length < 16 then finishNone (setSeq s n { q with posted := q.posted ++ [w] }) n else s))

/-- fence: completes when no posted write is outstanding (R444). -/
def ksisFence (s : State) (n : Nat) (f : Fields) : State :=
  check s n { fn := f.fn == 0, feature := featCore } (if (seqOf s n).posted.isEmpty then finishNone s n else s)

/-! ### Control (R445, R446) -/

/-- halt. -/
def ksisHalt (s : State) (n : Nat) (f : Fields) : State :=
  check s n { fn := f.fn == 0, feature := featCore, priv := true }
    (stopIfQuiet (addWrap (updSeq s n fun q => { q with pc := q.pc + 1 }) F.SEQ_RETIRED_COUNT n 1) n)

/-- trap. -/
def ksisTrap (s : State) (n : Nat) (f : Fields) : State :=
  check s n { fn := f.fn == 0, feature := featCore } (fault s n causeTrap 0)

/-- umode. -/
def ksisUmode (s : State) (n : Nat) (f : Fields) : State :=
  check s n { fn := f.fn == 0, feature := featCore, priv := true }
    (retire (updSeq s n fun q => { q with user := true, pc := f.imm.toNat }) n)

/-- The values of sysrd (R446). -/
def sysValue (s : State) (n k : Nat) : Word :=
  let q := seqOf s n
  match k with
  | 0 => BitVec.ofNat 64 n
  | 1 => BitVec.ofNat 64 (bit q.user)
  | 2 => BitVec.ofNat 64 (rdReg s R.SEQ_FAULT n)
  | 3 => BitVec.ofNat 64 q.version
  | 4 => BitVec.ofNat 64 q.features
  | 5 => BitVec.ofNat 64 s.straps.device
  | _ => BitVec.ofNat 64 (rdReg s R.SEQ_CYCLES n)

/-- sysrd. -/
def ksisSysrd (s : State) (n : Nat) (f : Fields) : State :=
  let q := seqOf s n
  check s n { fn := decide (f.fn < 6) || (f.fn == 6 && q.version != 1), feature := featCore } (finish s n f.rd (sysValue s n f.fn))

/-! ### Events, timers and time (R424, R426, R447, R448) -/

/-- The lowest event of a set whose mask bit is 1 and whose count is above 0 (R424). -/
def readyEvent (q : Seq) (base mask : Nat) : Option Nat :=
  ((upto 64).find? fun i => bitOn mask i && maskOn q (base + i) && decide (0 < q.pend.get (base + i) 0)).map (base + ·)

/-- A ready event is consumed and its number returned, or the sequencer waits (R424). -/
def takeEvent (s : State) (n rd base mask : Nat) : State :=
  let q := seqOf s n
  match readyEvent q base mask with
  | some e =>
    let c := q.pend.get e 0
    let q := { q with run := .running, wait := none, pend := if c = 1 then q.pend.del e else q.pend.put e (c - 1) }
    finish (setSeq s n q) n rd (BitVec.ofNat 64 e)
  | none => setSeq s n { q with run := .waiting, wait := some (.event rd base mask) }

/-- ewait. -/
def ksisEwait (s : State) (n : Nat) (f : Fields) : State :=
  let q := seqOf s n
  let i := f.imm.toNat
  let m := if f.fn = 0 then 1 else (sreg q f.rb).toNat
  check s n { fn := decide (f.fn < 2), feature := featEvents }
    (if 1023 < i ∨ (f.fn = 1 ∧ (i % 64 ≠ 0 ∨ m = 0)) then fault s n causeEvent 0 else takeEvent s n f.rd i m)

/-- esig. -/
def ksisEsig (s : State) (n : Nat) (f : Fields) : State :=
  let e := memAddr (seqOf s n) f
  check s n { fn := f.fn == 0, feature := featEvents }
    (if e < 768 ∨ 1023 < e then fault s n causeEvent 0 else finishNone (signal s e) n)

/-- emask. -/
def ksisEmask (s : State) (n : Nat) (f : Fields) : State :=
  let q := seqOf s n
  let k := f.imm.toNat
  let old := q.mask.get k 0
  let new := (old &&& ~~~(sreg q f.rb)) ||| (sreg q f.ra &&& sreg q f.rb)
  check s n { fn := f.fn == 0, feature := featEvents, priv := true }
    (if 15 < k then fault s n causeEvent 0 else finish (setSeq s n { q with mask := q.mask.put k new }) n f.rd old)

/-- tset. -/
def ksisTset (s : State) (n : Nat) (f : Fields) : State :=
  let q := seqOf s n
  let t := f.fn % 4
  let iv := (sreg q f.ra).toNat % 2 ^ 48
  let timers := if iv = 0 then q.timers.del t else q.timers.put t { interval := iv, repeating := bitOn f.fn 2, since := seqCyc s }
  check s n { fn := decide (f.fn < 8), feature := featEvents, priv := true } (finishNone (setSeq s n { q with timers := timers }) n)

/-- trd. -/
def ksisTrd (s : State) (n : Nat) (f : Fields) : State :=
  let ns := seqNs s
  check s n { fn := decide (f.fn < 2), feature := featTime }
    (finish (draw s) n f.rd (BitVec.ofNat 64 (if f.fn = 0 then ns else shortStamp ns)))

/-- twait. -/
def ksisTwait (s : State) (n : Nat) (f : Fields) : State :=
  let q := seqOf s n
  let t := (sreg q f.ra).toNat
  check s n { fn := f.fn == 0, feature := featTime }
    (if t ≤ seqNs s then finishNone (draw s) n else setSeq (draw s) n { q with run := .waiting, wait := some (.time t) })

/-! ### Results (R410, R432, R454) -/

/-- The result that a wall instruction gets before it acts: 33 when a gallery it names is denied to user mode, 32 on a paired gallery while
the device is standby or in resync (R454). -/
def wallDenied (s : State) (n : Nat) (gs : List Nat) : Option Nat :=
  let denied := (seqOf s n).user && gs.any fun g => !bitOn (rd s F.SEQ_CFG_USER_GAL n) g
  let passive := rd s F.TND_STATUS_STATE == tndStandby || rd s F.TND_STATUS_STATE == tndResync
  if denied then some 33 else if passive && gs.any (paired s) then some 32 else none

/-- An instruction completes with a result code and, when accepted, the command's result (R454). -/
def finishResult (s : State) (n rd code result : Nat) : State :=
  finish s n rd (BitVec.ofNat 64 (code + 2 ^ 32 * (result % 2 ^ 32)))

/-- The Easel takes no command of sequencer `n` now: it runs an earlier one, or a sequencer of a lower number waits with one (R431). -/
def easelTaken (s : State) (n : Nat) : Bool := rdb s F.EAS_STATUS_BUSY || (upto n).any fun m => (seqOf s m).easWait

/-- A program's Easel command of `op`: it waits until the Easel takes it (R431), and for the seal engine's master where that must wait; it ends as a
command of EAS_CMD does, and its outcome is the instruction's result (R257, R258, R449, R454). -/
def easelResult (s : State) (n rd op : Nat) (r : State → EasResult) : State :=
  if easelTaken s n || accessWaits s 51 then updSeq s n fun q => { q with easWait := true }
  else
    let e := r (wr0 (updSeq s n fun q => { q with easWait := false }) F.EAS_STATUS_OP op)
    match e with
    | .ok _ v => finishResult (easEnd e) n rd 0 v
    | .no _ code _ => finishResult (easEnd e) n rd code 0

/-- A program's STAGE that the Easel refuses before any slot is read. -/
def stageRefused (s : State) (n rd code : Nat) : State := easelResult s n rd 12 fun s => .no s code 0

/-- A wall instruction on the galleries `gs`. -/
def wall (s : State) (n rd : Nat) (gs : List Nat) (act : State) : State :=
  match wallDenied s n gs with
  | some c => finishResult s n rd c 0
  | none => act

/-! ### Wall operations (R449 to R452) -/

/-- The gallery of a canvas. -/
def galleryAt (s : State) (c : Nat) : Nat := rd s F.CNV_CTRL_GALLERY c

/-- Layer in a register. -/
def layerIn (q : Seq) (r : Nat) : Nat := (sreg q r).toNat % 1024

/-- The check of R450 for a slot that names gallery `g`: PENDING or GALLERY_MOVE. -/
def stageBarred (s : State) (l g : Nat) : Option Nat :=
  let x := layOf s l
  let old := match x.staged with | some k => pendingIn s k | none => false
  if old || pendingIn s g then some 9
  else if x.committed && x.gallery != g && x.desc.shown then some 14
  else none

/-- A staging slot is written and staged; a write that gets an error response ends with ACCESS, and a STAGE that is refused leaves the bytes in
the slot and the layer not staged (R258, R450). -/
def writeAndStage (s : State) (l : Nat) (slot : List Byte) : EasResult :=
  let w := busWrite s 51 (stagingSlot s l) slot
  if w.2 ≠ 0 then .no w.1 16 0
  else match easStage w.1 l 0 with
    | .ok s v => .ok s v
    | .no s code field => .no (updLay s l fun x => { x with staged := none }) code field

/-- lset. -/
def ksisLset (s : State) (n : Nat) (f : Fields) : State :=
  let q := seqOf s n
  let l := layerIn q f.rb
  let a := memAddr q f
  let b := Memory.readBytes q.dmem a 128
  let g := galleryAt s (leAt b 2 1 % 32)
  let x := layOf s l
  let gs := [g] ++ (if x.committed then [x.gallery] else []) ++ x.staged.toList
  check s n { fn := f.fn == 0, feature := featWall }
    (localCheck s n a 128 8 (wall s n f.rd gs (match stageBarred s l g with
      | some c => stageRefused s n f.rd c
      | none => easelResult s n f.rd 12 fun s => writeAndStage s l b)))

/-- lshow and lhide: the slot they act on, with SHOW changed, is written to the staging slot and staged (R451). -/
def showLayer (shown : Bool) (s : State) (n : Nat) (f : Fields) : State :=
  let l := layerIn (seqOf s n) f.ra
  let x := layOf s l
  let g := galleryAt s (if x.staged.isSome then x.stagedDesc.canvas else x.desc.canvas)
  let known := x.staged.isSome || x.committed
  check s n { fn := f.fn == 0, feature := featWall }
    (wall s n f.rd [g] (match if known then stageBarred s l g else none with
      | some c => stageRefused s n f.rd c
      | none =>
        if !x.committed then stageRefused s n f.rd 5
        else easelResult s n f.rd 12 fun s =>
          let r := busRead s 51 (if x.staged.isSome then stagingSlot s l else activeSlot s l) 128
          if r.2.1 ≠ 0 then .no r.1 16 0
          else
            let fl := leAt r.2.2 1 1
            writeAndStage r.1 l (patchBytes r.2.2 1 [BitVec.ofNat 8 (fl - fl % 2 + bit shown)])))

/-- lshow. -/
def ksisLshow : State → Nat → Fields → State := showLayer true
/-- lhide. -/
def ksisLhide : State → Nat → Fields → State := showLayer false

/-- cset: FN[0] names the register: CMP_CNV_CFG of 32 bits, its ENGINE kept, or CMP_CNV_BG of 64; a latch of the same cycle keeps to the value
before (R302, R451). -/
def ksisCset (s : State) (n : Nat) (f : Fields) : State :=
  let q := seqOf s n
  let c := (sreg q f.ra).toNat % 32
  let v := (sreg q f.rb).toNat
  check s n { fn := decide (f.fn < 2), feature := featWall }
    (wall s n f.rd [galleryAt s c] (finishResult
      (if f.fn = 0 then writeReg (noteConfig s c) R.CMP_CNV_CFG c 0 v 0xFFFFFFF8 else writeReg (noteConfig s c) R.CMP_CNV_BG c 0 v (2 ^ 64 - 1))
      n f.rd 0 0))

/-- estage: its gallery is that of the canvas in the slot it stages. -/
def ksisEstage (s : State) (n : Nat) (f : Fields) : State :=
  let l := layerIn (seqOf s n) f.ra
  let r := busRead s 51 (stagingSlot s l) 128
  let gs := if r.2.1 = 0 then [galleryAt s (leAt r.2.2 2 1 % 32)] else []
  check s n { fn := f.fn == 0, feature := featWall } (wall s n f.rd gs (easelResult s n f.rd 12 fun s => easStage s l 0))

/-- commit: FN[0] at 1 is CANCEL. -/
def ksisCommitOp (s : State) (n : Nat) (f : Fields) : State :=
  let g := f.imm.toNat % 8
  check s n { fn := decide (f.fn < 2), feature := featWall }
    (wall s n f.rd [g] (if f.fn = 0 then easelResult s n f.rd 13 fun s => easCommit s g 0 else easelResult s n f.rd 15 fun s => easCancel s g 0))

/-- cmtat. -/
def ksisCmtat (s : State) (n : Nat) (f : Fields) : State :=
  let g := f.imm.toNat % 8
  check s n { fn := decide (f.fn < 2), feature := featCommitAt, v2 := true }
    (wall s n f.rd [g] (easelResult s n f.rd 14 fun s => easCommitAt s (g + 8 * f.fn) (sreg (seqOf s n) f.ra).toNat))

/-- lwait: PRIV on a gallery that user mode is denied; it reaches the FAB island 1 SEQ + 3 FAB cycles after its issue, within the fourth FAB
cycle (R452; log entry 136). -/
def ksisLwait (s : State) (n : Nat) (f : Fields) : State :=
  let q := seqOf s n
  let g := f.imm.toNat % 8
  check s n { fn := f.fn == 0, feature := featWall }
    (if q.user && !bitOn (rd s F.SEQ_CFG_USER_GAL n) g then fault s n causePriv 0
     else setSeq s n { q with run := .waiting, wait := some (.latch f.rd g (fabCyc s + 4)) })

/-! ### Freshness, Easel, touch, journal and check units (R455 to R457) -/

/-- dlset. -/
def ksisDlset (s : State) (n : Nat) (f : Fields) : State :=
  let q := seqOf s n
  let l := layerIn q f.ra
  let dl := slice f.imm.toNat 0 11
  let warn := slice f.imm.toNat 11 7
  let denied := q.user && !bitOn (rd s F.SEQ_CFG_USER_GAL n) (galleryAt s (layOf s l).desc.canvas)
  let r := setDeadline s l dl warn
  let code := if r.2 then 0 else if dl = 0 ∨ 2000 < dl ∨ 100 < warn then 1 else 5
  check s n { fn := f.fn == 0, feature := featFresh }
    (if denied then finishResult s n f.rd 33 0 else finishResult r.1 n f.rd code 0)

/-- vread. -/
def ksisVread (s : State) (n : Nat) (f : Fields) : State :=
  check s n { fn := f.fn == 0, feature := featFresh } (finish s n f.rd (BitVec.ofNat 64 (layerStatus s (layerIn (seqOf s n) f.ra))))

/-- pinj. -/
def ksisPinj (s : State) (n : Nat) (f : Fields) : State :=
  let r := proofStart s (layerIn (seqOf s n) f.ra) f.fn (f.imm.toNat % 256)
  check s n { fn := decide (f.fn < 4), feature := featProof, v2 := true, priv := true }
    (finishResult r.1 n f.rd (if r.2 then 0 else rd r.1 F.LDG_PROOF_STATUS_REFUSE) 0)

/-- Descriptor in a register. -/
def descIn (q : Seq) (r : Nat) : Nat := (sreg q r).toNat % 8192

/-- lease. -/
def ksisLease (s : State) (n : Nat) (f : Fields) : State :=
  check s n { fn := f.fn == 0, feature := featEasel } (easelResult s n f.rd 7 fun s => easLease s (descIn (seqOf s n) f.ra) 0)

/-- release. -/
def ksisRelease (s : State) (n : Nat) (f : Fields) : State :=
  check s n { fn := f.fn == 0, feature := featEasel } (easelResult s n f.rd 8 fun s => easRelease s (descIn (seqOf s n) f.ra) 0)

/-- free. -/
def ksisFree (s : State) (n : Nat) (f : Fields) : State :=
  check s n { fn := f.fn == 0, feature := featEasel, priv := true } (easelResult s n f.rd 6 fun s => easFree s (descIn (seqOf s n) f.ra) 0)

/-- The result of thit (R456). -/
def hitWord (s : State) (c x y : Nat) : Nat :=
  match hitTest s c x y with
  | some (l, d, lx, ly) => l + 2 ^ 10 + 2 ^ 12 * (d.source % 4096) + 2 ^ 24 * unsignedOf 16 lx + 2 ^ 40 * unsignedOf 16 ly
  | none => 0

/-- thit. -/
def ksisThit (s : State) (n : Nat) (f : Fields) : State :=
  let q := seqOf s n
  let p := (sreg q f.rb).toNat
  check s n { fn := f.fn == 0, feature := featTouch }
    (finish s n f.rd (BitVec.ofNat 64 (hitWord s ((sreg q f.ra).toNat % 32) (slice p 0 16) (slice p 16 16))))

/-- japp (R457). -/
def ksisJapp (s : State) (n : Nat) (f : Fields) : State :=
  let q := seqOf s n
  let a := memAddr q f
  let body := ([BitVec.ofNat 8 n, BitVec.ofNat 8 (f.fn % 256)] : List Byte) ++ Memory.readBytes q.dmem a 46
  check s n { fn := decide (f.fn < 256), feature := featJournal, v2 := true, priv := true }
    (localCheck s n a 46 8 (if rdb s F.JNL_CTRL_EN then finishResult (askJournal s (rankSeq n) 0x0041 body) n f.rd 0 0
      else finishResult s n f.rd 5 0))

/-- ckrun: CHK_SRC and CHK_LEN are written and the unit started; the result is 0 or the REFUSE_CODE (R455). While the unit is BUSY each of the three
writes is refused (R22, R76). -/
def ksisCkrun (s : State) (n : Nat) (f : Fields) : State :=
  let q := seqOf s n
  let u := f.imm.toNat % 16
  let busy := rdb s F.CHK_STATUS_BUSY u
  let t := if busy then chkRefuse (chkRefuse s u 5) u 5 else wr (wr s F.CHK_SRC_ADDR u 0 ((sreg q f.ra).toNat % 2 ^ 40)) F.CHK_LEN_LEN u 0 ((sreg q f.rb).toNat % 2 ^ 32)
  let r := chkBegin t u
  let code := if busy then 5 else chkCause t u
  check s n { fn := f.fn == 0, feature := featCheck, v2 := true, priv := true } (finishResult r n f.rd code 0)

/-! ### Words -/

/-- The instruction of an opcode (R441 to R455); none where R437 leaves the opcode undefined. -/
def ksisOp (op : Nat) : Option (State → Nat → Fields → State) :=
  match op with
  | 0x01 => some ksisAdd
  | 0x02 => some ksisSub
  | 0x03 => some ksisAnd
  | 0x04 => some ksisOr
  | 0x05 => some ksisXor
  | 0x06 => some ksisShl
  | 0x07 => some ksisShr
  | 0x08 => some ksisSra
  | 0x09 => some ksisAddi
  | 0x0A => some ksisAndi
  | 0x0B => some ksisOri
  | 0x0C => some ksisXori
  | 0x0D => some ksisShli
  | 0x0E => some ksisShri
  | 0x0F => some ksisSrai
  | 0x10 => some ksisLih
  | 0x18 => some ksisCmp
  | 0x19 => some ksisCmpi
  | 0x1A => some ksisBr
  | 0x1B => some ksisJmp
  | 0x1C => some ksisJr
  | 0x20 => some ksisLd
  | 0x21 => some ksisSt
  | 0x28 => some ksisMul
  | 0x29 => some ksisMulhu
  | 0x2A => some ksisDivu
  | 0x2B => some ksisRemu
  | 0x30 => some ksisFld
  | 0x31 => some ksisFst
  | 0x32 => some ksisFence
  | 0x38 => some ksisHalt
  | 0x39 => some ksisTrap
  | 0x3A => some ksisUmode
  | 0x3B => some ksisSysrd
  | 0x40 => some ksisEwait
  | 0x41 => some ksisEsig
  | 0x42 => some ksisEmask
  | 0x43 => some ksisTset
  | 0x48 => some ksisTrd
  | 0x49 => some ksisTwait
  | 0x50 => some ksisLset
  | 0x51 => some ksisLshow
  | 0x52 => some ksisLhide
  | 0x53 => some ksisCset
  | 0x54 => some ksisEstage
  | 0x55 => some ksisCommitOp
  | 0x56 => some ksisCmtat
  | 0x57 => some ksisLwait
  | 0x58 => some ksisDlset
  | 0x59 => some ksisVread
  | 0x5A => some ksisPinj
  | 0x60 => some ksisLease
  | 0x61 => some ksisRelease
  | 0x62 => some ksisFree
  | 0x68 => some ksisThit
  | 0x70 => some ksisJapp
  | 0x78 => some ksisCkrun
  | _ => none

/-- A word issues: its opcode names the instruction, or faults with OPCODE (R437, R439). -/
def runWord (s : State) (n w : Nat) : State :=
  issue s n (fieldsOf w) fun s n f =>
    match ksisOp (slice w 56 8) with
    | some op => op s n f
    | none => fault s n causeOpcode 0

/-- The word at the program counter of a sequencer (R436). -/
def fetchWord (q : Seq) : Nat := leNat (Memory.readBytes q.imem (8 * q.pc) 8)

/-- SEQ_CMD.STEP: a HALTED sequencer executes exactly one instruction and halts again (R418). -/
def seqStep (s : State) (n : Nat) : State :=
  let q := seqOf s n
  if q.run != .halted then s
  else runWord (setSeq s n { q with run := .running, stepping := true }) n (fetchWord q)

/-- STEP (R418). -/
def execStep (n : Fin 16) (s : State) : Host.Outcome State Fault Refusal := .next (seqStep s n.val)

/-- SEQ_WAIT_COMPLETE: what a WAITING sequencer waits for has come: an event is consumed, a time is reached, or a latch's epoch and frame
are returned (R424, R426, R452). -/
def execSeqWaitComplete (n : Fin 16) (s : State) : Host.Outcome State Fault Refusal :=
  let q := seqOf s n.val
  let run := setSeq s n.val { q with run := .running, wait := none }
  if q.run != .waiting then .next s
  else match q.wait with
  | some (.event rd base mask) => .next (takeEvent s n.val rd base mask)
  | some (.time t) => .next (if t ≤ seqNs s then finishNone (draw run) n.val else draw s)
  | some (.latched rd v) => .next (finish run n.val rd (BitVec.ofNat 64 v))
  | _ => .next s

/-! ### The rows of the table: a word of each instruction issues on a sequencer -/

/-- UNDEFINED_OPCODE: a word issues whose opcode or function is undefined: a fault with cause OPCODE (R427, R437). -/
def execUndefinedOpcode (n : Fin 16) (word : BitVec 64) (s : State) : Host.Outcome State Fault Refusal :=
  .next (runWord s n.val word.toNat)

/-- add (R441). -/
def execAdd (n : Fin 16) (rd ra rb : BitVec 5) (fn : BitVec 9) (imm : BitVec 32) (s : State) :
    Host.Outcome State Fault Refusal := .next (issue s n.val (wordFields rd ra rb fn imm) ksisAdd)
/-- sub (R441). -/
def execSub (n : Fin 16) (rd ra rb : BitVec 5) (fn : BitVec 9) (imm : BitVec 32) (s : State) :
    Host.Outcome State Fault Refusal := .next (issue s n.val (wordFields rd ra rb fn imm) ksisSub)
/-- and (R441). -/
def execAnd (n : Fin 16) (rd ra rb : BitVec 5) (fn : BitVec 9) (imm : BitVec 32) (s : State) :
    Host.Outcome State Fault Refusal := .next (issue s n.val (wordFields rd ra rb fn imm) ksisAnd)
/-- or (R441). -/
def execOr (n : Fin 16) (rd ra rb : BitVec 5) (fn : BitVec 9) (imm : BitVec 32) (s : State) :
    Host.Outcome State Fault Refusal := .next (issue s n.val (wordFields rd ra rb fn imm) ksisOr)
/-- xor (R441). -/
def execXor (n : Fin 16) (rd ra rb : BitVec 5) (fn : BitVec 9) (imm : BitVec 32) (s : State) :
    Host.Outcome State Fault Refusal := .next (issue s n.val (wordFields rd ra rb fn imm) ksisXor)
/-- shl (R441). -/
def execShl (n : Fin 16) (rd ra rb : BitVec 5) (fn : BitVec 9) (imm : BitVec 32) (s : State) :
    Host.Outcome State Fault Refusal := .next (issue s n.val (wordFields rd ra rb fn imm) ksisShl)
/-- shr (R441). -/
def execShr (n : Fin 16) (rd ra rb : BitVec 5) (fn : BitVec 9) (imm : BitVec 32) (s : State) :
    Host.Outcome State Fault Refusal := .next (issue s n.val (wordFields rd ra rb fn imm) ksisShr)
/-- sra (R441). -/
def execSra (n : Fin 16) (rd ra rb : BitVec 5) (fn : BitVec 9) (imm : BitVec 32) (s : State) :
    Host.Outcome State Fault Refusal := .next (issue s n.val (wordFields rd ra rb fn imm) ksisSra)
/-- addi (R441). -/
def execAddi (n : Fin 16) (rd ra rb : BitVec 5) (fn : BitVec 9) (imm : BitVec 32) (s : State) :
    Host.Outcome State Fault Refusal := .next (issue s n.val (wordFields rd ra rb fn imm) ksisAddi)
/-- andi (R441). -/
def execAndi (n : Fin 16) (rd ra rb : BitVec 5) (fn : BitVec 9) (imm : BitVec 32) (s : State) :
    Host.Outcome State Fault Refusal := .next (issue s n.val (wordFields rd ra rb fn imm) ksisAndi)
/-- ori (R441). -/
def execOri (n : Fin 16) (rd ra rb : BitVec 5) (fn : BitVec 9) (imm : BitVec 32) (s : State) :
    Host.Outcome State Fault Refusal := .next (issue s n.val (wordFields rd ra rb fn imm) ksisOri)
/-- xori (R441). -/
def execXori (n : Fin 16) (rd ra rb : BitVec 5) (fn : BitVec 9) (imm : BitVec 32) (s : State) :
    Host.Outcome State Fault Refusal := .next (issue s n.val (wordFields rd ra rb fn imm) ksisXori)
/-- shli (R441). -/
def execShli (n : Fin 16) (rd ra rb : BitVec 5) (fn : BitVec 9) (imm : BitVec 32) (s : State) :
    Host.Outcome State Fault Refusal := .next (issue s n.val (wordFields rd ra rb fn imm) ksisShli)
/-- shri (R441). -/
def execShri (n : Fin 16) (rd ra rb : BitVec 5) (fn : BitVec 9) (imm : BitVec 32) (s : State) :
    Host.Outcome State Fault Refusal := .next (issue s n.val (wordFields rd ra rb fn imm) ksisShri)
/-- srai (R441). -/
def execSrai (n : Fin 16) (rd ra rb : BitVec 5) (fn : BitVec 9) (imm : BitVec 32) (s : State) :
    Host.Outcome State Fault Refusal := .next (issue s n.val (wordFields rd ra rb fn imm) ksisSrai)
/-- lih (R441). -/
def execLih (n : Fin 16) (rd ra rb : BitVec 5) (fn : BitVec 9) (imm : BitVec 32) (s : State) :
    Host.Outcome State Fault Refusal := .next (issue s n.val (wordFields rd ra rb fn imm) ksisLih)
/-- mul (R442). -/
def execMul (n : Fin 16) (rd ra rb : BitVec 5) (fn : BitVec 9) (imm : BitVec 32) (s : State) :
    Host.Outcome State Fault Refusal := .next (issue s n.val (wordFields rd ra rb fn imm) ksisMul)
/-- mulhu (R442). -/
def execMulhu (n : Fin 16) (rd ra rb : BitVec 5) (fn : BitVec 9) (imm : BitVec 32) (s : State) :
    Host.Outcome State Fault Refusal := .next (issue s n.val (wordFields rd ra rb fn imm) ksisMulhu)
/-- divu (R442). -/
def execDivu (n : Fin 16) (rd ra rb : BitVec 5) (fn : BitVec 9) (imm : BitVec 32) (s : State) :
    Host.Outcome State Fault Refusal := .next (issue s n.val (wordFields rd ra rb fn imm) ksisDivu)
/-- remu (R442). -/
def execRemu (n : Fin 16) (rd ra rb : BitVec 5) (fn : BitVec 9) (imm : BitVec 32) (s : State) :
    Host.Outcome State Fault Refusal := .next (issue s n.val (wordFields rd ra rb fn imm) ksisRemu)
/-- cmp (R443). -/
def execCmp (n : Fin 16) (rd ra rb : BitVec 5) (fn : BitVec 9) (imm : BitVec 32) (s : State) :
    Host.Outcome State Fault Refusal := .next (issue s n.val (wordFields rd ra rb fn imm) ksisCmp)
/-- cmpi (R443). -/
def execCmpi (n : Fin 16) (rd ra rb : BitVec 5) (fn : BitVec 9) (imm : BitVec 32) (s : State) :
    Host.Outcome State Fault Refusal := .next (issue s n.val (wordFields rd ra rb fn imm) ksisCmpi)
/-- br (R443). -/
def execBr (n : Fin 16) (rd ra rb : BitVec 5) (fn : BitVec 9) (imm : BitVec 32) (s : State) :
    Host.Outcome State Fault Refusal := .next (issue s n.val (wordFields rd ra rb fn imm) ksisBr)
/-- jmp (R443). -/
def execJmp (n : Fin 16) (rd ra rb : BitVec 5) (fn : BitVec 9) (imm : BitVec 32) (s : State) :
    Host.Outcome State Fault Refusal := .next (issue s n.val (wordFields rd ra rb fn imm) ksisJmp)
/-- jr (R443). -/
def execJr (n : Fin 16) (rd ra rb : BitVec 5) (fn : BitVec 9) (imm : BitVec 32) (s : State) :
    Host.Outcome State Fault Refusal := .next (issue s n.val (wordFields rd ra rb fn imm) ksisJr)
/-- ld (R444). -/
def execLd (n : Fin 16) (rd ra rb : BitVec 5) (fn : BitVec 9) (imm : BitVec 32) (s : State) :
    Host.Outcome State Fault Refusal := .next (issue s n.val (wordFields rd ra rb fn imm) ksisLd)
/-- st (R444). -/
def execSt (n : Fin 16) (rd ra rb : BitVec 5) (fn : BitVec 9) (imm : BitVec 32) (s : State) :
    Host.Outcome State Fault Refusal := .next (issue s n.val (wordFields rd ra rb fn imm) ksisSt)
/-- fld (R444). -/
def execFld (n : Fin 16) (rd ra rb : BitVec 5) (fn : BitVec 9) (imm : BitVec 32) (s : State) :
    Host.Outcome State Fault Refusal := .next (issue s n.val (wordFields rd ra rb fn imm) ksisFld)
/-- fst (R444). -/
def execFst (n : Fin 16) (rd ra rb : BitVec 5) (fn : BitVec 9) (imm : BitVec 32) (s : State) :
    Host.Outcome State Fault Refusal := .next (issue s n.val (wordFields rd ra rb fn imm) ksisFst)
/-- fence (R444). -/
def execFence (n : Fin 16) (rd ra rb : BitVec 5) (fn : BitVec 9) (imm : BitVec 32) (s : State) :
    Host.Outcome State Fault Refusal := .next (issue s n.val (wordFields rd ra rb fn imm) ksisFence)
/-- halt (R445). -/
def execKsisHalt (n : Fin 16) (rd ra rb : BitVec 5) (fn : BitVec 9) (imm : BitVec 32) (s : State) :
    Host.Outcome State Fault Refusal := .next (issue s n.val (wordFields rd ra rb fn imm) ksisHalt)
/-- trap (R445). -/
def execTrap (n : Fin 16) (rd ra rb : BitVec 5) (fn : BitVec 9) (imm : BitVec 32) (s : State) :
    Host.Outcome State Fault Refusal := .next (issue s n.val (wordFields rd ra rb fn imm) ksisTrap)
/-- umode (R445). -/
def execUmode (n : Fin 16) (rd ra rb : BitVec 5) (fn : BitVec 9) (imm : BitVec 32) (s : State) :
    Host.Outcome State Fault Refusal := .next (issue s n.val (wordFields rd ra rb fn imm) ksisUmode)
/-- sysrd (R445). -/
def execSysrd (n : Fin 16) (rd ra rb : BitVec 5) (fn : BitVec 9) (imm : BitVec 32) (s : State) :
    Host.Outcome State Fault Refusal := .next (issue s n.val (wordFields rd ra rb fn imm) ksisSysrd)
/-- ewait (R447). -/
def execEwait (n : Fin 16) (rd ra rb : BitVec 5) (fn : BitVec 9) (imm : BitVec 32) (s : State) :
    Host.Outcome State Fault Refusal := .next (issue s n.val (wordFields rd ra rb fn imm) ksisEwait)
/-- esig (R447). -/
def execEsig (n : Fin 16) (rd ra rb : BitVec 5) (fn : BitVec 9) (imm : BitVec 32) (s : State) :
    Host.Outcome State Fault Refusal := .next (issue s n.val (wordFields rd ra rb fn imm) ksisEsig)
/-- emask (R447). -/
def execEmask (n : Fin 16) (rd ra rb : BitVec 5) (fn : BitVec 9) (imm : BitVec 32) (s : State) :
    Host.Outcome State Fault Refusal := .next (issue s n.val (wordFields rd ra rb fn imm) ksisEmask)
/-- tset (R447). -/
def execTset (n : Fin 16) (rd ra rb : BitVec 5) (fn : BitVec 9) (imm : BitVec 32) (s : State) :
    Host.Outcome State Fault Refusal := .next (issue s n.val (wordFields rd ra rb fn imm) ksisTset)
/-- trd (R447). -/
def execTrd (n : Fin 16) (rd ra rb : BitVec 5) (fn : BitVec 9) (imm : BitVec 32) (s : State) :
    Host.Outcome State Fault Refusal := .next (issue s n.val (wordFields rd ra rb fn imm) ksisTrd)
/-- twait (R447). -/
def execTwait (n : Fin 16) (rd ra rb : BitVec 5) (fn : BitVec 9) (imm : BitVec 32) (s : State) :
    Host.Outcome State Fault Refusal := .next (issue s n.val (wordFields rd ra rb fn imm) ksisTwait)
/-- lset (R449, R450). -/
def execLset (n : Fin 16) (rd ra rb : BitVec 5) (fn : BitVec 9) (imm : BitVec 32) (s : State) :
    Host.Outcome State Fault Refusal := .next (issue s n.val (wordFields rd ra rb fn imm) ksisLset)
/-- lshow (R449, R451). -/
def execLshow (n : Fin 16) (rd ra rb : BitVec 5) (fn : BitVec 9) (imm : BitVec 32) (s : State) :
    Host.Outcome State Fault Refusal := .next (issue s n.val (wordFields rd ra rb fn imm) ksisLshow)
/-- lhide (R449, R451). -/
def execLhide (n : Fin 16) (rd ra rb : BitVec 5) (fn : BitVec 9) (imm : BitVec 32) (s : State) :
    Host.Outcome State Fault Refusal := .next (issue s n.val (wordFields rd ra rb fn imm) ksisLhide)
/-- cset with FN[0] = 0 (R449). -/
def execCsetCfg (n : Fin 16) (rd ra rb : BitVec 5) (fn : BitVec 9) (imm : BitVec 32) (s : State) :
    Host.Outcome State Fault Refusal := .next (issue s n.val (wordFields rd ra rb fn imm) ksisCset)
/-- cset with FN[0] = 1 (R449). -/
def execCsetBg (n : Fin 16) (rd ra rb : BitVec 5) (fn : BitVec 9) (imm : BitVec 32) (s : State) :
    Host.Outcome State Fault Refusal := .next (issue s n.val (wordFields rd ra rb fn imm) ksisCset)
/-- estage (R449). -/
def execEstage (n : Fin 16) (rd ra rb : BitVec 5) (fn : BitVec 9) (imm : BitVec 32) (s : State) :
    Host.Outcome State Fault Refusal := .next (issue s n.val (wordFields rd ra rb fn imm) ksisEstage)
/-- commit (R449). -/
def execKsisCommit (n : Fin 16) (rd ra rb : BitVec 5) (fn : BitVec 9) (imm : BitVec 32) (s : State) :
    Host.Outcome State Fault Refusal := .next (issue s n.val (wordFields rd ra rb fn imm) ksisCommitOp)
/-- commit with FN[0] = 1: CANCEL (R449). -/
def execKsisCancel (n : Fin 16) (rd ra rb : BitVec 5) (fn : BitVec 9) (imm : BitVec 32) (s : State) :
    Host.Outcome State Fault Refusal := .next (issue s n.val (wordFields rd ra rb fn imm) ksisCommitOp)
/-- cmtat (R449). -/
def execCmtat (n : Fin 16) (rd ra rb : BitVec 5) (fn : BitVec 9) (imm : BitVec 32) (s : State) :
    Host.Outcome State Fault Refusal := .next (issue s n.val (wordFields rd ra rb fn imm) ksisCmtat)
/-- lwait (R452). -/
def execLwait (n : Fin 16) (rd ra rb : BitVec 5) (fn : BitVec 9) (imm : BitVec 32) (s : State) :
    Host.Outcome State Fault Refusal := .next (issue s n.val (wordFields rd ra rb fn imm) ksisLwait)
/-- dlset (R455). -/
def execDlset (n : Fin 16) (rd ra rb : BitVec 5) (fn : BitVec 9) (imm : BitVec 32) (s : State) :
    Host.Outcome State Fault Refusal := .next (issue s n.val (wordFields rd ra rb fn imm) ksisDlset)
/-- vread (R455). -/
def execVread (n : Fin 16) (rd ra rb : BitVec 5) (fn : BitVec 9) (imm : BitVec 32) (s : State) :
    Host.Outcome State Fault Refusal := .next (issue s n.val (wordFields rd ra rb fn imm) ksisVread)
/-- pinj (R455). -/
def execPinj (n : Fin 16) (rd ra rb : BitVec 5) (fn : BitVec 9) (imm : BitVec 32) (s : State) :
    Host.Outcome State Fault Refusal := .next (issue s n.val (wordFields rd ra rb fn imm) ksisPinj)
/-- lease (R455). -/
def execKsisLease (n : Fin 16) (rd ra rb : BitVec 5) (fn : BitVec 9) (imm : BitVec 32) (s : State) :
    Host.Outcome State Fault Refusal := .next (issue s n.val (wordFields rd ra rb fn imm) ksisLease)
/-- release (R455). -/
def execKsisRelease (n : Fin 16) (rd ra rb : BitVec 5) (fn : BitVec 9) (imm : BitVec 32) (s : State) :
    Host.Outcome State Fault Refusal := .next (issue s n.val (wordFields rd ra rb fn imm) ksisRelease)
/-- free (R455). -/
def execKsisFree (n : Fin 16) (rd ra rb : BitVec 5) (fn : BitVec 9) (imm : BitVec 32) (s : State) :
    Host.Outcome State Fault Refusal := .next (issue s n.val (wordFields rd ra rb fn imm) ksisFree)
/-- thit (R456). -/
def execThit (n : Fin 16) (rd ra rb : BitVec 5) (fn : BitVec 9) (imm : BitVec 32) (s : State) :
    Host.Outcome State Fault Refusal := .next (issue s n.val (wordFields rd ra rb fn imm) ksisThit)
/-- japp (R457). -/
def execJapp (n : Fin 16) (rd ra rb : BitVec 5) (fn : BitVec 9) (imm : BitVec 32) (s : State) :
    Host.Outcome State Fault Refusal := .next (issue s n.val (wordFields rd ra rb fn imm) ksisJapp)
/-- ckrun (R455). -/
def execCkrun (n : Fin 16) (rd ra rb : BitVec 5) (fn : BitVec 9) (imm : BitVec 32) (s : State) :
    Host.Outcome State Fault Refusal := .next (issue s n.val (wordFields rd ra rb fn imm) ksisCkrun)

end Sys2Proof.Machine
end

