-- ==== Sys2Proof/Machine/Link.lean ====
section
/-!
DEFINITION. The Ndosin ports: bring-up, capabilities, markers, packets, width changes and loss (R526 to R549).
-/

namespace Sys2Proof.Machine

/-! ### Blocks (R529 to R532) -/

/-- Numbers of lanes in a mask of 4. -/
def lanesIn (m : Nat) : Nat := ((upto 4).filter (bitOn m)).length

/-- A mask of 4 lanes with a property. -/
def laneMask (p : Nat → Bool) : Nat := (upto 4).foldl (fun a k => a + (if p k then 2 ^ k else 0)) 0

/-- A control block other than IDLE and SOP: 12 bytes and their CRC-32C (R532). -/
def ctrlBlock (l : List Byte) : List Byte := let b := bytesAt l 0 12; b ++ leBytes (crc32c b).toNat 4

/-- A control block's CRC holds. -/
def blockOk (body : List Byte) : Bool := (crc32c (bytesAt body 0 12)).toNat == leAt body 12 4

/-- The sync headers of data and of control blocks (R529). -/
def dataHeader : Nat := 1
def ctrlHeader : Nat := 2

/-- One bit of a body at the scrambler x^58 + x^39 + 1, whose state is the last 58 bits sent, the latest in bit 0 (R529): state and bit sent. -/
def scrambleBit (st : Nat) (b : Bool) : Nat × Bool :=
  let c := b ^^ bitOn st 38 ^^ bitOn st 57
  ((2 * st + bit c) % 2 ^ 58, c)

/-- A body scrambled from bit 0 on: state and bits sent, the first in bit 0 (R529). -/
def scramble (st body : Nat) : Nat × Nat :=
  (upto 128).foldl (fun a i => let r := scrambleBit a.1 (bitOn body i); (r.1, a.2 + bit r.2 * 2 ^ i)) (st, 0)

/-- The body of a block as received (R529): each bit is held to those received 39 and 58 before it. -/
def descramble (w : WireBlock) : List Byte :=
  let r := (upto 128).foldl (fun (a : Nat × Nat) i =>
    let c := bitOn w.bits.toNat i
    ((2 * a.1 + bit c) % 2 ^ 58, a.2 + bit (c ^^ bitOn a.1 38 ^^ bitOn a.1 57) * 2 ^ i)) (w.before.toNat, 0)
  leBytes r.2 16

/-- A block leaves on a lane (R529). -/
def wireOut (s : State) (n lane header : Nat) (body : List Byte) : State :=
  let r := scramble ((portOf s n).scrambler.get lane 0) (leNat body)
  emit (updPort s n fun p => { p with scrambler := p.scrambler.put lane r.1 }) (.block n lane header r.2)

/-- The body of an IDLE block (R532). -/
def idleBody : List Byte := bytesAt [0x1E] 0 16

/-- A control block leaves on every lane of a mask, in one LANE cycle. -/
def sendOn (s : State) (n mask : Nat) (body : List Byte) : State :=
  each ((upto 4).filter (bitOn mask)) (fun s k => wireOut s n k ctrlHeader body) s

/-- The next block of the stream leaves on the active lane whose turn it is; when each has had its block, the LANE cycle ends, in which the dropped
lanes that are being tried send IDLE outside the stream (R531, R546). -/
def streamBlock (s : State) (n header : Nat) (body : List Byte) : State :=
  let p := portOf s n
  let on := (upto 4).filter (bitOn (rd s F.LNK_STATUS_TX_MASK n))
  match on[p.turn]? with
  | none => s
  | some k =>
    let s := wireOut s n k header body
    if p.turn + 1 < on.length then updPort s n fun x => { x with turn := p.turn + 1 }
    else sendOn (updPort s n fun x => { x with turn := 0 }) n p.tried idleBody

/-- IDLE blocks fill the stream up to the end of the LANE cycle (R539). -/
def fillCycle (s : State) (n : Nat) : State :=
  each (upto (lanesIn (rd s F.LNK_STATUS_TX_MASK n) - (portOf s n).turn)) (fun s _ => streamBlock s n ctrlHeader idleBody) s

/-- The LANE cycle in which a packet ended is full before a block that every lane sends at once. -/
def endCycle (s : State) (n : Nat) : State := if (portOf s n).turn = 0 then s else fillCycle s n

/-- A type of control block that R532 lists. -/
def listedType (t : Nat) : Bool := [0x1E, 0x2D, 0x4B, 0x55, 0x66].contains t

/-- What a control block that arrives at a port is, where a block of type `ty` is looked for: `none` for what is ignored, `some false` for what
counts as PKT_BAD too, `some true` for a valid block of the type (R532). -/
def controlIs (ty : Nat) (w : WireBlock) : Option Bool :=
  let b := descramble w
  if w.header.toNat ≠ ctrlHeader then none
  else if !listedType (leAt b 0 1) then some false
  else if leAt b 0 1 ≠ ty then none
  else some (blockOk b)

/-- A port that no quad has receives nothing. -/
def portThere (s : State) (n : Nat) : Bool := (portQuad s n).isSome

/-- The CAP block of the KZ9680 (R532, R535); MAX_RATE is 5 in stepping A0 (R645). -/
def capBody (s : State) (ack : Bool) : List Byte :=
  [0x55, 2, 2, BitVec.ofNat 8 s.straps.device, 0x3F, 0, if s.straps.stepping = 0 then 5 else 6, BitVec.ofNat 8 (bit ack), 0, 0, 0, 0]

/-! ### Port state (R533, R548) -/

/-- Own receive lanes with block lock (R530, R532). -/
def lockMask (s : State) (n : Nat) : Nat :=
  match portQuad s n with | some q => laneMask fun k => rdb s F.LANE_STATUS_PCS_LOCK (4 * q + k) | none => 0

/-- The lanes of a port (R526). -/
def portLanes (s : State) (n : Nat) : List Nat := match portQuad s n with | some q => (upto 4).map (4 * q + ·) | none => []

/-- The lane of the partner, or of the device, that lane `k` is wired to (R527). -/
def wired (s : State) (n k : Nat) : Nat := if rdb s F.LNK_STATUS_REVERSED n then 3 - k else k

/-- A mask of the partner's lanes in own numbering (R527). -/
def ownMask (s : State) (n m : Nat) : Nat := laneMask fun k => bitOn m (wired s n k)

/-- The quad's PLL moves to another rate: a loss on every lane that has lock (R518, R533; log entry 149). -/
def relock (s : State) (n : Nat) : State :=
  each ((portLanes s n).filter (hasLock s)) lockLost (updPort s n fun p => { p with headers := [] })

/-- A port that was not DOWN goes DOWN: LINK_DOWN, and what waits is lost; the contacts of its touch input end (R548). It is back at the base
rate, for which a quad at another rate relocks. -/
def portDown (s : State) (n : Nat) : State :=
  if rd s F.LNK_STATUS_STATE n = 0 then s
  else
    let touch := featureOn s n 2
    let s := if rd s F.LNK_STATUS_RATE n = 0 then s else relock s n
    let s := wr (wr (wr (wr (wr (wr s F.LNK_STATUS_STATE n 0 0) F.LNK_STATUS_TX_MASK n 0 0) F.LNK_STATUS_RX_MASK n 0 0)
      F.LNK_STATUS_VERSION n 0 0) F.LNK_STATUS_SKEW n 0 0) F.LNK_STATUS_RATE n 0 0
    let s := updPort s n fun p => { count := p.count, since := s.time.cyc, headers := p.headers, scrambler := p.scrambler }
    let s := raise s K.LNK_EVENT_LINK_DOWN n
    if touch then endContacts s (2 + n) else s

/-- A bring-up step fails (R533). -/
def bringupFail (s : State) (n : Nat) : State := portDown (raise s K.LNK_EVENT_BRINGUP_FAIL n) n

/-- The least number of active lanes. -/
def widthMin (s : State) (n : Nat) : Nat := max 1 (rd s F.LNK_CFG_WIDTH_MIN n)

/-- Steps 1 and 2 are running: in their own states, or in the second pass at the agreed rate. -/
def inLocking (s : State) (n : Nat) : Bool :=
  rd s F.LNK_STATUS_STATE n == 1 || (rd s F.LNK_STATUS_STATE n == 4 && (portOf s n).rated && !(portOf s n).aligning)
/-- Step 2 is running. -/
def inDeskew (s : State) (n : Nat) : Bool := rd s F.LNK_STATUS_STATE n == 2 || (rd s F.LNK_STATUS_STATE n == 4 && (portOf s n).aligning)

/-- Step 2 starts. -/
def startDeskew (s : State) (n : Nat) : State :=
  let s := updPort s n fun p => { p with aligning := true, markers := [], partnerLock := [], since := s.time.cyc }
  if rd s F.LNK_STATUS_STATE n = 1 then wr s F.LNK_STATUS_STATE n 0 2 else s

/-- Step 1 ends when every lane of LANE_MASK has block lock (R533). -/
def lockStep (s : State) (n : Nat) : State :=
  if inLocking s n && lockMask s n &&& rd s F.LNK_CFG_LANE_MASK n == rd s F.LNK_CFG_LANE_MASK n then startDeskew s n else s

/-- Bring-up starts: step 1 at the base rate on the lanes of LANE_MASK, which may have kept their lock (R533); not while a test field is set
(R522). -/
def startBringup (s : State) (n : Nat) : State :=
  if !(rdb s F.LANE_QUAD_COMMIT_LOCKED && rdb s F.LNK_CFG_EN n && decide (rd s F.LNK_STATUS_STATE n = 0)) ||
      (portLanes s n).isEmpty || (portLanes s n).any (testSet s) then s
  else
    let s := wr (wr (wr (wr s F.LNK_STATUS_STATE n 0 1) F.LNK_STATUS_TX_MASK n 0 (rd s F.LNK_CFG_LANE_MASK n)) F.LNK_STATUS_RATE n 0 0)
      F.LNK_STATUS_REVERSED n 0 0
    lockStep (updPort s n fun p => { since := s.time.cyc, headers := p.headers, scrambler := p.scrambler }) n

/-- Step 5: the active set is the lanes that hold lock in both directions (R533, R534, R536). -/
def linkUp (s : State) (n set : Nat) : State :=
  let both := ownMask s n ((portOf s n).partnerLock.headD 0)
  let act := laneMask fun k => bitOn set k && bitOn (lockMask s n) k && bitOn both k
  if lanesIn act < widthMin s n then bringupFail s n
  else
    let s := wr (wr (wr s F.LNK_STATUS_STATE n 0 5) F.LNK_STATUS_TX_MASK n 0 act) F.LNK_STATUS_RX_MASK n 0 act
    let s := wr s F.LNK_STATUS_VERSION n 0 (min 2 (rd s F.LNK_PARTNER_VERSION n))
    raise (updPort s n fun p => { p with aligning := false, tried := 0, triedAt := s.time.cyc, turn := 0 }) K.LNK_EVENT_LINK_UP n

/-- The lanes of step 2 that have a marker of one COUNT within the skew limit, and the greatest delay among them (R533): a lane that the
latest marker would delay by more than 16 cycles is left out. -/
def deskewed (s : State) (n : Nat) : Nat × Nat :=
  let p := portOf s n
  let ms := p.markers.filter fun e => bitOn (lockMask s n &&& rd s F.LNK_CFG_LANE_MASK n) e.1
  let cnt := match ms with | e :: _ => e.2.2.1 | [] => 0
  let same := ms.filter fun e => e.2.2.1 == cnt
  let last := (same.map (·.2.2.2)).foldl max 0
  let fit := same.filter fun e => decide (last ≤ e.2.2.2 + 16)
  (laneMask fun k => fit.any (·.1 == k), (fit.map fun e => last - e.2.2.2).foldl max 0)

/-- Step 2 ends with the lanes that are aligned: the port goes on to CAPS, or after the second pass to LINKED (R533). -/
def endDeskew (s : State) (n : Nat) : State :=
  let d := deskewed s n
  if lanesIn d.1 < widthMin s n then bringupFail s n
  else
    let rev := (portOf s n).markers.any fun e => bitOn d.1 e.1 && e.2.1 == 3 - e.1
    let s := wr (wr s F.LNK_STATUS_SKEW n 0 d.2) F.LNK_STATUS_REVERSED n 0 (bit rev)
    let s := wr s F.LNK_STATUS_RX_MASK n 0 d.1
    if rd s F.LNK_STATUS_STATE n = 4 then linkUp s n d.1
    else
      let s := wr (updPort s n fun p => { p with aligning := false, cap := [], capRun := 0, capAck := false, since := s.time.cyc }) F.LNK_STATUS_STATE n 0 3
      sendOn s n (rd s F.LNK_STATUS_TX_MASK n) (ctrlBlock (capBody s false))

/-- An own width change to a mask starts, or is due after the one that runs; a set below WIDTH_MIN takes the port DOWN (R544, R545). -/
def changeWidth (s : State) (n mask : Nat) : State :=
  if lanesIn mask < widthMin s n then portDown s n
  else match (portOf s n).width with
    | some _ => updPort s n fun p => { p with widthNext := some mask }
    | none =>
      let s := each [3, 2, 1, 0] (fun s c => sendOn s n (rd s F.LNK_STATUS_TX_MASK n) (ctrlBlock [0x66, BitVec.ofNat 8 mask, BitVec.ofNat 8 c]))
        (endCycle s n)
      updPort s n fun p => { p with width := some mask }

/-- The transmit set that the changes under way lead to. -/
def comingMask (s : State) (n : Nat) : Nat :=
  let p := portOf s n
  p.widthNext.getD (p.width.getD (rd s F.LNK_STATUS_TX_MASK n))

/-- A receive lane of a port has lost lock: a link with WIDTH_CHANGE drops the pair, any other goes DOWN; during bring-up the lane seeks lock
again (R518, R537, R544, R545, R547; log entry 150). -/
def dropLane (s : State) (n k : Nat) : State :=
  let s := updPort s n fun p => { p with markers := p.markers.del k, headers := p.headers.del k }
  if !linked s n || !bitOn (rd s F.LNK_STATUS_RX_MASK n) k then s
  else if featureOn s n 4 then changeWidth s n (laneMask fun j => bitOn (comingMask s n) j && j != k)
  else portDown s n

/-- Lane `k` of a port has block lock (R530). -/
def gainLock (s : State) (n q k : Nat) : State :=
  lockStep (updPort (wr s F.LANE_STATUS_PCS_LOCK (4 * q + k) 0 1) n fun p => { p with headers := p.headers.del k }) n

/-- One sync header at lane `k` of a port: 64 valid ones in a row gain block lock, 16 invalid ones within 64 lose it, with the loss's consequence
(R530, R518). -/
def headerRx (s : State) (n q k : Nat) (h : BitVec 2) : State :=
  let ok := h.toNat == dataHeader || h.toNat == ctrlHeader
  let x := (portOf s n).headers.get k {}
  let keep := fun (y : HeaderRun) => updPort s n fun p => { p with headers := p.headers.put k y }
  if rdb s F.LANE_STATUS_PCS_LOCK (4 * q + k) then
    let bad := ((!ok) :: x.bad).take 64
    if 16 ≤ (bad.filter id).length then
      dropLane (raise (wr s F.LANE_STATUS_PCS_LOCK (4 * q + k) 0 0) K.LANE_EVENT_LOCK_LOST (4 * q + k)) n k
    else keep { bad := bad }
  else if ok then (if 64 ≤ x.run + 1 then gainLock s n q k else keep { run := x.run + 1 })
  else keep {}

/-- BLOCK_LOCK_ACQUIRED: sync headers reach a lane, oldest first; with 64 valid ones in a row it has block lock, and when every lane of LANE_MASK
has it, step 1 ends (R530, R533). -/
def execBlockLockAcquired (port : Fin 4) (lane : LaneHeaders) (s : State) : Host.Outcome State Fault Refusal :=
  .next (match portQuad s port.val with
    | none => s
    | some q => each lane.headers (fun s h => headerRx s port.val q lane.lane.val h) s)

/-- A dropped pair is ready: its receive lane has lock and is aligned within SKEW, and the partner's last two markers show it (R546). -/
def pairReady (s : State) (n k : Nat) : Bool :=
  let p := portOf s n
  let rx := rd s F.LNK_STATUS_RX_MASK n
  match p.markers.find k with
  | none => false
  | some a =>
    let same := (p.markers.filter fun e => bitOn rx e.1 && e.2.2.1 == a.2.1).map (·.2.2.2)
    let at_ := same ++ [a.2.2]
    bitOn (lockMask s n) k && !same.isEmpty && decide (at_.foldl max 0 ≤ at_.foldl min a.2.2 + rd s F.LNK_STATUS_SKEW n) &&
      decide (p.partnerLock.length = 2) && p.partnerLock.all fun m => bitOn (ownMask s n m) k

/-- The pairs being tried that are ready are restored by a width change (R546). -/
def restorePairs (s : State) (n : Nat) : State :=
  let now := comingMask s n
  let back := laneMask fun k => bitOn (portOf s n).tried k && !bitOn now k && pairReady s n k
  if back = 0 then s else changeWidth s n (now + back)

/-- MARKER_RX: a marker names the partner's lane, its COUNT and its LOCK_MASK, and arrives at LANE cycle `at_`; once every locked lane has a
marker of one COUNT, step 2 ends; on a LINKED port it may show that a dropped pair is ready (R531 to R533, R546). -/
def execMarkerRx (port lane : Fin 4) (block : WireBlock) (at_ : BitVec 32) (s : State) : Host.Outcome State Fault Refusal :=
  let n := port.val
  let k := lane.val
  let body := descramble block
  if portThere s n && controlIs 0x4B block == some false then .next (raise s K.LNK_EVENT_PKT_BAD n)
  else if rd s F.LNK_STATUS_STATE n = 0 ∨ controlIs 0x4B block ≠ some true then .next s
  else
    let cnt := leAt body 4 2
    let mask := leAt body 3 1 % 16
    let p := portOf s n
    let again := p.markers.any fun e => e.2.2.1 == cnt
    let locks := if again then mask :: p.partnerLock.drop 1 else (mask :: p.partnerLock).take 2
    let s := updPort s n fun p => { p with markers := p.markers.put k (leAt body 1 1 % 4, cnt, at_.toNat), partnerLock := locks }
    let lock := lockMask s n &&& rd s F.LNK_CFG_LANE_MASK n
    let ms := (portOf s n).markers.filter fun e => bitOn lock e.1
    let full := decide (ms.length = lanesIn lock) && decide (0 < ms.length) && ms.all fun e => e.2.2.1 == cnt
    .next (if inDeskew s n && full then endDeskew s n else if linked s n then restorePairs s n else s)

/-- MARKER_SEND: each transmitting lane sends a MARKER, dropped lanes that are being tried as well (R531, R546). -/
def execMarkerSend (port : Fin 4) (s : State) : Host.Outcome State Fault Refusal :=
  let n := port.val
  if rd s F.LNK_STATUS_STATE n = 0 then .next s
  else
    let p := portOf s n
    let tx := rd s F.LNK_STATUS_TX_MASK n
    let on := (upto 4).filter fun k => bitOn tx k || bitOn p.tried k
    let body := fun (k : Nat) => ctrlBlock ([0x4B, BitVec.ofNat 8 k, BitVec.ofNat 8 tx, BitVec.ofNat 8 (lockMask s n)] ++ leBytes p.count 2)
    let s := each on (fun s k => wireOut s n k ctrlHeader (body k)) (endCycle s n)
    .next (updPort s n fun p => { p with count := (p.count + 1) % 2 ^ 16 })

/-! ### Capabilities (R535, R536) -/

/-- The features that a version allows (R535). -/
def versionFeatures (v : Nat) : Nat := if v = 1 then 0x05 else 0x3F

/-- The rate of R536 from the partner's MAX_RATE and the features in use. -/
def agreedRate (s : State) (n : Nat) : Nat :=
  let r := min (rd s F.LNK_CFG_RATE n) (rd s F.LNK_PARTNER_MAX_RATE n)
  if bitOn (rd s F.LNK_NEG_ON n) 5 then r else min r 2

/-- Step 3 ends: version, features and rate are agreed; the rate changes, or at the base rate the port is LINKED (R533, R536). -/
def endCaps (s : State) (n : Nat) (c : List Byte) : State :=
  let v := leAt c 1 1
  let s := wr (wr (wr (wr (wr s F.LNK_PARTNER_KIND n 0 (leAt c 2 1)) F.LNK_PARTNER_DEVICE n 0 (leAt c 3 1)) F.LNK_PARTNER_VERSION n 0 v)
    F.LNK_PARTNER_FEATURES n 0 (leAt c 4 2)) F.LNK_PARTNER_MAX_RATE n 0 (leAt c 6 1)
  let on := leAt c 4 2 &&& 0x3F &&& versionFeatures (min 2 v)
  let s := wr (wr s F.LNK_NEG_ON n 0 on) F.LNK_NEG_OFF n 0 (0x3F - on)
  let s := if on = 0x3F then s else raise s K.LNK_EVENT_FEATURE_OFF n
  if agreedRate s n = 0 then linkUp s n (rd s F.LNK_STATUS_RX_MASK n)
  else wr (updPort s n fun p => { p with rated := false, aligning := false, since := s.time.cyc }) F.LNK_STATUS_STATE n 0 4

/-- CAP_RX: a CAP block of the partner; 8 identical ones set the own ACK, and the partner's ACK ends step 3. A version that is not supported
ends bring-up and is reported in LNK_PARTNER.VERSION, as far as its two bits hold it (R40, R533, R536; log entry 73). -/
def execCapRx (port : Fin 4) (block : WireBlock) (s : State) : Host.Outcome State Fault Refusal :=
  let n := port.val
  let body := descramble block
  if portThere s n && controlIs 0x55 block == some false then .next (raise s K.LNK_EVENT_PKT_BAD n)
  else if rd s F.LNK_STATUS_STATE n ≠ 3 ∨ controlIs 0x55 block ≠ some true then .next s
  else if leAt body 1 1 = 0 ∨ 2 < leAt body 1 1 then .next (bringupFail (wr s F.LNK_PARTNER_VERSION n 0 (leAt body 1 1)) n)
  else
    let c := bytesAt body 0 7
    let p := portOf s n
    let run := if p.cap = c then p.capRun + 1 else 1
    let ack := p.capAck || decide (8 ≤ run)
    let s := updPort s n fun p => { p with cap := c, capRun := min 8 run, capAck := ack }
    let s := if ack && !p.capAck then sendOn s n (rd s F.LNK_STATUS_TX_MASK n) (ctrlBlock (capBody s true)) else s
    .next (if bitOn (leAt body 7 1) 0 then endCaps s n c else s)

/-- NDOSIN_RATE_CHANGE: the quad's PLL has relocked at the agreed rate, and steps 1 and 2 repeat (R533). -/
def execNdosinRateChange (port : Fin 4) (s : State) : Host.Outcome State Fault Refusal :=
  let n := port.val
  if !(rd s F.LNK_STATUS_STATE n == 4 && !(portOf s n).rated) then .next s
  else
    let s := updPort (relock s n) n fun p => { p with rated := true, aligning := false, markers := [], partnerLock := [], since := s.time.cyc }
    .next (wr (wr s F.LNK_STATUS_RATE n 0 (agreedRate s n)) F.LNK_STATUS_TX_MASK n 0 (rd s F.LNK_CFG_LANE_MASK n))

/-- The lane rate of a rate code in Mbit/s (R528). -/
def laneRate (code : Nat) : Nat := [5000, 10000, 12500, 16000, 20000, 25000, 28125].getD code 5000

/-- The limit of the present step of bring-up in NET cycles of 1.6 ns: 20 ms, 2 marker intervals of 4,096 blocks of 130 bits, or 5 ms (R531,
R533). -/
def stepLimit (s : State) (n : Nat) : Nat :=
  if inDeskew s n then ceilDiv (2 * 4096 * 130 * 5000) (8 * laneRate (rd s F.LNK_STATUS_RATE n)) else if inLocking s n then msCyc 20 else msCyc 5

/-- BRINGUP_TIMEOUT: the limit of the present step has passed. Step 1 goes on with at least WIDTH_MIN locked lanes; any other step fails
(R533). -/
def execBringupTimeout (port : Fin 4) (s : State) : Host.Outcome State Fault Refusal :=
  let n := port.val
  let st := rd s F.LNK_STATUS_STATE n
  if st = 0 ∨ st = 5 ∨ s.time.cyc < (portOf s n).since + stepLimit s n then .next s
  else if inLocking s n && decide (widthMin s n ≤ lanesIn (lockMask s n &&& rd s F.LNK_CFG_LANE_MASK n)) then .next (startDeskew s n)
  else .next (bringupFail s n)

/-- BRINGUP_RESTART: 10 ms after it went DOWN, a port with EN 1 restarts bring-up (R533). -/
def execBringupRestart (port : Fin 4) (s : State) : Host.Outcome State Fault Refusal :=
  .next (if s.time.cyc < (portOf s port.val).since + msCyc 10 then s else startBringup s port.val)

/-- A write of LNK_CFG (R533, R549). -/
def writeLnkCfg (s : State) (n v m : Nat) : State :=
  let old := rdReg s R.LNK_CFG n
  let now := regAfter s R.LNK_CFG n 0 v m
  let bad := slice now 1 3 == 7 || slice now 4 4 == 0 || slice now 8 3 == 0 || decide (4 < slice now 8 3) ||
    decide (lanesIn (slice now 4 4) < slice now 8 3)
  if (bitOn old 0 && decide (old / 2 ≠ now / 2)) || bad then raise s K.LNK_EVENT_CFG_REFUSED n
  else
    let s := wrReg s R.LNK_CFG n 0 now
    if bitOn now 0 && !bitOn old 0 then startBringup s n
    else if bitOn old 0 && !bitOn now 0 then portDown s n
    else s

/-- LNK_CFG_WRITE (R533, R549). -/
def execLnkCfgWrite (port : Fin 4) (value : BitVec 32) (s : State) : Host.Outcome State Fault Refusal :=
  .next (writeLnkCfg s port.val value.toNat (2 ^ 32 - 1))

/-! ### Width changes (R544 to R547) -/

/-- WIDTH_RX: at COUNTDOWN 0 the receiver restripes; a mask that drops a pair still active in the own transmit direction starts an own width
change (R544). -/
def execWidthRx (port : Fin 4) (block : WireBlock) (s : State) : Host.Outcome State Fault Refusal :=
  let n := port.val
  let body := descramble block
  if portThere s n && controlIs 0x66 block == some false then .next (raise s K.LNK_EVENT_PKT_BAD n)
  else if !featureOn s n 4 ∨ controlIs 0x66 block ≠ some true ∨ leAt body 2 1 ≠ 0 then .next s
  else
    let m := ownMask s n (leAt body 1 1 % 16)
    let s := wr s F.LNK_STATUS_RX_MASK n 0 m
    let cut := laneMask fun k => bitOn (comingMask s n) k && bitOn m k
    .next (if cut ≠ comingMask s n then changeWidth s n cut else s)

/-- WIDTH_CHANGE_DONE: the countdown has ended and the port stripes over the new set; a further change that is due starts (R544, R545). -/
def execWidthChangeDone (port : Fin 4) (s : State) : Host.Outcome State Fault Refusal :=
  let n := port.val
  let p := portOf s n
  match p.width with
  | none => .next s
  | some m =>
    let s := raise (wr (endCycle s n) F.LNK_STATUS_TX_MASK n 0 m) K.LNK_EVENT_WIDTH_CHANGE n
    let s := updPort s n fun p => { p with width := none, widthNext := none, turn := 0, tried := laneMask fun k => bitOn p.tried k && !bitOn m k }
    .next (match p.widthNext with | some m2 => changeWidth s n m2 | none => s)

/-- LANE_RESTORE_TRY: 100 ms after the try before, or LINK_UP, each dropped lane pair is tried, and restored when it is ready (R546). -/
def execLaneRestoreTry (port : Fin 4) (s : State) : Host.Outcome State Fault Refusal :=
  let n := port.val
  if !featureOn s n 4 || decide (s.time.cyc < (portOf s n).triedAt + msCyc 100) then .next s
  else
    let now := comingMask s n
    let lost := laneMask fun k => bitOn (rd s F.LNK_CFG_LANE_MASK n) k && !bitOn now k
    .next (restorePairs (updPort s n fun p => { p with tried := lost, triedAt := s.time.cyc }) n)

/-! ### Packets (R538 to R541) -/

/-- The waiting packet of the highest class, the oldest of it first. -/
def nextPacket (q : List Packet) : Option Packet :=
  (List.range 6).findSome? fun c => q.find? fun p => p.cls == c

/-- The blocks of a packet, in the order of the stream: its SOP and its data blocks (R538). -/
def packetBlocks (p : Packet) : List (Nat × List Byte) :=
  (ctrlHeader, sopBody p) :: (upto (ceilDiv (p.payload.length + 4) 16)).map fun k => (dataHeader, bytesAt (packetData p) (16 * k) 16)

/-- The lanes on which a port sends IDLE, or CAP in its place, before it is LINKED: every lane while it is DOWN (R533). -/
def quietMask (s : State) (n : Nat) : Nat := if rd s F.LNK_STATUS_STATE n = 0 then 15 else rd s F.LNK_STATUS_TX_MASK n

/-- NDOSIN_PACKET_SEND: at a packet end the transmitter starts the highest-priority waiting packet, whose blocks are dealt to the active lanes; with
none waiting it sends IDLE for a LANE cycle. A port that is not LINKED sends IDLE, and CAP in its place in step 3 (R531, R533, R539). -/
def execNdosinPacketSend (port : Fin 4) (s : State) : Host.Outcome State Fault Refusal :=
  let n := port.val
  if !portThere s n then .next s
  else if !linked s n then
    .next (sendOn s n (quietMask s n) (if rd s F.LNK_STATUS_STATE n = 3 then ctrlBlock (capBody s (portOf s n).capAck) else idleBody))
  else match nextPacket (portOf s n).queue with
    | none => .next (fillCycle s n)
    | some p =>
      .next (each (packetBlocks p) (fun s b => streamBlock s n b.1 b.2) (updPort s n fun x => { x with queue := x.queue.erase p }))

/-- The block is a marker, which the receiver removes (R531). -/
def isMarker (w : WireBlock) : Bool := w.header.toNat == ctrlHeader && leAt (descramble w) 0 1 == 0x4B

/-- The stream that the active lanes bring, from the block after the first `skip`: markers are removed and the lanes re-interleaved in ascending
order, one block of each per LANE cycle (R531). -/
def interleave (mask skip : Nat) (lanes : List (List WireBlock)) : List WireBlock :=
  let on := ((upto 4).filter (bitOn mask)).map fun k => (lanes.getD k []).filter fun w => !isMarker w
  (((upto ((on.map List.length).foldl max 0)).map fun i => on.filterMap fun l => l[i]?).flatten).drop skip

/-- A packet of a SOP body and the blocks that follow it is valid: as many data blocks as its LENGTH, which fits its BYTES, none of them a control
block, and its PKT_SUM (R538). -/
def packetOk (sop : List Byte) (rest : List WireBlock) : Bool :=
  let len := leAt sop 2 2
  let bytes := leAt sop 4 4
  let data := ((rest.take len).map descramble).flatten
  len == ceilDiv (bytes + 4) 16 && decide (len ≤ rest.length) && ((rest.take len).all fun w => w.header.toNat == dataHeader) &&
    decide (1 ≤ bytes) && decide (bytes ≤ 32764) &&
    (crc32c (sop ++ data.take (16 * len - 4))).toNat == leAt data (16 * len - 4) 4

/-- A valid packet reaches its destination: HEARTBEAT, TOUCH, LINE36 and ROW; what belongs to Tandem is taken from its ports alone (R379, R537). The
layout of a BULK payload is not given: MIRROR_RX and RESYNC_IMAGE_RX stand for its delivery. -/
def deliver (s : State) (n : Nat) (sop payload : List Byte) : State :=
  match leAt sop 1 1 with
  | 1 => heartbeatRx s n payload
  | 2 => remoteReport s n payload
  | 3 =>
    if bitOn (leAt sop 15 1) 0 && (tandemPorts s).contains n && featureOn s n 1 then twinLineRx s (leAt sop 8 1 % 32) (leAt sop 9 2) payload
    else s
  | 5 => rowRecordRx s n payload
  | _ => s

/-- NDOSIN_PACKET_RX: a packet arrives, with `skip` blocks of the stream before its SOP in its first LANE cycle. It is checked and delivered, or
discarded: with PKT_BAD, or with RX_DROP where its destination has no room (R531, R538, R549; log entry 74). -/
def execNdosinPacketRx (port skip : Fin 4) (lanes : List (List WireBlock)) (room : Bool) (s : State) : Host.Outcome State Fault Refusal :=
  let n := port.val
  if !linked s n then .next s
  else match interleave (rd s F.LNK_STATUS_RX_MASK n) skip.val lanes with
    | [] => .next s
    | w :: rest =>
      let sop := descramble w
      let len := leAt sop 2 2
      if w.header.toNat ≠ ctrlHeader then .next s
      else if leAt sop 0 1 ≠ 0x2D then .next (if listedType (leAt sop 0 1) then s else raise s K.LNK_EVENT_PKT_BAD n)
      else if !packetOk sop rest then .next (raise s K.LNK_EVENT_PKT_BAD n)
      else
        let s := addWrap s F.LNK_RX_PKTS_PKTS n 1
        .next (if room then deliver s n sop (bytesAt ((rest.take len).map descramble).flatten 0 (leAt sop 4 4)) else raise s K.LNK_EVENT_RX_DROP n)

end Sys2Proof.Machine
end

