-- ==== Sys2Proof/Machine/Ptp.lean ====
section
/-!
DEFINITION. The PTP clock: its port, best master, path delay, servo, steps and snapshots (R80 to R102, R683).
-/

namespace Sys2Proof.Machine

/-- STATE codes of PTP_STATE (R103). -/
def ptpDisabled : Nat := 0
def ptpListening : Nat := 1
def ptpUncalibrated : Nat := 2
def ptpSlave : Nat := 3
def ptpHoldover : Nat := 4

/-- The hidden state of the PTP port changed. -/
def updPtp (s : State) (f : Ptp → Ptp) : State := { s with ptp := f s.ptp }

/-- The port runs. -/
def ptpOn (s : State) : Bool := rdb s F.PTP_CTRL_EN

/-- LOCKED falls: pending commits at a time are marked for UNLOCKED (R251); LOCK_LOST where R683 raises it. -/
def dropLock (s : State) (flag : Bool) : State :=
  if !rdb s F.PTP_STATE_LOCKED then s
  else
    let mark := fun (e : Nat × Gallery) =>
      match e.2.pend with
      | some p => if p.at?.isSome then (e.1, { e.2 with pend := some { p with unlocked := true } }) else e
      | none => e
    let s := wr0 { s with eas := { s.eas with gals := s.eas.gals.map mark } } F.PTP_STATE_LOCKED 0
    if flag then raisePtp s K.PTP_EVENT_LOCK_LOST else s

/-- STATE set; LOCKED falls where the new state is not SLAVE (R683). -/
def setPtpState (s : State) (st : Nat) (flag : Bool) : State :=
  wr0 (if st = ptpSlave then s else dropLock s flag) F.PTP_STATE_STATE st

/-- The runs of R88 and the discards of R89 start afresh. -/
def freshRuns (p : Ptp) : Ptp := { p with inRun := 0, outRun := 0, discards := 0 }

/-! ### Frames that leave a port (R81, R83, R113) -/

/-- The sum of 16-bit words in network byte order. -/
def sum16 : List Byte → Nat
  | [] => 0
  | [a] => a.toNat * 256
  | a :: b :: t => a.toNat * 256 + b.toNat + sum16 t

/-- The one's complement checksum of bytes. -/
def checksum (l : List Byte) : Nat := 65535 - sum16 l % 65535

/-- A UDP datagram with its checksum; addresses are 4 bytes each for IPv4 and 16 for IPv6. -/
def udpDatagram (src dst : List Byte) (sport dport : Nat) (payload : List Byte) : List Byte :=
  let n := 8 + payload.length
  let h := beBytes sport 2 ++ beBytes dport 2 ++ beBytes n 2
  h ++ beBytes (checksum (src ++ dst ++ beBytes 17 4 ++ beBytes n 4 ++ h ++ [0, 0] ++ payload)) 2 ++ payload

/-- The EtherType and packet of a UDP datagram; `ident` is the IPv4 identification. -/
def ipPacket (ip6 : Bool) (src dst : List Byte) (dscp ttl ident : Nat) (u : List Byte) : List Byte :=
  if ip6 then
    [0x86, 0xDD] ++ beBytes (6 * 2 ^ 28 + dscp * 2 ^ 22) 4 ++ beBytes u.length 2 ++ [17, BitVec.ofNat 8 ttl] ++ src ++ dst ++ u
  else
    let h := fun k => ([0x45, BitVec.ofNat 8 (4 * dscp)] : List Byte) ++ beBytes (20 + u.length) 2 ++ beBytes ident 2 ++
      [0, 0, BitVec.ofNat 8 ttl, 17] ++ beBytes k 2 ++ src ++ dst
    [0x08, 0x00] ++ h (checksum (h 0)) ++ u

/-- A frame leaves an Ethernet port: its MAC takes the transmit stamp (R83). -/
def sendEth (s : State) (port : Nat) (b : List Byte) : State :=
  emit { s with net := { s.net with txStamp := s.net.txStamp.put port (netNs s) } } (.frame port b)

/-! ### The servo (R88) -/

/-- rate_err: the quotient is rounded toward 0. -/
def rateErr (o t : Int) : Int :=
  let num := -o * (2 ^ 40 : Nat)
  if 0 ≤ t then Int.tdiv num ((1000000000 * 2 ^ t.toNat : Nat) : Int) else Int.tdiv (num * (2 ^ (-t).toNat : Nat)) 1000000000

/-- The bound of integ and ADJ (R85). -/
def adjMax : Int := 549755813

/-- The servo: integ and ADJ from an offset and a logMessageInterval; shifts are arithmetic. -/
def servo (s : State) (o t : Int) : State :=
  let e := rateErr o t
  let i := clampI (-adjMax) adjMax (s.ptp.integ + e / 64)
  wr0 (updPtp s fun p => { p with integ := i }) F.PTP_RATE_ADJ (unsignedOf 32 (clampI (-adjMax) adjMax (i + e / 4)))

/-! ### Offset samples (R87 to R91, R683) -/

/-- The clock set to the master's time: `o` ns earlier, not below 0; a CLOCK_STEP entry (R87). What a Delay_Req exchange has taken before the
step stays as it is: the spec does not say what becomes of an exchange that a step divides (DESIGN CHOICE, log entry 107). -/
def stepClock (s : State) (o : Int) : State :=
  let new := ((s.time.ptp : Int) - o * (ptpUnit : Nat)).toNat % ptpEnd
  let moved := ((new / ptpUnit : Nat) : Int) - (netNs s : Nat)
  let s := { s with time := { s.time with ptp := new } }
  let s := updPtp s fun p => { freshRuns p with relock := false, byAnnounce := false }
  let s := wr0 (setPtpState s ptpUncalibrated false) F.PTP_STATE_STEPPED 1
  askJournal s rankPtp 0x0020 (leBytes (unsignedOf 64 moved) 8)

/-- The offset magnitude is above the threshold of R89. -/
def beyondStep (s : State) (o : Int) : Bool := decide (rd s F.PTP_SERVO_STEP_THRESH_US * 1000 < o.natAbs)

/-- A sample outside the lock band: 8 of them drop LOCKED (R88). -/
def outOfBand (s : State) : State :=
  let s := updPtp s fun p => { p with inRun := 0, outRun := min 8 (p.outRun + 1) }
  if 8 ≤ s.ptp.outRun && rdb s F.PTP_STATE_LOCKED then setPtpState s ptpUncalibrated true else s

/-- A sample beyond the threshold is discarded and counted; the fourth in a row refuses the step (R89). -/
def discardSample (s : State) (o : Int) : State :=
  let s := outOfBand (countUp s F.PTP_EVENT_CNT_DISCARD_CNT)
  let s := updPtp s fun p => { p with discards := min 4 (p.discards + 1) }
  if s.ptp.discards < 4 ∨ rd s F.PTP_STATE_STATE = ptpHoldover then s
  else
    let s := updPtp (setPtpState s ptpHoldover true) fun p => { p with byAnnounce := false }
    askJournal (raisePtp s K.PTP_EVENT_STEP_REFUSED) rankPtp 0x0021 (leBytes (unsignedOf 64 o) 8)

/-- A sample within the threshold is fed to the servo and judged against the lock band (R88, R89). -/
def feedSample (s : State) (o t : Int) : State :=
  let s := servo (updPtp s fun p => { p with discards := 0 }) o t
  let s := if rd s F.PTP_STATE_STATE = ptpHoldover ∨ rd s F.PTP_STATE_STATE = ptpListening then setPtpState s ptpUncalibrated false else s
  if o.natAbs ≤ rd s F.PTP_SERVO_LOCK_NS then
    let s := updPtp s fun p => { p with outRun := 0, inRun := min 8 (p.inRun + 1) }
    if 8 ≤ s.ptp.inRun && !rdb s F.PTP_STATE_LOCKED then wr0 (setPtpState s ptpSlave false) F.PTP_STATE_LOCKED 1 else s
  else outOfBand s

/-- An offset sample: written to PTP_OFFSET; it steps the clock, is discarded, or is fed to the servo (R87 to R90). In a HOLDOVER of R94
only a step uses it. -/
def takeSample (s : State) (o t : Int) : State :=
  let s := wr0 s F.PTP_OFFSET_OFFSET (unsignedOf 32 (clampI (-2147483648) 2147483647 o))
  if s.ptp.relock || !rdb s F.PTP_STATE_STEPPED then stepClock s o
  else if rd s F.PTP_STATE_STATE = ptpHoldover ∧ s.ptp.byAnnounce then s
  else if beyondStep s o then discardSample s o
  else feedSample s o t

/-- A message reaches the clock's port: on the bound Ethernet port, by the transport and in the domain of PTP_CTRL (R81, R82, R102). -/
def reachesClock (s : State) (port : Fin 16) (transport : BitVec 2) (domain : BitVec 8) : Bool :=
  ptpOn s && decide (port.val = rd s F.PTP_STATE_PORT_ACTIVE) && decide (transport.toNat = rd s F.PTP_CTRL_TRANSPORT) &&
    decide (domain.toNat = rd s F.PTP_CTRL_DOMAIN)

/-- A Sync is complete: sent at `t1`, its corrections added, and received at `t2`; before the first meanPathDelay it gives no sample
(R88). -/
def syncDone (s : State) (t1 t2 t : Int) : State :=
  let s := updPtp s fun p => { p with sync := some (t1, t2), half := none }
  match s.ptp.path with
  | none => s
  | some d => takeSample s (t2 - t1 - d) t

/-- OFFSET_SAMPLE: a one-step Sync forms a sample; a two-step one waits, with the stamp its MAC took, for the Follow_Up of its sequence
number, which forms it (R81, R83, R88). Messages of another sender than the selected master are ignored and not counted, whatever their
interval (DESIGN CHOICE, log entry 108). -/
def execOffsetSample (port : Fin 16) (msg : SyncMsg) (s : State) : Host.Outcome State Fault Refusal :=
  let t := msg.logInterval.toInt
  if !(reachesClock s port msg.transport msg.domain && s.ptp.parent == some msg.sender) then .next s
  else if t < -7 ∨ 1 < t then .next (countUp s F.PTP_EVENT_CNT_DISCARD_CNT)
  else if msg.followUp then
    match s.ptp.half with
    | some (n, t2, c, t) => .next (if n = msg.seq.toNat then syncDone s ((msg.origin : Int) + msg.correction + c) t2 t else s)
    | none => .next s
  else if msg.twoStep then .next (updPtp s fun p => { p with half := some (msg.seq.toNat, (netNs s : Nat), msg.correction, t) })
  else .next (syncDone s ((msg.origin : Int) + msg.correction) (netNs s : Nat) t)

/-! ### Path delay (R81, R88) -/

/-- A Delay_Req, as IEEE 1588-2019 lays it out (log entry 106): its originTimestamp is a free value, and its clockIdentity is that of the port it
leaves by, so that a rebind may change it (DESIGN CHOICE, log entry 106: R82 does not say). -/
def delayReqMessage (s : State) (port seq : Nat) (unicast : Bool) : List Byte :=
  [0x01, 0x12, 0, 44, BitVec.ofNat 8 (rd s F.PTP_CTRL_DOMAIN), 0, if unicast then 4 else 0, 0] ++ List.replicate 12 0 ++
    bytesAt (Config.clockIdentity port) 0 8 ++ [0, 1] ++ beBytes seq 2 ++ [1, 0x7F] ++ bytesAt (Config.freeBytes s.free) 0 10

/-- The Ethernet frame, without FCS, of a Delay_Req on the selected transport: to the group of PTP event messages under the default
profile; under SMPTE ST 2059-2 to that group or to one address, which are free values (R81; log entry 106). -/
def delayReqFrame (s : State) (port seq : Nat) : List Byte :=
  let unicast := rdb s F.PTP_CTRL_PROFILE && freeNat s % 2 == 1
  let b := Config.freeBytes (s.free + 1)
  let m := delayReqMessage s port seq unicast
  let mac := fun (group : List Byte) => (if unicast then bytesAt b 0 6 else group) ++ Config.macAddress port
  let ip := fun (ip6 : Bool) (n : Nat) (group : List Byte) =>
    let src := bytesAt (Config.ipAddress port) 0 n
    let dst := if unicast then bytesAt b 6 n else group
    ipPacket ip6 src dst (leAt b 22 1 % 64) (leAt b 23 1) (leAt b 24 2) (udpDatagram src dst 319 319 m)
  match rd s F.PTP_CTRL_TRANSPORT with
  | 0 => mac [0x01, 0x00, 0x5E, 0x00, 0x01, 0x81] ++ ip false 4 [224, 0, 1, 129]
  | 1 => mac [0x33, 0x33, 0x00, 0x00, 0x01, 0x81] ++
      ip true 16 ([0xFF, BitVec.ofNat 8 (leAt b 26 1 % 16)] ++ List.replicate 12 0 ++ [0x01, 0x81])
  | _ => mac [0x01, 0x1B, 0x19, 0x00, 0x00, 0x00] ++ [0x88, 0xF7] ++ m

/-- DELAY_REQ_SEND: a Delay_Req leaves the bound port, and its transmit stamp is kept for the answer (R81, R83). It leaves while EN is 1, with a
master selected or not and with the port up or down (DESIGN CHOICE, log entry 106: R81 does not say). -/
def execDelayReqSend (s : State) : Host.Outcome State Fault Refusal :=
  if !ptpOn s then .next s
  else
    let n := s.ptp.reqSeq
    let port := rd s F.PTP_STATE_PORT_ACTIVE
    let sent := draw (draw (sendEth s port (delayReqFrame s port n)))
    .next (updPtp sent fun p => { p with req := some (n, (netNs s : Nat)), reqSeq := (n + 1) % 2 ^ 16 })

/-- DELAY_RESP_RX: the answer to the outstanding Delay_Req gives meanPathDelay, with the latest Sync: half of (t2 − t1) + (t4 − t3),
rounded down (R88). -/
def execDelayRespRx (port : Fin 16) (msg : DelayResp) (s : State) : Host.Outcome State Fault Refusal :=
  if !(reachesClock s port msg.transport msg.domain && msg.mine) then .next s
  else match s.ptp.req, s.ptp.sync with
  | some (n, t3), some (t1, t2) =>
    if n ≠ msg.seq.toNat then .next s
    else
      let t4 := (msg.receive : Int) - msg.correction
      .next (updPtp s fun p => { p with path := some (((t2 - t1) + (t4 - t3)) / 2), req := none })
  | _, _ => .next s

/-! ### Announce and the best master (R84, R93, R94) -/

/-- The keys by which the default BMCA compares two Announce messages of different grandmasters, most significant first. -/
def masterKeys (a : Announce) : List Nat :=
  [a.priority1.toNat, a.gmClass.toNat, a.gmAccuracy.toNat, a.gmVariance.toNat, a.priority2.toNat, a.gm.toNat, a.steps.toNat,
   a.sender.toNat, a.senderPort.toNat]

/-- The first list is lexicographically below the second. -/
def keysBelow : List Nat → List Nat → Bool
  | a :: x, b :: y => decide (a < b) || (a == b && keysBelow x y)
  | _, _ => false

/-- NET cycles of 2^t seconds, for −3 ≤ t ≤ 4. -/
def intervalCyc (t : Int) : Nat := 625000000 * 2 ^ (t + 3).toNat / 8

/-- The best of the senders heard in their last four announce intervals. R81 names the default BMCA and leaves its figures out: a sender
qualifies with its first Announce and is kept for four announce intervals (DESIGN CHOICE, log entry 109). -/
def bestMaster (s : State) : Option Announce :=
  let l := s.ptp.masters.filter fun e => decide (s.time.cyc ≤ e.2 + 4 * intervalCyc e.1.logInterval.toInt) && decide (e.1.steps.toNat < 255)
  (l.map (·.1)).foldl (fun (b : Option Announce) a => match b with
    | none => some a
    | some c => if keysBelow (masterKeys a) (masterKeys c) then some a else some c) none

/-- The master selected: its UTC fields are held, and a new grandmaster identity is taken and journalled (R84, R93). -/
def selectMaster (s : State) (a : Announce) : State :=
  let old := rd s F.PTP_GM_ID_ID
  let s := updPtp s fun p => { p with parent := some a.sender }
  let s := wr0 (wr0 (wr0 (wr0 s F.PTP_STATE_UTC_VALID (bit a.utcValid)) F.PTP_STATE_LEAP61 (bit a.leap61)) F.PTP_STATE_LEAP59 (bit a.leap59))
    F.PTP_STATE_UTC_OFFSET a.utcOffset.toNat
  if old = a.gm.toNat then s
  else askJournal (raisePtp (wr0 s F.PTP_GM_ID_ID a.gm.toNat) K.PTP_EVENT_GM_CHANGE) rankPtp 0x0022 (leBytes old 8 ++ leBytes a.gm.toNat 8)

/-- ANNOUNCE_RX: an Announce of the clock's domain and profile on the bound port goes through the BMCA; it ends a HOLDOVER of R94
(R81, R93, R94). -/
def execAnnounceRx (port : Fin 16) (msg : Announce) (s : State) : Host.Outcome State Fault Refusal :=
  let t := msg.logInterval.toInt
  if !(reachesClock s port msg.transport msg.domain && msg.profile == rdb s F.PTP_CTRL_PROFILE) then .next s
  else if t < -3 ∨ 4 < t then .next (countUp s F.PTP_EVENT_CNT_DISCARD_CNT)
  else
    let others := s.ptp.masters.filter fun e => !(e.1.sender == msg.sender && e.1.senderPort == msg.senderPort)
    let s := updPtp s fun p => { p with masters := (msg, s.time.cyc) :: others }
    match bestMaster s with
    | none => .next s
    | some a =>
      let s := selectMaster s a
      .next (if rd s F.PTP_STATE_STATE = ptpHoldover ∧ s.ptp.byAnnounce then
          setPtpState (updPtp s fun p => { freshRuns p with byAnnounce := false })
            (if rdb s F.PTP_STATE_STEPPED then ptpUncalibrated else ptpListening) false
        else s)

/-- ANNOUNCE_TIMEOUT: the state becomes HOLDOVER with the last ADJ (R94). -/
def execAnnounceTimeout (s : State) : Host.Outcome State Fault Refusal :=
  if !ptpOn s || s.ptp.byAnnounce then .next s
  else
    let s := updPtp s fun p => { p with byAnnounce := true, masters := [] }
    .next (raisePtp (setPtpState s ptpHoldover true) K.PTP_EVENT_HOLDOVER)

/-! ### Control (R82, R90, R97, R102) -/

/-- RELOCK arms one step; a HOLDOVER of R89 ends at the write (R89, R90). -/
def armRelock (s : State) : State :=
  let s := updPtp s fun p => { p with relock := true }
  if rd s F.PTP_STATE_STATE = ptpHoldover ∧ !s.ptp.byAnnounce then setPtpState s ptpUncalibrated false else s

/-- RELOCK (R90). -/
def execRelock (s : State) : Host.Outcome State Fault Refusal := .next (armRelock s)

/-- CAPTURE copies the clock into the snapshot registers in one NET cycle (R97). -/
def captureClock (s : State) : State :=
  let ns := netNs s
  wr0 (wr0 (wr0 s F.PTP_SNAP_SEC_SEC (ns / 1000000000)) F.PTP_SNAP_NS_NS (ns % 1000000000)) F.PTP_SNAP_SHORT_SHORT (shortStamp ns)

/-- CAPTURE (R97). -/
def execCapture (s : State) : Host.Outcome State Fault Refusal := .next (captureClock s)

/-- The port starts in LISTENING with nothing heard. -/
def restartPtp (s : State) : State :=
  setPtpState (updPtp s fun p => { freshRuns p with path := none, req := none, sync := none, half := none, byAnnounce := false, masters := [],
                                                    parent := none }) ptpListening false

/-- A write of PTP_CTRL: the port is enabled, restarted or disabled, and bound; then RELOCK and CAPTURE act (R82, R90, R97, R102, R683).
DOMAIN is what software writes: R81's default of 127 under SMPTE ST 2059-2 is left to it, as R102 gives the field one reset value (DESIGN
CHOICE, log entry 110). -/
def writePtpCtrl (s : State) (v m : Nat) : State :=
  let old := rdReg s R.PTP_CTRL
  let now := regAfter s R.PTP_CTRL 0 0 v m
  let s := wrReg s R.PTP_CTRL 0 0 now
  let mode := fun (x : Nat) => (slice x 1 3, slice x 13 8)
  let s := if slice old 4 4 ≠ slice now 4 4 ∨ !bitOn now 12 then wr0 s F.PTP_STATE_PORT_ACTIVE (slice now 4 4) else s
  let s :=
    if !bitOn now 0 then setPtpState (updPtp s fun p => { p with byAnnounce := false }) ptpDisabled false
    else if !bitOn old 0 || decide (mode old ≠ mode now) then restartPtp s
    else s
  also (bitOn (v &&& m) 22) captureClock (also (bitOn (v &&& m) 21) armRelock s)

/-- PTP_CTRL_WRITE (R102). -/
def execPtpCtrlWrite (value : BitVec 32) (s : State) : Host.Outcome State Fault Refusal :=
  .next (writePtpCtrl s value.toNat (2 ^ 32 - 1))

/-- A port is up (R135). -/
def portUp (s : State) (p : Nat) : Bool := rdb s F.NET_MAC_STATUS_LINK_UP p

/-- The clock rebinds when the port in use is down and the other of PORT and ALT_PORT is up (R82): at a link event of any port. A write of PTP_CTRL
that sets ALT_EN, PORT or ALT_PORT while the port in use is down waits for the next such event (DESIGN CHOICE, log entry 77). -/
def ptpRebind (s : State) : State :=
  let a := rd s F.PTP_STATE_PORT_ACTIVE
  let o := if a = rd s F.PTP_CTRL_PORT then rd s F.PTP_CTRL_ALT_PORT else rd s F.PTP_CTRL_PORT
  if rdb s F.PTP_CTRL_ALT_EN && !portUp s a && portUp s o then wr0 s F.PTP_STATE_PORT_ACTIVE o else s

end Sys2Proof.Machine
end

