-- ==== Sys2Proof/Machine/Sluice.lean ====
section
/-!
DEFINITION. The Sluice: contexts and their sets (R137 to R139, R169 to R174), landing (R140 to R148), the watchdog (R149 to R151),
and the two scaling pipelines with their derived sources (R152 to R168).
-/

namespace Sys2Proof.Machine


/-- An input of a context, and whether a set feeds it. -/
def feeds (t : Option CtxSet) (input : Nat) : Bool := t.any fun t => t.en && t.input == input

/-- Stripe of parent lines that the first crop line lies in, and the number of stripes the crop touches in a frame of height `h`
(R159). A parent that proves smaller than the crop at release has its edge pixels repeated, and a job on it may have no stripe (DESIGN CHOICE, log
entry 79: no rule says what becomes of such a job). -/
def firstStripe (t : CtxSet) : Nat := t.cropY / 32
def stripeCount (t : CtxSet) (h : Nat) : Nat := (min h (t.cropY + t.cropH) - 1) / 32 + 1 - firstStripe t

/-- What the pipelines show in SLU_PIPE_STATUS: `c` starts or ends a stripe on pipeline `p` (R172). -/
def showPipe (s : State) (p c : Nat) (busy : Bool) : State :=
  if p = 0 then wr0 (wr0 s F.SLU_PIPE_STATUS_P0_CTX c) F.SLU_PIPE_STATUS_P0_BUSY (bit busy)
  else wr0 (wr0 s F.SLU_PIPE_STATUS_P1_CTX c) F.SLU_PIPE_STATUS_P1_BUSY (bit busy)

/-! ### Samples and lines (R152 to R156, R223) -/

/-- One chroma component of a parent's pixel, times 8 in 12 bits. The spec gives no upsampling for the pipeline: a free function of the
four stored samples around the pixel, as far as they lie in the tiles that a context reads (R153; log entry 13). -/
def sluChroma (b : PlaneReader) (t : CtxSet) (p : Place) (c x y : Nat) : Nat :=
  if p.fmt = 4 then 8 * chromaAt b p c x y
  else
    let two := planesOf p.fmt == 2
    let j := if two then y / 2 else y
    let i := x / 2
    let i1 := min (i + 1) (ceilDiv (min p.w (roundUp (t.cropX + t.cropW) 128)) 2 - 1)
    let y1 := min p.h (roundUp (t.cropY + t.cropH) 16)
    let j1 := min (j + 1) (if two then ceilDiv y1 2 - 1 else y1 - 1)
    8 * (Config.scaleSample [chromaAt b p c i j, chromaAt b p c i1 j, chromaAt b p c i j1, chromaAt b p c i1 j1] (x % 2 + 2 * (y % 2)) % 4096)

/-- A parent's pixel as RGB in 12 bits, full range: its coding taken from its format, under the input matrix and range (R154). Beyond the
frame the edge pixel is repeated (R156). Samples of 8 and 10 bits widen, and the RGB between the two matrices is rounded and clamped, as R278 and
R279 have it for the composer (DEDUCED, log entry 13: R154 does not say). -/
def sluRgb (b : PlaneReader) (t : CtxSet) (p : Place) (x y : Nat) : Px :=
  let x := min x (p.w - 1)
  let y := min y (p.h - 1)
  let full := bitOn t.colour 2
  let v := if p.fmt = 5 then
      let k := fun i => rgbComp full (expand8 (pixByte b 0 y (3 * x + i)))
      (k 0, k 1, k 2)
    else toRgb (slice t.colour 0 2) full (lumaAt b p x y) (sluChroma b t p 0 x y) (sluChroma b t p 1 x y)
  { r := v.1, g := v.2.1, b := v.2.2, a := 4095 }

/-- A pixel in the coding of an output: (R, G, B) or (Y, Cb, Cr) in 12 bits, under the output matrix and range (R154). -/
def sluCoded (t : CtxSet) (rgb : Bool) (v : Px) : Nat × Nat × Nat :=
  let full := bitOn t.colour 5
  if rgb then
    let k := fun (c : Nat) => if full then c else nearExact ((256 * 4095 + 3504 * c : Nat) : Int) 4095
    (k v.r, k v.g, k v.b)
  else toYcc (slice t.colour 3 2) full v

/-- The format an output is stored in (R223). -/
def outFormat (o : CtxOut) : Nat := if o.format = 4 ∧ o.rgb then 5 else o.format

/-- The power of 2 by which the box prefilter of an axis averages: 0 where the ratio is 1/2 or more, else the smallest from 1 to 3 for which
the ratio times 2^m is at least 1/2 (R156). -/
def boxPower (out crop : Nat) : Nat := if crop ≤ 2 * out then 0 else if crop ≤ 4 * out then 1 else if crop ≤ 8 * out then 2 else 3

/-- The sum of the 2^m samples of box `j`; the edge sample is repeated beyond the crop (R156, R157). -/
def boxSum (m crop : Nat) (sample : Nat → Nat) (j : Int) : Nat :=
  ((upto (2 ^ m)).map fun k => sample (clampI 0 ((crop : Int) - 1) (j * (2 ^ m : Nat) + k)).toNat).foldl (· + ·) 0

/-- Output sample `i` of a 64-phase polyphase filter along an axis of `crop` samples scaled to `out`, in 12 bits. The position of the taps is
that of R273 in 1/64 of a box; the filter's value is free (R156; log entry 13). -/
def polyphase (taps out crop i : Nat) (sample : Nat → Nat) : Nat :=
  let m := boxPower out crop
  let w := max 1 out * 2 ^ m
  let q : Int := 64 * ((((2 * i + 1) * crop : Nat) : Int) - w) / (2 * w : Nat)
  Config.filterSample ((upto taps).map fun (k : Nat) => boxSum m crop sample (q / 64 - (taps / 2 - 1 : Nat) + k)) (2 ^ m) (q % 64).toNat % 4096

/-- A scaled 12-bit sample of an output: the 4-tap vertical filter over lines that the 8-tap horizontal filter has scaled (R152, R156, R157). -/
def scaled (b : PlaneReader) (t : CtxSet) (o : CtxOut) (p : Place) (i x y : Nat) : Nat :=
  polyphase 4 o.height o.cropH y fun j => polyphase 8 o.width o.cropW x fun k =>
    pick (sluCoded t (outFormat o == 5) (sluRgb b t p (t.cropX + o.cropX + k) (t.cropY + o.cropY + j))) i

/-- An output component at a position of its plane: luma or full-resolution components at (x, y); chroma of a subsampled output filtered
by [1, 2, 1] / 4 about the left column of the pair and, for 4:2:0, halfway between the two lines, which is their mean (R156; log entry
13). -/
def outSample (b : PlaneReader) (t : CtxSet) (o : CtxOut) (p : Place) (i x y : Nat) : Nat :=
  let full := bitOn t.colour 5
  let ten := o.format == 3
  let d := if ten then 4 else 16
  if i = 0 ∨ o.format = 4 then rounded full (i != 0 && outFormat o != 5) ten (scaled b t o p i x y) d
  else
    let row := fun j => scaled b t o p i (x - 1) j + 2 * scaled b t o p i x j + scaled b t o p i (min (x + 1) (o.width - 1)) j
    if o.format = 1 then rounded full true ten (row y + row (y + 1)) (8 * d) else rounded full true ten (row y) (4 * d)

/-- The lines of an output frame, as (plane, line, bytes). -/
def outLines (b : PlaneReader) (t : CtxSet) (o : CtxOut) (p : Place) : List (Nat × Nat × List Byte) :=
  let f := outFormat o
  ((upto (planesOf f)).map fun k => (upto (if k = 0 then o.height else o.height / 2)).map fun y =>
    (k, y, packLine f k o.width fun i x => outSample b t o p i x (if k = 0 then y else 2 * y))).flatten

/-! ### Provisional frames (R51 to R53) -/

/-- A producer has a frame's lines: they are written and sealed provisionally, and publication is requested. -/
def publishLines (s : State) (master d : Nat) (f : Frame) (lines : List (Nat × Nat × List Byte)) : State :=
  let p := placeIn s d f
  let f := { f with content := contentOf ((upto (tileRows f.height)).foldl (fun k r => contentRow k p r lines) 0xFFFFFFFF) }
  let s := writeLines s master p lines
  let s := (upto (tileRows f.height)).foldl (fun s r => sealRow s master p domSource f.source 0 r lines) s
  let s := writeProvisional s master p f
  requestPublish (updDesc s d fun x => { x with frame := f }) d

/-- A context's frame is requested for publication: output `k`, or 4 for its landed frame. -/
def noteAsked (s : State) (d c k : Nat) : State := { s with slu := { s.slu with asked := s.slu.asked.put d (8 * c + k) } }

/-! ### Jobs (R153 to R168) -/

/-- The tile rows of stripe `i` that the context crop touches in a frame of height `h` (R159, R160). -/
def stripeRows (t : CtxSet) (h i : Nat) : List Nat :=
  [2 * i, 2 * i + 1].filter fun r => decide (r * 16 < min h (t.cropY + t.cropH)) && decide (t.cropY < (r + 1) * 16)

/-- The tile columns of the crop in a frame of width `w`. -/
def cropCols (t : CtxSet) (w : Nat) : List Nat :=
  (upto (tilesPerRow w)).filter fun k => decide (k * 128 < t.cropX + t.cropW) && decide (t.cropX < (k + 1) * 128)

/-- The buffers of a job's outputs return to the pool (R165). -/
def freeOuts (s : State) (outs : List (Nat × Nat)) : State := each outs (fun s o => abandonBuffer s o.2) s

/-- A failed header or tile of a parent (R68, R153, R343). -/
def parentBad (s : State) (c : Nat) (f : Frame) : State := raise (checkFailed s f) K.SLU_CTX_EVENT_PARENT_BAD c

/-- A tile of a parent failed R60: recorded as any tile mismatch is; the layer and canvas of the record are not stated (R68 to R70). -/
def parentMismatch (s : State) (tile source : Nat) : State :=
  draw (tileMismatch s tile (freeNat s % 1024) (freeNat s / 1024 % 32) source)

/-- Output buffers are taken, output 0 first; none when a pool is empty, with those taken returned (R227). -/
def takeOuts (s : State) (outs : List (Nat × CtxOut)) : State × Option (List (Nat × Nat)) :=
  outs.foldl (fun (a : State × Option (List (Nat × Nat))) o =>
    match a.2 with
    | none => a
    | some l =>
      let r := takeBuffer a.1 (outFormat o.2) o.2.width o.2.height
      match r.2 with
      | some d => (r.1, some (l ++ [(o.1, d)]))
      | none => (freeOuts r.1 l, none)) (s, some [])

/-- A parent is still there for a job to be released on it: a landed frame that is not yet published, or a published frame that is still
CURRENT, of the parent source for a memory input. A landed frame that waits for release stays one under a set whose INPUT is 2 (DESIGN CHOICE, log
entry 79: R170 does not say). -/
def parentThere (s : State) (t : CtxSet) (d seq : Nat) (live : Bool) : Bool :=
  let x := descOf s d
  if live then x.st == .filling
  else x.st == .current && x.seq == seq && (if t.input = 2 then x.frame.source == t.parentSrc else decide (x.frame.origin ≤ 1))

/-- A job is released on a parent (R153, R164, R170): it leases the parent, checks the header of a published one, and takes its
outputs' buffers. A context that finds no buffer raises NO_BUF and drops the job (DESIGN CHOICE, log entry 79). -/
def startJob (s : State) (c d seq : Nat) (live : Bool) : State :=
  let s := updCtx s c fun x => pipeSide x (sluCyc s)
  match (ctxOf s c).pipe with
  | none => s
  | some t =>
    if !parentThere s t d seq live then s
    else
      let k0 := leaseOf s d
      let k := if (descOf s d).st = .filling then { k0 with frame := { k0.frame with seq := 0 } } else k0
      let h := if live then (s, true, []) else readHeader s 55 k
      if !h.2.1 then parentBad (raise h.1 K.SEAL_EVENT_HEADER_BAD) c k.frame
      else
        let o := takeOuts h.1 (enabledOuts t)
        match o.2 with
        | none => raise o.1 K.SLU_CTX_EVENT_NO_BUF c
        | some outs =>
          updCtx (takeLease o.1 d) c fun x =>
            { x with job := some { parent := k, live := live, t0 := sluCyc s, n := stripeCount t k.frame.height, outs := outs, set := t } }

/-- The job of a context ends or is dropped: its lease drops, and the pending job, if any, is released (R153, R166). -/
def leaveJob (s : State) (c : Nat) (j : Job) : State :=
  let s := dropLease s j.parent.desc
  let s := match j.pipe with | some p => showPipe s p c false | none => s
  let nx := (ctxOf s c).next
  let s := updCtx s c fun x => { x with job := none, next := none }
  showCtx (match nx with | some (d, seq, live) => startJob s c d seq live | none => s) c

/-- A job is dropped: nothing of it is published and its outputs' buffers return to the pool (R165). -/
def dropJob (s : State) (c : Nat) : State :=
  match (ctxOf s c).job with
  | none => s
  | some j => leaveJob (freeOuts s j.outs) c j

/-- The frame of output `k` of a job (R54, R55, R154, R168). PARENT names the job's parent frame also where that is derived or
host-published: R50 names the parent frame, R55 the landed or decoded one (DESIGN CHOICE, log entry 119). -/
def outFrame (s : State) (j : Job) (o : CtxOut) : Frame :=
  let f := (descOf s j.parent.desc).frame
  { format := outFormat o, width := o.width, height := o.height, origin := 3, derived := true, ptpStamp := f.ptpStamp,
    source := o.src, transfer := slice j.set.colour 6 4, capture := f.capture, allow := f.allow, parentId := f.source, parentSeq := f.seq }

/-- The job of context `c` has ended its last stripe and its parent is published: its outputs are requested for publication, output 0
first (R55, R167). A live parent's header is checked now that its record is complete (log entry 28). -/
def finishJob (s : State) (c : Nat) (j : Job) : State :=
  let m := 55 + j.last
  let h := if j.live then readHeader s m (leaseOf s j.parent.desc) else (s, true, [])
  if !h.2.1 then dropJob (parentBad (raise h.1 K.SEAL_EVENT_HEADER_BAD) c j.parent.frame) c
  else
    let p := placeOf h.1 (leaseOf h.1 j.parent.desc)
    let s := j.outs.foldl (fun s e =>
      match j.set.outs[e.1]? with
      | some o => noteAsked (publishLines s m e.2 (outFrame s j o) (outLines (tileReader j.tiles p) j.set o p)) e.2 c e.1
      | none => s) h.1
    leaveJob s c j

/-- A parent frame that waits to be published is published with sequence `q`. -/
def nowPublished (d q : Nat) (a : Nat × Nat × Bool) : Nat × Nat × Bool := if a.2.2 && a.1 == d then (d, q, false) else a

/-- The job's parent is published. -/
def parentOut (s : State) (j : Job) : Bool := (descOf s j.parent.desc).st != .filling

/-- A frame has been published: it is shown as the context's last one, and a live job that waited for it ends (R167, R174). -/
def contextPublished (s : State) (d : Nat) : State :=
  let s := match s.slu.asked.find d with
    | none => s
    | some v =>
      let q := (descOf s d).seq
      let s := { s with slu := { s.slu with asked := s.slu.asked.del d } }
      if v % 8 = 4 then wr s F.SLU_CTX_LAND_SEQ_SEQ (v / 8) 0 q else wr s F.SLU_CTX_OUT_SEQ_SEQ (v / 8) (v % 8) q
  each s.slu.ctxs (fun s e =>
    let s := updCtx s e.1 fun x => { x with next := x.next.map (nowPublished d (descOf s d).seq), due := x.due.map (nowPublished d (descOf s d).seq) }
    match (ctxOf s e.1).job with
    | some j => if j.live && decide (j.n ≤ j.k) && j.parent.desc == d then finishJob s e.1 j else s
    | none => s) s

/-- The live job or pending job on a frame that is not published ends with no count (R167). -/
def parentLost (s : State) (c d : Nat) : State :=
  let gone := fun (a : Nat × Nat × Bool) => a.2.2 && a.1 == d
  let s := showCtx (updCtx s c fun x =>
    { x with next := if x.next.any gone then none else x.next, due := if x.due.any gone then none else x.due }) c
  match (ctxOf s c).job with
  | some j => if j.live && j.parent.desc == d then dropJob s c else s
  | none => s

/-- The parent on which a job of context `c` can be released now: its buffer and sequence, and whether it is live. A live input's frame is
one once its stripe 0 is ready, in its landing or after it (R153, R160, R164). -/
def releasable (s : State) (c : Nat) : Option (Nat × Nat × Bool) :=
  let x := ctxOf s c
  match nextPipe x (sluCyc s) with
  | none => none
  | some t =>
    if !t.en || (enabledOuts t).isEmpty then none
    else match x.due with
      | some a => some a
      | none =>
        x.landing.bind fun l => l.desc.bind fun d =>
          if t.input ≠ 2 ∧ !l.released ∧ (stripeRows t l.frame.height (firstStripe t)).all l.rows.contains then some (d, 0, true) else none

/-- The deadline of the stripe with ordinal `k` (R164). -/
def deadlineAt (j : Job) (k : Nat) : Nat := j.t0 + j.set.deadline * 600 * (k + 1) / max 1 j.n

/-- A stripe of the context's job has not ended and its deadline has passed (R165). -/
def overdue (s : State) (c : Nat) : Bool := (ctxOf s c).job.any fun j => decide (j.k < j.n) && decide (deadlineAt j j.k < sluCyc s)

/-- The jobs whose deadline has passed are dropped with MISS (R165). -/
def dropOverdue (s : State) : State :=
  each (s.slu.ctxs.map (·.1)) (fun s c => if overdue s c then dropJob (raise s K.SLU_CTX_EVENT_MISS c) c else s) s

/-- SLU_JOB_RELEASE: a job is released on a parent frame, or the frame becomes the pending job, replacing one that waits with SKIP
(R153, R166). -/
def execSluJobRelease (c : Fin 64) (s0 : State) : Host.Outcome State Fault Refusal :=
  let s := dropOverdue s0
  if accessWaits s 55 then .next s
  else match releasable s c.val with
  | none => .next s
  | some (d, seq, live) =>
    let s := updCtx s c.val fun x =>
      { x with due := none, landing := if x.due.isSome then x.landing else x.landing.map fun l => { l with released := true } }
    if (ctxOf s c.val).job.isNone then .next (showCtx (startJob s c.val d seq live) c.val)
    else
      let s := also (ctxOf s c.val).next.isSome (fun s => raise s K.SLU_CTX_EVENT_SKIP c.val) s
      .next (showCtx (updCtx s c.val fun x => { x with next := some (d, seq, live) }) c.val)

/-! ### Stripes -/

/-- The next stripe of a context's job is ready (R160). -/
def stripeReady (s : State) (c : Nat) : Bool :=
  match (ctxOf s c).job with
  | none => false
  | some j =>
    j.pipe.isNone && decide (j.k < j.n) &&
      (!j.live || match (ctxOf s c).landing with
        | some l => l.desc != some j.parent.desc ||
            (stripeRows j.set j.parent.frame.height (firstStripe j.set + j.k)).all l.rows.contains
        | none => true)

/-- The ready stripe of earliest deadline, ties to the lower context (R161). -/
def nextStripe (s : State) : Option Nat :=
  (upto 64).foldl (fun (a : Option Nat) c =>
    if !stripeReady s c then a
    else match a with
      | none => some c
      | some b =>
        match (ctxOf s b).job, (ctxOf s c).job with
        | some i, some j => if deadlineAt j j.k < deadlineAt i i.k then some c else a
        | _, _ => a) none

/-- The context whose stripe a pipeline runs. -/
def running (s : State) (p : Nat) : Option Nat :=
  lowest 64 fun c => (ctxOf s c).job.any fun j => j.pipe == some p

/-- A pipeline that is free starts the ready stripe of earliest deadline (R161). -/
def startStripe (s : State) (p : Nat) : State :=
  if (running s p).isSome then s
  else match nextStripe s with
    | none => s
    | some c =>
      let s := updCtx s c fun x => { x with job := x.job.map fun j => { j with pipe := some p, last := p } }
      showCtx (showPipe s p c true) c

/-- SLU_STRIPE_START: a stripe starts on a pipeline; where both are free, pipeline 0 chooses first (R161). -/
def execSluStripeStart (p : Fin 2) (s : State) : Host.Outcome State Fault Refusal :=
  let s := dropOverdue s
  .next (if p.val = 1 then startStripe (startStripe s 0) 1 else startStripe s 0)

/-- The tiles of the present stripe verify, with the identity of the lease; a live parent that is not yet published is checked under its
provisional seals (R58, R60, R153; log entry 28). -/
def stripeTiles (s : State) (j : Job) (m : Nat) : State × Bool × Map (List Byte) :=
  let l := if parentOut s j then leaseOf s j.parent.desc else j.parent
  let w := l.frame.width
  let ts := ((stripeRows j.set l.frame.height (firstStripe j.set + j.k)).map fun r => (cropCols j.set w).map fun k => r * tilesPerRow w + k).flatten
  ts.foldl (fun (a : State × Bool × Map (List Byte)) t =>
    let b := tileOk a.1 m l t
    if b.2.1 then (b.1, a.2.1, a.2.2.put t b.2.2) else (parentMismatch b.1 t l.frame.source, false, a.2.2)) (s, true, j.tiles)

/-- SLU_STRIPE_END: a stripe ends. A parent tile that fails drops the job; after the last stripe the outputs are requested for
publication, at once or when a live parent is published (R153, R162, R167). -/
def execSluStripeEnd (p : Fin 2) (s0 : State) : Host.Outcome State Fault Refusal :=
  let s := dropOverdue s0
  if accessWaits s (55 + p.val) then .next s
  else match running s p.val with
  | none => .next s
  | some c =>
    match (ctxOf s c).job with
    | none => .next s
    | some j =>
      let r := stripeTiles s j (55 + p.val)
      if !r.2.1 then .next (dropJob (parentBad r.1 c j.parent.frame) c)
      else
        let j := { j with pipe := none, k := j.k + 1, tiles := r.2.2 }
        let s := showCtx (showPipe (updCtx r.1 c fun x => { x with job := some j }) p.val c false) c
        .next (if j.n ≤ j.k ∧ parentOut s j then finishJob s c j else s)

/-- SLU_JOB_DROP: a stripe's deadline has passed; the job is dropped with MISS (R165). -/
def execSluJobDrop (c : Fin 64) (s : State) : Host.Outcome State Fault Refusal :=
  if overdue s c.val then .next (dropJob (raise s K.SLU_CTX_EVENT_MISS c.val) c.val) else .next s

/-! ### Landing (R140 to R148) -/

/-- A frame starts: the watchdog's period starts, and unless its format bars it, a buffer is taken (R141, R144, R149). -/
def landStart (s : State) (c : Nat) (quad flow : Option Nat) (ok : Bool) (f : Frame) : State :=
  let s := updCtx s c fun x => { landSide x (sluCyc s) with wdogFrom := s.time.cyc }
  let r := if ok then takeBuffer s f.format f.width f.height else (s, none)
  let s := if !ok then raise r.1 K.SLU_CTX_EVENT_FMT c else if r.2.isNone then raise r.1 K.SLU_CTX_EVENT_NO_BUF c else r.1
  let s := match r.2 with | some d => updDesc s d fun x => { x with frame := f } | none => s
  showCtx (updCtx s c fun x => { x with landing := some { quad := quad, flow := flow, desc := r.2, frame := f } }) c

/-- The runs cover the first `n` bytes of a line. -/
def covered (runs : List (Nat × Nat)) (n : Nat) : Bool :=
  (upto n).all fun x => runs.any fun r => decide (r.1 ≤ x) && decide (x < r.1 + r.2)

/-- Every byte of tile row `r` has landed (R143). -/
def rowLanded (l : Landing) (r : Nat) : Bool :=
  let y := tileY l.frame.height r
  (upto (y.2 - y.1)).all fun i => covered (l.got.get (y.1 + i) []) (spanOf l.frame.format 0 0 l.frame.width).2

/-- The lines of a landing, as its producer holds them. -/
def landLines (l : Landing) : List (Nat × Nat × List Byte) := l.data.map fun e => (0, e.1, e.2)

/-- Bytes of a line land at byte `x`: they are written, and a tile row that is complete is sealed provisionally (R143, R145). -/
def landBytes (s : State) (c y x : Nat) (b : List Byte) : State :=
  match (ctxOf s c).landing with
  | none => s
  | some l =>
    match l.desc with
    | none => s
    | some d =>
      let p := placeIn s d l.frame
      let full := (spanOf l.frame.format 0 0 l.frame.width).2
      let old := l.data.get y (List.replicate full 0)
      let l := { l with data := l.data.put y (patchBytes old x b), got := l.got.put y ((x, b.length) :: l.got.get y []) }
      let s := (busWrite s 54 (lineAddr p 0 y x) b).1
      let r := y / 16
      if !l.rows.contains r && rowLanded l r then
        let s := sealRow s 54 p domSource l.frame.source 0 r (landLines l)
        updCtx s c fun z => { z with landing := some { l with rows := l.rows ++ [r] } }
      else updCtx s c fun z => { z with landing := some l }

/-- The landing of a context is given up: its buffer returns to the pool, and no job on it goes on (R147, R150, R167). -/
def landAbandon (s : State) (c : Nat) : State :=
  match (ctxOf s c).landing with
  | none => s
  | some l =>
    let s := updCtx s c fun x => { x with landing := none }
    match l.desc with
    | some d => abandonBuffer (parentLost s c d) d
    | none => s

/-- The landing of a context ends whole: its record is written and its publication requested (R51, R145). `f` is the frame with its
stamp and flags as they stand at its end. -/
def landEnd (s : State) (c : Nat) (f : Frame) : State :=
  match (ctxOf s c).landing with
  | none => s
  | some l =>
    let s := updCtx s c fun x => { x with landing := none }
    match l.desc with
    | none => s
    | some d =>
      let s := if l.released then s else updCtx s c fun x => { x with due := some (d, 0, true) }
      let p := placeIn s d f
      let k := (upto (tileRows f.height)).foldl (fun k r => contentRow k p r (landLines l)) 0xFFFFFFFF
      let f := { f with content := contentOf k }
      let s := writeProvisional s 54 p f
      noteAsked (requestPublish (updDesc s d fun x => { x with frame := f }) d) d c 4

/-- The context a receiver quad feeds (R138). -/
def quadContext (s : State) (q : Nat) : Option Nat :=
  lowest 64 fun c => feeds (nextLand (ctxOf s c) (sluCyc s)) 0 && (nextLand (ctxOf s c) (sluCyc s)).any fun t => t.quad == q

/-- The context that lands a frame of quad `q`. -/
def landingOf (s : State) (q : Nat) : Option Nat := lowest 64 fun c => (ctxOf s c).landing.any fun l => l.quad == some q

/-- DP_FRAME_START: the format codes are those of R223 for the stream formats of R140; any other is not landed (R140, R141, R144). -/
def execDpFrameStart (quad : Fin 16) (width : BitVec 14) (format : BitVec 4) (s : State) : Host.Outcome State Fault Refusal :=
  let q := quad.val
  if quadUse s q ≠ 2 ∨ !rdb s F.LANE_DPRX_STATUS_TRAINED q ∨ (landingOf s q).isSome then .next s
  else match quadContext s q with
    | none => .next s
    | some c =>
      match nextLand (ctxOf s c) (sluCyc s) with
      | none => .next s
      | some t =>
        if (ctxOf s c).landing.isSome then .next s
        else
          let ok := decide (2 ≤ format.toNat) && decide (format.toNat ≤ 5) && width.toNat == t.inW
          let f : Frame := { format := format.toNat, width := t.inW, height := t.inH, origin := 0, source := t.landSrc,
                             capture := shortStamp (sluNs s), allow := t.allow }
          .next (landStart (draw s) c (some q) none ok f)

/-- DP_LINE_RX: a line of the frame, its pixels as three 16-bit components, Y Cb Cr or R G B, lowest first (R145, R147). -/
def execDpLineRx (quad : Fin 16) (pixels : List (BitVec 48)) (s : State) : Host.Outcome State Fault Refusal :=
  if accessWaits s 54 then .next s
  else match landingOf s quad.val with
  | none => .next s
  | some c =>
    match (ctxOf s c).landing with
    | none => .next s
    | some l =>
      let w := l.frame.width
      let b := bytesAt (packLine l.frame.format 0 w fun i x => slice ((pixels[x]?).getD 0).toNat (16 * i) 16) 0
        (spanOf l.frame.format 0 0 w).2
      let s := if l.lines < l.frame.height then landBytes s c l.lines 0 b else s
      .next (updCtx s c fun z => { z with landing := z.landing.map fun k => { k with lines := l.lines + 1 } })

/-- DP_FRAME_END: the frame is requested for publication, or closed as SHORT or LONG (R145, R147). -/
def execDpFrameEnd (quad : Fin 16) (s : State) : Host.Outcome State Fault Refusal :=
  if accessWaits s 54 then .next s
  else match landingOf s quad.val with
  | none => .next s
  | some c =>
    match (ctxOf s c).landing with
    | none => .next s
    | some l =>
      if l.desc.isNone then .next (landAbandon s c)
      else if l.lines < l.frame.height then .next (landAbandon (raise s K.SLU_CTX_EVENT_SHORT c) c)
      else if l.frame.height < l.lines then .next (landAbandon (raise s K.SLU_CTX_EVENT_LONG c) c)
      else .next (landEnd s c l.frame)

/-- A receiver lost its link: a frame in progress is closed as SHORT (R518). -/
def dpLoss (s : State) (q : Nat) : State :=
  match landingOf s q with
  | none => s
  | some c => landAbandon (raise s K.SLU_CTX_EVENT_SHORT c) c

/-! ### The watchdog (R149 to R151) -/

/-- The watchdog of a context fires (R150). -/
def wdogFire (s : State) (c cause : Nat) : State :=
  let s := raise (wr s F.SLU_CTX_STATE_WDOG_CAUSE c 0 cause) K.SLU_CTX_EVENT_WDOG c
  signal (updCtx s c fun x => { x with wdogFrom := s.time.cyc }) c

/-- The watchdog period of a context in ms: that of the set in effect, or of the one that waits for its first frame; 0 where none runs
(R149, R151). -/
def wdogMs (x : Context) : Nat :=
  match if x.land.any (·.en) then x.land else x.pend with
  | some t => if t.en then t.wdog else 0
  | none => 0

/-- The watchdog period of a context has passed (R149). -/
def wdogDue (s : State) (c : Nat) : Bool :=
  let x := ctxOf s c
  decide (0 < wdogMs x) && decide (x.wdogFrom + msCyc (wdogMs x) ≤ s.time.cyc)

/-- WDOG_NO_START: WDOG_MS has passed without a frame start (R149). -/
def execWdogNoStart (c : Fin 64) (s : State) : Host.Outcome State Fault Refusal :=
  if wdogDue s c.val && (ctxOf s c.val).landing.isNone then .next (wdogFire s c.val 1) else .next s

/-- WDOG_INCOMPLETE: a started frame has not ended within WDOG_MS; it is abandoned (R149, R150). -/
def execWdogIncomplete (c : Fin 64) (s : State) : Host.Outcome State Fault Refusal :=
  if wdogDue s c.val && (ctxOf s c.val).landing.isSome then .next (wdogFire (landAbandon s c.val) c.val 2) else .next s

/-! ### Sets and APPLY (R157, R169 to R171) -/

/-- The staged set of a context (R169). -/
def stagedSet (s : State) (c : Nat) : CtxSet :=
  let outs := (upto 4).map fun k =>
    ({ on := bitOn (rd s F.SLU_CTX_CTRL_OUT_EN c) k, src := rd s F.SLU_CTX_OUT_CTRL_SRC c k, format := rd s F.SLU_CTX_OUT_CTRL_FORMAT c k
       rgb := rdb s F.SLU_CTX_OUT_CTRL_RGB c k, cropX := rd s F.SLU_CTX_OUT_CROP_POS_X c k, cropY := rd s F.SLU_CTX_OUT_CROP_POS_Y c k
       cropW := rd s F.SLU_CTX_OUT_CROP_SIZE_X c k, cropH := rd s F.SLU_CTX_OUT_CROP_SIZE_Y c k
       width := rd s F.SLU_CTX_OUT_SIZE_X c k, height := rd s F.SLU_CTX_OUT_SIZE_Y c k } : CtxOut)
  { en := rdb s F.SLU_CTX_CTRL_EN c, input := rd s F.SLU_CTX_CTRL_INPUT c, quad := rd s F.SLU_CTX_CTRL_DP_QUAD c
    landSrc := rd s F.SLU_CTX_SRC_LAND_SRC c, parentSrc := rd s F.SLU_CTX_SRC_PARENT_SRC c
    inW := rd s F.SLU_CTX_GEOM_IN_WIDTH c, inH := rd s F.SLU_CTX_GEOM_IN_HEIGHT c
    cropX := rd s F.SLU_CTX_CROP_POS_X c, cropY := rd s F.SLU_CTX_CROP_POS_Y c
    cropW := rd s F.SLU_CTX_CROP_SIZE_X c, cropH := rd s F.SLU_CTX_CROP_SIZE_Y c, colour := rdReg s R.SLU_CTX_COLOUR c
    deadline := rd s F.SLU_CTX_TIMING_DEADLINE_US c, wdog := rd s F.SLU_CTX_TIMING_WDOG_MS c, allow := rd s F.SLU_CTX_ALLOW_ALLOW_MS c
    outs := outs }

/-- The input frame's size as it is known at APPLY: the staged geometry of a receiver, the frame of the installed entries that name a flow
context, or the CURRENT frame of a memory input's parent; the largest frame where none is known (R137, R142, R171). -/
def inputSize (s : State) (c : Nat) (t : CtxSet) : Nat × Nat :=
  if t.input = 0 then (t.inW, t.inH)
  else if t.input = 1 then
    (s.net.entries.filter fun e => flowValid e.2 && flowKind e.2 == 0 && flowTarget e.2 == c).foldl
      (fun a e => (min a.1 (flowWidth e.2), min a.2 (flowHeight e.2))) (8192, 4352)
  else match (srcOf s t.parentSrc).cur with
    | some d => ((descOf s d).frame.width, (descOf s d).frame.height)
    | none => (8192, 4352)

/-- The range checks of a set over an input frame of `w` by `h`, as (register offset ÷ 4, lowest bit, passes) (R146, R151, R155, R171). A ratio or an
evenness that fails is named at SLU_CTX_OUT_SIZE, and of several fields the first in register order is, outputs ascending (DESIGN CHOICE, log entry
78: R171 does not say). -/
def setRanges (t : CtxSet) (w h : Nat) : List (Nat × Nat × Bool) :=
  let dp := t.input == 0
  let within := fun lo hi v => decide (lo ≤ v) && decide (v ≤ hi)
  let ratio := fun out crop => decide (crop ≤ 16 * out) && decide (out ≤ 2 * crop)
  [(3, 0, !dp || within 16 8192 t.inW), (3, 16, !dp || within 16 4352 t.inH),
   (4, 0, decide (w < t.cropW) || decide (t.cropX + t.cropW ≤ w)), (4, 16, decide (h < t.cropH) || decide (t.cropY + t.cropH ≤ h)),
   (5, 0, within 1 w t.cropW), (5, 16, within 1 h t.cropH),
   (7, 0, decide (1 ≤ t.deadline)), (7, 16, within (if t.input = 2 then 0 else 1) 2000 t.wdog), (8, 0, t.input == 1 || decide (t.allow ≤ 2000))] ++
  ((enabledOuts t).map fun e =>
    let o := e.2
    let even := fun b v => !b || v % 2 == 0
    let sub := o.format == 1 || o.format == 2 || o.format == 3
    [(1, 0, decide (t.cropW < o.cropW) || decide (o.cropX + o.cropW ≤ t.cropW)),
     (1, 16, decide (t.cropH < o.cropH) || decide (o.cropY + o.cropH ≤ t.cropH)),
     (2, 0, within 1 t.cropW o.cropW), (2, 16, within 1 t.cropH o.cropH),
     (3, 0, within 16 4096 o.width && ratio o.width o.cropW && even sub o.width),
     (3, 16, within 16 2176 o.height && ratio o.height o.cropH && even sub o.height)]).flatten

/-- The carry store a set reserves (R157). -/
def carryOf (t : CtxSet) : Nat := if t.en then ((enabledOuts t).map fun e => roundUp (24 * e.2.width) 256).foldl (· + ·) 0 else 0

/-- The carry store that the sets of a context reserve, counting `pend` as its pending set. -/
def carryHeld (x : Context) (pend : Option CtxSet) : Nat :=
  let job := x.job.map (·.set)
  ((pend.toList ++ x.pipe.toList ++ if job = x.pipe then [] else job.toList).map carryOf).foldl (· + ·) 0

/-- SLU_CARRY_FREE (R157, R172). -/
def carryFree (s : State) : Nat :=
  6291456 - (s.slu.ctxs.map fun e => carryHeld e.2 (if e.2.pendPipe then e.2.pend else none)).foldl (· + ·) 0

/-- The source IDs a set produces, with their owners (R171). -/
def setSources (c : Nat) (t : CtxSet) : List (Nat × Owner) :=
  if !t.en then []
  else (if t.input = 0 then [(t.landSrc, Owner.landing c)] else []) ++ (enabledOuts t).map fun e => (e.2.src, Owner.output c e.1)

/-- A source is bound to a landing or an output of context `c`. -/
def ownedBy (s : State) (c id : Nat) : Bool :=
  (srcOf s id).st == .bound && match (srcOf s id).owner with | .landing d => d == c | .output d _ => d == c | _ => false

/-- The sets of a context that are accepted. -/
def setsOf (x : Context) : List CtxSet := x.pend.toList ++ x.land.toList ++ x.pipe.toList

/-- Source `p` is an output of context `c` under the outputs `own`, directly or through a chain of other contexts (R139). -/
def parentLoops (s : State) (c : Nat) (own : List Nat) : Nat → Nat → Bool
  | 0, _ => false
  | fuel + 1, p =>
    own.contains p || s.slu.ctxs.any fun e => e.1 != c && (setsOf e.2).any fun t =>
      t.en && t.input == 2 && ((enabledOuts t).any fun o => o.2.src == p) && parentLoops s c own fuel t.parentSrc

/-- Why a staged set is refused: code, register and bit (R171). A set that leaves EN at 0 binds nothing, so that only its own fields can break a
rule (log entry 78). -/
def setRefusal (s : State) (c : Nat) (t : CtxSet) : Option (Nat × Nat × Nat) :=
  match (setRanges t (inputSize s c t).1 (inputSize s c t).2).find? fun r => !r.2.2 with
    | some r => some (1, r.1, r.2.1)
    | none =>
      let ids := (setSources c t).map (·.1)
      let mine := carryHeld (ctxOf s c) (if (ctxOf s c).pendPipe then (ctxOf s c).pend else none) - carryHeld (ctxOf s c) none
      if t.input = 3 ∨ slice t.colour 0 2 = 3 ∨ slice t.colour 3 2 = 3 ∨ ((enabledOuts t).any fun e => !(decide (1 ≤ e.2.format) && decide (e.2.format ≤ 4))) then
        some (2, 0, 0)
      else if !t.en then none
      else if t.input = 0 ∧ (quadUse s t.quad ≠ 2 ∨ (s.slu.ctxs.any fun e => e.1 != c && (setsOf e.2).any fun u =>
          u.en && u.input == 0 && u.quad == t.quad)) then some (3, 0, 0)
      else if (ids.any fun i => dupSource s i && !ownedBy s c i) || decide (ids.eraseDups.length < ids.length) then some (4, 0, 0)
      else if overLimit s ids then some (5, 0, 0)
      else if carryOf t > carryFree s + mine then some (6, 0, 0)
      else if t.input = 2 ∧ parentLoops s c ((enabledOuts t).map fun e => e.2.src) 65 t.parentSrc then some (7, 0, 0)
      else none

/-- A refused APPLY (R171). -/
def applyRefuse (s : State) (c : Nat) (r : Nat × Nat × Nat) : State :=
  let s := wr0 (wr0 s F.SLU_APPLY_STATUS_CODE r.1) F.SLU_APPLY_STATUS_CONTEXT c
  let s := if r.1 = 1 then wr0 (wr0 s F.SLU_APPLY_STATUS_REG r.2.1) F.SLU_APPLY_STATUS_BIT r.2.2 else s
  raise s K.SLU_APPLY_STATUS_REFUSED

/-- A write of APPLY: the staged set is validated, or refused while an APPLY is BUSY (R169, R171). -/
def sluApply (s : State) (c : Nat) : State :=
  if rdb s F.SLU_APPLY_STATUS_BUSY then applyRefuse s c (8, 0, 0)
  else
    let s := wr0 (wr0 s F.SLU_APPLY_STATUS_BUSY 1) F.SLU_APPLY_STATUS_CONTEXT c
    { s with slu := { s.slu with apply := some (c, stagedSet s c) } }

/-- SLU_APPLY (R169). -/
def execSluApply (c : Fin 64) (s : State) : Host.Outcome State Fault Refusal := .next (sluApply s c.val)

/-- The sources of a context follow its accepted set: those it no longer produces become ORPHAN, and its own are bound (R171, R242). -/
def bindSet (s : State) (c : Nat) (t : CtxSet) : State :=
  let l := setSources c t
  let gone := (s.eas.sources.filter fun e => ownedBy s c e.1 && !(l.any fun x => x.1 == e.1)).map (·.1)
  each l (fun s x => bindSource s x.1 x.2) (each gone orphanSource s)

/-- An accepted set with EN at 0: the context stops at once, with no count (R170). -/
def ctxStop (s : State) (c : Nat) : State :=
  let s := updCtx s c fun x => { x with next := none, pend := none, pendLand := false, pendPipe := false, pipe := none, land := none }
  let s := dropJob (landAbandon s c) c
  showCtx (updCtx s c fun x => { x with due := none }) c

/-- An accepted set becomes the pending set, for landing and for the pipeline; the watchdog's period of a context that was not enabled
starts (R149, R170). -/
def ctxAccept (s : State) (c : Nat) (t : CtxSet) : State :=
  let on := fun (x : Context) => x.land.any (·.en) || x.pipe.any (·.en) || x.pend.any (·.en)
  showCtx (updCtx s c fun x =>
    { x with pend := some t, pendLand := true, pendPipe := true, pendAt := sluCyc s, wdogFrom := if on x then x.wdogFrom else s.time.cyc }) c

/-- SLU_APPLY_DONE: the staged set becomes the pending set, or is refused (R169 to R171). -/
def execSluApplyDone (s : State) : Host.Outcome State Fault Refusal :=
  match s.slu.apply with
  | none => .next s
  | some (c, t) =>
    let s := wr0 { s with slu := { s.slu with apply := none } } F.SLU_APPLY_STATUS_BUSY 0
    match setRefusal s c t with
    | some r => .next (applyRefuse s c r)
    | none =>
      let s := raise (bindSet s c t) K.SLU_APPLY_STATUS_DONE
      .next (if t.en then ctxAccept s c t else ctxStop s c)

end Sys2Proof.Machine
end

