-- ==== Sys2Proof/Machine/VideoDec.lean ====
section
/-!
DEFINITION. The decoder: streams and admission (R179 to R184), the queues of the entropy and pixel engines (R185 to R187), the order of
publication (R188, R189), the reference pool (R190, R191) and concealment (R192 to R194). What a bitstream's syntax says comes with the commands that report it.
-/

namespace Sys2Proof.Machine

def strOf (s : State) (n : Nat) : Stream := s.vdc.streams.get n {}
def setStr (s : State) (n : Nat) (x : Stream) : State := { s with vdc := { s.vdc with streams := s.vdc.streams.put n x } }
def updStr (s : State) (n : Nat) (f : Stream → Stream) : State := setStr s n (f (strOf s n))

/-- What a stream shows in VDC_STR_STATE (R196). -/
def showStr (s : State) (n : Nat) : State :=
  let x := strOf s n
  let s := wr (wr s F.VDC_STR_STATE_ADMITTED n 0 (bit x.admitted)) F.VDC_STR_STATE_ENGINE n 0 x.engine
  let s := wr (wr s F.VDC_STR_STATE_WAIT_RAP n 0 (bit (x.waitRap || x.ringWait))) F.VDC_STR_STATE_TAINT n 0 (bit x.taint)
  wr s F.VDC_STR_STATE_DPB_USED n 0 (min 16 x.dpb.length)

/-! ### Commands (R179 to R184, R195, R196) -/

/-- Admitted streams. -/
def admittedStr (s : State) : List (Nat × Stream) := s.vdc.streams.filter fun e => e.2.admitted

/-- The pixel rate claimed, and the free budget of entropy engine `k` in kbit/s (R180, R181). -/
def vdcPixels (s : State) : Nat := ((admittedStr s).map fun e => e.2.maxW * e.2.maxH * e.2.fps).foldl (· + ·) 0
def kbpsFree (s : State) (k : Nat) : Nat :=
  960000 - (((admittedStr s).filter fun e => e.2.engine == k).map fun e => e.2.kbps).foldl (· + ·) 0

/-- VDC_CAP (R195). -/
def vdcPixFree (s : State) : Nat := (8000000000 - vdcPixels s) / 1000000

/-- The engine with the most free budget, ties to the lower number (R181). -/
def bestEngine (s : State) : Nat := [1, 2, 3].foldl (fun a k => if kbpsFree s a < kbpsFree s k then k else a) 0

/-- A stream as its registers stage it (R196). -/
def stagedStream (s : State) (n : Nat) : Stream :=
  { admitted := true, engine := bestEngine s, codec := rd s F.VDC_STR_CFG_CODEC n, tenBit := rdb s F.VDC_STR_CFG_TEN_BIT n
    dpbMax := rd s F.VDC_STR_CFG_DPB_MAX n, src := rd s F.VDC_STR_CFG_SRC n, maxW := rd s F.VDC_STR_GEOM_MAX_WIDTH n
    maxH := rd s F.VDC_STR_GEOM_MAX_HEIGHT n, fps := rd s F.VDC_STR_RATE_MAX_FPS n, kbps := rd s F.VDC_STR_RATE_MAX_KBPS n
    symSize := rd s F.VDC_STR_SIZE_SYM_SIZE n, auMib := rd s F.VDC_STR_SIZE_AU_MIB n, waitRap := true, fresh := true }

/-- The range checks of ADMIT, as (register offset ÷ 4, lowest bit, passes), in ascending order (R182, R196). -/
def strRanges (s : State) (n : Nat) (x : Stream) : List (Nat × Nat × Bool) :=
  let within := fun lo hi v => decide (lo ≤ v) && decide (v ≤ hi)
  [(0, 2, within 1 16 x.dpbMax), (1, 0, within 16 4096 x.maxW), (1, 16, within 16 2304 x.maxH), (2, 0, within 1 240 x.fps),
   (2, 8, within 1 240000 x.kbps), (4, 0, rd s F.VDC_STR_SYM_ADDR_ADDR n % 2 ^ 16 == 0),
   (6, 0, within 1 1024 x.symSize && decide (3 * x.maxW * x.maxH ≤ 2 * x.symSize * 65536)), (6, 16, within 5 64 x.auMib),
   (8, 0, rd s F.VDC_STR_CTX_ADDR_ADDR n % 2 ^ 12 == 0)]

/-- The parameter sets that INJECT reads; none when the data is bad (R182, R184). -/
def readPsets (s : State) (n : Nat) : State × Option (List (List Byte)) :=
  let x := strOf s n
  let r := busRead s (64 + x.engine) (rd s F.VDC_STR_PSET_ADDR_ADDR n) (rd s F.VDC_STR_PSET_LEN_LEN n)
  let l := (annexB none r.2.2).filter (nalKept x.codec)
  (r.1, if r.2.1 = 0 ∧ !l.isEmpty ∧ (l.all fun u => psetGood x.codec u) then some l else none)

/-- Why a command on stream `n` is refused: code, register and bit (R180, R182). -/
def vdcRefusal (s : State) (op n : Nat) : Option (Nat × Nat × Nat) :=
  if op = 1 then
    let x := stagedStream s n
    match (strRanges s n x).find? fun c => !c.2.2 with
    | some c => some (1, c.1, c.2.1)
    | none =>
      if x.tenBit && x.codec == 0 then some (2, 0, 0)
      else if vdcPixels s + x.maxW * x.maxH * x.fps > 8000000000 then some (3, 0, 0)
      else if kbpsFree s x.engine < x.kbps then some (4, 0, 0)
      else if dupSource s x.src then some (5, 0, 0)
      else if overLimit s [x.src] then some (6, 0, 0)
      else if (strOf s n).admitted then some (7, 0, 0)
      else none
  else if op = 3 ∧ (rd s F.VDC_STR_PSET_LEN_LEN n = 0 ∨ 65536 < rd s F.VDC_STR_PSET_LEN_LEN n) then some (1, 12, 0)
  else if !(strOf s n).admitted then some (8, 0, 0)
  else none

/-- A refused decode command (R182). -/
def vdcRefuse (s : State) (n : Nat) (c : Nat × Nat × Nat) : State :=
  let s := wr0 (wr0 s F.VDC_STATUS_CODE c.1) F.VDC_STATUS_STREAM n
  let s := if c.1 = 1 then wr0 (wr0 s F.VDC_STATUS_REG c.2.1) F.VDC_STATUS_BIT c.2.2 else s
  raise s K.VDC_STATUS_REFUSED

/-- A write of VDC_CMD: it holds BUSY, or is refused while another command does (R182). -/
def vdcCmdWrite (s : State) (op n : Nat) : State :=
  if op = 0 then s
  else if rdb s F.VDC_STATUS_BUSY then vdcRefuse s n (9, 0, 0)
  else { wr0 (wr0 s F.VDC_STATUS_BUSY 1) F.VDC_STATUS_STREAM n with vdc := { s.vdc with op := some (op, n) } }

/-- VDC_ADMIT (R180). -/
def execVdcAdmit (stream : BitVec 8) (s : State) : Host.Outcome State Fault Refusal := .next (vdcCmdWrite s 1 stream.toNat)
/-- VDC_REMOVE (R183). -/
def execVdcRemove (stream : BitVec 8) (s : State) : Host.Outcome State Fault Refusal := .next (vdcCmdWrite s 2 stream.toNat)
/-- VDC_INJECT (R184). -/
def execVdcInject (stream : BitVec 8) (s : State) : Host.Outcome State Fault Refusal := .next (vdcCmdWrite s 3 stream.toNat)

/-! ### Reference marks (R183, R191) -/

/-- A reference mark of a buffer is dropped. -/
def unmark (s : State) (d : Nat) : State := updDesc s d fun x => settle { x with refS := false, refL := false }

/-- A reference mark of a buffer is dropped by stream `n`: an unpublished picture that does not await publication gives its buffer back
(R191). -/
def unref (s : State) (n d : Nat) : State :=
  let s := unmark s d
  if (strOf s n).done.any (·.desc == d) || s.eas.requests.contains d || s.eas.sealing.contains d then s else abandonBuffer s d

/-- The marks that stream `n` holds become those of `l`, of which at most DPB_MAX pictures stay, the later in decode order (R191; log entry
124). A RETIRING buffer is granted no mark that it does not hold (R233; log entry 135). -/
def setDpb (s : State) (n : Nat) (l : List DpbPic) : State :=
  let x := strOf s n
  let barred := fun (b : DpbPic) => b.desc.any fun d =>
    (descOf s d).st == .retiring && !(if b.long.isSome then (descOf s d).refL else (descOf s d).refS)
  let kept := (l.drop (l.length - max 1 x.dpbMax)).filter fun b => !barred b
  let s := setStr s n { x with dpb := kept }
  let gone := (x.dpb.filterMap (·.desc)).filter fun d => !(kept.any fun b => b.desc == some d)
  let s := each gone (fun s d => unref s n d) s
  each kept (fun s b => match b.desc with
    | some d => updDesc s d fun y => { y with refS := b.long.isNone, refL := b.long.isSome }
    | none => s) s

/-- A stream is removed: its work is abandoned, its marks are dropped, its source becomes ORPHAN (R183, R242). -/
def removeStream (s : State) (n : Nat) : State :=
  let x := strOf s n
  let s := setDpb (updStr s n fun y => { y with done := [] }) n []
  let s := each x.done (fun s p => abandonBuffer s p.desc) s
  let s := match x.recon with | some (p, _) => abandonBuffer s p.desc | none => s
  showStr (orphanSource (setStr s n {}) x.src) n

/-- VDC_CMD_DONE: BUSY ends and the command takes effect, or is refused (R182). -/
def execVdcCmdDone (s : State) : Host.Outcome State Fault Refusal :=
  match s.vdc.op with
  | none => .next s
  | some (op, n) =>
    if op = 3 && accessWaits s (64 + (strOf s n).engine) then .next s else
    let s := wr0 { s with vdc := { s.vdc with op := none } } F.VDC_STATUS_BUSY 0
    match vdcRefusal s op n with
    | some c => .next (vdcRefuse s n c)
    | none =>
      if op = 1 then
        let x := stagedStream s n
        let s := bindSource (wr (wr (setStr s n x) F.VDC_STR_STATE_LAST_OVR n 0 0) F.VDC_STR_STATE_UNSUP_CODE n 0 0) x.src (.decode n)
        .next (raise (showStr s n) K.VDC_STATUS_DONE)
      else if op = 2 then .next (raise (removeStream s n) K.VDC_STATUS_DONE)
      else
        let r := readPsets s n
        match r.2 with
        | none => .next (vdcRefuse r.1 n (10, 0, 0))
        | some l => .next (raise (updStr r.1 n fun x => { x with psets := l.foldl (holdPset x.codec) x.psets }) K.VDC_STATUS_DONE)

/-! ### Access units (R176, R177, R179, R185, R186) -/

/-- Bytes of a list of access units. -/
def auBytes (l : List AccessUnit) : Nat := (l.map fun a => (a.nals.map (·.length)).foldl (· + ·) 0).foldl (· + ·) 0

/-- OVERRUN with its cause (R185, R186). -/
def overrun (s : State) (n cause : Nat) : State := raise (wr s F.VDC_STR_STATE_LAST_OVR n 0 cause) K.VDC_STR_EVENT_OVERRUN n

/-- An access unit of stream `n` is discarded: a DISCARD before the first RAP (R194; log entry 125). -/
def discardAu (s : State) (n : Nat) : State := also (strOf s n).fresh (fun s => raise s K.VDC_STR_EVENT_DISCARD n) s

/-- An access unit reaches stream `n` from a flow entry of a codec and IDENT: it is queued, or discarded with BIND or OVERRUN (R179, R185). -/
def offerAu (s : State) (n codec ident : Nat) (a : AccessUnit) : State :=
  let x := strOf s n
  if !x.admitted then s
  else if codec ≠ x.codec ∨ ident ≠ x.src then raise s K.VDC_STR_EVENT_BIND n
  else if x.ringWait && !isRap x.codec a then discardAu s n
  else if auBytes (a :: x.queue ++ x.parsing.toList) > x.auMib * 2 ^ 20 then
    discardAu (showStr (updStr (overrun s n 1) n fun x => { x with ringWait := x.ringWait || isReference x.codec a, ringLost := true }) n) n
  else showStr (setStr s n { x with queue := x.queue ++ [{ a with afterDrop := x.ringLost }], ringWait := false, ringLost := false }) n

/-- A stream whose access unit an entropy engine may take (R186). -/
def entropyReady (s : State) (e n : Nat) : Bool :=
  let x := strOf s n
  x.admitted && x.engine == e && !x.queue.isEmpty && x.parsing.isNone && decide (x.waiting.length + bit x.recon.isSome < 2)

/-- The stream of earliest stamp among those `p` allows, ties to the lower number; `stamp` gives each its stamp. -/
def earliest (p : Nat → Bool) (stamp : Nat → Nat) : Option Nat :=
  (upto 256).foldl (fun (a : Option Nat) n =>
    if !p n then a else match a with | none => some n | some b => if stamp n < stamp b then some n else a) none

/-- ENTROPY_AU_START: the engine takes the queued access unit of earliest arrival (R186). -/
def execEntropyAuStart (engine : Fin 4) (s : State) : Host.Outcome State Fault Refusal :=
  if (admittedStr s).any fun e => e.2.engine == engine.val && e.2.parsing.isSome then .next s
  else match earliest (entropyReady s engine.val) fun n => ((strOf s n).queue.head?.map (·.arrival)).getD 0 with
    | none => .next s
    | some n => .next (updStr s n fun x => { x with parsing := x.queue.head?, queue := x.queue.tail })

/-- A picture of the stream is lost: one used for reference makes the stream wait for a RAP (R185). -/
def pictureLost (s : State) (n : Nat) (a : AccessUnit) : State :=
  updStr s n fun x => { x with lost := true, waitRap := x.waitRap || isReference x.codec a }

/-! ### Publication in output order (R188, R189, R193) -/

/-- A picture of the stream is published: CONCEALED while the stream is tainted, or on a concealed picture (R188, R189, R193). -/
def publishPicture (s : State) (n : Nat) (p : Picture) : State :=
  let x := strOf s n
  let f := { p.frame with concealed := x.taint || p.concealed }
  let s := writeProvisional s (68 + p.pixel) (placeIn s p.desc f) f
  let s := requestPublish (updDesc s p.desc fun d => { d with frame := f }) p.desc
  { s with vdc := { s.vdc with asked := s.vdc.asked.put p.desc n } }

/-- Pictures awaiting output are published, lowest order first, while more than `limit` wait (R188). -/
def flushOut (limit n : Nat) : Nat → State → State
  | 0, s => s
  | fuel + 1, s =>
    match (strOf s n).done with
    | [] => s
    | p :: rest =>
      if (strOf s n).done.length ≤ limit then s
      else flushOut limit n fuel (publishPicture (updStr s n fun x => { x with done := rest }) n p)

/-- All of them beyond `limit`. -/
def putOut (limit : Nat) (s : State) (n : Nat) : State := flushOut limit n (strOf s n).done.length s

/-- An end of sequence reaches stream `n`: once the pictures before it are reconstructed, those unpublished are published (R188). -/
def endSequence (s : State) (n : Nat) : State :=
  let x := strOf s n
  match x.waiting.reverse, x.recon with
  | p :: t, _ => setStr s n { x with waiting := ({ p with last := true } :: t).reverse }
  | [], some (p, e) => setStr s n { x with recon := some ({ p with last := true }, e) }
  | [], none => putOut 0 s n

/-- The last symbol of access unit `a` of stream `n` is written, with what the engine learned of it (R176, R177, R186, R194). -/
def auParsed (s : State) (n : Nat) (a : AccessUnit) (i : PicInfo) : State :=
  let x := strOf s n
  let rap := isRap x.codec a
  let cause := match i.sps with | some p => spsCause x p | none => 0
  let x := { x with parsing := none, psets := a.nals.foldl (holdPset x.codec) x.psets }
  if cause ≠ 0 then
    discardAu (raise (wr (setStr s n { x with unsup := true, waitRap := true }) F.VDC_STR_STATE_UNSUP_CODE n 0 cause) K.VDC_STR_EVENT_UNSUP n) n
  else
    let sps := if i.sps.isSome then i.sps else x.sps
    let goes := (!x.waitRap || rap) && (!x.unsup || (rap && i.sps.isSome)) && sps.isSome
    let lost := x.lost || a.afterDrop
    let begins := rap && isCra x.codec a && (x.waitRap || lost)
    if !goes then discardAu (setStr s n { x with sps := if x.unsup then x.sps else sps, lost := lost }) n
    else if x.dropRasl && isRasl x.codec a then raise (setStr s n { x with lost := lost }) K.VDC_STR_EVENT_DISCARD n
    else
      let x := { x with sps := sps, unsup := false, waitRap := false, fresh := false, lost := lost && !rap
                        dropRasl := if rap then begins else x.dropRasl }
      if 2 * i.symbols > x.symSize * 65536 then pictureLost (overrun (setStr s n x) n 2) n a
      else if (slices x.codec a).isEmpty then setStr s n x
      else
        let s := also i.syntaxError (fun s => raise s K.VDC_STR_EVENT_SYNTAX n) s
        setStr s n { x with waiting := x.waiting ++ [{ au := a, info := i, sps := sps.getD {}, concealed := a.lossMark || i.syntaxError
                                                       start := begins || (rap && !isCra x.codec a) }] }

/-- ENTROPY_AU_DONE (R186). -/
def execEntropyAuDone (engine : Fin 4) (info : PicInfo) (s : State) : Host.Outcome State Fault Refusal :=
  match (admittedStr s).find? fun e => e.2.engine == engine.val && e.2.parsing.isSome with
  | none => .next s
  | some (n, x) =>
    match x.parsing with
    | none => .next s
    | some a =>
      let s := auParsed s n a info
      .next (showStr (if endsSequence x.codec a then endSequence s n else s) n)

/-! ### Reconstruction (R187, R190 to R194) -/

/-- The stored format of a picture (R178). -/
def picFormat (p : Picture) : Nat := if deepSps p.sps then 6 else 1

/-- A stream with a picture that a pixel engine may start (R187). -/
def pixelReady (s : State) (n : Nat) : Bool := (strOf s n).admitted && (strOf s n).recon.isNone && !(strOf s n).waiting.isEmpty

/-- The RASL pictures of the CRA that stands first after a discard leave the waiting pictures: what is left, and what was discarded (R177). -/
def dropLeading (codec : Nat) (l : List Picture) : List Picture × List Picture :=
  let before := l.takeWhile fun q => !isRap codec q.au
  match l.drop before.length with
  | [] => (l, [])
  | c :: t =>
    if !isCra codec c.au then (l, [])
    else
      let own := t.takeWhile fun q => !isRap codec q.au
      (before ++ { c with start := true } :: own.filter (fun q => !isRasl codec q.au) ++ t.drop own.length, own.filter fun q => isRasl codec q.au)

/-- The first waiting picture of stream `n` is lost for want of a buffer: one used for reference takes those after it up to a RAP; a CRA
after it loses its RASL pictures; an end of sequence among them still acts (R177, R185, R188, R190). -/
def dropWaiting (s : State) (n : Nat) (p : Picture) : State :=
  let x := strOf s n
  let w := x.waiting.tail
  let ref := isReference x.codec p.au
  let kept := if ref then w.dropWhile fun q => !isRap x.codec q.au else w
  let r := dropLeading x.codec kept
  let raps := kept.filter fun q => isRap x.codec q.au
  let x := { x with waiting := r.1, waitRap := x.waitRap || (ref && kept.isEmpty), lost := x.lost || raps.isEmpty
                    dropRasl := if raps.length = 1 then x.dropRasl || raps.any (fun q => isCra x.codec q.au) else x.dropRasl }
  let ends := (p :: w.take (w.length - kept.length) ++ r.2).any (·.last)
  let s := each r.2 (fun s _ => raise s K.VDC_STR_EVENT_DISCARD n) (setStr s n x)
  if ends then putOut 0 s n else s

/-- A reference is available to a picture: it has a buffer, of the picture's stored format and coded size (R192; log entry 126). -/
def available (p : Picture) (b : DpbPic) : Bool :=
  b.desc.isSome && b.format == picFormat p && b.width == p.sps.codedW && b.height == p.sps.codedH

/-- The nearest available reference: smallest distance of order count, ties to the later in decode order (R192). -/
def nearestRef (l : List DpbPic) (p : Picture) : Option DpbPic :=
  (l.filter (available p)).foldl (fun (a : Option DpbPic) b =>
    match a with
    | none => some b
    | some c => if (b.poc - p.info.poc).natAbs ≤ (c.poc - p.info.poc).natAbs then some b else a) none

/-- The marking that precedes the decoding of a picture: the gap in frame_num of an H.264 picture, the reference picture set of an HEVC
picture, which keeps none where decoding starts afresh (R191). -/
def marksBefore (x : Stream) (p : Picture) : List DpbPic :=
  if x.codec = 1 then (if p.start then [] else rpsMarks p.info.rps x.dpb)
  else if p.sps.gaps && !p.start && p.info.frameNum != x.prevFrameNum then fillGap p.sps x.prevFrameNum p.info.frameNum x.dpb
  else x.dpb

/-- The frame_num before that of a picture, once a gap is filled: that of the last frame the gap brings (R191). -/
def prevNumBefore (x : Stream) (p : Picture) : Nat :=
  let n := max 1 p.sps.maxFrameNum
  if x.codec = 0 && p.sps.gaps && !p.start && p.info.frameNum != x.prevFrameNum then (p.info.frameNum + n - 1) % n else x.prevFrameNum

/-- PIXEL_ENGINE_START: the engine takes the waiting picture of earliest arrival and a buffer for it (R187, R190). -/
def execPixelEngineStart (engine : Fin 4) (s : State) : Host.Outcome State Fault Refusal :=
  if (admittedStr s).any fun e => e.2.recon.any fun r => r.2 == engine.val then .next s
  else match earliest (pixelReady s) fun n => ((strOf s n).waiting.head?.map (·.au.arrival)).getD 0 with
    | none => .next s
    | some n =>
      match (strOf s n).waiting with
      | [] => .next s
      | p :: rest =>
        let x := strOf s n
        let s := setDpb (setStr s n { x with prevFrameNum := prevNumBefore x p }) n (marksBefore x p)
        let r := takeBuffer s (picFormat p) p.sps.codedW p.sps.codedH
        match r.2 with
        | none => .next (showStr (dropWaiting (raise r.1 K.VDC_STR_EVENT_NO_BUF n) n p) n)
        | some d =>
          let dpb := (strOf s n).dpb
          let lost := p.info.refs.filter fun q => !(dpb.any fun b => b.poc == q && b.desc.isSome)
          let s := also (!lost.isEmpty) (fun s => raise s K.VDC_STR_EVENT_REF_MISSING n) r.1
          let p := { p with desc := d, pixel := engine.val, concealed := p.concealed || !lost.isEmpty
                            standIns := lost.map fun q => (q, (nearestRef dpb p).bind (·.desc)) }
          .next (showStr (updStr s n fun x => { x with waiting := rest, recon := some (p, engine.val) }) n)

/-- Mid-grey bytes of a line (R192). -/
def greyLine (fmt n : Nat) : List Byte :=
  if fmt = 1 then List.replicate n 128 else bytesAt ((List.replicate (n / 5 + 1) (leBytes (512 + 512 * 2 ^ 10 + 512 * 2 ^ 20 + 512 * 2 ^ 30) 5)).flatten) 0 n

/-- Samples of a reference as pixel engine master `m` reads them: `n` bytes from byte `o` of line `y` of plane `k`, or mid-grey where there is no
reference (R192). -/
def readRef (s : State) (m fmt : Nat) (from? : Option Place) (k y o n : Nat) : State × List Byte :=
  match from? with
  | some p => let r := busRead s m (lineAddr p k y o) n; (r.1, r.2.2)
  | none => (s, greyLine fmt n)

/-- Line `y` of plane `k` of a picture: as reconstructed, with each undecoded block from the co-located samples of the nearest reference,
or mid-grey (R192). -/
def concealLine (s : State) (m fmt : Nat) (from? : Option Place) (missing : List (Nat × Nat × Nat × Nat)) (k y w : Nat) (line : List Byte) :
    State × List Byte :=
  let n := (spanOf fmt k 0 w).2
  let v := if k = 0 then 1 else 2
  missing.foldl (fun acc b =>
    if y * v < b.2.1 / v * v ∨ b.2.1 + b.2.2.2 ≤ y * v then acc
    else
      let x0 := if fmt = 1 then b.1 else b.1 / 4 * 5
      let r := readRef acc.1 m fmt from? k y x0 (min (if fmt = 1 then b.2.2.1 else ceilDiv b.2.2.1 4 * 5) (n - x0))
      (r.1, patchBytes acc.2 x0 r.2)) (s, bytesAt line 0 n)

/-- The lines of a picture of a size, as (plane, line). -/
def linesOf (h : Nat) : List (Nat × Nat) := (upto h).map (fun y => (0, y)) ++ (upto (h / 2)).map fun y => (1, y)

/-- Where the reference in a buffer lies, for a picture (R190, R192). -/
def refPlace (s : State) (p : Picture) (d : Option Nat) : Option Place :=
  d.map fun d => placeIn s d { format := picFormat p, width := p.sps.codedW, height := p.sps.codedH }

/-- The references that stand in for missing ones, read whole (R192). -/
def readStandIns (s : State) (m : Nat) (p : Picture) : State × List (Int × List Byte) :=
  p.standIns.foldl (fun acc q =>
    let r := (linesOf p.sps.codedH).foldl (fun (a : State × List Byte) l =>
      let r := readRef a.1 m (picFormat p) (refPlace s p q.2) l.1 l.2 0 (spanOf (picFormat p) l.1 0 p.sps.codedW).2
      (r.1, a.2 ++ r.2)) (acc.1, [])
    (r.1, acc.2 ++ [(q.1, r.2)])) (s, [])

/-- The lines of a picture as written (R178, R192): what the engine reconstructs, where a reference is missing from the one that stands in for it, and
with the blocks it could not decode concealed. -/
def picLines (s : State) (m : Nat) (p : Picture) (x : Stream) (r : Recon) : State × List (Nat × Nat × List Byte) :=
  let st := readStandIns s m p
  let src := refPlace s p ((nearestRef x.dpb p).bind (·.desc))
  (linesOf p.sps.codedH).foldl (fun (acc : State × List (Nat × Nat × List Byte)) l =>
    let line := if !p.standIns.isEmpty then Config.decodedLine p.au.nals st.2 l.1 l.2
      else if l.1 = 0 then r.luma[l.2]?.getD [] else r.chroma[l.2]?.getD []
    let c := concealLine acc.1 m (picFormat p) src r.missing l.1 l.2 p.sps.codedW line
    (c.1, acc.2 ++ [(l.1, l.2, c.2)])) (st.1, [])

/-- A picture placed among those awaiting output by its place in output order. -/
def insertPic (p : Picture) : List Picture → List Picture
  | [] => [p]
  | q :: t => if p.era < q.era ∨ (p.era = q.era ∧ p.order < q.order) then p :: q :: t else q :: insertPic p t

/-- The unpublished pictures of a stream are discarded; one still marked keeps its buffer (R188). -/
def dropOutput (s : State) (n : Nat) : State :=
  let x := strOf s n
  each x.done (fun s q =>
    let s := raise s K.VDC_STR_EVENT_DISCARD n
    if x.dpb.any fun b => b.desc == some q.desc then s else abandonBuffer s q.desc) (setStr s n { x with done := [] })

/-- The marking that follows the decoding of a picture: an H.264 reference picture's operations or window, and the picture's own mark; an
HEVC picture becomes a short-term reference (R191). -/
def marksAfter (s : State) (n : Nat) (p : Picture) : State :=
  let x := strOf s n
  let own : DpbPic := { poc := p.info.poc, desc := some p.desc, frameNum := p.info.frameNum, format := picFormat p, width := p.sps.codedW
                        height := p.sps.codedH }
  if x.codec = 1 then setDpb s n (x.dpb ++ [own])
  else if !isReference x.codec p.au then s
  else
    let m := avcMarks p.sps p.start p.info x.dpb x.maxLong
    let own := { own with long := m.long, poc := if m.reset then 0 else own.poc, frameNum := if m.reset then 0 else own.frameNum }
    setDpb (setStr s n { x with maxLong := m.maxLong, prevFrameNum := own.frameNum, era := x.era + bit m.reset }) n (m.pics ++ [own])

/-- The place of a picture in output order: after operation 5 the count starts afresh with the picture itself (R188, R191). -/
def outputOrder (x : Stream) (p : Picture) : Picture :=
  if x.codec = 0 && (p.info.mmco.any fun l => l.contains .clearAll) then { p with era := x.era + 1, order := 0 }
  else { p with era := x.era, order := p.info.poc }

/-- RECON_DONE: reconstruction ends. The picture is written and sealed, its marks are made, and pictures are published in output order
(R178, R187 to R194). -/
def execReconDone (engine : Fin 4) (result : Recon) (s : State) : Host.Outcome State Fault Refusal :=
  match (admittedStr s).find? fun e => e.2.recon.any fun r => r.2 == engine.val with
  | none => .next s
  | some (n, x) =>
    match x.recon with
    | none => .next s
    | some (p, e) =>
      let m := 68 + e
      if accessWaits s m then .next s else
      let hidden := p.concealed || !result.missing.isEmpty
      let rap := isRap x.codec p.au
      let made := picLines s m p x result
      let lines := made.2
      let f0 : Frame := { format := picFormat p, width := cropW p.sps, height := cropH p.sps, origin := 2, rap := rap, source := x.src
                          capture := p.au.capture, ptpStamp := p.au.ptpStamp, allow := p.au.allow }
      let pl := placeIn s p.desc f0
      let f := { f0 with content := contentOf ((upto (tileRows f0.height)).foldl (fun k r => contentRow k pl r lines) 0xFFFFFFFF) }
      let s1 := (upto (tileRows f.height)).foldl (fun s r => sealRow s m pl domSource f.source 0 r lines) (writeLines made.1 m pl lines)
      let s1 := also hidden (fun s => raise s K.VDC_STR_EVENT_CONCEAL n) s1
      let s1 := updStr s1 n fun y => { y with recon := none }
      let s1 := if rap && p.info.noOutput then dropOutput s1 n else if rap then putOut 0 s1 n else s1
      let p := outputOrder (strOf s1 n) { p with concealed := hidden, frame := f }
      let s1 := updStr s1 n fun y => { y with taint := if hidden then true else if rap then false else y.taint, done := insertPic p y.done }
      let s1 := marksAfter s1 n p
      .next (showStr (putOut (if p.last then 0 else reorderLimit p.sps) s1 n) n)

/-! ### Publication (R53, R189) -/

/-- A published picture's sequence is shown by its stream. -/
def streamPublished (s : State) (d : Nat) : State :=
  match s.vdc.asked.find d with
  | none => s
  | some n => wr { s with vdc := { s.vdc with asked := s.vdc.asked.del d } } F.VDC_STR_SEQ_SEQ n 0 (descOf s d).seq

/-- FRAME_PUBLISH: the seal engine completes the record of a requested frame, and it becomes its source's CURRENT frame (R53). -/
def execFramePublish (d : Fin 8192) (s : State) : Host.Outcome State Fault Refusal :=
  if !(s.eas.sealing.contains d.val && firstOfSource s s.eas.sealing d.val) || accessWaits s 51 then .next s
  else .next (contextPublished (streamPublished (framePublish s d.val) d.val) d.val)

end Sys2Proof.Machine
end

