-- ==== Sys2Proof/Machine/Net.lean ====
section
/-!
DEFINITION. Ethernet ports and stream flows: the MACs and the classifier (R106 to R112), the flow table and its commands (R113 to
R118), RTP receive (R119 to R128), ST 2110-20 send (R129 to R131), host queues (R132 to R134), and capture stamps (R98 to R101).
-/

namespace Sys2Proof.Machine

/-! ### Fields of a flow entry (R113) -/

def flowDst (e : List Byte) : List Byte := bytesAt e 0 16
def flowSrc (e : List Byte) : List Byte := bytesAt e 16 16
def flowDport (e : List Byte) : Nat := leAt e 32 2
def flowSport (e : List Byte) : Nat := leAt e 34 2
def flowPorts (e : List Byte) : Nat := leAt e 36 2
def flowIdent (e : List Byte) : Nat := leAt e 40 2 % 4096
def flowAllow (e : List Byte) : Nat := leAt e 44 2
def flowPt (e : List Byte) : Nat := leAt e 46 1 % 128
def flowSsrc (e : List Byte) : Nat := leAt e 48 4
def flowVlan (e : List Byte) : Nat := leAt e 52 2
def flowReceives (e : List Byte) : Bool := flowKind e != 3

/-! ### Frames and datagrams (R108, R109) -/

/-- A one's complement sum that includes its checksum is right. -/
def sumOk (n : Nat) : Bool := n != 0 && n % 65535 == 0

/-- A UDP datagram as the classifier sees it; IPv4 addresses stand in the first 4 of 16 bytes (R110, R113). -/
structure Datagram where
  ip6 : Bool := false
  src : List Byte := []
  dst : List Byte := []
  sport : Nat := 0
  dport : Nat := 0
  vid : Option Nat := none
  payload : List Byte := []
  deriving DecidableEq, Repr

/-- What a MAC finds in a frame: a bad checksum, a checksum verified, the IP destination (IPv6 or not, and its address), the datagram if
it may be classified, and the EtherType. -/
structure Parsed where
  bad : Bool := false
  sumGood : Bool := false
  ip : Option (Bool × List Byte) := none
  dgram : Option Datagram := none
  ty : Nat := 0
  deriving DecidableEq, Repr

/-- The datagram at `u` of frame `b`, whose pseudo-header sums to `pseudo` without the length, its checksum verified; a UDP checksum of 0 is
none, and leaves CSUM_OK 0 (DEDUCED, log entry 84: R133 does not say). It is classified where `plain`, that is without IPv4 options or IPv6 extension headers (R106, R108, R109). -/
def parseUdp (b : List Byte) (u pseudo : Nat) (d : Datagram) (plain : Bool) (p : Parsed) : Parsed :=
  let n := beAt b (u + 4) 2
  let seg := bytesAt b u n
  let sum := beAt b (u + 6) 2
  let good := sum != 0 && sumOk (pseudo + n + sum16 seg)
  if n < 8 ∨ b.length < u + n then p
  else { p with bad := sum != 0 && !good, sumGood := good
                dgram := if plain then some { d with sport := beAt b u 2, dport := beAt b (u + 2) 2, payload := seg.drop 8 } else none }

/-- Where the UDP header of an IPv6 packet stands: after the extension headers from `o` on, the first of kind `next`; none where another
protocol or a fragment follows. -/
def skipExtensions (b : List Byte) : Nat → Nat → Nat → Option Nat
  | 0, _, _ => none
  | fuel + 1, next, o =>
    if next = 17 then some o
    else if next = 0 ∨ next = 43 ∨ next = 60 then skipExtensions b fuel (leAt b o 1) (o + 8 * (leAt b (o + 1) 1 + 1))
    else if next = 51 then skipExtensions b fuel (leAt b o 1) (o + 4 * (leAt b (o + 1) 1 + 2))
    else none

/-- An EtherType is a tag's. -/
def isTag (ty : Nat) : Bool := ty == 0x8100 || ty == 0x88A8

/-- The offset of the EtherType behind the stacked tags that start at `o`. -/
def behindTags (b : List Byte) : Nat → Nat → Nat
  | 0, o => o
  | fuel + 1, o => if isTag (beAt b o 2) then behindTags b fuel (o + 4) else o

/-- The IP destination of the packet behind the EtherType at `o`: IPv6 or not, and its address. -/
def ipBehind (b : List Byte) (o : Nat) : Option (Bool × List Byte) :=
  if beAt b o 2 = 0x0800 then some (false, bytesAt b (o + 18) 4 ++ List.replicate 12 0)
  else if beAt b o 2 = 0x86DD then some (true, bytesAt b (o + 26) 16)
  else none

/-- A frame without its FCS (R106, R108, R109). The address filter finds the group of a frame with stacked tags, and of one with a bad header
checksum, as of any other (R107). -/
def parseFrame (b : List Byte) : Parsed :=
  let t0 := beAt b 12 2
  let vid := if t0 = 0x8100 then some (beAt b 14 2 % 4096) else none
  let o := if t0 = 0x8100 then 18 else 14
  let ty := beAt b (o - 2) 2
  if isTag ty then { ty := ty, ip := ipBehind b (behindTags b 2300 (o - 2)) }
  else if ty = 0x0800 then
    let ihl := 4 * (leAt b o 1 % 16)
    let d : Datagram := { src := bytesAt b (o + 12) 4 ++ List.replicate 12 0, dst := bytesAt b (o + 16) 4 ++ List.replicate 12 0, vid := vid }
    let p : Parsed := { sumGood := true, ip := some (false, d.dst), ty := ty }
    if !sumOk (sum16 (bytesAt b o ihl)) then { p with bad := true, sumGood := false }
    else if beAt b (o + 6) 2 % 0x4000 ≠ 0 ∨ leAt b (o + 9) 1 ≠ 17 then p
    else parseUdp b (o + ihl) (sum16 (bytesAt b (o + 12) 8) + 17) d (ihl == 20) p
  else if ty = 0x86DD then
    let d : Datagram := { ip6 := true, src := bytesAt b (o + 8) 16, dst := bytesAt b (o + 24) 16, vid := vid }
    let p : Parsed := { ip := some (true, d.dst), ty := ty }
    match skipExtensions b 64 (leAt b (o + 6) 1) (o + 40) with
    | some u => parseUdp b u (sum16 (bytesAt b (o + 8) 32) + 17) d (u == o + 40) p
    | none => p
  else { ty := ty }

/-- The Ethernet group address of an IP group address. -/
def groupMac (ip6 : Bool) (a : List Byte) : List Byte :=
  if ip6 then [0x33, 0x33] ++ bytesAt a 12 4 else [0x01, 0x00, 0x5E, BitVec.ofNat 8 (leAt a 1 1 % 128)] ++ bytesAt a 2 2

/-- A frame is PTP: its EtherType, or an event or general port (R81). -/
def isPtp (p : Parsed) : Bool := p.ty == 0x88F7 || p.dgram.any fun d => d.dport == 319 || d.dport == 320

/-- The transport of a PTP frame, in the codes of R102. -/
def ptpTransport (p : Parsed) : Nat := if p.ty = 0x88F7 then 2 else if p.ty = 0x86DD then 1 else 0

/-- An IP address is a group's. -/
def groupAddress (ip6 : Bool) (a : List Byte) : Bool := if ip6 then leAt a 0 1 == 0xFF else leAt a 0 1 / 16 == 14

/-- The frame goes to a group of PTP messages: those of IEEE 1588-2019 for its three transports (log entry 111). -/
def ptpGroup (b : List Byte) : Bool :=
  let dst := bytesAt b 0 6
  dst == [0x01, 0x00, 0x5E, 0x00, 0x01, 0x81] || dst == [0x33, 0x33, 0x00, 0x00, 0x01, 0x81] || dst == [0x01, 0x1B, 0x19, 0x00, 0x00, 0x00]

/-- The address filter of a port: a multicast frame passes whose IP group is the destination of a valid receive entry that names the port
(R107). PTP messages to their own groups pass it too, as R81 and R82 hand them to the clock or to the host queues (DEDUCED, log entry 111). -/
def accepts (s : State) (port : Nat) (b : List Byte) (p : Parsed) : Bool :=
  let dst := bytesAt b 0 6
  rdb s F.NET_MAC_CTRL_PROMISC port || dst == Config.macAddress port || dst == List.replicate 6 0xFF || (isPtp p && ptpGroup b) ||
    p.ip.any fun a => groupAddress a.1 a.2 && dst == groupMac a.1 a.2 && s.net.entries.any fun e =>
      flowValid e.2 && flowReceives e.2 && bitOn (flowPorts e.2) port && flowFlag e.2 1 == a.1 && flowDst e.2 == a.2

/-- A datagram that arrived at a port matches an entry (R110). -/
def flowMatches (port : Nat) (d : Datagram) (e : List Byte) : Bool :=
  flowValid e && flowReceives e && bitOn (flowPorts e) port && flowFlag e 1 == d.ip6 && flowDst e == d.dst && flowDport e == d.dport &&
    (!flowFlag e 2 || (flowSrc e == d.src && (flowSport e == 0 || flowSport e == d.sport))) &&
    (!flowFlag e 5 || d.vid == some (flowVlan e % 4096))

/-- The entry a datagram goes to: one with SRC_MATCH before one without, then the lowest index (R111). -/
def flowFor (s : State) (port : Nat) (d : Datagram) : Option (Nat × List Byte) :=
  let l := s.net.entries.filter fun e => flowMatches port d e.2
  match l.find? fun e => flowFlag e.2 2 with
  | some e => some e
  | none => l.head?

/-! ### Host queues (R132 to R134) -/

/-- A frame is written to receive host queue `q` (R133, R134). A descriptor that cannot be read, or whose BUF_LEN is below R133's range, counts
as no free descriptor (DESIGN CHOICE, log entry 112). -/
def hostDeliver (s : State) (q port : Nat) (b : List Byte) (p : Parsed) : State :=
  let at_ := Config.hostRing q + 32 * s.net.rxPos.get q 0
  let r := busRead s 53 at_ 32
  let n := leAt r.2.2 8 2
  if r.2.1 ≠ 0 ∨ bitOn (leAt r.2.2 13 1) 0 ∨ n < 64 then raise r.1 K.NET_MAC_EVENT_HOSTQ_FULL port
  else
    let t := netNs s
    let status := 1 + 2 * bit (decide (n < b.length)) + 4 * bit p.sumGood + 8 * bit (isPtp p)
    let s := (busWrite r.1 53 (leAt r.2.2 0 8 / 64 * 64) (b.take n)).1
    let s := (busWrite s 53 (at_ + 10) (leBytes b.length 2 ++ [BitVec.ofNat 8 port, BitVec.ofNat 8 status, 0, 0] ++
      leBytes (t % 1000000000) 4 ++ leBytes (t / 1000000000) 6 ++ List.replicate 6 0)).1
    { s with net := { s.net with rxPos := s.net.rxPos.put q ((s.net.rxPos.get q 0 + 1) % max 1 (Config.hostSlots q)) } }

/-! ### Capture stamps (R98 to R100) -/

/-- The mapping of R99, in its u64, u32 and i32 steps: the capture stamp of an RTP timestamp seen at arrival time `a`, unless rejected. -/
def mapCapture (s : State) (a r : Nat) : Option Nat :=
  let t := a * 9 % 2 ^ 64 / 100000
  let d := signedOf 32 (t % 2 ^ 32 + 2 ^ 32 - r % 2 ^ 32)
  if d < -1 ∨ d > ((rd s F.PTP_MAP_WINDOW_MS * 90 : Nat) : Int) then none
  else some (unsignedOf 64 ((t : Int) - d) * 100000 % 2 ^ 64 / 9 % 2 ^ 32)

/-- Capture, PTP_STAMP and allowance of a frame of an entry that arrived at `a` with RTP timestamp `r` (R98, R100, R128). -/
def flowCapture (s : State) (e : List Byte) (a r : Nat) : State × Nat × Bool × Nat :=
  let plain := (a % 2 ^ 32, false, flowAllow e)
  if !(flowFlag e 3 && rdb s F.PTP_STATE_LOCKED) then (s, plain)
  else match mapCapture s a r with
    | some c => (s, c, true, 0)
    | none => (raisePtp s K.PTP_EVENT_MAP_REJECT, plain)

/-! ### ST 2110-20 receive (R121 to R124, R142, R143) -/

/-- What a flow entry assembles is discarded (R118, R120). -/
def discardAssembly (s : State) (i : Nat) : State :=
  let s := each (upto 64) (fun s c => if (ctxOf s c).landing.any fun l => l.flow == some i then landAbandon s c else s) s
  updRun s i fun r => { r with ts := none, seqs := [], pix := [], window := [], au := {}, gap := false }

/-- Sample row data headers of a packet, as (length, row, offset); none when there are more than `fuel` or a field bit is set (R123). -/
def parseSrd (b : List Byte) (o : Nat) : Nat → Option (List (Nat × Nat × Nat) × Nat)
  | 0 => none
  | fuel + 1 =>
    let row := beAt b (o + 2) 2
    let off := beAt b (o + 4) 2
    let h := (beAt b o 2, row % 32768, off % 32768)
    if b.length < o + 6 ∨ 32768 ≤ row then none
    else if off < 32768 then some ([h], o + 6)
    else (parseSrd b (o + 6) fuel).map fun r => (h :: r.1, r.2)

/-- The pieces of a packet: line, first byte of the line, bytes; none for a packet that is discarded and counted as SRD_BAD (R123). So is one
whose header gives a length or offset that is no whole number of pgroups, or that is shorter than its headers say, for which the spec names
no count (DESIGN CHOICE, log entry 113). -/
def srdPieces (e b : List Byte) : Option (List (Nat × Nat × List Byte)) :=
  match parseSrd b 2 3 with
  | none => none
  | some (l, o) =>
    let g := pgroupOf (flowSampling e)
    let ok := fun (h : Nat × Nat × Nat) => h.1 % g.1 == 0 && h.2.2 % g.2.1 == 0 && decide (h.2.1 < flowHeight e) &&
      decide (h.2.2 + h.1 / g.1 * g.2.1 ≤ flowWidth e)
    let total := (l.map (·.1)).foldl (· + ·) 0
    if !(l.all ok) ∨ b.length < o + total then none
    else some ((l.foldl (fun (a : List (Nat × Nat × List Byte) × Nat) h =>
      (a.1 ++ [(h.2.1, h.2.2 / g.2.1 * g.1, bytesAt b a.2 h.1)], a.2 + h.1)) ([], o)).1)

/-- Numbers from the lowest to the highest of a frame's, modulo 2^32 from `lo`, that are missing. -/
def spanMissing (lo : Nat) (seqs : List Nat) : Nat :=
  let d := seqs.map fun q => (q + 2 ^ 32 - lo) % 2 ^ 32
  d.foldl max 0 + 1 - seqs.length

/-- The lowest number of a frame, in serial order. -/
def firstSeq (seqs : List Nat) : Nat := seqs.foldl (fun a q => if serialLater 32 a q then q else a) (seqs.headD 0)
def lastSeqOf (seqs : List Nat) : Nat := seqs.foldl (fun a q => if serialLater 32 q a then q else a) (seqs.headD 0)

/-- Packets have brought every byte of a frame. -/
def frameWhole (e : List Byte) (pix : Map (List (Nat × Nat))) : Bool :=
  let n := (spanOf (pgroupOf (flowSampling e)).2.2 0 0 (flowWidth e)).2
  (upto (flowHeight e)).all fun y => covered (pix.get y []) n

/-- A frame of a kind 0 entry ends: published, or counted: one that a later timestamp ends as TS_SPLIT, one of which packets are missing as
INCOMPLETE, with its watchdog, and one of both kinds as both (R101, R122, R124, R149; log entry 85). -/
def flowFrameEnd (s : State) (i : Nat) (e : List Byte) (split : Bool) : State :=
  let c := flowTarget e % 64
  let r := runOf s i
  let lo := firstSeq r.seqs
  let hole := spanMissing lo r.seqs
  let lead := match r.last with | some q => if serialLater 32 lo q then (lo + 2 ^ 32 - q) % 2 ^ 32 - 1 else 0 | none => 0
  let mine := (ctxOf s c).landing.filter fun l => l.flow == some i
  let whole := hole == 0 && frameWhole e r.pix
  let good := whole && !split
  let s := updRun s i fun r =>
    { r with ts := none, lastTs := r.ts, seqs := [], pix := [], last := some (lastSeqOf r.seqs), loss := r.loss + hole + lead
             frames := r.frames + bit good, tsSplit := r.tsSplit + bit split, incomplete := r.incomplete + bit (!whole) }
  match mine with
  | none => if whole then s else wdogFire s c 2
  | some l =>
    if good then landEnd s c l.frame
    else if whole then landAbandon s c
    else wdogFire (landAbandon s c) c 2

/-- A frame of a kind 0 entry starts (R142, R144). -/
def flowFrameStart (s : State) (i : Nat) (e : List Byte) (ts : Nat) : State :=
  let c := flowTarget e % 64
  let a := netNs s
  let k := flowCapture s e a ts
  let f : Frame := { format := (pgroupOf (flowSampling e)).2.2, width := flowWidth e, height := flowHeight e, origin := 1, source := flowIdent e,
                     capture := k.2.1, ptpStamp := k.2.2.1, allow := k.2.2.2 }
  updRun (landStart k.1 c none (some i) true f) i fun r => { r with ts := some ts, seqs := [], pix := [] }

/-- A datagram that is discarded because its context does not take it has been received all the same, and numbers missing before it are lost: it
joins the frame in assembly, or moves the highest number on (R121, R138). -/
def flowDropped (s : State) (i : Nat) (e : List Byte) (ext ts : Nat) (marker : Bool) : State :=
  let s := updRun s i fun r => { r with dropped := r.dropped + 1 }
  let pass := fun (s : State) => updRun s i fun r =>
    match r.last with
    | some q => if serialLater 32 ext q then { r with last := some ext, loss := r.loss + ((ext + 2 ^ 32 - q) % 2 ^ 32 - 1) } else r
    | none => { r with last := some ext }
  match (runOf s i).ts with
  | none => pass s
  | some t =>
    if t = ts then
      let s := updRun s i fun r => { r with seqs := if r.seqs.contains ext then r.seqs else ext :: r.seqs }
      if marker then flowFrameEnd s i e false else s
    else if serialLater 32 ts t then pass (flowFrameEnd s i e true)
    else s

/-- A packet of the frame in assembly is taken: its number has been received, and unless it is discarded its pixels land (R121, R123,
R124). A packet discarded as SRD_BAD does not end its frame by its marker (DESIGN CHOICE, log entry 113). -/
def flowTake (s : State) (i : Nat) (e b : List Byte) (ext : Nat) (marker : Bool) : State :=
  if (runOf s i).seqs.contains ext then updRun s i fun r => { r with dup := r.dup + 1 }
  else match srdPieces e b with
    | none => updRun s i fun r => { r with seqs := ext :: r.seqs, srdBad := r.srdBad + 1 }
    | some l =>
      let c := flowTarget e % 64
      let take := fun (m : Map (List (Nat × Nat))) (p : Nat × Nat × List Byte) => m.put p.1 ((p.2.1, p.2.2.length) :: m.get p.1 [])
      let s := updRun s i fun r => { r with seqs := ext :: r.seqs, pix := l.foldl take r.pix }
      let s := if (ctxOf s c).landing.any fun l => l.flow == some i then each l (fun s p => landBytes s c p.1 p.2.1 p.2.2) s else s
      if marker then flowFrameEnd s i e false else s

/-- An ST 2110-20 packet, its payload after the RTP header (R121 to R124, R138). -/
def flowVideo (s : State) (i : Nat) (e b : List Byte) (seq ts : Nat) (marker : Bool) : State :=
  let c := flowTarget e % 64
  let ext := beAt b 0 2 * 65536 + seq
  let r := runOf s i
  let late := fun (s : State) => updRun s i fun r => { r with late := r.late + 1 }
  let busy := (ctxOf s c).landing.any fun l => l.flow != some i
  let fed := feeds (nextLand (ctxOf s c) (sluCyc s)) 1
  let drop := fun (s : State) => flowDropped s i e ext ts marker
  let start := fun (s : State) => if fed then flowTake (flowFrameStart s i e ts) i e b ext marker else drop s
  let mine := (ctxOf s c).landing.any fun l => l.flow == some i
  if !(mine || fed) || busy then drop s
  else match r.ts with
    | none => if r.lastTs.any fun t => !serialLater 32 ts t then late s else start s
    | some t =>
      if t = ts then flowTake s i e b ext marker
      else if serialLater 32 ts t then start (flowFrameEnd s i e true)
      else late s

/-! ### H.264 and HEVC reassembly (R125 to R127) -/

/-- The assembly of an access unit with a NAL unit in fragments given up. -/
def dropFrag (a : Assembly) : Assembly := if a.frag.isSome then { a with frag := none, lossMark := true } else a

/-- One packet's payload joins the access unit; none when its kind is not accepted (R125, R126). -/
def addNal (codec : Nat) (a : Assembly) (p : List Byte) : Option Assembly :=
  let hd := if codec = 0 then 1 else 2
  let t := nalType codec p
  let single := if codec = 0 then decide (1 ≤ t) && decide (t ≤ 23) else decide (t < 48)
  let fu := if codec = 0 then t == 28 else t == 49
  if single then let a := dropFrag a; some { a with nals := a.nals ++ [p] }
  else if !fu then none
  else
    let h := leAt p hd 1
    let body := p.drop (hd + 1)
    let head : List Byte := if codec = 0 then [BitVec.ofNat 8 (leAt p 0 1 / 32 * 32 + h % 32)]
      else [BitVec.ofNat 8 (leAt p 0 1 / 128 * 128 + h % 64 * 2 + leAt p 0 1 % 2), BitVec.ofNat 8 (leAt p 1 1)]
    let a := if bitOn h 7 then { dropFrag a with frag := some (head ++ body) }
      else match a.frag with
        | some f => { a with frag := some (f ++ body) }
        | none => { a with lossMark := true }
    if bitOn h 6 then
      match a.frag with
      | some f => some { a with nals := a.nals ++ [f], frag := none }
      | none => some a
    else some a

/-- An access unit ends: passed to its stream, or counted as TS_SPLIT or AU_SIZE (R122, R127). Whether the clock is LOCKED, and the mapping,
are judged here, where those of a kind 0 frame are judged at its first packet: R98 names no moment (DESIGN CHOICE, log entry 114). -/
def auEnd (s : State) (i : Nat) (e : List Byte) (split : Bool) : State :=
  let r := runOf s i
  let a := dropFrag r.au
  let size : Nat := (a.nals.map (·.length)).foldl (· + ·) 0
  let s := updRun s i fun r => { r with ts := none, lastTs := r.ts, seqs := [], au := {} }
  if split then updRun s i fun r => { r with tsSplit := r.tsSplit + 1 }
  else if size > 4 * 2 ^ 20 then updRun s i fun r => { r with auSize := r.auSize + 1 }
  else
    let arrival := (a.first.getD (0, netNs s)).2
    let k := flowCapture s e arrival (r.ts.getD 0)
    let s := updRun k.1 i fun r => { r with frames := r.frames + 1 }
    offerAu s (flowTarget e % 256) (flowKind e - 1) (flowIdent e)
      { nals := a.nals, arrival := arrival, capture := k.2.1, ptpStamp := k.2.2.1, allow := k.2.2.2, lossMark := a.lossMark }

/-- The earlier in arrival of an access unit's packets so far and another, as NET cycle and stamp (R128). -/
def firstArrival (a : Option (Nat × Nat)) (p : RtpPacket) : Option (Nat × Nat) :=
  match a with
  | some f => if p.cyc < f.1 then some (p.cyc, p.arrival) else some f
  | none => some (p.cyc, p.arrival)

/-- A packet is taken in its order (R121, R122, R125, R126). One of a later timestamp where no marker came splits the access unit, whether or not
numbers before it are missing (log entry 85). An access unit whose packets are all UNSUP_NAL ends as one without NAL units,
counted and passed on like any other (DESIGN CHOICE, log entry 115). -/
def takePacket (s : State) (i : Nat) (e : List Byte) (p : RtpPacket) : State :=
  let r := runOf s i
  let gap := r.gap
  let s := updRun s i fun r => { r with last := some p.seq, gap := false }
  if r.ts.any fun t => t != p.ts && !serialLater 32 p.ts t then updRun s i fun r => { r with late := r.late + 1, gap := gap }
  else
    let s := if r.ts.any fun t => t != p.ts then auEnd s i e true else s
    let r := runOf s i
    let a := if r.ts.isNone then { lossMark := gap } else if gap then { dropFrag r.au with lossMark := true } else r.au
    let a := { a with first := firstArrival a.first p }
    let n := addNal (flowKind e - 1) a p.payload
    let s := updRun s i fun r =>
      { r with ts := some p.ts, au := n.getD a, seqs := p.seq :: r.seqs, unsupNal := r.unsupNal + bit n.isNone }
    if p.marker then auEnd s i e false else s

/-- A packet placed in the window by its number. -/
def insertPacket (p : RtpPacket) : List RtpPacket → List RtpPacket
  | [] => [p]
  | q :: t => if p.seq < q.seq then p :: q :: t else q :: insertPacket p t

/-- The packets of the window that are due are taken: each that follows in number; and a missing number that the window of 64 up to the
highest received has passed is final, and lost (R121, R126). -/
def drainWindow (i : Nat) (e : List Byte) : Nat → State → State
  | 0, s => s
  | fuel + 1, s =>
    let r := runOf s i
    match r.window, r.last with
    | p :: rest, some q =>
      let top := (rest.getLast?.getD p).seq
      if p.seq = q + 1 then drainWindow i e fuel (takePacket (updRun s i fun r => { r with window := rest }) i e p)
      else if q + 64 < top then
        let next := min p.seq (top - 63)
        drainWindow i e fuel (updRun s i fun r => { r with last := some (next - 1), loss := r.loss + (next - (q + 1)), gap := true })
      else s
    | _, _ => s

/-- An RTP packet of kind 1 or 2 (R121, R126). One that arrives after its number has become final is counted as LATE: the spec names no count
for it (DESIGN CHOICE, log entry 116). -/
def flowCompressed (s : State) (i : Nat) (e b : List Byte) (seq ts : Nat) (marker : Bool) : State :=
  let r := runOf s i
  let last := r.last.getD (65536 + seq - 1)
  let d := signedOf 16 (seq + 65536 - last % 65536)
  let ext := ((last : Int) + d).toNat
  let p : RtpPacket := { seq := ext, ts := ts, marker := marker, payload := b, arrival := netNs s, cyc := s.time.cyc }
  if r.seqs.contains ext || r.window.any fun q => q.seq == ext then updRun s i fun r => { r with dup := r.dup + 1 }
  else if d ≤ 0 then updRun s i fun r => { r with late := r.late + 1 }
  else drainWindow i e 135 (updRun s i fun r => { r with last := some last, window := insertPacket p r.window })

/-! ### RTP (R119, R120) -/

/-- A datagram of a receive entry of kind 0 to 2. -/
def flowRtp (s : State) (i : Nat) (e p : List Byte) : State :=
  let v := leAt p 0 1
  let o := 12 + 4 * (v % 16)
  let o := if bitOn v 4 then o + 4 + 4 * beAt p (o + 2) 2 else o
  let pad := if bitOn v 5 then leAt p (p.length - 1) 1 else 0
  let ssrc := beAt p 8 4
  if v / 64 ≠ 2 ∨ p.length < o + pad then s
  else if leAt p 1 1 % 128 ≠ flowPt e then updRun s i fun r => { r with ptMiss := r.ptMiss + 1 }
  else if flowFlag e 4 && ssrc != flowSsrc e then updRun s i fun r => { r with ssrcMiss := r.ssrcMiss + 1 }
  else
    let changed := !flowFlag e 4 && (runOf s i).ssrc.any (· != ssrc)
    let s := if changed then
        updRun (discardAssembly s i) i fun r => { r with ssrcChange := r.ssrcChange + 1, last := none, lastTs := none }
      else s
    let s := updRun s i fun r => { r with ssrc := some ssrc }
    let body := (p.take (p.length - pad)).drop o
    let f := if flowKind e = 0 then flowVideo else flowCompressed
    f s i e body (beAt p 2 2) (beAt p 4 4) (bitOn (leAt p 1 1) 7)

/-! ### Receiving and sending frames -/

/-- The MAC of a port is enabled and up. -/
def macUp (s : State) (port : Nat) : Bool := rdb s F.NET_MAC_CTRL_EN port && portUp s port

/-- The bus master that takes what an entry receives: the landing engine, the decoder, or the host queues (R555). -/
def flowMaster (s : State) (e : List Byte) : Nat :=
  if flowKind e = 0 then 54 else if flowKind e = 4 then 53 else 64 + (strOf s (flowTarget e % 256)).engine

/-- MAC_FRAME_RX: a frame, with its FCS as its last 4 bytes, arrives at a port (R107 to R112). PTP messages of the clock's own port are
reported by their own commands; only management messages among them go to the host (R81, R82). -/
def execMacFrameRx (port : Fin 16) (bytes : List Byte) (fcsOk : Bool) (s0 : State) : Host.Outcome State Fault Refusal :=
  let n := port.val
  let s := { s0 with net := { s0.net with rxStamp := s0.net.rxStamp.put n (netNs s0) } }
  if !macUp s0 n then .next s0
  else if bytes.length < 64 ∨ 9216 < bytes.length ∨ !fcsOk then .next (raise s K.NET_MAC_EVENT_RX_BAD n)
  else
    let b := bytes.take (bytes.length - 4)
    let p := parseFrame b
    if p.ty = 0x8808 then .next (raise s K.NET_MAC_EVENT_RX_BAD n)
    else if !accepts s n b p then .next s
    else if p.bad then .next (raise s K.NET_MAC_EVENT_RX_BAD n)
    else
      let msg := match p.dgram with | some d => leAt d.payload 0 1 % 16 | none => leAt b (if beAt b 12 2 = 0x8100 then 18 else 14) 1 % 16
      if isPtp p && ptpOn s && n == rd s F.PTP_STATE_PORT_ACTIVE && ptpTransport p == rd s F.PTP_CTRL_TRANSPORT && msg != 13 then .next s
      else match p.dgram.bind fun d => (flowFor s n d).map fun e => (e, d) with
        | none => if accessWaits s 53 then .next s0 else .next (hostDeliver s (rd s F.NET_MAC_CTRL_HOSTQ n) n bytes p)
        | some (e, d) =>
          if accessWaits s (flowMaster s e.2) then .next s0
          else if flowKind e.2 = 4 then .next (hostDeliver s (flowIdent e.2 % 16) n bytes p)
          else .next (flowRtp s e.1 e.2 d.payload)

/-- HOSTQ_TX_FRAME: the frame of the next descriptor of transmit host queue n leaves on port n, stamped; a queue has no other port (R83, R132). The layout of a transmit
descriptor is not given: where its frame lies is an opaque function of its 32 bytes (DESIGN CHOICE, log entry 14). A read that gets an error
response sends nothing. -/
def execHostqTxFrame (queue port : Fin 16) (s : State) : Host.Outcome State Fault Refusal :=
  let n := port.val
  if queue ≠ port ∨ !macUp s n ∨ accessWaits s 53 then .next s
  else
    let k := s.net.txPos.get n 0
    let r := busRead s 53 (Config.hostTxRing n + 32 * k) 32
    let d := Config.txDescriptor r.2.2
    let b := busRead r.1 53 d.1 (d.2 % 9217)
    let s := { b.1 with net := { b.1.net with txPos := b.1.net.txPos.put n ((k + 1) % max 1 (Config.hostTxSlots n)) } }
    .next (if r.2.1 = 0 ∧ b.2.1 = 0 then sendEth s n b.2.2 else s)

/-! ### Flow commands (R115 to R118) -/

/-- The staged entry. -/
def stagedEntry (s : State) : List Byte := ((upto 16).map fun k => leBytes (rdReg s R.NET_FLOW_STAGE 0 k) 4).flatten

/-- Sample row data headers that a packet of `pkt` payload bytes carries at most, over lines of `n` bytes: one under general packing, which
keeps to a line; under block packing as many as the lines it reaches into (R113, R116). -/
def sendHeaders (bpm : Bool) (pkt n lines : Nat) : Nat :=
  if bpm && n != 0 then min (max 1 lines) (1 + ceilDiv (pkt - Nat.gcd pkt n) n) else 1

/-- Bytes of a send frame of canvas lines of `n` bytes besides its payload: Ethernet with a tag where one is sent, IP, UDP, RTP with the
extended sequence number, its sample row data headers, FCS (R116). -/
def sendOverhead (e : List Byte) (n lines : Nat) : Nat :=
  14 + (if bitOn (flowVlan e) 15 then 4 else 0) + (if flowFlag e 1 then 40 else 20) + 8 + 12 + 2 +
    6 * sendHeaders (flowFlag e 6) (flowWidth e) n lines + 4

/-- Bytes of a canvas line in the sampling of a send entry. -/
def sendLineBytes (s : State) (e : List Byte) : Nat := (spanOf (pgroupOf (flowSampling e)).2.2 0 0 (canvasW s (sendCanvas e))).2

/-- SAMPLING is no reserved value, where the KIND has one. -/
def sampled (e : List Byte) : Bool := !(flowKind e == 0 || flowKind e == 3) || (decide (1 ≤ flowSampling e) && decide (flowSampling e ≤ 3))

/-- The range checks of an entry, as (byte offset, passes), in ascending order (R113, R116). What a check measures by a pgroup or by a KIND that
is reserved it does not measure: that is code 6. -/
def entryRanges (s : State) (e : List Byte) : List (Nat × Bool) :=
  let k := flowKind e
  let within := fun lo hi v => decide (lo ≤ v) && decide (v ≤ hi)
  let v4 := fun (a : List Byte) => flowFlag e 1 || (a.drop 4).all (· == 0)
  [(0, v4 (flowDst e)), (16, v4 (flowSrc e)), (32, decide (1 ≤ flowDport e)),
   (42, if k = 0 then decide (flowTarget e < 64) else if k = 1 ∨ k = 2 then decide (flowTarget e < 256) else decide (4 < k) || flowTarget e == 0),
   (44, decide (flowAllow e ≤ 2000)), (46, decide (96 ≤ flowPt e)), (47, k != 3 || flowSampling e != 1), (54, k == 3 || decide (4 < k) || (bytesAt e 54 6).all (· == 0)),
   (60, if k = 0 then within 16 8192 (flowWidth e) else if k = 3 then decide (1 ≤ flowWidth e) &&
      (!sampled e || flowWidth e % (pgroupOf (flowSampling e)).1 == 0) && decide (flowWidth e + sendOverhead e (sendLineBytes s e) (canvasH s (sendCanvas e)) ≤ 9216) else true),
   (62, k != 0 || within 16 4352 (flowHeight e))]

/-- Two entries have the same key (R116). -/
def sameKey (a b : List Byte) : Bool :=
  flowReceives a == flowReceives b && flowFlag a 1 == flowFlag b 1 && flowDst a == flowDst b && flowDport a == flowDport b &&
    flowFlag a 2 == flowFlag b 2 && (!flowFlag a 2 || (flowSrc a == flowSrc b && flowSport a == flowSport b))

/-- The valid entries. -/
def validEntries (s : State) : List (Nat × List Byte) := s.net.entries.filter fun e => flowValid e.2

/-- Why the staged entry is refused: code and field; the lowest code that applies (R116). -/
def installRefusal (s : State) (e : List Byte) : Option (Nat × Nat) :=
  let v := validEntries s
  let k := flowKind e
  let id := flowIdent e
  let dupId :=
    if k = 3 then v.any fun x => flowKind x.2 == 3 && sendCanvas x.2 == sendCanvas e
    else if k = 4 then false
    else (v.any fun x => decide (flowKind x.2 ≤ 2) && flowIdent x.2 == id) ||
      (if k = 0 then dupSource s id
       else let st := strOf s (flowTarget e % 256); !(st.admitted && st.src == id))
  if v.length ≥ 1024 then some (1, 0)
  else if v.any fun x => sameKey x.2 e then some (2, 0)
  else if decide (k ≤ 4) && dupId then some (3, 0)
  else match (entryRanges s e).find? fun c => !c.2 with
    | some c => some (4, c.1)
    | none =>
      if 4 < k ∨ !sampled e ∨ !flowValid e then some (6, 0)
      else if k = 0 ∧ overLimit s [id] then some (7, 0)
      else none

/-- A refused flow command (R116). -/
def flowRefuse (s : State) (c : Nat × Nat) : State :=
  let s := wr0 s F.NET_FLOW_STATUS_CODE c.1
  raise (if c.1 = 4 then wr0 s F.NET_FLOW_STATUS_FIELD c.2 else s) K.NET_FLOW_STATUS_REFUSED

/-- A write of NET_FLOW_CMD (R115, R116). -/
def flowCmdWrite (s : State) (op i : Nat) : State :=
  if op = 0 then s
  else if rdb s F.NET_FLOW_STATUS_BUSY then flowRefuse s (5, 0)
  else { wr0 s F.NET_FLOW_STATUS_BUSY 1 with net := { s.net with op := some (op, i) } }

/-- FLOW_INSTALL (R115). -/
def execFlowInstall (s : State) : Host.Outcome State Fault Refusal := .next (flowCmdWrite s 1 0)
/-- FLOW_REMOVE (R115). -/
def execFlowRemove (index : BitVec 10) (s : State) : Host.Outcome State Fault Refusal := .next (flowCmdWrite s 2 index.toNat)
/-- FLOW_READ (R115). -/
def execFlowRead (index : BitVec 10) (s : State) : Host.Outcome State Fault Refusal := .next (flowCmdWrite s 3 index.toNat)

/-- The staged entry comes into the table at the lowest free index (R115, R117). What an earlier entry at that index counted and assembled is
gone: the spec does not say whether its counts are kept (DESIGN CHOICE, log entry 117). -/
def installEntry (s : State) (e : List Byte) : State :=
  let i := (lowest 1024 fun i => !flowValid (flowEntry s i)).getD 0
  let s := { s with net := { s.net with entries := s.net.entries.put i e, runs := s.net.runs.put i {} } }
  let s := if flowKind e = 0 then bindSource s (flowIdent e) (.flow i) else s
  wr0 s F.NET_FLOW_STATUS_INDEX i

/-- VALID of an entry is cleared: what it assembles is discarded and counted, and a kind 0 source becomes ORPHAN (R115, R117, R118). -/
def removeEntry (s : State) (i : Nat) : State :=
  let e := flowEntry s i
  if !flowValid e then s
  else
    let s := updRun s i fun r => { r with dropped := r.dropped + bit (r.ts.isSome || !r.window.isEmpty || !r.sending.isEmpty), sent := 0, sending := [] }
    let s := if flowKind e = 0 then orphanSource (discardAssembly s i) (flowIdent e) else discardAssembly s i
    { s with net := { s.net with entries := s.net.entries.put i (patchBytes e 39 [BitVec.ofNat 8 (leAt e 39 1 / 2 * 2)]) } }

/-- An entry and its counts are read into NET_FLOW_STAGE and NET_FLOW_STATS (R115). -/
def readEntry (s : State) (i : Nat) : State :=
  let e := flowEntry s i
  let r := runOf s i
  let s := each (upto 16) (fun s k => wrReg s R.NET_FLOW_STAGE 0 k (leAt e (4 * k) 4)) s
  let s := wr0 (wr0 s F.NET_FLOW_STATS_FRAMES_FRAMES (r.frames % 2 ^ 32)) F.NET_FLOW_STATS_LOSS_LOSS (min r.loss 0xFFFFFFFF)
  let s := wr0 s F.NET_FLOW_STATS_DROP_DROPPED (min (r.dropped + r.incomplete + r.tsSplit + r.auSize) 65535)
  let s := wr0 s F.NET_FLOW_STATS_DROP_DISCARD (min (r.ptMiss + r.ssrcMiss + r.dup + r.late + r.srdBad + r.unsupNal) 65535)
  wr0 s F.NET_FLOW_STATS_SSRC_SSRC_CHANGE (min r.ssrcChange 255)

/-- FLOW_CMD_DONE: the table changes at one NET edge, and DONE is raised (R115, R116). -/
def execFlowCmdDone (s : State) : Host.Outcome State Fault Refusal :=
  match s.net.op with
  | none => .next s
  | some (op, i) =>
    let s := wr0 { s with net := { s.net with op := none } } F.NET_FLOW_STATUS_BUSY 0
    let s := if op = 1 then
        let e := stagedEntry s
        match installRefusal s e with
        | some c => flowRefuse s c
        | none => installEntry s e
      else if op = 2 then removeEntry s i
      else readEntry s i
    .next (raise s K.NET_FLOW_STATUS_DONE)

/-- NET_FLOW_FREE. -/
def flowFree (s : State) : Nat := 1024 - (validEntries s).length

/-! ### ST 2110-20 send (R129 to R131) -/

/-- The row pieces of packet `k` of a frame of `lines` lines of `n` bytes: row, first byte, bytes. General packing keeps to one line;
block packing runs on across lines (R113; log entry 31). -/
def sendPieces (bpm : Bool) (pkt n lines k : Nat) : List (Nat × Nat × Nat) :=
  if !bpm then
    let per := ceilDiv n (max 1 pkt)
    let a := k % max 1 per * pkt
    [(k / max 1 per, a, min pkt (n - a))]
  else
    let a := k * pkt
    let z := min (a + pkt) (n * lines)
    (upto lines).filterMap fun r =>
      let lo := max a (r * n)
      let hi := min z ((r + 1) * n)
      if lo < hi then some (r, lo - r * n, hi - lo) else none

/-- Packets of a frame. -/
def sendCount (bpm : Bool) (pkt n lines : Nat) : Nat := if bpm then ceilDiv (n * lines) (max 1 pkt) else ceilDiv n (max 1 pkt) * lines

/-- A whole send frame without FCS; the IPv4 identification is not stated: free (R113, R129). -/
def sendFrame (s : State) (e payload : List Byte) : List Byte :=
  let vlan := flowVlan e
  let n := if flowFlag e 1 then 16 else 4
  let src := (flowSrc e).take n
  let dst := (flowDst e).take n
  let tag : List Byte := if bitOn vlan 15 then [0x81, 0x00] ++ beBytes (slice vlan 12 3 * 2 ^ 13 + vlan % 4096) 2 else []
  bytesAt e 54 6 ++ Config.macAddress (sendPort e) ++ tag ++
    ipPacket (flowFlag e 1) src dst (leAt e 62 1 % 64) (leAt e 63 1) (freeNat s) (udpDatagram src dst (flowSport e) (flowDport e) payload)

/-- The RTP packet that carries pieces of a frame: its number, the frame's latch time at 90 kHz from the PTP epoch, and the marker on the
last (R121, R129). -/
def sendRtp (e : List Byte) (seq : Nat) (f : SendFrame) (ps : List (Nat × Nat × Nat)) (last : Bool) : List Byte :=
  let g := pgroupOf (flowSampling e)
  let head := (ps.zipIdx.map fun p =>
    beBytes p.1.2.2 2 ++ beBytes p.1.1 2 ++ beBytes (p.1.2.1 / g.1 * g.2.1 + if p.2 + 1 < ps.length then 32768 else 0) 2).flatten
  let data := (ps.map fun p => bytesAt (f.lines.getD p.1 []) p.2.1 p.2.2).flatten
  ([0x80, BitVec.ofNat 8 (flowPt e + if last then 128 else 0)] : List Byte) ++ beBytes seq 2 ++ beBytes (f.latch * 9 / 100000) 4 ++
    beBytes (flowSsrc e) 4 ++ beBytes (seq / 65536) 2 ++ head ++ data

/-- ST2110_PACKET_SEND: the next packet of the oldest canvas frame on its way leaves, once the lines it carries have left the encoder; a
frame whose last packet has left is complete (R129, R130). A port that is down sends nothing (R131). -/
def execSt2110PacketSend (index : BitVec 10) (s : State) : Host.Outcome State Fault Refusal :=
  let i := index.toNat
  let e := flowEntry s i
  let r := runOf s i
  match r.sending with
  | [] => .next s
  | f :: rest =>
    let n := (f.lines.headD []).length
    let ps := sendPieces (flowFlag e 6) (flowWidth e) n f.height r.sent
    if !(flowValid e && flowKind e == 3 && macUp s (sendPort e) && ps.all fun p => decide (p.1 < f.lines.length)) then .next s
    else
      let last := decide (sendCount (flowFlag e 6) (flowWidth e) n f.height ≤ r.sent + 1)
      let s := draw (sendEth s (sendPort e) (sendFrame s e (sendRtp e r.rtpSeq f ps last)))
      .next (updRun s i fun r =>
        { r with sent := if last then 0 else r.sent + 1, sending := if last then rest else r.sending, frames := r.frames + bit last
                 rtpSeq := (r.rtpSeq + 1) % 2 ^ 32 })

/-! ### Links (R82, R131, R136) -/

/-- A port goes down (R82, R131, R136). -/
def ethDown (s : State) (port : Nat) : State :=
  if !portUp s port then s
  else
    let s := raise (wr (wr s F.NET_MAC_STATUS_LINK_UP port 0 0) F.NET_MAC_STATUS_FEC_LOCK port 0 0) K.NET_MAC_EVENT_LINK_DOWN port
    let s := each (sendEntries s) (fun s e =>
      if sendPort e.2 = port then updRun s e.1 fun r => { r with dropped := r.dropped + r.sending.length, sent := 0, sending := [] } else s) s
    ptpRebind s

/-- ETH_LINK_DOWN (R136). -/
def execEthLinkDown (port : Fin 16) (s : State) : Host.Outcome State Fault Refusal := .next (ethDown s port.val)

/-- ETH_LINK_UP: the PCS of a port of an ETH quad locks, and its lane with it, while its MAC is enabled and no test field of its lane is set (R82, R135, R522). -/
def execEthLinkUp (port : Fin 16) (s : State) : Host.Outcome State Fault Refusal :=
  let n := port.val
  match ethQuad s n with
  | none => .next s
  | some q =>
    if !(rdb s F.NET_MAC_CTRL_EN n && (s.lane.get q {}).pll) || portUp s n || testSet s (4 * q + n % 4) then .next s
    else
      let fec := rdb s F.NET_MAC_CTRL_FEC_EN n && rdb s F.NET_MAC_CTRL_RATE n
      let l := 4 * q + n % 4
      let s := wr (wr s F.LANE_STATUS_CDR_LOCK l 0 1) F.LANE_STATUS_PCS_LOCK l 0 1
      .next (ptpRebind (wr (wr s F.NET_MAC_STATUS_LINK_UP n 0 1) F.NET_MAC_STATUS_FEC_LOCK n 0 (bit fec)))

end Sys2Proof.Machine
end

