-- ==== Sys2Proof/Machine/Lane.lean ====
section
/-!
DEFINITION. Quad uses, DisplayPort ports, equalisers, lock loss and the test features of the serial lanes (R505 to R525).
-/

namespace Sys2Proof.Machine

/-- Quad `q`. -/
def quadOf (s : State) (q : Nat) : Quad := s.lane.get q {}
/-- Quad `q` changed. -/
def updQuad (s : State) (q : Nat) (f : Quad → Quad) : State := { s with lane := s.lane.put q (f (quadOf s q)) }
/-- The lanes of a quad. -/
def quadLanes (q : Nat) : List Nat := (upto 4).map (4 * q + ·)

/-! ### Uses (R505 to R507) -/

/-- The use code written for quad `q`. -/
def useCode (s : State) (q : Nat) : Nat := slice (rdReg s R.LANE_QUAD_USE) (4 * q) 4

/-- The quad that breaks a limit of `n` on a use: the first beyond it. -/
def beyond (s : State) (use n : Nat) : Option Nat := ((upto 16).filter fun q => useCode s q == use)[n]?

/-- The first check of a commit that fails, as (CODE, QUAD); CODE 0 is a pass (R506). -/
def commitCode (s : State) : Nat × Nat :=
  if rdb s F.LANE_QUAD_COMMIT_LOCKED then (5, 0)
  else match lowest 16 fun q => decide (5 ≤ useCode s q) with
    | some q => (1, q)
    | none => match beyond s 2 8 with
      | some q => (2, q)
      | none => match beyond s 3 4 with
        | some q => (3, q)
        | none => match beyond s 4 4 with
          | some q => (4, q)
          | none => (0, 0)

/-- READY: every used quad's PLL is locked (R506). -/
def setReady (s : State) : State :=
  wr0 s F.LANE_QUAD_COMMIT_READY (bit (rdb s F.LANE_QUAD_COMMIT_LOCKED && (upto 16).all fun q => quadUse s q == 0 || (quadOf s q).pll))

/-- A write of 1 to LANE_QUAD_COMMIT.COMMIT (R506). -/
def quadCommit (s : State) : State :=
  let k := commitCode s
  if k.1 = 0 then setReady (wr0 s F.LANE_QUAD_COMMIT_LOCKED 1)
  else raise (wr0 (wr0 s F.LANE_QUAD_COMMIT_CODE k.1) F.LANE_QUAD_COMMIT_QUAD k.2) K.LANE_QUAD_COMMIT_REFUSED

/-- QUAD_USE_COMMIT (R506). -/
def execQuadUseCommit (s : State) : Host.Outcome State Fault Refusal := .next (quadCommit s)

/-! ### Transmitters (R511, R512, R519) -/

/-- The canvases that a DisplayPort transmitter carries. -/
def dpCanvases (s : State) (q : Nat) : List Nat :=
  (upto 32).filter fun c => (rdb s F.CNV_CTRL_EN c || onCanvas s c) && rd s F.CNV_CTRL_OUT_KIND c == 1 && rd s F.CNV_CTRL_OUT_INDEX c == q

/-- Video on a transmitter stops at the next line boundary (R518). -/
def stopVideo (s : State) (q : Nat) : State := each (dpCanvases s q) (fun s c => updCnv s c fun x => { x with stopDue := true }) s

/-- A transmitter may train: in use, enabled, its PLL locked, no test field set (R511, R522). -/
def canTrain (s : State) (q : Nat) : Bool :=
  quadUse s q == 1 && rdb s F.LANE_DPTX_CFG_EN q && rdb s F.LANE_DPTX_STATUS_HPD q && (quadOf s q).pll && !(quadLanes q).any (testSet s)

/-- Training starts; a host AUX transaction that runs comes to its end first (R511, R513). -/
def startTraining (s : State) (q : Nat) : State :=
  if !canTrain s q then s
  else if (quadOf s q).aux = some true then updQuad s q fun x => { x with trainWait := true }
  else updQuad (wr s F.LANE_DPTX_STATUS_STATE q 0 1) q fun x => { x with trainWait := false }

/-- A host transaction runs: the request of the command that started it goes out on AUX (R513). -/
def auxRun (s : State) (q : Nat) : State :=
  let c := (quadOf s q).auxCmd
  emit (updQuad s q fun x => { x with aux := some true }) (.auxRequest q c.req c.addr c.len c.data)

/-- The transaction that the registers ask for; bit 0 of the command is a read (R513, log entry 33). -/
def auxCommand (s : State) (q : Nat) : AuxCommand :=
  let req := rd s F.LANE_AUX_CMD_REQ q
  let n := rd s F.LANE_AUX_CMD_LEN q
  { req := req, addr := rd s F.LANE_AUX_CMD_ADDR q, len := n
    data := if bitOn req 0 then [] else ((upto 4).map fun k => leBytes (rd s F.LANE_AUX_DATA_DATA q k) 4).flatten.take n }

/-- The transmitter leaves whatever it does for a state; an AUX transaction that waited for training runs (R513). -/
def leaveTraining (s : State) (q state : Nat) : State :=
  let s := updQuad (wr s F.LANE_DPTX_STATUS_STATE q 0 state) q fun x => { x with trainWait := false }
  if (quadOf s q).aux = some false then auxRun s q else s

/-- Training fails with a cause (R511). -/
def trainFail (s : State) (q cause state : Nat) : State :=
  let s := updQuad (leaveTraining s q state) q fun x => { x with failAt := s.time.cyc }
  raise (wr s F.LANE_DPTX_STATUS_CAUSE q 0 cause) K.LANE_Q_EVENT_TRAIN_FAIL q

/-- A canvas that the transmitter carries has ADAPTIVE at 1 (R314). -/
def adaptive (s : State) (q : Nat) : Bool := (dpCanvases s q).any fun c => rdb s F.CNV_CTRL_ADAPTIVE c

/-- DPTX_TRAINING_START: HPD is high at an idle transmitter with EN 1 (R511); also after HPD fell in a training that failed. -/
def execDptxTrainingStart (q : Fin 16) (s : State) : Host.Outcome State Fault Refusal :=
  let q := q.val
  let st := rd s F.LANE_DPTX_STATUS_STATE q
  if quadUse s q ≠ 1 ∨ !(st == 0 || (st == 3 && !rdb s F.LANE_DPTX_STATUS_HPD q)) then .next s
  else .next (startTraining (wr s F.LANE_DPTX_STATUS_HPD q 0 1) q)

/-- The cause with which training ends, where the link procedure ends with `cause`: a sink that does not report MSA_TIMING_PAR_IGNORED fails it
with NO_ASYNC while ADAPTIVE is 1, unless it failed before its capabilities were judged (R314, R511; log entry 89). -/
def endCause (s : State) (q cause : Nat) (ignored : Bool) : Nat :=
  if adaptive s q && !ignored && (cause == 0 || cause == 4 || cause == 5) then 6 else cause

/-- The taps that realise a swing and a pre-emphasis level (R516): PRE is 0, MAIN and POST are free values within the field rules (log entry
151). -/
def dpTaps (level : Nat) : Nat :=
  let f := Config.dpTaps (level % 4) (level / 4 % 4)
  let main := 16 + f.1 % 48
  16 * main + 1024 * (f.2 % (min 31 (main - 16) + 1))

/-- Training sets the taps of the lanes in use to the levels that the sink requested last, by lane: swing in bits [1:0], pre-emphasis in bits [3:2]
(R516). -/
def setDpTaps (s : State) (q : Nat) (levels : List (BitVec 4)) : State :=
  each (levels.take (2 ^ rd s F.LANE_DPTX_CFG_LANES q)).zipIdx (fun s e => wrReg s R.LANE_TX_FIR (4 * q + e.2) 0 (dpTaps e.1.toNat)) s

/-- DPTX_TRAINING_END: the link procedure ends with a cause, 0 for success; the sink says whether it ignores MSA timing, and which levels it
requested; a cause over 5 is none of the procedure's. With ADAPTIVE the sink's MSA_TIMING_PAR_IGNORE_EN is set over AUX (R314, R511, R516,
R519). -/
def execDptxTrainingEnd (q : Fin 16) (result : TrainingEnd) (levels : List (BitVec 4)) (s : State) : Host.Outcome State Fault Refusal :=
  let q := q.val
  let known := decide (result.cause.toNat ≤ 5)
  let cause := endCause s q result.cause.toNat result.ignored
  if quadUse s q ≠ 1 ∨ rd s F.LANE_DPTX_STATUS_STATE q ≠ 1 ∨ !known then .next s
  else
  let s := setDpTaps s q levels
  if cause = 0 then
    let s := leaveTraining (if adaptive s q then emit s (.auxRequest q 8 0x107 1 [0x80]) else s) q 2
    .next (each (dpCanvases s q) (fun s c => updCnv s c fun x =>
      { x with dark := true, stopDue := false, glassOn := false, gesso := { x.gesso with start := true } }) s)
  else .next (trainFail (if cause = 1 then wr s F.LANE_DPTX_STATUS_HPD q 0 0 else s) q cause 3)

/-- DPTX_RETRY: RETRY_MS after a failure, with EN 1 and HPD high (R511). -/
def execDptxRetry (q : Fin 16) (s : State) : Host.Outcome State Fault Refusal :=
  let due := decide ((quadOf s q.val).failAt + msCyc (rd s F.LANE_DPTX_CFG_RETRY_MS q.val) ≤ s.time.cyc)
  .next (if rd s F.LANE_DPTX_STATUS_STATE q.val = 3 ∧ due then startTraining s q.val else s)

/-- The link of a trained transmitter is lost at the sink: LINK_LOSS, and video stops (R518). -/
def sinkLoss (s : State) (q : Nat) : State := stopVideo (raise s K.LANE_Q_EVENT_LINK_LOSS q) q

/-- HPD has been low for 2,001 samples: an unplug (R511, R512, R518). -/
def hpdUnplug (s : State) (q : Nat) : State :=
  let st := rd s F.LANE_DPTX_STATUS_STATE q
  if quadUse s q ≠ 1 then s
  else
    let s := wr s F.LANE_DPTX_STATUS_HPD q 0 0
    if st = 1 then trainFail s q 1 0
    else leaveTraining (if st = 2 then sinkLoss s q else s) q 0

/-- HPD_UNPLUG (R512). -/
def execHpdUnplug (q : Fin 16) (s : State) : Host.Outcome State Fault Refusal := .next (hpdUnplug s q.val)

/-- Lanes of a transmitter. -/
def txLanes (s : State) (q : Nat) : Nat := 2 ^ rd s F.LANE_DPTX_CFG_LANES q

/-- The sink's link status, DPCD 0x202 to 0x204 (log entry 33), reports a loss of clock recovery or symbol lock on a lane, or of alignment
(R512). -/
def lossSeen (s : State) (q : Nat) (status : List Byte) : Bool :=
  !bitOn (leAt status 2 1) 0 || (upto (txLanes s q)).any fun k => !bitOn (leAt status 0 2) (4 * k) || !bitOn (leAt status 0 2) (4 * k + 2)

/-- IRQ_HPD: a low of `low` samples has ended; `status` is the sink's link status as then read over AUX (R512). -/
def execIrqHpd (q : Fin 16) (low : BitVec 12) (status : List Byte) (s : State) : Host.Outcome State Fault Refusal :=
  let q := q.val
  let st := rd s F.LANE_DPTX_STATUS_STATE q
  if quadUse s q ≠ 1 ∨ low.toNat < 250 then .next s
  else if 2000 < low.toNat then .next (hpdUnplug s q)
  else if st = 1 then .next s
  else
    let s := raise s K.LANE_Q_EVENT_IRQ_HPD q
    .next (if st = 2 ∧ lossSeen s q status then startTraining (wr (sinkLoss s q) F.LANE_DPTX_STATUS_STATE q 0 0) q else s)

/-- A write of LANE_DPTX_CFG (R511, R524). -/
def writeDptxCfg (s : State) (q v m : Nat) : State :=
  let was := rdb s F.LANE_DPTX_CFG_EN q
  let now := regAfter s R.LANE_DPTX_CFG q 0 v m
  if quadUse s q ≠ 1 then s
  else if slice now 3 2 = 3 ∨ slice now 5 11 = 0 ∨ 2000 < slice now 5 11 then raise s K.LANE_Q_EVENT_CFG_REFUSED q
  else
    let s := wrReg s R.LANE_DPTX_CFG q 0 now
    if bitOn now 0 && !was then startTraining s q
    else if was && !bitOn now 0 then leaveTraining (stopVideo s q) q 0
    else s

/-! ### AUX transactions of a transmitter (R513) -/

/-- A write of LANE_AUX_CMD: the fields are taken, and START starts a transaction, which waits while training runs; LEN 0 or above 16 is refused.
One that is running or waiting goes on with the command that started it, and a further START is not taken (R513; log entry 33). -/
def writeAuxCmd (s : State) (q v m : Nat) : State :=
  if quadUse s q ≠ 1 then s
  else
    let s := wrReg s R.LANE_AUX_CMD q 0 (regAfter s R.LANE_AUX_CMD q 0 v m)
    let n := rd s F.LANE_AUX_CMD_LEN q
    if !bitOn (v &&& m) 31 then s
    else if n = 0 ∨ 16 < n then raise s K.LANE_Q_EVENT_AUX_ERR q
    else if (quadOf s q).aux.isSome then s
    else
      let s := updQuad (wr s F.LANE_AUX_STATUS_BUSY q 0 1) q fun x => { x with auxCmd := auxCommand s q }
      if rd s F.LANE_DPTX_STATUS_STATE q = 1 then updQuad s q fun x => { x with aux := some false } else auxRun s q

/-- AUX_START: a write of LANE_AUX_CMD with START at 1 (R513). -/
def execAuxStart (q : Fin 16) (value : BitVec 32) (s : State) : Host.Outcome State Fault Refusal :=
  .next (writeAuxCmd s q.val (value.toNat ||| 2 ^ 31) 0xFFFFFFFF)

/-- AUX_DONE: the running transaction ends with a reply, after up to 7 retries of a DEFER; bit 0 of the request is a read (R513). -/
def execAuxDone (q : Fin 16) (reply : BitVec 2) (bytes : List Byte) (s : State) : Host.Outcome State Fault Refusal :=
  let q := q.val
  if (quadOf s q).aux ≠ some true then .next s
  else
    let c := (quadOf s q).auxCmd
    let read := bitOn c.req 0
    let n := if !read && reply == 0 then c.len else min bytes.length c.len
    let s := wr (wr (wr s F.LANE_AUX_STATUS_BUSY q 0 0) F.LANE_AUX_STATUS_REPLY q 0 reply.toNat) F.LANE_AUX_STATUS_COUNT q 0 n
    let s := if read then
        each ((upto 4).filter fun k => decide (4 * k < n)) (fun s k =>
          wr s F.LANE_AUX_DATA_DATA q k (leNat (bytesAt (bytes.take n ++
            (leBytes (rd s F.LANE_AUX_DATA_DATA q k) 4).drop (n - 4 * k)) (4 * k) 4))) s
      else s
    let s := raise (updQuad s q fun x => { x with aux := none }) K.LANE_Q_EVENT_AUX_DONE q
    .next (if (quadOf s q).trainWait then startTraining (updQuad s q fun x => { x with trainWait := false }) q else s)

/-! ### Receivers (R514, R515) -/

/-- MAX_LINK_RATE of a rate code. -/
def linkRateCode (r : Nat) : Nat := [0x06, 0x0A, 0x14, 0x1E].getD r 0

/-- The rate code of a LINK_RATE_SET value, and the code of a lane count. -/
def rateOf (v : Nat) : Nat := if v = 0x1E then 3 else if v = 0x14 then 2 else if v = 0x0A then 1 else 0
def laneCode (n : Nat) : Nat := if n = 4 then 2 else if n = 2 then 1 else 0

/-- The lanes that the source uses: all four until it has written a count. -/
def rxLanes (s : State) (q : Nat) : List Nat := (quadLanes q).take (if (quadOf s q).laneCount = 0 then 4 else (quadOf s q).laneCount)

/-- Equalisation is complete: each lane is adapted and has symbol lock, and the lanes are aligned (R515). -/
def eqComplete (s : State) (q : Nat) : Bool :=
  ((rxLanes s q).all fun l => rdb s F.LANE_STATUS_ADAPTED l && rdb s F.LANE_STATUS_PCS_LOCK l) && (quadOf s q).together

/-- The training state of a lane as DPCD gives it: clock recovery, equalisation, symbol lock. -/
def laneTraining (s : State) (l : Nat) : Nat :=
  rd s F.LANE_STATUS_CDR_LOCK l + 2 * rd s F.LANE_STATUS_ADAPTED l + 4 * rd s F.LANE_STATUS_PCS_LOCK l

/-- The DPCD fields of R514 and R515 (addresses and encodings as DisplayPort 1.4 has them, PRESUMED, log entry 33). -/
def dpcd (s : State) (q a : Nat) : Option Nat :=
  let two := fun (k : Nat) => laneTraining s (4 * q + k) + 16 * laneTraining s (4 * q + k + 1)
  let want := rd s F.LANE_DPRX_CFG_REQ_SWING q + 4 * rd s F.LANE_DPRX_CFG_REQ_PRE q
  match a with
  | 0x000 => some 0x14
  | 0x001 => some (linkRateCode (rd s F.LANE_DPRX_CFG_MAX_RATE q))
  | 0x002 => some 0xC4
  | 0x003 => some (1 + 128 * bit (decide (rd s F.LANE_DPRX_CFG_MAX_RATE q = 3)))
  | 0x00E => some 0
  | 0x021 => some 0
  | 0x060 => some 0
  | 0x100 => some (quadOf s q).linkRate
  | 0x202 => some (two 0)
  | 0x203 => some (two 2)
  | 0x204 => some (bit (eqComplete s q))
  | 0x206 => some (want + 16 * want)
  | 0x207 => some (want + 16 * want)
  | 0x68028 => some 0
  | _ => none

/-- The bytes a native read returns; a field that no rule gives a value reads as a free value. -/
def dpcdRead (s : State) (q a n : Nat) : List Byte :=
  (upto n).map fun k => BitVec.ofNat 8 ((dpcd s q (a + k)).getD (Config.freeNat (s.free + k)))

/-- The receiver becomes trained (R515), unless a test field of its lanes is set (R522). -/
def rxTrained (s : State) (q : Nat) : State :=
  if (quadLanes q).any (testSet s) then s
  else
    let x := quadOf s q
    wr (wr (wr s F.LANE_DPRX_STATUS_TRAINED q 0 1) F.LANE_DPRX_STATUS_RATE q 0 (rateOf x.linkRate)) F.LANE_DPRX_STATUS_LANES q 0
      (laneCode (if x.laneCount = 0 then 4 else x.laneCount))

/-- One byte that the source writes to DPCD: LINK_BW_SET, LANE_COUNT_SET, TRAINING_PATTERN_SET; any other is acknowledged and ignored. -/
def dpcdWrite (s : State) (q a v : Nat) : State :=
  if a = 0x100 then updQuad s q fun x => { x with linkRate := v }
  else if a = 0x101 then updQuad s q fun x => { x with laneCount := if v % 32 = 1 ∨ v % 32 = 2 then v % 32 else 4 }
  else if a = 0x102 then
    if v % 16 ≠ 0 then wr (updQuad s q fun x => { x with eqDone := false }) F.LANE_DPRX_STATUS_TRAINED q 0 0
    else if (quadOf s q).eqDone then updQuad (rxTrained s q) q fun x => { x with eqDone := false } else s
  else s

/-- EDID byte `k` of a receiver. -/
def edidByte (s : State) (q k : Nat) : Byte := BitVec.ofNat 8 (rd s F.LANE_DPRX_EDID_EDID q (k % 256 / 4) / 256 ^ (k % 4))

/-- The receiver answers AUX: in use, with HPD_EN 1. -/
def rxAnswers (s : State) (q : Nat) : Bool := quadUse s q == 2 && rdb s F.LANE_DPRX_CFG_HPD_EN q

/-- DPRX_AUX_REQUEST: the receiver answers one request of the source: native reads and writes of DPCD, I2C reads and writes of the EDID at
0x50; another I2C address is not acknowledged (R514, R515). -/
def execDprxAuxRequest (q : Fin 16) (req : BitVec 4) (addr : BitVec 20) (bytes : List Byte) (len : BitVec 5) (s : State) :
    Host.Outcome State Fault Refusal :=
  let q := q.val
  let a := addr.toNat
  let n := min 16 len.toNat
  let bs := bytes.take 16
  if !rxAnswers s q then .next s
  else if req = 9 then
    let l := dpcdRead s q a n
    let seen := decide (a ≤ 0x202) && decide (0x204 < a + n) && eqComplete s q
    .next (emit (updQuad { s with free := s.free + n } q fun x => { x with eqDone := x.eqDone || seen }) (.aux q 0 l))
  else if req = 8 then .next (emit (each bs.zipIdx (fun s e => dpcdWrite s q (a + e.2) e.1.toNat) s) (.aux q 0 []))
  else if 8 ≤ req.toNat then .next (emit s (.aux q 1 []))
  else if a % 128 ≠ 0x50 then .next (emit s (.aux q 4 []))
  else if bitOn req.toNat 0 then
    let p := (quadOf s q).edidPos
    .next (emit (updQuad s q fun x => { x with edidPos := (p + n) % 256 }) (.aux q 0 ((upto n).map fun k => edidByte s q (p + k))))
  else .next (emit (updQuad s q fun x => { x with edidPos := match bs with | b :: _ => b.toNat | [] => x.edidPos }) (.aux q 0 []))

/-- DPRX_TRAINED: the source ends training, by its write of 0 to TRAINING_PATTERN_SET; the receiver becomes trained if equalisation was reported
done (R515). -/
def execDprxTrained (q : Fin 16) (s : State) : Host.Outcome State Fault Refusal :=
  .next (if rxAnswers s q.val then dpcdWrite s q.val 0x102 0 else s)

/-- A write of LANE_DPRX_CFG (R515, R524). -/
def writeDprxCfg (s : State) (q v m : Nat) : State :=
  let now := regAfter s R.LANE_DPRX_CFG q 0 v m
  if quadUse s q ≠ 2 then s
  else if 3 < slice now 3 2 + slice now 5 2 then raise s K.LANE_Q_EVENT_CFG_REFUSED q
  else
    let s := wrReg s R.LANE_DPRX_CFG q 0 now
    if bitOn now 0 then s else wr (updQuad s q fun x => { x with eqDone := false, pulse := false }) F.LANE_DPRX_STATUS_TRAINED q 0 0

/-- The receiver lost its link: LINK_LOSS, the frame being landed is closed, and HPD is pulsed low (R518). -/
def rxLoss (s : State) (q : Nat) : State :=
  let s := dpLoss (raise s K.LANE_Q_EVENT_LINK_LOSS q) q
  wr (updQuad s q fun x => { x with eqDone := false, pulse := rdb s F.LANE_DPRX_CFG_HPD_EN q }) F.LANE_DPRX_STATUS_TRAINED q 0 0

/-- HPD_PULSE_END: 0.5 ms after its start the low pulse ends (R518). -/
def execHpdPulseEnd (q : Fin 16) (s : State) : Host.Outcome State Fault Refusal :=
  .next (updQuad s q.val fun x => { x with pulse := false })

/-- The level that a receiver drives on HPD (R514, R518). -/
def hpdOut (s : State) (q : Nat) : Bool := rxAnswers s q && !(quadOf s q).pulse

/-! ### Lock (R506, R517, R518) -/

/-- QUAD_PLL_LOCK: a used quad's PLL locks (R506, R518). -/
def execQuadPllLock (q : Fin 16) (s : State) : Host.Outcome State Fault Refusal :=
  let q := q.val
  if quadUse s q = 0 ∨ (quadOf s q).pll then .next s
  else
    let s := setReady (updQuad s q fun x => { x with pll := true })
    .next (if rd s F.LANE_DPTX_STATUS_STATE q = 0 then startTraining s q else s)

/-- QUAD_PLL_LOCK_LOSS: a loss on every lane of the quad in both directions, and READY falls (R506, R518). -/
def execQuadPllLockLoss (q : Fin 16) (s : State) : Host.Outcome State Fault Refusal :=
  let q := q.val
  if quadUse s q = 0 ∨ !(quadOf s q).pll then .next s
  else
    let s := each (quadLanes q) lockLost (setReady (updQuad s q fun x => { x with pll := false, together := false }))
    .next (match quadUse s q with
      | 1 => leaveTraining (sinkLoss s q) q 0
      | 2 => rxLoss s q
      | 3 => each ((quadLanes q).filterMap (lanePort s)) ethDown s
      | _ => match lowest 4 fun n => portQuad s n == some q with
        | some n => if linked s n then portDown s n else each (upto 4) (fun s k => dropLane s n k) s
        | none => s)

/-- LANE_LOCK_LOSS: a receive lane loses its alignment, with the consequence of its port's use; whether its CDR still holds lock is a free
value (R518). A DP_TX quad uses no receive lanes. -/
def execLaneLockLoss (lane : Fin 64) (s : State) : Host.Outcome State Fault Refusal :=
  let l := lane.val
  let q := l / 4
  if quadUse s q ≤ 1 ∨ !hasLock s l then .next s
  else
    let cdr := rdb s F.LANE_STATUS_CDR_LOCK l && bitOn (freeNat s) 0
    let s := raise (wr (wr (draw s) F.LANE_STATUS_PCS_LOCK l 0 0) F.LANE_STATUS_CDR_LOCK l 0 (bit cdr)) K.LANE_EVENT_LOCK_LOST l
    let s := updQuad (if cdr then s else wr s F.LANE_STATUS_ADAPTED l 0 0) q fun x => { x with together := false }
    .next (match quadUse s q with
      | 2 => rxLoss s q
      | 3 => match lanePort s l with | some p => ethDown s p | none => s
      | _ => match lowest 4 fun n => portQuad s n == some q with
        | some n => dropLane s n (l % 4)
        | none => s)

/-- Every DFE tap has changed by at most one step; a tap is signed (R517, R525). -/
def settled (a : Adaptation) : Bool :=
  (upto 12).all fun k => decide (((a.after.getD k 0).toInt - (a.before.getD k 0).toInt).natAbs ≤ 1)

/-- LANE_CDR_LOCK: a receive lane's CDR gains or has lock, its PCS may gain alignment, and its equalisers adapt over 4,096 LANE cycles; ADAPTED is
set when every tap has settled. With FREEZE at 1 they hold their values (R515, R517). -/
def execLaneCdrLock (lane : Fin 64) (found : RxLock) (taps : Adaptation) (s : State) : Host.Outcome State Fault Refusal :=
  let l := lane.val
  let q := l / 4
  if quadUse s q ≤ 1 ∨ !(quadOf s q).pll then .next s
  else
    let frozen := rdb s F.LANE_RX_CFG_FREEZE l
    let s := updQuad (wr s F.LANE_STATUS_CDR_LOCK l 0 1) q fun x => { x with together := found.together }
    let s := if frozen || settled taps then wr s F.LANE_STATUS_ADAPTED l 0 1 else s
    let s := if frozen then s
      else each (taps.after.take 12).zipIdx (fun s e => wr s F.LANE_RX_DFE_TAP l e.2 e.1.toNat) (wr s F.LANE_STATUS_CTLE l 0 found.ctle.toNat)
    .next (if !found.aligned then s
      else match lowest 4 fun n => portQuad s n == some q with
        | some n => gainLock s n q (l % 4)
        | none => wr s F.LANE_STATUS_PCS_LOCK l 0 1)

/-! ### Equaliser taps and tests (R516, R520 to R522) -/

/-- A write of LANE_TX_FIR (R516). -/
def writeTxFir (s : State) (l v m : Nat) : State :=
  let now := regAfter s R.LANE_TX_FIR l 0 v m
  let main := slice now 4 6
  if quadUse s (l / 4) = 1 then s
  else if main < 16 ∨ main < slice now 0 4 + slice now 10 5 + 16 then raise s K.LANE_EVENT_CFG_REFUSED l
  else wrReg s R.LANE_TX_FIR l 0 now

/-- TX_FIR_WRITE (R516). -/
def execTxFirWrite (lane : Fin 64) (value : BitVec 32) (s : State) : Host.Outcome State Fault Refusal :=
  .next (writeTxFir s lane.val value.toNat 0xFFFFFFFF)

/-- The port that owns a lane is idle (R522). -/
def laneIdle (s : State) (l : Nat) : Bool :=
  let q := l / 4
  match quadUse s q with
  | 1 => !rdb s F.LANE_DPTX_CFG_EN q
  | 2 => !rdb s F.LANE_DPRX_CFG_HPD_EN q
  | 3 => match lanePort s l with | some p => !rdb s F.NET_MAC_CTRL_EN p | none => true
  | 4 => match lowest 4 fun n => portQuad s n == some q with | some n => !rdb s F.LNK_CFG_EN n | none => true
  | _ => true

/-- An enabled port whose lanes' test fields have become 0 comes up (R522). -/
def laneResume (s : State) (l : Nat) : State :=
  let q := l / 4
  match quadUse s q with
  | 1 => if rd s F.LANE_DPTX_STATUS_STATE q = 0 then startTraining s q else s
  | 4 => match lowest 4 fun n => portQuad s n == some q with | some n => startBringup s n | none => s
  | _ => s

/-- A write of LANE_TEST (R520 to R522). -/
def writeLaneTest (s : State) (l v m : Nat) : State :=
  let w := v &&& m
  let now := regAfter s R.LANE_TEST l 0 v m
  if (bitOn w 0 || bitOn w 1 || slice w 4 2 != 0) && !laneIdle s l then raise s K.LANE_EVENT_CFG_REFUSED l
  else
    let was := testSet s l
    let s := wrReg s R.LANE_TEST l 0 now
    let s := if bitOn w 1 then wr s F.LANE_PRBS_ERRS_ERRS l 0 0 else s
    let s := if bitOn now 1 then s else wr s F.LANE_STATUS_PRBS_LOCK l 0 0
    let s := updQuad s (l / 4) fun x =>
      { x with prbs := if bitOn now 1 then x.prbs else x.prbs.del l, gen := if bitOn now 0 then x.gen else x.gen.del l }
    if was && !testSet s l then laneResume s l else s

/-- LANE_TEST_WRITE (R522). -/
def execLaneTestWrite (lane : Fin 64) (value : BitVec 32) (s : State) : Host.Outcome State Fault Refusal :=
  .next (writeLaneTest s lane.val value.toNat 0xFFFFFFFF)

/-- The bit that a pattern has after the bits `l`, newest first, by its polynomial; the longer three are inverted (R520, log entry 128). -/
def prbsNext (pattern : Nat) (l : List Bool) : Bool :=
  let t := [(6, 7), (14, 15), (18, 23), (28, 31)].getD pattern (6, 7)
  (l.getD (t.1 - 1) false ^^ l.getD (t.2 - 1) false) ^^ decide (pattern ≠ 0)

/-- One received bit at a checker that has lock or not: it takes its reference from the received bits until 64 in a row have no error, then
runs on by itself, and loses lock after 16 errors within 64 bits. The last part says whether a bit in error is counted (R520). -/
def prbsBit (pattern : Nat) (x : Prbs) (lock b : Bool) : Prbs × Bool × Bool :=
  let want := prbsNext pattern x.shift
  let err := b != want
  if lock then
    let e := (err :: x.errors).take 64
    if 16 ≤ (e.filter id).length then ({}, false, err) else ({ x with shift := (want :: x.shift).take 31, errors := e }, true, err)
  else
    let run := if err || decide (x.shift.length < [7, 15, 23, 31].getD pattern 7) then 0 else x.run + 1
    ({ shift := (b :: x.shift).take 31, run := run }, decide (64 ≤ run), false)

/-- The bits of a lane's PRBS generator over `n` bit times, from the bits sent before, newest first: what was sent with them, newest first. A
generator that starts holds ones before the inversion (R520; log entry 128). -/
def prbsSend (pattern n : Nat) (sent : List Bool) : List Bool :=
  (upto n).foldl (fun l _ => prbsNext pattern l :: l) sent

/-- PRBS_SYNC: some bit times pass on a lane under test, in which `first` and `more` reach it, oldest first. Its generator sends; the near-end loops
return what it sends to the receiver, the far-end loop sends what it receives. The checker gains or loses lock, and the bits in error while it
has lock count (R520, R521; log entry 128). -/
def execPrbsSync (lane : Fin 64) (first : Bool) (more : List Bool) (s : State) : Host.Outcome State Fault Refusal :=
  let l := lane.val
  let pattern := rd s F.LANE_TEST_PATTERN l
  let loop := rd s F.LANE_TEST_LOOP l
  let came := first :: more
  let gen := rdb s F.LANE_TEST_GEN_EN l
  let sent := prbsSend pattern came.length ((quadOf s (l / 4)).gen.get l (List.replicate 31 (pattern == 0)))
  let own := (sent.take came.length).reverse
  let bits := if gen && (loop == 1 || loop == 2) then own else came
  let s := if gen then updQuad s (l / 4) fun x => { x with gen := x.gen.put l (sent.take 31) } else s
  let s := if loop = 3 then emit s (.testBits l came) else if gen then emit s (.testBits l own) else s
  if !rdb s F.LANE_TEST_CHK_EN l then .next s
  else
    let r := bits.foldl (fun (a : Prbs × Bool × Nat) b =>
      let x := prbsBit pattern a.1 a.2.1 b
      (x.1, x.2.1, a.2.2 + bit x.2.2)) ((quadOf s (l / 4)).prbs.get l {}, rdb s F.LANE_STATUS_PRBS_LOCK l, 0)
    let s := updQuad (addSat s F.LANE_PRBS_ERRS_ERRS l r.2.2) (l / 4) fun x => { x with prbs := x.prbs.put l r.1 }
    .next (wr s F.LANE_STATUS_PRBS_LOCK l 0 (bit r.2.1))

end Sys2Proof.Machine
end

