-- ==== Sys2Proof/Machine/Prot.lean ====
section
/-!
DEFINITION. Protection updates: holds, region writes and the moment a configuration takes effect (R578, R583 to R587).
-/

namespace Sys2Proof.Machine

/-- PRT_HOLD.REQ 1: the unit's group presents no new transaction (R583). -/
def holdRequest (s : State) (u : Nat) : State := wr s F.PRT_HOLD_REQ u 0 1

/-- PRT_HOLD_REQUEST (R583). -/
def execPrtHoldRequest (u : Fin 13) (s : State) : Host.Outcome State Fault Refusal := .next (holdRequest s u.val)

/-- PRT_HOLD_HELD: HELD is set while the request stands (R583). -/
def execPrtHoldHeld (u : Fin 13) (s : State) : Host.Outcome State Fault Refusal :=
  .next (if rdb s F.PRT_HOLD_REQ u.val then wr s F.PRT_HOLD_HELD u.val 0 1 else s)

/-- Enabled regions of a unit whose END is below START (R578). -/
def emptyRegions (s : State) (u : Nat) : List Nat :=
  (upto 16).filter fun r => rdb s F.PRT_RGN_ATTR_EN u r && decide (rd s F.PRT_RGN_END_END u r < rd s F.PRT_RGN_START_START u r)

/-- PRT_HOLD.REQ 0: the hold ends; UPD_REFUSED is raised for each enabled region that covers nothing (R578, R583). -/
def holdRelease (s : State) (u : Nat) : State :=
  if !rdb s F.PRT_HOLD_REQ u then s
  else
    let s := each (emptyRegions s u) (fun s _ => raise s K.PRT_EVENT_UPD_REFUSED u) (wr s F.PRT_HOLD_REQ u 0 0)
    { s with prt := { s.prt with releasing := s.prt.releasing ++ [u] } }

/-- PRT_HOLD_RELEASE (R583). -/
def execPrtHoldRelease (u : Fin 13) (s : State) : Host.Outcome State Fault Refusal := .next (holdRelease s u.val)

/-- The unit's configuration comes into effect as its registers stand (R583). -/
def takeConfig (s : State) (u : Nat) : State :=
  let put := fun (m : Map Word) (r : Reg) (j : Nat) => m.put (r.addr u j) (BitVec.ofNat 64 (rdReg s r u j))
  let m := put s.prt.eff R.PRT_CTRL 0
  let m := (upto 16).foldl (fun m j => put (put (put m R.PRT_RGN_START j) R.PRT_RGN_END j) R.PRT_RGN_ATTR j) m
  { s with prt := { s.prt with eff := m } }

/-- PRT_CONFIG_EFFECT: 2 FAB cycles after the release the new configuration takes effect and HELD clears (R583). -/
def execPrtConfigEffect (u : Fin 13) (s : State) : Host.Outcome State Fault Refusal :=
  if !s.prt.releasing.contains u.val then .next s
  else
    let s := takeConfig s u.val
    .next (wr { s with prt := { s.prt with releasing := s.prt.releasing.filter (· != u.val) } } F.PRT_HOLD_HELD u.val 0 0)

/-- A write of PRT_CTRL: DEFAULT changes only under a hold, and without one the write is refused as far as DEFAULT goes, whatever value it
brings (log entry 20); LOCK and INT_EN as R17 and R18 say (R584, R586). -/
def writePrtCtrl (s : State) (u v m : Nat) : State :=
  let new := regAfter s R.PRT_CTRL u 0 v m
  if rdb s F.PRT_HOLD_HELD u then wrReg s R.PRT_CTRL u 0 new
  else raise (wrReg s R.PRT_CTRL u 0 (setBits new 0 2 (rd s F.PRT_CTRL_DEFAULT u))) K.PRT_EVENT_UPD_REFUSED u

/-- A write of a region register: refused while HELD is 0 or the region is locked (R584, R586). -/
def writeRegion (s : State) (r : Reg) (u j v m : Nat) : State :=
  if !rdb s F.PRT_HOLD_HELD u || rdb s F.PRT_RGN_ATTR_LOCK u j then raise s K.PRT_EVENT_UPD_REFUSED u
  else writeReg s r u j v m

/-- A write to the configuration of a unit, by register. -/
def writeProt (s : State) (l : Located) (v m : Nat) : State :=
  if l.reg.base = R.PRT_CTRL.base then writePrtCtrl s l.i v m
  else if l.reg.base = R.PRT_RGN_START.base ∨ l.reg.base = R.PRT_RGN_END.base ∨ l.reg.base = R.PRT_RGN_ATTR.base then
    writeRegion s l.reg l.i l.j v m
  else s

/-- PRT_REGION_WRITE: a write of PRT_CTRL or of a region register (R584, R586). -/
def execPrtRegionWrite (off : BitVec 26) (value : BitVec 64) (s : State) : Host.Outcome State Fault Refusal :=
  match locate off.toNat with
  | none => .next s
  | some l => .next (if l.upper then writeProt s l (value.toNat % 2 ^ 32 * 2 ^ 32) 0xFFFFFFFF00000000 else writeProt s l value.toNat (fullMask l.reg))

end Sys2Proof.Machine
end

