-- ==== Sys2Proof/Machine/RegView.lean ====
section
/-!
DEFINITION. What a register reads as (R15 to R20, R554): the stored value, or what the block shows at the moment of the read.
-/

namespace Sys2Proof.Machine

/-! ### Registers that show what a block holds -/

/-- The 16 bytes of descriptor `n` as a number (R228, R262); an unbound descriptor reads 0. -/
def descView (s : State) (n : Nat) : Nat :=
  let x := descOf s n
  let code := match x.st with | .free => 0 | .filling => 1 | .current => 2 | .superseded => 3 | .retiring => 4
  if !x.bound then 0
  else x.base + 2 ^ 40 * x.pool + 2 ^ 48 * (code + 8 * bit x.ownerHost + 16 * bit x.refS + 32 * bit x.refL + 64) +
    2 ^ 64 * x.source + 2 ^ 80 * x.leases + 2 ^ 96 * x.seq

/-- Buffers bound to a pool, and those of them in FREE (R260). -/
def poolBuffers (s : State) (p : Nat) (free : Bool) : Nat :=
  (s.eas.descs.filter fun e => e.2.bound && e.2.pool == p && (!free || e.2.st == .free)).length

/-- The registers of the Easel that show its state (R259 to R261). -/
def easView (s : State) (l : Located) : Option Nat :=
  let b := l.reg.base
  let p := s.eas.pools.get l.i {}
  if b = R.EAS_FREE.base then some (8192 - (s.eas.descs.filter fun e => e.2.bound).length + 2 ^ 16 * activeSources s)
  else if b = R.EAS_POOL_CLASS.base then some (p.format + 16 * p.width + 2 ^ 18 * p.height)
  else if b = R.EAS_POOL_COUNT.base then some (poolBuffers s l.i false + 2 ^ 16 * poolBuffers s l.i true)
  else if b = R.EAS_POOL_BYTES.base then some (if p.format = 0 then 0 else bufBytes p.format p.width p.height / 4096)
  else if b = R.EAS_GAL_PEND.base then
    let g := galOf s l.i
    some (bit g.pend.isSome + 2 * bit (g.pend.any fun c => c.at?.isSome) + 4 * bit g.snap.isSome + 8 * (stagedIn s l.i).length)
  else none

/-- STATE of a sequencer (R435). -/
def seqCode (q : Seq) : Nat := match q.run with | .halted => 0 | .running => 1 | .waiting => 2 | .faulted => 3

/-- The registers of a sequencer that show its state (R420, R435). -/
def seqView (s : State) (l : Located) : Option Nat :=
  let b := l.reg.base
  let q := seqOf s l.i
  if b = R.SEQ_STATE.base then some (seqCode q + 4 * bit q.user + 8 * q.posted.length)
  else if b = R.SEQ_PC.base then some (q.pc % 2 ^ 14)
  else if b = R.SEQ_REG.base then some (if loadable q then (sreg q l.j).toNat else 0)
  else if b = R.SEQ_EV_MASK.base then some (q.mask.get l.j 0).toNat
  else if b = R.SEQ_EV_PEND.base then some (leNat ((upto 8).map fun k => BitVec.ofNat 8 (q.pend.get (8 * l.j + k) 0)))
  else none

/-- Free budgets and counts of the media blocks, the composer and the Ledger (R136, R172, R195, R220, R300, R301, R378). -/
def budgetView (s : State) (l : Located) : Option Nat :=
  let b := l.reg.base
  if b = R.NET_FLOW_FREE.base then some (flowFree s)
  else if b = R.SLU_CARRY_FREE.base then some (carryFree s)
  else if b = R.VDC_CAP_STREAMS.base then some (admittedStr s).length
  else if b = R.VDC_CAP_PIX.base then some (vdcPixFree s)
  else if b = R.VDC_CAP_KBPS.base then some (kbpsFree s l.j)
  else if b = R.VEN_CAP.base then some ((admittedSes s).length + 2 ^ 16 * venPixFree s)
  else if b = R.CMP_ENG_MAP.base then some ((upto 32).foldl (fun a c => if engineOf s c = l.i then a + 2 ^ c else a) 0)
  else if b = R.CMP_STORE_FREE.base then some (storeFree s)
  else if b = R.CMP_SPILL_FREE.base then some (spillFree s)
  else if b = R.LDG_LAYER_STATUS.base then some (layerStatus s l.i)
  else if b = R.TCH_NODE.base then
    let x := s.tch.get l.i {}
    some (unsignedOf 24 (x.vals.get l.j 0) + 2 ^ 32 * unsignedOf 24 (x.base.get l.j 0))
  else none

/-- Fields of a use other than the quad's read 0 (R524). -/
def quadView (s : State) (l : Located) : Option Nat :=
  let b := l.reg.base
  if (b = R.LANE_DPTX_CFG.base ∨ b = R.LANE_DPTX_STATUS.base ∨ b = R.LANE_AUX_CMD.base ∨ b = R.LANE_AUX_STATUS.base ∨
      b = R.LANE_AUX_DATA.base) ∧ quadUse s l.i ≠ 1 then some 0
  else if (b = R.LANE_DPRX_CFG.base ∨ b = R.LANE_DPRX_STATUS.base ∨ b = R.LANE_DPRX_EDID.base) ∧ quadUse s l.i ≠ 2 then some 0
  else none

/-- The whole of a register. -/
def readLocated (s : State) (l : Located) : Nat :=
  ([easView, seqView, budgetView, quadView].findSome? fun f => f s l).getD (rdReg s l.reg l.i l.j)

/-! ### Accesses by offset (R16, R504, R554) -/

/-- 4 bytes of the descriptor window (R262) or of the Journal's staging window (R504). -/
def windowWord (s : State) (off : Nat) : Option Nat :=
  if 0x1810000 ≤ off ∧ off < 0x1830000 then some (slice (descView s ((off - 0x1810000) / 16)) (8 * (off % 16)) 32)
  else if 0x3840000 ≤ off ∧ off < 0x3880000 then
    some (leAt (s.jnl.staging.get ((off - 0x3840000) / 128) []) (off % 128) 4)
  else none

/-- A 4-byte read; an offset that hits no register reads 0 (R554). -/
def readWord (s : State) (off : Nat) : Nat :=
  match windowWord s off with
  | some v => v
  | none => match locate off with
    | none => 0
    | some l => slice (readLocated s l) (if l.upper then 32 else 0) 32

/-- An access of 8 bytes that falls on two 32-bit registers (R554). -/
def splitAccess (s : State) (off : Nat) : Bool := (windowWord s off).isNone && (locate off).any fun l => !l.reg.wide

/-- A read of 4 or 8 bytes of register space. -/
def readSpace (s : State) (off n : Nat) : List Byte :=
  if n = 8 then leBytes (readWord s off + 2 ^ 32 * readWord s (off + 4)) 8 else leBytes (readWord s off) n

end Sys2Proof.Machine
end

