-- ==== Sys2Proof/Machine/RegWrite.lean ====
section
/-!
DEFINITION. What a write to a register does: the generic rules of R15 to R22 and R652 to R654, and the registers whose writes start or
refuse something (the chapters' own rules). A trigger bit does here what its command does.
-/

namespace Sys2Proof.Machine

/-- A field of a written value. -/
def part (f : Fld) (v : Nat) : Nat := slice v f.lo f.w
/-- A one-bit field of a written value. -/
def partOn (f : Fld) (v : Nat) : Bool := part f v != 0

/-! ### Crossbar and mailbox (R558, R564, R571, R572) -/

/-- XBR_MRESET.START: the reset edge (R564). -/
def masterReset (s : State) (m : Nat) : State :=
  if !allMasters.contains m then s
  else shimReset s m

/-- The target of port `k`. -/
def portTarget (k : Nat) : Target := if k < 8 then .dram else if k = 8 then .varnish else if k = 9 then .window else .register

/-- A write of XBR_PARKk: a master that is not connected to the port leaves the field unchanged (R574). -/
def writePark (s : State) (k v m : Nat) : State :=
  let now := regAfter s R.XBR_PARK 0 k v m
  if allMasters.contains now && connected now (portTarget k) then wrReg s R.XBR_PARK 0 k now else s

/-- GLB_MBX_DOORBELL.H2D signals the mailbox event (R571, R657). -/
def doorbellH2d (s : State) : State := signal s 138
/-- GLB_MBX_DOORBELL.D2H raises the mailbox interrupt (R571, R658). -/
def doorbellD2h (s : State) : State := raiseVector s 3

/-- A write of GLB_MBX_ATTACH (R572). -/
def mbxAttach (s : State) (version : Nat) : State :=
  if version = 2 then wr0 s F.GLB_MBX_STATE_ATTACHED 1
  else raise (wr0 (wr0 s F.GLB_MBX_STATE_ATTACHED 0) F.GLB_MBX_STATE_FOUND version) K.GLB_MBX_STATE_ATT_REFUSED

/-- MBX_DOORBELL_H2D (R571). -/
def execMbxDoorbellH2d (s : State) : Host.Outcome State Fault Refusal := .next (doorbellH2d s)
/-- MBX_DOORBELL_D2H (R571). -/
def execMbxDoorbellD2h (s : State) : Host.Outcome State Fault Refusal := .next (doorbellD2h s)
/-- MBX_ATTACH (R572). -/
def execMbxAttach (version : BitVec 8) (s : State) : Host.Outcome State Fault Refusal := .next (mbxAttach s version.toNat)
/-- MASTER_RESET (R564). -/
def execMasterReset (master : BitVec 7) (s : State) : Host.Outcome State Fault Refusal := .next (masterReset s master.toNat)

/-! ### Generic writes -/

/-- A write by the generic rules; CNT_CLR clears the counts that it names, beside any flag the same write clears (R17, R22, R652, R654). -/
def writeGeneric (s : State) (l : Located) (v m : Nat) : State :=
  let s := writeReg s l.reg l.i l.j v m
  if bitOn (v &&& m) 31 && cntClr.any (fun x => x.1.base == l.reg.base) then clearCounts s l.reg l.i else s

/-! ### Registers with rules of their own, by block -/

/-- Global, power and self-test registers. -/
def writeGlobal (s : State) (l : Located) (v m : Nat) : Option State :=
  let b := l.reg.base
  let w := v &&& m
  if b = R.GLB_MBX_ATTACH.base then some (mbxAttach s (slice w 0 8))
  else if b = R.GLB_MBX_DOORBELL.base then
    some (also (partOn F.GLB_MBX_DOORBELL_D2H w) doorbellD2h (also (partOn F.GLB_MBX_DOORBELL_H2D w) doorbellH2d s))
  else if b = R.PWR_CTRL.base then
    some (also (partOn F.PWR_CTRL_WARM w && s.pwr.phase == .main) warmReset (writeGeneric s l v m))
  else if b = R.PWR_STILL_CMD.base then some (also (partOn F.PWR_STILL_CMD_ENTER w) stillEnter s)
  else if b = R.PWR_BOOT_GO.base then some (also (partOn F.PWR_BOOT_GO_GO w) bootGo s)
  else if b = R.PWR_OTP_CMD.base then
    let slot := part F.PWR_OTP_CMD_SLOT w
    some (also (partOn F.PWR_OTP_CMD_REVOKE w) (fun s => otpCommand s slot false)
      (also (partOn F.PWR_OTP_CMD_PROGRAM w) (fun s => otpCommand s slot true) s))
  else if b = R.PWR_RTC_SEC.base then some (rtcSet s (regAfter s l.reg l.i l.j v m % 2 ^ 48))
  else if b = R.BST_CMD.base then
    some (also (partOn F.BST_CMD_MBIST w) (fun s => bistStart s false) (also (partOn F.BST_CMD_LBIST w) (fun s => bistStart s true) s))
  else none

/-- A write of DMC_ECC_EN: none while a channel is not OFF, and none of a value with a region at or above the populated size (R592,
R594). -/
def writeEccEn (s : State) (l : Located) (v m : Nat) : State :=
  let off := (upto 8).all fun c => rd s F.DMC_CH_STATUS_STATE c == 0
  let regions := 2 ^ (rd s F.DMC_CTRL_ROW_BITS - 11)
  if off && decide (regAfter s l.reg l.i l.j v m < 2 ^ regions) then writeGeneric s l v m else s

/-- Crossbar, protection and DRAM registers. -/
def writeMemory (s : State) (l : Located) (v m : Nat) : Option State :=
  let b := l.reg.base
  let w := v &&& m
  if b = R.XBR_MRESET.base then some (also (partOn F.XBR_MRESET_START w) (fun s => masterReset s (part F.XBR_MRESET_MASTER w)) s)
  else if b = R.XBR_PARK.base then some (writePark s l.j v m)
  else if b = R.PRT_HOLD.base then
    some (if !bitOn m 0 then s else if bitOn v 0 then holdRequest s l.i else holdRelease s l.i)
  else if b = R.PRT_CTRL.base ∨ b = R.PRT_RGN_START.base ∨ b = R.PRT_RGN_END.base ∨ b = R.PRT_RGN_ATTR.base then some (writeProt s l v m)
  else if b = R.DMC_CTRL.base then
    some (also (partOn F.DMC_CTRL_RESET w) dramReset (also (partOn F.DMC_CTRL_INIT w) startInit (writeGeneric s l v m)))
  else if b = R.DMC_ECC_EN.base then some (writeEccEn s l v m)
  else if b = R.DMC_FREQ.base then some (also (partOn F.DMC_FREQ_START w) (fun s => freqRequest s (part F.DMC_FREQ_SETPOINT w)) s)
  else none

/-- Lane and Ndosin registers. -/
def writeLanes (s : State) (l : Located) (v m : Nat) : Option State :=
  let b := l.reg.base
  let w := v &&& m
  if b = R.LANE_QUAD_COMMIT.base then some (also (partOn F.LANE_QUAD_COMMIT_COMMIT w) quadCommit (writeGeneric s l v m))
  else if b = R.LANE_DPTX_CFG.base then some (writeDptxCfg s l.i v m)
  else if b = R.LANE_DPRX_CFG.base then some (writeDprxCfg s l.i v m)
  else if b = R.LANE_AUX_CMD.base then some (writeAuxCmd s l.i v m)
  else if b = R.LANE_AUX_DATA.base then some (if quadUse s l.i = 1 then writeGeneric s l v m else s)
  else if b = R.LANE_DPRX_EDID.base then some (if quadUse s l.i = 2 then writeGeneric s l v m else s)
  else if b = R.LANE_TX_FIR.base then some (writeTxFir s l.i v m)
  else if b = R.LANE_TEST.base then some (writeLaneTest s l.i v m)
  else if b = R.LNK_CFG.base then some (writeLnkCfg s l.i v m)
  else none

/-- A write of NET_MAC_CTRL: a port whose EN becomes 0 goes down (R135). -/
def writeMacCtrl (s : State) (l : Located) (v m : Nat) : State :=
  let was := rdb s F.NET_MAC_CTRL_EN l.i
  let s := writeGeneric s l v m
  if was && !rdb s F.NET_MAC_CTRL_EN l.i then ethDown s l.i else s

/-- Network, time, Sluice and codec registers. -/
def writeMedia (s : State) (l : Located) (v m : Nat) : Option State :=
  let b := l.reg.base
  let w := v &&& m
  if b = R.PTP_CTRL.base then some (writePtpCtrl s v m)
  else if b = R.NET_MAC_CTRL.base then some (writeMacCtrl s l v m)
  else if b = R.NET_FLOW_CMD.base then some (flowCmdWrite s (part F.NET_FLOW_CMD_OP w) (part F.NET_FLOW_CMD_INDEX w))
  else if b = R.SLU_CTX_CMD.base then some (also (partOn F.SLU_CTX_CMD_APPLY w) (fun s => sluApply s l.i) s)
  else if b = R.VDC_CMD.base then some (vdcCmdWrite s (part F.VDC_CMD_OP w) (part F.VDC_CMD_STREAM w))
  else if b = R.VEN_CMD.base then some (venCmdWrite s (part F.VEN_CMD_OP w) (part F.VEN_CMD_SESSION w))
  else if b = R.CHK_CTRL.base then some (writeChkCtrl s l.i v m)
  else if chkConfig.any fun r => r.base == b then some (writeChkConfig s l.reg l.i l.j v m)
  else none

/-- Easel, composer, canvas and Ledger registers (R256, R264, R301, R316, R317, R318, R377). -/
def writeWall (s : State) (l : Located) (v m : Nat) : Option State :=
  let b := l.reg.base
  let w := v &&& m
  let now := regAfter s l.reg l.i l.j v m
  if b = R.EAS_CMD.base then some (easCmdWrite s (part F.EAS_CMD_OP w))
  else if b = R.EAS_SRC_WINDOW.base then
    let n := part F.EAS_SRC_WINDOW_COUNT now
    some (if 1 ≤ n ∧ part F.EAS_SRC_WINDOW_BASE now + n ≤ 4096 then writeGeneric s l v m else s)
  else if b = R.EAS_LT_BASE.base then some (if (upto 32).any fun c => rdb s F.CNV_CTRL_EN c then s else writeGeneric s l v m)
  else if b = R.CMP_SPILL_ADDR.base ∨ b = R.CMP_SPILL_SIZE.base then some (if anySpilled s then s else writeGeneric s l v m)
  else if b = R.CMP_CNV_CFG.base then
    let keep := setBits now F.CMP_CNV_CFG_ENGINE.lo F.CMP_CNV_CFG_ENGINE.w (engineOf s l.i)
    let t := wrReg (noteConfig s l.i) l.reg l.i l.j keep
    some (if part F.CMP_CNV_CFG_ENGINE m = 0 then t else engineWrite t l.i (part F.CMP_CNV_CFG_ENGINE now))
  else if b = R.CMP_CNV_BG.base then some (writeGeneric (noteConfig s l.i) l v m)
  else if b = R.CNV_GAL_CTRL.base then some (writeGalCtrl s l.i v m)
  else if b = R.CNV_GAL_PLL.base ∨ b = R.CNV_GAL_HV.base ∨ b = R.CNV_GAL_VB.base ∨ b = R.CNV_GAL_VSYNC.base then
    some (if rdb s F.CNV_GAL_CTRL_EN l.i then s else writeGeneric s l v m)
  else if b = R.CNV_CTRL.base then some (writeCnvCtrl s l.i v m)
  else if b = R.CNV_WEIR.base then
    let low := part F.CNV_WEIR_LOW now
    let panic := part F.CNV_WEIR_PANIC now
    let under := part F.CNV_WEIR_UNDER now
    some (if 1 ≤ under ∧ under < panic ∧ panic < low ∧ low ≤ 30 then writeGeneric s l v m else s)
  else if b = R.LDG_SET_DL.base then
    some (setDeadline s (part F.LDG_SET_DL_LAYER w) (part F.LDG_SET_DL_DEADLINE_MS w) (part F.LDG_SET_DL_WARN_PCT w)).1
  else if b = R.LDG_PROOF_CMD.base then
    some (also (partOn F.LDG_PROOF_CMD_START w)
      (fun s => (proofStart s (part F.LDG_PROOF_CMD_LAYER w) (part F.LDG_PROOF_CMD_KIND w) (part F.LDG_PROOF_CMD_ROW w)).1) s)
  else none

/-- Tandem, sequencer, touch, compression and Journal registers (R404, R415 to R423, R478, R479, R489, R495 to R503). -/
def writeControl (s : State) (l : Located) (v m : Nat) : Option State :=
  let b := l.reg.base
  let w := v &&& m
  if b = R.TND_CTRL.base then
    let was := rdb s F.TND_CTRL_EN
    let s := writeGeneric s l v m
    some (also (was && !rdb s F.TND_CTRL_EN) unpair s)
  else if b = R.TND_CMD.base then
    some (also (partOn F.TND_CMD_RESYNC w) startResync (also (partOn F.TND_CMD_YIELD w) (fun s => wr0 s F.TND_STATUS_FAULT 1) s))
  else if b = R.SEQ_SIGNAL.base then some (seqSignal s (part F.SEQ_SIGNAL_NUMBER w))
  else if b = R.SEQ_CMD.base then
    let s := also (partOn F.SEQ_CMD_HALT w) (fun s => haltSeq s l.i) (also (partOn F.SEQ_CMD_START w) (fun s => seqStart s l.i) s)
    some (also (partOn F.SEQ_CMD_STEP w) (fun s => seqStep s l.i) (also (partOn F.SEQ_CMD_RESUME w) (fun s => resumeSeq s l.i) s))
  else if b = R.SEQ_REG.base then
    let q := seqOf s l.i
    some (seqRegWrite s l.i l.j ((sreg q l.j &&& ~~~(BitVec.ofNat 64 m)) ||| BitVec.ofNat 64 w))
  else if b = R.SEQ_EV_MASK.base then
    some (updSeq s l.i fun q => { q with mask := q.mask.put l.j ((q.mask.get l.j 0 &&& ~~~(BitVec.ofNat 64 m)) ||| BitVec.ofNat 64 w) })
  else if b = R.TCH_TEST_CMD.base then some (also (partOn F.TCH_TEST_CMD_START w) (fun s => testStart s l.i) s)
  else if touchConfig.any fun r => r.base == b then some (writeTouch s l v m)
  else if b = R.CPR_TAIL.base then
    let t := part F.CPR_TAIL_TAIL (regAfter s l.reg l.i l.j v m)
    some (if t < cprRing s l.i then wr s F.CPR_TAIL_TAIL l.i 0 t else s)
  else if b = R.CPR_RING_BASE.base then
    some (if rd s F.CPR_HEAD_HEAD l.i = rd s F.CPR_TAIL_TAIL l.i then writeGeneric s l v m else s)
  else if b = R.JNL_ACK.base then
    let s := writeGeneric s l v m
    some { s with jnl := { s.jnl with bounded := false } }
  else if b = R.JNL_EVID_RPTR.base then
    let t := writeGeneric s l v m
    some (if rd t F.JNL_EVID_RPTR_RPTR = rd s F.JNL_EVID_RPTR_RPTR then t else { t with jnl := { t.jnl with evidFull := false } })
  else if b = R.JNL_HEAD_CAPTURE.base then some (also (partOn F.JNL_HEAD_CAPTURE_CAPTURE w) captureHead s)
  else if b = R.JNL_HOST_CMD.base then
    some (if partOn F.JNL_HOST_CMD_APPEND w && rdb s F.JNL_CTRL_EN then askJournal s rankHost 0x0070 (hostPayload s) else s)
  else if b = R.JNL_EVID_CMD.base then
    some (also (partOn F.JNL_EVID_CMD_START w) (fun s => evidStart s (part F.JNL_EVID_CMD_CANVAS w) false) s)
  else none

/-- A write of a register: `v` under a mask, both in the register's own bit positions. -/
def writeLocated (s : State) (l : Located) (v m : Nat) : State :=
  match [writeGlobal, writeMemory, writeLanes, writeMedia, writeWall, writeControl].findSome? fun f => f s l v m with
  | some t => t
  | none => writeGeneric s l v m

/-! ### Accesses by offset (R16, R554) -/

/-- A 4-byte write; an offset that hits no register ignores it (R554). -/
def writeWord32 (s : State) (off v : Nat) : State :=
  match locate off with
  | none => s
  | some l => if l.upper then writeLocated s l (v % 2 ^ 32 * 2 ^ 32) (2 ^ 64 - 2 ^ 32) else writeLocated s l (v % 2 ^ 32) (2 ^ 32 - 1)

/-- A write of register space: 8 bytes act on a 64-bit register at one edge, and on two 32-bit registers one after the other. -/
def writeSpace (s : State) (off : Nat) (wide : Bool) (v : Nat) : State :=
  if !wide then writeWord32 s off v
  else match locate off with
    | some l => if l.reg.wide && !l.upper then writeLocated s l (v % 2 ^ 64) (2 ^ 64 - 1)
                else writeWord32 (writeWord32 s off v) (off + 4) (v / 2 ^ 32)
    | none => writeWord32 (writeWord32 s off v) (off + 4) (v / 2 ^ 32)

/-- REGISTER_WRITE: a write of 4 or 8 bytes at an offset; one that is not aligned to its size is no access of register space (R553, R652). -/
def execRegisterWrite (off : BitVec 26) (wide : Bool) (value : BitVec 64) (s : State) : Host.Outcome State Fault Refusal :=
  .next (if off.toNat % (if wide then 8 else 4) = 0 then writeSpace s off.toNat wide value.toNat else s)

/-- BLOCK_LOCK_SET: a write of a register that holds a block lock; its RWL fields take the values of the same write (R18). -/
def execBlockLockSet (off : BitVec 26) (value : BitVec 32) (s : State) : Host.Outcome State Fault Refusal :=
  match locate off.toNat with
  | none => .next s
  | some l => .next (if l.reg.fields.any fun f => f.acc == .w1s then writeWord32 s off.toNat value.toNat else s)

end Sys2Proof.Machine
end

