-- ==== Sys2Proof/Machine/Fabric.lean ====
section
/-!
DEFINITION. The fabric: accesses of register space, the posted writes and reads of sequencers, the requests of the host and of the debug
master through their shims and the target ports, MSI-X (R429, R430, R550 to R574, R577, R582).
-/

namespace Sys2Proof.Machine

/-! ### Accesses that have passed their checks -/

/-- A read of any target: the state, an error and the data. -/
def fabRead (s : State) (a n : Nat) : State × Nat × List Byte :=
  if targetOf a = some .register then (s, 0, readSpace s (a - 0x1800000000) n) else targetRead s a n

/-- A write of any target: the state and an error. -/
def fabWrite (s : State) (a : Nat) (l : List Byte) (holes : List Nat := []) : State × Nat :=
  if targetOf a = some .register then (writeSpace s (a - 0x1800000000) (l.length == 8) (leNat l), 0) else targetWrite s a l holes

/-- An address in the protection block, whose accesses are never held (R585). -/
def inProtBlock (a : Nat) : Bool := inBlock a 0x180000 0x18FFFF

/-- The default target's queue. -/
def defaultPort : Nat := 11

/-- Requests waiting at a port. -/
def waitingAt (s : State) (p : Nat) : List Xact := s.fab.ports.get p []

/-- A transaction as the checks see it. -/
def accessOf (x : Xact) : Access1 :=
  { master := x.master, addr := x.addr, len := x.len, write := x.write, user := x.user, masked := !x.holes.isEmpty }

/-- A target serves a transaction at its port: the state, an error, and the data of a read. The default target records it (R562), and so does a
DRAM channel whose DRAM has gone since the transaction was presented (R605, R613). -/
def serve (s : State) (p : Nat) (x : Xact) : State × Nat × List Byte :=
  let none_ := List.replicate (if x.write then 0 else x.len) (0 : Byte)
  if p = defaultPort then (decodeError s (accessOf x) x.kind, 2, none_)
  else if p < 8 ∧ !dramUp s then (decodeError s (accessOf x) 2, 2, none_)
  else
    let s := noteGrant s p x.master x.addr x.len x.write
    if x.write then
      let r := fabWrite s x.addr x.data x.holes
      (r.1, r.2, [])
    else
      let d := fabRead s x.addr x.len
      (d.1, d.2.1, if d.2.1 = 0 then d.2.2 else none_)

/-! ### What the shims hold (R429, R559, R563, R583, R585) -/

/-- The transaction of a posted write of sequencer `n`: one ID for its writes, so that those to one port keep their order (R429, R560; log entry
118). -/
def writeXact (s : State) (n i : Nat) (w : Posted) : Xact :=
  { master := 16 + n, gen := genOf s (16 + n), addr := w.addr, write := true, len := w.size, data := leBytes w.value w.size, user := w.user, tag := i }

/-- The transaction of a sequencer's read. -/
def readXact (s : State) (n : Nat) (r : SeqRead) : Xact :=
  { master := 16 + n, gen := genOf s (16 + n), addr := r.addr, len := r.size, user := r.user, tag := 16, id := 1 }

/-- What the shim of sequencer `n` holds, in program order: its posted writes and its read that have not been presented, each tagged by its
place. -/
def seqHeld (s : State) (n : Nat) : List Xact :=
  let q := seqOf s n
  (q.posted.zipIdx.filter fun e => e.1.sent.isNone && !e.1.made).map (fun e => writeXact s n e.2 e.1) ++
    match q.read with
    | some r => if r.sent.isNone && r.answer.isNone then [readXact s n r] else []
    | none => []

/-- What the shim of a master holds, oldest first. -/
def heldBy (s : State) (m : Nat) : List Xact :=
  if 16 ≤ m ∧ m ≤ 31 then seqHeld s (m - 16) else s.fab.held.filter fun x => x.master == m

/-- An update hold keeps a transaction in its shim (R583, R585). -/
def heldBack (s : State) (x : Xact) : Bool :=
  (match unitOf x.master with | some u => groupHeld s u | none => false) && !inProtBlock x.addr

/-- A posted write of a sequencer marked as presented under a tag. -/
def markSent (q : Seq) (x : Xact) (tag : Nat) : Seq :=
  if x.write then { q with posted := q.posted.zipIdx.map fun e => if e.2 = x.tag then { e.1 with sent := some tag } else e.1 }
  else { q with read := q.read.map fun r => { r with sent := some tag } }

/-- A transaction leaves its shim: that of a sequencer under a tag of its own. -/
def takeHeld (s : State) (x : Xact) : State × Xact :=
  if 16 ≤ x.master ∧ x.master ≤ 31 then
    let s := updSeq s (x.master - 16) fun q => markSent q x s.fab.nextTag
    ({ s with fab := { s.fab with nextTag := s.fab.nextTag + 1 } }, { x with tag := s.fab.nextTag })
  else ({ s with fab := { s.fab with held := s.fab.held.erase x } }, x)

/-! ### Shims and ports (R556 to R565, R577) -/

/-- Transactions of a master that have been presented and whose responses have not returned, with those of one generation only where one
is named. -/
def outstanding (s : State) (m : Nat) (g : Option Nat) : Nat :=
  let mine := fun (master gen : Nat) => master == m && (match g with | none => true | some g => gen == g)
  ((s.fab.ports.map fun e => (e.2.filter fun x => mine x.master x.gen).length).foldl (· + ·) 0) +
    (s.fab.resps.filter fun r => mine r.master r.gen).length

/-- The offset of the register whose sample a read has still to take when its response starts back: the upper of two 32-bit registers (R554). -/
def lateHalf (s : State) (x : Xact) : Option Nat :=
  if !x.write ∧ x.len = 8 ∧ targetOf x.addr = some .register ∧ splitAccess s (x.addr - 0x1800000000) then some (x.addr - 0x1800000000 + 4) else none

/-- A response starts back from a port; 12 stands for the shim's own answer to what protection forbids. -/
def respond (s : State) (x : Xact) (port err : Nat) (data : List Byte) : State :=
  { s with fab := { s.fab with resps := s.fab.resps ++
      [{ master := x.master, addr := x.addr, gen := x.gen, write := x.write, data := data, err := err, tag := x.tag, id := x.id, port := port
         late := if err = 0 then lateHalf s x else none }] } }

/-- A response with the sample it has still to take, one edge after that of the lower register (R554). -/
def withUpper (s : State) (r : Resp) : Resp :=
  match r.late with
  | none => r
  | some off => { r with data := r.data.take 4 ++ leBytes (readWord s off) 4, late := none }

/-- The samples that are still to come are taken: that next edge lies before the next NET cycle (R554; log entry 152). -/
def sampleLate (s : State) : State := { s with fab := { s.fab with resps := s.fab.resps.map (withUpper s) } }

/-- A transaction comes to a port; settings of the parked master take effect while none waits (R558). -/
def present (s : State) (p : Nat) (x : Xact) : State :=
  let park := (rdb s F.XBR_CTRL_PARK_MODE, rd s F.XBR_PARK_MASTER 0 p)
  let l := waitingAt s p
  let x := { x with qos := qosOf s x.master x.write, arrived := fabCyc s }
  { s with fab := { s.fab with ports := s.fab.ports.put p (l ++ [x]), park := if l.isEmpty then s.fab.park.put p park else s.fab.park } }

/-- A transaction that has left its shim is checked, and presented to its target, to the default target, or answered with a protection error
(R562, R577, R579 to R582). -/
def checkHeld (s : State) (x : Xact) : State :=
  match protCheck s (accessOf x) with
  | some d => respond (violate s (accessOf x) d) x 12 1 (List.replicate (if x.write then 0 else x.len) 0)
  | none =>
    let k := decodeKind s (accessOf x)
    present s (if k = 0 then portNo x.addr else defaultPort) { x with kind := k }

/-- PROTECTION_CHECK: the oldest transaction of a master that no update hold keeps in its shim is checked; a master has at most 64 outstanding, and
issues nothing while its shim is reset (R559, R564, R583, R585). -/
def execProtectionCheck (master : BitVec 7) (s : State) : Host.Outcome State Fault Refusal :=
  let m := master.toNat
  match (heldBy s m).find? fun x => !heldBack s x with
  | none => .next s
  | some x =>
    if inReset s m || decide (64 ≤ outstanding s m none) then .next s
    else
      let t := takeHeld s x
      .next (checkHeld t.1 t.2)

/-- The effective QoS of a waiting request (R557). -/
def effectiveQos (s : State) (x : Xact) : Nat :=
  if x.arrived + rd s F.XBR_CTRL_AGE_LIMIT ≤ fabCyc s then max x.qos 14 else x.qos

/-- `a` is granted before `b` at a port parked on `park` (R557). -/
def grantBefore (s : State) (park : Nat) (a b : Xact) : Bool :=
  let qa := effectiveQos s a
  let qb := effectiveQos s b
  if qa ≠ qb then decide (qb < qa)
  else if a.arrived ≠ b.arrived then decide (a.arrived < b.arrived)
  else if (a.master == park) != (b.master == park) then a.master == park
  else decide (a.master < b.master)

/-- The master that a port is parked on: the one it granted last in compatibility mode (R558). -/
def parked (s : State) (p : Nat) : Nat :=
  let x := s.fab.park.get p (false, 0)
  if x.1 then s.fab.granted.get p 0 else x.2

/-- `b`, which came to a port after `a`, must follow it: it has the same master and ID (R560, R568), or touches the same 64-byte line where one of
them writes (R429, R599). -/
def mustFollow (a b : Xact) : Bool :=
  (a.master == b.master && a.id == b.id) ||
    ((a.write || b.write) && decide (a.addr / 64 ≤ (b.addr + (b.len - 1)) / 64) && decide (b.addr / 64 ≤ (a.addr + (a.len - 1)) / 64))

/-- The requests of a queue that nothing before them holds back. -/
def mayGo : List Xact → List Xact → List Xact
  | _, [] => []
  | before, x :: t => (if before.any fun a => mustFollow a x then [] else [x]) ++ mayGo (before ++ [x]) t

/-- A channel that is in panic drains a write of lower QoS than 15 only while its write queue is at least 7/8 full (R602; the depth of the queue is
not stated, log entry 143). -/
def heldWrite (s : State) (p : Nat) (x : Xact) : Bool :=
  decide (p < 8) && rdb s F.DMC_GSTATUS_PANIC && x.write && decide (x.qos < 15) &&
    decide (8 * ((waitingAt s p).filter fun y => y.write).length < 7 * Config.writeQueue)

/-- The requests of which a port grants one. -/
def eligible (s : State) (p : Nat) : List Xact := (mayGo [] (waitingAt s p)).filter fun x => !heldWrite s p x

/-- Of requests that nothing orders, the one presented first. -/
def bestOf (s : State) (p : Nat) : List Xact → Option Xact
  | [] => none
  | x :: t => some (t.foldl (fun a b => if grantBefore s (parked s p) b a then b else a) x)

/-- A request of equal QoS to an open row, which a channel may serve before the oldest, `x`, until that has waited 256 FAB cycles (R600). -/
def rowHit (s : State) (p : Nat) (x : Xact) : Option Xact :=
  if p < 8 ∧ fabCyc s < x.arrived + 256 then
    (eligible s p).find? fun y => effectiveQos s y == effectiveQos s x && rowOpen s y.addr
  else none

/-- The request that a port grants. Whether a DRAM channel serves one to an open row first is a free choice (R600, log entry 143). -/
def granted (s : State) (p : Nat) : Option Xact :=
  match bestOf s p (eligible s p) with
  | none => none
  | some x => match rowHit s p x with
    | some y => some (if freeNat s % 2 = 0 then x else y)
    | none => some x

/-- FABRIC_GRANT: a port that is not occupied grants its best waiting request, which its target serves; a channel whose traffic is stopped grants
none (R557, R560, R600, R602, R606, R608). -/
def execFabricGrant (port : Fin 11) (s : State) : Host.Outcome State Fault Refusal :=
  let p := port.val
  match granted s p with
  | none => .next s
  | some x =>
    if fabCyc s < s.fab.busyTo.get p 0 ∨ (p < 8 ∧ channelStopped s p) then .next s
    else
      let s := also (decide (p < 8)) draw s
      let s := { s with fab := { s.fab with ports := s.fab.ports.put p ((waitingAt s p).erase x) } }
      let d := serve s p x
      .next (respond d.1 x p d.2.1 d.2.2)

/-- DECODE_ERROR: the default target answers its oldest request with an error response and records it (R562). -/
def execDecodeError (s : State) : Host.Outcome State Fault Refusal :=
  match waitingAt s defaultPort with
  | [] => .next s
  | x :: t =>
    let d := serve { s with fab := { s.fab with ports := s.fab.ports.put defaultPort t } } defaultPort x
    .next (respond d.1 x defaultPort d.2.1 d.2.2)

/-- The reset of a master's shim is over: 16 FAB cycles have passed, and no response of the generation it advanced to is outstanding (R564,
R565). -/
def resetOver (s : State) (e : Nat × Nat) : Bool :=
  decide (e.2 + 16 ≤ fabCyc s) && outstanding s e.1 (some (genOf s e.1)) == 0

/-- MRESET_DONE: the oldest reset that is over: the shim releases its IDs, and BUSY ends with the last reset (R564, R565). -/
def execMresetDone (s : State) : Host.Outcome State Fault Refusal :=
  match s.fab.resets.find? (resetOver s) with
  | none => .next s
  | some e =>
    let s := { s with fab := { s.fab with resets := s.fab.resets.erase e } }
    .next (raise (wr0 s F.XBR_MRESET_STATUS_BUSY (bit (!s.fab.resets.isEmpty))) K.XBR_EVENT_MRESET_DONE)

/-! ### Sequencers (R427, R429, R430) -/

/-- The cause of the fault that an error brings (R427). -/
def causeOfError (err : Nat) : Nat := if err = 0 then 0 else if err = 1 then causeProt else causeDecode

/-- A response reaches a sequencer's shim: its posted write is made, or the data of its read are there. -/
def seqAnswer (q : Seq) (tag err : Nat) (data : List Byte) : Seq :=
  { q with
    posted := q.posted.map fun w => if w.sent = some tag then { w with made := true, cause := causeOfError err } else w
    read := q.read.map fun r => if r.sent = some tag then { r with answer := some (err, data) } else r }

/-- A transaction of a sequencer under a tag, where it waits: at a port. -/
def atPort (s : State) (m tag : Nat) : Option (Nat × Xact) :=
  (upto 12).findSome? fun p => ((waitingAt s p).find? fun x => x.master == m && x.tag == tag).map fun x => (p, x)

/-- What a sequencer has presented under a tag is answered, if its target can serve it: from its port, where both halves of a read are sampled at
once (log entry 152), or with the response on its way. -/
def finishTag (s : State) (n tag : Nat) : State :=
  match s.fab.resps.find? fun r => r.master == 16 + n && r.tag == tag with
  | some r => updSeq { s with fab := { s.fab with resps := s.fab.resps.erase r } } n fun q => seqAnswer q tag r.err (withUpper s r).data
  | none => match atPort s (16 + n) tag with
    | none => s
    | some (p, x) =>
      if p < 8 ∧ channelStopped s p then s
      else
        let d := serve { s with fab := { s.fab with ports := s.fab.ports.put p ((waitingAt s p).erase x) } } p x
        updSeq d.1 n fun q => seqAnswer q tag d.2.1 d.2.2

/-- A transaction of sequencer `n` still in its shim is presented, unless the shim must keep it. -/
def issueOwn (s : State) (n : Nat) (x : Xact) : State :=
  if heldBack s x || inReset s (16 + n) then s else let t := takeHeld s x; checkHeld t.1 t.2

/-- A posted write that is in its shim is presented, and one that has been presented is answered: the sequencer's own rows stand for a time at which
PROTECTION_CHECK, FABRIC_GRANT and RESPONSE_RETURN have come for it (DESIGN CHOICE, log entry 142). -/
def pushWrite (n : Nat) (s : State) (i : Nat) : State :=
  let w := (seqOf s n).posted.getD i {}
  if w.made then s
  else
    let s := if w.sent.isNone then issueOwn s n (writeXact s n i w) else s
    match ((seqOf s n).posted.getD i {}).sent with
    | none => s
    | some tag => finishTag s n tag

/-- The posted writes of a sequencer are made in program order, as far as nothing stops them (R429, R583, R585). -/
def makeWrites (n : Nat) (s : State) : State := (upto (seqOf s n).posted.length).foldl (pushWrite n) s

/-- SEQ_WRITE_RESPONSE: the oldest posted write is acknowledged; an error response faults the sequencer with the write's address (R427,
R429). A sequencer that has stopped takes no fault. -/
def execSeqWriteResponse (n : Fin 16) (s : State) : Host.Outcome State Fault Refusal :=
  let n := n.val
  let s := makeWrites n s
  match (seqOf s n).posted with
  | [] => .next s
  | w :: t =>
    if !w.made then .next s
    else
      let s := updSeq s n fun q => { q with posted := t }
      .next (if w.cause ≠ 0 && seqBusy (seqOf s n) then fault s n w.cause w.addr else s)

/-- The read of a sequencer is presented, not before the writes it posted before it to the same 64-byte line are made, and answered (R429). -/
def pushRead (n : Nat) (s : State) : State :=
  match (seqOf s n).read with
  | none => s
  | some r =>
    let owed := (seqOf s n).posted.any fun w => !w.made && w.addr / 64 == r.addr / 64
    let s := if r.sent.isNone && r.answer.isNone && !owed then issueOwn s n (readXact s n r) else s
    match (seqOf s n).read.bind (·.sent) with
    | none => s
    | some tag => finishTag s n tag

/-- SEQ_FABRIC_READ_RETURN: the data of a sequencer's read comes back, after the writes it posted before it, or its error faults it (R427,
R429, R430). -/
def execSeqFabricReadReturn (n : Fin 16) (s : State) : Host.Outcome State Fault Refusal :=
  let n := n.val
  let s := pushRead n (makeWrites n s)
  match (seqOf s n).read with
  | none => .next s
  | some r => match r.answer with
    | none => .next s
    | some (err, data) =>
      let s := updSeq s n fun q => { q with read := none }
      .next (if err = 0 then finish s n r.rd (BitVec.ofNat 64 (leNat data)) else fault s n (causeOfError err) r.addr)

/-! ### MSI-X (R567, R570) -/

/-- An entry of the MSI-X table. -/
def msixEntry (s : State) (v : Nat) : MsixEntry := s.fab.table.get v {}

/-- Messages leave: MSI-X and Bus Master Enable are on and the function is not masked (R570). -/
def msixOn (s : State) : Bool := s.fab.cfg.msix && s.fab.cfg.busMaster && !s.fab.cfg.masked

/-- A pending, unmasked vector sends its message and its pending bit clears (R570). -/
def msixSend (s : State) (v : Nat) : State :=
  let e := msixEntry s v
  if msixOn s && s.fab.pba.contains v && !e.masked then
    emit { s with fab := { s.fab with pba := s.fab.pba.filter (· != v) } } (.message v e.addr e.data)
  else s

/-- MSIX_MESSAGE: a raised vector's message leaves (R570). -/
def execMsixMessage (vector : Fin 512) (s : State) : Host.Outcome State Fault Refusal := .next (msixSend s vector.val)

/-- A vector is unmasked: a pending message leaves at once (R570). -/
def msixUnmask (s : State) (v : Nat) : State :=
  msixSend { s with fab := { s.fab with table := s.fab.table.put v { msixEntry s v with masked := false } } } v

/-- MSIX_UNMASK (R570). -/
def execMsixUnmask (vector : Fin 512) (s : State) : Host.Outcome State Fault Refusal := .next (msixUnmask s vector.val)

/-- The 16 bytes of a table entry. -/
def msixBytes (e : MsixEntry) : List Byte := leBytes e.addr 8 ++ leBytes e.data 4 ++ leBytes (bit e.masked) 4

/-- A byte of BAR4: the table, or the pending bits (R567). -/
def bar4Byte (s : State) (o : Nat) : Byte :=
  if o < 0x2000 then (msixBytes (msixEntry s (o / 16))).getD (o % 16) 0
  else BitVec.ofNat 8 ((upto 8).foldl (fun a k => if s.fab.pba.contains ((o - 0x2000) * 8 + k) then a + 2 ^ k else a) 0)

/-- Bytes written to BAR4: the pending bits cannot be written; an entry that becomes unmasked sends what is pending. -/
def bar4Write (s : State) (o : Nat) (l : List (Option Byte)) : State :=
  each ((upto 512).filter fun v => decide (v * 16 < o + l.length) && decide (o < v * 16 + 16)) (fun s v =>
    let old := msixBytes (msixEntry s v)
    let b := (upto 16).map fun k => if o ≤ v * 16 + k ∧ v * 16 + k < o + l.length then (l.getD (v * 16 + k - o) none).getD (old.getD k 0) else old.getD k 0
    let e : MsixEntry := { addr := leAt b 0 8, data := leAt b 8 4, masked := bitOn (leAt b 12 4) 0 }
    msixSend { s with fab := { s.fab with table := s.fab.table.put v e } } v) s

/-! ### Configuration space (R566, R569, R570) -/

/-- Where HOST_REQUEST names the configuration space of the function, and the places in it of the Command register, the MSI-X capability and AER
(DESIGN CHOICE, log entry 144: the spec gives the space no addresses; the Command register and the bits are those of PCI Express). -/
def cfgBase : Nat := 0x3000000000
def cfgMsix : Nat := 0x70
def cfgAer : Nat := 0x100

/-- Completer Abort Status in the Uncorrectable Error Status register of AER. -/
def aerAbort : Nat := 2 ^ 15

/-- 4 bytes of configuration space. -/
def cfgWord (s : State) (o : Nat) : Nat :=
  let c := s.fab.cfg
  if o = 4 then 4 * bit c.busMaster
  else if o = cfgMsix then 0x11 + 2 ^ 16 * (511 + 2 ^ 14 * bit c.masked + 2 ^ 15 * bit c.msix)
  else if o = cfgMsix + 4 then 4
  else if o = cfgMsix + 8 then 4 + 0x2000
  else if o = cfgAer + 4 then c.aer
  else 0

/-- A write of 4 bytes of configuration space: the enables, or an AER status cleared by 1s; pending messages that become free to leave do so (R570). -/
def cfgWrite (s : State) (o v : Nat) : State :=
  let c := s.fab.cfg
  let c := if o = 4 then { c with busMaster := bitOn v 2 }
    else if o = cfgMsix then { c with masked := bitOn v 30, msix := bitOn v 31 }
    else if o = cfgAer + 4 then { c with aer := c.aer - (c.aer &&& v) }
    else c
  each (upto 512) msixSend { s with fab := { s.fab with cfg := c } }

/-- A request that ended in an error response is logged through AER beside HOST_ERR (R569). -/
def hostError (s : State) : State :=
  raise { s with fab := { s.fab with cfg := { s.fab.cfg with aer := s.fab.cfg.aer ||| aerAbort } } } K.XBR_EVENT_HOST_ERR

/-- A request into the configuration space: an aligned 4 bytes. -/
def cfgRequest (s : State) (write : Bool) (o : Nat) (l : List Byte) : State :=
  if o % 4 ≠ 0 ∨ 0x1000 ≤ o then s
  else if write then cfgWrite s o (leNat l)
  else { s with fab := { s.fab with nextTag := s.fab.nextTag + 1, host := s.fab.host ++
      [{ tag := s.fab.nextTag, data := [(cfgBase + o, leBytes (cfgWord s o) 4)] }] } }

/-! ### Host requests (R567 to R569) -/

/-- A host write is on its way: held, at a port, or to be answered. -/
def hostWriteOut (s : State) : Bool := s.fab.host.any fun r => r.write && decide (0 < r.parts)

/-- The parts that wait enter the shim in arrival order; a read waits for the writes before it to be acknowledged (R568). -/
def hostIssue : Nat → State → State
  | 0, s => s
  | k + 1, s =>
    match s.fab.hostWait with
    | [] => s
    | x :: t =>
      let older := s.fab.host.any fun r => r.write && decide (0 < r.parts) && decide (r.tag < x.tag)
      if !x.write && older then s
      else hostIssue k { s with fab := { s.fab with hostWait := t, held := s.fab.held ++ [{ x with gen := genOf s 0 }] } }

/-- Everything that may enter the shim does. -/
def hostAdvance (s : State) : State := hostIssue s.fab.hostWait.length s

/-- The offset in BAR4 that an address of HOST_REQUEST names (log entry 34). -/
def bar4Base : Nat := 0x2000000000

/-- The data of a write, 0 where a byte enable is 0. -/
def enabledBytes (l : List (Option Byte)) : List Byte := l.map fun b => b.getD 0

/-- The places, among `n` bytes of a write from `o` on, whose byte enables are 0 (R553). -/
def holesAt (l : List (Option Byte)) (o n : Nat) : List Nat := (upto n).filter fun k => (l.getD (o + k) none).isNone

/-- The ID that the host's shim gives a transaction: one for all writes, so that those to one port take effect in order (R568); each read has
its own (DESIGN CHOICE, log entry 118: R559 leaves the choice to the master). -/
def hostId (write : Bool) (tag : Nat) : Nat := if write then 0 else 1 + tag % 255

/-- HOST_REQUEST: a request of the host, by its fabric address through BAR0 or BAR2, or in BAR4 (R567, R568). -/
def execHostRequest (write : Bool) (addr : BitVec 40) (len : BitVec 13) (bytes : List (Option Byte)) (s : State) :
    Host.Outcome State Fault Refusal :=
  let a := addr.toNat
  let n := if write then bytes.length else len.toNat
  let t := s.fab.nextTag
  if s.pwr.phase ≠ .main ∨ n = 0 then .next s
  else if cfgBase ≤ a then .next (cfgRequest s write (a - cfgBase) (enabledBytes bytes))
  else if bar4Base ≤ a then
    if bar4Base + 0x4000 < a + n then .next s
    else if write then .next (bar4Write s (a - bar4Base) bytes)
    else .next { s with fab := { s.fab with nextTag := t + 1, host := s.fab.host ++
      [{ tag := t, data := [(a, (upto n).map fun k => bar4Byte s (a - bar4Base + k))] }] } }
  else
    let ps := pieces a (n / 256 + 2) n
    let xs := ps.map fun p => ({ addr := p.1, write := write, len := p.2, data := if write then (bytesAt (enabledBytes bytes) (p.1 - a) p.2) else [],
                                 holes := if write then holesAt bytes (p.1 - a) p.2 else [], tag := t, id := hostId write t } : Xact)
    .next (hostAdvance { s with fab := { s.fab with nextTag := t + 1, hostWait := s.fab.hostWait ++ xs,
                                                    host := s.fab.host ++ [{ tag := t, write := write, parts := ps.length }] } })

/-- A part of a host request is answered; a write whose parts are all answered is done, and raises HOST_ERR if one failed (R569). -/
def hostAnswer (s : State) (r : Resp) : State :=
  match s.fab.host.find? fun h => h.tag == r.tag with
  | none => s
  | some h =>
    let h2 := { h with parts := h.parts - 1, data := if h.write then h.data else h.data.put r.addr r.data, err := h.err || r.err != 0 }
    if h2.write && h2.parts == 0 then
      also h2.err hostError { s with fab := { s.fab with host := s.fab.host.filter fun x => x.tag != h.tag } }
    else { s with fab := { s.fab with host := s.fab.host.map fun x => if x.tag = h.tag then h2 else x } }

/-- RESPONSE_RETURN: the oldest response of a master with an ID from a port returns to it: responses that differ in one of these return in any
order (R560). One of an older generation is discarded (R564). -/
def execResponseReturn (name : RespName) (s : State) : Host.Outcome State Fault Refusal :=
  let m := name.master.toNat
  match s.fab.resps.find? fun r => r.master == m && r.id == name.id.toNat && r.port == name.port.val with
  | none => .next s
  | some r =>
    let x := withUpper s r
    let s := { s with fab := { s.fab with resps := s.fab.resps.erase r } }
    if r.gen ≠ genOf s m then .next s
    else if m = 0 then .next (hostAdvance (hostAnswer s x))
    else if 16 ≤ m ∧ m ≤ 31 then .next (updSeq s (m - 16) fun q => seqAnswer q r.tag r.err x.data)
    else if m = 1 then .next (emit s (.debug r.write (r.err == 0) x.data))
    else .next s

/-- HOST_COMPLETION: the oldest host read whose parts are all answered completes, its data in address order, or with Completer Abort and
HOST_ERR (R567, R569). -/
def execHostCompletion (s : State) : Host.Outcome State Fault Refusal :=
  match s.fab.host.find? fun h => !h.write && h.parts == 0 with
  | none => .next s
  | some h =>
    let s := { s with fab := { s.fab with host := s.fab.host.filter fun x => x.tag != h.tag } }
    if h.err then .next (hostError (emit s (.completion false [])))
    else .next (emit s (.completion true (h.data.map (·.2)).flatten))

/-- DEBUG_MASTER_REQUEST: the JTAG debug master issues a transaction (R582, R677). -/
def execDebugMasterRequest (addr : BitVec 40) (write : Bool) (len : BitVec 9) (bytes : List (Option Byte)) (s : State) :
    Host.Outcome State Fault Refusal :=
  if s.pwr.phase ≠ .main then .next s
  else .next { s with fab := { s.fab with held := s.fab.held ++
    [{ master := 1, gen := genOf s 1, addr := addr.toNat, write := write, len := if write then bytes.length else len.toNat, data := enabledBytes bytes,
       holes := if write then holesAt bytes 0 bytes.length else [] }] } }

end Sys2Proof.Machine
end

