-- ==== Sys2Proof/Machine/Clock.lean ====
section
/-!
DEFINITION. Loss and return of clocks (R30 to R33), and the passing of one NET cycle (log entry 1).
-/

namespace Sys2Proof.Machine

/-! ### Loss of clock (R30, R31) -/

/-- ISLAND_LOST: REFCLK fails, or the PLLs of the islands of a mask lose lock: the device enters Gesso hold, WP_ALERT_N is asserted and the
host is interrupted (R30, R33). -/
def execIslandLost (refclk : Bool) (islands : BitVec 6) (s : State) : Host.Outcome State Fault Refusal :=
  let lock := rd s F.PWR_CLK_STATUS_ISLAND_LOCK
  let ref := rdb s F.PWR_CLK_STATUS_REFCLK_OK
  if s.pwr.phase ≠ .main ∨ (!(refclk && ref) && (lock &&& islands.toNat) == 0) then .next s
  else
    let s := wr0 (wr0 s F.PWR_CLK_STATUS_ISLAND_LOCK (lock &&& (63 - islands.toNat))) F.PWR_CLK_STATUS_REFCLK_OK (bit (ref && !refclk))
    let s := enterHold (raise s K.PWR_CLK_EVENT_ISLAND_LOST) 2
    .next { s with cmp := { s.cmp with alert := true } }

/-- ISLAND_RELOCK: REFCLK returns or PLLs lock again; Gesso hold remains (R30, R32). -/
def execIslandRelock (refclk : Bool) (islands : BitVec 6) (s : State) : Host.Outcome State Fault Refusal :=
  if s.pwr.phase ≠ .main then .next s
  else
    let ref := rdb s F.PWR_CLK_STATUS_REFCLK_OK || refclk
    .next (wr0 (wr0 s F.PWR_CLK_STATUS_ISLAND_LOCK (rd s F.PWR_CLK_STATUS_ISLAND_LOCK ||| islands.toNat)) F.PWR_CLK_STATUS_REFCLK_OK (bit ref))

/-- GALLERY_LOST: a gallery PLL loses lock (R31, R33). -/
def execGalleryLost (g : Fin 8) (s : State) : Host.Outcome State Fault Refusal :=
  if !(galOf s g.val).locked then .next s
  else .next (galleryDark (raise s K.PWR_CLK_EVENT_GALLERY_LOST) g.val)

/-- GALLERY_PLL_RELOCK: the PLL of an enabled gallery locks, at its enable or again; its raster starts at the end of the active lines, and each
of its active canvases shows Gesso until its first verified frame (R31, R316). -/
def execGalleryPllRelock (g : Fin 8) (s : State) : Host.Outcome State Fault Refusal :=
  let g := g.val
  if !rdb s F.CNV_GAL_CTRL_EN g || (galOf s g).locked || s.pwr.phase == .still then .next s
  else
    let s := updGal s g fun x => { x with locked := true, line := rd s F.CNV_GAL_HV_VACT g - 1 }
    let s := wr0 s F.PWR_CLK_STATUS_GALLERY_LOCK (setBits (rd s F.PWR_CLK_STATUS_GALLERY_LOCK) g 1 1)
    .next (each ((canvasesOf s g).filter fun c => (onCanvas s c || rdb s F.CNV_CTRL_EN c) && !linkDown s c) (fun s c =>
      enterGesso (updCnv s c fun x => { x with dark := false, gesso := { x.gesso with start := true } }) c) s)

/-! ### One NET cycle -/

/-- The RTC over one NET cycle: the 32.768 kHz crystal advances the fraction, and 32,768 of them the seconds (R639). -/
def rtcTick (s : State) : State :=
  let a := s.time.aonPart + 32768
  if s.pwr.phase = .off then s
  else if a < 625000000 then { s with time := { s.time with aonPart := a } }
  else
    let f := rd s F.PWR_RTC_SEC_FRAC + 1
    let s := { s with time := { s.time with aonPart := a - 625000000 } }
    if f < 2 ^ 15 then wr0 s F.PWR_RTC_SEC_FRAC f
    else wr0 (wr0 s F.PWR_RTC_SEC_FRAC 0) F.PWR_RTC_SEC_SEC ((rd s F.PWR_RTC_SEC_SEC + 1) % 2 ^ 48)

/-- A sequencer counts SEQ cycles while it runs or waits (R435). -/
def seqCounts (q : Seq) : Bool := q.run == .running || q.run == .waiting

/-- What time alone changes over one NET cycle: the PTP clock (R85, R86), SEQ_CYCLES and the RTC; and the second register of a read of two is
sampled (R554). Everything else that happens at a time is a command. -/
def tick (s : State) : State :=
  let s := sampleLate s
  let before := seqCyc s
  let s := { s with time := { s.time with cyc := s.time.cyc + 1 } }
  let n := seqCyc s - before
  let s := rtcTick s
  if s.pwr.phase ≠ .main then s
  else
    let d : Int := 8 * 2 ^ 40 + 8 * signedOf 32 (rd s F.PTP_RATE_ADJ)
    let s := { s with time := { s.time with ptp := (s.time.ptp + d.toNat) % ptpEnd } }
    each ((upto 16).filter fun k => seqCounts (seqOf s k)) (fun s k => addWrap s F.SEQ_CYCLES_COUNT k n) s

end Sys2Proof.Machine
end

