-- ==== Sys2Proof/Machine/Boot.lean ====
section
/-!
DEFINITION. A boot: its start, DRAM, the digest, the records and the end (R625 to R634), and the end of DRAM training (R604).
-/

namespace Sys2Proof.Machine

/-- The boot in progress, changed. -/
def updBoot (s : State) (f : Boot → Boot) : State := { s with pwr := { s.pwr with boot := s.pwr.boot.map f } }

/-! ### Start (R625, R626, R630) -/

/-- The DRAM settings of a boot are written to the controller: fields that DMC_CTRL.LOCK guards keep what they hold (R18, R616, R630). -/
def dramSettings (s : State) (rowBits initSp ecc : Nat) : State :=
  writeReg (writeReg s R.DMC_CTRL 0 0 (4 * initSp + 16 * rowBits) 0x1FC) R.DMC_ECC_EN 0 0 ecc (fullMask R.DMC_ECC_EN)

/-- The NOR is reset, and after 1 ms its read from offset 0 begins (R626). -/
def spiRead (s : State) : State := emit (emit (emit s (.spi [0x66] 0 0)) (.spi [0x99] 0 0)) (.spi [0x6C, 0, 0, 0, 0] 8 1000)

/-- An SPI boot: the image is read from the NOR, the header is checked, its DRAM settings are written and INIT runs (R626, R630). -/
def spiStart (s : State) (image : List Byte) : State :=
  let s := spiRead s
  match headerFault image with
  | some f => bootFail s f.1 0 f.2
  | none =>
    let s := dramSettings s (leAt image 12 1) (leAt image 13 1) (leAt image 16 8)
    startInit { s with pwr := { s.pwr with boot := some { kind := resetKind s, image := bytesAt image 0 (imageLen image), stage := 1 } } }

/-- A boot from the retained image: the header is checked, and the settings the retention store keeps go to the DRAM controller, which
retrains (R630). The header is checked as DRAM holds it, before any access can be served: the image itself is read through unit 0 once DRAM is up
(log entry 146). -/
def retainedStart (s : State) (r : Retention) : State :=
  let image := Memory.readBytes s.mem r.base r.len
  let b : Boot := { kind := resetKind s, image := image, stage := 1, retained := true }
  let s := wr0 { s with pwr := { s.pwr with boot := some b } } F.PWR_STATUS_RETAINED 1
  match headerFault image with
  | some f => bootFail s f.1 0 f.2
  | none =>
    let s := dramSettings s r.rowBits r.initSp r.ecc
    let s := each (upto 8) (fun s c => wr s F.DMC_CH_STATUS_STATE c 0 1) s
    { s with dmc := { s.dmc with rowBits := rd s F.DMC_CTRL_ROW_BITS, ecc := rdReg s R.DMC_ECC_EN } }

/-- BOOT_START: a boot begins: from the retained image after a warm reset or a wake, from SPI with the image that the NOR holds otherwise; a
missing retained image is a failure of that source (R625, R630). A device that boots from the PCIe host waits for PWR_BOOT_GO. -/
def execBootStart (image : List Byte) (s : State) : Host.Outcome State Fault Refusal :=
  if s.pwr.phase ≠ .main ∨ rd s F.PWR_STATUS_BOOT_STATE ≠ 0 ∨ s.pwr.boot.isSome then .next s
  else if resetKind s = .powerOn ∨ rdb s F.PWR_STATUS_FALLBACK then .next (spiStart s image)
  else match s.pwr.retention with
    | some r => .next (retainedStart s r)
    | none =>
      let s := bootFallback s
      .next (if s.straps.bootSrc then s else spiStart s image)

/-! ### DRAM (R604, R630) -/

/-- The retraining of a boot from the retained image ends: READY with MARGIN_OK on each channel, or the boot fails with code 4. -/
def retrainBoot (s : State) (failed : Nat) (margins : List (BitVec 8)) : State :=
  let s := each (upto 8) (fun s c => wr s F.DMC_CH_STATUS_MARGIN c 0 (margins.getD c 0).toNat) s
  if (upto 8).any (trainFailed s failed margins) then bootFail (each (upto 8) (fun s c =>
      if trainFailed s failed margins c then raise (wr s F.DMC_CH_STATUS_STATE c 0 3) K.DMC_CH_EVENT_TRAIN_FAIL c
      else wr s F.DMC_CH_STATUS_STATE c 0 2) s) 4 0 0
  else
    let s := each (upto 8) (fun s c => wr (wr s F.DMC_CH_STATUS_STATE c 0 2) F.DMC_CH_STATUS_MARGIN_OK c 0 1) s
    updBoot (wr0 (readySet s) F.DMC_GSTATUS_SP (rd s F.DMC_CTRL_INIT_SP)) fun b => { b with stage := 2 }

/-- DRAM_INIT_DONE: training ends with the channels that failed and the margins found: INIT (R604), or the retraining of a boot from the
retained image (R630). A boot that waits for it goes on, or fails with code 4. -/
def execDramInitDone (failed : BitVec 8) (margins : List (BitVec 8)) (s : State) : Host.Outcome State Fault Refusal :=
  let waits := s.pwr.boot.any fun b => b.stage == 1
  if rdb s F.DMC_GSTATUS_INIT_BUSY then
    let s := finishInit s failed.toNat margins
    .next (if !waits then s else if rdb s F.DMC_GSTATUS_READY then updBoot s fun b => { b with stage := 2 } else bootFail s 4 0 0)
  else if waits && (s.pwr.boot.any fun b => b.retained) then .next (retrainBoot s failed.toNat margins)
  else .next s

/-! ### Digest (R630) -/

/-- The digests of programmed OTP slots. -/
def otpDigests (s : State) : List (List Byte) := ((upto 4).filter fun k => slotState s k == 1).map fun k => s.pwr.otp.get k []

/-- The digest of an image passes every comparison of R630. -/
def digestGood (s : State) (b : Boot) : Bool :=
  let n := imageLen b.image
  let d := sha256 (bytesAt b.image 0 (n - 32))
  let slots := otpDigests s
  d == bytesAt b.image (n - 32) 32 && (!b.retained || s.pwr.retention.any fun r => r.digest == d) && (slots.isEmpty || slots.contains d)

/-- The image as the digest is computed over it: an SPI boot copies it to RETAIN_BASE as it reads it, and a boot from the retained image reads it
there, both as master 0 (R575, R630). A BOOT_GO has read it. -/
def loadImage (s : State) (b : Boot) : State × Boot :=
  if b.retained then
    match s.pwr.retention with
    | some r => let d := busRead s 0 r.base r.len; (d.1, { b with image := d.2.2 })
    | none => (s, b)
  else if b.host then (s, b)
  else ((busWrite s 0 (imageBase b.image) b.image).1, b)

/-- BOOT_DIGEST_DONE: the digest of the image is compared; an SPI boot has copied the image to RETAIN_BASE (R625, R630, R631). -/
def execBootDigestDone (s : State) : Host.Outcome State Fault Refusal :=
  match s.pwr.boot with
  | none => .next s
  | some b =>
    if b.stage ≠ 2 ∨ accessWaits s 0 then .next s
    else
      let l := loadImage s b
      .next (if digestGood l.1 l.2 then updBoot l.1 fun _ => { l.2 with stage := 3 } else bootFail l.1 5 0 0)

/-! ### Records (R629, R631) -/

/-- A record as its header gives it. -/
structure BootRec where
  kind : Nat := 0
  cond : Nat := 0
  len : Nat := 0
  addr : Nat := 0
  deriving DecidableEq, Repr

/-- The record at a position of the image. -/
def recordAt (b : List Byte) (p : Nat) : BootRec :=
  { kind := leAt b p 1, cond := leAt b (p + 1) 1, len := leAt b (p + 4) 4, addr := leAt b (p + 8) 5 }

/-- The first field of a record that breaks R629, as its byte offset. -/
def bootRecFault (image : List Byte) (p : Nat) (r : BootRec) : Option Nat :=
  let lenOk := if r.kind = 1 then r.len % 8 == 0 && decide (8 ≤ r.len) && decide (r.len ≤ 65536)
    else if r.kind = 2 then decide (1 ≤ r.len) && decide (r.len ≤ 16777216) else r.len == 0
  if r.kind = 0 ∨ 5 < r.kind then some 0
  else if !lenOk || decide (imageLen image < p + 16 + roundUp r.len 16) then some 4
  else none

/-- The record is for this kind of reset. -/
def recordMatches (k : ResetKind) (r : BootRec) : Bool :=
  bitOn r.cond (match k with | .powerOn => 0 | .warm => 1 | .wake => 2)

/-- A privileged write of master 0: the state and whether it got an error response (R630). -/
def bootWrite (s : State) (a : Nat) (l : List Byte) : State × Bool :=
  let c := checkAccess s { master := 0, addr := a, len := l.length, write := true }
  if c.2 ≠ 0 then (c.1, true) else let r := fabWrite c.1 a l; (r.1, r.2 != 0)

/-- A write of the boot must wait: unit 0 is under an update hold, or DRAM is stopped (R583, R585, R606, R608). -/
def bootWaits (s : State) (a : Nat) : Bool :=
  (groupHeld s 0 && !inProtBlock a) || (decide (portNo a < 8) && channelStopped s (portNo a))

/-- How the writes of a record went: all made, one that got an error, or one that must wait, by its index. -/
inductive WritesEnd where
  | done | failed (k : Nat) | waits (k : Nat)
  deriving DecidableEq, Repr

/-- Writes of a record, in order, from the `n`th on, until one gets an error, must wait or ends the boot. -/
def bootWrites (s : State) (n : Nat) (l : List (Nat × List Byte)) : State × WritesEnd :=
  (l.zipIdx.drop n).foldl (fun (acc : State × WritesEnd) e =>
    if acc.2 != .done || acc.1.pwr.boot.isNone then acc
    else if bootWaits acc.1 e.1.1 then (acc.1, .waits e.2)
    else let r := bootWrite acc.1 e.1.1 e.1.2; (r.1, if r.2 then .failed e.2 else .done)) (s, .done)

/-- The boot starts sequencers in ascending number, and stops at one that is refused (R415). -/
def bootStarts (s : State) (mask : Nat) : State × Bool :=
  ((upto 16).filter (bitOn mask)).foldl (fun (acc : State × Bool) n =>
    if acc.2 then acc
    else
      let t := seqStart acc.1 n
      if !(seqOf t n).starting then (t, true)
      else let t := finishStart t n; (t, (seqOf t n).run != .running)) (s, false)

/-- The boot moves past the present record. -/
def nextRecord (s : State) (n : Nat) : State := updBoot s fun b => { b with pos := b.pos + 16 + roundUp n 16, record := b.record + 1, sub := 0 }

/-- A matching record is executed; END is left to BOOT_END. -/
def runRecord (s : State) (b : Boot) (r : BootRec) : State :=
  let data := bytesAt b.image (b.pos + 16) r.len
  let done := fun (s : State) => nextRecord s r.len
  match r.kind with
  | 1 =>
    let w := bootWrites s b.sub ((upto (r.len / 8)).map fun k => (0x1800000000 + leAt data (8 * k) 4, bytesAt data (8 * k + 4) 4))
    match w.2 with
    | .failed k => bootFail w.1 7 b.record ((16 + 8 * k) % 256)
    | .waits k => updBoot w.1 fun b => { b with sub := k }
    | .done => done w.1
  | 2 =>
    let w := bootWrites s b.sub ((pieces r.addr (r.len / 256 + 2) r.len).map fun p => (p.1, bytesAt data (p.1 - r.addr) p.2))
    match w.2 with
    | .failed _ => bootFail w.1 7 b.record 8
    | .waits k => updBoot w.1 fun b => { b with sub := k }
    | .done => done w.1
  | 3 =>
    let w := bootStarts s (r.addr % 2 ^ 16)
    if w.2 then bootFail w.1 8 b.record 8 else done w.1
  | 4 => updBoot (done s) fun b => { b with waiting := true, until_ := s.time.cyc + 625 * (r.addr % 2 ^ 24) }
  | _ => s

/-- The record that comes next, checked: a boot past its last record, or at a record that breaks R629, fails (R631). -/
def execBootRecord (s : State) : Host.Outcome State Fault Refusal :=
  match s.pwr.boot with
  | none => .next s
  | some b =>
    let r := recordAt b.image b.pos
    if b.stage ≠ 3 ∨ b.waiting then .next s
    else if imageRecords b.image ≤ b.record then .next (bootFail s 6 (b.record % 4096) 0)
    else match bootRecFault b.image b.pos r with
      | some f => .next (bootFail s 6 b.record f)
      | none => .next (if recordMatches b.kind r then runRecord s b r else nextRecord s r.len)

/-- BOOT_WAIT_EXPIRY: the time of a WAIT record is over (R629). -/
def execBootWaitExpiry (s : State) : Host.Outcome State Fault Refusal :=
  .next (updBoot s fun b => if s.time.cyc < b.until_ then b else { b with waiting := false })

/-- BOOT_END: the END record: DONE, BOOT_DONE, and the retention store (R630). -/
def execBootEnd (s : State) : Host.Outcome State Fault Refusal :=
  match s.pwr.boot with
  | none => .next s
  | some b =>
    let r := recordAt b.image b.pos
    if b.stage ≠ 3 ∨ b.waiting ∨ imageRecords b.image ≤ b.record ∨ (bootRecFault b.image b.pos r).isSome ∨ r.kind ≠ 5 ∨
        !recordMatches b.kind r then .next s
    else
      let n := imageLen b.image
      let keep : Retention := { base := imageBase b.image, len := n, digest := sha256 (bytesAt b.image 0 (n - 32)),
                                rowBits := rd s F.DMC_CTRL_ROW_BITS, initSp := rd s F.DMC_CTRL_INIT_SP, ecc := rdReg s R.DMC_ECC_EN }
      .next (raise (wr0 { s with pwr := { s.pwr with boot := none, retention := some keep } } F.PWR_STATUS_BOOT_STATE 2) K.PWR_EVENT_BOOT_DONE)

end Sys2Proof.Machine
end

