-- ==== Sys2Proof/Machine/Dispatch.lean ====
section
/-!
DEFINITION. The dispatcher: one arm per command, each a direct call of that command's meaning.
-/

namespace Sys2Proof.Machine

def exec (i : Instr) (s : State) : Host.Outcome State Fault Refusal :=
  match i with
  | .registerWrite off wide value => Sys2Proof.Machine.execRegisterWrite off wide value s
  | .w1cFlagClear off mask => Sys2Proof.Machine.execW1cFlagClear off mask s
  | .cntClr off => Sys2Proof.Machine.execCntClr off s
  | .blockLockSet off value => Sys2Proof.Machine.execBlockLockSet off value s
  | .islandLost refclk islands => Sys2Proof.Machine.execIslandLost refclk islands s
  | .galleryLost g => Sys2Proof.Machine.execGalleryLost g s
  | .galleryPllRelock g => Sys2Proof.Machine.execGalleryPllRelock g s
  | .publishRequest d => Sys2Proof.Machine.execPublishRequest d s
  | .framePublish d => Sys2Proof.Machine.execFramePublish d s
  | .recordHeaderRead layer err => Sys2Proof.Machine.execRecordHeaderRead layer err s
  | .layerSlotRead layer err => Sys2Proof.Machine.execLayerSlotRead layer err s
  | .tileFetchIssue layer tile => Sys2Proof.Machine.execTileFetchIssue layer tile s
  | .tileDataArrival layer tile err => Sys2Proof.Machine.execTileDataArrival layer tile err s
  | .chkStart n value => Sys2Proof.Machine.execChkStart n value s
  | .chkAbort n => Sys2Proof.Machine.execChkAbort n s
  | .chkJobDone n => Sys2Proof.Machine.execChkJobDone n s
  | .chkProtError n => Sys2Proof.Machine.execChkProtError n s
  | .chkConfigWrite off wide value => Sys2Proof.Machine.execChkConfigWrite off wide value s
  | .ptpCtrlWrite value => Sys2Proof.Machine.execPtpCtrlWrite value s
  | .relock => Sys2Proof.Machine.execRelock s
  | .capture => Sys2Proof.Machine.execCapture s
  | .announceRx port msg => Sys2Proof.Machine.execAnnounceRx port msg s
  | .announceTimeout => Sys2Proof.Machine.execAnnounceTimeout s
  | .delayReqSend => Sys2Proof.Machine.execDelayReqSend s
  | .delayRespRx port msg => Sys2Proof.Machine.execDelayRespRx port msg s
  | .offsetSample port msg => Sys2Proof.Machine.execOffsetSample port msg s
  | .macFrameRx port bytes fcsOk => Sys2Proof.Machine.execMacFrameRx port bytes fcsOk s
  | .hostqTxFrame queue port => Sys2Proof.Machine.execHostqTxFrame queue port s
  | .flowInstall => Sys2Proof.Machine.execFlowInstall s
  | .flowRemove index => Sys2Proof.Machine.execFlowRemove index s
  | .flowRead index => Sys2Proof.Machine.execFlowRead index s
  | .flowCmdDone => Sys2Proof.Machine.execFlowCmdDone s
  | .st2110PacketSend index => Sys2Proof.Machine.execSt2110PacketSend index s
  | .ethLinkDown port => Sys2Proof.Machine.execEthLinkDown port s
  | .ethLinkUp port => Sys2Proof.Machine.execEthLinkUp port s
  | .dpFrameStart quad width format => Sys2Proof.Machine.execDpFrameStart quad width format s
  | .dpLineRx quad pixels => Sys2Proof.Machine.execDpLineRx quad pixels s
  | .dpFrameEnd quad => Sys2Proof.Machine.execDpFrameEnd quad s
  | .wdogNoStart c => Sys2Proof.Machine.execWdogNoStart c s
  | .wdogIncomplete c => Sys2Proof.Machine.execWdogIncomplete c s
  | .sluJobRelease c => Sys2Proof.Machine.execSluJobRelease c s
  | .sluStripeStart p => Sys2Proof.Machine.execSluStripeStart p s
  | .sluStripeEnd p => Sys2Proof.Machine.execSluStripeEnd p s
  | .sluJobDrop c => Sys2Proof.Machine.execSluJobDrop c s
  | .sluApply c => Sys2Proof.Machine.execSluApply c s
  | .sluApplyDone => Sys2Proof.Machine.execSluApplyDone s
  | .vdcAdmit stream => Sys2Proof.Machine.execVdcAdmit stream s
  | .vdcRemove stream => Sys2Proof.Machine.execVdcRemove stream s
  | .vdcInject stream => Sys2Proof.Machine.execVdcInject stream s
  | .vdcCmdDone => Sys2Proof.Machine.execVdcCmdDone s
  | .entropyAuStart engine => Sys2Proof.Machine.execEntropyAuStart engine s
  | .entropyAuDone engine info => Sys2Proof.Machine.execEntropyAuDone engine info s
  | .pixelEngineStart engine => Sys2Proof.Machine.execPixelEngineStart engine s
  | .reconDone engine result => Sys2Proof.Machine.execReconDone engine result s
  | .venAdmit session => Sys2Proof.Machine.execVenAdmit session s
  | .venRemove session => Sys2Proof.Machine.execVenRemove session s
  | .venIdr session => Sys2Proof.Machine.execVenIdr session s
  | .venCmdDone => Sys2Proof.Machine.execVenCmdDone s
  | .encPictureStart => Sys2Proof.Machine.execEncPictureStart s
  | .encRowDone bits payload sealFail => Sys2Proof.Machine.execEncRowDone bits payload sealFail s
  | .encPictureDone => Sys2Proof.Machine.execEncPictureDone s
  | .encAuWritten session => Sys2Proof.Machine.execEncAuWritten session s
  | .poolCfg arg0 arg1 => Sys2Proof.Machine.execPoolCfg arg0 arg1 s
  | .bufAdd arg0 arg1 => Sys2Proof.Machine.execBufAdd arg0 arg1 s
  | .bufRemove arg0 arg1 => Sys2Proof.Machine.execBufRemove arg0 arg1 s
  | .take arg0 arg1 => Sys2Proof.Machine.execTake arg0 arg1 s
  | .publish arg0 arg1 => Sys2Proof.Machine.execPublish arg0 arg1 s
  | .free arg0 arg1 => Sys2Proof.Machine.execFree arg0 arg1 s
  | .lease arg0 arg1 => Sys2Proof.Machine.execLease arg0 arg1 s
  | .release arg0 arg1 => Sys2Proof.Machine.execRelease arg0 arg1 s
  | .srcAlloc arg0 arg1 => Sys2Proof.Machine.execSrcAlloc arg0 arg1 s
  | .srcClaim arg0 arg1 => Sys2Proof.Machine.execSrcClaim arg0 arg1 s
  | .srcRetire arg0 arg1 => Sys2Proof.Machine.execSrcRetire arg0 arg1 s
  | .stage arg0 arg1 => Sys2Proof.Machine.execStage arg0 arg1 s
  | .commit arg0 arg1 => Sys2Proof.Machine.execCommit arg0 arg1 s
  | .commitAt arg0 arg1 => Sys2Proof.Machine.execCommitAt arg0 arg1 s
  | .cancel arg0 arg1 => Sys2Proof.Machine.execCancel arg0 arg1 s
  | .snapshot arg0 arg1 => Sys2Proof.Machine.execSnapshot arg0 arg1 s
  | .easReservedOp op => Sys2Proof.Machine.execEasReservedOp op s
  | .easCommandComplete => Sys2Proof.Machine.execEasCommandComplete s
  | .scanLeaseDrop canvas => Sys2Proof.Machine.execScanLeaseDrop canvas s
  | .galleryLatch g failed => Sys2Proof.Machine.execGalleryLatch g failed s
  | .galStateUpdate g => Sys2Proof.Machine.execGalStateUpdate g s
  | .hitTableSwitch g => Sys2Proof.Machine.execHitTableSwitch g s
  | .engineWrite canvas engine => Sys2Proof.Machine.execEngineWrite canvas engine s
  | .flattenStart canvas => Sys2Proof.Machine.execFlattenStart canvas s
  | .flattenDone canvas => Sys2Proof.Machine.execFlattenDone canvas s
  | .planeSetFree canvas => Sys2Proof.Machine.execPlaneSetFree canvas s
  | .wbFramePublish canvas => Sys2Proof.Machine.execWbFramePublish canvas s
  | .galleryEnable g value => Sys2Proof.Machine.execGalleryEnable g value s
  | .canvasEnable canvas value => Sys2Proof.Machine.execCanvasEnable canvas value s
  | .canvasDisable canvas value => Sys2Proof.Machine.execCanvasDisable canvas value s
  | .weirLevelCrossing canvas level row => Sys2Proof.Machine.execWeirLevelCrossing canvas level row s
  | .fifoEmpty pixel => Sys2Proof.Machine.execFifoEmpty pixel s
  | .tileRowEvaluation g row => Sys2Proof.Machine.execTileRowEvaluation g row s
  | .glassRowResult canvas row crc more => Sys2Proof.Machine.execGlassRowResult canvas row crc more s
  | .setDeadline layer value => Sys2Proof.Machine.execSetDeadline layer value s
  | .proofStart value => Sys2Proof.Machine.execProofStart value s
  | .watchPortRead addr => Sys2Proof.Machine.execWatchPortRead addr s
  | .heartbeatSend g => Sys2Proof.Machine.execHeartbeatSend g s
  | .heartbeatRx port bytes => Sys2Proof.Machine.execHeartbeatRx port bytes s
  | .rowRecordSend canvas row => Sys2Proof.Machine.execRowRecordSend canvas row s
  | .rowRecordRx port bytes => Sys2Proof.Machine.execRowRecordRx port bytes s
  | .rowCompare canvas row => Sys2Proof.Machine.execRowCompare canvas row s
  | .rowRecordTimeout canvas row => Sys2Proof.Machine.execRowRecordTimeout canvas row s
  | .twinLineRx canvas line bytes => Sys2Proof.Machine.execTwinLineRx canvas line bytes s
  | .twinLate canvas => Sys2Proof.Machine.execTwinLate canvas s
  | .mirrorRx mirror => Sys2Proof.Machine.execMirrorRx mirror s
  | .yield => Sys2Proof.Machine.execYield s
  | .resync => Sys2Proof.Machine.execResync s
  | .resyncImageRx image => Sys2Proof.Machine.execResyncImageRx image s
  | .seqStart n => Sys2Proof.Machine.execSeqStart n s
  | .seqStartDone n => Sys2Proof.Machine.execSeqStartDone n s
  | .halt n => Sys2Proof.Machine.execHalt n s
  | .seqHaltDone n => Sys2Proof.Machine.execSeqHaltDone n s
  | .resume n => Sys2Proof.Machine.execResume n s
  | .step n => Sys2Proof.Machine.execStep n s
  | .seqSignal number => Sys2Proof.Machine.execSeqSignal number s
  | .seqRegWrite n k value => Sys2Proof.Machine.execSeqRegWrite n k value s
  | .seqWindowWrite n off bytes => Sys2Proof.Machine.execSeqWindowWrite n off bytes s
  | .seqTimerExpiry n t => Sys2Proof.Machine.execSeqTimerExpiry n t s
  | .seqWaitComplete n => Sys2Proof.Machine.execSeqWaitComplete n s
  | .seqFabricReadReturn n => Sys2Proof.Machine.execSeqFabricReadReturn n s
  | .seqWriteResponse n => Sys2Proof.Machine.execSeqWriteResponse n s
  | .undefinedOpcode n word => Sys2Proof.Machine.execUndefinedOpcode n word s
  | .add n rd ra rb fn imm => Sys2Proof.Machine.execAdd n rd ra rb fn imm s
  | .sub n rd ra rb fn imm => Sys2Proof.Machine.execSub n rd ra rb fn imm s
  | .and n rd ra rb fn imm => Sys2Proof.Machine.execAnd n rd ra rb fn imm s
  | .or n rd ra rb fn imm => Sys2Proof.Machine.execOr n rd ra rb fn imm s
  | .xor n rd ra rb fn imm => Sys2Proof.Machine.execXor n rd ra rb fn imm s
  | .shl n rd ra rb fn imm => Sys2Proof.Machine.execShl n rd ra rb fn imm s
  | .shr n rd ra rb fn imm => Sys2Proof.Machine.execShr n rd ra rb fn imm s
  | .sra n rd ra rb fn imm => Sys2Proof.Machine.execSra n rd ra rb fn imm s
  | .addi n rd ra rb fn imm => Sys2Proof.Machine.execAddi n rd ra rb fn imm s
  | .andi n rd ra rb fn imm => Sys2Proof.Machine.execAndi n rd ra rb fn imm s
  | .ori n rd ra rb fn imm => Sys2Proof.Machine.execOri n rd ra rb fn imm s
  | .xori n rd ra rb fn imm => Sys2Proof.Machine.execXori n rd ra rb fn imm s
  | .shli n rd ra rb fn imm => Sys2Proof.Machine.execShli n rd ra rb fn imm s
  | .shri n rd ra rb fn imm => Sys2Proof.Machine.execShri n rd ra rb fn imm s
  | .srai n rd ra rb fn imm => Sys2Proof.Machine.execSrai n rd ra rb fn imm s
  | .lih n rd ra rb fn imm => Sys2Proof.Machine.execLih n rd ra rb fn imm s
  | .mul n rd ra rb fn imm => Sys2Proof.Machine.execMul n rd ra rb fn imm s
  | .mulhu n rd ra rb fn imm => Sys2Proof.Machine.execMulhu n rd ra rb fn imm s
  | .divu n rd ra rb fn imm => Sys2Proof.Machine.execDivu n rd ra rb fn imm s
  | .remu n rd ra rb fn imm => Sys2Proof.Machine.execRemu n rd ra rb fn imm s
  | .cmp n rd ra rb fn imm => Sys2Proof.Machine.execCmp n rd ra rb fn imm s
  | .cmpi n rd ra rb fn imm => Sys2Proof.Machine.execCmpi n rd ra rb fn imm s
  | .br n rd ra rb fn imm => Sys2Proof.Machine.execBr n rd ra rb fn imm s
  | .jmp n rd ra rb fn imm => Sys2Proof.Machine.execJmp n rd ra rb fn imm s
  | .jr n rd ra rb fn imm => Sys2Proof.Machine.execJr n rd ra rb fn imm s
  | .ld n rd ra rb fn imm => Sys2Proof.Machine.execLd n rd ra rb fn imm s
  | .st n rd ra rb fn imm => Sys2Proof.Machine.execSt n rd ra rb fn imm s
  | .fld n rd ra rb fn imm => Sys2Proof.Machine.execFld n rd ra rb fn imm s
  | .fst n rd ra rb fn imm => Sys2Proof.Machine.execFst n rd ra rb fn imm s
  | .fence n rd ra rb fn imm => Sys2Proof.Machine.execFence n rd ra rb fn imm s
  | .ksisHalt n rd ra rb fn imm => Sys2Proof.Machine.execKsisHalt n rd ra rb fn imm s
  | .trap n rd ra rb fn imm => Sys2Proof.Machine.execTrap n rd ra rb fn imm s
  | .umode n rd ra rb fn imm => Sys2Proof.Machine.execUmode n rd ra rb fn imm s
  | .sysrd n rd ra rb fn imm => Sys2Proof.Machine.execSysrd n rd ra rb fn imm s
  | .ewait n rd ra rb fn imm => Sys2Proof.Machine.execEwait n rd ra rb fn imm s
  | .esig n rd ra rb fn imm => Sys2Proof.Machine.execEsig n rd ra rb fn imm s
  | .emask n rd ra rb fn imm => Sys2Proof.Machine.execEmask n rd ra rb fn imm s
  | .tset n rd ra rb fn imm => Sys2Proof.Machine.execTset n rd ra rb fn imm s
  | .trd n rd ra rb fn imm => Sys2Proof.Machine.execTrd n rd ra rb fn imm s
  | .twait n rd ra rb fn imm => Sys2Proof.Machine.execTwait n rd ra rb fn imm s
  | .lset n rd ra rb fn imm => Sys2Proof.Machine.execLset n rd ra rb fn imm s
  | .lshow n rd ra rb fn imm => Sys2Proof.Machine.execLshow n rd ra rb fn imm s
  | .lhide n rd ra rb fn imm => Sys2Proof.Machine.execLhide n rd ra rb fn imm s
  | .csetCfg n rd ra rb fn imm => Sys2Proof.Machine.execCsetCfg n rd ra rb fn imm s
  | .csetBg n rd ra rb fn imm => Sys2Proof.Machine.execCsetBg n rd ra rb fn imm s
  | .estage n rd ra rb fn imm => Sys2Proof.Machine.execEstage n rd ra rb fn imm s
  | .ksisCommit n rd ra rb fn imm => Sys2Proof.Machine.execKsisCommit n rd ra rb fn imm s
  | .ksisCancel n rd ra rb fn imm => Sys2Proof.Machine.execKsisCancel n rd ra rb fn imm s
  | .cmtat n rd ra rb fn imm => Sys2Proof.Machine.execCmtat n rd ra rb fn imm s
  | .lwait n rd ra rb fn imm => Sys2Proof.Machine.execLwait n rd ra rb fn imm s
  | .dlset n rd ra rb fn imm => Sys2Proof.Machine.execDlset n rd ra rb fn imm s
  | .vread n rd ra rb fn imm => Sys2Proof.Machine.execVread n rd ra rb fn imm s
  | .pinj n rd ra rb fn imm => Sys2Proof.Machine.execPinj n rd ra rb fn imm s
  | .ksisLease n rd ra rb fn imm => Sys2Proof.Machine.execKsisLease n rd ra rb fn imm s
  | .ksisRelease n rd ra rb fn imm => Sys2Proof.Machine.execKsisRelease n rd ra rb fn imm s
  | .ksisFree n rd ra rb fn imm => Sys2Proof.Machine.execKsisFree n rd ra rb fn imm s
  | .thit n rd ra rb fn imm => Sys2Proof.Machine.execThit n rd ra rb fn imm s
  | .japp n rd ra rb fn imm => Sys2Proof.Machine.execJapp n rd ra rb fn imm s
  | .ckrun n rd ra rb fn imm => Sys2Proof.Machine.execCkrun n rd ra rb fn imm s
  | .touchScanStart inst => Sys2Proof.Machine.execTouchScanStart inst s
  | .touchScanEnd inst counts => Sys2Proof.Machine.execTouchScanEnd inst counts s
  | .touchReportEvent inst => Sys2Proof.Machine.execTouchReportEvent inst s
  | .touchRemoteReportRx port report => Sys2Proof.Machine.execTouchRemoteReportRx port report s
  | .touchTestStart inst => Sys2Proof.Machine.execTouchTestStart inst s
  | .touchTestDone inst coupled stray => Sys2Proof.Machine.execTouchTestDone inst coupled stray s
  | .touchConfigWrite off value => Sys2Proof.Machine.execTouchConfigWrite off value s
  | .wakeScan inst counts => Sys2Proof.Machine.execWakeScan inst counts s
  | .cprTailWrite e value => Sys2Proof.Machine.execCprTailWrite e value s
  | .cprJobStart e => Sys2Proof.Machine.execCprJobStart e s
  | .cprJobEnd e => Sys2Proof.Machine.execCprJobEnd e s
  | .journalRequest => Sys2Proof.Machine.execJournalRequest s
  | .journalAppend => Sys2Proof.Machine.execJournalAppend s
  | .journalRingWrite => Sys2Proof.Machine.execJournalRingWrite s
  | .jnlAckWrite value => Sys2Proof.Machine.execJnlAckWrite value s
  | .headCapture => Sys2Proof.Machine.execHeadCapture s
  | .hostAppend => Sys2Proof.Machine.execHostAppend s
  | .evidCaptureStart canvas => Sys2Proof.Machine.execEvidCaptureStart canvas s
  | .evidCaptureDone => Sys2Proof.Machine.execEvidCaptureDone s
  | .quadUseCommit => Sys2Proof.Machine.execQuadUseCommit s
  | .quadPllLock q => Sys2Proof.Machine.execQuadPllLock q s
  | .quadPllLockLoss q => Sys2Proof.Machine.execQuadPllLockLoss q s
  | .laneLockLoss lane => Sys2Proof.Machine.execLaneLockLoss lane s
  | .dptxTrainingStart q => Sys2Proof.Machine.execDptxTrainingStart q s
  | .dptxTrainingEnd q result levels => Sys2Proof.Machine.execDptxTrainingEnd q result levels s
  | .dptxRetry q => Sys2Proof.Machine.execDptxRetry q s
  | .irqHpd q low status => Sys2Proof.Machine.execIrqHpd q low status s
  | .hpdUnplug q => Sys2Proof.Machine.execHpdUnplug q s
  | .auxStart q value => Sys2Proof.Machine.execAuxStart q value s
  | .auxDone q reply bytes => Sys2Proof.Machine.execAuxDone q reply bytes s
  | .dprxAuxRequest q req addr bytes len => Sys2Proof.Machine.execDprxAuxRequest q req addr bytes len s
  | .dprxTrained q => Sys2Proof.Machine.execDprxTrained q s
  | .txFirWrite lane value => Sys2Proof.Machine.execTxFirWrite lane value s
  | .laneTestWrite lane value => Sys2Proof.Machine.execLaneTestWrite lane value s
  | .prbsSync lane first more => Sys2Proof.Machine.execPrbsSync lane first more s
  | .lnkCfgWrite port value => Sys2Proof.Machine.execLnkCfgWrite port value s
  | .blockLockAcquired port lane => Sys2Proof.Machine.execBlockLockAcquired port lane s
  | .markerRx port lane block at_ => Sys2Proof.Machine.execMarkerRx port lane block at_ s
  | .markerSend port => Sys2Proof.Machine.execMarkerSend port s
  | .capRx port block => Sys2Proof.Machine.execCapRx port block s
  | .ndosinRateChange port => Sys2Proof.Machine.execNdosinRateChange port s
  | .bringupTimeout port => Sys2Proof.Machine.execBringupTimeout port s
  | .bringupRestart port => Sys2Proof.Machine.execBringupRestart port s
  | .ndosinPacketSend port => Sys2Proof.Machine.execNdosinPacketSend port s
  | .ndosinPacketRx port skip lanes room => Sys2Proof.Machine.execNdosinPacketRx port skip lanes room s
  | .widthRx port block => Sys2Proof.Machine.execWidthRx port block s
  | .widthChangeDone port => Sys2Proof.Machine.execWidthChangeDone port s
  | .laneRestoreTry port => Sys2Proof.Machine.execLaneRestoreTry port s
  | .protectionCheck master => Sys2Proof.Machine.execProtectionCheck master s
  | .fabricGrant port => Sys2Proof.Machine.execFabricGrant port s
  | .decodeError => Sys2Proof.Machine.execDecodeError s
  | .responseReturn name => Sys2Proof.Machine.execResponseReturn name s
  | .masterReset master => Sys2Proof.Machine.execMasterReset master s
  | .mresetDone => Sys2Proof.Machine.execMresetDone s
  | .hostRequest write addr len bytes => Sys2Proof.Machine.execHostRequest write addr len bytes s
  | .hostCompletion => Sys2Proof.Machine.execHostCompletion s
  | .msixMessage vector => Sys2Proof.Machine.execMsixMessage vector s
  | .msixUnmask vector => Sys2Proof.Machine.execMsixUnmask vector s
  | .mbxDoorbellH2d => Sys2Proof.Machine.execMbxDoorbellH2d s
  | .mbxDoorbellD2h => Sys2Proof.Machine.execMbxDoorbellD2h s
  | .mbxAttach version => Sys2Proof.Machine.execMbxAttach version s
  | .pciePerst => Sys2Proof.Machine.execPciePerst s
  | .pcieHotReset => Sys2Proof.Machine.execPcieHotReset s
  | .prtHoldRequest u => Sys2Proof.Machine.execPrtHoldRequest u s
  | .prtHoldHeld u => Sys2Proof.Machine.execPrtHoldHeld u s
  | .prtHoldRelease u => Sys2Proof.Machine.execPrtHoldRelease u s
  | .prtConfigEffect u => Sys2Proof.Machine.execPrtConfigEffect u s
  | .prtRegionWrite off value => Sys2Proof.Machine.execPrtRegionWrite off value s
  | .dramInit => Sys2Proof.Machine.execDramInit s
  | .dramInitDone failed margins => Sys2Proof.Machine.execDramInitDone failed margins s
  | .dramReset => Sys2Proof.Machine.execDramReset s
  | .freqRequest sp => Sys2Proof.Machine.execFreqRequest sp s
  | .freqDone => Sys2Proof.Machine.execFreqDone s
  | .retrainWindowStart c => Sys2Proof.Machine.execRetrainWindowStart c s
  | .retrainWindowEnd c margin => Sys2Proof.Machine.execRetrainWindowEnd c margin s
  | .refresh c => Sys2Proof.Machine.execRefresh c s
  | .mr4Read c code => Sys2Proof.Machine.execMr4Read c code s
  | .panicRaise source => Sys2Proof.Machine.execPanicRaise source s
  | .panicRelease source => Sys2Proof.Machine.execPanicRelease source s
  | .dramReadEcc addr uncorr kind => Sys2Proof.Machine.execDramReadEcc addr uncorr kind s
  | .powerOnReset device position bootSrc => Sys2Proof.Machine.execPowerOnReset device position bootSrc s
  | .mainPowerGood => Sys2Proof.Machine.execMainPowerGood s
  | .brownout => Sys2Proof.Machine.execBrownout s
  | .warmReset => Sys2Proof.Machine.execWarmReset s
  | .warm => Sys2Proof.Machine.execWarm s
  | .bootStart image => Sys2Proof.Machine.execBootStart image s
  | .bootGo => Sys2Proof.Machine.execBootGo s
  | .bootDigestDone => Sys2Proof.Machine.execBootDigestDone s
  | .bootRecord => Sys2Proof.Machine.execBootRecord s
  | .bootWaitExpiry => Sys2Proof.Machine.execBootWaitExpiry s
  | .bootEnd => Sys2Proof.Machine.execBootEnd s
  | .otpProgram slot => Sys2Proof.Machine.execOtpProgram slot s
  | .otpRevoke slot => Sys2Proof.Machine.execOtpRevoke slot s
  | .otpDone => Sys2Proof.Machine.execOtpDone s
  | .stillEnter => Sys2Proof.Machine.execStillEnter s
  | .stillDrainDone => Sys2Proof.Machine.execStillDrainDone s
  | .stillMainOff => Sys2Proof.Machine.execStillMainOff s
  | .wakePin => Sys2Proof.Machine.execWakePin s
  | .rtcAlarm => Sys2Proof.Machine.execRtcAlarm s
  | .wake device position bootSrc => Sys2Proof.Machine.execWake device position bootSrc s
  | .wakeHoldExpiry => Sys2Proof.Machine.execWakeHoldExpiry s
  | .rtcWrite seconds => Sys2Proof.Machine.execRtcWrite seconds s
  | .lbist => Sys2Proof.Machine.execLbist s
  | .mbist => Sys2Proof.Machine.execMbist s
  | .bistDone signature failed => Sys2Proof.Machine.execBistDone signature failed s
  | .scnLineBoundary g => Sys2Proof.Machine.execScnLineBoundary g s
  | .islandRelock refclk islands => Sys2Proof.Machine.execIslandRelock refclk islands s
  | .laneCdrLock lane found taps => Sys2Proof.Machine.execLaneCdrLock lane found taps s
  | .hpdPulseEnd q => Sys2Proof.Machine.execHpdPulseEnd q s
  | .debugMasterRequest addr write len bytes => Sys2Proof.Machine.execDebugMasterRequest addr write len bytes s

end Sys2Proof.Machine
end

