-- ==== Sys2Proof/Safety.lean ====
section
/-!
DEFINITION. What claims are stated in: the canonical forms of the sparse structures, registers left alone, and the registers whose
writes follow a rule of their own.
-/

namespace Sys2Proof.Machine

/-- Registers and DRAM are in canonical form. -/
def State.canonical (s : State) : Bool := Map.wf s.regs && Memory.wf s.mem

/-- Every register but those at the given offsets holds what it held. -/
def sameRegsBut (s t : State) (l : List Nat) : Prop := ∀ a, a ∉ l → Map.find t.regs a = Map.find s.regs a

/-- The registers whose writes do more than R17, R22 and R652 say of every register. -/
def ownRules : List Reg :=
  [R.GLB_MBX_ATTACH, R.GLB_MBX_DOORBELL, R.PWR_CTRL, R.PWR_STILL_CMD, R.PWR_BOOT_GO, R.PWR_OTP_CMD, R.PWR_RTC_SEC, R.BST_CMD,
   R.XBR_MRESET, R.XBR_PARK, R.PRT_HOLD, R.PRT_CTRL, R.PRT_RGN_START, R.PRT_RGN_END, R.PRT_RGN_ATTR, R.DMC_CTRL, R.DMC_ECC_EN, R.DMC_FREQ,
   R.LANE_QUAD_COMMIT, R.LANE_DPTX_CFG, R.LANE_DPRX_CFG, R.LANE_AUX_CMD, R.LANE_AUX_DATA, R.LANE_DPRX_EDID, R.LANE_TX_FIR,
   R.LANE_TEST, R.LNK_CFG, R.PTP_CTRL, R.NET_MAC_CTRL, R.NET_FLOW_CMD, R.SLU_CTX_CMD, R.VDC_CMD, R.VEN_CMD, R.CHK_CTRL, R.CHK_POLY,
   R.CHK_INIT, R.CHK_XOROUT, R.CHK_EXPECT, R.CHK_SRC, R.CHK_LEN, R.CHK_FOLD, R.EAS_CMD, R.EAS_SRC_WINDOW, R.EAS_LT_BASE,
   R.CMP_SPILL_ADDR, R.CMP_SPILL_SIZE, R.CMP_CNV_CFG, R.CMP_CNV_BG, R.CNV_GAL_CTRL, R.CNV_GAL_PLL, R.CNV_GAL_HV, R.CNV_GAL_VB, R.CNV_GAL_VSYNC,
   R.CNV_CTRL, R.CNV_WEIR, R.LDG_SET_DL, R.LDG_PROOF_CMD, R.TND_CTRL, R.TND_CMD, R.SEQ_SIGNAL, R.SEQ_CMD, R.SEQ_REG, R.SEQ_EV_MASK,
   R.TCH_TEST_CMD, R.CPR_TAIL, R.CPR_RING_BASE, R.JNL_ACK, R.JNL_HEAD_CAPTURE, R.JNL_HOST_CMD, R.JNL_EVID_RPTR, R.JNL_EVID_CMD] ++ touchConfig

/-- A register has no rule of its own: its fields follow R17, R22 and R652. -/
def plainReg (r : Reg) : Bool := !ownRules.any fun x => x.base == r.base

/-! ### Sequencers -/

/-- A word can issue on sequencer `n`: it is RUNNING with no halt asked and no read outstanding, and its program counter lies in its
program (R427, R430). -/
def issuable (s : State) (n : Nat) : Prop := canIssue (seqOf s n) = true ∧ inProgram (seqOf s n) = true

/-- A sequencer that has just retired an instruction: a stepped one halts, or waits for its posted writes first (R417, R418). -/
def retired (q : Seq) : Seq :=
  if !q.stepping then q
  else if q.read.isNone && q.posted.isEmpty then { q with run := .halted, halting := false, stepping := false, wait := none, easWait := false }
  else { q with halting := true }

/-- From `s` to `t`, sequencer `n` retires an instruction that leaves it as `q`, and nothing else changes but its count of retired
instructions, its HALTED flag where it was stepped, and the free values drawn. -/
def completes (s t : State) (n : Nat) (q : Seq) : Prop :=
  seqOf t n = retired q ∧ (∀ m, m ≠ n → seqOf t m = seqOf s m) ∧
  rd t F.SEQ_RETIRED_COUNT n = (rd s F.SEQ_RETIRED_COUNT n + 1) % 2 ^ 64 ∧
  sameRegsBut s t [R.SEQ_RETIRED.addr n 0, R.SEQ_EVENT.addr n 0, R.SEQ_EVENT_CNT.addr n 0] ∧
  (q.stepping = false → rd t F.SEQ_EVENT_HALTED n = rd s F.SEQ_EVENT_HALTED n) ∧
  t = { s with seqs := t.seqs, regs := t.regs, fab := t.fab, free := t.free }

/-- From `s` to `t`, sequencer `n` takes a fault: SEQ_FAULT records it; in user mode with a handler it goes on there in supervisor mode, and
otherwise it halts in FAULTED with FAULT raised and one Journal entry presented (R428). The address counts for the causes ALIGN, PROT and
DECODE. Nothing it computed with has changed. -/
def faultsWith (s t : State) (n cause addr : Nat) : Prop :=
  let q := seqOf s n
  let r := seqOf t n
  rdReg t R.SEQ_FAULT n % 2 ^ 24 = cause + 16 * bit q.user + 32 * (q.pc % 2 ^ 14) ∧
  (cause = 4 ∨ cause = 7 ∨ cause = 8 → rdReg t R.SEQ_FAULT n / 2 ^ 24 = addr % 2 ^ 40) ∧
  r.regs = q.regs ∧ r.imem = q.imem ∧ r.dmem = q.dmem ∧ r.posted = q.posted ∧ t.eas = s.eas ∧ t.cmp = s.cmp ∧ t.mem = s.mem ∧
  if q.user = true ∧ q.trap ≠ 0 then
    r = retired { q with user := false, pc := q.trap / 8, run := .running, wait := none, read := none, easWait := false } ∧ t.jnl = s.jnl
  else r.run = .faulted ∧ r.pc = q.pc ∧ r.user = q.user ∧ rd t F.SEQ_EVENT_FAULT n = 1 ∧ t.jnl.asked.length = s.jnl.asked.length + 1

end Sys2Proof.Machine
end

