-- ==== Sys2Proof/Certificates/Slice0/Obligations.lean ====
section
/-!
DEFINITION. The statements for the provers, from the numbered rules of spec/.
-/

section
open Sys2Proof Sys2Proof.Machine

/-- For every command, queue rest and state: a step of the state with that command at the front of its queue is exec of the command on the state with the queue's rest. (The queue is the model's, log entry 11.) -/
def Obligations.StepRunsFrontCommand : Prop :=
  ∀ (c : Instr) (rest : List Instr) (s : State),
    step { s with pending := c :: rest } = exec c { s with pending := rest }

/-- The model's choice of log entry 1: with no command waiting a step answers a next state one NET cycle later. In the main power phase the PTP clock advances by its nominal 1.6 ns plus 8 units per unit of RATE_ADJ, modulo 2^48 seconds; outside it the clock stands. Memory, the Easel, the composer, the fabric, the queue, the outbox and every register but PWR_RTC_SEC and the SEQ_CYCLES of the 16 sequencers stay as they are. -/
def Obligations.EmptyQueueLetsTimePass : Prop :=
  ∀ s : State, s.pending = [] →
    ∃ t, step s = .next t ∧ t.time.cyc = s.time.cyc + 1 ∧
      t.time.ptp = (if s.pwr.phase = .main then
        (s.time.ptp + (8 * 2 ^ 40 + 8 * signedOf 32 (rd s F.PTP_RATE_ADJ) : Int).toNat) % ptpEnd else s.time.ptp) ∧
      t = { s with time := t.time, regs := t.regs } ∧
      sameRegsBut s t (R.PWR_RTC_SEC.base :: (upto 16).map fun n => R.SEQ_CYCLES.addr n 0)

/-- State.reset meets the invariant that StepKeepsCanonicalForms keeps: register offsets strictly rising; DRAM addresses strictly rising with no entry equal to what an unlisted byte reads as. (What an unlisted byte reads as is the model's choice, log entry 2.) -/
def Obligations.ResetIsCanonical : Prop :=
  State.reset.canonical = true

/-- For every state whose registers and DRAM are in canonical form (offsets and addresses strictly rising, no DRAM entry equal to what an unlisted byte reads as), if a step answers a next state, that state's are too: whatever the command, through every register write, DRAM write, reset, training and loss of DRAM, equal contents stay equal data. -/
def Obligations.StepKeepsCanonicalForms : Prop :=
  ∀ s t : State, s.canonical = true → step s = .next t → t.canonical = true

/-- For every command and state, if exec answers a next state, the queue of waiting commands in it is the one before: resets of the part among them. (The queue is the model's, log entry 11.) -/
def Obligations.CommandsKeepTheQueue : Prop :=
  ∀ (c : Instr) (s t : State), exec c s = .next t → t.pending = s.pending

/-- For every command and state, exec answers a next state: no command of the block ends in a fault or a refusal. What each does where it takes effect is stated command by command in the other statements. -/
def Obligations.EveryCommandAnswersANextState : Prop :=
  ∀ (c : Instr) (s : State), ∃ t, exec c s = .next t

/-- For a register of 32 bits without rules of its own and without address bits that must be 0, at an aligned offset: REGISTER_WRITE answers a next state in which nothing but registers changed; an RW or RWS field reads the value written if it is within its range and what it held otherwise; an RWL field does so while its block's lock is clear and keeps its value once it is set; a W1C field loses the bits written 1; a W1S field gains them; every WO field keeps its stored bits. -/
def Obligations.RegisterWriteActsByAccessType : Prop :=
  ∀ (s : State) (off : BitVec 26) (value : BitVec 64) (l : Located) (f : Field),
    locate off.toNat = some l → l.upper = false → l.reg.wide = false → plainReg l.reg = true → l.reg.align = 0 →
    off.toNat % 4 = 0 → f ∈ l.reg.fields →
    ∃ t, exec (.registerWrite off false value) s = .next t ∧ t = { s with regs := t.regs } ∧
      (let v := slice value.toNat f.lo f.w
       let old := slice (rdReg s l.reg l.i l.j) f.lo f.w
       let new := slice (rdReg t l.reg l.i l.j) f.lo f.w
       let ranged := if f.min ≤ v ∧ v ≤ f.max then v else old
       (f.acc = .rw ∨ f.acc = .rws → new = ranged) ∧
       (f.acc = .rwl → new = if lockedReg s l.reg l.i l.j then old else ranged) ∧
       (f.acc = .w1c → ∀ k, new.testBit k = (old.testBit k && !v.testBit k)) ∧
       (f.acc = .w1s → ∀ k, new.testBit k = (old.testBit k || v.testBit k)) ∧
       (f.acc = .wo → new = old))

/-- At an offset that hits a register: W1C_FLAG_CLEAR clears exactly the W1C flags that the mask names and leaves all else. CNT_CLR clears the event counts that the register's CNT_CLR bit names, and changes nothing but registers. BLOCK_LOCK_SET of a 32-bit register that holds a lock, without rules of its own, sets the lock bits written 1; an RWL field of that register takes its ranged value if the lock was clear before the write, and keeps its value otherwise. -/
def Obligations.ClearsAndLocks : Prop :=
  (∀ (s : State) (off : BitVec 26) (mask : BitVec 32) (l : Located), locate off.toNat = some l →
    ∃ t, exec (.w1cFlagClear off mask) s = .next t ∧ t = { s with regs := t.regs } ∧ sameRegsBut s t [l.reg.addr l.i l.j] ∧
      ∀ k, (rdReg t l.reg l.i l.j).testBit k = ((rdReg s l.reg l.i l.j).testBit k &&
        !(mask.toNat.testBit k && l.reg.fields.any fun f => f.acc == .w1c && decide (f.lo ≤ k) && decide (k < f.lo + f.w)))) ∧
  (∀ (s : State) (off : BitVec 26) (l : Located), locate off.toNat = some l →
    ∃ t, exec (.cntClr off) s = .next t ∧ t = { s with regs := t.regs } ∧
      ∀ x ∈ cntClr, x.1.base = l.reg.base → ∀ c ∈ x.2, rd t ⟨c.1, c.2, 8⟩ l.i = 0) ∧
  (∀ (s : State) (off : BitVec 26) (value : BitVec 32) (l : Located) (f : Field),
    locate off.toNat = some l → l.upper = false → l.reg.wide = false → plainReg l.reg = true → l.reg.align = 0 →
    (l.reg.fields.any fun g => g.acc == .w1s) = true → f ∈ l.reg.fields →
    ∃ t, exec (.blockLockSet off value) s = .next t ∧ t = { s with regs := t.regs } ∧
      (let v := slice value.toNat f.lo f.w
       let old := slice (rdReg s l.reg l.i l.j) f.lo f.w
       let new := slice (rdReg t l.reg l.i l.j) f.lo f.w
       (f.acc = .w1s → ∀ k, new.testBit k = (old.testBit k || v.testBit k)) ∧
       (f.acc = .rwl → new = if lockedReg s l.reg l.i l.j then old else if f.min ≤ v ∧ v ≤ f.max then v else old)))

/-- In the main power phase ISLAND_LOST of locked islands or of REFCLK clears their ISLAND_LOCK and REFCLK_OK bits, sets ISLAND_LOST, raises vector 0, asserts the alert and leaves the device in Gesso hold with every canvas to show Gesso. ISLAND_RELOCK sets the lock bits and leaves the hold. GALLERY_LOST of a locked gallery sets GALLERY_LOST, clears its lock and makes every canvas of the gallery dark. GALLERY_PLL_RELOCK of an enabled gallery whose PLL is not locked sets its lock, outside Still. Memory stays as it is. -/
def Obligations.ClockLossAndReturn : Prop :=
  (∀ (refclk : Bool) (islands : BitVec 6) (s : State), s.pwr.phase = .main →
    (refclk && rdb s F.PWR_CLK_STATUS_REFCLK_OK) = true ∨ (rd s F.PWR_CLK_STATUS_ISLAND_LOCK &&& islands.toNat) ≠ 0 →
    ∃ t, exec (.islandLost refclk islands) s = .next t ∧ rd t F.PWR_CLK_EVENT_ISLAND_LOST = 1 ∧
      rd t F.PWR_CLK_STATUS_ISLAND_LOCK = (rd s F.PWR_CLK_STATUS_ISLAND_LOCK &&& (63 - islands.toNat)) ∧
      rd t F.PWR_CLK_STATUS_REFCLK_OK = bit (rdb s F.PWR_CLK_STATUS_REFCLK_OK && !refclk) ∧
      0 ∈ t.fab.pba ∧ t.cmp.alert = true ∧ rd t F.DMC_GSTATUS_HOLD = 1 ∧ t.dmc.holdClock = true ∧ t.mem = s.mem ∧
      (rd s F.DMC_GSTATUS_HOLD = 0 → ∀ c, c < 32 → (cnvOf t c).gesso.hold = true)) ∧
  (∀ (refclk : Bool) (islands : BitVec 6) (s : State), s.pwr.phase = .main →
    ∃ t, exec (.islandRelock refclk islands) s = .next t ∧
      rd t F.PWR_CLK_STATUS_ISLAND_LOCK = (rd s F.PWR_CLK_STATUS_ISLAND_LOCK ||| islands.toNat) ∧
      rd t F.PWR_CLK_STATUS_REFCLK_OK = bit (rdb s F.PWR_CLK_STATUS_REFCLK_OK || refclk) ∧
      t = { s with regs := t.regs } ∧ sameRegsBut s t [R.PWR_CLK_STATUS.base]) ∧
  (∀ (g : Fin 8) (s : State), (galOf s g.val).locked = true →
    ∃ t, exec (.galleryLost g) s = .next t ∧ rd t F.PWR_CLK_EVENT_GALLERY_LOST = 1 ∧ (galOf t g.val).locked = false ∧
      bitOn (rd t F.PWR_CLK_STATUS_GALLERY_LOCK) g.val = false ∧ t.mem = s.mem ∧
      ∀ c ∈ canvasesOf s g.val, (cnvOf t c).dark = true) ∧
  (∀ (g : Fin 8) (s : State), rd s F.CNV_GAL_CTRL_EN g.val = 1 → (galOf s g.val).locked = false → s.pwr.phase ≠ .still →
    ∃ t, exec (.galleryPllRelock g) s = .next t ∧ (galOf t g.val).locked = true ∧
      bitOn (rd t F.PWR_CLK_STATUS_GALLERY_LOCK) g.val = true ∧ t.mem = s.mem)

/-- For two n-bit values, n at least 1: a is later than b exactly when (a - b) mod 2^n lies from 1 to 2^(n-1) - 1; when the difference is 0 or exactly 2^(n-1), neither value is later than the other. -/
def Obligations.SerialComparison : Prop :=
  ∀ n a b : Nat, 1 ≤ n → a < 2 ^ n → b < 2 ^ n →
    (serialLater n a b = true ↔
      1 ≤ ((a : Int) - b) % (2 ^ n : Nat) ∧ ((a : Int) - b) % (2 ^ n : Nat) ≤ ((2 ^ (n - 1) : Nat) : Int) - 1) ∧
    (((a : Int) - b) % (2 ^ n : Nat) = 0 ∨ ((a : Int) - b) % (2 ^ n : Nat) = ((2 ^ (n - 1) : Nat) : Int) →
      serialLater n a b = false ∧ serialLater n b a = false)

/-- For every address block and every tile: the seal CRC, whose register starts at the folded initial value XOR 0xFFFFFFFF with the final XOR applied, equals the CRC-32C without fold of the address block followed by the tile bytes; and the folded initial value is the CRC-32C of the address block. -/
def Obligations.SealIsCrcOfBlockAndTile : Prop :=
  ∀ block tile : List Byte,
    sealTile block tile = crc32c (block ++ tile) ∧
    sealTile block tile = crc32cUpdate (crc32c block ^^^ 0xFFFFFFFF) tile ^^^ 0xFFFFFFFF

/-- For every device, domain, identifier, sequence below 2^32, tile index, buffer base and tile bytes: the CRC computed with the SEQ bytes at 0, XORed with the term that depends only on the sequence and on the number of tile bytes, is the seal CRC computed with that sequence. -/
def Obligations.ProvisionalSealConversionIsExact : Prop :=
  ∀ (dev dom ident seq tile base : Nat) (l : List Byte), seq < 2 ^ 32 →
    (sealFromProvisional (BitVec.ofNat 32 (tileSeal dev dom ident 0 tile base l)) seq l.length).toNat =
      tileSeal dev dom ident seq tile base l

/-- With BUSY 0, CHK_START takes the written settings. If LEN is 1 to 0xFFFFFFFE, the range starts outside check areas and ends in populated DRAM, WIDTH is 8 to 64 and no parameter has a bit at or above it, the unit is BUSY. If LEN is 0 or 0xFFFFFFFF it is refused with code 1; else, the range being good, a WIDTH outside 8 to 64 is refused with 2; a parameter bit at or above WIDTH with 3; a source in the check area of a region with ECC, or whose range lies in register space, with 4, and one in register space whose range passes its end with 1. With BUSY 1 START is refused with 5. A refused START leaves CHK_RESULT and BUSY as they were. CHK_CONFIG_WRITE of CHK_POLY sets it with BUSY 0, and leaves it unchanged and refuses with code 5 with BUSY 1. -/
def Obligations.CheckUnitStarts : Prop :=
  (∀ (n : Fin 16) (v : BitVec 32) (s : State), rd s F.CHK_STATUS_BUSY n = 0 →
    let c := writeReg s R.CHK_CTRL n 0 (v.toNat ||| 1) 0xFFFFFFFF
    let w := rd c F.CHK_CTRL_WIDTH n
    let src := rd s F.CHK_SRC_ADDR n
    let len := rd s F.CHK_LEN_LEN n
    let goodLen := 1 ≤ len ∧ len ≤ 0xFFFFFFFE
    let inRange := src < 2 ^ 36 ∧ src + len ≤ dramSize s ∧ inCheckArea s src = false
    let clean := rdReg s R.CHK_POLY n < 2 ^ w ∧ rdReg s R.CHK_INIT n < 2 ^ w ∧ rdReg s R.CHK_XOROUT n < 2 ^ w ∧
      rdReg s R.CHK_EXPECT n < 2 ^ w
    let refused := fun (code : Nat) => ∃ t, exec (.chkStart n v) s = .next t ∧ rd t F.CHK_STATUS_REFUSED n = 1 ∧
      rd t F.CHK_STATUS_REFUSE_CODE n = code ∧ rd t F.CHK_RESULT_RESULT n = rd s F.CHK_RESULT_RESULT n ∧
      rd t F.CHK_STATUS_BUSY n = 0 ∧ t.mem = s.mem ∧ t.chk = s.chk
    (goodLen → inRange → 8 ≤ w ∧ w ≤ 64 → clean →
      ∃ t, exec (.chkStart n v) s = .next t ∧ rd t F.CHK_STATUS_BUSY n = 1 ∧
        rd t F.CHK_RESULT_RESULT n = rd s F.CHK_RESULT_RESULT n ∧ t = { s with regs := t.regs, chk := t.chk }) ∧
    (len = 0 ∨ len = 0xFFFFFFFF → refused 1) ∧
    (goodLen → inRange → w < 8 ∨ 64 < w → refused 2) ∧
    (goodLen → inRange → 8 ≤ w ∧ w ≤ 64 → ¬ clean → refused 3) ∧
    (goodLen → src < 2 ^ 36 → inCheckArea s src = true → 8 ≤ w ∧ w ≤ 64 → clean → refused 4) ∧
    (goodLen → 0x1800000000 ≤ src → src + len ≤ 0x1804000000 → 8 ≤ w ∧ w ≤ 64 → clean → refused 4) ∧
    (0x1800000000 ≤ src ∧ src ≤ 0x1803FFFFFF → 0x1804000000 < src + len → refused 1)) ∧
  (∀ (n : Fin 16) (v : BitVec 32) (s : State), rd s F.CHK_STATUS_BUSY n = 1 → v.toNat.testBit 1 = false →
    ∃ t, exec (.chkStart n v) s = .next t ∧ rd t F.CHK_STATUS_REFUSED n = 1 ∧ rd t F.CHK_STATUS_REFUSE_CODE n = 5 ∧
      rdReg t R.CHK_CTRL n = rdReg s R.CHK_CTRL n ∧ rd t F.CHK_STATUS_BUSY n = 1 ∧ t.chk = s.chk) ∧
  (∀ (n : Fin 16) (v : BitVec 64) (s : State),
    (rd s F.CHK_STATUS_BUSY n = 0 →
      ∃ t, exec (.chkConfigWrite (BitVec.ofNat 26 (R.CHK_POLY.addr n 0)) true v) s = .next t ∧
        rdReg t R.CHK_POLY n = v.toNat ∧ t = { s with regs := t.regs } ∧ sameRegsBut s t [R.CHK_POLY.addr n 0]) ∧
    (rd s F.CHK_STATUS_BUSY n = 1 →
      ∃ t, exec (.chkConfigWrite (BitVec.ofNat 26 (R.CHK_POLY.addr n 0)) true v) s = .next t ∧
        rdReg t R.CHK_POLY n = rdReg s R.CHK_POLY n ∧ rd t F.CHK_STATUS_REFUSED n = 1 ∧ rd t F.CHK_STATUS_REFUSE_CODE n = 5))

/-- With BUSY 1, where the unit's accesses need not wait for a hold, a reset of its shim or a stop of DRAM (log entry 141): CHK_JOB_DONE whose read of LEN bytes from SRC returns data ends the job with DONE, END_CODE 0, RESULT_VALID 1 and the CRC of the unit's settings over those bytes in CHK_RESULT; with COMPARE_EN 1 a result that differs from CHK_EXPECT sets MISMATCH. CHK_ABORT ends it with DONE, END_CODE 1 and RESULT_VALID 0. A job one of whose reads protection refuses ends, at CHK_PROT_ERROR and at CHK_JOB_DONE alike, with DONE, PROT_ERR, END_CODE 2 and RESULT_VALID 0, and the refusal is counted in unit 3's VIOL_TOTAL. Those ends leave CHK_RESULT and memory as they were. Each clears BUSY. With BUSY 0 CHK_ABORT changes nothing. -/
def Obligations.CheckUnitJobsEnd : Prop :=
  (∀ (n : Fin 16) (s : State), rd s F.CHK_STATUS_BUSY n = 1 → accessWaits s (32 + n) = false →
    (busRead s (32 + n) (rd s F.CHK_SRC_ADDR n) (rd s F.CHK_LEN_LEN n)).2.1 = 0 →
    let r := busRead s (32 + n) (rd s F.CHK_SRC_ADDR n) (rd s F.CHK_LEN_LEN n)
    ∃ t, exec (.chkJobDone n) s = .next t ∧ rd t F.CHK_STATUS_BUSY n = 0 ∧ rd t F.CHK_STATUS_DONE n = 1 ∧
      rd t F.CHK_STATUS_END_CODE n = 0 ∧ rd t F.CHK_STATUS_RESULT_VALID n = 1 ∧
      rdReg t R.CHK_RESULT n = chkCrc r.1 n r.2.2 % 2 ^ 64 ∧ t.mem = s.mem ∧
      (rd s F.CHK_CTRL_COMPARE_EN n = 1 → chkCrc r.1 n r.2.2 ≠ rd s F.CHK_EXPECT_EXPECT n → rd t F.CHK_STATUS_MISMATCH n = 1)) ∧
  (∀ (n : Fin 16) (s : State), rd s F.CHK_STATUS_BUSY n = 1 →
    ∃ t, exec (.chkAbort n) s = .next t ∧ rd t F.CHK_STATUS_BUSY n = 0 ∧ rd t F.CHK_STATUS_DONE n = 1 ∧
      rd t F.CHK_STATUS_END_CODE n = 1 ∧ rd t F.CHK_STATUS_RESULT_VALID n = 0 ∧
      rdReg t R.CHK_RESULT n = rdReg s R.CHK_RESULT n ∧ t.mem = s.mem) ∧
  (∀ (n : Fin 16) (s : State), rd s F.CHK_STATUS_BUSY n = 0 → exec (.chkAbort n) s = .next s) ∧
  (∀ (n : Fin 16) (s : State), rd s F.CHK_STATUS_BUSY n = 1 → accessWaits s (32 + n) = false →
    (busRead s (32 + n) (rd s F.CHK_SRC_ADDR n) (rd s F.CHK_LEN_LEN n)).2.1 = 1 →
    let ended := fun (t : State) => rd t F.CHK_STATUS_BUSY n = 0 ∧ rd t F.CHK_STATUS_DONE n = 1 ∧
      rd t F.CHK_STATUS_PROT_ERR n = 1 ∧ rd t F.CHK_STATUS_END_CODE n = 2 ∧ rd t F.CHK_STATUS_RESULT_VALID n = 0 ∧
      rd t F.PRT_VIOL_TOTAL_TOTAL 3 = min 0xFFFFFFFF (rd s F.PRT_VIOL_TOTAL_TOTAL 3 + 1) ∧
      rdReg t R.CHK_RESULT n = rdReg s R.CHK_RESULT n ∧ t.mem = s.mem
    (∃ t, exec (.chkProtError n) s = .next t ∧ ended t) ∧ (∃ t, exec (.chkJobDone n) s = .next t ∧ ended t))

/-- For a layer with a lease, where its engine's accesses need not wait (log entry 141): a header that passes R59 with the crop inside its size is accepted; with the crop beyond it CROP_OUT is raised for the canvas and the layer is not drawn; one that fails or errs raises HEADER_BAD and marks the header failed. TILE_FETCH_ISSUE of a tile that the layer uses, not held or outstanding, adds it to the fetches outstanding with the QoS of its canvas and its CRC: that of its tile row's CRCs as last read, or as read now where they are another row's; where that read failed, 2^32, which no CRC equals. Arrival of an outstanding tile: of a cut layer it is discarded; of another, where its recomputed CRC equals the one fetched with it and no proof runs, its bytes are held and SEAL_TOTAL stays; one that differs or errs raises TILE_MISMATCH, advances SEAL_TOTAL by one up to its limit, and records tile, layer, canvas and source in SEAL_LAST. LAYER_SLOT_READ with an error takes the layer's lease away and marks its slot failed; without one it changes nothing. Memory stays as it is throughout. -/
def Obligations.ComposerChecksSeals : Prop :=
  (∀ (layer : Fin 1024) (err : Bool) (s : State) (k : Lease), (layOf s layer).lease = some k → headerWaits s layer = true →
    accessWaits s (engineMaster s (layOf s layer).desc.canvas) = false →
    let x := layOf s layer
    let r := readHeader s (engineMaster s x.desc.canvas) k
    (err = false → r.2.1 = true → x.desc.srcX + x.desc.srcW ≤ leAt r.2.2 24 2 → x.desc.srcY + x.desc.srcH ≤ leAt r.2.2 26 2 →
      ∃ t, exec (.recordHeaderRead layer err) s = .next t ∧ (layOf t layer).hdrOk = true ∧ t.mem = s.mem ∧
        rd t F.SEAL_EVENT_HEADER_BAD = rd s F.SEAL_EVENT_HEADER_BAD) ∧
    (err = false → r.2.1 = true → leAt r.2.2 24 2 < x.desc.srcX + x.desc.srcW ∨ leAt r.2.2 26 2 < x.desc.srcY + x.desc.srcH →
      ∃ t, exec (.recordHeaderRead layer err) s = .next t ∧ (layOf t layer).cropFail = true ∧ t.mem = s.mem ∧
        rd t F.CMP_CNV_EVENT_CROP_OUT x.desc.canvas = 1) ∧
    (err = true ∨ r.2.1 = false →
      ∃ t, exec (.recordHeaderRead layer err) s = .next t ∧ (layOf t layer).hdrFail = true ∧ t.mem = s.mem ∧
        rd t F.SEAL_EVENT_HEADER_BAD = 1)) ∧
  (∀ (layer : Fin 1024) (tile : BitVec 16) (s : State) (k : Lease), (layOf s layer).lease = some k →
    (firstRowOf s layer tile.toNat).isSome = true → fetches s layer = true → ((layOf s layer).got.find tile.toNat).isSome = false →
    ((layOf s layer).fetch.any fun f => f.1 == tile.toNat) = false → accessWaits s (engineMaster s (layOf s layer).desc.canvas) = false →
    let x := layOf s layer
    let per := tilesPerRow (placeOf s k).w
    let row := tile.toNat / per
    let read := busRead s (engineMaster s x.desc.canvas) (recordAddr (placeOf s k) + 64 + 4 * (row * per)) (4 * per)
    let added := fun (failed : Bool) (crcs : List Byte) => ∃ t, exec (.tileFetchIssue layer tile) s = .next t ∧
      (layOf t layer).fetch = x.fetch ++ [(tile.toNat, if failed then 2 ^ 32 else leAt crcs (4 * (tile.toNat % per)) 4, fetchQos s x.desc.canvas)] ∧
      (layOf t layer).crcs = some (row, failed, crcs) ∧ t.mem = s.mem
    (∀ q, x.crcs = some q → q.1 = row → added q.2.1 q.2.2) ∧
    ((∀ q, x.crcs = some q → q.1 ≠ row) → added (read.2.1 != 0) read.2.2)) ∧
  (∀ (layer : Fin 1024) (tile : BitVec 16) (err : Bool) (s : State) (k : Lease) (f : Nat × Nat × Nat),
    (layOf s layer).lease = some k → ((layOf s layer).fetch.find? fun f => f.1 == tile.toNat) = some f →
    accessWaits s (engineMaster s (layOf s layer).desc.canvas) = false →
    let x := layOf s layer
    let r := readTile (setLay s layer { x with fetch := x.fetch.erase f }) (engineMaster s x.desc.canvas) (placeOf s k) tile.toNat
    (x.cut.isSome = true → ∃ t, exec (.tileDataArrival layer tile err) s = .next t ∧ (layOf t layer).got = x.got ∧
        (layOf t layer).fetch = x.fetch.erase f ∧ rd t F.SEAL_TOTAL_TILES = rd s F.SEAL_TOTAL_TILES ∧ t.mem = s.mem) ∧
    (x.cut = none → err = false → r.2.1 = false → leaseSeal s k tile.toNat r.2.2 = f.2.1 → s.cmp.proof = none →
      ∃ t, exec (.tileDataArrival layer tile err) s = .next t ∧ (layOf t layer).got = x.got.put tile.toNat r.2.2 ∧
        (layOf t layer).fetch = x.fetch.erase f ∧ rd t F.SEAL_TOTAL_TILES = rd s F.SEAL_TOTAL_TILES ∧ t.mem = s.mem) ∧
    (x.cut = none → err = true ∨ r.2.1 = true ∨ leaseSeal s k tile.toNat r.2.2 ≠ f.2.1 →
      ∃ t, exec (.tileDataArrival layer tile err) s = .next t ∧ rd t F.SEAL_EVENT_TILE_MISMATCH = 1 ∧
        rd t F.SEAL_TOTAL_TILES = min 0xFFFFFFFF (rd s F.SEAL_TOTAL_TILES + 1) ∧ rd t F.SEAL_LAST_TILE = tile.toNat ∧
        rd t F.SEAL_LAST_LAYER = layer ∧ rd t F.SEAL_LAST_CANVAS = x.desc.canvas % 32 ∧
        rd t F.SEAL_LAST_SOURCE_ID = k.frame.source % 4096 ∧ rd t F.SEAL_LAST_VALID = 1 ∧ (layOf t layer).tileFail = true ∧
        t.mem = s.mem)) ∧
  (∀ (layer : Fin 1024) (s : State), (layOf s layer).committed = true → (layOf s layer).tableFail = false →
    ∃ t, exec (.layerSlotRead layer true) s = .next t ∧ (layOf t layer).tableFail = true ∧ (layOf t layer).lease = none ∧
      t.mem = s.mem) ∧
  (∀ (layer : Fin 1024) (s : State), exec (.layerSlotRead layer false) s = .next s)

/-- PUBLISH_REQUEST of a requested descriptor, first of its source, gives its frame the last sequence of the source + 1 mod 2^32, keeps that as the source's last sequence, moves the descriptor from the requests to the frames being sealed, and changes nothing else. FRAME_PUBLISH of a descriptor that is being sealed, first of its source, where the seal engine's accesses need not wait (log entry 141), makes the buffer CURRENT under its frame's source and sequence, makes it the source's current buffer, and takes it from the frames being sealed; every other source keeps its current buffer. -/
def Obligations.PublicationReservesAndCompletes : Prop :=
  (∀ (d : Fin 8192) (s : State), s.eas.requests.contains d.val = true → firstOfSource s s.eas.requests d.val = true →
    let src := (descOf s d).frame.source
    let q := (s.eas.lastSeq.get src 0 + 1) % 2 ^ 32
    ∃ t, exec (.publishRequest d) s = .next t ∧ t.eas.lastSeq.get src 0 = q ∧
      descOf t d = { descOf s d with frame := { (descOf s d).frame with seq := q } } ∧
      t.eas.requests = s.eas.requests.erase d.val ∧ t.eas.sealing = s.eas.sealing ++ [d.val] ∧
      (∀ e, e ≠ d.val → descOf t e = descOf s e) ∧ (∀ i, i ≠ src → t.eas.lastSeq.get i 0 = s.eas.lastSeq.get i 0) ∧
      t = { s with eas := { s.eas with descs := t.eas.descs, lastSeq := t.eas.lastSeq, requests := t.eas.requests, sealing := t.eas.sealing } }) ∧
  (∀ (d : Fin 8192) (s : State), s.eas.sealing.contains d.val = true → firstOfSource s s.eas.sealing d.val = true → accessWaits s 51 = false →
    ∃ t, exec (.framePublish d) s = .next t ∧ (descOf t d).st = .current ∧ (descOf t d).source = (descOf s d).frame.source ∧
      (descOf t d).seq = (descOf s d).frame.seq ∧ (srcOf t (descOf s d).frame.source).cur = some d.val ∧
      t.eas.sealing = s.eas.sealing.erase d.val ∧ t.eas.lastSeq = s.eas.lastSeq ∧
      (∀ i, i ≠ (descOf s d).frame.source → (srcOf t i).cur = (srcOf s i).cur))

/-- While EAS_STATUS.BUSY is 1, each of the 16 commands is refused with code 15, and the command that runs keeps its operation and arguments. A write of OP 0 changes nothing. With BUSY 0 a write of OP 17 to 31 holds BUSY, and its completion clears BUSY and raises REFUSED with code 2, leaving every buffer, source, layer and gallery as it was. EAS_COMMAND_COMPLETE with no command running changes nothing. -/
def Obligations.EaselCommandHoldsBusy : Prop :=
  (∀ (a0 a1 : BitVec 64) (s : State), rd s F.EAS_STATUS_BUSY = 1 →
    ∀ c ∈ [Instr.poolCfg a0 a1, .bufAdd a0 a1, .bufRemove a0 a1, .take a0 a1, .publish a0 a1, .free a0 a1, .lease a0 a1, .release a0 a1,
        .srcAlloc a0 a1, .srcClaim a0 a1, .srcRetire a0 a1, .stage a0 a1, .commit a0 a1, .commitAt a0 a1, .cancel a0 a1, .snapshot a0 a1],
      ∃ t, exec c s = .next t ∧ rd t F.EAS_STATUS_REFUSED = 1 ∧ rd t F.EAS_STATUS_CODE = 15 ∧ rd t F.EAS_STATUS_BUSY = 1 ∧
        t.eas = s.eas ∧ t.mem = s.mem) ∧
  (∀ s : State, exec (.easReservedOp 0) s = .next s) ∧
  (∀ (op : BitVec 5) (s : State), 17 ≤ op.toNat → rd s F.EAS_STATUS_BUSY = 0 →
    ∃ t u, exec (.easReservedOp op) s = .next t ∧ rd t F.EAS_STATUS_BUSY = 1 ∧ rd t F.EAS_STATUS_OP = op.toNat ∧
      exec .easCommandComplete t = .next u ∧ rd u F.EAS_STATUS_BUSY = 0 ∧ rd u F.EAS_STATUS_REFUSED = 1 ∧ rd u F.EAS_STATUS_CODE = 2 ∧
      u.eas = { s.eas with op := none } ∧ u.mem = s.mem) ∧
  (∀ s : State, s.eas.op = none → exec .easCommandComplete s = .next s)

/-- With BUSY 0 each command holds BUSY, and at its completion BUSY is clear, DONE is set and: POOL_CFG of a pool that holds no buffer gives it a class within the ranges and the size rule; BUF_ADD binds the lowest unbound descriptor (log entry 43), in FREE, to a 4 KiB aligned base whose buffer lies in DRAM outside check areas, and returns it; BUF_REMOVE unbinds a FREE descriptor; TAKE makes the FREE buffer of lowest index in the pool FILLING and host-owned, and returns it; FREE makes a SUPERSEDED buffer that is not held FREE, and one that is held RETIRING with FREE_DEFERRED raised. No command touches memory. -/
def Obligations.EaselPoolsAndBuffers : Prop :=
  (∀ (a0 a1 : BitVec 64) (s : State), rd s F.EAS_STATUS_BUSY = 0 →
    let p := slice a0.toNat 0 6
    let f := slice a0.toNat 8 4
    let w := slice a0.toNat 12 14
    let h := slice a0.toNat 26 14
    16 ≤ w ∧ w ≤ 8192 → 16 ≤ h ∧ h ≤ 4352 → f ∈ [1, 2, 3, 4, 5, 6, 9, 10] → sizeRule f w h = 0 →
    unnamed a0.toNat 0xFFFFFFFF3F = false → a1 = 0 → (∀ e ∈ s.eas.descs, e.2.bound = true → e.2.pool ≠ p) →
    ∃ t u, exec (.poolCfg a0 a1) s = .next t ∧ rd t F.EAS_STATUS_BUSY = 1 ∧ exec .easCommandComplete t = .next u ∧
      rd u F.EAS_STATUS_BUSY = 0 ∧ rd u F.EAS_STATUS_DONE = 1 ∧ u.eas.pools.get p {} = { format := f, width := w, height := h } ∧
      u.mem = s.mem ∧ u.eas.descs = s.eas.descs ∧ u.eas.sources = s.eas.sources) ∧
  (∀ (a0 a1 : BitVec 64) (s : State) (d : Nat), rd s F.EAS_STATUS_BUSY = 0 →
    let p := slice a0.toNat 0 6
    let base := slice a1.toNat 0 40
    let c := s.eas.pools.get p {}
    c.format ≠ 0 → base % 4096 = 0 → inDram s base (bufBytes c.format c.width c.height) = true → freeDesc s = some d →
    unnamed a0.toNat 0x3F = false → unnamed a1.toNat (2 ^ 40 - 1) = false →
    ∃ t u, exec (.bufAdd a0 a1) s = .next t ∧ rd t F.EAS_STATUS_BUSY = 1 ∧ exec .easCommandComplete t = .next u ∧
      rd u F.EAS_STATUS_BUSY = 0 ∧ rd u F.EAS_STATUS_DONE = 1 ∧ rdReg u R.EAS_RESULT = d % 2 ^ 64 ∧
      descOf u d = { bound := true, pool := p, base := base } ∧ (∀ e, e ≠ d → descOf u e = descOf s e) ∧ u.mem = s.mem) ∧
  (∀ (a0 : BitVec 64) (s : State), rd s F.EAS_STATUS_BUSY = 0 →
    let d := slice a0.toNat 0 13
    (descOf s d).bound = true → (descOf s d).st = .free → unnamed a0.toNat 0x1FFF = false →
    ∃ t u, exec (.bufRemove a0 0) s = .next t ∧ rd t F.EAS_STATUS_BUSY = 1 ∧ exec .easCommandComplete t = .next u ∧
      rd u F.EAS_STATUS_BUSY = 0 ∧ rd u F.EAS_STATUS_DONE = 1 ∧ (descOf u d).bound = false ∧
      (∀ e, e ≠ d → descOf u e = descOf s e) ∧ u.mem = s.mem) ∧
  (∀ (a0 : BitVec 64) (s : State) (d : Nat), rd s F.EAS_STATUS_BUSY = 0 → freeIn s (slice a0.toNat 0 6) = some d →
    unnamed a0.toNat 0x3F = false →
    ∃ t u, exec (.take a0 0) s = .next t ∧ rd t F.EAS_STATUS_BUSY = 1 ∧ exec .easCommandComplete t = .next u ∧
      rd u F.EAS_STATUS_BUSY = 0 ∧ rd u F.EAS_STATUS_DONE = 1 ∧ rdReg u R.EAS_RESULT = d % 2 ^ 64 ∧
      descOf u d = { descOf s d with st := .filling, ownerHost := true } ∧ (∀ e, e ≠ d → descOf u e = descOf s e) ∧ u.mem = s.mem) ∧
  (∀ (a0 : BitVec 64) (s : State), rd s F.EAS_STATUS_BUSY = 0 → unnamed a0.toNat 0x1FFF = false →
    let d := slice a0.toNat 0 13
    (descOf s d).bound = true → (descOf s d).st = .superseded →
    ∃ t u, exec (.free a0 0) s = .next t ∧ rd t F.EAS_STATUS_BUSY = 1 ∧ exec .easCommandComplete t = .next u ∧
      rd u F.EAS_STATUS_BUSY = 0 ∧ rd u F.EAS_STATUS_DONE = 1 ∧ (∀ e, e ≠ d → descOf u e = descOf s e) ∧ u.mem = s.mem ∧
      (heldBuf (descOf s d) = false → descOf u d = { descOf s d with st := .free, ownerHost := false }) ∧
      (heldBuf (descOf s d) = true → descOf u d = { descOf s d with st := .retiring } ∧ rd u F.EAS_EVENT_FREE_DEFERRED = 1))

/-- With BUSY 0: PUBLISH of a FILLING host-owned buffer of a pool of a format below 8 (R223) under a source bound to host software, with a size within the pool's class and an allowance up to 2,000 ms, holds BUSY; if the seal engine need not wait (log entry 141) and its read of the buffer meets no error, at its completion DONE is set, the buffer is CURRENT and the source's current buffer, and EAS_RESULT and the source's last sequence are the next sequence. LEASE of a CURRENT or SUPERSEDED buffer with fewer than 4,095 leases adds one and returns the count. RELEASE of a CURRENT buffer with a HOST or PROG lease takes one away and returns the count. -/
def Obligations.EaselPublishAndLeases : Prop :=
  (∀ (a0 a1 : BitVec 64) (s : State), rd s F.EAS_STATUS_BUSY = 0 →
    let d := slice a0.toNat 0 13
    let id := slice a0.toNat 16 12
    let w := slice a1.toNat 32 14
    let h := slice a1.toNat 46 14
    let c := s.eas.pools.get (descOf s d).pool {}
    let q := (s.eas.lastSeq.get id 0 + 1) % 2 ^ 32
    c.format < 8 → accessWaits s 51 = false → slice a0.toNat 32 11 ≤ 2000 → 1 ≤ w ∧ w ≤ c.width → 1 ≤ h ∧ h ≤ c.height → unnamed a0.toNat 0x7FF1FFF1FFF = false →
    unnamed a1.toNat (2 ^ 60 - 1) = false → (descOf s d).bound = true → (descOf s d).st = .filling →
    (descOf s d).ownerHost = true → (srcOf s id).st = .bound → (srcOf s id).owner = .host →
    ∃ t, exec (.publish a0 a1) s = .next t ∧ rd t F.EAS_STATUS_BUSY = 1 ∧
      let v := wr0 { t with eas := { t.eas with op := none } } F.EAS_STATUS_BUSY 0
      ((sealBuffer v (placeIn v d { format := c.format, width := w, height := h }) id q).2.1 = false →
        ∃ u, exec .easCommandComplete t = .next u ∧ rd u F.EAS_STATUS_BUSY = 0 ∧ rd u F.EAS_STATUS_DONE = 1 ∧
          rdReg u R.EAS_RESULT = q ∧ u.eas.lastSeq.get id 0 = q ∧ (descOf u d).st = .current ∧ (descOf u d).source = id ∧
          (descOf u d).seq = q ∧ (srcOf u id).cur = some d)) ∧
  (∀ (a0 : BitVec 64) (s : State), rd s F.EAS_STATUS_BUSY = 0 → unnamed a0.toNat 0x1FFF = false →
    let d := slice a0.toNat 0 13
    let n := (descOf s d).leases
    (descOf s d).bound = true → (descOf s d).st = .current ∨ (descOf s d).st = .superseded → n < 4095 →
    ∃ t u, exec (.lease a0 0) s = .next t ∧ rd t F.EAS_STATUS_BUSY = 1 ∧ exec .easCommandComplete t = .next u ∧
      rd u F.EAS_STATUS_BUSY = 0 ∧ rd u F.EAS_STATUS_DONE = 1 ∧ rdReg u R.EAS_RESULT = n + 1 ∧ (descOf u d).leases = n + 1 ∧
      (descOf u d).st = (descOf s d).st ∧ (∀ e, e ≠ d → descOf u e = descOf s e) ∧ u.mem = s.mem) ∧
  (∀ (a0 : BitVec 64) (s : State), rd s F.EAS_STATUS_BUSY = 0 → unnamed a0.toNat 0x1FFF = false →
    let d := slice a0.toNat 0 13
    let n := (descOf s d).leases
    (descOf s d).bound = true → (descOf s d).st = .current → 1 ≤ (descOf s d).soft → n ≤ 4095 →
    ∃ t u, exec (.release a0 0) s = .next t ∧ rd t F.EAS_STATUS_BUSY = 1 ∧ exec .easCommandComplete t = .next u ∧
      rd u F.EAS_STATUS_BUSY = 0 ∧ rd u F.EAS_STATUS_DONE = 1 ∧ rdReg u R.EAS_RESULT = n - 1 ∧ (descOf u d).leases = n - 1 ∧
      (descOf u d).soft = (descOf s d).soft - 1 ∧ (∀ e, e ≠ d → descOf u e = descOf s e) ∧ u.mem = s.mem)

/-- With BUSY 0 and fewer than 512 active sources: SRC_ALLOC binds the lowest FREE ID of the window to host software and returns it; SRC_CLAIM binds a FREE ID inside the window to host software. SRC_RETIRE of a source bound to host software with no current buffer makes its ID FREE if no committed layer names it, and puts it in QUARANTINE with the flag raised if one does. Each holds BUSY, clears it at its completion with DONE set, and leaves every other source as it was. -/
def Obligations.EaselSources : Prop :=
  (∀ (s : State) (i : Nat), rd s F.EAS_STATUS_BUSY = 0 → freeSource s = some i → activeSources s < 512 →
    ∃ t u, exec (.srcAlloc 0 0) s = .next t ∧ rd t F.EAS_STATUS_BUSY = 1 ∧ exec .easCommandComplete t = .next u ∧
      rd u F.EAS_STATUS_BUSY = 0 ∧ rd u F.EAS_STATUS_DONE = 1 ∧ rdReg u R.EAS_RESULT = i % 2 ^ 64 ∧ (srcOf u i).st = .bound ∧
      (srcOf u i).owner = .host ∧ (∀ k, k ≠ i → srcOf u k = srcOf s k) ∧ u.mem = s.mem) ∧
  (∀ (a0 : BitVec 64) (s : State), rd s F.EAS_STATUS_BUSY = 0 →
    let i := slice a0.toNat 0 12
    unnamed a0.toNat 0xFFF = false → inWindow s i = true → (srcOf s i).st = .free → activeSources s < 512 →
    ∃ t u, exec (.srcClaim a0 0) s = .next t ∧ rd t F.EAS_STATUS_BUSY = 1 ∧ exec .easCommandComplete t = .next u ∧
      rd u F.EAS_STATUS_BUSY = 0 ∧ rd u F.EAS_STATUS_DONE = 1 ∧ (srcOf u i).st = .bound ∧ (srcOf u i).owner = .host ∧
      (∀ k, k ≠ i → srcOf u k = srcOf s k) ∧ u.mem = s.mem) ∧
  (∀ (a0 : BitVec 64) (s : State), rd s F.EAS_STATUS_BUSY = 0 →
    let i := slice a0.toNat 0 12
    unnamed a0.toNat 0xFFF = false → (srcOf s i).st = .bound → (srcOf s i).owner = .host → (srcOf s i).cur = none →
    ∃ t u, exec (.srcRetire a0 0) s = .next t ∧ rd t F.EAS_STATUS_BUSY = 1 ∧ exec .easCommandComplete t = .next u ∧
      rd u F.EAS_STATUS_BUSY = 0 ∧ rd u F.EAS_STATUS_DONE = 1 ∧ (∀ k, k ≠ i → srcOf u k = srcOf s k) ∧ u.mem = s.mem ∧
      (namesSource s i = false → (srcOf u i).st = .free) ∧
      (namesSource s i = true → (srcOf u i).st = .quarantine ∧ rd u F.EAS_EVENT_QUARANTINE = 1))

/-- With BUSY 0 each holds BUSY; at its completion BUSY is clear, DONE is set and: STAGE of a layer never committed whose staging slot reads without error and is valid, no commit being pending, leaves it staged in the gallery of the slot's canvas with the slot's descriptor; COMMIT in a gallery with none pending makes one pending at the next latch; COMMIT_AT while locked, with a T the window or more ahead and at most 60 s ahead, makes one pending at T; CANCEL of a pending commit leaves none, with CANCELLED raised and every staged layer as it was; SNAPSHOT at a 64-byte aligned address arms the gallery. STAGE completes where the Easel's accesses need not wait, COMMIT_AT and CANCEL, in a gallery that is not mirrored, where Tandem's need not (log entry 141). -/
def Obligations.EaselTableAndCommits : Prop :=
  (∀ (a0 : BitVec 64) (s : State), rd s F.EAS_STATUS_BUSY = 0 → unnamed a0.toNat 0x3FF = false →
    let l := slice a0.toNat 0 10
    (layOf s l).committed = false → (∀ g, pendingIn s g = false) → accessWaits s 51 = false →
    ∃ t, exec (.stage a0 0) s = .next t ∧ rd t F.EAS_STATUS_BUSY = 1 ∧
      let v := wr0 { t with eas := { t.eas with op := none } } F.EAS_STATUS_BUSY 0
      let r := busRead v 51 (stagingSlot v l) 128
      let d := parseSlot r.2.2
      let g := rd r.1 F.CNV_CTRL_GALLERY d.canvas
      (r.2.1 = 0 → slotBad r.2.2 (rd r.1 F.CMP_CNV_CFG_TRANSFER d.canvas) (othersShown r.1 g d.canvas l) = none →
        ∃ u, exec .easCommandComplete t = .next u ∧ rd u F.EAS_STATUS_BUSY = 0 ∧ rd u F.EAS_STATUS_DONE = 1 ∧
          (layOf u l).staged = some g ∧ (layOf u l).stagedDesc = d ∧
          (layOf u l).desc = (layOf s l).desc ∧ (∀ k, k ≠ l → layOf u k = layOf s k) ∧ u.mem = s.mem)) ∧
  (∀ (a0 : BitVec 64) (s : State), rd s F.EAS_STATUS_BUSY = 0 → unnamed a0.toNat 7 = false →
    let g := slice a0.toNat 0 3
    pendingIn s g = false →
    ∃ t u, exec (.commit a0 0) s = .next t ∧ rd t F.EAS_STATUS_BUSY = 1 ∧ exec .easCommandComplete t = .next u ∧
      rd u F.EAS_STATUS_BUSY = 0 ∧ rd u F.EAS_STATUS_DONE = 1 ∧
      galOf u g = { galOf s g with pend := some { at? := none, since := s.time.cyc } } ∧
      (∀ k, k ≠ g → galOf u k = galOf s k) ∧ u.eas.layers = s.eas.layers ∧ u.mem = s.mem) ∧
  (∀ (a0 a1 : BitVec 64) (s : State), rd s F.EAS_STATUS_BUSY = 0 → unnamed a0.toNat 0xF = false →
    let g := slice a0.toNat 0 3
    pendingIn s g = false → rd s F.PTP_STATE_LOCKED = 1 → mirrored s g = false → accessWaits s 52 = false →
    a1.toNat ≤ fabNs s + 60000000000 → pastWindow s g (((a1.toNat : Int) - fabNs s) * 1000) = true →
    ∃ t u, exec (.commitAt a0 a1) s = .next t ∧ rd t F.EAS_STATUS_BUSY = 1 ∧ exec .easCommandComplete t = .next u ∧
      rd u F.EAS_STATUS_BUSY = 0 ∧ rd u F.EAS_STATUS_DONE = 1 ∧
      galOf u g = { galOf s g with pend := some { at? := some a1.toNat, since := s.time.cyc } } ∧
      (∀ k, k ≠ g → galOf u k = galOf s k) ∧ u.eas.layers = s.eas.layers ∧ u.mem = s.mem) ∧
  (∀ (a0 : BitVec 64) (s : State), rd s F.EAS_STATUS_BUSY = 0 → unnamed a0.toNat 7 = false →
    let g := slice a0.toNat 0 3
    pendingIn s g = true → mirrored s g = false → accessWaits s 52 = false →
    ∃ t u, exec (.cancel a0 0) s = .next t ∧ rd t F.EAS_STATUS_BUSY = 1 ∧ exec .easCommandComplete t = .next u ∧
      rd u F.EAS_STATUS_BUSY = 0 ∧ rd u F.EAS_STATUS_DONE = 1 ∧ rd u F.EAS_GAL_EVENT_CANCELLED g = 1 ∧
      galOf u g = { galOf s g with pend := none } ∧ u.eas.layers = s.eas.layers ∧ u.mem = s.mem) ∧
  (∀ (a0 a1 : BitVec 64) (s : State), rd s F.EAS_STATUS_BUSY = 0 → unnamed a0.toNat 7 = false →
    unnamed a1.toNat (2 ^ 40 - 1) = false → a1.toNat % 64 = 0 →
    let g := slice a0.toNat 0 3
    (galOf s g).snap = none →
    ∃ t u, exec (.snapshot a0 a1) s = .next t ∧ rd t F.EAS_STATUS_BUSY = 1 ∧ exec .easCommandComplete t = .next u ∧
      rd u F.EAS_STATUS_BUSY = 0 ∧ rd u F.EAS_STATUS_DONE = 1 ∧
      galOf u g = { galOf s g with snap := some (slice a1.toNat 0 40) } ∧ u.mem = s.mem)

/-- For a Sync or Follow_Up of the selected master on the bound port, by the clock's transport and in its domain, with an interval from -7 to +1 and a known path delay: a two-step Sync waits with the stamp its MAC took, which is the clock's time; a one-step Sync, or the Follow_Up of the Sync that waits, forms the sample receive stamp minus master time minus delay, written saturating to PTP_OFFSET. With RELOCK armed or STEPPED 0 it sets the clock to the master's time, leaves ADJ, makes the state UNCALIBRATED with LOCKED 0 and STEPPED 1, disarms RELOCK and asks for a CLOCK_STEP entry. Otherwise, outside HOLDOVER: beyond STEP_THRESH_US it counts as a discard and leaves the clock and ADJ; within it, integ and ADJ are those of R88's servo and the clock does not step. A sample with an interval out of range is counted as a discard alone. -/
def Obligations.PtpOffsetSamples : Prop :=
  ∀ (port : Fin 16) (msg : SyncMsg) (s : State),
    rd s F.PTP_CTRL_EN = 1 → rd s F.PTP_STATE_PORT_ACTIVE = port → rd s F.PTP_CTRL_DOMAIN = msg.domain.toNat →
    rd s F.PTP_CTRL_TRANSPORT = msg.transport.toNat → s.ptp.parent = some msg.sender →
    (msg.logInterval.toInt < -7 ∨ 1 < msg.logInterval.toInt →
      ∃ t, exec (.offsetSample port msg) s = .next t ∧
        rd t F.PTP_EVENT_CNT_DISCARD_CNT = min 255 (rd s F.PTP_EVENT_CNT_DISCARD_CNT + 1) ∧ t = { s with regs := t.regs }) ∧
    (-7 ≤ msg.logInterval.toInt → msg.logInterval.toInt ≤ 1 → msg.followUp = false → msg.twoStep = true →
      exec (.offsetSample port msg) s = .next { s with ptp := { s.ptp with
        half := some (msg.seq.toNat, (netNs s : Nat), msg.correction, msg.logInterval.toInt) } }) ∧
    (∀ d t1 t2 k : Int, -7 ≤ msg.logInterval.toInt → msg.logInterval.toInt ≤ 1 → s.ptp.path = some d →
      (msg.followUp = false ∧ msg.twoStep = false ∧ t1 = msg.origin + msg.correction ∧ t2 = (netNs s : Nat) ∧ k = msg.logInterval.toInt) ∨
        (msg.followUp = true ∧ ∃ c, s.ptp.half = some (msg.seq.toNat, t2, c, k) ∧ t1 = msg.origin + msg.correction + c) →
      let o := t2 - t1 - d
      let e := rateErr o k
      let i := clampI (-549755813) 549755813 (s.ptp.integ + e / 64)
      (s.ptp.relock = true ∨ rd s F.PTP_STATE_STEPPED = 0 →
        ∃ t, exec (.offsetSample port msg) s = .next t ∧ t.time.ptp = ((s.time.ptp : Int) - o * (ptpUnit : Nat)).toNat % ptpEnd ∧
          rd t F.PTP_OFFSET_OFFSET = unsignedOf 32 (clampI (-2147483648) 2147483647 o) ∧
          rd t F.PTP_RATE_ADJ = rd s F.PTP_RATE_ADJ ∧ rd t F.PTP_STATE_STATE = 2 ∧ rd t F.PTP_STATE_LOCKED = 0 ∧
          rd t F.PTP_STATE_STEPPED = 1 ∧ t.ptp.relock = false ∧ t.mem = s.mem ∧
          t.jnl.asked.map (·.ty) = s.jnl.asked.map (·.ty) ++ [0x0020]) ∧
      (s.ptp.relock = false → rd s F.PTP_STATE_STEPPED = 1 → rd s F.PTP_STATE_STATE ≠ 4 →
        (rd s F.PTP_SERVO_STEP_THRESH_US * 1000 < o.natAbs →
          ∃ t, exec (.offsetSample port msg) s = .next t ∧ t.time = s.time ∧
            rd t F.PTP_OFFSET_OFFSET = unsignedOf 32 (clampI (-2147483648) 2147483647 o) ∧
            rd t F.PTP_RATE_ADJ = rd s F.PTP_RATE_ADJ ∧
            rd t F.PTP_EVENT_CNT_DISCARD_CNT = min 255 (rd s F.PTP_EVENT_CNT_DISCARD_CNT + 1) ∧ t.mem = s.mem) ∧
        (o.natAbs ≤ rd s F.PTP_SERVO_STEP_THRESH_US * 1000 →
          ∃ t, exec (.offsetSample port msg) s = .next t ∧ t.time = s.time ∧ t.ptp.integ = i ∧
            rd t F.PTP_OFFSET_OFFSET = unsignedOf 32 (clampI (-2147483648) 2147483647 o) ∧
            rd t F.PTP_RATE_ADJ = unsignedOf 32 (clampI (-549755813) 549755813 (i + e / 4)) ∧ t.mem = s.mem)))

/-- PTP_CTRL_WRITE with EN 0 makes the state DISABLED, with EN going to 1 LISTENING; LOCKED is 0 and the clock does not step. RELOCK arms a step. CAPTURE copies the clock into the three snapshot registers and changes nothing else. An Announce by the clock's transport that the BMCA selects as the only one heard, naming another grandmaster, puts its identity into PTP_GM_ID with GM_CHANGE and a GM_CHANGE entry asked for, without a step. ANNOUNCE_TIMEOUT makes the state HOLDOVER with the flag raised and ADJ kept. DELAY_REQ_SEND sends a Delay_Req on the selected transport (log entry 106) from the port in use, which stamps it, and keeps its number and time; the response to it gives the mean path delay. -/
def Obligations.PtpPortAndMasters : Prop :=
  (∀ (v : BitVec 32) (s : State), v.toNat.testBit 0 = false → v.toNat.testBit 21 = false →
    ∃ t, exec (.ptpCtrlWrite v) s = .next t ∧ rd t F.PTP_STATE_STATE = 0 ∧ rd t F.PTP_STATE_LOCKED = 0 ∧ t.time = s.time ∧
      rd t F.PTP_RATE_ADJ = rd s F.PTP_RATE_ADJ) ∧
  (∀ (v : BitVec 32) (s : State), v.toNat.testBit 0 = true → v.toNat.testBit 21 = false → rd s F.PTP_CTRL_EN = 0 →
    ∃ t, exec (.ptpCtrlWrite v) s = .next t ∧ rd t F.PTP_STATE_STATE = 1 ∧ rd t F.PTP_STATE_LOCKED = 0 ∧ t.time = s.time ∧
      rd t F.PTP_CTRL_EN = 1 ∧ rd t F.PTP_RATE_ADJ = rd s F.PTP_RATE_ADJ) ∧
  (∀ s : State, rd s F.PTP_STATE_STATE ≠ 4 → exec .relock s = .next { s with ptp := { s.ptp with relock := true } }) ∧
  (∀ s : State, ∃ t, exec .capture s = .next t ∧ rd t F.PTP_SNAP_SEC_SEC = netNs s / 1000000000 % 2 ^ 48 ∧
    rd t F.PTP_SNAP_NS_NS = netNs s % 1000000000 ∧ rd t F.PTP_SNAP_SHORT_SHORT = netNs s % 2 ^ 32 ∧ t = { s with regs := t.regs } ∧
    sameRegsBut s t [R.PTP_SNAP_SEC.base, R.PTP_SNAP_NS.base, R.PTP_SNAP_SHORT.base]) ∧
  (∀ (port : Fin 16) (a : Announce) (s : State), rd s F.PTP_CTRL_EN = 1 → rd s F.PTP_STATE_PORT_ACTIVE = port →
    rd s F.PTP_CTRL_DOMAIN = a.domain.toNat → rd s F.PTP_CTRL_TRANSPORT = a.transport.toNat → rdb s F.PTP_CTRL_PROFILE = a.profile → -3 ≤ a.logInterval.toInt →
    a.logInterval.toInt ≤ 4 → s.ptp.masters = [] → a.steps.toNat < 255 → rd s F.PTP_STATE_STATE ≠ 4 → rd s F.PTP_GM_ID_ID ≠ a.gm.toNat →
    ∃ t, exec (.announceRx port a) s = .next t ∧ rd t F.PTP_GM_ID_ID = a.gm.toNat ∧ rd t F.PTP_EVENT_GM_CHANGE = 1 ∧
      t.ptp.parent = some a.sender ∧ rd t F.PTP_STATE_UTC_OFFSET = a.utcOffset.toNat ∧ t.time = s.time ∧
      t.jnl.asked.map (·.ty) = s.jnl.asked.map (·.ty) ++ [0x0022] ∧ t.mem = s.mem) ∧
  (∀ s : State, rd s F.PTP_CTRL_EN = 1 → s.ptp.byAnnounce = false →
    ∃ t, exec .announceTimeout s = .next t ∧ rd t F.PTP_STATE_STATE = 4 ∧ rd t F.PTP_STATE_LOCKED = 0 ∧ rd t F.PTP_EVENT_HOLDOVER = 1 ∧
      rd t F.PTP_RATE_ADJ = rd s F.PTP_RATE_ADJ ∧ t.time = s.time ∧ t.mem = s.mem ∧
      (rd s F.PTP_STATE_LOCKED = 1 → rd t F.PTP_EVENT_LOCK_LOST = 1)) ∧
  (∀ s : State, rd s F.PTP_CTRL_EN = 1 →
    let p := rd s F.PTP_STATE_PORT_ACTIVE
    ∃ t, exec .delayReqSend s = .next t ∧ t.out = .frame p (delayReqFrame s p s.ptp.reqSeq) :: s.out ∧
      t.net = { s.net with txStamp := s.net.txStamp.put p (netNs s) } ∧
      t.ptp = { s.ptp with req := some (s.ptp.reqSeq, (netNs s : Int)), reqSeq := (s.ptp.reqSeq + 1) % 2 ^ 16 } ∧
      t = { s with out := t.out, net := t.net, ptp := t.ptp, free := t.free }) ∧
  (∀ (port : Fin 16) (m : DelayResp) (s : State) (t1 t2 t3 : Int), rd s F.PTP_CTRL_EN = 1 → rd s F.PTP_STATE_PORT_ACTIVE = port →
    rd s F.PTP_CTRL_DOMAIN = m.domain.toNat → rd s F.PTP_CTRL_TRANSPORT = m.transport.toNat → m.mine = true → s.ptp.req = some (m.seq.toNat, t3) → s.ptp.sync = some (t1, t2) →
    exec (.delayRespRx port m) s =
      .next { s with ptp := { s.ptp with path := some (((t2 - t1) + ((m.receive : Int) - m.correction - t3)) / 2), req := none } })

/-- With BUSY 0 each of the three commands sets BUSY and changes nothing but registers and the command in flight; with BUSY 1 each is refused at once with REFUSED and CODE 5, the table unchanged. At completion BUSY is 0 and DONE set. An accepted INSTALL puts the staged entry at the lowest free index, writes that index to NET_FLOW_STATUS.INDEX and binds the source of a kind 0 entry; a refused one sets REFUSED and CODE with the table unchanged. REMOVE clears VALID of the named entry, leaves its other bits and every other entry, and makes the bound source of a kind 0 entry ORPHAN. READ copies the 16 words of the entry into NET_FLOW_STAGE and its counts into NET_FLOW_STATS, with the table unchanged. None of them touches memory. -/
def Obligations.FlowCommands : Prop :=
  (∀ (index : BitVec 10) (s : State), rd s F.NET_FLOW_STATUS_BUSY = 0 →
    (∃ t, exec .flowInstall s = .next t ∧ rd t F.NET_FLOW_STATUS_BUSY = 1 ∧ t.net = { s.net with op := some (1, 0) } ∧
      t = { s with regs := t.regs, net := t.net } ∧ sameRegsBut s t [R.NET_FLOW_STATUS.base]) ∧
    (∃ t, exec (.flowRemove index) s = .next t ∧ rd t F.NET_FLOW_STATUS_BUSY = 1 ∧ t.net = { s.net with op := some (2, index.toNat) } ∧
      t = { s with regs := t.regs, net := t.net } ∧ sameRegsBut s t [R.NET_FLOW_STATUS.base]) ∧
    (∃ t, exec (.flowRead index) s = .next t ∧ rd t F.NET_FLOW_STATUS_BUSY = 1 ∧ t.net = { s.net with op := some (3, index.toNat) } ∧
      t = { s with regs := t.regs, net := t.net } ∧ sameRegsBut s t [R.NET_FLOW_STATUS.base])) ∧
  (∀ (index : BitVec 10) (s : State), rd s F.NET_FLOW_STATUS_BUSY = 1 →
    ∃ t, exec .flowInstall s = .next t ∧ exec (.flowRemove index) s = .next t ∧ exec (.flowRead index) s = .next t ∧
      rd t F.NET_FLOW_STATUS_REFUSED = 1 ∧ rd t F.NET_FLOW_STATUS_CODE = 5 ∧ t.net = s.net ∧ t.mem = s.mem ∧ t.eas = s.eas) ∧
  (∀ (s : State) (k : Nat) (i : Nat), s.net.op = some (1, k) → installRefusal s (stagedEntry s) = none → i < 1024 →
    flowValid (flowEntry s i) = false → (∀ j < i, flowValid (flowEntry s j) = true) →
    ∃ t, exec .flowCmdDone s = .next t ∧ rd t F.NET_FLOW_STATUS_BUSY = 0 ∧ rd t F.NET_FLOW_STATUS_DONE = 1 ∧
      rd t F.NET_FLOW_STATUS_INDEX = i ∧ flowEntry t i = stagedEntry s ∧ (∀ j, j ≠ i → flowEntry t j = flowEntry s j) ∧
      (flowKind (stagedEntry s) = 0 → (srcOf t (flowIdent (stagedEntry s))).st = .bound) ∧ t.net.op = none ∧ t.mem = s.mem) ∧
  (∀ (s : State) (k : Nat) (c : Nat × Nat), s.net.op = some (1, k) → installRefusal s (stagedEntry s) = some c →
    ∃ t, exec .flowCmdDone s = .next t ∧ rd t F.NET_FLOW_STATUS_BUSY = 0 ∧ rd t F.NET_FLOW_STATUS_DONE = 1 ∧
      rd t F.NET_FLOW_STATUS_REFUSED = 1 ∧ rd t F.NET_FLOW_STATUS_CODE = c.1 ∧ t.net = { s.net with op := none } ∧
      t.eas = s.eas ∧ t.mem = s.mem) ∧
  (∀ (s : State) (i : Nat), s.net.op = some (2, i) → flowValid (flowEntry s i) = true → (flowEntry s i).length = 64 →
    ∃ t, exec .flowCmdDone s = .next t ∧ rd t F.NET_FLOW_STATUS_BUSY = 0 ∧ rd t F.NET_FLOW_STATUS_DONE = 1 ∧
      flowValid (flowEntry t i) = false ∧ (∀ k, k ≠ 39 → (flowEntry t i)[k]? = (flowEntry s i)[k]?) ∧
      (∀ j, j ≠ i → flowEntry t j = flowEntry s j) ∧ t.mem = s.mem ∧
      (flowKind (flowEntry s i) = 0 → (srcOf s (flowIdent (flowEntry s i))).st = .bound →
        (srcOf t (flowIdent (flowEntry s i))).st = .orphan)) ∧
  (∀ (s : State) (i : Nat), s.net.op = some (3, i) →
    ∃ t, exec .flowCmdDone s = .next t ∧ rd t F.NET_FLOW_STATUS_BUSY = 0 ∧ rd t F.NET_FLOW_STATUS_DONE = 1 ∧
      (∀ k < 16, rdReg t R.NET_FLOW_STAGE 0 k = leAt (flowEntry s i) (4 * k) 4) ∧
      rd t F.NET_FLOW_STATS_FRAMES_FRAMES = (runOf s i).frames % 2 ^ 32 ∧
      rd t F.NET_FLOW_STATS_LOSS_LOSS = min (runOf s i).loss 0xFFFFFFFF ∧
      t.net = { s.net with op := none } ∧ t.mem = s.mem ∧ t.eas = s.eas)

/-- A port that is not enabled and up ignores frames. A frame below 64 or above 9,216 bytes or with a bad FCS raises RX_BAD and does nothing else. An accepted frame that is no UDP datagram, no PTP and no pause frame goes to the queue HOSTQ (its place is log entry 14): it takes the next descriptor if one is free, and raises HOSTQ_FULL if none is. An RTP packet of a matched entry of kind 0 to 2 with another payload type is counted as PT_MISS and does nothing else. HOSTQ_TX_FRAME on a port that is up takes the next slot of its queue's ring, and the frame that the descriptor names leaves stamped unless a read errs (log entry 14). The next packet of the oldest canvas frame that waits in a send entry leaves, stamped, on the entry's port to its DST_MAC once its lines are held; the last ends the frame and counts it. ETH_LINK_DOWN clears LINK_UP and FEC_LOCK, raises LINK_DOWN, gives up frames half sent there, and moves the PTP clock to the alternate port that is up. ETH_LINK_UP of an enabled port with its quad's PLL locked sets LINK_UP, its lane's CDR_LOCK and PCS_LOCK, and FEC_LOCK for FEC at 25G. While the accesses that a frame brings must wait (log entry 141) it is not taken. -/
def Obligations.FramesAndEthernetLinks : Prop :=
  (∀ (port : Fin 16) (b : List Byte) (ok : Bool) (s : State), macUp s port.val = false →
    exec (.macFrameRx port b ok) s = .next s ∧ exec (.hostqTxFrame port port) s = .next s) ∧
  (∀ (q port : Fin 16) (s : State), q ≠ port → exec (.hostqTxFrame q port) s = .next s) ∧
  (∀ (port : Fin 16) (b : List Byte) (ok : Bool) (s : State), macUp s port.val = true →
    (ok = false ∨ b.length < 64 ∨ 9216 < b.length →
      ∃ t, exec (.macFrameRx port b ok) s = .next t ∧ rd t F.NET_MAC_EVENT_RX_BAD port.val = 1 ∧
        t = { s with regs := t.regs, fab := t.fab, net := { s.net with rxStamp := s.net.rxStamp.put port.val (netNs s) } } ∧
        sameRegsBut s t [R.NET_MAC_EVENT.addr port.val 0, R.NET_MAC_EVENT_CNT.addr port.val 0])) ∧
  (∀ (port : Fin 16) (s : State), macUp s port.val = true → accessWaits s 53 = false →
    let k := s.net.txPos.get port.val 0
    let r := busRead s 53 (Config.hostTxRing port.val + 32 * k) 32
    let d := Config.txDescriptor r.2.2
    let b := busRead r.1 53 d.1 (d.2 % 9217)
    ∃ t, exec (.hostqTxFrame port port) s = .next t ∧ t.net.txPos = s.net.txPos.put port.val ((k + 1) % max 1 (Config.hostTxSlots port.val)) ∧
      t.mem = s.mem ∧ t.eas = s.eas ∧
      (r.2.1 = 0 → b.2.1 = 0 → t.out = .frame port.val b.2.2 :: s.out ∧ t.net.txStamp = s.net.txStamp.put port.val (netNs s)) ∧
      (r.2.1 ≠ 0 ∨ b.2.1 ≠ 0 → t.out = s.out ∧ t.net.txStamp = s.net.txStamp)) ∧
  (∀ (port : Fin 16) (b : List Byte) (s : State), macUp s port.val = true → 64 ≤ b.length → b.length ≤ 9216 →
    let p := parseFrame (b.take (b.length - 4))
    accepts s port.val (b.take (b.length - 4)) p = true → p.dgram = none → p.bad = false → p.ty ≠ 0x8808 → p.ty ≠ 0x88F7 → accessWaits s 53 = false →
    let q := rd s F.NET_MAC_CTRL_HOSTQ port.val
    let slot := s.net.rxPos.get q 0
    let stamped := s.net.rxStamp.put port.val (netNs s)
    let r := busRead { s with net := { s.net with rxStamp := stamped } } 53 (Config.hostRing q + 32 * slot) 32
    let full := r.2.1 ≠ 0 ∨ bitOn (leAt r.2.2 13 1) 0 = true ∨ leAt r.2.2 8 2 < 64
    ∃ t, exec (.macFrameRx port b true) s = .next t ∧
      (full → rd t F.NET_MAC_EVENT_HOSTQ_FULL port.val = 1 ∧ t.net = { s.net with rxStamp := stamped } ∧ t.mem = s.mem) ∧
      (¬ full → t.net.rxPos.get q 0 = (slot + 1) % max 1 (Config.hostSlots q) ∧ t.net.entries = s.net.entries ∧
        t.net.runs = s.net.runs ∧ rd t F.NET_MAC_EVENT_HOSTQ_FULL port.val = rd s F.NET_MAC_EVENT_HOSTQ_FULL port.val)) ∧
  (∀ (port : Fin 16) (b : List Byte) (s : State) (d : Datagram) (i : Nat) (e : List Byte), macUp s port.val = true → 64 ≤ b.length →
    b.length ≤ 9216 →
    let p := parseFrame (b.take (b.length - 4))
    accepts s port.val (b.take (b.length - 4)) p = true → p.bad = false → p.dgram = some d → p.ty ≠ 0x8808 → isPtp p = false → flowFor s port.val d = some (i, e) → flowKind e ≤ 2 →
    accessWaits s (flowMaster s e) = false → leAt d.payload 0 1 = 0x80 → 12 ≤ d.payload.length → leAt d.payload 1 1 % 128 ≠ flowPt e →
    ∃ t, exec (.macFrameRx port b true) s = .next t ∧ runOf t i = { runOf s i with ptMiss := (runOf s i).ptMiss + 1 } ∧
      (∀ j, j ≠ i → runOf t j = runOf s j) ∧ t = { s with net := { s.net with runs := t.net.runs, rxStamp := s.net.rxStamp.put port.val (netNs s) } }) ∧
  (∀ (index : BitVec 10) (s : State) (f : SendFrame) (rest : List SendFrame), let e := flowEntry s index.toNat
    let r := runOf s index.toNat
    let n := (f.lines.headD []).length
    let ps := sendPieces (flowFlag e 6) (flowWidth e) n f.height r.sent
    let last := decide (sendCount (flowFlag e 6) (flowWidth e) n f.height ≤ r.sent + 1)
    flowValid e = true → flowKind e = 3 → macUp s (sendPort e) = true → r.sending = f :: rest → (∀ p ∈ ps, p.1 < f.lines.length) →
    ∃ t b, exec (.st2110PacketSend index) s = .next t ∧ t.out = .frame (sendPort e) b :: s.out ∧ b.take 6 = bytesAt e 54 6 ∧
      b = sendFrame s e (sendRtp e r.rtpSeq f ps last) ∧
      runOf t index.toNat = { r with sent := if last then 0 else r.sent + 1, sending := if last then rest else r.sending
                                     frames := r.frames + bit last, rtpSeq := (r.rtpSeq + 1) % 2 ^ 32 } ∧
      (∀ k, k ≠ index.toNat → runOf t k = runOf s k) ∧
      t = { s with out := t.out, free := t.free, net := { s.net with runs := t.net.runs, txStamp := s.net.txStamp.put (sendPort e) (netNs s) } }) ∧
  (∀ (port : Fin 16) (s : State), rd s F.NET_MAC_STATUS_LINK_UP port.val = 1 →
    ∃ t, exec (.ethLinkDown port) s = .next t ∧ rd t F.NET_MAC_STATUS_LINK_UP port.val = 0 ∧
      rd t F.NET_MAC_STATUS_FEC_LOCK port.val = 0 ∧ rd t F.NET_MAC_EVENT_LINK_DOWN port.val = 1 ∧
      (∀ x ∈ sendEntries s, sendPort x.2 = port.val → (runOf t x.1).sent = 0 ∧ (runOf t x.1).sending = []) ∧ t.mem = s.mem ∧ t.eas = s.eas ∧ t.out = s.out ∧
      (rd s F.PTP_CTRL_ALT_EN = 1 → rd s F.PTP_CTRL_PORT = port.val → rd s F.PTP_STATE_PORT_ACTIVE = port.val →
        rd s F.PTP_CTRL_ALT_PORT ≠ port.val → rd s F.NET_MAC_STATUS_LINK_UP (rd s F.PTP_CTRL_ALT_PORT) = 1 →
        rd t F.PTP_STATE_PORT_ACTIVE = rd s F.PTP_CTRL_ALT_PORT)) ∧
  (∀ (port : Fin 16) (q : Nat) (s : State), ethQuad s port.val = some q → rd s F.NET_MAC_CTRL_EN port.val = 1 →
    (s.lane.get q {}).pll = true → rd s F.NET_MAC_STATUS_LINK_UP port.val = 0 → testSet s (4 * q + port.val % 4) = false →
    ∃ t, exec (.ethLinkUp port) s = .next t ∧ rd t F.NET_MAC_STATUS_LINK_UP port.val = 1 ∧
      rd t F.NET_MAC_STATUS_FEC_LOCK port.val = bit (rdb s F.NET_MAC_CTRL_FEC_EN port.val && rdb s F.NET_MAC_CTRL_RATE port.val) ∧
      rd t F.LANE_STATUS_CDR_LOCK (4 * q + port.val % 4) = 1 ∧ rd t F.LANE_STATUS_PCS_LOCK (4 * q + port.val % 4) = 1 ∧
      t = { s with regs := t.regs } ∧
      sameRegsBut s t [R.NET_MAC_STATUS.addr port.val 0, R.PTP_STATE.base, R.LANE_STATUS.addr (4 * q + port.val % 4) 0])

/-- A frame that starts on a trained receiver quad feeding context c, with a landed format and the width IN_WIDTH, takes a free buffer of its class, which is then FILLING for the frame, under the set that is next to take effect, and restarts the watchdog; with no buffer free NO_BUF is raised and the frame has none; any other format or width raises FMT and it has none. A line counts; below the frame's height its packed bytes are written at its line's address in the buffer, and a tile row that is then whole is sealed provisionally; beyond it, or without a buffer, memory keeps. At frame end a frame with a buffer and all its lines asks for publication; a shorter one raises SHORT and a longer one LONG, with the buffer FREE again. Once WDOG_MS has passed since it last started, the watchdog raises WDOG with cause 1 where no frame is in progress, and with cause 2 where one is, which it abandons, freeing its buffer; before, neither command does anything. On a quad that lands nothing a line or a frame end changes nothing. Lines and ends wait where the landing engine's accesses do (log entry 141). -/
def Obligations.LandingOfReceiverFrames : Prop :=
  (∀ (q : Fin 16) (width : BitVec 14) (format : BitVec 4) (s : State), quadUse s q.val ≠ 2 ∨ rd s F.LANE_DPRX_STATUS_TRAINED q.val = 0 →
    exec (.dpFrameStart q width format) s = .next s) ∧
  (∀ (q : Fin 16) (width : BitVec 14) (format : BitVec 4) (s : State) (c : Nat) (set : CtxSet), quadUse s q.val = 2 →
    rd s F.LANE_DPRX_STATUS_TRAINED q.val = 1 → landingOf s q.val = none → quadContext s q.val = some c →
    nextLand (ctxOf s c) (sluCyc s) = some set → (ctxOf s c).landing = none →
    let landed := 2 ≤ format.toNat ∧ format.toNat ≤ 5 ∧ width.toNat = set.inW
    let free := (matchPool s format.toNat set.inW set.inH).bind (freeIn s)
    ∃ t l, exec (.dpFrameStart q width format) s = .next t ∧ (ctxOf t c).landing = some l ∧ l.quad = some q.val ∧ l.lines = 0 ∧ l.rows = [] ∧
      (ctxOf t c).land = some set ∧ (ctxOf t c).wdogFrom = s.time.cyc ∧ l.frame.source = set.landSrc ∧ l.frame.width = set.inW ∧
      l.frame.height = set.inH ∧ t.mem = s.mem ∧ (∀ e, e ≠ c → ctxOf t e = ctxOf s e) ∧
      (¬ landed → l.desc = none ∧ rd t F.SLU_CTX_EVENT_FMT c = 1 ∧ t.eas = s.eas) ∧
      (landed → free = none → l.desc = none ∧ rd t F.SLU_CTX_EVENT_NO_BUF c = 1 ∧ t.eas = s.eas) ∧
      (∀ d, landed → free = some d → l.desc = some d ∧ (descOf t d).st = .filling ∧ (descOf t d).frame = l.frame ∧
        (descOf t d).ownerHost = false ∧ t.eas.sources = s.eas.sources ∧ (∀ e, e ≠ d → descOf t e = descOf s e))) ∧
  (∀ (q : Fin 16) (px : List (BitVec 48)) (s : State), landingOf s q.val = none →
    exec (.dpLineRx q px) s = .next s ∧ exec (.dpFrameEnd q) s = .next s) ∧
  (∀ (q : Fin 16) (px : List (BitVec 48)) (s : State) (c : Nat) (l : Landing), landingOf s q.val = some c → (ctxOf s c).landing = some l →
    accessWaits s 54 = false → ∃ t l', exec (.dpLineRx q px) s = .next t ∧ (ctxOf t c).landing = some l' ∧ l'.lines = l.lines + 1 ∧ l'.desc = l.desc ∧
      t.eas = s.eas ∧ (∀ e, e ≠ c → ctxOf t e = ctxOf s e) ∧ (l.desc = none ∨ l.frame.height ≤ l.lines → t.mem = s.mem ∧ l'.rows = l.rows) ∧
      (∀ d, l.desc = some d → l.lines < l.frame.height →
        let n := (spanOf l.frame.format 0 0 l.frame.width).2
        let b := bytesAt (packLine l.frame.format 0 l.frame.width fun i x => slice ((px[x]?).getD 0).toNat (16 * i) 16) 0 n
        let p := placeIn s d l.frame
        let w := (busWrite s 54 (lineAddr p 0 l.lines 0) b).1
        let m := { l with data := l.data.put l.lines (patchBytes (l.data.get l.lines (List.replicate n 0)) 0 b)
                          got := l.got.put l.lines ((0, b.length) :: l.got.get l.lines []) }
        let whole := l.rows.contains (l.lines / 16) = false ∧ rowLanded m (l.lines / 16) = true
        (¬ whole → t.mem = w.mem ∧ l'.rows = l.rows) ∧
        (whole → t.mem = (sealRow w 54 p domSource l.frame.source 0 (l.lines / 16) (landLines m)).mem ∧ l'.rows = l.rows ++ [l.lines / 16]))) ∧
  (∀ (q : Fin 16) (s : State) (c : Nat) (l : Landing), landingOf s q.val = some c → (ctxOf s c).landing = some l → l.desc = none →
    accessWaits s 54 = false → ∃ t, exec (.dpFrameEnd q) s = .next t ∧ (ctxOf t c).landing = none ∧ t = { s with slu := t.slu }) ∧
  (∀ (q : Fin 16) (s : State) (c d : Nat) (l : Landing), landingOf s q.val = some c → (ctxOf s c).landing = some l → l.desc = some d →
    (descOf s d).st = .filling → accessWaits s 54 = false →
    (l.lines = l.frame.height → ∃ t, exec (.dpFrameEnd q) s = .next t ∧ (ctxOf t c).landing = none ∧
      t.eas.requests = s.eas.requests ++ [d] ∧ (descOf t d).st = .filling ∧ (descOf t d).frame.source = l.frame.source) ∧
    (l.lines ≠ l.frame.height →
      ∃ t, exec (.dpFrameEnd q) s = .next t ∧ (ctxOf t c).landing = none ∧ (descOf t d).st = .free ∧ t.mem = s.mem ∧
        t.eas.requests = s.eas.requests ∧ ((ctxOf s c).job = none → t.eas.sources = s.eas.sources) ∧
        (l.lines < l.frame.height → rd t F.SLU_CTX_EVENT_SHORT c = 1 ∧ rd t F.SLU_CTX_EVENT_LONG c = rd s F.SLU_CTX_EVENT_LONG c) ∧
        (l.frame.height < l.lines → rd t F.SLU_CTX_EVENT_LONG c = 1 ∧ rd t F.SLU_CTX_EVENT_SHORT c = rd s F.SLU_CTX_EVENT_SHORT c))) ∧
  (∀ (c : Fin 64) (s : State), let x := ctxOf s c.val
    (wdogMs x = 0 ∨ s.time.cyc < x.wdogFrom + msCyc (wdogMs x) →
      exec (.wdogNoStart c) s = .next s ∧ exec (.wdogIncomplete c) s = .next s) ∧
    (0 < wdogMs x → x.wdogFrom + msCyc (wdogMs x) ≤ s.time.cyc → x.landing = none →
      exec (.wdogIncomplete c) s = .next s ∧
      ∃ t, exec (.wdogNoStart c) s = .next t ∧ rd t F.SLU_CTX_EVENT_WDOG c.val = 1 ∧ rd t F.SLU_CTX_STATE_WDOG_CAUSE c.val = 1 ∧
        ctxOf t c.val = { x with wdogFrom := s.time.cyc } ∧ t.eas = s.eas ∧ t.mem = s.mem) ∧
    (∀ l, 0 < wdogMs x → x.wdogFrom + msCyc (wdogMs x) ≤ s.time.cyc → x.landing = some l →
      exec (.wdogNoStart c) s = .next s ∧
      ∃ t, exec (.wdogIncomplete c) s = .next t ∧ rd t F.SLU_CTX_EVENT_WDOG c.val = 1 ∧ rd t F.SLU_CTX_STATE_WDOG_CAUSE c.val = 2 ∧
        (ctxOf t c.val).landing = none ∧ (ctxOf t c.val).wdogFrom = s.time.cyc ∧ t.mem = s.mem ∧
        ((ctxOf s c.val).job = none → t.eas.sources = s.eas.sources) ∧
        (∀ d, l.desc = some d → (descOf s d).st = .filling → (descOf t d).st = .free)))

/-- Where no deadline has passed and the accesses of the Sluice are not held back (log entry 141): a release on a context without a job, under the set that is next for the pipeline, whose parent is there, passes its header check (a memory input) and finds output buffers, starts a job with stripe 0 to come and one more lease on the parent; with no buffers NO_BUF is raised; a header that fails raises HEADER_BAD and PARENT_BAD; neither starts a job, nor does a parent that is not there. With a job running the frame becomes the pending job, with SKIP where one waited. A free pipeline takes the ready stripe of earliest deadline and shows its context and BUSY, pipeline 0 first where both are free. A stripe that verifies and is not the last advances the job; the last one asks for the publication of every output of a published parent, output 0 first, and ends the job; a tile that fails raises PARENT_BAD and ends it with its buffers FREE. A passed deadline raises MISS, at SLU_JOB_DROP and at any other command here, and SLU_JOB_DROP ends the job so; before the deadline SLU_JOB_DROP does nothing. No pending job is assumed where a job ends. -/
def Obligations.SluiceJobsAndStripes : Prop :=
  (∀ (c : Fin 64) (s : State), (∀ k, overdue s k = false) → releasable s c.val = none → exec (.sluJobRelease c) s = .next s) ∧
  (∀ (c : Fin 64) (s : State) (d seq : Nat) (live : Bool), (∀ k, overdue s k = false) → releasable s c.val = some (d, seq, live) → (ctxOf s c.val).job.isSome = true →
    accessWaits s 55 = false → ∃ t, exec (.sluJobRelease c) s = .next t ∧ (ctxOf t c.val).next = some (d, seq, live) ∧ (ctxOf t c.val).job = (ctxOf s c.val).job ∧
      rd t F.SLU_CTX_STATE_PENDING c.val = 1 ∧ t.mem = s.mem ∧ t.eas = s.eas ∧
      ((ctxOf s c.val).next.isSome = true → rd t F.SLU_CTX_EVENT_SKIP c.val = 1) ∧
      ((ctxOf s c.val).next = none → rd t F.SLU_CTX_EVENT_SKIP c.val = rd s F.SLU_CTX_EVENT_SKIP c.val)) ∧
  (∀ (c : Fin 64) (s : State) (d seq : Nat) (live : Bool) (set : CtxSet), (∀ k, overdue s k = false) →
    releasable s c.val = some (d, seq, live) → (ctxOf s c.val).job = none → nextPipe (ctxOf s c.val) (sluCyc s) = some set → accessWaits s 55 = false →
    (parentThere s set d seq live = false →
      ∃ t, exec (.sluJobRelease c) s = .next t ∧ (ctxOf t c.val).job = none ∧ t.eas = s.eas ∧ t.mem = s.mem) ∧
    (parentThere s set d seq live = true →
    let passes := live = true ∨ (readHeader s 55 (leaseOf s d)).2.1 = true
    (∀ outs, passes → (takeOuts s (enabledOuts set)).2 = some outs →
      ∃ t j, exec (.sluJobRelease c) s = .next t ∧ (ctxOf t c.val).job = some j ∧ j.parent.desc = d ∧ j.live = live ∧ j.k = 0 ∧
        j.outs = outs ∧ j.set = set ∧ j.t0 = sluCyc s ∧ (descOf t d).leases = (descOf s d).leases + 1 ∧
        rd t F.SLU_CTX_STATE_JOB c.val = 1 ∧ t.mem = s.mem) ∧
    (passes → (takeOuts s (enabledOuts set)).2 = none →
      ∃ t, exec (.sluJobRelease c) s = .next t ∧ (ctxOf t c.val).job = none ∧ rd t F.SLU_CTX_EVENT_NO_BUF c.val = 1 ∧ t.mem = s.mem) ∧
    (¬ passes → ∃ t, exec (.sluJobRelease c) s = .next t ∧ (ctxOf t c.val).job = none ∧ rd t F.SLU_CTX_EVENT_PARENT_BAD c.val = 1 ∧
      rd t F.SEAL_EVENT_HEADER_BAD = 1 ∧ t.eas.descs = s.eas.descs ∧ t.mem = s.mem))) ∧
  (∀ (s u : State), (∀ k, overdue s k = false) → running s 0 = none → exec (.sluStripeStart 0) s = .next u →
    exec (.sluStripeStart 1) s = exec (.sluStripeStart 1) u) ∧
  (∀ (p : Fin 2) (s : State) (c : Nat) (j : Job), (∀ k, overdue s k = false) → running s p.val = none → (p = 1 → (running s 0).isSome = true) →
    nextStripe s = some c → (ctxOf s c).job = some j → c < 64 →
    ∃ t, exec (.sluStripeStart p) s = .next t ∧ (ctxOf t c).job = some { j with pipe := some p.val, last := p.val } ∧
      (∀ e, e ≠ c → ctxOf t e = ctxOf s e) ∧ t = { s with regs := t.regs, slu := t.slu } ∧
      (p = 0 → rd t F.SLU_PIPE_STATUS_P0_BUSY = 1 ∧ rd t F.SLU_PIPE_STATUS_P0_CTX = c) ∧
      (p = 1 → rd t F.SLU_PIPE_STATUS_P1_BUSY = 1 ∧ rd t F.SLU_PIPE_STATUS_P1_CTX = c)) ∧
  (∀ (p : Fin 2) (s : State) (c : Nat) (j : Job), (∀ k, overdue s k = false) → running s p.val = some c →
    (ctxOf s c).job = some j → c < 64 → (ctxOf s c).next = none → accessWaits s (55 + p.val) = false →
    let r := stripeTiles s j (55 + p.val)
    let ok := r.2.1 = true
    (ok → j.k + 1 < j.n ∨ (descOf s j.parent.desc).st = .filling →
      ∃ t, exec (.sluStripeEnd p) s = .next t ∧ (ctxOf t c).job = some { j with pipe := none, k := j.k + 1, tiles := r.2.2 } ∧
      (p = 0 → rd t F.SLU_PIPE_STATUS_P0_BUSY = 0) ∧ (p = 1 → rd t F.SLU_PIPE_STATUS_P1_BUSY = 0) ∧ t.eas = s.eas ∧ t.mem = s.mem) ∧
    (ok → j.n = j.k + 1 → j.live = false → (descOf s j.parent.desc).st ≠ .filling → (∀ e ∈ j.outs, e.1 < j.set.outs.length) →
      ∃ t, exec (.sluStripeEnd p) s = .next t ∧ (ctxOf t c).job = none ∧ t.eas.requests = s.eas.requests ++ j.outs.map (·.2)) ∧
    (¬ ok → ∃ t, exec (.sluStripeEnd p) s = .next t ∧ (ctxOf t c).job = none ∧ rd t F.SLU_CTX_EVENT_PARENT_BAD c = 1 ∧
      t.eas.requests = s.eas.requests ∧ t.mem = s.mem ∧
      ∀ o ∈ j.outs, (descOf s o.2).st = .filling → (descOf t o.2).st = .free)) ∧
  (∀ (c : Fin 64) (s : State) (j : Job), (ctxOf s c.val).job = some j →
    (j.n ≤ j.k ∨ sluCyc s ≤ deadlineAt j j.k → exec (.sluJobDrop c) s = .next s) ∧
    (∀ (p : Fin 2), j.k < j.n → deadlineAt j j.k < sluCyc s →
      (∃ t, exec (.sluJobRelease c) s = .next t ∧ rd t F.SLU_CTX_EVENT_MISS c.val = 1) ∧
      (∃ t, exec (.sluStripeStart p) s = .next t ∧ rd t F.SLU_CTX_EVENT_MISS c.val = 1) ∧
      (∃ t, exec (.sluStripeEnd p) s = .next t ∧ rd t F.SLU_CTX_EVENT_MISS c.val = 1)) ∧
    (j.k < j.n → deadlineAt j j.k < sluCyc s → (ctxOf s c.val).next = none →
    ∃ t, exec (.sluJobDrop c) s = .next t ∧ (ctxOf t c.val).job = none ∧ rd t F.SLU_CTX_EVENT_MISS c.val = 1 ∧
      rd t F.SLU_CTX_STATE_JOB c.val = 0 ∧ t.eas.requests = s.eas.requests ∧ t.eas.sources = s.eas.sources ∧ t.mem = s.mem ∧
      ∀ o ∈ j.outs, (descOf s o.2).st = .filling → (descOf t o.2).st = .free))

/-- APPLY with BUSY 0 sets BUSY and takes the staged set of the context; with BUSY 1 it is refused with code 8. At completion BUSY is 0. A set that breaks a rule of R171 raises REFUSED with its code, every context and source unchanged. An accepted set with EN 1 raises DONE, binds each source it produces and becomes the pending set of both sides with SET_PENDING 1; the sets in effect stay. An accepted set with EN 0 leaves the context with no set, landing, job or pending job and ACTIVE 0. -/
def Obligations.SluiceApply : Prop :=
  (∀ (c : Fin 64) (s : State),
    (rd s F.SLU_APPLY_STATUS_BUSY = 0 → ∃ t, exec (.sluApply c) s = .next t ∧ rd t F.SLU_APPLY_STATUS_BUSY = 1 ∧
      rd t F.SLU_APPLY_STATUS_CONTEXT = c.val ∧ t.slu = { s.slu with apply := some (c.val, stagedSet s c.val) } ∧
      t = { s with regs := t.regs, slu := t.slu } ∧ sameRegsBut s t [R.SLU_APPLY_STATUS.base]) ∧
    (rd s F.SLU_APPLY_STATUS_BUSY = 1 → ∃ t, exec (.sluApply c) s = .next t ∧ rd t F.SLU_APPLY_STATUS_REFUSED = 1 ∧
      rd t F.SLU_APPLY_STATUS_CODE = 8 ∧ rd t F.SLU_APPLY_STATUS_CONTEXT = c.val ∧ t.slu = s.slu ∧ t.eas = s.eas ∧ t.mem = s.mem)) ∧
  (∀ (s : State) (c : Nat) (set : CtxSet), s.slu.apply = some (c, set) → c < 64 →
    (∀ r, setRefusal s c set = some r →
      ∃ t, exec .sluApplyDone s = .next t ∧ rd t F.SLU_APPLY_STATUS_BUSY = 0 ∧ rd t F.SLU_APPLY_STATUS_REFUSED = 1 ∧
        rd t F.SLU_APPLY_STATUS_CODE = r.1 ∧ rd t F.SLU_APPLY_STATUS_CONTEXT = c ∧ t.slu = { s.slu with apply := none } ∧
        t.eas = s.eas ∧ t.mem = s.mem ∧
        (r.1 = 1 → r.2.1 < 256 → r.2.2 < 32 → rd t F.SLU_APPLY_STATUS_REG = r.2.1 ∧ rd t F.SLU_APPLY_STATUS_BIT = r.2.2)) ∧
    (setRefusal s c set = none → set.en = true →
      ∃ t, exec .sluApplyDone s = .next t ∧ rd t F.SLU_APPLY_STATUS_BUSY = 0 ∧ rd t F.SLU_APPLY_STATUS_DONE = 1 ∧
        (∀ x ∈ setSources c set, (srcOf t x.1).st = .bound) ∧ (∀ e, e ≠ c → ctxOf t e = ctxOf s e) ∧ t.mem = s.mem ∧
        (ctxOf t c).pend = some set ∧ (ctxOf t c).pendLand = true ∧ (ctxOf t c).pendPipe = true ∧ (ctxOf t c).pendAt = sluCyc s ∧
        (ctxOf t c).land = (ctxOf s c).land ∧ (ctxOf t c).pipe = (ctxOf s c).pipe ∧ (ctxOf t c).job = (ctxOf s c).job ∧
        rd t F.SLU_CTX_STATE_SET_PENDING c = 1 ∧
        rd t F.SLU_CTX_STATE_ACTIVE c = bit ((ctxOf s c).land.any (·.en) || (ctxOf s c).pipe.any (·.en))) ∧
    (setRefusal s c set = none → set.en = false →
      ∃ t, exec .sluApplyDone s = .next t ∧ rd t F.SLU_APPLY_STATUS_DONE = 1 ∧ (ctxOf t c).land = none ∧ (ctxOf t c).pipe = none ∧
        (ctxOf t c).pend = none ∧ (ctxOf t c).landing = none ∧ (ctxOf t c).job = none ∧ (ctxOf t c).next = none ∧
        rd t F.SLU_CTX_STATE_ACTIVE c = 0 ∧ rd t F.SLU_CTX_STATE_JOB c = 0 ∧ t.mem = s.mem))

/-- With BUSY 0 each command sets BUSY and STREAM and changes nothing but registers and the command in flight; with BUSY 1 it is refused with code 9. At completion BUSY is 0. A command that breaks a rule of R180 or R182 raises REFUSED with its code and leaves every stream and source. An accepted ADMIT raises DONE; the stream is admitted on the engine with the most free budget, waits for a RAP, and its source is bound. REMOVE leaves the stream empty and not admitted, with its bound source ORPHAN and its current frame kept. INJECT of data that parses adds its parameter sets; of data that does not it is refused with code 10 and the sets stay. An INJECT waits where its reads must (log entry 141). None of them writes memory. -/
def Obligations.DecoderCommands : Prop :=
  (∀ (n : BitVec 8) (s : State), rd s F.VDC_STATUS_BUSY = 0 →
    ∃ t1 t2 t3, exec (.vdcAdmit n) s = .next t1 ∧ exec (.vdcRemove n) s = .next t2 ∧ exec (.vdcInject n) s = .next t3 ∧
      (∀ x ∈ [(t1, 1), (t2, 2), (t3, 3)], rd x.1 F.VDC_STATUS_BUSY = 1 ∧ rd x.1 F.VDC_STATUS_STREAM = n.toNat ∧
        x.1.vdc = { s.vdc with op := some (x.2, n.toNat) } ∧ x.1 = { s with regs := x.1.regs, vdc := x.1.vdc } ∧
        sameRegsBut s x.1 [R.VDC_STATUS.base])) ∧
  (∀ (n : BitVec 8) (s : State), rd s F.VDC_STATUS_BUSY = 1 →
    ∃ t, exec (.vdcAdmit n) s = .next t ∧ exec (.vdcRemove n) s = .next t ∧ exec (.vdcInject n) s = .next t ∧
      rd t F.VDC_STATUS_REFUSED = 1 ∧ rd t F.VDC_STATUS_CODE = 9 ∧ rd t F.VDC_STATUS_STREAM = n.toNat ∧ t.vdc = s.vdc ∧ t.eas = s.eas ∧ t.mem = s.mem) ∧
  (∀ (s : State) (op n : Nat) (c : Nat × Nat × Nat), s.vdc.op = some (op, n) → n < 256 → vdcRefusal s op n = some c →
    (op = 3 → accessWaits s (64 + (strOf s n).engine) = false) →
    ∃ t, exec .vdcCmdDone s = .next t ∧ rd t F.VDC_STATUS_BUSY = 0 ∧ rd t F.VDC_STATUS_REFUSED = 1 ∧ rd t F.VDC_STATUS_CODE = c.1 ∧
      rd t F.VDC_STATUS_STREAM = n ∧ t.vdc = { s.vdc with op := none } ∧ t.eas = s.eas ∧ t.mem = s.mem) ∧
  (∀ (s : State) (n : Nat), s.vdc.op = some (1, n) → n < 256 → vdcRefusal s 1 n = none →
    ∃ t, exec .vdcCmdDone s = .next t ∧ rd t F.VDC_STATUS_BUSY = 0 ∧ rd t F.VDC_STATUS_DONE = 1 ∧ strOf t n = stagedStream s n ∧
      (strOf t n).admitted = true ∧ (strOf t n).engine = bestEngine s ∧ (∀ k < 4, kbpsFree s k ≤ kbpsFree s (strOf t n).engine) ∧
      (∀ m, m ≠ n → strOf t m = strOf s m) ∧ rd t F.VDC_STR_STATE_ADMITTED n = 1 ∧ rd t F.VDC_STR_STATE_WAIT_RAP n = 1 ∧
      (srcOf t (rd s F.VDC_STR_CFG_SRC n)).st = .bound ∧ t.mem = s.mem) ∧
  (∀ (s : State) (n : Nat), s.vdc.op = some (2, n) → n < 256 → vdcRefusal s 2 n = none →
    ∃ t, exec .vdcCmdDone s = .next t ∧ rd t F.VDC_STATUS_BUSY = 0 ∧ rd t F.VDC_STATUS_DONE = 1 ∧ strOf t n = {} ∧
      (∀ m, m ≠ n → strOf t m = strOf s m) ∧ rd t F.VDC_STR_STATE_ADMITTED n = 0 ∧
      (srcOf t (strOf s n).src).cur = (srcOf s (strOf s n).src).cur ∧
      ((srcOf s (strOf s n).src).st = .bound → (srcOf t (strOf s n).src).st = .orphan) ∧
      (∀ q ∈ (strOf s n).dpb, ∀ d, q.desc = some d → (descOf t d).refS = false ∧ (descOf t d).refL = false) ∧ t.mem = s.mem) ∧
  (∀ (s : State) (n : Nat), s.vdc.op = some (3, n) → n < 256 → vdcRefusal s 3 n = none →
    accessWaits s (64 + (strOf s n).engine) = false →
    (∀ l, (readPsets s n).2 = some l →
      ∃ t, exec .vdcCmdDone s = .next t ∧ rd t F.VDC_STATUS_BUSY = 0 ∧ rd t F.VDC_STATUS_DONE = 1 ∧
        strOf t n = { strOf s n with psets := l.foldl (holdPset (strOf s n).codec) (strOf s n).psets } ∧
        (∀ m, m ≠ n → strOf t m = strOf s m) ∧ t.eas = s.eas ∧ t.mem = s.mem) ∧
    ((readPsets s n).2 = none →
      ∃ t, exec .vdcCmdDone s = .next t ∧ rd t F.VDC_STATUS_BUSY = 0 ∧ rd t F.VDC_STATUS_REFUSED = 1 ∧ rd t F.VDC_STATUS_CODE = 10 ∧
        t.vdc = { s.vdc with op := none } ∧ t.eas = s.eas ∧ t.mem = s.mem))

/-- A free entropy engine takes the queue head of its ready stream of earliest arrival. Parsed: an unsupported SPS raises UNSUP with its cause, and the stream waits for a RAP; a new stream discards units before its first RAP, counting DISCARD; symbols above half of SYM_SIZE raise OVERRUN with LAST_OVR 2; otherwise the picture joins those waiting. An end of sequence with no picture left to reconstruct publishes all that wait. A free pixel engine makes the marks that precede its picture and takes the waiting picture of earliest arrival with a free buffer, raising REF_MISSING where a reference is not in the DPB, with the nearest reference (or none) standing in, or raises NO_BUF with none free: a reference picture then takes those after it up to a RAP. A reconstructed picture leaves its engine; CONCEAL is raised when it or its blocks were concealed; TAINT is set by concealment, cleared by a RAP without it, kept otherwise; only pictures that its marking leaves, and itself, stay in the DPB, at most DPB_MAX; with a reorder limit of 0 or at the end of a sequence and none awaiting output it is requested for publication, with a limit of 1 it waits. -/
def Obligations.DecoderPictures : Prop :=
  (∀ (e : Fin 4) (s : State) (n : Nat), (admittedStr s).any (fun x => x.2.engine == e.val && x.2.parsing.isSome) = false →
    earliest (entropyReady s e.val) (fun n => ((strOf s n).queue.head?.map (·.arrival)).getD 0) = some n →
    exec (.entropyAuStart e) s = .next (setStr s n { strOf s n with parsing := (strOf s n).queue.head?, queue := (strOf s n).queue.tail })) ∧
  (∀ (e : Fin 4) (i : PicInfo) (s : State) (n : Nat) (x : Stream) (a : AccessUnit),
    (admittedStr s).find? (fun x => x.2.engine == e.val && x.2.parsing.isSome) = some (n, x) → strOf s n = x → x.parsing = some a → n < 256 →
    let cause := (i.sps.map (spsCause x)).getD 0
    ∃ t, exec (.entropyAuDone e i) s = .next t ∧ (strOf t n).parsing = none ∧ (strOf t n).queue = x.queue ∧
      (∀ m, m ≠ n → strOf t m = strOf s m) ∧
      (endsSequence x.codec a = false → t.eas = s.eas ∧ t.mem = s.mem ∧ (strOf t n).done = x.done) ∧
      (endsSequence x.codec a = true → x.recon = none → (strOf t n).waiting = [] → (strOf t n).done = []) ∧
      (cause ≠ 0 → rd t F.VDC_STR_EVENT_UNSUP n = 1 ∧ rd t F.VDC_STR_STATE_UNSUP_CODE n = cause % 16 ∧
        rd t F.VDC_STR_STATE_WAIT_RAP n = 1 ∧ (x.fresh = true → rd t F.VDC_STR_EVENT_DISCARD n = 1) ∧
        (endsSequence x.codec a = false → (strOf t n).waiting = x.waiting)) ∧
      (cause = 0 → x.fresh = true → x.waitRap = true → isRap x.codec a = false →
        rd t F.VDC_STR_EVENT_DISCARD n = 1 ∧ (strOf t n).waitRap = true ∧ (endsSequence x.codec a = false → (strOf t n).waiting = x.waiting)) ∧
      (cause = 0 → (x.waitRap = false ∨ isRap x.codec a = true) → x.unsup = false → x.dropRasl = false →
        (i.sps.isSome = true ∨ x.sps.isSome = true) →
        (2 * i.symbols > x.symSize * 65536 → rd t F.VDC_STR_EVENT_OVERRUN n = 1 ∧ rd t F.VDC_STR_STATE_LAST_OVR n = 2 ∧
          (endsSequence x.codec a = false → (strOf t n).waiting = x.waiting)) ∧
        (2 * i.symbols ≤ x.symSize * 65536 → (slices x.codec a).isEmpty = false →
          ∃ p, (strOf t n).waiting = x.waiting ++ [p] ∧ p.au = a ∧ p.info = i ∧ p.last = endsSequence x.codec a ∧ (strOf t n).waitRap = false ∧
            p.concealed = (a.lossMark || i.syntaxError) ∧ (i.syntaxError = true → rd t F.VDC_STR_EVENT_SYNTAX n = 1)))) ∧
  (∀ (e : Fin 4) (s : State) (n : Nat) (p : Picture) (rest : List Picture),
    (admittedStr s).any (fun x => x.2.recon.any fun r => r.2 == e.val) = false →
    earliest (pixelReady s) (fun n => ((strOf s n).waiting.head?.map (·.au.arrival)).getD 0) = some n → (strOf s n).waiting = p :: rest → n < 256 →
    let m := setDpb (setStr s n { strOf s n with prevFrameNum := prevNumBefore (strOf s n) p }) n (marksBefore (strOf s n) p)
    let free := (matchPool m (picFormat p) p.sps.codedW p.sps.codedH).bind (freeIn m)
    let lost := p.info.refs.filter fun q => !((strOf m n).dpb.any fun b => b.poc == q && b.desc.isSome)
    (∀ d, free = some d → ∃ t, exec (.pixelEngineStart e) s = .next t ∧
      (strOf t n).recon = some ({ p with desc := d, pixel := e.val, concealed := p.concealed || !lost.isEmpty,
                                         standIns := lost.map fun q => (q, (nearestRef (strOf m n).dpb p).bind (·.desc)) }, e.val) ∧
      (strOf t n).waiting = rest ∧ (strOf t n).dpb = (strOf m n).dpb ∧ (∀ k, k ≠ n → strOf t k = strOf s k) ∧
      (descOf t d).st = .filling ∧ (lost ≠ [] → rd t F.VDC_STR_EVENT_REF_MISSING n = 1) ∧
      (lost = [] → rd t F.VDC_STR_EVENT_REF_MISSING n = rd s F.VDC_STR_EVENT_REF_MISSING n) ∧ t.mem = s.mem) ∧
    (free = none → ∃ t, exec (.pixelEngineStart e) s = .next t ∧ rd t F.VDC_STR_EVENT_NO_BUF n = 1 ∧ (strOf t n).recon = (strOf s n).recon ∧
      rd t F.EAS_EVENT_POOL_EMPTY = 1 ∧
      (isReference (strOf s n).codec p.au = false → (strOf t n).waiting = (dropLeading (strOf s n).codec rest).1) ∧
      (isReference (strOf s n).codec p.au = true →
        (strOf t n).waiting = (dropLeading (strOf s n).codec (rest.dropWhile fun q => !isRap (strOf s n).codec q.au)).1 ∧
        ((∀ q ∈ rest, isRap (strOf s n).codec q.au = false) → rd t F.VDC_STR_STATE_WAIT_RAP n = 1)) ∧
      ((∀ q ∈ p :: rest, q.last = false) → t.eas = m.eas ∧ t.mem = s.mem))) ∧
  (∀ (e : Fin 4) (r : Recon) (s : State) (n k : Nat) (x : Stream) (p : Picture),
    (admittedStr s).find? (fun x => x.2.recon.any fun r => r.2 == e.val) = some (n, x) → strOf s n = x → x.recon = some (p, k) → n < 256 →
    accessWaits s (68 + k) = false →
    let hidden := p.concealed || !r.missing.isEmpty
    ∃ t, exec (.reconDone e r) s = .next t ∧ (strOf t n).recon = none ∧ (∀ m, m ≠ n → strOf t m = strOf s m) ∧
      (strOf t n).taint = (hidden || (!isRap x.codec p.au && x.taint)) ∧
      rd t F.VDC_STR_STATE_TAINT n = bit (hidden || (!isRap x.codec p.au && x.taint)) ∧
      (hidden = true → rd t F.VDC_STR_EVENT_CONCEAL n = 1) ∧
      (∀ b ∈ (strOf t n).dpb, b.desc = some p.desc ∨
        b ∈ (if x.codec = 1 then x.dpb else (avcMarks p.sps p.start p.info x.dpb x.maxLong).pics) ∨ isReference x.codec p.au = false) ∧
      (x.codec ≠ 1 → isReference x.codec p.au = false → (strOf t n).dpb = x.dpb) ∧
      (x.codec = 1 ∨ isReference x.codec p.au = true → (strOf t n).dpb.length ≤ max 1 x.dpbMax) ∧
      (x.done = [] → (reorderLimit p.sps = 0 ∨ p.last = true) → t.eas.requests = s.eas.requests ++ [p.desc] ∧ (strOf t n).done = [] ∧
        (descOf t p.desc).frame.source = x.src ∧ (descOf t p.desc).frame.concealed = (hidden || (!isRap x.codec p.au && x.taint))) ∧
      (x.done = [] → reorderLimit p.sps = 1 → p.last = false →
        t.eas.requests = s.eas.requests ∧ (strOf t n).done.map (·.desc) = [p.desc]))

/-- With BUSY 0 each command sets BUSY and changes nothing but registers and the command in flight; with BUSY 1 it is refused with code 8. At completion BUSY is 0. A command that breaks a rule of R199 raises REFUSED with its code and its session, every session unchanged. An accepted ADMIT raises DONE: the session is that of its staged registers, its CPB full and WPTR 0. REMOVE leaves the session empty, drops the lease of a picture being coded, and leaves its canvas's write-back frame unselected. IDR leaves an IDR pending. No other session changes, and none of them writes memory. -/
def Obligations.EncoderSessions : Prop :=
  (∀ (n : BitVec 5) (s : State), rd s F.VEN_STATUS_BUSY = 0 →
    ∃ t1 t2 t3, exec (.venAdmit n) s = .next t1 ∧ exec (.venRemove n) s = .next t2 ∧ exec (.venIdr n) s = .next t3 ∧
      (∀ x ∈ [(t1, 1), (t2, 2), (t3, 3)], rd x.1 F.VEN_STATUS_BUSY = 1 ∧ x.1.ven = { s.ven with op := some (x.2, n.toNat) } ∧
        x.1 = { s with regs := x.1.regs, ven := x.1.ven } ∧ sameRegsBut s x.1 [R.VEN_STATUS.base])) ∧
  (∀ (n : BitVec 5) (s : State), rd s F.VEN_STATUS_BUSY = 1 →
    ∃ t, exec (.venAdmit n) s = .next t ∧ exec (.venRemove n) s = .next t ∧ exec (.venIdr n) s = .next t ∧
      rd t F.VEN_STATUS_REFUSED = 1 ∧ rd t F.VEN_STATUS_CODE = 8 ∧ rd t F.VEN_STATUS_SESSION = n.toNat ∧ t.ven = s.ven ∧ t.eas = s.eas ∧ t.mem = s.mem) ∧
  (∀ (s : State) (op n : Nat) (c : Nat × Nat × Nat), s.ven.op = some (op, n) → n < 32 → venRefusal s op n = some c →
    ∃ t, exec .venCmdDone s = .next t ∧ rd t F.VEN_STATUS_BUSY = 0 ∧ rd t F.VEN_STATUS_REFUSED = 1 ∧ rd t F.VEN_STATUS_CODE = c.1 ∧
      rd t F.VEN_STATUS_SESSION = n ∧ t.ven = { s.ven with op := none } ∧ t.eas = s.eas ∧ t.mem = s.mem) ∧
  (∀ (s : State) (op n : Nat), s.ven.op = some (op, n) → n < 32 → venRefusal s op n = none →
    ∃ t, exec .venCmdDone s = .next t ∧ rd t F.VEN_STATUS_BUSY = 0 ∧ rd t F.VEN_STATUS_DONE = 1 ∧ rd t F.VEN_STATUS_SESSION = n ∧
      (∀ m, m ≠ n → sesOf t m = sesOf s m) ∧ t.mem = s.mem ∧
      (op = 1 → sesOf t n = stagedSession s n ∧ (sesOf t n).cpb = rd s F.VEN_SES_CPB_CPB_KBIT n * 1000 ∧
        rd t F.VEN_SES_WPTR_PTR n = 0 ∧ rd t F.VEN_SES_STATE_ADMITTED n = 1 ∧ t.eas = s.eas) ∧
      (op = 2 → sesOf t n = {} ∧ rd t F.VEN_SES_STATE_ADMITTED n = 0 ∧ (∀ w, (cnvOf t n).wb = some w → w.coded = false) ∧
        ∀ c, (sesOf s n).coding = some c → (sesOf s n).waiting = none → (descOf t c.desc).leases = (descOf s c.desc).leases - 1) ∧
      (op = 3 → sesOf t n = { sesOf s n with idrPend := true } ∧ t.eas = s.eas))

/-- The free encoder takes the waiting frame of earliest publish, as an IDR for the causes of R203; CQP takes QP_I or QP_P and the cap PIC_MAX_KBIT × 1,000. An I picture has no reference, a P picture the previous coded one. A row that keeps S + (N − r − 1) × F within the cap is accepted; one that does not is discarded, and from then on rows are floor rows of at most F bits, skipped in a P and DC in an I picture. A row's tiles are checked when it is first read; a read error raises SEAL_FAIL. The picture done (while no unit waits for the ring) leaves the encoder free, its write-back lease dropped, QP_LAST and FLOOR_LAST written, FLOOR raised if it has floor rows; its unit starts with its parameter sets and SEI message; the CPB loses its size, and in CBR by filler leaves room for a period's bits where a filler NAL unit fits (log entry 123). Where the unit would reach RPTR the next picture is an IDR. The unit goes to the ring at WPTR behind its 16-byte header, padded to 64 bytes, after a padding header where it would pass the end; where it has no place it is not written and RING_FULL is raised. -/
def Obligations.EncoderPictures : Prop :=
  (∀ (s : State) (n k : Nat) (w : WriteBack), encoderBusy s = false → nextWaiting s = some n → (sesOf s n).waiting = some (k, w) → n < 32 → accessWaits s 72 = false →
    let x := sesOf s n
    let p := wbPlace s w.desc
    let idr := x.first || (x.gop != 0 && decide (x.gop ≤ x.sinceIdr)) || x.idrPend || x.notWritten ||
      (decide (x.width ≠ p.w) || decide (x.height ≠ p.h))
    ∃ t c, exec .encPictureStart s = .next t ∧ (sesOf t n).coding = some c ∧ (sesOf t n).waiting = none ∧ (sesOf t n).idrPend = false ∧
      c.desc = w.desc ∧ c.frame = w.frame ∧ c.idr = idr ∧ c.reference = (if idr then none else x.reference) ∧ c.info.isSome = idr ∧ c.ord = w.ord ∧ c.gap = x.gapBefore ∧ c.row = 0 ∧ c.floored = false ∧
      c.rows = rowCount x.codec p.h ∧ c.floorBits = floorSize x.codec p.w ∧
      (x.mode = 2 → c.qp = (if idr then x.qpI else x.qpP) ∧ c.cap = x.picMax * 1000) ∧
      rd t F.VEN_SES_STATE_CODING n = 1 ∧ rd t F.VEN_SES_STATE_WAITING n = 0 ∧ t.mem = s.mem ∧ t.eas = s.eas) ∧
  (∀ (bits : BitVec 32) (l : List Byte) (err : Bool) (s : State) (n : Nat) (c : Coding), codingSession s = some (n, c) → c.row < c.rows → n < 32 → accessWaits s 72 = false →
    let x := sesOf s n
    let tooBig := headBits s n x (readCodedRow s n x c err).2 + c.bits + bits.toNat + (c.rows - c.row - 1) * c.floorBits > c.cap
    ∃ t d, exec (.encRowDone bits l err) s = .next t ∧ (sesOf t n).coding = some d ∧ t.mem = s.mem ∧ t.eas = s.eas ∧
      (c.floored = true → d.row = c.row + 1 ∧ d.floors = c.floors + 1 ∧ d.bits ≤ c.bits + c.floorBits ∧ c.stream <+: d.stream ∧
        d.codes = c.codes ++ [if c.idr then .dcFloor else .skip]) ∧
      (c.floored = false → tooBig → d.row = c.row ∧ d.stream = c.stream ∧ d.floored = true) ∧
      (c.floored = false → ¬ tooBig → d.row = c.row + 1 ∧ d.floors = c.floors ∧ d.bits = c.bits + bits.toNat ∧ d.stream = c.stream ++ rowBits l bits.toNat ∧ d.floored = false ∧
        d.codes = c.codes ++ [.coded]) ∧
      (c.row < c.checked → d.map = c.map ∧ d.sealFail = c.sealFail ∧ d.checked = c.checked) ∧ (c.checked ≤ c.row → d.checked = c.row + 1) ∧
      (c.checked ≤ c.row → err = true → ((codedTileRows x.codec x.height c.row).map fun r => rowTiles (wbPlace s c.desc) r).flatten ≠ [] →
        rd t F.VEN_SES_EVENT_SEAL_FAIL n = 1 ∧ d.sealFail = true)) ∧
  (∀ (s : State) (n : Nat) (c : Coding), codingSession s = some (n, c) → c.rows ≤ c.row → (sesOf s n).ready = none → n < 32 →
    ∃ t d place rest, exec .encPictureDone s = .next t ∧ (sesOf t n).coding = none ∧ (sesOf t n).ready = some (d, place) ∧ d.frame = c.frame ∧
      (sesOf t n).reference = some c.frame ∧ (sesOf t n).notWritten = place.isNone ∧
      place = ringPlace ((sesOf s n).mib * 2 ^ 20) (rd s F.VEN_SES_WPTR_PTR n) (rd s F.VEN_SES_RPTR_PTR n) (roundUp (16 + d.bytes.length) 64) ∧
      d.bytes = c.params ++ seiNal (sesOf s n).codec (seiPayload s n (sesOf s n) c) ++ bitsToBytes c.stream ++ rest ∧
      (sesOf t n).cpb = cpbFull (sesOf s n) c.ord - 8 * d.bytes.length ∧
      ((sesOf s n).mode ≠ 0 → rest = []) ∧
      ((sesOf s n).mode = 0 → periodBits (sesOf s n) + 8 ≤ (sesOf s n).cpbKbit * 1000 →
        8 * (d.bytes.length - rest.length) + 8 * ((fillerHead (sesOf s n).codec).length + 1) ≤ cpbFull (sesOf s n) c.ord →
        (sesOf t n).cpb + periodBits (sesOf s n) ≤ (sesOf s n).cpbKbit * 1000) ∧
      rd t F.VEN_SES_STATE_QP_LAST n = c.qp % 64 ∧ rd t F.VEN_SES_STATE_FLOOR_LAST n = c.floors % 256 ∧ rd t F.VEN_SES_STATE_CODING n = 0 ∧
      (0 < c.floors → rd t F.VEN_SES_EVENT_FLOOR n = 1) ∧ (c.floors = 0 → rd t F.VEN_SES_EVENT_FLOOR n = rd s F.VEN_SES_EVENT_FLOOR n) ∧
      (descOf t c.desc).leases = (descOf s c.desc).leases - 1 ∧ t.mem = s.mem) ∧
  (∀ (n : BitVec 5) (s : State), (sesOf s n.toNat).ready = none → exec (.encAuWritten n) s = .next s) ∧
  (∀ (n : BitVec 5) (s : State) (c : Coding) (place : Option Nat), (sesOf s n.toNat).ready = some (c, place) → 1 ≤ (sesOf s n.toNat).mib → (sesOf s n.toNat).mib ≤ 255 → accessWaits s 72 = false →
    let x := sesOf s n.toNat
    let w := rd s F.VEN_SES_WPTR_PTR n.toNat
    let len := roundUp (16 + c.bytes.length) 64
    let entry := entryHeader c.bytes.length c.frame (bit c.idr + 2 * bit (decide (0 < c.floors)) + 4 * bit c.sealFail) c.qp c.floors ++ c.bytes
    let entry := entry ++ List.replicate (len - entry.length) 0
    (place = none →
      ∃ t, exec (.encAuWritten n) s = .next t ∧ rd t F.VEN_SES_EVENT_RING_FULL n.toNat = 1 ∧ sesOf t n.toNat = { x with ready := none } ∧
        rd t F.VEN_SES_WPTR_PTR n.toNat = w ∧ t.mem = s.mem) ∧
    (place = some 0 →
      ∃ t, exec (.encAuWritten n) s = .next t ∧ rd t F.VEN_SES_WPTR_PTR n.toNat = (w + len) % (x.mib * 2 ^ 20) ∧
        sesOf t n.toNat = { x with ready := none } ∧ t.mem = (busWrite s 72 (x.addr + w) entry).1.mem) ∧
    (∀ pad, 0 < pad → place = some pad →
      ∃ t, exec (.encAuWritten n) s = .next t ∧ rd t F.VEN_SES_WPTR_PTR n.toNat = len % (x.mib * 2 ^ 20) ∧
        sesOf t n.toNat = { x with ready := none } ∧
        t.mem = (busWrite (busWrite s 72 (x.addr + w) (entryHeader (pad - 16) 0 0x80 0 0)).1 72 x.addr entry).1.mem))

/-- EN written 1 on a disabled gallery whose settings and enabled canvases are valid enables it with epoch and frame number 0 and its first latch to come; otherwise EN stays 0, CFG_REFUSED is raised and CODE written. EN written 0 clears its lock, and its canvases are dark and not ACTIVE. CNV_CTRL with EN 1 on a canvas that is disabled and has left its gallery takes the other fields and enables it, in Gesso from then on and dark only in Still or with its link down, or EN stays 0 and CFG_REFUSED is raised with CODE and the canvas; on an enabled canvas it changes nothing. EN written 0 on an enabled canvas clears EN alone. A write of ENGINE is refused with ENG_REFUSED on an enabled canvas or an engine with four others, and changes ENGINE alone otherwise. None writes memory. -/
def Obligations.GalleriesCanvasesAndEngines : Prop :=
  (∀ (g : Fin 8) (v : BitVec 32) (s : State),
    (v.toNat.testBit 0 = true → rd s F.CNV_GAL_CTRL_EN g.val = 0 → (galleryCode s g.val).1 = 0 →
      ∃ t, exec (.galleryEnable g v) s = .next t ∧ rd t F.CNV_GAL_CTRL_EN g.val = 1 ∧ rd t F.CNV_GAL_CTRL_ALIGN_EN g.val = slice v.toNat 1 1 ∧
        (galOf t g.val).epoch = 0 ∧ (galOf t g.val).frame = 0 ∧ (galOf t g.val).first = true ∧ (galOf t g.val).locked = false ∧
        (∀ h, h ≠ g.val → galOf t h = galOf s h) ∧ sameRegsBut s t [R.CNV_GAL_CTRL.addr g.val 0] ∧ t.mem = s.mem ∧ t.cmp = s.cmp) ∧
    (v.toNat.testBit 0 = true → rd s F.CNV_GAL_CTRL_EN g.val = 0 → (galleryCode s g.val).1 ≠ 0 →
      ∃ t, exec (.galleryEnable g v) s = .next t ∧ rd t F.CNV_GAL_CTRL_EN g.val = 0 ∧ rd t F.CNV_GAL_EVENT_CFG_REFUSED g.val = 1 ∧
        rd t F.CNV_GAL_STATUS_CODE g.val = (galleryCode s g.val).1 % 16 ∧ t.eas = s.eas ∧ t.cmp = s.cmp ∧ t.mem = s.mem) ∧
    (v.toNat.testBit 0 = false → rd s F.CNV_GAL_CTRL_EN g.val = 1 →
      ∃ t, exec (.galleryEnable g v) s = .next t ∧ rd t F.CNV_GAL_CTRL_EN g.val = 0 ∧ (galOf t g.val).locked = false ∧
        (∀ c ∈ canvasesOf s g.val, (cnvOf t c).dark = true ∧ rd t F.CNV_STATUS_ACTIVE c = 0) ∧ t.mem = s.mem)) ∧
  (∀ (c : Fin 32) (v : BitVec 32) (s : State), rd s F.CNV_CTRL_EN c.val = 0 → rd s F.CNV_STATUS_ACTIVE c.val = 0 →
    let s1 := wrReg s R.CNV_CTRL c.val 0 (setBits (regAfter s R.CNV_CTRL c.val 0 (v.toNat ||| 1) 0xFFFFFFFF) 0 1 0)
    let g := slice v.toNat 10 3
    let code := if gallerySize s1 g then 1 else canvasCode s1 c.val
    (code = 0 → ∃ t, exec (.canvasEnable c v) s = .next t ∧ rd t F.CNV_CTRL_EN c.val = 1 ∧ rd t F.CNV_CTRL_GALLERY c.val = g ∧
      rd t F.CNV_CTRL_OUT_KIND c.val = slice v.toNat 1 2 ∧ rd t F.CNV_CTRL_OUT_INDEX c.val = slice v.toNat 3 4 ∧
      (cnvOf t c.val).gesso.start = true ∧ rd t F.CNV_STATUS_GESSO c.val = 1 ∧ (cnvOf t c.val).dark = (s.pwr.still != 0 || linkDown t c.val) ∧
      (rd s F.CNV_STATUS_GESSO c.val = 0 → rd t F.CNV_EVENT_GESSO_ON c.val = 1) ∧ (∀ d, d ≠ c.val → cnvOf t d = cnvOf s d) ∧
      sameRegsBut s t [R.CNV_CTRL.addr c.val 0, R.CNV_STATUS.addr c.val 0, R.CNV_EVENT.addr c.val 0, R.CNV_EVENT_CNT.addr c.val 0] ∧
      t.eas = s.eas ∧ t.mem = s.mem) ∧
    (code ≠ 0 → ∃ t, exec (.canvasEnable c v) s = .next t ∧ rd t F.CNV_CTRL_EN c.val = 0 ∧ rd t F.CNV_GAL_EVENT_CFG_REFUSED g = 1 ∧
      rd t F.CNV_GAL_STATUS_CODE g = code ∧ rd t F.CNV_GAL_STATUS_CANVAS g = c.val ∧ t.cmp = s.cmp ∧ t.eas = s.eas ∧ t.mem = s.mem)) ∧
  (∀ (c : Fin 32) (v : BitVec 32) (s : State), rd s F.CNV_CTRL_EN c.val = 1 →
    exec (.canvasEnable c v) s = .next s ∧
    ∃ t, exec (.canvasDisable c v) s = .next t ∧ rd t F.CNV_CTRL_EN c.val = 0 ∧ rd t F.CNV_CTRL_GALLERY c.val = rd s F.CNV_CTRL_GALLERY c.val ∧
      rd t F.CNV_CTRL_OUT_KIND c.val = rd s F.CNV_CTRL_OUT_KIND c.val ∧ rd t F.CNV_STATUS_ACTIVE c.val = rd s F.CNV_STATUS_ACTIVE c.val ∧
      t = { s with regs := t.regs } ∧ sameRegsBut s t [R.CNV_CTRL.addr c.val 0]) ∧
  (∀ (c : Fin 32) (e : BitVec 3) (s : State),
    (rd s F.CNV_CTRL_EN c.val = 1 ∨ 4 ≤ onEngine s c.val e.toNat →
      ∃ t, exec (.engineWrite c e) s = .next t ∧ rd t F.CMP_CNV_EVENT_ENG_REFUSED c.val = 1 ∧
        rd t F.CMP_CNV_CFG_ENGINE c.val = rd s F.CMP_CNV_CFG_ENGINE c.val ∧ t = { s with regs := t.regs, fab := t.fab }) ∧
    (rd s F.CNV_CTRL_EN c.val = 0 → onEngine s c.val e.toNat < 4 →
      ∃ t, exec (.engineWrite c e) s = .next t ∧ rd t F.CMP_CNV_CFG_ENGINE c.val = e.toNat ∧
        t = { s with regs := t.regs } ∧ sameRegsBut s t [R.CMP_CNV_CFG.addr c.val 0]))

/-- A line boundary of a running gallery with no latch due moves LINE to its next line and shows BLANK; after the latched blanking comes line 0, with VBLANK_LAST; memory stays but for write-back frames. A latch falls due at the first test of a gallery's first frame (log entry 66) and at L_max whatever the conditions. A latch that is not due changes nothing. A latch of an unpaired gallery takes frame number 0 if it is its first and else the next one; with no commit pending its epoch stays; a canvas with EN 1 joins it (ACTIVE, in Gesso), one with EN 0 leaves it (dark, not ACTIVE). After it EAS_GAL_STATE shows epoch and frame, and after a commit EAS_GAL_ACK does too with COMMITTED, which are else unchanged. HIT_TABLE_SWITCH, once its crossing has passed, gives each committed layer of the gallery its on-chip entry. The leases of the oldest frame held drop when a newer one is held or no fetch is outstanding. -/
def Obligations.LinesAndLatches : Prop :=
  (∀ (g : Fin 8) (s : State), rd s F.CNV_GAL_CTRL_EN g.val = 0 ∨ (galOf s g.val).locked = false ∨ (galOf s g.val).latchDue = true →
    exec (.scnLineBoundary g) s = .next s) ∧
  (∀ (g : Fin 8) (s : State), rd s F.CNV_GAL_CTRL_EN g.val = 1 → (galOf s g.val).locked = true → (galOf s g.val).latchDue = false →
    let x := galOf s g.val
    let v := rd s F.CNV_GAL_HV_VACT g.val
    let n := nextLine s g.val
    ∃ t, exec (.scnLineBoundary g) s = .next t ∧ (galOf t g.val).line = n.1 ∧ rd t F.CNV_GAL_STATUS_LINE g.val = n.1 % 8192 ∧
      rd t F.CNV_GAL_STATUS_BLANK g.val = bit (decide (v ≤ n.1)) ∧ (galOf t g.val).epoch = x.epoch ∧ (galOf t g.val).frame = x.frame ∧
      ((∀ c ∈ canvasesOf s g.val, (cnvOf s c).wb = none) → t.mem = s.mem) ∧ (n.2 = true → n.1 = 0 ∧ (galOf t g.val).latched = false ∧ rd t F.CNV_GAL_STATUS_VBLANK_LAST g.val = (x.line + 1 - v) % 4096) ∧
      (n.1 < v → (galOf t g.val).latchDue = false) ∧
      (x.latched = false → x.first = true → v + rd s F.CNV_GAL_VB_LATCH_GUARD g.val ≤ n.1 → v ≤ n.1 → (galOf t g.val).latchDue = true) ∧
      (x.latched = false → v + rd s F.CNV_GAL_VB_LATCH_GUARD g.val ≤ n.1 → v + lastLatch s g.val ≤ n.1 → v ≤ n.1 →
        (galOf t g.val).latchDue = true ∧ (galOf t g.val).forced = true)) ∧
  (∀ (g : Fin 8) (failed : List (Fin 1024)) (s : State),
    rd s F.CNV_GAL_CTRL_EN g.val = 0 ∨ (galOf s g.val).locked = false ∨ (galOf s g.val).latchDue = false →
    exec (.galleryLatch g failed) s = .next s) ∧
  (∀ (g : Fin 8) (failed : List (Fin 1024)) (s : State), rd s F.CNV_GAL_CTRL_EN g.val = 1 → (galOf s g.val).locked = true →
    (galOf s g.val).latchDue = true → paired s g.val = false →
    let x := galOf s g.val
    ∃ t, exec (.galleryLatch g failed) s = .next t ∧ (galOf t g.val).latched = true ∧ (galOf t g.val).latchDue = false ∧
      (galOf t g.val).first = false ∧ (galOf t g.val).stateDue = true ∧
      (galOf t g.val).frame = (if x.first then 0 else (x.frame + 1) % 2 ^ 48) ∧
      rd t F.CNV_GAL_STATUS_FORCED g.val = bit x.forced ∧
      (x.pend = none → (galOf t g.val).epoch = x.epoch ∧ (galOf t g.val).ackDue = x.ackDue) ∧
      (x.snap = none → t.mem = s.mem) ∧
      (∀ c ∈ canvasesOf s g.val, rd s F.CNV_CTRL_EN c = 1 → rd s F.CNV_STATUS_ACTIVE c = 0 → (cnvOf s c).armed = false →
        rd t F.CNV_STATUS_ACTIVE c = 1 ∧ rd t F.CNV_STATUS_GESSO c = 1) ∧
      (∀ c ∈ canvasesOf s g.val, rd s F.CNV_CTRL_EN c = 0 → rd s F.CNV_STATUS_ACTIVE c = 1 →
        rd t F.CNV_STATUS_ACTIVE c = 0 ∧ (cnvOf t c).dark = true)) ∧
  (∀ (g : Fin 8) (s : State),
    ((galOf s g.val).stateDue = false → exec (.galStateUpdate g) s = .next s) ∧
    ((galOf s g.val).stateDue = true →
      ∃ t, exec (.galStateUpdate g) s = .next t ∧ rd t F.EAS_GAL_STATE_EPOCH g.val = (galOf s g.val).epoch % 2 ^ 32 ∧
        rd t F.EAS_GAL_STATE_FRAME g.val = (galOf s g.val).frame % 2 ^ 32 ∧ (galOf t g.val).stateDue = false ∧ (galOf t g.val).ackDue = false ∧
        ((galOf s g.val).ackDue = true → rd t F.EAS_GAL_ACK_EPOCH g.val = (galOf s g.val).epoch % 2 ^ 32 ∧
          rd t F.EAS_GAL_ACK_FRAME g.val = (galOf s g.val).frame % 2 ^ 32 ∧ rd t F.EAS_GAL_EVENT_COMMITTED g.val = 1) ∧
        ((galOf s g.val).ackDue = false → rd t F.EAS_GAL_ACK_EPOCH g.val = rd s F.EAS_GAL_ACK_EPOCH g.val ∧
          rd t F.EAS_GAL_ACK_FRAME g.val = rd s F.EAS_GAL_ACK_FRAME g.val ∧ t.mem = s.mem)) ∧
    ((galOf s g.val).hitDue = none → exec (.hitTableSwitch g) s = .next s) ∧
    (∀ since, (galOf s g.val).hitDue = some since →
      (seqCyc s - since) * rd s F.CNV_GAL_PLL_N g.val < 12 * rd s F.CNV_GAL_PLL_M g.val + 3 * rd s F.CNV_GAL_PLL_N g.val →
      exec (.hitTableSwitch g) s = .next s) ∧
    (∀ since, (galOf s g.val).hitDue = some since →
      12 * rd s F.CNV_GAL_PLL_M g.val + 3 * rd s F.CNV_GAL_PLL_N g.val ≤ (seqCyc s - since) * rd s F.CNV_GAL_PLL_N g.val →
      ∃ t, exec (.hitTableSwitch g) s = .next t ∧ (galOf t g.val).hitEpoch = (galOf s g.val).epoch ∧ (galOf t g.val).hitDue = none ∧
        (∀ e ∈ s.eas.layers, e.2.committed = true → e.2.gallery = g.val → (e.1, { e.2 with hit := some (g.val, e.2.chip) }) ∈ t.eas.layers) ∧
        (∀ e ∈ s.eas.layers, (e.2.committed = false ∨ e.2.gallery ≠ g.val) → e.2.hit.map (·.1) ≠ some g.val → e ∈ t.eas.layers) ∧
        t = { s with eas := t.eas })) ∧
  (∀ (c : Fin 32) (s : State),
    ((cnvOf s c.val).held = [] → exec (.scanLeaseDrop c) s = .next s) ∧
    (∀ h rest, (cnvOf s c.val).held = h :: rest →
      (rest.isEmpty = false ∨ (s.eas.layers.any fun e => e.2.desc.canvas == c.val && !e.2.fetch.isEmpty) = false) →
      ∃ t, exec (.scanLeaseDrop c) s = .next t ∧ (cnvOf t c.val).held = rest ∧
        (∀ d, (descOf t d).leases = (descOf s d).leases - h.2.count d) ∧ t.regs = s.regs ∧ t.mem = s.mem))

/-- FLATTEN_START of a canvas whose trigger is next and whose static layers all have a CURRENT frame consumes the trigger and leases each frame under the epoch in force, with PLANES 1 where there are no planes to use; where it is not next nothing changes; with no static layer left it consumes the trigger alone. FLATTEN_DONE drops those leases: after a failed read FLAT_FAIL is raised with PLANES 3 and FAIL_CODE SOURCE and the pending set stays; else the set becomes pending with its epoch, or there was no space and FAIL_CODE is NO_SPACE. PLANE_SET_FREE frees the oldest set out of use alone. WB_FRAME_PUBLISH, once its last line is written, makes the buffer the canvas's write-back frame, the previous one FREE unless held, writes WB_FRAME, and gives the frame to its session if that selected it. Reads and writes wait as log entry 141 says. -/
def Obligations.FlatteningAndWriteBack : Prop :=
  (∀ (c : Fin 32) (s : State),
    (flattenNext s c.val = false → exec (.flattenStart c) s = .next s) ∧
    (flattenNext s c.val = true →
      let p := planeLayers s c.val
      let x := cnvOf s c.val
      ((p.1 ++ p.2).isEmpty = true → exec (.flattenStart c) s = .next (setCnv s c.val { x with trigger := none })) ∧
      ((p.1 ++ p.2).isEmpty = false → (∀ l ∈ p.1 ++ p.2, (srcOf s (layOf s l).desc.source).cur.isSome = true) →
        ∃ t f, exec (.flattenStart c) s = .next t ∧ (cnvOf t c.val).flat = some f ∧ (cnvOf t c.val).trigger = none ∧ f.failed = false ∧
          f.epoch = (galOf s (galleryOf s c.val)).epoch ∧ f.commit = (galOf s (galleryOf s c.val)).commitTime ∧ f.under = p.1 ∧ f.above = p.2 ∧ f.leases.map (·.1) = p.1 ++ p.2 ∧
          (∀ d, (descOf t d).leases = (descOf s d).leases + (f.leases.map (·.2.desc)).count d) ∧
          (x.planes = none ∨ x.direct = true → rd t F.CMP_CNV_STATE_PLANES c.val = 1) ∧ t.mem = s.mem))) ∧
  (∀ (c : Fin 32) (s : State), (cnvOf s c.val).flat = none → exec (.flattenDone c) s = .next s) ∧
  (∀ (c : Fin 32) (s : State) (f : Flatten), (cnvOf s c.val).flat = some f → accessWaits s (engineMaster s c.val) = false →
    let reads := (f.leases.foldl (fun (a : State × Bool) e => let b := flattenReads a.1 c.val e; (b.1, a.2 && b.2.1)) (s, !f.failed)).2
    ∃ t, exec (.flattenDone c) s = .next t ∧ (cnvOf t c.val).flat = none ∧
      (∀ d, (descOf t d).leases = (descOf s d).leases - (f.leases.map (·.2.desc)).count d) ∧
      (reads = false → rd t F.CMP_CNV_EVENT_FLAT_FAIL c.val = 1 ∧ rd t F.CMP_CNV_STATE_PLANES c.val = 3 ∧
        rd t F.CMP_CNV_STATE_FAIL_CODE c.val = 2 ∧ (cnvOf t c.val).pendingSet = (cnvOf s c.val).pendingSet ∧ (cnvOf t c.val).direct = true ∧ t.mem = s.mem) ∧
      (reads = true → (∃ q, (cnvOf t c.val).pendingSet = some q ∧ q.epoch = f.epoch ∧ q.made = s.time.cyc) ∨
        (rd t F.CMP_CNV_EVENT_FLAT_FAIL c.val = 1 ∧ rd t F.CMP_CNV_STATE_PLANES c.val = 3 ∧ rd t F.CMP_CNV_STATE_FAIL_CODE c.val = 1))) ∧
  (∀ (c : Fin 32) (s : State), exec (.planeSetFree c) s = .next (setCnv s c.val { cnvOf s c.val with oldSets := (cnvOf s c.val).oldSets.drop 1 })) ∧
  (∀ (c : Fin 32) (s : State), (cnvOf s c.val).wb = none → exec (.wbFramePublish c) s = .next s) ∧
  (∀ (c : Fin 32) (s : State) (w : WriteBack), (cnvOf s c.val).wb = some w → w.done < canvasH s c.val → exec (.wbFramePublish c) s = .next s) ∧
  (∀ (c : Fin 32) (s : State) (w : WriteBack), (cnvOf s c.val).wb = some w → canvasH s c.val ≤ w.done →
    accessWaits s (88 + engineOf s c.val) = false →
    ∃ t v, exec (.wbFramePublish c) s = .next t ∧ (cnvOf t c.val).wb = none ∧ (cnvOf t c.val).wbCur = some v ∧ v.desc = w.desc ∧ v.frame = w.frame ∧
      rd t F.CMP_CNV_WB_FRAME_FRAME c.val = w.frame % 2 ^ 32 ∧
      ((∀ o, (cnvOf s c.val).wbCur = some o → o.desc ≠ w.desc) →
        (descOf t w.desc).st = .current ∧ (descOf t w.desc).source = c.val ∧ (descOf t w.desc).seq = w.frame % 2 ^ 32 ∧
        (descOf t w.desc).frame.origin = 6) ∧
      (∀ o, (cnvOf s c.val).wbCur = some o → o.desc ≠ w.desc → heldBuf (descOf s o.desc) = false → (descOf s o.desc).ownerHost = false →
        (sesOf s c.val).waiting = none → (descOf t o.desc).st = .free) ∧
      ((sesOf s c.val).admitted = true → w.coded = true →
        (sesOf t c.val).waiting.map (·.2.desc) = some w.desc ∧ ((sesOf s c.val).waiting.isSome = true → rd t F.VEN_SES_EVENT_SKIP c.val = 1)) ∧
      (w.coded = false → (sesOf t c.val).waiting = (sesOf s c.val).waiting))

/-- A level of a canvas in active scan-out is shown in LEVEL, at most 32. At LOW or below the fetches' QoS rises with WEIR_LOW, and at PANIC or below they panic with WEIR_PANIC; each ends at its level plus 2 and no sooner. No crossing of UNDER leaves every layer and every other canvas alone. The FIFO then holds that many whole lines, from the one that leaves next. A crossing of UNDER from above raises UNDERRUN and cuts from this tile row exactly the fetched layers whose tiles of it have not all arrived, and LAST_CUT shows the row. A level that is reached in blanking is shown in LEVEL, raises nothing and is noted with its row until active scan-out compares it; one of a canvas that is off or whose gallery is not locked changes nothing. An empty FIFO at a pixel that the output stage takes from it raises EMPTY, holds no line and puts the canvas into Gesso from that pixel with GESSO_ON; where the stage takes none from it (Gesso, the twin's stream, blanking) it changes nothing. The CRCs of the next tile row that equal the encoder's references, while no proof is under way, are counted and change no layer; of the last row with no mismatch so far they end the run of frames with a mismatch. CRCs that differ mark the canvas, and the tiles with GLASS_TILE. A result of another row, or of one whose references have not left the encoder, changes nothing. No command here writes memory. -/
def Obligations.WeirLevelsEmptyFifoAndGlass : Prop :=
  (∀ (c : Fin 32) (level : BitVec 16) (row : BitVec 8) (s : State), onCanvas s c.val = true → (galOf s (galleryOf s c.val)).locked = true →
    (galOf s (galleryOf s c.val)).line < rd s F.CNV_GAL_HV_VACT (galleryOf s c.val) →
    let n := min 32 level.toNat
    let low := rd s F.CNV_WEIR_LOW c.val
    let panic := rd s F.CNV_WEIR_PANIC c.val
    let under := rd s F.CNV_WEIR_UNDER c.val
    ∃ t, exec (.weirLevelCrossing c level row) s = .next t ∧ rd t F.CNV_STATUS_LEVEL c.val = n ∧ t.mem = s.mem ∧
      rd t F.CNV_STATUS_QOS_UP c.val = (if rd s F.CNV_STATUS_QOS_UP c.val = 1 then bit (decide (n < low + 2)) else bit (decide (n ≤ low))) ∧
      rd t F.CNV_STATUS_PANIC_UP c.val = (if rd s F.CNV_STATUS_PANIC_UP c.val = 1 then bit (decide (n < panic + 2)) else bit (decide (n ≤ panic))) ∧
      (rd s F.CNV_STATUS_QOS_UP c.val = 0 → n ≤ low → rd t F.CNV_EVENT_WEIR_LOW c.val = 1) ∧
      (rd s F.CNV_STATUS_PANIC_UP c.val = 0 → n ≤ panic → rd t F.CNV_EVENT_WEIR_PANIC c.val = 1) ∧
      (cnvOf t c.val).fifo = fifoLines s c.val n ∧ (cnvOf t c.val).weirDue = none ∧
      (¬(n ≤ under ∧ under < rd s F.CNV_STATUS_LEVEL c.val) → t.eas = s.eas ∧ (∀ d, d ≠ c.val → cnvOf t d = cnvOf s d) ∧
        (cnvOf t c.val).cutNow = (cnvOf s c.val).cutNow ∧ rd t F.CNV_EVENT_UNDERRUN c.val = rd s F.CNV_EVENT_UNDERRUN c.val) ∧
      (n ≤ under ∧ under < rd s F.CNV_STATUS_LEVEL c.val → rd t F.CNV_EVENT_UNDERRUN c.val = 1 ∧
        (∀ l ∈ cutLayers s c.val row.toNat, (layOf t l).cut = some row.toNat ∧ (layOf t l).desc = (layOf s l).desc ∧
          (layOf t l).lease = (layOf s l).lease ∧ (cnvOf t c.val).cutNow = true ∧ rd t F.CNV_LAST_CUT_VALID c.val = 1 ∧
          rd t F.CNV_LAST_CUT_TILE_ROW c.val = row.toNat) ∧
        (∀ l, l ∉ cutLayers s c.val row.toNat → layOf t l = layOf s l))) ∧
  (∀ (c : Fin 32) (level : BitVec 16) (row : BitVec 8) (s : State),
    (onCanvas s c.val = false ∨ (galOf s (galleryOf s c.val)).locked = false → exec (.weirLevelCrossing c level row) s = .next s) ∧
    (onCanvas s c.val = true → (galOf s (galleryOf s c.val)).locked = true →
      rd s F.CNV_GAL_HV_VACT (galleryOf s c.val) ≤ (galOf s (galleryOf s c.val)).line →
      ∃ t, exec (.weirLevelCrossing c level row) s = .next t ∧ rd t F.CNV_STATUS_LEVEL c.val = min 32 level.toNat ∧ t.mem = s.mem ∧
        t.eas = s.eas ∧ sameRegsBut s t [R.CNV_STATUS.addr c.val 0] ∧ (cnvOf t c.val).fifo = fifoLines s c.val (min 32 level.toNat) ∧
        ((cnvOf s c.val).weirDue = none → (cnvOf t c.val).weirDue = some (row.toNat, rd s F.CNV_STATUS_LEVEL c.val)) ∧
        (∀ d, d ≠ c.val → cnvOf t d = cnvOf s d))) ∧
  (∀ (c : Fin 32) (x : BitVec 16) (s : State),
    (onCanvas s c.val = false ∨ inGesso s c.val = true → exec (.fifoEmpty ⟨c, x⟩) s = .next s) ∧
    (needsFifo s c.val = false → exec (.fifoEmpty ⟨c, x⟩) s = .next s) ∧
    (onCanvas s c.val = true → (galOf s (galleryOf s c.val)).locked = true → rd s F.CNV_STATUS_GESSO c.val = 0 →
      (galOf s (galleryOf s c.val)).line < rd s F.CNV_GAL_HV_VACT (galleryOf s c.val) → (s.tnd.cnvs.get c.val {}).stream = 0 →
      ∃ t, exec (.fifoEmpty ⟨c, x⟩) s = .next t ∧ (cnvOf t c.val).emptyX = some x.toNat ∧ (cnvOf t c.val).emptyNow = true ∧ (cnvOf t c.val).fifo = [] ∧ rd t F.CNV_EVENT_EMPTY c.val = 1 ∧ rd t F.CNV_STATUS_GESSO c.val = 1 ∧
      (cnvOf t c.val).gesso.empty = true ∧ (cnvOf t c.val).owesFrame = true ∧ t.eas = s.eas ∧ t.mem = s.mem ∧
      (∀ d, d ≠ c.val → cnvOf t d = cnvOf s d) ∧
      rd t F.CNV_EVENT_GESSO_ON c.val = 1)) ∧
  (∀ (c : Fin 32) (row : BitVec 8) (crc : BitVec 32) (more : List (BitVec 32)) (s : State),
    (row.toNat ≠ (cnvOf s c.val).glassRows ∨ (cnvOf s c.val).glassRefs.length ≤ row.toNat → exec (.glassRowResult c row crc more) s = .next s) ∧
    ((cnvOf s c.val).glassOn = true → glassRuns s c.val = true → row.toNat = (cnvOf s c.val).glassRows →
      row.toNat < (cnvOf s c.val).glassRefs.length → s.cmp.proof = none →
      let refs := (cnvOf s c.val).glassRefs.getD row.toNat []
      ∃ t, exec (.glassRowResult c row crc more) s = .next t ∧ (cnvOf t c.val).glassRows = row.toNat + 1 ∧ t.mem = s.mem ∧
        ((crc :: more).map BitVec.toNat = refs → t.eas = s.eas ∧ (cnvOf t c.val).glassTiles = (cnvOf s c.val).glassTiles ∧
          (row.toNat + 1 = tileRows (canvasH s c.val) → (cnvOf t c.val).glassOn = false ∧
            ((cnvOf s c.val).glassBad = false → (cnvOf t c.val).glassRun = 0)) ∧
          (row.toNat + 1 ≠ tileRows (canvasH s c.val) → (cnvOf t c.val).glassOn = true ∧ t.regs = s.regs)) ∧
        (∀ k < tilesPerRow (canvasW s c.val), k < refs.length → k < 32 → ((crc :: more).map BitVec.toNat)[k]? ≠ refs[k]? →
          (cnvOf t c.val).glassBad = true ∧ (cnvOf t c.val).glassMark = true ∧ rd t F.LDG_EVENT_GLASS_TILE = 1)))

/-- A tile-row evaluation of a running gallery at the boundary of a row that falls after the latch and has not been evaluated, with no self-test running and outside Still, advances UPD of its words by one of 16 and UPD_ALL by one of 256, and leaves memory, leases, descriptors and the other galleries alone; of a row that is none it changes nothing. LDG_SET_DL overrides deadline and warning of a committed shown layer that is not static, within 1 to 2,000 ms and 100 percent, and nothing else; else it raises SET_REFUSED and changes no layer. A proof command without START changes nothing; one whose REFUSE code is 0 sets BUSY, clears RESULT and FAILED_STEP, notes the proof and presents one PROOF_START entry; else it raises PROOF_REFUSED with the code and starts nothing. A read of the Watch port returns the word of its address in phase main, and nothing in reset and in Still. -/
def Obligations.EvaluationsDeadlinesAndProofs : Prop :=
  (∀ (g : Fin 8) (row : BitVec 8) (s : State),
    (rd s F.CNV_GAL_CTRL_EN g.val = 0 ∨ (galOf s g.val).locked = false ∨ rowAfterLatch s g.val row.toNat = false ∨
      rowBoundary s g.val row.toNat = false ∨ row.toNat < (galOf s g.val).rowDone ∨ tileRows (rd s F.CNV_GAL_HV_VACT g.val) ≤ row.toNat → exec (.tileRowEvaluation g row) s = .next s) ∧
    (rd s F.CNV_GAL_CTRL_EN g.val = 1 → (galOf s g.val).locked = true → rowAfterLatch s g.val row.toNat = true →
      rowBoundary s g.val row.toNat = true → (galOf s g.val).rowDone ≤ row.toNat → s.pwr.bist = none → s.pwr.phase ≠ .still → row.toNat < tileRows (rd s F.CNV_GAL_HV_VACT g.val) →
      ∃ t, exec (.tileRowEvaluation g row) s = .next t ∧ (galOf t g.val).upd = ((galOf s g.val).upd + 1) % 16 ∧
        t.cmp.updAll = (s.cmp.updAll + 1) % 256 ∧ (galOf t g.val).frame = (galOf s g.val).frame ∧ (galOf t g.val).epoch = (galOf s g.val).epoch ∧
        (galOf t g.val).line = (galOf s g.val).line ∧ (galOf t g.val).rowDone = row.toNat + 1 ∧ (∀ h, h ≠ g.val → galOf t h = galOf s h) ∧
        (∀ l, (layOf t l).desc = (layOf s l).desc ∧ (layOf t l).lease = (layOf s l).lease ∧ (layOf t l).committed = (layOf s l).committed ∧
          (layOf t l).gallery = (layOf s l).gallery) ∧ t.mem = s.mem)) ∧
  (∀ (layer : Fin 1024) (v : BitVec 32) (s : State),
    let x := layOf s layer.val
    let dl := slice v.toNat 10 11
    let warn := slice v.toNat 21 7
    (x.committed = true → x.desc.shown = true → x.desc.static = false → 1 ≤ dl → dl ≤ 2000 → warn ≤ 100 →
      ∃ t, exec (.setDeadline layer v) s = .next t ∧ layOf t layer.val = { x with override := some (dl, warn) } ∧
        (∀ k, k ≠ layer.val → layOf t k = layOf s k) ∧ t = { s with eas := { s.eas with layers := t.eas.layers } }) ∧
    (x.committed = false ∨ x.desc.shown = false ∨ x.desc.static = true ∨ dl = 0 ∨ 2000 < dl ∨ 100 < warn →
      ∃ t, exec (.setDeadline layer v) s = .next t ∧ rd t F.LDG_EVENT_SET_REFUSED = 1 ∧ t = { s with regs := t.regs, fab := t.fab })) ∧
  (∀ (v : BitVec 32) (s : State),
    let l := slice v.toNat 0 10
    let kind := slice v.toNat 10 2
    let row := slice v.toNat 12 8
    (v.toNat.testBit 31 = false → exec (.proofStart v) s = .next s) ∧
    (v.toNat.testBit 31 = true → proofRefusal s l kind row = 0 →
      ∃ t, exec (.proofStart v) s = .next t ∧ t.cmp.proof = some { layer := l, kind := kind, row := row } ∧ rd t F.LDG_PROOF_STATUS_BUSY = 1 ∧
        rd t F.LDG_PROOF_STATUS_RESULT = 0 ∧ rd t F.LDG_PROOF_STATUS_FAILED_STEP = 0 ∧ t.jnl.asked.length = s.jnl.asked.length + 1 ∧
        (∀ q ∈ t.jnl.asked.getLast?, q.ty = 0x0011 ∧ q.rank = rankLedger) ∧ t.eas = s.eas ∧ t.mem = s.mem ∧
        sameRegsBut s t [R.LDG_PROOF_STATUS.base]) ∧
    (v.toNat.testBit 31 = true → proofRefusal s l kind row ≠ 0 →
      ∃ t, exec (.proofStart v) s = .next t ∧ rd t F.LDG_EVENT_PROOF_REFUSED = 1 ∧ rd t F.LDG_PROOF_STATUS_REFUSE = proofRefusal s l kind row ∧
        t = { s with regs := t.regs, fab := t.fab }) ∧
    (s.cmp.proof.isSome = true → proofRefusal s l kind row = 1) ∧
    (s.cmp.proof = none → evaluable s l = false → proofRefusal s l kind row = 2)) ∧
  (∀ (a : BitVec 8) (s : State),
    (s.pwr.phase = .main → exec (.watchPortRead a) s = .next { s with out := .watch (watchWord s a.toNat) :: s.out }) ∧
    (s.pwr.phase ≠ .main → exec (.watchPortRead a) s = .next s) ∧ watchWord s 0x3F = 1 ∧ watchWord s 0x40 = 0)

/-- A write of CPR_TAIL within the ring sets it, and another changes nothing. A free enabled engine with descriptors takes the next one: one that is refused, for its own fields or the context that a RESUME names, or whose read has a protection error ends at once with HEAD one on, JOB_DONE and JOB_ERR; another starts with its bytes and the stream it resumes kept. Only the descriptor's result fields and, of a RESUME, the context area may change in memory. A disabled, busy or empty engine, and one whose accesses wait (the model's choice, log entry 141), starts nothing and ends nothing. The end of a descriptor's job advances HEAD, raises JOB_DONE, frees the engine and leaves every byte of memory outside DST to DST + DST_LEN - 1, the context area and the descriptor's result fields as it was. A capture of a canvas with write-back on, no capture under way and its reservation free leases the latest write-back frame and queues on the engine of JNL_EVID_CTRL at its TAIL; else EVID_REFUSED is raised and no lease taken. Its end raises EVID_DONE, drops the capture and presents an EVIDENCE request last. -/
def Obligations.CompressionJobsAndCaptures : Prop :=
  (∀ (e : Fin 2) (v : BitVec 16) (s : State),
    (v.toNat < 2 ^ rd s F.CPR_RING_CFG_LOG2 e.val → ∃ t, exec (.cprTailWrite e v) s = .next t ∧ rd t F.CPR_TAIL_TAIL e.val = v.toNat ∧
      t = { s with regs := t.regs } ∧ sameRegsBut s t [R.CPR_TAIL.addr e.val 0]) ∧
    (2 ^ rd s F.CPR_RING_CFG_LOG2 e.val ≤ v.toNat → exec (.cprTailWrite e v) s = .next s)) ∧
  (∀ (e : Fin 2) (s : State),
    ((s.cpr.jobs.find e.val).isSome = true ∨ rd s F.CPR_RING_CFG_EN e.val = 0 → exec (.cprJobStart e) s = .next s) ∧
    ((s.cpr.jobs.find e.val) = none → rd s F.CPR_RING_CFG_EN e.val = 1 → s.cpr.queued = some (e.val, rd s F.CPR_HEAD_HEAD e.val) →
      ∃ t, exec (.cprJobStart e) s = .next t ∧ t.cpr.jobs.find e.val = some { evid := true } ∧ t.cpr.queued = none ∧ t = { s with cpr := t.cpr }) ∧
    (s.cpr.queued ≠ some (e.val, rd s F.CPR_HEAD_HEAD e.val) → rd s F.CPR_HEAD_HEAD e.val = rd s F.CPR_TAIL_TAIL e.val →
      exec (.cprJobStart e) s = .next s) ∧
    ((s.cpr.jobs.find e.val) = none → rd s F.CPR_RING_CFG_EN e.val = 1 → s.cpr.queued ≠ some (e.val, rd s F.CPR_HEAD_HEAD e.val) →
      rd s F.CPR_HEAD_HEAD e.val ≠ rd s F.CPR_TAIL_TAIL e.val → accessWaits s (48 + e.val) = false →
      let a := rdReg s R.CPR_RING_BASE e.val + rd s F.CPR_HEAD_HEAD e.val * 64
      let r := busRead s (48 + e.val) a 64
      let o := cprOpen r.1 e.val r.2.2
      let resume := bitOn (leAt r.2.2 1 1) 2
      ∃ t, exec (.cprJobStart e) s = .next t ∧ (∀ o, o ≠ e.val → t.cpr.jobs.find o = s.cpr.jobs.find o) ∧
        (∀ b, (b < a + 2 ∨ a + 52 ≤ b) → (resume = true → b < leAt r.2.2 32 5 ∨ leAt r.2.2 32 5 + 0xC000 ≤ b) →
          Memory.read t.mem b = Memory.read s.mem b) ∧
        (r.2.1 ≠ 1 → cprRefusal r.1 r.2.2 = none → o.2.1 = 0 →
          t.cpr.jobs.find e.val = some { addr := a, desc := r.2.2, prev := o.2.2 } ∧ (resume = false → t.mem = s.mem ∧ o.2.2 = none) ∧
          rd t F.CPR_HEAD_HEAD e.val = rd s F.CPR_HEAD_HEAD e.val) ∧
        (r.2.1 = 1 ∨ cprRefusal r.1 r.2.2 ≠ none ∨ o.2.1 ≠ 0 → t.cpr.jobs.find e.val = none ∧ rd t F.CPR_EVENT_JOB_DONE e.val = 1 ∧
          rd t F.CPR_EVENT_JOB_ERR e.val = 1 ∧ rd t F.CPR_HEAD_HEAD e.val = (rd s F.CPR_HEAD_HEAD e.val + 1) % 2 ^ rd s F.CPR_RING_CFG_LOG2 e.val % 2 ^ 16))) ∧
  (∀ (e : Fin 2) (s : State), (s.cpr.jobs.find e.val = none ∨ accessWaits s (48 + e.val) = true ∨ ∃ j, s.cpr.jobs.find e.val = some j ∧ j.evid = true) →
    exec (.cprJobEnd e) s = .next s) ∧
  (∀ (e : Fin 2) (s : State) (j : CprJob), s.cpr.jobs.find e.val = some j → j.evid = false → s.cpr.jobs.wf = true →
    accessWaits s (48 + e.val) = false →
    ∃ t, exec (.cprJobEnd e) s = .next t ∧ t.cpr.jobs.find e.val = none ∧ (∀ o, o ≠ e.val → t.cpr.jobs.find o = s.cpr.jobs.find o) ∧
      rd t F.CPR_EVENT_JOB_DONE e.val = 1 ∧
      rd t F.CPR_HEAD_HEAD e.val = (rd s F.CPR_HEAD_HEAD e.val + 1) % 2 ^ rd s F.CPR_RING_CFG_LOG2 e.val % 2 ^ 16 ∧
      ∀ b, (b < leAt j.desc 16 5 ∨ leAt j.desc 16 5 + leAt j.desc 24 4 ≤ b) → (b < leAt j.desc 32 5 ∨ leAt j.desc 32 5 + 0xC000 ≤ b) →
        (b < j.addr + 2 ∨ j.addr + 52 ≤ b) → Memory.read t.mem b = Memory.read s.mem b) ∧
  (∀ (c : Fin 32) (s : State),
    ((cnvOf s c.val).wbCur = none ∨ rd s F.CMP_CNV_CFG_WB_EN c.val = 0 ∨ s.jnl.evid.isSome = true →
      ∃ t, exec (.evidCaptureStart c) s = .next t ∧ rd t F.JNL_EVENT_EVID_REFUSED = 1 ∧ t = { s with regs := t.regs, fab := t.fab }) ∧
    (∀ w, (cnvOf s c.val).wbCur = some w → rd s F.CMP_CNV_CFG_WB_EN c.val = 1 → s.jnl.evid = none →
      let n := evidReserve (evidLength (wbPlace s w.desc))
      (evidFree s < n → ∃ t, exec (.evidCaptureStart c) s = .next t ∧ rd t F.JNL_EVENT_EVID_REFUSED = 1 ∧ t = { s with regs := t.regs, fab := t.fab }) ∧
      (n ≤ evidFree s → ∃ t v, exec (.evidCaptureStart c) s = .next t ∧ t.jnl.evid = some v ∧ v.canvas = c.val ∧ v.auto = false ∧ v.desc = w.desc ∧
        v.frame = w.frame ∧ v.out = rd s F.JNL_EVID_WPTR_WPTR ∧ (descOf t w.desc).leases = (descOf s w.desc).leases + 1 ∧
        t.cpr.queued = some (rd s F.JNL_EVID_CTRL_ENGINE, rd s F.CPR_TAIL_TAIL (rd s F.JNL_EVID_CTRL_ENGINE)) ∧ t.regs = s.regs ∧ t.mem = s.mem))) ∧
  (∀ s : State, s.jnl.evid = none ∨ (s.cpr.jobs.all fun j => !j.2.evid) = true → exec .evidCaptureDone s = .next s) ∧
  (∀ (s : State) (v : Evidence) (k : Nat × CprJob), s.jnl.evid = some v → s.cpr.jobs.find? (fun j => j.2.evid) = some k →
    accessWaits s (48 + k.1) = false →
    ∃ t, exec .evidCaptureDone s = .next t ∧ t.jnl.evid = none ∧ rd t F.JNL_EVENT_EVID_DONE = 1 ∧ t.cpr.jobs = s.cpr.jobs.del k.1 ∧
      (descOf t v.desc).leases = (descOf s v.desc).leases - 1 ∧ s.jnl.asked.length < t.jnl.asked.length ∧
      (∀ q ∈ t.jnl.asked.getLast?, q.ty = 0x0060 ∧ q.rank = rankEvidence) ∧ t.jnl.next = s.jnl.next)

/-- The next request in the order of R490 is taken into the queue while it holds fewer than 256, and otherwise is lost, which raises QUEUE_LOST and advances LOST. An append takes the next INDEX, forms in the staging slot of that INDEX an entry with the type, INDEX and payload of the oldest request, ending with the digest of the entry before it, and makes its SHA-256 the head's; the BOUNDARY for lost requests comes right after the entry that made room, and one that is owed comes before the queue. A drain writes the oldest undrained entry to base + (INDEX mod N) x 128 and no byte elsewhere; over a slot that holds an entry whose INDEX is above ACK it raises OVERWRITE. With draining stopped, nothing to drain or the Journal's accesses waiting it changes nothing. JNL_ACK takes the value written. A capture of the head copies INDEX and digest into their registers. A host append presents one HOST request with the 48 bytes of the data registers while EN is 1 and the main domain has power, and nothing otherwise. -/
def Obligations.JournalEntries : Prop :=
  (∀ s : State,
    (nextRequest (decide (256 ≤ s.jnl.queue.length)) s.jnl.asked = none → exec .journalRequest s = .next s) ∧
    (∀ r, nextRequest (decide (256 ≤ s.jnl.queue.length)) s.jnl.asked = some r →
      ∃ t, exec .journalRequest s = .next t ∧ t.jnl.asked = dropRequest r s.jnl.asked ∧ t.mem = s.mem ∧ t.jnl.next = s.jnl.next ∧
        (s.jnl.queue.length < 256 → (∃ q, t.jnl.queue = s.jnl.queue ++ [q] ∧ q.ty = r.ty ∧ q.payload = r.payload ∧ q.rank = r.rank ∧
          q.unlocked = decide (rd s F.PTP_STATE_LOCKED = 0)) ∧ t.regs = s.regs ∧ t.jnl.lost = s.jnl.lost) ∧
        (256 ≤ s.jnl.queue.length → t.jnl.queue = s.jnl.queue ∧ t.jnl.lost = s.jnl.lost + 1 ∧ rd t F.JNL_EVENT_QUEUE_LOST = 1 ∧
          rd t F.JNL_LOST_LOST = min (2 ^ 64 - 1) (rd s F.JNL_LOST_LOST + 1)))) ∧
  (∀ s : State,
    let p := match s.jnl.owed, s.jnl.queue with | b :: _, _ => some (0x0002, b) | [], r :: _ => some (r.ty, r.payload) | [], [] => none
    (p = none → s.jnl.lost = 0 ∨ s.jnl.room = false → exec .journalAppend s = .next s) ∧
    (∀ ty b, p = some (ty, b) → s.jnl.lost = 0 ∨ s.jnl.room = false →
      ∃ t e, exec .journalAppend s = .next t ∧ t.jnl.next = s.jnl.next + 1 ∧ t.jnl.staging = s.jnl.staging.put (s.jnl.next % 2048) e ∧
        leAt e 0 2 = ty % 2 ^ 16 ∧ leAt e 4 8 = s.jnl.next % 2 ^ 64 ∧ leAt e 2 1 = 1 ∧ bytesAt e 48 48 = bytesAt b 0 48 ∧
        e.drop 96 = s.jnl.digest ∧ t.jnl.digest = sha256 e ∧ t.jnl.asked = s.jnl.asked ∧ t.mem = s.mem ∧
        t.jnl.owed = s.jnl.owed.drop 1 ∧ t.jnl.queue = (if s.jnl.owed = [] then s.jnl.queue.drop 1 else s.jnl.queue) ∧
        (s.jnl.owed = [] → t.jnl.room = (s.jnl.lost != 0)) ∧
        (s.jnl.drain + 2048 ≤ s.jnl.next → rd t F.JNL_EVENT_STAGE_LOST = 1 ∧ t.jnl.drain = s.jnl.drain + 1) ∧
        (s.jnl.next < s.jnl.drain + 2048 → t.regs = s.regs ∧ t.jnl.drain = s.jnl.drain ∧ t.jnl.gap = s.jnl.gap)) ∧
    (s.jnl.lost ≠ 0 → s.jnl.room = true →
      ∃ t e, exec .journalAppend s = .next t ∧ t.jnl.lost = 0 ∧ t.jnl.room = false ∧ t.jnl.queue = s.jnl.queue ∧ t.jnl.owed = s.jnl.owed ∧ t.jnl.next = s.jnl.next + 1 ∧
        t.jnl.staging = s.jnl.staging.put (s.jnl.next % 2048) e ∧ leAt e 0 2 = 0x0002 ∧ leAt e 48 1 = 3 ∧ leAt e 65 8 = s.jnl.lost % 2 ^ 64)) ∧
  (∀ s : State, draining s = false ∨ s.jnl.next ≤ s.jnl.drain ∨ accessWaits s 50 = true → exec .journalRingWrite s = .next s) ∧
  (∀ s : State, draining s = true → s.jnl.drain < s.jnl.next → accessWaits s 50 = false →
    let n := rd s F.JNL_CTRL_RING_MIB * 8192
    let a := rdReg s R.JNL_RING_BASE + s.jnl.drain % n * 128
    let e := s.jnl.staging.get (s.jnl.drain % 2048) []
    ∃ t, exec .journalRingWrite s = .next t ∧ t.jnl.drain = s.jnl.drain + 1 ∧ t.jnl.gap = none ∧ t.jnl.next = s.jnl.next ∧
      t.mem = (busWrite s 50 a e).1.mem ∧ (∀ b, (b < a ∨ a + e.length ≤ b) → Memory.read t.mem b = Memory.read s.mem b) ∧
      ((busWrite s 50 a e).2 = 0 → t.jnl.ring = s.jnl.ring.put a s.jnl.drain) ∧
      (∀ k, s.jnl.ring.find a = some k → (busWrite s 50 a e).2 = 0 → rdReg s R.JNL_ACK < k →
        rd t F.JNL_EVENT_OVERWRITE = 1 ∧ t.jnl.bounded = true) ∧
      (s.jnl.ring.find a = none ∨ (busWrite s 50 a e).2 ≠ 0 ∨ (∃ k, s.jnl.ring.find a = some k ∧ k ≤ rdReg s R.JNL_ACK) → rd t F.JNL_EVENT_OVERWRITE = rd s F.JNL_EVENT_OVERWRITE ∧
        t.jnl.bounded = s.jnl.bounded)) ∧
  (∀ (v : BitVec 64) (s : State), ∃ t, exec (.jnlAckWrite v) s = .next t ∧ rdReg t R.JNL_ACK = v.toNat ∧
    t = { s with regs := t.regs, jnl := { s.jnl with bounded := false } } ∧ sameRegsBut s t [R.JNL_ACK.base]) ∧
  (∀ s : State, ∃ t, exec .headCapture s = .next t ∧ rdReg t R.JNL_HEAD_INDEX = (s.jnl.next - 1) % 2 ^ 64 ∧
    (∀ k, k < 8 → rdReg t R.JNL_HEAD_DIGEST 0 k = leAt s.jnl.digest (4 * k) 4) ∧
    t = { s with regs := t.regs } ∧ sameRegsBut s t (R.JNL_HEAD_INDEX.base :: (upto 8).map fun k => R.JNL_HEAD_DIGEST.addr 0 k)) ∧
  (∀ s : State,
    (rd s F.JNL_CTRL_EN = 0 ∨ s.pwr.phase ≠ .main → exec .hostAppend s = .next s) ∧
    (rd s F.JNL_CTRL_EN = 1 → s.pwr.phase = .main → ∃ t q, exec .hostAppend s = .next t ∧ t = { s with jnl := { s.jnl with asked := s.jnl.asked ++ [q] } } ∧
      q.ty = 0x0070 ∧ q.rank = 22 ∧ q.payload.length = 48 ∧ ∀ k, k < 12 → leAt q.payload (4 * k) 4 = rdReg s R.JNL_HOST_DATA 0 k % 2 ^ 32))

/-- The heartbeat of any state, read by a device of opposite position and another device ID, gives STATE, FAULT, SUSPECT, gallery, claim, epoch, frame and latch stamp back; a row record with fields in their widths reads back equal. A heartbeat owed leaves on every Tandem port and is owed no more; it declares FAULT where an engine of a paired canvas has failed. A valid heartbeat sets PAIRED and the TWIN fields and clears TWIN_LOST; at pairing an ACTIVE twin gives the claim before its own, and the loser of R382 enters RESYNC; a later claim makes an active device STANDBY with YIELDED. An invalid heartbeat, one on another port, or a copy of the last one heard changes nothing. The record of the next row, once its layers' tiles have come, is kept and queued at the port of its canvas; the ninth ROW packet discards the oldest, and an own record replaced is unmatched. A twin's valid record is held, or, for a row of its own that is late, leaves that unmatched. Equal EPOCH and ROW_SET make a row compared, otherwise unmatched; a differing tile sets the SUSPECT of the loser of R382, SUSPECT and LAST_MISMATCH, with one TANDEM entry. A row that is late with no twin record is unmatched. -/
def Obligations.TandemRecordsAndHeartbeats : Prop :=
  (∀ (g : Fin 8) (s u : State), u.straps.position ≠ s.straps.position → u.straps.device % 64 ≠ s.straps.device % 64 →
    parseHeartbeat u (withSum (heartbeatBody s g.val)) = some
      { state := rd s F.TND_STATUS_STATE, fault := rdb s F.TND_STATUS_FAULT, suspect := rdb s F.TND_STATUS_SELF_SUSPECT
        position := s.straps.position, gallery := g.val, device := s.straps.device % 64, claim := rd s F.TND_STATUS_CLAIM
        epoch := (galOf s g.val).epoch % 2 ^ 32, frame := (galOf s g.val).frame % 2 ^ 48, latch := rd s F.CNV_GAL_LATCH_SHORT g.val }) ∧
  (∀ r : RowRecord, r.canvas < 32 → r.row < 2 ^ 16 → r.frame < 2 ^ 32 → r.epoch < 2 ^ 32 → r.rowSet < 2 ^ 32 → r.crcs.length < 256 →
    r.regions.length < 256 → (∀ c ∈ r.crcs, c < 2 ^ 32) →
    (∀ e ∈ r.regions, e.layer < 1024 ∧ e.verdict < 8 ∧ e.cause < 16 ∧ e.age < 2 ^ 32) → parseRecord (recordBytes r) = some r) ∧
  (∀ (g : Fin 8) (s : State),
    (paired s g.val = false ∨ (tgalOf s g.val).hbDue = false ∨ rd s F.TND_CTRL_EN = 0 → exec (.heartbeatSend g) s = .next s) ∧
    (paired s g.val = true → (tgalOf s g.val).hbDue = true → rd s F.TND_CTRL_EN = 1 →
      let u := declareFault s
      ∃ t, exec (.heartbeatSend g) s = .next t ∧ rd t F.TND_STATUS_FAULT =
          (if ∃ c ∈ pairedCanvases s, (cnvOf s c).gesso.engine = true then 1 else rd s F.TND_STATUS_FAULT) ∧ tgalOf t g.val = { tgalOf s g.val with hbDue := false } ∧
        (∀ h, h ≠ g.val → tgalOf t h = tgalOf s h) ∧ t = { s with regs := t.regs, tnd := t.tnd, lnk := t.lnk } ∧
        sameRegsBut s t [R.TND_STATUS.base] ∧ (∀ n ∈ tandemPorts s, (portOf t n).queue = (portOf s n).queue ++
          [{ cls := 1, tag := leBytes g.val 8, payload := withSum (heartbeatBody u g.val) }]) ∧
        (∀ n, n ∉ tandemPorts s → portOf t n = portOf s n))) ∧
  (∀ (p : Fin 4) (b : List Byte) (s : State),
    rd s F.TND_CTRL_EN = 0 ∨ p.val ∉ tandemPorts s ∨ parseHeartbeat s b = none ∨
      (∃ h, parseHeartbeat s b = some h ∧ (tgalOf s h.gallery).heard = some h) → exec (.heartbeatRx p b) s = .next s) ∧
  (∀ (p : Fin 4) (b : List Byte) (h : Heartbeat) (s : State), rd s F.TND_CTRL_EN = 1 → p.val ∈ tandemPorts s → parseHeartbeat s b = some h →
    (tgalOf s h.gallery).heard ≠ some h →
    let fresh := rd s F.TND_STATUS_PAIRED = 0
    ∃ t, exec (.heartbeatRx p b) s = .next t ∧ rd t F.TND_STATUS_PAIRED = 1 ∧ rd t F.TND_STATUS_TWIN_LOST = 0 ∧ rd t F.TND_TWIN_CLAIM = h.claim ∧
      rd t F.TND_TWIN_DEVICE = h.device ∧ rd t F.TND_TWIN_STATE = h.state ∧ rd t F.TND_TWIN_FAULT = bit h.fault ∧ t.tnd.last = some h ∧
      rd t F.TND_STATUS_CLAIM = (if fresh ∧ h.state = 1 then (h.claim + 65535) % 65536 else rd s F.TND_STATUS_CLAIM) ∧ t.eas = s.eas ∧
      t.mem = s.mem ∧ (fresh → rd t F.TND_STATUS_STATE = if claimWins t then 1 else 3) ∧
      (¬ fresh → rd s F.TND_STATUS_TWIN_LOST = 0 → rd s F.TND_STATUS_STATE = 1 → serialLater 16 h.claim (rd s F.TND_STATUS_CLAIM) = true →
        rd t F.TND_STATUS_STATE = 2 ∧ rd t F.TND_EVENT_YIELDED = 1) ∧
      (¬ fresh → rd s F.TND_STATUS_TWIN_LOST = 1 → rd s F.TND_STATUS_STATE ≠ 1 → claimWins t = false → rd t F.TND_STATUS_STATE = 3) ∧
      (¬ fresh → serialLater 16 h.claim (rd s F.TND_STATUS_CLAIM) = false → rd s F.TND_STATUS_TWIN_LOST = 0 →
        rd t F.TND_STATUS_STATE = rd s F.TND_STATUS_STATE)) ∧
  (∀ (c : Fin 32) (row : BitVec 8) (s : State),
    (rowExists s c.val row.toNat = false ∨ row.toNat ≠ (tcnvOf s c.val).row ∨ rowWaits s c.val row.toNat ≠ [] → exec (.rowRecordSend c row) s = .next s) ∧
    (rowExists s c.val row.toNat = true → row.toNat = (tcnvOf s c.val).row → rowWaits s c.val row.toNat = [] →
      let had := s.tnd.own.any fun o => o.canvas == c.val && o.row == row.toNat
      ∃ t, exec (.rowRecordSend c row) s = .next t ∧ t.tnd.own = ownRecord s c.val row.toNat :: otherRows s.tnd.own c.val row.toNat ∧
        tcnvOf t c.val = { tcnvOf s c.val with row := row.toNat + 1 } ∧ (∀ d, d ≠ c.val → tcnvOf t d = tcnvOf s d) ∧
        t = { s with regs := t.regs, tnd := { s.tnd with own := t.tnd.own, cnvs := t.tnd.cnvs }, lnk := t.lnk } ∧
        rd t F.TND_COMPARE_UNMATCHED = (rd s F.TND_COMPARE_UNMATCHED + bit had) % 2 ^ 32 ∧
        (canvasPort s c.val = none → t.lnk = s.lnk ∧ (had = false → t.regs = s.regs)) ∧
        (∀ p, canvasPort s c.val = some p →
          let rows := ((portOf s p).queue.filter fun x => x.cls == 5).length
          (rows < 8 → (had = false → t.regs = s.regs) ∧ (portOf t p).queue = (portOf s p).queue ++
            [{ cls := 5, tag := leBytes c.val 8, payload := recordBytes (ownRecord s c.val row.toNat) }]) ∧
          (8 ≤ rows → (portOf t p).queue.length = (portOf s p).queue.length ∧
            rd t F.LNK_THROTTLE_ROW_DISCARD p = (rd s F.LNK_THROTTLE_ROW_DISCARD p + 1) % 2 ^ F.LNK_THROTTLE_ROW_DISCARD.w)))) ∧
  (∀ (p : Fin 4) (b : List Byte) (s : State),
    (rd s F.TND_CTRL_EN = 0 ∨ p.val ∉ tandemPorts s ∨ parseRecord b = none → exec (.rowRecordRx p b) s = .next s) ∧
    (∀ r, rd s F.TND_CTRL_EN = 1 → p.val ∈ tandemPorts s → parseRecord b = some r → rowExists s r.canvas r.row = true → recordMissed s r = true →
      ∃ t, exec (.rowRecordRx p b) s = .next t ∧ t.tnd = { s.tnd with own := otherRows s.tnd.own r.canvas r.row } ∧
        rd t F.TND_COMPARE_UNMATCHED = (rd s F.TND_COMPARE_UNMATCHED + 1) % 2 ^ 32 ∧ t = { s with regs := t.regs, tnd := t.tnd }) ∧
    (∀ r, rd s F.TND_CTRL_EN = 1 → p.val ∈ tandemPorts s → parseRecord b = some r → rowExists s r.canvas r.row = true → recordMissed s r = false →
      ∃ t, exec (.rowRecordRx p b) s = .next t ∧ t.tnd = { s.tnd with twin := r :: otherRows s.tnd.twin r.canvas r.row } ∧ t.mem = s.mem ∧
        ((tcnvOf s r.canvas).stream ≠ 1 → t = { s with tnd := t.tnd }))) ∧
  (∀ (c : Fin 32) (row : BitVec 8) (s : State),
    ((∀ o u, recordPair s c.val row.toNat ≠ some (o, some u)) → exec (.rowCompare c row) s = .next s) ∧
    (∀ o u, recordPair s c.val row.toNat = some (o, some u) →
      ∃ t, exec (.rowCompare c row) s = .next t ∧ t.tnd.own = otherRows s.tnd.own c.val row.toNat ∧ t.tnd.twin = s.tnd.twin ∧ t.mem = s.mem ∧
        (o.epoch ≠ u.epoch ∨ o.rowSet ≠ u.rowSet → rd t F.TND_COMPARE_UNMATCHED = (rd s F.TND_COMPARE_UNMATCHED + 1) % 2 ^ 32 ∧
          rd t F.TND_COMPARE_COMPARED = rd s F.TND_COMPARE_COMPARED ∧ sameRegsBut s t [R.TND_COMPARE.base]) ∧
        (o.epoch = u.epoch → o.rowSet = u.rowSet → rd t F.TND_COMPARE_COMPARED = (rd s F.TND_COMPARE_COMPARED + 1) % 2 ^ 32 ∧
          rd t F.TND_COMPARE_UNMATCHED = rd s F.TND_COMPARE_UNMATCHED ∧ (tcnvOf t c.val).compared = (tcnvOf s c.val).compared + 1 ∧
          (firstDifference o.crcs u.crcs = none → sameRegsBut s t [R.TND_COMPARE.base] ∧ t.jnl = s.jnl) ∧
          (∀ i, firstDifference o.crcs u.crcs = some i → rd t F.TND_EVENT_SUSPECT = 1 ∧ rd t F.TND_LAST_MISMATCH_VALID = 1 ∧
            rd t F.TND_LAST_MISMATCH_CANVAS = c.val ∧ rd t F.TND_LAST_MISMATCH_ROW = row.toNat ∧ rd t F.TND_LAST_MISMATCH_TILE = i % 32 ∧
            t.jnl.asked.length = s.jnl.asked.length + 1 ∧
            rd t F.TND_STATUS_TWIN_SUSPECT = (if claimWins s then 1 else rd s F.TND_STATUS_TWIN_SUSPECT) ∧
            rd t F.TND_STATUS_SELF_SUSPECT = (if claimWins s then rd s F.TND_STATUS_SELF_SUSPECT else 1))))) ∧
  (∀ (c : Fin 32) (row : BitVec 8) (s : State),
    ((∀ o, recordPair s c.val row.toNat ≠ some (o, none)) → exec (.rowRecordTimeout c row) s = .next s) ∧
    (∀ o, recordPair s c.val row.toNat = some (o, none) → recordLate s o = false → exec (.rowRecordTimeout c row) s = .next s) ∧
    (∀ o, recordPair s c.val row.toNat = some (o, none) → recordLate s o = true →
      ∃ t, exec (.rowRecordTimeout c row) s = .next t ∧ t.tnd = { s.tnd with own := otherRows s.tnd.own c.val row.toNat } ∧
        rd t F.TND_COMPARE_UNMATCHED = (rd s F.TND_COMPARE_UNMATCHED + 1) % 2 ^ 32 ∧ t = { s with regs := t.regs, tnd := t.tnd } ∧
        sameRegsBut s t [R.TND_COMPARE.base]))

/-- A line of the twin's stream is held and the one after it awaited, with the lines skipped held as missing; a line again, or of a canvas that is not paired, changes nothing. A line not held when needed leaves the stream late; while the twin's stream is passed it raises TWIN_LATE and puts the canvas into Gesso, once in a frame. A mirrored CANCEL drops the pending commit with CANCELLED. A mirrored commit makes a commit pending, at its target where it is not refused; where it is refused MIRROR_FAIL is raised and SELF_SUSPECT set; its one slot is staged when it reads valid. A mirror for an unpaired gallery, and one whose memory accesses wait (the model's choice, log entry 141), changes nothing. YIELD sets FAULT alone. RESYNC on an unpaired or active device raises CMD_REFUSED with an entry alone; else STATE becomes RESYNC, no image is held unless it was in RESYNC, the clean counts restart and one TANDEM entry is presented. An image for a paired gallery is held in RESYNC and in no other state. -/
def Obligations.TandemStreamsMirrorsAndResync : Prop :=
  (∀ (c : Fin 32) (y : BitVec 16) (b : List Byte) (s : State),
    let x := tcnvOf s c.val
    (rd s F.TND_STATUS_PAIRED = 0 ∨ paired s (galleryOf s c.val) = false ∨ canvasH s c.val ≤ y.toNat ∨ y.toNat < x.line →
      exec (.twinLineRx c y b) s = .next s) ∧
    (rd s F.TND_STATUS_PAIRED = 1 → paired s (galleryOf s c.val) = true → y.toNat < canvasH s c.val → x.line ≤ y.toNat →
      ∃ t, exec (.twinLineRx c y b) s = .next t ∧ (tcnvOf t c.val).line = y.toNat + 1 ∧ (tcnvOf t c.val).stream = x.stream ∧
        (tcnvOf t c.val).late = x.late ∧
        (tcnvOf t c.val).lines = x.lines ++ List.replicate (y.toNat - x.line) [] ++ [b] ∧ (∀ d, d ≠ c.val → tcnvOf t d = tcnvOf s d) ∧
        t.mem = s.mem ∧ (x.stream ≠ 1 → t = { s with tnd := t.tnd }))) ∧
  (∀ (c : Fin 32) (s : State),
    (paired s (galleryOf s c.val) = false ∨ rd s F.TND_STATUS_PAIRED = 0 ∨ (tcnvOf s c.val).late = true → exec (.twinLate c) s = .next s) ∧
    (paired s (galleryOf s c.val) = true → rd s F.TND_STATUS_PAIRED = 1 → (tcnvOf s c.val).stream ≠ 1 → (tcnvOf s c.val).late = false →
      exec (.twinLate c) s = .next (updTcnv s c.val fun x => { x with late := true })) ∧
    (paired s (galleryOf s c.val) = true → rd s F.TND_STATUS_PAIRED = 1 → (tcnvOf s c.val).stream = 1 → (tcnvOf s c.val).late = false →
      ∃ t, exec (.twinLate c) s = .next t ∧ rd t F.TND_EVENT_TWIN_LATE = 1 ∧ rd t F.CNV_STATUS_GESSO c.val = 1 ∧
        tcnvOf t c.val = { tcnvOf s c.val with late := true } ∧ t.jnl = s.jnl ∧ t = { s with regs := t.regs, fab := t.fab, tnd := t.tnd })) ∧
  (∀ (m : MirrorMsg) (s : State),
    let g := m.gallery.val
    (rd s F.TND_STATUS_PAIRED = 0 ∨ paired s g = false ∨ accessWaits s 51 = true ∨ accessWaits s 52 = true → exec (.mirrorRx m) s = .next s) ∧
    (rd s F.TND_STATUS_PAIRED = 1 → paired s g = true → accessWaits s 51 = false → accessWaits s 52 = false → m.cancel = true →
      (pendingIn s g = false → exec (.mirrorRx m) s = .next s) ∧
      (pendingIn s g = true → ∃ t, exec (.mirrorRx m) s = .next t ∧ galOf t g = { galOf s g with pend := none } ∧
        rd t F.EAS_GAL_EVENT_CANCELLED g = 1 ∧ t.eas.layers = s.eas.layers ∧ t.mem = s.mem)) ∧
    (rd s F.TND_STATUS_PAIRED = 1 → paired s g = true → accessWaits s 51 = false → accessWaits s 52 = false → m.cancel = false →
      ∃ t, exec (.mirrorRx m) s = .next t ∧
        ((galOf t g).pend.isSome = true ∨ (rd t F.TND_EVENT_MIRROR_FAIL = 1 ∧ rd t F.TND_STATUS_SELF_SUSPECT = 1)) ∧
        (m.slots = [] → pendingIn s g = true ∨ rd s F.PTP_STATE_LOCKED = 0 →
          rd t F.TND_EVENT_MIRROR_FAIL = 1 ∧ rd t F.TND_STATUS_SELF_SUSPECT = 1 ∧ galOf t g = galOf s g ∧ t.eas.layers = s.eas.layers ∧ t.mem = s.mem) ∧
        (m.slots = [] → pendingIn s g = false → rd s F.PTP_STATE_LOCKED = 1 → m.target.toNat ≤ fabNs s + 60000000000 →
          galOf t g = { galOf s g with pend := some { at? := some m.target.toNat, late := !pastWindow s g (((m.target.toNat : Int) - fabNs s) * 1000),
                                                            since := s.time.cyc } } ∧ t.eas.layers = s.eas.layers ∧
          t.mem = s.mem ∧ rd t F.TND_STATUS_SELF_SUSPECT = rd s F.TND_STATUS_SELF_SUSPECT) ∧
        (∀ l b, m.slots = [(l, b)] → (layOf s l.val).committed = false → (∀ h, pendingIn s h = false) →
          let u := (busWrite s 52 (stagingSlot s l.val) (bytesAt b 0 128)).1
          let r := busRead u 51 (stagingSlot u l.val) 128
          let d := parseSlot r.2.2
          r.2.1 = 0 → slotBad r.2.2 (rd r.1 F.CMP_CNV_CFG_TRANSFER d.canvas) (othersShown r.1 (rd r.1 F.CNV_CTRL_GALLERY d.canvas) d.canvas l.val) = none →
          (layOf t l.val).staged = some (rd s F.CNV_CTRL_GALLERY d.canvas) ∧ (layOf t l.val).stagedDesc = d ∧
          (∀ k, k ≠ l.val → layOf t k = layOf s k)))) ∧
  (∀ s : State, ∃ t, exec .yield s = .next t ∧ rd t F.TND_STATUS_FAULT = 1 ∧ rd t F.TND_STATUS_STATE = rd s F.TND_STATUS_STATE ∧
    rd t F.TND_STATUS_CLAIM = rd s F.TND_STATUS_CLAIM ∧ t = { s with regs := t.regs } ∧ sameRegsBut s t [R.TND_STATUS.base]) ∧
  (∀ s : State,
    (rd s F.TND_STATUS_PAIRED = 0 ∨ rd s F.TND_STATUS_STATE = 1 → ∃ t, exec .resync s = .next t ∧ rd t F.TND_EVENT_CMD_REFUSED = 1 ∧
      rd t F.TND_STATUS_STATE = rd s F.TND_STATUS_STATE ∧ t = { s with regs := t.regs, fab := t.fab, jnl := t.jnl, free := t.free } ∧
      ∃ q, t.jnl.asked = s.jnl.asked ++ [q] ∧ q.ty = 0x0030) ∧
    (rd s F.TND_STATUS_PAIRED = 1 → rd s F.TND_STATUS_STATE ≠ 1 → ∃ t, exec .resync s = .next t ∧ rd t F.TND_STATUS_STATE = 3 ∧
      (rd s F.TND_STATUS_STATE ≠ 3 → t.tnd.images = []) ∧ (∀ g, g < 8 → (tgalOf t g).clean = 0 ∧ (tgalOf t g).bad = false) ∧ t.jnl.asked.length = s.jnl.asked.length + 1 ∧
      (∀ q ∈ t.jnl.asked.getLast?, q.ty = 0x0030 ∧ leAt q.payload 0 1 = 6) ∧ t.eas = s.eas ∧ t.mem = s.mem ∧
      sameRegsBut s t [R.TND_STATUS.base])) ∧
  (∀ (m : ImageMsg) (s : State),
    (rd s F.TND_STATUS_STATE ≠ 3 ∨ paired s m.gallery.val = false → exec (.resyncImageRx m) s = .next s) ∧
    (rd s F.TND_STATUS_STATE = 3 → paired s m.gallery.val = true →
      ∃ t, exec (.resyncImageRx m) s = .next t ∧ t = { s with tnd := { s.tnd with images := t.tnd.images } } ∧
        t.tnd.images.find m.gallery.val =
          some { gallery := m.gallery.val, slots := (m.slots.map fun e => (e.1.val, e.2)), epoch := m.epoch.toNat, frame := m.frame.toNat } ∧ ∀ h, h ≠ m.gallery.val → t.tnd.images.find h = s.tnd.images.find h))

/-- START of a busy sequencer is refused with code 1; of another it begins the header check. A check that fails refuses with its code and the value that R415 gives, raises REFUSED and leaves the state, the registers and the memories of the sequencer alone. A check that passes makes it RUNNING in supervisor mode at ENTRY / 8 with registers, pending counts and timers clear and both memories kept. HALT asks a busy sequencer to stop at its program counter, abandoning a wait; once no read and no posted write is outstanding it is HALTED with HALTED raised. RESUME runs a HALTED one on with all it holds. Each changes nothing in the other states. STEP of a HALTED sequencer at an add executes it and halts again; at an undefined opcode it faults with OPCODE. A word with an undefined opcode that issues faults with OPCODE, or with FETCH outside the program. -/
def Obligations.SequencerStartHaltAndStep : Prop :=
  (∀ (n : Fin 16) (s : State),
    (seqBusy (seqOf s n.val) = true → ∃ t, exec (.seqStart n) s = .next t ∧ rd t F.SEQ_START_STATUS_CODE n.val = 1 ∧
      rd t F.SEQ_EVENT_REFUSED n.val = 1 ∧ seqOf t n.val = { seqOf s n.val with starting := false } ∧ (∀ m, m ≠ n.val → seqOf t m = seqOf s m) ∧
      t = { s with seqs := t.seqs, regs := t.regs, fab := t.fab, free := t.free }) ∧
    (seqBusy (seqOf s n.val) = false → exec (.seqStart n) s = .next (setSeq s n.val { seqOf s n.val with starting := true }))) ∧
  (∀ (n : Fin 16) (s : State),
    let q := seqOf s n.val
    let h := Memory.readBytes q.imem 0 64
    (q.starting = false → exec (.seqStartDone n) s = .next s) ∧
    (q.starting = true → ∀ c v, headerCheck s q = some (c, v) →
      ∃ t, exec (.seqStartDone n) s = .next t ∧ rd t F.SEQ_START_STATUS_CODE n.val = c ∧ 1 ≤ c ∧ c ≤ 7 ∧ rd t F.SEQ_EVENT_REFUSED n.val = 1 ∧
        (∀ w, v = some w → rd t F.SEQ_START_STATUS_VALUE n.val = w % 256) ∧ seqOf t n.val = { q with starting := false } ∧
        (∀ m, m ≠ n.val → seqOf t m = seqOf s m) ∧ t = { s with seqs := t.seqs, regs := t.regs, fab := t.fab, free := t.free }) ∧
    (q.starting = true → headerCheck s q = none →
      ∃ t, exec (.seqStartDone n) s = .next t ∧ (seqOf t n.val).run = .running ∧ (seqOf t n.val).user = false ∧
        (seqOf t n.val).pc = leAt h 20 4 / 8 ∧ (∀ k, sreg (seqOf t n.val) k = 0) ∧ (seqOf t n.val).pend = [] ∧ (seqOf t n.val).timers = [] ∧
        (seqOf t n.val).imem = q.imem ∧ (seqOf t n.val).dmem = q.dmem ∧ (seqOf t n.val).version = leAt h 4 1 ∧
        (seqOf t n.val).features = leAt h 8 8 ∧ (seqOf t n.val).codeLen = leAt h 16 4 ∧ (seqOf t n.val).trap = leAt h 24 4 ∧
        inProgram (seqOf t n.val) = true ∧ rd t F.SEQ_START_STATUS_CODE n.val = 0 ∧ rd t F.SEQ_EVENT_REFUSED n.val = rd s F.SEQ_EVENT_REFUSED n.val ∧
        (∀ m, m ≠ n.val → seqOf t m = seqOf s m) ∧ t = { s with seqs := t.seqs, regs := t.regs })) ∧
  (∀ (q : Seq) (s : State), seqBusy q = false → leAt (Memory.readBytes q.imem 0 64) 0 4 ≠ 0x5349534B → headerCheck s q = some (2, none)) ∧
  (∀ (n : Fin 16) (s : State),
    (seqBusy (seqOf s n.val) = true →
      exec (.halt n) s = .next (setSeq s n.val { seqOf s n.val with halting := true, wait := none, run := .running })) ∧
    (seqBusy (seqOf s n.val) = false → exec (.halt n) s = .next s)) ∧
  (∀ (n : Fin 16) (s : State),
    let q := seqOf s n.val
    (q.halting = false ∨ q.read ≠ none ∨ q.posted ≠ [] → exec (.seqHaltDone n) s = .next s) ∧
    (q.halting = true → q.read = none → q.posted = [] →
      ∃ t, exec (.seqHaltDone n) s = .next t ∧ seqOf t n.val = { q with run := .halted, halting := false, stepping := false, wait := none, easWait := false } ∧
        rd t F.SEQ_EVENT_HALTED n.val = 1 ∧ (∀ m, m ≠ n.val → seqOf t m = seqOf s m) ∧
        (rd s F.SEQ_CFG_INT_HALT n.val = 0 → t.fab = s.fab) ∧ t = { s with seqs := t.seqs, regs := t.regs, fab := t.fab })) ∧
  (∀ (n : Fin 16) (s : State),
    ((seqOf s n.val).run = .halted → exec (.resume n) s = .next (setSeq s n.val { seqOf s n.val with run := .running })) ∧
    ((seqOf s n.val).run ≠ .halted → exec (.resume n) s = .next s ∧ exec (.step n) s = .next s)) ∧
  (∀ (n : Fin 16) (s : State),
    let q := seqOf s n.val
    let f := fieldsOf (fetchWord q)
    q.run = .halted → q.halting = false → q.read = none → inProgram q = true →
    (slice (fetchWord q) 56 8 = 0x01 → f.fn = 0 → bitOn q.features 0 = true → q.posted = [] →
      ∃ t, exec (.step n) s = .next t ∧ rd t F.SEQ_EVENT_HALTED n.val = 1 ∧
        seqOf t n.val = { setSreg q f.rd (sreg q f.ra + sreg q f.rb) with pc := q.pc + 1, wait := none, stepping := false, easWait := false } ∧
        rd t F.SEQ_RETIRED_COUNT n.val = (rd s F.SEQ_RETIRED_COUNT n.val + 1) % 2 ^ 64 ∧ t.mem = s.mem ∧ t.eas = s.eas) ∧
    (ksisOp (slice (fetchWord q) 56 8) = none → q.user = false →
      ∃ t, exec (.step n) s = .next t ∧ (seqOf t n.val).run = .faulted ∧ (seqOf t n.val).pc = q.pc ∧ (seqOf t n.val).regs = q.regs ∧
        rd t F.SEQ_EVENT_FAULT n.val = 1)) ∧
  (∀ (n : Fin 16) (w : BitVec 64) (s : State),
    (canIssue (seqOf s n.val) = false → exec (.undefinedOpcode n w) s = .next s) ∧
    (canIssue (seqOf s n.val) = true → inProgram (seqOf s n.val) = false → ∃ t, exec (.undefinedOpcode n w) s = .next t ∧ faultsWith s t n.val 6 0) ∧
    (issuable s n.val → ksisOp (slice w.toNat 56 8) = none → ∃ t, exec (.undefinedOpcode n w) s = .next t ∧ faultsWith s t n.val 1 0) ∧
    ksisOp 0 = none ∧ ksisOp 0x79 = none)

/-- SEQ_SIGNAL of a number below 768 changes nothing; of another it counts on every sequencer that has its mask bit set, a count at 255 staying there with EV_OVERFLOW. SEQ_REGk sets sk while HALTED or FAULTED, s0 excepted, and nothing otherwise. A window write stores its bytes in data memory in any state and in instruction memory while HALTED or FAULTED; in another state that write is dropped with IMEM_WR. A timer whose interval has passed signals its event to its owner alone and is disarmed, or, if it repeats, counts its next interval from its end; before that it changes nothing. A wait completes when its event is ready, consuming one and returning its number, when its time has come, or with what its latch gave; else the sequencer goes on waiting. A read that an update hold or a reset keeps in its shim is not issued; the data of an allowed one of DRAM reach the destination, zero-extended; an error that has come back faults with PROT or DECODE, and a forbidden read with PROT and a violation. The oldest posted write is acknowledged, and its error response faults a busy sequencer with its address. -/
def Obligations.SequencerEventsTimersAndWindow : Prop :=
  (∀ (ev : BitVec 10) (s : State),
    (ev.toNat < 768 → exec (.seqSignal ev) s = .next s) ∧
    (768 ≤ ev.toNat → ∃ t, exec (.seqSignal ev) s = .next t ∧ t = { s with seqs := t.seqs, regs := t.regs, fab := t.fab } ∧
      ∀ n, n < 16 →
        let q := seqOf s n
        let c := q.pend.get ev.toNat 0
        (maskOn q ev.toNat = false → seqOf t n = q ∧ rd t F.SEQ_EVENT_EV_OVERFLOW n = rd s F.SEQ_EVENT_EV_OVERFLOW n) ∧
        (maskOn q ev.toNat = true → c < 255 → seqOf t n = { q with pend := q.pend.put ev.toNat (c + 1) }) ∧
        (maskOn q ev.toNat = true → 255 ≤ c → seqOf t n = q ∧ rd t F.SEQ_EVENT_EV_OVERFLOW n = 1))) ∧
  (∀ (n : Fin 16) (k : Fin 32) (v : BitVec 64) (s : State),
    (loadable (seqOf s n.val) = true → ∃ t, exec (.seqRegWrite n k v) s = .next t ∧
      (∀ j, sreg (seqOf t n.val) j = if j = k.val ∧ k.val ≠ 0 then v else sreg (seqOf s n.val) j) ∧
      seqOf t n.val = { seqOf s n.val with regs := (seqOf t n.val).regs } ∧ (∀ m, m ≠ n.val → seqOf t m = seqOf s m) ∧ t = { s with seqs := t.seqs }) ∧
    (loadable (seqOf s n.val) = false → exec (.seqRegWrite n k v) s = .next s)) ∧
  (∀ (n : Fin 16) (off : BitVec 19) (b : List Byte) (s : State),
    let o := off.toNat
    (0x20000 ≤ o → ∃ t, exec (.seqWindowWrite n off b) s = .next t ∧ seqOf t n.val = { seqOf s n.val with dmem := (seqOf t n.val).dmem } ∧
      (∀ a, Memory.read (seqOf t n.val).dmem a =
        if o - 0x20000 ≤ a ∧ a < o - 0x20000 + b.length then b.getD (a - (o - 0x20000)) 0 else Memory.read (seqOf s n.val).dmem a) ∧
      (∀ m, m ≠ n.val → seqOf t m = seqOf s m) ∧ t = { s with seqs := t.seqs }) ∧
    (o < 0x20000 → loadable (seqOf s n.val) = true → ∃ t, exec (.seqWindowWrite n off b) s = .next t ∧
      seqOf t n.val = { seqOf s n.val with imem := (seqOf t n.val).imem } ∧
      (∀ a, Memory.read (seqOf t n.val).imem a = if o ≤ a ∧ a < o + b.length then b.getD (a - o) 0 else Memory.read (seqOf s n.val).imem a) ∧
      (∀ m, m ≠ n.val → seqOf t m = seqOf s m) ∧ t = { s with seqs := t.seqs }) ∧
    (o < 0x20000 → loadable (seqOf s n.val) = false → ∃ t, exec (.seqWindowWrite n off b) s = .next t ∧ rd t F.SEQ_EVENT_IMEM_WR n.val = 1 ∧
      t = { s with regs := t.regs, fab := t.fab })) ∧
  (∀ (n : Fin 16) (k : Fin 4) (s : State),
    let q := seqOf s n.val
    let e := 192 + 4 * n.val + k.val
    (q.timers.find k.val = none → exec (.seqTimerExpiry n k) s = .next s) ∧
    (∀ m, q.timers.find k.val = some m → seqCyc s < m.since + m.interval → exec (.seqTimerExpiry n k) s = .next s) ∧
    (∀ m, q.timers.find k.val = some m → m.since + m.interval ≤ seqCyc s →
      ∃ t, exec (.seqTimerExpiry n k) s = .next t ∧ (seqOf t n.val).timers =
          (if m.repeating then q.timers.put k.val { m with since := m.since + m.interval } else q.timers.del k.val) ∧
        (seqOf t n.val).pc = q.pc ∧ (seqOf t n.val).run = q.run ∧ (∀ j, j ≠ n.val → seqOf t j = seqOf s j) ∧
        (maskOn q e = true → q.pend.get e 0 < 255 → (seqOf t n.val).pend = q.pend.put e (q.pend.get e 0 + 1) ∧ t.regs = s.regs) ∧
        (maskOn q e = true → 255 ≤ q.pend.get e 0 → (seqOf t n.val).pend = q.pend ∧ rd t F.SEQ_EVENT_EV_OVERFLOW n.val = 1) ∧
        (maskOn q e = false → (seqOf t n.val).pend = q.pend ∧ t.regs = s.regs))) ∧
  (∀ (n : Fin 16) (s : State),
    let q := seqOf s n.val
    let go : Seq := { q with run := .running, wait := none }
    (q.run ≠ .waiting → exec (.seqWaitComplete n) s = .next s) ∧
    (q.run = .waiting → ∀ d v, q.wait = some (.latched d v) → ∃ t, exec (.seqWaitComplete n) s = .next t ∧
      completes s t n.val (setSreg { go with pc := q.pc + 1 } d (BitVec.ofNat 64 v))) ∧
    (q.run = .waiting → ∀ d g u, q.wait = some (.latch d g u) → exec (.seqWaitComplete n) s = .next s) ∧
    (q.run = .waiting → ∀ w, q.wait = some (.time w) → (w ≤ seqNs s → ∃ t, exec (.seqWaitComplete n) s = .next t ∧
        completes s t n.val { go with pc := q.pc + 1 }) ∧
      (seqNs s < w → exec (.seqWaitComplete n) s = .next { s with free := s.free + 1 })) ∧
    (q.run = .waiting → ∀ d b m, q.wait = some (.event d b m) →
      (∀ e, readyEvent q b m = some e → ∃ t p, exec (.seqWaitComplete n) s = .next t ∧ p.get e 0 = q.pend.get e 0 - 1 ∧
        (∀ j, j ≠ e → p.get j 0 = q.pend.get j 0) ∧ completes s t n.val (setSreg { go with pc := q.pc + 1, pend := p } d (BitVec.ofNat 64 e))) ∧
      (readyEvent q b m = none → ∃ t, exec (.seqWaitComplete n) s = .next t ∧ seqOf t n.val = q ∧ t = { s with seqs := t.seqs }))) ∧
  (∀ (n : Fin 16) (s : State), (seqOf s n.val).read = none → (seqOf s n.val).posted = [] → exec (.seqFabricReadReturn n) s = .next s) ∧
  (∀ (n : Fin 16) (s : State) (r : SeqRead) (tag err : Nat) (data : List Byte), (seqOf s n.val).read = some r → (seqOf s n.val).posted = [] →
    r.sent = some tag → r.answer = some (err, data) → (∀ x ∈ s.fab.resps, x.master = 16 + n.val → x.tag ≠ tag) → atPort s (16 + n.val) tag = none →
    let q := seqOf s n.val
    (err = 0 → ∃ t, exec (.seqFabricReadReturn n) s = .next t ∧
      completes s t n.val (setSreg { q with read := none, pc := q.pc + 1 } r.rd (BitVec.ofNat 64 (leNat data)))) ∧
    (err ≠ 0 → ∃ t, exec (.seqFabricReadReturn n) s = .next t ∧
      faultsWith (setSeq s n.val { q with read := none }) t n.val (if err = 1 then 7 else 8) r.addr)) ∧
  (∀ (n : Fin 16) (s : State) (r : SeqRead), (seqOf s n.val).read = some r → (seqOf s n.val).posted = [] → r.sent = none → r.answer = none →
    (∀ x ∈ s.fab.resps, x.master = 16 + n.val → x.tag ≠ s.fab.nextTag) → atPort s (16 + n.val) s.fab.nextTag = none →
    let q := seqOf s n.val
    let x : Access1 := { master := 16 + n.val, addr := r.addr, len := r.size, write := false, user := r.user }
    let held := heldBack s (readXact s n.val r) = true ∨ inReset s (16 + n.val) = true
    (held → exec (.seqFabricReadReturn n) s = .next s) ∧
    (¬ held → protCheck s x = none → decodeKind s x = 0 → targetOf r.addr = some .dram → channelStopped s (dramChannel r.addr) = false →
      ∀ l, dramRead s r.addr r.size = some l → ∃ t, exec (.seqFabricReadReturn n) s = .next t ∧ (seqOf t n.val).read = none ∧
        (seqOf t n.val).pc = q.pc + 1 ∧ (∀ k, sreg (seqOf t n.val) k = if k = r.rd ∧ k ≠ 0 then BitVec.ofNat 64 (leNat l) else sreg q k) ∧
        rd t F.SEQ_RETIRED_COUNT n.val = (rd s F.SEQ_RETIRED_COUNT n.val + 1) % 2 ^ 64 ∧ t.mem = s.mem) ∧
    (¬ held → (protCheck s x).isSome = true → ∃ t, exec (.seqFabricReadReturn n) s = .next t ∧ rd t F.PRT_EVENT_VIOLATION 2 = 1 ∧
      (seqOf t n.val).regs = q.regs ∧ (seqOf t n.val).read = none ∧ rd t F.SEQ_FAULT_CAUSE n.val = 7 ∧ rd t F.SEQ_FAULT_PC n.val = q.pc % 2 ^ 14)) ∧
  (∀ (n : Fin 16) (s : State), (seqOf s n.val).posted = [] → exec (.seqWriteResponse n) s = .next s) ∧
  (∀ (n : Fin 16) (s : State) (w : Posted), (seqOf s n.val).posted = [w] → w.made = true →
    let q := seqOf s n.val
    (w.cause = 0 ∨ seqBusy q = false → exec (.seqWriteResponse n) s = .next (setSeq s n.val { q with posted := [] })) ∧
    (w.cause = 7 ∨ w.cause = 8 → seqBusy q = true → ∃ t, exec (.seqWriteResponse n) s = .next t ∧
      faultsWith (setSeq s n.val { q with posted := [] }) t n.val w.cause w.addr))

/-- An instruction of R441 or R442 that issues in the program, with its feature and no function bit, leaves in its destination the stated value of its registers and immediate as they were before it, advances the program counter by one, is counted, and changes nothing else; with s0 as destination it writes no register. A set function bit faults with OPCODE, a clear feature with VERSION, a program counter outside the program with FETCH. A sequencer that cannot issue takes no effect. Division by zero gives all ones for divu and ra for remu. s0 reads 0. -/
def Obligations.KsisArithmetic : Prop :=
  (∀ (q : Seq) (j k : Nat) (v : Word), sreg (setSreg q k v) j = (if j = k ∧ k ≠ 0 then v else sreg q j) ∧ sreg q 0 = 0) ∧
  (∀ (n : Fin 16) (d x y : BitVec 5) (i : BitVec 32) (s : State), issuable s n.val →
    let q := seqOf s n.val
    let a := sreg q x.toNat
    let b := sreg q y.toNat
    let done := fun (c : Instr) (v : Word) => ∃ t, exec c s = .next t ∧ completes s t n.val (setSreg { q with pc := q.pc + 1 } d.toNat v)
    (bitOn q.features 0 = true →
      done (.add n d x y 0 i) (BitVec.ofNat 64 (a.toNat + b.toNat)) ∧
      done (.sub n d x y 0 i) (BitVec.ofInt 64 (a.toNat - b.toNat)) ∧
      done (.and n d x y 0 i) (BitVec.ofNat 64 (a.toNat &&& b.toNat)) ∧
      done (.or n d x y 0 i) (BitVec.ofNat 64 (a.toNat ||| b.toNat)) ∧
      done (.xor n d x y 0 i) (BitVec.ofNat 64 (a.toNat ^^^ b.toNat)) ∧
      done (.shl n d x y 0 i) (BitVec.ofNat 64 (a.toNat * 2 ^ (b.toNat % 64))) ∧
      done (.shr n d x y 0 i) (BitVec.ofNat 64 (a.toNat / 2 ^ (b.toNat % 64))) ∧
      done (.sra n d x y 0 i) (BitVec.ofInt 64 (a.toInt / 2 ^ (b.toNat % 64))) ∧
      done (.addi n d x y 0 i) (BitVec.ofInt 64 (a.toInt + i.toInt)) ∧
      done (.andi n d x y 0 i) (BitVec.ofNat 64 (a.toNat &&& i.toNat)) ∧
      done (.ori n d x y 0 i) (BitVec.ofNat 64 (a.toNat ||| i.toNat)) ∧
      done (.xori n d x y 0 i) (BitVec.ofNat 64 (a.toNat ^^^ i.toNat)) ∧
      done (.shli n d x y 0 i) (BitVec.ofNat 64 (a.toNat * 2 ^ (i.toNat % 64))) ∧
      done (.shri n d x y 0 i) (BitVec.ofNat 64 (a.toNat / 2 ^ (i.toNat % 64))) ∧
      done (.srai n d x y 0 i) (BitVec.ofInt 64 (a.toInt / 2 ^ (i.toNat % 64))) ∧
      done (.lih n d x y 0 i) (BitVec.ofNat 64 (i.toNat * 2 ^ 32 + a.toNat % 2 ^ 32))) ∧
    (bitOn q.features 1 = true →
      done (.mul n d x y 0 i) (BitVec.ofNat 64 (a.toNat * b.toNat)) ∧
      done (.mulhu n d x y 0 i) (BitVec.ofNat 64 (a.toNat * b.toNat / 2 ^ 64)) ∧
      done (.divu n d x y 0 i) (BitVec.ofNat 64 (if b.toNat = 0 then 2 ^ 64 - 1 else a.toNat / b.toNat)) ∧
      done (.remu n d x y 0 i) (BitVec.ofNat 64 (if b.toNat = 0 then a.toNat else a.toNat % b.toNat)))) ∧
  (∀ (n : Fin 16) (d x y : BitVec 5) (fn : BitVec 9) (i : BitVec 32) (s : State),
    let q := seqOf s n.val
    let core := [Instr.add n d x y fn i, .sub n d x y fn i, .and n d x y fn i, .or n d x y fn i, .xor n d x y fn i, .shl n d x y fn i,
      .shr n d x y fn i, .sra n d x y fn i, .addi n d x y fn i, .andi n d x y fn i, .ori n d x y fn i, .xori n d x y fn i, .shli n d x y fn i,
      .shri n d x y fn i, .srai n d x y fn i, .lih n d x y fn i]
    let muldiv := [Instr.mul n d x y fn i, .mulhu n d x y fn i, .divu n d x y fn i, .remu n d x y fn i]
    (∀ c ∈ core ++ muldiv,
      (canIssue q = false → exec c s = .next s) ∧
      (canIssue q = true → inProgram q = false → ∃ t, exec c s = .next t ∧ faultsWith s t n.val 6 0) ∧
      (issuable s n.val → fn ≠ 0 → ∃ t, exec c s = .next t ∧ faultsWith s t n.val 1 0)) ∧
    (∀ c ∈ core, issuable s n.val → fn = 0 → bitOn q.features 0 = false → ∃ t, exec c s = .next t ∧ faultsWith s t n.val 2 0) ∧
    (∀ c ∈ muldiv, issuable s n.val → fn = 0 → bitOn q.features 1 = false → ∃ t, exec c s = .next t ∧ faultsWith s t n.val 2 0))

/-- cmp and cmpi give 1 where the condition holds and else 0; br goes to the program counter plus the immediate where it holds and else to the next index; condition 7, a bit above it, and condition 6 in version 1 fault with OPCODE. jmp and jr leave the next index in their destination and go to the immediate, or to ra plus it, with ra as it was before. A fence with no posted write outstanding goes on; else it waits with no effect. halt in supervisor mode, with no posted write outstanding, is counted, advances and halts with HALTED raised; umode enters user mode at its immediate; in user mode both fault with PRIV. trap faults with TRAP. sysrd gives the number, mode, fault record, version, features, device and, in version 2, cycle count; another value is reserved. User mode ends only in the fault's entry: no instruction here clears it. -/
def Obligations.KsisCompareBranchAndControl : Prop :=
  (∀ (n : Fin 16) (d x y : BitVec 5) (fn : BitVec 9) (i : BitVec 32) (s : State), issuable s n.val →
    let q := seqOf s n.val
    let a := sreg q x.toNat
    let truth := fun (b : Word) => match fn.toNat with
      | 0 => decide (a.toNat = b.toNat)
      | 1 => decide (a.toNat ≠ b.toNat)
      | 2 => decide (a.toInt < b.toInt)
      | 3 => decide (b.toInt ≤ a.toInt)
      | 4 => decide (a.toNat < b.toNat)
      | 5 => decide (b.toNat ≤ a.toNat)
      | _ => serialLater 32 (a.toNat % 2 ^ 32) (b.toNat % 2 ^ 32)
    let ok := fn.toNat < 6 ∨ (fn.toNat = 6 ∧ q.version ≠ 1)
    let wide := BitVec.ofInt 64 i.toInt
    let done := fun (c : Instr) (r : Seq) => ∃ t, exec c s = .next t ∧ completes s t n.val r
    (bitOn q.features 0 = true → ok →
      done (.cmp n d x y fn i) (setSreg { q with pc := q.pc + 1 } d.toNat (BitVec.ofNat 64 (bit (truth (sreg q y.toNat))))) ∧
      done (.cmpi n d x y fn i) (setSreg { q with pc := q.pc + 1 } d.toNat (BitVec.ofNat 64 (bit (truth wide)))) ∧
      (truth (sreg q y.toNat) = true → done (.br n d x y fn i) { q with pc := (BitVec.ofInt 64 (q.pc + i.toInt)).toNat }) ∧
      (truth (sreg q y.toNat) = false → done (.br n d x y fn i) { q with pc := q.pc + 1 })) ∧
    (¬ ok → ∀ c ∈ [Instr.cmp n d x y fn i, .cmpi n d x y fn i, .br n d x y fn i], ∃ t, exec c s = .next t ∧ faultsWith s t n.val 1 0) ∧
    (fn ≠ 0 → ∀ c ∈ [Instr.jmp n d x y fn i, .jr n d x y fn i, .fence n d x y fn i, .ksisHalt n d x y fn i, .trap n d x y fn i, .umode n d x y fn i],
      ∃ t, exec c s = .next t ∧ faultsWith s t n.val 1 0) ∧
    (bitOn q.features 0 = false → fn = 0 → ∀ c ∈ [Instr.cmp n d x y fn i, .cmpi n d x y fn i, .br n d x y fn i, .jmp n d x y fn i, .jr n d x y fn i,
      .fence n d x y fn i, .ksisHalt n d x y fn i, .trap n d x y fn i, .umode n d x y fn i, .sysrd n d x y fn i],
      ∃ t, exec c s = .next t ∧ faultsWith s t n.val 2 0) ∧
    (bitOn q.features 0 = true →
      done (.jmp n d x y 0 i) { setSreg q d.toNat (BitVec.ofNat 64 (q.pc + 1)) with pc := i.toNat } ∧
      done (.jr n d x y 0 i) { setSreg q d.toNat (BitVec.ofNat 64 (q.pc + 1)) with pc := (BitVec.ofInt 64 (a.toInt + i.toInt)).toNat } ∧
      (q.posted = [] → done (.fence n d x y 0 i) { q with pc := q.pc + 1 }) ∧
      (q.posted ≠ [] → exec (.fence n d x y 0 i) s = .next s) ∧
      (∃ t, exec (.trap n d x y 0 i) s = .next t ∧ faultsWith s t n.val 10 0) ∧
      (q.user = true → ∀ c ∈ [Instr.ksisHalt n d x y 0 i, .umode n d x y 0 i], ∃ t, exec c s = .next t ∧ faultsWith s t n.val 3 0) ∧
      (q.user = false → done (.umode n d x y 0 i) { q with user := true, pc := i.toNat }) ∧
      (q.user = false → q.posted = [] → ∃ t, exec (.ksisHalt n d x y 0 i) s = .next t ∧ rd t F.SEQ_EVENT_HALTED n.val = 1 ∧
        seqOf t n.val = { q with pc := q.pc + 1, run := .halted, halting := false, stepping := false, wait := none, easWait := false } ∧
        (∀ m, m ≠ n.val → seqOf t m = seqOf s m) ∧ rd t F.SEQ_RETIRED_COUNT n.val = (rd s F.SEQ_RETIRED_COUNT n.val + 1) % 2 ^ 64 ∧
        t = { s with seqs := t.seqs, regs := t.regs, fab := t.fab }) ∧
      (q.user = false → q.posted ≠ [] → ∃ t, exec (.ksisHalt n d x y 0 i) s = .next t ∧ seqOf t n.val = { q with pc := q.pc + 1, halting := true } ∧
        rd t F.SEQ_EVENT_HALTED n.val = rd s F.SEQ_EVENT_HALTED n.val)) ∧
    (bitOn q.features 0 = true → ∀ v : Nat,
      (fn.toNat = 0 ∧ v = n.val ∨ fn.toNat = 1 ∧ v = bit q.user ∨ fn.toNat = 2 ∧ v = rdReg s R.SEQ_FAULT n.val ∨ fn.toNat = 3 ∧ v = q.version ∨
        fn.toNat = 4 ∧ v = q.features ∨ fn.toNat = 5 ∧ v = s.straps.device ∨
        fn.toNat = 6 ∧ q.version ≠ 1 ∧ v = rdReg s R.SEQ_CYCLES n.val) →
      done (.sysrd n d x y fn i) (setSreg { q with pc := q.pc + 1 } d.toNat (BitVec.ofNat 64 v))) ∧
    (¬ ok → ∃ t, exec (.sysrd n d x y fn i) s = .next t ∧ faultsWith s t n.val 1 0)) ∧
  (∀ (q : Seq), q.user = true → (retired q).user = true)

/-- With a the sum of ra and the sign-extended immediate and z the size of FN[1:0]: an aligned ld within the local memory gives the z little-endian bytes at a, sign-extended where FN[2] is 1 and zero-extended where it is 0; st stores the low z bytes of rb at a and no byte elsewhere. An aligned fld below 2^40 sends its read out and completes nothing yet; an aligned fst is posted with its value, size and mode and goes on, and stalls with no effect while 16 are outstanding. An address that is no multiple of z faults with ALIGN and the address; a local address whose last byte lies above 393,215 with LOCAL; a fabric address of more than 40 bits with DECODE and the address. A reserved function faults with OPCODE. No load or store here writes DRAM at its issue. -/
def Obligations.KsisMemory : Prop :=
  (∀ (n : Fin 16) (d x y : BitVec 5) (fn : BitVec 9) (i : BitVec 32) (s : State), issuable s n.val → bitOn (seqOf s n.val).features 0 = true →
    let q := seqOf s n.val
    let a := (BitVec.ofInt 64 ((sreg q x.toNat).toInt + i.toInt)).toNat
    let v := sreg q y.toNat
    let z := match fn.toNat % 4 with | 0 => 1 | 1 => 2 | 2 => 4 | _ => 8
    let m := leNat (Memory.readBytes q.dmem a z)
    (fn.toNat < 8 → a % z = 0 → a + z - 1 ≤ 393215 → ∃ t, exec (.ld n d x y fn i) s = .next t ∧
      completes s t n.val (setSreg { q with pc := q.pc + 1 } d.toNat
        (if fn.toNat < 4 then BitVec.ofNat 64 m else (BitVec.ofNat (8 * z) m).signExtend 64))) ∧
    (fn.toNat < 4 → a % z = 0 → a + z - 1 ≤ 393215 → ∃ t w, exec (.st n d x y fn i) s = .next t ∧
      completes s t n.val { q with dmem := w, pc := q.pc + 1 } ∧
      ∀ b, Memory.read w b = if a ≤ b ∧ b < a + z then BitVec.ofNat 8 (v.toNat / 2 ^ (8 * (b - a))) else Memory.read q.dmem b) ∧
    (fn.toNat < 8 → a % z ≠ 0 → ∃ t, exec (.ld n d x y fn i) s = .next t ∧ faultsWith s t n.val 4 a) ∧
    (fn.toNat < 4 → a % z ≠ 0 → ∀ c ∈ [Instr.st n d x y fn i, .fld n d x y fn i, .fst n d x y fn i], ∃ t, exec c s = .next t ∧ faultsWith s t n.val 4 a) ∧
    (fn.toNat < 8 → a % z = 0 → 393215 < a + z - 1 → ∃ t, exec (.ld n d x y fn i) s = .next t ∧ faultsWith s t n.val 5 0) ∧
    (fn.toNat < 4 → a % z = 0 → 393215 < a + z - 1 → ∃ t, exec (.st n d x y fn i) s = .next t ∧ faultsWith s t n.val 5 0) ∧
    (fn.toNat < 4 → a % z = 0 → a < 2 ^ 40 → exec (.fld n d x y fn i) s = .next (setSeq s n.val { q with read := some { rd := d.toNat, addr := a, size := z, user := q.user } })) ∧
    (fn.toNat < 4 → a % z = 0 → a < 2 ^ 40 → q.posted.length < 16 → ∃ t, exec (.fst n d x y fn i) s = .next t ∧
      completes s t n.val { q with posted := q.posted ++ [{ addr := a, size := z, value := v.toNat % 2 ^ (8 * z), user := q.user }], pc := q.pc + 1 }) ∧
    (fn.toNat < 4 → a % z = 0 → a < 2 ^ 40 → 16 ≤ q.posted.length → exec (.fst n d x y fn i) s = .next s) ∧
    (fn.toNat < 4 → a % z = 0 → 2 ^ 40 ≤ a → ∀ c ∈ [Instr.fld n d x y fn i, .fst n d x y fn i], ∃ t, exec c s = .next t ∧ faultsWith s t n.val 8 a) ∧
    (8 ≤ fn.toNat → ∃ t, exec (.ld n d x y fn i) s = .next t ∧ faultsWith s t n.val 1 0) ∧
    (4 ≤ fn.toNat → ∀ c ∈ [Instr.st n d x y fn i, .fld n d x y fn i, .fst n d x y fn i], ∃ t, exec c s = .next t ∧ faultsWith s t n.val 1 0))

/-- A ready event is the lowest of the set with its mask bit set and a count above 0. ewait of a set with one ready consumes one from it and returns its number; else it waits. An event above 1,023, or a mask form with imm no multiple of 64 or rb 0, faults with EVENT. esig in the software range signals and completes, and outside it faults with EVENT. emask returns the old mask word and sets the bits that rb names to those of ra; above word 15 it faults with EVENT. tset arms its timer with ra[47:0] or disarms it at 0. emask and tset fault with PRIV in user mode. trd gives the SEQ time copy in ns, or its short stamp. twait completes when that time has reached ra and else waits. lwait waits for its gallery's latch, and faults with PRIV in user mode on a gallery denied to it. The time copy is the model's of log entry 6. -/
def Obligations.KsisEventsAndTime : Prop :=
  (∀ (q : Seq) (b m e : Nat), readyEvent q b m = some e ↔
    (b ≤ e ∧ e < b + 64 ∧ bitOn m (e - b) = true ∧ maskOn q e = true ∧ 0 < q.pend.get e 0 ∧
      ∀ k, b ≤ k → k < e → ¬(bitOn m (k - b) = true ∧ maskOn q k = true ∧ 0 < q.pend.get k 0))) ∧
  (∀ (n : Fin 16) (d x y : BitVec 5) (fn : BitVec 9) (i : BitVec 32) (s : State), issuable s n.val →
    let q := seqOf s n.val
    let a := sreg q x.toNat
    let b := sreg q y.toNat
    let k := i.toNat
    let m := if fn = 0 then 1 else b.toNat
    let next : Seq := { q with pc := q.pc + 1 }
    let bad := 1023 < k ∨ (fn = 1 ∧ (k % 64 ≠ 0 ∨ b = 0))
    (bitOn q.features 7 = true → fn.toNat < 2 →
      (¬ bad → ∀ e, readyEvent q k m = some e → ∃ t p, exec (.ewait n d x y fn i) s = .next t ∧ p.get e 0 = q.pend.get e 0 - 1 ∧
        (∀ j, j ≠ e → p.get j 0 = q.pend.get j 0) ∧
        completes s t n.val (setSreg { next with wait := none, pend := p } d.toNat (BitVec.ofNat 64 e))) ∧
      (¬ bad → readyEvent q k m = none →
        exec (.ewait n d x y fn i) s = .next (setSeq s n.val { q with run := .waiting, wait := some (.event d.toNat k m) })) ∧
      (bad → ∃ t, exec (.ewait n d x y fn i) s = .next t ∧ faultsWith s t n.val 9 0)) ∧
    (bitOn q.features 7 = true → fn = 0 →
      let e := (BitVec.ofInt 64 (a.toInt + i.toInt)).toNat
      (768 ≤ e → e ≤ 1023 → ∃ t, exec (.esig n d x y fn i) s = .next t ∧
        completes (signal s e) t n.val { seqOf (signal s e) n.val with pc := q.pc + 1 }) ∧
      (e < 768 ∨ 1023 < e → ∃ t, exec (.esig n d x y fn i) s = .next t ∧ faultsWith s t n.val 9 0)) ∧
    (bitOn q.features 7 = true → fn = 0 → q.user = false →
      (k ≤ 15 → ∃ t w, exec (.emask n d x y fn i) s = .next t ∧ w.get k 0 = (q.mask.get k 0 &&& ~~~b) ||| (a &&& b) ∧
        (∀ j, j ≠ k → w.get j 0 = q.mask.get j 0) ∧ completes s t n.val (setSreg { next with mask := w } d.toNat (q.mask.get k 0))) ∧
      (15 < k → ∃ t, exec (.emask n d x y fn i) s = .next t ∧ faultsWith s t n.val 9 0)) ∧
    (bitOn q.features 7 = true → fn.toNat < 8 → q.user = false →
      ∃ t w, exec (.tset n d x y fn i) s = .next t ∧ completes s t n.val { next with timers := w } ∧
        w.find (fn.toNat % 4) = (if a.toNat % 2 ^ 48 = 0 then none else some { interval := a.toNat % 2 ^ 48, repeating := fn.getLsbD 2, since := seqCyc s }) ∧
        ∀ j, j ≠ fn.toNat % 4 → w.find j = q.timers.find j) ∧
    (bitOn q.features 7 = true → fn = 0 → q.user = true → ∀ c ∈ [Instr.emask n d x y fn i, .tset n d x y fn i],
      ∃ t, exec c s = .next t ∧ faultsWith s t n.val 3 0) ∧
    (bitOn q.features 11 = true →
      (fn = 0 → ∃ t, exec (.trd n d x y fn i) s = .next t ∧ completes s t n.val (setSreg next d.toNat (BitVec.ofNat 64 (seqNs s)))) ∧
      (fn = 1 → ∃ t, exec (.trd n d x y fn i) s = .next t ∧ completes s t n.val (setSreg next d.toNat (BitVec.ofNat 64 (seqNs s % 2 ^ 32)))) ∧
      (fn = 0 → a.toNat ≤ seqNs s → ∃ t, exec (.twait n d x y fn i) s = .next t ∧ completes s t n.val next) ∧
      (fn = 0 → seqNs s < a.toNat → exec (.twait n d x y fn i) s =
        .next { setSeq s n.val { q with run := .waiting, wait := some (.time a.toNat) } with free := s.free + 1 })) ∧
    (bitOn q.features 2 = true → fn = 0 →
      (q.user = false ∨ bitOn (rd s F.SEQ_CFG_USER_GAL n.val) (k % 8) = true →
        exec (.lwait n d x y fn i) s = .next (setSeq s n.val { q with run := .waiting, wait := some (.latch d.toNat (k % 8) (fabCyc s + 4)) })) ∧
      (q.user = true → bitOn (rd s F.SEQ_CFG_USER_GAL n.val) (k % 8) = false →
        ∃ t, exec (.lwait n d x y fn i) s = .next t ∧ faultsWith s t n.val 3 0)) ∧
    (bitOn q.features 7 = false → fn = 0 → ∀ c ∈ [Instr.ewait n d x y fn i, .esig n d x y fn i, .emask n d x y fn i, .tset n d x y fn i],
      ∃ t, exec c s = .next t ∧ faultsWith s t n.val 2 0) ∧
    (8 ≤ fn.toNat → ∀ c ∈ [Instr.ewait n d x y fn i, .esig n d x y fn i, .emask n d x y fn i, .tset n d x y fn i, .trd n d x y fn i,
      .twait n d x y fn i, .lwait n d x y fn i], ∃ t, exec c s = .next t ∧ faultsWith s t n.val 1 0))

/-- Where the gallery is not denied and not passive: an Easel operation waits while the Easel is BUSY, while a sequencer of a lower number waits with one, and while the seal engine's accesses wait (the model's choice, log entry 141), and else ends as its command does, with DONE, or REFUSED and the code. commit makes a commit pending with result 0, or gives 9 while one is; cancel drops it, or gives 13; cmtat at a time ahead with PTP locked makes it pending at that time. cset writes rb[31:3] to CMP_CNV_CFG with ENGINE kept, or rb to CMP_CNV_BG, with result 0. lset of a layer neither staged nor committed, with no commit pending, writes its 128 local bytes to the staging slot and stages what reads back valid; an invalid slot gives 1 and is not staged; an error of the write gives 16; while a commit is pending it gives 9 and writes nothing; estage stages what the slot holds; lshow and lhide copy the active slot with SHOW changed and stage it, and give 5 for a layer never committed. In user mode on a gallery denied, each of these that names one gives 33, and on a paired gallery of a standby 32, with no other effect (that 33 comes first is the model's choice, log entry 70). cmtat faults with VERSION in version 1. -/
def Obligations.KsisWallOperations : Prop :=
  (∀ (n : Fin 16) (d x y : BitVec 5) (i : BitVec 32) (s : State), issuable s n.val → bitOn (seqOf s n.val).features 2 = true →
    let q := seqOf s n.val
    let a := sreg q x.toNat
    let b := sreg q y.toNat
    let g := i.toNat % 8
    let c := a.toNat % 32
    let cg := rd s F.CNV_CTRL_GALLERY c
    let la := a.toNat % 1024
    let passive := rd s F.TND_STATUS_STATE = 2 ∨ rd s F.TND_STATUS_STATE = 3
    let denied := fun h => q.user = true ∧ bitOn (rd s F.SEQ_CFG_USER_GAL n.val) h = false
    let free := fun h => ¬ denied h ∧ ¬(passive ∧ paired s h = true)
    let ends := fun (e : Instr) (u : State) (r : Seq) (code : Nat) => ∃ t, exec e s = .next t ∧
      completes u t n.val (setSreg { r with pc := r.pc + 1 } d.toNat (BitVec.ofNat 64 code))
    let gives := fun (e : Instr) (u : State) (code : Nat) => ends e u q code
    let eased := fun (e : Instr) (u : State) (code : Nat) => ends e u { q with easWait := false } code
    let done := fun (e : Instr) (u : State) => eased e u 0 ∧ rd u F.EAS_STATUS_DONE = 1
    let refuses := fun (e : Instr) (code : Nat) (mem : List Host.Cell) => ∃ u, eased e u code ∧ rd u F.EAS_STATUS_REFUSED = 1 ∧
      rd u F.EAS_STATUS_CODE = code ∧ u.eas = s.eas ∧ u.mem = mem
    let ready := rd s F.EAS_STATUS_BUSY = 0 ∧ (∀ m, m < n.val → (seqOf s m).easWait = false) ∧ accessWaits s 51 = false
    let waits := fun (e : Instr) => exec e s = .next (setSeq s n.val { q with easWait := true })
    let so := wr0 s F.EAS_STATUS_OP 12
    (free g → rd s F.EAS_STATUS_BUSY = 1 ∨ (∃ m, m < n.val ∧ (seqOf s m).easWait = true) ∨ accessWaits s 51 = true →
      waits (.ksisCommit n d x y 0 i) ∧ waits (.ksisCancel n d x y 1 i) ∧
      (bitOn q.features 3 = true → q.version ≠ 1 → waits (.cmtat n d x y 0 i))) ∧
    (free g → ready →
      (pendingIn s g = true → refuses (.ksisCommit n d x y 0 i) 9 s.mem) ∧
      (pendingIn s g = false → ∃ u, done (.ksisCommit n d x y 0 i) u ∧ galOf u g = { galOf s g with pend := some { at? := none, since := s.time.cyc } } ∧
        (∀ h, h ≠ g → galOf u h = galOf s h) ∧ u.eas.layers = s.eas.layers ∧ u.mem = s.mem) ∧
      (pendingIn s g = false → refuses (.ksisCancel n d x y 1 i) 13 s.mem) ∧
      (pendingIn s g = true → ∃ u, done (.ksisCancel n d x y 1 i) u ∧ galOf u g = { galOf s g with pend := none } ∧
        rd u F.EAS_GAL_EVENT_CANCELLED g = 1 ∧ u.eas.layers = s.eas.layers ∧ u.mem = s.mem) ∧
      (bitOn q.features 3 = true → q.version ≠ 1 → pendingIn s g = false → rd s F.PTP_STATE_LOCKED = 1 → a.toNat ≤ fabNs s + 60000000000 →
        pastWindow s g (((a.toNat : Int) - fabNs s) * 1000) = true → ∃ u, done (.cmtat n d x y 0 i) u ∧
        galOf u g = { galOf s g with pend := some { at? := some a.toNat, since := s.time.cyc } } ∧ u.eas.layers = s.eas.layers ∧ u.mem = s.mem)) ∧
    (denied g → gives (.ksisCommit n d x y 0 i) s 33 ∧ gives (.ksisCancel n d x y 1 i) s 33) ∧
    (¬ denied g → passive → paired s g = true → gives (.ksisCommit n d x y 0 i) s 32 ∧ gives (.ksisCancel n d x y 1 i) s 32) ∧
    (denied cg → gives (.csetCfg n d x y 0 i) s 33 ∧ gives (.csetBg n d x y 1 i) s 33) ∧
    (bitOn q.features 3 = false ∨ q.version = 1 → ∃ t, exec (.cmtat n d x y 0 i) s = .next t ∧ faultsWith s t n.val 2 0) ∧
    (free cg →
      (∃ u, gives (.csetCfg n d x y 0 i) u 0 ∧ rd u F.CMP_CNV_CFG_ENGINE c = rd s F.CMP_CNV_CFG_ENGINE c ∧
        rd u F.CMP_CNV_CFG_TRANSFER c = slice b.toNat 12 4 ∧ rd u F.CMP_CNV_CFG_PLANES_EN c = slice b.toNat 16 1 ∧
        rd u F.CMP_CNV_CFG_WB_EN c = slice b.toNat 17 1 ∧ rd u F.CMP_CNV_CFG_OUT_YCC c = slice b.toNat 8 1 ∧
        sameRegsBut s u [R.CMP_CNV_CFG.addr c 0] ∧ (∀ k, k ≠ c → cnvOf u k = cnvOf s k) ∧ u = { s with regs := u.regs, cmp := u.cmp }) ∧
      (∃ u, gives (.csetBg n d x y 1 i) u 0 ∧ rd u F.CMP_CNV_BG_R c = slice b.toNat 0 12 ∧ rd u F.CMP_CNV_BG_G c = slice b.toNat 16 12 ∧
        rd u F.CMP_CNV_BG_B c = slice b.toNat 32 12 ∧ sameRegsBut s u [R.CMP_CNV_BG.addr c 0] ∧ (∀ k, k ≠ c → cnvOf u k = cnvOf s k) ∧ u = { s with regs := u.regs, cmp := u.cmp })) ∧
    (q.user = false → ¬ passive → ready →
      let lb := b.toNat % 1024
      let at_ := (BitVec.ofInt 64 (a.toInt + i.toInt)).toNat
      let bytes := Memory.readBytes q.dmem at_ 128
      let g0 := rd s F.CNV_CTRL_GALLERY (leAt bytes 2 1 % 32)
      let w := busWrite so 51 (stagingSlot s lb) bytes
      let r := busRead w.1 51 (stagingSlot w.1 lb) 128
      let e := parseSlot r.2.2
      (at_ % 8 = 0 → at_ + 127 ≤ 393215 → (layOf s lb).staged = none → pendingIn s g0 = true → refuses (.lset n d x y 0 i) 9 s.mem) ∧
      (at_ % 8 = 0 → at_ + 127 ≤ 393215 → (layOf s lb).staged = none → (layOf s lb).committed = false → (∀ h, pendingIn s h = false) →
        (w.2 ≠ 0 → refuses (.lset n d x y 0 i) 16 w.1.mem) ∧
        (∀ k, w.2 = 0 → r.2.1 = 0 → slotBad r.2.2 (rd r.1 F.CMP_CNV_CFG_TRANSFER e.canvas) (othersShown r.1 (rd s F.CNV_CTRL_GALLERY e.canvas) e.canvas lb) = some k →
          ∃ u, eased (.lset n d x y 0 i) u 1 ∧ rd u F.EAS_STATUS_REFUSED = 1 ∧ rd u F.EAS_STATUS_CODE = 1 ∧ rd u F.EAS_STATUS_FIELD = k ∧
            (layOf u lb).staged = none ∧ u.mem = w.1.mem) ∧
        (w.2 = 0 → r.2.1 = 0 → slotBad r.2.2 (rd r.1 F.CMP_CNV_CFG_TRANSFER e.canvas) (othersShown r.1 (rd s F.CNV_CTRL_GALLERY e.canvas) e.canvas lb) = none →
          ∃ u, done (.lset n d x y 0 i) u ∧ (layOf u lb).staged = some (rd s F.CNV_CTRL_GALLERY e.canvas) ∧ (layOf u lb).stagedDesc = e ∧
            (∀ k, k ≠ lb → layOf u k = layOf s k) ∧ u.mem = w.1.mem)) ∧
      (at_ % 8 ≠ 0 → ∃ t, exec (.lset n d x y 0 i) s = .next t ∧ faultsWith s t n.val 4 at_)) ∧
    (q.user = false → ¬ passive → ready →
      let r := busRead so 51 (stagingSlot s la) 128
      let e := parseSlot r.2.2
      (layOf s la).staged = none → (layOf s la).committed = false → (∀ h, pendingIn s h = false) →
      refuses (.lshow n d x y 0 i) 5 s.mem ∧ refuses (.lhide n d x y 0 i) 5 s.mem ∧
      (r.2.1 = 0 → slotBad r.2.2 (rd r.1 F.CMP_CNV_CFG_TRANSFER e.canvas) (othersShown r.1 (rd s F.CNV_CTRL_GALLERY e.canvas) e.canvas la) = none →
        ∃ u, done (.estage n d x y 0 i) u ∧ (layOf u la).staged = some (rd s F.CNV_CTRL_GALLERY e.canvas) ∧ (layOf u la).stagedDesc = e ∧
          (∀ k, k ≠ la → layOf u k = layOf s k) ∧ u.mem = s.mem)) ∧
    (q.user = false → ¬ passive → ready → (layOf s la).committed = true → (layOf s la).staged = none → (∀ h, pendingIn s h = false) →
      (layOf s la).gallery = rd s F.CNV_CTRL_GALLERY (layOf s la).desc.canvas → ∀ on : Bool,
      let r := busRead so 51 (activeSlot s la) 128
      let f := leAt r.2.2 1 1
      let w := busWrite r.1 51 (stagingSlot r.1 la) (patchBytes r.2.2 1 [BitVec.ofNat 8 (f - f % 2 + bit on)])
      let v := busRead w.1 51 (stagingSlot w.1 la) 128
      let e := parseSlot v.2.2
      r.2.1 = 0 → w.2 = 0 → v.2.1 = 0 → rd s F.CNV_CTRL_GALLERY e.canvas = (layOf s la).gallery →
      slotBad v.2.2 (rd v.1 F.CMP_CNV_CFG_TRANSFER e.canvas) (othersShown v.1 (layOf s la).gallery e.canvas la) = none →
      (on = true → ∃ u, done (.lshow n d x y 0 i) u ∧ (layOf u la).staged = some (layOf s la).gallery ∧ (layOf u la).stagedDesc = e ∧ u.mem = w.1.mem) ∧
      (on = false → ∃ u, done (.lhide n d x y 0 i) u ∧ (layOf u la).staged = some (layOf s la).gallery ∧ (layOf u la).stagedDesc = e ∧ u.mem = w.1.mem)))

/-- dlset overrides the deadline of a committed shown layer that is not static, in range: result 0; out of range 1 and otherwise 5, with SET_REFUSED (log entry 70) and no layer changed; 33 for user mode on a denied gallery. vread gives LDG_LAYER_STATUS. pinj gives 0 for a proof accepted, else its REFUSE code. An Easel operation waits while the Easel is BUSY, a sequencer of a lower number waits with one, or the seal engine's accesses wait (log entry 141), and ends with DONE, or REFUSED and its code. lease and release add or drop one lease and give the new count; a bound descriptor neither CURRENT nor SUPERSEDED, or without a software lease, gives 5, and a full lease count 12. free frees a host-owned FILLING or an unheld SUPERSEDED buffer, defers a held one, and gives 5 for FREE, CURRENT or RETIRING. thit gives the layer hit, its source and the local point, or 0. japp presents its 48 bytes as a PROGRAM entry, or gives 5 with the Journal off; a misaligned address faults with ALIGN. ckrun writes CHK_SRC and CHK_LEN and starts the unit: 0, or the REFUSE code, with REFUSED; a busy unit gives 5. pinj, free, japp and ckrun fault with PRIV in user mode; pinj, japp and ckrun with VERSION in version 1. -/
def Obligations.KsisFreshnessEaselAndTouch : Prop :=
  (∀ (n : Fin 16) (d x y : BitVec 5) (fn : BitVec 9) (i : BitVec 32) (s : State), issuable s n.val →
    let q := seqOf s n.val
    let a := sreg q x.toNat
    let b := sreg q y.toNat
    let l := a.toNat % 1024
    let e := a.toNat % 8192
    let at_ := (BitVec.ofInt 64 (a.toInt + i.toInt)).toNat
    let u := i.toNat % 16
    let gives := fun (c : Instr) (v : State) (code result : Nat) => ∃ t, exec c s = .next t ∧
      completes v t n.val (setSreg { q with pc := q.pc + 1 } d.toNat (BitVec.ofNat 64 (code + 2 ^ 32 * (result % 2 ^ 32))))
    let eased := fun (c : Instr) (v : State) (code result : Nat) => ∃ t, exec c s = .next t ∧
      completes v t n.val (setSreg { q with pc := q.pc + 1, easWait := false } d.toNat (BitVec.ofNat 64 (code + 2 ^ 32 * (result % 2 ^ 32))))
    let ends := fun (c : Instr) (v : State) (result : Nat) => eased c v 0 result ∧ rd v F.EAS_STATUS_DONE = 1
    let waits := fun (c : Instr) => exec c s = .next (setSeq s n.val { q with easWait := true })
    let refuses := fun (c : Instr) (code : Nat) => ∃ v, eased c v code 0 ∧ rd v F.EAS_STATUS_REFUSED = 1 ∧ rd v F.EAS_STATUS_CODE = code ∧
      v.eas = s.eas ∧ v.mem = s.mem
    (bitOn q.features 4 = true → fn = 0 →
      (let dl := slice i.toNat 0 11
       let warn := slice i.toNat 11 7
       let denied := q.user = true ∧ bitOn (rd s F.SEQ_CFG_USER_GAL n.val) (rd s F.CNV_CTRL_GALLERY (layOf s l).desc.canvas) = false
       let shown := (layOf s l).committed = true ∧ (layOf s l).desc.shown = true ∧ (layOf s l).desc.static = false
       let fits := 1 ≤ dl ∧ dl ≤ 2000 ∧ warn ≤ 100
       (denied → gives (.dlset n d x y fn i) s 33 0) ∧
       (¬ denied → shown → fits → ∃ v, gives (.dlset n d x y fn i) v 0 0 ∧ v = { s with eas := v.eas } ∧
         layOf v l = { layOf s l with override := some (dl, warn) } ∧ (∀ k, k ≠ l → layOf v k = layOf s k) ∧ v.eas.gals = s.eas.gals ∧
         v.eas.descs = s.eas.descs) ∧
       (¬ denied → ¬ fits → ∃ v, gives (.dlset n d x y fn i) v 1 0 ∧ rd v F.LDG_EVENT_SET_REFUSED = 1 ∧ v.eas = s.eas ∧ v.mem = s.mem) ∧
       (¬ denied → fits → ¬ shown → ∃ v, gives (.dlset n d x y fn i) v 5 0 ∧ rd v F.LDG_EVENT_SET_REFUSED = 1 ∧ v.eas = s.eas ∧ v.mem = s.mem)) ∧
      (∃ t, exec (.vread n d x y fn i) s = .next t ∧
        completes s t n.val (setSreg { q with pc := q.pc + 1 } d.toNat (BitVec.ofNat 64 (layerStatus s l))))) ∧
    (bitOn q.features 5 = true → fn.toNat < 4 → q.version ≠ 1 → q.user = false →
      let c := proofRefusal s l fn.toNat (i.toNat % 256)
      (c ≠ 0 → ∃ v, gives (.pinj n d x y fn i) v c 0 ∧ rd v F.LDG_PROOF_STATUS_REFUSE = c ∧ rd v F.LDG_EVENT_PROOF_REFUSED = 1 ∧
        v.cmp.proof = s.cmp.proof ∧ v.eas = s.eas) ∧
      (c = 0 → ∃ v, gives (.pinj n d x y fn i) v 0 0 ∧ rd v F.LDG_PROOF_STATUS_BUSY = 1 ∧
        v.cmp.proof = some { layer := l, kind := fn.toNat, row := i.toNat % 256 } ∧ v.eas = s.eas ∧ v.jnl.asked.length = s.jnl.asked.length + 1)) ∧
    (bitOn q.features 6 = true → fn = 0 → rd s F.EAS_STATUS_BUSY = 1 ∨ (∃ m, m < n.val ∧ (seqOf s m).easWait = true) ∨ accessWaits s 51 = true →
      waits (.ksisLease n d x y fn i) ∧ waits (.ksisRelease n d x y fn i) ∧ (q.user = false → waits (.ksisFree n d x y fn i))) ∧
    (bitOn q.features 6 = true → fn = 0 → rd s F.EAS_STATUS_BUSY = 0 → (∀ m, m < n.val → (seqOf s m).easWait = false) → accessWaits s 51 = false →
      let z := descOf s e
      let on := z.bound = true ∧ (z.st = .current ∨ z.st = .superseded)
      (on → z.leases < 4095 → ∃ v, ends (.ksisLease n d x y fn i) v (z.leases + 1) ∧
        descOf v e = { z with leases := z.leases + 1, soft := z.soft + 1 } ∧ (∀ k, k ≠ e → descOf v k = descOf s k) ∧ v.mem = s.mem) ∧
      (on → 4095 ≤ z.leases → refuses (.ksisLease n d x y fn i) 12) ∧
      (¬ on → refuses (.ksisLease n d x y fn i) 5) ∧
      (z.bound = true → 0 < z.soft → 1 < z.leases → z.soft ≤ z.leases → ∃ v, ends (.ksisRelease n d x y fn i) v (z.leases - 1) ∧
        (descOf v e).leases = z.leases - 1 ∧ (descOf v e).soft = z.soft - 1 ∧ (descOf v e).base = z.base ∧ (∀ k, k ≠ e → descOf v k = descOf s k) ∧ v.mem = s.mem) ∧
      (z.bound = false ∨ z.soft = 0 → refuses (.ksisRelease n d x y fn i) 5) ∧
      (q.user = false → z.bound = true → z.st = .superseded → heldBuf z = true → ∃ v, ends (.ksisFree n d x y fn i) v 0 ∧
        descOf v e = { z with st := .retiring } ∧ rd v F.EAS_EVENT_FREE_DEFERRED = 1 ∧ (∀ k, k ≠ e → descOf v k = descOf s k) ∧ v.mem = s.mem) ∧
      (q.user = false → z.bound = true → ((z.st = .filling ∧ z.ownerHost = true) ∨ (z.st = .superseded ∧ heldBuf z = false)) → ∃ v, ends (.ksisFree n d x y fn i) v 0 ∧ (descOf v e).st = .free ∧
        (descOf v e).bound = true ∧ (∀ k, k ≠ e → descOf v k = descOf s k) ∧ v.mem = s.mem) ∧
      (q.user = false → (z.bound = false ∨ z.st = .free ∨ z.st = .current ∨ z.st = .retiring) → refuses (.ksisFree n d x y fn i) 5) ∧
      (q.user = true → ∃ t, exec (.ksisFree n d x y fn i) s = .next t ∧ faultsWith s t n.val 3 0)) ∧
    (bitOn q.features 8 = true → fn = 0 →
      let px := slice b.toNat 0 16
      let py := slice b.toNat 16 16
      let cnv := a.toNat % 32
      ((∀ h ∈ hitLayers s cnv, inRegion s cnv h.2 px py = false) →
        ∃ t, exec (.thit n d x y fn i) s = .next t ∧ completes s t n.val (setSreg { q with pc := q.pc + 1 } d.toNat 0)) ∧
      (∀ k top h rest, hitLayers s cnv = top ++ (k, h) :: rest → (∀ w ∈ top, inRegion s cnv w.2 px py = false) → inRegion s cnv h px py = true →
        ∃ t, exec (.thit n d x y fn i) s = .next t ∧ completes s t n.val (setSreg { q with pc := q.pc + 1 } d.toNat
          (BitVec.ofNat 64 (k + 2 ^ 10 + 2 ^ 12 * (h.source % 4096) + 2 ^ 24 * unsignedOf 16 (px - h.dstX) + 2 ^ 40 * unsignedOf 16 (py - h.dstY)))))) ∧
    (bitOn q.features 9 = true → fn.toNat < 256 → q.version ≠ 1 → q.user = false →
      (at_ % 8 = 0 → at_ + 45 ≤ 393215 → rd s F.JNL_CTRL_EN = 1 →
        gives (.japp n d x y fn i) (askJournal s (rankSeq n.val) 0x0041 (BitVec.ofNat 8 n.val :: BitVec.ofNat 8 fn.toNat :: Memory.readBytes q.dmem at_ 46)) 0 0) ∧
      (at_ % 8 = 0 → at_ + 45 ≤ 393215 → rd s F.JNL_CTRL_EN = 0 → gives (.japp n d x y fn i) s 5 0) ∧
      (at_ % 8 ≠ 0 → ∃ t, exec (.japp n d x y fn i) s = .next t ∧ faultsWith s t n.val 4 at_)) ∧
    (bitOn q.features 10 = true → fn = 0 → q.version ≠ 1 → q.user = false →
      (rd s F.CHK_STATUS_BUSY u = 1 → ∃ v, gives (.ckrun n d x y fn i) v 5 0 ∧ rd v F.CHK_STATUS_REFUSED u = 1 ∧ rd v F.CHK_STATUS_REFUSE_CODE u = 5 ∧ v.chk = s.chk ∧ rd v F.CHK_SRC_ADDR u = rd s F.CHK_SRC_ADDR u) ∧
      (rd s F.CHK_STATUS_BUSY u = 0 →
        let w := wr (wr s F.CHK_SRC_ADDR u 0 (a.toNat % 2 ^ 40)) F.CHK_LEN_LEN u 0 (b.toNat % 2 ^ 32)
        (chkCause w u = 0 → ∃ v, gives (.ckrun n d x y fn i) v 0 0 ∧ rd v F.CHK_STATUS_BUSY u = 1 ∧ rd v F.CHK_SRC_ADDR u = a.toNat % 2 ^ 40 ∧
          rd v F.CHK_LEN_LEN u = b.toNat % 2 ^ 32 ∧ v.chk.find u = some {} ∧ v.mem = s.mem) ∧
        (chkCause w u ≠ 0 → ∃ v, gives (.ckrun n d x y fn i) v (chkCause w u) 0 ∧ rd v F.CHK_STATUS_REFUSED u = 1 ∧ rd v F.CHK_STATUS_BUSY u = 0 ∧ v.chk = s.chk))) ∧
    (fn = 0 → q.user = true → bitOn q.features 5 = true → bitOn q.features 9 = true → bitOn q.features 10 = true → q.version ≠ 1 →
      ∀ c ∈ [Instr.pinj n d x y fn i, .japp n d x y fn i, .ckrun n d x y fn i], ∃ t, exec c s = .next t ∧ faultsWith s t n.val 3 0) ∧
    (fn = 0 → q.version = 1 → ∀ c ∈ [Instr.pinj n d x y fn i, .japp n d x y fn i, .ckrun n d x y fn i],
      ∃ t, exec c s = .next t ∧ faultsWith s t n.val 2 0))

/-- The scan code of order 16 is Sylvester's matrix. A scan of a scanning port starts once a report period of RATE has passed, and sets RATE by contacts and idle time; else nothing happens. Its end, after 36 chips, gives every node its value, the sum over its group's chips. With a test waiting that test starts. The first scan sets every baseline to the values and reports nothing. A later scan leaves contact IDs distinct and below 10; with no node at the threshold its contacts end with a CONTACT report (UP, log entry 67), and without contacts it reports nothing. A remote report writes 192 bytes at its record: count, input, number of entries, CONTACT, stamp, epoch, and the count again, advances the count and owes an event. The event owed that is due first is signalled once its cycle has come, as 120 or 128 plus the input. A self-test on a disabled or testing port raises CFG_REFUSED; else contacts end with a report, and it starts at once or, during a scan, waits for its end (log entry 68). After 60 steps its end gives the open and shorted lines, TEST_DONE, TEST_FAIL where a bit is set, and new baselines. A configuration write of a port that R479 refuses changes nothing but CFG_REFUSED and its count; the others of TCH_SCAN, TCH_THRESH, TCH_HOLD, TCH_WAKE and TCH_ROUTE are taken, and enabling a port asks for new baselines. In Still a port armed for wake first takes its wake baseline; then every 31.25 ms it tracks it where there is no touch-in, notes touch-ins, and at two of them 5 to 16 scans apart fires its wake source: held once power is going off, and an abort of the Still entry before that. -/
def Obligations.TouchScansAndContacts : Prop :=
  (walsh 0 0 = 1 ∧ ∀ k j : Nat, k < 8 → j < 8 → walsh (2 * k) (2 * j) = walsh k j ∧ walsh (2 * k) (2 * j + 1) = walsh k j ∧
    walsh (2 * k + 1) (2 * j) = walsh k j ∧ walsh (2 * k + 1) (2 * j + 1) = -walsh k j) ∧
  (∀ (i : Fin 2) (s : State),
    let x := tchOf s i.val
    let scans := rd s F.TCH_CTRL_EN i = 1 ∧ rd s F.TCH_STATUS_TESTING i = 0 ∧ s.pwr.still = 0
    let idle := s.time.cyc - x.idleFrom
    let period := match rd s F.TCH_STATUS_RATE i with | 0 => 5000000 | 1 => 20000000 | _ => 80000000
    let due := ∀ w, x.since = some w → w + period ≤ seqCyc s
    (scans → x.scanning = false → due → ∃ t, exec (.touchScanStart i) s = .next t ∧ (tchOf t i.val).scanning = true ∧ (tchOf t i.val).since = some (seqCyc s) ∧
      (tchOf t i.val).chip = rd s F.TCH_SCAN_CHIP_US i ∧
      rd t F.TCH_STATUS_RATE i = (if x.contacts ≠ [] ∨ idle < rd s F.TCH_SCAN_IDLE1_S i * 625000000 then 0
        else if idle < rd s F.TCH_SCAN_IDLE2_S i * 625000000 then 1 else 2) ∧
      sameRegsBut s t [R.TCH_STATUS.addr i 0] ∧ t = { s with regs := t.regs, tch := t.tch }) ∧
    (¬ scans ∨ x.scanning = true ∨ ¬ due → exec (.touchScanStart i) s = .next s)) ∧
  (∀ (i : Fin 2) (counts : List (BitVec 16)) (s : State),
    let x := tchOf s i.val
    let scans := rd s F.TCH_CTRL_EN i = 1 ∧ rd s F.TCH_STATUS_TESTING i = 0 ∧ s.pwr.still = 0
    let past := ∀ w, x.since = some w → w + 36 * (x.chip + 1) * 1200 ≤ seqCyc s
    (¬ scans ∨ x.scanning = false ∨ ¬ past → exec (.touchScanEnd i counts) s = .next s) ∧
    (scans → x.scanning = true → past → ∃ t, exec (.touchScanEnd i counts) s = .next t ∧ (tchOf t i.val).scanning = false ∧ t.mem = s.mem ∧ t.eas = s.eas ∧
      (∀ d l, d < 36 → l < 24 → (tchOf t i.val).vals.get (24 * d + l) 0 =
        if d < 32 then ((upto 16).map fun j => walsh (d % 16) j * (counts.getD ((16 * (d / 16) + j) * 24 + l) 0).toNat).sum
        else ((upto 4).map fun j => walsh (d % 16) j * (counts.getD ((32 + j) * 24 + l) 0).toNat).sum) ∧
      (x.testPend = true → rd t F.TCH_STATUS_TESTING i = 1 ∧ (tchOf t i.val).testPend = false ∧ t.seqs = s.seqs) ∧
      (x.testPend = false → x.fresh = true → (∀ n, n < 864 → (tchOf t i.val).base.get n 0 = (tchOf t i.val).vals.get n 0) ∧
        (tchOf t i.val).contacts = [] ∧ (tchOf t i.val).fresh = false ∧ rd t F.TCH_STATUS_CONTACTS i = 0 ∧ t.seqs = s.seqs ∧
        (tchOf t i.val).due = x.due) ∧
      (x.testPend = false → x.fresh = false → (∀ n, n < 864 → x.base.get n 0 - (tchOf t i.val).vals.get n 0 < rd s F.TCH_THRESH_TOUCH_THRESH i) →
        (tchOf t i.val).contacts = [] ∧ rd t F.TCH_STATUS_CONTACTS i = 0 ∧
        (x.contacts = [] → t.seqs = s.seqs ∧ (tchOf t i.val).report = x.report ∧ (tchOf t i.val).due = x.due) ∧
        (x.contacts ≠ [] → (tchOf t i.val).report = (x.report + 1) % 2 ^ 32 ∧
          (tchOf t i.val).due = x.due ++ [(seqCyc s + 2256 + 64 * min 10 x.contacts.length, true)])) ∧
      ((x.contacts.map (·.id)).Nodup → (∀ c ∈ x.contacts, c.id < 10) →
        ((tchOf t i.val).contacts.map (·.id)).Nodup ∧ ∀ c ∈ (tchOf t i.val).contacts, c.id < 10))) ∧
  (∀ (p : Fin 4) (l : List Byte) (s : State),
    let k := leAt l 4 1
    let n := 2 + p.val
    let q := rd s F.TCH_ROUTE_SEQ n
    let at_ := rd s F.TCH_ROUTE_REC n * 8
    (rd s F.LNK_STATUS_STATE p = 5 → bitOn (rd s F.LNK_NEG_ON p) 2 = true → 1 ≤ k → k ≤ 10 → 12 + 8 * k ≤ l.length →
      ∃ t body, exec (.touchRemoteReportRx p l) s = .next t ∧ body.length = 192 ∧
        seqOf t q = { seqOf s q with dmem := Memory.writeBytes (seqOf s q).dmem at_ body } ∧ (∀ m, m ≠ q → seqOf t m = seqOf s m) ∧
        leAt body 0 4 = (tchOf s n).report % 2 ^ 32 ∧ leAt body 4 1 = n ∧ leAt body 5 1 = k ∧ leAt body 176 4 = leAt body 0 4 ∧
        leAt body 8 4 = leAt l 8 4 ∧
        leAt body 12 4 = (galOf s (rd s F.CNV_CTRL_GALLERY (rd s F.TCH_ROUTE_CANVAS n))).hitEpoch % 2 ^ 32 ∧ (tchOf t n).report = ((tchOf s n).report + 1) % 2 ^ 32 ∧
        leAt body 6 1 ≤ 1 ∧ (leAt body 6 1 = 1 ↔ ∃ j, j < k ∧ slice (leAt l (12 + 8 * j) 1) 4 3 ∈ [1, 4, 5]) ∧
        (tchOf t n).due = (tchOf s n).due ++ [(seqCyc s + 400 + 64 * k, decide (leAt body 6 1 = 1))] ∧
        (k = 1 → leAt body 16 1 = leAt l 12 1 % 128 ∧ leAt body 17 1 % 32 = rd s F.TCH_ROUTE_CANVAS n) ∧
        t = { s with seqs := t.seqs, tch := t.tch, regs := t.regs }) ∧
    (bitOn (rd s F.LNK_NEG_ON p) 2 = false ∨ k = 0 ∨ 10 < k → exec (.touchRemoteReportRx p l) s = .next s)) ∧
  (∀ (i : Fin 6) (s : State),
    let l := (tchOf s i.val).due
    (l = [] → exec (.touchReportEvent i) s = .next s) ∧
    (∀ w c, (w, c) ∈ l → (∀ e ∈ l, w ≤ e.1) → seqCyc s < w → exec (.touchReportEvent i) s = .next s) ∧
    (∀ w c front rest, l = front ++ (w, c) :: rest → (∀ e ∈ front, w < e.1) → (∀ e ∈ rest, w ≤ e.1) → w ≤ seqCyc s →
      ∃ u, exec (.touchReportEvent i) s = .next (signal u ((if c then 120 else 128) + i.val)) ∧
        (tchOf u i.val).due = front ++ rest ∧ u = { s with tch := u.tch } ∧ ∀ m, m ≠ i.val → tchOf u m = tchOf s m)) ∧
  (∀ (i : Fin 2) (s : State),
    let x := tchOf s i.val
    (rd s F.TCH_CTRL_EN i = 0 ∨ rd s F.TCH_STATUS_TESTING i = 1 ∨ x.testPend = true → ∃ t, exec (.touchTestStart i) s = .next t ∧
      rd t F.TCH_EVENT_CFG_REFUSED i = 1 ∧ t.tch = s.tch ∧ t.seqs = s.seqs ∧ rd t F.TCH_STATUS_TESTING i = rd s F.TCH_STATUS_TESTING i) ∧
    (rd s F.TCH_CTRL_EN i = 1 → rd s F.TCH_STATUS_TESTING i = 0 → x.testPend = false → ∃ t, exec (.touchTestStart i) s = .next t ∧
      (tchOf t i.val).contacts = [] ∧ rd t F.TCH_STATUS_CONTACTS i = 0 ∧
      (x.scanning = true → (tchOf t i.val).testPend = true ∧ rd t F.TCH_STATUS_TESTING i = 0) ∧
      (x.scanning = false → rd t F.TCH_STATUS_TESTING i = 1) ∧
      (x.contacts = [] → (tchOf t i.val).report = x.report ∧ (tchOf t i.val).due = x.due) ∧
      (x.contacts ≠ [] → (tchOf t i.val).report = (x.report + 1) % 2 ^ 32 ∧ (tchOf t i.val).due = x.due ++ [(seqCyc s + 2256 + 64 * min 10 x.contacts.length, true)]))) ∧
  (∀ (i : Fin 2) (coupled stray : List (BitVec 16)) (s : State), 
    (rd s F.TCH_STATUS_TESTING i = 0 ∨ (∃ w, (tchOf s i.val).since = some w ∧ seqCyc s < w + 60 * 1200000) → exec (.touchTestDone i coupled stray) s = .next s) ∧
    (rd s F.TCH_STATUS_TESTING i = 1 → (∀ w, (tchOf s i.val).since = some w → w + 60 * 1200000 ≤ seqCyc s) → ∃ t, exec (.touchTestDone i coupled stray) s = .next t ∧
    (∀ k, k < 60 → (bitOn (rdReg t R.TCH_TEST_OPEN i) k = decide ((coupled.getD k 0).toNat < rd s F.TCH_TEST_LIMITS_TEST_OPEN_MIN i)) ∧
      bitOn (rdReg t R.TCH_TEST_SHORT i) k = decide (rd s F.TCH_TEST_LIMITS_TEST_SHORT_MAX i < (stray.getD k 0).toNat)) ∧
    rd t F.TCH_STATUS_TESTING i = 0 ∧ (tchOf t i.val).fresh = true ∧ rd t F.TCH_EVENT_TEST_DONE i = 1 ∧
    (rdReg t R.TCH_TEST_OPEN i ≠ 0 ∨ rdReg t R.TCH_TEST_SHORT i ≠ 0 → rd t F.TCH_EVENT_TEST_FAIL i = 1) ∧
    (rdReg t R.TCH_TEST_OPEN i = 0 → rdReg t R.TCH_TEST_SHORT i = 0 → rd t F.TCH_EVENT_TEST_FAIL i = rd s F.TCH_EVENT_TEST_FAIL i) ∧
    t.seqs = s.seqs ∧ t.mem = s.mem)) ∧
  (∀ (p : Fin 2) (v : BitVec 32) (s : State),
    let rules := fun (r : Reg) (bad : Prop) (took : State → Prop) => ∃ t, exec (.touchConfigWrite (BitVec.ofNat 26 (r.addr p 0)) v) s = .next t ∧
      (bad → rd t F.TCH_EVENT_CFG_REFUSED p = 1 ∧ t = { s with regs := t.regs, fab := t.fab } ∧
        sameRegsBut s t [R.TCH_EVENT.addr p 0, R.TCH_EVENT_CNT.addr p 0]) ∧
      (¬ bad → took t ∧ t = { s with regs := t.regs } ∧ sameRegsBut s t [r.addr p 0])
    let w := v.toNat
    (1 ≤ slice w 7 8 → rules R.TCH_SCAN (slice w 0 7 < 2 ∨ 64 < slice w 0 7 ∨ slice w 15 16 < slice w 7 8) fun t =>
      rd t F.TCH_SCAN_CHIP_US p = slice w 0 7 ∧ rd t F.TCH_SCAN_IDLE1_S p = slice w 7 8 ∧ rd t F.TCH_SCAN_IDLE2_S p = slice w 15 16) ∧
    rules R.TCH_THRESH (slice w 0 16 ≤ slice w 16 16)
      (fun t => rd t F.TCH_THRESH_TOUCH_THRESH p = slice w 0 16 ∧ rd t F.TCH_THRESH_RELEASE_THRESH p = slice w 16 16) ∧
    rules R.TCH_HOLD (slice w 0 10 < 5 ∨ 600 < slice w 0 10) (fun t => rd t F.TCH_HOLD_T_HOLD_S p = slice w 0 10) ∧
    rules R.TCH_WAKE (slice w 1 6 < 1 ∨ 36 < slice w 1 6)
      (fun t => rd t F.TCH_WAKE_EN p = slice w 0 1 ∧ rd t F.TCH_WAKE_GROUP p = slice w 1 6 ∧ rd t F.TCH_WAKE_WAKE_THRESH p = slice w 7 16) ∧
    rules R.TCH_ROUTE (393215 < slice w 9 16 * 8 + 191)
      (fun t => rd t F.TCH_ROUTE_CANVAS p = slice w 0 5 ∧ rd t F.TCH_ROUTE_SEQ p = slice w 5 4 ∧ rd t F.TCH_ROUTE_REC p = slice w 9 16) ∧
    (∃ t, exec (.touchConfigWrite (BitVec.ofNat 26 (R.TCH_CTRL.addr p 0)) v) s = .next t ∧ rd t F.TCH_CTRL_EN p = w % 2 ∧
      (w % 2 = 1 → rd s F.TCH_CTRL_EN p = 0 → (tchOf t p.val).fresh = true))) ∧
  (∀ (i : Fin 2) (counts : List (BitVec 16)) (s : State),
    let x := tchOf s i.val
    let g := rd s F.TCH_WAKE_GROUP i
    let n := (upto ((36 + g - 1) / g)).map fun k => (counts.getD k 0).toNat
    (s.pwr.still = 0 ∨ rd s F.TCH_WAKE_EN i = 0 → exec (.wakeScan i counts) s = .next s) ∧
    (s.pwr.still ≠ 0 → rd s F.TCH_WAKE_EN i = 1 → 1 ≤ g → g ≤ 36 →
      (x.wakeBase = [] → ∃ t, exec (.wakeScan i counts) s = .next t ∧ (tchOf t i.val).wakeBase = n ∧ t = { s with tch := t.tch }) ∧
      (x.wakeBase ≠ [] → s.time.cyc < x.wakeAt + 19531250 → exec (.wakeScan i counts) s = .next s) ∧
      (x.wakeBase ≠ [] → x.wakeAt + 19531250 ≤ s.time.cyc → x.wakeBase.length = n.length →
        let low := ∃ k, k < n.length ∧ n.getD k 0 + rd s F.TCH_WAKE_WAKE_THRESH i ≤ x.wakeBase.getD k 0
        let double := low ∧ x.wasIn = false ∧ ∃ a ∈ x.taps, 4 ≤ a ∧ a ≤ 15
        (¬ double → ∃ t, exec (.wakeScan i counts) s = .next t ∧ t = { s with tch := t.tch } ∧ ((tchOf t i.val).wasIn = true ↔ low) ∧
          (¬(low ∧ x.wasIn = false) → ∀ k, k < n.length → (tchOf t i.val).wakeBase.getD k 0 =
            ((x.wakeBase.getD k 0 : Int) + Int.tdiv ((n.getD k 0 : Int) - x.wakeBase.getD k 0) 64).toNat) ∧
          (low → x.wasIn = false → 0 ∈ (tchOf t i.val).taps ∧ (tchOf t i.val).wakeBase = x.wakeBase)) ∧
        (double → 4 ≤ s.pwr.still → ∃ t, exec (.wakeScan i counts) s = .next t ∧ t = { s with tch := t.tch, pwr := { s.pwr with wake := s.pwr.wake ||| 2 ^ (2 + i.val) } }) ∧
        (double → s.pwr.still < 4 → ∃ t, exec (.wakeScan i counts) s = .next t ∧ rd t F.PWR_STATUS_WAKE_CAUSE = 2 ^ (2 + i.val) ∧
          rd t K.PWR_EVENT_STILL_ABORT.fld = 1 ∧ rd t F.PWR_STATUS_RESET_KIND = 1 ∧ t.pwr.still = 0 ∧ t.mem = s.mem))))

/-- A commit after LOCKED is refused with 5 and QUAD 0; else a reserved code with 1 and its lowest quad, a ninth DP_RX quad with 2, a fifth ETH with 3, a fifth NDOSIN with 4, in that order, raising REFUSED and starting nothing; else LOCKED is set and READY says that every used quad's PLL is locked. A used quad's PLL lock and loss move READY; a loss takes lock from its four lanes with LOCK_LOST. A receive lane's loss clears its alignment, raises LOCK_LOST, and on a DP_RX quad clears TRAINED with LINK_LOSS and pulses HPD; a DP_TX or OFF quad has no receive lanes. CDR lock of such a lane sets CDR_LOCK, PCS_LOCK where alignment is found, CTLE and taps unless FREEZE, and ADAPTED where each tap moved by at most one step or FREEZE holds them. A LANE_TX_FIR write is ignored on a DP_TX quad, refused when it breaks R516, and else taken. A test field set on a lane of a busy port is refused with CFG_REFUSED; on an OFF quad it is taken and CHK_EN clears the count. A checker's bit is compared with its pattern's next (patterns after the first inverted, log entry 128): with PRBS_LOCK an error counts, saturating, and 16 in 64 bits lose lock; without it, 64 bits right in a row gain it; bits in two lots do what they do in one. A generator sends the bits of its pattern; a near-end loop returns them to the checker, whatever arrives, and the far-end loop sends what arrives. -/
def Obligations.LaneQuadsLocksAndTests : Prop :=
  (∀ (s : State),
    let code := fun (q : Nat) => slice (rdReg s R.LANE_QUAD_USE) (4 * q) 4
    let uses := fun (u n : Nat) => ((upto n).filter fun k => code k == u).length
    let refuses := fun (c q : Nat) => ∃ t, exec .quadUseCommit s = .next t ∧ rd t F.LANE_QUAD_COMMIT_CODE = c ∧ rd t F.LANE_QUAD_COMMIT_QUAD = q ∧
      rd t F.LANE_QUAD_COMMIT_REFUSED = 1 ∧ rd t F.LANE_QUAD_COMMIT_LOCKED = rd s F.LANE_QUAD_COMMIT_LOCKED ∧
      rd t F.LANE_QUAD_COMMIT_READY = rd s F.LANE_QUAD_COMMIT_READY ∧ sameRegsBut s t [R.LANE_QUAD_COMMIT.addr 0 0] ∧ t = { s with regs := t.regs, fab := t.fab }
    (rd s F.LANE_QUAD_COMMIT_LOCKED = 1 → refuses 5 0) ∧
    (rd s F.LANE_QUAD_COMMIT_LOCKED = 0 →
      (∀ q, q < 16 → 5 ≤ code q → (∀ k, k < q → code k < 5) → refuses 1 q) ∧
      ((∀ k, k < 16 → code k < 5) →
        (∀ q, q < 16 → code q = 2 → uses 2 q = 8 → refuses 2 q) ∧
        (uses 2 16 ≤ 8 → ∀ q, q < 16 → code q = 3 → uses 3 q = 4 → refuses 3 q) ∧
        (uses 2 16 ≤ 8 → uses 3 16 ≤ 4 → ∀ q, q < 16 → code q = 4 → uses 4 q = 4 → refuses 4 q) ∧
        (uses 2 16 ≤ 8 → uses 3 16 ≤ 4 → uses 4 16 ≤ 4 → ∃ t, exec .quadUseCommit s = .next t ∧ rd t F.LANE_QUAD_COMMIT_LOCKED = 1 ∧
          (rd t F.LANE_QUAD_COMMIT_READY = 1 ↔ ∀ q, q < 16 → code q = 0 ∨ (quadOf s q).pll = true) ∧
          rd t F.LANE_QUAD_COMMIT_REFUSED = rd s F.LANE_QUAD_COMMIT_REFUSED ∧ sameRegsBut s t [R.LANE_QUAD_COMMIT.addr 0 0] ∧
          t = { s with regs := t.regs })))) ∧
  (∀ (q : Fin 16) (s : State), rd s F.LANE_QUAD_COMMIT_LOCKED = 1 →
    let use := fun (k : Nat) => slice (rdReg s R.LANE_QUAD_USE) (4 * k) 4
    (use q ≠ 0 → (quadOf s q.val).pll = false → ∃ t, exec (.quadPllLock q) s = .next t ∧ (quadOf t q.val).pll = true ∧
      (∀ k, k ≠ q.val → quadOf t k = quadOf s k) ∧
      (rd t F.LANE_QUAD_COMMIT_READY = 1 ↔ ∀ k, k < 16 → k ≠ q.val → use k = 0 ∨ (quadOf s k).pll = true) ∧ t.mem = s.mem ∧
      (use q = 1 → rd s F.LANE_DPTX_CFG_EN q = 1 → rd s F.LANE_DPTX_STATUS_HPD q = 1 → rd s F.LANE_DPTX_STATUS_STATE q = 0 → (quadOf s q.val).aux ≠ some true →
        (∀ k, k < 4 → testSet s (4 * q.val + k) = false) → rd t F.LANE_DPTX_STATUS_STATE q = 1)) ∧
    (use q = 0 ∨ (quadOf s q.val).pll = true → exec (.quadPllLock q) s = .next s) ∧
    (use q ≠ 0 → (quadOf s q.val).pll = true → ∃ t, exec (.quadPllLockLoss q) s = .next t ∧ (quadOf t q.val).pll = false ∧
      rd t F.LANE_QUAD_COMMIT_READY = 0 ∧
      (∀ k, k < 4 → rd t F.LANE_STATUS_CDR_LOCK (4 * q.val + k) = 0 ∧ rd t F.LANE_STATUS_PCS_LOCK (4 * q.val + k) = 0 ∧
        rd t F.LANE_EVENT_LOCK_LOST (4 * q.val + k) = 1) ∧
      (use q = 1 → rd t K.LANE_Q_EVENT_LINK_LOSS.fld q = 1 ∧ rd t F.LANE_DPTX_STATUS_STATE q = 0) ∧
      (use q = 2 → rd t K.LANE_Q_EVENT_LINK_LOSS.fld q = 1 ∧ rd t F.LANE_DPRX_STATUS_TRAINED q = 0)) ∧
    (use q = 0 ∨ (quadOf s q.val).pll = false → exec (.quadPllLockLoss q) s = .next s)) ∧
  (∀ (l : Fin 64) (s : State), rd s F.LANE_QUAD_COMMIT_LOCKED = 1 →
    let q := l.val / 4
    let use := slice (rdReg s R.LANE_QUAD_USE) (4 * q) 4
    (use < 2 ∨ (rd s F.LANE_STATUS_CDR_LOCK l = 0 ∧ rd s F.LANE_STATUS_PCS_LOCK l = 0) → exec (.laneLockLoss l) s = .next s) ∧
    (2 ≤ use → rd s F.LANE_STATUS_CDR_LOCK l = 1 ∨ rd s F.LANE_STATUS_PCS_LOCK l = 1 → ∃ t, exec (.laneLockLoss l) s = .next t ∧
      rd t F.LANE_STATUS_PCS_LOCK l = 0 ∧ rd t F.LANE_EVENT_LOCK_LOST l = 1 ∧ rd t F.LANE_STATUS_CDR_LOCK l ≤ rd s F.LANE_STATUS_CDR_LOCK l ∧
      (use ≠ 4 → ∀ k : Fin 64, k ≠ l → rdReg t R.LANE_STATUS k = rdReg s R.LANE_STATUS k) ∧
      (use = 2 → rd t K.LANE_Q_EVENT_LINK_LOSS.fld q = 1 ∧ rd t F.LANE_DPRX_STATUS_TRAINED q = 0 ∧
        (quadOf t q).pulse = decide (rd s F.LANE_DPRX_CFG_HPD_EN q = 1)) ∧
      (use = 3 → ∀ p, p < 16 → lanePort s l.val = some p → rd t F.NET_MAC_STATUS_LINK_UP p = 0)) ∧
    (∀ (found : RxLock) (taps : Adaptation),
      let still := ∀ k, k < 12 → ((taps.after.getD k 0).toInt - (taps.before.getD k 0).toInt).natAbs ≤ 1
      (use < 2 ∨ (quadOf s q).pll = false → exec (.laneCdrLock l found taps) s = .next s) ∧
      (2 ≤ use → (quadOf s q).pll = true → ∃ t, exec (.laneCdrLock l found taps) s = .next t ∧ rd t F.LANE_STATUS_CDR_LOCK l = 1 ∧
        rd t F.LANE_STATUS_PCS_LOCK l = (if found.aligned then 1 else rd s F.LANE_STATUS_PCS_LOCK l) ∧
        (rd s F.LANE_RX_CFG_FREEZE l = 1 ∨ still → rd t F.LANE_STATUS_ADAPTED l = 1) ∧
        (rd s F.LANE_RX_CFG_FREEZE l = 0 → ¬ still → rd t F.LANE_STATUS_ADAPTED l = rd s F.LANE_STATUS_ADAPTED l) ∧
        (quadOf t q).together = found.together ∧ t = { s with regs := t.regs, lane := t.lane, lnk := t.lnk } ∧ (use ≠ 4 → t.lnk = s.lnk) ∧
        (rd s F.LANE_RX_CFG_FREEZE l = 0 → rd t F.LANE_STATUS_CTLE l = found.ctle.toNat ∧
          ∀ k, k < 12 → k < taps.after.length → rd t F.LANE_RX_DFE_TAP l k = (taps.after.getD k 0).toNat) ∧
        (rd s F.LANE_RX_CFG_FREEZE l = 1 → rd t F.LANE_STATUS_CTLE l = rd s F.LANE_STATUS_CTLE l ∧
          ∀ k, k < 12 → rd t F.LANE_RX_DFE_TAP l k = rd s F.LANE_RX_DFE_TAP l k))) ∧
    (∀ v : BitVec 32,
      let w := v.toNat
      let bad := slice w 4 6 < 16 ∨ slice w 4 6 < slice w 0 4 + slice w 10 5 + 16
      (use = 1 → exec (.txFirWrite l v) s = .next s) ∧
      (use ≠ 1 → bad → ∃ t, exec (.txFirWrite l v) s = .next t ∧ rd t F.LANE_EVENT_CFG_REFUSED l = 1 ∧ rdReg t R.LANE_TX_FIR l = rdReg s R.LANE_TX_FIR l ∧
        t = { s with regs := t.regs, fab := t.fab }) ∧
      (use ≠ 1 → ¬ bad → ∃ t, exec (.txFirWrite l v) s = .next t ∧ rd t F.LANE_TX_FIR_PRE l = slice w 0 4 ∧ rd t F.LANE_TX_FIR_MAIN l = slice w 4 6 ∧
        rd t F.LANE_TX_FIR_POST l = slice w 10 5 ∧ sameRegsBut s t [R.LANE_TX_FIR.addr l 0] ∧ t = { s with regs := t.regs })) ∧
    (∀ v : BitVec 32,
      let w := v.toNat
      let sets := w % 4 ≠ 0 ∨ slice w 4 2 ≠ 0
      let refused := ∃ t, exec (.laneTestWrite l v) s = .next t ∧ rd t F.LANE_EVENT_CFG_REFUSED l = 1 ∧ rdReg t R.LANE_TEST l = rdReg s R.LANE_TEST l ∧
        t = { s with regs := t.regs, fab := t.fab }
      (sets → use = 1 → rd s F.LANE_DPTX_CFG_EN q = 1 → refused) ∧
      (sets → use = 2 → rd s F.LANE_DPRX_CFG_HPD_EN q = 1 → refused) ∧
      (use = 0 → ∃ t, exec (.laneTestWrite l v) s = .next t ∧ rd t F.LANE_TEST_GEN_EN l = w % 2 ∧ rd t F.LANE_TEST_CHK_EN l = w / 2 % 2 ∧
        rd t F.LANE_TEST_PATTERN l = slice w 2 2 ∧ rd t F.LANE_TEST_LOOP l = slice w 4 2 ∧
        (w / 2 % 2 = 1 → rd t F.LANE_PRBS_ERRS_ERRS l = 0) ∧ t = { s with regs := t.regs, lane := t.lane })) ∧
    (∀ (b d : Bool) (bits more : List Bool),
      let x := (quadOf s q).prbs.get l.val {}
      let tap := fun (i j : Nat) => x.shift.getD i false ^^ x.shift.getD j false
      let want := match rd s F.LANE_TEST_PATTERN l with | 0 => tap 5 6 | 1 => !tap 13 14 | 2 => !tap 17 22 | _ => !tap 27 30
      let n := [7, 15, 23, 31].getD (rd s F.LANE_TEST_PATTERN l) 7
      let on := rd s F.LANE_STATUS_PRBS_LOCK l = 1
      let loop := rd s F.LANE_TEST_LOOP l
      (rd s F.LANE_TEST_CHK_EN l = 0 → rd s F.LANE_TEST_GEN_EN l = 0 → loop ≠ 3 → exec (.prbsSync l b bits) s = .next s) ∧
      (loop = 3 → ∃ t, exec (.prbsSync l b bits) s = .next t ∧ t.out = .testBits l.val (b :: bits) :: s.out) ∧
      (rd s F.LANE_TEST_GEN_EN l = 1 → loop ≠ 3 → ∃ t own, exec (.prbsSync l b bits) s = .next t ∧ t.out = .testBits l.val own :: s.out ∧
        own.length = bits.length + 1 ∧
        (let old := (quadOf s q).gen.get l.val (List.replicate 31 (decide (rd s F.LANE_TEST_PATTERN l = 0)))
         let all := own.reverse ++ old
         (31 ≤ old.length → (quadOf t q).gen.get l.val [] = all.take 31) ∧
         ∀ k, k < own.length → let bk := fun (j : Nat) => all.getD (k + 1 + j) false
           all.getD k false = match rd s F.LANE_TEST_PATTERN l with
             | 0 => bk 5 ^^ bk 6 | 1 => !(bk 13 ^^ bk 14) | 2 => !(bk 17 ^^ bk 22) | _ => !(bk 27 ^^ bk 30))) ∧
      (rd s F.LANE_TEST_GEN_EN l = 1 → loop = 1 ∨ loop = 2 → bits.length = more.length → exec (.prbsSync l b bits) s = exec (.prbsSync l d more) s) ∧
      (rd s F.LANE_TEST_CHK_EN l = 1 → rd s F.LANE_TEST_GEN_EN l = 0 → loop ≠ 3 →
        (∃ t, exec (.prbsSync l b []) s = .next t ∧
          (on → rd t F.LANE_PRBS_ERRS_ERRS l = min (2 ^ 32 - 1) (rd s F.LANE_PRBS_ERRS_ERRS l + bit (b != want)) ∧
            (rd t F.LANE_STATUS_PRBS_LOCK l = 0 ↔ 16 ≤ ((((b != want) :: x.errors).take 64).filter id).length)) ∧
          (¬ on → rd t F.LANE_PRBS_ERRS_ERRS l = rd s F.LANE_PRBS_ERRS_ERRS l ∧
            (rd t F.LANE_STATUS_PRBS_LOCK l = 1 ↔ b = want ∧ n ≤ x.shift.length ∧ 63 ≤ x.run)) ∧
          sameRegsBut s t [R.LANE_STATUS.addr l 0, R.LANE_PRBS_ERRS.addr l 0] ∧ t = { s with regs := t.regs, lane := t.lane }) ∧
        (∃ t u v, exec (.prbsSync l b bits) s = .next t ∧ exec (.prbsSync l d more) t = .next u ∧ exec (.prbsSync l b (bits ++ d :: more)) s = .next v ∧
          rd v F.LANE_PRBS_ERRS_ERRS l = rd u F.LANE_PRBS_ERRS_ERRS l ∧ rd v F.LANE_STATUS_PRBS_LOCK l = rd u F.LANE_STATUS_PRBS_LOCK l ∧
          (quadOf v q).prbs.get l.val {} = (quadOf u q).prbs.get l.val {}))))

/-- On a DP_TX quad, HPD high at an idle port with EN, a locked PLL and no test field starts training. Its success gives STATE 2, on each lane in use taps for the level that the sink last requested there (PRE 0, MAIN and POST free within R516, log entry 151), and its canvases dark until Gesso; with ADAPTIVE it sets the sink's MSA_TIMING_PAR_IGNORE_EN, and where the sink does not report it ignored ends with NO_ASYNC (its place among the causes: log entry 89); a failure gives STATE 3, CAUSE and TRAIN_FAIL; RETRY_MS later it trains again. A low of 250 to 2,000 samples raises IRQ_HPD, but not during training; with a loss seen on a trained link it raises LINK_LOSS and retrains; a shorter one does nothing. An unplug clears HPD and gives STATE 0. An AUX START of LEN 1 to 16 sets BUSY and its request goes out, or waits while training runs; another LEN raises AUX_ERR, and one while BUSY starts nothing; its end gives for the command that started it REPLY, COUNT, the read bytes and AUX_DONE. A receiver with HPD_EN answers a native read with the bytes its DPCD fields have, an I2C read at 0x50 with EDID bytes; a read of 0x202 to 0x204 that reports equalisation and alignment done notes it, and it becomes TRAINED when the source then ends training. The HPD pulse ends. The DPCD addresses (log entry 33), the STATE of a repeated start (log entry 89), and COUNT of a write (log entry 92) are the model's. -/
def Obligations.DisplayPortTrainingAndAux : Prop :=
  (∀ (q : Fin 16) (s : State), rd s F.LANE_QUAD_COMMIT_LOCKED = 1 → slice (rdReg s R.LANE_QUAD_USE) (4 * q) 4 = 1 →
    let st := rd s F.LANE_DPTX_STATUS_STATE q
    let x := quadOf s q.val
    let able := rd s F.LANE_DPTX_CFG_EN q = 1 ∧ x.pll = true ∧ ∀ k, k < 4 → testSet s (4 * q.val + k) = false
    let trains := fun (c : Instr) => ∃ t, exec c s = .next t ∧ rd t F.LANE_DPTX_STATUS_STATE q = 1 ∧
      rd t F.LANE_DPTX_STATUS_HPD q = 1 ∧ (quadOf t q.val).trainWait = false ∧ sameRegsBut s t [R.LANE_DPTX_STATUS.addr q 0] ∧
      t = { s with regs := t.regs, lane := t.lane }
    let carried := fun (c : Nat) => (rd s F.CNV_CTRL_EN c = 1 ∨ onCanvas s c = true) ∧ rd s F.CNV_CTRL_OUT_KIND c = 1 ∧ rd s F.CNV_CTRL_OUT_INDEX c = q
    let adaptiveOn := ∃ c, c < 32 ∧ carried c ∧ rd s F.CNV_CTRL_ADAPTIVE c = 1
    let retry := x.failAt + rd s F.LANE_DPTX_CFG_RETRY_MS q * 625000
    (st = 0 ∨ (st = 3 ∧ rd s F.LANE_DPTX_STATUS_HPD q = 0) → able → x.aux ≠ some true → trains (.dptxTrainingStart q)) ∧
    (st = 0 → able → x.aux = some true → ∃ t, exec (.dptxTrainingStart q) s = .next t ∧ rd t F.LANE_DPTX_STATUS_STATE q = 0 ∧
      (quadOf t q.val).trainWait = true) ∧
    (st = 0 → ¬ able → ∃ t, exec (.dptxTrainingStart q) s = .next t ∧ rd t F.LANE_DPTX_STATUS_STATE q = 0 ∧ rd t F.LANE_DPTX_STATUS_HPD q = 1 ∧
      t = { s with regs := t.regs }) ∧
    (st = 3 → able → x.aux ≠ some true → rd s F.LANE_DPTX_STATUS_HPD q = 1 → retry ≤ s.time.cyc → trains (.dptxRetry q)) ∧
    (st ≠ 3 ∨ s.time.cyc < retry → exec (.dptxRetry q) s = .next s) ∧
    (∀ (ig : Bool) (levels : List (BitVec 4)), st = 1 → ¬(adaptiveOn ∧ ig = false) → ∃ t, exec (.dptxTrainingEnd q ⟨0, ig⟩ levels) s = .next t ∧ rd t F.LANE_DPTX_STATUS_STATE q = 2 ∧
      (∀ k, k < 4 → k < 2 ^ rd s F.LANE_DPTX_CFG_LANES q → k < levels.length → rd t F.LANE_TX_FIR_PRE (4 * q.val + k) = 0 ∧
        16 ≤ rd t F.LANE_TX_FIR_MAIN (4 * q.val + k) ∧ rd t F.LANE_TX_FIR_POST (4 * q.val + k) + 16 ≤ rd t F.LANE_TX_FIR_MAIN (4 * q.val + k) ∧
        rdReg t R.LANE_TX_FIR (4 * q.val + k) = dpTaps (levels.getD k 0).toNat) ∧
      (∀ k, k < 4 → 2 ^ rd s F.LANE_DPTX_CFG_LANES q ≤ k → rdReg t R.LANE_TX_FIR (4 * q.val + k) = rdReg s R.LANE_TX_FIR (4 * q.val + k)) ∧
      (∀ c, c < 32 → carried c → (cnvOf t c).dark = true ∧ (cnvOf t c).gesso.start = true) ∧
      (∀ c, c < 32 → ¬ carried c → cnvOf t c = cnvOf s c) ∧ (adaptiveOn → Output.auxRequest q.val 8 0x107 1 [0x80] ∈ t.out) ∧ t.mem = s.mem) ∧
    (∀ (cause : BitVec 4) (ig : Bool) (levels : List (BitVec 4)),
      let late := adaptiveOn ∧ ig = false ∧ (cause.toNat = 0 ∨ cause.toNat = 4 ∨ cause.toNat = 5)
      let fails := fun (k : Nat) => ∃ t, exec (.dptxTrainingEnd q ⟨cause, ig⟩ levels) s = .next t ∧
        rd t F.LANE_DPTX_STATUS_STATE q = 3 ∧ rd t F.LANE_DPTX_STATUS_CAUSE q = k ∧ rd t K.LANE_Q_EVENT_TRAIN_FAIL.fld q = 1 ∧
        (quadOf t q.val).failAt = s.time.cyc ∧ t.cmp = s.cmp
      (st = 1 → late → fails 6) ∧ (st = 1 → ¬ late → 1 ≤ cause.toNat → cause.toNat ≤ 5 → fails cause.toNat) ∧
      (st ≠ 1 ∨ 5 < cause.toNat → exec (.dptxTrainingEnd q ⟨cause, ig⟩ levels) s = .next s)) ∧
    (∀ (low : BitVec 12) (status : List Byte),
      let loss := bitOn (leAt status 2 1) 0 = false ∨
        ∃ k, k < 2 ^ rd s F.LANE_DPTX_CFG_LANES q ∧ (bitOn (leAt status 0 2) (4 * k) = false ∨ bitOn (leAt status 0 2) (4 * k + 2) = false)
      (low.toNat < 250 → exec (.irqHpd q low status) s = .next s) ∧
      (250 ≤ low.toNat → low.toNat ≤ 2000 → st = 1 → exec (.irqHpd q low status) s = .next s) ∧
      (250 ≤ low.toNat → low.toNat ≤ 2000 → st ≠ 1 → ∃ t, exec (.irqHpd q low status) s = .next t ∧ rd t K.LANE_Q_EVENT_IRQ_HPD.fld q = 1 ∧
        (¬(st = 2 ∧ loss) → rd t F.LANE_DPTX_STATUS_STATE q = st ∧ t = { s with regs := t.regs, fab := t.fab }) ∧
        (st = 2 → loss → rd t K.LANE_Q_EVENT_LINK_LOSS.fld q = 1 ∧
          (able → x.aux ≠ some true → rd s F.LANE_DPTX_STATUS_HPD q = 1 → rd t F.LANE_DPTX_STATUS_STATE q = 1))) ∧
      (2000 < low.toNat → exec (.irqHpd q low status) s = exec (.hpdUnplug q) s)) ∧
    (∃ t, exec (.hpdUnplug q) s = .next t ∧ rd t F.LANE_DPTX_STATUS_STATE q = 0 ∧ rd t F.LANE_DPTX_STATUS_HPD q = 0 ∧
      (st = 1 → rd t K.LANE_Q_EVENT_TRAIN_FAIL.fld q = 1 ∧ rd t F.LANE_DPTX_STATUS_CAUSE q = 1) ∧
      (st = 2 → rd t K.LANE_Q_EVENT_LINK_LOSS.fld q = 1 ∧ ∀ c, c < 32 → carried c → (cnvOf t c).stopDue = true)) ∧
    (∀ v : BitVec 32,
      let n := slice v.toNat 24 5
      (x.aux = none → 1 ≤ n → n ≤ 16 → ∃ t, exec (.auxStart q v) s = .next t ∧ rd t F.LANE_AUX_STATUS_BUSY q = 1 ∧
        (quadOf t q.val).aux = some (decide (st ≠ 1)) ∧ (quadOf t q.val).auxCmd.req = slice v.toNat 0 4 ∧ (quadOf t q.val).auxCmd.len = n ∧ rd t F.LANE_AUX_CMD_REQ q = slice v.toNat 0 4 ∧ rd t F.LANE_AUX_CMD_ADDR q = slice v.toNat 4 20 ∧
        rd t F.LANE_AUX_CMD_LEN q = n ∧ t = { s with regs := t.regs, lane := t.lane, out := t.out } ∧ (st = 1 → t.out = s.out) ∧
        (st ≠ 1 → ∃ data, t.out = .auxRequest q.val (slice v.toNat 0 4) (slice v.toNat 4 20) n data :: s.out ∧
          (slice v.toNat 0 1 = 1 → data = []) ∧ (slice v.toNat 0 1 = 0 → data.length = n ∧
            ∀ k, k < n → (data.getD k 0).toNat = rd s F.LANE_AUX_DATA_DATA q (k / 4) / 256 ^ (k % 4) % 256))) ∧
      (x.aux ≠ none → 1 ≤ n → n ≤ 16 → ∃ t, exec (.auxStart q v) s = .next t ∧ t = { s with regs := t.regs } ∧
        sameRegsBut s t [R.LANE_AUX_CMD.addr q 0]) ∧
      (n = 0 ∨ 16 < n → ∃ t, exec (.auxStart q v) s = .next t ∧ rd t K.LANE_Q_EVENT_AUX_ERR.fld q = 1 ∧
        rd t F.LANE_AUX_STATUS_BUSY q = rd s F.LANE_AUX_STATUS_BUSY q ∧ t.lane = s.lane ∧ t.out = s.out)) ∧
    (∀ (reply : BitVec 2) (bytes : List Byte),
      let len := x.auxCmd.len
      (x.aux ≠ some true → exec (.auxDone q reply bytes) s = .next s) ∧
      (x.aux = some true → ∃ t, exec (.auxDone q reply bytes) s = .next t ∧ rd t F.LANE_AUX_STATUS_BUSY q = 0 ∧ rd t F.LANE_AUX_STATUS_REPLY q = reply.toNat ∧
        rd t K.LANE_Q_EVENT_AUX_DONE.fld q = 1 ∧ (quadOf t q.val).aux = none ∧
        (x.auxCmd.req % 2 = 1 → bytes.length ≤ len → len ≤ 16 → rd t F.LANE_AUX_STATUS_COUNT q = bytes.length ∧
          ∀ k, k < bytes.length → rd t F.LANE_AUX_DATA_DATA q (k / 4) / 256 ^ (k % 4) % 256 = (bytes.getD k 0).toNat) ∧
        (x.auxCmd.req % 2 = 0 → ∀ k, k < 4 → rd t F.LANE_AUX_DATA_DATA q k = rd s F.LANE_AUX_DATA_DATA q k)))) ∧
  (∀ (q : Fin 16) (s : State), rd s F.LANE_QUAD_COMMIT_LOCKED = 1 → slice (rdReg s R.LANE_QUAD_USE) (4 * q) 4 = 2 →
    let x := quadOf s q.val
    let lanes := (upto (if x.laneCount = 0 then 4 else x.laneCount)).map (4 * q.val + ·)
    let ready := x.together = true ∧ ∀ l ∈ lanes, rd s F.LANE_STATUS_ADAPTED l = 1 ∧ rd s F.LANE_STATUS_PCS_LOCK l = 1
    (rd s F.LANE_DPRX_CFG_HPD_EN q = 0 → (∀ req addr bytes len, exec (.dprxAuxRequest q req addr bytes len) s = .next s) ∧
      exec (.dprxTrained q) s = .next s) ∧
    (rd s F.LANE_DPRX_CFG_HPD_EN q = 1 →
      (∀ (addr : BitVec 20) (bytes : List Byte) (len : BitVec 5), len.toNat ≤ 16 → ∃ t l, exec (.dprxAuxRequest q 9 addr bytes len) s = .next t ∧
        t.out = .aux q.val 0 l :: s.out ∧ l.length = len.toNat ∧ t.regs = s.regs ∧ t.mem = s.mem ∧
        (x.laneCount ≤ 4 → ((quadOf t q.val).eqDone = true ↔ x.eqDone = true ∨ (addr.toNat ≤ 0x202 ∧ 0x204 < addr.toNat + len.toNat ∧ ready))) ∧
        ∀ k v, k < len.toNat → dpcd s q.val (addr.toNat + k) = some v → (l.getD k 0).toNat = v % 256) ∧
      (dpcd s q.val 0x000 = some 0x14 ∧ dpcd s q.val 0x001 = some ([0x06, 0x0A, 0x14, 0x1E].getD (rd s F.LANE_DPRX_CFG_MAX_RATE q) 0)) ∧
      (∀ (addr : BitVec 20) (bytes : List Byte) (len : BitVec 5), addr.toNat % 128 = 0x50 → len.toNat ≤ 16 →
        ∃ t l, exec (.dprxAuxRequest q 5 addr bytes len) s = .next t ∧ t.out = .aux q.val 0 l :: s.out ∧ l.length = len.toNat ∧
          (∀ k, k < len.toNat → (l.getD k 0).toNat =
            rd s F.LANE_DPRX_EDID_EDID q ((x.edidPos + k) % 256 / 4) / 256 ^ ((x.edidPos + k) % 4) % 256) ∧
          (quadOf t q.val).edidPos = (x.edidPos + len.toNat) % 256) ∧
      (∀ (addr : BitVec 20) (v : Byte) (len : BitVec 5), addr.toNat = 0x100 → ∃ t, exec (.dprxAuxRequest q 8 addr [v] len) s = .next t ∧
        (quadOf t q.val).linkRate = v.toNat ∧ t.out = .aux q.val 0 [] :: s.out) ∧
      (∀ (addr : BitVec 20) (v : Byte) (len : BitVec 5), addr.toNat = 0x102 → v.toNat % 16 ≠ 0 → ∃ t, exec (.dprxAuxRequest q 8 addr [v] len) s = .next t ∧
        rd t F.LANE_DPRX_STATUS_TRAINED q = 0) ∧
      (∀ (addr : BitVec 20) (len : BitVec 5), addr.toNat = 0x102 → x.eqDone = true → (∀ k, k < 4 → testSet s (4 * q.val + k) = false) →
        ∃ t, exec (.dprxAuxRequest q 8 addr [0] len) s = .next t ∧ rd t F.LANE_DPRX_STATUS_TRAINED q = 1) ∧
      (x.eqDone = false → exec (.dprxTrained q) s = .next s) ∧
      (x.eqDone = true → (∀ k, k < 4 → testSet s (4 * q.val + k) = false) → ∃ t, exec (.dprxTrained q) s = .next t ∧
        rd t F.LANE_DPRX_STATUS_TRAINED q = 1 ∧ quadOf t q.val = { x with eqDone := false } ∧
        rd t F.LANE_DPRX_STATUS_LANES q = (if x.laneCount = 1 then 0 else if x.laneCount = 2 then 1 else 2) ∧
        rd t F.LANE_DPRX_STATUS_RATE q = (if x.linkRate = 0x1E then 3 else if x.linkRate = 0x14 then 2 else if x.linkRate = 0x0A then 1 else 0) ∧
        t = { s with regs := t.regs, lane := t.lane }))) ∧
  (∀ (q : Fin 16) (s : State), ∃ t, exec (.hpdPulseEnd q) s = .next t ∧ quadOf t q.val = { quadOf s q.val with pulse := false } ∧
    (∀ k, k ≠ q.val → quadOf t k = quadOf s k) ∧ t = { s with lane := t.lane })

/-- A LNK_CFG write that breaks R549 raises CFG_REFUSED and changes nothing; EN 1 on a DOWN port with a quad and no test field starts LOCKING at rate code 0 on LANE_MASK, as a restart does 10 ms after DOWN; EN 0 takes the port DOWN. 64 valid sync headers in a row lock a lane, one invalid header starts its count anew, and the 16th within 64 loses a lock. Block lock of every LANE_MASK lane ends step 1, at once where the lanes had it. A marker block leaves scrambled on each transmit lane, with COUNT advancing. A bad control block raises PKT_BAD in every state. Aligned markers of one COUNT end step 2, with SKEW and REVERSED. The eighth identical CAP sets the own ACK and sends it; a CAP with ACK takes the partner's fields, the common features of the version and FEATURE_OFF, and goes to RATE_CHANGE, or to LINKED with LINK_UP at the base rate; VERSION 0 or above 2 is reported and is BRINGUP_FAIL and DOWN. The rate change repeats steps 1 and 2 at the agreed rate. A limit passed, and not before, ends CAPS, RATE_CHANGE and a step without enough lanes with BRINGUP_FAIL. That step 1 waits for every lane until its limit is the model's reading (log entry 73). -/
def Obligations.NdosinBringUp : Prop :=
  (∀ (p : Fin 4) (s : State) (quad : Nat), portQuad s p.val = some quad → quad < 16 →
    let st := rd s F.LNK_STATUS_STATE p
    let x := portOf s p.val
    let lanes := fun (m : Nat) => ((upto 4).filter (bitOn m)).length
    let least := max 1 (rd s F.LNK_CFG_WIDTH_MIN p)
    let mask := rd s F.LNK_CFG_LANE_MASK p
    let lock := lockMask s p.val
    let locking := st = 1 ∨ (st = 4 ∧ x.rated = true ∧ x.aligning = false)
    let sent := fun (k : Nat) (l : List Byte) => let b := bytesAt l 0 12
      Output.block p.val k 2 (scramble (x.scrambler.get k 0) (leNat (b ++ leBytes (crc32c b).toNat 4))).2
    let good := fun (ty : Nat) (w : WireBlock) => w.header.toNat = 2 ∧ leAt (descramble w) 0 1 = ty ∧
      (crc32c (bytesAt (descramble w) 0 12)).toNat = leAt (descramble w) 12 4
    let spoiled := fun (ty : Nat) (w : WireBlock) => w.header.toNat = 2 ∧ (leAt (descramble w) 0 1 ∉ [0x1E, 0x2D, 0x4B, 0x55, 0x66] ∨
      (leAt (descramble w) 0 1 = ty ∧ (crc32c (bytesAt (descramble w) 0 12)).toNat ≠ leAt (descramble w) 12 4))
    let counts := fun (c : Instr) => ∃ t, exec c s = .next t ∧ rd t F.LNK_EVENT_PKT_BAD p = 1 ∧ t = { s with regs := t.regs, fab := t.fab }
    let able := rd s F.LANE_QUAD_COMMIT_LOCKED = 1 ∧ ∀ k, k < 4 → testSet s (4 * quad + k) = false
    let starts := fun (c : Instr) (cfg : Nat) => ∃ t, exec c s = .next t ∧ rdReg t R.LNK_CFG p = cfg ∧
      rd t F.LNK_STATUS_STATE p = (if lock &&& slice cfg 4 4 = slice cfg 4 4 then 2 else 1) ∧
      rd t F.LNK_STATUS_TX_MASK p = slice cfg 4 4 ∧ rd t F.LNK_STATUS_RATE p = 0 ∧ rd t F.LNK_STATUS_REVERSED p = 0 ∧ 
      portOf t p.val = { since := s.time.cyc, headers := x.headers, scrambler := x.scrambler, aligning := decide (lock &&& slice cfg 4 4 = slice cfg 4 4) } ∧
      sameRegsBut s t [R.LNK_CFG.addr p 0, R.LNK_STATUS.addr p 0] ∧ t = { s with regs := t.regs, lnk := t.lnk }
    let limit := if st = 2 ∨ (st = 4 ∧ x.aligning = true) then ceilDiv (2 * 4096 * 130 * 5000) (8 * laneRate (rd s F.LNK_STATUS_RATE p))
      else if locking then 12500000 else 3125000
    let fails := fun (c : Instr) => ∃ t, exec c s = .next t ∧ rd t F.LNK_EVENT_BRINGUP_FAIL p = 1 ∧ rd t F.LNK_EVENT_LINK_DOWN p = 1 ∧
      rd t F.LNK_STATUS_STATE p = 0 ∧ rd t F.LNK_STATUS_TX_MASK p = 0 ∧ t.mem = s.mem
    (∀ v : BitVec 32,
      let w := v.toNat % 2 ^ 11
      let bad := slice w 1 3 = 7 ∨ slice w 4 4 = 0 ∨ slice w 8 3 = 0 ∨ 4 < slice w 8 3 ∨ lanes (slice w 4 4) < slice w 8 3
      let old := rdReg s R.LNK_CFG p
      (bad ∨ (old % 2 = 1 ∧ old < 2 ^ 11 ∧ old / 2 ≠ w / 2) → ∃ t, exec (.lnkCfgWrite p v) s = .next t ∧ rd t F.LNK_EVENT_CFG_REFUSED p = 1 ∧
        rdReg t R.LNK_CFG p = old ∧ t.lnk = s.lnk ∧ rdReg t R.LNK_STATUS p = rdReg s R.LNK_STATUS p) ∧
      (¬ bad → old < 2 ^ 11 → old % 2 = 0 → w % 2 = 1 → st = 0 → able → starts (.lnkCfgWrite p v) w) ∧
      (¬ bad → old < 2 ^ 11 → old % 2 = 0 → w % 2 = 0 → ∃ t, exec (.lnkCfgWrite p v) s = .next t ∧ rdReg t R.LNK_CFG p = w ∧
        sameRegsBut s t [R.LNK_CFG.addr p 0] ∧ t = { s with regs := t.regs }) ∧
      (¬ bad → old % 2 = 1 → old < 2 ^ 11 → old / 2 = w / 2 → w % 2 = 0 → ∃ t, exec (.lnkCfgWrite p v) s = .next t ∧ rdReg t R.LNK_CFG p = w ∧
        rd t F.LNK_STATUS_STATE p = 0 ∧ (st ≠ 0 → rd t F.LNK_EVENT_LINK_DOWN p = 1 ∧ (portOf t p.val).queue = []))) ∧
    (rd s F.LNK_CFG_EN p = 1 → st = 0 → able → x.since + 6250000 ≤ s.time.cyc → starts (.bringupRestart p) (rdReg s R.LNK_CFG p)) ∧
    (rd s F.LNK_CFG_EN p = 0 ∨ st ≠ 0 ∨ s.time.cyc < x.since + 6250000 → exec (.bringupRestart p) s = .next s) ∧
    (∀ (lane : Fin 4) (hs : List (BitVec 2)),
      let run := (x.headers.get lane.val {}).run
      let held := rd s F.LANE_STATUS_PCS_LOCK (4 * quad + lane.val)
      (held = 0 → (∀ h ∈ hs, h = 1 ∨ h = 2) → run < 64 →
        (run + hs.length < 64 → ∃ t, exec (.blockLockAcquired p ⟨lane, hs⟩) s = .next t ∧ ((portOf t p.val).headers.get lane.val {}).run = run + hs.length ∧
          t = { s with lnk := t.lnk }) ∧
        (run + hs.length = 64 → ∃ t, exec (.blockLockAcquired p ⟨lane, hs⟩) s = .next t ∧ lockMask t p.val = lock ||| 2 ^ lane.val ∧
          rd t F.LANE_STATUS_PCS_LOCK (4 * quad + lane.val) = 1 ∧ t.mem = s.mem ∧
          (st = 1 → (lock ||| 2 ^ lane.val) &&& mask = mask → rd t F.LNK_STATUS_STATE p = 2 ∧ (portOf t p.val).markers = []) ∧
          (st ≠ 1 ∨ (lock ||| 2 ^ lane.val) &&& mask ≠ mask → rd t F.LNK_STATUS_STATE p = st))) ∧
      (∀ h : BitVec 2, h = 0 ∨ h = 3 →
        (held = 0 → ∃ t, exec (.blockLockAcquired p ⟨lane, [h]⟩) s = .next t ∧ ((portOf t p.val).headers.get lane.val {}).run = 0 ∧
          t = { s with lnk := t.lnk }) ∧
        (held = 1 → (((x.headers.get lane.val {}).bad.take 63).filter id).length = 15 → ∃ t, exec (.blockLockAcquired p ⟨lane, [h]⟩) s = .next t ∧
          rd t F.LANE_STATUS_PCS_LOCK (4 * quad + lane.val) = 0 ∧ rd t F.LANE_EVENT_LOCK_LOST (4 * quad + lane.val) = 1))) ∧
    (st = 0 → exec (.markerSend p) s = .next s) ∧
    (st ≠ 0 → ∃ t, exec (.markerSend p) s = .next t ∧ (portOf t p.val).count = (x.count + 1) % 2 ^ 16 ∧ t.regs = s.regs ∧ t.mem = s.mem ∧
      (x.turn = 0 → ∃ l, t.out = l ++ s.out ∧ l.length = ((upto 4).filter fun k => bitOn (rd s F.LNK_STATUS_TX_MASK p) k || bitOn x.tried k).length ∧
        ∀ k, k < 4 → bitOn (rd s F.LNK_STATUS_TX_MASK p) k = true →
          sent k ([0x4B, BitVec.ofNat 8 k, BitVec.ofNat 8 (rd s F.LNK_STATUS_TX_MASK p), BitVec.ofNat 8 lock] ++ leBytes x.count 2) ∈ l)) ∧
    (∀ (lane : Fin 4) (w : WireBlock) (at_ : BitVec 32),
      let b := descramble w
      let count := leAt b 4 2
      (st = 0 → ¬ spoiled 0x4B w → exec (.markerRx p lane w at_) s = .next s) ∧
      (spoiled 0x4B w → counts (.markerRx p lane w at_)) ∧
      (st = 1 → good 0x4B w → ∃ t, exec (.markerRx p lane w at_) s = .next t ∧ t = { s with lnk := t.lnk } ∧
        (portOf t p.val).markers.find lane.val = some (leAt b 1 1 % 4, count, at_.toNat) ∧ (portOf t p.val).partnerLock.headD 0 = leAt b 3 1 % 16) ∧
      (∀ (m : Nat) (lm a : Nat), st = 2 → good 0x4B w → m < 4 → m ≠ lane.val → lock &&& mask = 2 ^ lane.val + 2 ^ m → x.markers = [(m, lm, count, a)] → least ≤ 2 →
        at_.toNat ≤ a + 16 → a ≤ at_.toNat + 16 → ∃ t, exec (.markerRx p lane w at_) s = .next t ∧ rd t F.LNK_STATUS_STATE p = 3 ∧
          rd t F.LNK_STATUS_RX_MASK p = lock &&& mask ∧ rd t F.LNK_STATUS_SKEW p = (at_.toNat - a) + (a - at_.toNat) ∧
          (rd t F.LNK_STATUS_REVERSED p = 1 ↔ leAt b 1 1 % 4 = 3 - lane.val ∨ lm = 3 - m))) ∧
    (∀ w : WireBlock,
      let b := descramble w
      let v := leAt b 1 1
      let on := leAt b 4 2 &&& 0x3F &&& (if v = 1 then 0x05 else 0x3F)
      let rate := let r := min (rd s F.LNK_CFG_RATE p) (leAt b 6 1); if bitOn on 5 then r else min r 2
      (st ≠ 3 → ¬ spoiled 0x55 w → exec (.capRx p w) s = .next s) ∧
      (spoiled 0x55 w → counts (.capRx p w)) ∧
      (st = 3 → good 0x55 w → v = 0 ∨ 2 < v → fails (.capRx p w) ∧ ∀ t, exec (.capRx p w) s = .next t → rd t F.LNK_PARTNER_VERSION p = v % 4) ∧
      (st = 3 → good 0x55 w → v = 1 ∨ v = 2 → leAt b 7 1 % 2 = 0 → ∃ t, exec (.capRx p w) s = .next t ∧ t = { s with lnk := t.lnk, out := t.out } ∧
        (portOf t p.val).cap = bytesAt b 0 7 ∧ (x.cap = bytesAt b 0 7 → x.capRun = 7 → (portOf t p.val).capAck = true) ∧
        (x.cap ≠ bytesAt b 0 7 → (portOf t p.val).capAck = x.capAck) ∧
        ((portOf t p.val).capAck = true → x.capAck = false → ∀ k, k < 4 → bitOn (rd s F.LNK_STATUS_TX_MASK p) k = true →
          sent k [0x55, 2, 2, BitVec.ofNat 8 s.straps.device, 0x3F, 0, if s.straps.stepping = 0 then 5 else 6, 1] ∈ t.out)) ∧
      (st = 3 → good 0x55 w → v = 1 ∨ v = 2 → leAt b 7 1 % 2 = 1 → leAt b 6 1 < 8 → ∃ t, exec (.capRx p w) s = .next t ∧
        rd t F.LNK_PARTNER_KIND p = leAt b 2 1 % 16 ∧ rd t F.LNK_PARTNER_DEVICE p = leAt b 3 1 % 64 ∧ rd t F.LNK_PARTNER_VERSION p = v ∧
        rd t F.LNK_PARTNER_FEATURES p = leAt b 4 2 % 64 ∧ rd t F.LNK_PARTNER_MAX_RATE p = leAt b 6 1 ∧
        rd t F.LNK_NEG_ON p = on ∧ rd t F.LNK_NEG_OFF p = 0x3F - on ∧ (on ≠ 0x3F → rd t F.LNK_EVENT_FEATURE_OFF p = 1) ∧
        (on = 0x3F → rd t F.LNK_EVENT_FEATURE_OFF p = rd s F.LNK_EVENT_FEATURE_OFF p) ∧
        (rate ≠ 0 → rd t F.LNK_STATUS_STATE p = 4 ∧ (portOf t p.val).rated = false) ∧
        (rate = 0 → x.partnerLock.headD 0 = 15 → least ≤ lanes (rd s F.LNK_STATUS_RX_MASK p &&& lock) → rd t F.LNK_STATUS_STATE p = 5 ∧
          rd t F.LNK_EVENT_LINK_UP p = 1 ∧ rd t F.LNK_STATUS_TX_MASK p = rd s F.LNK_STATUS_RX_MASK p &&& lock ∧ rd t F.LNK_STATUS_VERSION p = v))) ∧
    (st = 4 → x.rated = false → ∃ t, exec (.ndosinRateChange p) s = .next t ∧ (portOf t p.val).rated = true ∧ (portOf t p.val).headers = [] ∧
      rd t F.LNK_STATUS_STATE p = 4 ∧ rd t F.LNK_STATUS_TX_MASK p = rd s F.LNK_CFG_LANE_MASK p ∧
      rd t F.LNK_STATUS_RATE p = (let r := min (rd s F.LNK_CFG_RATE p) (rd s F.LNK_PARTNER_MAX_RATE p)
        if bitOn (rd s F.LNK_NEG_ON p) 5 then r else min r 2) ∧
      ∀ k, k < 4 → rd t F.LANE_STATUS_PCS_LOCK (4 * quad + k) = 0 ∧ (rd s F.LANE_STATUS_PCS_LOCK (4 * quad + k) = 1 →
        rd t F.LANE_EVENT_LOCK_LOST (4 * quad + k) = 1)) ∧
    (st ≠ 4 ∨ x.rated = true → exec (.ndosinRateChange p) s = .next s) ∧
    (st = 0 ∨ st = 5 ∨ s.time.cyc < x.since + limit → exec (.bringupTimeout p) s = .next s) ∧
    (x.since + limit ≤ s.time.cyc → st ≠ 0 → st ≠ 5 → ¬ locking ∨ lanes (lock &&& mask) < least → fails (.bringupTimeout p)) ∧
    (x.since + limit ≤ s.time.cyc → locking → least ≤ lanes (lock &&& mask) → ∃ t, exec (.bringupTimeout p) s = .next t ∧
      rd t F.LNK_STATUS_STATE p = (if st = 1 then 2 else st) ∧ (portOf t p.val).aligning = true ∧ (portOf t p.val).markers = [] ∧
      (portOf t p.val).partnerLock = [] ∧ (portOf t p.val).since = s.time.cyc))

/-- With no pair being tried, a linked port at the start of a LANE cycle sends its waiting packet of the highest class, the oldest first, as a SOP block and data blocks with PKT_SUM, dealt to the active lanes in ascending order and scrambled lane by lane, and no other leaves the queue; with none waiting each active lane sends IDLE, as every lane of a port that is not linked does, or CAP in step 3. The stream is re-interleaved on receive. A packet that is cut, whose LENGTH is not ceil((BYTES + 4) / 16), or whose PKT_SUM fails raises PKT_BAD with no other effect; a valid one is counted and delivered: HEARTBEAT, TOUCH, LINE36 of a Tandem port and ROW as their own commands are; RX_DROP where its destination has no room. A WIDTH block of COUNTDOWN 0 restripes the receiver; when it drops a pair still in the own transmit set, an own width change to the common lanes starts: four WIDTH blocks on each lane of the old set. A change that ends takes the new TX_MASK and raises WIDTH_CHANGE. The loss of an active receive lane starts a change without its pair where WIDTH_CHANGE is on, and takes the port DOWN where it is off or below WIDTH_MIN. Every 100 ms a dropped pair is tried, and one that is ready is restored by a change that adds it. The operand that says a destination has no room and the outcome of an unknown class are the model's (log entry 74), as is DOWN at a lane loss of a version 2 link without WIDTH_CHANGE (log entry 150). -/
def Obligations.NdosinPacketsAndWidth : Prop :=
  (∀ (p : Fin 4) (s : State),
    let x := portOf s p.val
    let linked := rd s F.LNK_STATUS_STATE p = 5
    let down := fun (c : Instr) => ∃ t, exec c s = .next t ∧ rd t F.LNK_STATUS_STATE p = 0 ∧ rd t F.LNK_EVENT_LINK_DOWN p = 1
    let tx := rd s F.LNK_STATUS_TX_MASK p
    let on := (upto 4).filter (bitOn tx)
    let changing := linked ∧ bitOn (rd s F.LNK_NEG_ON p) 4 = true
    let spoiled := fun (ty : Nat) (w : WireBlock) => w.header.toNat = 2 ∧ (leAt (descramble w) 0 1 ∉ [0x1E, 0x2D, 0x4B, 0x55, 0x66] ∨
      (leAt (descramble w) 0 1 = ty ∧ (crc32c (bytesAt (descramble w) 0 12)).toNat ≠ leAt (descramble w) 12 4))
    let counts := fun (c : Instr) => ∃ t, exec c s = .next t ∧ rd t F.LNK_EVENT_PKT_BAD p = 1 ∧ t = { s with regs := t.regs, fab := t.fab }
    let sent := fun (k : Nat) (b : List Byte) => Output.block p.val k 2 (scramble (x.scrambler.get k 0) (leNat b)).2
    let summed := fun (l : List Byte) => bytesAt l 0 12 ++ leBytes (crc32c (bytesAt l 0 12)).toNat 4
    let narrows := fun (c : Instr) (mask : Nat) => ∃ t l, exec c s = .next t ∧ (portOf t p.val).width = some mask ∧ t.out = l ++ s.out ∧
      rd t F.LNK_STATUS_TX_MASK p = rd s F.LNK_STATUS_TX_MASK p ∧ rd t F.LNK_STATUS_STATE p = 5 ∧
      l.length = 4 * ((upto 4).filter (bitOn (rd s F.LNK_STATUS_TX_MASK p))).length ∧
      ∀ k, k < 4 → bitOn (rd s F.LNK_STATUS_TX_MASK p) k = true →
        let block := fun (j : Nat) => leNat (summed [0x66, BitVec.ofNat 8 mask, BitVec.ofNat 8 j])
        let st2 := (scramble (x.scrambler.get k 0) (block 3)).1
        let st1 := (scramble st2 (block 2)).1
        let st0 := (scramble st1 (block 1)).1
        .block p.val k 2 (scramble (x.scrambler.get k 0) (block 3)).2 ∈ l ∧ .block p.val k 2 (scramble st2 (block 2)).2 ∈ l ∧
          .block p.val k 2 (scramble st1 (block 1)).2 ∈ l ∧ .block p.val k 2 (scramble st0 (block 0)).2 ∈ l
    let lanes := fun (m : Nat) => ((upto 4).filter (bitOn m)).length
    let least := max 1 (rd s F.LNK_CFG_WIDTH_MIN p)
    let sop := fun (y : Packet) => [0x2D, BitVec.ofNat 8 y.cls] ++ leBytes ((y.payload.length + 19) / 16) 2 ++ leBytes y.payload.length 4 ++ bytesAt y.tag 0 8
    (portQuad s p.val = none → exec (.ndosinPacketSend p) s = .next s) ∧
    (∀ quad, portQuad s p.val = some quad → ¬ linked →
      let quiet := if rd s F.LNK_STATUS_STATE p = 0 then 15 else tx
      let body := if rd s F.LNK_STATUS_STATE p = 3 then summed [0x55, 2, 2, BitVec.ofNat 8 s.straps.device, 0x3F, 0,
        if s.straps.stepping = 0 then 5 else 6, if x.capAck then 1 else 0] else 0x1E :: List.replicate 15 0
      ∃ t l, exec (.ndosinPacketSend p) s = .next t ∧ t = { s with out := l ++ s.out, lnk := t.lnk } ∧ l.length = lanes quiet ∧
        ∀ k, k < 4 → bitOn quiet k = true → sent k body ∈ l) ∧
    (∀ quad, portQuad s p.val = some quad → linked → x.turn = 0 → x.queue = [] → x.tried = 0 →
      ∃ t l, exec (.ndosinPacketSend p) s = .next t ∧ t = { s with out := l ++ s.out, lnk := t.lnk } ∧ l.length = lanes tx ∧
        (portOf t p.val).turn = 0 ∧ ∀ k, k < 4 → bitOn tx k = true → sent k (0x1E :: List.replicate 15 0) ∈ l) ∧
    (∀ quad top y rest, portQuad s p.val = some quad → linked → x.turn = 0 → x.tried = 0 → on ≠ [] → x.queue = top ++ y :: rest → y.cls < 6 →
      (∀ z ∈ top, y.cls < z.cls) → (∀ z ∈ rest, y.cls ≤ z.cls) →
      let n := (y.payload.length + 19) / 16
      let w := on.length
      let lane := fun (i : Nat) => on.getD (i % w) 0
      ∃ (t : State) (l : List Output) (d : List Byte) (scr : Nat → Nat), exec (.ndosinPacketSend p) s = .next t ∧ t = { s with out := l.reverse ++ s.out, lnk := t.lnk } ∧ l.length = n + 1 ∧
        d.length = 16 * n ∧ d.take y.payload.length = y.payload ∧ leAt d (d.length - 4) 4 = (crc32c (sop y ++ d.take (d.length - 4))).toNat ∧
        (portOf t p.val).queue = top ++ rest ∧
        let body := fun (i : Nat) => leNat (if i = 0 then sop y else bytesAt d (16 * (i - 1)) 16)
        (∀ i, i < w → scr i = x.scrambler.get (lane i) 0) ∧ (∀ i, i + w ≤ n → scr (i + w) = (scramble (scr i) (body i)).1) ∧
        ∀ i, i ≤ n → l[i]? = some (.block p.val (lane i) (if i = 0 then 2 else 1) (scramble (scr i) (body i)).2)) ∧
    (∀ (streams : List (List WireBlock)) (rx i depth : Nat), rx < 16 → let act := (upto 4).filter (bitOn rx)
      (∀ k, k ∈ act → (streams.getD k []).length = depth ∧ ∀ b ∈ streams.getD k [], ¬(b.header.toNat = 2 ∧ leAt (descramble b) 0 1 = 0x4B)) →
      i < act.length * depth → (interleave rx 0 streams)[i]? = (streams.getD (act.getD (i % act.length) 0) [])[i / act.length]?) ∧
    (∀ (skip : Fin 4) (streams : List (List WireBlock)) (room : Bool),
      (¬ linked ∨ interleave (rd s F.LNK_STATUS_RX_MASK p) skip.val streams = [] → exec (.ndosinPacketRx p skip streams room) s = .next s) ∧
      ∀ first later, linked → interleave (rd s F.LNK_STATUS_RX_MASK p) skip.val streams = first :: later →
      let sop := descramble first
      let len := leAt sop 2 2
      let bytes := leAt sop 4 4
      let data := ((later.take len).map descramble).flatten
      let starts := first.header.toNat = 2 ∧ leAt sop 0 1 = 0x2D
      let valid := starts ∧ len = (bytes + 19) / 16 ∧ len ≤ later.length ∧ (∀ b ∈ later.take len, b.header = 1) ∧ 1 ≤ bytes ∧ bytes ≤ 32764 ∧
        (crc32c (sop ++ data.take (16 * len - 4))).toNat = leAt data (16 * len - 4) 4
      (¬ starts → ¬ spoiled 0x2D first → exec (.ndosinPacketRx p skip streams room) s = .next s) ∧
      (first.header.toNat = 2 → leAt sop 0 1 ∉ [0x1E, 0x2D, 0x4B, 0x55, 0x66] → counts (.ndosinPacketRx p skip streams room)) ∧
      (starts → ¬ valid → counts (.ndosinPacketRx p skip streams room)) ∧
      (valid → room = false → ∃ t, exec (.ndosinPacketRx p skip streams room) s = .next t ∧ rd t F.LNK_EVENT_RX_DROP p = 1 ∧
        rd t F.LNK_RX_PKTS_PKTS p = (rd s F.LNK_RX_PKTS_PKTS p + 1) % 2 ^ 32 ∧ t = { s with regs := t.regs, fab := t.fab }) ∧
      (valid → room = true → ∃ u, rd u F.LNK_RX_PKTS_PKTS p = (rd s F.LNK_RX_PKTS_PKTS p + 1) % 2 ^ 32 ∧ sameRegsBut s u [R.LNK_RX_PKTS.addr p 0] ∧
        u = { s with regs := u.regs } ∧
        (leAt sop 1 1 = 1 → exec (.ndosinPacketRx p skip streams room) s = exec (.heartbeatRx p (bytesAt data 0 bytes)) u) ∧
        (leAt sop 1 1 = 2 → exec (.ndosinPacketRx p skip streams room) s = exec (.touchRemoteReportRx p (bytesAt data 0 bytes)) u) ∧
        (leAt sop 1 1 = 5 → exec (.ndosinPacketRx p skip streams room) s = exec (.rowRecordRx p (bytesAt data 0 bytes)) u) ∧
        (leAt sop 1 1 = 3 → bitOn (leAt sop 15 1) 0 = true → p.val ∈ tandemPorts s → bitOn (rd s F.LNK_NEG_ON p) 1 = true →
          ∀ c : Fin 32, leAt sop 8 1 % 32 = c.val →
            exec (.ndosinPacketRx p skip streams room) s = exec (.twinLineRx c (BitVec.ofNat 16 (leAt sop 9 2)) (bytesAt data 0 bytes)) u) ∧
        (leAt sop 1 1 = 3 → bitOn (leAt sop 15 1) 0 = false ∨ p.val ∉ tandemPorts s ∨ bitOn (rd s F.LNK_NEG_ON p) 1 = false →
          exec (.ndosinPacketRx p skip streams room) s = .next u))) ∧
    (∀ w : WireBlock,
      let b := descramble w
      let good := w.header.toNat = 2 ∧ leAt b 0 1 = 0x66 ∧ (crc32c (bytesAt b 0 12)).toNat = leAt b 12 4
      let m := leAt b 1 1 % 16
      let common := m &&& rd s F.LNK_STATUS_TX_MASK p
      (¬ changing → ¬ spoiled 0x66 w → exec (.widthRx p w) s = .next s) ∧
      (∀ quad, portQuad s p.val = some quad → spoiled 0x66 w → counts (.widthRx p w)) ∧
      (good → leAt b 2 1 ≠ 0 → exec (.widthRx p w) s = .next s) ∧
      (changing → good → leAt b 2 1 = 0 → rd s F.LNK_STATUS_REVERSED p = 0 → x.turn = 0 → x.width = none → x.widthNext = none →
        (common = rd s F.LNK_STATUS_TX_MASK p → ∃ t, exec (.widthRx p w) s = .next t ∧ rd t F.LNK_STATUS_RX_MASK p = m ∧
          sameRegsBut s t [R.LNK_STATUS.addr p 0] ∧ t = { s with regs := t.regs }) ∧
        (common ≠ rd s F.LNK_STATUS_TX_MASK p → least ≤ lanes common → narrows (.widthRx p w) common) ∧
        (common ≠ rd s F.LNK_STATUS_TX_MASK p → lanes common < least → down (.widthRx p w)))) ∧
    (x.width = none → exec (.widthChangeDone p) s = .next s) ∧
    (∀ m, m < 16 → x.width = some m → x.widthNext = none → ∃ t, exec (.widthChangeDone p) s = .next t ∧ rd t F.LNK_STATUS_TX_MASK p = m ∧
      rd t F.LNK_EVENT_WIDTH_CHANGE p = 1 ∧ (portOf t p.val).width = none ∧ (portOf t p.val).queue = x.queue ∧ (portOf t p.val).turn = 0 ∧ (x.turn = 0 → t.out = s.out) ∧ t.mem = s.mem) ∧
    (¬ changing ∨ s.time.cyc < x.triedAt + 62500000 → exec (.laneRestoreTry p) s = .next s) ∧
    (changing → x.turn = 0 → x.triedAt + 62500000 ≤ s.time.cyc → x.width = none → x.widthNext = none →
      (rd s F.LNK_CFG_LANE_MASK p = rd s F.LNK_STATUS_TX_MASK p → ∃ t, exec (.laneRestoreTry p) s = .next t ∧ (portOf t p.val).tried = 0 ∧
        t = { s with lnk := t.lnk }) ∧
      (∀ k, k < 4 → rd s F.LNK_CFG_LANE_MASK p = rd s F.LNK_STATUS_TX_MASK p + 2 ^ k → bitOn (rd s F.LNK_STATUS_TX_MASK p) k = false →
        (pairReady s p.val k = false → ∃ t, exec (.laneRestoreTry p) s = .next t ∧ (portOf t p.val).tried = 2 ^ k ∧ t = { s with lnk := t.lnk }) ∧
        (pairReady s p.val k = true → least ≤ lanes (rd s F.LNK_CFG_LANE_MASK p) → narrows (.laneRestoreTry p) (rd s F.LNK_CFG_LANE_MASK p)))) ∧
    (∀ (quad k : Nat) (l : Fin 64), quad < 16 → k < 4 → l.val = 4 * quad + k → rd s F.LANE_QUAD_COMMIT_LOCKED = 1 → portQuad s p.val = some quad →
      linked → bitOn (rd s F.LNK_STATUS_RX_MASK p) k = true → rd s F.LANE_STATUS_PCS_LOCK l = 1 →
      (¬ changing → down (.laneLockLoss l)) ∧
      (changing → x.turn = 0 → x.width = none → x.widthNext = none → bitOn (rd s F.LNK_STATUS_TX_MASK p) k = true →
        (least ≤ lanes (rd s F.LNK_STATUS_TX_MASK p - 2 ^ k) → narrows (.laneLockLoss l) (rd s F.LNK_STATUS_TX_MASK p - 2 ^ k)) ∧
        (lanes (rd s F.LNK_STATUS_TX_MASK p - 2 ^ k) < least → down (.laneLockLoss l)))))

/-- The oldest transaction in a shim that no hold, reset or limit of 64 stops is checked: a denied one is answered with a protection error, zeros for a read, and PRT_VIOL_LAST unless a lower master's refusal of the same cycle stands there; one without a target goes to the default target, any other to its port. Of the requests that none before them with their ID or 64-byte line holds back, a port grants the one of the highest effective QoS, then the earliest, then the parked master, then the lowest master; a channel may take one of equal QoS to an open row before it for 256 cycles. The port is occupied for its beats and answers; a read of DRAM or store carries the bytes, and a register write acts as REGISTER_WRITE does. A stopped channel grants none. The default target records KIND, DECODE and answers with an error. A response of an older generation is dropped; a sequencer and the debug master get their own. A master reset drops what its shim holds and what it presented in this cycle, advances its generation and sets BUSY; A read of two 32-bit registers samples the upper one later, when a NET cycle passes or with the response. MRESET_DONE follows after 16 cycles and once no response of the new generation is outstanding. Responses of one master, ID and port return in order. The first KIND of R562 that applies is the one recorded. That a hardware master's accesses are granted within the command that brings them, how far a sequencer's own rows go, the depth of the write queue, the free choice of an open row and the time of that later sample are the model's (log entries 141 to 143 and 152). -/
def Obligations.FabricChecksGrantsAndResponses : Prop :=
  (∀ (m : BitVec 7) (s : State),
    let mine := heldBy s m.toNat
    let sequencer := 16 ≤ m.toNat ∧ m.toNat ≤ 31
    let stays := fun (y : Xact) => (∃ u, unitOf m.toNat = some u ∧ (rd s F.PRT_HOLD_REQ u = 1 ∨ rd s F.PRT_HOLD_HELD u = 1)) ∧
      ¬(0x1800180000 ≤ y.addr ∧ y.addr ≤ 0x180018FFFF)
    let free := (∀ e ∈ s.fab.resets, e.1 ≠ m.toNat) ∧ outstanding s m.toNat none < 64
    (¬ sequencer → mine = s.fab.held.filter fun y => y.master == m.toNat) ∧
    (¬ free ∨ (∀ y ∈ mine, stays y) → exec (.protectionCheck m) s = .next s) ∧
    ∀ x top rest, mine = top ++ x :: rest → (∀ y ∈ top, stays y) → ¬ stays x → free →
      let u := (unitOf m.toNat).getD 0
      let tag := if sequencer then s.fab.nextTag else x.tag
      let back := fun (e : Nat) => Resp.mk x.master x.addr x.gen x.write (List.replicate (if x.write then 0 else x.len) 0) e tag x.id 12 none
      let a : Access1 := { master := x.master, addr := x.addr, len := x.len, write := x.write, user := x.user, masked := !x.holes.isEmpty }
      let lower := s.prt.violAt.find u = some (fabCyc s) ∧ rd s F.PRT_VIOL_LAST_MASTER u < x.master
      (∀ d, protCheck s a = some d → unitOf m.toNat = some u → ∃ t, exec (.protectionCheck m) s = .next t ∧ heldBy t m.toNat = top ++ rest ∧
        t.fab.ports = s.fab.ports ∧ t.fab.resps = s.fab.resps ++ [back 1] ∧
        (¬ lower → rd t F.PRT_VIOL_LAST_ADDR u = d.addr % 2 ^ 40 ∧ rd t F.PRT_VIOL_LAST_MASTER u = x.master % 128 ∧
          rd t F.PRT_VIOL_LAST_WRITE u = bit x.write ∧ rd t F.PRT_VIOL_LAST_KIND u = d.kind % 8) ∧
        (lower → rdReg t R.PRT_VIOL_LAST u = rdReg s R.PRT_VIOL_LAST u) ∧ rd t F.PRT_EVENT_VIOLATION u = 1 ∧ t.mem = s.mem) ∧
      (protCheck s a = none → decodeKind s a = 0 → ∃ t y, exec (.protectionCheck m) s = .next t ∧ heldBy t m.toNat = top ++ rest ∧
        waitingAt t (portNo x.addr) = waitingAt s (portNo x.addr) ++ [y] ∧ y = { x with tag := tag, kind := 0, qos := y.qos, arrived := fabCyc s } ∧
        (x.master = 0 → y.qos = rd s F.XBR_QOS_SW_HOST) ∧ (x.master = 1 → y.qos = rd s F.XBR_QOS_SW_DEBUG) ∧
        (sequencer → x.master = m.toNat → y.qos = rd s F.XBR_QOS_SW_SEQ) ∧
        (∀ k, k ≠ portNo x.addr → waitingAt t k = waitingAt s k) ∧ t = { s with fab := t.fab, seqs := t.seqs } ∧ (¬ sequencer → x.master = m.toNat → t.seqs = s.seqs)) ∧
      (protCheck s a = none → decodeKind s a ≠ 0 → ∃ t y, exec (.protectionCheck m) s = .next t ∧ heldBy t m.toNat = top ++ rest ∧
        waitingAt t 11 = waitingAt s 11 ++ [y] ∧ y.kind = decodeKind s a ∧ y.addr = x.addr ∧ y.master = x.master ∧ t = { s with fab := t.fab, seqs := t.seqs })) ∧
  (∀ (s : State) (a : Access1),
    (2 ^ 40 ≤ a.addr → decodeKind s a = 5) ∧
    (a.addr < 2 ^ 40 → targetOf a.addr = none → decodeKind s a = 1) ∧
    (targetOf a.addr = some .dram → dramSize s ≤ a.addr ∨ inCheckArea s a.addr = true ∨ dramUp s = false → decodeKind s a = 2) ∧
    (targetOf a.addr = some .varnish → connected a.master .varnish = false → decodeKind s a = 3) ∧
    (targetOf a.addr = some .register → connected a.master .register = true → a.len = 4 ∨ a.len = 8 → a.addr % a.len = 0 → a.masked = false →
      decodeKind s a = 0) ∧
    (∀ k, targetOf a.addr = some k → k ≠ .dram → connected a.master k = true → a.masked = true → a.addr < 2 ^ 40 → decodeKind s a = 4) ∧
    (targetOf a.addr = some .register → connected a.master .register = true → a.len = 4 ∨ a.len = 8 → a.addr % a.len ≠ 0 → decodeKind s a = 4) ∧
    (targetOf a.addr = some .varnish → connected a.master .varnish = true → a.masked = false → a.len ≠ 0 → a.addr / 256 = (a.addr + a.len - 1) / 256 →
      decodeKind s a = if a.write then 6 else 0)) ∧
  (∀ (p : Fin 11) (s : State),
    let l := waitingAt s p.val
    let qos := fun (x : Xact) => if x.arrived + rd s F.XBR_CTRL_AGE_LIMIT ≤ fabCyc s then max x.qos 14 else x.qos
    let before := fun (x y : Xact) => qos y < qos x ∨ (qos y = qos x ∧ (x.arrived < y.arrived ∨ (x.arrived = y.arrived ∧
      (x.master = parked s p.val ∨ (y.master ≠ parked s p.val ∧ x.master ≤ y.master)))))
    let line := fun (x y : Xact) => x.addr / 64 ≤ (y.addr + (y.len - 1)) / 64 ∧ y.addr / 64 ≤ (x.addr + (x.len - 1)) / 64
    let drains := fun (x : Xact) => p.val < 8 → rd s F.DMC_GSTATUS_PANIC = 1 → x.write = true → x.qos < 15 →
      7 * Config.writeQueue ≤ 8 * (l.filter fun y => y.write).length
    let may := fun (x : Xact) => ∃ first later, l = first ++ x :: later ∧ drains x ∧
      ∀ a ∈ first, ¬(a.master = x.master ∧ a.id = x.id) ∧ ¬((a.write = true ∨ x.write = true) ∧ line a x)
    let stopped := p.val < 8 ∧ (s.dmc.window = some p.val ∨ rd s F.DMC_GSTATUS_FREQ_BUSY = 1)
    ((∀ x ∈ l, ¬ may x) ∨ fabCyc s < s.fab.busyTo.get p.val 0 ∨ stopped → exec (.fabricGrant p) s = .next s) ∧
    (∀ z, may z → s.fab.busyTo.get p.val 0 ≤ fabCyc s → ¬ stopped → ∃ t x, exec (.fabricGrant p) s = .next t ∧ may x ∧
      ((∀ y, may y → before x y) ∨ (p.val < 8 ∧ rowOpen s x.addr = true ∧ ∃ y, may y ∧ (∀ w, may w → before y w) ∧ qos y = qos x ∧
        fabCyc s < y.arrived + 256)) ∧
      (p.val < 8 → dramUp s = false → waitingAt t p.val = l.erase x ∧ rd t F.XBR_EVENT_DECODE = 1 ∧ rd t F.XBR_ERR_LAST_KIND = 2 ∧
        rd t F.XBR_ERR_LAST_ADDR = x.addr % 2 ^ 40 ∧ t.mem = s.mem ∧
        t.fab.resps = s.fab.resps ++ [Resp.mk x.master x.addr x.gen x.write (List.replicate (if x.write then 0 else x.len) 0) 2 x.tag x.id p.val none]) ∧
      ((p.val < 8 → dramUp s = true) → x.write = false ∨ targetOf x.addr ≠ some .register → ∃ r, waitingAt t p.val = l.erase x ∧
        t.fab.resps = s.fab.resps ++ [r] ∧ r.master = x.master ∧ r.addr = x.addr ∧ r.gen = x.gen ∧ r.write = x.write ∧ r.tag = x.tag ∧ r.id = x.id ∧
        r.port = p.val ∧ t.fab.granted.find p.val = some x.master ∧
        t.fab.busyTo.find p.val = some (fabCyc s + if x.write then max 1 ((x.len + 31) / 32) else 1) ∧
        (x.write = false → (8 ≤ p.val → targetOf x.addr ≠ some .dram → t = { s with fab := t.fab }) ∧ t.mem = s.mem ∧
          (targetOf x.addr = some .varnish → r.err = 0 ∧ r.data = Memory.readBytes s.cmp.store (x.addr - 0x1000000000) x.len) ∧
          (8 ≤ p.val → targetOf x.addr = some .register → r.err = 0 ∧ r.data = readSpace s (x.addr - 0x1800000000) x.len ∧
            r.late = if x.len = 8 ∧ splitAccess s (x.addr - 0x1800000000) = true then some (x.addr - 0x1800000000 + 4) else none) ∧
          (∀ d, targetOf x.addr = some .dram → dramRead s x.addr x.len = some d → r.err = 0 ∧ r.data = d ∧
            (s.dmc.weak.filter (wordMeets x.addr x.len) = [] → t = { s with fab := t.fab, dmc := t.dmc, free := t.free }))) ∧
        (∀ n off, x.write = true → x.addr = 0x1010000000 + n * 0x80000 + off → n < 16 → 0x20000 ≤ off → off < 0x80000 → r.err = 0 ∧
          seqOf t n = { seqOf s n with dmem := Memory.writeBytes (seqOf s n).dmem (off - 0x20000) x.data } ∧ t.mem = s.mem)) ∧
      (∀ off : BitVec 26, 8 ≤ p.val → x.write = true → x.addr = 0x1800000000 + off.toNat → x.data.length = 4 → off.toNat % 4 = 0 →
        ∃ u w, u = { s with fab := u.fab } ∧ waitingAt u p.val = l.erase x ∧ u.fab.held = s.fab.held ∧
          exec (.registerWrite off false (BitVec.ofNat 64 (leNat x.data))) u = .next w ∧
          t = { w with fab := { w.fab with resps := w.fab.resps ++ [Resp.mk x.master x.addr x.gen true [] 0 x.tag x.id p.val none] } }))) ∧
  (∀ (s : State), (waitingAt s 11 = [] → exec .decodeError s = .next s) ∧
    ∀ x rest, waitingAt s 11 = x :: rest → ∃ t, exec .decodeError s = .next t ∧ waitingAt t 11 = rest ∧ rd t F.XBR_EVENT_DECODE = 1 ∧
      rd t F.XBR_ERR_LAST_ADDR = x.addr % 2 ^ 40 ∧ rd t F.XBR_ERR_LAST_MASTER = x.master % 128 ∧ rd t F.XBR_ERR_LAST_WRITE = bit x.write ∧
      rd t F.XBR_ERR_LAST_KIND = x.kind % 8 ∧ rd t F.XBR_ERR_LAST_VALID = 1 ∧ t.mem = s.mem ∧
      t.fab.resps = s.fab.resps ++ [Resp.mk x.master x.addr x.gen x.write (List.replicate (if x.write then 0 else x.len) 0) 2 x.tag x.id 11 none]) ∧
  (∀ (m : BitVec 7) (id : BitVec 8) (port : Fin 13) (s : State),
    let its := fun (r : Resp) => r.master = m.toNat ∧ r.id = id.toNat ∧ r.port = port.val
    ((∀ r ∈ s.fab.resps, ¬ its r) → exec (.responseReturn ⟨m, id, port⟩) s = .next s) ∧
    ∀ r top rest, s.fab.resps = top ++ r :: rest → its r → (∀ y ∈ top, ¬ its y) →
      let data := match r.late with | none => r.data | some off => r.data.take 4 ++ leBytes (readWord s off) 4
      let u : State := { s with fab := { s.fab with resps := top ++ rest } }
      (r.gen ≠ genOf s m.toNat ∨ (2 ≤ m.toNat ∧ ¬(16 ≤ m.toNat ∧ m.toNat ≤ 31)) → exec (.responseReturn ⟨m, id, port⟩) s = .next u) ∧
      (∀ n, n < 16 → m.toNat = 16 + n → r.gen = genOf s m.toNat → exec (.responseReturn ⟨m, id, port⟩) s = .next (setSeq u n { seqOf s n with
        posted := (seqOf s n).posted.map fun w =>
          if w.sent = some r.tag then { w with made := true, cause := if r.err = 0 then 0 else if r.err = 1 then causeProt else causeDecode } else w
        read := (seqOf s n).read.map fun y => if y.sent = some r.tag then { y with answer := some (r.err, data) } else y })) ∧
      (r.gen = genOf s m.toNat → m = 1 → exec (.responseReturn ⟨m, id, port⟩) s = .next { u with out := .debug r.write (r.err == 0) data :: s.out })) ∧
  (∀ (s : State), s.pending = [] → ∃ t, step s = .next t ∧ t.fab.resps = s.fab.resps.map fun r =>
    match r.late with | none => r | some off => { r with data := r.data.take 4 ++ leBytes (readWord s off) 4, late := none }) ∧
  (∀ (m : BitVec 7) (s : State),
    (m.toNat ∉ allMasters → exec (.masterReset m) s = .next s) ∧
    (m.toNat ∈ allMasters → ∃ t, exec (.masterReset m) s = .next t ∧ (∀ x ∈ t.fab.held, x.master ≠ m.toNat) ∧
      (∀ x ∈ s.fab.held, x.master ≠ m.toNat → x ∈ t.fab.held) ∧ genOf t m.toNat = (genOf s m.toNat + 1) % 4 ∧
      (∀ k, k ≠ m.toNat → genOf t k = genOf s k) ∧ (∀ k, waitingAt t k = (waitingAt s k).filter fun x => x.master != m.toNat || x.arrived != fabCyc s) ∧
      heldBy t m.toNat = [] ∧
      t.fab.resps = s.fab.resps ∧ t.fab.resets = (s.fab.resets.filter fun e => e.1 != m.toNat) ++ [(m.toNat, fabCyc s)] ∧ (m = 0 → t.fab.host = [] ∧ t.fab.hostWait = []) ∧
      rd t F.XBR_MRESET_STATUS_BUSY = 1 ∧ rd t F.XBR_MRESET_STATUS_MASTER = m.toNat ∧ t.mem = s.mem)) ∧
  (∀ (s : State),
    let ended := fun (e : Nat × Nat) => e.2 + 16 ≤ fabCyc s ∧ outstanding s e.1 (some (genOf s e.1)) = 0
    ((∀ e ∈ s.fab.resets, ¬ ended e) → exec .mresetDone s = .next s) ∧
    (∀ top e rest, s.fab.resets = top ++ e :: rest → (∀ y ∈ top, ¬ ended y) → ended e → ∃ t, exec .mresetDone s = .next t ∧
      t.fab.resets = top ++ rest ∧ rd t F.XBR_MRESET_STATUS_BUSY = (if top ++ rest = [] then 0 else 1) ∧ rd t F.XBR_EVENT_MRESET_DONE = 1 ∧ t.fab.held = s.fab.held ∧ t.mem = s.mem)) ∧
  (∀ (addr : BitVec 40) (w : Bool) (len : BitVec 9) (b : List (Option Byte)) (s : State),
    (s.pwr.phase ≠ .main → exec (.debugMasterRequest addr w len b) s = .next s) ∧
    (s.pwr.phase = .main → ∃ t x, exec (.debugMasterRequest addr w len b) s = .next t ∧ t.fab.held = s.fab.held ++ [x] ∧ x.master = 1 ∧
      x.addr = addr.toNat ∧ x.write = w ∧ x.data = b.map (·.getD 0) ∧ (∀ k, k ∈ x.holes ↔ w = true ∧ b[k]? = some none) ∧ x.len = (if w then b.length else len.toNat) ∧ x.gen = genOf s 1 ∧ t = { s with fab := t.fab }))

/-- A host write is split at 256-byte boundaries into transactions that carry its bytes in address order, and they enter the shim in arrival order; a read waits while an earlier write has parts unanswered. The answer to the last part ends a write, raising HOST_ERR if any part failed. A read whose parts are answered completes with its data, or with Completer Abort and HOST_ERR. A raised vector that is unmasked sends its message and its pending bit clears while MSI-X Enable and Bus Master Enable are 1 and Function Mask is 0; unmasking a pending vector sends at once, as writing the enables does, and nothing else is sent. H2D signals event 138, D2H raises vector 3. An attach with version 2 sets ATTACHED; another raises ATT_REFUSED with FOUND. PERST clears the PCIe layer and nothing else; a Hot Reset is a warm reset while HOTRST_EN is 1, and otherwise nothing. Where BAR4 and the configuration space lie in a request's addresses (log entries 34, 144), and the IDs of the host's shim (log entry 118), is the model's. -/
def Obligations.HostRequestsMessagesAndMailbox : Prop :=
  (∀ (a : BitVec 40) (len : BitVec 13) (b : List (Option Byte)) (s : State),
    (s.pwr.phase ≠ .main ∨ b = [] → exec (.hostRequest true a len b) s = .next s) ∧
    (s.pwr.phase ≠ .main ∨ len = 0 → exec (.hostRequest false a len b) s = .next s) ∧
    (s.pwr.phase = .main → b ≠ [] → a.toNat < 0x2000000000 → s.fab.hostWait = [] → ∃ t l, exec (.hostRequest true a len b) s = .next t ∧
      t.fab.held = s.fab.held ++ l ∧ (l.map (·.data)).flatten = b.map (·.getD 0) ∧ t.fab.hostWait = [] ∧ t = { s with fab := t.fab } ∧
      t.fab.host = s.fab.host ++ [{ tag := s.fab.nextTag, write := true, parts := l.length }] ∧ t.fab.nextTag = s.fab.nextTag + 1 ∧
      (∀ x ∈ l, x.master = 0 ∧ x.write = true ∧ x.user = false ∧ x.tag = s.fab.nextTag ∧ x.id = 0 ∧ x.gen = genOf s 0 ∧ x.len = x.data.length ∧ 1 ≤ x.len ∧
        (∀ j, j ∈ x.holes ↔ j < x.len ∧ b[x.addr - a.toNat + j]? = some none) ∧ x.addr / 256 = (x.addr + x.len - 1) / 256) ∧
      ∀ k x, l[k]? = some x → x.addr = a.toNat + ((l.take k).map (·.len)).sum) ∧
    (s.pwr.phase = .main → 1 ≤ len.toNat → a.toNat < 0x2000000000 → a.toNat / 256 = (a.toNat + len.toNat - 1) / 256 → s.fab.hostWait = [] →
      ((∀ r ∈ s.fab.host, ¬(r.write = true ∧ 0 < r.parts ∧ r.tag < s.fab.nextTag)) → ∃ t, exec (.hostRequest false a len b) s = .next t ∧
        t.fab.held = s.fab.held ++ [{ master := 0, gen := genOf s 0, addr := a.toNat, len := len.toNat, tag := s.fab.nextTag, id := 1 + s.fab.nextTag % 255 }] ∧
        t.fab.host = s.fab.host ++ [{ tag := s.fab.nextTag, parts := 1 }] ∧ t = { s with fab := t.fab }) ∧
      ((∃ r ∈ s.fab.host, r.write = true ∧ 0 < r.parts ∧ r.tag < s.fab.nextTag) → ∃ t, exec (.hostRequest false a len b) s = .next t ∧
        t.fab.held = s.fab.held ∧ t.fab.hostWait = [{ addr := a.toNat, len := len.toNat, tag := s.fab.nextTag, id := 1 + s.fab.nextTag % 255 }])) ∧
    (∀ v, s.pwr.phase = .main → v < 512 → a.toNat = 0x2000000000 + 16 * v → len = 16 → ∃ t, exec (.hostRequest false a len b) s = .next t ∧
      t.fab.held = s.fab.held ∧ t.fab.host = s.fab.host ++ [{ tag := s.fab.nextTag, data := [(a.toNat, leBytes (msixEntry s v).addr 8 ++
        leBytes (msixEntry s v).data 4 ++ leBytes (bit (msixEntry s v).masked) 4)] }]) ∧
    (s.pwr.phase = .main → a.toNat = 0x3000000004 → len = 4 → ∃ t, exec (.hostRequest false a len b) s = .next t ∧
      t.fab.host = s.fab.host ++ [{ tag := s.fab.nextTag, data := [(a.toNat, leBytes (4 * bit s.fab.cfg.busMaster) 4)] }]) ∧
    (∀ v : BitVec 32, s.pwr.phase = .main → b = (leBytes v.toNat 4).map some →
      let sends := fun (t : State) => t.fab.table = s.fab.table ∧ t.regs = s.regs ∧ t.mem = s.mem ∧
        ∀ k, k < 512 → (k ∈ t.fab.pba ↔ k ∈ s.fab.pba ∧ ¬(msixOn t = true ∧ (msixEntry s k).masked = false))
      (a.toNat = 0x3000000004 → ∃ t, exec (.hostRequest true a len b) s = .next t ∧ t.fab.cfg = { s.fab.cfg with busMaster := bitOn v.toNat 2 } ∧ sends t) ∧
      (a.toNat = 0x3000000070 → ∃ t, exec (.hostRequest true a len b) s = .next t ∧
        t.fab.cfg = { s.fab.cfg with masked := bitOn v.toNat 30, msix := bitOn v.toNat 31 } ∧ sends t))) ∧
  (∀ (s : State) (id : BitVec 8) (port : Fin 13) (r : Resp) (top rest : List Resp) (h : HostReq) (pre post : List HostReq), s.fab.resps = top ++ r :: rest → r.master = 0 → r.id = id.toNat → r.port = port.val →
    (∀ y ∈ top, ¬(y.master = 0 ∧ y.id = id.toNat ∧ y.port = port.val)) → r.gen = genOf s 0 → s.fab.host = pre ++ h :: post → h.tag = r.tag → (∀ y ∈ pre ++ post, y.tag ≠ h.tag) →
    s.fab.hostWait = [] →
    (h.write = true → h.parts = 1 → ∃ t, exec (.responseReturn ⟨0, id, port⟩) s = .next t ∧ t.fab.host = pre ++ post ∧ t.fab.resps = top ++ rest ∧
      (h.err = true ∨ r.err ≠ 0 → rd t F.XBR_EVENT_HOST_ERR = 1 ∧ bitOn t.fab.cfg.aer 15 = true) ∧
      (h.err = false → r.err = 0 → rd t F.XBR_EVENT_HOST_ERR = rd s F.XBR_EVENT_HOST_ERR) ∧ t.mem = s.mem) ∧
    (h.write = false → ∃ t, exec (.responseReturn ⟨0, id, port⟩) s = .next t ∧ t = { s with fab := t.fab } ∧
      t.fab.host = pre ++ { h with parts := h.parts - 1, data := h.data.put r.addr (withUpper s r).data, err := h.err || r.err != 0 } :: post)) ∧
  (∀ (s : State),
    ((∀ h ∈ s.fab.host, h.write = true ∨ 0 < h.parts) → exec .hostCompletion s = .next s) ∧
    ∀ h pre post, s.fab.host = pre ++ h :: post → h.write = false → h.parts = 0 → (∀ y ∈ pre, y.write = true ∨ 0 < y.parts) →
      (∀ y ∈ pre ++ post, y.tag ≠ h.tag) → ∃ t, exec .hostCompletion s = .next t ∧ t.fab.host = pre ++ post ∧ t.mem = s.mem ∧
        (h.err = false → t.out = .completion true (h.data.map (·.2)).flatten :: s.out ∧ t.regs = s.regs) ∧
        (h.err = true → t.out = .completion false [] :: s.out ∧ rd t F.XBR_EVENT_HOST_ERR = 1 ∧ bitOn t.fab.cfg.aer 15 = true)) ∧
  (∀ (v : Fin 512) (s : State),
    let e := msixEntry s v.val
    let on := s.fab.cfg.msix = true ∧ s.fab.cfg.busMaster = true ∧ s.fab.cfg.masked = false
    (¬ on ∨ v.val ∉ s.fab.pba ∨ e.masked = true → exec (.msixMessage v) s = .next s) ∧
    (on → v.val ∈ s.fab.pba → e.masked = false → ∃ t, exec (.msixMessage v) s = .next t ∧ t.out = .message v.val e.addr e.data :: s.out ∧
      v.val ∉ t.fab.pba ∧ (∀ k, k ≠ v.val → (k ∈ t.fab.pba ↔ k ∈ s.fab.pba)) ∧ t.fab.table = s.fab.table ∧ t.regs = s.regs ∧ t.mem = s.mem) ∧
    (∃ t, exec (.msixUnmask v) s = .next t ∧ msixEntry t v.val = { e with masked := false } ∧ (∀ k, k ≠ v.val → msixEntry t k = msixEntry s k) ∧
      (on → v.val ∉ t.fab.pba) ∧ (on → v.val ∈ s.fab.pba → t.out = .message v.val e.addr e.data :: s.out) ∧
      (¬ on ∨ v.val ∉ s.fab.pba → t.out = s.out ∧ t.fab.pba = s.fab.pba) ∧
      t.regs = s.regs ∧ t.mem = s.mem)) ∧
  (∀ (s : State), exec .mbxDoorbellH2d s = .next (signal s 138) ∧
    ∃ t, exec .mbxDoorbellD2h s = .next t ∧ 3 ∈ t.fab.pba ∧ (∀ k, k ≠ 3 → (k ∈ t.fab.pba ↔ k ∈ s.fab.pba)) ∧
      t = { s with fab := { s.fab with pba := t.fab.pba } }) ∧
  (∀ (v : BitVec 8) (s : State),
    (v = 2 → ∃ t, exec (.mbxAttach v) s = .next t ∧ rd t F.GLB_MBX_STATE_ATTACHED = 1 ∧ rd t F.GLB_MBX_STATE_ATT_REFUSED = rd s F.GLB_MBX_STATE_ATT_REFUSED ∧
      sameRegsBut s t [R.GLB_MBX_STATE.addr 0 0] ∧ t = { s with regs := t.regs }) ∧
    (v ≠ 2 → ∃ t, exec (.mbxAttach v) s = .next t ∧ rd t F.GLB_MBX_STATE_ATTACHED = 0 ∧ rd t F.GLB_MBX_STATE_ATT_REFUSED = 1 ∧
      rd t F.GLB_MBX_STATE_FOUND = v.toNat ∧ sameRegsBut s t [R.GLB_MBX_STATE.addr 0 0] ∧ t = { s with regs := t.regs, fab := t.fab })) ∧
  (∀ (s : State), (∃ t, exec .pciePerst s = .next t ∧ t = { s with fab := t.fab } ∧ t.fab.host = [] ∧ t.fab.hostWait = [] ∧ t.fab.pba = [] ∧
      t.fab.table = [] ∧ t.fab.cfg = {} ∧ (∀ x, x ∈ t.fab.held ↔ x ∈ s.fab.held ∧ x.master ≠ 0)) ∧
    (rd s F.PWR_CTRL_HOTRST_EN = 1 → s.pwr.phase = .main → exec .pcieHotReset s = exec .warmReset s) ∧
    (rd s F.PWR_CTRL_HOTRST_EN = 0 ∨ s.pwr.phase ≠ .main → exec .pcieHotReset s = .next s))

/-- In the configuration in effect the lowest enabled region that covers a 64-byte granule decides it: READ or WRITE, and USER for a user access; with none, DEFAULT decides a privileged access and a user one is denied. A transaction outside the protection block is allowed just when each granule is; else the denial names the first forbidden byte. The debug master is also shut out of DEBUG_DENY granules of any unit and of writes to the Ledger and the protection block; that block takes HOST and SEQ privileged accesses and debug reads. A hold request sets REQ; HELD follows while it stands; a release clears REQ and raises UPD_REFUSED for an enabled empty region; the configuration as written takes effect then, for that unit alone, and HELD clears. With HELD 0, or a locked region, a write of a region register changes nothing and raises UPD_REFUSED, of its upper half too; else it is taken. A write of PRT_CTRL with HELD 0 keeps DEFAULT and raises UPD_REFUSED whatever it brings (log entry 20), while INT_EN and LOCK follow LOCK. -/
def Obligations.ProtectionUnits : Prop :=
  (∀ (s : State) (u g : Nat) (write user : Bool), u < 13 →
    let on := fun (r : Nat) => eff s F.PRT_RGN_ATTR_EN u r = 1 ∧ eff s F.PRT_RGN_START_START u r ≤ g ∧ g ≤ eff s F.PRT_RGN_END_END u r
    (∀ r, r < 16 → on r → (∀ k, k < r → ¬ on k) → (granuleDenied s u g write user = none ↔
      (if write then eff s F.PRT_RGN_ATTR_WRITE u r else eff s F.PRT_RGN_ATTR_READ u r) = 1 ∧ (user = true → eff s F.PRT_RGN_ATTR_USER u r = 1))) ∧
    ((∀ r, r < 16 → ¬ on r) → (granuleDenied s u g write user = none ↔
      user = false ∧ (eff s F.PRT_CTRL_DEFAULT u = 0 ∨ (eff s F.PRT_CTRL_DEFAULT u = 1 ∧ write = false))))) ∧
  (∀ (s : State) (a : Access1) (u : Nat), unitOf a.master = some u →
    let config := 0x1800180000 ≤ a.addr ∧ a.addr ≤ 0x180018FFFF
    let ledger := 0x1802000000 ≤ a.addr ∧ a.addr ≤ 0x18023FFFFF
    let touches := fun (g : Nat) => a.addr / 64 ≤ g ∧ g ≤ (a.addr + a.len - 1) / 64
    let deny := fun (g : Nat) => ∃ v r, v < 13 ∧ r < 16 ∧ eff s F.PRT_RGN_ATTR_EN v r = 1 ∧ eff s F.PRT_RGN_START_START v r ≤ g ∧
      g ≤ eff s F.PRT_RGN_END_END v r ∧ eff s F.PRT_RGN_ATTR_DEBUG_DENY v r = 1
    (¬ config → 1 ≤ a.len → u ≠ 1 → (protCheck s a = none ↔ ∀ g, touches g → granuleDenied s u g a.write a.user = none)) ∧
    (¬ config → 1 ≤ a.len → u = 1 → (protCheck s a = none ↔ (∀ g, touches g → granuleDenied s 1 g a.write a.user = none) ∧
      (∀ g, touches g → ¬ deny g) ∧ ¬(a.write = true ∧ ledger))) ∧
    (∀ g, ¬ config → 1 ≤ a.len → touches g → granuleDenied s u g a.write a.user ≠ none →
      (∀ k, touches k → k < g → granuleDenied s u k a.write a.user = none) →
      ∃ d, protCheck s a = some d ∧ d.addr = max a.addr (64 * g) ∧ d.unit = u) ∧
    (config → (protCheck s a = none ↔ ((u = 0 ∨ u = 2) ∧ a.user = false) ∨ (u = 1 ∧ a.write = false)))) ∧
  (∀ (u : Fin 13) (s : State),
    let empty := fun (r : Nat) => rd s F.PRT_RGN_ATTR_EN u r = 1 ∧ rd s F.PRT_RGN_END_END u r < rd s F.PRT_RGN_START_START u r
    (∃ t, exec (.prtHoldRequest u) s = .next t ∧ rd t F.PRT_HOLD_REQ u = 1 ∧ rd t F.PRT_HOLD_HELD u = rd s F.PRT_HOLD_HELD u ∧
      sameRegsBut s t [R.PRT_HOLD.addr u 0] ∧ t = { s with regs := t.regs }) ∧
    (rd s F.PRT_HOLD_REQ u = 1 → ∃ t, exec (.prtHoldHeld u) s = .next t ∧ rd t F.PRT_HOLD_HELD u = 1 ∧ rd t F.PRT_HOLD_REQ u = 1 ∧
      sameRegsBut s t [R.PRT_HOLD.addr u 0] ∧ t = { s with regs := t.regs }) ∧
    (rd s F.PRT_HOLD_REQ u = 0 → exec (.prtHoldHeld u) s = .next s ∧ exec (.prtHoldRelease u) s = .next s) ∧
    (rd s F.PRT_HOLD_REQ u = 1 → ∃ t, exec (.prtHoldRelease u) s = .next t ∧ rd t F.PRT_HOLD_REQ u = 0 ∧ rd t F.PRT_HOLD_HELD u = rd s F.PRT_HOLD_HELD u ∧
      u.val ∈ t.prt.releasing ∧ t.prt.eff = s.prt.eff ∧ (∀ r, r < 16 → empty r → rd t F.PRT_EVENT_UPD_REFUSED u = 1) ∧
      ((∀ r, r < 16 → ¬ empty r) → sameRegsBut s t [R.PRT_HOLD.addr u 0]) ∧ t = { s with regs := t.regs, prt := t.prt, fab := t.fab }) ∧
    (u.val ∉ s.prt.releasing → exec (.prtConfigEffect u) s = .next s) ∧
    (u.val ∈ s.prt.releasing → ∃ t, exec (.prtConfigEffect u) s = .next t ∧ u.val ∉ t.prt.releasing ∧ rd t F.PRT_HOLD_HELD u = 0 ∧
      eff t F.PRT_CTRL_DEFAULT u = rd s F.PRT_CTRL_DEFAULT u ∧
      (∀ r, r < 16 → eff t F.PRT_RGN_START_START u r = rd s F.PRT_RGN_START_START u r ∧ eff t F.PRT_RGN_END_END u r = rd s F.PRT_RGN_END_END u r ∧
        eff t F.PRT_RGN_ATTR_EN u r = rd s F.PRT_RGN_ATTR_EN u r ∧ eff t F.PRT_RGN_ATTR_READ u r = rd s F.PRT_RGN_ATTR_READ u r ∧
        eff t F.PRT_RGN_ATTR_WRITE u r = rd s F.PRT_RGN_ATTR_WRITE u r ∧ eff t F.PRT_RGN_ATTR_USER u r = rd s F.PRT_RGN_ATTR_USER u r ∧
        eff t F.PRT_RGN_ATTR_DEBUG_DENY u r = rd s F.PRT_RGN_ATTR_DEBUG_DENY u r) ∧
      (∀ v, v < 13 → v ≠ u.val → eff t F.PRT_CTRL_DEFAULT v = eff s F.PRT_CTRL_DEFAULT v ∧ ∀ r, r < 16 →
        effReg t R.PRT_RGN_START v r = effReg s R.PRT_RGN_START v r ∧ effReg t R.PRT_RGN_END v r = effReg s R.PRT_RGN_END v r ∧
        effReg t R.PRT_RGN_ATTR v r = effReg s R.PRT_RGN_ATTR v r) ∧
      sameRegsBut s t [R.PRT_HOLD.addr u 0])) ∧
  (∀ (u : Fin 13) (j : Fin 16) (v : BitVec 64) (s : State),
    let write := fun (r : Reg) => Instr.prtRegionWrite (BitVec.ofNat 26 (r.addr u j)) v
    let high := fun (r : Reg) => Instr.prtRegionWrite (BitVec.ofNat 26 (r.addr u j + 4)) v
    let held := rd s F.PRT_HOLD_HELD u = 1 ∧ rd s F.PRT_RGN_ATTR_LOCK u j = 0
    (∀ r ∈ [R.PRT_RGN_START, R.PRT_RGN_END], ¬ held → ∃ t, exec (high r) s = .next t ∧ rd t F.PRT_EVENT_UPD_REFUSED u = 1 ∧
      sameRegsBut s t [R.PRT_EVENT.addr u 0, R.PRT_EVENT_CNT.addr u 0] ∧ t = { s with regs := t.regs, fab := t.fab }) ∧
    (held → ∃ t, exec (high R.PRT_RGN_END) s = .next t ∧ t = { s with regs := t.regs } ∧ sameRegsBut s t [R.PRT_RGN_END.addr u j] ∧
      rd t F.PRT_RGN_END_END u j = rd s F.PRT_RGN_END_END u j % 2 ^ 26 + v.toNat % 256 * 2 ^ 26) ∧
    (∀ r ∈ [R.PRT_RGN_START, R.PRT_RGN_END, R.PRT_RGN_ATTR], ¬ held → ∃ t, exec (write r) s = .next t ∧ rd t F.PRT_EVENT_UPD_REFUSED u = 1 ∧
      sameRegsBut s t [R.PRT_EVENT.addr u 0, R.PRT_EVENT_CNT.addr u 0] ∧ t = { s with regs := t.regs, fab := t.fab }) ∧
    (held → (∃ t, exec (write R.PRT_RGN_START) s = .next t ∧ rd t F.PRT_RGN_START_START u j = slice v.toNat 6 34 ∧
        sameRegsBut s t [R.PRT_RGN_START.addr u j] ∧ t = { s with regs := t.regs }) ∧
      (∃ t, exec (write R.PRT_RGN_END) s = .next t ∧ rd t F.PRT_RGN_END_END u j = slice v.toNat 6 34 ∧
        sameRegsBut s t [R.PRT_RGN_END.addr u j] ∧ t = { s with regs := t.regs }) ∧
      (∃ t, exec (write R.PRT_RGN_ATTR) s = .next t ∧ rd t F.PRT_RGN_ATTR_EN u j = slice v.toNat 0 1 ∧ rd t F.PRT_RGN_ATTR_READ u j = slice v.toNat 1 1 ∧
        rd t F.PRT_RGN_ATTR_WRITE u j = slice v.toNat 2 1 ∧ rd t F.PRT_RGN_ATTR_USER u j = slice v.toNat 3 1 ∧
        rd t F.PRT_RGN_ATTR_DEBUG_DENY u j = slice v.toNat 4 1 ∧ rd t F.PRT_RGN_ATTR_LOCK u j = slice v.toNat 5 1 ∧
        sameRegsBut s t [R.PRT_RGN_ATTR.addr u j] ∧ t = { s with regs := t.regs })) ∧
    (let ctrl := Instr.prtRegionWrite (BitVec.ofNat 26 (R.PRT_CTRL.addr u 0)) v
     let d := slice v.toNat 0 2
     (rd s F.PRT_CTRL_LOCK u = 0 → d < 3 →
      (rd s F.PRT_HOLD_HELD u = 1 → ∃ t, exec ctrl s = .next t ∧ rd t F.PRT_CTRL_DEFAULT u = d ∧ rd t F.PRT_CTRL_INT_EN u = slice v.toNat 3 1 ∧
        rd t F.PRT_CTRL_LOCK u = slice v.toNat 2 1 ∧ sameRegsBut s t [R.PRT_CTRL.addr u 0] ∧ t = { s with regs := t.regs }) ∧
      (rd s F.PRT_HOLD_HELD u = 0 → ∃ t, exec ctrl s = .next t ∧ rd t F.PRT_CTRL_INT_EN u = slice v.toNat 3 1 ∧
        rd t F.PRT_CTRL_LOCK u = slice v.toNat 2 1)) ∧
     (rd s F.PRT_CTRL_LOCK u = 1 → ∃ t, exec ctrl s = .next t ∧ rd t F.PRT_CTRL_DEFAULT u = rd s F.PRT_CTRL_DEFAULT u ∧
        rd t F.PRT_CTRL_INT_EN u = rd s F.PRT_CTRL_INT_EN u ∧ rd t F.PRT_CTRL_LOCK u = 1) ∧
     (rd s F.PRT_HOLD_HELD u = 0 → ∃ t, exec ctrl s = .next t ∧ rd t F.PRT_CTRL_DEFAULT u = rd s F.PRT_CTRL_DEFAULT u ∧
        rd t F.PRT_EVENT_UPD_REFUSED u = 1 ∧ t.prt = s.prt ∧ t.mem = s.mem)))

/-- INIT is taken with READY and INIT_BUSY 0, no channel in TRAINING and no clock-loss hold; else nothing changes. It empties DRAM and puts every channel in TRAINING; a frequency change ends without FREQ_DONE (log entry 36). Training ends READY with every margin and INIT_DONE when none failed, ending a hold of RESET or a fault; else FAULT and TRAIN_FAIL on the failed channels and INIT_FAIL. RESET leaves all channels OFF, DRAM empty, the part in hold. A set point request is refused, deferred by an open window or starts; FREQ_DONE shows the new set point. A window starts at its place in each interval of 100 ms and clears the count; its end shows the margin, and moves MARGIN_OK with its Journal entry only on a change. Refreshes are postponed under panic up to 8 and repaid after. Panic follows its sources, a canvas's while its FIFO is in panic. An error that serves a master shows in ECC_LAST and counts; a correctable one raises CE and TOTAL, an uncorrectable one UE; a word with an uncorrectable inline error, or whose read the link spoils, has no data to give. At CE_THRESH without margin, or in the cycle that restores it, the channel faults, READY clears and the hold begins; else it does not. Frames as written. -/
def Obligations.DramTrainingAndErrors : Prop :=
  let entries := fun (x : State) => x.jnl.asked.map fun q => (q.ty, (q.payload.getD 0 0).toNat)
  let up := fun (s : State) (c : Nat) => rd s F.DMC_CH_STATUS_STATE c = 2
  let minOf := fun (s : State) (c : Nat) => rd s F.DMC_CH_THRESH_MARGIN_MIN c
  let status := (List.range 8).map fun c => R.DMC_CH_STATUS.addr c 0
  let gst := R.DMC_GSTATUS.addr 0 0
  let due := fun (s : State) (c : Nat) => s.dmc.windows.find c ≠ some ((fabCyc s - s.dmc.readyAt) / 110000000) ∧
    c * 13750000 + (if rd s F.DMC_GSTATUS_PANIC = 1 then 1100000 else 0) ≤ (fabCyc s - s.dmc.readyAt) % 110000000
  let gev := [R.DMC_GEVENT.addr 0 0, R.DMC_GEVENT_CNT.addr 0 0]
  let chev := fun (c : Nat) => [R.DMC_CH_EVENT.addr c 0, R.DMC_CH_EVENT_CNT.addr c 0]
  (∀ s : State, rd s F.DMC_GSTATUS_INIT_BUSY = 0 → rd s F.DMC_GSTATUS_READY = 0 → s.dmc.holdClock = false → (∀ c, c < 8 → rd s F.DMC_CH_STATUS_STATE c ≠ 1) →
    ∃ t, exec .dramInit s = .next t ∧ rd t F.DMC_GSTATUS_INIT_BUSY = 1 ∧ (∀ c, c < 8 → rd t F.DMC_CH_STATUS_STATE c = 1) ∧ t.mem = [] ∧
      t.dmc.bad = [] ∧ t.dmc.weak = [] ∧ t.dmc.linkBad = [] ∧ t.dmc.ecc = rdReg s R.DMC_ECC_EN ∧ t.dmc.rowBits = rd s F.DMC_CTRL_ROW_BITS ∧ t.dmc.window = none ∧ t.dmc.freq = none ∧
      rd t F.DMC_GSTATUS_HOLD = rd s F.DMC_GSTATUS_HOLD ∧ sameRegsBut s t (gst :: status) ∧
      t = { s with regs := t.regs, dmc := t.dmc, mem := [], jnl := { s.jnl with ring := [] } }) ∧
  (∀ s : State, rd s F.DMC_GSTATUS_INIT_BUSY = 1 ∨ rd s F.DMC_GSTATUS_READY = 1 ∨ s.dmc.holdClock = true ∨ (∃ c, c < 8 ∧ rd s F.DMC_CH_STATUS_STATE c = 1) → exec .dramInit s = .next s) ∧
  (∀ (failed : BitVec 8) (margins : List (BitVec 8)) (s : State), rd s F.DMC_GSTATUS_INIT_BUSY = 1 → s.pwr.boot = none →
    let bad := fun (c : Nat) => failed.getLsbD c = true ∨ (margins.getD c 0).toNat < minOf s c
    ((∀ c, c < 8 → ¬ bad c) → ∃ t, exec (.dramInitDone failed margins) s = .next t ∧ rd t F.DMC_GSTATUS_INIT_BUSY = 0 ∧
      rd t F.DMC_GSTATUS_READY = 1 ∧ rd t F.DMC_GSTATUS_SP = rd s F.DMC_CTRL_INIT_SP ∧ rd t K.DMC_GEVENT_INIT_DONE.fld = 1 ∧
      (∀ c, c < 8 → up t c ∧ rd t F.DMC_CH_STATUS_MARGIN_OK c = 1 ∧ rd t F.DMC_CH_STATUS_MARGIN c = (margins.getD c 0).toNat) ∧
      (s.dmc.holdClock = true → rd t F.DMC_GSTATUS_HOLD = rd s F.DMC_GSTATUS_HOLD ∧ entries t = entries s) ∧
      (s.dmc.holdClock = false → rd t F.DMC_GSTATUS_HOLD = 0 ∧
        entries t = entries s ++ (if rd s F.DMC_GSTATUS_HOLD = 1 then [(0x50, 5)] else [])) ∧
      sameRegsBut s t (gst :: status ++ gev) ∧ t.mem = s.mem) ∧
    (∀ k, k < 8 → bad k → ∃ t, exec (.dramInitDone failed margins) s = .next t ∧ rd t F.DMC_GSTATUS_INIT_BUSY = 0 ∧
      rd t F.DMC_GSTATUS_READY = rd s F.DMC_GSTATUS_READY ∧ rd t K.DMC_GEVENT_INIT_FAIL.fld = 1 ∧
      (∀ c, c < 8 → bad c → rd t F.DMC_CH_STATUS_STATE c = 3 ∧ rd t K.DMC_CH_EVENT_TRAIN_FAIL.fld c = 1) ∧
      (∀ c, c < 8 → ¬ bad c → up t c ∧ rd t K.DMC_CH_EVENT_TRAIN_FAIL.fld c = rd s K.DMC_CH_EVENT_TRAIN_FAIL.fld c) ∧
      entries t = entries s ++ [(0x50, 8)] ∧ rd t F.DMC_GSTATUS_HOLD = rd s F.DMC_GSTATUS_HOLD ∧ t.mem = s.mem)) ∧
  (∀ s : State, ∃ t, exec .dramReset s = .next t ∧ (∀ c, c < 8 → rd t F.DMC_CH_STATUS_STATE c = 0) ∧ rd t F.DMC_GSTATUS_READY = 0 ∧
    rd t F.DMC_GSTATUS_INIT_BUSY = 0 ∧ rd t F.DMC_GSTATUS_HOLD = 1 ∧ t.mem = [] ∧ t.dmc.bad = [] ∧ t.dmc.freq = none ∧ t.dmc.holdMem = true ∧
    (rd s F.DMC_GSTATUS_HOLD = 1 → entries t = entries s ∧ sameRegsBut s t (gst :: status)) ∧
    (rd s F.DMC_GSTATUS_HOLD = 0 → entries t = entries s ++ [(0x50, 4)] ∧ rd t K.DMC_GEVENT_HOLD_ON.fld = 1 ∧ rd t F.TND_STATUS_FAULT = 1 ∧
      (∀ c, c < 32 → (cnvOf t c).gesso.hold = true) ∧ (∀ q ∈ t.jnl.asked.getLast?, (q.payload.getD 14 0).toNat = 1) ∧
      sameRegsBut s t (gst :: R.TND_STATUS.addr 0 0 :: status ++ gev))) ∧
  (∀ (sp : BitVec 2) (s : State),
    let refused := rd s F.DMC_GSTATUS_READY = 0 ∨ rd s F.DMC_GSTATUS_FREQ_BUSY = 1 ∨ rd s F.DMC_GSTATUS_DEFERRED = 1 ∨
      rd s F.DMC_GSTATUS_HOLD = 1 ∨ sp = 3 ∨ sp.toNat = rd s F.DMC_GSTATUS_SP
    (refused → ∃ t, exec (.freqRequest sp) s = .next t ∧ rd t K.DMC_GEVENT_FREQ_REFUSED.fld = 1 ∧ t.dmc = s.dmc ∧ sameRegsBut s t gev ∧ t.mem = s.mem) ∧
    (¬ refused → s.dmc.window = none → ∃ t, exec (.freqRequest sp) s = .next t ∧ t.dmc.freq = some sp.toNat ∧ rd t F.DMC_GSTATUS_FREQ_BUSY = 1 ∧
      rd t F.DMC_GSTATUS_SP = rd s F.DMC_GSTATUS_SP ∧ sameRegsBut s t [gst] ∧ t = { s with regs := t.regs, dmc := t.dmc }) ∧
    (¬ refused → s.dmc.window ≠ none → ∃ t, exec (.freqRequest sp) s = .next t ∧ t.dmc.freq = some sp.toNat ∧ rd t F.DMC_GSTATUS_DEFERRED = 1 ∧
      rd t F.DMC_GSTATUS_FREQ_BUSY = 0 ∧ rd t K.DMC_GEVENT_FREQ_DEFERRED.fld = 1 ∧ sameRegsBut s t (gst :: gev) ∧ t.mem = s.mem) ∧
    (s.dmc.freq = some sp.toNat → rd s F.DMC_GSTATUS_FREQ_BUSY = 1 → ∃ t, exec .freqDone s = .next t ∧ rd t F.DMC_GSTATUS_SP = sp.toNat ∧
      rd t F.DMC_GSTATUS_FREQ_BUSY = 0 ∧ t.dmc.freq = none ∧ rd t K.DMC_GEVENT_FREQ_DONE.fld = 1 ∧ entries t = entries s ++ [(0x50, 7)] ∧
      sameRegsBut s t (gst :: gev) ∧ t.mem = s.mem)) ∧
  (∀ (c : Fin 8) (s : State), rd s F.DMC_GSTATUS_READY = 1 → s.dmc.window = none → rd s F.DMC_GSTATUS_FREQ_BUSY = 0 → due s c.val →
    ∃ t, exec (.retrainWindowStart c) s = .next t ∧ t.dmc.window = some c.val ∧ t.dmc.windows.find c.val = some ((fabCyc s - s.dmc.readyAt) / 110000000) ∧ rd t F.DMC_CH_CE_WINDOW_COUNT c = 0 ∧
      sameRegsBut s t [R.DMC_CH_CE_WINDOW.addr c 0] ∧ t = { s with regs := t.regs, dmc := t.dmc }) ∧
  (∀ (c : Fin 8) (s : State), rd s F.DMC_GSTATUS_READY = 0 ∨ s.dmc.window ≠ none ∨ rd s F.DMC_GSTATUS_FREQ_BUSY = 1 ∨ ¬ due s c.val →
    exec (.retrainWindowStart c) s = .next s) ∧
  (∀ (c : Fin 8) (m : BitVec 8) (s : State), s.dmc.window = some c.val →
    ∃ t, exec (.retrainWindowEnd c m) s = .next t ∧ t.dmc.window = none ∧ rd t F.DMC_CH_STATUS_MARGIN c = m.toNat ∧
      rd t F.DMC_CH_STATUS_MARGIN_OK c = (if m.toNat < minOf s c then 0 else 1) ∧ rd t F.DMC_CH_STATUS_STATE c = rd s F.DMC_CH_STATUS_STATE c ∧
      (m.toNat < minOf s c → rd s F.DMC_CH_STATUS_MARGIN_OK c = 1 → rd t K.DMC_CH_EVENT_MARGIN_LOST.fld c = 1 ∧ entries t = entries s ++ [(0x50, 1)]) ∧
      (minOf s c ≤ m.toNat → rd s F.DMC_CH_STATUS_MARGIN_OK c = 0 → entries t = entries s ++ [(0x50, 2)]) ∧
      (m.toNat < minOf s c → t.dmc.setting = s.dmc.setting) ∧
      (minOf s c ≤ m.toNat → t.dmc.setting.find c.val = some m.toNat) ∧
      ((m.toNat < minOf s c ↔ rd s F.DMC_CH_STATUS_MARGIN_OK c = 0) → entries t = entries s ∧ sameRegsBut s t [gst, R.DMC_CH_STATUS.addr c 0]) ∧
      (rd s F.DMC_GSTATUS_DEFERRED = 1 → rd t F.DMC_GSTATUS_DEFERRED = 0 ∧ rd t F.DMC_GSTATUS_FREQ_BUSY = 1) ∧
      (rd s F.DMC_GSTATUS_DEFERRED = 0 → rd t F.DMC_GSTATUS_FREQ_BUSY = rd s F.DMC_GSTATUS_FREQ_BUSY) ∧
      sameRegsBut s t (gst :: R.DMC_CH_STATUS.addr c 0 :: chev c) ∧ t.mem = s.mem) ∧
  (∀ (c : Fin 8) (m : BitVec 8) (s : State), s.dmc.window ≠ some c.val → exec (.retrainWindowEnd c m) s = .next s) ∧
  (∀ (c : Fin 8) (code : BitVec 3) (s : State), up s c →
    let p := rd s F.DMC_CH_STATUS_POSTPONED c
    let panic := rd s F.DMC_GSTATUS_PANIC = 1
    (∃ t, exec (.refresh c) s = .next t ∧ rd t F.DMC_CH_STATUS_POSTPONED c = (if panic then (if p < 8 then p + 1 else p) else p - 1) ∧
      sameRegsBut s t [R.DMC_CH_STATUS.addr c 0] ∧ t = { s with regs := t.regs }) ∧
    (∃ t, exec (.mr4Read c code) s = .next t ∧ rd t F.DMC_CH_STATUS_REFRESH c = code.toNat ∧ rd t F.DMC_CH_STATUS_POSTPONED c = p ∧ up t c ∧
      sameRegsBut s t [R.DMC_CH_STATUS.addr c 0] ∧ t = { s with regs := t.regs })) ∧
  (∀ (x : Fin 33) (s : State),
    let fifo := x.val < 32 ∧ rd s F.CNV_STATUS_PANIC_UP x = 1
    (x.val ∈ s.dmc.panic ∨ (x.val < 32 ∧ ¬ fifo) → exec (.panicRaise x) s = .next s) ∧
    (fifo → exec (.panicRelease x) s = .next s) ∧
    (x.val ∉ s.dmc.panic → fifo ∨ x = 32 → ∃ t, exec (.panicRaise x) s = .next t ∧ rd t F.DMC_GSTATUS_PANIC = 1 ∧ (∀ y, y ∈ t.dmc.panic ↔ y = x.val ∨ y ∈ s.dmc.panic) ∧
      (s.dmc.panic = [] → rd t K.DMC_GEVENT_PANIC_ON.fld = 1) ∧ (s.dmc.panic ≠ [] → sameRegsBut s t [gst]) ∧ sameRegsBut s t (gst :: gev) ∧ t.mem = s.mem) ∧
    (¬ fifo → ∃ t, exec (.panicRelease x) s = .next t ∧ (∀ y, y ∈ t.dmc.panic ↔ y ≠ x.val ∧ y ∈ s.dmc.panic) ∧
      (rd t F.DMC_GSTATUS_PANIC = 1 ↔ ∃ y ∈ s.dmc.panic, y ≠ x.val) ∧ sameRegsBut s t [gst] ∧ t = { s with regs := t.regs, dmc := t.dmc })) ∧
  (∀ (s : State) (a n w : Nat), w ∈ s.dmc.bad ∨ w ∈ s.dmc.linkBad → w * 8 < a + n → a < w * 8 + 8 → dramRead s a n = none) ∧
  (∀ (addr : BitVec 36) (uncorr : Bool) (kind : EccKind) (s : State),
    let a := addr.toNat
    let c := a / 256 % 8
    let link := kind ≠ .inline
    let found := if kind ≠ .inline then rd s F.DMC_GSTATUS_SP ≠ 2 else (s.dmc.ecc / 2 ^ (a / 2 ^ 30)) % 2 = 1
    let n := min 0xFFFF (rd s F.DMC_CH_CE_WINDOW_COUNT c + 1)
    let faults := (rd s F.DMC_CH_STATUS_MARGIN_OK c = 0 ∨ s.dmc.restored.find c = some (fabCyc s)) ∧ rd s F.DMC_CH_THRESH_CE_THRESH c ≤ n
    (up s c → s.dmc.window ≠ some c → dramUp s = true → inDram s a 1 = true → found →
      ∃ t, exec (.dramReadEcc addr uncorr kind) s = .next t ∧ rd t F.DMC_CH_ECC_LAST_ADDR c = a ∧ rd t F.DMC_CH_ECC_LAST_UNCORR c = bit uncorr ∧
        rd t F.DMC_CH_ECC_LAST_LINK c = bit (decide link) ∧ rd t F.DMC_CH_ECC_LAST_VALID c = 1 ∧ rd t F.DMC_CH_CE_WINDOW_COUNT c = n ∧
        (uncorr = false → rd t K.DMC_CH_EVENT_CE.fld c = 1 ∧ rd t F.DMC_CH_CE_TOTAL_TOTAL c = min 0xFFFFFFFF (rd s F.DMC_CH_CE_TOTAL_TOTAL c + 1) ∧
          t.dmc.bad = s.dmc.bad ∧ t.dmc.linkBad = s.dmc.linkBad ∧ (kind = .inline → a / 8 ∉ s.dmc.bad → a / 8 ∈ t.dmc.weak)) ∧
        (uncorr = true → rd t K.DMC_CH_EVENT_UE.fld c = 1 ∧ rd t F.DMC_CH_CE_TOTAL_TOTAL c = rd s F.DMC_CH_CE_TOTAL_TOTAL c ∧
          (∀ w, w ∈ t.dmc.bad ↔ w ∈ s.dmc.bad ∨ (kind = .inline ∧ w = a / 8)) ∧
          (∀ w, w ∈ t.dmc.linkBad ↔ w ∈ s.dmc.linkBad ∨ (kind = .linkRead ∧ w = a / 8))) ∧
        (faults → rd t F.DMC_CH_STATUS_STATE c = 3 ∧ rd t K.DMC_CH_EVENT_CH_FAULT.fld c = 1 ∧ rd t F.DMC_GSTATUS_READY = 0 ∧
          rd t F.DMC_GSTATUS_HOLD = 1 ∧ t.dmc.holdMem = true) ∧
        (¬ faults → up t c ∧ rd t F.DMC_GSTATUS_READY = rd s F.DMC_GSTATUS_READY ∧ rd t F.DMC_GSTATUS_HOLD = rd s F.DMC_GSTATUS_HOLD ∧
          rd t K.DMC_CH_EVENT_CH_FAULT.fld c = rd s K.DMC_CH_EVENT_CH_FAULT.fld c) ∧ t.mem = s.mem) ∧
    (¬ up s c ∨ s.dmc.window = some c ∨ dramUp s = false ∨ inDram s a 1 = false ∨ ¬ found → exec (.dramReadEcc addr uncorr kind) s = .next s))

/-- A power-on reset samples the straps and keeps OTP alone; a brownout is one with the straps as sampled. PWR_PG_MAIN high brings the main domain up, WP_ALERT_N low, and asks for START; a power-on host boot comes to WAIT_HOST. A warm reset keeps sequencer memories, the Journal's chain and staging, DRAM, retention, straps, the last sequences, and of the registers RWS fields, locks, locked fields and those of keptWhole (log entry 35); every other field resets. OTP commands run in WAIT_HOST after power-on alone. Still is refused with the lowest code, else contacts end and sequencers halt; with every canvas dark and the Journal drained its head is kept and nothing turns back; then PWR_MAIN_EN falls and the gallery clocks stop. An armed source before that point warm-resets with STILL_ABORT and WAKE_CAUSE, after it is held until 10 ms are over; the wake keeps DRAM, retention, chain head, RWS fields and the RTC. Setting the RTC clears its fraction. A self-test is refused when busy or ACTIVE, else shows Gesso with the masters reset; its end, once its run is over, records signature and verdict and warm-resets. -/
def Obligations.ResetsStillAndSelfTests : Prop :=
  let shown := [R.GLB_ID.addr 0 0, R.TND_STATUS.addr 0 0, R.PWR_STATUS.addr 0 0, R.PWR_OTP_STATE.addr 0 0, R.PWR_CLK_STATUS.addr 0 0,
    R.LANE_QUAD_COMMIT.addr 0 0, R.SEQ_FEATURES.addr 0 0]
  let fieldsKept := fun (s t : State) (keep : Reg → Nat → Nat → Field → Bool) => ∀ (r : Reg) (i j : Nat) (f : Field),
    locate (r.addr i j) = some ⟨r, i, j, false⟩ → f ∈ r.fields → r.addr i j ∉ shown → slice (rdReg t r i j) f.lo f.w =
      (if keep r i j f then slice (rdReg s r i j) f.lo f.w else slice (r.resetValue i j).toNat f.lo f.w)
  let warmKeep := fun (s : State) (r : Reg) (i j : Nat) (f : Field) => f.acc == .rws || f.acc == .w1s || (f.acc == .rwl && lockedReg s r i j) ||
    keptWhole.any fun x => x.base == r.base
  let wakeKeep := fun (r : Reg) (_ _ : Nat) (f : Field) => f.acc == .rws || r.base == R.PWR_RTC_SEC.base
  let freshBut := fun (s t : State) => t.eas = State.reset.eas ∧ t.seqs = State.reset.seqs ∧ t.cmp = State.reset.cmp ∧ t.tnd = State.reset.tnd ∧
    t.lane = State.reset.lane ∧ t.net = State.reset.net ∧ t.out = s.out ∧ t.pending = s.pending ∧ t.free = s.free ∧ t.pwr.otp = s.pwr.otp ∧
    rd t F.PWR_OTP_STATE_SLOTS = rd s F.PWR_OTP_STATE_SLOTS ∧ rd t F.GLB_ID_DEVICE = t.straps.device % 64 ∧
    rd t F.GLB_ID_POSITION = bit t.straps.position ∧ rd t F.PWR_STATUS_BOOT_SRC = bit t.straps.bootSrc
  let started := fun (t : State) (kind : Nat) => t.jnl.asked.map (fun q => (q.ty, (q.payload.getD 0 0).toNat)) = [(0x0001, kind)]
  let slots := fun (s : State) (k : Nat) => rd s F.PWR_OTP_STATE_SLOTS / 4 ^ k % 4
  (∀ (device : BitVec 6) (position bootSrc : Bool) (s : State), ∃ t, exec (.powerOnReset device position bootSrc) s = .next t ∧
    t.straps = { s.straps with device := device.toNat, position := position, bootSrc := bootSrc } ∧ t.pwr.phase = .raising ∧ t.pwr.mainEn = true ∧
    t.pwr.retention = none ∧ t.mem = [] ∧ t.jnl = State.reset.jnl ∧ freshBut s t ∧ rd t F.PWR_STATUS_RESET_KIND = 0 ∧
    rd t F.PWR_OTP_STATE_BUSY = 0 ∧ sameRegsBut State.reset t shown) ∧
  (∀ s : State, s.pwr.mainEn = true → s.pwr.phase ≠ .raising → s.pwr.phase ≠ .waking → ∃ t, exec .brownout s = .next t ∧ t.straps = s.straps ∧
    t.pwr.phase = .raising ∧ t.pwr.retention = none ∧ t.mem = [] ∧ t.jnl = State.reset.jnl ∧ freshBut s t ∧ sameRegsBut State.reset t shown) ∧
  (∀ s : State, s.pwr.mainEn = false → exec .brownout s = .next s) ∧
  (∀ s : State,
    let kind := rd s F.PWR_STATUS_RESET_KIND
    (s.pwr.phase = .raising ∨ s.pwr.phase = .waking → ∃ t, exec .mainPowerGood s = .next t ∧ t.pwr = { s.pwr with phase := .main } ∧
      rd t F.PWR_CLK_STATUS_ISLAND_LOCK = 0x3F ∧ rd t F.PWR_CLK_STATUS_REFCLK_OK = 1 ∧
      rd t F.PWR_STATUS_BOOT_STATE = (if kind = 0 ∧ s.straps.bootSrc = true then 1 else rd s F.PWR_STATUS_BOOT_STATE) ∧
      t.jnl.asked.length = s.jnl.asked.length + 1 ∧ (∀ q ∈ t.jnl.asked.getLast?, q.ty = 0x0001 ∧ (q.payload.getD 0 0).toNat = kind) ∧
      sameRegsBut s t [R.PWR_STATUS.addr 0 0, R.PWR_CLK_STATUS.addr 0 0] ∧ t.cmp = { s.cmp with alert := true } ∧
      t = { s with regs := t.regs, pwr := t.pwr, jnl := t.jnl, cmp := t.cmp }) ∧
    (s.pwr.phase ≠ .raising → s.pwr.phase ≠ .waking → exec .mainPowerGood s = .next s)) ∧
  (∀ s : State, exec .warm s = exec .warmReset s ∧ (s.pwr.phase ≠ .main → exec .warmReset s = .next s) ∧
    (s.pwr.phase = .main → ∃ t, exec .warmReset s = .next t ∧ rd t F.PWR_STATUS_RESET_KIND = 1 ∧ rd t F.PWR_STATUS_BOOT_STATE = 0 ∧
      t.mem = s.mem ∧ t.dmc.bad = s.dmc.bad ∧ t.dmc.weak = s.dmc.weak ∧ t.pwr.retention = s.pwr.retention ∧ t.straps = s.straps ∧ t.pwr.still = 0 ∧ t.pwr.bist = none ∧
      (∀ n, (seqOf t n).imem = (seqOf s n).imem ∧ (seqOf t n).dmem = (seqOf s n).dmem ∧ (seqOf t n).run = ({} : Seq).run) ∧
      t.jnl.next = s.jnl.next ∧ t.jnl.digest = s.jnl.digest ∧ t.jnl.staging = s.jnl.staging ∧ t.jnl.drain = s.jnl.drain ∧ started t 1 ∧
      t.eas = { State.reset.eas with lastSeq := s.eas.lastSeq } ∧ t.cmp = { State.reset.cmp with alert := true } ∧ t.out = s.out ∧ t.pending = s.pending ∧
      t.pwr.otp = s.pwr.otp ∧ fieldsKept s t (warmKeep s))) ∧
  (∀ (k : BitVec 2) (s : State),
    let open_ := rd s F.PWR_STATUS_BOOT_STATE = 1 ∧ rd s F.PWR_STATUS_RESET_KIND = 0 ∧ rd s F.PWR_OTP_STATE_BUSY = 0
    let refused := fun (o : Host.Outcome State Fault Refusal) => ∃ t, o = .next t ∧ rd t K.PWR_EVENT_OTP_REFUSED.fld = 1 ∧ t.pwr = s.pwr ∧
      sameRegsBut s t [R.PWR_EVENT.addr 0 0, R.PWR_EVENT_CNT.addr 0 0]
    (open_ → slots s k.toNat = 0 → ∃ t, exec (.otpProgram k) s = .next t ∧ t.pwr.otpOp = some (k.toNat, true) ∧ rd t F.PWR_OTP_STATE_BUSY = 1 ∧
      slots t k.toNat = 0 ∧ sameRegsBut s t [R.PWR_OTP_STATE.addr 0 0] ∧ t = { s with regs := t.regs, pwr := t.pwr }) ∧
    (open_ → slots s k.toNat = 1 → ∃ t, exec (.otpRevoke k) s = .next t ∧ t.pwr.otpOp = some (k.toNat, false) ∧ rd t F.PWR_OTP_STATE_BUSY = 1 ∧
      slots t k.toNat = 1 ∧ sameRegsBut s t [R.PWR_OTP_STATE.addr 0 0] ∧ t = { s with regs := t.regs, pwr := t.pwr }) ∧
    (¬ (open_ ∧ slots s k.toNat = 0) → refused (exec (.otpProgram k) s)) ∧ (¬ (open_ ∧ slots s k.toNat = 1) → refused (exec (.otpRevoke k) s)) ∧
    (∀ program, s.pwr.otpOp = some (k.toNat, program) → ∃ t, exec .otpDone s = .next t ∧ t.pwr.otpOp = none ∧ rd t F.PWR_OTP_STATE_BUSY = 0 ∧
      slots t k.toNat = (if program then 1 else 2) ∧ (∀ m, m < 4 → m ≠ k.toNat → slots t m = slots s m ∧ t.pwr.otp.get m [] = s.pwr.otp.get m []) ∧
      t.pwr.otp.get k.toNat [] = (if program then ((List.range 8).map fun x => leBytes (rdReg s R.PWR_OTP_DATA 0 x) 4).flatten
        else s.pwr.otp.get k.toNat []) ∧
      rd t K.PWR_EVENT_OTP_DONE.fld = 1 ∧ sameRegsBut s t [R.PWR_OTP_STATE.addr 0 0, R.PWR_EVENT.addr 0 0, R.PWR_EVENT_CNT.addr 0 0])) ∧
  (∀ s : State,
    let armed := rd s F.PWR_WAKE_CFG_PIN_EN = 1 ∨ rd s F.PWR_WAKE_CFG_RTC_EN = 1 ∨ rd s F.TCH_WAKE_EN 0 = 1 ∨ rd s F.TCH_WAKE_EN 1 = 1
    let journal := rd s F.JNL_CTRL_EN = 1 ∧ rd s F.JNL_CTRL_RING_MIB ≠ 0
    let busy := s.pwr.bist ≠ none ∨ rd s F.DMC_GSTATUS_INIT_BUSY = 1 ∨ rd s F.DMC_GSTATUS_FREQ_BUSY = 1 ∨ rd s F.DMC_GSTATUS_DEFERRED = 1 ∨ s.pwr.still ≠ 0
    let booted := rd s F.PWR_STATUS_BOOT_STATE = 2
    let refused := fun (code : Nat) => ∃ t, exec .stillEnter s = .next t ∧ rd t F.PWR_STATUS_STILL_CODE = code ∧
      rd t K.PWR_EVENT_STILL_REFUSED.fld = 1 ∧ t.pwr = s.pwr ∧ t.seqs = s.seqs ∧ t.tch = s.tch ∧
      sameRegsBut s t [R.PWR_STATUS.addr 0 0, R.PWR_EVENT.addr 0 0, R.PWR_EVENT_CNT.addr 0 0]
    (¬ booted → refused 1) ∧ (booted → ¬ armed → refused 2) ∧ (booted → armed → ¬ journal → refused 3) ∧
    (booted → armed → journal → busy → refused 4) ∧ (booted → armed → journal → ¬ busy → rd s F.DMC_GSTATUS_READY = 0 → refused 5) ∧
    (booted → armed → journal → ¬ busy → rd s F.DMC_GSTATUS_READY = 1 → ∃ t, exec .stillEnter s = .next t ∧ rd t F.PWR_STATUS_BOOT_STATE = 4 ∧
      t.pwr = { s.pwr with still := 1, wake := 0, offLong := false } ∧ (∀ i, (tchOf t i).contacts = []) ∧ (∀ i, i < 2 → rd t F.TCH_STATUS_CONTACTS i = 0) ∧
      (∀ n, n < 16 → seqBusy (seqOf s n) = true → (seqOf t n).halting = true) ∧ (∀ n, seqBusy (seqOf s n) = false → seqOf t n = seqOf s n) ∧
      sameRegsBut s t [R.PWR_STATUS.addr 0 0, R.TCH_STATUS.addr 0 0, R.TCH_STATUS.addr 1 0] ∧ t = { s with regs := t.regs, pwr := t.pwr, seqs := t.seqs, tch := t.tch })) ∧
  (∀ s : State,
    let drained := (∀ c, c < 32 → (cnvOf s c).dark = true) ∧ s.jnl.next ≤ s.jnl.drain ∧ s.jnl.queue = [] ∧ s.jnl.owed = [] ∧ s.jnl.asked = []
    (s.pwr.still = 1 → drained → ∃ t, exec .stillDrainDone s = .next t ∧ t.pwr.still = 4 ∧ t.pwr.head = some (s.jnl.next, s.jnl.digest) ∧
      t.pwr.phase = s.pwr.phase ∧ t.pwr.mainEn = s.pwr.mainEn) ∧
    (s.pwr.still ≠ 1 ∨ ¬ drained → exec .stillDrainDone s = .next s) ∧
    (s.pwr.still = 4 → ∃ t, exec .stillMainOff s = .next t ∧
      t.pwr = { s.pwr with still := 5, phase := .still, mainEn := false, offAt := s.time.cyc, offLong := false } ∧ t.cmp.alert = false ∧
      (∀ g, g < 8 → (galOf t g).locked = false) ∧ rd t F.PWR_CLK_STATUS_GALLERY_LOCK = 0 ∧ sameRegsBut s t [R.PWR_CLK_STATUS.addr 0 0] ∧ t.mem = s.mem) ∧
    (s.pwr.still ≠ 4 → exec .stillMainOff s = .next s)) ∧
  (∀ s : State, ∀ x ∈ [(exec .wakePin s, 1, decide (rd s F.PWR_WAKE_CFG_PIN_EN = 1)),
      (exec .rtcAlarm s, 2, decide (rd s F.PWR_WAKE_CFG_RTC_EN = 1 ∧ rd s F.PWR_RTC_ALARM_ALARM ≤ rd s F.PWR_RTC_SEC_SEC))],
    (x.2.2 = false ∨ s.pwr.still = 0 → x.1 = .next s) ∧
    (x.2.2 = true → 0 < s.pwr.still → s.pwr.still < 4 → ∃ t, x.1 = .next t ∧ rd t K.PWR_EVENT_STILL_ABORT.fld = 1 ∧
      rd t F.PWR_STATUS_WAKE_CAUSE = x.2.1 ∧ rd t F.PWR_STATUS_RESET_KIND = 1 ∧ t.pwr.still = 0 ∧ t.mem = s.mem) ∧
    (x.2.2 = true → 4 ≤ s.pwr.still → x.1 = .next { s with pwr := { s.pwr with wake := s.pwr.wake ||| x.2.1 } })) ∧
  (∀ s : State, (s.pwr.phase = .still → s.pwr.offAt + 6250000 ≤ s.time.cyc → exec .wakeHoldExpiry s = .next { s with pwr := { s.pwr with offLong := true } }) ∧
    (s.pwr.phase ≠ .still ∨ s.time.cyc < s.pwr.offAt + 6250000 → exec .wakeHoldExpiry s = .next s)) ∧
  (∀ (device : BitVec 6) (position bootSrc : Bool) (s : State),
    (s.pwr.phase = .still → s.pwr.wake ≠ 0 → s.pwr.offLong = true → ∃ t, exec (.wake device position bootSrc) s = .next t ∧
      t.straps = { s.straps with device := device.toNat, position := position, bootSrc := bootSrc } ∧ t.pwr.phase = .waking ∧ t.pwr.mainEn = true ∧
      t.pwr.still = 0 ∧ rd t F.PWR_STATUS_RESET_KIND = 2 ∧ rd t F.PWR_STATUS_WAKE_CAUSE = s.pwr.wake % 16 ∧ t.mem = s.mem ∧ t.dmc.bad = s.dmc.bad ∧
      t.pwr.retention = s.pwr.retention ∧ (∀ h, s.pwr.head = some h → t.jnl.next = h.1 ∧ t.jnl.digest = h.2) ∧ t.jnl.staging = [] ∧
      freshBut s t ∧ fieldsKept s t wakeKeep) ∧
    (s.pwr.phase ≠ .still ∨ s.pwr.wake = 0 ∨ s.pwr.offLong = false → exec (.wake device position bootSrc) s = .next s)) ∧
  (∀ (n : BitVec 48) (s : State), ∃ t, exec (.rtcWrite n) s = .next t ∧ rd t F.PWR_RTC_SEC_SEC = n.toNat ∧ t.time = { s.time with aonPart := 0 } ∧
    sameRegsBut s t [R.PWR_RTC_SEC.addr 0 0] ∧ t = { s with regs := t.regs, time := t.time }) ∧
  (∀ s : State, ∀ x ∈ [(exec .lbist s, true), (exec .mbist s, false)],
    let busy := rd s F.PWR_STATUS_BOOT_STATE = 0 ∨ s.pwr.bist ≠ none ∨ s.pwr.still ≠ 0
    let active := rd s F.TND_STATUS_STATE = 1
    let refused := fun (code : Nat) => ∃ t, x.1 = .next t ∧ rd t F.BST_STATUS_CODE = code ∧ rd t K.BST_EVENT_REFUSED.fld = 1 ∧ t.pwr = s.pwr ∧
      t.cmp = s.cmp ∧ sameRegsBut s t [R.BST_STATUS.addr 0 0, R.BST_EVENT.addr 0 0, R.BST_EVENT_CNT.addr 0 0]
    (busy → refused 1) ∧ (¬ busy → active → refused 2) ∧
    (¬ busy → ¬ active → ∃ t, x.1 = .next t ∧ t.pwr = { s.pwr with bist := some x.2, bistAt := fabCyc s } ∧ t.cmp.alert = true ∧
      (∀ c, c < 32 → (cnvOf t c).gesso.bist = true ∧ slice (cnvOf t c).word 0 3 = 5 ∧ slice (cnvOf t c).word 3 1 = 1 ∧ slice (cnvOf t c).word 4 2 = 1) ∧
      slice t.cmp.summary 6 1 = 1 ∧ (∀ n, n < 16 → seqOf t n = { seqOf s n with posted := [], read := none }) ∧ (∀ x ∈ t.fab.held, x.master < 2))) ∧
  (∀ (signature : BitVec 64) (failed : BitVec 12) (s : State),
    let good := fun (logic : Bool) => if logic then (if s.straps.stepping = 0 then 0x51B8E03C7A942D66 else 0x9D3E47A20C85F61B)
      else (if s.straps.stepping = 0 then 0x7F21C6D894A30B5E else 0x0E6CB91358F2A47D)
    let past := fun (logic : Bool) => s.pwr.bistAt + (if logic then 165000000 else 418000000) ≤ fabCyc s
    (s.pwr.bist = none → exec (.bistDone signature failed) s = .next s) ∧
    (∀ logic, s.pwr.bist = some logic → ¬ past logic → exec (.bistDone signature failed) s = .next s) ∧
    (∀ logic, s.pwr.bist = some logic → past logic → ∃ t, exec (.bistDone signature failed) s = .next t ∧ t.pwr.bist = none ∧ rd t F.PWR_STATUS_RESET_KIND = 1 ∧
      t.mem = s.mem ∧ (logic = true → rd t F.BST_STATUS_LB_DONE = 1 ∧ rd t F.BST_STATUS_LB_PASS = bit (signature.toNat == good true) ∧
        rdReg t R.BST_LB_SIG = signature.toNat ∧ rd t F.BST_STATUS_MB_DONE = rd s F.BST_STATUS_MB_DONE ∧ (∀ n, (seqOf t n).imem = (seqOf s n).imem)) ∧
      (logic = false → rd t F.BST_STATUS_MB_DONE = 1 ∧ rd t F.BST_STATUS_MB_PASS = bit (signature.toNat == good false) ∧
        rdReg t R.BST_MB_SIG = signature.toNat ∧ rdReg t R.BST_MB_MAP = failed.toNat ∧ rd t F.BST_STATUS_LB_DONE = rd s F.BST_STATUS_LB_DONE)))

/-- A boot starts in LOADING with none running: a power-on or fallback one from the NOR image, a warm or wake one from the retained image; with no retained image it falls back. The header fails with code 1 for MAGIC, 2 for VERSION or HEADER_SUM, 3 for a range; a good SPI header writes the DRAM settings where DMC_CTRL.LOCK leaves them open and runs INIT, a retained one takes the kept settings so and retrains. Host BOOT_GO acts in WAIT_HOST alone, reads the image as master 0 and checks the base too (code 2). Accesses of the boot wait under a hold of unit 0 (log entry 141). Training that fails is code 4, a digest that differs from DIGEST, from the kept one or from every programmed slot is code 5; for a retained image both fall back (log entry 38), with FALLBACK set, all other failures end in FAILED with BOOT_FAIL. A record is checked (code 6), skipped when WHEN does not match, and run: a REGS pair as a register write, a COPY as a write of DRAM, START as the start commands, WAIT until its expiry; an error response is code 7 and a START refused code 8. END sets DONE, raises BOOT_DONE and fills the retention store. Records past RECORDS fail with code 6 (log entry 37). -/
def Obligations.BootRuns : Prop :=
  let inSum := fun (b : List Byte) => (crc32c (bytesAt b 0 60)).toNat = leAt b 60 4
  let len := fun (b : List Byte) => leAt b 8 4
  let inRange := fun (b : List Byte) => 1 ≤ leAt b 6 2 ∧ leAt b 6 2 ≤ 4096 ∧ len b % 16 = 0 ∧ 112 ≤ len b ∧ len b ≤ 33554432 ∧ 14 ≤ leAt b 12 1 ∧
    leAt b 12 1 ≤ 17 ∧ leAt b 13 1 ≤ 2 ∧ leAt b 24 5 % 4096 = 0
  let goodHeader := fun (b : List Byte) => leAt b 0 4 = 0x474D494B ∧ leAt b 4 1 = 1 ∧ inSum b ∧ inRange b
  let kindOf := fun (s : State) => if rd s F.PWR_STATUS_RESET_KIND = 1 then ResetKind.warm else if rd s F.PWR_STATUS_RESET_KIND = 2 then .wake else .powerOn
  let fails := fun (s : State) (o : Host.Outcome State Fault Refusal) (code : Nat) => ∃ t, o = .next t ∧ t.pwr = { s.pwr with boot := none } ∧
    rd t F.PWR_BOOT_STATUS_CODE = code ∧ rd t F.PWR_STATUS_BOOT_STATE = 3 ∧ rd t K.PWR_EVENT_BOOT_FAIL.fld = 1 ∧
    rd t F.PWR_STATUS_FALLBACK = rd s F.PWR_STATUS_FALLBACK
  let failsAt := fun (s : State) (o : Host.Outcome State Fault Refusal) (code r field : Nat) => fails s o code ∧
    ∃ t, o = .next t ∧ rd t F.PWR_BOOT_STATUS_RECORD = r ∧ rd t F.PWR_BOOT_STATUS_FIELD = field
  let fallsBack := fun (s : State) (o : Host.Outcome State Fault Refusal) (code : Nat) => ∃ t, o = .next t ∧ t.pwr = { s.pwr with boot := none } ∧
    rd t F.PWR_BOOT_STATUS_CODE = code ∧ rd t F.PWR_STATUS_FALLBACK = 1 ∧ rd t F.DMC_GSTATUS_READY = 0 ∧
    rd t F.PWR_STATUS_BOOT_STATE = bit s.straps.bootSrc
  let settings := fun (s t : State) (rows sp ecc : Nat) =>
    if rd s F.DMC_CTRL_LOCK = 1 then rd t F.DMC_CTRL_ROW_BITS = rd s F.DMC_CTRL_ROW_BITS ∧ rd t F.DMC_CTRL_INIT_SP = rd s F.DMC_CTRL_INIT_SP ∧
      rdReg t R.DMC_ECC_EN = rdReg s R.DMC_ECC_EN
    else rd t F.DMC_CTRL_ROW_BITS = rows ∧ rd t F.DMC_CTRL_INIT_SP = sp ∧ rdReg t R.DMC_ECC_EN = ecc
  let startable := fun (s : State) => s.pwr.phase = .main ∧ rd s F.PWR_STATUS_BOOT_STATE = 0 ∧ s.pwr.boot = none
  let fromNor := fun (s : State) => kindOf s = .powerOn ∨ rd s F.PWR_STATUS_FALLBACK = 1
  (∀ (b : List Byte) (s : State), ¬ startable s → exec (.bootStart b) s = .next s) ∧
  (∀ (b : List Byte) (s : State), startable s → fromNor s →
    (leAt b 0 4 ≠ 0x474D494B → failsAt s (exec (.bootStart b) s) 1 0 0) ∧
    (leAt b 0 4 = 0x474D494B → leAt b 4 1 ≠ 1 → failsAt s (exec (.bootStart b) s) 2 0 4) ∧
    (leAt b 0 4 = 0x474D494B → leAt b 4 1 = 1 → ¬ inSum b → failsAt s (exec (.bootStart b) s) 2 0 60) ∧
    (leAt b 0 4 = 0x474D494B → leAt b 4 1 = 1 → inSum b → ¬ inRange b → fails s (exec (.bootStart b) s) 3) ∧
    (goodHeader b → rd s F.DMC_GSTATUS_READY = 0 → rd s F.DMC_GSTATUS_INIT_BUSY = 0 → s.dmc.holdClock = false → (∀ c, c < 8 → rd s F.DMC_CH_STATUS_STATE c ≠ 1) →
      ∃ t, exec (.bootStart b) s = .next t ∧ t.pwr = { s.pwr with boot := some { kind := kindOf s, image := bytesAt b 0 (len b), stage := 1 } } ∧
        settings s t (leAt b 12 1) (leAt b 13 1) (leAt b 16 8) ∧
        t.out = .spi [0x6C, 0, 0, 0, 0] 8 1000 :: .spi [0x99] 0 0 :: .spi [0x66] 0 0 :: s.out ∧
        rd t F.DMC_GSTATUS_INIT_BUSY = 1 ∧ (∀ c, c < 8 → rd t F.DMC_CH_STATUS_STATE c = 1) ∧ t.mem = [])) ∧
  (∀ (b : List Byte) (r : Retention) (s : State), startable s → ¬ fromNor s → s.pwr.retention = some r → 14 ≤ r.rowBits → r.rowBits ≤ 17 → r.initSp < 3 → r.ecc < 2 ^ 64 →
    let kept := Memory.readBytes s.mem r.base r.len
    goodHeader kept → ∃ t, exec (.bootStart b) s = .next t ∧
      t.pwr = { s.pwr with boot := some { kind := kindOf s, image := kept, stage := 1, retained := true } } ∧ rd t F.PWR_STATUS_RETAINED = 1 ∧
      settings s t r.rowBits r.initSp r.ecc ∧
      (∀ c, c < 8 → rd t F.DMC_CH_STATUS_STATE c = 1) ∧ t.mem = s.mem) ∧
  (∀ (b : List Byte) (s : State), startable s → ¬ fromNor s → s.pwr.retention = none → s.straps.bootSrc = true →
    ∃ t, exec (.bootStart b) s = .next t ∧ t.pwr = s.pwr ∧ rd t F.PWR_STATUS_FALLBACK = 1 ∧ rd t F.PWR_STATUS_BOOT_STATE = 1 ∧ t.mem = s.mem) ∧
  (∀ (failed : BitVec 8) (margins : List (BitVec 8)) (b : Boot) (s : State), s.pwr.boot = some b → b.stage = 1 →
    let bad := fun (c : Nat) => failed.getLsbD c = true ∨ (margins.getD c 0).toNat < rd s F.DMC_CH_THRESH_MARGIN_MIN c
    let o := exec (.dramInitDone failed margins) s
    (rd s F.DMC_GSTATUS_INIT_BUSY = 1 ∨ b.retained = true → (∀ c, c < 8 → ¬ bad c) →
      ∃ t, o = .next t ∧ t.pwr = { s.pwr with boot := some { b with stage := 2 } } ∧ rd t F.DMC_GSTATUS_READY = 1 ∧
      rd t F.DMC_GSTATUS_SP = rd s F.DMC_CTRL_INIT_SP ∧
      ∀ c, c < 8 → rd t F.DMC_CH_STATUS_STATE c = 2 ∧ rd t F.DMC_CH_STATUS_MARGIN_OK c = 1) ∧
    (∀ c, c < 8 → bad c → rd s F.DMC_GSTATUS_INIT_BUSY = 1 → rd s F.DMC_GSTATUS_READY = 0 → b.retained = false → failsAt s o 4 0 0) ∧
    (∀ c, c < 8 → bad c → rd s F.DMC_GSTATUS_INIT_BUSY = 0 → b.retained = true → fallsBack s o 4)) ∧
  (∀ (h : List Byte) (e : Nat) (s u : State), rd s F.PWR_STATUS_BOOT_STATE = 1 → s.pwr.boot = none → accessWaits s 0 = false →
    busRead s 0 (rdReg s R.PWR_BOOT_ADDR) 64 = (u, e, h) →
    (leAt h 0 4 ≠ 0x474D494B → failsAt u (exec .bootGo s) 1 0 0) ∧
    (goodHeader h → rdReg s R.PWR_BOOT_ADDR ≠ leAt h 24 5 → failsAt u (exec .bootGo s) 2 0 24) ∧
    (∀ w f image, goodHeader h → rdReg s R.PWR_BOOT_ADDR = leAt h 24 5 →
      busRead (wr0 u F.PWR_STATUS_BOOT_STATE 0) 0 (rdReg s R.PWR_BOOT_ADDR) (len h) = (w, f, image) →
      exec .bootGo s = .next { w with pwr := { w.pwr with boot := some { kind := kindOf u, stage := 2, image := image, host := true } } })) ∧
  (∀ s : State, rd s F.PWR_STATUS_BOOT_STATE ≠ 1 ∨ accessWaits s 0 = true → exec .bootGo s = .next s) ∧
  (∀ (b : Boot) (s : State), s.pwr.boot = some b → b.stage = 2 → accessWaits s 0 = true → exec .bootDigestDone s = .next s) ∧
  (∀ (b : Boot) (image : List Byte) (s u : State), s.pwr.boot = some b → b.stage = 2 → accessWaits s 0 = false → u.pwr.boot = some b →
    (b.retained = true ∧ (∃ r e, s.pwr.retention = some r ∧ busRead s 0 r.base r.len = (u, e, image)) ∨
      b.retained = false ∧ b.host = true ∧ u = s ∧ image = b.image ∨
      b.retained = false ∧ b.host = false ∧ image = b.image ∧ (busWrite s 0 (leAt b.image 24 5) b.image).1 = u) →
    let n := len image
    let d := sha256 (bytesAt image 0 (n - 32))
    let programmed := fun (k : Nat) => rd u F.PWR_OTP_STATE_SLOTS / 4 ^ k % 4 = 1
    let good := d = bytesAt image (n - 32) 32 ∧ (b.retained = true → ∃ r, u.pwr.retention = some r ∧ r.digest = d) ∧
      ((∀ k, k < 4 → ¬ programmed k) ∨ ∃ k, k < 4 ∧ programmed k ∧ u.pwr.otp.get k [] = d)
    (good → exec .bootDigestDone s = .next { u with pwr := { u.pwr with boot := some { b with image := image, stage := 3 } } }) ∧
    (¬ good → b.retained = true → fallsBack u (exec .bootDigestDone s) 5) ∧ (¬ good → b.retained = false → failsAt u (exec .bootDigestDone s) 5 0 0)) ∧
  (∀ (b : Boot) (s : State), s.pwr.boot = some b → b.stage = 3 → b.waiting = false → b.record < 4096 →
    let at_ := fun (o n : Nat) => leAt b.image (b.pos + o) n
    let kind := at_ 0 1
    let size := at_ 4 4
    let addr := at_ 8 5
    let data := bytesAt b.image (b.pos + 16) size
    let sizeOk := (if kind = 1 then size % 8 = 0 ∧ 8 ≤ size ∧ size ≤ 65536 else if kind = 2 then 1 ≤ size ∧ size ≤ 16777216 else size = 0) ∧
      b.pos + 16 + (size + 15) / 16 * 16 ≤ len b.image
    let listed := b.record < leAt b.image 6 2
    let runs := at_ 1 1 / 2 ^ (match b.kind with | .powerOn => 0 | .warm => 1 | .wake => 2) % 2 = 1
    let known := 1 ≤ kind ∧ kind ≤ 5
    let next := { b with pos := b.pos + 16 + (size + 15) / 16 * 16, record := b.record + 1, sub := 0 }
    let moved := fun (u : State) (x : Boot) => { u with pwr := { u.pwr with boot := some x } }
    let keep := Retention.mk (leAt b.image 24 5) (len b.image) (sha256 (bytesAt b.image 0 (len b.image - 32)))
      (rd s F.DMC_CTRL_ROW_BITS) (rd s F.DMC_CTRL_INIT_SP) (rdReg s R.DMC_ECC_EN)
    let o := exec .bootRecord s
    (¬ listed → failsAt s o 6 b.record 0) ∧ (listed → ¬ known → failsAt s o 6 b.record 0) ∧ (listed → known → ¬ sizeOk → failsAt s o 6 b.record 4) ∧
    (listed → known → sizeOk → ¬ runs → o = .next (moved s next)) ∧
    (listed → sizeOk → runs → kind = 5 → o = .next s ∧ ∃ t, exec .bootEnd s = .next t ∧ rd t F.PWR_STATUS_BOOT_STATE = 2 ∧
      rd t K.PWR_EVENT_BOOT_DONE.fld = 1 ∧ t.pwr.boot = none ∧ t.pwr.retention = some keep ∧
      sameRegsBut s t [R.PWR_STATUS.addr 0 0, R.PWR_EVENT.addr 0 0, R.PWR_EVENT_CNT.addr 0 0] ∧ t.mem = s.mem) ∧
    (listed → known → sizeOk → (kind ≠ 5 ∨ ¬ runs) → exec .bootEnd s = .next s) ∧
    (listed → sizeOk → runs → kind = 4 →
      let w := { next with waiting := true, until_ := s.time.cyc + 625 * (addr % 2 ^ 24) }
      o = .next (moved s w) ∧ ∀ k,
        let u : State := { moved s w with time := { s.time with cyc := k } }
        (k < w.until_ → exec .bootWaitExpiry u = .next u) ∧ (w.until_ ≤ k → exec .bootWaitExpiry u = .next (moved u { w with waiting := false }))) ∧
    (listed → sizeOk → runs → kind = 1 → size = 8 → leAt data 0 4 < 2 ^ 26 →
      let x : Access1 := { master := 0, addr := 0x1800000000 + leAt data 0 4, len := 4, write := true }
      (b.sub = 0 → bootWaits s x.addr = true → o = .next s) ∧
      (b.sub = 0 → bootWaits s x.addr = false → protCheck s x ≠ none ∨ decodeKind s x ≠ 0 → fails s o 7) ∧
      (∀ u, b.sub = 0 → bootWaits s x.addr = false → protCheck s x = none → decodeKind s x = 0 →
        exec (.registerWrite (BitVec.ofNat 26 (leAt data 0 4)) false (BitVec.ofNat 64 (leAt data 4 4))) s = .next u → u.pwr.boot = some b →
        o = .next (moved u next))) ∧
    (listed → sizeOk → runs → kind = 2 → addr % 256 + size ≤ 256 → addr + size ≤ 2 ^ 36 →
      let x : Access1 := { master := 0, addr := addr, len := size, write := true }
      (b.sub = 0 → bootWaits s addr = true → o = .next s) ∧
      (b.sub = 0 → bootWaits s addr = false → protCheck s x ≠ none ∨ decodeKind s x ≠ 0 → failsAt s o 7 b.record 8) ∧
      (b.sub = 0 → bootWaits s addr = false → protCheck s x = none → decodeKind s x = 0 → dramUp s = true → inDram s addr size = true → s.dmc.bad = [] →
        s.dmc.weak = [] →
        o = .next (moved { s with mem := Memory.writeBytes s.mem addr data } next))) ∧
    (∀ n : Fin 16, listed → sizeOk → runs → kind = 3 → addr % 2 ^ 16 = 2 ^ n.val →
      (seqBusy (seqOf s n) = true → failsAt s o 8 b.record 8) ∧
      (∀ u v, seqBusy (seqOf s n) = false → exec (.seqStart n) s = .next u → exec (.seqStartDone n) u = .next v →
        ((seqOf v n).run = .running → v.pwr.boot = some b → o = .next (moved v next)) ∧
        ((seqOf v n).run ≠ .running → v.pwr = s.pwr → failsAt s o 8 b.record 8))))

end
end

