-- ==== Sys2Proof/Laws/Maps.lean ====
section
/-!
SUPPORT. Laws of sparse maps and of byte memory: a read after a write, what a write leaves alone, and that the canonical forms last.
-/

namespace Sys2Proof

/-! ### Maps -/

@[simp] theorem Map.find_nil {α : Type} (k : Nat) : Map.find ([] : Map α) k = none := rfl
@[simp] theorem Map.get_nil {α : Type} (k : Nat) (d : α) : Map.get ([] : Map α) k d = d := rfl

theorem Map.find_put {α : Type} (m : Map α) (k j : Nat) (v : α) :
    (m.put k v).find j = if j = k then some v else m.find j := by
  induction m with
  | nil => simp [Map.put, Map.find]
  | cons e t ih =>
    obtain ⟨a, b⟩ := e
    simp only [Map.put]
    split
    · simp [Map.find]
    · split
      · subst_vars; simp only [Map.find]; split <;> simp_all
      · simp only [Map.find, ih]; split
        · split
          · omega
          · rfl
        · rfl

@[simp] theorem Map.find_put_same {α : Type} (m : Map α) (k : Nat) (v : α) : (m.put k v).find k = some v := by
  simp [Map.find_put]

theorem Map.find_put_ne {α : Type} (m : Map α) {k j : Nat} (v : α) (h : j ≠ k) : (m.put k v).find j = m.find j := by
  simp [Map.find_put, h]

theorem Map.get_put {α : Type} (m : Map α) (k j : Nat) (v d : α) :
    (m.put k v).get j d = if j = k then v else m.get j d := by
  simp only [Map.get, Map.find_put]; split <;> rfl

@[simp] theorem Map.get_put_same {α : Type} (m : Map α) (k : Nat) (v d : α) : (m.put k v).get k d = v := by
  simp [Map.get_put]

theorem Map.get_put_ne {α : Type} (m : Map α) {k j : Nat} (v d : α) (h : j ≠ k) : (m.put k v).get j d = m.get j d := by
  simp [Map.get_put, h]

theorem Map.find_del {α : Type} (m : Map α) (k j : Nat) :
    (m.del k).find j = if j = k then none else m.find j := by
  induction m with
  | nil => simp [Map.del, Map.find]
  | cons e t ih =>
    obtain ⟨a, b⟩ := e
    simp only [Map.del]
    split
    · subst_vars; simp only [ih, Map.find]; split <;> simp_all
    · simp only [Map.find, ih]; split
      · split
        · omega
        · rfl
      · rfl

theorem Map.get_del {α : Type} (m : Map α) (k j : Nat) (d : α) :
    (m.del k).get j d = if j = k then d else m.get j d := by
  simp only [Map.get, Map.find_del]; split <;> rfl

/-- A map is canonical when its first key is below every other and the rest is canonical. -/
theorem Map.wf_cons {α : Type} (a : Nat) (b : α) (t : Map α) :
    Map.wf ((a, b) :: t) = true ↔ (∀ e ∈ t, a < e.1) ∧ Map.wf t = true := by
  induction t generalizing a b with
  | nil => simp [Map.wf]
  | cons e t ih =>
    obtain ⟨c, d⟩ := e
    simp only [Map.wf, Bool.and_eq_true, decide_eq_true_eq, List.mem_cons, forall_eq_or_imp]
    constructor
    · rintro ⟨h, w⟩
      exact ⟨⟨h, fun e he => Nat.lt_trans h (((ih c d).1 w).1 e he)⟩, w⟩
    · rintro ⟨⟨h, -⟩, w⟩
      exact ⟨h, w⟩

theorem Map.mem_put {α : Type} (m : Map α) (k : Nat) (v : α) {e : Nat × α} (h : e ∈ m.put k v) :
    e = (k, v) ∨ e ∈ m := by
  induction m with
  | nil => simp [Map.put] at h; exact .inl h
  | cons x t ih =>
    obtain ⟨a, b⟩ := x
    simp only [Map.put] at h
    split at h
    · simpa using h
    · split at h
      · simp only [List.mem_cons] at h ⊢; tauto
      · simp only [List.mem_cons] at h ⊢
        rcases h with h | h
        · tauto
        · have := ih h; tauto

theorem Map.mem_del {α : Type} (m : Map α) (k : Nat) {e : Nat × α} (h : e ∈ m.del k) : e ∈ m := by
  induction m with
  | nil => simp [Map.del] at h
  | cons x t ih =>
    obtain ⟨a, b⟩ := x
    simp only [Map.del] at h
    split at h
    · exact List.mem_cons_of_mem _ (ih h)
    · simp only [List.mem_cons] at h ⊢
      rcases h with h | h
      · exact .inl h
      · exact .inr (ih h)

/-- A write keeps the keys strictly rising. -/
theorem Map.wf_put {α : Type} (m : Map α) (k : Nat) (v : α) (h : m.wf = true) : (m.put k v).wf = true := by
  induction m with
  | nil => rfl
  | cons e t ih =>
    obtain ⟨a, b⟩ := e
    have w := (Map.wf_cons a b t).1 h
    simp only [Map.put]
    split
    · rw [Map.wf_cons]
      refine ⟨?_, h⟩
      intro e he
      simp only [List.mem_cons] at he
      rcases he with rfl | he
      · assumption
      · have := w.1 e he; omega
    · split
      · subst_vars
        rw [Map.wf_cons]
        exact w
      · rw [Map.wf_cons]
        refine ⟨?_, ih w.2⟩
        intro e he
        rcases Map.mem_put t k v he with rfl | he
        · show a < k; omega
        · exact w.1 e he

/-- A removal keeps the keys strictly rising. -/
theorem Map.wf_del {α : Type} (m : Map α) (k : Nat) (h : m.wf = true) : (m.del k).wf = true := by
  induction m with
  | nil => rfl
  | cons e t ih =>
    obtain ⟨a, b⟩ := e
    have w := (Map.wf_cons a b t).1 h
    simp only [Map.del]
    split
    · exact ih w.2
    · rw [Map.wf_cons]
      exact ⟨fun e he => w.1 e (Map.mem_del t k he), ih w.2⟩

/-- A selection by key keeps the keys strictly rising. -/
theorem Map.wf_keep {α : Type} (m : Map α) (p : Nat → Bool) (h : m.wf = true) : (m.keep p).wf = true := by
  induction m with
  | nil => rfl
  | cons e t ih =>
    obtain ⟨a, b⟩ := e
    have w := (Map.wf_cons a b t).1 h
    have i := ih w.2
    simp only [Map.keep, List.filter_cons] at i ⊢
    split
    · rw [Map.wf_cons]
      exact ⟨fun e he => w.1 e (List.mem_of_mem_filter he), i⟩
    · exact i

/-! ### Byte memory -/

theorem Memory.read_write (m : List Host.Cell) (a x : Nat) (b : Byte) :
    Memory.read (Memory.write m a b) x = if x = a then b else Memory.read m x := by
  simp only [Memory.read, Memory.write]
  split
  · subst_vars; rw [Map.get_del]
  · rw [Map.get_put]

@[simp] theorem Memory.read_write_same (m : List Host.Cell) (a : Nat) (b : Byte) : Memory.read (Memory.write m a b) a = b := by
  simp [Memory.read_write]

theorem Memory.read_write_ne (m : List Host.Cell) {a x : Nat} (b : Byte) (h : x ≠ a) :
    Memory.read (Memory.write m a b) x = Memory.read m x := by
  simp [Memory.read_write, h]

/-- A write of bytes leaves every byte outside them as it was. -/
theorem Memory.read_writeBytes_outside (l : List Byte) (m : List Host.Cell) (a x : Nat) (h : x < a ∨ a + l.length ≤ x) :
    Memory.read (Memory.writeBytes m a l) x = Memory.read m x := by
  induction l generalizing m a with
  | nil => rfl
  | cons b t ih =>
    simp only [List.length_cons] at h
    rw [Memory.writeBytes, ih _ _ (by omega), Memory.read_write_ne]
    omega

/-- A byte within written bytes reads as what was written. -/
theorem Memory.read_writeBytes_inside (l : List Byte) (m : List Host.Cell) (a i : Nat) (h : i < l.length) :
    Memory.read (Memory.writeBytes m a l) (a + i) = l[i] := by
  induction l generalizing m a i with
  | nil => simp at h
  | cons b t ih =>
    cases i with
    | zero => rw [Memory.writeBytes, Memory.read_writeBytes_outside _ _ _ _ (by omega)]; simp
    | succ i =>
      have := ih (Memory.write m a b) (a + 1) i (by simpa using h)
      rw [Memory.writeBytes, show a + (i + 1) = a + 1 + i by omega, this]
      rfl

@[simp] theorem Memory.readBytes_length (m : List Host.Cell) (a n : Nat) : (Memory.readBytes m a n).length = n := by
  induction n generalizing a with
  | zero => rfl
  | succ n ih => simp [Memory.readBytes, ih]

/-- Bytes read back after their write are the bytes written. -/
theorem Memory.readBytes_writeBytes (l : List Byte) (m : List Host.Cell) (a : Nat) :
    Memory.readBytes (Memory.writeBytes m a l) a l.length = l := by
  induction l generalizing m a with
  | nil => rfl
  | cons b t ih =>
    simp only [List.length_cons, Memory.readBytes, Memory.writeBytes, ih]
    rw [Memory.read_writeBytes_outside _ _ _ _ (by omega)]
    simp

theorem Memory.wf_write (m : List Host.Cell) (a : Nat) (b : Byte) (h : Memory.wf m = true) :
    Memory.wf (Memory.write m a b) = true := by
  simp only [Memory.wf, Bool.and_eq_true, List.all_eq_true, bne_iff_ne] at h ⊢
  unfold Memory.write
  split
  · exact ⟨Map.wf_del _ _ h.1, fun c hc => h.2 c (Map.mem_del _ _ hc)⟩
  · refine ⟨Map.wf_put _ _ _ h.1, fun c hc => ?_⟩
    rcases Map.mem_put _ _ _ hc with rfl | hc
    · assumption
    · exact h.2 c hc

/-- Every write of bytes keeps the canonical form. -/
theorem Memory.wf_writeBytes (l : List Byte) (m : List Host.Cell) (a : Nat) (h : Memory.wf m = true) :
    Memory.wf (Memory.writeBytes m a l) = true := by
  induction l generalizing m a with
  | nil => exact h
  | cons b t ih => exact ih _ _ (Memory.wf_write _ _ _ h)

theorem Memory.wf_nil : Memory.wf [] = true := rfl

/-! ### Byte order -/

@[simp] theorem leBytes_length (v n : Nat) : (leBytes v n).length = n := by
  induction n generalizing v with
  | zero => rfl
  | succ n ih => simp [leBytes, ih]

/-- A little-endian number read back from its bytes. -/
theorem leNat_leBytes (v n : Nat) : leNat (leBytes v n) = v % 256 ^ n := by
  induction n generalizing v with
  | zero => simp [leBytes, leNat, Nat.mod_one]
  | succ n ih =>
    simp only [leBytes, leNat, ih, BitVec.toNat_ofNat, Nat.reducePow]
    rw [Nat.pow_succ', Nat.mod_mul]

end Sys2Proof
end

