-- ==== Sys2Proof/Laws/Regs.lean ====
section
/-!
SUPPORT. Laws of registers: a field read after a write of it, what a write of a field leaves alone, and what raising a flag does.
-/

namespace Sys2Proof

/-! ### Bits of numbers -/

theorem slice_testBit (v lo w i : Nat) : (slice v lo w).testBit i = (decide (i < w) && v.testBit (lo + i)) := by
  rw [slice, Nat.testBit_mod_two_pow, Nat.testBit_div_two_pow, Nat.add_comm]

theorem slice_lt (v lo w : Nat) : slice v lo w < 2 ^ w := Nat.mod_lt _ (Nat.two_pow_pos w)

end Sys2Proof

namespace Sys2Proof.Machine

/-- A number is its bits above a field, the field and the bits below it. -/
theorem slice_parts (v lo w : Nat) : v = v / 2 ^ (lo + w) * 2 ^ (lo + w) + slice v lo w * 2 ^ lo + v % 2 ^ lo := by
  have h1 := Nat.div_add_mod v (2 ^ lo)
  have h2 := Nat.div_add_mod (v / 2 ^ lo) (2 ^ w)
  rw [Nat.div_div_eq_div_mul, ← Nat.pow_add] at h2
  simp only [slice]
  calc v = 2 ^ lo * (v / 2 ^ lo) + v % 2 ^ lo := h1.symm
    _ = 2 ^ lo * (2 ^ w * (v / 2 ^ (lo + w)) + v / 2 ^ lo % 2 ^ w) + v % 2 ^ lo := by rw [h2]
    _ = _ := by rw [Nat.pow_add]; ring

theorem setBits_eq (old lo w v : Nat) :
    setBits old lo w v = old / 2 ^ (lo + w) * 2 ^ (lo + w) + v % 2 ^ w * 2 ^ lo + old % 2 ^ lo := by
  have h := slice_parts old lo w
  simp only [setBits]
  omega

/-- The bits of a number after a field of it is set. -/
theorem setBits_testBit (old lo w v i : Nat) :
    (setBits old lo w v).testBit i = if lo ≤ i ∧ i < lo + w then v.testBit (i - lo) else old.testBit i := by
  have e : setBits old lo w v = 2 ^ lo * (2 ^ w * (old / 2 ^ (lo + w)) + v % 2 ^ w) + old % 2 ^ lo := by
    rw [setBits_eq, Nat.pow_add]; ring
  rw [e, Nat.testBit_two_pow_mul_add _ (Nat.mod_lt _ (Nat.two_pow_pos lo)),
    Nat.testBit_two_pow_mul_add _ (Nat.mod_lt _ (Nat.two_pow_pos w))]
  by_cases h1 : i < lo
  · have : ¬ (lo ≤ i ∧ i < lo + w) := by omega
    simp [h1, this]
  · by_cases h2 : i - lo < w
    · have : lo ≤ i ∧ i < lo + w := by omega
      simp [h1, h2, this]
    · have : ¬ (lo ≤ i ∧ i < lo + w) := by omega
      simp only [h1, h2, this, if_false, Nat.testBit_div_two_pow]
      congr 1
      omega

/-- A field read after it is set. -/
theorem slice_setBits_same (old lo w v : Nat) : slice (setBits old lo w v) lo w = v % 2 ^ w := by
  apply Nat.eq_of_testBit_eq
  intro i
  rw [slice_testBit, setBits_testBit, Nat.testBit_mod_two_pow]
  by_cases h : i < w <;> simp [h]

/-- A field read after another field, disjoint from it, is set. -/
theorem slice_setBits_other (old lo w v lo' w' : Nat) (h : lo' + w' ≤ lo ∨ lo + w ≤ lo') :
    slice (setBits old lo w v) lo' w' = slice old lo' w' := by
  apply Nat.eq_of_testBit_eq
  intro i
  rw [slice_testBit, slice_testBit, setBits_testBit]
  by_cases h' : i < w'
  · have : ¬ (lo ≤ lo' + i ∧ lo' + i < lo + w) := by omega
    simp [this]
  · simp [h']

theorem slice_mod_word (v lo w : Nat) (h : lo + w ≤ 64) : slice (v % 2 ^ 64) lo w = slice v lo w := by
  apply Nat.eq_of_testBit_eq
  intro i
  rw [slice_testBit, slice_testBit, Nat.testBit_mod_two_pow]
  by_cases h' : i < w
  · have : lo + i < 64 := by omega
    simp [this]
  · simp [h']

/-! ### Registers and fields -/

theorem rdReg_wrReg_same (s : State) (r : Reg) (i j v : Nat) : rdReg (wrReg s r i j v) r i j = v % 2 ^ 64 := by
  simp [rdReg, wrReg]

theorem rdReg_wrReg_ne (s : State) (r r' : Reg) (i j i' j' v : Nat) (h : r'.addr i' j' ≠ r.addr i j) :
    rdReg (wrReg s r i j v) r' i' j' = rdReg s r' i' j' := by
  simp [rdReg, wrReg, Map.get_put_ne _ _ _ h]

/-- A field read after it is written: the value cut to its width. -/
theorem rd_wr_same (s : State) (f : Fld) (i j v : Nat) (h : f.lo + f.w ≤ 64) : rd (wr s f i j v) f i j = v % 2 ^ f.w := by
  rw [rd, wr, rdReg_wrReg_same, slice_mod_word _ _ _ h, slice_setBits_same]

/-- A write of a field leaves a disjoint field of the same register alone. -/
theorem rd_wr_field (s : State) (f g : Fld) (i j v : Nat) (hr : g.reg = f.reg) (hg : g.lo + g.w ≤ 64)
    (h : g.lo + g.w ≤ f.lo ∨ f.lo + f.w ≤ g.lo) : rd (wr s f i j v) g i j = rd s g i j := by
  rw [rd, wr, hr, rdReg_wrReg_same, slice_mod_word _ _ _ hg, slice_setBits_other _ _ _ _ _ _ h, rd, hr]

/-- A write of a field leaves every register at another offset alone. -/
theorem rd_wr_reg (s : State) (f g : Fld) (i j i' j' v : Nat) (h : g.reg.addr i' j' ≠ f.reg.addr i j) :
    rd (wr s f i j v) g i' j' = rd s g i' j' := by
  rw [rd, wr, rdReg_wrReg_ne _ _ _ _ _ _ _ _ h, rd]

/-- Reads of registers look at the registers alone. -/
theorem rd_regs {s t : State} (h : t.regs = s.regs) (f : Fld) (i j : Nat) : rd t f i j = rd s f i j := by
  rw [rd, rd, rdReg, rdReg, h]

/-- What a write of a field is: only the registers change, and of them one. -/
theorem wr_eq (s : State) (f : Fld) (i j v : Nat) :
    wr s f i j v = { s with regs := s.regs.put (f.reg.addr i j) (BitVec.ofNat 64 (setBits (rdReg s f.reg i j) f.lo f.w v)) } := rfl

/-! ### Flags and vectors -/

/-- Raising a vector touches the pending bits alone. -/
theorem raiseVector_eq (s : State) (v : Nat) : ∃ p, raiseVector s v = { s with fab := { s.fab with pba := p } } := ⟨_, rfl⟩

@[simp] theorem raiseVector_regs (s : State) (v : Nat) : (raiseVector s v).regs = s.regs := rfl
@[simp] theorem rd_raiseVector (s : State) (v : Nat) (f : Fld) (i j : Nat) : rd (raiseVector s v) f i j = rd s f i j := rfl

/-- After a raise the vector's pending bit is set (R570). -/
theorem raiseVector_sets (s : State) (v : Nat) : v ∈ (raiseVector s v).fab.pba := by
  simp only [raiseVector]
  split
  · simp_all
  · simp

/-- A raised flag changes the registers and the pending bits alone. -/
theorem raise_eq (s : State) (k : Flag) (i : Nat) :
    ∃ r p, raise s k i = { s with regs := r, fab := { s.fab with pba := p } } := ⟨_, _, rfl⟩

@[simp] theorem raise_mem (s : State) (k : Flag) (i : Nat) : (raise s k i).mem = s.mem := rfl

/-- A raised flag reads 1 (R22). -/
theorem rd_raise_flag (s : State) (k : Flag) (i : Nat) (h1 : k.fld.w = 1) (h2 : k.fld.lo < 64)
    (h3 : (k.fld.reg = k.cnt.reg ∧ (k.fld.lo + k.fld.w ≤ k.cnt.lo ∨ k.cnt.lo + k.cnt.w ≤ k.fld.lo)) ∨
      k.fld.reg.addr i 0 ≠ k.cnt.reg.addr i 0) : rd (raise s k i) k.fld i = 1 := by
  simp only [raise, raiseIf, if_true, rd_raiseVector, raiseQuiet]
  rcases h3 with h3 | h3
  · rw [rd_wr_field _ _ _ _ _ _ h3.1 (by omega) h3.2, rd_wr_same _ _ _ _ _ (by omega), h1]; rfl
  · rw [rd_wr_reg _ _ _ _ _ _ _ _ h3, rd_wr_same _ _ _ _ _ (by omega), h1]; rfl

end Sys2Proof.Machine
end

