-- ==== Sys2Proof/Laws/State.lean ====
section
/-!
SUPPORT. Every basic update of State beside every field it leaves alone, each true by unfolding, and the records it replaces read back.
-/

namespace Sys2Proof.Machine

variable (s : State)

/-! ### wrReg -/

@[simp] theorem wrReg_mem (r : Reg) (i j v : Nat) : (wrReg s r i j v).mem = s.mem := rfl
@[simp] theorem wrReg_time (r : Reg) (i j v : Nat) : (wrReg s r i j v).time = s.time := rfl
@[simp] theorem wrReg_straps (r : Reg) (i j v : Nat) : (wrReg s r i j v).straps = s.straps := rfl
@[simp] theorem wrReg_ptp (r : Reg) (i j v : Nat) : (wrReg s r i j v).ptp = s.ptp := rfl
@[simp] theorem wrReg_net (r : Reg) (i j v : Nat) : (wrReg s r i j v).net = s.net := rfl
@[simp] theorem wrReg_slu (r : Reg) (i j v : Nat) : (wrReg s r i j v).slu = s.slu := rfl
@[simp] theorem wrReg_vdc (r : Reg) (i j v : Nat) : (wrReg s r i j v).vdc = s.vdc := rfl
@[simp] theorem wrReg_ven (r : Reg) (i j v : Nat) : (wrReg s r i j v).ven = s.ven := rfl
@[simp] theorem wrReg_eas (r : Reg) (i j v : Nat) : (wrReg s r i j v).eas = s.eas := rfl
@[simp] theorem wrReg_cmp (r : Reg) (i j v : Nat) : (wrReg s r i j v).cmp = s.cmp := rfl
@[simp] theorem wrReg_chk (r : Reg) (i j v : Nat) : (wrReg s r i j v).chk = s.chk := rfl
@[simp] theorem wrReg_tnd (r : Reg) (i j v : Nat) : (wrReg s r i j v).tnd = s.tnd := rfl
@[simp] theorem wrReg_seqs (r : Reg) (i j v : Nat) : (wrReg s r i j v).seqs = s.seqs := rfl
@[simp] theorem wrReg_tch (r : Reg) (i j v : Nat) : (wrReg s r i j v).tch = s.tch := rfl
@[simp] theorem wrReg_cpr (r : Reg) (i j v : Nat) : (wrReg s r i j v).cpr = s.cpr := rfl
@[simp] theorem wrReg_jnl (r : Reg) (i j v : Nat) : (wrReg s r i j v).jnl = s.jnl := rfl
@[simp] theorem wrReg_lane (r : Reg) (i j v : Nat) : (wrReg s r i j v).lane = s.lane := rfl
@[simp] theorem wrReg_lnk (r : Reg) (i j v : Nat) : (wrReg s r i j v).lnk = s.lnk := rfl
@[simp] theorem wrReg_fab (r : Reg) (i j v : Nat) : (wrReg s r i j v).fab = s.fab := rfl
@[simp] theorem wrReg_prt (r : Reg) (i j v : Nat) : (wrReg s r i j v).prt = s.prt := rfl
@[simp] theorem wrReg_dmc (r : Reg) (i j v : Nat) : (wrReg s r i j v).dmc = s.dmc := rfl
@[simp] theorem wrReg_pwr (r : Reg) (i j v : Nat) : (wrReg s r i j v).pwr = s.pwr := rfl
@[simp] theorem wrReg_out (r : Reg) (i j v : Nat) : (wrReg s r i j v).out = s.out := rfl
@[simp] theorem wrReg_free (r : Reg) (i j v : Nat) : (wrReg s r i j v).free = s.free := rfl
@[simp] theorem wrReg_pending (r : Reg) (i j v : Nat) : (wrReg s r i j v).pending = s.pending := rfl

/-! ### wr -/

@[simp] theorem wr_mem (f : Fld) (i j v : Nat) : (wr s f i j v).mem = s.mem := rfl
@[simp] theorem wr_time (f : Fld) (i j v : Nat) : (wr s f i j v).time = s.time := rfl
@[simp] theorem wr_straps (f : Fld) (i j v : Nat) : (wr s f i j v).straps = s.straps := rfl
@[simp] theorem wr_ptp (f : Fld) (i j v : Nat) : (wr s f i j v).ptp = s.ptp := rfl
@[simp] theorem wr_net (f : Fld) (i j v : Nat) : (wr s f i j v).net = s.net := rfl
@[simp] theorem wr_slu (f : Fld) (i j v : Nat) : (wr s f i j v).slu = s.slu := rfl
@[simp] theorem wr_vdc (f : Fld) (i j v : Nat) : (wr s f i j v).vdc = s.vdc := rfl
@[simp] theorem wr_ven (f : Fld) (i j v : Nat) : (wr s f i j v).ven = s.ven := rfl
@[simp] theorem wr_eas (f : Fld) (i j v : Nat) : (wr s f i j v).eas = s.eas := rfl
@[simp] theorem wr_cmp (f : Fld) (i j v : Nat) : (wr s f i j v).cmp = s.cmp := rfl
@[simp] theorem wr_chk (f : Fld) (i j v : Nat) : (wr s f i j v).chk = s.chk := rfl
@[simp] theorem wr_tnd (f : Fld) (i j v : Nat) : (wr s f i j v).tnd = s.tnd := rfl
@[simp] theorem wr_seqs (f : Fld) (i j v : Nat) : (wr s f i j v).seqs = s.seqs := rfl
@[simp] theorem wr_tch (f : Fld) (i j v : Nat) : (wr s f i j v).tch = s.tch := rfl
@[simp] theorem wr_cpr (f : Fld) (i j v : Nat) : (wr s f i j v).cpr = s.cpr := rfl
@[simp] theorem wr_jnl (f : Fld) (i j v : Nat) : (wr s f i j v).jnl = s.jnl := rfl
@[simp] theorem wr_lane (f : Fld) (i j v : Nat) : (wr s f i j v).lane = s.lane := rfl
@[simp] theorem wr_lnk (f : Fld) (i j v : Nat) : (wr s f i j v).lnk = s.lnk := rfl
@[simp] theorem wr_fab (f : Fld) (i j v : Nat) : (wr s f i j v).fab = s.fab := rfl
@[simp] theorem wr_prt (f : Fld) (i j v : Nat) : (wr s f i j v).prt = s.prt := rfl
@[simp] theorem wr_dmc (f : Fld) (i j v : Nat) : (wr s f i j v).dmc = s.dmc := rfl
@[simp] theorem wr_pwr (f : Fld) (i j v : Nat) : (wr s f i j v).pwr = s.pwr := rfl
@[simp] theorem wr_out (f : Fld) (i j v : Nat) : (wr s f i j v).out = s.out := rfl
@[simp] theorem wr_free (f : Fld) (i j v : Nat) : (wr s f i j v).free = s.free := rfl
@[simp] theorem wr_pending (f : Fld) (i j v : Nat) : (wr s f i j v).pending = s.pending := rfl

/-! ### raiseVector -/

@[simp] theorem raiseVector_mem (v : Nat) : (raiseVector s v).mem = s.mem := rfl
@[simp] theorem raiseVector_time (v : Nat) : (raiseVector s v).time = s.time := rfl
@[simp] theorem raiseVector_straps (v : Nat) : (raiseVector s v).straps = s.straps := rfl
@[simp] theorem raiseVector_ptp (v : Nat) : (raiseVector s v).ptp = s.ptp := rfl
@[simp] theorem raiseVector_net (v : Nat) : (raiseVector s v).net = s.net := rfl
@[simp] theorem raiseVector_slu (v : Nat) : (raiseVector s v).slu = s.slu := rfl
@[simp] theorem raiseVector_vdc (v : Nat) : (raiseVector s v).vdc = s.vdc := rfl
@[simp] theorem raiseVector_ven (v : Nat) : (raiseVector s v).ven = s.ven := rfl
@[simp] theorem raiseVector_eas (v : Nat) : (raiseVector s v).eas = s.eas := rfl
@[simp] theorem raiseVector_cmp (v : Nat) : (raiseVector s v).cmp = s.cmp := rfl
@[simp] theorem raiseVector_chk (v : Nat) : (raiseVector s v).chk = s.chk := rfl
@[simp] theorem raiseVector_tnd (v : Nat) : (raiseVector s v).tnd = s.tnd := rfl
@[simp] theorem raiseVector_seqs (v : Nat) : (raiseVector s v).seqs = s.seqs := rfl
@[simp] theorem raiseVector_tch (v : Nat) : (raiseVector s v).tch = s.tch := rfl
@[simp] theorem raiseVector_cpr (v : Nat) : (raiseVector s v).cpr = s.cpr := rfl
@[simp] theorem raiseVector_jnl (v : Nat) : (raiseVector s v).jnl = s.jnl := rfl
@[simp] theorem raiseVector_lane (v : Nat) : (raiseVector s v).lane = s.lane := rfl
@[simp] theorem raiseVector_lnk (v : Nat) : (raiseVector s v).lnk = s.lnk := rfl
@[simp] theorem raiseVector_prt (v : Nat) : (raiseVector s v).prt = s.prt := rfl
@[simp] theorem raiseVector_dmc (v : Nat) : (raiseVector s v).dmc = s.dmc := rfl
@[simp] theorem raiseVector_pwr (v : Nat) : (raiseVector s v).pwr = s.pwr := rfl
@[simp] theorem raiseVector_out (v : Nat) : (raiseVector s v).out = s.out := rfl
@[simp] theorem raiseVector_free (v : Nat) : (raiseVector s v).free = s.free := rfl
@[simp] theorem raiseVector_pending (v : Nat) : (raiseVector s v).pending = s.pending := rfl

/-! ### raise -/

@[simp] theorem raise_time (k : Flag) (i : Nat) : (raise s k i).time = s.time := rfl
@[simp] theorem raise_straps (k : Flag) (i : Nat) : (raise s k i).straps = s.straps := rfl
@[simp] theorem raise_ptp (k : Flag) (i : Nat) : (raise s k i).ptp = s.ptp := rfl
@[simp] theorem raise_net (k : Flag) (i : Nat) : (raise s k i).net = s.net := rfl
@[simp] theorem raise_slu (k : Flag) (i : Nat) : (raise s k i).slu = s.slu := rfl
@[simp] theorem raise_vdc (k : Flag) (i : Nat) : (raise s k i).vdc = s.vdc := rfl
@[simp] theorem raise_ven (k : Flag) (i : Nat) : (raise s k i).ven = s.ven := rfl
@[simp] theorem raise_eas (k : Flag) (i : Nat) : (raise s k i).eas = s.eas := rfl
@[simp] theorem raise_cmp (k : Flag) (i : Nat) : (raise s k i).cmp = s.cmp := rfl
@[simp] theorem raise_chk (k : Flag) (i : Nat) : (raise s k i).chk = s.chk := rfl
@[simp] theorem raise_tnd (k : Flag) (i : Nat) : (raise s k i).tnd = s.tnd := rfl
@[simp] theorem raise_seqs (k : Flag) (i : Nat) : (raise s k i).seqs = s.seqs := rfl
@[simp] theorem raise_tch (k : Flag) (i : Nat) : (raise s k i).tch = s.tch := rfl
@[simp] theorem raise_cpr (k : Flag) (i : Nat) : (raise s k i).cpr = s.cpr := rfl
@[simp] theorem raise_jnl (k : Flag) (i : Nat) : (raise s k i).jnl = s.jnl := rfl
@[simp] theorem raise_lane (k : Flag) (i : Nat) : (raise s k i).lane = s.lane := rfl
@[simp] theorem raise_lnk (k : Flag) (i : Nat) : (raise s k i).lnk = s.lnk := rfl
@[simp] theorem raise_prt (k : Flag) (i : Nat) : (raise s k i).prt = s.prt := rfl
@[simp] theorem raise_dmc (k : Flag) (i : Nat) : (raise s k i).dmc = s.dmc := rfl
@[simp] theorem raise_pwr (k : Flag) (i : Nat) : (raise s k i).pwr = s.pwr := rfl
@[simp] theorem raise_out (k : Flag) (i : Nat) : (raise s k i).out = s.out := rfl
@[simp] theorem raise_free (k : Flag) (i : Nat) : (raise s k i).free = s.free := rfl
@[simp] theorem raise_pending (k : Flag) (i : Nat) : (raise s k i).pending = s.pending := rfl

/-! ### draw -/

@[simp] theorem draw_regs : (draw s).regs = s.regs := rfl
@[simp] theorem draw_mem : (draw s).mem = s.mem := rfl
@[simp] theorem draw_time : (draw s).time = s.time := rfl
@[simp] theorem draw_straps : (draw s).straps = s.straps := rfl
@[simp] theorem draw_ptp : (draw s).ptp = s.ptp := rfl
@[simp] theorem draw_net : (draw s).net = s.net := rfl
@[simp] theorem draw_slu : (draw s).slu = s.slu := rfl
@[simp] theorem draw_vdc : (draw s).vdc = s.vdc := rfl
@[simp] theorem draw_ven : (draw s).ven = s.ven := rfl
@[simp] theorem draw_eas : (draw s).eas = s.eas := rfl
@[simp] theorem draw_cmp : (draw s).cmp = s.cmp := rfl
@[simp] theorem draw_chk : (draw s).chk = s.chk := rfl
@[simp] theorem draw_tnd : (draw s).tnd = s.tnd := rfl
@[simp] theorem draw_seqs : (draw s).seqs = s.seqs := rfl
@[simp] theorem draw_tch : (draw s).tch = s.tch := rfl
@[simp] theorem draw_cpr : (draw s).cpr = s.cpr := rfl
@[simp] theorem draw_jnl : (draw s).jnl = s.jnl := rfl
@[simp] theorem draw_lane : (draw s).lane = s.lane := rfl
@[simp] theorem draw_lnk : (draw s).lnk = s.lnk := rfl
@[simp] theorem draw_fab : (draw s).fab = s.fab := rfl
@[simp] theorem draw_prt : (draw s).prt = s.prt := rfl
@[simp] theorem draw_dmc : (draw s).dmc = s.dmc := rfl
@[simp] theorem draw_pwr : (draw s).pwr = s.pwr := rfl
@[simp] theorem draw_out : (draw s).out = s.out := rfl
@[simp] theorem draw_pending : (draw s).pending = s.pending := rfl

/-! ### emit -/

@[simp] theorem emit_regs (o : Output) : (emit s o).regs = s.regs := rfl
@[simp] theorem emit_mem (o : Output) : (emit s o).mem = s.mem := rfl
@[simp] theorem emit_time (o : Output) : (emit s o).time = s.time := rfl
@[simp] theorem emit_straps (o : Output) : (emit s o).straps = s.straps := rfl
@[simp] theorem emit_ptp (o : Output) : (emit s o).ptp = s.ptp := rfl
@[simp] theorem emit_net (o : Output) : (emit s o).net = s.net := rfl
@[simp] theorem emit_slu (o : Output) : (emit s o).slu = s.slu := rfl
@[simp] theorem emit_vdc (o : Output) : (emit s o).vdc = s.vdc := rfl
@[simp] theorem emit_ven (o : Output) : (emit s o).ven = s.ven := rfl
@[simp] theorem emit_eas (o : Output) : (emit s o).eas = s.eas := rfl
@[simp] theorem emit_cmp (o : Output) : (emit s o).cmp = s.cmp := rfl
@[simp] theorem emit_chk (o : Output) : (emit s o).chk = s.chk := rfl
@[simp] theorem emit_tnd (o : Output) : (emit s o).tnd = s.tnd := rfl
@[simp] theorem emit_seqs (o : Output) : (emit s o).seqs = s.seqs := rfl
@[simp] theorem emit_tch (o : Output) : (emit s o).tch = s.tch := rfl
@[simp] theorem emit_cpr (o : Output) : (emit s o).cpr = s.cpr := rfl
@[simp] theorem emit_jnl (o : Output) : (emit s o).jnl = s.jnl := rfl
@[simp] theorem emit_lane (o : Output) : (emit s o).lane = s.lane := rfl
@[simp] theorem emit_lnk (o : Output) : (emit s o).lnk = s.lnk := rfl
@[simp] theorem emit_fab (o : Output) : (emit s o).fab = s.fab := rfl
@[simp] theorem emit_prt (o : Output) : (emit s o).prt = s.prt := rfl
@[simp] theorem emit_dmc (o : Output) : (emit s o).dmc = s.dmc := rfl
@[simp] theorem emit_pwr (o : Output) : (emit s o).pwr = s.pwr := rfl
@[simp] theorem emit_free (o : Output) : (emit s o).free = s.free := rfl
@[simp] theorem emit_pending (o : Output) : (emit s o).pending = s.pending := rfl

/-! ### askJournal -/

@[simp] theorem askJournal_regs (r ty : Nat) (l : List Byte) : (askJournal s r ty l).regs = s.regs := rfl
@[simp] theorem askJournal_mem (r ty : Nat) (l : List Byte) : (askJournal s r ty l).mem = s.mem := rfl
@[simp] theorem askJournal_time (r ty : Nat) (l : List Byte) : (askJournal s r ty l).time = s.time := rfl
@[simp] theorem askJournal_straps (r ty : Nat) (l : List Byte) : (askJournal s r ty l).straps = s.straps := rfl
@[simp] theorem askJournal_ptp (r ty : Nat) (l : List Byte) : (askJournal s r ty l).ptp = s.ptp := rfl
@[simp] theorem askJournal_net (r ty : Nat) (l : List Byte) : (askJournal s r ty l).net = s.net := rfl
@[simp] theorem askJournal_slu (r ty : Nat) (l : List Byte) : (askJournal s r ty l).slu = s.slu := rfl
@[simp] theorem askJournal_vdc (r ty : Nat) (l : List Byte) : (askJournal s r ty l).vdc = s.vdc := rfl
@[simp] theorem askJournal_ven (r ty : Nat) (l : List Byte) : (askJournal s r ty l).ven = s.ven := rfl
@[simp] theorem askJournal_eas (r ty : Nat) (l : List Byte) : (askJournal s r ty l).eas = s.eas := rfl
@[simp] theorem askJournal_cmp (r ty : Nat) (l : List Byte) : (askJournal s r ty l).cmp = s.cmp := rfl
@[simp] theorem askJournal_chk (r ty : Nat) (l : List Byte) : (askJournal s r ty l).chk = s.chk := rfl
@[simp] theorem askJournal_tnd (r ty : Nat) (l : List Byte) : (askJournal s r ty l).tnd = s.tnd := rfl
@[simp] theorem askJournal_seqs (r ty : Nat) (l : List Byte) : (askJournal s r ty l).seqs = s.seqs := rfl
@[simp] theorem askJournal_tch (r ty : Nat) (l : List Byte) : (askJournal s r ty l).tch = s.tch := rfl
@[simp] theorem askJournal_cpr (r ty : Nat) (l : List Byte) : (askJournal s r ty l).cpr = s.cpr := rfl
@[simp] theorem askJournal_lane (r ty : Nat) (l : List Byte) : (askJournal s r ty l).lane = s.lane := rfl
@[simp] theorem askJournal_lnk (r ty : Nat) (l : List Byte) : (askJournal s r ty l).lnk = s.lnk := rfl
@[simp] theorem askJournal_fab (r ty : Nat) (l : List Byte) : (askJournal s r ty l).fab = s.fab := rfl
@[simp] theorem askJournal_prt (r ty : Nat) (l : List Byte) : (askJournal s r ty l).prt = s.prt := rfl
@[simp] theorem askJournal_dmc (r ty : Nat) (l : List Byte) : (askJournal s r ty l).dmc = s.dmc := rfl
@[simp] theorem askJournal_pwr (r ty : Nat) (l : List Byte) : (askJournal s r ty l).pwr = s.pwr := rfl
@[simp] theorem askJournal_out (r ty : Nat) (l : List Byte) : (askJournal s r ty l).out = s.out := rfl
@[simp] theorem askJournal_free (r ty : Nat) (l : List Byte) : (askJournal s r ty l).free = s.free := rfl
@[simp] theorem askJournal_pending (r ty : Nat) (l : List Byte) : (askJournal s r ty l).pending = s.pending := rfl

/-! ### setSeq -/

@[simp] theorem setSeq_regs (n : Nat) (x : Seq) : (setSeq s n x).regs = s.regs := rfl
@[simp] theorem setSeq_mem (n : Nat) (x : Seq) : (setSeq s n x).mem = s.mem := rfl
@[simp] theorem setSeq_time (n : Nat) (x : Seq) : (setSeq s n x).time = s.time := rfl
@[simp] theorem setSeq_straps (n : Nat) (x : Seq) : (setSeq s n x).straps = s.straps := rfl
@[simp] theorem setSeq_ptp (n : Nat) (x : Seq) : (setSeq s n x).ptp = s.ptp := rfl
@[simp] theorem setSeq_net (n : Nat) (x : Seq) : (setSeq s n x).net = s.net := rfl
@[simp] theorem setSeq_slu (n : Nat) (x : Seq) : (setSeq s n x).slu = s.slu := rfl
@[simp] theorem setSeq_vdc (n : Nat) (x : Seq) : (setSeq s n x).vdc = s.vdc := rfl
@[simp] theorem setSeq_ven (n : Nat) (x : Seq) : (setSeq s n x).ven = s.ven := rfl
@[simp] theorem setSeq_eas (n : Nat) (x : Seq) : (setSeq s n x).eas = s.eas := rfl
@[simp] theorem setSeq_cmp (n : Nat) (x : Seq) : (setSeq s n x).cmp = s.cmp := rfl
@[simp] theorem setSeq_chk (n : Nat) (x : Seq) : (setSeq s n x).chk = s.chk := rfl
@[simp] theorem setSeq_tnd (n : Nat) (x : Seq) : (setSeq s n x).tnd = s.tnd := rfl
@[simp] theorem setSeq_tch (n : Nat) (x : Seq) : (setSeq s n x).tch = s.tch := rfl
@[simp] theorem setSeq_cpr (n : Nat) (x : Seq) : (setSeq s n x).cpr = s.cpr := rfl
@[simp] theorem setSeq_jnl (n : Nat) (x : Seq) : (setSeq s n x).jnl = s.jnl := rfl
@[simp] theorem setSeq_lane (n : Nat) (x : Seq) : (setSeq s n x).lane = s.lane := rfl
@[simp] theorem setSeq_lnk (n : Nat) (x : Seq) : (setSeq s n x).lnk = s.lnk := rfl
@[simp] theorem setSeq_fab (n : Nat) (x : Seq) : (setSeq s n x).fab = s.fab := rfl
@[simp] theorem setSeq_prt (n : Nat) (x : Seq) : (setSeq s n x).prt = s.prt := rfl
@[simp] theorem setSeq_dmc (n : Nat) (x : Seq) : (setSeq s n x).dmc = s.dmc := rfl
@[simp] theorem setSeq_pwr (n : Nat) (x : Seq) : (setSeq s n x).pwr = s.pwr := rfl
@[simp] theorem setSeq_out (n : Nat) (x : Seq) : (setSeq s n x).out = s.out := rfl
@[simp] theorem setSeq_free (n : Nat) (x : Seq) : (setSeq s n x).free = s.free := rfl
@[simp] theorem setSeq_pending (n : Nat) (x : Seq) : (setSeq s n x).pending = s.pending := rfl

/-! ### setGal -/

@[simp] theorem setGal_regs (n : Nat) (x : Gallery) : (setGal s n x).regs = s.regs := rfl
@[simp] theorem setGal_mem (n : Nat) (x : Gallery) : (setGal s n x).mem = s.mem := rfl
@[simp] theorem setGal_time (n : Nat) (x : Gallery) : (setGal s n x).time = s.time := rfl
@[simp] theorem setGal_straps (n : Nat) (x : Gallery) : (setGal s n x).straps = s.straps := rfl
@[simp] theorem setGal_ptp (n : Nat) (x : Gallery) : (setGal s n x).ptp = s.ptp := rfl
@[simp] theorem setGal_net (n : Nat) (x : Gallery) : (setGal s n x).net = s.net := rfl
@[simp] theorem setGal_slu (n : Nat) (x : Gallery) : (setGal s n x).slu = s.slu := rfl
@[simp] theorem setGal_vdc (n : Nat) (x : Gallery) : (setGal s n x).vdc = s.vdc := rfl
@[simp] theorem setGal_ven (n : Nat) (x : Gallery) : (setGal s n x).ven = s.ven := rfl
@[simp] theorem setGal_cmp (n : Nat) (x : Gallery) : (setGal s n x).cmp = s.cmp := rfl
@[simp] theorem setGal_chk (n : Nat) (x : Gallery) : (setGal s n x).chk = s.chk := rfl
@[simp] theorem setGal_tnd (n : Nat) (x : Gallery) : (setGal s n x).tnd = s.tnd := rfl
@[simp] theorem setGal_seqs (n : Nat) (x : Gallery) : (setGal s n x).seqs = s.seqs := rfl
@[simp] theorem setGal_tch (n : Nat) (x : Gallery) : (setGal s n x).tch = s.tch := rfl
@[simp] theorem setGal_cpr (n : Nat) (x : Gallery) : (setGal s n x).cpr = s.cpr := rfl
@[simp] theorem setGal_jnl (n : Nat) (x : Gallery) : (setGal s n x).jnl = s.jnl := rfl
@[simp] theorem setGal_lane (n : Nat) (x : Gallery) : (setGal s n x).lane = s.lane := rfl
@[simp] theorem setGal_lnk (n : Nat) (x : Gallery) : (setGal s n x).lnk = s.lnk := rfl
@[simp] theorem setGal_fab (n : Nat) (x : Gallery) : (setGal s n x).fab = s.fab := rfl
@[simp] theorem setGal_prt (n : Nat) (x : Gallery) : (setGal s n x).prt = s.prt := rfl
@[simp] theorem setGal_dmc (n : Nat) (x : Gallery) : (setGal s n x).dmc = s.dmc := rfl
@[simp] theorem setGal_pwr (n : Nat) (x : Gallery) : (setGal s n x).pwr = s.pwr := rfl
@[simp] theorem setGal_out (n : Nat) (x : Gallery) : (setGal s n x).out = s.out := rfl
@[simp] theorem setGal_free (n : Nat) (x : Gallery) : (setGal s n x).free = s.free := rfl
@[simp] theorem setGal_pending (n : Nat) (x : Gallery) : (setGal s n x).pending = s.pending := rfl

/-! ### setLay -/

@[simp] theorem setLay_regs (n : Nat) (x : Layer) : (setLay s n x).regs = s.regs := rfl
@[simp] theorem setLay_mem (n : Nat) (x : Layer) : (setLay s n x).mem = s.mem := rfl
@[simp] theorem setLay_time (n : Nat) (x : Layer) : (setLay s n x).time = s.time := rfl
@[simp] theorem setLay_straps (n : Nat) (x : Layer) : (setLay s n x).straps = s.straps := rfl
@[simp] theorem setLay_ptp (n : Nat) (x : Layer) : (setLay s n x).ptp = s.ptp := rfl
@[simp] theorem setLay_net (n : Nat) (x : Layer) : (setLay s n x).net = s.net := rfl
@[simp] theorem setLay_slu (n : Nat) (x : Layer) : (setLay s n x).slu = s.slu := rfl
@[simp] theorem setLay_vdc (n : Nat) (x : Layer) : (setLay s n x).vdc = s.vdc := rfl
@[simp] theorem setLay_ven (n : Nat) (x : Layer) : (setLay s n x).ven = s.ven := rfl
@[simp] theorem setLay_cmp (n : Nat) (x : Layer) : (setLay s n x).cmp = s.cmp := rfl
@[simp] theorem setLay_chk (n : Nat) (x : Layer) : (setLay s n x).chk = s.chk := rfl
@[simp] theorem setLay_tnd (n : Nat) (x : Layer) : (setLay s n x).tnd = s.tnd := rfl
@[simp] theorem setLay_seqs (n : Nat) (x : Layer) : (setLay s n x).seqs = s.seqs := rfl
@[simp] theorem setLay_tch (n : Nat) (x : Layer) : (setLay s n x).tch = s.tch := rfl
@[simp] theorem setLay_cpr (n : Nat) (x : Layer) : (setLay s n x).cpr = s.cpr := rfl
@[simp] theorem setLay_jnl (n : Nat) (x : Layer) : (setLay s n x).jnl = s.jnl := rfl
@[simp] theorem setLay_lane (n : Nat) (x : Layer) : (setLay s n x).lane = s.lane := rfl
@[simp] theorem setLay_lnk (n : Nat) (x : Layer) : (setLay s n x).lnk = s.lnk := rfl
@[simp] theorem setLay_fab (n : Nat) (x : Layer) : (setLay s n x).fab = s.fab := rfl
@[simp] theorem setLay_prt (n : Nat) (x : Layer) : (setLay s n x).prt = s.prt := rfl
@[simp] theorem setLay_dmc (n : Nat) (x : Layer) : (setLay s n x).dmc = s.dmc := rfl
@[simp] theorem setLay_pwr (n : Nat) (x : Layer) : (setLay s n x).pwr = s.pwr := rfl
@[simp] theorem setLay_out (n : Nat) (x : Layer) : (setLay s n x).out = s.out := rfl
@[simp] theorem setLay_free (n : Nat) (x : Layer) : (setLay s n x).free = s.free := rfl
@[simp] theorem setLay_pending (n : Nat) (x : Layer) : (setLay s n x).pending = s.pending := rfl

/-! ### setDesc -/

@[simp] theorem setDesc_regs (n : Nat) (x : Desc) : (setDesc s n x).regs = s.regs := rfl
@[simp] theorem setDesc_mem (n : Nat) (x : Desc) : (setDesc s n x).mem = s.mem := rfl
@[simp] theorem setDesc_time (n : Nat) (x : Desc) : (setDesc s n x).time = s.time := rfl
@[simp] theorem setDesc_straps (n : Nat) (x : Desc) : (setDesc s n x).straps = s.straps := rfl
@[simp] theorem setDesc_ptp (n : Nat) (x : Desc) : (setDesc s n x).ptp = s.ptp := rfl
@[simp] theorem setDesc_net (n : Nat) (x : Desc) : (setDesc s n x).net = s.net := rfl
@[simp] theorem setDesc_slu (n : Nat) (x : Desc) : (setDesc s n x).slu = s.slu := rfl
@[simp] theorem setDesc_vdc (n : Nat) (x : Desc) : (setDesc s n x).vdc = s.vdc := rfl
@[simp] theorem setDesc_ven (n : Nat) (x : Desc) : (setDesc s n x).ven = s.ven := rfl
@[simp] theorem setDesc_cmp (n : Nat) (x : Desc) : (setDesc s n x).cmp = s.cmp := rfl
@[simp] theorem setDesc_chk (n : Nat) (x : Desc) : (setDesc s n x).chk = s.chk := rfl
@[simp] theorem setDesc_tnd (n : Nat) (x : Desc) : (setDesc s n x).tnd = s.tnd := rfl
@[simp] theorem setDesc_seqs (n : Nat) (x : Desc) : (setDesc s n x).seqs = s.seqs := rfl
@[simp] theorem setDesc_tch (n : Nat) (x : Desc) : (setDesc s n x).tch = s.tch := rfl
@[simp] theorem setDesc_cpr (n : Nat) (x : Desc) : (setDesc s n x).cpr = s.cpr := rfl
@[simp] theorem setDesc_jnl (n : Nat) (x : Desc) : (setDesc s n x).jnl = s.jnl := rfl
@[simp] theorem setDesc_lane (n : Nat) (x : Desc) : (setDesc s n x).lane = s.lane := rfl
@[simp] theorem setDesc_lnk (n : Nat) (x : Desc) : (setDesc s n x).lnk = s.lnk := rfl
@[simp] theorem setDesc_fab (n : Nat) (x : Desc) : (setDesc s n x).fab = s.fab := rfl
@[simp] theorem setDesc_prt (n : Nat) (x : Desc) : (setDesc s n x).prt = s.prt := rfl
@[simp] theorem setDesc_dmc (n : Nat) (x : Desc) : (setDesc s n x).dmc = s.dmc := rfl
@[simp] theorem setDesc_pwr (n : Nat) (x : Desc) : (setDesc s n x).pwr = s.pwr := rfl
@[simp] theorem setDesc_out (n : Nat) (x : Desc) : (setDesc s n x).out = s.out := rfl
@[simp] theorem setDesc_free (n : Nat) (x : Desc) : (setDesc s n x).free = s.free := rfl
@[simp] theorem setDesc_pending (n : Nat) (x : Desc) : (setDesc s n x).pending = s.pending := rfl

/-! ### setSrc -/

@[simp] theorem setSrc_regs (n : Nat) (x : Source) : (setSrc s n x).regs = s.regs := rfl
@[simp] theorem setSrc_mem (n : Nat) (x : Source) : (setSrc s n x).mem = s.mem := rfl
@[simp] theorem setSrc_time (n : Nat) (x : Source) : (setSrc s n x).time = s.time := rfl
@[simp] theorem setSrc_straps (n : Nat) (x : Source) : (setSrc s n x).straps = s.straps := rfl
@[simp] theorem setSrc_ptp (n : Nat) (x : Source) : (setSrc s n x).ptp = s.ptp := rfl
@[simp] theorem setSrc_net (n : Nat) (x : Source) : (setSrc s n x).net = s.net := rfl
@[simp] theorem setSrc_slu (n : Nat) (x : Source) : (setSrc s n x).slu = s.slu := rfl
@[simp] theorem setSrc_vdc (n : Nat) (x : Source) : (setSrc s n x).vdc = s.vdc := rfl
@[simp] theorem setSrc_ven (n : Nat) (x : Source) : (setSrc s n x).ven = s.ven := rfl
@[simp] theorem setSrc_cmp (n : Nat) (x : Source) : (setSrc s n x).cmp = s.cmp := rfl
@[simp] theorem setSrc_chk (n : Nat) (x : Source) : (setSrc s n x).chk = s.chk := rfl
@[simp] theorem setSrc_tnd (n : Nat) (x : Source) : (setSrc s n x).tnd = s.tnd := rfl
@[simp] theorem setSrc_seqs (n : Nat) (x : Source) : (setSrc s n x).seqs = s.seqs := rfl
@[simp] theorem setSrc_tch (n : Nat) (x : Source) : (setSrc s n x).tch = s.tch := rfl
@[simp] theorem setSrc_cpr (n : Nat) (x : Source) : (setSrc s n x).cpr = s.cpr := rfl
@[simp] theorem setSrc_jnl (n : Nat) (x : Source) : (setSrc s n x).jnl = s.jnl := rfl
@[simp] theorem setSrc_lane (n : Nat) (x : Source) : (setSrc s n x).lane = s.lane := rfl
@[simp] theorem setSrc_lnk (n : Nat) (x : Source) : (setSrc s n x).lnk = s.lnk := rfl
@[simp] theorem setSrc_fab (n : Nat) (x : Source) : (setSrc s n x).fab = s.fab := rfl
@[simp] theorem setSrc_prt (n : Nat) (x : Source) : (setSrc s n x).prt = s.prt := rfl
@[simp] theorem setSrc_dmc (n : Nat) (x : Source) : (setSrc s n x).dmc = s.dmc := rfl
@[simp] theorem setSrc_pwr (n : Nat) (x : Source) : (setSrc s n x).pwr = s.pwr := rfl
@[simp] theorem setSrc_out (n : Nat) (x : Source) : (setSrc s n x).out = s.out := rfl
@[simp] theorem setSrc_free (n : Nat) (x : Source) : (setSrc s n x).free = s.free := rfl
@[simp] theorem setSrc_pending (n : Nat) (x : Source) : (setSrc s n x).pending = s.pending := rfl

/-! ### setCnv -/

@[simp] theorem setCnv_regs (n : Nat) (x : Canvas) : (setCnv s n x).regs = s.regs := rfl
@[simp] theorem setCnv_mem (n : Nat) (x : Canvas) : (setCnv s n x).mem = s.mem := rfl
@[simp] theorem setCnv_time (n : Nat) (x : Canvas) : (setCnv s n x).time = s.time := rfl
@[simp] theorem setCnv_straps (n : Nat) (x : Canvas) : (setCnv s n x).straps = s.straps := rfl
@[simp] theorem setCnv_ptp (n : Nat) (x : Canvas) : (setCnv s n x).ptp = s.ptp := rfl
@[simp] theorem setCnv_net (n : Nat) (x : Canvas) : (setCnv s n x).net = s.net := rfl
@[simp] theorem setCnv_slu (n : Nat) (x : Canvas) : (setCnv s n x).slu = s.slu := rfl
@[simp] theorem setCnv_vdc (n : Nat) (x : Canvas) : (setCnv s n x).vdc = s.vdc := rfl
@[simp] theorem setCnv_ven (n : Nat) (x : Canvas) : (setCnv s n x).ven = s.ven := rfl
@[simp] theorem setCnv_eas (n : Nat) (x : Canvas) : (setCnv s n x).eas = s.eas := rfl
@[simp] theorem setCnv_chk (n : Nat) (x : Canvas) : (setCnv s n x).chk = s.chk := rfl
@[simp] theorem setCnv_tnd (n : Nat) (x : Canvas) : (setCnv s n x).tnd = s.tnd := rfl
@[simp] theorem setCnv_seqs (n : Nat) (x : Canvas) : (setCnv s n x).seqs = s.seqs := rfl
@[simp] theorem setCnv_tch (n : Nat) (x : Canvas) : (setCnv s n x).tch = s.tch := rfl
@[simp] theorem setCnv_cpr (n : Nat) (x : Canvas) : (setCnv s n x).cpr = s.cpr := rfl
@[simp] theorem setCnv_jnl (n : Nat) (x : Canvas) : (setCnv s n x).jnl = s.jnl := rfl
@[simp] theorem setCnv_lane (n : Nat) (x : Canvas) : (setCnv s n x).lane = s.lane := rfl
@[simp] theorem setCnv_lnk (n : Nat) (x : Canvas) : (setCnv s n x).lnk = s.lnk := rfl
@[simp] theorem setCnv_fab (n : Nat) (x : Canvas) : (setCnv s n x).fab = s.fab := rfl
@[simp] theorem setCnv_prt (n : Nat) (x : Canvas) : (setCnv s n x).prt = s.prt := rfl
@[simp] theorem setCnv_dmc (n : Nat) (x : Canvas) : (setCnv s n x).dmc = s.dmc := rfl
@[simp] theorem setCnv_pwr (n : Nat) (x : Canvas) : (setCnv s n x).pwr = s.pwr := rfl
@[simp] theorem setCnv_out (n : Nat) (x : Canvas) : (setCnv s n x).out = s.out := rfl
@[simp] theorem setCnv_free (n : Nat) (x : Canvas) : (setCnv s n x).free = s.free := rfl
@[simp] theorem setCnv_pending (n : Nat) (x : Canvas) : (setCnv s n x).pending = s.pending := rfl

/-! ### setPort -/

@[simp] theorem setPort_regs (n : Nat) (x : Port) : (setPort s n x).regs = s.regs := rfl
@[simp] theorem setPort_mem (n : Nat) (x : Port) : (setPort s n x).mem = s.mem := rfl
@[simp] theorem setPort_time (n : Nat) (x : Port) : (setPort s n x).time = s.time := rfl
@[simp] theorem setPort_straps (n : Nat) (x : Port) : (setPort s n x).straps = s.straps := rfl
@[simp] theorem setPort_ptp (n : Nat) (x : Port) : (setPort s n x).ptp = s.ptp := rfl
@[simp] theorem setPort_net (n : Nat) (x : Port) : (setPort s n x).net = s.net := rfl
@[simp] theorem setPort_slu (n : Nat) (x : Port) : (setPort s n x).slu = s.slu := rfl
@[simp] theorem setPort_vdc (n : Nat) (x : Port) : (setPort s n x).vdc = s.vdc := rfl
@[simp] theorem setPort_ven (n : Nat) (x : Port) : (setPort s n x).ven = s.ven := rfl
@[simp] theorem setPort_eas (n : Nat) (x : Port) : (setPort s n x).eas = s.eas := rfl
@[simp] theorem setPort_cmp (n : Nat) (x : Port) : (setPort s n x).cmp = s.cmp := rfl
@[simp] theorem setPort_chk (n : Nat) (x : Port) : (setPort s n x).chk = s.chk := rfl
@[simp] theorem setPort_tnd (n : Nat) (x : Port) : (setPort s n x).tnd = s.tnd := rfl
@[simp] theorem setPort_seqs (n : Nat) (x : Port) : (setPort s n x).seqs = s.seqs := rfl
@[simp] theorem setPort_tch (n : Nat) (x : Port) : (setPort s n x).tch = s.tch := rfl
@[simp] theorem setPort_cpr (n : Nat) (x : Port) : (setPort s n x).cpr = s.cpr := rfl
@[simp] theorem setPort_jnl (n : Nat) (x : Port) : (setPort s n x).jnl = s.jnl := rfl
@[simp] theorem setPort_lane (n : Nat) (x : Port) : (setPort s n x).lane = s.lane := rfl
@[simp] theorem setPort_fab (n : Nat) (x : Port) : (setPort s n x).fab = s.fab := rfl
@[simp] theorem setPort_prt (n : Nat) (x : Port) : (setPort s n x).prt = s.prt := rfl
@[simp] theorem setPort_dmc (n : Nat) (x : Port) : (setPort s n x).dmc = s.dmc := rfl
@[simp] theorem setPort_pwr (n : Nat) (x : Port) : (setPort s n x).pwr = s.pwr := rfl
@[simp] theorem setPort_out (n : Nat) (x : Port) : (setPort s n x).out = s.out := rfl
@[simp] theorem setPort_free (n : Nat) (x : Port) : (setPort s n x).free = s.free := rfl
@[simp] theorem setPort_pending (n : Nat) (x : Port) : (setPort s n x).pending = s.pending := rfl

/-! ### setCtx -/

@[simp] theorem setCtx_regs (n : Nat) (x : Context) : (setCtx s n x).regs = s.regs := rfl
@[simp] theorem setCtx_mem (n : Nat) (x : Context) : (setCtx s n x).mem = s.mem := rfl
@[simp] theorem setCtx_time (n : Nat) (x : Context) : (setCtx s n x).time = s.time := rfl
@[simp] theorem setCtx_straps (n : Nat) (x : Context) : (setCtx s n x).straps = s.straps := rfl
@[simp] theorem setCtx_ptp (n : Nat) (x : Context) : (setCtx s n x).ptp = s.ptp := rfl
@[simp] theorem setCtx_net (n : Nat) (x : Context) : (setCtx s n x).net = s.net := rfl
@[simp] theorem setCtx_vdc (n : Nat) (x : Context) : (setCtx s n x).vdc = s.vdc := rfl
@[simp] theorem setCtx_ven (n : Nat) (x : Context) : (setCtx s n x).ven = s.ven := rfl
@[simp] theorem setCtx_eas (n : Nat) (x : Context) : (setCtx s n x).eas = s.eas := rfl
@[simp] theorem setCtx_cmp (n : Nat) (x : Context) : (setCtx s n x).cmp = s.cmp := rfl
@[simp] theorem setCtx_chk (n : Nat) (x : Context) : (setCtx s n x).chk = s.chk := rfl
@[simp] theorem setCtx_tnd (n : Nat) (x : Context) : (setCtx s n x).tnd = s.tnd := rfl
@[simp] theorem setCtx_seqs (n : Nat) (x : Context) : (setCtx s n x).seqs = s.seqs := rfl
@[simp] theorem setCtx_tch (n : Nat) (x : Context) : (setCtx s n x).tch = s.tch := rfl
@[simp] theorem setCtx_cpr (n : Nat) (x : Context) : (setCtx s n x).cpr = s.cpr := rfl
@[simp] theorem setCtx_jnl (n : Nat) (x : Context) : (setCtx s n x).jnl = s.jnl := rfl
@[simp] theorem setCtx_lane (n : Nat) (x : Context) : (setCtx s n x).lane = s.lane := rfl
@[simp] theorem setCtx_lnk (n : Nat) (x : Context) : (setCtx s n x).lnk = s.lnk := rfl
@[simp] theorem setCtx_fab (n : Nat) (x : Context) : (setCtx s n x).fab = s.fab := rfl
@[simp] theorem setCtx_prt (n : Nat) (x : Context) : (setCtx s n x).prt = s.prt := rfl
@[simp] theorem setCtx_dmc (n : Nat) (x : Context) : (setCtx s n x).dmc = s.dmc := rfl
@[simp] theorem setCtx_pwr (n : Nat) (x : Context) : (setCtx s n x).pwr = s.pwr := rfl
@[simp] theorem setCtx_out (n : Nat) (x : Context) : (setCtx s n x).out = s.out := rfl
@[simp] theorem setCtx_free (n : Nat) (x : Context) : (setCtx s n x).free = s.free := rfl
@[simp] theorem setCtx_pending (n : Nat) (x : Context) : (setCtx s n x).pending = s.pending := rfl

/-! ### setStr -/

@[simp] theorem setStr_regs (n : Nat) (x : Stream) : (setStr s n x).regs = s.regs := rfl
@[simp] theorem setStr_mem (n : Nat) (x : Stream) : (setStr s n x).mem = s.mem := rfl
@[simp] theorem setStr_time (n : Nat) (x : Stream) : (setStr s n x).time = s.time := rfl
@[simp] theorem setStr_straps (n : Nat) (x : Stream) : (setStr s n x).straps = s.straps := rfl
@[simp] theorem setStr_ptp (n : Nat) (x : Stream) : (setStr s n x).ptp = s.ptp := rfl
@[simp] theorem setStr_net (n : Nat) (x : Stream) : (setStr s n x).net = s.net := rfl
@[simp] theorem setStr_slu (n : Nat) (x : Stream) : (setStr s n x).slu = s.slu := rfl
@[simp] theorem setStr_ven (n : Nat) (x : Stream) : (setStr s n x).ven = s.ven := rfl
@[simp] theorem setStr_eas (n : Nat) (x : Stream) : (setStr s n x).eas = s.eas := rfl
@[simp] theorem setStr_cmp (n : Nat) (x : Stream) : (setStr s n x).cmp = s.cmp := rfl
@[simp] theorem setStr_chk (n : Nat) (x : Stream) : (setStr s n x).chk = s.chk := rfl
@[simp] theorem setStr_tnd (n : Nat) (x : Stream) : (setStr s n x).tnd = s.tnd := rfl
@[simp] theorem setStr_seqs (n : Nat) (x : Stream) : (setStr s n x).seqs = s.seqs := rfl
@[simp] theorem setStr_tch (n : Nat) (x : Stream) : (setStr s n x).tch = s.tch := rfl
@[simp] theorem setStr_cpr (n : Nat) (x : Stream) : (setStr s n x).cpr = s.cpr := rfl
@[simp] theorem setStr_jnl (n : Nat) (x : Stream) : (setStr s n x).jnl = s.jnl := rfl
@[simp] theorem setStr_lane (n : Nat) (x : Stream) : (setStr s n x).lane = s.lane := rfl
@[simp] theorem setStr_lnk (n : Nat) (x : Stream) : (setStr s n x).lnk = s.lnk := rfl
@[simp] theorem setStr_fab (n : Nat) (x : Stream) : (setStr s n x).fab = s.fab := rfl
@[simp] theorem setStr_prt (n : Nat) (x : Stream) : (setStr s n x).prt = s.prt := rfl
@[simp] theorem setStr_dmc (n : Nat) (x : Stream) : (setStr s n x).dmc = s.dmc := rfl
@[simp] theorem setStr_pwr (n : Nat) (x : Stream) : (setStr s n x).pwr = s.pwr := rfl
@[simp] theorem setStr_out (n : Nat) (x : Stream) : (setStr s n x).out = s.out := rfl
@[simp] theorem setStr_free (n : Nat) (x : Stream) : (setStr s n x).free = s.free := rfl
@[simp] theorem setStr_pending (n : Nat) (x : Stream) : (setStr s n x).pending = s.pending := rfl

/-! ### setSes -/

@[simp] theorem setSes_regs (n : Nat) (x : Session) : (setSes s n x).regs = s.regs := rfl
@[simp] theorem setSes_mem (n : Nat) (x : Session) : (setSes s n x).mem = s.mem := rfl
@[simp] theorem setSes_time (n : Nat) (x : Session) : (setSes s n x).time = s.time := rfl
@[simp] theorem setSes_straps (n : Nat) (x : Session) : (setSes s n x).straps = s.straps := rfl
@[simp] theorem setSes_ptp (n : Nat) (x : Session) : (setSes s n x).ptp = s.ptp := rfl
@[simp] theorem setSes_net (n : Nat) (x : Session) : (setSes s n x).net = s.net := rfl
@[simp] theorem setSes_slu (n : Nat) (x : Session) : (setSes s n x).slu = s.slu := rfl
@[simp] theorem setSes_vdc (n : Nat) (x : Session) : (setSes s n x).vdc = s.vdc := rfl
@[simp] theorem setSes_eas (n : Nat) (x : Session) : (setSes s n x).eas = s.eas := rfl
@[simp] theorem setSes_cmp (n : Nat) (x : Session) : (setSes s n x).cmp = s.cmp := rfl
@[simp] theorem setSes_chk (n : Nat) (x : Session) : (setSes s n x).chk = s.chk := rfl
@[simp] theorem setSes_tnd (n : Nat) (x : Session) : (setSes s n x).tnd = s.tnd := rfl
@[simp] theorem setSes_seqs (n : Nat) (x : Session) : (setSes s n x).seqs = s.seqs := rfl
@[simp] theorem setSes_tch (n : Nat) (x : Session) : (setSes s n x).tch = s.tch := rfl
@[simp] theorem setSes_cpr (n : Nat) (x : Session) : (setSes s n x).cpr = s.cpr := rfl
@[simp] theorem setSes_jnl (n : Nat) (x : Session) : (setSes s n x).jnl = s.jnl := rfl
@[simp] theorem setSes_lane (n : Nat) (x : Session) : (setSes s n x).lane = s.lane := rfl
@[simp] theorem setSes_lnk (n : Nat) (x : Session) : (setSes s n x).lnk = s.lnk := rfl
@[simp] theorem setSes_fab (n : Nat) (x : Session) : (setSes s n x).fab = s.fab := rfl
@[simp] theorem setSes_prt (n : Nat) (x : Session) : (setSes s n x).prt = s.prt := rfl
@[simp] theorem setSes_dmc (n : Nat) (x : Session) : (setSes s n x).dmc = s.dmc := rfl
@[simp] theorem setSes_pwr (n : Nat) (x : Session) : (setSes s n x).pwr = s.pwr := rfl
@[simp] theorem setSes_out (n : Nat) (x : Session) : (setSes s n x).out = s.out := rfl
@[simp] theorem setSes_free (n : Nat) (x : Session) : (setSes s n x).free = s.free := rfl
@[simp] theorem setSes_pending (n : Nat) (x : Session) : (setSes s n x).pending = s.pending := rfl

/-! ### updQuad -/

@[simp] theorem updQuad_regs (n : Nat) (f : Quad → Quad) : (updQuad s n f).regs = s.regs := rfl
@[simp] theorem updQuad_mem (n : Nat) (f : Quad → Quad) : (updQuad s n f).mem = s.mem := rfl
@[simp] theorem updQuad_time (n : Nat) (f : Quad → Quad) : (updQuad s n f).time = s.time := rfl
@[simp] theorem updQuad_straps (n : Nat) (f : Quad → Quad) : (updQuad s n f).straps = s.straps := rfl
@[simp] theorem updQuad_ptp (n : Nat) (f : Quad → Quad) : (updQuad s n f).ptp = s.ptp := rfl
@[simp] theorem updQuad_net (n : Nat) (f : Quad → Quad) : (updQuad s n f).net = s.net := rfl
@[simp] theorem updQuad_slu (n : Nat) (f : Quad → Quad) : (updQuad s n f).slu = s.slu := rfl
@[simp] theorem updQuad_vdc (n : Nat) (f : Quad → Quad) : (updQuad s n f).vdc = s.vdc := rfl
@[simp] theorem updQuad_ven (n : Nat) (f : Quad → Quad) : (updQuad s n f).ven = s.ven := rfl
@[simp] theorem updQuad_eas (n : Nat) (f : Quad → Quad) : (updQuad s n f).eas = s.eas := rfl
@[simp] theorem updQuad_cmp (n : Nat) (f : Quad → Quad) : (updQuad s n f).cmp = s.cmp := rfl
@[simp] theorem updQuad_chk (n : Nat) (f : Quad → Quad) : (updQuad s n f).chk = s.chk := rfl
@[simp] theorem updQuad_tnd (n : Nat) (f : Quad → Quad) : (updQuad s n f).tnd = s.tnd := rfl
@[simp] theorem updQuad_seqs (n : Nat) (f : Quad → Quad) : (updQuad s n f).seqs = s.seqs := rfl
@[simp] theorem updQuad_tch (n : Nat) (f : Quad → Quad) : (updQuad s n f).tch = s.tch := rfl
@[simp] theorem updQuad_cpr (n : Nat) (f : Quad → Quad) : (updQuad s n f).cpr = s.cpr := rfl
@[simp] theorem updQuad_jnl (n : Nat) (f : Quad → Quad) : (updQuad s n f).jnl = s.jnl := rfl
@[simp] theorem updQuad_lnk (n : Nat) (f : Quad → Quad) : (updQuad s n f).lnk = s.lnk := rfl
@[simp] theorem updQuad_fab (n : Nat) (f : Quad → Quad) : (updQuad s n f).fab = s.fab := rfl
@[simp] theorem updQuad_prt (n : Nat) (f : Quad → Quad) : (updQuad s n f).prt = s.prt := rfl
@[simp] theorem updQuad_dmc (n : Nat) (f : Quad → Quad) : (updQuad s n f).dmc = s.dmc := rfl
@[simp] theorem updQuad_pwr (n : Nat) (f : Quad → Quad) : (updQuad s n f).pwr = s.pwr := rfl
@[simp] theorem updQuad_out (n : Nat) (f : Quad → Quad) : (updQuad s n f).out = s.out := rfl
@[simp] theorem updQuad_free (n : Nat) (f : Quad → Quad) : (updQuad s n f).free = s.free := rfl
@[simp] theorem updQuad_pending (n : Nat) (f : Quad → Quad) : (updQuad s n f).pending = s.pending := rfl

/-! ### updTch -/

@[simp] theorem updTch_regs (n : Nat) (f : Touch → Touch) : (updTch s n f).regs = s.regs := rfl
@[simp] theorem updTch_mem (n : Nat) (f : Touch → Touch) : (updTch s n f).mem = s.mem := rfl
@[simp] theorem updTch_time (n : Nat) (f : Touch → Touch) : (updTch s n f).time = s.time := rfl
@[simp] theorem updTch_straps (n : Nat) (f : Touch → Touch) : (updTch s n f).straps = s.straps := rfl
@[simp] theorem updTch_ptp (n : Nat) (f : Touch → Touch) : (updTch s n f).ptp = s.ptp := rfl
@[simp] theorem updTch_net (n : Nat) (f : Touch → Touch) : (updTch s n f).net = s.net := rfl
@[simp] theorem updTch_slu (n : Nat) (f : Touch → Touch) : (updTch s n f).slu = s.slu := rfl
@[simp] theorem updTch_vdc (n : Nat) (f : Touch → Touch) : (updTch s n f).vdc = s.vdc := rfl
@[simp] theorem updTch_ven (n : Nat) (f : Touch → Touch) : (updTch s n f).ven = s.ven := rfl
@[simp] theorem updTch_eas (n : Nat) (f : Touch → Touch) : (updTch s n f).eas = s.eas := rfl
@[simp] theorem updTch_cmp (n : Nat) (f : Touch → Touch) : (updTch s n f).cmp = s.cmp := rfl
@[simp] theorem updTch_chk (n : Nat) (f : Touch → Touch) : (updTch s n f).chk = s.chk := rfl
@[simp] theorem updTch_tnd (n : Nat) (f : Touch → Touch) : (updTch s n f).tnd = s.tnd := rfl
@[simp] theorem updTch_seqs (n : Nat) (f : Touch → Touch) : (updTch s n f).seqs = s.seqs := rfl
@[simp] theorem updTch_cpr (n : Nat) (f : Touch → Touch) : (updTch s n f).cpr = s.cpr := rfl
@[simp] theorem updTch_jnl (n : Nat) (f : Touch → Touch) : (updTch s n f).jnl = s.jnl := rfl
@[simp] theorem updTch_lane (n : Nat) (f : Touch → Touch) : (updTch s n f).lane = s.lane := rfl
@[simp] theorem updTch_lnk (n : Nat) (f : Touch → Touch) : (updTch s n f).lnk = s.lnk := rfl
@[simp] theorem updTch_fab (n : Nat) (f : Touch → Touch) : (updTch s n f).fab = s.fab := rfl
@[simp] theorem updTch_prt (n : Nat) (f : Touch → Touch) : (updTch s n f).prt = s.prt := rfl
@[simp] theorem updTch_dmc (n : Nat) (f : Touch → Touch) : (updTch s n f).dmc = s.dmc := rfl
@[simp] theorem updTch_pwr (n : Nat) (f : Touch → Touch) : (updTch s n f).pwr = s.pwr := rfl
@[simp] theorem updTch_out (n : Nat) (f : Touch → Touch) : (updTch s n f).out = s.out := rfl
@[simp] theorem updTch_free (n : Nat) (f : Touch → Touch) : (updTch s n f).free = s.free := rfl
@[simp] theorem updTch_pending (n : Nat) (f : Touch → Touch) : (updTch s n f).pending = s.pending := rfl

/-! ### Changes of one record are replacements of it -/

@[simp] theorem updSeq_eq (n : Nat) (f : Seq → Seq) : updSeq s n f = setSeq s n (f (seqOf s n)) := rfl
@[simp] theorem updGal_eq (n : Nat) (f : Gallery → Gallery) : updGal s n f = setGal s n (f (galOf s n)) := rfl
@[simp] theorem updLay_eq (n : Nat) (f : Layer → Layer) : updLay s n f = setLay s n (f (layOf s n)) := rfl
@[simp] theorem updDesc_eq (n : Nat) (f : Desc → Desc) : updDesc s n f = setDesc s n (f (descOf s n)) := rfl
@[simp] theorem updSrc_eq (n : Nat) (f : Source → Source) : updSrc s n f = setSrc s n (f (srcOf s n)) := rfl
@[simp] theorem updCnv_eq (n : Nat) (f : Canvas → Canvas) : updCnv s n f = setCnv s n (f (cnvOf s n)) := rfl
@[simp] theorem updPort_eq (n : Nat) (f : Port → Port) : updPort s n f = setPort s n (f (portOf s n)) := rfl
@[simp] theorem updCtx_eq (n : Nat) (f : Context → Context) : updCtx s n f = setCtx s n (f (ctxOf s n)) := rfl
@[simp] theorem updStr_eq (n : Nat) (f : Stream → Stream) : updStr s n f = setStr s n (f (strOf s n)) := rfl
@[simp] theorem updSes_eq (n : Nat) (f : Session → Session) : updSes s n f = setSes s n (f (sesOf s n)) := rfl
@[simp] theorem wr0_eq (f : Fld) (v : Nat) : wr0 s f v = wr s f 0 0 v := rfl

/-! ### A replaced record read back, and every other one as before -/

@[simp] theorem seqOf_setSeq (n : Nat) (x : Seq) : seqOf (setSeq s n x) n = x := by simp [seqOf, setSeq]
theorem seqOf_setSeq_ne {n m : Nat} (x : Seq) (h : m ≠ n) : seqOf (setSeq s n x) m = seqOf s m := by
  simp [seqOf, setSeq, Map.get_put_ne _ _ _ h]
@[simp] theorem galOf_setGal (n : Nat) (x : Gallery) : galOf (setGal s n x) n = x := by simp [galOf, setGal]
theorem galOf_setGal_ne {n m : Nat} (x : Gallery) (h : m ≠ n) : galOf (setGal s n x) m = galOf s m := by
  simp [galOf, setGal, Map.get_put_ne _ _ _ h]
@[simp] theorem layOf_setLay (n : Nat) (x : Layer) : layOf (setLay s n x) n = x := by simp [layOf, setLay]
theorem layOf_setLay_ne {n m : Nat} (x : Layer) (h : m ≠ n) : layOf (setLay s n x) m = layOf s m := by
  simp [layOf, setLay, Map.get_put_ne _ _ _ h]
@[simp] theorem descOf_setDesc (n : Nat) (x : Desc) : descOf (setDesc s n x) n = x := by simp [descOf, setDesc]
theorem descOf_setDesc_ne {n m : Nat} (x : Desc) (h : m ≠ n) : descOf (setDesc s n x) m = descOf s m := by
  simp [descOf, setDesc, Map.get_put_ne _ _ _ h]
@[simp] theorem srcOf_setSrc (n : Nat) (x : Source) : srcOf (setSrc s n x) n = x := by simp [srcOf, setSrc]
theorem srcOf_setSrc_ne {n m : Nat} (x : Source) (h : m ≠ n) : srcOf (setSrc s n x) m = srcOf s m := by
  simp [srcOf, setSrc, Map.get_put_ne _ _ _ h]
@[simp] theorem cnvOf_setCnv (n : Nat) (x : Canvas) : cnvOf (setCnv s n x) n = x := by simp [cnvOf, setCnv]
theorem cnvOf_setCnv_ne {n m : Nat} (x : Canvas) (h : m ≠ n) : cnvOf (setCnv s n x) m = cnvOf s m := by
  simp [cnvOf, setCnv, Map.get_put_ne _ _ _ h]
@[simp] theorem portOf_setPort (n : Nat) (x : Port) : portOf (setPort s n x) n = x := by simp [portOf, setPort]
theorem portOf_setPort_ne {n m : Nat} (x : Port) (h : m ≠ n) : portOf (setPort s n x) m = portOf s m := by
  simp [portOf, setPort, Map.get_put_ne _ _ _ h]
@[simp] theorem ctxOf_setCtx (n : Nat) (x : Context) : ctxOf (setCtx s n x) n = x := by simp [ctxOf, setCtx]
theorem ctxOf_setCtx_ne {n m : Nat} (x : Context) (h : m ≠ n) : ctxOf (setCtx s n x) m = ctxOf s m := by
  simp [ctxOf, setCtx, Map.get_put_ne _ _ _ h]
@[simp] theorem strOf_setStr (n : Nat) (x : Stream) : strOf (setStr s n x) n = x := by simp [strOf, setStr]
theorem strOf_setStr_ne {n m : Nat} (x : Stream) (h : m ≠ n) : strOf (setStr s n x) m = strOf s m := by
  simp [strOf, setStr, Map.get_put_ne _ _ _ h]
@[simp] theorem sesOf_setSes (n : Nat) (x : Session) : sesOf (setSes s n x) n = x := by simp [sesOf, setSes]
theorem sesOf_setSes_ne {n m : Nat} (x : Session) (h : m ≠ n) : sesOf (setSes s n x) m = sesOf s m := by
  simp [sesOf, setSes, Map.get_put_ne _ _ _ h]
@[simp] theorem quadOf_updQuad (n : Nat) (f : Quad → Quad) : quadOf (updQuad s n f) n = f (quadOf s n) := by simp [quadOf, updQuad]
theorem quadOf_updQuad_ne {n m : Nat} (f : Quad → Quad) (h : m ≠ n) : quadOf (updQuad s n f) m = quadOf s m := by
  simp [quadOf, updQuad, Map.get_put_ne _ _ _ h]
@[simp] theorem tchOf_updTch (n : Nat) (f : Touch → Touch) : tchOf (updTch s n f) n = f (tchOf s n) := by simp [tchOf, updTch]
theorem tchOf_updTch_ne {n m : Nat} (f : Touch → Touch) (h : m ≠ n) : tchOf (updTch s n f) m = tchOf s m := by
  simp [tchOf, updTch, Map.get_put_ne _ _ _ h]

/-! ### Conditions and repetitions -/

@[simp] theorem also_true (f : State → State) : also true f s = f s := rfl
@[simp] theorem also_false (f : State → State) : also false f s = s := rfl

/-- What every round of a repetition keeps, the repetition keeps. -/
theorem each_keeps {α : Type} (P : State → Prop) (f : State → α → State) (l : List α) (h : ∀ s x, x ∈ l → P s → P (f s x)) :
    ∀ s, P s → P (each l f s) := by
  induction l with
  | nil => exact fun _ hs => hs
  | cons x t ih =>
    intro s hs
    exact ih (fun s y hy => h s y (List.mem_cons_of_mem _ hy)) _ (h s x List.mem_cons_self hs)

/-- A field that no round of a repetition changes is as before. -/
theorem each_field {α β : Type} (p : State → β) (f : State → α → State) (l : List α) (h : ∀ s x, p (f s x) = p s) :
    p (each l f s) = p s := by
  induction l generalizing s with
  | nil => rfl
  | cons x t ih => exact (ih (f s x)).trans (h s x)

/-- A write of a field keeps the registers' canonical form. -/
theorem wr_wf (f : Fld) (i j v : Nat) (h : s.regs.wf = true) : (wr s f i j v).regs.wf = true := Map.wf_put _ _ _ h

/-- A raised flag keeps the registers' canonical form. -/
theorem raise_wf (k : Flag) (i : Nat) (h : s.regs.wf = true) : (raise s k i).regs.wf = true := Map.wf_put _ _ _ (Map.wf_put _ _ _ h)

end Sys2Proof.Machine
end

