-- ==== Sys2Proof/Laws/Bus.lean ====
section
/-!
SUPPORT. What the shared operations over memory, checks and events can do: DRAM, windows, checked accesses, a hardware master's reads and
writes, and event signals.
-/

namespace Sys2Proof.Machine

/-- From `s` to `t` nothing but registers, pending interrupt bits and the cycles of recorded refusals changes, and the registers keep their
canonical form: what an error that is recorded, a flag or a count does. -/
def marks (s t : State) : Prop :=
  (∃ r p v, t = { s with regs := r, fab := { s.fab with pba := p }, prt := { s.prt with violAt := v } }) ∧ (s.regs.wf = true → t.regs.wf = true)

theorem marks_refl (s : State) : marks s s := ⟨⟨s.regs, s.fab.pba, s.prt.violAt, rfl⟩, id⟩

theorem marks_trans {s t u : State} (h : marks s t) (k : marks t u) : marks s u := by
  obtain ⟨⟨r, p, v, rfl⟩, hw⟩ := h
  obtain ⟨⟨r', p', v', rfl⟩, kw⟩ := k
  exact ⟨⟨r', p', v', rfl⟩, fun x => kw (hw x)⟩

theorem marks_wr (s : State) (f : Fld) (i j v : Nat) : marks s (wr s f i j v) := ⟨⟨_, s.fab.pba, s.prt.violAt, rfl⟩, wr_wf s f i j v⟩

theorem marks_raise (s : State) (k : Flag) (i : Nat) : marks s (raise s k i) := ⟨⟨_, _, s.prt.violAt, rfl⟩, raise_wf s k i⟩

theorem marks_raiseIf (b : Bool) (s : State) (k : Flag) (i : Nat) : marks s (raiseIf b s k i) := by
  cases b
  · exact marks_trans (marks_wr s _ _ _ _) (marks_wr _ _ _ _ _)
  · exact marks_raise s k i

theorem marks_mem {s t : State} (h : marks s t) : t.mem = s.mem := by obtain ⟨⟨r, p, v, rfl⟩, -⟩ := h; rfl

theorem marks_seqs {s t : State} (h : marks s t) : t.seqs = s.seqs := by obtain ⟨⟨r, p, v, rfl⟩, -⟩ := h; rfl

theorem marks_canonical {s t : State} (h : marks s t) (hs : s.canonical = true) : t.canonical = true := by
  simp only [State.canonical, Bool.and_eq_true] at hs ⊢
  exact ⟨h.2 hs.1, by rw [marks_mem h]; exact hs.2⟩

/-! ### Checks (R561, R562, R579 to R588) -/

theorem marks_recordDenial (s : State) (u : Nat) (x : Access1) (d : Denial) : marks s (recordDenial s u x d) := by
  refine marks_trans ?_ ⟨⟨_, _, _, rfl⟩, id⟩
  repeat' (first | exact marks_wr _ _ _ _ _ | refine marks_trans ?_ (marks_wr _ _ _ _ _))

theorem marks_violate (s : State) (x : Access1) (d : Denial) : marks s (violate s x d) := by
  simp only [violate]
  split
  · exact marks_refl s
  · refine marks_trans (marks_trans ?_ (marks_wr _ _ _ _ _)) (marks_raiseIf _ _ _ _)
    split
    · exact marks_refl s
    · exact marks_recordDenial s _ x d

theorem marks_decodeError (s : State) (x : Access1) (k : Nat) : marks s (decodeError s x k) := by
  refine marks_trans ?_ (marks_raise _ _ _)
  repeat' (first | exact marks_wr _ _ _ _ _ | refine marks_trans ?_ (marks_wr _ _ _ _ _))

/-- A checked access goes through with nothing changed, or its error is recorded and nothing else changes. -/
theorem checkAccess_cases (s : State) (x : Access1) :
    (protCheck s x = none ∧ decodeKind s x = 0 ∧ checkAccess s x = (s, 0)) ∨
    (∃ d, protCheck s x = some d ∧ checkAccess s x = (violate s x d, 1)) ∨
    (protCheck s x = none ∧ decodeKind s x ≠ 0 ∧ checkAccess s x = (decodeError s x (decodeKind s x), 2)) := by
  unfold checkAccess
  cases h : protCheck s x with
  | some d => exact .inr (.inl ⟨d, rfl, rfl⟩)
  | none =>
    by_cases k : decodeKind s x = 0
    · exact .inl ⟨rfl, k, by simp [k]⟩
    · exact .inr (.inr ⟨rfl, k, by simp [k]⟩)

theorem marks_checkAccess (s : State) (x : Access1) : marks s (checkAccess s x).1 := by
  rcases checkAccess_cases s x with ⟨-, -, h⟩ | ⟨d, -, h⟩ | ⟨-, -, h⟩ <;> rw [h]
  · exact marks_refl s
  · exact marks_violate s x d
  · exact marks_decodeError s x _

/-! ### DRAM and windows (R412, R551, R595, R597, R605, R613) -/

/-- A DRAM read answers the bytes just when DRAM is served, the range is populated and outside check areas, and no word of it is bad. -/
theorem dramRead_some (s : State) (a n : Nat) (l : List Byte) : dramRead s a n = some l ↔
    dramUp s = true ∧ inDram s a n = true ∧ poisoned s a n = false ∧ l = Memory.readBytes s.mem a n := by
  unfold dramRead
  split
  · rename_i h
    simp only [Bool.and_eq_true, Bool.not_eq_true'] at h
    simp [h.1.1, h.1.2, h.2, eq_comm]
  · rename_i h
    simp only [Bool.and_eq_true, Bool.not_eq_true'] at h
    constructor
    · intro k; cases k
    · intro k; exact absurd ⟨⟨k.1, k.2.1⟩, k.2.2.1⟩ h

/-- A DRAM write is not made and changes nothing, or it writes its bytes and mends the bad words it covers whole and the weak words it meets. -/
theorem dramWrite_cases (s : State) (a : Nat) (l : List Byte) : dramWrite s a l = (s, false) ∨
    (dramUp s = true ∧ inDram s a l.length = true ∧ ∃ b w, dramWrite s a l =
      ({ s with mem := Memory.writeBytes s.mem a l, dmc := { s.dmc with bad := b, weak := w } }, true)) := by
  unfold dramWrite
  split
  · exact .inl rfl
  · rename_i h
    split
    · exact .inl rfl
    · simp only [Bool.not_eq_true', Bool.not_eq_false, Bool.and_eq_true] at h
      exact .inr ⟨h.1, h.2, _, _, rfl⟩

theorem dramWrite_canonical (s : State) (a : Nat) (l : List Byte) (h : s.canonical = true) : (dramWrite s a l).1.canonical = true := by
  rcases dramWrite_cases s a l with k | ⟨-, -, b, w, k⟩ <;> rw [k]
  · exact h
  · simp only [State.canonical, Bool.and_eq_true] at h ⊢
    exact ⟨h.1, Memory.wf_writeBytes _ _ _ h.2⟩

/-- A DRAM write with byte enables is a whole write where none is 0; otherwise it is not made, or writes its enabled bytes among those that the
memory holds. -/
theorem dramWriteMasked_cases (s : State) (a : Nat) (l : List Byte) (holes : List Nat) :
    dramWriteMasked s a l holes = dramWrite s a l ∨ dramWriteMasked s a l holes = (s, false) ∨
    ∃ m b w, dramWriteMasked s a l holes = ({ s with mem := Memory.writeBytes s.mem a m, dmc := { s.dmc with bad := b, weak := w } }, true) := by
  unfold dramWriteMasked
  split
  · exact .inl rfl
  · dsimp only
    split
    · exact .inr (.inl rfl)
    · exact .inr (.inr ⟨_, _, _, rfl⟩)

theorem dramWriteMasked_canonical (s : State) (a : Nat) (l : List Byte) (holes : List Nat) (h : s.canonical = true) :
    (dramWriteMasked s a l holes).1.canonical = true := by
  rcases dramWriteMasked_cases s a l holes with k | k | ⟨m, b, w, k⟩ <;> rw [k]
  · exact dramWrite_canonical s a l h
  · exact h
  · simp only [State.canonical, Bool.and_eq_true] at h ⊢
    exact ⟨h.1, Memory.wf_writeBytes _ _ _ h.2⟩

/-- A window write lands in data memory, lands in an instruction memory that may be loaded, or is dropped with IMEM_WR. -/
theorem windowWrite_cases (s : State) (n off : Nat) (l : List Byte) :
    (∃ q, windowWrite s n off l = (setSeq s n q, 0)) ∨ windowWrite s n off l = (raise s K.SEQ_EVENT_IMEM_WR n, 2) := by
  unfold windowWrite
  dsimp only
  split
  · exact .inl ⟨_, rfl⟩
  · split
    · exact .inl ⟨_, rfl⟩
    · exact .inr rfl

theorem windowWrite_canonical (s : State) (n off : Nat) (l : List Byte) (h : s.canonical = true) :
    (windowWrite s n off l).1.canonical = true := by
  rcases windowWrite_cases s n off l with ⟨q, k⟩ | k <;> rw [k]
  · exact h
  · exact marks_canonical (marks_raise s _ _) h

/-! ### A hardware master's accesses (R553, R560) -/

/-- What an access keeps of the state: the canonical forms, DRAM's bytes, and the sequencers. -/
def serves (s t : State) : Prop :=
  (s.canonical = true → t.canonical = true) ∧ t.mem = s.mem ∧ t.seqs = s.seqs

theorem serves_refl (s : State) : serves s s := ⟨id, rfl, rfl⟩

theorem serves_trans {s t u : State} (h : serves s t) (k : serves t u) : serves s u :=
  ⟨k.1 ∘ h.1, k.2.1.trans h.2.1, k.2.2.trans h.2.2⟩

theorem serves_marks {s t : State} (h : marks s t) : serves s t := ⟨marks_canonical h, marks_mem h, marks_seqs h⟩

theorem serves_of_regs {s t : State} (hr : s.regs.wf = true → t.regs.wf = true) (hm : t.mem = s.mem) (hs : t.seqs = s.seqs) : serves s t := by
  refine ⟨fun h => ?_, hm, hs⟩
  simp only [State.canonical, Bool.and_eq_true, hm] at h ⊢
  exact ⟨hr h.1, h.2⟩

theorem serves_dramEntry (s : State) (a b c d e f g : Nat) : serves s (dramEntry s a b c d e f g) := serves_of_regs id rfl rfl

theorem serves_addSat (s : State) (f : Fld) (i n : Nat) : serves s (addSat s f i n) := serves_marks (marks_wr s _ _ _ _)

theorem serves_holdAll (s : State) : serves s (holdAll s) := by
  unfold holdAll
  refine each_keeps (serves s) _ (upto 32) ?_ s (serves_refl s)
  intro t c _ h
  rw [updCnv_eq]
  exact serves_trans h (serves_of_regs (fun w => w) rfl rfl)

theorem serves_enterHold (s : State) (cause : Nat) : serves s (enterHold s cause) := by
  have noted : serves s (noteCause s cause) := serves_of_regs id rfl rfl
  simp only [enterHold]
  generalize noteCause s cause = t at noted ⊢
  split
  · exact noted
  · exact serves_trans noted (serves_trans (serves_marks (marks_wr t _ _ _ _)) (serves_trans (serves_holdAll _)
      (serves_trans (serves_marks (marks_wr _ _ _ _ _)) (serves_trans (serves_marks (marks_raise _ _ _)) (serves_dramEntry _ _ _ _ _ _ _ _)))))

theorem serves_testThreshold (s : State) (c : Nat) : serves s (testThreshold s c) := by
  unfold testThreshold
  split
  · refine serves_trans ?_ (serves_enterHold _ _)
    refine serves_trans ?_ (serves_marks (marks_wr _ _ _ _ _))
    refine serves_trans ?_ (serves_dramEntry _ _ _ _ _ _ _ _)
    exact serves_trans (serves_marks (marks_wr _ _ _ _ _)) (serves_marks (marks_raise _ _ _))
  · exact serves_refl s

theorem serves_ueEntry (s : State) (c a : Nat) : serves s (ueEntry s c a) := by
  simp only [ueEntry]
  split <;> exact serves_of_regs id rfl rfl

theorem serves_eccRecord (s : State) (c a : Nat) (uncorr link : Bool) : serves s (eccRecord s c a uncorr link) :=
  serves_trans (serves_marks (marks_trans (marks_wr s _ c 0 a) (marks_trans (marks_wr _ _ c 0 (bit uncorr))
    (marks_trans (marks_wr _ _ c 0 (bit link)) (marks_wr _ _ c 0 1))))) (serves_addSat _ _ c 1)

/-- An error that an access finds touches no byte of DRAM and no sequencer (R597, R611, R612). -/
theorem serves_eccError (s : State) (a : Nat) (uncorr link : Bool) : serves s (eccError s a uncorr link) := by
  have recorded := serves_eccRecord s (dramChannel a) a uncorr link
  simp only [eccError]
  generalize eccRecord s (dramChannel a) a uncorr link = t at recorded ⊢
  generalize dramChannel a = c
  refine serves_trans recorded (serves_trans ?_ (serves_testThreshold _ _))
  split
  · exact serves_trans (serves_marks (marks_raise t _ _)) (serves_ueEntry _ _ _)
  · exact serves_trans (serves_marks (marks_raise t _ _)) (serves_addSat _ _ _ _)

theorem serves_meetPoison (s : State) (a n : Nat) : serves s (meetPoison s a n) := by
  unfold meetPoison
  split
  · exact serves_refl s
  · split
    · exact serves_eccError _ _ _ _
    · exact serves_of_regs id rfl rfl

theorem serves_meetWeak (words : List Nat) (s : State) : serves s (meetWeak words s) :=
  each_keeps (serves s) _ words (fun t _ _ h => serves_trans h (serves_eccError t _ _ _)) s (serves_refl s)

theorem serves_targetRead (s : State) (a n : Nat) : serves s (targetRead s a n).1 := by
  unfold targetRead
  split
  · split
    · exact serves_meetWeak _ s
    · exact serves_meetPoison s a n
  all_goals exact serves_refl s

theorem targetWrite_canonical (s : State) (a : Nat) (l : List Byte) (holes : List Nat) (h : s.canonical = true) :
    (targetWrite s a l holes).1.canonical = true := by
  unfold targetWrite
  split
  · dsimp only
    split
    · exact (serves_meetWeak _ _).1 (dramWriteMasked_canonical s a l holes h)
    · exact (serves_meetPoison s a l.length).1 h
  · exact windowWrite_canonical s _ _ l h
  · exact h

/-- A grant touches neither registers, nor DRAM's bytes, nor a sequencer. -/
theorem serves_noteGrant (s : State) (p m a n : Nat) (write : Bool) : serves s (noteGrant s p m a n write) := serves_of_regs id rfl rfl

/-- A piece of a read is not made after a denial that ends its job, is recorded as an error, or is granted and served. -/
theorem serves_readPiece (master : Nat) (acc : State × Nat × List Byte) (p : Nat × Nat) : serves acc.1 (readPiece master acc p).1 := by
  unfold readPiece
  have k := serves_marks (marks_checkAccess acc.1 { master := master, addr := p.1, len := p.2, write := false })
  split
  · exact serves_refl _
  · dsimp only
    split
    · exact k
    · exact serves_trans k (serves_trans (serves_noteGrant _ _ _ _ _ _) (serves_targetRead _ _ _))

/-- A read of a hardware master changes nothing but what grants and recorded errors change. -/
theorem serves_busRead (s : State) (master a n : Nat) : serves s (busRead s master a n).1 := by
  unfold busRead
  have step : ∀ (l : List (Nat × Nat)) (acc : State × Nat × List Byte), serves s acc.1 → serves s (l.foldl (readPiece master) acc).1 := by
    intro l
    induction l with
    | nil => exact fun acc h => h
    | cons p t ih => exact fun acc h => ih _ (serves_trans h (serves_readPiece master acc p))
  exact step _ (s, 0, []) (serves_refl s)

theorem writePiece_canonical (master a : Nat) (l : List Byte) (acc : State × Nat) (p : Nat × Nat) (h : acc.1.canonical = true) :
    (writePiece master a l acc p).1.canonical = true := by
  unfold writePiece
  have k := marks_canonical (marks_checkAccess acc.1 { master := master, addr := p.1, len := p.2, write := true }) h
  split
  · exact h
  · dsimp only
    split
    · exact k
    · exact targetWrite_canonical _ _ _ _ ((serves_noteGrant _ _ _ _ _ _).1 k)

/-- A write of a hardware master keeps the canonical forms. -/
theorem busWrite_canonical (s : State) (master a : Nat) (l : List Byte) (h : s.canonical = true) :
    (busWrite s master a l).1.canonical = true := by
  unfold busWrite
  have step : ∀ (ps : List (Nat × Nat)) (acc : State × Nat), acc.1.canonical = true → (ps.foldl (writePiece master a l) acc).1.canonical = true := by
    intro ps
    induction ps with
    | nil => exact fun acc h => h
    | cons p t ih => exact fun acc h => ih _ (writePiece_canonical master a l acc p h)
  exact step _ (s, 0) h

/-! ### Event signals (R422, R657) -/

/-- A signal changes the registers, the pending bits and one sequencer's pending events alone. -/
theorem signalTo_cases (s : State) (n ev : Nat) : signalTo s n ev = s ∨ signalTo s n ev = raise s K.SEQ_EVENT_EV_OVERFLOW n ∨
    signalTo s n ev = setSeq s n { seqOf s n with pend := (seqOf s n).pend.put ev ((seqOf s n).pend.get ev 0 + 1) } := by
  unfold signalTo
  dsimp only
  split
  · exact .inl rfl
  · split
    · exact .inr (.inl rfl)
    · exact .inr (.inr rfl)

theorem signal_canonical (s : State) (ev : Nat) (h : s.canonical = true) : (signal s ev).canonical = true := by
  refine each_keeps (fun s => s.canonical = true) _ _ ?_ s h
  intro s n _ hs
  rcases signalTo_cases s n ev with k | k | k <;> rw [k]
  · exact hs
  · exact marks_canonical (marks_raise s _ _) hs
  · exact hs

theorem signal_mem (s : State) (ev : Nat) : (signal s ev).mem = s.mem := by
  refine each_field s (fun t => t.mem) _ _ ?_
  intro s n
  rcases signalTo_cases s n ev with k | k | k <;> rw [k] <;> rfl

end Sys2Proof.Machine
end

