-- ==== Sys2Proof/WellFormed.lean ====
section
/-!
DEFINITION. Which commands are well formed: an operand that a type is too wide for keeps to what the interface it comes from can carry.
The step takes every command; the meanings say what an ill-formed one does.
-/

namespace Sys2Proof

/-- An offset of register space on a 4-byte boundary (R15). -/
def aligned4 (off : BitVec 26) : Bool := off.toNat % 4 == 0

/-- A list whose length lies in a range. -/
def sized {α : Type} (l : List α) (lo hi : Nat) : Bool := decide (lo ≤ l.length) && decide (l.length ≤ hi)

/-- The command is well formed. -/
def Instr.wellFormed (i : Instr) : Bool :=
  match i with
  | .registerWrite off wide _ => decide (off.toNat % (if wide then 8 else 4) = 0)
  | .w1cFlagClear off _ => aligned4 off
  | .cntClr off => aligned4 off
  | .blockLockSet off _ => aligned4 off
  | .islandLost _ _ => true
  | .galleryLost _ => true
  | .galleryPllRelock _ => true
  | .publishRequest _ => true
  | .framePublish _ => true
  | .recordHeaderRead _ _ => true
  | .layerSlotRead _ _ => true
  | .tileFetchIssue _ _ => true
  | .tileDataArrival _ _ _ => true
  | .chkStart _ _ => true
  | .chkAbort _ => true
  | .chkJobDone _ => true
  | .chkProtError _ => true
  | .chkConfigWrite off wide _ => decide (off.toNat % (if wide then 8 else 4) = 0)
  | .ptpCtrlWrite _ => true
  | .relock => true
  | .capture => true
  | .announceRx _ _ => true
  | .announceTimeout => true
  | .delayReqSend => true
  | .delayRespRx _ _ => true
  | .offsetSample _ _ => true
  | .macFrameRx _ bytes _ => sized bytes 1 16384
  | .hostqTxFrame queue port => queue == port
  | .flowInstall => true
  | .flowRemove _ => true
  | .flowRead _ => true
  | .flowCmdDone => true
  | .st2110PacketSend _ => true
  | .ethLinkDown _ => true
  | .ethLinkUp _ => true
  | .dpFrameStart _ _ _ => true
  | .dpLineRx _ pixels => sized pixels 1 8192
  | .dpFrameEnd _ => true
  | .wdogNoStart _ => true
  | .wdogIncomplete _ => true
  | .sluJobRelease _ => true
  | .sluStripeStart _ => true
  | .sluStripeEnd _ => true
  | .sluJobDrop _ => true
  | .sluApply _ => true
  | .sluApplyDone => true
  | .vdcAdmit _ => true
  | .vdcRemove _ => true
  | .vdcInject _ => true
  | .vdcCmdDone => true
  | .entropyAuStart _ => true
  | .entropyAuDone _ _ => true
  | .pixelEngineStart _ => true
  | .reconDone _ _ => true
  | .venAdmit _ => true
  | .venRemove _ => true
  | .venIdr _ => true
  | .venCmdDone => true
  | .encPictureStart => true
  | .encRowDone _ _ _ => true
  | .encPictureDone => true
  | .encAuWritten _ => true
  | .poolCfg _ _ => true
  | .bufAdd _ _ => true
  | .bufRemove _ _ => true
  | .take _ _ => true
  | .publish _ _ => true
  | .free _ _ => true
  | .lease _ _ => true
  | .release _ _ => true
  | .srcAlloc _ _ => true
  | .srcClaim _ _ => true
  | .srcRetire _ _ => true
  | .stage _ _ => true
  | .commit _ _ => true
  | .commitAt _ _ => true
  | .cancel _ _ => true
  | .snapshot _ _ => true
  | .easReservedOp _ => true
  | .easCommandComplete => true
  | .scanLeaseDrop _ => true
  | .galleryLatch _ _ => true
  | .galStateUpdate _ => true
  | .hitTableSwitch _ => true
  | .engineWrite _ _ => true
  | .flattenStart _ => true
  | .flattenDone _ => true
  | .planeSetFree _ => true
  | .wbFramePublish _ => true
  | .galleryEnable _ _ => true
  | .canvasEnable _ _ => true
  | .canvasDisable _ _ => true
  | .weirLevelCrossing _ _ _ => true
  | .fifoEmpty _ => true
  | .tileRowEvaluation _ _ => true
  | .glassRowResult _ _ _ more => sized more 0 63
  | .setDeadline _ _ => true
  | .proofStart _ => true
  | .watchPortRead _ => true
  | .heartbeatSend _ => true
  | .heartbeatRx _ bytes => sized bytes 0 32764
  | .rowRecordSend _ _ => true
  | .rowRecordRx _ bytes => sized bytes 0 32764
  | .rowCompare _ _ => true
  | .rowRecordTimeout _ _ => true
  | .twinLineRx _ _ bytes => sized bytes 0 32764
  | .twinLate _ => true
  | .mirrorRx _ => true
  | .yield => true
  | .resync => true
  | .resyncImageRx _ => true
  | .seqStart _ => true
  | .seqStartDone _ => true
  | .halt _ => true
  | .seqHaltDone _ => true
  | .resume _ => true
  | .step _ => true
  | .seqSignal _ => true
  | .seqRegWrite _ _ _ => true
  | .seqWindowWrite _ _ bytes => sized bytes 1 256
  | .seqTimerExpiry _ _ => true
  | .seqWaitComplete _ => true
  | .seqFabricReadReturn _ => true
  | .seqWriteResponse _ => true
  | .undefinedOpcode _ _ => true
  | .add _ _ _ _ _ _ => true
  | .sub _ _ _ _ _ _ => true
  | .and _ _ _ _ _ _ => true
  | .or _ _ _ _ _ _ => true
  | .xor _ _ _ _ _ _ => true
  | .shl _ _ _ _ _ _ => true
  | .shr _ _ _ _ _ _ => true
  | .sra _ _ _ _ _ _ => true
  | .addi _ _ _ _ _ _ => true
  | .andi _ _ _ _ _ _ => true
  | .ori _ _ _ _ _ _ => true
  | .xori _ _ _ _ _ _ => true
  | .shli _ _ _ _ _ _ => true
  | .shri _ _ _ _ _ _ => true
  | .srai _ _ _ _ _ _ => true
  | .lih _ _ _ _ _ _ => true
  | .mul _ _ _ _ _ _ => true
  | .mulhu _ _ _ _ _ _ => true
  | .divu _ _ _ _ _ _ => true
  | .remu _ _ _ _ _ _ => true
  | .cmp _ _ _ _ _ _ => true
  | .cmpi _ _ _ _ _ _ => true
  | .br _ _ _ _ _ _ => true
  | .jmp _ _ _ _ _ _ => true
  | .jr _ _ _ _ _ _ => true
  | .ld _ _ _ _ _ _ => true
  | .st _ _ _ _ _ _ => true
  | .fld _ _ _ _ _ _ => true
  | .fst _ _ _ _ _ _ => true
  | .fence _ _ _ _ _ _ => true
  | .ksisHalt _ _ _ _ _ _ => true
  | .trap _ _ _ _ _ _ => true
  | .umode _ _ _ _ _ _ => true
  | .sysrd _ _ _ _ _ _ => true
  | .ewait _ _ _ _ _ _ => true
  | .esig _ _ _ _ _ _ => true
  | .emask _ _ _ _ _ _ => true
  | .tset _ _ _ _ _ _ => true
  | .trd _ _ _ _ _ _ => true
  | .twait _ _ _ _ _ _ => true
  | .lset _ _ _ _ _ _ => true
  | .lshow _ _ _ _ _ _ => true
  | .lhide _ _ _ _ _ _ => true
  | .csetCfg _ _ _ _ _ _ => true
  | .csetBg _ _ _ _ _ _ => true
  | .estage _ _ _ _ _ _ => true
  | .ksisCommit _ _ _ _ _ _ => true
  | .ksisCancel _ _ _ _ _ _ => true
  | .cmtat _ _ _ _ _ _ => true
  | .lwait _ _ _ _ _ _ => true
  | .dlset _ _ _ _ _ _ => true
  | .vread _ _ _ _ _ _ => true
  | .pinj _ _ _ _ _ _ => true
  | .ksisLease _ _ _ _ _ _ => true
  | .ksisRelease _ _ _ _ _ _ => true
  | .ksisFree _ _ _ _ _ _ => true
  | .thit _ _ _ _ _ _ => true
  | .japp _ _ _ _ _ _ => true
  | .ckrun _ _ _ _ _ _ => true
  | .touchScanStart _ => true
  | .touchScanEnd _ counts => sized counts 864 864
  | .touchReportEvent _ => true
  | .touchRemoteReportRx _ report => sized report 0 32764
  | .touchTestStart _ => true
  | .touchTestDone _ coupled stray => sized coupled 60 60 && sized stray 60 60
  | .touchConfigWrite off _ => aligned4 off
  | .wakeScan _ counts => sized counts 1 36
  | .cprTailWrite _ _ => true
  | .cprJobStart _ => true
  | .cprJobEnd _ => true
  | .journalRequest => true
  | .journalAppend => true
  | .journalRingWrite => true
  | .jnlAckWrite _ => true
  | .headCapture => true
  | .hostAppend => true
  | .evidCaptureStart _ => true
  | .evidCaptureDone => true
  | .quadUseCommit => true
  | .quadPllLock _ => true
  | .quadPllLockLoss _ => true
  | .laneLockLoss _ => true
  | .dptxTrainingStart _ => true
  | .dptxTrainingEnd _ result levels => decide (result.cause.toNat ≤ 5) && sized levels 0 4
  | .dptxRetry _ => true
  | .irqHpd _ _ status => sized status 3 3
  | .hpdUnplug _ => true
  | .auxStart _ _ => true
  | .auxDone _ _ bytes => sized bytes 0 16
  | .dprxAuxRequest _ _ _ bytes len => sized bytes 0 16 && decide (len.toNat ≤ 16)
  | .dprxTrained _ => true
  | .txFirWrite _ _ => true
  | .laneTestWrite _ _ => true
  | .prbsSync _ _ _ => true
  | .lnkCfgWrite _ _ => true
  | .blockLockAcquired _ _ => true
  | .markerRx _ _ _ _ => true
  | .markerSend _ => true
  | .capRx _ _ => true
  | .ndosinRateChange _ => true
  | .bringupTimeout _ => true
  | .bringupRestart _ => true
  | .ndosinPacketSend _ => true
  | .ndosinPacketRx _ _ lanes _ => sized lanes 0 4
  | .widthRx _ _ => true
  | .widthChangeDone _ => true
  | .laneRestoreTry _ => true
  | .protectionCheck _ => true
  | .fabricGrant _ => true
  | .decodeError => true
  | .responseReturn _ => true
  | .masterReset _ => true
  | .mresetDone => true
  | .hostRequest write _ len bytes => if write then sized bytes 1 4096 else decide (1 ≤ len.toNat) && decide (len.toNat ≤ 4096)
  | .hostCompletion => true
  | .msixMessage _ => true
  | .msixUnmask _ => true
  | .mbxDoorbellH2d => true
  | .mbxDoorbellD2h => true
  | .mbxAttach _ => true
  | .pciePerst => true
  | .pcieHotReset => true
  | .prtHoldRequest _ => true
  | .prtHoldHeld _ => true
  | .prtHoldRelease _ => true
  | .prtConfigEffect _ => true
  | .prtRegionWrite off _ => aligned4 off
  | .dramInit => true
  | .dramInitDone _ margins => sized margins 8 8
  | .dramReset => true
  | .freqRequest _ => true
  | .freqDone => true
  | .retrainWindowStart _ => true
  | .retrainWindowEnd _ _ => true
  | .refresh _ => true
  | .mr4Read _ _ => true
  | .panicRaise _ => true
  | .panicRelease _ => true
  | .dramReadEcc _ _ _ => true
  | .powerOnReset _ _ _ => true
  | .mainPowerGood => true
  | .brownout => true
  | .warmReset => true
  | .warm => true
  | .bootStart image => sized image 0 33554432
  | .bootGo => true
  | .bootDigestDone => true
  | .bootRecord => true
  | .bootWaitExpiry => true
  | .bootEnd => true
  | .otpProgram _ => true
  | .otpRevoke _ => true
  | .otpDone => true
  | .stillEnter => true
  | .stillDrainDone => true
  | .stillMainOff => true
  | .wakePin => true
  | .rtcAlarm => true
  | .wake _ _ _ => true
  | .wakeHoldExpiry => true
  | .rtcWrite _ => true
  | .lbist => true
  | .mbist => true
  | .bistDone _ _ => true
  | .scnLineBoundary _ => true
  | .islandRelock _ _ => true
  | .laneCdrLock _ _ taps => sized taps.before 12 12 && sized taps.after 12 12
  | .hpdPulseEnd _ => true
  | .debugMasterRequest _ write len bytes => if write then sized bytes 1 256 else decide (1 ≤ len.toNat) && decide (len.toNat ≤ 256)

end Sys2Proof
end

