-- ==== Sys2Proof/Tests/Slice0.lean ====
section
/-!
SUPPORT. The model's own tests, and a witness for the hypotheses of every statement.
-/

namespace Sys2Proof.Tests
set_option Elab.async false
open Sys2Proof Sys2Proof.Machine

/-- A register field after a command that answers a next state. -/
def nextRd (o : Host.Outcome State Fault Refusal) (f : Fld) (i : Nat := 0) : Option Nat :=
  match o with
  | .next t => some (rd t f i)
  | _ => none

/-! EmptyQueueLetsTimePass -/

theorem witness_EmptyQueueLetsTimePass : State.reset.pending = [] := rfl

/-! StepKeepsCanonicalForms -/

theorem witness_StepKeepsCanonicalForms :
    State.reset.canonical = true ∧ step { State.reset with pending := [.relock] } = exec .relock State.reset := ⟨by decide, rfl⟩

/-! CommandsKeepTheQueue -/

theorem witness_CommandsKeepTheQueue : ∃ t, exec .relock State.reset = .next t := ⟨_, rfl⟩

/-! RegisterWriteActsByAccessType -/

theorem witness_RegisterWrite_rw : (locate 0x1c00000).map (fun l => (l.upper, l.reg.wide, plainReg l.reg, l.reg.align, l.reg.fields.map (·.acc)))
    = some (false, false, true, 0, [.rw, .wo]) := by decide
theorem witness_RegisterWrite_w1c : (locate 0x1c00004).map (fun l => (l.upper, l.reg.wide, plainReg l.reg, l.reg.align, l.reg.fields.any (·.acc == .w1c)))
    = some (false, false, true, 0, true) := by decide

/-! ClearsAndLocks -/

theorem witness_ClearsAndLocks_hit : (locate 0x1c00004).isSome = true := by decide
theorem witness_ClearsAndLocks_lock : ((regTable.filter fun r => plainReg r && !r.wide && r.align == 0 &&
    r.fields.any fun g => g.acc == .w1s).map fun r => (locate r.base).isSome) ≠ [] := by decide

/-! ClockLossAndReturn -/

def mainUp : State := { State.reset with pwr := { State.reset.pwr with phase := .main } }
theorem witness_ClockLoss_island : (wr0 mainUp F.PWR_CLK_STATUS_ISLAND_LOCK 63).pwr.phase = .main ∧
    (rd (wr0 mainUp F.PWR_CLK_STATUS_ISLAND_LOCK 63) F.PWR_CLK_STATUS_ISLAND_LOCK &&& (1 : BitVec 6).toNat) ≠ 0 := by decide
theorem witness_ClockLoss_main : ({ State.reset with pwr := { State.reset.pwr with phase := .main } } : State).pwr.phase = .main := rfl
theorem witness_ClockLoss_gallery : (galOf (setGal State.reset 3 { locked := true }) 3).locked = true := by decide
theorem witness_ClockLoss_relock : rd (wr mainUp F.CNV_GAL_CTRL_EN 3 0 1) F.CNV_GAL_CTRL_EN 3 = 1 ∧ (galOf mainUp 3).locked = false ∧
    mainUp.pwr.phase ≠ .still := by decide

/-! SerialComparison -/

theorem witness_SerialComparison : (1 ≤ 32) ∧ (2 < 2 ^ 32) ∧ (0xFFFFFFFE < 2 ^ 32) ∧ serialLater 32 2 0xFFFFFFFE = true ∧
    serialLater 32 0xFFFFFFFE 2 = false := by decide
theorem witness_SerialComparison_half : ((0x80000000 : Int) - 0) % (2 ^ 32 : Nat) = ((2 ^ (32 - 1) : Nat) : Int) := by decide

/-! ProvisionalSealConversionIsExact -/

theorem witness_Provisional : (0x12C4F : Nat) < 2 ^ 32 ∧
    (sealFromProvisional (BitVec.ofNat 32 (tileSeal 0 0 0x39 0 67 0x35A41C000 [1, 2, 3])) 0x12C4F 3).toNat =
      tileSeal 0 0 0x39 0x12C4F 67 0x35A41C000 [1, 2, 3] := by decide +kernel

/-! CheckUnitStarts -/

def chk (src len : Nat) : State := wr (wr State.reset F.CHK_SRC_ADDR 3 0 src) F.CHK_LEN_LEN 3 0 len
theorem witness_CheckUnit_runs : let s := chk 0x1000 64; let c := writeReg s R.CHK_CTRL 3 0 (0x200001 ||| 1) 0xFFFFFFFF
    rd s F.CHK_STATUS_BUSY 3 = 0 ∧ rd c F.CHK_CTRL_WIDTH 3 = 32 ∧ rd s F.CHK_SRC_ADDR 3 + rd s F.CHK_LEN_LEN 3 ≤ dramSize s ∧ inCheckArea s (rd s F.CHK_SRC_ADDR 3) = false ∧
    rdReg s R.CHK_POLY 3 < 2 ^ 32 ∧ rdReg s R.CHK_INIT 3 < 2 ^ 32 ∧ rdReg s R.CHK_XOROUT 3 < 2 ^ 32 ∧ rdReg s R.CHK_EXPECT 3 < 2 ^ 32 := by decide
theorem witness_CheckUnit_code1 : rd (chk 0 0xFFFFFFFF) F.CHK_LEN_LEN 3 = 0xFFFFFFFF ∧ rd State.reset F.CHK_LEN_LEN 3 = 0 := by decide
theorem witness_CheckUnit_code2 : rd (writeReg (chk 0x1000 64) R.CHK_CTRL 3 0 (0x070001 ||| 1) 0xFFFFFFFF) F.CHK_CTRL_WIDTH 3 = 7 := by decide
theorem witness_CheckUnit_code3 : rd (writeReg (chk 0x1000 64) R.CHK_CTRL 3 0 (0x080001 ||| 1) 0xFFFFFFFF) F.CHK_CTRL_WIDTH 3 = 8 ∧
    ¬ rdReg (chk 0x1000 64) R.CHK_POLY 3 < 2 ^ 8 := by decide
theorem witness_CheckUnit_code4 : let s := chk 0x1803FFFFFC 4
    0x1800000000 ≤ rd s F.CHK_SRC_ADDR 3 ∧ rd s F.CHK_SRC_ADDR 3 + rd s F.CHK_LEN_LEN 3 ≤ 0x1804000000 := by decide
theorem witness_CheckUnit_checkArea : let s := { chk 0x38000000 64 with dmc := { State.reset.dmc with ecc := 1 } }
    inCheckArea s (rd s F.CHK_SRC_ADDR 3) = true ∧ rd s F.CHK_SRC_ADDR 3 < 2 ^ 36 := by decide
theorem witness_CheckUnit_past : let s := chk 0x1803FFFFFC 5
    rd s F.CHK_SRC_ADDR 3 ≤ 0x1803FFFFFF ∧ 0x1804000000 < rd s F.CHK_SRC_ADDR 3 + rd s F.CHK_LEN_LEN 3 := by decide
theorem witness_CheckUnit_busy : rd (wr State.reset F.CHK_STATUS_BUSY 3 0 1) F.CHK_STATUS_BUSY 3 = 1 ∧ (1 : BitVec 32).toNat.testBit 1 = false := by decide

/-! CheckUnitJobsEnd -/

def ready (s : State) : State := { wr0 s F.DMC_GSTATUS_READY 1 with pwr := { s.pwr with phase := .main } }
theorem witness_CheckUnitJobsEnd : let s := ready (wr (chk 0x1000 64) F.CHK_STATUS_BUSY 3 0 1)
    rd s F.CHK_STATUS_BUSY 3 = 1 ∧ accessWaits s (32 + 3) = false ∧
    (busRead s (32 + 3) (rd s F.CHK_SRC_ADDR 3) (rd s F.CHK_LEN_LEN 3)).2.1 = 0 := by decide
/-- Unit 3 refuses every access. -/
def shut (s : State) : State := { s with prt := { s.prt with eff := [(R.PRT_CTRL.addr 3 0, 2)] } }
theorem witness_CheckUnitJobs_refused : let s := shut (ready (wr (chk 0x1000 64) F.CHK_STATUS_BUSY 3 0 1))
    rd s F.CHK_STATUS_BUSY 3 = 1 ∧ accessWaits s (32 + 3) = false ∧
    (busRead s (32 + 3) (rd s F.CHK_SRC_ADDR 3) (rd s F.CHK_LEN_LEN 3)).2.1 = 1 := by decide

/-! ComposerChecksSeals -/

/-- Canvas 0 shows layer 5, one tile of source 7 in format 0x5 at 1:1, from a leased buffer at 0x1000. -/
def wall : State :=
  let s := ready State.reset
  let s := wr (wr (wr s F.CNV_GAL_HV_VACT 0 0 16) F.CNV_H_HACT 0 0 128) F.CNV_STATUS_ACTIVE 0 0 1
  let s := wr (wr (wr s F.CNV_CTRL_EN 0 0 1) F.CNV_GAL_CTRL_EN 0 0 1) F.CNV_CTRL_OUT_KIND 0 0 2
  let s := setGal s 0 { locked := true, latched := true }
  let s := { s with eas := { s.eas with pools := [(0, { format := 5, width := 128, height := 16 })] } }
  let s := updCnv s 0 fun x => { x with dark := false }
  setLay s 5 { committed := true, evaluated := true, lease := some { base := 0x1000, pool := 0, frame := { format := 5, width := 128, height := 16, source := 7, seq := 9 } }
               desc := { shown := true, canvas := 0, source := 7, srcW := 128, srcH := 16, dstW := 128, dstH := 16, alpha := 255, deadline := 100 }, hdrOk := false }
/-- The lease of the layer. -/
def wallLease : Lease := { base := 0x1000, pool := 0, frame := { format := 5, width := 128, height := 16, source := 7, seq := 9 } }
/-- The wall with the record header of the leased frame written. -/
def sealedWall : State := writeHeader wall 51 (placeOf wall wallLease) domSource 7 9 0 wallLease.frame
/-- The layer of the wall with a crop beyond the frame's size. -/
def cropped : State := updLay sealedWall 5 fun x => { x with desc := { x.desc with srcW := 129 } }
theorem witness_ComposerChecksSeals_header : (layOf sealedWall 5).lease = some wallLease ∧ headerWaits sealedWall 5 = true ∧
    accessWaits sealedWall (engineMaster sealedWall 0) = false ∧ (readHeader sealedWall (engineMaster sealedWall 0) wallLease).2.1 = true ∧
    leAt (readHeader sealedWall (engineMaster sealedWall 0) wallLease).2.2 24 2 = 128 ∧
    leAt (readHeader sealedWall (engineMaster sealedWall 0) wallLease).2.2 26 2 = 16 := by decide +kernel
theorem witness_ComposerChecksSeals_crop : (layOf cropped 5).lease = some wallLease ∧ headerWaits cropped 5 = true ∧
    accessWaits cropped (engineMaster cropped 0) = false ∧ (readHeader cropped (engineMaster cropped 0) wallLease).2.1 = true ∧
    leAt (readHeader cropped (engineMaster cropped 0) wallLease).2.2 24 2 < (layOf cropped 5).desc.srcX + (layOf cropped 5).desc.srcW := by
  decide +kernel
theorem witness_ComposerChecksSeals_bad : (layOf wall 5).lease = some wallLease ∧ headerWaits wall 5 = true ∧
    accessWaits wall (engineMaster wall 0) = false ∧ (readHeader wall (engineMaster wall 0) wallLease).2.1 = false := by decide +kernel
theorem witness_ComposerChecksSeals_fetch : (layOf wall 5).lease = some wallLease ∧ (firstRowOf wall 5 0).isSome = true ∧ fetches wall 5 = true ∧
    ((layOf wall 5).got.find 0).isSome = false ∧ ((layOf wall 5).fetch.any fun f => f.1 == 0) = false ∧ (layOf wall 5).crcs = none ∧
    accessWaits wall (engineMaster wall 0) = false := by decide +kernel
theorem witness_ComposerChecksSeals_cached : let s := updLay wall 5 fun x => { x with crcs := some (0, false, [1, 2, 3, 4]) }
    (layOf s 5).lease = some wallLease ∧ (firstRowOf s 5 0).isSome = true ∧ fetches s 5 = true ∧ (layOf s 5).got = [] ∧ (layOf s 5).fetch = [] ∧
    accessWaits s (engineMaster s 0) = false ∧ 0 / tilesPerRow (placeOf s wallLease).w = 0 := by decide +kernel
/-- The wall with a fetch of tile 0 outstanding. -/
def fetching (stored : Nat) (cut : Option Nat) : State := updLay wall 5 fun x => { x with fetch := [(0, stored, 2)], cut := cut }
/-- The fetch taken off, as its arrival does. -/
def arrived : State := setLay (fetching 0 none) 5 { layOf (fetching 0 none) 5 with fetch := [] }
theorem witness_ComposerChecksSeals_differs : (layOf (fetching (2 ^ 32) none) 5).lease = some wallLease ∧
    ((layOf (fetching (2 ^ 32) none) 5).fetch.find? fun f => f.1 == (0 : BitVec 16).toNat) = some (0, 2 ^ 32, 2) ∧
    accessWaits (fetching (2 ^ 32) none) (engineMaster wall 0) = false ∧
    leaseSeal wall wallLease 0 (readTile arrived (engineMaster wall 0) (placeOf wall wallLease) 0).2.2 ≠ 2 ^ 32 := by decide +kernel
theorem witness_ComposerChecksSeals_equal :
    let v := leaseSeal wall wallLease 0 (readTile arrived (engineMaster wall 0) (placeOf wall wallLease) 0).2.2
    ((layOf (fetching v none) 5).fetch.find? fun f => f.1 == (0 : BitVec 16).toNat) = some (0, v, 2) ∧
    (readTile arrived (engineMaster wall 0) (placeOf wall wallLease) 0).2.1 = false ∧ (fetching v none).cmp.proof = none := by decide +kernel
theorem witness_ComposerChecksSeals_cut : (layOf (fetching 0 (some 0)) 5).cut.isSome = true ∧
    ((layOf (fetching 0 (some 0)) 5).fetch.find? fun f => f.1 == (0 : BitVec 16).toNat) = some (0, 0, 2) := by decide
theorem witness_ComposerChecksSeals_slot : (layOf wall 5).committed = true ∧ (layOf wall 5).tableFail = false := by decide

/-! PublicationReservesAndCompletes -/

def requested : State := { State.reset with eas := { State.reset.eas with
  requests := [7], descs := [(7, { bound := true, st := .filling, frame := { source := 57 } })] } }
theorem witness_PublicationReserves : requested.eas.requests.contains 7 = true ∧ firstOfSource requested requested.eas.requests 7 = true := by decide
theorem witness_PublicationCompletes : let s := { requested with eas := { requested.eas with requests := [], sealing := [7] } }
    s.eas.sealing.contains 7 = true ∧ firstOfSource s s.eas.sealing 7 = true ∧ accessWaits s 51 = false := by decide

/-! EaselCommandHoldsBusy -/

theorem witness_EaselBusy : rd (wr0 State.reset F.EAS_STATUS_BUSY 1) F.EAS_STATUS_BUSY = 1 ∧ rd State.reset F.EAS_STATUS_BUSY = 0 ∧
    17 ≤ (31 : BitVec 5).toNat ∧ State.reset.eas.op = none := by decide

/-! EaselPoolsAndBuffers -/

def pooled : State := { State.reset with eas := { State.reset.eas with pools := [(3, { format := 5, width := 128, height := 16 })] } }
def buffered (x : Desc) : State := setDesc pooled 9 x
theorem witness_PoolCfg : let a : BitVec 64 := 0x40080503
    rd State.reset F.EAS_STATUS_BUSY = 0 ∧ slice a.toNat 12 14 = 128 ∧ slice a.toNat 26 14 = 16 ∧ slice a.toNat 8 4 = 5 ∧
    sizeRule 5 128 16 = 0 ∧ unnamed a.toNat 0xFFFFFFFF3F = false ∧ State.reset.eas.descs = [] := by decide
theorem witness_BufAdd : (pooled.eas.pools.get (slice (3 : BitVec 64).toNat 0 6) {}).format ≠ 0 ∧ slice (0x5000 : BitVec 64).toNat 0 40 % 4096 = 0 ∧
    inDram pooled 0x5000 (bufBytes 5 128 16) = true ∧ freeDesc pooled = some 0 ∧ unnamed (3 : BitVec 64).toNat 0x3F = false ∧
    unnamed (0x5000 : BitVec 64).toNat (2 ^ 40 - 1) = false := by decide +kernel
theorem witness_BufRemove : let s := buffered { bound := true, pool := 3 }
    rd s F.EAS_STATUS_BUSY = 0 ∧ (descOf s (slice (9 : BitVec 64).toNat 0 13)).bound = true ∧ (descOf s 9).st = .free ∧
    unnamed (9 : BitVec 64).toNat 0x1FFF = false := by decide
theorem witness_Take : freeIn (buffered { bound := true, pool := 3 }) (slice (3 : BitVec 64).toNat 0 6) = some 9 := by decide
theorem witness_Free : (descOf (buffered { bound := true, st := .superseded }) 9).st = .superseded ∧
    heldBuf (descOf (buffered { bound := true, st := .superseded }) 9) = false ∧
    heldBuf (descOf (buffered { bound := true, st := .superseded, leases := 1 }) 9) = true := by decide

/-! EaselPublishAndLeases -/

def publishable : State := setSrc (ready (setDesc pooled 9 { bound := true, pool := 3, base := 0x8000, st := .filling, ownerHost := true })) 57
  { st := .bound, owner := .host }
theorem witness_Publish : let a0 : BitVec 64 := 0x390009; let a1 : BitVec 64 := 0x4008000000000
    slice a0.toNat 0 13 = 9 ∧ slice a0.toNat 16 12 = 57 ∧ slice a1.toNat 32 14 = 128 ∧ slice a1.toNat 46 14 = 16 ∧
    unnamed a0.toNat 0x7FF1FFF1FFF = false ∧ unnamed a1.toNat (2 ^ 60 - 1) = false ∧ (srcOf publishable 57).owner = .host ∧
    (descOf publishable 9).st = .filling ∧ (publishable.eas.pools.get 3 {}).format < 8 ∧ accessWaits publishable 51 = false := by decide
theorem witness_Publish_read : (sealBuffer (wr0 publishable F.EAS_STATUS_BUSY 0)
    (placeIn publishable 9 { format := 5, width := 16, height := 1 }) 57 1).2.1 = false := by decide +kernel
theorem witness_Lease : (descOf (buffered { bound := true, st := .current, leases := 4094 }) 9).leases < 4095 ∧
    (descOf (buffered { bound := true, st := .current, leases := 1, soft := 1 }) 9).soft = 1 := by decide

/-! EaselSources -/

theorem witness_SrcAlloc : freeSource State.reset = some 0 ∧ activeSources State.reset < 512 := by decide +kernel
theorem witness_SrcClaim : inWindow State.reset (slice (57 : BitVec 64).toNat 0 12) = true ∧ (srcOf State.reset 57).st = .free ∧
    unnamed (57 : BitVec 64).toNat 0xFFF = false := by decide
theorem witness_SrcRetire : let s := setSrc State.reset 57 { st := .bound, owner := .host }
    let n := setLay s 4 { committed := true, desc := { source := 57 } }
    (srcOf s 57).cur = none ∧ namesSource s 57 = false ∧ namesSource n 57 = true := by decide

/-! EaselTableAndCommits -/

def slotted : State :=
  let s := wr0 (ready State.reset) F.EAS_LT_BASE_ADDR 0x40000
  { s with mem := Memory.writeBytes [] 0x40000 [1, 0, 3] }
theorem witness_Stage : (layOf slotted 0).committed = false ∧ (busRead slotted 51 (stagingSlot slotted 0) 128).2.1 = 0 ∧
    slotBad (busRead slotted 51 (stagingSlot slotted 0) 128).2.2 0 0 = none ∧ unnamed (0 : BitVec 64).toNat 0x3FF = false := by decide +kernel
theorem witness_Stage_pending : (∀ g, pendingIn slotted g = false) ∧ accessWaits slotted 51 = false := ⟨fun _ => rfl, by decide⟩
theorem witness_Commit : pendingIn State.reset 2 = false ∧ unnamed (2 : BitVec 64).toNat 7 = false ∧ (galOf State.reset 2).snap = none ∧
    (0x1000 : BitVec 64).toNat % 64 = 0 ∧ unnamed (0x1000 : BitVec 64).toNat (2 ^ 40 - 1) = false := by decide
theorem witness_CommitAt : rd (wr0 State.reset F.PTP_STATE_LOCKED 1) F.PTP_STATE_LOCKED = 1 ∧
    mirrored (wr0 State.reset F.PTP_STATE_LOCKED 1) 2 = false ∧ accessWaits (wr0 State.reset F.PTP_STATE_LOCKED 1) 52 = false := by decide
/-- The FAB time copy of a clock at 0 reads 0: its cycle is below 1 ns. -/
theorem fabNs_zero (s : State) (h : s.time.ptp = 0) : fabNs s = 0 := by
  have hx : ((s.time.ptp : Int) + clampI (-(((ptpUnit * 1000 * 1 / 1100 : Nat)) : Int)) ((ptpUnit * 1000 * 1 / 1100 : Nat) : Int)
      (Config.freeInt s.free)).toNat < ptpUnit := by
    rw [h]; unfold clampI ptpUnit; norm_num; split
    · omega
    · split <;> omega
  exact Nat.div_eq_of_lt (Nat.lt_of_le_of_lt (Nat.mod_le _ _) hx)
theorem witness_CommitAt_time : 1000000 ≤ fabNs (wr0 State.reset F.PTP_STATE_LOCKED 1) + 60000000000 ∧
    pastWindow (wr0 State.reset F.PTP_STATE_LOCKED 1) 2 (((1000000 : Nat) - fabNs (wr0 State.reset F.PTP_STATE_LOCKED 1) : Int) * 1000) = true := by
  rw [fabNs_zero _ rfl]
  decide
theorem witness_Cancel : pendingIn (updGal State.reset 2 fun x => { x with pend := some {} }) 2 = true ∧
    accessWaits (updGal State.reset 2 fun x => { x with pend := some {} }) 52 = false := by decide

/-! PtpOffsetSamples -/

def clocked : State :=
  let s := wr0 (wr0 (ready State.reset) F.PTP_CTRL_EN 1) F.PTP_STATE_STATE 1
  updPtp s fun p => { p with parent := some 5, path := some 100 }
def syncMsg : SyncMsg := { domain := 0, transport := 0, sender := 5, seq := 7, followUp := false, twoStep := false, origin := 1000, correction := 0,
                           logInterval := 0xFD }
theorem witness_PtpOffsetSamples : rd clocked F.PTP_CTRL_EN = 1 ∧ rd clocked F.PTP_STATE_PORT_ACTIVE = (0 : Fin 16) ∧
    rd clocked F.PTP_CTRL_DOMAIN = syncMsg.domain.toNat ∧ clocked.ptp.parent = some syncMsg.sender ∧
    rd clocked F.PTP_CTRL_TRANSPORT = syncMsg.transport.toNat ∧ syncMsg.logInterval.toInt = -3 ∧ rd clocked F.PTP_STATE_STEPPED = 0 := by decide
theorem witness_PtpOffset_servo : let s := wr0 clocked F.PTP_STATE_STEPPED 1
    s.ptp.relock = false ∧ rd s F.PTP_STATE_STEPPED = 1 ∧ rd s F.PTP_STATE_STATE ≠ 4 ∧
    (2000100 : Int) - 1000 - 100 > rd s F.PTP_SERVO_STEP_THRESH_US * 1000 ∧ ((1000500 : Int) - 1000 - 100).natAbs ≤ rd s F.PTP_SERVO_STEP_THRESH_US * 1000 := by decide
theorem witness_PtpOffset_followUp : let s := updPtp clocked fun p => { p with half := some (7, 2000100, 0, -3) }
    s.ptp.half = some (syncMsg.seq.toNat, 2000100, 0, -3) := by decide
theorem witness_PtpOffset_range : (1 : Int) < ({ syncMsg with logInterval := 2 } : SyncMsg).logInterval.toInt := by decide

/-! PtpPortAndMasters -/

theorem witness_PtpPort_ctrl : (0 : BitVec 32).toNat.testBit 0 = false ∧ (1 : BitVec 32).toNat.testBit 0 = true ∧
    (1 : BitVec 32).toNat.testBit 21 = false ∧ rd State.reset F.PTP_CTRL_EN = 0 ∧ rd State.reset F.PTP_STATE_STATE ≠ 4 := by decide
def heard : Announce := { domain := 0, transport := 0, profile := false, sender := 5, senderPort := 1, priority1 := 128, gmClass := 6, gmAccuracy := 0x21,
                          gmVariance := 0, priority2 := 128, gm := 9, steps := 1, utcOffset := 37, utcValid := true, leap61 := false,
                          leap59 := false, logInterval := 0 }
theorem witness_PtpPort_announce : rd clocked F.PTP_CTRL_EN = 1 ∧ rd clocked F.PTP_CTRL_DOMAIN = heard.domain.toNat ∧
    rd clocked F.PTP_CTRL_TRANSPORT = heard.transport.toNat ∧
    rdb clocked F.PTP_CTRL_PROFILE = heard.profile ∧ heard.logInterval.toInt = 0 ∧ clocked.ptp.masters = [] ∧ heard.steps.toNat < 255 ∧
    rd clocked F.PTP_GM_ID_ID ≠ heard.gm.toNat ∧ clocked.ptp.byAnnounce = false := by decide
theorem witness_PtpPort_delay : let s := updPtp clocked fun p => { p with req := some (3, 50), sync := some (10, 20) }
    s.ptp.req = some ((3 : BitVec 16).toNat, 50) ∧ s.ptp.sync = some (10, 20) := by decide

/-! FlowCommands -/

/-- A state with a valid kind 4 entry staged for group 239.0.0.1 port 5004 on port 0, to host queue 3. -/
def stagedSteer : State :=
  let s := wrReg State.reset R.NET_FLOW_STAGE 0 0 0x010000EF
  let s := wrReg s R.NET_FLOW_STAGE 0 8 5004
  let s := wrReg s R.NET_FLOW_STAGE 0 9 0x01040001
  let s := wrReg s R.NET_FLOW_STAGE 0 11 0x600000
  wrReg s R.NET_FLOW_STAGE 0 10 3
def steering (op : Nat) : State := { stagedSteer with net := { stagedSteer.net with op := some (op, 0) } }
theorem witness_FlowCommands_idle : rd State.reset F.NET_FLOW_STATUS_BUSY = 0 ∧ rd (wr0 State.reset F.NET_FLOW_STATUS_BUSY 1) F.NET_FLOW_STATUS_BUSY = 1 := by decide
theorem witness_FlowCommands_install : (steering 1).net.op = some (1, 0) ∧ installRefusal (steering 1) (stagedEntry (steering 1)) = none ∧
    flowValid (flowEntry (steering 1) 0) = false := by decide
theorem witness_FlowCommands_refused : let s := wrReg (steering 1) R.NET_FLOW_STAGE 0 8 0
    s.net.op = some (1, 0) ∧ installRefusal s (stagedEntry s) = some (4, 32) := by decide
theorem witness_FlowCommands_remove : let s := { steering 2 with net := { (steering 2).net with entries := [(0, stagedEntry stagedSteer)] } }
    s.net.op = some (2, 0) ∧ flowValid (flowEntry s 0) = true ∧ (flowEntry s 0).length = 64 := by decide
theorem witness_FlowCommands_read : (steering 3).net.op = some (3, 0) := by decide

/-! FramesAndEthernetLinks -/

/-- Ports 0 and 1 are enabled and up, and port 0 is the clock's. -/
def linkedUp : State := each [0, 1] (fun s p => wr (wr s F.NET_MAC_CTRL_EN p 0 1) F.NET_MAC_STATUS_LINK_UP p 0 1) (ready State.reset)
def listening : State := wr linkedUp F.NET_MAC_CTRL_PROMISC 0 0 1
def plainFrame : List Byte := List.replicate 6 0xFF ++ List.replicate 6 2 ++ [0x88, 0xB5] ++ List.replicate 50 0
theorem witness_Frames_down : macUp State.reset 0 = false ∧ macUp linkedUp 0 = true ∧ (3 : Fin 16) ≠ 4 ∧ accessWaits linkedUp 53 = false := by decide
theorem witness_Frames_host : let p := parseFrame (plainFrame.take 60)
    plainFrame.length = 64 ∧ accepts listening 0 (plainFrame.take 60) p = true ∧ p.dgram = none ∧ p.bad = false ∧ p.ty = 0x88B5 ∧
    accessWaits listening 53 = false := by decide
/-- An H.264 entry for 239.0.0.1 port 5004 on port 0 with payload type 96. -/
def cameraEntry : List Byte := [0xEF, 0, 0, 1] ++ List.replicate 28 0 ++ [0x8C, 0x13, 0, 0, 1, 0, 1, 1, 57, 0, 0, 0, 0, 0, 96, 0] ++ List.replicate 16 0
/-- A UDP datagram to it, without a UDP checksum, with an RTP header of payload type `pt`. -/
def rtpFrame (pt : Byte) : List Byte :=
  [0x01, 0x00, 0x5E, 0, 0, 1] ++ List.replicate 6 2 ++ [0x08, 0x00, 0x45, 0, 0, 46, 0, 0, 0, 0, 64, 17, 0x81, 0xBD, 10, 0, 0, 1, 0xEF, 0, 0, 1,
    0x10, 0, 0x13, 0x8C, 0, 26, 0, 0, 0x80, pt] ++ List.replicate 20 0
def camera : State := { listening with net := { listening.net with entries := [(4, cameraEntry)] } }
theorem witness_Frames_ptMiss : let p := parseFrame ((rtpFrame 97).take 60)
    (rtpFrame 97).length = 64 ∧ accepts camera 0 ((rtpFrame 97).take 60) p = true ∧ p.bad = false ∧ isPtp p = false ∧
    (p.dgram.bind fun d => (flowFor camera 0 d).map fun e => (e.1, flowKind e.2, leAt d.payload 0 1, d.payload.length, leAt d.payload 1 1 % 128, flowPt e.2))
      = some (4, 1, 0x80, 18, 97, 96) ∧ accessWaits camera (flowMaster camera cameraEntry) = false := by decide
/-- A send entry for canvas 0 on port 0, RGB of 8 bits, 384 bytes a packet; two lines of its frame have left the encoder. -/
def sendEntry : List Byte := [0xEF, 0, 0, 1] ++ List.replicate 28 0 ++ [0x8C, 0x13, 0, 0, 0, 0, 3, 1, 0, 0, 0, 0, 0, 0, 96, 3] ++ List.replicate 6 0 ++
  [2, 0, 0, 0, 0, 1, 0x80, 1, 0, 64]
def sending : State := { wr (wr wall F.NET_MAC_CTRL_EN 0 0 1) F.NET_MAC_STATUS_LINK_UP 0 0 1 with net := { wall.net with
  entries := [(0, sendEntry)], runs := [(0, { sending := [{ height := 16, lines := [List.replicate 384 1, List.replicate 384 2] }], sent := 1 })] } }
theorem witness_Frames_send : let e := flowEntry sending 0
    let r := runOf sending 0
    let f := r.sending.headD {}
    flowValid e = true ∧ flowKind e = 3 ∧ macUp sending (sendPort e) = true ∧ r.sending = [f] ∧
    ∀ p ∈ sendPieces (flowFlag e 6) (flowWidth e) (f.lines.headD []).length f.height r.sent, p.1 < f.lines.length := by decide +kernel
theorem witness_Frames_linkDown : let s := wr0 (wr0 linkedUp F.PTP_CTRL_ALT_EN 1) F.PTP_CTRL_ALT_PORT 1
    rd s F.NET_MAC_STATUS_LINK_UP 0 = 1 ∧ rd s F.PTP_CTRL_ALT_EN = 1 ∧ rd s F.PTP_CTRL_PORT = 0 ∧ rd s F.PTP_STATE_PORT_ACTIVE = 0 ∧
    rd s F.PTP_CTRL_ALT_PORT = 1 ∧ rd s F.NET_MAC_STATUS_LINK_UP 1 = 1 := by decide
theorem witness_Frames_linkUp : let s := wr0 (wrReg (wr (ready State.reset) F.NET_MAC_CTRL_EN 0 0 1) R.LANE_QUAD_USE 0 0 3) F.LANE_QUAD_COMMIT_LOCKED 1
    let s := { s with lane := [(0, { pll := true })] }
    ethQuad s 0 = some 0 ∧ rd s F.NET_MAC_CTRL_EN 0 = 1 ∧ (s.lane.get 0 {}).pll = true ∧ rd s F.NET_MAC_STATUS_LINK_UP 0 = 0 ∧
    testSet s 0 = false := by decide

/-! LandingOfReceiverFrames -/

/-- Quad 0 is a trained receiver that feeds context 5, which lands 128 × 1 RGB frames of source 57. -/
def receiving : State :=
  let s := wr0 (wrReg (ready pooled) R.LANE_QUAD_USE 0 0 2) F.LANE_QUAD_COMMIT_LOCKED 1
  let s := setDesc (wr s F.LANE_DPRX_STATUS_TRAINED 0 0 1) 9 { bound := true, pool := 3, base := 0x8000 }
  setCtx s 5 { land := some { en := true, input := 0, quad := 0, inW := 128, inH := 1, landSrc := 57, wdog := 100 } }
def landedFrame : Frame := { format := 5, width := 128, height := 1, source := 57 }
def landing (lines : Nat) (rows : List Nat) : State :=
  setDesc (updCtx receiving 5 fun x => { x with landing := some { quad := some 0, desc := some 9, lines := lines, rows := rows, frame := landedFrame } }) 9 { bound := true, pool := 3, base := 0x8000, st := .filling }
theorem witness_Landing_start : quadUse receiving 0 = 2 ∧ rd receiving F.LANE_DPRX_STATUS_TRAINED 0 = 1 ∧ landingOf receiving 0 = none ∧
    quadContext receiving 0 = some 5 ∧ (nextLand (ctxOf receiving 5) (sluCyc receiving)).isSome = true ∧ (ctxOf receiving 5).landing = none ∧
    (matchPool receiving 5 128 1).bind (freeIn receiving) = some 9 := by decide
theorem witness_Landing_noBuffer : let s := setDesc receiving 9 { bound := true, pool := 3, st := .current }
    quadContext s 0 = some 5 ∧ (matchPool s 5 128 1).bind (freeIn s) = none := by decide
theorem witness_Landing_line : landingOf (landing 0 []) 0 = some 5 ∧ landingOf (landing 1 [0]) 0 = some 5 ∧
    ((ctxOf (landing 0 []) 5).landing.map fun l => (l.desc, l.lines < l.frame.height)) = some (some 9, True) ∧
    accessWaits (landing 0 []) 54 = false := by
  refine ⟨by decide, by decide, ?_, by decide⟩
  simp [landing, landedFrame, ctxOf, updCtx, setCtx, setDesc, receiving]
theorem witness_Landing_noBuffer_end : let s := updCtx (landing 0 []) 5 fun x => { x with landing := x.landing.map fun l => { l with desc := none } }
    landingOf s 0 = some 5 ∧ ((ctxOf s 5).landing.map fun l => l.desc) = some none := by decide
theorem witness_Landing_end : ([0, 1, 2].map fun n => (landingOf (landing n []) 0, (ctxOf (landing n []) 5).landing.map fun l => (l.lines, l.desc))) =
      [(some 5, some (0, some 9)), (some 5, some (1, some 9)), (some 5, some (2, some 9))] ∧
    (descOf (landing 0 []) 9).st = .filling ∧ (ctxOf (landing 0 []) 5).job = none := by decide
theorem witness_Landing_watchdog : let s := { receiving with time := { receiving.time with cyc := 62500000 } }
    wdogMs (ctxOf s 5) = 100 ∧ (ctxOf s 5).wdogFrom + msCyc (wdogMs (ctxOf s 5)) ≤ s.time.cyc ∧ (ctxOf s 5).landing = none := by decide
theorem witness_Landing_watchdog_frame : let s := { landing 0 [] with time := { (landing 0 []).time with cyc := 62500000 } }
    (ctxOf s 5).wdogFrom + msCyc (wdogMs (ctxOf s 5)) ≤ s.time.cyc ∧ (ctxOf s 5).landing.isSome = true ∧ (descOf s 9).st = .filling := by decide

/-! SluiceJobsAndStripes -/

def thumb : CtxSet := { en := true, input := 2, parentSrc := 57, cropW := 16, cropH := 16, deadline := 4000,
                        outs := [{ on := true, src := 58, format := 4, rgb := true, cropW := 16, cropH := 16, width := 16, height := 16 }] }
/-- Source 57 is current in buffer 9, with its context 5 due a job, and buffer 10 free. -/
def parented : State :=
  let s := setDesc (ready pooled) 9 { bound := true, pool := 3, base := 0x8000, st := .current, source := 57, seq := 4,
                                      frame := { format := 5, width := 16, height := 16, source := 57, seq := 4 } }
  let s := setSrc (setDesc s 10 { bound := true, pool := 3, base := 0x10000 }) 57 { st := .bound, owner := .host, cur := some 9 }
  setCtx s 5 { pipe := some thumb, due := some (9, 4, false) }
/-- Its record header passes. -/
def parentedOk : State :=
  let d := descOf parented 9
  { parented with mem := Memory.writeBytes [] (recordAddr (placeIn parented 9 d.frame)) (withSum (headerBody parented.straps.device 0 57 4 0 0x8000 d.frame)) }
def jobbed (k n : Nat) : State :=
  setDesc (updCtx parentedOk 5 fun x => { x with job := some { parent := leaseOf parented 9, n := n, k := k, pipe := some 1, outs := [(0, 10)], set := thumb } })
    10 { bound := true, pool := 3, base := 0x10000, st := .filling }
theorem witness_SluiceJobs_release : releasable parentedOk 5 = some (9, 4, false) ∧ (ctxOf parentedOk 5).job = none ∧
    parentThere parentedOk thumb 9 4 false = true ∧ parentThere parentedOk thumb 9 5 false = false ∧ (takeOuts parentedOk (enabledOuts thumb)).2 = some [(0, 10)] ∧
    accessWaits parentedOk 55 = false := by decide
theorem witness_SluiceJobs_header : (readHeader parentedOk 55 (leaseOf parentedOk 9)).2.1 = true ∧ (readHeader parented 55 (leaseOf parented 9)).2.1 = false := by decide +kernel
theorem witness_SluiceJobs_noBuffer : (takeOuts (setDesc parentedOk 10 {}) (enabledOuts thumb)).2 = none := by decide
theorem witness_SluiceJobs_none : releasable State.reset 5 = none := by decide
theorem witness_SluiceJobs_pending : releasable (jobbed 0 1) 5 = some (9, 4, false) ∧ (ctxOf (jobbed 0 1) 5).job.isSome = true := by decide
/-- Before the first SLU cycle no deadline has passed. -/
theorem notOverdue (s : State) (h : s.time.cyc = 0) : ∀ k, overdue s k = false := by
  intro k
  cases hj : (ctxOf s k).job <;> simp [overdue, sluCyc, h, hj]
theorem witness_SluiceJobs_notOverdue : (∀ k, overdue (jobbed 0 1) k = false) ∧ ∀ k, overdue parentedOk k = false :=
  ⟨notOverdue _ (by decide), notOverdue _ (by decide)⟩
theorem witness_SluiceJobs_both : let s := updCtx (jobbed 0 1) 5 fun x => { x with job := x.job.map fun j => { j with pipe := none } }
    running s 0 = none ∧ nextStripe s = some 5 := by decide +kernel
theorem witness_SluiceJobs_start : let s := updCtx (jobbed 0 1) 5 fun x => { x with job := x.job.map fun j => { j with pipe := none } }
    let s := setCtx s 6 { job := some { pipe := some 0 } }
    running s 1 = none ∧ (running s 0).isSome = true ∧ nextStripe s = some 5 := by decide +kernel
theorem witness_SluiceJobs_end : running (jobbed 0 1) 1 = some 5 ∧ accessWaits (jobbed 0 1) 56 = false ∧ (ctxOf (jobbed 0 1) 5).next = none ∧
    (stripeTiles (jobbed 0 1) ((ctxOf (jobbed 0 1) 5).job.getD {}) 56).2.1 = false := by decide +kernel
theorem witness_SluiceJobs_drop : let s := { jobbed 0 2 with time := { (jobbed 0 2).time with cyc := 2000000 } }
    (ctxOf s 5).job.map (fun j => (j.k, j.n, decide (deadlineAt j j.k < sluCyc s))) = some (0, 2, true) ∧ (ctxOf s 5).next = none := by decide

/-! SluiceApply -/

def applying (set : CtxSet) (x : Context) : State :=
  let s := setCtx (wr0 (wr0 (ready State.reset) F.EAS_SRC_WINDOW_COUNT 4095) F.SLU_APPLY_STATUS_BUSY 1) 5 x
  { s with slu := { s.slu with apply := some (5, set) } }
theorem witness_SluiceApply_write : rd State.reset F.SLU_APPLY_STATUS_BUSY = 0 ∧ rd (applying thumb {}) F.SLU_APPLY_STATUS_BUSY = 1 := by decide
theorem witness_SluiceApply_refused : setRefusal (applying { thumb with deadline := 0 } {}) 5 { thumb with deadline := 0 } = some (1, 7, 0) := by decide
theorem witness_SluiceApply_accepted : setRefusal (applying { thumb with input := 1, wdog := 5 } { land := some thumb }) 5 { thumb with input := 1, wdog := 5 } = none ∧
    setRefusal (applying thumb {}) 5 thumb = none ∧ setRefusal (applying { thumb with en := false } {}) 5 { thumb with en := false } = none ∧ (ctxOf (applying thumb { land := some thumb }) 5).land.any (·.en) = true := by decide +kernel

/-! DecoderCommands -/

/-- Stream 3 staged as an H.264 stream of 1920 × 1080 at 15 Hz for source 57. -/
def stagedCamera : State :=
  let s := wr0 (ready State.reset) F.EAS_SRC_WINDOW_COUNT 4095
  let s := wr (wr s F.VDC_STR_CFG_DPB_MAX 3 0 4) F.VDC_STR_CFG_SRC 3 0 57
  let s := wr (wr s F.VDC_STR_GEOM_MAX_WIDTH 3 0 1920) F.VDC_STR_GEOM_MAX_HEIGHT 3 0 1080
  let s := wr (wr s F.VDC_STR_RATE_MAX_FPS 3 0 15) F.VDC_STR_RATE_MAX_KBPS 3 0 4000
  wr (wr s F.VDC_STR_SIZE_SYM_SIZE 3 0 64) F.VDC_STR_SIZE_AU_MIB 3 0 5
def decoding (s : State) (op : Nat) : State := { s with vdc := { s.vdc with op := some (op, 3) } }
def admittedCamera : State := setStr stagedCamera 3 { stagedStream stagedCamera 3 with waitRap := false, fresh := false }
theorem witness_Decoder_idle : rd State.reset F.VDC_STATUS_BUSY = 0 ∧ rd (wr0 State.reset F.VDC_STATUS_BUSY 1) F.VDC_STATUS_BUSY = 1 := by decide
theorem witness_Decoder_admit : vdcRefusal (decoding stagedCamera 1) 1 3 = none ∧ vdcRefusal (decoding admittedCamera 1) 1 3 = some (7, 0, 0) ∧
    vdcRefusal (decoding stagedCamera 2) 2 3 = some (8, 0, 0) ∧ vdcRefusal (decoding State.reset 1) 1 3 = some (1, 0, 2) := by decide +kernel
theorem witness_Decoder_remove : vdcRefusal (decoding admittedCamera 2) 2 3 = none := by decide
theorem witness_Decoder_inject : vdcRefusal (decoding (wr admittedCamera F.VDC_STR_PSET_LEN_LEN 3 0 8) 3) 3 3 = none ∧
    (readPsets (decoding (wr admittedCamera F.VDC_STR_PSET_LEN_LEN 3 0 8) 3) 3).2 = none ∧ accessWaits admittedCamera 64 = false := by decide +kernel

/-! DecoderPictures -/

def cameraUnit : AccessUnit := { nals := [[0x65, 1, 2]], arrival := 9 }
def tinySps : SpsInfo := { codedW := 16, codedH := 16, dpb := some 1 }
def withUnit (f : Stream → Stream) : State :=
  let s := updStr admittedCamera 3 fun x => f { x with dpbMax := 16 }
  { s with eas := { s.eas with pools := [(2, { format := 1, width := 16, height := 16 })], descs := [(4, { bound := true, pool := 2, base := 0x4000 })] } }
def unitQueued : State := withUnit fun x => { x with queue := [cameraUnit] }
def unitParsing : State := withUnit fun x => { x with parsing := some cameraUnit }
def picWaiting : State := withUnit fun x => { x with waiting := [{ au := cameraUnit, sps := tinySps }] }
def picRecon : State := updDesc (withUnit fun x => { x with recon := some ({ au := cameraUnit, sps := tinySps, desc := 4 }, 0) }) 4 fun d => { d with st := .filling }
theorem witness_DecoderPictures_start : (admittedStr unitQueued).any (fun x => x.2.engine == 0 && x.2.parsing.isSome) = false ∧
    earliest (entropyReady unitQueued 0) (fun n => ((strOf unitQueued n).queue.head?.map (·.arrival)).getD 0) = some 3 := by decide +kernel
theorem witness_DecoderPictures_parsed : (admittedStr unitParsing).find? (fun x => x.2.engine == 0 && x.2.parsing.isSome) = some (3, strOf unitParsing 3) ∧
    (strOf unitParsing 3).parsing = some cameraUnit ∧ spsCause (strOf unitParsing 3) tinySps = 0 ∧ spsCause (strOf unitParsing 3) { tinySps with level := 255 } = 2 ∧
    (strOf unitParsing 3).waitRap = false ∧ (strOf unitParsing 3).unsup = false ∧ (strOf unitParsing 3).dropRasl = false ∧
    (slices 0 cameraUnit).isEmpty = false ∧ isRap 0 { cameraUnit with nals := [[0x41, 1]] } = false := by decide +kernel
theorem witness_DecoderPictures_pixel : (admittedStr picWaiting).any (fun x => x.2.recon.any fun r => r.2 == 0) = false ∧
    earliest (pixelReady picWaiting) (fun n => ((strOf picWaiting n).waiting.head?.map (·.au.arrival)).getD 0) = some 3 ∧
    (matchPool picWaiting 1 16 16).bind (freeIn picWaiting) = some 4 ∧ (matchPool picRecon 1 16 16).bind (freeIn picRecon) = none := by decide +kernel
theorem witness_DecoderPictures_recon : (admittedStr picRecon).find? (fun x => x.2.recon.any fun r => r.2 == 0) = some (3, strOf picRecon 3) ∧
    (strOf picRecon 3).recon.isSome = true ∧ accessWaits picRecon 68 = false ∧ (strOf picRecon 3).done = [] ∧ reorderLimit tinySps = 0 ∧ reorderLimit { tinySps with reorder := some 1 } = 1 := by decide +kernel

/-! EncoderSessions -/

/-- Session 0 staged as H.264 CQP on canvas 0 of 128 × 16. -/
def stagedSes : State :=
  let s := wr (wr wall F.VEN_SES_CFG_MODE 0 0 2) F.VEN_SES_CFG_LEVEL 0 0 52
  let s := wr (wr (wr s F.VEN_SES_RATE_KBPS 0 0 4000) F.VEN_SES_CPB_CPB_KBIT 0 0 1000) F.VEN_SES_PIC_MAX_PIC_MAX_KBIT 0 0 1000
  let s := wr (wr s F.VEN_SES_OUT_ADDR_ADDR 0 0 0x100000) F.VEN_SES_OUT_ADDR_OUT_MIB 0 0 1
  wr (wr (wr s F.CNV_GAL_PLL_N 0 0 10) F.CNV_GAL_PLL_M 0 0 10) F.CNV_GAL_HV_HTOTAL 0 0 500
def venOp (s : State) (op : Nat) : State := { s with ven := { s.ven with op := some (op, 0) } }
def encSession : Session := { stagedSession stagedSes 0 with first := true }
def encoding (f : Session → Session) : State := setDesc (setSes stagedSes 0 (f encSession)) 6 { bound := true, pool := 0, base := 0x40000, st := .current, leases := 1, frame := { width := 64, height := 64 } }
theorem witness_Encoder_idle : rd State.reset F.VEN_STATUS_BUSY = 0 ∧ rd (wr0 State.reset F.VEN_STATUS_BUSY 1) F.VEN_STATUS_BUSY = 1 := by decide
theorem witness_Encoder_done : venRefusal (venOp stagedSes 1) 1 0 = none ∧ venRefusal (venOp stagedSes 2) 2 0 = some (7, 0, 0) ∧
    venRefusal (venOp (encoding id) 2) 2 0 = none ∧ venRefusal (venOp (encoding id) 3) 3 0 = none := by decide +kernel
theorem witness_Encoder_lease : let s := venOp (encoding fun x => { x with coding := some { desc := 6 } }) 2
    (sesOf s 0).coding.isSome = true ∧ (sesOf s 0).waiting = none ∧ (descOf s 6).leases = 1 := by decide +kernel

/-! EncoderPictures -/

theorem witness_EncoderPictures_start : let s := encoding fun x => { x with waiting := some (1, { desc := 6 }) }
    encoderBusy s = false ∧ nextWaiting s = some 0 ∧ (sesOf s 0).waiting.isSome = true ∧ accessWaits s 72 = false := by decide +kernel
theorem witness_EncoderPictures_row : let s := encoding fun x => { x with coding := some { desc := 6, rows := 1, cap := 1000, floorBits := 176 } }
    (codingSession s).map (fun x => (x.1, x.2.row, x.2.rows, x.2.floored)) = some (0, 0, 1, false) ∧
    ((codedTileRows (sesOf s 0).codec (sesOf s 0).height 0).map fun r => rowTiles (wbPlace s 6) r).flatten ≠ [] ∧ accessWaits s 72 = false := by decide +kernel
theorem witness_EncoderPictures_done : let s := encoding fun x => { x with coding := some { desc := 6, rows := 1, row := 1 } }
    (sesOf s 0).ready = none ∧ (codingSession s).map (fun x => (x.1, decide (x.2.rows ≤ x.2.row))) = some (0, true) := by decide +kernel
theorem witness_EncoderPictures_written : (sesOf (encoding fun x => { x with ready := some ({}, some 0) }) 0).ready = some ({}, some 0) ∧
    (sesOf (encoding id) 0).mib = 1 ∧ ringPlace (2 ^ 20) 0 0 64 = some 0 ∧ ringPlace (2 ^ 20) 0 64 64 = none ∧
    ringPlace (2 ^ 20) (2 ^ 20 - 64) 4096 128 = some 64 ∧ accessWaits (encoding id) 72 = false := by decide +kernel

/-! GalleriesCanvasesAndEngines -/

/-- Gallery 0 with valid timing of 64 active lines and 20 of blanking, and canvas 0 of 128 pixels a line. -/
def timed : State :=
  let s := wr (wr (ready State.reset) F.CNV_GAL_PLL_N 0 0 1) F.CNV_GAL_PLL_M 0 0 10
  let s := wr (wr s F.CNV_GAL_HV_HTOTAL 0 0 1000) F.CNV_GAL_HV_VACT 0 0 64
  let s := wr (wr (wr s F.CNV_GAL_VB_VBLANK_MIN 0 0 20) F.CNV_GAL_VB_VBLANK_MAX 0 0 20) F.CNV_GAL_VB_LATCH_GUARD 0 0 2
  let s := wr (wr s F.CNV_GAL_VSYNC_VSYNC_LEN 0 0 2) F.CNV_GAL_VSYNC_VBACK 0 0 2
  wr (wr (wr s F.CNV_H_HACT 0 0 128) F.CNV_H_HFP 0 0 16) F.CNV_HSYNC_HSYNC_LEN 0 0 16
theorem witness_Galleries_gallery : rd timed F.CNV_GAL_CTRL_EN = 0 ∧ gallerySize timed 0 = false ∧ (galleryCode timed 0).1 = 0 ∧
    (galleryCode State.reset 0).1 = 1 ∧ rd (wr0 timed F.CNV_GAL_CTRL_EN 1) F.CNV_GAL_CTRL_EN = 1 := by decide +kernel
theorem witness_Galleries_canvas : rd timed F.CNV_CTRL_EN = 0 ∧ rd timed F.CNV_STATUS_ACTIVE = 0 ∧
    (let s1 := wrReg timed R.CNV_CTRL 0 0 (setBits (regAfter timed R.CNV_CTRL 0 0 1 0xFFFFFFFF) 0 1 0); gallerySize s1 0 = false ∧ canvasCode s1 0 = 0) ∧
    gallerySize State.reset 0 = true ∧ rd (wr0 timed F.CNV_CTRL_EN 1) F.CNV_CTRL_EN = 1 := by decide +kernel
theorem witness_Galleries_engine : onEngine State.reset 0 0 = 3 ∧ onEngine State.reset 0 1 = 4 ∧ rd State.reset F.CNV_CTRL_EN = 0 := by decide +kernel

/-! LinesAndLatches -/

/-- Gallery 0 runs, at line `n` of its first frame, with canvas 0 enabled and canvas 1 still ACTIVE. -/
def running0 (n : Nat) (due : Bool) : State :=
  setGal (wr (wr0 (wr0 timed F.CNV_GAL_CTRL_EN 1) F.CNV_CTRL_EN 1) F.CNV_STATUS_ACTIVE 1 0 1) 0 { locked := true, line := n, latchDue := due }
theorem witness_Lines_stopped : rd State.reset F.CNV_GAL_CTRL_EN 0 = 0 := by decide
theorem witness_Lines_run : rd (running0 65 false) F.CNV_GAL_CTRL_EN 0 = 1 ∧ (galOf (running0 65 false) 0).locked = true ∧
    nextLine (running0 65 false) 0 = (66, false) ∧ rd (running0 65 false) F.CNV_GAL_HV_VACT 0 + rd (running0 65 false) F.CNV_GAL_VB_LATCH_GUARD 0 = 66 ∧
    lastLatch (running0 65 false) 0 = 2 ∧ nextLine (running0 3 false) 0 = (4, false) ∧
    nextLine (updGal (running0 83 false) 0 fun x => { x with latched := true, latchLine := 2 }) 0 = (0, true) := by decide
theorem witness_Lines_latch : (galOf (running0 66 true) 0).latchDue = true ∧ paired (running0 66 true) 0 = false ∧ (galOf (running0 66 true) 0).pend = none ∧
    (canvasesOf (running0 66 true) 0).contains 0 = true ∧ rd (running0 66 true) F.CNV_CTRL_EN 0 = 1 ∧ (cnvOf (running0 66 true) 0).armed = false ∧
    (canvasesOf (running0 66 true) 0).contains 1 = true ∧ rd (running0 66 true) F.CNV_STATUS_ACTIVE 1 = 1 ∧ rd (running0 66 true) F.CNV_CTRL_EN 1 = 0 := by decide
theorem witness_Lines_after : (galOf (setGal State.reset 0 { stateDue := true, ackDue := true }) 0).stateDue = true ∧
    (galOf State.reset 0).stateDue = false ∧ (galOf State.reset 0).hitDue = none := by decide
theorem witness_Lines_hit : (galOf (updGal { timed with time := { timed.time with cyc := 1000 } } 0 fun x => { x with hitDue := some 0 }) 0).hitDue = some 0 ∧
    12 * rd timed F.CNV_GAL_PLL_M 0 + 3 * rd timed F.CNV_GAL_PLL_N 0 ≤
      (seqCyc { timed with time := { timed.time with cyc := 1000 } } - 0) * rd timed F.CNV_GAL_PLL_N 0 ∧
    (∀ c ∈ canvasesOf timed 0, (cnvOf timed c).wb = none) := by decide +kernel
theorem witness_Lines_held : (cnvOf (updCnv wall 0 fun x => { x with held := [(4, [9])] }) 0).held = [(4, [9])] ∧
    (wall.eas.layers.any fun e => e.2.desc.canvas == 0 && !e.2.fetch.isEmpty) = false := by decide

/-! FlatteningAndWriteBack -/

def mapFrame : Frame := { format := 5, width := 128, height := 16, source := 7, seq := 9 }
/-- Layer 5 is static and shown; its source 7 is current in buffer 9; a flatten of canvas 0 waits. -/
def varnished : State :=
  let s := updLay wall 5 fun x => { x with desc := { x.desc with static := true } }
  let s := setDesc (setSrc s 7 { st := .bound, cur := some 9 }) 9 { bound := true, pool := 0, base := 0x1000, st := .current, source := 7, seq := 9, frame := mapFrame }
  updCnv s 0 fun x => { x with trigger := some (true, 0), cfg := 0x10250 }
def flattening (failed : Bool) : State := updCnv varnished 0 fun x => { x with trigger := none, flat := some { leases := [(5, leaseOf varnished 9)], failed := failed } }
theorem witness_Flatten_start : flattenNext varnished 0 = true ∧ planeLayers varnished 0 = ([5], []) ∧ (srcOf varnished 7).cur.isSome = true ∧
    flattenNext wall 0 = false := by decide +kernel
theorem witness_Flatten_empty : let s := updLay varnished 5 fun x => { x with desc := { x.desc with static := false } }
    flattenNext s 0 = true ∧ planeLayers s 0 = ([], []) := by decide +kernel
theorem witness_Flatten_done : ∀ b, (cnvOf (flattening b) 0).flat.isSome = true ∧ accessWaits (flattening b) (engineMaster (flattening b) 0) = false := by decide
theorem witness_WriteBack : let s := setDesc (setDesc (updCnv wall 0 fun x => { x with wb := some { desc := 3, frame := 8, done := 64 }, wbCur := some { desc := 4 } })
      3 { bound := true, st := .filling }) 4 { bound := true, st := .current }
    (cnvOf s 0).wb.map (fun w => decide (canvasH s 0 ≤ w.done)) = some true ∧ heldBuf (descOf s 4) = false ∧ (descOf s 4).ownerHost = false ∧ (sesOf s 0).waiting = none ∧
    accessWaits s (88 + engineOf s 0) = false := by decide

/-! WeirLevelsEmptyFifoAndGlass -/

/-- Canvas 0 is on running gallery 0 with Weir levels 2, 6 and 16 and a level of 30. -/
def weired : State :=
  let s := wr (wr (wr (running0 3 false) F.CNV_STATUS_ACTIVE 0 0 1) F.CNV_WEIR_UNDER 0 0 2) F.CNV_WEIR_PANIC 0 0 6
  wr (wr (wr s F.CNV_WEIR_LOW 0 0 16) F.CNV_STATUS_LEVEL 0 0 30) F.CNV_STATUS_GESSO 0 0 0
theorem witness_Weir_levels : onCanvas weired 0 = true ∧ (galOf weired (galleryOf weired 0)).locked = true ∧ rd weired F.CNV_STATUS_QOS_UP = 0 ∧
    rd weired F.CNV_STATUS_PANIC_UP = 0 ∧ rd weired F.CNV_STATUS_LEVEL = 30 ∧ rd weired F.CNV_WEIR_UNDER = 2 ∧
    rd weired F.CNV_WEIR_PANIC = 6 ∧ rd weired F.CNV_WEIR_LOW = 16 ∧ (galOf weired (galleryOf weired 0)).line < rd weired F.CNV_GAL_HV_VACT (galleryOf weired 0) ∧
    needsFifo weired 0 = true ∧ rd weired F.CNV_STATUS_GESSO = 0 ∧ (weired.tnd.cnvs.get 0 {}).stream = 0 ∧ onCanvas State.reset 0 = false ∧ (cnvOf weired 0).weirDue = none ∧
    rd weired F.CNV_GAL_HV_VACT ≤ (galOf (updGal weired 0 fun x => { x with line := 1000 }) 0).line := by decide +kernel
theorem witness_Weir_raised : nextRd (execWeirLevelCrossing 0 17 0 (wr weired F.CNV_STATUS_QOS_UP 0 0 1)) F.CNV_STATUS_QOS_UP = some 1 ∧
    nextRd (execWeirLevelCrossing 0 18 0 (wr weired F.CNV_STATUS_QOS_UP 0 0 1)) F.CNV_STATUS_QOS_UP = some 0 := by decide +kernel
/-- The same canvas drives a trained DisplayPort transmitter, and its Glass check runs. -/
def glassed : State :=
  updCnv (wr (wr weired F.CNV_CTRL_OUT_KIND 0 0 1) F.LANE_DPTX_STATUS_STATE 0 0 2) 0 fun x => { x with glassOn := true, dark := false, glassRefs := [[5], [6], [7], [8]] }
theorem witness_Weir_glass : (cnvOf glassed 0).glassOn = true ∧ glassRuns glassed 0 = true ∧ (cnvOf glassed 0).glassRows = 0 ∧
    tileRows (canvasH glassed 0) = 4 ∧ tilesPerRow (canvasW glassed 0) = 1 ∧ (cnvOf glassed 0).glassRefs.getD 0 [] = [5] ∧ glassed.cmp.proof = none ∧ (cnvOf glassed 0).glassBad = false := by decide +kernel

/-! EvaluationsDeadlinesAndProofs -/

/-- Layer 1 is committed and shown on canvas 0 of running gallery 0. -/
def shownLayer : State :=
  updLay weired 1 fun x => { x with committed := true, gallery := 0, verdict := .live, desc := { x.desc with shown := true, canvas := 0, dstW := 64, dstH := 64 } }
theorem witness_Evaluations_row : rowBoundary (updGal weired 0 fun x => { x with line := 16 }) 0 3 = true ∧ (galOf weired 0).rowDone ≤ 3 ∧ weired.pwr.bist = none ∧ weired.pwr.phase = .main ∧
    rowBoundary weired 0 3 = false ∧ rd weired F.CNV_GAL_CTRL_EN = 1 ∧ (galOf weired 0).locked = true ∧ rowAfterLatch weired 0 3 = true ∧
    3 < tileRows (rd weired F.CNV_GAL_HV_VACT) ∧ rowAfterLatch weired 0 0 = false := by decide +kernel
theorem witness_Evaluations_deadline : (layOf shownLayer 1).committed = true ∧ (layOf shownLayer 1).desc.shown = true ∧
    (layOf shownLayer 1).desc.static = false ∧ slice (2000 * 2 ^ 10 + 100 * 2 ^ 21) 10 11 = 2000 ∧ slice (2000 * 2 ^ 10 + 100 * 2 ^ 21) 21 7 = 100 ∧
    slice (2001 * 2 ^ 10) 10 11 = 2001 ∧ (layOf State.reset 1).committed = false := by decide +kernel
theorem witness_Evaluations_proof : (2 ^ 31 + 1).testBit 31 = true ∧ proofRefusal shownLayer 1 0 0 = 0 ∧ proofRefusal shownLayer 1 0 4 = 4 ∧
    proofRefusal shownLayer 2 0 0 = 2 ∧ shownLayer.cmp.proof = none ∧ shownLayer.pwr.phase = .main ∧ State.reset.pwr.phase = .off := by
  decide +kernel

/-! CompressionJobsAndCaptures -/

/-- Engine 0 runs with two descriptors of zeros in its ring at 0. -/
def queuedJobs : State := wr (wr (ready State.reset) F.CPR_RING_CFG_EN 0 0 1) F.CPR_TAIL_TAIL 0 0 2
theorem witness_Cpr_ring : 2 ^ rd queuedJobs F.CPR_RING_CFG_LOG2 = 16 ∧ rd queuedJobs F.CPR_HEAD_HEAD = 0 ∧ rd queuedJobs F.CPR_TAIL_TAIL = 2 ∧
    queuedJobs.cpr.jobs.find 0 = none ∧ queuedJobs.cpr.queued = none ∧ rd queuedJobs F.CPR_RING_CFG_EN = 1 ∧
    rd State.reset F.CPR_RING_CFG_EN = 0 ∧ accessWaits queuedJobs 48 = false ∧ accessWaits (wr0 queuedJobs F.DMC_GSTATUS_FREQ_BUSY 1) 48 = true := by decide +kernel
theorem witness_Cpr_refused : (let r := busRead queuedJobs 48 0 64; (r.2.1, cprRefusal r.1 r.2.2)) = (0, some (1, 4)) := by decide +kernel
/-- The bytes of a COMPRESS descriptor of 32 bytes at 0x1000 into 64 bytes at 0x2000. -/
def goodJob : List Byte := [1, 0, 0, 0] ++ leBytes 32 4 ++ leBytes 0x1000 8 ++ leBytes 0x2000 8 ++ leBytes 64 4 ++ leBytes 0 4 ++ leBytes 0x10000 8 ++
  List.replicate 24 0
theorem witness_Cpr_accepted : cprRefusal queuedJobs goodJob = none ∧
    (let s := { queuedJobs with mem := Memory.writeBytes [] 0 goodJob }; (busRead s 48 0 64).2 = (0, goodJob) ∧
      (cprOpen (busRead s 48 0 64).1 0 goodJob).2 = (0, none)) := by decide +kernel
theorem witness_Cpr_resume : cprRefusal queuedJobs (goodJob.set 1 4) = none ∧ cprHeld queuedJobs [] = none ∧
    (cprResume queuedJobs (goodJob.set 1 4) []) = none := by decide +kernel
theorem witness_Cpr_end : ({ queuedJobs with cpr := { jobs := [(0, { addr := 0, desc := goodJob })] } } : State).cpr.jobs.find 0 =
    some { addr := 0, desc := goodJob } ∧ Map.wf [(0, ({ addr := 0, desc := goodJob } : CprJob))] = true := by decide
/-- Canvas 0 of 128 by 64 has a write-back frame in buffer 3 of a pool of format 0x5, and 1 MiB of evidence area. -/
def capturable : State :=
  let s := updCnv timed 0 fun x => { x with wbCur := some { desc := 3, frame := 8 } }
  let s := setDesc s 3 { bound := true, st := .current, base := 0x1000, frame := { width := 128, height := 64 } }
  wr0 (wr s F.CMP_CNV_CFG_WB_EN 0 0 1) F.JNL_EVID_BASE_EVID_MIB 1
theorem witness_Evid_start : (cnvOf capturable 0).wbCur = some { desc := 3, frame := 8 } ∧ rd capturable F.CMP_CNV_CFG_WB_EN = 1 ∧
    capturable.jnl.evid = none ∧ evidReserve (evidLength (wbPlace capturable 3)) ≤ evidFree capturable ∧
    evidFree (wr0 capturable F.JNL_EVID_BASE_EVID_MIB 0) = 0 := by decide +kernel
theorem witness_Evid_done : ({ capturable with cpr := { jobs := [(0, { evid := true })] }, jnl := { evid := some { desc := 3 } } } : State).cpr.jobs.find?
    (fun j => j.2.evid) = some (0, { evid := true }) ∧ accessWaits capturable 48 = false := by decide +kernel

/-! JournalEntries -/

/-- The Journal drains to 1 MiB at 0, with one entry staged. -/
def journaled : State :=
  let s := wr0 (wr0 (ready State.reset) F.JNL_CTRL_EN 1) F.JNL_CTRL_RING_MIB 1
  { s with jnl := { s.jnl with next := 1, staging := [(0, [5])] } }
theorem witness_Journal_request :
    let s := askJournal (askJournal journaled rankHost 0x70 []) rankPtp 0x20 []
    (nextRequest false s.jnl.asked).map (·.ty) = some 0x20 ∧ s.jnl.queue.length < 256 ∧ nextRequest true [] = none := by decide +kernel
theorem witness_Journal_waits : nextRequest true (askJournal journaled rankHost 0x70 []).jnl.asked = none := by decide +kernel
theorem witness_Journal_append : ({ journaled with jnl := { journaled.jnl with owed := [[1]] } } : State).jnl.owed = [[1]] ∧ journaled.jnl.lost = 0 ∧
    journaled.jnl.owed = [] ∧ journaled.jnl.queue = [] ∧ journaled.jnl.next < journaled.jnl.drain + 2048 ∧ journaled.jnl.room = false := by decide
theorem witness_Journal_drain : draining journaled = true ∧ journaled.jnl.drain < journaled.jnl.next ∧ draining State.reset = false ∧
    journaled.jnl.ring.find 0 = none ∧ accessWaits journaled 50 = false := by decide +kernel
theorem witness_Journal_overwrite : let s := { journaled with jnl := { journaled.jnl with next := 8195, drain := 8193, ring := [(128, 1)] } }
    s.jnl.drain % (rd s F.JNL_CTRL_RING_MIB * 8192) * 128 = 128 ∧ s.jnl.ring.find 128 = some 1 ∧ rdReg s R.JNL_ACK < 1 ∧ draining s = true ∧
    (busWrite s 50 128 (s.jnl.staging.get 1 [])).2 = 0 := by decide +kernel
theorem witness_Journal_host : rd journaled F.JNL_CTRL_EN = 1 ∧ journaled.pwr.phase = .main ∧ State.reset.pwr.phase = .off ∧ rd State.reset F.JNL_CTRL_EN = 0 := by decide +kernel

/-! TandemRecordsAndHeartbeats -/

/-- Gallery 0 is paired over Ndosin port 0, which is LINKED with TANDEM; canvas 0 has joined it. -/
def twinned : State :=
  let s := wr0 (wr0 (wr0 weired F.TND_CTRL_EN 1) F.TND_CTRL_PORTS 1) F.TND_CTRL_GALLERIES 1
  routeCanvas (updTgal (wr (wr (wr s F.LNK_STATUS_STATE 0 0 5) F.LNK_NEG_ON 0 0 0xF) F.CNV_CTRL_EN 0 0 1) 0 fun x => { x with hbDue := true }) 0
/-- The other twin: position B and device 9. -/
def otherTwin : State := { twinned with straps := { twinned.straps with position := !twinned.straps.position, device := (twinned.straps.device + 9) % 64 } }
theorem witness_Tandem_twins : otherTwin.straps.position ≠ twinned.straps.position ∧ otherTwin.straps.device % 64 ≠ twinned.straps.device % 64 ∧
    paired twinned 0 = true ∧ (tgalOf twinned 0).hbDue = true ∧ rd twinned F.TND_CTRL_EN = 1 ∧ tandemPorts twinned = [0] ∧
    (1 : Nat) ∉ tandemPorts twinned := by decide +kernel
theorem witness_Tandem_heartbeat : (parseHeartbeat twinned (withSum (heartbeatBody otherTwin 0))).isSome = true ∧
    rd twinned F.TND_STATUS_PAIRED = 0 ∧ parseHeartbeat twinned [] = none ∧ (tgalOf twinned 0).heard = none ∧
    pairedCanvases twinned = [0] ∧ (cnvOf twinned 0).gesso.engine = false := by decide +kernel
/-- A row record of one tile. -/
def oneTile (crc : Nat) : RowRecord := { canvas := 0, row := 1, frame := 5, epoch := 2, rowSet := 3, crcs := [crc], regions := [] }
theorem witness_Tandem_record : parseRecord (recordBytes (oneTile 7)) = some (oneTile 7) ∧ parseRecord [] = none ∧ rowExists twinned 0 1 = true ∧
    rowExists twinned 0 4 = false ∧ (tcnvOf twinned 0).row = 0 ∧ rowExists twinned 0 0 = true ∧ rowWaits twinned 0 0 = [] ∧ recordMissed twinned (oneTile 7) = false ∧
    recordMissed { twinned with tnd := { twinned.tnd with own := [oneTile 7] } } (oneTile 8) = true ∧ recordLate twinned (oneTile 7) = true ∧ canvasPort twinned 0 = some 0 ∧ canvasPort weired 0 = none ∧ (tcnvOf twinned 0).stream ≠ 1 := by decide +kernel
theorem witness_Tandem_pairs :
    recordPair { twinned with tnd := { twinned.tnd with own := [oneTile 7], twin := [oneTile 8] } } 0 1 = some (oneTile 7, some (oneTile 8)) ∧
    recordPair { twinned with tnd := { twinned.tnd with own := [oneTile 7] } } 0 1 = some (oneTile 7, none) ∧ recordPair twinned 0 1 = none ∧
    firstDifference [7] [8] = some 0 ∧ firstDifference [7] [7] = none := by decide +kernel
theorem witness_Tandem_later : serialLater 16 0 0xFFFF = true ∧ serialLater 16 1 1 = false ∧ claimWins twinned = !twinned.straps.position := by
  decide +kernel

/-! TandemStreamsMirrorsAndResync -/

/-- The twins are paired and PTP is LOCKED; canvas 0 passes the twin's stream. -/
def pairedUp : State :=
  updTcnv (wr0 (wr0 (wr0 twinned F.TND_STATUS_PAIRED 1) F.TND_STATUS_STATE 2) F.PTP_STATE_LOCKED 1) 0 fun x => { x with stream := 1 }
theorem witness_TandemStreams_line : rd pairedUp F.TND_STATUS_PAIRED = 1 ∧ paired pairedUp (galleryOf pairedUp 0) = true ∧ canvasH pairedUp 0 = 64 ∧
    (tcnvOf pairedUp 0).line = 0 ∧ (tcnvOf pairedUp 0).stream = 1 ∧ (tcnvOf pairedUp 0).late = false ∧ rd twinned F.TND_STATUS_PAIRED = 0 := by
  decide +kernel
theorem witness_TandemStreams_mirror : pendingIn pairedUp 0 = false ∧ rd pairedUp F.PTP_STATE_LOCKED = 1 ∧ accessWaits pairedUp 51 = false ∧ accessWaits pairedUp 52 = false ∧
    pendingIn (updGal pairedUp 0 fun x => { x with pend := some { } }) 0 = true := by decide +kernel
def mirrorSlot : List Byte := Memory.readBytes slotted.mem (stagingSlot slotted 0) 128
theorem witness_TandemStreams_slot :
    let u := (busWrite pairedUp 52 (stagingSlot pairedUp 0) (bytesAt mirrorSlot 0 128)).1
    let r := busRead u 51 (stagingSlot u 0) 128
    (layOf pairedUp 0).committed = false ∧ r.2.1 = 0 ∧
      slotBad r.2.2 (rd r.1 F.CMP_CNV_CFG_TRANSFER (parseSlot r.2.2).canvas) (othersShown r.1 (rd r.1 F.CNV_CTRL_GALLERY (parseSlot r.2.2).canvas) (parseSlot r.2.2).canvas 0) = none ∧
      (upto 8).all (fun h => !pendingIn pairedUp h) = true := by
  decide +kernel
theorem witness_TandemStreams_resync : rd pairedUp F.TND_STATUS_STATE ≠ 1 ∧ rd (wr0 pairedUp F.TND_STATUS_STATE 3) F.TND_STATUS_STATE = 3 ∧
    rd (wr0 pairedUp F.TND_STATUS_STATE 1) F.TND_STATUS_STATE = 1 := by decide +kernel

/-! SequencerStartHaltAndStep -/

/-- A program of one add, in a sequencer's instruction memory: version 1, CORE and MULDIV, ENTRY 64. -/
def image : List Byte :=
  let code := leBytes (0x01 * 2 ^ 56 + 3 * 2 ^ 51 + 1 * 2 ^ 46 + 2 * 2 ^ 41) 8
  let h := leBytes 0x5349534B 4 ++ leBytes 1 4 ++ leBytes 3 8 ++ leBytes 8 4 ++ leBytes 64 4 ++ leBytes 0 4 ++ leBytes (crc32c code).toNat 4 ++
    List.replicate 28 0
  h ++ leBytes (crc32c h).toNat 4 ++ code
/-- Sequencer 0 with the program loaded and its header check under way. -/
def loaded : State := setSeq (ready State.reset) 0 { imem := Memory.writeBytes [] 0 image, starting := true }
/-- Sequencer 0 at its add, HALTED, RUNNING or in any other state. -/
def atAdd (r : SeqRun) : State := setSeq loaded 0 { imem := Memory.writeBytes [] 0 image, run := r, pc := 8, codeLen := 8, version := 1, features := 3 }
theorem witness_Seq_start : (seqOf loaded 0).starting = true ∧ headerCheck loaded (seqOf loaded 0) = none ∧ seqBusy (seqOf loaded 0) = false ∧
    headerCheck loaded {} = some (2, none) ∧ seqBusy (seqOf (atAdd .running) 0) = true := by decide +kernel
theorem witness_Seq_version : headerCheck loaded { imem := Memory.writeBytes [] 0 (let h := patchBytes (image.take 60) 4 [3]
    h ++ leBytes (crc32c h).toNat 4) } = some (4, some 3) := by decide +kernel
theorem witness_Seq_step : let q := seqOf (atAdd .halted) 0
    q.run = .halted ∧ q.halting = false ∧ q.read = none ∧ inProgram q = true ∧ slice (fetchWord q) 56 8 = 1 ∧ (fieldsOf (fetchWord q)).fn = 0 ∧
    bitOn q.features 0 = true ∧ q.posted = [] ∧ ksisOp 0 = none := by decide +kernel
theorem witness_Seq_opcode : canIssue (seqOf (atAdd .running) 0) = true ∧ inProgram (seqOf (atAdd .running) 0) = true ∧
    canIssue (seqOf (atAdd .halted) 0) = false ∧ inProgram { seqOf (atAdd .running) 0 with pc := 9 } = false := by decide +kernel
theorem witness_Seq_halting : ({ halting := true } : Seq).read = none ∧ ({ halting := true } : Seq).posted = [] := by decide

/-! SequencerEventsTimersAndWindow -/

/-- Sequencer 0 waits for event 800, which has come once; its mask bit is set and its timer 1 repeats. -/
def waiting (c : Nat) (w : SeqWait) : State :=
  setSeq (ready State.reset) 0 { run := .waiting, wait := some w, mask := [(12, 0x100000000#64), (3, 2#64)], pend := [(800, c)], pc := 8, codeLen := 8,
                                 timers := [(1, { interval := 5, repeating := true }), (2, { interval := 5 })] }
theorem witness_Events_signal : maskOn (seqOf (waiting 1 (.time 0)) 0) 800 = true ∧ (seqOf (waiting 1 (.time 0)) 0).pend.get 800 0 < 255 ∧
    255 ≤ (seqOf (waiting 255 (.time 0)) 0).pend.get 800 0 ∧ maskOn (seqOf (waiting 1 (.time 0)) 1) 800 = false ∧ (767#10).toNat < 768 := by decide
theorem witness_Events_elapsed : seqCyc { waiting 1 (.time 0) with time := { (waiting 1 (.time 0)).time with cyc := 1000 } } ≥ 5 ∧ seqCyc (waiting 1 (.time 0)) < 5 := by decide +kernel
theorem witness_Events_timer : (seqOf (waiting 1 (.time 0)) 0).timers.find 1 = some { interval := 5, repeating := true } ∧
    (seqOf (waiting 1 (.time 0)) 0).timers.find 2 = some { interval := 5 } ∧ (seqOf (waiting 1 (.time 0)) 0).timers.find 0 = none ∧
    maskOn (seqOf (waiting 1 (.time 0)) 0) 193 = true ∧ maskOn (seqOf (waiting 1 (.time 0)) 0) 194 = false := by decide
theorem witness_Events_wait : readyEvent (seqOf (waiting 1 (.event 4 800 1)) 0) 800 1 = some 800 ∧
    readyEvent (seqOf (waiting 0 (.event 4 800 1)) 0) 800 1 = none ∧ readyEvent (seqOf (waiting 1 (.event 4 768 (2 ^ 32))) 0) 768 (2 ^ 32) = some 800 := by
  decide +kernel
theorem witness_Events_time : 0 ≤ seqNs (waiting 1 (.time 0)) := Nat.zero_le _
theorem witness_Events_loadable : loadable (seqOf (ready State.reset) 0) = true ∧ loadable (seqOf (waiting 1 (.time 0)) 0) = false ∧
    (0x1FFFF#19).toNat < 0x20000 ∧ 0x20000 ≤ (0x20000#19).toNat := by decide
/-- Sequencer 0 reads 8 bytes of DRAM at 0x1000, or of nothing. -/
def reading (a : Nat) : State := setSeq (ready State.reset) 0 { run := .running, pc := 8, codeLen := 8, read := some { rd := 3, addr := a, size := 8 } }
theorem witness_Reads : heldBack (reading 0x1000) (readXact (reading 0x1000) 0 { rd := 3, addr := 0x1000, size := 8 }) = false ∧
    inReset (reading 0x1000) 16 = false ∧ atPort (reading 0x1000) 16 0 = none ∧ (reading 0x1000).fab.resps = [] ∧ channelStopped (reading 0x1000) (dramChannel 0x1000) = false ∧ targetOf 0x1000 = some .dram ∧
    dramRead (reading 0x1000) 0x1000 8 = some (List.replicate 8 0) ∧ protCheck (reading 0x1000) ⟨16, 0x1000, 8, false, false, false⟩ = none ∧
    decodeKind (reading 0x1000) ⟨16, 0x1000, 8, false, false, false⟩ = 0 ∧
    (protCheck (reading 0x1000) ⟨16, 0x1000, 8, false, true, false⟩).isSome = true := by decide +kernel
theorem witness_Responses : ∀ c, ((setSeq (atAdd .running) 0 { run := .running, posted := [{ addr := 8, made := true, cause := c }] } : State)).seqs.get 0 {} =
    { run := .running, posted := [{ addr := 8, made := true, cause := c }] } := by intro c; rfl

/-! KsisArithmetic -/

theorem witness_Ksis_issuable : issuable (atAdd .running) 0 ∧ bitOn (seqOf (atAdd .running) 0).features 0 = true ∧
    bitOn (seqOf (atAdd .running) 0).features 1 = true ∧ bitOn (seqOf (atAdd .running) 0).features 2 = false := by
  refine ⟨⟨by decide +kernel, by decide +kernel⟩, by decide +kernel, by decide +kernel, by decide +kernel⟩

/-! KsisCompareBranchAndControl -/

theorem witness_Branch_ok : (0#9).toNat < 6 ∧ ((6#9).toNat = 6 ∧ (2 : Nat) ≠ 1) ∧ ¬((7#9).toNat < 6 ∨ ((7#9).toNat = 6 ∧ (2 : Nat) ≠ 1)) := by decide
/-- Sequencer 0 runs in user mode with a handler, or with a posted write outstanding. -/
def userMode : State := setSeq loaded 0 { seqOf (atAdd .running) 0 with user := true, trap := 64, features := 0xFFF, version := 2 }
def postedOne : State := setSeq loaded 0 { seqOf (atAdd .running) 0 with posted := [{ addr := 0x1000, size := 8 }], features := 0xFFF, version := 2 }
theorem witness_Branch_modes : issuable userMode 0 ∧ (seqOf userMode 0).user = true ∧ issuable postedOne 0 ∧ (seqOf postedOne 0).posted ≠ [] ∧
    (seqOf postedOne 0).user = false := by
  refine ⟨⟨by decide +kernel, by decide +kernel⟩, by decide +kernel, ⟨by decide +kernel, by decide +kernel⟩, by decide +kernel, by decide +kernel⟩

/-! KsisMemory -/

/-- Sequencer 0 with an address in s1. -/
def addressed (a : BitVec 64) : State := setSeq loaded 0 { seqOf (atAdd .running) 0 with regs := [(1, a)] }
theorem witness_KsisMemory : issuable (addressed 393208) 0 ∧ bitOn (seqOf (addressed 393208) 0).features 0 = true ∧
    (BitVec.ofInt 64 ((sreg (seqOf (addressed 393208) 0) 1).toInt + (0#32).toInt)).toNat = 393208 ∧ 393208 % 8 = 0 ∧ 393208 + 8 - 1 ≤ 393215 ∧
    393215 < 393216 + 8 - 1 ∧ (2 ^ 40 : Nat) % 8 = 0 ∧ (seqOf (addressed 0) 0).posted.length < 16 := by
  refine ⟨⟨by decide +kernel, by decide +kernel⟩, by decide +kernel, by decide +kernel, by decide +kernel, by decide +kernel, by decide +kernel,
    by decide +kernel, by decide +kernel⟩

/-! KsisEventsAndTime -/

/-- Sequencer 0 runs a version 2 program with every feature, with s1 and s2 as given. -/
def programmed (a b : BitVec 64) : State :=
  setSeq loaded 0 { seqOf (atAdd .running) 0 with features := 0xFFF, version := 2, regs := [(1, a), (2, b)], mask := [(12, 0x100000000#64)],
                                                  pend := [(800, 2)] }
theorem witness_KsisEvents : issuable (programmed 1 1) 0 ∧ bitOn (seqOf (programmed 1 1) 0).features 7 = true ∧
    readyEvent (seqOf (programmed 1 1) 0) 800 1 = some 800 ∧ readyEvent (seqOf (programmed 1 1) 0) 801 1 = none ∧
    (seqOf (programmed 1 1) 0).user = false ∧ bitOn (seqOf (programmed 1 1) 0).features 11 = true ∧
    bitOn (rd (programmed 1 1) F.SEQ_CFG_USER_GAL 0) 1 = false ∧ (BitVec.ofInt 64 ((768#64).toInt + (255#32).toInt)).toNat = 1023 := by
  refine ⟨⟨by decide +kernel, by decide +kernel⟩, by decide +kernel, by decide +kernel, by decide +kernel, by decide +kernel, by decide +kernel,
    by decide +kernel, by decide +kernel⟩
theorem witness_KsisEvents_user : issuable userMode 0 ∧ (seqOf userMode 0).user = true ∧ bitOn (seqOf userMode 0).features 7 = true ∧
    bitOn (rd userMode F.SEQ_CFG_USER_GAL 0) 1 = false ∧ issuable (atAdd .running) 0 ∧ bitOn (seqOf (atAdd .running) 0).features 7 = false := by
  refine ⟨⟨by decide +kernel, by decide +kernel⟩, by decide +kernel, by decide +kernel, by decide +kernel, ⟨by decide +kernel, by decide +kernel⟩,
    by decide +kernel⟩

/-! KsisWallOperations -/

theorem witness_KsisWall : issuable (programmed 1 2) 0 ∧ bitOn (seqOf (programmed 1 2) 0).features 2 = true ∧ (seqOf (programmed 1 2) 0).user = false ∧
    rd (programmed 1 2) F.TND_STATUS_STATE = 0 ∧ (seqOf (programmed 1 2) 0).easWait = false ∧ rd (programmed 1 2) F.EAS_STATUS_BUSY = 0 ∧ accessWaits (programmed 1 2) 51 = false ∧ pendingIn (programmed 1 2) 1 = false ∧ pendingIn (updGal (programmed 1 2) 1 fun x => { x with pend := some {} }) 1 = true := by
  refine ⟨⟨by decide +kernel, by decide +kernel⟩, by decide +kernel, by decide +kernel, by decide +kernel, by decide +kernel, by decide +kernel, by decide +kernel, by decide +kernel, by decide +kernel⟩
theorem witness_KsisWall_busy : issuable (wr0 (programmed 1 2) F.EAS_STATUS_BUSY 1) 0 ∧ rd (wr0 (programmed 1 2) F.EAS_STATUS_BUSY 1) F.EAS_STATUS_BUSY = 1 := by
  refine ⟨⟨by decide +kernel, by decide +kernel⟩, by decide +kernel⟩
theorem witness_KsisWall_denied : issuable userMode 0 ∧ bitOn (seqOf userMode 0).features 2 = true ∧ (seqOf userMode 0).user = true ∧
    bitOn (rd userMode F.SEQ_CFG_USER_GAL 0) 1 = false := by
  refine ⟨⟨by decide +kernel, by decide +kernel⟩, by decide +kernel, by decide +kernel, by decide +kernel⟩
theorem witness_KsisWall_passive : paired (wr0 (wr0 (programmed 1 2) F.TND_STATUS_STATE 2) F.TND_CTRL_GALLERIES 2) 1 = true ∧
    rd (wr0 (programmed 1 2) F.TND_STATUS_STATE 2) F.TND_STATUS_STATE = 2 := by decide +kernel
/-- A slot shown on canvas 3, 64 by 64 pixels, with a deadline of 10 ms. -/
def shownSlot : List Byte := [1, 1, 3, 0, 0, 0, 0, 0, 0, 0, 0, 0, 64, 0, 64, 0, 0, 0, 0, 0, 64, 0, 64, 0, 0, 0, 0, 0, 10, 0, 50, 0, 2, 0, 1, 0] ++ List.replicate 92 0
/-- The same program over a layer table at 0x40000, with the slot's bytes in its data memory and in layer 0's slot 0. -/
def walled : State :=
  setSeq { slotted with mem := Memory.writeBytes [] 0x40000 shownSlot } 0 { seqOf (programmed 0 0) 0 with dmem := Memory.writeBytes [] 0 shownSlot }
theorem witness_KsisWall_lset :
    let q := seqOf walled 0
    let w := busWrite (wr0 walled F.EAS_STATUS_OP 12) 51 (stagingSlot walled 0) (Memory.readBytes q.dmem 0 128)
    let r := busRead w.1 51 (stagingSlot w.1 0) 128
    let e := parseSlot r.2.2
    (layOf walled 0).staged = none ∧ (layOf walled 0).committed = false ∧ w.2 = 0 ∧ r.2.1 = 0 ∧
      slotBad r.2.2 (rd r.1 F.CMP_CNV_CFG_TRANSFER e.canvas) (othersShown r.1 (rd walled F.CNV_CTRL_GALLERY e.canvas) e.canvas 0) = none ∧ rd walled F.EAS_STATUS_BUSY = 0 ∧
      (upto 8).all (fun h => !pendingIn walled h) = true := by decide +kernel
theorem witness_KsisWall_lshow : ∀ on : Bool,
    let s := updLay walled 0 fun x => { x with committed := true, b := false, gallery := 0 }
    let r := busRead (wr0 s F.EAS_STATUS_OP 12) 51 (activeSlot s 0) 128
    let f := leAt r.2.2 1 1
    let w := busWrite r.1 51 (stagingSlot r.1 0) (patchBytes r.2.2 1 [BitVec.ofNat 8 (f - f % 2 + bit on)])
    let v := busRead w.1 51 (stagingSlot w.1 0) 128
    let e := parseSlot v.2.2
    r.2.1 = 0 ∧ w.2 = 0 ∧ v.2.1 = 0 ∧ rd s F.CNV_CTRL_GALLERY e.canvas = (layOf s 0).gallery ∧ e.shown = on ∧
      slotBad v.2.2 (rd v.1 F.CMP_CNV_CFG_TRANSFER e.canvas) (othersShown v.1 (layOf s 0).gallery e.canvas 0) = none := by decide +kernel

/-! KsisFreshnessEaselAndTouch -/

/-- The program over a shown layer 1, with a1 in s1 and a2 in s2, and descriptor 1 as given. -/
def served (a b : BitVec 64) (z : Desc) : State :=
  setDesc { shownLayer with seqs := (programmed a b).seqs } 1 z
theorem witness_KsisServices : issuable (served 1 0 {}) 0 ∧ (seqOf (served 1 0 {}) 0).user = false ∧ (seqOf (served 1 0 {}) 0).version ≠ 1 ∧
    (∀ k ∈ [4, 5, 6, 8, 9, 10], bitOn (seqOf (served 1 0 {}) 0).features k = true) ∧ (layOf (served 1 0 {}) 1).committed = true ∧
    (layOf (served 1 0 {}) 1).desc.shown = true ∧ (layOf (served 1 0 {}) 1).desc.static = false ∧ (layOf (served 1 0 {}) 2).committed = false ∧ rd (served 1 0 {}) F.EAS_STATUS_BUSY = 0 ∧ accessWaits (served 1 0 {}) 51 = false := by
  refine ⟨⟨by decide +kernel, by decide +kernel⟩, by decide +kernel, by decide +kernel, by decide +kernel, by decide +kernel, by decide +kernel,
    by decide +kernel, by decide +kernel, by decide +kernel, by decide +kernel⟩
theorem witness_KsisServices_busy : issuable (wr0 (served 1 0 {}) F.EAS_STATUS_BUSY 1) 0 ∧ rd (wr0 (served 1 0 {}) F.EAS_STATUS_BUSY 1) F.EAS_STATUS_BUSY = 1 := by
  refine ⟨⟨by decide +kernel, by decide +kernel⟩, by decide +kernel⟩
theorem witness_KsisServices_modes : issuable userMode 0 ∧ (seqOf userMode 0).user = true ∧ (seqOf userMode 0).version ≠ 1 ∧
    bitOn (seqOf userMode 0).features 5 = true ∧ bitOn (rd userMode F.SEQ_CFG_USER_GAL 0) (rd userMode F.CNV_CTRL_GALLERY 0) = false ∧
    issuable (atAdd .running) 0 ∧ (seqOf (atAdd .running) 0).version = 1 := by
  refine ⟨⟨by decide +kernel, by decide +kernel⟩, by decide +kernel, by decide +kernel, by decide +kernel, by decide +kernel,
    ⟨by decide +kernel, by decide +kernel⟩, by decide +kernel⟩
theorem witness_KsisServices_ranges : slice (100 * 2 ^ 11 + 2000) 0 11 = 2000 ∧ slice (100 * 2 ^ 11 + 2000) 11 7 = 100 ∧ slice (2001 : Nat) 0 11 = 2001 ∧
    slice (101 * 2 ^ 11 + 1) 11 7 = 101 ∧ slice (2048 : Nat) 0 11 = 0 := by decide
theorem witness_KsisServices_proof : proofRefusal (served 1 0 {}) 1 0 0 = 0 ∧ proofRefusal (served 1 0 {}) 1 0 4 = 4 := by decide +kernel
theorem witness_KsisServices_leases : (descOf (served 1 0 { bound := true, st := .current, leases := 4094 }) 1).leases = 4094 ∧
    (descOf (served 1 0 { bound := true, st := .superseded, leases := 4095 }) 1).leases = 4095 ∧
    (descOf (served 1 0 { bound := true, st := .current, leases := 2, soft := 1 }) 1).soft = 1 ∧ (descOf (served 1 0 {}) 1).bound = false ∧
    heldBuf { bound := true, st := .superseded, leases := 1 } = true ∧ (descOf (served 1 0 { bound := true, st := .filling, ownerHost := true }) 1).st = .filling := by
  decide +kernel
/-- The same with the layer in the hit-test table. -/
def touchable : State := updLay (served 0 0 {}) 1 fun x => { x with hit := some (0, x.desc) }
theorem witness_KsisServices_hit : (hitLayers touchable 0).map (·.1) = [1] ∧ (∀ h ∈ hitLayers touchable 0, inRegion touchable 0 h.2 63 63 = true) ∧
    (∀ h ∈ hitLayers touchable 0, inRegion touchable 0 h.2 64 0 = false) ∧ hitLayers touchable 1 = [] := by
  decide +kernel
theorem witness_KsisServices_japp : (BitVec.ofInt 64 ((0x5FFC8#64).toInt + (8#32).toInt)).toNat = 393168 ∧ 393168 % 8 = 0 ∧ 393168 + 45 ≤ 393215 ∧
    rd (wr0 (served 1 0 {}) F.JNL_CTRL_EN 1) F.JNL_CTRL_EN = 1 ∧ rd (served 1 0 {}) F.JNL_CTRL_EN = 0 := by decide +kernel
theorem witness_KsisServices_check : let w := wr (wr (served 0 64 {}) F.CHK_SRC_ADDR 0 0 0) F.CHK_LEN_LEN 0 0 64
    rd (served 0 64 {}) F.CHK_STATUS_BUSY 0 = 0 ∧ chkCause (wr w F.CHK_CTRL_WIDTH 0 0 32) 0 = 0 ∧
    chkCause (wr (wr (served 0 0 {}) F.CHK_SRC_ADDR 0 0 0) F.CHK_LEN_LEN 0 0 0) 0 = 1 ∧
    rd (wr (served 0 64 {}) F.CHK_STATUS_BUSY 0 0 1) F.CHK_STATUS_BUSY 0 = 1 := by decide +kernel

/-! TouchScansAndContacts -/

/-- Port 0 of the touch block scans, with new baselines due. -/
def scanning : State :=
  updTch (wr (wr0 (ready State.reset) F.TCH_CTRL_EN 1) F.TCH_CTRL_EN 1 0 1) 0 fun x => { x with scanning := true }
def untouched : Touch := { fresh := false, scanning := true, base := (upto 864).map fun n => (n, 100), vals := [(0, 100)] }
theorem witness_Touch_scan : rd scanning F.TCH_CTRL_EN 0 = 1 ∧ rd scanning F.TCH_STATUS_TESTING 0 = 0 ∧ scanning.pwr.still = 0 ∧
    (tchOf scanning 0).scanning = true ∧ (tchOf scanning 1).scanning = false ∧ (tchOf scanning 0).testPend = false ∧ (tchOf scanning 0).fresh = true ∧
    (tchOf scanning 0).contacts = [] ∧ rd scanning F.TCH_CTRL_EN 1 = 1 ∧ (tchOf scanning 0).since = none ∧ (tchOf scanning 1).since = none := by decide +kernel
theorem witness_Touch_early : let s := updTch scanning 0 fun x => { x with since := some 0 }
    (tchOf s 0).since = some 0 ∧ seqCyc s < 0 + 36 * 1 * 1200 ∧ seqCyc s < 0 + 60 * 1200000 ∧ seqCyc s < 0 + 5000000 := by decide +kernel
theorem witness_Touch_quiet : (nodeValue [] 3 4) = 0 ∧ (tchOf (updTch scanning 0 fun _ => untouched) 0).fresh = false ∧ (tchOf (updTch scanning 0 fun _ => untouched) 0).base.get 863 0 - nodeValue [] 35 23 < rd scanning F.TCH_THRESH_TOUCH_THRESH 0 ∧ ((-100 : Int) < rd scanning F.TCH_THRESH_TOUCH_THRESH 0) ∧
    (([{ id := 0 }, { id := 9 }] : List Contact).map (·.id)).Nodup ∧ walsh 3 1 = -1 ∧ walsh 15 15 = 1 := by decide +kernel
def remoteOne : List Byte := leBytes 7 4 ++ [1, 0, 0, 0] ++ leBytes 0x1234 4 ++ [0x15, 0, 10, 0, 20, 0, 30, 0]
theorem witness_Touch_remote : (let s := wr (wr State.reset F.LNK_STATUS_STATE 0 0 5) F.LNK_NEG_ON 0 0 4
    rd s F.LNK_STATUS_STATE 0 = 5 ∧ bitOn (rd s F.LNK_NEG_ON 0) 2 = true) ∧ leAt remoteOne 4 1 = 1 ∧ 12 + 8 * 1 ≤ remoteOne.length ∧
    slice (leAt remoteOne 12 1) 4 3 = 1 ∧ bitOn (rd State.reset F.LNK_NEG_ON 0) 2 = false := by decide +kernel
theorem witness_Touch_event : (tchOf (updTch State.reset 5 fun x => { x with due := [(9, true), (0, false), (0, true)] }) 5).due = [(9, true)] ++ (0, false) :: [(0, true)] ∧
    seqCyc State.reset < 9 ∧ 0 ≤ seqCyc State.reset ∧ (tchOf State.reset 5).due = [] := by
  decide +kernel
theorem witness_Touch_test : rd State.reset F.TCH_CTRL_EN 0 = 0 ∧ rd (wr scanning F.TCH_STATUS_TESTING 0 0 1) F.TCH_STATUS_TESTING 0 = 1 ∧
    (tchOf (updTch scanning 0 fun x => { x with testPend := true }) 0).testPend = true ∧ rd (wr scanning F.TCH_STATUS_TESTING 0 0 1) F.TCH_CTRL_EN 0 = 1 ∧
    (tchOf (wr scanning F.TCH_STATUS_TESTING 0 0 1) 0).since = none ∧ (tchOf (updTch scanning 0 fun x => { x with contacts := [{ id := 9 }] }) 0).contacts.length = 1 := by decide +kernel
theorem witness_Touch_config : slice (2 : Nat) 0 7 = 2 ∧ slice (5 * 2 ^ 7 + 5 * 2 ^ 15 + 64) 0 7 = 64 ∧ slice (5 * 2 ^ 7 + 5 * 2 ^ 15 + 64) 7 8 = 5 ∧
    slice (5 * 2 ^ 7 + 5 * 2 ^ 15 + 64) 15 16 = 5 ∧ slice (49129 * 2 ^ 9) 9 16 * 8 + 191 = 393223 ∧ slice (49128 * 2 ^ 9) 9 16 * 8 + 191 = 393215 ∧
    slice (5 + 5 * 2 ^ 16) 0 16 ≤ slice (5 + 5 * 2 ^ 16) 16 16 ∧ slice (4 : Nat) 0 10 < 5 ∧ slice (600 : Nat) 0 10 = 600 ∧ 600 < slice (601 : Nat) 0 10 ∧
    slice (0 : Nat) 1 6 < 1 ∧ slice (36 * 2) 1 6 = 36 ∧ 36 < slice (37 * 2) 1 6 := by decide
/-- In Still, with a tap five scans ago. -/
def tapped (still : Nat) (taps : List Nat) : State :=
  updTch (wr0 { State.reset with pwr := { State.reset.pwr with still := still } } F.TCH_WAKE_EN 1) 0 fun x => { x with wakeBase := [500, 500, 500, 500, 500, 500], taps := taps }
theorem witness_Touch_wake : rd (tapped 5 [4]) F.TCH_WAKE_EN 0 = 1 ∧ (tapped 5 [4]).pwr.still = 5 ∧ rd (tapped 5 [4]) F.TCH_WAKE_GROUP 0 = 6 ∧
    rd (tapped 5 [4]) F.TCH_WAKE_WAKE_THRESH 0 = 64 ∧ (tchOf (tapped 1 [15]) 0).taps = [15] ∧ (tchOf (tapped 5 [4]) 0).wasIn = false ∧
    436 + 64 ≤ (tchOf (tapped 5 [4]) 0).wakeBase.getD 0 0 ∧ (tchOf (tapped 5 [4]) 0).wakeBase.length = ((upto ((36 + 6 - 1) / 6)).map fun k => k).length ∧ (tchOf State.reset 0).wakeBase = [] ∧
    (tchOf ({ tapped 5 [4] with time := { (tapped 5 [4]).time with cyc := 19531250 } }) 0).wakeAt + 19531250 ≤ 19531250 := by decide +kernel

/-! LaneQuadsLocksAndTests -/

/-- The uses of Sellagh Metro's quads, as R508 gives them, committed or not; every PLL locked or none. -/
def quads (locked : Nat) (pll : Bool) (use : Nat) : State :=
  wr0 { wrReg (ready State.reset) R.LANE_QUAD_USE 0 0 use with lane := (upto 16).map fun q => (q, { pll := pll }) } F.LANE_QUAD_COMMIT_LOCKED locked
def sellagh : Nat := 0x2311111111111111
theorem witness_Quads : rd (quads 1 true sellagh) F.LANE_QUAD_COMMIT_LOCKED = 1 ∧ rd (quads 0 false sellagh) F.LANE_QUAD_COMMIT_LOCKED = 0 ∧
    (∀ k, k < 16 → slice (rdReg (quads 0 false sellagh) R.LANE_QUAD_USE) (4 * k) 4 < 5) ∧
    slice (rdReg (quads 0 false 0x5000000000000000) R.LANE_QUAD_USE) 60 4 = 5 ∧ slice (0x2222222220000000 : Nat) (4 * 15) 4 = 2 ∧
    ((upto 15).filter fun k => slice (0x2222222220000000 : Nat) (4 * k) 4 == 2).length = 8 ∧ (quadOf (quads 1 true sellagh) 15).pll = true ∧
    (quadOf (quads 1 false sellagh) 15).pll = false ∧ ((upto 4).filter fun k => slice (0x33333 : Nat) (4 * k) 4 == 3).length = 4 ∧
    ((upto 16).filter fun k => slice sellagh (4 * k) 4 == 2).length = 1 := by decide +kernel
theorem witness_Quads_lane : let s := wr (quads 1 true sellagh) F.LANE_STATUS_PCS_LOCK 60 0 1
    rd s F.LANE_STATUS_PCS_LOCK 60 = 1 ∧ slice (rdReg s R.LANE_QUAD_USE) (4 * (60 / 4)) 4 = 2 ∧ slice (rdReg s R.LANE_QUAD_USE) (4 * (56 / 4)) 4 = 3 ∧
    lanePort s 56 = some 0 ∧ rd s F.LANE_RX_CFG_FREEZE 60 = 0 ∧ rd (wr s F.LANE_RX_CFG_FREEZE 60 0 1) F.LANE_RX_CFG_FREEZE 60 = 1 ∧
    slice (rdReg s R.LANE_QUAD_USE) 0 4 = 1 := by decide +kernel
theorem witness_Quads_adapts : settled { before := [63#6, 5], after := [0, 5] } = true ∧ settled { before := [5], after := [7] } = false := by decide
theorem witness_Quads_fir : ¬(slice (16 * 2 ^ 4) 4 6 < 16 ∨ slice (16 * 2 ^ 4) 4 6 < slice (16 * 2 ^ 4) 0 4 + slice (16 * 2 ^ 4) 10 5 + 16) ∧
    slice (15 * 2 ^ 4) 4 6 < 16 ∧ slice (63 * 2 ^ 4 + 15 + 31 * 2 ^ 10) 4 6 = 63 ∧ slice (63 * 2 ^ 4 + 15 + 31 * 2 ^ 10) 10 5 = 31 := by decide
theorem witness_Quads_test : let s := quads 1 true 0x21
    slice (rdReg s R.LANE_QUAD_USE) 8 4 = 0 ∧ rd (wr s F.LANE_DPTX_CFG_EN 0 0 1) F.LANE_DPTX_CFG_EN 0 = 1 ∧
    rd (wr s F.LANE_DPRX_CFG_HPD_EN 1 0 1) F.LANE_DPRX_CFG_HPD_EN 1 = 1 ∧ rd (wr s F.LANE_TEST_CHK_EN 8 0 1) F.LANE_TEST_CHK_EN 8 = 1 ∧
    rd (wr s F.LANE_STATUS_PRBS_LOCK 8 0 1) F.LANE_STATUS_PRBS_LOCK 8 = 1 ∧ rd s F.LANE_TEST_CHK_EN 8 = 0 ∧ rd s F.LANE_TEST_GEN_EN 8 = 0 ∧ rd s F.LANE_TEST_LOOP 8 = 0 ∧ rd (wr s F.LANE_TEST_LOOP 8 0 3) F.LANE_TEST_LOOP 8 = 3 ∧
    rd (wr (wr s F.LANE_TEST_GEN_EN 8 0 1) F.LANE_TEST_LOOP 8 0 2) F.LANE_TEST_LOOP 8 = 2 ∧ rd (wr s F.LANE_TEST_GEN_EN 8 0 1) F.LANE_TEST_GEN_EN 8 = 1 ∧
    (quadOf s 2).gen = [] := by decide +kernel
theorem witness_Quads_trains : let s := wr (wr (quads 1 false sellagh) F.LANE_DPTX_CFG_EN 3 0 1) F.LANE_DPTX_STATUS_HPD 3 0 1
    rd s F.LANE_DPTX_CFG_EN 3 = 1 ∧ rd s F.LANE_DPTX_STATUS_HPD 3 = 1 ∧ rd s F.LANE_DPTX_STATUS_STATE 3 = 0 ∧ (quadOf s 3).aux = none ∧
    testSet s 12 = false ∧ testSet s 15 = false ∧ (quadOf s 3).pll = false := by decide +kernel

/-! DisplayPortTrainingAndAux -/

/-- Quad 3 as a transmitter with EN and HPD, in a state of R511. -/
def driven (st : Nat) (aux : Option Bool) : State :=
  let s := quads 1 true sellagh
  let s := wr (wr (wr s F.LANE_DPTX_CFG_EN 3 0 1) F.LANE_DPTX_STATUS_HPD 3 0 1) F.LANE_DPTX_STATUS_STATE 3 0 st
  wr (updQuad s 3 fun x => { x with aux := aux }) F.LANE_AUX_CMD_LEN 3 0 16
theorem witness_Dp_train : rd (driven 0 none) F.LANE_QUAD_COMMIT_LOCKED = 1 ∧ slice (rdReg (driven 0 none) R.LANE_QUAD_USE) 12 4 = 1 ∧
    rd (driven 0 none) F.LANE_DPTX_STATUS_STATE 3 = 0 ∧ rd (driven 0 none) F.LANE_DPTX_CFG_EN 3 = 1 ∧ (quadOf (driven 0 none) 3).pll = true ∧
    testSet (driven 0 none) 12 = false ∧ testSet (driven 0 none) 13 = false ∧ testSet (driven 0 none) 14 = false ∧ testSet (driven 0 none) 15 = false ∧
    (quadOf (driven 0 none) 3).aux = none ∧ (quadOf (driven 0 (some true)) 3).aux = some true ∧ rd (driven 1 none) F.LANE_DPTX_STATUS_STATE 3 = 1 ∧
    rd (driven 2 none) F.LANE_DPTX_STATUS_STATE 3 = 2 ∧ rd (driven 3 none) F.LANE_DPTX_STATUS_STATE 3 = 3 ∧ rd (driven 3 none) F.LANE_DPTX_STATUS_HPD 3 = 1 ∧
    rd (wr (driven 0 none) F.LANE_DPTX_CFG_EN 3 0 0) F.LANE_DPTX_CFG_EN 3 = 0 ∧
    (quadOf (driven 3 none) 3).failAt + rd (driven 3 none) F.LANE_DPTX_CFG_RETRY_MS 3 * 625000 ≤ 2000 * 625000 := by
  decide +kernel
theorem witness_Dp_adaptive : let s := wr (wr (wr (wr (driven 1 none) F.CNV_CTRL_EN 5 0 1) F.CNV_CTRL_OUT_KIND 5 0 1) F.CNV_CTRL_OUT_INDEX 5 0 3) F.CNV_CTRL_ADAPTIVE 5 0 1
    rd s F.CNV_CTRL_EN 5 = 1 ∧ rd s F.CNV_CTRL_OUT_KIND 5 = 1 ∧ rd s F.CNV_CTRL_OUT_INDEX 5 = 3 ∧ rd s F.CNV_CTRL_ADAPTIVE 5 = 1 ∧
    rd s F.LANE_DPTX_STATUS_STATE 3 = 1 ∧ bitOn (leAt [0x77, 0x77, 1] 2 1) 0 = true ∧ bitOn (leAt [0x73, 0x77, 1] 0 2) 2 = false := by decide +kernel
theorem witness_Dp_ranges : ¬ (250#12).toNat < 250 ∧ (2000#12).toNat ≤ 2000 ∧ 2000 < (2001#12).toNat ∧ slice (2 ^ 24 : Nat) 24 5 = 1 ∧
    slice (16 * 2 ^ 24 : Nat) 24 5 = 16 ∧ slice (17 * 2 ^ 24 : Nat) 24 5 = 17 ∧ 1 ≤ (5#4).toNat ∧ 5 < (6#4).toNat := by decide
theorem witness_Dp_aux : let s := updQuad (driven 2 (some true)) 3 fun x => { x with auxCmd := { req := 9, len := 16 } }
    (quadOf s 3).aux = some true ∧ (quadOf s 3).auxCmd.req % 2 = 1 ∧ (quadOf s 3).auxCmd.len = 16 ∧ (quadOf (driven 2 (some true)) 3).auxCmd.req % 2 = 0 := by decide +kernel
/-- Quad 15 as a receiver with HPD_EN, its lanes ready. -/
def receiver : State :=
  let s := each [60, 61, 62, 63] (fun s l => wrReg s R.LANE_STATUS l 0 7) (quads 1 true sellagh)
  updQuad (wr s F.LANE_DPRX_CFG_HPD_EN 15 0 1) 15 fun x => { x with eqDone := true, together := true }
theorem witness_Dp_rx : rd receiver F.LANE_DPRX_CFG_HPD_EN 15 = 1 ∧ slice (rdReg receiver R.LANE_QUAD_USE) 60 4 = 2 ∧ (quadOf receiver 15).pll = true ∧
    (quadOf receiver 15).eqDone = true ∧ (quadOf receiver 15).together = true ∧ (quadOf receiver 15).laneCount = 0 ∧ (quadOf (quads 1 true sellagh) 15).eqDone = false ∧ (∀ l ∈ [60, 61, 62, 63], rd receiver F.LANE_STATUS_ADAPTED l = 1 ∧ rd receiver F.LANE_STATUS_PCS_LOCK l = 1) ∧
    testSet receiver 60 = false ∧ testSet receiver 63 = false ∧ dpcd receiver 15 0x204 = some 1 ∧ rd (quads 1 true sellagh) F.LANE_DPRX_CFG_HPD_EN 15 = 0 := by
  decide +kernel

/-! NdosinBringUp -/

/-- A mask of block locks on the lanes of quad 14. -/
def locks (m : Nat) (s : State) : State := each (upto 4) (fun s k => wr s F.LANE_STATUS_PCS_LOCK (56 + k) 0 (bit (bitOn m k))) s
/-- A block as a lane brings it whose scrambler stands at zero. -/
def wire (header : Nat) (b : List Byte) : WireBlock := ⟨0, BitVec.ofNat 2 header, BitVec.ofNat 128 (scramble 0 (leNat b)).2⟩
/-- Quad 14 as Ndosin port 0, with EN 1 in a state of R533. -/
def ported (st : Nat) (x : Port) : State :=
  setPort (wr (wr (wr (quads 1 true 0x4400000000000000) F.LNK_STATUS_STATE 0 0 st) F.LNK_CFG_EN 0 0 1) F.LNK_STATUS_TX_MASK 0 0 15) 0 x
theorem witness_Link : portQuad (ported 0 {}) 0 = some 14 ∧ rd (ported 0 {}) F.LNK_STATUS_STATE 0 = 0 ∧ rd (ported 0 {}) F.LANE_QUAD_COMMIT_LOCKED = 1 ∧
    testSet (ported 0 {}) 56 = false ∧ testSet (ported 0 {}) 59 = false ∧ rd (ported 0 {}) F.LNK_CFG_EN 0 = 1 ∧
    rdReg (ported 0 {}) R.LNK_CFG 0 = 0x1FD ∧ rd (ported 0 {}) F.LNK_CFG_LANE_MASK 0 = 15 ∧ rd (ported 0 {}) F.LNK_CFG_WIDTH_MIN 0 = 1 ∧
    rdReg (quads 1 true 0x4400000000000000) R.LNK_CFG 0 = 0x1FC ∧ lockMask (locks 7 (ported 1 {})) 0 ||| 2 ^ 3 = 15 ∧
    rd (locks 7 (ported 1 {})) F.LANE_STATUS_PCS_LOCK 59 = 0 ∧ rd (locks 7 (ported 1 {})) F.LANE_STATUS_PCS_LOCK 58 = 1 ∧
    ((portOf (ported 1 {}) 0).headers.get 3 {}).run + (List.replicate 64 (1 : BitVec 2)).length = 64 ∧
    ((((portOf (ported 1 { headers := [(2, { bad := List.replicate 15 true })] }) 0).headers.get 2 {}).bad.take 63).filter id).length = 15 ∧
    rd (ported 1 {}) F.LNK_STATUS_STATE 0 = 1 ∧ rd (ported 4 {}) F.LNK_STATUS_STATE 0 = 4 ∧ rd (ported 1 {}) F.LNK_STATUS_TX_MASK 0 = 15 ∧
    laneRate (rd (ported 2 {}) F.LNK_STATUS_RATE 0) = 5000 ∧ ceilDiv (2 * 4096 * 130 * 5000) (8 * 5000) = 133120 := by decide +kernel
theorem witness_Link_due : (portOf { ported 0 {} with time := { cyc := 12500000 } } 0).since + 12500000 ≤ ({ ported 0 {} with time := { cyc := 12500000 } } : State).time.cyc := by
  decide +kernel
theorem witness_Link_cfg : ¬(slice (0x4FD : Nat) 1 3 = 7 ∨ slice (0x4FD : Nat) 4 4 = 0 ∨ slice (0x4FD : Nat) 8 3 = 0 ∨ 4 < slice (0x4FD : Nat) 8 3 ∨
    ((upto 4).filter (bitOn (slice (0x4FD : Nat) 4 4))).length < slice (0x4FD : Nat) 8 3) ∧ slice (0x5F1 : Nat) 8 3 = 5 ∧
    ((upto 4).filter (bitOn (slice (0x271 : Nat) 4 4))).length = 3 ∧ ((upto 4).filter (bitOn (slice (0x211 : Nat) 4 4))).length < slice (0x211 : Nat) 8 3 := by decide +kernel
def marker : List Byte := let b : List Byte := [0x4B, 3, 15, 15, 9, 0, 0, 0, 0, 0, 0, 0]; b ++ leBytes (crc32c b).toNat 4
def cap (v features rate ack : Nat) : List Byte :=
  let b : List Byte := [0x55, BitVec.ofNat 8 v, 2, 1] ++ leBytes features 2 ++ [BitVec.ofNat 8 rate, BitVec.ofNat 8 ack, 0, 0, 0, 0]
  b ++ leBytes (crc32c b).toNat 4
theorem witness_Link_blocks : descramble (wire 2 marker) = marker ∧ descramble (wire 2 (cap 2 0x3F 6 1)) = cap 2 0x3F 6 1 ∧ (wire 2 marker).header.toNat = 2 ∧
    (crc32c (bytesAt marker 0 12)).toNat = leAt marker 12 4 ∧ leAt marker 0 1 = 0x4B ∧ leAt marker 4 2 = 9 ∧
    (crc32c (bytesAt (cap 2 0x3F 6 1) 0 12)).toNat = leAt (cap 2 0x3F 6 1) 12 4 ∧ leAt (cap 2 0x3F 6 1) 0 1 = 0x55 ∧ leAt (cap 2 0x3F 6 1) 7 1 % 2 = 1 ∧
    leAt (cap 2 0x3F 6 0) 7 1 % 2 = 0 ∧ leAt (cap 0 5 0 0) 1 1 = 0 ∧ leAt (cap 1 5 0 1) 6 1 = 0 ∧ (5 : Nat) &&& 0x3F &&& 5 = 5 ∧
    leAt (descramble (wire 2 (List.replicate 16 0))) 0 1 ∉ [0x1E, 0x2D, 0x4B, 0x55, 0x66] := by decide +kernel
theorem witness_Link_align : let x : Port := { markers := [(3, 0, 9, 100)], partnerLock := [15] }
    lockMask (locks 9 (ported 2 x)) 0 &&& rd (ported 2 x) F.LNK_CFG_LANE_MASK 0 = 2 ^ 0 + 2 ^ 3 ∧ (portOf (ported 2 x) 0).markers = [(3, 0, leAt marker 4 2, 100)] ∧ 116 ≤ 100 + 16 ∧
    (portOf (ported 3 x) 0).partnerLock.headD 0 = 15 ∧ ((upto 4).filter (bitOn 9)).length = 2 := by decide +kernel

/-! NdosinPacketsAndWidth -/

/-- Port 0 LINKED in a version, with its features, on the lanes of a mask. -/
def narrow (version mask : Nat) (x : Port) : State :=
  let s := wr (wr (wr (ported 5 x) F.LNK_STATUS_VERSION 0 0 version) F.LNK_STATUS_TX_MASK 0 0 mask) F.LNK_STATUS_RX_MASK 0 0 mask
  wr (wr (wr s F.LANE_STATUS_PCS_LOCK 58 0 1) F.LANE_STATUS_PCS_LOCK 56 0 1) F.LNK_NEG_ON 0 0 (if version = 1 then 5 else 0x3F)
def waitingTwo : Port := { queue := [{ cls := 5 }, { cls := 2, payload := [1] }, { cls := 2 }] }
theorem witness_Packets_send : rd (narrow 2 15 waitingTwo) F.LNK_STATUS_STATE 0 = 5 ∧
    (portOf (narrow 2 15 waitingTwo) 0).queue = [{ cls := 5 }] ++ { cls := 2, payload := [1] } :: [{ cls := 2 }] ∧ (portOf (narrow 2 15 {}) 0).queue = [] ∧
    rd (ported 3 {}) F.LNK_STATUS_STATE 0 ≠ 5 ∧ portQuad (narrow 2 15 {}) 0 = some 14 ∧ portQuad State.reset 0 = none ∧
    (portOf (narrow 2 15 waitingTwo) 0).turn = 0 ∧ (portOf (narrow 2 15 waitingTwo) 0).tried = 0 ∧ (upto 4).filter (bitOn 15) ≠ [] := by decide +kernel
def sopOf (cls bytes : Nat) : List Byte := [0x2D, BitVec.ofNat 8 cls] ++ leBytes ((bytes + 19) / 16) 2 ++ leBytes bytes 4 ++ List.replicate 8 0
def blockOf (sop : List Byte) (payload : List Byte) : List Byte := let d := bytesAt payload 0 12; d ++ leBytes (crc32c (sop ++ d)).toNat 4
theorem witness_Packets_streams : let l := [[wire 2 (sopOf 2 12)], [], [wire 2 (0x4B :: List.replicate 15 0), wire 1 (blockOf (sopOf 2 12) [1, 2, 3])]]
    interleave 5 0 l = [wire 2 (sopOf 2 12), wire 1 (blockOf (sopOf 2 12) [1, 2, 3])] ∧ interleave 5 1 l = [wire 1 (blockOf (sopOf 2 12) [1, 2, 3])] ∧
    (wire 1 []).header = 1 ∧ rd (narrow 2 5 {}) F.LNK_STATUS_RX_MASK 0 = 5 ∧ interleave 5 0 [] = [] := by decide +kernel
theorem witness_Packets_tandem : let s := wr0 (narrow 2 15 {}) F.TND_CTRL_PORTS 1
    tandemPorts s = [0] ∧ bitOn (rd s F.LNK_NEG_ON 0) 1 = true ∧ tandemPorts (narrow 2 15 {}) = [] := by decide +kernel
theorem witness_Packets_valid : let sop := descramble (wire 2 (sopOf 2 12))
    let data := ([wire 1 (blockOf sop [1, 2, 3])].map descramble).flatten
    sop = sopOf 2 12 ∧ leAt sop 0 1 = 0x2D ∧ leAt sop 2 2 = (leAt sop 4 4 + 19) / 16 ∧ 1 = leAt sop 2 2 ∧ leAt sop 4 4 = 12 ∧
    (crc32c (sop ++ data.take (16 * leAt sop 2 2 - 4))).toNat = leAt data (16 * leAt sop 2 2 - 4) 4 ∧
    leAt (sopOf 1 12) 1 1 = 1 ∧ leAt (sopOf 5 12) 1 1 = 5 ∧ bitOn (leAt (sopOf 3 12) 15 1) 0 = false ∧ leAt (sopOf 2 13) 2 2 = 2 := by decide +kernel
def widthBlock (mask count : Nat) : List Byte :=
  let b : List Byte := [0x66, BitVec.ofNat 8 mask, BitVec.ofNat 8 count] ++ List.replicate 9 0
  b ++ leBytes (crc32c b).toNat 4
theorem witness_Width : descramble (wire 2 (widthBlock 11 0)) = widthBlock 11 0 ∧ bitOn (rd (narrow 2 15 {}) F.LNK_NEG_ON 0) 4 = true ∧
    bitOn (rd (narrow 1 15 {}) F.LNK_NEG_ON 0) 4 = false ∧ (portOf (narrow 2 15 {}) 0).turn = 0 ∧ (crc32c (bytesAt (widthBlock 11 0) 0 12)).toNat = leAt (widthBlock 11 0) 12 4 ∧ leAt (widthBlock 11 0) 0 1 = 0x66 ∧
    leAt (widthBlock 11 0) 2 1 = 0 ∧ leAt (widthBlock 11 3) 2 1 = 3 ∧ rd (narrow 2 15 {}) F.LNK_STATUS_REVERSED 0 = 0 ∧ 11 &&& 15 ≠ 15 ∧
    ((upto 4).filter (bitOn 11)).length = 3 ∧ (portOf (narrow 2 15 {}) 0).width = none ∧ (portOf (narrow 2 15 { width := some 11 }) 0).width = some 11 ∧
    rd (narrow 2 15 {}) F.LNK_STATUS_VERSION 0 = 2 ∧ rd (narrow 1 15 {}) F.LNK_STATUS_VERSION 0 = 1 ∧ 15 &&& 11 = 11 ∧
    rd (wr (narrow 2 3 {}) F.LNK_CFG_WIDTH_MIN 0 0 2) F.LNK_CFG_WIDTH_MIN 0 = 2 := by decide +kernel
theorem witness_Width_restore : let x : Port := { markers := [(0, 0, 7, 100), (1, 1, 7, 100), (2, 2, 7, 100), (3, 3, 7, 100)], partnerLock := [15, 15] }
    rd (narrow 2 11 x) F.LNK_CFG_LANE_MASK 0 = rd (narrow 2 11 x) F.LNK_STATUS_TX_MASK 0 + 2 ^ 2 ∧ pairReady (locks 15 (narrow 2 11 x)) 0 2 = true ∧
    pairReady (narrow 2 11 {}) 0 2 = false ∧ bitOn 11 2 = false ∧ rd (narrow 2 15 {}) F.LNK_CFG_LANE_MASK 0 = rd (narrow 2 15 {}) F.LNK_STATUS_TX_MASK 0 := by
  decide +kernel
theorem witness_Width_loss : portQuad (narrow 2 15 {}) 0 = some 14 ∧ (58 : Nat) = 4 * 14 + 2 ∧ rd (narrow 2 15 {}) F.LANE_STATUS_PCS_LOCK 58 = 1 ∧
    bitOn (rd (narrow 2 15 {}) F.LNK_STATUS_RX_MASK 0) 2 = true ∧ 15 - 2 ^ 2 = 11 ∧ bitOn (rd (narrow 2 1 {}) F.LNK_STATUS_RX_MASK 0) 0 = true ∧
    ((upto 4).filter (bitOn (1 - 2 ^ 0))).length = 0 := by decide +kernel

/-! FabricChecksGrantsAndResponses -/

/-- A shim holds one read of the debug master; a port or the default target may hold others. -/
def shimmed (x : Xact) : State := { ready State.reset with fab := { State.reset.fab with held := [{ master := 0 }, x] } }
def debugRead (a n : Nat) : Xact := { master := 1, addr := a, len := n }
theorem witness_Fabric_check : let s := shimmed (debugRead 0x1010020000 8)
    heldBy s 1 = [] ++ debugRead 0x1010020000 8 :: [] ∧ s.fab.resets = [] ∧ unitOf 1 = some 1 ∧ outstanding s 1 none < 64 ∧ rd s F.PRT_HOLD_REQ 1 = 0 ∧
    rd s F.PRT_HOLD_HELD 1 = 0 ∧ protCheck s { master := 1, addr := 0x1010020000, len := 8, write := false } = none ∧
    decodeKind s { master := 1, addr := 0x1010020000, len := 8, write := false } = 0 ∧
    decodeKind s { master := 1, addr := 0x1010020000, len := 0, write := false } = 4 := by decide +kernel
theorem witness_Fabric_sequencer : let s := setSeq (ready State.reset) 3 { posted := [{ addr := 0x1800180000, size := 4 }, { addr := 0x1010020000, size := 8 }] }
    (heldBy s 19).map (·.addr) = [0x1800180000, 0x1010020000] ∧ unitOf 19 = some 2 ∧
    (let t := { s with fab := { s.fab with resps := [{ master := 19, tag := 5 }] } }; t.fab.resps = [] ++ { master := 19, tag := 5 } :: []) := by decide +kernel
theorem witness_Fabric_denied : let s := shimmed { debugRead 0x1802000000 4 with write := true }
    protCheck s { master := 1, addr := 0x1802000000, len := 4, write := true } = some ⟨0x1802000000, 0, 5, 1⟩ ∧
    rd (wr s F.PRT_HOLD_REQ 1 0 1) F.PRT_HOLD_REQ 1 = 1 := by decide +kernel
theorem witness_Fabric_kinds : targetOf 0x2000000000 = none ∧ dramUp State.reset = false ∧ connected 50 .varnish = false ∧ connected 0 .register = true ∧
    targetOf 0x1003000000 = none ∧ targetOf 0x1002FFFFFF = some .varnish ∧ targetOf 0x1803FFFFFF = some .register ∧ targetOf 0xFFFFFFFFF = some .dram ∧
    0x1800000004 % 8 ≠ 0 := by decide +kernel
theorem witness_Fabric_grant : let s := { ready State.reset with fab := { State.reset.fab with ports := [(9, [debugRead 0x1010020000 8,
      { debugRead 0x1010020040 4 with master := 0, qos := 4, write := true, data := [1, 2, 3, 4] }]), (11, [debugRead 0x2000000000 4])] } }
    waitingAt s 9 = [debugRead 0x1010020000 8] ++ { debugRead 0x1010020040 4 with master := 0, qos := 4, write := true, data := [1, 2, 3, 4] } :: [] ∧ (granted s 9).map (·.master) = some 0 ∧ waitingAt s 11 = [debugRead 0x2000000000 4] ∧ waitingAt s 3 = [] ∧
    0x1010020000 = 0x1010000000 + 0 * 0x80000 + 0x20000 := by decide +kernel
theorem witness_Fabric_response : let s := { State.reset with fab := { State.reset.fab with resps := [{ master := 1, data := [7] }] } }
    s.fab.resps = [] ++ { master := 1, data := [7] } :: [] ∧ genOf s 1 = 0 ∧ (3 : Nat) ≠ 0 ∧ State.reset.pending = [] := by decide
theorem witness_Fabric_two_registers : splitAccess State.reset R.XBR_EVENT.base = true ∧ targetOf (0x1800000000 + R.XBR_EVENT.base) = some .register ∧
    (withUpper (ready State.reset) { data := [1, 2, 3, 4, 5, 6, 7, 8], late := some R.XBR_EVENT.base }).data = [1, 2, 3, 4, 0, 0, 0, 0] := by decide +kernel
theorem witness_Fabric_reset : 49 ∈ allMasters ∧ 2 ∉ allMasters ∧ (let s := { State.reset with fab := { State.reset.fab with resets := [(49, 0)] }, time := { cyc := 25 } }
    s.fab.resets = [] ++ (49, 0) :: [] ∧ outstanding s 49 (some (genOf s 49)) = 0 ∧ 0 + 16 ≤ fabCyc s) ∧
    (ready State.reset).pwr.phase = .main ∧ State.reset.pwr.phase = .off := by decide +kernel

/-! HostRequestsMessagesAndMailbox -/

theorem witness_Host_request : (ready State.reset).pwr.phase = .main ∧ (ready State.reset).fab.hostWait = [] ∧ (0x18000010F8#40).toNat < 0x2000000000 ∧
    (0x1800001000#40).toNat / 256 = ((0x1800001000#40).toNat + (8#13).toNat - 1) / 256 ∧ (0x2000001FF0#40).toNat = 0x2000000000 + 16 * 511 ∧
    ([some 1, none] : List (Option Byte))[1]? = some none ∧ ((leBytes 0x80000000 4).map some : List (Option Byte)) ≠ [] := by decide
theorem witness_Host_order : let s := { ready State.reset with fab := { State.reset.fab with host := [{ tag := 0, write := true, parts := 1 }], nextTag := 1 } }
    ∃ r ∈ s.fab.host, r.write = true ∧ 0 < r.parts ∧ r.tag < s.fab.nextTag := ⟨_, List.mem_cons_self, rfl, by decide, by decide⟩
theorem witness_Host_answer : let s := { State.reset with fab := { State.reset.fab with resps := [{ tag := 3 }], host := [{ tag := 3, write := true, parts := 1 }] } }
    s.fab.resps = [] ++ { tag := 3 } :: [] ∧ s.fab.host = [] ++ { tag := 3, write := true, parts := 1 } :: [] ∧ genOf s 0 = 0 := by decide
theorem witness_Host_complete : ({ State.reset with fab := { State.reset.fab with host := [{ tag := 3, data := [(8, [1]), (9, [2])] }] } } : State).fab.host =
    [] ++ { tag := 3, data := [(8, [1]), (9, [2])] } :: [] := by decide
theorem witness_Msix : let s := { State.reset with fab := { State.reset.fab with pba := [511], table := [(511, { addr := 8, masked := false })], cfg := { msix := true, busMaster := true } } }
    s.fab.cfg.msix = true ∧ s.fab.cfg.busMaster = true ∧ s.fab.cfg.masked = false ∧ State.reset.fab.cfg.msix = false ∧ 511 ∈ s.fab.pba ∧ (msixEntry s 511).masked = false ∧ (msixEntry s 0).masked = true ∧ 0 ∉ s.fab.pba := by decide
theorem witness_HotReset : rd (wr0 (ready State.reset) F.PWR_CTRL_HOTRST_EN 1) F.PWR_CTRL_HOTRST_EN = 1 ∧
    (wr0 (ready State.reset) F.PWR_CTRL_HOTRST_EN 1).pwr.phase = .main ∧ rd State.reset F.PWR_CTRL_HOTRST_EN = 0 := by decide +kernel

/-! ProtectionUnits -/

/-- Unit 0 in effect as in the worked example of R588: region 5 below a locked region 6. -/
def example588 : State :=
  let s := wr (wr (wrReg State.reset R.PRT_RGN_ATTR 0 5 7) F.PRT_RGN_START_START 0 5 (0x200000000 / 64)) F.PRT_RGN_END_END 0 5 (0x200001F80 / 64)
  let s := wr (wr (wrReg s R.PRT_RGN_ATTR 0 6 0x33) F.PRT_RGN_START_START 0 6 (0x200001FC0 / 64)) F.PRT_RGN_END_END 0 6 (0x200041FC0 / 64)
  takeConfig s 0
theorem witness_Prot_example : unitOf 0 = some 0 ∧ granuleDenied example588 0 (0x200001F80 / 64) true false = none ∧
    granuleDenied example588 0 (0x200001FC0 / 64) true false = some (6, 1) ∧ granuleDenied example588 0 0 true false = none ∧
    granuleDenied example588 0 0 true true = some (0, 2) ∧
    protCheck example588 { master := 0, addr := 0x200001F80, len := 128, write := true } = some ⟨0x200001FC0, 6, 1, 0⟩ ∧
    protCheck example588 { master := 1, addr := 0x200001FC0, len := 4, write := false } = some ⟨0x200001FC0, 6, 4, 0⟩ ∧
    protCheck example588 { master := 1, addr := 0x1802000000, len := 4, write := true } = some ⟨0x1802000000, 0, 5, 1⟩ ∧
    protCheck example588 { master := 16, addr := 0x1800180000, len := 4, write := true, user := true } = some ⟨0x1800180000, 0, 5, 2⟩ := by decide +kernel
theorem witness_Prot_hold : let s := wr (wr State.reset F.PRT_HOLD_REQ 12 0 1) F.PRT_RGN_ATTR_EN 12 15 1
    rd s F.PRT_HOLD_REQ 12 = 1 ∧ rd State.reset F.PRT_HOLD_REQ 12 = 0 ∧ rd s F.PRT_RGN_ATTR_EN 12 15 = 1 ∧
    rd (wr s F.PRT_RGN_START_START 12 15 1) F.PRT_RGN_START_START 12 15 = 1 ∧ rd s F.PRT_RGN_END_END 12 15 = 0 ∧ State.reset.prt.releasing = [] := by decide +kernel
theorem witness_Prot_write : let s := wr State.reset F.PRT_HOLD_HELD 12 0 1
    rd s F.PRT_HOLD_HELD 12 = 1 ∧ rd s F.PRT_RGN_ATTR_LOCK 12 15 = 0 ∧ rd (wr s F.PRT_RGN_ATTR_LOCK 12 15 1) F.PRT_RGN_ATTR_LOCK 12 15 = 1 ∧
    rd s F.PRT_CTRL_LOCK 12 = 0 ∧ rd s F.PRT_CTRL_DEFAULT 12 = 0 ∧ slice (2 : Nat) 0 2 = 2 ∧
    rd State.reset F.PRT_HOLD_HELD 12 = 0 ∧ rd (wr s F.PRT_CTRL_LOCK 12 0 1) F.PRT_CTRL_LOCK 12 = 1 := by decide +kernel

/-! DramTrainingAndErrors -/

/-- The state an outcome goes to, or the one given. -/
def nx (o : Host.Outcome State Fault Refusal) (s : State) : State := match o with
  | .next t => t
  | _ => s
/-- DRAM in training. -/
def training : State := startInit State.reset
/-- DRAM ready at set point 0 with MARGIN_MIN 8 and CE_THRESH 1 on channel 5, and inline ECC in region 0. -/
def trained : State :=
  let s := finishInit (wrReg State.reset R.DMC_ECC_EN 0 0 1 |> startInit) 0 (List.replicate 8 16)
  wr (wr s F.DMC_CH_THRESH_MARGIN_MIN 5 0 8) F.DMC_CH_THRESH_CE_THRESH 5 0 1
/-- The same near the end of an interval of 100 ms. -/
def later : State := { trained with time := { trained.time with cyc := 62400000 } }
/-- The window of a channel is open there. -/
def windowed (c : Fin 8) : State := nx (execRetrainWindowStart c later) later
theorem witness_Dram_due : later.dmc.windows.find 7 ≠ some ((fabCyc later - later.dmc.readyAt) / 110000000) ∧
    7 * 13750000 + 1100000 ≤ (fabCyc later - later.dmc.readyAt) % 110000000 ∧ rd later F.DMC_GSTATUS_READY = 1 ∧ later.dmc.window = none ∧
    (trained.dmc.restored.put 5 (fabCyc trained)).find 5 = some (fabCyc trained) := by decide +kernel
theorem witness_Dram_init : rd State.reset F.DMC_GSTATUS_INIT_BUSY = 0 ∧ rd State.reset F.DMC_GSTATUS_READY = 0 ∧
    State.reset.dmc.holdClock = false ∧ (∀ c, c < 8 → rd State.reset F.DMC_CH_STATUS_STATE c ≠ 1) ∧ rd training F.DMC_GSTATUS_INIT_BUSY = 1 ∧ training.pwr.boot = none ∧
    rd trained F.DMC_GSTATUS_READY = 1 ∧ (enterHold State.reset 2).dmc.holdClock = true ∧
    (∀ c, c < 8 → ((List.replicate 8 (8 : BitVec 8)).getD c 0).toNat ≥ rd training F.DMC_CH_THRESH_MARGIN_MIN c) ∧
    (0x80 : BitVec 8).getLsbD 7 = true ∧ rd (enterHold training 1) F.DMC_GSTATUS_HOLD = 1 ∧ rd trained F.DMC_GSTATUS_HOLD = 0 := by decide +kernel
theorem witness_Dram_freq : rd trained F.DMC_GSTATUS_SP = 0 ∧ rd trained F.DMC_GSTATUS_FREQ_BUSY = 0 ∧ rd trained F.DMC_GSTATUS_DEFERRED = 0 ∧
    trained.dmc.window = none ∧ (windowed 7).dmc.window = some 7 ∧
    (freqRequest trained 2).dmc.freq = some 2 ∧ rd (freqRequest trained 2) F.DMC_GSTATUS_FREQ_BUSY = 1 ∧
    rd (freqRequest (windowed 7) 1) F.DMC_GSTATUS_DEFERRED = 1 := by decide +kernel
theorem witness_Dram_window : let s := windowed 5
    s.dmc.window = some 5 ∧ rd s F.DMC_CH_THRESH_MARGIN_MIN 5 = 8 ∧ rd s F.DMC_CH_STATUS_MARGIN_OK 5 = 1 ∧
    rd (windowMargin s 5 7) F.DMC_CH_STATUS_MARGIN_OK 5 = 0 ∧ rd s F.DMC_GSTATUS_DEFERRED = 0 ∧ rd s F.DMC_CH_STATUS_STATE 5 = 2 := by decide +kernel
theorem witness_Dram_panic : (32 : Nat) ∉ trained.dmc.panic ∧ trained.dmc.panic = [] ∧
    (nx (execPanicRaise 32 trained) trained).dmc.panic = [32] ∧ rd (nx (execPanicRaise 32 trained) trained) F.DMC_GSTATUS_PANIC = 1 ∧ rd (wr trained F.CNV_STATUS_PANIC_UP 31 0 1) F.CNV_STATUS_PANIC_UP 31 = 1 ∧
    rd (wr trained F.DMC_CH_STATUS_POSTPONED 5 0 8) F.DMC_CH_STATUS_POSTPONED 5 = 8 := by decide +kernel
theorem witness_Dram_ecc : let a := 5 * 256
    rd trained F.DMC_CH_STATUS_STATE (a / 256 % 8) = 2 ∧ trained.dmc.window ≠ some (a / 256 % 8) ∧ dramUp trained = true ∧ inDram trained a 1 = true ∧
    (trained.dmc.ecc / 2 ^ (a / 2 ^ 30)) % 2 = 1 ∧ rd trained F.DMC_GSTATUS_SP ≠ 2 ∧
    rd (wr trained F.DMC_CH_STATUS_MARGIN_OK 5 0 0) F.DMC_CH_STATUS_MARGIN_OK 5 = 0 ∧ rd trained F.DMC_CH_THRESH_CE_THRESH 5 ≤ 1 ∧
    inDram trained (2 ^ 36 - 1) 1 = true ∧ (trained.dmc.ecc / 2 ^ 63) % 2 = 0 ∧ rd State.reset F.DMC_CH_STATUS_STATE 0 ≠ 2 ∧
    (nx (execDramReadEcc 0x500 true .linkRead trained) trained).dmc.linkBad = [0xA0] := by decide +kernel

/-! ResetsStillAndSelfTests -/

/-- A part that has booted, with WAKE_N armed and the Journal on. -/
def bootedUp : State := wr0 (wr0 (wr0 (wr0 (ready State.reset) F.PWR_STATUS_BOOT_STATE 2) F.PWR_WAKE_CFG_PIN_EN 1) F.JNL_CTRL_EN 1) F.JNL_CTRL_RING_MIB 1
/-- A part at a stage of Still, with a phase. -/
def asleep (n : Nat) (ph : PowerPhase) : State := { bootedUp with pwr := { bootedUp.pwr with still := n, phase := ph, wake := 1, offLong := true, mainEn := false } }
theorem witness_Power_sequence : bootedUp.pwr.mainEn = false ∧ (powerOnReset bootedUp).pwr.mainEn = true ∧
    (powerOnReset bootedUp).pwr.phase = .raising ∧ bootedUp.pwr.phase = .main ∧
    ({ bootedUp with pwr := { bootedUp.pwr with mainEn := true } } : State).pwr.phase ≠ .raising ∧ (asleep 5 .still).pwr.phase ≠ .waking ∧
    (asleep 5 .still).pwr.phase ≠ .main ∧ (asleep 0 .waking).pwr.phase = .waking := by decide +kernel
theorem witness_Power_fields : locate (R.PWR_RTC_ALARM.addr 0 0) = some ⟨R.PWR_RTC_ALARM, 0, 0, false⟩ ∧
    (⟨0, 48, .rws, 0, 0xffffffffffff⟩ : Field) ∈ R.PWR_RTC_ALARM.fields ∧ locate (R.PWR_BOOT_ADDR.addr 0 0) = some ⟨R.PWR_BOOT_ADDR, 0, 0, false⟩ ∧
    R.PWR_RTC_ALARM.addr 0 0 ∉ [R.GLB_ID.addr 0 0, R.TND_STATUS.addr 0 0, R.PWR_STATUS.addr 0 0, R.PWR_OTP_STATE.addr 0 0, R.PWR_CLK_STATUS.addr 0 0,
      R.LANE_QUAD_COMMIT.addr 0 0, R.SEQ_FEATURES.addr 0 0] := by decide +kernel
theorem witness_Power_otp : let s := wr0 (wr0 State.reset F.PWR_STATUS_BOOT_STATE 1) F.PWR_OTP_STATE_SLOTS 0x40
    rd s F.PWR_STATUS_BOOT_STATE = 1 ∧ rd s F.PWR_STATUS_RESET_KIND = 0 ∧ rd s F.PWR_OTP_STATE_BUSY = 0 ∧
    rd s F.PWR_OTP_STATE_SLOTS / 4 ^ 0 % 4 = 0 ∧ rd s F.PWR_OTP_STATE_SLOTS / 4 ^ 3 % 4 = 1 ∧ rd State.reset F.PWR_STATUS_BOOT_STATE ≠ 1 ∧
    (otpCommand s 3 false).pwr.otpOp = some (3, false) ∧ (otpCommand s 0 true).pwr.otpOp = some (0, true) := by decide +kernel
theorem witness_Power_still : let s := bootedUp
    rd s F.PWR_STATUS_BOOT_STATE = 2 ∧ rd s F.PWR_WAKE_CFG_PIN_EN = 1 ∧ rd s F.JNL_CTRL_EN = 1 ∧ rd s F.JNL_CTRL_RING_MIB ≠ 0 ∧ s.pwr.bist = none ∧
    rd s F.DMC_GSTATUS_INIT_BUSY = 0 ∧ rd s F.DMC_GSTATUS_FREQ_BUSY = 0 ∧ rd s F.DMC_GSTATUS_DEFERRED = 0 ∧ s.pwr.still = 0 ∧
    rd s F.DMC_GSTATUS_READY = 1 ∧ rd (wr0 s F.DMC_GSTATUS_READY 0) F.DMC_GSTATUS_READY = 0 ∧ rd (wr0 s F.JNL_CTRL_EN 0) F.JNL_CTRL_EN = 0 ∧
    rd (wr0 s F.PWR_WAKE_CFG_PIN_EN 0) F.PWR_WAKE_CFG_PIN_EN = 0 ∧ rd s F.PWR_WAKE_CFG_RTC_EN = 0 ∧ rd s F.TCH_WAKE_EN 0 = 0 ∧ rd s F.TCH_WAKE_EN 1 = 0 ∧
    (asleep 4 .main).pwr.still ≠ 0 := by decide +kernel
theorem witness_Power_drain : let s := each (upto 32) (fun s c => updCnv s c fun x => { x with dark := true }) (asleep 1 .main)
    (∀ c, c < 32 → (cnvOf s c).dark = true) ∧ s.jnl.next ≤ s.jnl.drain ∧ s.jnl.queue = [] ∧ s.jnl.owed = [] ∧ s.jnl.asked = [] ∧ s.pwr.still = 1 ∧
    (asleep 4 .main).pwr.still = 4 := by decide +kernel
theorem witness_Power_wake : rd (asleep 3 .main) F.PWR_WAKE_CFG_PIN_EN = 1 ∧
    rd (wr0 bootedUp F.PWR_WAKE_CFG_RTC_EN 1) F.PWR_WAKE_CFG_RTC_EN = 1 ∧ rd bootedUp F.PWR_RTC_ALARM_ALARM ≤ rd bootedUp F.PWR_RTC_SEC_SEC ∧
    0 < (asleep 3 .main).pwr.still ∧ (asleep 3 .main).pwr.still < 4 ∧ 4 ≤ (asleep 4 .main).pwr.still ∧ (asleep 5 .still).pwr.phase = .still ∧
    (asleep 5 .still).pwr.wake ≠ 0 ∧ (asleep 5 .still).pwr.offLong = true ∧ (asleep 5 .still).pwr.offAt + 6250000 ≤ 6250000 := by decide +kernel
theorem witness_Power_bist : rd bootedUp F.PWR_STATUS_BOOT_STATE ≠ 0 ∧ bootedUp.pwr.bist = none ∧ bootedUp.pwr.still = 0 ∧
    rd bootedUp F.TND_STATUS_STATE ≠ 1 ∧ rd (wr0 bootedUp F.TND_STATUS_STATE 1) F.TND_STATUS_STATE = 1 ∧ rd State.reset F.PWR_STATUS_BOOT_STATE = 0 ∧
    (bistStart bootedUp true).pwr.bist = some true ∧ (bistStart bootedUp false).pwr.bist = some false ∧
    (bistStart bootedUp false).pwr.bistAt + 418000000 ≤ 237500000 * 44 / 25 := by decide +kernel

/-! BootRuns -/

/-- A boot image of one record. -/
def bootImage (record : List Byte) : List Byte :=
  let n := 96 + record.length
  let h : List Byte := leBytes 0x474D494B 4 ++ [1, 0, 1, 0] ++ leBytes n 4 ++ [14, 0, 0, 0] ++ leBytes 0 8 ++ leBytes 0x1000 5 ++ List.replicate 31 0
  let b := h ++ leBytes (crc32c h).toNat 4 ++ record
  b ++ sha256 b
/-- A record: kind, LEN, ADDR and padded data; for cold boots. -/
def recordOf (kind : Byte) (len addr : Nat) (data : List Byte) : List Byte :=
  [kind, 1, 0, 0] ++ leBytes len 4 ++ leBytes addr 5 ++ [0, 0, 0] ++ data
/-- A part in a boot at a stage. -/
def booting (image : List Byte) (stage : Nat) (kept : Bool) : State :=
  let s := ready State.reset
  { s with pwr := { s.pwr with boot := some { image := image, stage := stage, retained := kept } } }
theorem witness_Boot_header : let b := bootImage (recordOf 5 0 0 [])
    leAt b 0 4 = 0x474D494B ∧ leAt b 4 1 = 1 ∧ (crc32c (bytesAt b 0 60)).toNat = leAt b 60 4 ∧ leAt b 6 2 = 1 ∧ leAt b 8 4 = 112 ∧ b.length = 112 ∧
    leAt b 12 1 = 14 ∧ leAt b 13 1 = 0 ∧ leAt b 24 5 % 4096 = 0 ∧ leAt (0 :: b) 0 4 ≠ 0x474D494B ∧ leAt (bytesAt b 0 4 ++ [2]) 4 1 ≠ 1 ∧
    (crc32c (bytesAt (bytesAt b 0 5 ++ [7]) 0 60)).toNat ≠ leAt (bytesAt b 0 5 ++ [7]) 60 4 := by decide +kernel
theorem witness_Boot_start : let s := { State.reset with pwr := { State.reset.pwr with phase := .main } }
    s.pwr.phase = .main ∧ rd s F.PWR_STATUS_BOOT_STATE = 0 ∧ s.pwr.boot = none ∧ rd s F.PWR_STATUS_RESET_KIND = 0 ∧ rd s F.DMC_GSTATUS_READY = 0 ∧
    rd s F.DMC_GSTATUS_INIT_BUSY = 0 ∧ s.dmc.holdClock = false ∧ rd s F.DMC_CTRL_LOCK = 0 ∧ rd (wr0 s F.DMC_CTRL_LOCK 1) F.DMC_CTRL_LOCK = 1 ∧ State.reset.pwr.phase ≠ .main ∧
    rd (wr0 s F.PWR_STATUS_RESET_KIND 2) F.PWR_STATUS_RESET_KIND = 2 ∧ rd s F.PWR_STATUS_FALLBACK = 0 ∧ s.pwr.retention = none := by decide +kernel
theorem witness_Boot_retained : let b := bootImage (recordOf 5 0 0 [])
    Memory.readBytes (Memory.writeBytes [] 0x1000 b) 0x1000 112 = b := by decide +kernel
theorem witness_Boot_go : let b := bootImage (recordOf 5 0 0 [])
    let s := wrReg (wr0 { ready State.reset with mem := Memory.writeBytes [] 0x1000 b } F.PWR_STATUS_BOOT_STATE 1) R.PWR_BOOT_ADDR 0 0 0x1000
    rd s F.PWR_STATUS_BOOT_STATE = 1 ∧ s.pwr.boot = none ∧ accessWaits s 0 = false ∧ (busRead s 0 (rdReg s R.PWR_BOOT_ADDR) 64).2.2 = bytesAt b 0 64 ∧
    rdReg s R.PWR_BOOT_ADDR = leAt b 24 5 ∧ (busRead s 0 0x1000 112).2 = (0, b) ∧ accessWaits (wr s F.PRT_HOLD_REQ 0 0 1) 0 = true ∧ rdReg (wrReg s R.PWR_BOOT_ADDR 0 0 0x1001) R.PWR_BOOT_ADDR ≠ leAt b 24 5 := by
  decide +kernel
theorem witness_Boot_digest : let b := bootImage (recordOf 5 0 0 [])
    sha256 (bytesAt b 0 80) = bytesAt b 80 32 ∧ sha256 [] ≠ bytesAt b 80 32 ∧ (booting b 2 true).pwr.boot.isSome = true ∧
    accessWaits (booting b 2 false) 0 = false ∧ (busWrite (booting b 2 false) 0 0x1000 b).1.pwr.boot.isSome = true ∧
    (busWrite (booting b 2 false) 0 0x1000 b).2 = 0 ∧
    rd (booting b 2 false) F.PWR_OTP_STATE_SLOTS / 4 ^ 3 % 4 ≠ 1 := by decide +kernel
theorem witness_Boot_records : let at_ := fun (b : List Byte) (o n : Nat) => leAt b (64 + o) n
    let end_ := bootImage (recordOf 5 0 0 [])
    let regs := bootImage (recordOf 1 8 0 (leBytes 0x220 4 ++ leBytes 7 4 ++ List.replicate 8 0))
    let copy := bootImage (recordOf 2 3 0x10FD ([1, 2, 3] ++ List.replicate 13 0))
    let start := bootImage (recordOf 3 0 0x8000 [])
    at_ end_ 0 1 = 5 ∧ at_ end_ 1 1 = 1 ∧ at_ end_ 4 4 = 0 ∧ 64 + 16 ≤ leAt end_ 8 4 ∧ leAt end_ 6 2 = 1 ∧ at_ regs 4 4 = 8 ∧
    leAt regs 80 4 = 0x220 ∧ 64 + 32 ≤ leAt regs 8 4 ∧ at_ copy 8 5 % 256 + at_ copy 4 4 = 256 ∧ at_ start 8 5 % 2 ^ 16 = 2 ^ 15 ∧
    at_ (bootImage (recordOf 6 0 0 [])) 0 1 = 6 ∧ at_ (bootImage (recordOf 4 1 0 [])) 4 4 = 1 ∧ at_ (bootImage (recordOf 4 0 9 [])) 0 1 = 4 := by decide +kernel
theorem witness_Boot_accesses : let s := booting [] 3 false
    let w : Access1 := { master := 0, addr := 0x1800000220, len := 4, write := true }
    let m : Access1 := { master := 0, addr := 0x10FD, len := 3, write := true }
    protCheck s w = none ∧ decodeKind s w = 0 ∧ protCheck s m = none ∧ decodeKind s m = 0 ∧ inDram s 0x10FD 3 = true ∧
    decodeKind s { w with addr := 0x1800000000 + 0x3FFFFFC } ≠ 7 ∧ seqBusy (seqOf s 15) = false ∧ seqBusy (seqOf (atAdd .running) 0) = true ∧
    decodeKind State.reset m ≠ 0 ∧ bootWaits s 0x1800000220 = false ∧ bootWaits s 0x10FD = false ∧ bootWaits (wr s F.PRT_HOLD_REQ 0 0 1) 0x10FD = true := by decide +kernel


/-! ### Well-formedness: an ill-formed command for every check, which the check refuses -/

/-- Offsets off their alignment. -/
theorem test_wellFormed_offsets : ([.registerWrite 2 false 0, .registerWrite 4 true 0, .w1cFlagClear 1 0, .cntClr 2, .blockLockSet 3 0,
  .chkConfigWrite 2 false 0, .chkConfigWrite 4 true 0, .touchConfigWrite 2 0, .prtRegionWrite 1 0] : List Instr).all (fun i => !i.wellFormed) = true := by decide +kernel
/-- Byte and value lists that are too short or too long. -/
theorem test_wellFormed_lists : ([.macFrameRx 0 [] true, .irqHpd 0 250 [0, 0], .irqHpd 0 250 [0, 0, 0, 0], .dpLineRx 0 [], .seqWindowWrite 0 0 [],
  .seqWindowWrite 0 0 (List.replicate 257 0), .touchScanEnd 0 [], .touchTestDone 0 [] (List.replicate 60 0), .touchTestDone 0 (List.replicate 60 0) [],
  .wakeScan 0 [], .wakeScan 0 (List.replicate 37 0), .auxDone 0 0 (List.replicate 17 0), .dprxAuxRequest 0 0 0 (List.replicate 17 0) 0,
  .dprxAuxRequest 0 0 0 [] 17, .ndosinPacketRx 0 0 (List.replicate 5 []) true,
  .hostRequest true 0 0 [], .hostRequest false 0 0 [], .hostRequest false 0 4097 [], .dramInitDone 0 [],
  .laneCdrLock 0 ⟨0, true, true⟩ ⟨List.replicate 11 0, List.replicate 12 0⟩, .laneCdrLock 0 ⟨0, true, true⟩ ⟨List.replicate 12 0, List.replicate 13 0⟩, .debugMasterRequest 0 true 0 [], .debugMasterRequest 0 false 0 [], .debugMasterRequest 0 false 257 []] : List Instr).all (fun i => !i.wellFormed) = true := by decide +kernel
theorem test_wellFormed_queue : (Instr.hostqTxFrame 3 4).wellFormed = false ∧ (Instr.hostqTxFrame 4 4).wellFormed = true ∧
    (Instr.glassRowResult 0 0 0 (List.replicate 64 0)).wellFormed = false := by decide +kernel
theorem test_wellFormed_cause : (Instr.dptxTrainingEnd 0 ⟨6, true⟩ []).wellFormed = false ∧ (Instr.dptxTrainingEnd 0 ⟨5, false⟩ []).wellFormed = true ∧
    (Instr.dptxTrainingEnd 0 ⟨0, false⟩ (List.replicate 5 0)).wellFormed = false := by decide +kernel
theorem test_wellFormed_long (n : Nat) (h : 33554432 < n) : let l : List Byte := List.replicate n 0
    [Instr.heartbeatRx 0 l, .rowRecordRx 0 l, .twinLineRx 0 0 l, .touchRemoteReportRx 0 l, .macFrameRx 0 l true, .bootStart l,
      .hostRequest true 0 0 (l.map some)].all (fun i => !i.wellFormed) = true := by
  simp only [List.all_cons, List.all_nil, Instr.wellFormed, sized, List.length_replicate, List.length_map]
  simp; omega
theorem test_wellFormed_good : [Instr.registerWrite 8 true 0, .cntClr 4, .dramInitDone 0 (List.replicate 8 0), .hostRequest false 0 4096 []].all
    Instr.wellFormed = true := by decide +kernel

/-! ### Values the spec prints -/

/-- The check value of the CRC-32C model (R71). -/
theorem test_crc32c_check : crc32c [0x31, 0x32, 0x33, 0x34, 0x35, 0x36, 0x37, 0x38, 0x39] = 0xE3069283 := by decide +kernel
/-- The seal of 16 zero bytes under an all-zero address block (R44). -/
theorem test_sealTile_zero : sealTile (List.replicate 16 0) (List.replicate 16 0) = 0x8A9136AA := by decide +kernel
/-- The address block of tile 67 of camera 57 (02_seals_and_check_units.md, worked example). -/
theorem test_addressBlock_camera57 : addressBlock 0 0 0x39 0x12C4F 67 0x035A41C000 =
    [0, 0, 0x39, 0, 0x4F, 0x2C, 1, 0, 0x43, 0, 0, 7, 0x69, 0x0D, 0, 0] := by decide +kernel
/-- Index 21 of the camera call-up program (14_ksis_reference.md): lset s7, s0, s6, 0x1000. -/
theorem test_ksis_word : 0x50380C0000001000 / 2 ^ 56 = 0x50 ∧ fieldsOf 0x50380C0000001000 = { rd := 7, ra := 0, rb := 6, fn := 0, imm := 0x1000 } := by
  decide +kernel
/-- The deltas of the touch on a desk thumbnail (15_console_touch.md, worked example). -/
def thumbTouch : Touch :=
  { base := [(24 * 13 + 8, 20), (24 * 13 + 9, 60), (24 * 13 + 10, 40), (24 * 14 + 8, 60), (24 * 14 + 9, 300), (24 * 14 + 10, 40),
             (24 * 15 + 8, 40), (24 * 15 + 9, 160), (24 * 15 + 10, 80)] }
theorem test_touch_position : peakAt thumbTouch (24 * 14 + 9) = (941, 611) := by decide +kernel
theorem test_touch_map : let s := wr (wr (wr (wr State.reset F.TCH_XFORM_COEF 0 0 72818) F.TCH_XFORM_COEF 0 1 0) F.TCH_XFORM_COEF 0 4 61440) F.TCH_XFORM_COEF 0 5 0
    mapPoint s 0 941 611 = (1045, 572) := by decide +kernel
/-- ADD wraps, and the program counter moves on (R441). -/
theorem test_add_wraps : (seqOf (nx (execAdd 0 3 1 2 0 0 (programmed (BitVec.ofNat 64 (2 ^ 64 - 1)) 1)) State.reset) 0).regs.get 3 7 = 0 := by decide +kernel
/-- A refresh is repaid without panic and held back under it (R602, R603). -/
theorem test_refresh : nextRd (execRefresh 5 (wr trained F.DMC_CH_STATUS_POSTPONED 5 0 2)) F.DMC_CH_STATUS_POSTPONED 5 = some 1 ∧
    nextRd (execRefresh 5 (wr0 trained F.DMC_GSTATUS_PANIC 1)) F.DMC_CH_STATUS_POSTPONED 5 = some 1 := by decide +kernel

end Sys2Proof.Tests
end

