-- ==== Sys2Proof/Proofs/SerialComparison.lean ====
section
/-!
R14: serial comparison.
-/

namespace Sys2Proof

/-- The difference of two values below the modulus wraps at most once. -/
theorem sub_emod_eq {m a b : Nat} (ha : a < m) (hb : b < m) : ((a : Int) - b) % m = if b ≤ a then (a : Int) - b else a - b + m := by
  split
  · exact Int.emod_eq_of_lt (by omega) (by omega)
  · rw [← Int.add_emod_right, Int.emod_eq_of_lt (by omega) (by omega)]

/-- The difference that the model takes among naturals is the one modulo 2^n. -/
theorem serialDifference {m a b : Nat} (hb : b < m) : (((a + m - b % m) % m : Nat) : Int) = ((a : Int) - b) % m := by
  rw [Nat.mod_eq_of_lt hb, Int.natCast_mod, Nat.cast_sub (by omega), Nat.cast_add, add_sub_right_comm, Int.add_emod_right]

/-- Serial comparison is the half-range rule on the difference modulo 2^n. -/
theorem serialLater_iff {n a b : Nat} (hb : b < 2 ^ n) :
    serialLater n a b = true ↔ 1 ≤ ((a : Int) - b) % (2 ^ n : Nat) ∧ ((a : Int) - b) % (2 ^ n : Nat) ≤ ((2 ^ (n - 1) : Nat) : Int) - 1 := by
  rw [← serialDifference hb]
  simp only [serialLater, Bool.and_eq_true, bne_iff_ne, decide_eq_true_eq]
  omega

/-- Settles O10: the difference wraps at most once, so the two differences of a pair are both 0, both half the range, or add up to 2^n. -/
theorem serialComparison : Obligations.SerialComparison := by
  unfold Obligations.SerialComparison
  intro n a b hn ha hb
  have range : 2 ^ n = 2 * 2 ^ (n - 1) := by rw [← Nat.pow_succ', Nat.succ_eq_add_one, Nat.sub_add_cancel hn]
  refine ⟨serialLater_iff hb, fun h => ?_⟩
  rw [Bool.eq_false_iff, Bool.eq_false_iff, Ne, Ne, serialLater_iff hb, serialLater_iff ha]
  rw [sub_emod_eq ha hb] at *
  rw [sub_emod_eq hb ha]
  split at h <;> split <;> omega

end Sys2Proof
end

