-- ==== Sys2Proof/Proofs/Canonical.lean ====
section
/-!
The canonical forms of a state, and of the state at reset.
-/

namespace Sys2Proof.Machine

theorem canonical_iff (s : State) : s.canonical = true ↔ Map.wf s.regs = true ∧ Memory.wf s.mem = true := by
  rw [State.canonical, Bool.and_eq_true]

/-- Settles O3: the reset state lists no register and no byte of DRAM. -/
theorem resetIsCanonical : Obligations.ResetIsCanonical := by
  unfold Obligations.ResetIsCanonical
  exact (canonical_iff _).2 ⟨rfl, Memory.wf_nil⟩

end Sys2Proof.Machine
end

