-- ==== Sys2Proof/Proofs/Kept.lean ====
section
/-!
What every operation of the model keeps: the canonical forms of registers and DRAM (R17, R550), and the queue of commands. The predicate
`Kept`, and one rule for each way in which the model composes states.

Each later lemma `Kept.<operation>` says that the operation keeps it. Such a proof follows the operation's definition from the state it
starts from: `h.wr.raise` is a write of a field and then a raised flag, `.ite a b` the two branches of an `if`.
-/

namespace Sys2Proof.Machine

/-- What every operation of the model keeps of the state it starts from: the canonical forms of registers and DRAM, and the queue of
commands. -/
structure Kept (s₀ s : State) : Prop where
  canonical : s₀.canonical = true → s.canonical = true
  pending : s.pending = s₀.pending

/-- Every state that a partial operation can answer keeps what every operation keeps. -/
def Offers (s₀ : State) (o : Option State) : Prop := ∀ t, o = some t → Kept s₀ t

/-- The state that an Easel command leaves, accepted or refused. -/
def EasResult.state : EasResult → State
  | .ok s _ => s
  | .no s _ _ => s

/-- A command's outcome is a next state, which keeps what every operation keeps. -/
def Answers (s₀ : State) (o : Host.Outcome State Fault Refusal) : Prop := ∃ t, o = .next t ∧ Kept s₀ t

section
variable {s₀ s t u : State}

protected theorem Kept.refl (s : State) : Kept s s := ⟨id, rfl⟩

/-- `Kept.id` states a claim about a state whose form its proof finds out. -/
protected theorem Kept.id (h : Kept s₀ s) : Kept s₀ s := h

/-- Registers in canonical form, and any change of the parts of the state that are neither registers, nor DRAM, nor the queue. -/
protected theorem Kept.setRegs {regs time straps ptp net slu vdc ven eas cmp chk tnd seqs tch cpr jnl lane lnk fab prt dmc pwr out free}
    (h : Kept s₀ s) (hr : Map.wf s.regs = true → Map.wf regs = true) :
    Kept s₀ ⟨regs, s.mem, time, straps, ptp, net, slu, vdc, ven, eas, cmp, chk, tnd, seqs, tch, cpr, jnl, lane, lnk, fab, prt, dmc, pwr,
      out, free, s.pending⟩ := by
  refine ⟨fun hs => ?_, h.pending⟩
  obtain ⟨hregs, hmem⟩ := (canonical_iff s).1 (h.canonical hs)
  exact (canonical_iff _).2 ⟨hr hregs, hmem⟩

/-- Any change of the parts of the state that are neither registers, nor DRAM, nor the queue. -/
protected theorem Kept.set {time straps ptp net slu vdc ven eas cmp chk tnd seqs tch cpr jnl lane lnk fab prt dmc pwr out free}
    (h : Kept s₀ s) : Kept s₀ ⟨s.regs, s.mem, time, straps, ptp, net, slu, vdc, ven, eas, cmp, chk, tnd, seqs, tch, cpr, jnl, lane, lnk,
      fab, prt, dmc, pwr, out, free, s.pending⟩ := h.setRegs id

/-- An update of DRAM that keeps its canonical form, and leaves the registers and the queue. -/
protected theorem Kept.setMem {m jnl dmc} (h : Kept s₀ s) (hm : Memory.wf s.mem = true → Memory.wf m = true) :
    Kept s₀ { s with mem := m, jnl := jnl, dmc := dmc } := by
  refine ⟨fun hs => ?_, h.pending⟩
  obtain ⟨hregs, hmem⟩ := (canonical_iff s).1 (h.canonical hs)
  exact (canonical_iff _).2 ⟨hregs, hm hmem⟩

protected theorem Kept.ite {p : Prop} {_ : Decidable p} (hs : Kept s₀ s) (ht : Kept s₀ t) : Kept s₀ (if p then s else t) := by
  split
  · exact hs
  · exact ht

protected theorem Kept.fstIte {β : Type} {p : Prop} {_ : Decidable p} {a b : State × β} (ha : Kept s₀ a.1) (hb : Kept s₀ b.1) :
    Kept s₀ (if p then a else b).1 := by
  split
  · exact ha
  · exact hb

protected theorem Kept.stateIte {p : Prop} {_ : Decidable p} {a b : EasResult} (ha : Kept s₀ a.state) (hb : Kept s₀ b.state) :
    Kept s₀ (if p then a else b).state := by
  split
  · exact ha
  · exact hb

protected theorem Kept.also {b : Bool} {f : State → State} (h : Kept s₀ s) (hf : ∀ {u}, Kept s₀ u → Kept s₀ (f u)) :
    Kept s₀ (also b f s) := .ite (hf h) h

protected theorem Kept.foldl {α : Type} {f : State → α → State} {l : List α} (h : Kept s₀ s)
    (hf : ∀ {u} x, Kept s₀ u → Kept s₀ (f u x)) : Kept s₀ (l.foldl f s) := by
  induction l generalizing s with
  | nil => exact h
  | cons x l ih => exact ih (hf x h)

protected theorem Kept.pair {β : Type} {b : β} (h : Kept s₀ s) : Kept s₀ (s, b).1 := h

protected theorem Kept.foldlPair {α β : Type} {f : State × β → α → State × β} {l : List α} {a : State × β} (h : Kept s₀ a.1)
    (hf : ∀ {a} x, Kept s₀ a.1 → Kept s₀ (f a x).1) : Kept s₀ (l.foldl f a).1 := by
  induction l generalizing a with
  | nil => exact h
  | cons x l ih => exact ih (hf x h)

protected theorem Kept.foldlFst {α β : Type} {f : State × β → α → State × β} {l : List α} {b : β} (h : Kept s₀ s)
    (hf : ∀ {a} x, Kept s₀ a.1 → Kept s₀ (f a x).1) : Kept s₀ (l.foldl f (s, b)).1 := Kept.foldlPair h hf

protected theorem Kept.each {α : Type} {f : State → α → State} {l : List α} (h : Kept s₀ s)
    (hf : ∀ {u} x, Kept s₀ u → Kept s₀ (f u x)) : Kept s₀ (each l f s) := h.foldl hf

protected theorem Kept.next (h : Kept s₀ s) : Answers s₀ (.next s) := ⟨s, rfl, h⟩

protected theorem Answers.ite {p : Prop} {_ : Decidable p} {o o' : Host.Outcome State Fault Refusal} (h : Answers s₀ o)
    (h' : Answers s₀ o') : Answers s₀ (if p then o else o') := by
  split
  · exact h
  · exact h'

protected theorem Kept.some (h : Kept s₀ s) : Offers s₀ (some s) := by
  rintro t ⟨⟩
  exact h

protected theorem Offers.none : Offers s₀ none := by rintro t ⟨⟩

protected theorem Offers.ite {p : Prop} {_ : Decidable p} {o o' : Option State} (h : Offers s₀ o) (h' : Offers s₀ o') :
    Offers s₀ (if p then o else o') := by
  split
  · exact h
  · exact h'

protected theorem Kept.ok {r} (h : Kept s₀ s) : Kept s₀ (EasResult.ok s r).state := h

protected theorem Kept.no {code field} (h : Kept s₀ s) : Kept s₀ (EasResult.no s code field).state := h

protected theorem Kept.ofOk {e : EasResult} {r} (he : e = .ok s r) (h : Kept s₀ e.state) : Kept s₀ s := by
  subst he
  exact h

protected theorem Kept.ofNo {e : EasResult} {code field} (he : e = .no s code field) (h : Kept s₀ e.state) : Kept s₀ s := by
  subst he
  exact h

/-! ### Registers and flags -/

protected theorem Kept.wrReg {r i j v} (h : Kept s₀ s) : Kept s₀ (wrReg s r i j v) := h.setRegs (Map.wf_put _ _ _)

protected theorem Kept.wr {f i j v} (h : Kept s₀ s) : Kept s₀ (wr s f i j v) := h.wrReg

protected theorem Kept.wr0 {f v} (h : Kept s₀ s) : Kept s₀ (wr0 s f v) := h.wr

protected theorem Kept.raiseVector {v} (h : Kept s₀ s) : Kept s₀ (raiseVector s v) := h.set

protected theorem Kept.raiseQuiet {k i} (h : Kept s₀ s) : Kept s₀ (raiseQuiet s k i) := h.wr.wr

protected theorem Kept.raiseIf {b k i} (h : Kept s₀ s) : Kept s₀ (raiseIf b s k i) := .ite h.raiseQuiet.raiseVector h.raiseQuiet

protected theorem Kept.raise {k i} (h : Kept s₀ s) : Kept s₀ (raise s k i) := h.raiseIf

end

end Sys2Proof.Machine
end

