-- ==== Sys2Proof/Proofs/KeptAccess.lean ====
section
/-!
What the accesses of memory, registers and DRAM keep, and the Journal, sequencer and power operations.
-/

namespace Sys2Proof.Machine

section
variable {s₀ s : State}

/-! ### Operations that every block shares -/

protected theorem Kept.draw (h : Kept s₀ s) : Kept s₀ (draw s) := h.set

protected theorem Kept.emit {o} (h : Kept s₀ s) : Kept s₀ (emit s o) := h.set

protected theorem Kept.dramWrite {a l} (h : Kept s₀ s) : Kept s₀ (dramWrite s a l).1 := by
  rcases dramWrite_cases s a l with k | ⟨-, -, b, w, k⟩ <;> rw [k]
  · exact h
  · exact h.setMem (Memory.wf_writeBytes _ _ _)

protected theorem Kept.dramWriteMasked {a l holes} (h : Kept s₀ s) : Kept s₀ (dramWriteMasked s a l holes).1 := by
  rcases dramWriteMasked_cases s a l holes with k | k | ⟨m, b, w, k⟩ <;> rw [k]
  · exact h.dramWrite
  · exact h
  · exact h.setMem (Memory.wf_writeBytes _ _ _)

protected theorem Kept.setSeq {n q} (h : Kept s₀ s) : Kept s₀ (setSeq s n q) := h.set

protected theorem Kept.updSeq {n f} (h : Kept s₀ s) : Kept s₀ (updSeq s n f) := h.setSeq

protected theorem Kept.askJournal {rank ty l} (h : Kept s₀ s) : Kept s₀ (askJournal s rank ty l) := h.set

protected theorem Kept.setGal {g x} (h : Kept s₀ s) : Kept s₀ (setGal s g x) := h.set

protected theorem Kept.updGal {g f} (h : Kept s₀ s) : Kept s₀ (updGal s g f) := h.setGal

protected theorem Kept.setLay {l x} (h : Kept s₀ s) : Kept s₀ (setLay s l x) := h.set

protected theorem Kept.updLay {l f} (h : Kept s₀ s) : Kept s₀ (updLay s l f) := h.setLay

protected theorem Kept.setDesc {d x} (h : Kept s₀ s) : Kept s₀ (setDesc s d x) := h.set

protected theorem Kept.updDesc {d f} (h : Kept s₀ s) : Kept s₀ (updDesc s d f) := h.setDesc

protected theorem Kept.setSrc {i x} (h : Kept s₀ s) : Kept s₀ (setSrc s i x) := h.set

protected theorem Kept.updSrc {i f} (h : Kept s₀ s) : Kept s₀ (updSrc s i f) := h.setSrc

protected theorem Kept.setCnv {c x} (h : Kept s₀ s) : Kept s₀ (setCnv s c x) := h.set

protected theorem Kept.updCnv {c f} (h : Kept s₀ s) : Kept s₀ (updCnv s c f) := h.setCnv

/-! ### Status flags and event signals -/

protected theorem Kept.countUp {f i} (h : Kept s₀ s) : Kept s₀ (countUp s f i) := h.wr

protected theorem Kept.addSat {f i n} (h : Kept s₀ s) : Kept s₀ (addSat s f i n) := h.wr

protected theorem Kept.addWrap {f i n} (h : Kept s₀ s) : Kept s₀ (addWrap s f i n) := h.wr

protected theorem Kept.signalTo {n ev} (h : Kept s₀ s) : Kept s₀ (signalTo s n ev) := .ite h <| .ite h.raise h.setSeq

protected theorem Kept.signal {ev} (h : Kept s₀ s) : Kept s₀ (signal s ev) := h.each fun _ k => k.signalTo

protected theorem Kept.raisePtp {k'} (h : Kept s₀ s) : Kept s₀ (raisePtp s k') := h.raise.signal

/-! ### DRAM errors and Gesso hold -/

protected theorem Kept.dramEntry {kind channel margin window supp addr cause} (h : Kept s₀ s) :
    Kept s₀ (dramEntry s kind channel margin window supp addr cause) := h.askJournal

protected theorem Kept.noteCause {cause} (h : Kept s₀ s) : Kept s₀ (noteCause s cause) := h.set

protected theorem Kept.holdAll (h : Kept s₀ s) : Kept s₀ (holdAll s) := h.each fun _ k => k.updCnv

protected theorem Kept.enterHold {cause} (h : Kept s₀ s) : Kept s₀ (enterHold s cause) :=
  have h₁ := h.noteCause
  .ite h₁ h₁.wr0.holdAll.wr0.raise.dramEntry

protected theorem Kept.testThreshold {c} (h : Kept s₀ s) : Kept s₀ (testThreshold s c) := .ite h.wr.raise.dramEntry.wr0.enterHold h

protected theorem Kept.ueEntry {c addr} (h : Kept s₀ s) : Kept s₀ (ueEntry s c addr) := .ite h.set h.dramEntry.set

protected theorem Kept.eccRecord {c a uncorr link} (h : Kept s₀ s) : Kept s₀ (eccRecord s c a uncorr link) := h.wr.wr.wr.wr.addSat

protected theorem Kept.eccError {a uncorr link} (h : Kept s₀ s) : Kept s₀ (eccError s a uncorr link) :=
  have h₁ := h.eccRecord
  (Kept.ite h₁.raise.ueEntry h₁.raise.addSat).testThreshold

protected theorem Kept.meetPoison {a n} (h : Kept s₀ s) : Kept s₀ (meetPoison s a n) := by
  unfold meetPoison
  refine .ite h ?_
  split
  · exact h.eccError
  · exact h.set

protected theorem Kept.meetWeak {words} (h : Kept s₀ s) : Kept s₀ (meetWeak words s) := h.each fun _ k => k.eccError

/-! ### Fabric accesses -/

protected theorem Kept.recordDenial {u x d} (h : Kept s₀ s) : Kept s₀ (recordDenial s u x d) := h.wr.wr.wr.wr.wr.wr.wr.wr.set

protected theorem Kept.violate {x d} (h : Kept s₀ s) : Kept s₀ (violate s x d) := by
  unfold violate
  split
  · exact h
  · exact (Kept.ite h h.recordDenial).addSat.raiseIf

protected theorem Kept.decodeError {x kind} (h : Kept s₀ s) : Kept s₀ (decodeError s x kind) := h.wr.wr.wr.wr.wr.raise

protected theorem Kept.checkAccess {x} (h : Kept s₀ s) : Kept s₀ (checkAccess s x).1 := by
  unfold checkAccess
  split
  · exact h.violate.pair
  · exact .fstIte h.pair h.decodeError.pair

protected theorem Kept.noteGrant {p m a n write} (h : Kept s₀ s) : Kept s₀ (noteGrant s p m a n write) := h.set

protected theorem Kept.windowWrite {n off l} (h : Kept s₀ s) : Kept s₀ (windowWrite s n off l).1 :=
  .fstIte h.setSeq.pair <| .fstIte h.setSeq.pair h.raise.pair

protected theorem Kept.targetRead {a n} (h : Kept s₀ s) : Kept s₀ (targetRead s a n).1 := by
  unfold targetRead
  split
  · split
    · exact h.meetWeak.pair
    · exact h.meetPoison.pair
  · exact h.pair
  · exact h.pair
  · exact h.pair

protected theorem Kept.targetWrite {a l holes} (h : Kept s₀ s) : Kept s₀ (targetWrite s a l holes).1 := by
  unfold targetWrite
  split
  · exact .fstIte h.dramWriteMasked.meetWeak.pair h.meetPoison.pair
  · exact h.windowWrite
  · exact h.pair

protected theorem Kept.readPiece {master acc p} (h : Kept s₀ acc.1) : Kept s₀ (readPiece master acc p).1 := by
  unfold readPiece
  dsimp only
  split
  · exact h.pair
  · split
    · exact h.checkAccess.pair
    · exact h.checkAccess.noteGrant.targetRead.pair

protected theorem Kept.busRead {master a n} (h : Kept s₀ s) : Kept s₀ (busRead s master a n).1 := h.foldlFst fun _ k => k.readPiece

protected theorem Kept.writePiece {master a l acc p} (h : Kept s₀ acc.1) : Kept s₀ (writePiece master a l acc p).1 := by
  unfold writePiece
  dsimp only
  split
  · exact h
  · split
    · exact h.checkAccess.pair
    · exact h.checkAccess.noteGrant.targetWrite.pair

protected theorem Kept.busWrite {master a l} (h : Kept s₀ s) : Kept s₀ (busWrite s master a l).1 := h.foldlFst fun _ k => k.writePiece

protected theorem Kept.shimReset {m} (h : Kept s₀ s) : Kept s₀ (shimReset s m) := (Kept.ite h.set.updSeq h.set).wr0.wr0

protected theorem Kept.resetMasters (h : Kept s₀ s) : Kept s₀ (resetMasters s) := h.each fun _ k => k.shimReset

/-! ### The DRAM controller -/

protected theorem Kept.leaveMemHold (h : Kept s₀ s) : Kept s₀ (leaveMemHold s) :=
  .ite h.set (h.set.wr0.each fun _ k => k.updCnv).dramEntry

protected theorem Kept.dropFreq (h : Kept s₀ s) : Kept s₀ (dropFreq s) := h.set.wr0.wr0

protected theorem Kept.startInit (h : Kept s₀ s) : Kept s₀ (startInit s) :=
  .ite h ((h.dropFreq.each fun _ k => k.wr).wr0.setMem fun _ => Memory.wf_nil)

protected theorem Kept.readySet (h : Kept s₀ s) : Kept s₀ (readySet s) := h.wr0.set

protected theorem Kept.finishInit {failed margins} (h : Kept s₀ s) : Kept s₀ (finishInit s failed margins) :=
  have h₁ := h.wr0.each fun _ k => k.wr
  .ite (h₁.each fun _ k => k.wr.wr).wr0.readySet.raise.leaveMemHold (h₁.each fun _ k => .ite k.wr.raise k.wr).raise.dramEntry

protected theorem Kept.dramReset (h : Kept s₀ s) : Kept s₀ (dramReset s) :=
  ((h.dropFreq.each fun _ k => k.wr).wr0.wr0.setMem fun _ => Memory.wf_nil).enterHold

protected theorem Kept.freqRequest {sp} (h : Kept s₀ s) : Kept s₀ (freqRequest s sp) := .ite h.raise <| .ite h.set.wr0.raise h.set.wr0

protected theorem Kept.execFreqDone (h : Kept s₀ s) : Answers s₀ (execFreqDone s) := by
  unfold execFreqDone
  split
  · exact h.next
  · exact .ite h.next h.set.wr0.wr0.raise.dramEntry.next

protected theorem Kept.windowMargin {c margin} (h : Kept s₀ s) : Kept s₀ (windowMargin s c margin) :=
  .ite (.ite h.wr.wr.raise.dramEntry h.wr) <| .ite h.wr.set h.wr.set.wr.set.dramEntry

protected theorem Kept.plantError {w uncorr kind} (h : Kept s₀ s) : Kept s₀ (plantError s w uncorr kind) := by
  unfold plantError
  split
  · exact h.set
  · exact .ite h h.set
  · exact h.set
  · exact h

/-! ### The Journal -/

protected theorem Kept.execJournalRequest (h : Kept s₀ s) : Answers s₀ (execJournalRequest s) := by
  unfold execJournalRequest
  dsimp only
  split
  · exact h.next
  · exact .ite h.set.addSat.raise.next h.set.draw.next

protected theorem Kept.appendEntry {ty time unlocked payload} (h : Kept s₀ s) : Kept s₀ (appendEntry s ty time unlocked payload) :=
  .ite h.set.addSat.raise h.set

protected theorem Kept.appendBoundary {payload} (h : Kept s₀ s) : Kept s₀ (appendBoundary s payload) := h.appendEntry.draw

protected theorem Kept.execJournalAppend (h : Kept s₀ s) : Answers s₀ (execJournalAppend s) := by
  unfold execJournalAppend
  refine .ite h.set.appendBoundary.next ?_
  split
  · exact h.set.appendBoundary.next
  · exact h.set.appendEntry.next
  · exact h.next

protected theorem Kept.drainOne (h : Kept s₀ s) : Kept s₀ (drainOne s) := by
  unfold drainOne
  dsimp only
  refine .ite h ?_
  split
  · exact h.busWrite.set
  · refine .ite ?_ h.busWrite.set
    exact
      have h₁ := h.busWrite.set.addSat.raise
      .ite h₁ h₁.set

protected theorem Kept.captureHead (h : Kept s₀ s) : Kept s₀ (captureHead s) := h.wrReg.each fun _ k => k.wrReg

/-! ### Register accesses by access type -/

protected theorem Kept.writeReg {r i j v m} (h : Kept s₀ s) : Kept s₀ (writeReg s r i j v m) := h.wrReg

protected theorem Kept.clearCounts {r i} (h : Kept s₀ s) : Kept s₀ (clearCounts s r i) := by
  unfold clearCounts
  split
  · exact h
  · exact h.each fun _ k => k.wr

protected theorem Kept.clearFlags {l mask} (h : Kept s₀ s) : Kept s₀ (clearFlags s l mask) := h.wrReg

protected theorem Kept.execW1cFlagClear {off mask} (h : Kept s₀ s) : Answers s₀ (execW1cFlagClear off mask s) := by
  unfold execW1cFlagClear
  split
  · exact h.next
  · exact h.clearFlags.next

protected theorem Kept.execCntClr {off} (h : Kept s₀ s) : Answers s₀ (execCntClr off s) := by
  unfold execCntClr
  split
  · exact h.next
  · exact h.clearCounts.next

/-! ### Sequencers apart from their instructions -/

protected theorem Kept.startRefused {n code value} (h : Kept s₀ s) : Kept s₀ (startRefused s n code value) :=
  have h₁ := h.updSeq.wr
  (Kept.id (by split; exacts [h₁.wr, h₁.wr.draw])).raise

protected theorem Kept.seqStart {n} (h : Kept s₀ s) : Kept s₀ (seqStart s n) := .ite h.startRefused h.updSeq

protected theorem Kept.finishStart {n} (h : Kept s₀ s) : Kept s₀ (finishStart s n) := by
  unfold finishStart
  dsimp only
  split
  · exact h.startRefused
  · exact h.setSeq.wr.wrReg.wrReg

protected theorem Kept.haltSeq {n} (h : Kept s₀ s) : Kept s₀ (haltSeq s n) := .ite h.setSeq h

protected theorem Kept.becomeHalted {n} (h : Kept s₀ s) : Kept s₀ (becomeHalted s n) := h.updSeq.raiseIf

protected theorem Kept.resumeSeq {n} (h : Kept s₀ s) : Kept s₀ (resumeSeq s n) := .ite h.setSeq h

protected theorem Kept.seqSignal {ev} (h : Kept s₀ s) : Kept s₀ (seqSignal s ev) := .ite h h.signal

protected theorem Kept.seqRegWrite {n k' v} (h : Kept s₀ s) : Kept s₀ (seqRegWrite s n k' v) := .ite h.setSeq h

protected theorem Kept.execSeqTimerExpiry {n t} (h : Kept s₀ s) : Answers s₀ (execSeqTimerExpiry n t s) := by
  unfold execSeqTimerExpiry
  dsimp only
  split
  · exact h.next
  · exact .ite h.next h.setSeq.signalTo.next

protected theorem Kept.recordFault {n cause addr} (h : Kept s₀ s) : Kept s₀ (recordFault s n cause addr) := h.wrReg

protected theorem Kept.seqFault {n cause addr} (h : Kept s₀ s) : Kept s₀ (seqFault s n cause addr) :=
  have h₁ := (h.also fun k => k.draw).recordFault
  .ite h₁.setSeq h₁.setSeq.raiseIf.signal.askJournal

/-! ### Resets, power and self-tests -/

protected theorem Kept.askStart {kind} (h : Kept s₀ s) : Kept s₀ (askStart s kind) := h.askJournal

protected theorem Kept.showStraps (h : Kept s₀ s) : Kept s₀ (showStraps s) := h.wr0.wr0.wr0.wrReg.wr0.wr0

protected theorem Kept.clearAll (h : Kept s₀ s) : Kept s₀ (clearAll s) := ⟨fun _ => rfl, h.pending⟩

protected theorem Kept.keepOtp {old} (h : Kept s₀ s) : Kept s₀ (keepOtp old s) := h.wr0

protected theorem Kept.powerOnReset (h : Kept s₀ s) : Kept s₀ (powerOnReset s) := h.clearAll.showStraps.keepOtp.set

/-- A selection of entries of a map, their values changed and their keys kept, keeps the keys strictly rising. -/
theorem Map.wf_filterMap {α β : Type} (f : Nat × α → Option (Nat × β)) (hf : ∀ e e', f e = some e' → e'.1 = e.1) (m : Map α)
    (h : m.wf = true) : Map.wf (m.filterMap f) = true := by
  induction m with
  | nil => rfl
  | cons e m ih =>
    obtain ⟨a, b⟩ := e
    obtain ⟨below, rest⟩ := (Map.wf_cons a b m).1 h
    rw [List.filterMap_cons]
    split
    · exact ih rest
    · next e' he =>
      obtain ⟨a', b'⟩ := e'
      obtain rfl : a' = a := hf _ _ he
      refine (Map.wf_cons a' b' _).2 ⟨fun x hx => ?_, ih rest⟩
      obtain ⟨y, hy, hxy⟩ := List.mem_filterMap.1 hx
      rw [hf _ _ hxy]
      exact below y hy

/-- What a warm reset keeps of the registers stands in canonical form (R621). -/
theorem keptRegs_wf (s : State) (h : Map.wf s.regs = true) : Map.wf (keptRegs s) = true := by
  refine Map.wf_filterMap _ (fun e e' he => ?_) _ h
  split at he
  · cases he
  · cases he
    rfl

/-- What a wake keeps of the registers stands in canonical form (R621, R622). -/
theorem wakeRegs_wf (s : State) (h : Map.wf s.regs = true) : Map.wf (wakeRegs s) = true := by
  refine Map.wf_filterMap _ (fun e e' he => ?_) _ h
  split at he
  · cases he
  · cases he
    rfl

protected theorem Kept.warmReset (h : Kept s₀ s) : Kept s₀ (warmReset s) := (h.setRegs (keptRegs_wf s)).showStraps.wr0.wr0.wr0.askStart

protected theorem Kept.otpCommand {slot program} (h : Kept s₀ s) : Kept s₀ (otpCommand s slot program) := .ite h.set.wr0 h.raise

protected theorem Kept.execOtpDone (h : Kept s₀ s) : Answers s₀ (execOtpDone s) := by
  unfold execOtpDone
  split
  · exact h.next
  · exact h.set.wr0.wr0.raise.next

protected theorem Kept.dropContacts (h : Kept s₀ s) : Kept s₀ (dropContacts s) := (h.each fun _ k => k.wr).set

protected theorem Kept.stillEnter (h : Kept s₀ s) : Kept s₀ (stillEnter s) :=
  .ite h.wr0.raise (h.dropContacts.each fun _ k => k.haltSeq).set.wr0

protected theorem Kept.wakeFires {cause} (h : Kept s₀ s) : Kept s₀ (wakeFires s cause) := .ite h <| .ite h.warmReset.wr0.raise h.set

protected theorem Kept.execWake {device position bootSrc} (h : Kept s₀ s) : Answers s₀ (execWake device position bootSrc s) :=
  .ite h.next (h.setRegs (wakeRegs_wf s)).showStraps.keepOtp.wr0.wr0.next

protected theorem Kept.rtcSet {seconds} (h : Kept s₀ s) : Kept s₀ (rtcSet s seconds) := h.wrReg.set

protected theorem Kept.bistStart {logic} (h : Kept s₀ s) : Kept s₀ (bistStart s logic) :=
  .ite h.wr0.raise (h.each fun _ k => k.updCnv).resetMasters.set

protected theorem Kept.execBistDone {signature failed} (h : Kept s₀ s) : Answers s₀ (execBistDone signature failed s) := by
  unfold execBistDone
  split
  · exact h.next
  · exact .ite h.next (Kept.ite h.wr0.wr0.wrReg h.wr0.wr0.wrReg.wrReg.set).warmReset.next

/-! ### Start and failure of a boot -/

protected theorem Kept.bootFallback (h : Kept s₀ s) : Kept s₀ (bootFallback s) := h.wr0.wr0.wr0.set.wr0

protected theorem Kept.bootFail {code rec_ field} (h : Kept s₀ s) : Kept s₀ (bootFail s code rec_ field) :=
  have h₁ := h.wr0.wr0.wr0
  .ite h₁.bootFallback h₁.set.wr0.raise

protected theorem Kept.bootGo (h : Kept s₀ s) : Kept s₀ (bootGo s) := by
  unfold bootGo
  dsimp only
  refine .ite h ?_
  split
  · exact h.busRead.wr0.bootFail
  · exact .ite h.busRead.wr0.bootFail h.busRead.wr0.busRead.set

end

end Sys2Proof.Machine
end

