-- ==== Sys2Proof/Proofs/KeptEasel.lean ====
section
/-!
What the check units, the seals, the Easel, the compression engines, the Ledger and Tandem keep.
-/

namespace Sys2Proof.Machine

section
variable {s₀ s : State}

/-! ### Check units -/

protected theorem Kept.chkRefuse {n code} (h : Kept s₀ s) : Kept s₀ (chkRefuse s n code) := h.wr.raise

protected theorem Kept.chkBegin {n} (h : Kept s₀ s) : Kept s₀ (chkBegin s n) := .ite h.chkRefuse <| .ite h.chkRefuse h.wr.set

protected theorem Kept.chkEnd {n code} (h : Kept s₀ s) : Kept s₀ (chkEnd s n code) := h.wr.wr.wr.set.raiseIf.also fun k => k.signal

protected theorem Kept.chkAbortJob {n} (h : Kept s₀ s) : Kept s₀ (chkAbortJob s n) := .ite h.chkEnd h

protected theorem Kept.writeChkCtrl {n v m} (h : Kept s₀ s) : Kept s₀ (writeChkCtrl s n v m) :=
  .ite (.ite (h.also fun k => k.chkRefuse).chkAbortJob h.chkRefuse) (h.writeReg.also fun k => k.chkBegin)

protected theorem Kept.writeChkConfig {r i j v m} (h : Kept s₀ s) : Kept s₀ (writeChkConfig s r i j v m) := .ite h.chkRefuse h.writeReg

protected theorem Kept.execChkConfigWrite {off wide value} (h : Kept s₀ s) : Answers s₀ (execChkConfigWrite off wide value s) := by
  unfold execChkConfigWrite
  split
  · exact h.next
  · exact .ite h.writeChkCtrl.next <| .ite h.writeChkConfig.next h.next

protected theorem Kept.chkProtEnd {n} (h : Kept s₀ s) : Kept s₀ (chkProtEnd s n) := h.raise.chkEnd

protected theorem Kept.execChkJobDone {n} (h : Kept s₀ s) : Answers s₀ (execChkJobDone n s) :=
  .ite h.next <| .ite h.busRead.chkProtEnd.next <|
    have h₁ := h.busRead.wr
    (Kept.ite (h₁.raiseIf.also fun k => k.signal) h₁).chkEnd.next

/-! ### Tiles of a buffer -/

protected theorem Kept.readTile {master p t} (h : Kept s₀ s) : Kept s₀ (readTile s master p t).1 := h.foldlFst fun _ k => k.busRead.pair

/-! ### Seals -/

protected theorem Kept.readHeader {master l} (h : Kept s₀ s) : Kept s₀ (readHeader s master l).1 := h.busRead.pair

protected theorem Kept.readCrc {master l tile} (h : Kept s₀ s) : Kept s₀ (readCrc s master l tile).1 := h.busRead.pair

protected theorem Kept.tileOk {master l tile} (h : Kept s₀ s) : Kept s₀ (tileOk s master l tile).1 := h.readCrc.readTile.pair

protected theorem Kept.tileMismatch {tile layer canvas source} (h : Kept s₀ s) : Kept s₀ (tileMismatch s tile layer canvas source) :=
  h.raise.addSat.wr0.wr0.wr0.wr0.wr0

protected theorem Kept.writeLines {master p lines} (h : Kept s₀ s) : Kept s₀ (writeLines s master p lines) :=
  h.foldl fun _ k => k.busWrite

protected theorem Kept.sealRow {master p dom ident seq r lines} (h : Kept s₀ s) : Kept s₀ (sealRow s master p dom ident seq r lines) :=
  h.foldl fun _ k => k.busWrite

protected theorem Kept.writeProvisional {master p f} (h : Kept s₀ s) : Kept s₀ (writeProvisional s master p f) := h.draw.busWrite.busWrite

protected theorem Kept.completeRecord {p seq publish} (h : Kept s₀ s) : Kept s₀ (completeRecord s p seq publish) :=
  (h.foldl fun _ k => k.busRead.busWrite).busRead.busWrite

protected theorem Kept.sealBuffer {p ident seq} (h : Kept s₀ s) : Kept s₀ (sealBuffer s p ident seq).1 :=
  (h.foldlFst fun _ k => k.readTile.pair).pair

protected theorem Kept.writeHeader {master p dom ident seq publish f} (h : Kept s₀ s) :
    Kept s₀ (writeHeader s master p dom ident seq publish f) := h.busWrite

/-! ### Publication -/

protected theorem Kept.ledgerPublish {f now} (h : Kept s₀ s) : Kept s₀ (ledgerPublish s f now).1 := h.setSrc.pair

protected theorem Kept.checkFailed {f} (h : Kept s₀ s) : Kept s₀ (checkFailed s f) := .ite h.updSrc h

protected theorem Kept.takeLease {d} (h : Kept s₀ s) : Kept s₀ (takeLease s d) := h.updDesc

protected theorem Kept.dropLease {d} (h : Kept s₀ s) : Kept s₀ (dropLease s d) := h.updDesc

protected theorem Kept.discardFlatten {c} (h : Kept s₀ s) : Kept s₀ (discardFlatten s c) := by
  unfold discardFlatten
  split
  · exact h
  · exact (h.each fun _ k => k.dropLease).updCnv

protected theorem Kept.triggerFlatten {c commit} (h : Kept s₀ s) : Kept s₀ (triggerFlatten s c commit) :=
  have h₁ : Kept s₀ _ := .ite h.discardFlatten h
  .ite h₁.updCnv h₁.updCnv.updCnv

protected theorem Kept.setCtx {c x} (h : Kept s₀ s) : Kept s₀ (setCtx s c x) := h.set

protected theorem Kept.updCtx {c f} (h : Kept s₀ s) : Kept s₀ (updCtx s c f) := h.setCtx

protected theorem Kept.showCtx {c} (h : Kept s₀ s) : Kept s₀ (showCtx s c) := by
  unfold showCtx
  dsimp only
  split
  · exact h.wr.wr.wr.wr.wr
  · exact h.wr.wr.wr.wr

protected theorem Kept.parentPublished {source} (h : Kept s₀ s) : Kept s₀ (parentPublished s source) := h.each fun _ k => k.updCtx.showCtx

protected theorem Kept.publishTriggers {source} (h : Kept s₀ s) : Kept s₀ (publishTriggers s source) :=
  (h.each fun _ k => .ite k.triggerFlatten k).parentPublished

/-! ### Packets queued on the link -/

protected theorem Kept.lockLost {l} (h : Kept s₀ s) : Kept s₀ (lockLost s l) := h.wr.wr.wr.raise

protected theorem Kept.setPort {n p} (h : Kept s₀ s) : Kept s₀ (setPort s n p) := h.set

protected theorem Kept.updPort {n f} (h : Kept s₀ s) : Kept s₀ (updPort s n f) := h.setPort

protected theorem Kept.queuePacket {n p} (h : Kept s₀ s) : Kept s₀ (queuePacket s n p) := by
  unfold queuePacket
  dsimp only
  split
  · exact .ite h.updPort.addWrap h.updPort
  · exact h.updPort

protected theorem Kept.sendTandem {cls gallery payload} (h : Kept s₀ s) : Kept s₀ (sendTandem s cls gallery payload) :=
  h.each fun _ k => k.queuePacket

protected theorem Kept.routeCanvas {c} (h : Kept s₀ s) : Kept s₀ (routeCanvas s c) := .ite h h.set

protected theorem Kept.updRun {i f} (h : Kept s₀ s) : Kept s₀ (updRun s i f) := h.set

protected theorem Kept.countUnsent {c} (h : Kept s₀ s) : Kept s₀ (countUnsent s c) := h.each fun _ k => .ite k.updRun k

/-! ### Tandem records and mirrors -/

protected theorem Kept.tandemEntry {event what row g} (h : Kept s₀ s) : Kept s₀ (tandemEntry s event what row g) := h.askJournal

protected theorem Kept.sendMirror {g cancel slots target epoch} (h : Kept s₀ s) : Kept s₀ (sendMirror s g cancel slots target epoch) :=
  (h.foldlFst fun _ k => k.busRead.pair).sendTandem

/-! ### The Easel -/

protected theorem Kept.takeBuffer {fmt w h'} (h : Kept s₀ s) : Kept s₀ (takeBuffer s fmt w h').1 := by
  unfold takeBuffer
  split
  · exact h.raise.pair
  · exact h.updDesc.pair

protected theorem Kept.abandonBuffer {d} (h : Kept s₀ s) : Kept s₀ (abandonBuffer s d) := h.updDesc

protected theorem Kept.bindSource {id o} (h : Kept s₀ s) : Kept s₀ (bindSource s id o) := h.updSrc

protected theorem Kept.orphanSource {id} (h : Kept s₀ s) : Kept s₀ (orphanSource s id) := h.updSrc

protected theorem Kept.supersede {d} (h : Kept s₀ s) : Kept s₀ (supersede s d) := h.updDesc

protected theorem Kept.reserveSeq {id} (h : Kept s₀ s) : Kept s₀ (reserveSeq s id).1 := h.set.pair

protected theorem Kept.makeCurrent {d f} (h : Kept s₀ s) : Kept s₀ (makeCurrent s d f) :=
  have h₁ := h.ledgerPublish
  (Kept.id (by split; exacts [.ite h₁.draw h₁.draw.supersede, h₁.draw])).updDesc.updSrc.publishTriggers

protected theorem Kept.requestPublish {d} (h : Kept s₀ s) : Kept s₀ (requestPublish s d) := h.set

protected theorem Kept.framePublish {d} (h : Kept s₀ s) : Kept s₀ (framePublish s d) := h.completeRecord.draw.makeCurrent.set

protected theorem Kept.easJudge {causes act} (h : Kept s₀ s) (hact : ∀ {u}, Kept s₀ u → Kept s₀ (act u).1) :
    Kept s₀ (easJudge s causes act).state := by
  unfold easJudge
  split
  · exact h.no
  · exact (hact h).ok

protected theorem Kept.easPoolCfg {a0 a1} (h : Kept s₀ s) : Kept s₀ (easPoolCfg s a0 a1).state := h.easJudge fun k => k.set.pair

protected theorem Kept.easBufAdd {a0 a1} (h : Kept s₀ s) : Kept s₀ (easBufAdd s a0 a1).state := by
  unfold easBufAdd
  exact h.easJudge fun k => k.setDesc.pair

protected theorem Kept.easBufRemove {a0 a1} (h : Kept s₀ s) : Kept s₀ (easBufRemove s a0 a1).state := h.easJudge fun k => k.set.pair

protected theorem Kept.easTake {a0 a1} (h : Kept s₀ s) : Kept s₀ (easTake s a0 a1).state := h.easJudge fun k => k.updDesc.pair

protected theorem Kept.easPublish {a0 a1} (h : Kept s₀ s) : Kept s₀ (easPublish s a0 a1).state := by
  unfold easPublish
  dsimp only
  split
  · exact h.no
  · exact
      have h₁ := h.sealBuffer
      .stateIte h₁.no h₁.reserveSeq.busWrite.writeHeader.draw.makeCurrent.ok

protected theorem Kept.easFree {a0 a1} (h : Kept s₀ s) : Kept s₀ (easFree s a0 a1).state :=
  h.easJudge fun k => .fstIte k.setDesc.raise.pair k.setDesc.pair

protected theorem Kept.easLease {a0 a1} (h : Kept s₀ s) : Kept s₀ (easLease s a0 a1).state := h.easJudge fun k => k.setDesc.pair

protected theorem Kept.easRelease {a0 a1} (h : Kept s₀ s) : Kept s₀ (easRelease s a0 a1).state := h.easJudge fun k => k.setDesc.pair

protected theorem Kept.easSrcAlloc {a0 a1} (h : Kept s₀ s) : Kept s₀ (easSrcAlloc s a0 a1).state := h.easJudge fun k => k.bindSource.pair

protected theorem Kept.easSrcClaim {a0 a1} (h : Kept s₀ s) : Kept s₀ (easSrcClaim s a0 a1).state := h.easJudge fun k => k.bindSource.pair

protected theorem Kept.easSrcRetire {a0 a1} (h : Kept s₀ s) : Kept s₀ (easSrcRetire s a0 a1).state := by
  unfold easSrcRetire
  refine h.easJudge fun {u} k => ?_
  have k₁ : Kept s₀ (match (srcOf s (slice a0 0 12)).cur with | some d => supersede u d | none => u) := by
    split
    · exact k.supersede
    · exact k
  exact .fstIte k₁.updSrc.raise.pair k₁.updSrc.pair

protected theorem Kept.endQuarantine (h : Kept s₀ s) : Kept s₀ (endQuarantine s) := h.set

protected theorem Kept.easStage {a0 a1} (h : Kept s₀ s) : Kept s₀ (easStage s a0 a1).state := by
  unfold easStage
  refine .stateIte ?_ (h.busRead.easJudge fun k => k.setLay.pair)
  split
  · exact h.busRead.no
  · exact h.busRead.no

protected theorem Kept.putPending {g at? late} (h : Kept s₀ s) : Kept s₀ (putPending s g at? late) := h.updGal

protected theorem Kept.easCommit {a0 a1} (h : Kept s₀ s) : Kept s₀ (easCommit s a0 a1).state := h.easJudge fun k => k.putPending.pair

protected theorem Kept.easCommitAt {a0 a1} (h : Kept s₀ s) : Kept s₀ (easCommitAt s a0 a1).state := by
  unfold easCommitAt
  exact h.draw.easJudge fun k => (Kept.ite (k.putPending.also fun k1 => k1.raise).sendMirror (k.putPending.also fun k1 => k1.raise)).pair

protected theorem Kept.easCancel {a0 a1} (h : Kept s₀ s) : Kept s₀ (easCancel s a0 a1).state := by
  unfold easCancel
  exact h.easJudge fun k => (Kept.ite k.updGal.raise.sendMirror k.updGal.raise).pair

protected theorem Kept.easSnapshot {a0 a1} (h : Kept s₀ s) : Kept s₀ (easSnapshot s a0 a1).state := h.easJudge fun k => k.updGal.pair

protected theorem Kept.easRun {op a0 a1} (h : Kept s₀ s) : Kept s₀ (easRun s op a0 a1).state := by
  unfold easRun
  split
  · exact h.easPoolCfg
  · exact h.easBufAdd
  · exact h.easBufRemove
  · exact h.easTake
  · exact h.easPublish
  · exact h.easFree
  · exact h.easLease
  · exact h.easRelease
  · exact h.easSrcAlloc
  · exact h.easSrcClaim
  · exact h.easSrcRetire
  · exact h.easStage
  · exact h.easCommit
  · exact h.easCommitAt
  · exact h.easCancel
  · exact h.easSnapshot
  · exact h.no

protected theorem Kept.easRefuse {code field} (h : Kept s₀ s) : Kept s₀ (easRefuse s code field) := h.wr0.wr0.raise

protected theorem Kept.easCmdWrite {op} (h : Kept s₀ s) : Kept s₀ (easCmdWrite s op) := .ite h <| .ite h.easRefuse h.wr0.wr0.set

protected theorem Kept.easIssue {op a0 a1} (h : Kept s₀ s) : Kept s₀ (easIssue s op a0 a1) := h.wrReg.wrReg.easCmdWrite

protected theorem Kept.easEnd {r : EasResult} (h : Kept s₀ r.state) : Kept s₀ (easEnd r) := by
  cases r with
  | ok t v => exact Kept.raise (Kept.wrReg h)
  | no t code field => exact Kept.easRefuse h

protected theorem Kept.execEasCommandComplete (h : Kept s₀ s) : Answers s₀ (execEasCommandComplete s) := by
  unfold execEasCommandComplete
  split
  · exact h.next
  · exact .ite h.next h.set.wr0.easRun.easEnd.next

/-! ### Compression engines and evidence captures -/

protected theorem Kept.cprWriteContext {e a x} (h : Kept s₀ s) : Kept s₀ (cprWriteContext s e a x).1 := h.draw.busWrite.set.pair

protected theorem Kept.cprOpen {e d} (h : Kept s₀ s) : Kept s₀ (cprOpen s e d).1 := by
  unfold cprOpen
  refine .fstIte h.pair <| .fstIte h.busRead.pair ?_
  split
  · exact h.busRead.pair
  · exact h.busRead.cprWriteContext.pair

protected theorem Kept.cprEnd {e addr int code l} (h : Kept s₀ s) : Kept s₀ (cprEnd s e addr int code l) :=
  have h₁ := (h.foldlFst fun _ k => k.busWrite.pair).set.wr.raiseIf
  (Kept.ite h₁.raiseIf h₁).signal

protected theorem Kept.execCprJobStart {e} (h : Kept s₀ s) : Answers s₀ (execCprJobStart e s) := by
  unfold execCprJobStart
  refine .ite h.next <| .ite h.set.next <| .ite h.next <| .ite h.busRead.draw.draw.cprEnd.next ?_
  split
  · exact h.busRead.cprEnd.next
  · exact
      have h₁ := h.busRead.cprOpen
      (Kept.ite h₁.draw.draw.cprEnd <| .ite h₁.cprEnd h₁.set).next

protected theorem Kept.execCprJobEnd {e} (h : Kept s₀ s) : Answers s₀ (execCprJobEnd e s) := by
  unfold execCprJobEnd
  extract_lets k
  split
  · exact h.next
  · exact .ite h.next <| .ite h.busRead.draw.draw.cprEnd.next <| .ite h.busRead.draw.busWrite.draw.draw.cprEnd.next
      (Kept.fstIte h.busRead.draw.busWrite.cprWriteContext h.busRead.draw.busWrite.pair).cprEnd.next

protected theorem Kept.evidStart {c auto} (h : Kept s₀ s) : Kept s₀ (evidStart s c auto) := by
  unfold evidStart
  split
  · exact h.raise
  · exact .ite h.raise h.takeLease.set

protected theorem Kept.evidAuto {c old new} (h : Kept s₀ s) : Kept s₀ (evidAuto s c old new) := by
  unfold evidAuto
  refine .ite ?_ h
  exact
    have h₁ := h.evidStart
    .ite h₁.set h₁

protected theorem Kept.evidWrite {master off l} (h : Kept s₀ s) : Kept s₀ (evidWrite s master off l).1 := h.busWrite.busWrite.pair

protected theorem Kept.execEvidCaptureDone (h : Kept s₀ s) : Answers s₀ (execEvidCaptureDone s) := by
  unfold execEvidCaptureDone
  split
  · exact .ite h.next ((h.busRead.foldlFst fun _ k => k.readTile.pair).foldlFst fun _ k =>
      k.busRead.pair).evidWrite.dropLease.wr0.set.raise.askJournal.next
  · exact h.next

/-! ### The Ledger -/

protected theorem Kept.tickDigest {x k'} (h : Kept s₀ s) : Kept s₀ (tickDigest s x k').1 := (h.foldlFst fun _ k => k.busRead.pair).pair

protected theorem Kept.frozenLatch {l} (h : Kept s₀ s) : Kept s₀ (frozenLatch s l) := by
  unfold frozenLatch
  dsimp only
  split
  · exact .ite h.setLay h
  · exact (Kept.fstIte h.tickDigest h.pair).setLay

protected theorem Kept.markFuture {l now} (h : Kept s₀ s) : Kept s₀ (markFuture s l now) := by
  unfold markFuture
  split
  · exact h
  · exact .ite h.updSrc.raise h

protected theorem Kept.fixLabel {l row} (h : Kept s₀ s) : Kept s₀ (fixLabel s l row) := .ite h h.setLay

protected theorem Kept.paintFrom {l row v c} (h : Kept s₀ s) : Kept s₀ (paintFrom s l row v c) := h.updLay

protected theorem Kept.paintCheck {l row} (h : Kept s₀ s) : Kept s₀ (paintCheck s l row) := .ite h.updLay.setLay h.updLay

protected theorem Kept.glassMismatch {c row mask own} (h : Kept s₀ s) : Kept s₀ (glassMismatch s c row mask own) := by
  unfold glassMismatch
  exact ((h.each fun _ k => k.raise).each fun _ k => k.updLay.paintCheck).updCnv

protected theorem Kept.verdictEntry {l old row} (h : Kept s₀ s) : Kept s₀ (verdictEntry s l old row) :=
  .ite h.setLay (h.setLay.also fun k => k.draw).askJournal

protected theorem Kept.report {l row v c} (h : Kept s₀ s) : Kept s₀ (report s l row v c) :=
  have h₁ := ((h.setLay.also fun k => k.draw).also fun k => k.paintFrom).also fun k => k.raise
  .ite h₁.verdictEntry h₁

protected theorem Kept.evalRow {l row now} (h : Kept s₀ s) : Kept s₀ (evalRow s l row now) :=
  have h₁ := h.markFuture
  (Kept.ite h₁.updLay.report <| .ite h₁.updLay.report h₁.updLay).fixLabel

protected theorem Kept.settleChecks {l} (h : Kept s₀ s) : Kept s₀ (settleChecks s l) := by
  unfold settleChecks
  split
  · exact .ite h.setLay.report h.setLay
  · exact h

protected theorem Kept.evalLatch {l now ok} (h : Kept s₀ s) : Kept s₀ (evalLatch s l now ok) :=
  have h₁ := h.markFuture
  have h₂ := (Kept.ite h₁.updLay.report h₁.updLay.report).also fun k => k.raise
  .ite h₂.updLay h₂.updLay.fixLabel

protected theorem Kept.writeWord {c} (h : Kept s₀ s) : Kept s₀ (writeWord s c) := (h.updCnv.also fun k => k.signal).evidAuto

protected theorem Kept.writeSummary (h : Kept s₀ s) : Kept s₀ (writeSummary s) := h.set

protected theorem Kept.watchUpdate {g now} (h : Kept s₀ s) : Kept s₀ (watchUpdate s g now) :=
  .ite h (h.updGal.each fun _ k => k.writeWord).set.writeSummary

protected theorem Kept.proofEntry {p ty result step} (h : Kept s₀ s) : Kept s₀ (proofEntry s p ty result step) := h.askJournal

protected theorem Kept.endProof {p failed} (h : Kept s₀ s) : Kept s₀ (endProof s p failed) := h.set.wr0.wr0.wr0.proofEntry.raise

protected theorem Kept.proofStart {l kind row} (h : Kept s₀ s) : Kept s₀ (proofStart s l kind row).1 :=
  .fstIte h.wr0.raise.pair h.set.wr0.wr0.wr0.proofEntry.pair

protected theorem Kept.setProof {p} (h : Kept s₀ s) : Kept s₀ (setProof s p) := h.set

protected theorem Kept.injectProof {p} (h : Kept s₀ s) : Kept s₀ (injectProof s p) := h.setLay.setProof

protected theorem Kept.injectAtRow {g lo hi} (h : Kept s₀ s) : Kept s₀ (injectAtRow s g lo hi) := by
  unfold injectAtRow
  split
  · exact .ite h.injectProof h
  · exact h

protected theorem Kept.judgePaint {ls row} (h : Kept s₀ s) : Kept s₀ (judgePaint s ls row) := by
  unfold judgePaint
  split
  · exact h
  · exact .ite h <| .ite h.endProof <| .ite h.endProof h.setProof

protected theorem Kept.judgeWord (h : Kept s₀ s) : Kept s₀ (judgeWord s) := by
  unfold judgeWord
  split
  · exact h
  · exact .ite h <| .ite h.setProof h.endProof

protected theorem Kept.judgeProof {ls row} (h : Kept s₀ s) : Kept s₀ (judgeProof s ls row) := h.judgePaint.judgeWord

protected theorem Kept.proofFrame {g} (h : Kept s₀ s) : Kept s₀ (proofFrame s g) := by
  unfold proofFrame
  split
  · exact h
  · exact .ite h <| .ite h.endProof <| .ite h <| .ite h.endProof h.setProof

protected theorem Kept.proofStep4 (h : Kept s₀ s) : Kept s₀ (proofStep4 s) := by
  unfold proofStep4
  split
  · exact h
  · refine .ite h ?_
    split
    · exact h.setProof
    · exact h.endProof
    · exact .ite h h.endProof

protected theorem Kept.proofLatch {g ok} (h : Kept s₀ s) : Kept s₀ (proofLatch s g ok) := by
  unfold proofLatch
  dsimp only
  split
  · exact h
  · refine .ite h ?_
    split
    · exact h.setProof.proofStep4
    · exact .ite h.setProof.proofStep4 <| .ite h.setProof.proofStep4.endProof <| .ite h.setProof.proofStep4.endProof h.setProof.proofStep4

protected theorem Kept.execTileRowEvaluation {g row} (h : Kept s₀ s) : Answers s₀ (execTileRowEvaluation g row s) :=
  .ite h.next ((h.draw.injectAtRow.updGal.each fun _ k => k.settleChecks).each fun _ k => k.evalRow).watchUpdate.judgeProof.next

protected theorem Kept.ledgerLatch {g now ok} (h : Kept s₀ s) : Kept s₀ (ledgerLatch s g now ok) :=
  have h₁ := (h.each fun _ k => k.frozenLatch).updGal.proofFrame
  have h₂ := ((Kept.ite h₁ h₁.injectAtRow).each fun _ k => k.evalLatch).set.watchUpdate
  (Kept.ite h₂ h₂.judgePaint).judgeWord.proofLatch

protected theorem Kept.setDeadline {l dl warn} (h : Kept s₀ s) : Kept s₀ (setDeadline s l dl warn).1 := .fstIte h.raise.pair h.setLay.pair

/-! ### Tandem -/

protected theorem Kept.updTgal {g f} (h : Kept s₀ s) : Kept s₀ (updTgal s g f) := h.set

protected theorem Kept.updTcnv {c f} (h : Kept s₀ s) : Kept s₀ (updTcnv s c f) := h.set

protected theorem Kept.showMiss (h : Kept s₀ s) : Kept s₀ (showMiss s) := h.wr0

protected theorem Kept.suspectSelf {canvas row g} (h : Kept s₀ s) : Kept s₀ (suspectSelf s canvas row g) := h.wr0.raise.tandemEntry

protected theorem Kept.enterResync {g} (h : Kept s₀ s) : Kept s₀ (enterResync s g) := (h.each fun _ k => k.updTgal).wr0.set.tandemEntry

protected theorem Kept.declareFault (h : Kept s₀ s) : Kept s₀ (declareFault s) := .ite h.wr0 h

protected theorem Kept.pairHeartbeat {h'} (h : Kept s₀ s) : Kept s₀ (pairHeartbeat s h') := by
  unfold pairHeartbeat
  dsimp only
  split
  · exact h
  · exact
      have h₁ := h.updTgal.showMiss
      .ite h₁ <|
        have h₂ := h₁.raise.tandemEntry
        .ite h₂.suspectSelf.draw h₂

protected theorem Kept.meetHeartbeat {h'} (h : Kept s₀ s) : Kept s₀ (meetHeartbeat s h') := by
  unfold meetHeartbeat
  dsimp only
  split
  · exact h
  · exact .ite h.updTgal h.pairHeartbeat

protected theorem Kept.meetEarly {g now} (h : Kept s₀ s) : Kept s₀ (meetEarly s g now) := h.updTgal.each fun _ k => k.pairHeartbeat

protected theorem Kept.meetLate {g} (h : Kept s₀ s) : Kept s₀ (meetLate s g) := h.updTgal.each fun _ k => k.pairHeartbeat

protected theorem Kept.sendImages (h : Kept s₀ s) : Kept s₀ (sendImages s) :=
  h.each fun _ k => (k.foldlFst fun _ k1 => k1.busRead.pair).each fun _ k1 => k1.sendTandem

protected theorem Kept.takeHeartbeat {h'} (h : Kept s₀ s) : Kept s₀ (takeHeartbeat s h') :=
  have h₁ := h.set.wr0.wr0.wr0.wr0
  have h₂ : Kept s₀ _ := .ite h₁.wr0 (Kept.ite h₁.wr0.wr0.wr0 h₁.wr0.wr0).tandemEntry
  have h₃ := (Kept.ite (.ite h₂.wr0 h₂.enterResync) <| .ite (Kept.ite h₂.wr0.raise.tandemEntry h₂).enterResync <|
    .ite h₂.wr0.raise.tandemEntry h₂).meetHeartbeat
  .ite h₃.sendImages h₃

protected theorem Kept.heartbeatRx {port bytes} (h : Kept s₀ s) : Kept s₀ (heartbeatRx s port bytes) := by
  unfold heartbeatRx
  refine .ite h ?_
  split
  · exact h
  · exact .ite h h.updTgal.takeHeartbeat

protected theorem Kept.unpair (h : Kept s₀ s) : Kept s₀ (unpair s) := (h.wr0.wr0.wr0.wr0.each fun _ k => k.updTgal).set

protected theorem Kept.replaceOwn {r} (h : Kept s₀ s) : Kept s₀ (replaceOwn s r) := (h.also fun k => k.addWrap).set

protected theorem Kept.execRowRecordSend {canvas row} (h : Kept s₀ s) : Answers s₀ (execRowRecordSend canvas row s) := by
  unfold execRowRecordSend
  dsimp only
  refine .ite h.next ?_
  split
  · exact h.replaceOwn.updTcnv.next
  · exact h.replaceOwn.updTcnv.queuePacket.next

protected theorem Kept.checkTwinRow {c row} (h : Kept s₀ s) : Kept s₀ (checkTwinRow s c row) := by
  unfold checkTwinRow
  refine .ite h ?_
  split
  · exact h
  · exact h.glassMismatch

protected theorem Kept.dropOwn {c row} (h : Kept s₀ s) : Kept s₀ (dropOwn s c row) := h.set

protected theorem Kept.rowRecordRx {port bytes} (h : Kept s₀ s) : Kept s₀ (rowRecordRx s port bytes) := by
  unfold rowRecordRx
  refine .ite h ?_
  split
  · exact h
  · exact .ite h <| .ite h.dropOwn.addWrap h.set.checkTwinRow

protected theorem Kept.mismatchFound {o tile} (h : Kept s₀ s) : Kept s₀ (mismatchFound s o tile) :=
  h.updTgal.wr0.wr0.wr0.wr0.wr0.wr0.raise.tandemEntry

protected theorem Kept.execRowCompare {canvas row} (h : Kept s₀ s) : Answers s₀ (execRowCompare canvas row s) := by
  unfold execRowCompare
  split
  · refine .ite h.dropOwn.addWrap.next ?_
    split
    · exact h.dropOwn.updTcnv.addWrap.next
    · exact h.dropOwn.updTcnv.addWrap.mismatchFound.next
  · exact h.next

protected theorem Kept.execRowRecordTimeout {canvas row} (h : Kept s₀ s) : Answers s₀ (execRowRecordTimeout canvas row s) := by
  unfold execRowRecordTimeout
  split
  · exact (Kept.ite h.dropOwn.addWrap h).next
  · exact h.next

protected theorem Kept.twinLineRx {c y bytes} (h : Kept s₀ s) : Kept s₀ (twinLineRx s c y bytes) :=
  .ite h <| .ite h.updTcnv.checkTwinRow h.updTcnv

protected theorem Kept.twinLate {c} (h : Kept s₀ s) : Kept s₀ (twinLate s c) :=
  .ite h.updTcnv <|
    have h₁ := h.updTcnv.also fun k => k.raise
    .ite h₁ h₁.wr.raise

protected theorem Kept.execMirrorRx {mirror} (h : Kept s₀ s) : Answers s₀ (execMirrorRx mirror s) := by
  unfold execMirrorRx
  refine .ite h.next (.ite ?_ ?_)
  · split
    · next he => exact (Kept.ofOk he h.easRun).next
    · next he => exact (Kept.ofNo he h.easRun).next
  · extract_lets r fail
    have slots : Kept s₀ r.1 := h.foldlFst fun _ k => by
      extract_lets w
      split
      · next he => exact Kept.ofOk he k.busWrite.easRun
      · next he => exact Kept.ofNo he k.busWrite.easRun
    refine .ite slots.wr0.raise.tandemEntry.next ?_
    split
    · next he => exact (Kept.ofOk he slots.easRun).next
    · next he => exact (Kept.ofNo he slots.easRun).wr0.raise.tandemEntry.next

protected theorem Kept.startResync (h : Kept s₀ s) : Kept s₀ (startResync s) := .ite h.raise.tandemEntry.draw.draw h.enterResync.draw

protected theorem Kept.takeImage {g} (h : Kept s₀ s) : Kept s₀ (takeImage s g) := by
  unfold takeImage
  split
  · exact h
  · exact (h.set.each fun _ k => k.busWrite.updLay).updGal.set

protected theorem Kept.resyncLatch {g} (h : Kept s₀ s) : Kept s₀ (resyncLatch s g) :=
  .ite h <| .ite h.updTgal.wr0.wr0.wr0.raise.tandemEntry h.updTgal

protected theorem Kept.missLatch {g} (h : Kept s₀ s) : Kept s₀ (missLatch s g).1 := by
  unfold missLatch
  split
  · exact h.pair
  · exact .fstIte h.pair <|
      have h₁ := h.updTgal.showMiss
      .fstIte h₁.wr0.raise.tandemEntry.pair h₁.pair

protected theorem Kept.takeover {g lost} (h : Kept s₀ s) : Kept s₀ (takeover s g lost) := .ite h.wr0.wr0.set.raise.tandemEntry h.set

protected theorem Kept.selectStreams {g} (h : Kept s₀ s) : Kept s₀ (selectStreams s g) := h.each fun _ k => k.updTcnv.updCnv

protected theorem Kept.tandemBefore {g now} (h : Kept s₀ s) : Kept s₀ (tandemBefore s g now) :=
  .ite h h.declareFault.meetEarly.missLatch.takeover.resyncLatch.takeImage.updTgal

protected theorem Kept.tandemAfter {g} (h : Kept s₀ s) : Kept s₀ (tandemAfter s g) :=
  .ite h (h.each fun _ k => k.routeCanvas).updTgal.meetLate

end

end Sys2Proof.Machine
end

