-- ==== Sys2Proof/Proofs/KeptPicture.lean ====
section
/-!
What the encoder, the composer, scan-out and touch keep.
-/

namespace Sys2Proof.Machine

section
variable {s₀ s : State}

/-! ### The encoder -/

protected theorem Kept.setSes {n x} (h : Kept s₀ s) : Kept s₀ (setSes s n x) := h.set

protected theorem Kept.updSes {n f} (h : Kept s₀ s) : Kept s₀ (updSes s n f) := h.setSes

protected theorem Kept.venRefuse {n c} (h : Kept s₀ s) : Kept s₀ (venRefuse s n c) := (Kept.ite h.wr0.wr0.wr0.wr0 h.wr0.wr0).raise

protected theorem Kept.venCmdWrite {op n} (h : Kept s₀ s) : Kept s₀ (venCmdWrite s op n) := .ite h <| .ite h.venRefuse h.wr0.set

protected theorem Kept.showSes {n} (h : Kept s₀ s) : Kept s₀ (showSes s n) := h.wr.wr.wr

protected theorem Kept.removeSession {n} (h : Kept s₀ s) : Kept s₀ (removeSession s n) := by
  unfold removeSession
  refine (Kept.updCnv ?_).setSes.showSes
  split <;> split
  exacts [h.dropLease.dropLease, h.dropLease, h.dropLease, h]

protected theorem Kept.execVenCmdDone (h : Kept s₀ s) : Answers s₀ (execVenCmdDone s) := by
  unfold execVenCmdDone
  dsimp only
  split
  · exact h.next
  · split
    · exact h.set.wr0.venRefuse.next
    · exact
        have h₁ := h.set.wr0.wr0
        (Kept.ite h₁.setSes.wr.showSes <| .ite h₁.removeSession h₁.updSes).raise.next

protected theorem Kept.encGap {c} (h : Kept s₀ s) : Kept s₀ (encGap s c) := h.updSes.raise

protected theorem Kept.encSelect {c} (h : Kept s₀ s) : Kept s₀ (encSelect s c).1 := .fstIte h.pair h.setSes.pair

protected theorem Kept.encPublish {c w} (h : Kept s₀ s) : Kept s₀ (encPublish s c w) :=
  .ite h (Kept.id (by split; exacts [h.dropLease.raise, h])).takeLease.updSes.showSes

protected theorem Kept.execEncPictureStart (h : Kept s₀ s) : Answers s₀ (execEncPictureStart s) := by
  unfold execEncPictureStart
  dsimp only
  refine .ite h.next ?_
  split
  · exact h.next
  · split
    · exact h.next
    · exact h.busRead.setSes.showSes.next

protected theorem Kept.checkCodedRow {n x c err} (h : Kept s₀ s) : Kept s₀ (checkCodedRow s n x c err).1 :=
  h.foldlFst fun _ k => .fstIte k.busRead.readTile.pair k.busRead.readTile.raise.pair

protected theorem Kept.readCodedRow {n x c err} (h : Kept s₀ s) : Kept s₀ (readCodedRow s n x c err).1 :=
  .fstIte h.pair h.checkCodedRow.pair

protected theorem Kept.execEncRowDone {bits payload sealFail} (h : Kept s₀ s) : Answers s₀ (execEncRowDone bits payload sealFail s) := by
  unfold execEncRowDone
  split
  · exact h.next
  · exact .ite h.next <|
      have h₁ := h.readCodedRow
      .ite h₁.setSes.next <| .ite h₁.setSes.next h₁.setSes.next

protected theorem Kept.execEncPictureDone (h : Kept s₀ s) : Answers s₀ (execEncPictureDone s) := by
  unfold execEncPictureDone
  split
  · exact h.next
  · exact .ite h.next (h.dropLease.setSes.showSes.wr.wr.also fun k => k.raise).next

protected theorem Kept.execEncAuWritten {session} (h : Kept s₀ s) : Answers s₀ (execEncAuWritten session s) := by
  unfold execEncAuWritten
  dsimp only
  split
  · exact h.next
  · refine .ite h.next ?_
    split
    · exact h.setSes.raise.next
    · exact (Kept.ite h.setSes h.setSes.busWrite).busWrite.wr.next

/-! ### The composer -/

protected theorem Kept.failFrame {l} (h : Kept s₀ s) : Kept s₀ (failFrame s l) := by
  unfold failFrame
  refine .ite h <| .ite ?_ h.setLay
  split
  · exact h.setLay.raise.askJournal

protected theorem Kept.notVerified {l} (h : Kept s₀ s) : Kept s₀ (notVerified s l) := .ite h h.updCnv

protected theorem Kept.headerFailed {l k'} (h : Kept s₀ s) : Kept s₀ (headerFailed s l k') :=
  h.updLay.raise.checkFailed.failFrame.notVerified.paintCheck

protected theorem Kept.cropFailed {l} (h : Kept s₀ s) : Kept s₀ (cropFailed s l) := h.setLay.raise.failFrame.notVerified.paintCheck

protected theorem Kept.execRecordHeaderRead {layer err} (h : Kept s₀ s) : Answers s₀ (execRecordHeaderRead layer err s) := by
  unfold execRecordHeaderRead
  dsimp only
  split
  · exact h.next
  · exact .ite h.next <|
      have h₁ := h.readHeader
      .ite h₁.headerFailed.next <| .ite h₁.cropFailed.next h₁.setLay.next

protected theorem Kept.slotReadFails {l} (h : Kept s₀ s) : Kept s₀ (slotReadFails s l) := by
  unfold slotReadFails
  exact (Kept.id (by split; exacts [h, h.dropLease.updCnv])).setLay.updCnv

protected theorem Kept.execTileFetchIssue {layer tile} (h : Kept s₀ s) : Answers s₀ (execTileFetchIssue layer tile s) := by
  unfold execTileFetchIssue
  dsimp only
  split
  · exact .ite h.next (Kept.id (by split; exacts [.fstIte h.pair h.busRead.pair, h.busRead.pair])).updLay.next
  · exact h.next

protected theorem Kept.tileFailed {l tile k'} (h : Kept s₀ s) : Kept s₀ (tileFailed s l tile k') :=
  h.tileMismatch.updLay.checkFailed.failFrame.notVerified.paintCheck

protected theorem Kept.arrivedBytes {err bytes} (h : Kept s₀ s) : Kept s₀ (arrivedBytes s err bytes).1 := .fstIte h.draw.pair h.pair

protected theorem Kept.execTileDataArrival {layer tile err} (h : Kept s₀ s) : Answers s₀ (execTileDataArrival layer tile err s) := by
  unfold execTileDataArrival
  dsimp only
  split
  · refine .ite h.next <| .ite h.setLay.next <| .ite h.setLay.readTile.arrivedBytes.updLay.tileFailed.next ?_
    split
    · exact h.setLay.readTile.arrivedBytes.updLay.next
    · exact h.setLay.readTile.arrivedBytes.updLay.injectProof.updLay.paintCheck.next
  · exact h.next

protected theorem Kept.execScanLeaseDrop {canvas} (h : Kept s₀ s) : Answers s₀ (execScanLeaseDrop canvas s) := by
  unfold execScanLeaseDrop
  dsimp only
  split
  · exact h.next
  · exact .ite h.next (h.updCnv.each fun _ k => k.dropLease).next

protected theorem Kept.noteConfig {c} (h : Kept s₀ s) : Kept s₀ (noteConfig s c) := h.updCnv

protected theorem Kept.engineWrite {c e} (h : Kept s₀ s) : Kept s₀ (engineWrite s c e) := .ite h.raise h.wr

protected theorem Kept.placeRun {used total n} (h : Kept s₀ s) : Kept s₀ (placeRun s used total n).1 := .fstIte h.pair h.draw.draw.pair

protected theorem Kept.writeGranules {c a l} (h : Kept s₀ s) : Kept s₀ (writeGranules s c a l) := .ite h.set h.busWrite

protected theorem Kept.retireSet {c} (h : Kept s₀ s) : Kept s₀ (retireSet s c) := h.updCnv

protected theorem Kept.dropPlanes {c} (h : Kept s₀ s) : Kept s₀ (dropPlanes s c) :=
  have h₁ := h.discardFlatten.retireSet.updCnv
  .ite h₁.wr.wr.wrReg.wr.draw h₁.wr.wr

protected theorem Kept.flattenBegin {c} (h : Kept s₀ s) : Kept s₀ (flattenBegin s c) :=
  .ite h.setCnv <|
    have h₁ := h.each fun _ k => k.takeLease
    .ite h₁.setCnv.wr h₁.setCnv

protected theorem Kept.flattenTileRead {c layer k' tile} (h : Kept s₀ s) : Kept s₀ (flattenTileRead s c layer k' tile).1 :=
  .fstIte h.tileOk h.tileOk.tileMismatch.checkFailed.pair

protected theorem Kept.flattenReads {c e} (h : Kept s₀ s) : Kept s₀ (flattenReads s c e).1 :=
  have h₁ := h.readHeader
  .fstIte h₁.raise.checkFailed.pair (h₁.foldlFst fun _ k => k.flattenTileRead.pair).pair

protected theorem Kept.flattenFails {c code} (h : Kept s₀ s) : Kept s₀ (flattenFails s c code) := h.updCnv.wr.wr.raise

protected theorem Kept.buildTile {c dom epoch whole held t} {b : Building} (h : Kept s₀ b.s) :
    Kept s₀ (buildTile c dom epoch whole held b t).s := by
  unfold buildTile
  split
  · exact h
  · extract_lets px raw enc n a r q
    have ha : Kept s₀ a.1 := .fstIte h.pair h.placeRun
    have hq : Kept s₀ q.1 := by
      unfold q
      split
      · exact ha
      · exact ha.placeRun.also fun k => k.raise
    split
    · exact hq
    · exact hq.writeGranules.writeGranules.writeGranules

protected theorem Kept.buildTiles {c dom epoch whole held} {l : List Nat} {b : Building} (h : Kept s₀ b.s) :
    Kept s₀ (l.foldl (buildTile c dom epoch whole held) b).s := by
  induction l generalizing b with
  | nil => exact h
  | cons t l ih => exact ih h.buildTile

protected theorem Kept.buildPlane {c dom epoch commit held} {b : Building} (h : Kept s₀ b.s) :
    Kept s₀ (buildPlane b c dom epoch commit held).s := by
  unfold buildPlane
  split
  · exact h
  · extract_lets w height count n a r q
    have hq : Kept s₀ q.1 := by
      unfold q
      split
      · exact h.placeRun
      · exact h.placeRun.placeRun.also fun k => k.raise
    split
    · exact hq
    · refine (Kept.writeGranules ?_).draw
      exact Kept.buildTiles hq

protected theorem Kept.flattenEnd {c f} (h : Kept s₀ s) : Kept s₀ (flattenEnd s c f) := by
  unfold flattenEnd
  extract_lets r pick done b₀ u o
  have hr : Kept s₀ r.1 := h.foldlFst fun _ k => k.flattenReads.pair
  have hu : Kept s₀ u.s := Kept.buildPlane (b := b₀) hr
  have ho : Kept s₀ o.s := hu.buildPlane
  have hdone {t} (k : Kept s₀ t) : Kept s₀ (done t) := k.updCnv.each fun _ k => k.dropLease
  exact .ite (hdone hr).flattenFails <| .ite (hdone ho).flattenFails (hdone ho).updCnv

protected theorem Kept.execFlattenDone {canvas} (h : Kept s₀ s) : Answers s₀ (execFlattenDone canvas s) := by
  unfold execFlattenDone
  split
  · exact h.next
  · exact (Kept.ite h h.flattenEnd).next

protected theorem Kept.useSet {c p} (h : Kept s₀ s) : Kept s₀ (useSet s c p) := h.retireSet.updCnv.wr.wr.wr.wr.wr.wr.wr.raise

protected theorem Kept.latchPlanes {c} (h : Kept s₀ s) : Kept s₀ (latchPlanes s c) := by
  unfold latchPlanes
  refine .ite h.dropPlanes ?_
  exact
    have h₁ : Kept s₀ _ := by split; exacts [.ite h.useSet h.updCnv, h.updCnv]
    .ite h₁.wr.wr h₁

/-- A plane's bytes are read in the store, or over the fabric. -/
protected theorem Kept.planeRead {c a n} (h : Kept s₀ s) :
    Kept s₀ (if a ≥ 0x1000000000 then (s, 0, storeBytes s a n) else busRead s (engineMaster s c) a n).1 := .fstIte h.pair h.busRead

protected theorem Kept.checkPlane {c dom epoch pl} (h : Kept s₀ s) : Kept s₀ (checkPlane s c dom epoch pl).1 :=
  .fstIte h.pair <| (Kept.ite h.planeRead h.planeRead.raise).foldlFst fun _ k =>
    .fstIte k.planeRead.planeRead.planeRead.pair k.planeRead.planeRead.planeRead.draw.tileMismatch.draw.pair

protected theorem Kept.checkPlanes {c} (h : Kept s₀ s) : Kept s₀ (checkPlanes s c) := by
  unfold checkPlanes
  split
  · exact h.updCnv
  · exact .ite h.updCnv <|
      have h₁ := h.checkPlane.checkPlane
      .ite h₁.updCnv h₁.updCnv.triggerFlatten

protected theorem Kept.latchWriteBack {c} (h : Kept s₀ s) : Kept s₀ (latchWriteBack s c) := by
  unfold latchWriteBack
  extract_lets x s₁
  have h₁ : Kept s₀ s₁ := by
    unfold s₁
    split
    · exact h.updCnv.abandonBuffer.also fun k => k.encGap
    · exact h
  refine .ite (h₁.encSelect.also fun k => k.encGap) ?_
  split
  · exact h₁.encSelect.takeBuffer.raise.also fun k => k.encGap
  · exact h₁.encSelect.takeBuffer.updCnv

protected theorem Kept.tapLine {c y} (h : Kept s₀ s) : Kept s₀ (tapLine s c y) := by
  unfold tapLine
  split
  · exact h
  · exact .ite h <| .ite h.updCnv h.writeLines.sealRow.updCnv

protected theorem Kept.execWbFramePublish {canvas} (h : Kept s₀ s) : Answers s₀ (execWbFramePublish canvas s) := by
  unfold execWbFramePublish
  dsimp only
  split
  · exact h.next
  · exact .ite h.next <|
      have h₁ := h.writeHeader.draw.updDesc
      (Kept.id (by split; exacts [h₁.supersede, h₁])).updCnv.wr.encPublish.next

/-! ### Scan-out -/

protected theorem Kept.configRefused {g code c} (h : Kept s₀ s) : Kept s₀ (configRefused s g code c) := h.wr.wr.raise

protected theorem Kept.enterGesso {c} (h : Kept s₀ s) : Kept s₀ (enterGesso s c) := .ite h.updCnv h.updCnv.wr.raise

protected theorem Kept.cutSending {c} (h : Kept s₀ s) : Kept s₀ (cutSending s c) := h.each fun _ k => k.updRun

protected theorem Kept.galleryDark {g} (h : Kept s₀ s) : Kept s₀ (galleryDark s g) :=
  ((h.updGal.wr0.each fun _ k => k.updCnv).each fun _ k => k.cutSending).draw.watchUpdate

protected theorem Kept.leaveGallery {c} (h : Kept s₀ s) : Kept s₀ (leaveGallery s c) := .ite h.dropPlanes.wr.updCnv h

protected theorem Kept.writeGalCtrl {g v m} (h : Kept s₀ s) : Kept s₀ (writeGalCtrl s g v m) :=
  have h₁ : Kept s₀ _ := .ite h.wr h
  .ite h₁ <| .ite (.ite (Kept.ite h₁.draw h₁).configRefused h₁.wr.updGal) (h₁.wr.galleryDark.each fun _ k => k.leaveGallery)

protected theorem Kept.writeCnvCtrl {c v m} (h : Kept s₀ s) : Kept s₀ (writeCnvCtrl s c v m) :=
  have h₁ : Kept s₀ _ := .ite h.wrReg h
  .ite h₁ <| .ite h₁.wr <| .ite h₁.configRefused h₁.wr.updCnv.enterGesso

protected theorem Kept.fifoEmpty {c x} (h : Kept s₀ s) : Kept s₀ (fifoEmpty s c x) := .ite h h.updCnv.raise.enterGesso

protected theorem Kept.latchGesso {c verified} (h : Kept s₀ s) : Kept s₀ (latchGesso s c verified) :=
  .ite h.setCnv <| .ite h.setCnv.updCnv <| .ite h.setCnv.wr.updCnv h.setCnv.updCnv

protected theorem Kept.cutLayer {c row l} (h : Kept s₀ s) : Kept s₀ (cutLayer s c row l) := by
  unfold cutLayer
  exact h.updLay.notVerified.wr.wr.wr.wr.paintCheck.updCnv

protected theorem Kept.weirCompare {c row old new} (h : Kept s₀ s) : Kept s₀ (weirCompare s c row old new) :=
  have h₁ : Kept s₀ _ := .ite (.ite h.wr h) <| .ite h.wr.raise h
  have h₂ : Kept s₀ _ := .ite (.ite h₁.wr h₁) <| .ite h₁.wr.raise h₁
  .ite (h₂.raise.each fun _ k => k.cutLayer) h₂

protected theorem Kept.weirBegins {c} (h : Kept s₀ s) : Kept s₀ (weirBegins s c) := by
  unfold weirBegins
  split
  · exact h
  · exact h.updCnv.weirCompare

protected theorem Kept.glassEnd {c} (h : Kept s₀ s) : Kept s₀ (glassEnd s c) :=
  .ite h.setCnv.updCnv.raise <| .ite h.setCnv.updCnv h.setCnv

protected theorem Kept.glassMissing {c} (h : Kept s₀ s) : Kept s₀ (glassMissing s c) :=
  .ite h <|
    have h₁ := (Kept.ite (h.each fun _ k => k.glassMismatch) h).glassEnd
    .ite h₁.proofStep4 h₁

protected theorem Kept.glassStart {c} (h : Kept s₀ s) : Kept s₀ (glassStart s c) := by
  unfold glassStart
  exact h.glassMissing.updCnv

protected theorem Kept.glassLine {c y} (h : Kept s₀ s) : Kept s₀ (glassLine s c y) := .ite h h.updCnv

protected theorem Kept.execGlassRowResult {canvas row crc more} (h : Kept s₀ s) :
    Answers s₀ (execGlassRowResult canvas row crc more s) := by
  unfold execGlassRowResult
  refine .ite h.next ?_
  exact
    have h₁ : Kept s₀ _ := by split; exacts [h.setCnv.injectProof.glassMismatch, h.setCnv.glassMismatch]
    (Kept.ite h₁.glassEnd h₁).next

protected theorem Kept.testLatch {g} (h : Kept s₀ s) : Kept s₀ (testLatch s g) :=
  .ite h <| .ite h.draw.updGal <| .ite ((h.draw.also fun k => k.raise).also fun k => k.raise).updGal h.draw

protected theorem Kept.canvasBoundary {c} (h : Kept s₀ s) : Kept s₀ (canvasBoundary s c) := .ite h.updCnv.enterGesso h.updCnv

protected theorem Kept.holdSendLine {c y e} (h : Kept s₀ s) : Kept s₀ (holdSendLine s c y e) := by
  unfold holdSendLine
  exact h.updRun

protected theorem Kept.driveLine {c line} (h : Kept s₀ s) : Kept s₀ (driveLine s c line) := by
  unfold driveLine
  refine .ite (.ite h.countUnsent h) ?_
  split
  · exact (Kept.ite h.countUnsent h).emit
  · exact (Kept.ite h.countUnsent h).each fun _ k => k.holdSendLine
  · exact (Kept.ite h.countUnsent h).queuePacket
  · exact .ite h.countUnsent h

protected theorem Kept.exportLine {c y} (h : Kept s₀ s) : Kept s₀ (exportLine s c y) := by
  unfold exportLine
  split
  · exact h
  · exact .ite h.queuePacket h

protected theorem Kept.lineEnds {c line} (h : Kept s₀ s) : Kept s₀ (lineEnds s c line) := by
  unfold lineEnds
  exact
    have h₁ := h.driveLine
    (Kept.ite h₁.glassLine.tapLine.exportLine h₁).updCnv

protected theorem Kept.lineStarts {c y} (h : Kept s₀ s) : Kept s₀ (lineStarts s c y) := by
  unfold lineStarts
  dsimp only
  split
  · exact (Kept.ite h.weirBegins.twinLate h.weirBegins).fifoEmpty
  · exact .ite h.weirBegins.twinLate h.weirBegins

protected theorem Kept.execScnLineBoundary {g} (h : Kept s₀ s) : Answers s₀ (execScnLineBoundary g s) :=
  .ite h.next <|
    have h₁ := h.each fun _ k => k.lineEnds
    have h₂ := (Kept.ite h₁.wr h₁).updGal.wr.wr.each fun _ k => k.canvasBoundary
    have h₃ := Kept.ite (h₂.each fun _ k => k.glassStart) h₂
    (Kept.ite (h₃.each fun _ k => k.lineStarts) h₃.testLatch).next

protected theorem Kept.flipLayer {g l} (h : Kept s₀ s) : Kept s₀ (flipLayer s g l) := by
  unfold flipLayer
  refine .ite ?_ h.setLay
  exact
    have h₁ := h.setLay.triggerFlatten
    .ite h₁.triggerFlatten h₁

protected theorem Kept.takeCommit {g} (h : Kept s₀ s) : Kept s₀ (takeCommit s g) :=
  have h₁ := h.each fun _ k => k.flipLayer
  (Kept.ite h₁.updGal.updTgal h₁.updGal).endQuarantine

protected theorem Kept.readSlot {l failed} (h : Kept s₀ s) : Kept s₀ (readSlot s l failed) := .ite h.busRead.setLay h.busRead.setLay

protected theorem Kept.takeScanLeases {c frame} (h : Kept s₀ s) : Kept s₀ (takeScanLeases s c frame) := by
  unfold takeScanLeases
  exact (h.foldlFst fun _ k => by split; exacts [k, k.takeLease.updLay.pair]).updCnv

protected theorem Kept.joinLeave {c} (h : Kept s₀ s) : Kept s₀ (joinLeave s c) := by
  unfold joinLeave
  refine .ite h.wr.updCnv.enterGesso <| .ite ?_ <| .ite h.updCnv.enterGesso h
  exact
    have h₁ := h.dropPlanes
    (Kept.id (by split; exacts [h₁.abandonBuffer.also fun k => k.encGap, h₁])).wr.updCnv

protected theorem Kept.latchConfig {c} (h : Kept s₀ s) : Kept s₀ (latchConfig s c) := .ite h.updCnv.triggerFlatten h.updCnv

protected theorem Kept.latchCanvas {frame c} (h : Kept s₀ s) : Kept s₀ (latchCanvas s frame c) := by
  unfold latchCanvas
  exact
    have h₁ := h.latchPlanes.takeScanLeases
    (Kept.ite h₁.updCnv.raise h₁.updCnv).checkPlanes.latchWriteBack

protected theorem Kept.writeSnapshot {g} (h : Kept s₀ s) : Kept s₀ (writeSnapshot s g) := by
  unfold writeSnapshot
  split
  · exact h
  · exact h.busWrite.draw.updGal.raise

protected theorem Kept.countLatch {g now} (h : Kept s₀ s) : Kept s₀ (countLatch s g now) := h.updGal.wr.wr

protected theorem Kept.execGalleryLatch {g failed} (h : Kept s₀ s) : Answers s₀ (execGalleryLatch g failed s) := by
  unfold execGalleryLatch
  exact .ite h.next <|
    have h₁ := (h.each fun _ k => k.settleChecks).judgePaint.draw.tandemBefore.countLatch
    have h₂ := Kept.ite h₁.takeCommit h₁
    have h₃ := ((Kept.ite (h₂.each fun _ k => k.triggerFlatten) h₂).each fun _ k => k.updLay).each fun _ k => k.readSlot
    have h₄ := ((Kept.ite (h₃.each fun _ k => k.updLay) h₃).each fun _ k => k.wr).each fun _ k => k.joinLeave
    have h₅ := h₄.each fun _ k => k.latchConfig
    have h₆ := (Kept.ite (h₅.each fun _ k => k.latchCanvas) (h₅.each fun _ k => k.updCnv)).selectStreams.each fun _ k => k.latchGesso
    h₆.draw.ledgerLatch.writeSnapshot.tandemAfter.next

protected theorem Kept.wakeLatchWaits {g} (h : Kept s₀ s) : Kept s₀ (wakeLatchWaits s g) := h.each fun _ k => k.updSeq

protected theorem Kept.execGalStateUpdate {g} (h : Kept s₀ s) : Answers s₀ (execGalStateUpdate g s) := by
  unfold execGalStateUpdate
  dsimp only
  refine .ite h.next <| .ite h.updGal.wr.wr.wakeLatchWaits.next ?_
  split
  · exact (h.updGal.wr.wr.wakeLatchWaits.wr.wr.raise.signal.also fun k => k.raise).next
  · exact (h.updGal.wr.wr.wakeLatchWaits.wr.wr.raise.signal.also fun k => k.raise).updTgal.sendMirror.next

protected theorem Kept.execHitTableSwitch {g} (h : Kept s₀ s) : Answers s₀ (execHitTableSwitch g s) := by
  unfold execHitTableSwitch
  dsimp only
  split
  · exact h.next
  · exact (Kept.ite h h.set.updGal).next

/-! ### Console touch -/

protected theorem Kept.updTch {i f} (h : Kept s₀ s) : Kept s₀ (updTch s i f) := h.set

protected theorem Kept.writeReport {i stamp l} (h : Kept s₀ s) : Kept s₀ (writeReport s i stamp l) := .ite h h.updSeq.updTch

protected theorem Kept.execTouchReportEvent {i} (h : Kept s₀ s) : Answers s₀ (execTouchReportEvent i s) := by
  unfold execTouchReportEvent
  split
  · exact h.next
  · exact (Kept.ite h h.updTch.signal).next

protected theorem Kept.setContacts {i l} (h : Kept s₀ s) : Kept s₀ (setContacts s i l) := .ite h.updTch.wr h.updTch

protected theorem Kept.endContacts {i} (h : Kept s₀ s) : Kept s₀ (endContacts s i) := h.draw.writeReport.setContacts

protected theorem Kept.freshScan {i} (h : Kept s₀ s) : Kept s₀ (freshScan s i) := h.updTch.setContacts

protected theorem Kept.trackBase {i peaks} (h : Kept s₀ s) : Kept s₀ (trackBase s i peaks) := by
  unfold trackBase
  exact h.updTch

protected theorem Kept.rebaseNegative {i d} (h : Kept s₀ s) : Kept s₀ (rebaseNegative s i d) := h.updTch.each fun _ k => k.raise

protected theorem Kept.contactScan {i} (h : Kept s₀ s) : Kept s₀ (contactScan s i) :=
  ((h.trackBase.rebaseNegative.each fun _ k => k.updTch.raise).each fun _ k => k.raise).draw.writeReport.setContacts

protected theorem Kept.startTest {i} (h : Kept s₀ s) : Kept s₀ (startTest s i) := h.wr.updTch

protected theorem Kept.remoteReport {n l} (h : Kept s₀ s) : Kept s₀ (remoteReport s n l) := .ite h h.writeReport.setContacts

protected theorem Kept.testStart {i} (h : Kept s₀ s) : Kept s₀ (testStart s i) :=
  .ite h.raise <|
    have h₁ := h.endContacts
    .ite h₁.updTch h₁.startTest

protected theorem Kept.writeTouch {l v m} (h : Kept s₀ s) : Kept s₀ (writeTouch s l v m) := .ite h.raise <| .ite h.wrReg.updTch h.wrReg

protected theorem Kept.execTouchConfigWrite {off value} (h : Kept s₀ s) : Answers s₀ (execTouchConfigWrite off value s) := by
  unfold execTouchConfigWrite
  split
  · exact h.next
  · exact (Kept.ite h.writeTouch h).next

end

end Sys2Proof.Machine
end

