-- ==== Sys2Proof/Proofs/KeptKsis.lean ====
section
/-!
What the instructions of the Brush sequencers keep.
-/

namespace Sys2Proof.Machine

section
variable {s₀ s : State}

/-! ### KSIS instructions -/

protected theorem Kept.stopIfQuiet {n} (h : Kept s₀ s) : Kept s₀ (stopIfQuiet s n) := .ite h.becomeHalted h.updSeq

protected theorem Kept.retire {n} (h : Kept s₀ s) : Kept s₀ (retire s n) := .ite h.addWrap.stopIfQuiet h.addWrap

protected theorem Kept.finish {n rd v} (h : Kept s₀ s) : Kept s₀ (finish s n rd v) := h.updSeq.retire

protected theorem Kept.finishNone {n} (h : Kept s₀ s) : Kept s₀ (finishNone s n) := h.updSeq.retire

protected theorem Kept.fault {n cause addr} (h : Kept s₀ s) : Kept s₀ (fault s n cause addr) :=
  have h₁ := h.seqFault
  .ite h₁.stopIfQuiet h₁

protected theorem Kept.check {n k' act} (h : Kept s₀ s) (h1 : Kept s₀ act) : Kept s₀ (check s n k' act) :=
  .ite h.fault <| .ite h.fault <| .ite h.fault h1

protected theorem Kept.issue {n f op} (h : Kept s₀ s) (hop : ∀ {u} n f, Kept s₀ u → Kept s₀ (op u n f)) : Kept s₀ (issue s n f op) :=
  .ite h (.ite h.fault (hop n f h))

protected theorem Kept.compute {feat v n f} (h : Kept s₀ s) : Kept s₀ (compute feat v s n f) := h.check h.finish

protected theorem Kept.ksisAdd {n f} (h : Kept s₀ s) : Kept s₀ (ksisAdd s n f) := h.compute

protected theorem Kept.ksisSub {n f} (h : Kept s₀ s) : Kept s₀ (ksisSub s n f) := h.compute

protected theorem Kept.ksisAnd {n f} (h : Kept s₀ s) : Kept s₀ (ksisAnd s n f) := h.compute

protected theorem Kept.ksisOr {n f} (h : Kept s₀ s) : Kept s₀ (ksisOr s n f) := h.compute

protected theorem Kept.ksisXor {n f} (h : Kept s₀ s) : Kept s₀ (ksisXor s n f) := h.compute

protected theorem Kept.ksisShl {n f} (h : Kept s₀ s) : Kept s₀ (ksisShl s n f) := h.compute

protected theorem Kept.ksisShr {n f} (h : Kept s₀ s) : Kept s₀ (ksisShr s n f) := h.compute

protected theorem Kept.ksisSra {n f} (h : Kept s₀ s) : Kept s₀ (ksisSra s n f) := h.compute

protected theorem Kept.ksisAddi {n f} (h : Kept s₀ s) : Kept s₀ (ksisAddi s n f) := h.compute

protected theorem Kept.ksisAndi {n f} (h : Kept s₀ s) : Kept s₀ (ksisAndi s n f) := h.compute

protected theorem Kept.ksisOri {n f} (h : Kept s₀ s) : Kept s₀ (ksisOri s n f) := h.compute

protected theorem Kept.ksisXori {n f} (h : Kept s₀ s) : Kept s₀ (ksisXori s n f) := h.compute

protected theorem Kept.ksisShli {n f} (h : Kept s₀ s) : Kept s₀ (ksisShli s n f) := h.compute

protected theorem Kept.ksisShri {n f} (h : Kept s₀ s) : Kept s₀ (ksisShri s n f) := h.compute

protected theorem Kept.ksisSrai {n f} (h : Kept s₀ s) : Kept s₀ (ksisSrai s n f) := h.compute

protected theorem Kept.ksisLih {n f} (h : Kept s₀ s) : Kept s₀ (ksisLih s n f) := h.compute

protected theorem Kept.ksisMul {n f} (h : Kept s₀ s) : Kept s₀ (ksisMul s n f) := h.compute

protected theorem Kept.ksisMulhu {n f} (h : Kept s₀ s) : Kept s₀ (ksisMulhu s n f) := h.compute

protected theorem Kept.ksisDivu {n f} (h : Kept s₀ s) : Kept s₀ (ksisDivu s n f) := h.compute

protected theorem Kept.ksisRemu {n f} (h : Kept s₀ s) : Kept s₀ (ksisRemu s n f) := h.compute

protected theorem Kept.jumpTo {n pc link} (h : Kept s₀ s) : Kept s₀ (jumpTo s n pc link) := h.updSeq.retire

protected theorem Kept.ksisCmp {n f} (h : Kept s₀ s) : Kept s₀ (ksisCmp s n f) := h.check h.finish

protected theorem Kept.ksisCmpi {n f} (h : Kept s₀ s) : Kept s₀ (ksisCmpi s n f) := h.check h.finish

protected theorem Kept.ksisBr {n f} (h : Kept s₀ s) : Kept s₀ (ksisBr s n f) := h.check (.ite h.jumpTo h.finishNone)

protected theorem Kept.ksisJmp {n f} (h : Kept s₀ s) : Kept s₀ (ksisJmp s n f) := h.check h.jumpTo

protected theorem Kept.ksisJr {n f} (h : Kept s₀ s) : Kept s₀ (ksisJr s n f) := h.check h.jumpTo

protected theorem Kept.localCheck {n a size align act} (h : Kept s₀ s) (h1 : Kept s₀ act) : Kept s₀ (localCheck s n a size align act) :=
  .ite h.fault <| .ite h.fault h1

protected theorem Kept.ksisLd {n f} (h : Kept s₀ s) : Kept s₀ (ksisLd s n f) := h.check (h.localCheck h.finish)

protected theorem Kept.ksisSt {n f} (h : Kept s₀ s) : Kept s₀ (ksisSt s n f) := h.check (h.localCheck h.setSeq.finishNone)

protected theorem Kept.fabricCheck {n a size act} (h : Kept s₀ s) (h1 : Kept s₀ act) : Kept s₀ (fabricCheck s n a size act) :=
  .ite h.fault <| .ite h.fault h1

protected theorem Kept.ksisFld {n f} (h : Kept s₀ s) : Kept s₀ (ksisFld s n f) := h.check (h.fabricCheck h.setSeq)

protected theorem Kept.ksisFst {n f} (h : Kept s₀ s) : Kept s₀ (ksisFst s n f) := h.check (h.fabricCheck (.ite h.setSeq.finishNone h))

protected theorem Kept.ksisFence {n f} (h : Kept s₀ s) : Kept s₀ (ksisFence s n f) := h.check (.ite h.finishNone h)

protected theorem Kept.ksisHalt {n f} (h : Kept s₀ s) : Kept s₀ (ksisHalt s n f) := h.check h.updSeq.addWrap.stopIfQuiet

protected theorem Kept.ksisTrap {n f} (h : Kept s₀ s) : Kept s₀ (ksisTrap s n f) := h.check h.fault

protected theorem Kept.ksisUmode {n f} (h : Kept s₀ s) : Kept s₀ (ksisUmode s n f) := h.check h.updSeq.retire

protected theorem Kept.ksisSysrd {n f} (h : Kept s₀ s) : Kept s₀ (ksisSysrd s n f) := h.check h.finish

protected theorem Kept.takeEvent {n rd base mask} (h : Kept s₀ s) : Kept s₀ (takeEvent s n rd base mask) := by
  unfold takeEvent
  dsimp only
  split
  · exact h.setSeq.finish
  · exact h.setSeq

protected theorem Kept.ksisEwait {n f} (h : Kept s₀ s) : Kept s₀ (ksisEwait s n f) := h.check (.ite h.fault h.takeEvent)

protected theorem Kept.ksisEsig {n f} (h : Kept s₀ s) : Kept s₀ (ksisEsig s n f) := h.check (.ite h.fault h.signal.finishNone)

protected theorem Kept.ksisEmask {n f} (h : Kept s₀ s) : Kept s₀ (ksisEmask s n f) := h.check (.ite h.fault h.setSeq.finish)

protected theorem Kept.ksisTset {n f} (h : Kept s₀ s) : Kept s₀ (ksisTset s n f) := h.check h.setSeq.finishNone

protected theorem Kept.ksisTrd {n f} (h : Kept s₀ s) : Kept s₀ (ksisTrd s n f) := h.check h.draw.finish

protected theorem Kept.ksisTwait {n f} (h : Kept s₀ s) : Kept s₀ (ksisTwait s n f) := h.check (.ite h.draw.finishNone h.draw.setSeq)

protected theorem Kept.finishResult {n rd code result} (h : Kept s₀ s) : Kept s₀ (finishResult s n rd code result) := h.finish

protected theorem Kept.easelResult {n rd op r} (h : Kept s₀ s) (hr : ∀ {u}, Kept s₀ u → Kept s₀ (r u).state) :
    Kept s₀ (easelResult s n rd op r) := by
  unfold easelResult
  dsimp only
  refine .ite h.updSeq ?_
  split
  · exact (hr h.updSeq.wr0).easEnd.finishResult
  · exact (hr h.updSeq.wr0).easEnd.finishResult

protected theorem Kept.stageRefused {n rd code} (h : Kept s₀ s) : Kept s₀ (stageRefused s n rd code) := h.easelResult fun k => k.no

protected theorem Kept.wall {n rd gs act} (h : Kept s₀ s) (h1 : Kept s₀ act) : Kept s₀ (wall s n rd gs act) := by
  unfold wall
  split
  · exact h.finishResult
  · exact h1

protected theorem Kept.writeAndStage {l slot} (h : Kept s₀ s) : Kept s₀ (writeAndStage s l slot).state := by
  unfold writeAndStage
  dsimp only
  split
  · exact h.busWrite.no
  · split
    · next he => exact (Kept.ofOk he h.busWrite.easStage).ok
    · next he => exact (Kept.ofNo he h.busWrite.easStage).updLay.no

protected theorem Kept.ksisLset {n f} (h : Kept s₀ s) : Kept s₀ (ksisLset s n f) :=
  h.check (h.localCheck (h.wall (by split; exacts [h.stageRefused, h.easelResult fun k => k.writeAndStage])))

protected theorem Kept.showLayer {shown n f} (h : Kept s₀ s) : Kept s₀ (showLayer shown s n f) := by
  unfold showLayer
  refine h.check (h.wall ?_)
  split
  · exact h.stageRefused
  · exact .ite h.stageRefused (h.easelResult fun k => .stateIte k.busRead.no k.busRead.writeAndStage)

protected theorem Kept.ksisLshow {n f} (h : Kept s₀ s) : Kept s₀ (ksisLshow s n f) := h.showLayer

protected theorem Kept.ksisLhide {n f} (h : Kept s₀ s) : Kept s₀ (ksisLhide s n f) := h.showLayer

protected theorem Kept.ksisCset {n f} (h : Kept s₀ s) : Kept s₀ (ksisCset s n f) :=
  h.check (h.wall (Kept.ite h.noteConfig.writeReg h.noteConfig.writeReg).finishResult)

protected theorem Kept.ksisEstage {n f} (h : Kept s₀ s) : Kept s₀ (ksisEstage s n f) :=
  h.check (h.wall (h.easelResult fun k => k.easStage))

protected theorem Kept.ksisCommitOp {n f} (h : Kept s₀ s) : Kept s₀ (ksisCommitOp s n f) :=
  h.check (h.wall (.ite (h.easelResult fun k => k.easCommit) (h.easelResult fun k => k.easCancel)))

protected theorem Kept.ksisCmtat {n f} (h : Kept s₀ s) : Kept s₀ (ksisCmtat s n f) :=
  h.check (h.wall (h.easelResult fun k => k.easCommitAt))

protected theorem Kept.ksisLwait {n f} (h : Kept s₀ s) : Kept s₀ (ksisLwait s n f) := h.check (.ite h.fault h.setSeq)

protected theorem Kept.ksisDlset {n f} (h : Kept s₀ s) : Kept s₀ (ksisDlset s n f) :=
  h.check (.ite h.finishResult h.setDeadline.finishResult)

protected theorem Kept.ksisVread {n f} (h : Kept s₀ s) : Kept s₀ (ksisVread s n f) := h.check h.finish

protected theorem Kept.ksisPinj {n f} (h : Kept s₀ s) : Kept s₀ (ksisPinj s n f) := h.check h.proofStart.finishResult

protected theorem Kept.ksisLease {n f} (h : Kept s₀ s) : Kept s₀ (ksisLease s n f) := h.check (h.easelResult fun k => k.easLease)

protected theorem Kept.ksisRelease {n f} (h : Kept s₀ s) : Kept s₀ (ksisRelease s n f) := h.check (h.easelResult fun k => k.easRelease)

protected theorem Kept.ksisFree {n f} (h : Kept s₀ s) : Kept s₀ (ksisFree s n f) := h.check (h.easelResult fun k => k.easFree)

protected theorem Kept.ksisThit {n f} (h : Kept s₀ s) : Kept s₀ (ksisThit s n f) := h.check h.finish

protected theorem Kept.ksisJapp {n f} (h : Kept s₀ s) : Kept s₀ (ksisJapp s n f) :=
  h.check (h.localCheck (.ite h.askJournal.finishResult h.finishResult))

protected theorem Kept.ksisCkrun {n f} (h : Kept s₀ s) : Kept s₀ (ksisCkrun s n f) :=
  h.check (Kept.ite h.chkRefuse.chkRefuse h.wr.wr).chkBegin.finishResult

/-- Every instruction of the table keeps what every operation keeps. -/
protected theorem Kept.ksisOp {w n f op} (hop : ksisOp w = some op) (h : Kept s₀ s) : Kept s₀ (op s n f) := by
  unfold ksisOp at hop
  split at hop <;> cases hop
  · exact h.ksisAdd
  · exact h.ksisSub
  · exact h.ksisAnd
  · exact h.ksisOr
  · exact h.ksisXor
  · exact h.ksisShl
  · exact h.ksisShr
  · exact h.ksisSra
  · exact h.ksisAddi
  · exact h.ksisAndi
  · exact h.ksisOri
  · exact h.ksisXori
  · exact h.ksisShli
  · exact h.ksisShri
  · exact h.ksisSrai
  · exact h.ksisLih
  · exact h.ksisCmp
  · exact h.ksisCmpi
  · exact h.ksisBr
  · exact h.ksisJmp
  · exact h.ksisJr
  · exact h.ksisLd
  · exact h.ksisSt
  · exact h.ksisMul
  · exact h.ksisMulhu
  · exact h.ksisDivu
  · exact h.ksisRemu
  · exact h.ksisFld
  · exact h.ksisFst
  · exact h.ksisFence
  · exact h.ksisHalt
  · exact h.ksisTrap
  · exact h.ksisUmode
  · exact h.ksisSysrd
  · exact h.ksisEwait
  · exact h.ksisEsig
  · exact h.ksisEmask
  · exact h.ksisTset
  · exact h.ksisTrd
  · exact h.ksisTwait
  · exact h.ksisLset
  · exact h.ksisLshow
  · exact h.ksisLhide
  · exact h.ksisCset
  · exact h.ksisEstage
  · exact h.ksisCommitOp
  · exact h.ksisCmtat
  · exact h.ksisLwait
  · exact h.ksisDlset
  · exact h.ksisVread
  · exact h.ksisPinj
  · exact h.ksisLease
  · exact h.ksisRelease
  · exact h.ksisFree
  · exact h.ksisThit
  · exact h.ksisJapp
  · exact h.ksisCkrun

protected theorem Kept.runWord {n w} (h : Kept s₀ s) : Kept s₀ (runWord s n w) := by
  refine h.issue fun n f k => ?_
  split
  · next hop => exact k.ksisOp hop
  · exact k.fault

protected theorem Kept.seqStep {n} (h : Kept s₀ s) : Kept s₀ (seqStep s n) := .ite h h.setSeq.runWord

protected theorem Kept.execSeqWaitComplete {n} (h : Kept s₀ s) : Answers s₀ (execSeqWaitComplete n s) := by
  unfold execSeqWaitComplete
  refine .ite h.next ?_
  split
  · exact h.takeEvent.next
  · exact (Kept.ite h.setSeq.draw.finishNone h.draw).next
  · exact h.setSeq.finish.next
  · exact h.next

end

end Sys2Proof.Machine
end

