-- ==== Sys2Proof/Proofs/KeptMedia.lean ====
section
/-!
What the link, the PTP clock, the Sluice, the decoder, Ethernet and the lanes keep.
-/

namespace Sys2Proof.Machine

section
variable {s₀ s : State}

/-! ### Ndosin ports -/

protected theorem Kept.wireOut {n lane header body} (h : Kept s₀ s) : Kept s₀ (wireOut s n lane header body) := h.updPort.emit

protected theorem Kept.sendOn {n mask body} (h : Kept s₀ s) : Kept s₀ (sendOn s n mask body) := h.each fun _ k => k.wireOut

protected theorem Kept.streamBlock {n header body} (h : Kept s₀ s) : Kept s₀ (streamBlock s n header body) := by
  unfold streamBlock
  dsimp only
  split
  · exact h
  · exact .ite h.wireOut.updPort h.wireOut.updPort.sendOn

protected theorem Kept.fillCycle {n} (h : Kept s₀ s) : Kept s₀ (fillCycle s n) := h.each fun _ k => k.streamBlock

protected theorem Kept.endCycle {n} (h : Kept s₀ s) : Kept s₀ (endCycle s n) := .ite h h.fillCycle

protected theorem Kept.relock {n} (h : Kept s₀ s) : Kept s₀ (relock s n) := h.updPort.each fun _ k => k.lockLost

protected theorem Kept.portDown {n} (h : Kept s₀ s) : Kept s₀ (portDown s n) :=
  .ite h <|
    have h₁ := (Kept.ite h h.relock).wr.wr.wr.wr.wr.wr.updPort
    .ite h₁.raise.endContacts h₁.raise

protected theorem Kept.bringupFail {n} (h : Kept s₀ s) : Kept s₀ (bringupFail s n) := h.raise.portDown

protected theorem Kept.startDeskew {n} (h : Kept s₀ s) : Kept s₀ (startDeskew s n) := .ite h.updPort.wr h.updPort

protected theorem Kept.lockStep {n} (h : Kept s₀ s) : Kept s₀ (lockStep s n) := .ite h.startDeskew h

protected theorem Kept.startBringup {n} (h : Kept s₀ s) : Kept s₀ (startBringup s n) := .ite h h.wr.wr.wr.wr.updPort.lockStep

protected theorem Kept.linkUp {n set} (h : Kept s₀ s) : Kept s₀ (linkUp s n set) := .ite h.bringupFail h.wr.wr.wr.wr.updPort.raise

protected theorem Kept.endDeskew {n} (h : Kept s₀ s) : Kept s₀ (endDeskew s n) :=
  .ite h.bringupFail <|
    have h₁ := h.wr.wr.wr
    .ite h₁.linkUp h₁.updPort.wr.sendOn

protected theorem Kept.changeWidth {n mask} (h : Kept s₀ s) : Kept s₀ (changeWidth s n mask) := by
  unfold changeWidth
  refine .ite h.portDown ?_
  split
  · exact h.updPort
  · exact (h.endCycle.each fun _ k => k.sendOn).updPort

protected theorem Kept.dropLane {n k'} (h : Kept s₀ s) : Kept s₀ (dropLane s n k') :=
  .ite h.updPort <| .ite h.updPort.changeWidth h.updPort.portDown

protected theorem Kept.gainLock {n q k'} (h : Kept s₀ s) : Kept s₀ (gainLock s n q k') := h.wr.updPort.lockStep

protected theorem Kept.headerRx {n q k' h'} (h : Kept s₀ s) : Kept s₀ (headerRx s n q k' h') :=
  .ite (.ite h.wr.raise.dropLane h.updPort) <| .ite (.ite h.gainLock h.updPort) h.updPort

protected theorem Kept.execBlockLockAcquired {port lane} (h : Kept s₀ s) : Answers s₀ (execBlockLockAcquired port lane s) :=
  (Kept.id (by split; exacts [h, h.each fun _ k => k.headerRx])).next

protected theorem Kept.restorePairs {n} (h : Kept s₀ s) : Kept s₀ (restorePairs s n) := .ite h h.changeWidth

protected theorem Kept.execMarkerRx {port lane block at_} (h : Kept s₀ s) : Answers s₀ (execMarkerRx port lane block at_ s) :=
  .ite h.raise.next <| .ite h.next (Kept.ite h.updPort.endDeskew <| .ite h.updPort.restorePairs h.updPort).next

protected theorem Kept.endCaps {n c} (h : Kept s₀ s) : Kept s₀ (endCaps s n c) :=
  have h₁ := h.wr.wr.wr.wr.wr
  have h₂ : Kept s₀ _ := .ite h₁.wr.wr h₁.wr.wr.raise
  .ite h₂.linkUp h₂.updPort.wr

protected theorem Kept.execCapRx {port block} (h : Kept s₀ s) : Answers s₀ (execCapRx port block s) :=
  .ite h.raise.next <| .ite h.next <| .ite h.wr.bringupFail.next <|
    have h₁ : Kept s₀ _ := .ite h.updPort.sendOn h.updPort
    (Kept.ite h₁.endCaps h₁).next

protected theorem Kept.writeLnkCfg {n v m} (h : Kept s₀ s) : Kept s₀ (writeLnkCfg s n v m) :=
  .ite h.raise <| .ite h.wrReg.startBringup <| .ite h.wrReg.portDown h.wrReg

protected theorem Kept.execWidthChangeDone {port} (h : Kept s₀ s) : Answers s₀ (execWidthChangeDone port s) := by
  unfold execWidthChangeDone
  dsimp only
  split
  · exact h.next
  · exact
      have h₁ := h.endCycle.wr.raise.updPort
      (Kept.id (by split; exacts [h₁.changeWidth, h₁])).next

protected theorem Kept.execNdosinPacketSend {port} (h : Kept s₀ s) : Answers s₀ (execNdosinPacketSend port s) := by
  unfold execNdosinPacketSend
  refine .ite h.next <| .ite h.sendOn.next ?_
  split
  · exact h.fillCycle.next
  · exact (h.updPort.each fun _ k => k.streamBlock).next

protected theorem Kept.deliver {n sop payload} (h : Kept s₀ s) : Kept s₀ (deliver s n sop payload) := by
  unfold deliver
  split
  · exact h.heartbeatRx
  · exact h.remoteReport
  · exact .ite h.twinLineRx h
  · exact h.rowRecordRx
  · exact h

protected theorem Kept.execNdosinPacketRx {port skip lanes room} (h : Kept s₀ s) :
    Answers s₀ (execNdosinPacketRx port skip lanes room s) := by
  unfold execNdosinPacketRx
  refine .ite h.next ?_
  split
  · exact h.next
  · exact .ite h.next <| .ite (Kept.ite h h.raise).next <| .ite h.raise.next (Kept.ite h.addWrap.deliver h.addWrap.raise).next

/-! ### The PTP clock -/

protected theorem Kept.updPtp {f} (h : Kept s₀ s) : Kept s₀ (updPtp s f) := h.set

protected theorem Kept.dropLock {flag} (h : Kept s₀ s) : Kept s₀ (dropLock s flag) := .ite h <| .ite h.set.wr0.raisePtp h.set.wr0

protected theorem Kept.setPtpState {st flag} (h : Kept s₀ s) : Kept s₀ (setPtpState s st flag) := (Kept.ite h h.dropLock).wr0

protected theorem Kept.sendEth {port b} (h : Kept s₀ s) : Kept s₀ (sendEth s port b) := h.set.emit

protected theorem Kept.servo {o t} (h : Kept s₀ s) : Kept s₀ (servo s o t) := h.updPtp.wr0

protected theorem Kept.stepClock {o} (h : Kept s₀ s) : Kept s₀ (stepClock s o) := h.set.updPtp.setPtpState.wr0.askJournal

protected theorem Kept.outOfBand (h : Kept s₀ s) : Kept s₀ (outOfBand s) := .ite h.updPtp.setPtpState h.updPtp

protected theorem Kept.discardSample {o} (h : Kept s₀ s) : Kept s₀ (discardSample s o) :=
  have h₁ := h.countUp.outOfBand
  .ite h₁.updPtp h₁.updPtp.setPtpState.updPtp.raisePtp.askJournal

protected theorem Kept.feedSample {o t} (h : Kept s₀ s) : Kept s₀ (feedSample s o t) :=
  have h₁ := h.updPtp.servo
  have h₂ : Kept s₀ _ := .ite h₁.setPtpState h₁
  .ite (.ite h₂.updPtp.setPtpState.wr0 h₂.updPtp) h₂.outOfBand

protected theorem Kept.takeSample {o t} (h : Kept s₀ s) : Kept s₀ (takeSample s o t) :=
  .ite h.wr0.stepClock <| .ite h.wr0 <| .ite h.wr0.discardSample h.wr0.feedSample

protected theorem Kept.syncDone {t1 t2 t} (h : Kept s₀ s) : Kept s₀ (syncDone s t1 t2 t) := by
  unfold syncDone
  dsimp only
  split
  · exact h.updPtp
  · exact h.updPtp.takeSample

protected theorem Kept.execOffsetSample {port msg} (h : Kept s₀ s) : Answers s₀ (execOffsetSample port msg s) := by
  unfold execOffsetSample
  refine .ite h.next <| .ite h.countUp.next <| .ite ?_ <| .ite h.updPtp.next h.syncDone.next
  split
  · exact (Kept.ite h.syncDone h).next
  · exact h.next

protected theorem Kept.execDelayRespRx {port msg} (h : Kept s₀ s) : Answers s₀ (execDelayRespRx port msg s) := by
  unfold execDelayRespRx
  refine .ite h.next ?_
  split
  · exact .ite h.next h.updPtp.next
  · exact h.next

protected theorem Kept.selectMaster {a} (h : Kept s₀ s) : Kept s₀ (selectMaster s a) :=
  have h₁ := h.updPtp.wr0.wr0.wr0.wr0
  .ite h₁ h₁.wr0.raisePtp.askJournal

protected theorem Kept.execAnnounceRx {port msg} (h : Kept s₀ s) : Answers s₀ (execAnnounceRx port msg s) := by
  unfold execAnnounceRx
  dsimp only
  refine .ite h.next <| .ite h.countUp.next ?_
  split
  · exact h.updPtp.next
  · exact
      have h₁ := h.updPtp.selectMaster
      (Kept.ite h₁.updPtp.setPtpState h₁).next

protected theorem Kept.armRelock (h : Kept s₀ s) : Kept s₀ (armRelock s) := .ite h.updPtp.setPtpState h.updPtp

protected theorem Kept.captureClock (h : Kept s₀ s) : Kept s₀ (captureClock s) := h.wr0.wr0.wr0

protected theorem Kept.restartPtp (h : Kept s₀ s) : Kept s₀ (restartPtp s) := h.updPtp.setPtpState

protected theorem Kept.writePtpCtrl {v m} (h : Kept s₀ s) : Kept s₀ (writePtpCtrl s v m) :=
  have h₁ : Kept s₀ _ := .ite h.wrReg.wr0 h.wrReg
  ((Kept.ite h₁.updPtp.setPtpState <| .ite h₁.restartPtp h₁).also fun k => k.armRelock).also fun k => k.captureClock

protected theorem Kept.ptpRebind (h : Kept s₀ s) : Kept s₀ (ptpRebind s) := .ite h.wr0 h

/-! ### The Sluice -/

protected theorem Kept.showPipe {p c busy} (h : Kept s₀ s) : Kept s₀ (showPipe s p c busy) := .ite h.wr0.wr0 h.wr0.wr0

protected theorem Kept.publishLines {master d f lines} (h : Kept s₀ s) : Kept s₀ (publishLines s master d f lines) :=
  (h.writeLines.foldl fun _ k => k.sealRow).writeProvisional.updDesc.requestPublish

protected theorem Kept.noteAsked {d c k'} (h : Kept s₀ s) : Kept s₀ (noteAsked s d c k') := h.set

protected theorem Kept.freeOuts {outs} (h : Kept s₀ s) : Kept s₀ (freeOuts s outs) := h.each fun _ k => k.abandonBuffer

protected theorem Kept.parentBad {c f} (h : Kept s₀ s) : Kept s₀ (parentBad s c f) := h.checkFailed.raise

protected theorem Kept.parentMismatch {tile source} (h : Kept s₀ s) : Kept s₀ (parentMismatch s tile source) := h.tileMismatch.draw

protected theorem Kept.takeOuts {outs} (h : Kept s₀ s) : Kept s₀ (takeOuts s outs).1 := by
  refine h.foldlFst fun _ k => ?_
  split
  · exact k
  · dsimp only
    split
    · exact k.takeBuffer.pair
    · exact k.takeBuffer.freeOuts.pair

protected theorem Kept.startJob {c d seq live} (h : Kept s₀ s) : Kept s₀ (startJob s c d seq live) := by
  unfold startJob
  dsimp only
  split
  · exact h.updCtx
  · refine .ite h.updCtx <| .ite (Kept.fstIte h.updCtx.pair h.updCtx.readHeader).raise.parentBad ?_
    split
    · exact (Kept.fstIte h.updCtx.pair h.updCtx.readHeader).takeOuts.raise
    · exact (Kept.fstIte h.updCtx.pair h.updCtx.readHeader).takeOuts.takeLease.updCtx

protected theorem Kept.leaveJob {c j} (h : Kept s₀ s) : Kept s₀ (leaveJob s c j) := by
  unfold leaveJob
  refine Kept.showCtx ?_
  have h₁ := h.dropLease (d := j.parent.desc)
  rcases j.pipe with _ | p
  · split
    · exact h₁.updCtx.startJob
    · exact h₁.updCtx
  · split
    · exact h₁.showPipe.updCtx.startJob
    · exact h₁.showPipe.updCtx

protected theorem Kept.dropJob {c} (h : Kept s₀ s) : Kept s₀ (dropJob s c) := by
  unfold dropJob
  split
  · exact h
  · exact h.freeOuts.leaveJob

protected theorem Kept.finishJob {c j} (h : Kept s₀ s) : Kept s₀ (finishJob s c j) :=
  have h₁ : Kept s₀ _ := .fstIte h.readHeader h.pair
  .ite h₁.raise.parentBad.dropJob (h₁.foldl fun _ k => by split; exacts [k.publishLines.noteAsked, k]).leaveJob

protected theorem Kept.contextPublished {d} (h : Kept s₀ s) : Kept s₀ (contextPublished s d) := by
  unfold contextPublished
  refine Kept.each ?_ fun _ k => ?_
  · split
    · exact h
    · exact .ite h.set.wr h.set.wr
  · dsimp only
    split
    · exact .ite k.updCtx.finishJob k.updCtx
    · exact k.updCtx

protected theorem Kept.parentLost {c d} (h : Kept s₀ s) : Kept s₀ (parentLost s c d) := by
  unfold parentLost
  dsimp only
  split
  · exact .ite h.updCtx.showCtx.dropJob h.updCtx.showCtx
  · exact h.updCtx.showCtx

protected theorem Kept.dropOverdue (h : Kept s₀ s) : Kept s₀ (dropOverdue s) := h.each fun _ k => .ite k.raise.dropJob k

protected theorem Kept.execSluJobRelease {c} (h : Kept s₀ s) : Answers s₀ (execSluJobRelease c s) := by
  unfold execSluJobRelease
  refine .ite h.dropOverdue.next ?_
  split
  · exact h.dropOverdue.next
  · exact
      have h₁ := h.dropOverdue.updCtx
      .ite h₁.startJob.showCtx.next (h₁.also fun k => k.raise).updCtx.showCtx.next

protected theorem Kept.startStripe {p} (h : Kept s₀ s) : Kept s₀ (startStripe s p) := by
  unfold startStripe
  refine .ite h ?_
  split
  · exact h
  · exact h.updCtx.showPipe.showCtx

protected theorem Kept.execSluStripeStart {p} (h : Kept s₀ s) : Answers s₀ (execSluStripeStart p s) :=
  have h₁ := h.dropOverdue
  (Kept.ite h₁.startStripe.startStripe h₁.startStripe).next

protected theorem Kept.stripeTiles {j m} (h : Kept s₀ s) : Kept s₀ (stripeTiles s j m).1 :=
  h.foldlFst fun _ k => .fstIte k.tileOk.pair k.tileOk.parentMismatch.pair

protected theorem Kept.execSluStripeEnd {p} (h : Kept s₀ s) : Answers s₀ (execSluStripeEnd p s) := by
  unfold execSluStripeEnd
  refine .ite h.dropOverdue.next ?_
  split
  · exact h.dropOverdue.next
  · split
    · exact h.dropOverdue.next
    · exact
        have h₁ := h.dropOverdue.stripeTiles
        .ite h₁.parentBad.dropJob.next <|
          have h₂ := h₁.updCtx.showPipe.showCtx
          (Kept.ite h₂.finishJob h₂).next

protected theorem Kept.landStart {c quad flow ok f} (h : Kept s₀ s) : Kept s₀ (landStart s c quad flow ok f) := by
  unfold landStart
  refine (Kept.updCtx ?_).showCtx
  split
  · exact
      have r := Kept.fstIte h.updCtx.takeBuffer h.updCtx.pair
      (Kept.ite r.raise (.ite r.raise r)).updDesc
  · exact
      have r := Kept.fstIte h.updCtx.takeBuffer h.updCtx.pair
      .ite r.raise (.ite r.raise r)

protected theorem Kept.landBytes {c y x b} (h : Kept s₀ s) : Kept s₀ (landBytes s c y x b) := by
  unfold landBytes
  split
  · exact h
  · split
    · exact h
    · exact
        have h₁ := h.busWrite
        .ite h₁.sealRow.updCtx h₁.updCtx

protected theorem Kept.landAbandon {c} (h : Kept s₀ s) : Kept s₀ (landAbandon s c) := by
  unfold landAbandon
  split
  · exact h
  · split
    · exact h.updCtx.parentLost.abandonBuffer
    · exact h.updCtx

protected theorem Kept.landEnd {c f} (h : Kept s₀ s) : Kept s₀ (landEnd s c f) := by
  unfold landEnd
  split
  · exact h
  · split
    · exact h.updCtx
    · exact (Kept.ite h.updCtx h.updCtx.updCtx).writeProvisional.updDesc.requestPublish.noteAsked

protected theorem Kept.execDpFrameStart {quad width format} (h : Kept s₀ s) : Answers s₀ (execDpFrameStart quad width format s) := by
  unfold execDpFrameStart
  refine .ite h.next ?_
  split
  · exact h.next
  · split
    · exact h.next
    · exact .ite h.next h.draw.landStart.next

protected theorem Kept.execDpLineRx {quad pixels} (h : Kept s₀ s) : Answers s₀ (execDpLineRx quad pixels s) := by
  unfold execDpLineRx
  refine .ite h.next ?_
  split
  · exact h.next
  · split
    · exact h.next
    · exact (Kept.ite h.landBytes h).updCtx.next

protected theorem Kept.execDpFrameEnd {quad} (h : Kept s₀ s) : Answers s₀ (execDpFrameEnd quad s) := by
  unfold execDpFrameEnd
  refine .ite h.next ?_
  split
  · exact h.next
  · split
    · exact h.next
    · exact .ite h.landAbandon.next <| .ite h.raise.landAbandon.next <| .ite h.raise.landAbandon.next h.landEnd.next

protected theorem Kept.dpLoss {q} (h : Kept s₀ s) : Kept s₀ (dpLoss s q) := by
  unfold dpLoss
  split
  · exact h
  · exact h.raise.landAbandon

protected theorem Kept.wdogFire {c cause} (h : Kept s₀ s) : Kept s₀ (wdogFire s c cause) := h.wr.raise.updCtx.signal

protected theorem Kept.applyRefuse {c r} (h : Kept s₀ s) : Kept s₀ (applyRefuse s c r) := (Kept.ite h.wr0.wr0.wr0.wr0 h.wr0.wr0).raise

protected theorem Kept.sluApply {c} (h : Kept s₀ s) : Kept s₀ (sluApply s c) := .ite h.applyRefuse h.wr0.wr0.set

protected theorem Kept.bindSet {c t} (h : Kept s₀ s) : Kept s₀ (bindSet s c t) :=
  (h.each fun _ k => k.orphanSource).each fun _ k => k.bindSource

protected theorem Kept.ctxStop {c} (h : Kept s₀ s) : Kept s₀ (ctxStop s c) := h.updCtx.landAbandon.dropJob.updCtx.showCtx

protected theorem Kept.ctxAccept {c t} (h : Kept s₀ s) : Kept s₀ (ctxAccept s c t) := h.updCtx.showCtx

protected theorem Kept.execSluApplyDone (h : Kept s₀ s) : Answers s₀ (execSluApplyDone s) := by
  unfold execSluApplyDone
  dsimp only
  split
  · exact h.next
  · split
    · exact h.set.wr0.applyRefuse.next
    · exact
        have h₁ := h.set.wr0.bindSet.raise
        (Kept.ite h₁.ctxAccept h₁.ctxStop).next

/-! ### The decoder -/

protected theorem Kept.setStr {n x} (h : Kept s₀ s) : Kept s₀ (setStr s n x) := h.set

protected theorem Kept.updStr {n f} (h : Kept s₀ s) : Kept s₀ (updStr s n f) := h.setStr

protected theorem Kept.showStr {n} (h : Kept s₀ s) : Kept s₀ (showStr s n) := h.wr.wr.wr.wr.wr

protected theorem Kept.readPsets {n} (h : Kept s₀ s) : Kept s₀ (readPsets s n).1 := h.busRead.pair

protected theorem Kept.vdcRefuse {n c} (h : Kept s₀ s) : Kept s₀ (vdcRefuse s n c) := (Kept.ite h.wr0.wr0.wr0.wr0 h.wr0.wr0).raise

protected theorem Kept.vdcCmdWrite {op n} (h : Kept s₀ s) : Kept s₀ (vdcCmdWrite s op n) := .ite h <| .ite h.vdcRefuse h.wr0.wr0.set

protected theorem Kept.unmark {d} (h : Kept s₀ s) : Kept s₀ (unmark s d) := h.updDesc

protected theorem Kept.unref {n d} (h : Kept s₀ s) : Kept s₀ (unref s n d) := .ite h.unmark h.unmark.abandonBuffer

protected theorem Kept.setDpb {n l} (h : Kept s₀ s) : Kept s₀ (setDpb s n l) :=
  (h.setStr.each fun _ k => k.unref).each fun _ k => by split; exacts [k.updDesc, k]

protected theorem Kept.removeStream {n} (h : Kept s₀ s) : Kept s₀ (removeStream s n) :=
  have h₁ := h.updStr.setDpb.each fun _ k => k.abandonBuffer
  (Kept.id (by split; exacts [h₁.abandonBuffer, h₁])).setStr.orphanSource.showStr

protected theorem Kept.execVdcCmdDone (h : Kept s₀ s) : Answers s₀ (execVdcCmdDone s) := by
  unfold execVdcCmdDone
  dsimp only
  split
  · exact h.next
  · refine .ite h.next ?_
    split
    · exact h.set.wr0.vdcRefuse.next
    · refine .ite h.set.wr0.setStr.wr.wr.bindSource.showStr.raise.next <| .ite h.set.wr0.removeStream.raise.next ?_
      split
      · exact h.set.wr0.readPsets.vdcRefuse.next
      · exact h.set.wr0.readPsets.updStr.raise.next

protected theorem Kept.overrun {n cause} (h : Kept s₀ s) : Kept s₀ (overrun s n cause) := h.wr.raise

protected theorem Kept.discardAu {n} (h : Kept s₀ s) : Kept s₀ (discardAu s n) := h.also fun k => k.raise

protected theorem Kept.offerAu {n codec ident a} (h : Kept s₀ s) : Kept s₀ (offerAu s n codec ident a) :=
  .ite h <| .ite h.raise <| .ite h.discardAu <| .ite h.overrun.updStr.showStr.discardAu h.setStr.showStr

protected theorem Kept.execEntropyAuStart {engine} (h : Kept s₀ s) : Answers s₀ (execEntropyAuStart engine s) := by
  unfold execEntropyAuStart
  refine .ite h.next ?_
  split
  · exact h.next
  · exact h.updStr.next

protected theorem Kept.pictureLost {n a} (h : Kept s₀ s) : Kept s₀ (pictureLost s n a) := h.updStr

protected theorem Kept.publishPicture {n p} (h : Kept s₀ s) : Kept s₀ (publishPicture s n p) :=
  h.writeProvisional.updDesc.requestPublish.set

protected theorem Kept.flushOut {limit n fuel} (h : Kept s₀ s) : Kept s₀ (flushOut limit n fuel s) := by
  induction fuel generalizing s with
  | zero => exact h
  | succ fuel ih =>
    unfold flushOut
    split
    · exact h
    · exact .ite h (ih h.updStr.publishPicture)

protected theorem Kept.putOut {limit n} (h : Kept s₀ s) : Kept s₀ (putOut limit s n) := h.flushOut

protected theorem Kept.endSequence {n} (h : Kept s₀ s) : Kept s₀ (endSequence s n) := by
  unfold endSequence
  dsimp only
  split
  · exact h.setStr
  · exact h.setStr
  · exact h.putOut

protected theorem Kept.auParsed {n a i} (h : Kept s₀ s) : Kept s₀ (auParsed s n a i) :=
  .ite h.setStr.wr.raise.discardAu <| .ite h.setStr.discardAu <| .ite h.setStr.raise <| .ite h.setStr.overrun.pictureLost <|
    .ite h.setStr (h.also fun k => k.raise).setStr

protected theorem Kept.execEntropyAuDone {engine info} (h : Kept s₀ s) : Answers s₀ (execEntropyAuDone engine info s) := by
  unfold execEntropyAuDone
  split
  · exact h.next
  · split
    · exact h.next
    · exact
        have h₁ := h.auParsed
        (Kept.ite h₁.endSequence h₁).showStr.next

protected theorem Kept.dropWaiting {n p} (h : Kept s₀ s) : Kept s₀ (dropWaiting s n p) :=
  have h₁ := h.setStr.each fun _ k => k.raise
  .ite h₁.putOut h₁

protected theorem Kept.execPixelEngineStart {engine} (h : Kept s₀ s) : Answers s₀ (execPixelEngineStart engine s) := by
  unfold execPixelEngineStart
  dsimp only
  refine .ite h.next ?_
  split
  · exact h.next
  · split
    · exact h.next
    · split
      · exact h.setStr.setDpb.takeBuffer.raise.dropWaiting.showStr.next
      · exact (h.setStr.setDpb.takeBuffer.also fun k => k.raise).updStr.showStr.next

protected theorem Kept.readRef {m fmt from? k' y o n} (h : Kept s₀ s) : Kept s₀ (readRef s m fmt from? k' y o n).1 := by
  unfold readRef
  split
  · exact h.busRead.pair
  · exact h.pair

protected theorem Kept.concealLine {m fmt from? missing k' y w line} (h : Kept s₀ s) :
    Kept s₀ (concealLine s m fmt from? missing k' y w line).1 := h.foldlFst fun _ k => .fstIte k k.readRef.pair

protected theorem Kept.readStandIns {m p} (h : Kept s₀ s) : Kept s₀ (readStandIns s m p).1 :=
  h.foldlFst fun _ k => (k.foldlFst fun _ k1 => k1.readRef.pair).pair

protected theorem Kept.picLines {m p x r} (h : Kept s₀ s) : Kept s₀ (picLines s m p x r).1 :=
  h.readStandIns.foldlFst fun _ k => k.concealLine.pair

protected theorem Kept.dropOutput {n} (h : Kept s₀ s) : Kept s₀ (dropOutput s n) :=
  h.setStr.each fun _ k => .ite k.raise k.raise.abandonBuffer

protected theorem Kept.marksAfter {n p} (h : Kept s₀ s) : Kept s₀ (marksAfter s n p) := .ite h.setDpb <| .ite h h.setStr.setDpb

protected theorem Kept.execReconDone {engine result} (h : Kept s₀ s) : Answers s₀ (execReconDone engine result s) := by
  unfold execReconDone
  split
  · exact h.next
  · split
    · exact h.next
    · exact .ite h.next <|
        have h₁ := (h.picLines.writeLines.foldl fun _ k => k.sealRow).also fun k => k.raise
        (Kept.ite h₁.updStr.dropOutput <| .ite h₁.updStr.putOut h₁.updStr).updStr.marksAfter.putOut.showStr.next

protected theorem Kept.streamPublished {d} (h : Kept s₀ s) : Kept s₀ (streamPublished s d) := by
  unfold streamPublished
  split
  · exact h
  · exact h.set.wr

/-! ### Ethernet ports and stream flows -/

protected theorem Kept.hostDeliver {q port b p} (h : Kept s₀ s) : Kept s₀ (hostDeliver s q port b p) :=
  .ite h.busRead.raise h.busRead.busWrite.busWrite.set

protected theorem Kept.flowCapture {e a r} (h : Kept s₀ s) : Kept s₀ (flowCapture s e a r).1 := by
  unfold flowCapture
  refine .fstIte h.pair ?_
  split
  · exact h.pair
  · exact h.raisePtp.pair

protected theorem Kept.discardAssembly {i} (h : Kept s₀ s) : Kept s₀ (discardAssembly s i) := by
  unfold discardAssembly
  exact (h.each fun _ k => .ite k.landAbandon k).updRun

protected theorem Kept.flowFrameEnd {i e split} (h : Kept s₀ s) : Kept s₀ (flowFrameEnd s i e split) := by
  unfold flowFrameEnd
  dsimp only
  split
  · exact .ite h.updRun h.updRun.wdogFire
  · exact .ite h.updRun.landEnd <| .ite h.updRun.landAbandon h.updRun.landAbandon.wdogFire

protected theorem Kept.flowFrameStart {i e ts} (h : Kept s₀ s) : Kept s₀ (flowFrameStart s i e ts) := by
  unfold flowFrameStart
  exact h.flowCapture.landStart.updRun

protected theorem Kept.flowDropped {i e ext ts marker} (h : Kept s₀ s) : Kept s₀ (flowDropped s i e ext ts marker) := by
  unfold flowDropped
  dsimp only
  split
  · exact h.updRun.updRun
  · refine .ite ?_ <| .ite h.updRun.flowFrameEnd.updRun h.updRun
    exact
      have h₁ := h.updRun.updRun
      .ite h₁.flowFrameEnd h₁

protected theorem Kept.flowTake {i e b ext marker} (h : Kept s₀ s) : Kept s₀ (flowTake s i e b ext marker) := by
  unfold flowTake
  refine .ite h.updRun ?_
  split
  · exact h.updRun
  · exact
      have h₁ : Kept s₀ _ := .ite (h.updRun.each fun _ k => k.landBytes) h.updRun
      .ite h₁.flowFrameEnd h₁

protected theorem Kept.flowVideo {i e b seq ts marker} (h : Kept s₀ s) : Kept s₀ (flowVideo s i e b seq ts marker) := by
  unfold flowVideo
  refine .ite h.flowDropped ?_
  split
  · exact .ite h.updRun <| .ite h.flowFrameStart.flowTake h.flowDropped
  · exact .ite h.flowTake <| .ite (.ite h.flowFrameEnd.flowFrameStart.flowTake h.flowFrameEnd.flowDropped) h.updRun

protected theorem Kept.auEnd {i e split} (h : Kept s₀ s) : Kept s₀ (auEnd s i e split) :=
  .ite h.updRun.updRun <| .ite h.updRun.updRun h.updRun.flowCapture.updRun.offerAu

protected theorem Kept.takePacket {i e p} (h : Kept s₀ s) : Kept s₀ (takePacket s i e p) :=
  .ite h.updRun.updRun <|
    have h₁ : Kept s₀ _ := .ite h.updRun.auEnd h.updRun
    .ite h₁.updRun.auEnd h₁.updRun

protected theorem Kept.drainWindow {i e fuel} (h : Kept s₀ s) : Kept s₀ (drainWindow i e fuel s) := by
  induction fuel generalizing s with
  | zero => exact h
  | succ fuel ih =>
    unfold drainWindow
    dsimp only
    split
    · exact .ite (ih h.updRun.takePacket) (.ite (ih h.updRun) h)
    · exact h

protected theorem Kept.flowCompressed {i e b seq ts marker} (h : Kept s₀ s) : Kept s₀ (flowCompressed s i e b seq ts marker) :=
  .ite h.updRun <| .ite h.updRun h.updRun.drainWindow

protected theorem Kept.flowRtp {i e p} (h : Kept s₀ s) : Kept s₀ (flowRtp s i e p) := by
  unfold flowRtp
  refine .ite h (.ite h.updRun (.ite h.updRun ?_))
  by_cases kind : flowKind e = 0
  · rw [if_pos kind]
    exact (Kept.ite h.discardAssembly.updRun h).updRun.flowVideo
  · rw [if_neg kind]
    exact (Kept.ite h.discardAssembly.updRun h).updRun.flowCompressed

protected theorem Kept.execMacFrameRx {port bytes fcsOk} (h : Kept s₀ s) : Answers s₀ (execMacFrameRx port bytes fcsOk s) := by
  unfold execMacFrameRx
  refine .ite h.next <| .ite h.set.raise.next <| .ite h.set.raise.next <| .ite h.set.next <| .ite h.set.raise.next <| .ite h.set.next ?_
  split
  · exact .ite h.next h.set.hostDeliver.next
  · exact .ite h.next <| .ite h.set.hostDeliver.next h.set.flowRtp.next

protected theorem Kept.flowRefuse {c} (h : Kept s₀ s) : Kept s₀ (flowRefuse s c) := (Kept.ite h.wr0.wr0 h.wr0).raise

protected theorem Kept.flowCmdWrite {op i} (h : Kept s₀ s) : Kept s₀ (flowCmdWrite s op i) := .ite h <| .ite h.flowRefuse h.wr0.set

protected theorem Kept.installEntry {e} (h : Kept s₀ s) : Kept s₀ (installEntry s e) := (Kept.ite h.set.bindSource h.set).wr0

protected theorem Kept.removeEntry {i} (h : Kept s₀ s) : Kept s₀ (removeEntry s i) :=
  .ite h (Kept.ite h.updRun.discardAssembly.orphanSource h.updRun.discardAssembly).set

protected theorem Kept.readEntry {i} (h : Kept s₀ s) : Kept s₀ (readEntry s i) := (h.each fun _ k => k.wrReg).wr0.wr0.wr0.wr0.wr0

protected theorem Kept.execFlowCmdDone (h : Kept s₀ s) : Answers s₀ (execFlowCmdDone s) := by
  unfold execFlowCmdDone
  split
  · exact h.next
  · refine (Kept.raise <| .ite ?_ <| .ite h.set.wr0.removeEntry h.set.wr0.readEntry).next
    dsimp only
    split
    · exact h.set.wr0.flowRefuse
    · exact h.set.wr0.installEntry

protected theorem Kept.execSt2110PacketSend {index} (h : Kept s₀ s) : Answers s₀ (execSt2110PacketSend index s) := by
  unfold execSt2110PacketSend
  dsimp only
  split
  · exact h.next
  · exact .ite h.next h.sendEth.draw.updRun.next

protected theorem Kept.ethDown {port} (h : Kept s₀ s) : Kept s₀ (ethDown s port) :=
  .ite h (h.wr.wr.raise.each fun _ k => .ite k.updRun k).ptpRebind

protected theorem Kept.execEthLinkUp {port} (h : Kept s₀ s) : Answers s₀ (execEthLinkUp port s) := by
  unfold execEthLinkUp
  dsimp only
  split
  · exact h.next
  · exact .ite h.next h.wr.wr.wr.wr.ptpRebind.next

/-! ### Serial lanes -/

protected theorem Kept.updQuad {q f} (h : Kept s₀ s) : Kept s₀ (updQuad s q f) := h.set

protected theorem Kept.setReady (h : Kept s₀ s) : Kept s₀ (setReady s) := h.wr0

protected theorem Kept.quadCommit (h : Kept s₀ s) : Kept s₀ (quadCommit s) := .ite h.wr0.setReady h.wr0.wr0.raise

protected theorem Kept.stopVideo {q} (h : Kept s₀ s) : Kept s₀ (stopVideo s q) := h.each fun _ k => k.updCnv

protected theorem Kept.startTraining {q} (h : Kept s₀ s) : Kept s₀ (startTraining s q) := .ite h <| .ite h.updQuad h.wr.updQuad

protected theorem Kept.auxRun {q} (h : Kept s₀ s) : Kept s₀ (auxRun s q) := h.updQuad.emit

protected theorem Kept.leaveTraining {q state} (h : Kept s₀ s) : Kept s₀ (leaveTraining s q state) :=
  have h₁ := h.wr.updQuad
  .ite h₁.auxRun h₁

protected theorem Kept.trainFail {q cause state} (h : Kept s₀ s) : Kept s₀ (trainFail s q cause state) := h.leaveTraining.updQuad.wr.raise

protected theorem Kept.setDpTaps {q levels} (h : Kept s₀ s) : Kept s₀ (setDpTaps s q levels) := h.each fun _ k => k.wrReg

protected theorem Kept.execDptxTrainingEnd {q result levels} (h : Kept s₀ s) : Answers s₀ (execDptxTrainingEnd q result levels s) :=
  .ite h.next <|
    have h₁ := h.setDpTaps
    .ite ((Kept.ite h₁.emit h₁).leaveTraining.each fun _ k => k.updCnv).next (Kept.ite h₁.wr h₁).trainFail.next

protected theorem Kept.sinkLoss {q} (h : Kept s₀ s) : Kept s₀ (sinkLoss s q) := h.raise.stopVideo

protected theorem Kept.hpdUnplug {q} (h : Kept s₀ s) : Kept s₀ (hpdUnplug s q) :=
  .ite h <| .ite h.wr.trainFail (Kept.ite h.wr.sinkLoss h.wr).leaveTraining

protected theorem Kept.execIrqHpd {q low status} (h : Kept s₀ s) : Answers s₀ (execIrqHpd q low status s) :=
  .ite h.next <| .ite h.hpdUnplug.next <| .ite h.next (Kept.ite h.raise.sinkLoss.wr.startTraining h.raise).next

protected theorem Kept.writeDptxCfg {q v m} (h : Kept s₀ s) : Kept s₀ (writeDptxCfg s q v m) :=
  .ite h <| .ite h.raise <| .ite h.wrReg.startTraining <| .ite h.wrReg.stopVideo.leaveTraining h.wrReg

protected theorem Kept.writeAuxCmd {q v m} (h : Kept s₀ s) : Kept s₀ (writeAuxCmd s q v m) :=
  .ite h <| .ite h.wrReg <| .ite h.wrReg.raise <| .ite h.wrReg <|
    have h₁ := h.wrReg.wr.updQuad
    .ite h₁.updQuad h₁.auxRun

protected theorem Kept.execAuxDone {q reply bytes} (h : Kept s₀ s) : Answers s₀ (execAuxDone q reply bytes s) :=
  .ite h.next <|
    have h₁ := h.wr.wr.wr
    have h₂ := (Kept.ite (h₁.each fun _ k => k.wr) h₁).updQuad.raise
    (Kept.ite h₂.updQuad.startTraining h₂).next

protected theorem Kept.rxTrained {q} (h : Kept s₀ s) : Kept s₀ (rxTrained s q) := .ite h h.wr.wr.wr

protected theorem Kept.dpcdWrite {q a v} (h : Kept s₀ s) : Kept s₀ (dpcdWrite s q a v) :=
  .ite h.updQuad <| .ite h.updQuad <| .ite (.ite h.updQuad.wr <| .ite h.rxTrained.updQuad h) h

protected theorem Kept.execDprxAuxRequest {q req addr bytes len} (h : Kept s₀ s) :
    Answers s₀ (execDprxAuxRequest q req addr bytes len s) :=
  .ite h.next <| .ite h.set.updQuad.emit.next <| .ite (h.each fun _ k => k.dpcdWrite).emit.next <| .ite h.emit.next <| .ite h.emit.next <|
    .ite h.updQuad.emit.next h.updQuad.emit.next

protected theorem Kept.writeDprxCfg {q v m} (h : Kept s₀ s) : Kept s₀ (writeDprxCfg s q v m) :=
  .ite h <| .ite h.raise <| .ite h.wrReg h.wrReg.updQuad.wr

protected theorem Kept.rxLoss {q} (h : Kept s₀ s) : Kept s₀ (rxLoss s q) := h.raise.dpLoss.updQuad.wr

protected theorem Kept.execQuadPllLockLoss {q} (h : Kept s₀ s) : Answers s₀ (execQuadPllLockLoss q s) := by
  unfold execQuadPllLockLoss
  refine .ite h.next (Kept.next ?_)
  generalize hu : each (quadLanes q.val) lockLost _ = u
  have k : Kept s₀ u := hu ▸ h.updQuad.setReady.each fun _ k => k.lockLost
  split
  · exact k.sinkLoss.leaveTraining
  · exact k.rxLoss
  · exact k.each fun _ k => k.ethDown
  · split
    · exact .ite k.portDown (k.each fun _ k => k.dropLane)
    · exact k

protected theorem Kept.execLaneLockLoss {lane} (h : Kept s₀ s) : Answers s₀ (execLaneLockLoss lane s) := by
  unfold execLaneLockLoss
  refine .ite h.next (Kept.next ?_)
  generalize hu : updQuad _ _ _ = u
  have k : Kept s₀ u := hu ▸ (Kept.ite h.draw.wr.wr.raise h.draw.wr.wr.raise.wr).updQuad
  split
  · exact k.rxLoss
  · split
    · exact k.ethDown
    · exact k
  · split
    · exact k.dropLane
    · exact k

protected theorem Kept.execLaneCdrLock {lane found taps} (h : Kept s₀ s) : Answers s₀ (execLaneCdrLock lane found taps s) :=
  .ite h.next <|
    have h₂ := Kept.ite h.wr.updQuad.wr h.wr.updQuad
    have h₃ := Kept.ite h₂ (h₂.wr.each fun _ k => k.wr)
    (Kept.ite h₃ (by split; exacts [h₃.gainLock, h₃.wr])).next

protected theorem Kept.writeTxFir {l v m} (h : Kept s₀ s) : Kept s₀ (writeTxFir s l v m) := .ite h <| .ite h.raise h.wrReg

protected theorem Kept.laneResume {l} (h : Kept s₀ s) : Kept s₀ (laneResume s l) := by
  unfold laneResume
  dsimp only
  split
  · exact .ite h.startTraining h
  · split
    · exact h.startBringup
    · exact h
  · exact h

protected theorem Kept.writeLaneTest {l v m} (h : Kept s₀ s) : Kept s₀ (writeLaneTest s l v m) :=
  .ite h.raise <|
    have h₁ : Kept s₀ _ := .ite h.wrReg.wr h.wrReg
    have h₂ := (Kept.ite h₁ h₁.wr).updQuad
    .ite h₂.laneResume h₂

protected theorem Kept.execPrbsSync {lane first more} (h : Kept s₀ s) : Answers s₀ (execPrbsSync lane first more s) :=
  have h₁ : Kept s₀ _ := .ite h.updQuad h
  have h₂ : Kept s₀ _ := .ite h₁.emit <| .ite h₁.emit h₁
  .ite h₂.next h₂.addSat.updQuad.wr.next

end

end Sys2Proof.Machine
end

