-- ==== Sys2Proof/Proofs/KeptStep.lean ====
section
/-!
What register writes, the fabric, the clocks and the boot keep; every command, and every step.
-/

namespace Sys2Proof.Machine

section
variable {s₀ s : State}

/-! ### Protection updates -/

protected theorem Kept.holdRequest {u} (h : Kept s₀ s) : Kept s₀ (holdRequest s u) := h.wr

protected theorem Kept.holdRelease {u} (h : Kept s₀ s) : Kept s₀ (holdRelease s u) := .ite h (h.wr.each fun _ k => k.raise).set

protected theorem Kept.takeConfig {u} (h : Kept s₀ s) : Kept s₀ (takeConfig s u) := h.set

protected theorem Kept.writePrtCtrl {u v m} (h : Kept s₀ s) : Kept s₀ (writePrtCtrl s u v m) := .ite h.wrReg h.wrReg.raise

protected theorem Kept.writeRegion {r u j v m} (h : Kept s₀ s) : Kept s₀ (writeRegion s r u j v m) := .ite h.raise h.writeReg

protected theorem Kept.writeProt {l v m} (h : Kept s₀ s) : Kept s₀ (writeProt s l v m) := .ite h.writePrtCtrl <| .ite h.writeRegion h

protected theorem Kept.execPrtRegionWrite {off value} (h : Kept s₀ s) : Answers s₀ (execPrtRegionWrite off value s) := by
  unfold execPrtRegionWrite
  split
  · exact h.next
  · exact (Kept.ite h.writeProt h.writeProt).next

/-! ### Writes of registers with rules of their own -/

protected theorem Kept.masterReset {m} (h : Kept s₀ s) : Kept s₀ (masterReset s m) := .ite h h.shimReset

protected theorem Kept.writePark {k' v m} (h : Kept s₀ s) : Kept s₀ (writePark s k' v m) := .ite h.wrReg h

protected theorem Kept.doorbellH2d (h : Kept s₀ s) : Kept s₀ (doorbellH2d s) := h.signal

protected theorem Kept.doorbellD2h (h : Kept s₀ s) : Kept s₀ (doorbellD2h s) := h.raiseVector

protected theorem Kept.mbxAttach {version} (h : Kept s₀ s) : Kept s₀ (mbxAttach s version) := .ite h.wr0 h.wr0.wr0.raise

protected theorem Kept.writeGeneric {l v m} (h : Kept s₀ s) : Kept s₀ (writeGeneric s l v m) :=
  have h₁ := h.writeReg
  .ite h₁.clearCounts h₁

protected theorem Kept.writeGlobal {l v m} (h : Kept s₀ s) : Offers s₀ (writeGlobal s l v m) :=
  .ite h.mbxAttach.some <| .ite ((h.also fun k => k.doorbellH2d).also fun k => k.doorbellD2h).some <|
    .ite (h.writeGeneric.also fun k => k.warmReset).some <| .ite (h.also fun k => k.stillEnter).some <|
    .ite (h.also fun k => k.bootGo).some <| .ite ((h.also fun k => k.otpCommand).also fun k => k.otpCommand).some <| .ite h.rtcSet.some <|
    .ite ((h.also fun k => k.bistStart).also fun k => k.bistStart).some .none

protected theorem Kept.writeEccEn {l v m} (h : Kept s₀ s) : Kept s₀ (writeEccEn s l v m) := .ite h.writeGeneric h

protected theorem Kept.writeMemory {l v m} (h : Kept s₀ s) : Offers s₀ (writeMemory s l v m) :=
  .ite (h.also fun k => k.masterReset).some <| .ite h.writePark.some <| .ite (Kept.ite h <| .ite h.holdRequest h.holdRelease).some <|
    .ite h.writeProt.some <| .ite ((h.writeGeneric.also fun k => k.startInit).also fun k => k.dramReset).some <| .ite h.writeEccEn.some <|
    .ite (h.also fun k => k.freqRequest).some .none

protected theorem Kept.writeLanes {l v m} (h : Kept s₀ s) : Offers s₀ (writeLanes s l v m) :=
  .ite (h.writeGeneric.also fun k => k.quadCommit).some <| .ite h.writeDptxCfg.some <| .ite h.writeDprxCfg.some <|
    .ite h.writeAuxCmd.some <| .ite (Kept.ite h.writeGeneric h).some <| .ite (Kept.ite h.writeGeneric h).some <| .ite h.writeTxFir.some <|
    .ite h.writeLaneTest.some <| .ite h.writeLnkCfg.some .none

protected theorem Kept.writeMacCtrl {l v m} (h : Kept s₀ s) : Kept s₀ (writeMacCtrl s l v m) :=
  have h₁ := h.writeGeneric
  .ite h₁.ethDown h₁

protected theorem Kept.writeMedia {l v m} (h : Kept s₀ s) : Offers s₀ (writeMedia s l v m) :=
  .ite h.writePtpCtrl.some <| .ite h.writeMacCtrl.some <| .ite h.flowCmdWrite.some <| .ite (h.also fun k => k.sluApply).some <|
    .ite h.vdcCmdWrite.some <| .ite h.venCmdWrite.some <| .ite h.writeChkCtrl.some <| .ite h.writeChkConfig.some .none

protected theorem Kept.writeWall {l v m} (h : Kept s₀ s) : Offers s₀ (writeWall s l v m) := by
  unfold writeWall
  refine .ite h.easCmdWrite.some <| .ite (Kept.ite h.writeGeneric h).some ?_
  refine .ite (Kept.ite h h.writeGeneric).some <| .ite (Kept.ite h h.writeGeneric).some ?_
  refine .ite ?_ <| .ite h.noteConfig.writeGeneric.some <| .ite h.writeGalCtrl.some <| .ite (Kept.ite h h.writeGeneric).some <|
    .ite h.writeCnvCtrl.some <| .ite (Kept.ite h.writeGeneric h).some <| .ite h.setDeadline.some <|
    .ite (h.also fun k => k.proofStart).some .none
  exact
    have h₁ := h.noteConfig.wrReg
    (Kept.ite h₁ h₁.engineWrite).some

protected theorem Kept.writeControl {l v m} (h : Kept s₀ s) : Offers s₀ (writeControl s l v m) := by
  unfold writeControl
  refine .ite (h.writeGeneric.also fun k => k.unpair).some <| .ite ((h.also fun k => k.wr0).also fun k => k.startResync).some ?_
  refine .ite h.seqSignal.some ?_
  refine .ite ((((h.also fun k => k.seqStart).also fun k => k.haltSeq).also fun k => k.resumeSeq).also fun k => k.seqStep).some ?_
  refine .ite h.seqRegWrite.some <| .ite h.updSeq.some ?_
  refine .ite (h.also fun k => k.testStart).some <| .ite h.writeTouch.some ?_
  refine .ite (Kept.ite h.wr h).some <| .ite (Kept.ite h.writeGeneric h).some ?_
  refine .ite h.writeGeneric.set.some <| .ite ?_ <| .ite (h.also fun k => k.captureHead).some <| .ite (Kept.ite h.askJournal h).some <|
    .ite (h.also fun k => k.evidStart).some .none
  exact
    have h₁ := h.writeGeneric
    (Kept.ite h₁ h₁.set).some

protected theorem Kept.writeLocated {l v m} (h : Kept s₀ s) : Kept s₀ (writeLocated s l v m) := by
  unfold writeLocated
  split
  · next t ht =>
    obtain ⟨f, hf, ht⟩ := List.exists_of_findSome?_eq_some ht
    simp only [List.mem_cons, List.not_mem_nil, or_false] at hf
    rcases hf with rfl | rfl | rfl | rfl | rfl | rfl
    · exact h.writeGlobal t ht
    · exact h.writeMemory t ht
    · exact h.writeLanes t ht
    · exact h.writeMedia t ht
    · exact h.writeWall t ht
    · exact h.writeControl t ht
  · exact h.writeGeneric

protected theorem Kept.writeWord32 {off v} (h : Kept s₀ s) : Kept s₀ (writeWord32 s off v) := by
  unfold writeWord32
  split
  · exact h
  · exact .ite h.writeLocated h.writeLocated

protected theorem Kept.writeSpace {off wide v} (h : Kept s₀ s) : Kept s₀ (writeSpace s off wide v) := by
  unfold writeSpace
  refine .ite h.writeWord32 ?_
  split
  · exact .ite h.writeLocated h.writeWord32.writeWord32
  · exact h.writeWord32.writeWord32

protected theorem Kept.execBlockLockSet {off value} (h : Kept s₀ s) : Answers s₀ (execBlockLockSet off value s) := by
  unfold execBlockLockSet
  split
  · exact h.next
  · exact (Kept.ite h.writeWord32 h).next

/-! ### The fabric -/

protected theorem Kept.fabRead {a n} (h : Kept s₀ s) : Kept s₀ (fabRead s a n).1 := .fstIte h.pair h.targetRead

protected theorem Kept.fabWrite {a l holes} (h : Kept s₀ s) : Kept s₀ (fabWrite s a l holes).1 := .fstIte h.writeSpace.pair h.targetWrite

protected theorem Kept.serve {p x} (h : Kept s₀ s) : Kept s₀ (serve s p x).1 :=
  .fstIte h.decodeError.pair <| .fstIte h.decodeError.pair <|
    have h₁ := h.noteGrant
    .fstIte h₁.fabWrite.pair h₁.fabRead.pair

protected theorem Kept.takeHeld {x} (h : Kept s₀ s) : Kept s₀ (takeHeld s x).1 := .fstIte h.updSeq.set.pair h.set.pair

protected theorem Kept.respond {x port err data} (h : Kept s₀ s) : Kept s₀ (respond s x port err data) := h.set

protected theorem Kept.sampleLate (h : Kept s₀ s) : Kept s₀ (sampleLate s) := h.set

protected theorem Kept.present {p x} (h : Kept s₀ s) : Kept s₀ (present s p x) := h.set

protected theorem Kept.checkHeld {x} (h : Kept s₀ s) : Kept s₀ (checkHeld s x) := by
  unfold checkHeld
  split
  · exact h.violate.respond
  · exact h.present

protected theorem Kept.execProtectionCheck {master} (h : Kept s₀ s) : Answers s₀ (execProtectionCheck master s) := by
  unfold execProtectionCheck
  dsimp only
  split
  · exact h.next
  · exact .ite h.next h.takeHeld.checkHeld.next

protected theorem Kept.execFabricGrant {port} (h : Kept s₀ s) : Answers s₀ (execFabricGrant port s) := by
  unfold execFabricGrant
  dsimp only
  split
  · exact h.next
  · exact .ite h.next (h.also fun k => k.draw).set.serve.respond.next

protected theorem Kept.execDecodeError (h : Kept s₀ s) : Answers s₀ (execDecodeError s) := by
  unfold execDecodeError
  split
  · exact h.next
  · exact h.set.serve.respond.next

protected theorem Kept.execMresetDone (h : Kept s₀ s) : Answers s₀ (execMresetDone s) := by
  unfold execMresetDone
  split
  · exact h.next
  · exact h.set.wr0.raise.next

protected theorem Kept.finishTag {n tag} (h : Kept s₀ s) : Kept s₀ (finishTag s n tag) := by
  unfold finishTag
  split
  · exact h.set.updSeq
  · split
    · exact h
    · exact .ite h h.set.serve.updSeq

protected theorem Kept.issueOwn {n x} (h : Kept s₀ s) : Kept s₀ (issueOwn s n x) := .ite h h.takeHeld.checkHeld

protected theorem Kept.pushWrite {n i} (h : Kept s₀ s) : Kept s₀ (pushWrite n s i) := by
  unfold pushWrite
  dsimp only
  refine .ite h ?_
  split
  · exact .ite h.issueOwn h
  · exact (Kept.ite h.issueOwn h).finishTag

protected theorem Kept.makeWrites {n} (h : Kept s₀ s) : Kept s₀ (makeWrites n s) := h.foldl fun _ k => k.pushWrite

protected theorem Kept.execSeqWriteResponse {n} (h : Kept s₀ s) : Answers s₀ (execSeqWriteResponse n s) := by
  unfold execSeqWriteResponse
  dsimp only
  split
  · exact h.makeWrites.next
  · exact .ite h.makeWrites.next <|
      have h₁ := h.makeWrites.updSeq
      (Kept.ite h₁.fault h₁).next

protected theorem Kept.pushRead {n} (h : Kept s₀ s) : Kept s₀ (pushRead n s) := by
  unfold pushRead
  dsimp only
  split
  · exact h
  · split
    · exact .ite h.issueOwn h
    · exact (Kept.ite h.issueOwn h).finishTag

protected theorem Kept.execSeqFabricReadReturn {n} (h : Kept s₀ s) : Answers s₀ (execSeqFabricReadReturn n s) := by
  unfold execSeqFabricReadReturn
  dsimp only
  split
  · exact h.makeWrites.pushRead.next
  · split
    · exact h.makeWrites.pushRead.next
    · exact
        have h₁ := h.makeWrites.pushRead.updSeq
        (Kept.ite h₁.finish h₁.fault).next

protected theorem Kept.msixSend {v} (h : Kept s₀ s) : Kept s₀ (msixSend s v) := .ite h.set.emit h

protected theorem Kept.msixUnmask {v} (h : Kept s₀ s) : Kept s₀ (msixUnmask s v) := h.set.msixSend

protected theorem Kept.bar4Write {o l} (h : Kept s₀ s) : Kept s₀ (bar4Write s o l) := h.each fun _ k => k.set.msixSend

protected theorem Kept.cfgWrite {o v} (h : Kept s₀ s) : Kept s₀ (cfgWrite s o v) := h.set.each fun _ k => k.msixSend

protected theorem Kept.hostError (h : Kept s₀ s) : Kept s₀ (hostError s) := h.set.raise

protected theorem Kept.cfgRequest {write o l} (h : Kept s₀ s) : Kept s₀ (cfgRequest s write o l) := .ite h <| .ite h.cfgWrite h.set

protected theorem Kept.hostIssue {fuel} (h : Kept s₀ s) : Kept s₀ (hostIssue fuel s) := by
  induction fuel generalizing s with
  | zero => exact h
  | succ fuel ih =>
    unfold hostIssue
    dsimp only
    split
    · exact h
    · exact .ite h (ih h.set)

protected theorem Kept.hostAdvance (h : Kept s₀ s) : Kept s₀ (hostAdvance s) := h.hostIssue

protected theorem Kept.execHostRequest {write addr len bytes} (h : Kept s₀ s) : Answers s₀ (execHostRequest write addr len bytes s) :=
  .ite h.next <| .ite h.cfgRequest.next <| .ite (.ite h.next <| .ite h.bar4Write.next h.set.next) h.set.hostAdvance.next

protected theorem Kept.hostAnswer {r} (h : Kept s₀ s) : Kept s₀ (hostAnswer s r) := by
  unfold hostAnswer
  split
  · exact h
  · exact .ite (h.set.also fun k => k.hostError) h.set

protected theorem Kept.execResponseReturn {name} (h : Kept s₀ s) : Answers s₀ (execResponseReturn name s) := by
  unfold execResponseReturn
  dsimp only
  split
  · exact h.next
  · exact .ite h.set.next <| .ite h.set.hostAnswer.hostAdvance.next <| .ite h.set.updSeq.next <| .ite h.set.emit.next h.set.next

protected theorem Kept.execHostCompletion (h : Kept s₀ s) : Answers s₀ (execHostCompletion s) := by
  unfold execHostCompletion
  split
  · exact h.next
  · exact .ite h.set.emit.hostError.next h.set.emit.next

/-! ### Clocks, and the passing of one NET cycle -/

protected theorem Kept.rtcTick (h : Kept s₀ s) : Kept s₀ (rtcTick s) := .ite h <| .ite h.set <| .ite h.set.wr0 h.set.wr0.wr0

protected theorem Kept.tick (h : Kept s₀ s) : Kept s₀ (tick s) :=
  have h₁ := h.sampleLate.set.rtcTick
  .ite h₁ (h₁.set.each fun _ k => k.addWrap)

/-! ### Boots -/

protected theorem Kept.updBoot {f} (h : Kept s₀ s) : Kept s₀ (updBoot s f) := h.set

protected theorem Kept.dramSettings {rowBits initSp ecc} (h : Kept s₀ s) : Kept s₀ (dramSettings s rowBits initSp ecc) :=
  h.writeReg.writeReg

protected theorem Kept.spiRead (h : Kept s₀ s) : Kept s₀ (spiRead s) := h.emit.emit.emit

protected theorem Kept.spiStart {image} (h : Kept s₀ s) : Kept s₀ (spiStart s image) := by
  unfold spiStart
  split
  · exact h.spiRead.bootFail
  · exact h.spiRead.dramSettings.set.startInit

protected theorem Kept.retainedStart {r} (h : Kept s₀ s) : Kept s₀ (retainedStart s r) := by
  unfold retainedStart
  dsimp only
  split
  · exact h.set.wr0.bootFail
  · exact (h.set.wr0.dramSettings.each fun _ k => k.wr).set

protected theorem Kept.execBootStart {image} (h : Kept s₀ s) : Answers s₀ (execBootStart image s) := by
  unfold execBootStart
  refine .ite h.next <| .ite h.spiStart.next ?_
  split
  · exact h.retainedStart.next
  · exact
      have h₁ := h.bootFallback
      (Kept.ite h₁ h₁.spiStart).next

protected theorem Kept.retrainBoot {failed margins} (h : Kept s₀ s) : Kept s₀ (retrainBoot s failed margins) :=
  have h₁ := h.each fun _ k => k.wr
  .ite (h₁.each fun _ k => .ite k.wr.raise k.wr).bootFail (h₁.each fun _ k => k.wr.wr).readySet.wr0.updBoot

protected theorem Kept.execDramInitDone {failed margins} (h : Kept s₀ s) : Answers s₀ (execDramInitDone failed margins s) := by
  unfold execDramInitDone
  refine .ite ?_ <| .ite h.retrainBoot.next h.next
  exact
    have h₁ := h.finishInit
    (Kept.ite h₁ <| .ite h₁.updBoot h₁.bootFail).next

protected theorem Kept.loadImage {b} (h : Kept s₀ s) : Kept s₀ (loadImage s b).1 := by
  unfold loadImage
  refine .fstIte ?_ <| .fstIte h.pair h.busWrite.pair
  split
  · exact h.busRead.pair
  · exact h.pair

protected theorem Kept.execBootDigestDone (h : Kept s₀ s) : Answers s₀ (execBootDigestDone s) := by
  unfold execBootDigestDone
  split
  · exact h.next
  · exact .ite h.next <|
      have h₁ := h.loadImage
      (Kept.ite h₁.updBoot h₁.bootFail).next

protected theorem Kept.bootWrite {a l} (h : Kept s₀ s) : Kept s₀ (bootWrite s a l).1 :=
  have h₁ := h.checkAccess
  .fstIte h₁.pair h₁.fabWrite.pair

protected theorem Kept.bootWrites {n l} (h : Kept s₀ s) : Kept s₀ (bootWrites s n l).1 :=
  h.foldlFst fun _ k => .fstIte k <| .fstIte k.pair k.bootWrite.pair

protected theorem Kept.bootStarts {mask} (h : Kept s₀ s) : Kept s₀ (bootStarts s mask).1 :=
  h.foldlFst fun _ k => .fstIte k <| .fstIte k.seqStart.pair k.seqStart.finishStart.pair

protected theorem Kept.nextRecord {n} (h : Kept s₀ s) : Kept s₀ (nextRecord s n) := h.updBoot

protected theorem Kept.runRecord {b r} (h : Kept s₀ s) : Kept s₀ (runRecord s b r) := by
  unfold runRecord
  dsimp only
  split
  · split
    · exact h.bootWrites.bootFail
    · exact h.bootWrites.updBoot
    · exact h.bootWrites.nextRecord
  · split
    · exact h.bootWrites.bootFail
    · exact h.bootWrites.updBoot
    · exact h.bootWrites.nextRecord
  · exact
      have h₁ := h.bootStarts
      .ite h₁.bootFail h₁.nextRecord
  · exact h.nextRecord.updBoot
  · exact h

protected theorem Kept.execBootRecord (h : Kept s₀ s) : Answers s₀ (execBootRecord s) := by
  unfold execBootRecord
  split
  · exact h.next
  · refine .ite h.next <| .ite h.bootFail.next ?_
    split
    · exact h.bootFail.next
    · exact (Kept.ite h.runRecord h.nextRecord).next

protected theorem Kept.execBootEnd (h : Kept s₀ s) : Answers s₀ (execBootEnd s) := by
  unfold execBootEnd
  split
  · exact h.next
  · exact .ite h.next h.set.wr0.raise.next

/-! ### Every command, and every step -/

/-- Every command answers a next state, which keeps what every operation keeps. -/
protected theorem Kept.exec (h : Kept s₀ s) (c : Instr) : Answers s₀ (exec c s) :=
  match c with
  | .registerWrite .. => (Kept.ite h.writeSpace h).next
  | .w1cFlagClear .. => h.execW1cFlagClear
  | .cntClr .. => h.execCntClr
  | .blockLockSet .. => h.execBlockLockSet
  | .islandLost .. => .ite h.next h.wr0.wr0.raise.enterHold.set.next
  | .galleryLost .. => .ite h.next h.raise.galleryDark.next
  | .galleryPllRelock .. => .ite h.next (h.updGal.wr0.each fun _ k => k.updCnv.enterGesso).next
  | .publishRequest .. => .ite h.next h.reserveSeq.updDesc.set.next
  | .framePublish .. => .ite h.next h.framePublish.streamPublished.contextPublished.next
  | .recordHeaderRead .. => h.execRecordHeaderRead
  | .layerSlotRead .. => .ite h.next <| have h₁ := h.slotReadFails; (Kept.ite h₁.paintCheck h₁).next
  | .tileFetchIssue .. => h.execTileFetchIssue
  | .tileDataArrival .. => h.execTileDataArrival
  | .chkStart .. => h.writeChkCtrl.next
  | .chkAbort .. => h.chkAbortJob.next
  | .chkJobDone .. => h.execChkJobDone
  | .chkProtError .. => .ite h.next (Kept.ite h.busRead.chkProtEnd h).next
  | .chkConfigWrite .. => h.execChkConfigWrite
  | .ptpCtrlWrite .. => h.writePtpCtrl.next
  | .relock => h.armRelock.next
  | .capture => h.captureClock.next
  | .announceRx .. => h.execAnnounceRx
  | .announceTimeout => .ite h.next h.updPtp.setPtpState.raisePtp.next
  | .delayReqSend => .ite h.next h.sendEth.draw.draw.updPtp.next
  | .delayRespRx .. => h.execDelayRespRx
  | .offsetSample .. => h.execOffsetSample
  | .macFrameRx .. => h.execMacFrameRx
  | .hostqTxFrame .. => .ite h.next <| have h₁ := h.busRead.busRead; (Kept.ite h₁.set.sendEth h₁.set).next
  | .flowInstall => h.flowCmdWrite.next
  | .flowRemove .. => h.flowCmdWrite.next
  | .flowRead .. => h.flowCmdWrite.next
  | .flowCmdDone => h.execFlowCmdDone
  | .st2110PacketSend .. => h.execSt2110PacketSend
  | .ethLinkDown .. => h.ethDown.next
  | .ethLinkUp .. => h.execEthLinkUp
  | .dpFrameStart .. => h.execDpFrameStart
  | .dpLineRx .. => h.execDpLineRx
  | .dpFrameEnd .. => h.execDpFrameEnd
  | .wdogNoStart .. => .ite h.wdogFire.next h.next
  | .wdogIncomplete .. => .ite h.landAbandon.wdogFire.next h.next
  | .sluJobRelease .. => h.execSluJobRelease
  | .sluStripeStart .. => h.execSluStripeStart
  | .sluStripeEnd .. => h.execSluStripeEnd
  | .sluJobDrop .. => .ite h.raise.dropJob.next h.next
  | .sluApply .. => h.sluApply.next
  | .sluApplyDone => h.execSluApplyDone
  | .vdcAdmit .. => h.vdcCmdWrite.next
  | .vdcRemove .. => h.vdcCmdWrite.next
  | .vdcInject .. => h.vdcCmdWrite.next
  | .vdcCmdDone => h.execVdcCmdDone
  | .entropyAuStart .. => h.execEntropyAuStart
  | .entropyAuDone .. => h.execEntropyAuDone
  | .pixelEngineStart .. => h.execPixelEngineStart
  | .reconDone .. => h.execReconDone
  | .venAdmit .. => h.venCmdWrite.next
  | .venRemove .. => h.venCmdWrite.next
  | .venIdr .. => h.venCmdWrite.next
  | .venCmdDone => h.execVenCmdDone
  | .encPictureStart => h.execEncPictureStart
  | .encRowDone .. => h.execEncRowDone
  | .encPictureDone => h.execEncPictureDone
  | .encAuWritten .. => h.execEncAuWritten
  | .poolCfg .. => h.easIssue.next
  | .bufAdd .. => h.easIssue.next
  | .bufRemove .. => h.easIssue.next
  | .take .. => h.easIssue.next
  | .publish .. => h.easIssue.next
  | .free .. => h.easIssue.next
  | .lease .. => h.easIssue.next
  | .release .. => h.easIssue.next
  | .srcAlloc .. => h.easIssue.next
  | .srcClaim .. => h.easIssue.next
  | .srcRetire .. => h.easIssue.next
  | .stage .. => h.easIssue.next
  | .commit .. => h.easIssue.next
  | .commitAt .. => h.easIssue.next
  | .cancel .. => h.easIssue.next
  | .snapshot .. => h.easIssue.next
  | .easReservedOp .. => h.easCmdWrite.next
  | .easCommandComplete => h.execEasCommandComplete
  | .scanLeaseDrop .. => h.execScanLeaseDrop
  | .galleryLatch .. => h.execGalleryLatch
  | .galStateUpdate .. => h.execGalStateUpdate
  | .hitTableSwitch .. => h.execHitTableSwitch
  | .engineWrite .. => h.engineWrite.next
  | .flattenStart .. => (Kept.ite h.flattenBegin h).next
  | .flattenDone .. => h.execFlattenDone
  | .planeSetFree .. => h.updCnv.next
  | .wbFramePublish .. => h.execWbFramePublish
  | .galleryEnable .. => h.writeGalCtrl.next
  | .canvasEnable .. => h.writeCnvCtrl.next
  | .canvasDisable .. => h.writeCnvCtrl.next
  | .weirLevelCrossing .. => .ite h.next <| have h₁ := h.wr.updCnv; (Kept.ite h₁.weirCompare h₁).next
  | .fifoEmpty .. => h.fifoEmpty.next
  | .tileRowEvaluation .. => h.execTileRowEvaluation
  | .glassRowResult .. => h.execGlassRowResult
  | .setDeadline .. => h.setDeadline.next
  | .proofStart .. => (Kept.ite h.proofStart h).next
  | .watchPortRead .. => (Kept.ite h.emit h).next
  | .heartbeatSend .. => .ite h.next h.declareFault.updTgal.sendTandem.next
  | .heartbeatRx .. => h.heartbeatRx.next
  | .rowRecordSend .. => h.execRowRecordSend
  | .rowRecordRx .. => h.rowRecordRx.next
  | .rowCompare .. => h.execRowCompare
  | .rowRecordTimeout .. => h.execRowRecordTimeout
  | .twinLineRx .. => h.twinLineRx.next
  | .twinLate .. => (Kept.ite h h.twinLate).next
  | .mirrorRx .. => h.execMirrorRx
  | .yield => h.wr0.next
  | .resync => h.startResync.next
  | .resyncImageRx .. => .ite h.next h.set.next
  | .seqStart .. => h.seqStart.next
  | .seqStartDone .. => (Kept.ite h.finishStart h).next
  | .halt .. => h.haltSeq.next
  | .seqHaltDone .. => (Kept.ite h.becomeHalted h).next
  | .resume .. => h.resumeSeq.next
  | .step .. => h.seqStep.next
  | .seqSignal .. => h.seqSignal.next
  | .seqRegWrite .. => h.seqRegWrite.next
  | .seqWindowWrite .. => h.windowWrite.next
  | .seqTimerExpiry .. => h.execSeqTimerExpiry
  | .seqWaitComplete .. => h.execSeqWaitComplete
  | .seqFabricReadReturn .. => h.execSeqFabricReadReturn
  | .seqWriteResponse .. => h.execSeqWriteResponse
  | .undefinedOpcode .. => h.runWord.next
  | .add .. => (h.issue fun _ _ k => k.ksisAdd).next
  | .sub .. => (h.issue fun _ _ k => k.ksisSub).next
  | .and .. => (h.issue fun _ _ k => k.ksisAnd).next
  | .or .. => (h.issue fun _ _ k => k.ksisOr).next
  | .xor .. => (h.issue fun _ _ k => k.ksisXor).next
  | .shl .. => (h.issue fun _ _ k => k.ksisShl).next
  | .shr .. => (h.issue fun _ _ k => k.ksisShr).next
  | .sra .. => (h.issue fun _ _ k => k.ksisSra).next
  | .addi .. => (h.issue fun _ _ k => k.ksisAddi).next
  | .andi .. => (h.issue fun _ _ k => k.ksisAndi).next
  | .ori .. => (h.issue fun _ _ k => k.ksisOri).next
  | .xori .. => (h.issue fun _ _ k => k.ksisXori).next
  | .shli .. => (h.issue fun _ _ k => k.ksisShli).next
  | .shri .. => (h.issue fun _ _ k => k.ksisShri).next
  | .srai .. => (h.issue fun _ _ k => k.ksisSrai).next
  | .lih .. => (h.issue fun _ _ k => k.ksisLih).next
  | .mul .. => (h.issue fun _ _ k => k.ksisMul).next
  | .mulhu .. => (h.issue fun _ _ k => k.ksisMulhu).next
  | .divu .. => (h.issue fun _ _ k => k.ksisDivu).next
  | .remu .. => (h.issue fun _ _ k => k.ksisRemu).next
  | .cmp .. => (h.issue fun _ _ k => k.ksisCmp).next
  | .cmpi .. => (h.issue fun _ _ k => k.ksisCmpi).next
  | .br .. => (h.issue fun _ _ k => k.ksisBr).next
  | .jmp .. => (h.issue fun _ _ k => k.ksisJmp).next
  | .jr .. => (h.issue fun _ _ k => k.ksisJr).next
  | .ld .. => (h.issue fun _ _ k => k.ksisLd).next
  | .st .. => (h.issue fun _ _ k => k.ksisSt).next
  | .fld .. => (h.issue fun _ _ k => k.ksisFld).next
  | .fst .. => (h.issue fun _ _ k => k.ksisFst).next
  | .fence .. => (h.issue fun _ _ k => k.ksisFence).next
  | .ksisHalt .. => (h.issue fun _ _ k => k.ksisHalt).next
  | .trap .. => (h.issue fun _ _ k => k.ksisTrap).next
  | .umode .. => (h.issue fun _ _ k => k.ksisUmode).next
  | .sysrd .. => (h.issue fun _ _ k => k.ksisSysrd).next
  | .ewait .. => (h.issue fun _ _ k => k.ksisEwait).next
  | .esig .. => (h.issue fun _ _ k => k.ksisEsig).next
  | .emask .. => (h.issue fun _ _ k => k.ksisEmask).next
  | .tset .. => (h.issue fun _ _ k => k.ksisTset).next
  | .trd .. => (h.issue fun _ _ k => k.ksisTrd).next
  | .twait .. => (h.issue fun _ _ k => k.ksisTwait).next
  | .lset .. => (h.issue fun _ _ k => k.ksisLset).next
  | .lshow .. => (h.issue fun _ _ k => k.ksisLshow).next
  | .lhide .. => (h.issue fun _ _ k => k.ksisLhide).next
  | .csetCfg .. => (h.issue fun _ _ k => k.ksisCset).next
  | .csetBg .. => (h.issue fun _ _ k => k.ksisCset).next
  | .estage .. => (h.issue fun _ _ k => k.ksisEstage).next
  | .ksisCommit .. => (h.issue fun _ _ k => k.ksisCommitOp).next
  | .ksisCancel .. => (h.issue fun _ _ k => k.ksisCommitOp).next
  | .cmtat .. => (h.issue fun _ _ k => k.ksisCmtat).next
  | .lwait .. => (h.issue fun _ _ k => k.ksisLwait).next
  | .dlset .. => (h.issue fun _ _ k => k.ksisDlset).next
  | .vread .. => (h.issue fun _ _ k => k.ksisVread).next
  | .pinj .. => (h.issue fun _ _ k => k.ksisPinj).next
  | .ksisLease .. => (h.issue fun _ _ k => k.ksisLease).next
  | .ksisRelease .. => (h.issue fun _ _ k => k.ksisRelease).next
  | .ksisFree .. => (h.issue fun _ _ k => k.ksisFree).next
  | .thit .. => (h.issue fun _ _ k => k.ksisThit).next
  | .japp .. => (h.issue fun _ _ k => k.ksisJapp).next
  | .ckrun .. => (h.issue fun _ _ k => k.ksisCkrun).next
  | .touchScanStart .. => .ite h.next h.wr.updTch.next
  | .touchScanEnd .. => .ite h.next (Kept.ite h.updTch.startTest <| .ite h.updTch.freshScan h.updTch.contactScan).next
  | .touchReportEvent .. => h.execTouchReportEvent
  | .touchRemoteReportRx .. => h.remoteReport.next
  | .touchTestStart .. => h.testStart.next
  | .touchTestDone .. => .ite h.next <| have h₁ := h.wrReg.wrReg.wr.updTch.raise; (Kept.ite h₁.raise h₁).next
  | .touchConfigWrite .. => h.execTouchConfigWrite
  | .wakeScan .. => .ite h.next <| .ite h.updTch.next <| .ite h.next (Kept.ite h.updTch.wakeFires h.updTch).next
  | .cprTailWrite .. => (Kept.ite h.wr h).next
  | .cprJobStart .. => h.execCprJobStart
  | .cprJobEnd .. => h.execCprJobEnd
  | .journalRequest => h.execJournalRequest
  | .journalAppend => h.execJournalAppend
  | .journalRingWrite => h.drainOne.next
  | .jnlAckWrite .. => h.wrReg.set.next
  | .headCapture => h.captureHead.next
  | .hostAppend => (Kept.ite h.askJournal h).next
  | .evidCaptureStart .. => h.evidStart.next
  | .evidCaptureDone => h.execEvidCaptureDone
  | .quadUseCommit => h.quadCommit.next
  | .quadPllLock .. => .ite h.next <| have h₁ := h.updQuad.setReady; (Kept.ite h₁.startTraining h₁).next
  | .quadPllLockLoss .. => h.execQuadPllLockLoss
  | .laneLockLoss .. => h.execLaneLockLoss
  | .dptxTrainingStart .. => .ite h.next h.wr.startTraining.next
  | .dptxTrainingEnd .. => h.execDptxTrainingEnd
  | .dptxRetry .. => (Kept.ite h.startTraining h).next
  | .irqHpd .. => h.execIrqHpd
  | .hpdUnplug .. => h.hpdUnplug.next
  | .auxStart .. => h.writeAuxCmd.next
  | .auxDone .. => h.execAuxDone
  | .dprxAuxRequest .. => h.execDprxAuxRequest
  | .dprxTrained .. => (Kept.ite h.dpcdWrite h).next
  | .txFirWrite .. => h.writeTxFir.next
  | .laneTestWrite .. => h.writeLaneTest.next
  | .prbsSync .. => h.execPrbsSync
  | .lnkCfgWrite .. => h.writeLnkCfg.next
  | .blockLockAcquired .. => h.execBlockLockAcquired
  | .markerRx .. => h.execMarkerRx
  | .markerSend .. => .ite h.next (h.endCycle.each fun _ k => k.wireOut).updPort.next
  | .capRx .. => h.execCapRx
  | .ndosinRateChange .. => .ite h.next h.relock.updPort.wr.wr.next
  | .bringupTimeout .. => .ite h.next <| .ite h.startDeskew.next h.bringupFail.next
  | .bringupRestart .. => (Kept.ite h h.startBringup).next
  | .ndosinPacketSend .. => h.execNdosinPacketSend
  | .ndosinPacketRx .. => h.execNdosinPacketRx
  | .widthRx .. => .ite h.raise.next <| .ite h.next (Kept.ite h.wr.changeWidth h.wr).next
  | .widthChangeDone .. => h.execWidthChangeDone
  | .laneRestoreTry .. => .ite h.next h.updPort.restorePairs.next
  | .protectionCheck .. => h.execProtectionCheck
  | .fabricGrant .. => h.execFabricGrant
  | .decodeError => h.execDecodeError
  | .responseReturn .. => h.execResponseReturn
  | .masterReset .. => h.masterReset.next
  | .mresetDone => h.execMresetDone
  | .hostRequest .. => h.execHostRequest
  | .hostCompletion => h.execHostCompletion
  | .msixMessage .. => h.msixSend.next
  | .msixUnmask .. => h.msixUnmask.next
  | .mbxDoorbellH2d => h.doorbellH2d.next
  | .mbxDoorbellD2h => h.doorbellD2h.next
  | .mbxAttach .. => h.mbxAttach.next
  | .pciePerst => h.set.next
  | .pcieHotReset => (Kept.ite h.warmReset h).next
  | .prtHoldRequest .. => h.holdRequest.next
  | .prtHoldHeld .. => (Kept.ite h.wr h).next
  | .prtHoldRelease .. => h.holdRelease.next
  | .prtConfigEffect .. => .ite h.next h.takeConfig.set.wr.next
  | .prtRegionWrite .. => h.execPrtRegionWrite
  | .dramInit => h.startInit.next
  | .dramInitDone .. => h.execDramInitDone
  | .dramReset => h.dramReset.next
  | .freqRequest .. => h.freqRequest.next
  | .freqDone => h.execFreqDone
  | .retrainWindowStart .. => .ite h.next h.set.wr.next
  | .retrainWindowEnd .. => .ite h.next <| have h₁ := h.set.windowMargin; .ite h₁.wr0.wr0.next h₁.next
  | .refresh .. => .ite h.next <| .ite (Kept.ite h.wr h).next h.wr.next
  | .mr4Read .. => .ite h.next h.wr.next
  | .panicRaise .. => .ite h.next (Kept.ite h.set.wr0.raise h.set.wr0).next
  | .panicRelease .. => .ite h.next h.set.wr0.next
  | .dramReadEcc .. => .ite h.next h.plantError.eccError.next
  | .powerOnReset .. => h.set.powerOnReset.next
  | .mainPowerGood => .ite h.next <| have h₁ := h.set.wr0.wr0; (Kept.ite h₁.wr0 h₁).askStart.next
  | .brownout => .ite h.powerOnReset.next h.next
  | .warmReset => (Kept.ite h.warmReset h).next
  | .warm => (Kept.ite h.warmReset h).next
  | .bootStart .. => h.execBootStart
  | .bootGo => h.bootGo.next
  | .bootDigestDone => h.execBootDigestDone
  | .bootRecord => h.execBootRecord
  | .bootWaitExpiry => h.updBoot.next
  | .bootEnd => h.execBootEnd
  | .otpProgram .. => h.otpCommand.next
  | .otpRevoke .. => h.otpCommand.next
  | .otpDone => h.execOtpDone
  | .stillEnter => h.stillEnter.next
  | .stillDrainDone => .ite h.next h.resetMasters.set.next
  | .stillMainOff => .ite h.next (h.each fun _ k => k.updGal).wr0.set.next
  | .wakePin => (Kept.ite h.wakeFires h).next
  | .rtcAlarm => (Kept.ite h.wakeFires h).next
  | .wake .. => h.execWake
  | .wakeHoldExpiry => (Kept.ite h.set h).next
  | .rtcWrite .. => h.rtcSet.next
  | .lbist => h.bistStart.next
  | .mbist => h.bistStart.next
  | .bistDone .. => h.execBistDone
  | .scnLineBoundary .. => h.execScnLineBoundary
  | .islandRelock .. => .ite h.next h.wr0.wr0.next
  | .laneCdrLock .. => h.execLaneCdrLock
  | .hpdPulseEnd .. => h.updQuad.next
  | .debugMasterRequest .. => .ite h.next h.set.next

end

/-- Every step answers a next state in canonical form where the state before is. -/
theorem step_answers (s : State) : ∃ t, step s = .next t ∧ (s.canonical = true → t.canonical = true) := by
  unfold step
  split
  · exact ⟨_, rfl, (Kept.refl s).tick.canonical⟩
  · next c rest _ =>
    obtain ⟨t, ht, k⟩ := (Kept.refl { s with pending := rest }).exec c
    exact ⟨t, ht, k.canonical⟩

/-- Settles O4: registers change by puts and selections of entries and DRAM by the writes of bytes and by loss, all of which keep the
canonical form; every operation is composed of these. -/
theorem stepKeepsCanonicalForms : Obligations.StepKeepsCanonicalForms := by
  unfold Obligations.StepKeepsCanonicalForms
  intro s t hs ht
  obtain ⟨u, hu, hc⟩ := step_answers s
  cases hu.symm.trans ht
  exact hc hs

end Sys2Proof.Machine
end
-- ==== Sys2Proof/Proofs/RegisterBits.lean ====
section
/-!
Bits of register values: the fields of a register set one after the other, and what a field reads after a 4-byte write (R17, R18, R652).
-/

namespace Sys2Proof

theorem slice_mod_two_pow {v n lo w : Nat} (h : lo + w ≤ n) : slice (v % 2 ^ n) lo w = slice v lo w := by
  apply Nat.eq_of_testBit_eq
  intro k
  rw [slice_testBit, slice_testBit, Nat.testBit_mod_two_pow]
  by_cases hk : k < w
  · simp [show lo + k < n by omega]
  · simp [hk]

/-- A field of a mask of ones is ones. -/
theorem slice_ones {n lo w : Nat} (h : lo + w ≤ n) : slice (2 ^ n - 1) lo w = 2 ^ w - 1 := by
  apply Nat.eq_of_testBit_eq
  intro k
  rw [slice_testBit, Nat.testBit_two_pow_sub_one, Nat.testBit_two_pow_sub_one]
  by_cases hk : k < w
  · simp [hk, show lo + k < n by omega]
  · simp [hk]

theorem testBit_above {a n k : Nat} (ha : a < 2 ^ n) (hk : n ≤ k) : a.testBit k = false :=
  Nat.testBit_lt_two_pow (Nat.lt_of_lt_of_le ha (Nat.pow_le_pow_right Nat.two_pos hk))

/-- The bits of a value of `w` bits that another leaves. -/
theorem testBit_and_not {w a b k : Nat} (ha : a < 2 ^ w) : (a &&& ((2 ^ w - 1) ^^^ b)).testBit k = (a.testBit k && !b.testBit k) := by
  rw [Nat.testBit_and, Nat.testBit_xor, Nat.testBit_two_pow_sub_one]
  by_cases hk : k < w
  · simp [hk]
  · simp [testBit_above ha (Nat.le_of_not_lt hk)]

end Sys2Proof

namespace Sys2Proof.Machine

/-- `f` lies below `g` in a register. -/
def Field.below (f g : Field) : Prop := f.lo + f.w ≤ g.lo

/-- Setting fields leaves a field that lies below or above all of them alone. -/
theorem slice_foldl_setBits_other (val : Field → Nat) (fs : List Field) (old : Nat) (f : Field)
    (h : ∀ g ∈ fs, f.below g ∨ g.below f) :
    slice (fs.foldl (fun acc g => setBits acc g.lo g.w (val g)) old) f.lo f.w = slice old f.lo f.w := by
  induction fs generalizing old with
  | nil => rfl
  | cons g fs ih =>
    rw [List.foldl_cons, ih _ fun g' hg' => h g' (List.mem_cons_of_mem _ hg'), slice_setBits_other _ _ _ _ _ _ (h g List.mem_cons_self)]

/-- Of the fields of a register set one after the other, each reads what it was set to. -/
theorem slice_foldl_setBits (val : Field → Nat) (fs : List Field) (old : Nat) (hfs : fs.Pairwise Field.below) (f : Field)
    (hf : f ∈ fs) : slice (fs.foldl (fun acc g => setBits acc g.lo g.w (val g)) old) f.lo f.w = val f % 2 ^ f.w := by
  induction fs generalizing old with
  | nil => cases hf
  | cons g fs ih =>
    obtain ⟨hg, hfs⟩ := List.pairwise_cons.1 hfs
    rw [List.foldl_cons]
    rcases List.mem_cons.1 hf with rfl | hf
    · rw [slice_foldl_setBits_other _ _ _ _ fun g' hg' => .inl (hg g' hg'), slice_setBits_same]
    · exact ih _ hfs hf

/-! ### A field after a write of 4 bytes -/

section
variable {old v : Nat} {locked : Bool} {f : Field}

/-- Under a mask of ones the value written stands in full. -/
theorem merged_ones (was new w : Nat) (hnew : new < 2 ^ w) :
    (was &&& ((2 ^ w - 1) ^^^ (2 ^ w - 1))) ||| (new &&& (2 ^ w - 1)) = new := by
  rw [Nat.xor_self, Nat.and_zero, Nat.zero_or, Nat.and_two_pow_sub_one_of_lt_two_pow hnew]

theorem ite_lt {p : Prop} [Decidable p] {a b m : Nat} (ha : a < m) (hb : b < m) : (if p then a else b) < m := by
  split
  · exact ha
  · exact hb

theorem fieldAfter_lt (old v m : Nat) (locked : Bool) (f : Field) : fieldAfter old v m locked f < 2 ^ f.w := by
  have was := slice_lt old f.lo f.w
  have kept {x} := Nat.lt_of_le_of_lt (Nat.and_le_left (n := slice old f.lo f.w) (m := x)) was
  have written := Nat.lt_of_le_of_lt (Nat.and_le_left (n := slice v f.lo f.w) (m := slice m f.lo f.w)) (slice_lt v f.lo f.w)
  have merged := Nat.or_lt_two_pow (kept (x := (2 ^ f.w - 1) ^^^ slice m f.lo f.w)) written
  unfold fieldAfter
  split
  · exact was
  · exact was
  · exact kept
  · exact Nat.or_lt_two_pow was written
  · exact ite_lt was (ite_lt merged was)
  · exact ite_lt merged was

variable (hf : f.lo + f.w ≤ 32)
include hf

/-- An RW or RWS field takes a value in its range (R17, R652). -/
theorem fieldAfter_rw (h : f.acc = .rw ∨ f.acc = .rws) : fieldAfter old (v % 2 ^ 32) (2 ^ 32 - 1) locked f =
    if f.min ≤ slice v f.lo f.w ∧ slice v f.lo f.w ≤ f.max then slice v f.lo f.w else slice old f.lo f.w := by
  rcases h with h | h <;> simp only [fieldAfter, h, slice_ones hf, slice_mod_two_pow hf, merged_ones _ _ _ (slice_lt v _ _)]

/-- An RWL field does so while its lock is clear (R18). -/
theorem fieldAfter_rwl (h : f.acc = .rwl) : fieldAfter old (v % 2 ^ 32) (2 ^ 32 - 1) locked f =
    if locked then slice old f.lo f.w
    else if f.min ≤ slice v f.lo f.w ∧ slice v f.lo f.w ≤ f.max then slice v f.lo f.w else slice old f.lo f.w := by
  simp only [fieldAfter, h, slice_ones hf, slice_mod_two_pow hf, merged_ones _ _ _ (slice_lt v _ _)]

theorem fieldAfter_w1c (h : f.acc = .w1c) (k : Nat) : (fieldAfter old (v % 2 ^ 32) (2 ^ 32 - 1) locked f).testBit k =
    ((slice old f.lo f.w).testBit k && !(slice v f.lo f.w).testBit k) := by
  simp only [fieldAfter, h, slice_ones hf, slice_mod_two_pow hf, Nat.and_two_pow_sub_one_of_lt_two_pow (slice_lt v _ _),
    testBit_and_not (slice_lt old _ _)]

theorem fieldAfter_w1s (h : f.acc = .w1s) (k : Nat) : (fieldAfter old (v % 2 ^ 32) (2 ^ 32 - 1) locked f).testBit k =
    ((slice old f.lo f.w).testBit k || (slice v f.lo f.w).testBit k) := by
  simp only [fieldAfter, h, slice_ones hf, slice_mod_two_pow hf, Nat.and_two_pow_sub_one_of_lt_two_pow (slice_lt v _ _), Nat.testBit_or]

omit hf in
theorem fieldAfter_wo (h : f.acc = .wo) (m : Nat) : fieldAfter old v m locked f = slice old f.lo f.w := by
  simp only [fieldAfter, h]

end

end Sys2Proof.Machine
end

