-- ==== Sys2Proof/Proofs/RegisterTable.lean ====
section
/-!
The register tables: what R15, R16, R22 and R654 say of every register, and what stands at an offset that hits one.
-/

namespace Sys2Proof.Machine

/-- The fields of a register stand one above the other, those of a 32-bit register within its 32 bits (R15). -/
def Reg.fieldsFit (r : Reg) : Bool :=
  decide (r.fields.Pairwise fun f g => f.lo + f.w ≤ g.lo) && (r.wide || r.fields.all fun f => decide (f.lo + f.w ≤ 32))

theorem regTable_fieldsFit : ∀ r ∈ regTable, r.fieldsFit = true := by decide +kernel

theorem Reg.fieldsFit_spec {r : Reg} (h : r.fieldsFit = true) :
    r.fields.Pairwise Field.below ∧ (r.wide = false → ∀ f ∈ r.fields, f.lo + f.w ≤ 32) := by
  simp only [Reg.fieldsFit, Bool.and_eq_true, Bool.or_eq_true, decide_eq_true_eq, List.all_eq_true] at h
  obtain ⟨below, fit⟩ := h
  exact ⟨below, fun hw => fit.resolve_left (by simp [hw])⟩

/-- The offset of a register with a CNT_CLR bit is that of no other register (R16, R22). -/
theorem regTable_cntClr : ∀ r ∈ regTable, ∀ x ∈ cntClr, x.1.base = r.base → x.1 = r := by decide +kernel

/-- Two registers of a block stand at different offsets in each copy of the block. -/
def Reg.apart (r r' : Reg) : Bool := r.base != r'.base && r.s1 == r'.s1 && r.remote == r'.remote

theorem Reg.apart_addr {r r' : Reg} (h : r.apart r' = true) (i : Nat) : r.addr i 0 ≠ r'.addr i 0 := by
  simp only [Reg.apart, Bool.and_eq_true, bne_iff_ne, beq_iff_eq] at h
  obtain ⟨⟨hbase, hs⟩, hremote⟩ := h
  simp only [Reg.addr, hs, hremote]
  split <;> omega

/-- The event counts that a CNT_CLR bit clears stand in its register, beside the fields that software writes, or in another one of the
block (R22, R654). -/
def countsFit (r : Reg) (counts : List (Reg × Nat)) : Bool :=
  r.n2 == 1 && counts.all fun c => decide (c.2 + 8 ≤ 64) && (counts.all fun d => d.1 == c.1 || d.1.apart c.1) &&
    (if c.1 = r then r.fields.all fun f => f.acc == .ro || decide (f.lo + f.w ≤ c.2 ∨ c.2 + 8 ≤ f.lo) else r.apart c.1)

theorem cntClr_countsFit : ∀ x ∈ cntClr, countsFit x.1 x.2 = true := by decide +kernel

theorem cntClr_bases : (cntClr.map fun x => x.1.base).Nodup := by decide +kernel

theorem indexIn_lt {r : Reg} {off i j : Nat} (h : indexIn r off = some (i, j)) : j < r.n2 := by
  unfold indexIn at h
  obtain ⟨-, h⟩ := Option.ite_none_left_eq_some.1 h
  obtain ⟨⟨-, hj, -⟩, h⟩ := Option.ite_none_right_eq_some.1 h
  rwa [Option.some_inj.1 h] at hj

theorem locate_spec {off : Nat} {l : Located} (h : locate off = some l) : l.reg ∈ regTable ∧ l.j < l.reg.n2 := by
  obtain ⟨r, hr, h⟩ := List.exists_of_findSome?_eq_some h
  split at h
  · next i j hij =>
    cases h
    exact ⟨hr, indexIn_lt hij⟩
  · split at h
    · obtain ⟨⟨i, j⟩, hij, rfl⟩ := Option.map_eq_some_iff.1 h
      exact ⟨hr, indexIn_lt hij⟩
    · cases h

end Sys2Proof.Machine
end

