-- ==== Sys2Proof/Proofs/RegisterWrites.lean ====
section
/-!
Writes of registers by the rules that hold for every register (R17, R18, R22, R652, R654), and the statements about them.
-/

namespace Sys2Proof.Machine

/-! ### Registers without rules of their own -/

theorem plainReg_ne {r : Reg} (h : plainReg r = true) : ∀ x ∈ ownRules, r.base ≠ x.base := by
  intro x hx e
  simp only [plainReg, Bool.not_eq_true', List.any_eq_false, beq_iff_eq] at h
  exact h x hx e.symm

theorem plainReg_any {r : Reg} (h : plainReg r = true) {rs : List Reg} (hrs : ∀ x ∈ rs, x ∈ ownRules) :
    (rs.any fun x => x.base == r.base) = false := by
  rw [List.any_eq_false]
  exact fun x hx e => plainReg_ne h x (hrs x hx) (beq_iff_eq.1 e).symm

/-- A write of a register without rules of its own goes by the generic rules. -/
theorem writeLocated_plain (s : State) {l : Located} (h : plainReg l.reg = true) (v m : Nat) :
    writeLocated s l v m = writeGeneric s l v m := by
  have config := plainReg_any h (rs := chkConfig) (by decide +kernel)
  have touch := plainReg_any h (rs := touchConfig) fun x hx => List.mem_append_right _ hx
  have own := plainReg_ne h
  simp only [ownRules, List.forall_mem_append, List.forall_mem_cons] at own
  rw [writeLocated, List.findSome?_eq_none_iff.2]
  simp only [List.forall_mem_cons]
  refine ⟨?_, ?_, ?_, ?_, ?_, ?_, fun f hf => absurd hf List.not_mem_nil⟩
  · simp only [writeGlobal, own, if_false]
  · simp only [writeMemory, own, if_false, or_self]
  · simp only [writeLanes, own, if_false]
  · simp only [writeMedia, own, if_false, config, Bool.false_eq_true]
  · simp only [writeWall, own, if_false, or_self]
  · simp only [writeControl, own, if_false, touch, Bool.false_eq_true]

/-! ### Event counts -/

theorem countsFit_spec {r : Reg} {counts : List (Reg × Nat)} (h : countsFit r counts = true) :
    r.n2 = 1 ∧ ∀ c ∈ counts, c.2 + 8 ≤ 64 ∧ (∀ d ∈ counts, d.1 = c.1 ∨ d.1.apart c.1 = true) ∧
      (c.1 ≠ r → r.apart c.1 = true) ∧ (c.1 = r → ∀ f ∈ r.fields, f.acc ≠ .ro → f.lo + f.w ≤ c.2 ∨ c.2 + 8 ≤ f.lo) := by
  simp only [countsFit, Bool.and_eq_true, beq_iff_eq, List.all_eq_true, decide_eq_true_eq, Bool.or_eq_true] at h
  refine ⟨h.1, fun c hc => ?_⟩
  obtain ⟨⟨hw, hd⟩, hr⟩ := h.2 c hc
  refine ⟨hw, hd, fun e => ?_, fun e f hf hacc => ?_⟩
  · rwa [if_neg e] at hr
  · rw [if_pos e, List.all_eq_true] at hr
    simpa [hacc] using hr f hf

/-- Clearing an event count leaves a field of the other access types alone. -/
theorem clearCounts_field (s : State) {r : Reg} (hr : r ∈ regTable) {f : Field} (hf : f ∈ r.fields) (hacc : f.acc ≠ .ro)
    (hw : f.lo + f.w ≤ 64) {i j : Nat} (hj : j < r.n2) :
    slice (rdReg (clearCounts s r i) r i j) f.lo f.w = slice (rdReg s r i j) f.lo f.w := by
  unfold clearCounts
  split
  · rfl
  · next x hx =>
    have hmem := List.mem_of_find?_eq_some hx
    obtain rfl := regTable_cntClr r hr x hmem (by simpa using List.find?_some hx)
    obtain ⟨hn, hcounts⟩ := countsFit_spec (cntClr_countsFit x hmem)
    obtain rfl : j = 0 := by omega
    refine each_keeps (fun t => slice (rdReg t x.1 i 0) f.lo f.w = slice (rdReg s x.1 i 0) f.lo f.w) _ _ (fun t c hc ht => ?_) s rfl
    obtain ⟨-, -, hne, heq⟩ := hcounts c hc
    rw [← ht]
    by_cases e : c.1 = x.1
    · exact rd_wr_field t ⟨c.1, c.2, 8⟩ ⟨x.1, f.lo, f.w⟩ i 0 0 e.symm hw (heq e f hf hacc)
    · exact rd_wr_reg t ⟨c.1, c.2, 8⟩ ⟨x.1, f.lo, f.w⟩ i 0 i 0 0 (Reg.apart_addr (hne e) i)

theorem clearCounts_regs (s : State) (r : Reg) (i : Nat) : clearCounts s r i = { s with regs := (clearCounts s r i).regs } := by
  unfold clearCounts
  split
  · rfl
  · exact each_keeps (fun t => t = { s with regs := t.regs }) _ _ (fun t c _ ht => by rw [ht]; rfl) s rfl

/-! ### Generic writes -/

theorem writeGeneric_regs (s : State) (l : Located) (v m : Nat) :
    writeGeneric s l v m = { s with regs := (writeGeneric s l v m).regs } := by
  unfold writeGeneric
  split
  · rw [clearCounts_regs]
    rfl
  · rfl

/-- What a field reads after a 4-byte write by the generic rules. -/
theorem writeGeneric_field (s : State) {l : Located} (hl : l.reg ∈ regTable) (hj : l.j < l.reg.n2) (hwide : l.reg.wide = false)
    (halign : l.reg.align = 0) (v m : Nat) {f : Field} (hf : f ∈ l.reg.fields) (hacc : f.acc ≠ .ro) :
    slice (rdReg (writeGeneric s l v m) l.reg l.i l.j) f.lo f.w =
      fieldAfter (rdReg s l.reg l.i l.j) v m (lockedReg s l.reg l.i l.j) f := by
  obtain ⟨hfields, hfit⟩ := Reg.fieldsFit_spec (regTable_fieldsFit _ hl)
  have hw : f.lo + f.w ≤ 64 := by have := hfit hwide f hf; omega
  have written : slice (rdReg (writeReg s l.reg l.i l.j v m) l.reg l.i l.j) f.lo f.w =
      fieldAfter (rdReg s l.reg l.i l.j) v m (lockedReg s l.reg l.i l.j) f := by
    rw [writeReg, rdReg_wrReg_same, slice_mod_word _ _ _ hw, regAfter, halign, Nat.and_zero, if_neg (by simp),
      slice_foldl_setBits _ _ _ hfields _ hf, Nat.mod_eq_of_lt (fieldAfter_lt _ _ _ _ _)]
  unfold writeGeneric
  split
  · rw [clearCounts_field _ hl hf hacc hw hj, written]
  · exact written

/-! ### Writes of 4 bytes -/

theorem writeWord32_plain (s : State) {off : Nat} {l : Located} (hl : locate off = some l) (hupper : l.upper = false)
    (hplain : plainReg l.reg = true) (v : Nat) : writeWord32 s off v = writeGeneric s l (v % 2 ^ 32) (2 ^ 32 - 1) := by
  simp only [writeWord32, hl, hupper, Bool.false_eq_true, if_false, writeLocated_plain s hplain]

/-- Settles O7: the fields of a register stand apart, so each reads what its access type makes of the value; event counts that the same
write clears stand beside them. -/
theorem registerWriteActsByAccessType : Obligations.RegisterWriteActsByAccessType := by
  unfold Obligations.RegisterWriteActsByAccessType
  intro s off value l f hl hupper hwide hplain halign haligned hf
  obtain ⟨hreg, hj⟩ := locate_spec hl
  have fit := (Reg.fieldsFit_spec (regTable_fieldsFit _ hreg)).2 hwide f hf
  refine ⟨writeGeneric s l (value.toNat % 2 ^ 32) (2 ^ 32 - 1), ?_, writeGeneric_regs _ _ _ _, ?_⟩
  · simp only [exec, execRegisterWrite, writeSpace, Bool.false_eq_true, if_false, haligned, if_true, Bool.not_false,
      writeWord32_plain s hl hupper hplain]
  · have field (h : f.acc ≠ .ro) := writeGeneric_field s hreg hj hwide halign (value.toNat % 2 ^ 32) (2 ^ 32 - 1) hf h
    refine ⟨fun h => ?_, fun h => ?_, fun h k => ?_, fun h k => ?_, fun h => ?_⟩
    · rw [field (by rcases h with h | h <;> simp [h]), fieldAfter_rw fit h]
    · rw [field (by simp [h]), fieldAfter_rwl fit h]
    · rw [field (by simp [h]), fieldAfter_w1c fit h]
    · rw [field (by simp [h]), fieldAfter_w1s fit h]
    · rw [field (by simp [h]), fieldAfter_wo h]

/-! ### W1C_FLAG_CLEAR, CNT_CLR and BLOCK_LOCK_SET -/

/-- The flags that a mask clears, gathered over the fields of a register. -/
def flagsCleared (fields : List Field) (mask acc : Nat) : Nat :=
  fields.foldl (fun acc f => if f.acc = .w1c then acc ||| (mask &&& ((2 ^ f.w - 1) <<< f.lo)) else acc) acc

theorem testBit_flagsCleared (fields : List Field) (mask acc k : Nat) : (flagsCleared fields mask acc).testBit k =
    (acc.testBit k || (mask.testBit k && fields.any fun f => f.acc == .w1c && decide (f.lo ≤ k) && decide (k < f.lo + f.w))) := by
  induction fields generalizing acc with
  | nil => simp [flagsCleared]
  | cons f fields ih =>
    rw [flagsCleared, List.foldl_cons, ← flagsCleared, ih, List.any_cons]
    by_cases hacc : f.acc = .w1c
    · have range : (decide (f.lo ≤ k) && decide (k - f.lo < f.w)) = (decide (f.lo ≤ k) && decide (k < f.lo + f.w)) := by
        rw [← Bool.decide_and, ← Bool.decide_and, decide_eq_decide]
        omega
      rw [if_pos hacc, Nat.testBit_or, Nat.testBit_and, Nat.testBit_shiftLeft, Nat.testBit_two_pow_sub_one]
      simp [hacc, range, Bool.and_or_distrib_left, Bool.or_assoc]
    · rw [if_neg hacc, beq_eq_false_iff_ne.2 hacc, Bool.false_and, Bool.false_and, Bool.false_or]

theorem rdReg_lt (s : State) (r : Reg) (i j : Nat) : rdReg s r i j < 2 ^ 64 := BitVec.isLt _

theorem clearFlags_bit (s : State) (l : Located) {mask : Nat} (hmask : mask < 2 ^ 64) (k : Nat) :
    (rdReg (clearFlags s l mask) l.reg l.i l.j).testBit k = ((rdReg s l.reg l.i l.j).testBit k &&
      !(mask.testBit k && l.reg.fields.any fun f => f.acc == .w1c && decide (f.lo ≤ k) && decide (k < f.lo + f.w))) := by
  rw [← Bool.false_or (mask.testBit k && _), ← Nat.zero_testBit k, ← testBit_flagsCleared]
  have lt : flagsCleared l.reg.fields mask 0 < 2 ^ 64 := by
    refine Nat.lt_pow_two_of_testBit _ fun k hk => ?_
    rw [testBit_flagsCleared, testBit_above hmask hk]
    simp
  rw [clearFlags, rdReg_wrReg_same, ← flagsCleared, Nat.testBit_mod_two_pow, Nat.testBit_and, Nat.sub_sub, Nat.add_comm 1,
    Nat.testBit_two_pow_sub_succ lt]
  by_cases hk : k < 64
  · simp [hk]
  · simp [hk, testBit_above (rdReg_lt s l.reg l.i l.j) (Nat.le_of_not_lt hk)]

theorem clearFlags_frame (s : State) (l : Located) (mask : Nat) : sameRegsBut s (clearFlags s l mask) [l.reg.addr l.i l.j] := fun a ha =>
  Map.find_put_ne _ _ (by simpa using ha)

/-- An event count that reads 0 goes on doing so when a count of its block is cleared. -/
theorem rd_wr_zero {s : State} {c d : Reg × Nat} {i : Nat} (hd : d.2 + 8 ≤ 64) (apart : d.1 = c.1 ∨ d.1.apart c.1 = true)
    (hs : rd s ⟨d.1, d.2, 8⟩ i = 0) : rd (wr s ⟨c.1, c.2, 8⟩ i 0 0) ⟨d.1, d.2, 8⟩ i = 0 := by
  rcases apart with same | apart
  · rw [rd, wr, same, rdReg_wrReg_same, slice_mod_word _ _ _ hd]
    refine Nat.eq_of_testBit_eq fun k => ?_
    have old := congrArg (Nat.testBit · k) hs
    simp only [rd, same, slice_testBit] at old
    rw [slice_testBit, setBits_testBit]
    split
    · simp
    · exact old
  · rw [rd_wr_reg _ _ _ _ _ _ _ _ (Reg.apart_addr apart i), hs]

theorem each_clears (i : Nat) (counts : List (Reg × Nat)) (s : State)
    (h : ∀ c ∈ counts, c.2 + 8 ≤ 64 ∧ ∀ d ∈ counts, d.1 = c.1 ∨ d.1.apart c.1 = true) (d : Reg × Nat) (hd : d ∈ counts) :
    rd (each counts (fun s c => wr s ⟨c.1, c.2, 8⟩ i 0 0) s) ⟨d.1, d.2, 8⟩ i = 0 := by
  obtain ⟨before, after, rfl⟩ := List.append_of_mem hd
  rw [each, List.foldl_append, List.foldl_cons]
  refine each_keeps (fun t => rd t ⟨d.1, d.2, 8⟩ i = 0) _ after (fun t c hc ht => ?_) _ ?_
  · exact rd_wr_zero (h d hd).1 ((h c (by simp [hc])).2 d hd) ht
  · exact (rd_wr_same _ _ _ _ _ (h d hd).1).trans (Nat.zero_mod _)

theorem clearCounts_clears (s : State) (i : Nat) {x : Reg × List (Reg × Nat)} (hx : x ∈ cntClr) {r : Reg} (hr : x.1.base = r.base)
    (c : Reg × Nat) (hc : c ∈ x.2) : rd (clearCounts s r i) ⟨c.1, c.2, 8⟩ i = 0 := by
  unfold clearCounts
  split
  · next absent => simpa [hr] using List.find?_eq_none.1 absent x hx
  · next y hy =>
    have hmem := List.mem_of_find?_eq_some hy
    have base : y.1.base = r.base := by simpa using List.find?_some hy
    obtain rfl : y = x := List.inj_on_of_nodup_map cntClr_bases hmem hx (base.trans hr.symm)
    refine each_clears i y.2 s (fun c hc => ?_) c hc
    obtain ⟨hw, apart, -⟩ := (countsFit_spec (cntClr_countsFit y hmem)).2 c hc
    exact ⟨hw, apart⟩

/-- Settles O8: the flags, the counts, and the lock with the fields it guards. -/
theorem clearsAndLocks : Obligations.ClearsAndLocks := by
  unfold Obligations.ClearsAndLocks
  refine ⟨fun s off mask l hl => ?_, fun s off l hl => ?_, fun s off value l f hl hupper hwide hplain halign hlock hf => ?_⟩
  · refine ⟨clearFlags s l mask.toNat, ?_, rfl, clearFlags_frame s l _, clearFlags_bit s l (by omega)⟩
    simp only [exec, execW1cFlagClear, hl]
  · refine ⟨clearCounts s l.reg l.i, ?_, clearCounts_regs _ _ _, fun x hx hbase c hc => clearCounts_clears s l.i hx hbase c hc⟩
    simp only [exec, execCntClr, hl]
  · obtain ⟨hreg, hj⟩ := locate_spec hl
    have fit := (Reg.fieldsFit_spec (regTable_fieldsFit _ hreg)).2 hwide f hf
    have field (h : f.acc ≠ .ro) := writeGeneric_field s hreg hj hwide halign (value.toNat % 2 ^ 32) (2 ^ 32 - 1) hf h
    refine ⟨writeGeneric s l (value.toNat % 2 ^ 32) (2 ^ 32 - 1), ?_, writeGeneric_regs _ _ _ _, fun h k => ?_, fun h => ?_⟩
    · simp only [exec, execBlockLockSet, hl, hlock, if_true, writeWord32_plain s hl hupper hplain]
    · rw [field (by simp [h]), fieldAfter_w1s fit h]
    · rw [field (by simp [h]), fieldAfter_rwl fit h]

end Sys2Proof.Machine
end

