-- ==== Sys2Proof/Proofs/ClocksKept.lean ====
section
/-!
What the operations behind a loss of clock leave alone: registers at other offsets, and the clock registers, DRAM, the clocks of galleries
and the darkness of canvases. The predicate `ClocksKept`, with one rule for each operation that a canvas in Gesso or without video calls.
-/

namespace Sys2Proof

theorem bitOn_eq_testBit (v i : Nat) : bitOn v i = v.testBit i := by
  rw [bitOn, Nat.testBit_eq_decide_div_mod_eq, Bool.beq_eq_decide_eq]

end Sys2Proof

namespace Sys2Proof.Machine

/-! ### Registers at other offsets -/

/-- No copy of a register stands below its base (R16). -/
theorem Reg.base_le_addr (r : Reg) (i j : Nat) : r.base ≤ r.addr i j := by
  unfold Reg.addr
  split <;> omega

theorem Reg.addr_ne_of_lt_base {r r' : Reg} {i j : Nat} (h : r.addr i j < r'.base) (i' j' : Nat) : r'.addr i' j' ≠ r.addr i j :=
  Nat.ne_of_gt (Nat.lt_of_lt_of_le h (r'.base_le_addr i' j'))

/-- A raised flag leaves the registers at other offsets than its own and its count's. -/
theorem rd_raise_reg (s : State) (k : Flag) (f : Fld) (n i j : Nat) (hfld : f.reg.addr i j ≠ k.fld.reg.addr n 0)
    (hcnt : f.reg.addr i j ≠ k.cnt.reg.addr n 0) : rd (raise s k n) f i j = rd s f i j := by
  simp only [raise, raiseIf, if_true, rd_raiseVector, raiseQuiet]
  rw [rd_wr_reg _ _ _ _ _ _ _ _ hcnt, rd_wr_reg _ _ _ _ _ _ _ _ hfld]

/-- A one-bit field that is on reads 1. -/
theorem rd_of_rdb {s : State} {f : Fld} {i j : Nat} (hw : f.w = 1) (h : rdb s f i j = true) : rd s f i j = 1 := by
  have lt : rd s f i j < 2 ^ f.w := slice_lt _ _ _
  have ne : rd s f i j ≠ 0 := by simpa [rdb] using h
  rw [hw] at lt
  omega

/-- One bit of a field set, and the field written back: the bit reads what it was set to. -/
theorem bitOn_rd_wr_setBits (s : State) (f : Fld) (old n : Nat) (b : Bool) (hf : f.lo + f.w ≤ 64) (hn : n < f.w) :
    bitOn (rd (wr s f 0 0 (setBits old n 1 (bit b))) f) n = b := by
  rw [rd_wr_same _ _ _ _ _ hf, bitOn_eq_testBit, Nat.testBit_mod_two_pow, setBits_testBit]
  cases b <;> simp [hn, bit]

/-! ### Pending vectors -/

/-- A vector that pends goes on pending when another is raised. -/
theorem raise_pba_subset {s : State} {v : Nat} (h : v ∈ s.fab.pba) (k : Flag) (i : Nat) : v ∈ (raise s k i).fab.pba := by
  change v ∈ (raiseVector (raiseQuiet s k i) (flagVector k i)).fab.pba
  have quiet : v ∈ (raiseQuiet s k i).fab.pba := h
  simp only [raiseVector]
  split
  · exact quiet
  · exact List.mem_append_left _ quiet

/-! ### What the clocks keep -/

/-- From `s` to `t` the two clock registers (R32, R33), DRAM, the lock of each gallery and the darkness of each canvas stay. -/
structure ClocksKept (s t : State) : Prop where
  regs : ∀ a < 0x108, Map.find t.regs a = Map.find s.regs a
  mem : t.mem = s.mem
  locked : ∀ g, (galOf t g).locked = (galOf s g).locked
  dark : ∀ c, (cnvOf t c).dark = (cnvOf s c).dark

section
variable {s₀ s t : State}

protected theorem ClocksKept.refl (s : State) : ClocksKept s s := ⟨fun _ _ => rfl, rfl, fun _ => rfl, fun _ => rfl⟩

/-- A field of a clock register reads as before. -/
theorem ClocksKept.rd_eq (h : ClocksKept s t) (f : Fld) {i j : Nat} (hf : f.reg.addr i j < 0x108) : rd t f i j = rd s f i j := by
  simp only [rd, rdReg, Map.get, h.regs _ hf]

/-- Any change of the parts of the state that are neither registers, nor DRAM, nor galleries, nor canvases. -/
protected theorem ClocksKept.set {time straps ptp net slu vdc ven eas cmp chk tnd seqs tch cpr jnl lane lnk fab prt dmc pwr out free pending}
    (h : ClocksKept s₀ s) (hgals : eas.gals = s.eas.gals := by rfl) (hcnvs : cmp.canvases = s.cmp.canvases := by rfl) :
    ClocksKept s₀ ⟨s.regs, s.mem, time, straps, ptp, net, slu, vdc, ven, eas, cmp, chk, tnd, seqs, tch, cpr, jnl, lane, lnk, fab, prt,
      dmc, pwr, out, free, pending⟩ where
  regs := h.regs
  mem := h.mem
  locked g := by rw [galOf, hgals]; exact h.locked g
  dark c := by rw [cnvOf, hcnvs]; exact h.dark c

protected theorem ClocksKept.ite {p : Prop} {_ : Decidable p} (hs : ClocksKept s₀ s) (ht : ClocksKept s₀ t) :
    ClocksKept s₀ (if p then s else t) := by
  split
  · exact hs
  · exact ht

protected theorem ClocksKept.each {α : Type} {f : State → α → State} {l : List α} (h : ClocksKept s₀ s)
    (hf : ∀ {u} x, ClocksKept s₀ u → ClocksKept s₀ (f u x)) : ClocksKept s₀ (each l f s) :=
  each_keeps (ClocksKept s₀) f l (fun _ x _ => hf x) s h

protected theorem ClocksKept.wr {f i j v} (h : ClocksKept s₀ s) (hf : 0x108 ≤ f.reg.base := by decide) : ClocksKept s₀ (wr s f i j v) where
  regs a ha := by
    have ne : a ≠ f.reg.addr i j := Nat.ne_of_lt (Nat.lt_of_lt_of_le ha (hf.trans (f.reg.base_le_addr i j)))
    rw [wr_eq, Map.find_put_ne _ _ ne, h.regs a ha]
  mem := h.mem
  locked := h.locked
  dark := h.dark

protected theorem ClocksKept.raise {k i} (h : ClocksKept s₀ s) (hfld : 0x108 ≤ k.fld.reg.base := by decide)
    (hcnt : 0x108 ≤ k.cnt.reg.base := by decide) :
    ClocksKept s₀ (raise s k i) := ((h.wr hfld).wr hcnt).set

/-- A gallery changed beside its lock. -/
protected theorem ClocksKept.updGal {g f} (h : ClocksKept s₀ s) (hf : ∀ x, (f x).locked = x.locked := by intro; rfl) :
    ClocksKept s₀ (updGal s g f) where
  regs := h.regs
  mem := h.mem
  locked d := by
    rw [updGal_eq]
    rcases eq_or_ne d g with rfl | ne
    · rw [galOf_setGal, hf, h.locked]
    · rw [galOf_setGal_ne _ _ ne, h.locked]
  dark := h.dark

/-- A canvas changed beside its darkness. -/
protected theorem ClocksKept.updCnv {c f} (h : ClocksKept s₀ s) (hf : ∀ x, (f x).dark = x.dark := by intro; rfl) :
    ClocksKept s₀ (updCnv s c f) where
  regs := h.regs
  mem := h.mem
  locked := h.locked
  dark d := by
    rw [updCnv_eq]
    rcases eq_or_ne d c with rfl | ne
    · rw [cnvOf_setCnv, hf, h.dark]
    · rw [cnvOf_setCnv_ne _ _ ne, h.dark]

/-! ### Gesso and its hold (R324, R613) -/

protected theorem ClocksKept.enterGesso {c} (h : ClocksKept s₀ s) : ClocksKept s₀ (enterGesso s c) := .ite h.updCnv h.updCnv.wr.raise

protected theorem ClocksKept.noteCause {cause} (h : ClocksKept s₀ s) : ClocksKept s₀ (noteCause s cause) := h.set

protected theorem ClocksKept.holdAll (h : ClocksKept s₀ s) : ClocksKept s₀ (holdAll s) := h.each fun _ k => k.updCnv

protected theorem ClocksKept.dramEntry {kind channel margin window supp addr cause} (h : ClocksKept s₀ s) :
    ClocksKept s₀ (dramEntry s kind channel margin window supp addr cause) := h.set

protected theorem ClocksKept.enterHold {cause} (h : ClocksKept s₀ s) : ClocksKept s₀ (enterHold s cause) :=
  .ite h.noteCause h.noteCause.wr.holdAll.wr.raise.dramEntry

/-! ### The Watch words (R363 to R366) and what a canvas sends -/

protected theorem ClocksKept.setSeq {n q} (h : ClocksKept s₀ s) : ClocksKept s₀ (setSeq s n q) := h.set

protected theorem ClocksKept.signal {ev} (h : ClocksKept s₀ s) : ClocksKept s₀ (signal s ev) := h.each fun {u} n k => by
  rcases signalTo_cases u n ev with e | e | e <;> rw [e]
  · exact k
  · exact k.raise
  · exact k.setSeq

protected theorem ClocksKept.takeLease {d} (h : ClocksKept s₀ s) : ClocksKept s₀ (takeLease s d) := h.set

protected theorem ClocksKept.evidStart {c auto} (h : ClocksKept s₀ s) : ClocksKept s₀ (evidStart s c auto) := by
  unfold evidStart
  split
  · exact h.raise
  · exact .ite h.raise h.takeLease.set

protected theorem ClocksKept.evidAuto {c old new} (h : ClocksKept s₀ s) : ClocksKept s₀ (evidAuto s c old new) := by
  unfold evidAuto
  exact .ite (.ite h.evidStart.set h.evidStart) h

protected theorem ClocksKept.writeWord {c} (h : ClocksKept s₀ s) : ClocksKept s₀ (writeWord s c) :=
  .evidAuto (.ite h.updCnv.signal h.updCnv)

protected theorem ClocksKept.writeSummary (h : ClocksKept s₀ s) : ClocksKept s₀ (writeSummary s) := h.set

protected theorem ClocksKept.watchUpdate {g now} (h : ClocksKept s₀ s) : ClocksKept s₀ (watchUpdate s g now) :=
  .ite h (h.updGal.each fun _ k => k.writeWord).set.writeSummary

protected theorem ClocksKept.updRun {i f} (h : ClocksKept s₀ s) : ClocksKept s₀ (updRun s i f) := h.set

protected theorem ClocksKept.cutSending {c} (h : ClocksKept s₀ s) : ClocksKept s₀ (cutSending s c) := h.each fun _ k => k.updRun

protected theorem ClocksKept.draw (h : ClocksKept s₀ s) : ClocksKept s₀ (draw s) := h.set

end

end Sys2Proof.Machine
end

