-- ==== Sys2Proof/Proofs/ClockLoss.lean ====
section
/-!
Loss and return of clocks (R30 to R33): what Gesso hold does as it is entered (R613), what a gallery without its clock leaves of its
canvases, and the four commands.
-/

namespace Sys2Proof.Machine

/-! ### Canvases changed one after the other -/

/-- What a change gives every canvas that it meets, each canvas of the list has after the round. -/
theorem each_updCnv {p : Canvas → Prop} {f : Canvas → Canvas} (hf : ∀ x, p (f x)) {l : List Nat} {c : Nat} (hc : c ∈ l) (s : State) :
    p (cnvOf (each l (fun s c => updCnv s c f) s) c) := by
  obtain ⟨before, after, rfl⟩ := List.append_of_mem hc
  rw [each, List.foldl_append, List.foldl_cons]
  refine each_keeps (fun t => p (cnvOf t c)) _ after (fun t d _ ht => ?_) _ ?_
  · rcases eq_or_ne c d with rfl | ne
    · rw [updCnv_eq, cnvOf_setCnv]
      exact hf _
    · rwa [updCnv_eq, cnvOf_setCnv_ne _ _ ne]
  · rw [updCnv_eq, cnvOf_setCnv]
    exact hf _

/-! ### Gesso hold (R613) -/

theorem holdAll_regs (s : State) : (holdAll s).regs = s.regs := each_field s (·.regs) _ _ fun _ _ => rfl

theorem holdAll_fab (s : State) : (holdAll s).fab = s.fab := each_field s (·.fab) _ _ fun _ _ => rfl

theorem holdAll_dmc (s : State) : (holdAll s).dmc = s.dmc := each_field s (·.dmc) _ _ fun _ _ => rfl

theorem holdAll_hold (s : State) {c : Nat} (hc : c < 32) : (cnvOf (holdAll s) c).gesso.hold = true := by
  unfold holdAll
  have mem : c ∈ upto 32 := List.mem_range.2 hc
  generalize upto 32 = l at mem ⊢
  exact each_updCnv (p := fun x => x.gesso.hold = true) (by intro; rfl) mem s

theorem rdb_noteCause (s : State) (cause : Nat) (f : Fld) (i j : Nat) : rdb (noteCause s cause) f i j = rdb s f i j := rfl

section
variable (s : State) (kind channel margin window supp addr cause : Nat)

theorem dramEntry_regs : (dramEntry s kind channel margin window supp addr cause).regs = s.regs := rfl

theorem dramEntry_fab : (dramEntry s kind channel margin window supp addr cause).fab = s.fab := rfl

theorem dramEntry_dmc : (dramEntry s kind channel margin window supp addr cause).dmc = s.dmc := rfl

theorem dramEntry_cmp : (dramEntry s kind channel margin window supp addr cause).cmp = s.cmp := rfl

end

/-- In Gesso hold a further cause is only remembered. -/
theorem enterHold_of_hold {s : State} (cause : Nat) (h : rdb s F.DMC_GSTATUS_HOLD = true) : enterHold s cause = noteCause s cause := by
  rw [enterHold, rdb_noteCause, if_pos h]

theorem enterHold_of_noHold {s : State} (cause : Nat) (h : ¬ rdb s F.DMC_GSTATUS_HOLD = true) : enterHold s cause =
    dramEntry (raise (wr0 (holdAll (wr0 (noteCause s cause) F.DMC_GSTATUS_HOLD 1)) F.TND_STATUS_FAULT 1) K.DMC_GEVENT_HOLD_ON)
      4 0xFF 0 0 0 0 cause := by
  rw [enterHold, rdb_noteCause, if_neg h]

/-- Whatever the cause, the device is in Gesso hold afterwards. -/
theorem enterHold_hold (s : State) (cause : Nat) : rd (enterHold s cause) F.DMC_GSTATUS_HOLD = 1 := by
  by_cases h : rdb s F.DMC_GSTATUS_HOLD = true
  · rw [enterHold_of_hold cause h]
    exact rd_of_rdb rfl h
  · rw [enterHold_of_noHold cause h, rd_regs (dramEntry_regs _ _ _ _ _ _ _ _), rd_raise_reg _ _ _ _ _ _ (by decide) (by decide), wr0_eq,
      rd_wr_reg _ _ _ _ _ _ _ _ (by decide), rd_regs (holdAll_regs _), wr0_eq, rd_wr_same _ _ _ _ _ (by decide)]
    rfl

theorem enterHold_pba {s : State} {v : Nat} (cause : Nat) (h : v ∈ s.fab.pba) : v ∈ (enterHold s cause).fab.pba := by
  by_cases held : rdb s F.DMC_GSTATUS_HOLD = true
  · rw [enterHold_of_hold cause held]
    exact h
  · rw [enterHold_of_noHold cause held, dramEntry_fab]
    refine raise_pba_subset ?_ K.DMC_GEVENT_HOLD_ON 0
    rw [wr0_eq, wr_fab, holdAll_fab]
    exact h

/-- A hold for a loss of clock keeps that cause (R615). -/
theorem enterHold_holdClock (s : State) : (enterHold s 2).dmc.holdClock = true := by
  have noted : (noteCause s 2).dmc.holdClock = true := Bool.or_true _
  by_cases h : rdb s F.DMC_GSTATUS_HOLD = true
  · rw [enterHold_of_hold 2 h, noted]
  · rw [enterHold_of_noHold 2 h, dramEntry_dmc, raise_dmc, wr0_eq, wr_dmc, holdAll_dmc, wr0_eq, wr_dmc, noted]

/-- A hold that begins shows Gesso on every canvas. -/
theorem enterHold_gesso {s : State} (cause : Nat) (h : rd s F.DMC_GSTATUS_HOLD = 0) {c : Nat} (hc : c < 32) :
    (cnvOf (enterHold s cause) c).gesso.hold = true := by
  rw [enterHold_of_noHold cause (by simp [rdb, h]), cnvOf, dramEntry_cmp, raise_cmp, wr0_eq, wr_cmp, ← cnvOf,
    holdAll_hold _ hc]

/-! ### Islands and REFCLK (R30, R32) -/

/-- PWR_CLK_STATUS with its fields of the islands and of REFCLK set. -/
def setLocks (s : State) (islands : Nat) (refclk : Bool) : State :=
  wr0 (wr0 s F.PWR_CLK_STATUS_ISLAND_LOCK islands) F.PWR_CLK_STATUS_REFCLK_OK (bit refclk)

theorem setLocks_island (s : State) {islands : Nat} (refclk : Bool) (h : islands < 2 ^ 6) :
    rd (setLocks s islands refclk) F.PWR_CLK_STATUS_ISLAND_LOCK = islands := by
  rw [setLocks, wr0_eq, wr0_eq, rd_wr_field _ _ _ _ _ _ (by rfl) (by decide) (by decide), rd_wr_same _ _ _ _ _ (by decide)]
  exact Nat.mod_eq_of_lt h

theorem setLocks_refclk (s : State) (islands : Nat) (refclk : Bool) :
    rd (setLocks s islands refclk) F.PWR_CLK_STATUS_REFCLK_OK = bit refclk := by
  rw [setLocks, wr0_eq, rd_wr_same _ _ _ _ _ (by decide)]
  cases refclk <;> rfl

theorem setLocks_regs (s : State) (islands : Nat) (refclk : Bool) :
    setLocks s islands refclk = { s with regs := (setLocks s islands refclk).regs } := rfl

theorem setLocks_frame (s : State) (islands : Nat) (refclk : Bool) :
    sameRegsBut s (setLocks s islands refclk) [R.PWR_CLK_STATUS.base] := fun a ha => by
  have ne : a ≠ R.PWR_CLK_STATUS.base := by simpa using ha
  exact (Map.find_put_ne _ _ ne).trans (Map.find_put_ne _ _ ne)

/-- What ISLAND_LOST does with the lock bits that stay, the alert apart: the event, its vector and Gesso hold. -/
def holdForClock (s : State) (islands : Nat) (refclk : Bool) : State :=
  enterHold (raise (setLocks s islands refclk) K.PWR_CLK_EVENT_ISLAND_LOST) 2

theorem holdForClock_kept (s : State) (islands : Nat) (refclk : Bool) :
    ClocksKept (raise (setLocks s islands refclk) K.PWR_CLK_EVENT_ISLAND_LOST) (holdForClock s islands refclk) := .enterHold (.refl _)

theorem holdForClock_event (s : State) (islands : Nat) (refclk : Bool) :
    rd (holdForClock s islands refclk) F.PWR_CLK_EVENT_ISLAND_LOST = 1 := by
  rw [(holdForClock_kept s _ _).rd_eq _ (by decide)]
  exact rd_raise_flag _ K.PWR_CLK_EVENT_ISLAND_LOST 0 rfl (by decide) (by decide)

/-- A raised ISLAND_LOST leaves the registers beside PWR_CLK_EVENT. -/
theorem rd_raise_islandLost (s : State) (f : Fld) (hf : f.reg.addr 0 0 ≠ R.PWR_CLK_EVENT.addr 0 0) :
    rd (raise s K.PWR_CLK_EVENT_ISLAND_LOST) f = rd s f := rd_raise_reg _ _ _ _ _ _ hf hf

theorem holdForClock_island (s : State) {islands : Nat} (refclk : Bool) (h : islands < 2 ^ 6) :
    rd (holdForClock s islands refclk) F.PWR_CLK_STATUS_ISLAND_LOCK = islands := by
  rw [(holdForClock_kept s _ _).rd_eq _ (by decide), rd_raise_islandLost _ _ (by decide), setLocks_island s refclk h]

theorem holdForClock_refclk (s : State) (islands : Nat) (refclk : Bool) :
    rd (holdForClock s islands refclk) F.PWR_CLK_STATUS_REFCLK_OK = bit refclk := by
  rw [(holdForClock_kept s _ _).rd_eq _ (by decide), rd_raise_islandLost _ _ (by decide), setLocks_refclk]

theorem holdForClock_mem (s : State) (islands : Nat) (refclk : Bool) : (holdForClock s islands refclk).mem = s.mem :=
  (holdForClock_kept s islands refclk).mem

theorem holdForClock_gesso {s : State} (islands : Nat) (refclk : Bool) (off : rd s F.DMC_GSTATUS_HOLD = 0) {c : Nat} (hc : c < 32) :
    (cnvOf (holdForClock s islands refclk) c).gesso.hold = true := by
  refine enterHold_gesso 2 ?_ hc
  rw [rd_raise_islandLost _ _ (by decide), setLocks, wr0_eq, wr0_eq, rd_wr_reg _ _ _ _ _ _ _ _ (by decide),
    rd_wr_reg _ _ _ _ _ _ _ _ (by decide), off]

/-- ISLAND_LOST of a clock that runs. -/
theorem execIslandLost_eq {refclk : Bool} {islands : BitVec 6} {s : State} (main : s.pwr.phase = .main)
    (h : (refclk && rdb s F.PWR_CLK_STATUS_REFCLK_OK) = true ∨ (rd s F.PWR_CLK_STATUS_ISLAND_LOCK &&& islands.toNat) ≠ 0) :
    let t := holdForClock s (rd s F.PWR_CLK_STATUS_ISLAND_LOCK &&& (63 - islands.toNat)) (rdb s F.PWR_CLK_STATUS_REFCLK_OK && !refclk)
    exec (.islandLost refclk islands) s = .next { t with cmp := { t.cmp with alert := true } } := by
  refine if_neg ?_
  rintro (off | none)
  · exact off main
  · simp only [Bool.and_eq_true, Bool.not_eq_true', beq_iff_eq] at none
    obtain ⟨ref, lock⟩ := none
    rcases h with h | h
    · exact Bool.false_ne_true (ref.symm.trans h)
    · exact h lock

theorem execIslandRelock_eq {refclk : Bool} {islands : BitVec 6} {s : State} (main : s.pwr.phase = .main) :
    exec (.islandRelock refclk islands) s = .next (setLocks s (rd s F.PWR_CLK_STATUS_ISLAND_LOCK ||| islands.toNat)
      (rdb s F.PWR_CLK_STATUS_REFCLK_OK || refclk)) := if_neg (· main)

/-! ### A gallery without its clock (R31) -/

/-- Gallery `g` with its clock stopped, its canvases still as they were. -/
def stopClock (s : State) (g : Nat) : State :=
  wr0 (updGal s g fun x => { x with locked := false, latchDue := false, latched := false }) F.PWR_CLK_STATUS_GALLERY_LOCK
    (setBits (rd s F.PWR_CLK_STATUS_GALLERY_LOCK) g 1 0)

/-- The canvases of a list carry no video. -/
def darken (l : List Nat) (s : State) : State :=
  each l (fun s c => updCnv s c fun x =>
    { x with dark := true, glassOn := false, armed := false, owesFrame := true, gesso := { x.gesso with start := true } }) s

theorem darken_regs (l : List Nat) (s : State) : (darken l s).regs = s.regs := each_field s (·.regs) _ _ fun _ _ => rfl

theorem darken_mem (l : List Nat) (s : State) : (darken l s).mem = s.mem := each_field s (·.mem) _ _ fun _ _ => rfl

theorem darken_eas (l : List Nat) (s : State) : (darken l s).eas = s.eas := each_field s (·.eas) _ _ fun _ _ => rfl

theorem darken_dark {l : List Nat} {c : Nat} (hc : c ∈ l) (s : State) : (cnvOf (darken l s) c).dark = true := by
  unfold darken
  exact each_updCnv (p := fun x => x.dark = true) (by intro; rfl) hc s

theorem canvasesOf_congr {s t : State} (h : ∀ c, galleryOf t c = galleryOf s c) (g : Nat) : canvasesOf t g = canvasesOf s g := by
  simp only [canvasesOf, h]

/-- The clock registers stand below CNV_CTRL, so that their writes move no canvas to another gallery. -/
theorem canvasesOf_stopClock (s : State) (g d : Nat) : canvasesOf (stopClock s g) d = canvasesOf s d :=
  canvasesOf_congr (fun c => rd_wr_reg _ _ _ _ _ _ _ _ (Reg.addr_ne_of_lt_base (by decide) c 0)) d

theorem canvasesOf_raise_galleryLost (s : State) (g : Nat) : canvasesOf (raise s K.PWR_CLK_EVENT_GALLERY_LOST) g = canvasesOf s g :=
  canvasesOf_congr (fun c => rd_raise_reg _ _ _ _ _ _ (Reg.addr_ne_of_lt_base (by decide) c 0) (Reg.addr_ne_of_lt_base (by decide) c 0)) g

/-- What a gallery that goes dark does after its clock has stopped and its canvases are dark concerns neither. -/
theorem galleryDark_kept (s : State) (g : Nat) : ClocksKept (darken (canvasesOf s g) (stopClock s g)) (galleryDark s g) := by
  rw [← canvasesOf_stopClock s g g]
  exact ((ClocksKept.refl _).each fun _ k => k.cutSending).draw.watchUpdate

theorem galleryDark_locked (s : State) (g : Nat) : (galOf (galleryDark s g) g).locked = false := by
  rw [(galleryDark_kept s g).locked, galOf, darken_eas]
  exact congrArg (·.locked) (galOf_setGal s g _)

theorem galleryDark_lockBit (s : State) {g : Nat} (hg : g < 8) : bitOn (rd (galleryDark s g) F.PWR_CLK_STATUS_GALLERY_LOCK) g = false := by
  rw [(galleryDark_kept s g).rd_eq _ (by decide), rd_regs (darken_regs _ _)]
  exact bitOn_rd_wr_setBits _ F.PWR_CLK_STATUS_GALLERY_LOCK _ g false (by decide) hg

theorem galleryDark_event (s : State) (g : Nat) : rd (galleryDark s g) F.PWR_CLK_EVENT_GALLERY_LOST = rd s F.PWR_CLK_EVENT_GALLERY_LOST := by
  rw [(galleryDark_kept s g).rd_eq _ (by decide), rd_regs (darken_regs _ _)]
  exact rd_wr_reg _ _ _ _ _ _ _ _ (by decide)

theorem galleryDark_mem (s : State) (g : Nat) : (galleryDark s g).mem = s.mem :=
  (galleryDark_kept s g).mem.trans (darken_mem _ _)

theorem galleryDark_dark (s : State) {g c : Nat} (hc : c ∈ canvasesOf s g) : (cnvOf (galleryDark s g) c).dark = true := by
  rw [(galleryDark_kept s g).dark, darken_dark hc]

/-- GALLERY_LOST of a gallery that has its clock. -/
theorem execGalleryLost_eq {g : Fin 8} {s : State} (locked : (galOf s g.val).locked = true) :
    exec (.galleryLost g) s = .next (galleryDark (raise s K.PWR_CLK_EVENT_GALLERY_LOST) g.val) := if_neg (by simp [locked])

/-! ### A gallery's clock returns (R31) -/

/-- Gallery `g` with its clock running, at the end of the active lines. -/
def startClock (s : State) (g : Nat) : State :=
  let s := updGal s g fun x => { x with locked := true, line := rd s F.CNV_GAL_HV_VACT g - 1 }
  wr0 s F.PWR_CLK_STATUS_GALLERY_LOCK (setBits (rd s F.PWR_CLK_STATUS_GALLERY_LOCK) g 1 1)

theorem startClock_locked (s : State) (g : Nat) : (galOf (startClock s g) g).locked = true :=
  congrArg (·.locked) (galOf_setGal s g _)

theorem startClock_lockBit (s : State) {g : Nat} (hg : g < 8) : bitOn (rd (startClock s g) F.PWR_CLK_STATUS_GALLERY_LOCK) g = true :=
  bitOn_rd_wr_setBits _ F.PWR_CLK_STATUS_GALLERY_LOCK _ g true (by decide) hg

/-- A canvas of a gallery whose clock has returned shows Gesso. -/
def showGesso (s : State) (c : Nat) : State :=
  enterGesso (updCnv s c fun x => { x with dark := false, gesso := { x.gesso with start := true } }) c

theorem showGesso_kept (s : State) (c : Nat) :
    ClocksKept (updCnv s c fun x => { x with dark := false, gesso := { x.gesso with start := true } }) (showGesso s c) :=
  .enterGesso (.refl _)

theorem each_showGesso_locked (l : List Nat) (s : State) (g : Nat) : (galOf (each l showGesso s) g).locked = (galOf s g).locked :=
  each_field s (fun t => (galOf t g).locked) _ _ fun t c => (showGesso_kept t c).locked g

theorem each_showGesso_mem (l : List Nat) (s : State) : (each l showGesso s).mem = s.mem :=
  each_field s (·.mem) _ _ fun t c => (showGesso_kept t c).mem

theorem each_showGesso_locks (l : List Nat) (s : State) :
    rd (each l showGesso s) F.PWR_CLK_STATUS_GALLERY_LOCK = rd s F.PWR_CLK_STATUS_GALLERY_LOCK :=
  each_field s (rd · F.PWR_CLK_STATUS_GALLERY_LOCK) _ _ fun t c => (showGesso_kept t c).rd_eq _ (by decide)

/-- GALLERY_PLL_RELOCK of an enabled gallery without lock. -/
theorem execGalleryPllRelock_eq {g : Fin 8} {s : State} (en : rd s F.CNV_GAL_CTRL_EN g.val = 1) (lost : (galOf s g.val).locked = false)
    (awake : s.pwr.phase ≠ .still) : ∃ l, exec (.galleryPllRelock g) s = .next (each l showGesso (startClock s g.val)) :=
  ⟨_, if_neg (by simp [rdb, en, lost, awake])⟩

/-- Settles O9: the loss and return of the islands' clocks, and of a gallery's. -/
theorem clockLossAndReturn : Obligations.ClockLossAndReturn := by
  unfold Obligations.ClockLossAndReturn
  refine ⟨fun refclk islands s main h => ?_, fun refclk islands s main => ?_, fun g s locked => ?_, fun g s en lost awake => ?_⟩
  · have stay : (rd s F.PWR_CLK_STATUS_ISLAND_LOCK &&& (63 - islands.toNat)) < 2 ^ 6 :=
      Nat.lt_of_le_of_lt Nat.and_le_left (slice_lt _ _ _)
    exact ⟨_, execIslandLost_eq main h, holdForClock_event s _ _, holdForClock_island s _ stay, holdForClock_refclk s _ _,
      enterHold_pba 2 (raiseVector_sets _ _), rfl, enterHold_hold _ 2, enterHold_holdClock _, holdForClock_mem s _ _,
      fun off c hc => holdForClock_gesso _ _ off hc⟩
  · have locks : (rd s F.PWR_CLK_STATUS_ISLAND_LOCK ||| islands.toNat) < 2 ^ 6 := Nat.or_lt_two_pow (slice_lt _ _ _) islands.isLt
    exact ⟨_, execIslandRelock_eq main, setLocks_island s _ locks, setLocks_refclk s _ _, setLocks_regs s _ _, setLocks_frame s _ _⟩
  · refine ⟨_, execGalleryLost_eq locked, ?_, galleryDark_locked _ _, galleryDark_lockBit _ g.isLt, galleryDark_mem _ _, fun c hc => ?_⟩
    · rw [galleryDark_event]
      exact rd_raise_flag s K.PWR_CLK_EVENT_GALLERY_LOST 0 rfl (by decide) (by decide)
    · exact galleryDark_dark _ (by rwa [canvasesOf_raise_galleryLost])
  · obtain ⟨l, answer⟩ := execGalleryPllRelock_eq en lost awake
    refine ⟨_, answer, ?_, ?_, each_showGesso_mem l _⟩
    · rw [each_showGesso_locked, startClock_locked]
    · rw [each_showGesso_locks, startClock_lockBit s g.isLt]

end Sys2Proof.Machine
end

