-- ==== Sys2Proof/Proofs/SealCrc.lean ====
section
/-!
The CRC-32C of the seals: over bytes put together (R44), and as a linear map of its register and its bytes (R53).
-/

namespace Sys2Proof.Machine

/-! ### Bytes put together (R44) -/

theorem crc32cUpdate_append (r : BitVec 32) (a b : List Byte) : crc32cUpdate r (a ++ b) = crc32cUpdate (crc32cUpdate r a) b := by
  induction a generalizing r with
  | nil => rfl
  | cons x a ih => exact ih _

theorem sealTile_eq (block tile : List Byte) :
    sealTile block tile = crc32cUpdate (crc32c block ^^^ 0xFFFFFFFF) tile ^^^ 0xFFFFFFFF := rfl

theorem crc32c_append (a b : List Byte) : crc32c (a ++ b) = crc32cUpdate (crc32c a ^^^ 0xFFFFFFFF) b ^^^ 0xFFFFFFFF := by
  rw [crc32c, crc32cUpdate_append, crc32c, BitVec.xor_assoc, BitVec.xor_self, BitVec.xor_zero]

/-- Settles O11: the two XORs of the fold undo each other, so the register goes on from the block to the tile. -/
theorem sealIsCrcOfBlockAndTile : Obligations.SealIsCrcOfBlockAndTile := by
  unfold Obligations.SealIsCrcOfBlockAndTile
  exact fun block tile => ⟨(sealTile_eq block tile).trans (crc32c_append block tile).symm, sealTile_eq block tile⟩

/-! ### The register is linear in what it starts from and in the bytes (R53) -/

theorem crc32cBit_xor (r q : BitVec 32) : crc32cBit (r ^^^ q) = crc32cBit r ^^^ crc32cBit q := by
  have feedback : ∀ a b : Bool, (if (a ^^ b) then (0x82F63B78 : BitVec 32) else 0) =
      (if a then 0x82F63B78 else 0) ^^^ (if b then 0x82F63B78 else 0) := by decide
  rw [crc32cBit, BitVec.getLsbD_xor, BitVec.ushiftRight_xor_distrib, feedback, crc32cBit, crc32cBit]
  ac_rfl

theorem crc32cByte_xor (r q : BitVec 32) (b c : Byte) : crc32cByte (r ^^^ q) (b ^^^ c) = crc32cByte r b ^^^ crc32cByte q c := by
  have start : (r ^^^ q) ^^^ (b ^^^ c).setWidth 32 = (r ^^^ b.setWidth 32) ^^^ (q ^^^ c.setWidth 32) := by
    rw [BitVec.setWidth_xor]
    ac_rfl
  simp only [crc32cByte, start, crc32cBit_xor]

/-- Two lists of bytes, byte by byte. -/
def xorBytes (a b : List Byte) : List Byte := List.zipWith (· ^^^ ·) a b

theorem crc32cUpdate_xor (r q : BitVec 32) {a b : List Byte} (h : a.length = b.length) :
    crc32cUpdate (r ^^^ q) (xorBytes a b) = crc32cUpdate r a ^^^ crc32cUpdate q b := by
  induction a generalizing r q b with
  | nil =>
    obtain rfl := List.length_eq_zero_iff.1 h.symm
    rfl
  | cons x a ih =>
    obtain ⟨y, b, rfl⟩ := List.exists_cons_of_length_eq_add_one h.symm
    have rest : a.length = b.length := by simpa using h
    calc crc32cUpdate (crc32cByte (r ^^^ q) (x ^^^ y)) (xorBytes a b)
        = crc32cUpdate (crc32cByte r x ^^^ crc32cByte q y) (xorBytes a b) := by rw [crc32cByte_xor]
      _ = _ := ih _ _ rest

theorem xorBytes_append {a a' b b' : List Byte} (h : a.length = a'.length) :
    xorBytes (a ++ b) (a' ++ b') = xorBytes a a' ++ xorBytes b b' := List.zipWith_append h

theorem xorBytes_zeros (a : List Byte) : xorBytes a (List.replicate a.length 0) = a := by
  induction a with
  | nil => rfl
  | cons x a ih =>
    change (x ^^^ 0#8) :: xorBytes a (List.replicate a.length 0) = x :: a
    rw [ih, BitVec.xor_zero]

theorem crc32cZeros_eq (r : BitVec 32) (n : Nat) : crc32cZeros r n = crc32cUpdate r (List.replicate n 0) := by
  induction n generalizing r with
  | zero => rfl
  | succ n ih => exact ih _

/-! ### The term of a sequence (R43, R53) -/

/-- A sequence's bytes in their place in an address block, every other byte 0. -/
def seqBytes (seq : Nat) : List Byte := [0, 0, 0, 0] ++ leBytes seq 4 ++ List.replicate 8 0

theorem seqTerm_eq (seq n : Nat) : seqTerm seq n = crc32cUpdate 0 (seqBytes seq ++ List.replicate n 0) := by
  rw [crc32cUpdate_append]
  exact crc32cZeros_eq _ n

theorem addressBlock_length (dev dom ident seq tile base : Nat) : (addressBlock dev dom ident seq tile base).length = 16 := rfl

theorem seqBytes_length (seq : Nat) : (seqBytes seq).length = 16 := rfl

/-- The address block of a sequence is that of sequence 0 with the sequence's bytes put in. -/
theorem addressBlock_eq_xor (dev dom ident seq tile base : Nat) :
    addressBlock dev dom ident seq tile base = xorBytes (addressBlock dev dom ident 0 tile base) (seqBytes seq) := by
  simp [addressBlock, seqBytes, xorBytes, leBytes]

/-- The register after a block and tile of a sequence is that of sequence 0, with the sequence's term. -/
theorem crc32c_block_tile (dev dom ident seq tile base : Nat) (l : List Byte) :
    crc32c (addressBlock dev dom ident seq tile base ++ l) =
      crc32c (addressBlock dev dom ident 0 tile base ++ l) ^^^ seqTerm seq l.length := by
  have bytes : addressBlock dev dom ident seq tile base ++ l =
      xorBytes (addressBlock dev dom ident 0 tile base ++ l) (seqBytes seq ++ List.replicate l.length 0) := by
    rw [xorBytes_append (by rw [addressBlock_length, seqBytes_length]), xorBytes_zeros, addressBlock_eq_xor dev dom ident seq]
  have lengths : (addressBlock dev dom ident 0 tile base ++ l).length = (seqBytes seq ++ List.replicate l.length 0).length := by
    simp [addressBlock_length, seqBytes_length]
  have linear := crc32cUpdate_xor 0xFFFFFFFF 0#32 lengths
  rw [← bytes, BitVec.xor_zero] at linear
  rw [crc32c, linear, crc32c, seqTerm_eq]
  ac_rfl

/-- Settles O12: the CRC is linear, and the blocks of two sequences differ in the bytes of the sequence alone. -/
theorem provisionalSealConversionIsExact : Obligations.ProvisionalSealConversionIsExact := by
  unfold Obligations.ProvisionalSealConversionIsExact
  intro dev dom ident seq tile base l _
  have sealed (q : Nat) : sealTile (addressBlock dev dom ident q tile base) l = crc32c (addressBlock dev dom ident q tile base ++ l) :=
    (crc32c_append _ l).symm
  rw [tileSeal, tileSeal, BitVec.ofNat_toNat, BitVec.setWidth_eq, sealFromProvisional, sealed, sealed, ← crc32c_block_tile]

end Sys2Proof.Machine
end

