-- ==== Sys2Proof/Proofs/AccessKept.lean ====
section
/-!
What the accesses of hardware masters and the event signals leave alone: the Easel, the proof test, the straps, and registers of other blocks.
The predicate `AccessKept`, and one rule for each operation that an access calls (R422, R553, R560, R588, R597).
-/

namespace Sys2Proof.Machine

/-- Registers beside those of the DRAM controller, and below those of Tandem and the sequencers: accesses of DRAM and signals write none. -/
abbrev besideDram (a : Nat) : Prop := a < 0x200000 ∨ (0x280000 ≤ a ∧ a < 0x2C00000)

/-- Of these, the registers above the fabric's and the protection units': no access writes one. -/
abbrev besideAccess (a : Nat) : Prop := 0x280000 ≤ a ∧ a < 0x2C00000

theorem besideDram_of_access {a : Nat} (h : besideAccess a) : besideDram a := .inr h

/-- From `s` to `t` the registers at the offsets `keep`, the straps, the Easel and the proof test stay. -/
structure AccessKept (keep : Nat → Prop) (s t : State) : Prop where
  regs : ∀ a, keep a → Map.find t.regs a = Map.find s.regs a
  straps : t.straps = s.straps
  eas : t.eas = s.eas
  proof : t.cmp.proof = s.cmp.proof

section
variable {keep : Nat → Prop} {s₀ s t : State}

protected theorem AccessKept.refl (s : State) : AccessKept keep s s := ⟨fun _ _ => rfl, rfl, rfl, rfl⟩

protected theorem AccessKept.trans {u : State} (h : AccessKept keep s t) (k : AccessKept keep t u) : AccessKept keep s u where
  regs a ha := (k.regs a ha).trans (h.regs a ha)
  straps := k.straps.trans h.straps
  eas := k.eas.trans h.eas
  proof := k.proof.trans h.proof

/-- What keeps more registers keeps fewer. -/
protected theorem AccessKept.mono {keep' : Nat → Prop} (h : AccessKept keep s t) (hk : ∀ {a}, keep' a → keep a) : AccessKept keep' s t :=
  { h with regs := fun a ha => h.regs a (hk ha) }

theorem AccessKept.rdReg_eq (h : AccessKept keep s t) {r : Reg} {i j : Nat} (hr : keep (r.addr i j)) : rdReg t r i j = rdReg s r i j := by
  simp only [rdReg, Map.get, h.regs _ hr]

theorem AccessKept.rd_eq (h : AccessKept keep s t) {f : Fld} {i j : Nat} (hf : keep (f.reg.addr i j)) : rd t f i j = rd s f i j := by
  rw [rd, h.rdReg_eq hf, rd]

theorem AccessKept.layOf_eq (h : AccessKept keep s t) (l : Nat) : layOf t l = layOf s l := by rw [layOf, h.eas, layOf]

/-- Any change of the parts of the state that are neither registers, nor straps, nor the Easel, nor the proof test. -/
protected theorem AccessKept.set {mem time ptp net slu vdc ven cmp chk tnd seqs tch cpr jnl lane lnk fab prt dmc pwr out free pending}
    (h : AccessKept keep s₀ s) (hproof : cmp.proof = s.cmp.proof := by rfl) :
    AccessKept keep s₀ ⟨s.regs, mem, time, s.straps, ptp, net, slu, vdc, ven, s.eas, cmp, chk, tnd, seqs, tch, cpr, jnl, lane, lnk, fab,
      prt, dmc, pwr, out, free, pending⟩ where
  regs := h.regs
  straps := h.straps
  eas := h.eas
  proof := hproof.trans h.proof

protected theorem AccessKept.ite {p : Prop} {_ : Decidable p} (hs : AccessKept keep s₀ s) (ht : AccessKept keep s₀ t) :
    AccessKept keep s₀ (if p then s else t) := by
  split
  · exact hs
  · exact ht

protected theorem AccessKept.foldl {α β : Type} {p : β → State} {f : β → α → β} {l : List α} {b : β} (h : AccessKept keep s₀ (p b))
    (hf : ∀ {b} x, AccessKept keep s₀ (p b) → AccessKept keep s₀ (p (f b x))) : AccessKept keep s₀ (p (l.foldl f b)) := by
  induction l generalizing b with
  | nil => exact h
  | cons x l ih => exact ih (hf x h)

protected theorem AccessKept.each {α : Type} {f : State → α → State} {l : List α} (h : AccessKept keep s₀ s)
    (hf : ∀ {u} x, AccessKept keep s₀ u → AccessKept keep s₀ (f u x)) : AccessKept keep s₀ (each l f s) := AccessKept.foldl (p := id) h hf

protected theorem AccessKept.wr {f i j v} (h : AccessKept keep s₀ s) (hf : ¬ keep (f.reg.addr i j)) : AccessKept keep s₀ (wr s f i j v) where
  regs a ha := by
    have ne : a ≠ f.reg.addr i j := fun e => hf (e ▸ ha)
    rw [wr_eq, Map.find_put_ne _ _ ne, h.regs a ha]
  straps := h.straps
  eas := h.eas
  proof := h.proof

protected theorem AccessKept.raiseIf {b k i} (h : AccessKept keep s₀ s) (hfld : ¬ keep (k.fld.reg.addr i 0))
    (hcnt : ¬ keep (k.cnt.reg.addr i 0)) : AccessKept keep s₀ (raiseIf b s k i) := .ite ((h.wr hfld).wr hcnt).set ((h.wr hfld).wr hcnt)

protected theorem AccessKept.raise {k i} (h : AccessKept keep s₀ s) (hfld : ¬ keep (k.fld.reg.addr i 0)) (hcnt : ¬ keep (k.cnt.reg.addr i 0)) :
    AccessKept keep s₀ (raise s k i) := h.raiseIf hfld hcnt

protected theorem AccessKept.setSeq {n q} (h : AccessKept keep s₀ s) : AccessKept keep s₀ (setSeq s n q) := h.set

protected theorem AccessKept.updCnv {c f} (h : AccessKept keep s₀ s) : AccessKept keep s₀ (updCnv s c f) := h.set

protected theorem AccessKept.noteGrant {p m a n write} (h : AccessKept keep s₀ s) : AccessKept keep s₀ (noteGrant s p m a n write) := h.set

end

/-! ### DRAM errors and signals -/

/-- A register above the quiet ones. -/
theorem not_besideDram_of_le {r : Reg} (h : 0x2C00000 ≤ r.base) (i j : Nat) : ¬ besideDram (r.addr i j) := by
  have := r.base_le_addr i j
  unfold besideDram
  omega

/-- A register of the DRAM controller's channels (R16). -/
def Reg.ofChannel (r : Reg) : Bool := decide (0x200000 ≤ r.base ∧ r.base < 0x208000) && r.s1 == 0x10000 && !r.remote

theorem not_besideDram_channel {r : Reg} {c : Nat} (h : r.ofChannel = true) (hc : c < 8) : ¬ besideDram (r.addr c 0) := by
  simp only [Reg.ofChannel, Bool.and_eq_true, decide_eq_true_eq, beq_iff_eq, Bool.not_eq_true'] at h
  obtain ⟨⟨⟨lo, hi⟩, stride⟩, near⟩ := h
  simp only [besideDram, Reg.addr, near, stride]
  simp
  omega

section
variable {s₀ s : State}

/-- What the DRAM controller and the signals keep. -/
abbrev DramKept : State → State → Prop := AccessKept besideDram

protected theorem AccessKept.wr0 {f v} (h : DramKept s₀ s) (hf : ¬ besideDram (f.reg.addr 0 0) := by decide) : DramKept s₀ (wr0 s f v) := h.wr hf

/-- A field of a DRAM channel's register. -/
protected theorem AccessKept.wrChannel {f c v} (h : DramKept s₀ s) (hc : c < 8) (hf : f.reg.ofChannel = true := by decide) :
    DramKept s₀ (wr s f c 0 v) := h.wr (not_besideDram_channel hf hc)

protected theorem AccessKept.raiseChannel {k c} (h : DramKept s₀ s) (hc : c < 8) (hfld : k.fld.reg.ofChannel = true := by decide)
    (hcnt : k.cnt.reg.ofChannel = true := by decide) : DramKept s₀ (raise s k c) :=
  h.raise (not_besideDram_channel hfld hc) (not_besideDram_channel hcnt hc)

protected theorem AccessKept.holdAll (h : DramKept s₀ s) : DramKept s₀ (holdAll s) := h.each fun _ k => k.updCnv

protected theorem AccessKept.dramEntry {kind channel margin window supp addr cause} (h : DramKept s₀ s) :
    DramKept s₀ (dramEntry s kind channel margin window supp addr cause) := h.set

protected theorem AccessKept.noteCause {cause} (h : DramKept s₀ s) : DramKept s₀ (noteCause s cause) := h.set

protected theorem AccessKept.enterHold {cause} (h : DramKept s₀ s) : DramKept s₀ (enterHold s cause) :=
  have noted := h.noteCause
  .ite noted (noted.wr0.holdAll.wr0.raise (by decide) (by decide)).dramEntry

variable {c : Nat} (hc : c < 8)
include hc

protected theorem AccessKept.testThreshold (h : DramKept s₀ s) : DramKept s₀ (testThreshold s c) :=
  .ite ((h.wrChannel hc).raiseChannel hc).dramEntry.wr0.enterHold h

protected theorem AccessKept.eccRecord {a uncorr link} (h : DramKept s₀ s) : DramKept s₀ (eccRecord s c a uncorr link) :=
  ((((h.wrChannel hc).wrChannel hc).wrChannel hc).wrChannel hc).wrChannel hc

omit hc in
protected theorem AccessKept.ueEntry {a} (h : DramKept s₀ s) : DramKept s₀ (ueEntry s c a) := .ite h.set h.dramEntry.set

omit hc

theorem dramChannel_lt (a : Nat) : dramChannel a < 8 := Nat.mod_lt _ (by decide)

protected theorem AccessKept.eccError {a uncorr link} (h : DramKept s₀ s) : DramKept s₀ (eccError s a uncorr link) :=
  have hc := dramChannel_lt a
  have recorded := h.eccRecord hc
  AccessKept.testThreshold hc (.ite (recorded.raiseChannel hc).ueEntry ((recorded.raiseChannel hc).wrChannel hc))

protected theorem AccessKept.meetPoison {a n} (h : DramKept s₀ s) : DramKept s₀ (meetPoison s a n) := by
  unfold meetPoison
  refine .ite h ?_
  split
  · exact h.eccError
  · exact h.set

protected theorem AccessKept.meetWeak {words} (h : DramKept s₀ s) : DramKept s₀ (meetWeak words s) := h.each fun _ k => k.eccError

protected theorem AccessKept.targetRead {a n} (h : DramKept s₀ s) : DramKept s₀ (targetRead s a n).1 := by
  unfold targetRead
  split
  · split
    · exact h.meetWeak
    · exact h.meetPoison
  all_goals exact h

protected theorem AccessKept.signal {ev} (h : DramKept s₀ s) : DramKept s₀ (signal s ev) := h.each fun {u} n k => by
  rcases signalTo_cases u n ev with e | e | e <;> rw [e]
  · exact k
  · exact k.raise (not_besideDram_of_le (by decide) n 0) (not_besideDram_of_le (by decide) n 0)
  · exact k.setSeq

end

/-! ### The path of an access (R553, R560 to R562, R579 to R588) -/

theorem forall_mem_ite_some {p : Prop} {_ : Decidable p} {q : Nat → Prop} {a : Nat} {o : Option Nat} (ha : q a) (ho : ∀ u ∈ o, q u) :
    ∀ u ∈ (if p then some a else o), q u := by
  split
  · rintro u ⟨⟩
    exact ha
  · exact ho

/-- The units of R575 are 0 to 12. -/
theorem unitOf_le {m u : Nat} (h : unitOf m = some u) : u ≤ 12 := by
  suffices ∀ u ∈ unitOf m, u ≤ 12 from this u h
  unfold unitOf
  repeat' refine forall_mem_ite_some (by decide) ?_
  rintro u ⟨⟩

/-- A register of a protection unit (R16). -/
def Reg.ofUnit (r : Reg) : Bool := decide (r.base < 0x181000) && r.s1 == 0x1000 && !r.remote

theorem not_besideAccess_unit {r : Reg} {u : Nat} (h : r.ofUnit = true) (hu : u ≤ 12) : ¬ besideAccess (r.addr u 0) := by
  simp only [Reg.ofUnit, Bool.and_eq_true, decide_eq_true_eq, beq_iff_eq, Bool.not_eq_true'] at h
  obtain ⟨⟨hi, stride⟩, near⟩ := h
  simp only [besideAccess, Reg.addr, near, stride]
  simp
  omega

/-- What a checked access keeps. -/
abbrev PathKept : State → State → Prop := AccessKept besideAccess

section
variable {s₀ s : State}

theorem DramKept.path {t : State} (h : DramKept s t) : PathKept s t := h.mono besideDram_of_access

protected theorem AccessKept.wrUnit {f u v} (h : PathKept s₀ s) (hu : u ≤ 12) (hf : f.reg.ofUnit = true := by decide) :
    PathKept s₀ (wr s f u 0 v) := h.wr (not_besideAccess_unit hf hu)

protected theorem AccessKept.wrFabric {f v} (h : PathKept s₀ s) (hf : ¬ besideAccess (f.reg.addr 0 0) := by decide) :
    PathKept s₀ (wr s f 0 0 v) := h.wr hf

protected theorem AccessKept.recordDenial {u x d} (h : PathKept s₀ s) (hu : u ≤ 12) : PathKept s₀ (recordDenial s u x d) :=
  have first := (((h.wrUnit hu).wrUnit hu).wrUnit hu).wrUnit hu
  ((((first.wrUnit hu).wrUnit hu).wrUnit hu).wrUnit hu).set

protected theorem AccessKept.violate {x d} (h : PathKept s₀ s) : PathKept s₀ (violate s x d) := by
  unfold violate
  split
  · exact h
  · next u hu =>
    have hu := unitOf_le hu
    exact ((AccessKept.ite h (h.recordDenial hu)).wrUnit hu).raiseIf (not_besideAccess_unit (by decide) hu) (not_besideAccess_unit (by decide) hu)

protected theorem AccessKept.decodeError {x kind} (h : PathKept s₀ s) : PathKept s₀ (decodeError s x kind) :=
  h.wrFabric.wrFabric.wrFabric.wrFabric.wrFabric.raise (by decide) (by decide)

protected theorem AccessKept.checkAccess {x} (h : PathKept s₀ s) : PathKept s₀ (checkAccess s x).1 := by
  rcases checkAccess_cases s x with ⟨-, -, e⟩ | ⟨d, -, e⟩ | ⟨-, -, e⟩ <;> rw [e]
  · exact h
  · exact h.violate
  · exact h.decodeError

protected theorem AccessKept.readPiece {master acc p} (h : PathKept s₀ acc.1) : PathKept s₀ (readPiece master acc p).1 := by
  unfold readPiece
  dsimp only
  split
  · exact h
  · split
    · exact h.checkAccess
    · exact h.checkAccess.noteGrant.trans (DramKept.path (AccessKept.refl _).targetRead)

protected theorem AccessKept.busRead {master a n} (h : PathKept s₀ s) : PathKept s₀ (busRead s master a n).1 :=
  AccessKept.foldl (p := Prod.fst) (b := (s, 0, [])) h fun _ k => k.readPiece

protected theorem AccessKept.readHeader {master l} (h : PathKept s₀ s) : PathKept s₀ (readHeader s master l).1 := h.busRead

protected theorem AccessKept.readTile {master p t} (h : PathKept s₀ s) : PathKept s₀ (readTile s master p t).1 :=
  AccessKept.foldl (p := Prod.fst) (b := (s, false, [])) h fun _ k => k.busRead

end

theorem busRead_kept (s : State) (master a n : Nat) : PathKept s (busRead s master a n).1 := (AccessKept.refl s).busRead

theorem readHeader_kept (s : State) (master : Nat) (l : Lease) : PathKept s (readHeader s master l).1 := (AccessKept.refl s).readHeader

theorem readTile_kept (s : State) (master : Nat) (p : Place) (t : Nat) : PathKept s (readTile s master p t).1 := (AccessKept.refl s).readTile

theorem signal_kept (s : State) (ev : Nat) : DramKept s (signal s ev) := (AccessKept.refl s).signal

theorem busRead_mem (s : State) (master a n : Nat) : (busRead s master a n).1.mem = s.mem := by
  obtain ⟨-, mem, -⟩ := serves_busRead s master a n
  exact mem

theorem readHeader_mem (s : State) (master : Nat) (l : Lease) : (readHeader s master l).1.mem = s.mem := busRead_mem _ _ _ _

/-- What no round of a fold changes is as before. -/
theorem foldl_field {α β γ : Type} (p : β → γ) {f : β → α → β} (h : ∀ b x, p (f b x) = p b) (l : List α) (b : β) : p (l.foldl f b) = p b := by
  induction l generalizing b with
  | nil => rfl
  | cons x l ih => exact (ih _).trans (h b x)

theorem readTile_mem (s : State) (master : Nat) (p : Place) (t : Nat) : (readTile s master p t).1.mem = s.mem :=
  foldl_field (fun acc : State × Bool × List Byte => acc.1.mem) (fun _ _ => busRead_mem _ _ _ _) _ _

end Sys2Proof.Machine
end

