-- ==== Sys2Proof/Proofs/CheckUnits.lean ====
section
/-!
The check units: what a refusal, the end of a job and their flags do to a unit's registers (R71 to R79).
-/

namespace Sys2Proof.Machine

/-! ### Registers whole, and fields beside a flag -/

theorem rd_whole (s : State) (r : Reg) (i j : Nat) : rd s ⟨r, 0, 64⟩ i j = rdReg s r i j := by
  rw [rd, slice, Nat.pow_zero, Nat.div_one, Nat.mod_eq_of_lt (rdReg_lt s r i j)]

theorem rdReg_wr_reg (s : State) (f : Fld) (r : Reg) (i j i' j' v : Nat) (h : r.addr i' j' ≠ f.reg.addr i j) :
    rdReg (wr s f i j v) r i' j' = rdReg s r i' j' := rdReg_wrReg_ne _ _ _ _ _ _ _ _ h

section
variable (b : Bool) (s : State) (k : Flag) (n : Nat)

theorem rdReg_raiseIf_quiet (r : Reg) (i j : Nat) : rdReg (raiseIf b s k n) r i j = rdReg (raiseQuiet s k n) r i j := by cases b <;> rfl

/-- A raised flag leaves the registers at other offsets than its own and its count's. -/
theorem rdReg_raiseIf_reg {r : Reg} {i j : Nat} (hfld : r.addr i j ≠ k.fld.reg.addr n 0) (hcnt : r.addr i j ≠ k.cnt.reg.addr n 0) :
    rdReg (raiseIf b s k n) r i j = rdReg s r i j := by
  rw [rdReg_raiseIf_quiet, raiseQuiet, rdReg_wr_reg _ _ _ _ _ _ _ _ hcnt, rdReg_wr_reg _ _ _ _ _ _ _ _ hfld]

variable (apart : k.fld.reg.addr n 0 ≠ k.cnt.reg.addr n 0)
include apart

/-- A flag that is raised with or without its vector reads 1 (R22). -/
theorem rd_raiseIf_flag (hw : k.fld.w = 1) (hlo : k.fld.lo < 64) : rd (raiseIf b s k n) k.fld n = 1 := by
  rw [rd, rdReg_raiseIf_quiet, ← rd, raiseQuiet, rd_wr_reg _ _ _ _ _ _ _ _ apart, rd_wr_same _ _ _ _ _ (by omega), hw]
  rfl

/-- It leaves the fields beside it in its register alone. -/
theorem rd_raiseIf_field {f : Fld} (hr : f.reg = k.fld.reg) (hf : f.lo + f.w ≤ 64)
    (h : f.lo + f.w ≤ k.fld.lo ∨ k.fld.lo + k.fld.w ≤ f.lo) : rd (raiseIf b s k n) f n = rd s f n := by
  rw [rd, rdReg_raiseIf_quiet, ← rd, raiseQuiet, rd_wr_reg _ _ _ _ _ _ _ _ (by rwa [hr]), rd_wr_field _ _ _ _ _ _ hr hf h]

end

/-! ### The registers of a unit (R79) -/

/-- A register of the check units (R16). -/
def Reg.ofCheckUnit (r : Reg) : Bool := decide (0x1C01000 ≤ r.base ∧ r.base < 0x1C01100) && r.s1 == 0x100 && !r.remote

theorem Reg.besideAccess_of_checkUnit {r : Reg} {n : Nat} (h : r.ofCheckUnit = true) (hn : n < 16) : besideAccess (r.addr n 0) := by
  simp only [Reg.ofCheckUnit, Bool.and_eq_true, decide_eq_true_eq, beq_iff_eq, Bool.not_eq_true'] at h
  obtain ⟨⟨⟨lo, hi⟩, stride⟩, near⟩ := h
  simp only [besideAccess, Reg.addr, near, stride]
  simp
  omega

/-- A register of a unit apart from CHK_STATUS and CHK_COUNT, of which it has one. -/
def Reg.besideStatus (r : Reg) : Bool := r.apart R.CHK_STATUS && r.apart R.CHK_COUNT

theorem Reg.besideStatus_spec {r : Reg} (h : r.besideStatus = true) (n : Nat) :
    r.addr n 0 ≠ R.CHK_STATUS.addr n 0 ∧ r.addr n 0 ≠ R.CHK_COUNT.addr n 0 := by
  obtain ⟨status, count⟩ := Bool.and_eq_true_iff.1 h
  exact ⟨Reg.apart_addr status n, Reg.apart_addr count n⟩

theorem status_apart_count (n : Nat) : R.CHK_STATUS.addr n 0 ≠ R.CHK_COUNT.addr n 0 := Reg.apart_addr (by decide) n

/-! ### A refusal (R75) -/

section
variable (s : State) (n code : Nat)

theorem chkRefuse_eq : chkRefuse s n code = raiseIf true (wr s F.CHK_STATUS_REFUSE_CODE n 0 code) K.CHK_STATUS_REFUSED n := rfl

theorem chkRefuse_refused : rd (chkRefuse s n code) F.CHK_STATUS_REFUSED n = 1 :=
  rd_raiseIf_flag true _ K.CHK_STATUS_REFUSED n (status_apart_count n) rfl (by decide)

theorem chkRefuse_code (h : code < 16) : rd (chkRefuse s n code) F.CHK_STATUS_REFUSE_CODE n = code := by
  rw [chkRefuse_eq, rd_raiseIf_field _ _ _ _ (status_apart_count n) (by rfl) (by decide) (by decide), rd_wr_same _ _ _ _ _ (by decide)]
  exact Nat.mod_eq_of_lt h

theorem chkRefuse_busy : rd (chkRefuse s n code) F.CHK_STATUS_BUSY n = rd s F.CHK_STATUS_BUSY n := by
  rw [chkRefuse_eq, rd_raiseIf_field _ _ _ _ (status_apart_count n) (by rfl) (by decide) (by decide),
    rd_wr_field _ _ _ _ _ _ (by rfl) (by decide) (by decide)]

theorem chkRefuse_rdReg {r : Reg} (h : r.besideStatus = true) : rdReg (chkRefuse s n code) r n = rdReg s r n := by
  obtain ⟨status, count⟩ := Reg.besideStatus_spec h n
  rw [chkRefuse_eq, rdReg_raiseIf_reg _ _ _ _ status count, rdReg_wr_reg _ _ _ _ _ _ _ _ status]

theorem chkRefuse_rd {f : Fld} (h : f.reg.besideStatus = true) : rd (chkRefuse s n code) f n = rd s f n := by
  rw [rd, chkRefuse_rdReg s n code h, rd]

theorem chkRefuse_mem : (chkRefuse s n code).mem = s.mem := rfl

theorem chkRefuse_chk : (chkRefuse s n code).chk = s.chk := rfl

end

/-! ### Ranges (R75, R550, R595) -/

theorem targetOf_dram {a : Nat} (h : a < 2 ^ 36) : targetOf a = some .dram := if_pos (by omega)

theorem targetOf_register {a : Nat} (lo : 0x1800000000 ≤ a) (hi : a ≤ 0x1803FFFFFF) : targetOf a = some .register := by
  unfold targetOf
  rw [if_neg (by omega), if_neg (by omega), if_neg (by omega), if_pos ⟨lo, hi⟩]

theorem chkRangeEnd_dram {s : State} {a : Nat} (h : a < 2 ^ 36) (populated : a < dramSize s) (checked : inCheckArea s a = false) :
    chkRangeEnd s a = some (dramSize s) := by
  simp [chkRangeEnd, targetOf_dram h, populated, checked]

theorem chkRangeEnd_checkArea {s : State} {a : Nat} (h : a < 2 ^ 36) (checked : inCheckArea s a = true) : chkRangeEnd s a = none := by
  simp [chkRangeEnd, targetOf_dram h, checked]

theorem chkRangeEnd_register {s : State} {a : Nat} (lo : 0x1800000000 ≤ a) (hi : a ≤ 0x1803FFFFFF) :
    chkRangeEnd s a = some 0x1804000000 := by
  rw [chkRangeEnd, targetOf_register lo hi]

/-! ### Why a START is refused (R75) -/

/-- The range of a job passes the end of the range of R550 that it starts in. -/
def chkPast (s : State) (n : Nat) : Bool :=
  match chkRangeEnd s (rd s F.CHK_SRC_ADDR n) with
  | none => false
  | some e => decide (e < rd s F.CHK_SRC_ADDR n + rd s F.CHK_LEN_LEN n)

/-- LEN is in its range, and the job's range passes no end. -/
def chkFits (s : State) (n : Nat) : Prop := ¬ (rd s F.CHK_LEN_LEN n = 0 ∨ rd s F.CHK_LEN_LEN n = 0xFFFFFFFF ∨ chkPast s n = true)

/-- No 64-bit parameter has a bit at or above WIDTH. -/
def chkClean (s : State) (n : Nat) : Prop :=
  rdReg s R.CHK_POLY n < 2 ^ rd s F.CHK_CTRL_WIDTH n ∧ rdReg s R.CHK_INIT n < 2 ^ rd s F.CHK_CTRL_WIDTH n ∧
    rdReg s R.CHK_XOROUT n < 2 ^ rd s F.CHK_CTRL_WIDTH n ∧ rdReg s R.CHK_EXPECT n < 2 ^ rd s F.CHK_CTRL_WIDTH n

section
variable {s : State} {n : Nat}

theorem chkClean_iff : chkClean s n ↔
    (aboveWidth s n R.CHK_POLY || aboveWidth s n R.CHK_INIT || aboveWidth s n R.CHK_XOROUT || aboveWidth s n R.CHK_EXPECT) = false := by
  simp only [chkClean, aboveWidth, Bool.or_eq_false_iff, decide_eq_false_iff_not, ge_iff_le, not_le, and_assoc]

theorem chkCause_of_not_fits (h : ¬ chkFits s n) : chkCause s n = 1 := if_pos (not_not.1 h)

variable (fits : chkFits s n)
include fits

theorem chkCause_of_width (h : rd s F.CHK_CTRL_WIDTH n < 8 ∨ 64 < rd s F.CHK_CTRL_WIDTH n) : chkCause s n = 2 :=
  (if_neg fits).trans (if_pos h)

variable (width : 8 ≤ rd s F.CHK_CTRL_WIDTH n ∧ rd s F.CHK_CTRL_WIDTH n ≤ 64)
include width

theorem chkCause_of_not_clean (h : ¬ chkClean s n) : chkCause s n = 3 := by
  refine (if_neg fits).trans ((if_neg (by omega)).trans (if_pos ?_))
  rwa [chkClean_iff, Bool.not_eq_false] at h

theorem chkCause_of_clean (h : chkClean s n) : chkCause s n =
    if (chkRangeEnd s (rd s F.CHK_SRC_ADDR n)).isNone || targetOf (rd s F.CHK_SRC_ADDR n) == some .register then 4 else 0 := by
  refine (if_neg fits).trans ((if_neg (by omega)).trans (if_neg ?_))
  rw [chkClean_iff.1 h]
  exact Bool.false_ne_true

end

/-! ### Ranges that fit, and ranges that do not -/

section
variable {s : State} {n : Nat}

theorem not_chkFits_of_len (h : rd s F.CHK_LEN_LEN n = 0 ∨ rd s F.CHK_LEN_LEN n = 0xFFFFFFFF) : ¬ chkFits s n := by
  rw [chkFits, not_not]
  exact h.imp_right .inl

theorem not_chkFits_of_past (lo : 0x1800000000 ≤ rd s F.CHK_SRC_ADDR n) (hi : rd s F.CHK_SRC_ADDR n ≤ 0x1803FFFFFF)
    (past : 0x1804000000 < rd s F.CHK_SRC_ADDR n + rd s F.CHK_LEN_LEN n) : ¬ chkFits s n := by
  rw [chkFits, not_not, chkPast, chkRangeEnd_register lo hi]
  exact .inr (.inr (decide_eq_true past))

variable (good : 1 ≤ rd s F.CHK_LEN_LEN n ∧ rd s F.CHK_LEN_LEN n ≤ 0xFFFFFFFE)
include good

theorem chkFits_of_not_past (h : chkPast s n = false) : chkFits s n := by
  rw [chkFits, h]
  simp only [Bool.false_eq_true, or_false]
  omega

theorem chkFits_of_dram (h : rd s F.CHK_SRC_ADDR n < 2 ^ 36) (populated : rd s F.CHK_SRC_ADDR n + rd s F.CHK_LEN_LEN n ≤ dramSize s)
    (checked : inCheckArea s (rd s F.CHK_SRC_ADDR n) = false) : chkFits s n := by
  refine chkFits_of_not_past good ?_
  rw [chkPast, chkRangeEnd_dram h (by omega) checked]
  exact decide_eq_false (by omega)

theorem chkFits_of_checkArea (h : rd s F.CHK_SRC_ADDR n < 2 ^ 36) (checked : inCheckArea s (rd s F.CHK_SRC_ADDR n) = true) : chkFits s n := by
  refine chkFits_of_not_past good ?_
  rw [chkPast, chkRangeEnd_checkArea h checked]

theorem chkFits_of_register (lo : 0x1800000000 ≤ rd s F.CHK_SRC_ADDR n)
    (hi : rd s F.CHK_SRC_ADDR n + rd s F.CHK_LEN_LEN n ≤ 0x1804000000) : chkFits s n := by
  refine chkFits_of_not_past good ?_
  rw [chkPast, chkRangeEnd_register lo (by omega)]
  exact decide_eq_false (by omega)

variable (width : 8 ≤ rd s F.CHK_CTRL_WIDTH n ∧ rd s F.CHK_CTRL_WIDTH n ≤ 64) (clean : chkClean s n)
include width clean

theorem chkCause_of_dram (h : rd s F.CHK_SRC_ADDR n < 2 ^ 36) (populated : rd s F.CHK_SRC_ADDR n + rd s F.CHK_LEN_LEN n ≤ dramSize s)
    (checked : inCheckArea s (rd s F.CHK_SRC_ADDR n) = false) : chkCause s n = 0 := by
  refine (chkCause_of_clean (chkFits_of_dram good h populated checked) width clean).trans (if_neg ?_)
  rw [chkRangeEnd_dram h (by omega) checked, targetOf_dram h]
  exact Bool.false_ne_true

theorem chkCause_of_checkArea (h : rd s F.CHK_SRC_ADDR n < 2 ^ 36) (checked : inCheckArea s (rd s F.CHK_SRC_ADDR n) = true) :
    chkCause s n = 4 := by
  refine (chkCause_of_clean (chkFits_of_checkArea good h checked) width clean).trans (if_pos ?_)
  rw [chkRangeEnd_checkArea h checked]
  rfl

theorem chkCause_of_register (lo : 0x1800000000 ≤ rd s F.CHK_SRC_ADDR n)
    (hi : rd s F.CHK_SRC_ADDR n + rd s F.CHK_LEN_LEN n ≤ 0x1804000000) : chkCause s n = 4 := by
  refine (chkCause_of_clean (chkFits_of_register good lo hi) width clean).trans (if_pos ?_)
  rw [targetOf_register lo (by omega)]
  exact Bool.or_true _

end

/-! ### CHK_START (R73, R75, R76) -/

/-- The unit's settings as a write of CHK_CTRL leaves them. -/
def chkSet (s : State) (n : Nat) (v : BitVec 32) : State := writeReg s R.CHK_CTRL n 0 (v.toNat ||| 1) 0xFFFFFFFF

section
variable (s : State) (n : Nat) (v : BitVec 32)

theorem chkSet_eq : chkSet s n v = { s with regs := (chkSet s n v).regs } := rfl

theorem chkSet_rdReg {r : Reg} (h : r.apart R.CHK_CTRL = true) : rdReg (chkSet s n v) r n = rdReg s r n :=
  rdReg_wrReg_ne _ _ _ _ _ _ _ _ (Reg.apart_addr h n)

theorem chkSet_rd {f : Fld} (h : f.reg.apart R.CHK_CTRL = true) : rd (chkSet s n v) f n = rd s f n := by
  rw [rd, chkSet_rdReg s n v h, rd]

theorem bitOn_start : bitOn ((v.toNat ||| 1) &&& 0xFFFFFFFF) 0 = true := by
  rw [bitOn_eq_testBit]
  simp

theorem bitOn_abort : bitOn ((v.toNat ||| 1) &&& 0xFFFFFFFF) 1 = v.toNat.testBit 1 := by
  rw [bitOn_eq_testBit, show (0xFFFFFFFF : Nat) = 2 ^ 32 - 1 from rfl, Nat.testBit_and, Nat.testBit_two_pow_sub_one, Nat.testBit_or]
  simp [show Nat.testBit 1 1 = false by decide]

variable {s n}

theorem execChkStart_idle {n : Fin 16} (idle : rd s F.CHK_STATUS_BUSY n = 0) :
    exec (.chkStart n v) s = .next (chkBegin (chkSet s n v) n) := by
  change Host.Outcome.next (writeChkCtrl s n (v.toNat ||| 1) 0xFFFFFFFF) = _
  rw [writeChkCtrl, rdb, idle, bitOn_start]
  rfl

theorem execChkStart_busy {n : Fin 16} (busy : rd s F.CHK_STATUS_BUSY n = 1) (abort : v.toNat.testBit 1 = false) :
    exec (.chkStart n v) s = .next (chkRefuse s n 5) := by
  change Host.Outcome.next (writeChkCtrl s n (v.toNat ||| 1) 0xFFFFFFFF) = _
  rw [writeChkCtrl, rdb, busy, bitOn_abort, abort]
  rfl

theorem chkBegin_runs (idle : rd s F.CHK_STATUS_BUSY n = 0) (cause : chkCause s n = 0) :
    chkBegin s n = { wr s F.CHK_STATUS_BUSY n 0 1 with chk := s.chk.put n {} } := by
  simp [chkBegin, rdb, idle, cause]

theorem chkBegin_refused (idle : rd s F.CHK_STATUS_BUSY n = 0) (cause : chkCause s n ≠ 0) :
    chkBegin s n = chkRefuse s n (chkCause s n) := by
  simp [chkBegin, rdb, idle, cause]

end

/-- What a START does that is refused with a code. -/
def StartRefused (n : Fin 16) (v : BitVec 32) (s : State) (code : Nat) : Prop :=
  ∃ t, exec (.chkStart n v) s = .next t ∧ rd t F.CHK_STATUS_REFUSED n = 1 ∧ rd t F.CHK_STATUS_REFUSE_CODE n = code ∧
    rd t F.CHK_RESULT_RESULT n = rd s F.CHK_RESULT_RESULT n ∧ rd t F.CHK_STATUS_BUSY n = 0 ∧ t.mem = s.mem ∧ t.chk = s.chk

section
variable {n : Fin 16} {v : BitVec 32} {s : State} (idle : rd s F.CHK_STATUS_BUSY n = 0)
include idle

theorem startRefused_of_cause {code : Nat} (cause : chkCause (chkSet s n v) n = code) (lo : code ≠ 0) (hi : code < 16) :
    StartRefused n v s code := by
  subst cause
  have idle' : rd (chkSet s n v) F.CHK_STATUS_BUSY n = 0 := by rw [chkSet_rd _ _ _ (by decide), idle]
  refine ⟨_, execChkStart_idle v idle, ?_⟩
  rw [chkBegin_refused idle' lo]
  refine ⟨chkRefuse_refused _ _ _, chkRefuse_code _ _ _ hi, ?_, ?_, rfl, rfl⟩
  · rw [chkRefuse_rd _ _ _ (by decide), chkSet_rd _ _ _ (by decide)]
  · rw [chkRefuse_busy, idle']

theorem start_runs (cause : chkCause (chkSet s n v) n = 0) :
    ∃ t, exec (.chkStart n v) s = .next t ∧ rd t F.CHK_STATUS_BUSY n = 1 ∧
      rd t F.CHK_RESULT_RESULT n = rd s F.CHK_RESULT_RESULT n ∧ t = { s with regs := t.regs, chk := t.chk } := by
  have idle' : rd (chkSet s n v) F.CHK_STATUS_BUSY n = 0 := by rw [chkSet_rd _ _ _ (by decide), idle]
  refine ⟨_, execChkStart_idle v idle, ?_⟩
  rw [chkBegin_runs idle' cause]
  refine ⟨rd_wr_same _ _ _ _ _ (by decide), ?_, rfl⟩
  exact (rd_wr_reg _ _ _ _ _ _ _ _ (Reg.apart_addr (by decide) n)).trans (chkSet_rd _ _ _ (by decide))

end

/-! ### CHK_CONFIG_WRITE (R76) -/

theorem locate_chkPoly : ∀ n : Fin 16, locate (R.CHK_POLY.addr n 0) = some ⟨R.CHK_POLY, n, 0, false⟩ := by decide +kernel

theorem chkPoly_offset (n : Fin 16) : (BitVec.ofNat 26 (R.CHK_POLY.addr n 0)).toNat = R.CHK_POLY.addr n 0 := by
  revert n
  decide

theorem execChkConfigWrite_poly (n : Fin 16) (v : BitVec 64) (s : State) :
    exec (.chkConfigWrite (BitVec.ofNat 26 (R.CHK_POLY.addr n 0)) true v) s =
      .next (writeChkConfig s R.CHK_POLY n 0 v.toNat (2 ^ 64 - 1)) := by
  change execChkConfigWrite _ _ _ _ = _
  simp only [execChkConfigWrite, chkPoly_offset, locate_chkPoly]
  rfl

/-- A write of all 64 bits of CHK_POLY sets it. -/
theorem writeReg_poly (s : State) (n : Nat) (v : BitVec 64) :
    rdReg (writeReg s R.CHK_POLY n 0 v.toNat (2 ^ 64 - 1)) R.CHK_POLY n = v.toNat := by
  have whole : slice v.toNat 0 64 = v.toNat := by
    rw [slice, Nat.pow_zero, Nat.div_one, Nat.mod_eq_of_lt v.isLt]
  have ones : slice (2 ^ 64 - 1) 0 64 = 2 ^ 64 - 1 := slice_ones (by decide)
  have after (old : Nat) (locked : Bool) : fieldAfter old v.toNat (2 ^ 64 - 1) locked ⟨0, 64, .rw, 0, 0xffffffffffffffff⟩ = v.toNat := by
    simp only [fieldAfter, whole, ones, merged_ones _ _ _ v.isLt]
    exact if_pos ⟨Nat.zero_le _, by have := v.isLt; omega⟩
  rw [writeReg, rdReg_wrReg_same, regAfter, show R.CHK_POLY.align = 0 from rfl, Nat.and_zero, if_neg (by simp)]
  change setBits _ 0 64 (fieldAfter _ _ _ _ _) % 2 ^ 64 = _
  rw [after, setBits_eq, Nat.mod_eq_of_lt v.isLt]
  omega

theorem writeReg_poly_frame (s : State) (n v m : Nat) : sameRegsBut s (writeReg s R.CHK_POLY n 0 v m) [R.CHK_POLY.addr n 0] := fun a ha =>
  Map.find_put_ne _ _ (by simpa using ha)

/-- Settles O13: the settings that START takes leave every other register alone, so the cause is judged on the registers as they were. -/
theorem checkUnitStarts : Obligations.CheckUnitStarts := by
  unfold Obligations.CheckUnitStarts
  refine ⟨fun n v s idle => ?_, fun n v s busy abort => ?_, fun n v s => ⟨fun idle => ?_, fun busy => ?_⟩⟩
  · have src : rd (chkSet s n v) F.CHK_SRC_ADDR n = rd s F.CHK_SRC_ADDR n := chkSet_rd _ _ _ (by decide)
    have len : rd (chkSet s n v) F.CHK_LEN_LEN n = rd s F.CHK_LEN_LEN n := chkSet_rd _ _ _ (by decide)
    have poly : rdReg (chkSet s n v) R.CHK_POLY n = rdReg s R.CHK_POLY n := chkSet_rdReg _ _ _ (by decide)
    have init : rdReg (chkSet s n v) R.CHK_INIT n = rdReg s R.CHK_INIT n := chkSet_rdReg _ _ _ (by decide)
    have xorout : rdReg (chkSet s n v) R.CHK_XOROUT n = rdReg s R.CHK_XOROUT n := chkSet_rdReg _ _ _ (by decide)
    have expect : rdReg (chkSet s n v) R.CHK_EXPECT n = rdReg s R.CHK_EXPECT n := chkSet_rdReg _ _ _ (by decide)
    rw [← src, ← len, ← poly, ← init, ← xorout, ← expect]
    refine ⟨fun good ⟨dram, populated, checked⟩ width clean => ?_, fun h => ?_, fun good ⟨dram, populated, checked⟩ width => ?_,
      fun good ⟨dram, populated, checked⟩ width clean => ?_, fun good dram checked width clean => ?_,
      fun good lo hi width clean => ?_, fun ⟨lo, hi⟩ past => ?_⟩
    · exact start_runs idle (chkCause_of_dram good width clean dram populated checked)
    · exact startRefused_of_cause idle (chkCause_of_not_fits (not_chkFits_of_len h)) (by decide) (by decide)
    · exact startRefused_of_cause idle (chkCause_of_width (chkFits_of_dram good dram populated checked) width) (by decide) (by decide)
    · exact startRefused_of_cause idle (chkCause_of_not_clean (chkFits_of_dram good dram populated checked) width clean) (by decide)
        (by decide)
    · exact startRefused_of_cause idle (chkCause_of_checkArea good width clean dram checked) (by decide) (by decide)
    · exact startRefused_of_cause idle (chkCause_of_register good width clean lo hi) (by decide) (by decide)
    · exact startRefused_of_cause idle (chkCause_of_not_fits (not_chkFits_of_past lo hi past)) (by decide) (by decide)
  · refine ⟨_, execChkStart_busy v busy abort, chkRefuse_refused _ _ _, chkRefuse_code _ _ _ (by decide), chkRefuse_rdReg _ _ _ (by decide),
      ?_, rfl⟩
    rw [chkRefuse_busy, busy]
  · refine ⟨_, execChkConfigWrite_poly n v s, ?_⟩
    rw [writeChkConfig, rdb, idle]
    exact ⟨writeReg_poly s n v, rfl, writeReg_poly_frame s n _ _⟩
  · refine ⟨_, execChkConfigWrite_poly n v s, ?_⟩
    rw [writeChkConfig, rdb, busy]
    exact ⟨chkRefuse_rdReg _ _ _ (by decide), chkRefuse_refused _ _ _, chkRefuse_code _ _ _ (by decide)⟩

/-! ### The end of a job (R73, R77, R78) -/

/-- A unit's state at the end of a job, its flag and signal apart. -/
def chkEnded (s : State) (n code : Nat) : State :=
  wr (wr (wr { s with chk := s.chk.del n } F.CHK_STATUS_BUSY n 0 0) F.CHK_STATUS_END_CODE n 0 code) F.CHK_STATUS_RESULT_VALID n 0
    (bit (code == 0))

/-- A unit's flag, with the vector and the signal that an enable adds. -/
def chkFlag (en : Bool) (s : State) (k : Flag) (n ev : Nat) : State := also en (fun s => signal s ev) (raiseIf en s k n)

theorem chkEnd_eq (s : State) (n code : Nat) : chkEnd s n code =
    chkFlag (rdb (chkEnded s n code) F.CHK_CTRL_INT_DONE n) (chkEnded s n code) K.CHK_STATUS_DONE n (64 + n) := rfl

/-- The registers that the flags of unit `n` leave alone. -/
abbrev besideStatus (n a : Nat) : Prop := besideDram a ∧ a ≠ R.CHK_STATUS.addr n 0 ∧ a ≠ R.CHK_COUNT.addr n 0

section
variable {s₀ s : State} {n : Nat}

protected theorem AccessKept.wrStatus {f v} (h : AccessKept (besideStatus n) s₀ s) (hf : f.reg = R.CHK_STATUS := by rfl) :
    AccessKept (besideStatus n) s₀ (wr s f n 0 v) := h.wr fun ⟨_, status, _⟩ => status (by rw [hf])

protected theorem AccessKept.also {b f} (h : AccessKept (besideStatus n) s₀ s)
    (hf : AccessKept (besideStatus n) s (f s)) : AccessKept (besideStatus n) s₀ (also b f s) := .ite (h.trans hf) h

protected theorem AccessKept.chkFlag {en k ev} (h : AccessKept (besideStatus n) s₀ s) (hfld : k.fld.reg = R.CHK_STATUS := by rfl)
    (hcnt : k.cnt.reg = R.CHK_COUNT := by rfl) : AccessKept (besideStatus n) s₀ (chkFlag en s k n ev) :=
  AccessKept.also (h.raiseIf (fun ⟨_, status, _⟩ => status (by rw [hfld])) (fun ⟨_, _, count⟩ => count (by rw [hcnt])))
    ((signal_kept _ _).mono fun ⟨quiet, _⟩ => quiet)

protected theorem AccessKept.chkEnd {code} (h : AccessKept (besideStatus n) s₀ s) : AccessKept (besideStatus n) s₀ (chkEnd s n code) := by
  rw [chkEnd_eq]
  exact h.set.wrStatus.wrStatus.wrStatus.chkFlag

end

theorem chkFlag_mem (en : Bool) (s : State) (k : Flag) (n ev : Nat) : (chkFlag en s k n ev).mem = s.mem := by
  cases en
  · rfl
  · rw [chkFlag, also_true, signal_mem]
    rfl

theorem chkEnd_mem (s : State) (n code : Nat) : (chkEnd s n code).mem = s.mem := by rw [chkEnd_eq, chkFlag_mem]; rfl

section
variable {n : Nat} (hn : n < 16)
include hn

/-- A field of CHK_STATUS after a flag: what the flag alone leaves in it. -/
theorem rd_chkFlag {f : Fld} (hf : f.reg = R.CHK_STATUS) (en : Bool) (s : State) (k : Flag) (ev : Nat) :
    rd (chkFlag en s k n ev) f n = rd (raiseIf en s k n) f n := by
  have quiet : besideDram (f.reg.addr n 0) := by
    rw [hf]
    exact besideDram_of_access (Reg.besideAccess_of_checkUnit (by decide) hn)
  cases en
  · rfl
  · rw [chkFlag, also_true, (signal_kept _ ev).rd_eq quiet]

section
variable (s : State) (code : Nat)

theorem chkEnd_done : rd (chkEnd s n code) F.CHK_STATUS_DONE n = 1 :=
  (rd_chkFlag hn rfl _ _ _ _).trans (rd_raiseIf_flag _ _ K.CHK_STATUS_DONE n (status_apart_count n) rfl (by decide))

/-- The fields of CHK_STATUS beside DONE. -/
theorem rd_chkEnd {f : Fld} (hf : f.reg = R.CHK_STATUS) (hw : f.lo + f.w ≤ 64) (h : f.lo + f.w ≤ 1 ∨ 2 ≤ f.lo) :
    rd (chkEnd s n code) f n = rd (chkEnded s n code) f n :=
  (rd_chkFlag hn hf _ _ _ _).trans (rd_raiseIf_field _ _ K.CHK_STATUS_DONE n (status_apart_count n) hf hw h)

theorem chkEnd_busy : rd (chkEnd s n code) F.CHK_STATUS_BUSY n = 0 := by
  rw [rd_chkEnd hn _ _ rfl (by decide) (by decide), chkEnded]
  rw [rd_wr_field _ _ _ _ _ _ (by rfl) (by decide) (by decide), rd_wr_field _ _ _ _ _ _ (by rfl) (by decide) (by decide),
    rd_wr_same _ _ _ _ _ (by decide)]
  rfl

theorem chkEnd_code (h : code < 4) : rd (chkEnd s n code) F.CHK_STATUS_END_CODE n = code := by
  rw [rd_chkEnd hn _ _ rfl (by decide) (by decide), chkEnded]
  rw [rd_wr_field _ _ _ _ _ _ (by rfl) (by decide) (by decide), rd_wr_same _ _ _ _ _ (by decide)]
  exact Nat.mod_eq_of_lt h

theorem chkEnd_valid : rd (chkEnd s n code) F.CHK_STATUS_RESULT_VALID n = bit (code == 0) := by
  rw [rd_chkEnd hn _ _ rfl (by decide) (by decide), chkEnded]
  rw [rd_wr_same _ _ _ _ _ (by decide)]
  cases code == 0 <;> rfl

/-- The flags beside DONE stay. -/
theorem chkEnd_flag {f : Fld} (hf : f.reg = R.CHK_STATUS) (h : 2 ≤ f.lo ∧ f.lo + f.w ≤ 5) : rd (chkEnd s n code) f n = rd s f n := by
  obtain ⟨lo, hi⟩ := h
  rw [rd_chkEnd hn _ _ hf (by omega) (.inr lo), chkEnded]
  rw [rd_wr_field _ F.CHK_STATUS_RESULT_VALID _ _ _ _ hf (by omega) (.inl hi),
    rd_wr_field _ F.CHK_STATUS_END_CODE _ _ _ _ hf (by omega) (.inl (Nat.le_succ_of_le hi)),
    rd_wr_field _ F.CHK_STATUS_BUSY _ _ _ _ hf (by omega) (.inr (Nat.le_of_succ_le lo))]
  rfl

end
end

/-! ### Refusals are counted once for a job (R77, R588) -/

/-- What leaves VIOL_TOTAL of the check units' protection unit alone. -/
abbrev TotalKept : State → State → Prop := AccessKept (· = R.PRT_VIOL_TOTAL.addr 3 0)

protected theorem AccessKept.wrTotal {s t : State} {f : Fld} {i v : Nat} (h : TotalKept s t)
    (hf : f.reg.addr i 0 ≠ R.PRT_VIOL_TOTAL.addr 3 0 := by decide) : TotalKept s (wr t f i 0 v) := h.wr hf

theorem recordDenial_total (s : State) (x : Access1) (d : Denial) : TotalKept s (recordDenial s 3 x d) :=
  have first := (AccessKept.refl s).wrTotal.wrTotal.wrTotal.wrTotal
  first.wrTotal.wrTotal.wrTotal.wrTotal.set

theorem decodeError_total (s : State) (x : Access1) (kind : Nat) : TotalKept s (decodeError s x kind) :=
  (AccessKept.refl s).wrTotal.wrTotal.wrTotal.wrTotal.wrTotal.raise (by decide) (by decide)

theorem TotalKept.total {s t : State} (h : TotalKept s t) : rd t F.PRT_VIOL_TOTAL_TOTAL 3 = rd s F.PRT_VIOL_TOTAL_TOTAL 3 := h.rd_eq rfl

/-- The count of a unit's refusals after one more. -/
def oneMore (s : State) : Nat := min 0xFFFFFFFF (rd s F.PRT_VIOL_TOTAL_TOTAL 3 + 1)

theorem violate_total {s : State} {x : Access1} (d : Denial) (hx : unitOf x.master = some 3) :
    rd (violate s x d) F.PRT_VIOL_TOTAL_TOTAL 3 = oneMore s := by
  simp only [violate, hx]
  have recorded : TotalKept s (if lowerStands s 3 x.master then s else recordDenial s 3 x d) := .ite (.refl s) (recordDenial_total s x d)
  rw [rd, rdReg_raiseIf_reg _ _ _ _ (by decide) (by decide), ← rd, addSat, rd_wr_same _ _ _ _ _ (by decide), recorded.total]
  exact Nat.mod_eq_of_lt (Nat.lt_of_le_of_lt (Nat.min_le_left _ _) (by decide))

theorem targetRead_total (s : State) (a n : Nat) : TotalKept s (targetRead s a n).1 :=
  (AccessKept.refl s).targetRead.mono (keep := besideDram) (by rintro _ rfl; decide)

theorem firstError_eq_one {a b : Nat} : firstError a b = 1 ↔ a = 1 ∨ b = 1 := by
  unfold firstError
  split
  · simp_all
  · split <;> simp_all

theorem targetRead_error (s : State) (a n : Nat) : (targetRead s a n).2.1 ≠ 1 := by
  unfold targetRead
  split
  · split <;> simp
  all_goals simp

/-- After the pieces of a read so far the refusals of unit 3 are one more than they were in `s` where protection has refused a piece, and as
many otherwise. -/
def Counted (s : State) (acc : State × Nat × List Byte) : Prop :=
  rd acc.1 F.PRT_VIOL_TOTAL_TOTAL 3 = if acc.2.1 = 1 then oneMore s else rd s F.PRT_VIOL_TOTAL_TOTAL 3

theorem readPiece_counted {s : State} {master : Nat} {acc : State × Nat × List Byte} (p : Nat × Nat) (hm : 32 ≤ master ∧ master ≤ 47)
    (h : Counted s acc) : Counted s (readPiece master acc p) := by
  have unit : unitOf master = some 3 := by
    unfold unitOf
    rw [if_neg (by omega), if_neg (by omega), if_neg (by omega), if_pos hm]
  have ends : endsAtDenial master = true := by
    simp only [endsAtDenial, Bool.and_eq_true, decide_eq_true_eq]
    omega
  unfold Counted at h ⊢
  unfold readPiece
  rw [ends]
  by_cases refused : acc.2.1 = 1
  · rw [if_pos refused] at h
    simp [refused, h]
  · rw [if_neg refused] at h
    simp only [beq_eq_false_iff_ne.2 refused, Bool.and_false, Bool.false_eq_true, if_false]
    generalize hx : ({ master := master, addr := p.1, len := p.2, write := false } : Access1) = x
    have hx : unitOf x.master = some 3 := by rw [← hx, unit]
    rcases checkAccess_cases acc.1 x with ⟨-, -, e⟩ | ⟨d, -, e⟩ | ⟨-, -, e⟩ <;> rw [e]
    · have served : TotalKept acc.1 (targetRead (noteGrant acc.1 (portNo p.1) master p.1 p.2 false) p.1 p.2).1 :=
        (AccessKept.refl _).noteGrant.trans (targetRead_total _ _ _)
      have error := targetRead_error (noteGrant acc.1 (portNo p.1) master p.1 p.2 false) p.1 p.2
      simp [firstError_eq_one, refused, error, served.total, h]
    · simp [firstError_eq_one, violate_total d hx, oneMore, h]
    · simp [firstError_eq_one, refused, (decodeError_total acc.1 x _).total, h]

theorem busRead_counted {s : State} {master : Nat} (a n : Nat) (hm : 32 ≤ master ∧ master ≤ 47) : Counted s (busRead s master a n) := by
  have start : Counted s (s, 0, []) := rfl
  unfold busRead
  generalize pieces a (n / 256 + 2) n = l, (s, 0, []) = acc at start ⊢
  induction l generalizing acc with
  | nil => exact start
  | cons p l ih => exact ih _ (readPiece_counted p hm start)

/-! ### CHK_JOB_DONE, CHK_PROT_ERROR and CHK_ABORT (R73, R74, R77) -/

/-- The read of a unit's job. -/
def jobRead (s : State) (n : Nat) : State × Nat × List Byte := busRead s (32 + n) (rd s F.CHK_SRC_ADDR n) (rd s F.CHK_LEN_LEN n)

/-- A unit's state with the result of its job. -/
def withResult (s : State) (n v : Nat) : State := wr s F.CHK_RESULT_RESULT n 0 v

/-- A job's result is judged against CHK_EXPECT (R74). -/
def judged (s : State) (n v : Nat) : State :=
  if rdb s F.CHK_CTRL_COMPARE_EN n && decide (v ≠ rd s F.CHK_EXPECT_EXPECT n) then
    chkFlag (rdb s F.CHK_CTRL_INT_MISMATCH n) s K.CHK_STATUS_MISMATCH n (80 + n)
  else s

section
variable {n : Fin 16} {s : State} (busy : rd s F.CHK_STATUS_BUSY n = 1)
include busy

theorem execChkAbort_busy : exec (.chkAbort n) s = .next (chkEnd s n 1) := by
  change Host.Outcome.next (chkAbortJob s n) = _
  rw [chkAbortJob, rdb, busy]
  rfl

variable (free : accessWaits s (32 + n) = false)
include free

theorem execChkJobDone_read (h : (jobRead s n).2.1 = 0) : exec (.chkJobDone n) s =
    .next (chkEnd (judged (withResult (jobRead s n).1 n (chkCrc (jobRead s n).1 n (jobRead s n).2.2)) n
      (chkCrc (jobRead s n).1 n (jobRead s n).2.2)) n 0) := by
  change execChkJobDone n s = _
  rw [execChkJobDone, rdb, busy, free]
  exact if_neg fun one => Nat.zero_ne_one (h.symm.trans one)

theorem execChkJobDone_refused (h : (jobRead s n).2.1 = 1) : exec (.chkJobDone n) s = .next (chkProtEnd (jobRead s n).1 n) := by
  change execChkJobDone n s = _
  rw [execChkJobDone, rdb, busy, free]
  exact if_pos h

theorem execChkProtError_refused (h : (jobRead s n).2.1 = 1) : exec (.chkProtError n) s = .next (chkProtEnd (jobRead s n).1 n) := by
  change execChkProtError n s = _
  rw [execChkProtError, rdb, busy, free]
  exact congrArg Host.Outcome.next (if_pos h)

end

theorem jobRead_kept (s : State) (n : Nat) : PathKept s (jobRead s n).1 := busRead_kept _ _ _ _

theorem jobRead_mem (s : State) (n : Nat) : (jobRead s n).1.mem = s.mem := busRead_mem _ _ _ _

theorem jobRead_total {s : State} {n : Nat} (hn : n < 16) (refused : (jobRead s n).2.1 = 1) :
    rd (jobRead s n).1 F.PRT_VIOL_TOTAL_TOTAL 3 = oneMore s :=
  (busRead_counted _ _ (by omega)).trans (if_pos refused)

/-- A register of a unit reads as before a job's read. -/
theorem jobRead_rd (s : State) {n : Nat} (hn : n < 16) {f : Fld} (hf : f.reg.ofCheckUnit = true) :
    rd (jobRead s n).1 f n = rd s f n := (jobRead_kept s n).rd_eq (Reg.besideAccess_of_checkUnit hf hn)

theorem judged_kept (s : State) (n v : Nat) : AccessKept (besideStatus n) s (judged s n v) := .ite (AccessKept.refl s).chkFlag (.refl s)

theorem judged_mem (s : State) (n v : Nat) : (judged s n v).mem = s.mem := by
  unfold judged
  split
  · exact chkFlag_mem _ _ _ _ _
  · rfl

theorem judged_mismatch {s : State} {n v : Nat} (hn : n < 16) (compare : rd s F.CHK_CTRL_COMPARE_EN n = 1)
    (differs : v ≠ rd s F.CHK_EXPECT_EXPECT n) : rd (judged s n v) F.CHK_STATUS_MISMATCH n = 1 := by
  rw [judged, rdb, compare, decide_eq_true differs]
  exact (rd_chkFlag hn rfl _ _ _ _).trans (rd_raiseIf_flag _ _ K.CHK_STATUS_MISMATCH n (status_apart_count n) rfl (by decide))

theorem Reg.besideStatus_of_checkUnit {r : Reg} {n : Nat} (hn : n < 16) (unit : r.ofCheckUnit = true) (apart : r.besideStatus = true) :
    Machine.besideStatus n (r.addr n 0) :=
  ⟨besideDram_of_access (Reg.besideAccess_of_checkUnit unit hn), Reg.besideStatus_spec apart n⟩

/-- The result that a job leaves is what the unit held at its end. -/
theorem chkEnd_result {s t : State} {n : Nat} (code : Nat) (hn : n < 16) (h : AccessKept (besideStatus n) s t) :
    rdReg (chkEnd t n code) R.CHK_RESULT n = rdReg s R.CHK_RESULT n :=
  h.chkEnd.rdReg_eq (Reg.besideStatus_of_checkUnit hn (by decide) (by decide))

theorem withResult_result (s : State) (n v : Nat) : rdReg (withResult s n v) R.CHK_RESULT n = v % 2 ^ 64 := by
  rw [← rd_whole]
  exact rd_wr_same s F.CHK_RESULT_RESULT n 0 v (by decide)

/-- A field of another register of the unit than CHK_RESULT. -/
theorem withResult_rd (s : State) (n v : Nat) {f : Fld} (hf : f.reg.apart R.CHK_RESULT = true) :
    rd (withResult s n v) f n = rd s f n := rd_wr_reg _ _ _ _ _ _ _ _ (Reg.apart_addr hf n)

/-- What a job does that protection ends. -/
def EndsRefused (n : Fin 16) (s t : State) : Prop :=
  rd t F.CHK_STATUS_BUSY n = 0 ∧ rd t F.CHK_STATUS_DONE n = 1 ∧ rd t F.CHK_STATUS_PROT_ERR n = 1 ∧ rd t F.CHK_STATUS_END_CODE n = 2 ∧
    rd t F.CHK_STATUS_RESULT_VALID n = 0 ∧ rd t F.PRT_VIOL_TOTAL_TOTAL 3 = oneMore s ∧
    rdReg t R.CHK_RESULT n = rdReg s R.CHK_RESULT n ∧ t.mem = s.mem

theorem besideStatus_total (n : Nat) : besideStatus n (R.PRT_VIOL_TOTAL.addr 3 0) := by
  have below (r : Reg) (h : 0x1C01000 ≤ r.base) : R.PRT_VIOL_TOTAL.addr 3 0 ≠ r.addr n 0 :=
    (Reg.addr_ne_of_lt_base (Nat.lt_of_lt_of_le (by decide) h) n 0).symm
  exact ⟨.inl (by decide), below _ (by decide), below _ (by decide)⟩

theorem chkProtEnd_endsRefused {n : Fin 16} {s : State} (refused : (jobRead s n).2.1 = 1) :
    EndsRefused n s (chkProtEnd (jobRead s n).1 n) := by
  have flagged : AccessKept (besideStatus n) (jobRead s n).1 (raise (jobRead s n).1 K.CHK_STATUS_PROT_ERR n) :=
    (AccessKept.refl _).raise (fun ⟨_, status, _⟩ => status rfl) (fun ⟨_, _, count⟩ => count rfl)
  refine ⟨chkEnd_busy n.isLt _ _, chkEnd_done n.isLt _ _, ?_, chkEnd_code n.isLt _ _ (by decide), chkEnd_valid n.isLt _ _, ?_, ?_, ?_⟩
  · rw [chkProtEnd, chkEnd_flag n.isLt _ _ rfl (by decide)]
    exact rd_raiseIf_flag true _ K.CHK_STATUS_PROT_ERR n (status_apart_count n) rfl (by decide)
  · rw [chkProtEnd, flagged.chkEnd.rd_eq (besideStatus_total n), jobRead_total n.isLt refused]
  · rw [chkProtEnd, chkEnd_result _ n.isLt flagged]
    exact (jobRead_kept s n).rdReg_eq (Reg.besideAccess_of_checkUnit (by decide) n.isLt)
  · rw [chkProtEnd, chkEnd_mem, raise_mem, jobRead_mem]

/-- Settles O14: the end of a job writes CHK_STATUS alone, after its read, which touches no register of the unit. -/
theorem checkUnitJobsEnd : Obligations.CheckUnitJobsEnd := by
  unfold Obligations.CheckUnitJobsEnd
  refine ⟨fun n s busy free done => ?_, fun n s busy => ?_, fun n s idle => ?_, fun n s busy free refused => ⟨?_, ?_⟩⟩
  · refine ⟨_, execChkJobDone_read busy free done, chkEnd_busy n.isLt _ _, chkEnd_done n.isLt _ _, chkEnd_code n.isLt _ _ (by decide),
      chkEnd_valid n.isLt _ _, ?_, ?_, fun compare differs => ?_⟩
    · rw [chkEnd_result _ n.isLt (judged_kept _ _ _), withResult_result]
      rfl
    · rw [chkEnd_mem, judged_mem, withResult, wr_mem, jobRead_mem]
    · rw [chkEnd_flag n.isLt _ _ rfl (by decide)]
      refine judged_mismatch n.isLt ?_ ?_
      · rw [withResult_rd _ _ _ (by decide), jobRead_rd s n.isLt (by decide), compare]
      · rw [withResult_rd _ _ _ (by decide), jobRead_rd s n.isLt (by decide)]
        exact differs
  · exact ⟨_, execChkAbort_busy busy, chkEnd_busy n.isLt _ _, chkEnd_done n.isLt _ _, chkEnd_code n.isLt _ _ (by decide),
      chkEnd_valid n.isLt _ _, chkEnd_result _ n.isLt (.refl s), chkEnd_mem _ _ _⟩
  · change Host.Outcome.next (chkAbortJob s n) = _
    rw [chkAbortJob, rdb, idle]
    rfl
  · exact ⟨_, execChkProtError_refused busy free refused, chkProtEnd_endsRefused refused⟩
  · exact ⟨_, execChkJobDone_refused busy free refused, chkProtEnd_endsRefused refused⟩

end Sys2Proof.Machine
end

