-- ==== Sys2Proof/Proofs/ComposerSeals.lean ====
section
/-!
The composer's checks of headers and tiles (R58 to R70, R270, R685): what a failed check leaves alone after its own marks, and the four commands.
-/

namespace Sys2Proof.Machine

/-! ### What follows a failed check (R62, R66, R331, R343, R358) -/

/-- A field that a raised PERSIST leaves alone: of another register, or one of the two flags below it. -/
def besidePersist (f : Fld) (i j : Nat) : Prop :=
  f.reg.addr i j ≠ R.SEAL_EVENT.addr 0 0 ∨ (f.reg = R.SEAL_EVENT ∧ i = 0 ∧ j = 0 ∧ f.lo + f.w ≤ 2)

/-- From `s` to `t` the marks of layer `l`'s checks stay, its lease, DRAM and the registers beside PERSIST and its count. -/
structure MarksKept (l : Nat) (s t : State) : Prop where
  rd_eq : ∀ {f i j}, besidePersist f i j → rd t f i j = rd s f i j
  hdrFail : (layOf t l).hdrFail = (layOf s l).hdrFail
  cropFail : (layOf t l).cropFail = (layOf s l).cropFail
  tileFail : (layOf t l).tileFail = (layOf s l).tileFail
  tableFail : (layOf t l).tableFail = (layOf s l).tableFail
  lease : (layOf t l).lease = (layOf s l).lease
  mem : t.mem = s.mem

section
variable {l : Nat} {s₀ s t : State}

protected theorem MarksKept.refl (l : Nat) (s : State) : MarksKept l s s := ⟨fun _ => rfl, rfl, rfl, rfl, rfl, rfl, rfl⟩

protected theorem MarksKept.ite {p : Prop} {_ : Decidable p} (hs : MarksKept l s₀ s) (ht : MarksKept l s₀ t) :
    MarksKept l s₀ (if p then s else t) := by
  split
  · exact hs
  · exact ht

/-- The layer changed beside the marks of its checks. -/
protected theorem MarksKept.setLay {x} (h : MarksKept l s₀ s) (hdrFail : x.hdrFail = (layOf s l).hdrFail := by rfl)
    (cropFail : x.cropFail = (layOf s l).cropFail := by rfl) (tileFail : x.tileFail = (layOf s l).tileFail := by rfl)
    (tableFail : x.tableFail = (layOf s l).tableFail := by rfl) (lease : x.lease = (layOf s l).lease := by rfl) :
    MarksKept l s₀ (setLay s l x) where
  rd_eq := h.rd_eq
  hdrFail := by rw [layOf_setLay, hdrFail, h.hdrFail]
  cropFail := by rw [layOf_setLay, cropFail, h.cropFail]
  tileFail := by rw [layOf_setLay, tileFail, h.tileFail]
  tableFail := by rw [layOf_setLay, tableFail, h.tableFail]
  lease := by rw [layOf_setLay, lease, h.lease]
  mem := h.mem

protected theorem MarksKept.updSrc {i f} (h : MarksKept l s₀ s) : MarksKept l s₀ (updSrc s i f) := { h with }

protected theorem MarksKept.updCnv {c f} (h : MarksKept l s₀ s) : MarksKept l s₀ (updCnv s c f) := { h with }

protected theorem MarksKept.askJournal {rank ty p} (h : MarksKept l s₀ s) : MarksKept l s₀ (askJournal s rank ty p) := { h with }

/-- A raised flag leaves a field alone that stands beside it and its count in their register. -/
theorem rd_raise_field (s : State) (k : Flag) (n : Nat) {f : Fld} (hfld : f.reg = k.fld.reg) (hcnt : f.reg = k.cnt.reg) (hw : f.lo + f.w ≤ 64)
    (flag : f.lo + f.w ≤ k.fld.lo ∨ k.fld.lo + k.fld.w ≤ f.lo) (count : f.lo + f.w ≤ k.cnt.lo ∨ k.cnt.lo + k.cnt.w ≤ f.lo) :
    rd (raise s k n) f n = rd s f n := by
  simp only [raise, raiseIf, if_true, rd_raiseVector, raiseQuiet]
  rw [rd_wr_field _ _ _ _ _ _ hcnt hw count, rd_wr_field _ _ _ _ _ _ hfld hw flag]

theorem rd_raise_persist (s : State) {f : Fld} {i j : Nat} (hf : besidePersist f i j) : rd (raise s K.SEAL_EVENT_PERSIST) f i j = rd s f i j := by
  rcases hf with other | ⟨hr, rfl, rfl, hi⟩
  · exact rd_raise_reg _ _ _ _ _ _ other other
  · have word : f.lo + f.w ≤ 64 := Nat.le_trans hi (by decide)
    exact rd_raise_field s K.SEAL_EVENT_PERSIST 0 hr hr word (.inl hi) (.inl (Nat.le_trans hi (by decide)))

protected theorem MarksKept.raisePersist (h : MarksKept l s₀ s) : MarksKept l s₀ (raise s K.SEAL_EVENT_PERSIST) :=
  { h with rd_eq := fun hf => (rd_raise_persist s hf).trans (h.rd_eq hf) }

protected theorem MarksKept.failFrame (h : MarksKept l s₀ s) : MarksKept l s₀ (failFrame s l) := by
  unfold failFrame
  refine .ite h (.ite ?_ h.setLay)
  split
  exact h.setLay.raisePersist.askJournal

protected theorem MarksKept.checkFailed {f} (h : MarksKept l s₀ s) : MarksKept l s₀ (checkFailed s f) := .ite h.updSrc h

protected theorem MarksKept.notVerified (h : MarksKept l s₀ s) : MarksKept l s₀ (notVerified s l) := .ite h h.updCnv

protected theorem MarksKept.paintCheck {row} (h : MarksKept l s₀ s) : MarksKept l s₀ (paintCheck s l row) := .ite h.setLay.setLay h.setLay

end

/-! ### Headers (R59, R270) -/

/-- A layer marked as failing its header, before what follows from it. -/
def headerMarked (s : State) (l : Nat) : State := raise (updLay s l fun x => { x with hdrFail := true }) K.SEAL_EVENT_HEADER_BAD

theorem headerFailed_kept (s : State) (l : Nat) (k : Lease) : MarksKept l (headerMarked s l) (headerFailed s l k) :=
  (MarksKept.refl l (headerMarked s l)).checkFailed.failFrame.notVerified.paintCheck

theorem headerFailed_hdrFail (s : State) (l : Nat) (k : Lease) : (layOf (headerFailed s l k) l).hdrFail = true := by
  rw [(headerFailed_kept s l k).hdrFail]
  exact congrArg (·.hdrFail) (layOf_setLay s l _)

theorem headerFailed_event (s : State) (l : Nat) (k : Lease) : rd (headerFailed s l k) F.SEAL_EVENT_HEADER_BAD = 1 := by
  rw [(headerFailed_kept s l k).rd_eq (.inr ⟨rfl, rfl, rfl, by decide⟩)]
  exact rd_raise_flag _ K.SEAL_EVENT_HEADER_BAD 0 rfl (by decide) (by decide)

theorem headerFailed_mem (s : State) (l : Nat) (k : Lease) : (headerFailed s l k).mem = s.mem := (headerFailed_kept s l k).mem

/-- A layer marked with a crop outside its frame, before what follows from it. -/
def cropMarked (s : State) (l : Nat) : State :=
  raise (setLay s l { layOf s l with hdrOk := true, cropFail := true }) K.CMP_CNV_EVENT_CROP_OUT (layOf s l).desc.canvas

theorem cropFailed_kept (s : State) (l : Nat) : MarksKept l (cropMarked s l) (cropFailed s l) :=
  (MarksKept.refl l (cropMarked s l)).failFrame.notVerified.paintCheck

theorem cropFailed_cropFail (s : State) (l : Nat) : (layOf (cropFailed s l) l).cropFail = true := by
  rw [(cropFailed_kept s l).cropFail]
  exact congrArg (·.cropFail) (layOf_setLay s l _)

theorem cropFailed_event (s : State) (l : Nat) : rd (cropFailed s l) F.CMP_CNV_EVENT_CROP_OUT (layOf s l).desc.canvas = 1 := by
  rw [(cropFailed_kept s l).rd_eq (.inl (Reg.addr_ne_of_lt_base (by decide) _ _))]
  exact rd_raise_flag _ K.CMP_CNV_EVENT_CROP_OUT _ rfl (by decide) (.inr (Reg.apart_addr (by decide) _))

theorem cropFailed_mem (s : State) (l : Nat) : (cropFailed s l).mem = s.mem := (cropFailed_kept s l).mem

section
variable {layer : Fin 1024} {s : State} {k : Lease} (lease : (layOf s layer).lease = some k) (waits : headerWaits s layer = true)
  (free : accessWaits s (engineMaster s (layOf s layer).desc.canvas) = false) (err : Bool)
include lease waits free

/-- The header read of a layer's check. -/
theorem execRecordHeaderRead_eq :
    let x := layOf s layer
    let r := readHeader s (engineMaster s x.desc.canvas) k
    exec (.recordHeaderRead layer err) s = .next (
      if err || !r.2.1 then headerFailed r.1 layer k
      else if x.desc.srcX + x.desc.srcW > leAt r.2.2 24 2 ∨ x.desc.srcY + x.desc.srcH > leAt r.2.2 26 2 then cropFailed r.1 layer
      else setLay r.1 layer { x with hdrOk := true }) := by
  change execRecordHeaderRead layer err s = _
  simp only [execRecordHeaderRead, lease, waits, free, Bool.not_true, Bool.or_false, Bool.false_eq_true, if_false]
  repeat' split
  all_goals rfl

end

/-! ### Tile fetches (R62, R331) -/

section
variable {layer : Fin 1024} {tile : BitVec 16} {s : State} {k : Lease}

/-- A tile row's CRCs as a layer holds them, or as its engine reads them where it holds another row's (R62). -/
def rowCrcs (s : State) (l row : Nat) (k : Lease) : State × Bool × List Byte :=
  let p := placeOf s k
  let x := layOf s l
  let read := busRead s (engineMaster s x.desc.canvas) (recordAddr p + 64 + 4 * (row * tilesPerRow p.w)) (4 * tilesPerRow p.w)
  match x.crcs with
  | some q => if q.1 = row then (s, q.2) else (read.1, read.2.1 != 0, read.2.2)
  | none => (read.1, read.2.1 != 0, read.2.2)

theorem rowCrcs_of_held {l row : Nat} {q : Nat × Bool × List Byte} (held : (layOf s l).crcs = some q) (same : q.1 = row) :
    rowCrcs s l row k = (s, q.2) := by
  simp only [rowCrcs, held, same, if_true]

theorem rowCrcs_of_other {l row : Nat} (other : ∀ q, (layOf s l).crcs = some q → q.1 ≠ row) :
    let p := placeOf s k
    let read := busRead s (engineMaster s (layOf s l).desc.canvas) (recordAddr p + 64 + 4 * (row * tilesPerRow p.w)) (4 * tilesPerRow p.w)
    rowCrcs s l row k = (read.1, read.2.1 != 0, read.2.2) := by
  unfold rowCrcs
  dsimp only
  split
  · next q hq => rw [if_neg (other q hq)]
  · rfl

/-- Reading the CRCs of a row changes no layer, and not DRAM. -/
theorem rowCrcs_kept (s : State) (l row : Nat) (k : Lease) : PathKept s (rowCrcs s l row k).1 ∧ (rowCrcs s l row k).1.mem = s.mem := by
  unfold rowCrcs
  dsimp only
  repeat' split
  · exact ⟨.refl s, rfl⟩
  all_goals exact ⟨busRead_kept _ _ _ _, busRead_mem _ _ _ _⟩

/-- What the issue of a tile's fetch adds to its layer. -/
theorem execTileFetchIssue_eq (lease : (layOf s layer).lease = some k) (used : (firstRowOf s layer tile.toNat).isSome = true)
    (fetching : fetches s layer = true) (held : ((layOf s layer).got.find tile.toNat).isSome = false)
    (out : ((layOf s layer).fetch.any fun f => f.1 == tile.toNat) = false)
    (free : accessWaits s (engineMaster s (layOf s layer).desc.canvas) = false) :
    let x := layOf s layer
    let per := tilesPerRow (placeOf s k).w
    let row := tile.toNat / per
    let r := rowCrcs s layer row k
    exec (.tileFetchIssue layer tile) s = .next (setLay r.1 layer { x with
      crcs := some (row, r.2)
      fetch := x.fetch ++ [(tile.toNat, if r.2.1 then 2 ^ 32 else leAt r.2.2 (4 * (tile.toNat % per)) 4, fetchQos s x.desc.canvas)] }) := by
  intro x per row r
  obtain ⟨first, hfirst⟩ := Option.isSome_iff_exists.mp used
  have lay : layOf r.1 layer = x := (rowCrcs_kept s layer row k).1.layOf_eq layer
  have eq : exec (.tileFetchIssue layer tile) s = .next (updLay r.1 layer fun y => { y with
      crcs := some (row, r.2)
      fetch := y.fetch ++ [(tile.toNat, if r.2.1 then 2 ^ 32 else leAt r.2.2 (4 * (tile.toNat % per)) 4, fetchQos s x.desc.canvas)] }) := by
    change execTileFetchIssue layer tile s = _
    simp only [execTileFetchIssue, lease, hfirst, fetching, held, out, free, Bool.not_true, Bool.or_false, Bool.false_eq_true, if_false]
    rfl
  rw [eq, updLay, lay]

end

/-! ### Arriving tiles (R63, R66, R685) -/

theorem tileMismatch_mem (s : State) (t l c i : Nat) : (tileMismatch s t l c i).mem = s.mem := rfl

theorem rd_tileMismatch_event (s : State) (t l c i : Nat) : rd (tileMismatch s t l c i) F.SEAL_EVENT_TILE_MISMATCH = 1 := by
  simp only [tileMismatch, addSat, wr0_eq]
  iterate 6 rw [rd_wr_reg _ _ _ _ _ _ _ _ (by decide)]
  exact rd_raise_flag _ K.SEAL_EVENT_TILE_MISMATCH 0 rfl (by decide) (by decide)

theorem rd_tileMismatch_total (s : State) (t l c i : Nat) :
    rd (tileMismatch s t l c i) F.SEAL_TOTAL_TILES = min 0xFFFFFFFF (rd s F.SEAL_TOTAL_TILES + 1) := by
  simp only [tileMismatch, addSat, wr0_eq]
  iterate 5 rw [rd_wr_reg _ _ _ _ _ _ _ _ (by decide)]
  rw [rd_wr_same _ _ _ _ _ (by decide), rd_raise_reg _ _ _ _ _ _ (by decide) (by decide)]
  exact Nat.mod_eq_of_lt (Nat.lt_of_le_of_lt (Nat.min_le_left _ _) (by decide))

/-- SEAL_LAST as a mismatch leaves it (R66). -/
theorem rd_tileMismatch_last (s : State) (t l c i : Nat) : let u := tileMismatch s t l c i
    rd u F.SEAL_LAST_TILE = t % 65536 ∧ rd u F.SEAL_LAST_LAYER = l % 1024 ∧ rd u F.SEAL_LAST_CANVAS = c % 32 ∧
    rd u F.SEAL_LAST_SOURCE_ID = i % 4096 ∧ rd u F.SEAL_LAST_VALID = 1 := by
  simp only [tileMismatch, addSat, wr0_eq]
  refine ⟨?tile, ?layer, ?canvas, ?source, ?valid⟩
  case tile =>
    iterate 4 rw [rd_wr_field _ _ _ _ _ _ (by rfl) (by decide) (by decide)]
    exact rd_wr_same _ _ _ _ _ (by decide)
  case layer =>
    iterate 3 rw [rd_wr_field _ _ _ _ _ _ (by rfl) (by decide) (by decide)]
    exact rd_wr_same _ _ _ _ _ (by decide)
  case canvas =>
    iterate 2 rw [rd_wr_field _ _ _ _ _ _ (by rfl) (by decide) (by decide)]
    exact rd_wr_same _ _ _ _ _ (by decide)
  case source =>
    rw [rd_wr_field _ _ _ _ _ _ (by rfl) (by decide) (by decide)]
    exact rd_wr_same _ _ _ _ _ (by decide)
  case valid => exact rd_wr_same _ _ _ _ _ (by decide)

/-- A layer marked as failing a tile, before what follows from it. -/
def tileMarked (s : State) (l tile : Nat) (k : Lease) : State :=
  updLay (tileMismatch s tile l (layOf s l).desc.canvas k.frame.source) l fun x => { x with tileFail := true, badTiles := tile :: x.badTiles }

theorem tileFailed_kept (s : State) (l tile : Nat) (k : Lease) : MarksKept l (tileMarked s l tile k) (tileFailed s l tile k) :=
  (MarksKept.refl l (tileMarked s l tile k)).checkFailed.failFrame.notVerified.paintCheck

theorem tileFailed_tileFail (s : State) (l tile : Nat) (k : Lease) : (layOf (tileFailed s l tile k) l).tileFail = true := by
  rw [(tileFailed_kept s l tile k).tileFail]
  exact congrArg (·.tileFail) (layOf_setLay _ l _)

theorem tileFailed_mem (s : State) (l tile : Nat) (k : Lease) : (tileFailed s l tile k).mem = s.mem :=
  ((tileFailed_kept s l tile k).mem.trans (setLay_mem _ _ _)).trans (tileMismatch_mem s tile l _ _)

/-- The registers that a mismatch writes are as its record left them. -/
theorem rd_tileFailed (s : State) (l tile : Nat) (k : Lease) {f : Fld} (hf : besidePersist f 0 0) :
    rd (tileFailed s l tile k) f = rd (tileMismatch s tile l (layOf s l).desc.canvas k.frame.source) f :=
  ((tileFailed_kept s l tile k).rd_eq hf).trans (rd_regs (setLay_regs _ _ _) f 0 0)

theorem tileFailed_event (s : State) (l tile : Nat) (k : Lease) : rd (tileFailed s l tile k) F.SEAL_EVENT_TILE_MISMATCH = 1 :=
  (rd_tileFailed s l tile k (.inr ⟨rfl, rfl, rfl, by decide⟩)).trans (rd_tileMismatch_event _ _ _ _ _)

theorem tileFailed_total (s : State) (l tile : Nat) (k : Lease) :
    rd (tileFailed s l tile k) F.SEAL_TOTAL_TILES = min 0xFFFFFFFF (rd s F.SEAL_TOTAL_TILES + 1) :=
  (rd_tileFailed s l tile k (.inl (by decide))).trans (rd_tileMismatch_total _ _ _ _ _)

/-- SEAL_LAST after a failed tile (R66). -/
theorem tileFailed_last (s : State) (l tile : Nat) (k : Lease) : let u := tileFailed s l tile k
    rd u F.SEAL_LAST_TILE = tile % 65536 ∧ rd u F.SEAL_LAST_LAYER = l % 1024 ∧ rd u F.SEAL_LAST_CANVAS = (layOf s l).desc.canvas % 32 ∧
    rd u F.SEAL_LAST_SOURCE_ID = k.frame.source % 4096 ∧ rd u F.SEAL_LAST_VALID = 1 := by
  have last {f : Fld} (hf : f.reg = R.SEAL_LAST) := rd_tileFailed s l tile k (f := f) (.inl (by rw [hf]; decide))
  dsimp only
  rw [last rfl, last rfl, last rfl, last rfl, last rfl]
  exact rd_tileMismatch_last s tile l (layOf s l).desc.canvas k.frame.source

theorem arrivedBytes_kept (s : State) (err : Bool) (b : List Byte) : PathKept s (arrivedBytes s err b).1 := by
  unfold arrivedBytes
  split
  · exact (AccessKept.refl s).set
  · exact .refl s

theorem arrivedBytes_mem (s : State) (err : Bool) (b : List Byte) : (arrivedBytes s err b).1.mem = s.mem := by
  unfold arrivedBytes
  split <;> rfl

theorem arrivedBytes_ok (s : State) (b : List Byte) : arrivedBytes s false b = (s, b) := rfl

/-- A layer with a tile taken from its fetches. -/
def tileTaken (s : State) (l : Nat) (f : Nat × Nat × Nat) : State := setLay s l { layOf s l with fetch := (layOf s l).fetch.erase f }

/-- The read of a taken tile by its layer's engine. -/
def tileRead (s : State) (l tile : Nat) (k : Lease) (f : Nat × Nat × Nat) : State × Bool × List Byte :=
  readTile (tileTaken s l f) (engineMaster s (layOf s l).desc.canvas) (placeOf s k) tile

/-- The taken tile as it is read and held, and whether its access fails or its CRC differs from the fetch's. -/
def tileHeld (s : State) (l tile : Nat) (k : Lease) (f : Nat × Nat × Nat) (err : Bool) : State × Bool :=
  let r := tileRead s l tile k f
  let bad := err || r.2.1
  let b := arrivedBytes r.1 bad r.2.2
  let v := updLay b.1 l fun y => { y with got := y.got.put tile b.2 }
  (v, bad || leaseSeal v k tile b.2 != f.2.1)

section
variable (s : State) (l tile : Nat) (k : Lease) (f : Nat × Nat × Nat) (err : Bool)

theorem arrivedRead_kept : let r := tileRead s l tile k f
    PathKept (tileTaken s l f) (arrivedBytes r.1 (err || r.2.1) r.2.2).1 := (readTile_kept _ _ _ _).trans (arrivedBytes_kept _ _ _)

theorem tileHeld_mem : (tileHeld s l tile k f err).1.mem = s.mem := (arrivedBytes_mem _ _ _).trans (readTile_mem _ _ _ _)

theorem rd_tileHeld {g : Fld} (hg : besideAccess (g.reg.addr 0 0)) : rd (tileHeld s l tile k f err).1 g = rd s g :=
  (arrivedRead_kept s l tile k f err).rd_eq hg

theorem tileHeld_canvas : (layOf (tileHeld s l tile k f err).1 l).desc.canvas = (layOf s l).desc.canvas := by
  have read := (arrivedRead_kept s l tile k f err).layOf_eq l
  rw [tileTaken, layOf_setLay] at read
  simp only [tileHeld, updLay, layOf_setLay, read]

/-- A tile whose access succeeds is held as read, and compared. -/
theorem tileHeld_of_read (ok : (tileRead s l tile k f).2.1 = false) : let r := tileRead s l tile k f
    tileHeld s l tile k f false =
      (setLay r.1 l { layOf s l with fetch := (layOf s l).fetch.erase f, got := (layOf s l).got.put tile r.2.2 },
        leaseSeal s k tile r.2.2 != f.2.1) := by
  have kept : PathKept (tileTaken s l f) (tileRead s l tile k f).1 := readTile_kept _ _ _ _
  unfold tileHeld
  generalize tileRead s l tile k f = r at ok kept
  have lay : layOf r.1 l = { layOf s l with fetch := (layOf s l).fetch.erase f } := (kept.layOf_eq l).trans (layOf_setLay _ l _)
  have straps : r.1.straps = s.straps := kept.straps.trans (setLay_straps _ _ _)
  simp only [ok, Bool.false_or, arrivedBytes_ok, leaseSeal, updLay, setLay_straps, straps, lay]

/-- An access that fails and a CRC that differs from the fetch's both count as a mismatch (R62). -/
theorem tileHeld_mismatch (bad : err = true ∨ (tileRead s l tile k f).2.1 = true ∨ leaseSeal s k tile (tileRead s l tile k f).2.2 ≠ f.2.1) :
    (tileHeld s l tile k f err).2 = true := by
  by_cases fails : (err || (tileRead s l tile k f).2.1) = true
  · exact Bool.or_eq_true_iff.mpr (.inl fails)
  · obtain ⟨rfl, ok⟩ : err = false ∧ (tileRead s l tile k f).2.1 = false := by simpa using fails
    rw [tileHeld_of_read s l tile k f ok]
    simpa [ok] using bad

end

theorem sealProof_none {s : State} {l tile : Nat} (h : s.cmp.proof = none) : sealProof s l tile = none := by
  simp only [sealProof, proofWaits, h, Option.filter_none]

section
variable {layer : Fin 1024} {tile : BitVec 16} {s : State} {k : Lease} {f : Nat × Nat × Nat}
  (lease : (layOf s layer).lease = some k) (out : ((layOf s layer).fetch.find? fun f => f.1 == tile.toNat) = some f)
  (free : accessWaits s (engineMaster s (layOf s layer).desc.canvas) = false)
include lease out free

/-- The arrival of an outstanding tile. -/
theorem execTileDataArrival_eq (err : Bool) :
    exec (.tileDataArrival layer tile err) s =
      if (layOf s layer).cut.isSome then .next (tileTaken s layer f)
      else
        let u := tileHeld s layer tile.toNat k f err
        if u.2 then .next (tileFailed u.1 layer tile.toNat k)
        else match sealProof u.1 layer tile.toNat with
          | none => .next u.1
          | some q => .next (paintCheck (updLay (injectProof u.1 q) layer fun y => { y with tileFail := true }) layer q.row) := by
  change execTileDataArrival layer tile err s = _
  unfold execTileDataArrival
  extract_lets l t x
  split
  · next k' f' hk hf =>
    obtain rfl := Option.some.inj (hk.symm.trans lease)
    obtain rfl := Option.some.inj (hf.symm.trans out)
    rw [if_neg (by rw [free]; decide)]
    rfl
  · next none_ => exact (none_ k f lease out).elim

end

/-! ### A failed slot read (R685) -/

theorem slotReadFails_tableFail (s : State) (l : Nat) : (layOf (slotReadFails s l) l).tableFail = true :=
  congrArg (·.tableFail) (layOf_setLay _ l _)

theorem slotReadFails_lease (s : State) (l : Nat) : (layOf (slotReadFails s l) l).lease = none :=
  congrArg (·.lease) (layOf_setLay _ l _)

theorem slotReadFails_mem (s : State) (l : Nat) : (slotReadFails s l).mem = s.mem := by
  unfold slotReadFails
  dsimp only
  split <;> rfl

theorem execLayerSlotRead_error {layer : Fin 1024} {s : State} (committed : (layOf s layer).committed = true)
    (sound : (layOf s layer).tableFail = false) :
    exec (.layerSlotRead layer true) s =
      .next (let u := slotReadFails s layer; if evaluable u layer then paintCheck u layer 0 else u) := by
  change execLayerSlotRead layer true s = _
  simp only [execLayerSlotRead, committed, sound, Bool.not_false, Bool.and_self, Bool.not_true, Bool.false_eq_true, if_false]

theorem execLayerSlotRead_sound (layer : Fin 1024) (s : State) : exec (.layerSlotRead layer false) s = .next s := rfl

/-! ### O15 -/

section
variable {layer : Fin 1024} {s : State} {k : Lease} (lease : (layOf s layer).lease = some k) (waits : headerWaits s layer = true)
  (free : accessWaits s (engineMaster s (layOf s layer).desc.canvas) = false)

section
variable {r : State × Bool × List Byte} (hr : readHeader s (engineMaster s (layOf s layer).desc.canvas) k = r)
include lease waits free hr

theorem recordHeaderRead_accepts (good : r.2.1 = true) (right : (layOf s layer).desc.srcX + (layOf s layer).desc.srcW ≤ leAt r.2.2 24 2)
    (bottom : (layOf s layer).desc.srcY + (layOf s layer).desc.srcH ≤ leAt r.2.2 26 2) :
    ∃ t, exec (.recordHeaderRead layer false) s = .next t ∧ (layOf t layer).hdrOk = true ∧ t.mem = s.mem ∧
      rd t F.SEAL_EVENT_HEADER_BAD = rd s F.SEAL_EVENT_HEADER_BAD := by
  subst hr
  refine ⟨_, execRecordHeaderRead_eq lease waits free false, ?_⟩
  rw [good, if_neg (by decide), if_neg (by omega)]
  exact ⟨congrArg (·.hdrOk) (layOf_setLay _ _ _), (setLay_mem _ _ _).trans (readHeader_mem _ _ _),
    (rd_regs (setLay_regs _ _ _) _ _ _).trans ((readHeader_kept _ _ _).rd_eq (by decide))⟩

theorem recordHeaderRead_crops (good : r.2.1 = true)
    (beyond : leAt r.2.2 24 2 < (layOf s layer).desc.srcX + (layOf s layer).desc.srcW ∨
      leAt r.2.2 26 2 < (layOf s layer).desc.srcY + (layOf s layer).desc.srcH) :
    ∃ t, exec (.recordHeaderRead layer false) s = .next t ∧ (layOf t layer).cropFail = true ∧ t.mem = s.mem ∧
      rd t F.CMP_CNV_EVENT_CROP_OUT (layOf s layer).desc.canvas = 1 := by
  subst hr
  refine ⟨_, execRecordHeaderRead_eq lease waits free false, ?_⟩
  rw [good, if_neg (by decide), if_pos beyond]
  have event := cropFailed_event (readHeader s (engineMaster s (layOf s layer).desc.canvas) k).1 layer
  rw [(readHeader_kept _ _ _).layOf_eq] at event
  exact ⟨cropFailed_cropFail _ _, (cropFailed_mem _ _).trans (readHeader_mem _ _ _), event⟩

theorem recordHeaderRead_fails {err : Bool} (bad : err = true ∨ r.2.1 = false) :
    ∃ t, exec (.recordHeaderRead layer err) s = .next t ∧ (layOf t layer).hdrFail = true ∧ t.mem = s.mem ∧
      rd t F.SEAL_EVENT_HEADER_BAD = 1 := by
  subst hr
  refine ⟨_, execRecordHeaderRead_eq lease waits free err, ?_⟩
  rw [if_pos (by simpa using bad)]
  exact ⟨headerFailed_hdrFail _ _ _, (headerFailed_mem _ _ _).trans (readHeader_mem _ _ _), headerFailed_event _ _ _⟩

end

variable {tile : BitVec 16} {f : Nat × Nat × Nat} (out : ((layOf s layer).fetch.find? fun f => f.1 == tile.toNat) = some f)
include lease out free

theorem tileDataArrival_discards (err : Bool) (cut : (layOf s layer).cut.isSome = true) :
    ∃ t, exec (.tileDataArrival layer tile err) s = .next t ∧ (layOf t layer).got = (layOf s layer).got ∧
      (layOf t layer).fetch = (layOf s layer).fetch.erase f ∧ rd t F.SEAL_TOTAL_TILES = rd s F.SEAL_TOTAL_TILES ∧ t.mem = s.mem := by
  refine ⟨tileTaken s layer f, ?_, congrArg (·.got) (layOf_setLay s _ _), congrArg (·.fetch) (layOf_setLay s _ _), rfl, rfl⟩
  rw [execTileDataArrival_eq lease out free, if_pos cut]

theorem tileDataArrival_holds (cut : (layOf s layer).cut = none) (proof : s.cmp.proof = none) {r : State × Bool × List Byte}
    (hr : tileRead s layer tile.toNat k f = r) (ok : r.2.1 = false) (crc : leaseSeal s k tile.toNat r.2.2 = f.2.1) :
    ∃ t, exec (.tileDataArrival layer tile false) s = .next t ∧ (layOf t layer).got = (layOf s layer).got.put tile.toNat r.2.2 ∧
      (layOf t layer).fetch = (layOf s layer).fetch.erase f ∧ rd t F.SEAL_TOTAL_TILES = rd s F.SEAL_TOTAL_TILES ∧ t.mem = s.mem := by
  subst hr
  have held := tileHeld_of_read s layer tile.toNat k f ok
  have noProof : (tileHeld s layer tile.toNat k f false).1.cmp.proof = none := (arrivedRead_kept s layer tile.toNat k f false).proof.trans proof
  refine ⟨(tileHeld s layer tile.toNat k f false).1, ?_, ?_, ?_, rd_tileHeld _ _ _ _ _ _ (by decide), tileHeld_mem _ _ _ _ _ _⟩
  · rw [execTileDataArrival_eq lease out free, if_neg (by simp [cut]), if_neg (by simp [held, crc]), sealProof_none noProof]
  · rw [held, layOf_setLay]
  · rw [held, layOf_setLay]

theorem tileDataArrival_mismatches {err : Bool} (cut : (layOf s layer).cut = none) {r : State × Bool × List Byte}
    (hr : tileRead s layer tile.toNat k f = r) (bad : err = true ∨ r.2.1 = true ∨ leaseSeal s k tile.toNat r.2.2 ≠ f.2.1) :
    ∃ t, exec (.tileDataArrival layer tile err) s = .next t ∧ rd t F.SEAL_EVENT_TILE_MISMATCH = 1 ∧
      rd t F.SEAL_TOTAL_TILES = min 0xFFFFFFFF (rd s F.SEAL_TOTAL_TILES + 1) ∧ rd t F.SEAL_LAST_TILE = tile.toNat ∧
      rd t F.SEAL_LAST_LAYER = layer ∧ rd t F.SEAL_LAST_CANVAS = (layOf s layer).desc.canvas % 32 ∧
      rd t F.SEAL_LAST_SOURCE_ID = k.frame.source % 4096 ∧ rd t F.SEAL_LAST_VALID = 1 ∧ (layOf t layer).tileFail = true ∧
      t.mem = s.mem := by
  subst hr
  have total := tileFailed_total (tileHeld s layer tile.toNat k f err).1 layer tile.toNat k
  obtain ⟨lastTile, lastLayer, lastCanvas, lastSource, valid⟩ := tileFailed_last (tileHeld s layer tile.toNat k f err).1 layer tile.toNat k
  rw [rd_tileHeld _ _ _ _ _ _ (by decide)] at total
  rw [Nat.mod_eq_of_lt tile.isLt] at lastTile
  rw [Nat.mod_eq_of_lt layer.isLt] at lastLayer
  rw [tileHeld_canvas] at lastCanvas
  refine ⟨_, ?_, tileFailed_event _ _ _ _, total, lastTile, lastLayer, lastCanvas, lastSource, valid, tileFailed_tileFail _ _ _ _,
    (tileFailed_mem _ _ _ _).trans (tileHeld_mem s layer tile.toNat k f err)⟩
  rw [execTileDataArrival_eq lease out free, if_neg (by simp [cut]), if_pos (tileHeld_mismatch s layer tile.toNat k f err bad)]

end

theorem layerSlotRead_fails {layer : Fin 1024} {s : State} (committed : (layOf s layer).committed = true)
    (sound : (layOf s layer).tableFail = false) :
    ∃ t, exec (.layerSlotRead layer true) s = .next t ∧ (layOf t layer).tableFail = true ∧ (layOf t layer).lease = none ∧ t.mem = s.mem := by
  have kept : MarksKept layer (slotReadFails s layer)
      (if evaluable (slotReadFails s layer) layer then paintCheck (slotReadFails s layer) layer 0 else slotReadFails s layer) :=
    .ite (MarksKept.refl _ _).paintCheck (.refl _ _)
  exact ⟨_, execLayerSlotRead_error committed sound, kept.tableFail.trans (slotReadFails_tableFail _ _),
    kept.lease.trans (slotReadFails_lease _ _), kept.mem.trans (slotReadFails_mem _ _)⟩

theorem tileFetchIssue_adds {layer : Fin 1024} {tile : BitVec 16} {s : State} {k : Lease} (lease : (layOf s layer).lease = some k)
    (used : (firstRowOf s layer tile.toNat).isSome = true) (fetching : fetches s layer = true)
    (held : ((layOf s layer).got.find tile.toNat).isSome = false)
    (out : ((layOf s layer).fetch.any fun f => f.1 == tile.toNat) = false)
    (free : accessWaits s (engineMaster s (layOf s layer).desc.canvas) = false) {r : State × Bool × List Byte}
    (hr : rowCrcs s layer (tile.toNat / tilesPerRow (placeOf s k).w) k = r) :
    ∃ t, exec (.tileFetchIssue layer tile) s = .next t ∧
      (layOf t layer).fetch = (layOf s layer).fetch ++ [(tile.toNat,
        if r.2.1 then 2 ^ 32 else leAt r.2.2 (4 * (tile.toNat % tilesPerRow (placeOf s k).w)) 4, fetchQos s (layOf s layer).desc.canvas)] ∧
      (layOf t layer).crcs = some (tile.toNat / tilesPerRow (placeOf s k).w, r.2) ∧ t.mem = s.mem := by
  subst hr
  obtain ⟨-, mem⟩ := rowCrcs_kept s layer (tile.toNat / tilesPerRow (placeOf s k).w) k
  exact ⟨_, execTileFetchIssue_eq lease used fetching held out free, congrArg (·.fetch) (layOf_setLay _ _ _),
    congrArg (·.crcs) (layOf_setLay _ _ _), mem⟩

/-- Settles O15: each command by its equation, and what a failed check leaves alone after its marks. -/
theorem composerChecksSeals : Obligations.ComposerChecksSeals := by
  unfold Obligations.ComposerChecksSeals
  refine ⟨?header, ?fetch, ?arrival, fun _ _ committed sound => layerSlotRead_fails committed sound, execLayerSlotRead_sound⟩
  case header =>
    intro layer err s k lease waits free
    refine ⟨?_, ?_, recordHeaderRead_fails lease waits free rfl⟩
    · rintro rfl
      exact recordHeaderRead_accepts lease waits free rfl
    · rintro rfl
      exact recordHeaderRead_crops lease waits free rfl
  case fetch =>
    intro layer tile s k lease used fetching held out free
    have adds {r : State × Bool × List Byte} := tileFetchIssue_adds lease used fetching held out free (r := r)
    exact ⟨fun _ kept same => adds (rowCrcs_of_held kept same), fun other => adds (rowCrcs_of_other other)⟩
  case arrival =>
    intro layer tile err s k f lease out free
    refine ⟨tileDataArrival_discards lease free out err, ?_, fun cut => tileDataArrival_mismatches lease free out cut rfl⟩
    rintro cut rfl ok crc proof
    exact tileDataArrival_holds lease free out cut proof rfl ok crc

end Sys2Proof.Machine
end

