-- ==== Sys2Proof/Proofs/Publication.lean ====
section
/-!
Publication (R53, R230): where the descriptor table lists a descriptor twice, a published frame need not stay CURRENT; O16 does not exclude such a table.
-/

namespace Sys2Proof.Machine

/-- A context's set with one output of pool 0's format and size. -/
def oneOutput : CtxSet := { en := true, outs := [{ on := true, format := 1, width := 16, height := 16 }] }

/-- A live job on descriptor 7, with another parent pending. -/
def liveOnSeven : Context :=
  { pipe := some oneOutput, job := some { parent := { desc := 7 }, live := true, set := oneOutput }, next := some (8, 0, true) }

/-- Descriptor 7 is being sealed; the table lists it a second time, there FREE. -/
def listedTwice : State :=
  { State.reset with
    eas := { State.reset.eas with
      sealing := [7]
      pools := [(0, { format := 1, width := 16, height := 16 })]
      descs := [(7, { bound := true, st := .filling, frame := { source := 57 } }), (7, { bound := true }), (8, { st := .filling })] }
    slu := { State.reset.slu with ctxs := [(0, liveOnSeven)] } }

/-- After its publication descriptor 7 is FILLING again: its live job ends, and the pending one takes the second, FREE entry as its output. -/
theorem framePublish_listedTwice (t : State) (h : exec (.framePublish 7) listedTwice = .next t) : (descOf t 7).st = .filling := by
  have run : (match exec (.framePublish 7) listedTwice with | .next u => (descOf u 7).st == .filling | _ => false) = true := by decide +kernel
  rw [h] at run
  exact eq_of_beq run

/-- Refutes O16: the descriptor being published need not stay CURRENT where the table lists it twice. A context's pending job, released as the
live job on the published frame ends, takes its output buffer from the second entry. -/
theorem not_publicationReservesAndCompletes : ¬ Obligations.PublicationReservesAndCompletes := by
  unfold Obligations.PublicationReservesAndCompletes
  rintro ⟨-, completes⟩
  obtain ⟨t, next, current, -⟩ := completes 7 listedTwice (by decide) (by decide) (by decide)
  exact absurd (current.symm.trans (framePublish_listedTwice t next)) (by decide)

end Sys2Proof.Machine
end

