-- ==== Sys2Proof/Proofs/PtpKept.lean ====
section
/-!
Fields that share no bit, and what the shared operations of the PTP clock do to the rest of the state: its flags (R104, R657), the fall of
LOCKED and the changes of STATE (R251, R683).
-/

namespace Sys2Proof.Machine

/-! ### Fields that share no bit -/

/-- Two fields of registers that stand once share no bit: their registers stand apart, or one is above the other. -/
def Fld.apart (f g : Fld) : Bool :=
  f.reg.addr 0 0 != g.reg.addr 0 0 || (f.reg == g.reg && decide (f.lo + f.w ≤ 64) && decide (f.lo + f.w ≤ g.lo ∨ g.lo + g.w ≤ f.lo))

theorem rd_wr0_apart (s : State) {f g : Fld} (v : Nat) (h : f.apart g = true) : rd (wr0 s g v) f = rd s f := by
  simp only [Fld.apart, Bool.or_eq_true, Bool.and_eq_true, bne_iff_ne, beq_iff_eq, decide_eq_true_eq] at h
  rcases h with other | ⟨⟨same, fits⟩, apart⟩
  · exact rd_wr_reg _ _ _ _ _ _ _ _ other
  · exact rd_wr_field _ _ _ _ _ _ same fits apart

/-- A field of a register that stands once, read after it is set to a value that fits. -/
theorem rd_wr0_same (s : State) (f : Fld) {v : Nat} (hv : v < 2 ^ f.w) (hf : f.lo + f.w ≤ 64 := by decide) : rd (wr0 s f v) f = v := by
  rw [wr0_eq, rd_wr_same _ _ _ _ _ hf, Nat.mod_eq_of_lt hv]

theorem rd_raise_apart (s : State) {f : Fld} {k : Flag} (hfld : f.apart k.fld = true) (hcnt : f.apart k.cnt = true) :
    rd (raise s k) f = rd s f := (rd_wr0_apart (wr0 s k.fld 1) _ hcnt).trans (rd_wr0_apart s _ hfld)

/-- A field shares no bit with those of a list, and no signal writes its register (R422). -/
def Fld.beside (l : List Fld) (f : Fld) : Bool := decide (besideDram (f.reg.addr 0 0)) && l.all f.apart

theorem Fld.beside_spec {l : List Fld} {f : Fld} (h : f.beside l = true) : besideDram (f.reg.addr 0 0) ∧ ∀ g ∈ l, f.apart g = true := by
  simpa only [Fld.beside, Bool.and_eq_true, decide_eq_true_eq, List.all_eq_true] using h

theorem Fld.beside_mono {l l' : List Fld} {f : Fld} (h : f.beside l = true) (sub : l' ⊆ l) : f.beside l' = true := by
  obtain ⟨quiet, apart⟩ := Fld.beside_spec h
  simpa only [Fld.beside, Bool.and_eq_true, decide_eq_true_eq, List.all_eq_true] using And.intro quiet fun g hg => apart g (sub hg)

/-! ### Signals and the flags of PTP_EVENT (R104, R422, R657) -/

theorem signal_eq (s : State) (ev : Nat) : signal s ev =
    { s with regs := (signal s ev).regs, seqs := (signal s ev).seqs, fab := (signal s ev).fab } := by
  unfold signal
  refine each_keeps (fun t => t = { s with regs := t.regs, seqs := t.seqs, fab := t.fab }) _ _ (fun t n _ ht => ?_) s rfl
  rcases signalTo_cases t n ev with e | e | e <;> rw [e]
  · exact ht
  · obtain ⟨regs, pba, raised⟩ := raise_eq t K.SEQ_EVENT_EV_OVERFLOW n
    rw [raised, ht]
  · rw [ht]; rfl

section
variable (s : State) (k : Flag)

theorem raisePtp_eq : raisePtp s k =
    { s with regs := (raisePtp s k).regs, seqs := (raisePtp s k).seqs, fab := (raisePtp s k).fab } := by
  rw [raisePtp, signal_eq]
  rfl

@[simp] theorem raisePtp_time : (raisePtp s k).time = s.time := by rw [raisePtp_eq]
@[simp] theorem raisePtp_mem : (raisePtp s k).mem = s.mem := by rw [raisePtp_eq]
@[simp] theorem raisePtp_ptp : (raisePtp s k).ptp = s.ptp := by rw [raisePtp_eq]
@[simp] theorem raisePtp_jnl : (raisePtp s k).jnl = s.jnl := by rw [raisePtp_eq]

variable {k}

/-- A field beside the flag and its count keeps its value. -/
theorem rd_raisePtp {f : Fld} (h : f.beside [k.fld, k.cnt] = true) : rd (raisePtp s k) f = rd s f := by
  obtain ⟨quiet, apart⟩ := Fld.beside_spec h
  rw [raisePtp, (signal_kept _ _).rd_eq quiet, rd_raise_apart _ (apart _ (by simp)) (apart _ (by simp))]

/-- A flag of PTP_EVENT that is raised reads 1. -/
theorem rd_raisePtp_flag (hw : k.fld.w = 1) (hlo : k.fld.lo < 64) (h : k.fld.beside [k.cnt] = true) :
    rd (raisePtp s k) k.fld = 1 := by
  obtain ⟨quiet, apart⟩ := Fld.beside_spec h
  rw [raisePtp, (signal_kept _ _).rd_eq quiet]
  refine (rd_wr0_apart (wr0 s k.fld 1) _ (apart _ (by simp))).trans (rd_wr0_same _ _ ?_ (by omega))
  rw [hw]
  decide

end

/-! ### The fall of LOCKED, and STATE (R251, R683) -/

/-- What the fall of LOCKED writes: the bit, and LOCK_LOST with its count. -/
abbrev lockFields : List Fld := [F.PTP_STATE_LOCKED, F.PTP_EVENT_LOCK_LOST, F.PTP_EVENT_CNT_LOST_CNT]

/-- What a change of STATE writes. -/
abbrev stateFields : List Fld := F.PTP_STATE_STATE :: lockFields

section
variable (s : State) (st : Nat) (flag : Bool)

/-- LOCKED cleared, and the pending commits marked, before the flag. -/
theorem dropLock_cases : (rd s F.PTP_STATE_LOCKED = 0 ∧ dropLock s flag = s) ∨ (rd s F.PTP_STATE_LOCKED ≠ 0 ∧
    ∃ gals, let t := wr0 { s with eas := { s.eas with gals := gals } } F.PTP_STATE_LOCKED 0
      dropLock s flag = if flag then raisePtp t K.PTP_EVENT_LOCK_LOST else t) := by
  unfold dropLock
  split
  · next h => exact .inl ⟨by simpa [rdb] using h, rfl⟩
  · next h => exact .inr ⟨by simpa [rdb] using h, _, rfl⟩

theorem dropLock_eq : dropLock s flag = { s with
    regs := (dropLock s flag).regs, seqs := (dropLock s flag).seqs, eas := (dropLock s flag).eas, fab := (dropLock s flag).fab } := by
  rcases dropLock_cases s flag with ⟨-, e⟩ | ⟨-, gals, e⟩ <;> rw [e]
  split
  · rw [raisePtp_eq]; rfl
  · rfl

theorem rd_dropLock {f : Fld} (h : f.beside lockFields = true) : rd (dropLock s flag) f = rd s f := by
  obtain ⟨-, apart⟩ := Fld.beside_spec h
  have cleared (t : State) : rd (wr0 t F.PTP_STATE_LOCKED 0) f = rd t f := rd_wr0_apart t 0 (apart _ (by simp))
  rcases dropLock_cases s flag with ⟨-, e⟩ | ⟨-, gals, e⟩ <;> rw [e]
  split
  · rw [rd_raisePtp _ (Fld.beside_mono h (by simp [K.PTP_EVENT_LOCK_LOST, F.PTP_EVENT_LOCK_LOST, F.PTP_EVENT_CNT_LOST_CNT])), cleared]; rfl
  · rw [cleared]; rfl

theorem rd_dropLock_locked : rd (dropLock s flag) F.PTP_STATE_LOCKED = 0 := by
  have cleared (t : State) : rd (wr0 t F.PTP_STATE_LOCKED 0) F.PTP_STATE_LOCKED = 0 := rd_wr0_same t _ (by decide)
  rcases dropLock_cases s flag with ⟨off, e⟩ | ⟨-, gals, e⟩ <;> rw [e]
  · exact off
  · split
    · rw [rd_raisePtp _ (by decide), cleared]
    · exact cleared _

/-- A fall of LOCKED that R683 flags raises LOCK_LOST. -/
theorem rd_dropLock_lost (on : rd s F.PTP_STATE_LOCKED = 1) : rd (dropLock s true) F.PTP_EVENT_LOCK_LOST = 1 := by
  rcases dropLock_cases s true with ⟨off, -⟩ | ⟨-, gals, e⟩
  · omega
  · rw [e]
    exact rd_raisePtp_flag _ rfl (by decide) (by decide)

theorem setPtpState_eq : setPtpState s st flag = { s with
    regs := (setPtpState s st flag).regs, seqs := (setPtpState s st flag).seqs, eas := (setPtpState s st flag).eas,
    fab := (setPtpState s st flag).fab } := by
  unfold setPtpState
  split
  · rfl
  · rw [dropLock_eq]; rfl

@[simp] theorem setPtpState_time : (setPtpState s st flag).time = s.time := by rw [setPtpState_eq]
@[simp] theorem setPtpState_mem : (setPtpState s st flag).mem = s.mem := by rw [setPtpState_eq]
@[simp] theorem setPtpState_ptp : (setPtpState s st flag).ptp = s.ptp := by rw [setPtpState_eq]
@[simp] theorem setPtpState_jnl : (setPtpState s st flag).jnl = s.jnl := by rw [setPtpState_eq]

theorem rd_setPtpState {f : Fld} (h : f.beside stateFields = true) : rd (setPtpState s st flag) f = rd s f := by
  obtain ⟨-, apart⟩ := Fld.beside_spec h
  rw [setPtpState, rd_wr0_apart _ _ (apart _ (by simp))]
  split
  · rfl
  · exact rd_dropLock s flag (Fld.beside_mono h (List.subset_cons_self _ _))

theorem rd_setPtpState_state (h : st < 8) : rd (setPtpState s st flag) F.PTP_STATE_STATE = st := rd_wr0_same _ _ h

variable {st}

/-- Outside SLAVE LOCKED is 0 (R683). -/
theorem rd_setPtpState_locked (h : st ≠ ptpSlave) : rd (setPtpState s st flag) F.PTP_STATE_LOCKED = 0 := by
  rw [setPtpState, if_neg h, rd_wr0_apart _ _ (by decide), rd_dropLock_locked]

theorem rd_setPtpState_lost (h : st ≠ ptpSlave) (on : rd s F.PTP_STATE_LOCKED = 1) :
    rd (setPtpState s st true) F.PTP_EVENT_LOCK_LOST = 1 := by
  rw [setPtpState, if_neg h, rd_wr0_apart _ _ (by decide), rd_dropLock_lost s on]

end

end Sys2Proof.Machine
end

