-- ==== Sys2Proof/Proofs/PtpOffset.lean ====
section
/-!
Offset samples of the PTP clock: the step, the discard and the servo (R81, R87 to R90, R683).
-/

namespace Sys2Proof.Machine

theorem unsignedOf_lt (w : Nat) (x : Int) : unsignedOf w x < 2 ^ w := by
  have range : (0 : Int) < (2 ^ w : Nat) := by exact_mod_cast Nat.two_pow_pos w
  have := Int.emod_nonneg x (Int.ne_of_gt range)
  have := Int.emod_lt_of_pos x range
  unfold unsignedOf
  omega

/-! ### What a discard, and the judgement of a sample against the lock band, leave alone -/

/-- What they write: STATE and LOCKED, and the flags LOCK_LOST and STEP_REFUSED with their counts. -/
abbrev sampleFields : List Fld := F.PTP_EVENT_STEP_REFUSED :: F.PTP_EVENT_CNT_REFUSED_CNT :: stateFields

/-- From `s` to `t` the clock, DRAM, integ and the fields beside those of `sampleFields` stay. -/
structure SampleKept (s t : State) : Prop where
  time : t.time = s.time
  mem : t.mem = s.mem
  integ : t.ptp.integ = s.ptp.integ
  rd_eq : ∀ {f}, f.beside sampleFields = true → rd t f = rd s f

section
variable {s₀ s t : State}

protected theorem SampleKept.refl (s : State) : SampleKept s s := ⟨rfl, rfl, rfl, fun _ => rfl⟩

protected theorem SampleKept.ite {p : Prop} {_ : Decidable p} (hs : SampleKept s₀ s) (ht : SampleKept s₀ t) :
    SampleKept s₀ (if p then s else t) := by
  split
  · exact hs
  · exact ht

/-- The port's hidden state changed beside integ. -/
protected theorem SampleKept.updPtp {f : Ptp → Ptp} (h : SampleKept s₀ s) (hf : (f s.ptp).integ = s.ptp.integ := by rfl) :
    SampleKept s₀ (updPtp s f) := { h with integ := hf.trans h.integ }

protected theorem SampleKept.askJournal {rank ty p} (h : SampleKept s₀ s) : SampleKept s₀ (askJournal s rank ty p) := { h with }

protected theorem SampleKept.wr0 {g v} (h : SampleKept s₀ s) (hg : g ∈ sampleFields := by decide) : SampleKept s₀ (wr0 s g v) where
  time := h.time
  mem := h.mem
  integ := h.integ
  rd_eq hf := (rd_wr0_apart s v ((Fld.beside_spec hf).2 g hg)).trans (h.rd_eq hf)

protected theorem SampleKept.raisePtp {k} (h : SampleKept s₀ s) (hk : [k.fld, k.cnt] ⊆ sampleFields := by decide) :
    SampleKept s₀ (raisePtp s k) where
  time := by rw [raisePtp_time, h.time]
  mem := by rw [raisePtp_mem, h.mem]
  integ := by rw [raisePtp_ptp, h.integ]
  rd_eq hf := by rw [rd_raisePtp s (Fld.beside_mono hf hk), h.rd_eq hf]

protected theorem SampleKept.setPtpState {st flag} (h : SampleKept s₀ s) : SampleKept s₀ (setPtpState s st flag) where
  time := by rw [setPtpState_time, h.time]
  mem := by rw [setPtpState_mem, h.mem]
  integ := by rw [setPtpState_ptp, h.integ]
  rd_eq hf := by rw [rd_setPtpState s st flag (Fld.beside_mono hf (by decide)), h.rd_eq hf]

protected theorem SampleKept.outOfBand (h : SampleKept s₀ s) : SampleKept s₀ (outOfBand s) := .ite h.updPtp.setPtpState h.updPtp

end

theorem discardSample_kept (s : State) (o : Int) : SampleKept (countUp s F.PTP_EVENT_CNT_DISCARD_CNT) (discardSample s o) :=
  have counted := (SampleKept.refl (countUp s F.PTP_EVENT_CNT_DISCARD_CNT)).outOfBand.updPtp
  .ite counted counted.setPtpState.updPtp.raisePtp.askJournal

theorem feedSample_kept (s : State) (o t : Int) :
    SampleKept (servo (updPtp s fun p => { p with discards := 0 }) o t) (feedSample s o t) :=
  have fed := SampleKept.refl (servo (updPtp s fun p => { p with discards := 0 }) o t)
  have locking : SampleKept _ _ := .ite fed.setPtpState fed
  .ite (.ite locking.updPtp.setPtpState.wr0 locking.updPtp) locking.outOfBand

/-- An event count of the PTP clock reads one more, up to 255 (R22). -/
theorem rd_countUp (s : State) (f : Fld) (hw : f.w = 8) (hf : f.lo + f.w ≤ 64 := by decide) :
    rd (countUp s f) f = min 255 (rd s f + 1) := by
  refine rd_wr0_same s f ?_ hf
  rw [hw]
  omega

theorem rd_countUp_apart (s : State) {f g : Fld} (h : f.apart g = true) : rd (countUp s g) f = rd s f := rd_wr0_apart s _ h

/-- integ after the servo (R88). -/
def nextInteg (s : State) (o k : Int) : Int := clampI (-549755813) 549755813 (s.ptp.integ + rateErr o k / 64)

/-- ADJ after the servo (R88). -/
def nextAdj (s : State) (o k : Int) : Int := clampI (-549755813) 549755813 (nextInteg s o k + rateErr o k / 4)

theorem servo_integ (s : State) (o k : Int) : (servo s o k).ptp.integ = nextInteg s o k := rfl

theorem servo_adj (s : State) (o k : Int) : rd (servo s o k) F.PTP_RATE_ADJ = unsignedOf 32 (nextAdj s o k) :=
  rd_wr0_same _ _ (unsignedOf_lt 32 _)

theorem rd_servo_apart (s : State) (o k : Int) {f : Fld} (h : f.apart F.PTP_RATE_ADJ = true) : rd (servo s o k) f = rd s f :=
  rd_wr0_apart _ _ h

/-! ### The step (R87) -/

section
variable (s : State) (o : Int)

theorem stepClock_time : (stepClock s o).time.ptp = ((s.time.ptp : Int) - o * (ptpUnit : Nat)).toNat % ptpEnd := by
  simp [stepClock, updPtp]

theorem stepClock_relock : (stepClock s o).ptp.relock = false := by simp [stepClock, updPtp]

theorem stepClock_mem : (stepClock s o).mem = s.mem := by simp [stepClock, updPtp]

theorem stepClock_asked : (stepClock s o).jnl.asked.map (·.ty) = s.jnl.asked.map (·.ty) ++ [0x0020] := by
  simp [stepClock, askJournal, updPtp]

theorem stepClock_stepped : rd (stepClock s o) F.PTP_STATE_STEPPED = 1 := rd_wr0_same _ _ (by decide)

theorem stepClock_state : rd (stepClock s o) F.PTP_STATE_STATE = ptpUncalibrated :=
  (rd_wr0_apart _ _ (by decide)).trans (rd_setPtpState_state _ _ _ (by decide))

theorem stepClock_locked : rd (stepClock s o) F.PTP_STATE_LOCKED = 0 :=
  (rd_wr0_apart _ _ (by decide)).trans (rd_setPtpState_locked _ _ (by decide))

theorem rd_stepClock {f : Fld} (h : f.beside (F.PTP_STATE_STEPPED :: stateFields) = true) : rd (stepClock s o) f = rd s f :=
  (rd_wr0_apart _ _ ((Fld.beside_spec h).2 _ List.mem_cons_self)).trans
    (rd_setPtpState _ _ _ (Fld.beside_mono h (List.subset_cons_self _ _)))

end

/-! ### A sample: step, discard or servo (R87 to R90) -/

/-- PTP_OFFSET as a sample writes it. -/
def offsetValue (o : Int) : Nat := unsignedOf 32 (clampI (-2147483648) 2147483647 o)

/-- A complete Sync is kept for the path delay, and its sample written. -/
def withSample (s : State) (t1 t2 o : Int) : State :=
  wr0 (updPtp s fun p => { p with sync := some (t1, t2), half := none }) F.PTP_OFFSET_OFFSET (offsetValue o)

section
variable (s : State) (t1 t2 o : Int)

theorem rd_withSample : rd (withSample s t1 t2 o) F.PTP_OFFSET_OFFSET = offsetValue o := rd_wr0_same _ _ (unsignedOf_lt 32 _)

theorem rd_withSample_apart {f : Fld} (h : f.apart F.PTP_OFFSET_OFFSET = true) : rd (withSample s t1 t2 o) f = rd s f :=
  (rd_wr0_apart _ _ h).trans (rd_regs rfl f 0 0)

variable {s t1 t2 o} {d : Int} (path : s.ptp.path = some d) (ho : t2 - t1 - d = o) (k : Int)
include path ho

/-- What becomes of the sample of a complete Sync: none of the choices reads what has been written of it. -/
theorem syncDone_eq : syncDone s t1 t2 k =
    let u := withSample s t1 t2 o
    if s.ptp.relock = true ∨ rd s F.PTP_STATE_STEPPED = 0 then stepClock u o
    else if rd s F.PTP_STATE_STATE = ptpHoldover ∧ s.ptp.byAnnounce = true then u
    else if rd s F.PTP_SERVO_STEP_THRESH_US * 1000 < o.natAbs then discardSample u o
    else feedSample u o k := by
  have same {f : Fld} (h : f.apart F.PTP_OFFSET_OFFSET = true) := rd_withSample_apart s t1 t2 o h
  have taken : syncDone s t1 t2 k = takeSample (updPtp s fun p => { p with sync := some (t1, t2), half := none }) o k := by
    simp only [syncDone, updPtp, path, ho]
  have steps : ((withSample s t1 t2 o).ptp.relock || !rdb (withSample s t1 t2 o) F.PTP_STATE_STEPPED) = true ↔
      s.ptp.relock = true ∨ rd s F.PTP_STATE_STEPPED = 0 := by
    rw [rdb, same (by decide)]
    simp [withSample, updPtp]
  have beyond : beyondStep (withSample s t1 t2 o) o = true ↔ rd s F.PTP_SERVO_STEP_THRESH_US * 1000 < o.natAbs := by
    rw [beyondStep, same (by decide), decide_eq_true_eq]
  rw [taken, ← same (f := F.PTP_STATE_STATE) (by decide)]
  exact if_congr steps rfl (if_congr Iff.rfl rfl (if_congr beyond rfl rfl))

theorem syncDone_steps (h : s.ptp.relock = true ∨ rd s F.PTP_STATE_STEPPED = 0) :
    syncDone s t1 t2 k = stepClock (withSample s t1 t2 o) o := by
  rw [syncDone_eq path ho, if_pos h]

/-- Without a step, and outside HOLDOVER, the threshold decides. -/
theorem syncDone_of_stepped (relock : s.ptp.relock = false) (stepped : rd s F.PTP_STATE_STEPPED = 1) (state : rd s F.PTP_STATE_STATE ≠ 4) :
    syncDone s t1 t2 k =
      let u := withSample s t1 t2 o
      if rd s F.PTP_SERVO_STEP_THRESH_US * 1000 < o.natAbs then discardSample u o else feedSample u o k := by
  rw [syncDone_eq path ho, if_neg (by simp [relock, stepped]), if_neg fun holdover => state holdover.1]

end

/-! ### Messages (R81, R82, R83, R88) -/

/-- A message that comes to the bound port by the clock's transport and in its domain reaches the clock. -/
theorem reachesClock_of {s : State} {port : Fin 16} {transport : BitVec 2} {domain : BitVec 8} (en : rd s F.PTP_CTRL_EN = 1)
    (bound : rd s F.PTP_STATE_PORT_ACTIVE = port) (dom : rd s F.PTP_CTRL_DOMAIN = domain.toNat)
    (tran : rd s F.PTP_CTRL_TRANSPORT = transport.toNat) : reachesClock s port transport domain = true := by
  simp [reachesClock, ptpOn, rdb, en, bound, dom, tran]

section
variable {port : Fin 16} {msg : SyncMsg} {s : State} (reaches : reachesClock s port msg.transport msg.domain = true)
  (parent : s.ptp.parent = some msg.sender)
include reaches parent

theorem execOffsetSample_range (range : msg.logInterval.toInt < -7 ∨ 1 < msg.logInterval.toInt) :
    exec (.offsetSample port msg) s = .next (countUp s F.PTP_EVENT_CNT_DISCARD_CNT) :=
  (if_neg (by simp [reaches, parent])).trans (if_pos range)

variable (lo : -7 ≤ msg.logInterval.toInt) (hi : msg.logInterval.toInt ≤ 1)
include lo hi

/-- A two-step Sync waits for its Follow_Up. -/
theorem execOffsetSample_waits (sync : msg.followUp = false) (twoStep : msg.twoStep = true) : exec (.offsetSample port msg) s =
    .next (updPtp s fun p => { p with half := some (msg.seq.toNat, (netNs s : Nat), msg.correction, msg.logInterval.toInt) }) := by
  change execOffsetSample port msg s = _
  rw [execOffsetSample, if_neg (by simp [reaches, parent]), if_neg (by omega), if_neg (by simp [sync]), if_pos twoStep]

/-- A one-step Sync is complete, and so is the two-step one that waits for the Follow_Up. -/
theorem execOffsetSample_complete {t1 t2 k : Int}
    (form : (msg.followUp = false ∧ msg.twoStep = false ∧ t1 = msg.origin + msg.correction ∧ t2 = (netNs s : Nat) ∧ k = msg.logInterval.toInt) ∨
      (msg.followUp = true ∧ ∃ c, s.ptp.half = some (msg.seq.toNat, t2, c, k) ∧ t1 = msg.origin + msg.correction + c)) :
    exec (.offsetSample port msg) s = .next (syncDone s t1 t2 k) := by
  change execOffsetSample port msg s = _
  rw [execOffsetSample, if_neg (by simp [reaches, parent]), if_neg (by omega)]
  rcases form with ⟨sync, oneStep, rfl, rfl, rfl⟩ | ⟨followUp, c, half, rfl⟩
  · rw [if_neg (by simp [sync]), if_neg (by simp [oneStep])]
  · rw [if_pos followUp, half]
    exact congrArg _ (if_pos rfl)

end

/-! ### The statement -/

/-- Settles O22: a sample steps the clock, is discarded or feeds the servo; what else a discard or the servo may do to STATE, LOCKED and
their flags leaves the clock, integ and the other fields alone. -/
theorem ptpOffsetSamples : Obligations.PtpOffsetSamples := by
  unfold Obligations.PtpOffsetSamples
  intro port msg s en bound dom tran parent
  have reaches := reachesClock_of en bound dom tran
  refine ⟨fun range => ?range, fun lo hi sync twoStep => ?waits, fun d t1 t2 k lo hi path form => ?sample⟩
  case range => exact ⟨_, execOffsetSample_range reaches parent range, rd_countUp s _ rfl, rfl⟩
  case waits => exact execOffsetSample_waits reaches parent lo hi sync twoStep
  case sample =>
    have answer := execOffsetSample_complete reaches parent lo hi form
    intro o e i
    have offset := rd_withSample s t1 t2 o
    have same {f : Fld} (h : f.apart F.PTP_OFFSET_OFFSET = true) := rd_withSample_apart s t1 t2 o h
    refine ⟨fun step => ?step, fun relock stepped state => ?judged⟩
    case step =>
      rw [syncDone_steps path rfl k step] at answer
      refine ⟨_, answer, stepClock_time _ _, ?_, ?_, stepClock_state _ _, stepClock_locked _ _, stepClock_stepped _ _,
        stepClock_relock _ _, stepClock_mem _ _, stepClock_asked _ _⟩
      · rw [rd_stepClock _ _ (by decide), offset, offsetValue]
      · rw [rd_stepClock _ _ (by decide), same (by decide)]
    case judged =>
      rw [syncDone_of_stepped path rfl k relock stepped state] at answer
      refine ⟨fun beyond => ?discard, fun within => ?servo⟩
      case discard =>
        rw [if_pos beyond] at answer
        have kept := discardSample_kept (withSample s t1 t2 o) o
        refine ⟨_, answer, kept.time, ?_, ?_, ?_, kept.mem⟩
        · rw [kept.rd_eq (by decide), rd_countUp_apart _ (by decide), offset, offsetValue]
        · rw [kept.rd_eq (by decide), rd_countUp_apart _ (by decide), same (by decide)]
        · rw [kept.rd_eq (by decide), rd_countUp _ _ rfl, same (by decide)]
      case servo =>
        rw [if_neg (Nat.not_lt.2 within)] at answer
        have kept := feedSample_kept (withSample s t1 t2 o) o k
        refine ⟨_, answer, kept.time, kept.integ, ?_, ?_, kept.mem⟩
        · rw [kept.rd_eq (by decide), rd_servo_apart _ _ _ (by decide)]
          exact offset
        · rw [kept.rd_eq (by decide)]
          exact servo_adj _ _ _

end Sys2Proof.Machine
end

