-- ==== Sys2Proof/Proofs/PtpPort.lean ====
section
/-!
The PTP port: writes of PTP_CTRL, the snapshot, and the Delay_Req exchange (R81, R82, R83, R88, R97, R102).
-/

namespace Sys2Proof.Machine

/-! ### CAPTURE (R97) -/

theorem captureClock_eq (s : State) : captureClock s = { s with regs := (captureClock s).regs } := rfl

theorem captureClock_frame (s : State) :
    sameRegsBut s (captureClock s) [R.PTP_SNAP_SEC.base, R.PTP_SNAP_NS.base, R.PTP_SNAP_SHORT.base] := fun a ha => by
  simp only [List.mem_cons, List.not_mem_nil, or_false, not_or] at ha
  obtain ⟨sec, ns, short⟩ := ha
  exact (Map.find_put_ne _ _ short).trans ((Map.find_put_ne _ _ ns).trans (Map.find_put_ne _ _ sec))

theorem captureClock_sec (s : State) : rd (captureClock s) F.PTP_SNAP_SEC_SEC = netNs s / 1000000000 % 2 ^ 48 :=
  (rd_wr0_apart _ _ (by decide)).trans <| (rd_wr0_apart _ _ (by decide)).trans <| rd_wr_same _ _ _ _ _ (by decide)

theorem captureClock_ns (s : State) : rd (captureClock s) F.PTP_SNAP_NS_NS = netNs s % 1000000000 :=
  (rd_wr0_apart _ _ (by decide)).trans (rd_wr0_same _ _ (Nat.lt_trans (Nat.mod_lt _ (by decide)) (by decide)))

theorem captureClock_short (s : State) : rd (captureClock s) F.PTP_SNAP_SHORT_SHORT = netNs s % 2 ^ 32 :=
  rd_wr0_same _ _ (Nat.mod_lt _ (by decide))

/-- A field of another register than the snapshot's, after a write that may capture. -/
theorem rd_also_capture (s : State) (b : Bool) {f : Fld}
    (h : f.reg.addr 0 0 ∉ [R.PTP_SNAP_SEC.base, R.PTP_SNAP_NS.base, R.PTP_SNAP_SHORT.base]) : rd (also b captureClock s) f = rd s f := by
  cases b
  · rfl
  · simp only [also_true, rd, rdReg, Map.get, captureClock_frame s _ h]

theorem also_capture_time (s : State) (b : Bool) : (also b captureClock s).time = s.time := by cases b <;> rfl

/-! ### PTP_CTRL (R82, R90, R102) -/

/-- PTP_CTRL after a write of all its bytes. -/
def ctrlValue (s : State) (v : BitVec 32) : Nat := regAfter s R.PTP_CTRL 0 0 v.toNat (2 ^ 32 - 1)

/-- PTP_CTRL written and the port bound, before the port is started or disabled. -/
def ctrlWritten (s : State) (v : BitVec 32) : State :=
  if slice (rdReg s R.PTP_CTRL) 4 4 ≠ slice (ctrlValue s v) 4 4 ∨ !bitOn (ctrlValue s v) 12 then
    wr0 (wrReg s R.PTP_CTRL 0 0 (ctrlValue s v)) F.PTP_STATE_PORT_ACTIVE (slice (ctrlValue s v) 4 4)
  else wrReg s R.PTP_CTRL 0 0 (ctrlValue s v)

section
variable (s : State) (v : BitVec 32)

theorem ctrlWritten_time : (ctrlWritten s v).time = s.time := by
  unfold ctrlWritten
  split <;> rfl

theorem rd_ctrlWritten_apart {f : Fld} (port : f.apart F.PTP_STATE_PORT_ACTIVE = true) :
    rd (ctrlWritten s v) f = rd (wrReg s R.PTP_CTRL 0 0 (ctrlValue s v)) f := by
  unfold ctrlWritten
  split
  · exact rd_wr0_apart _ _ port
  · rfl

theorem rd_ctrlWritten {f : Fld} (ctrl : f.reg.addr 0 0 ≠ R.PTP_CTRL.addr 0 0) (port : f.apart F.PTP_STATE_PORT_ACTIVE = true) :
    rd (ctrlWritten s v) f = rd s f := by
  rw [rd_ctrlWritten_apart s v port, rd, rdReg_wrReg_ne _ _ _ _ _ _ _ _ ctrl, rd]

/-- EN takes the bit that is written. -/
theorem slice_ctrlValue_en : slice (ctrlValue s v) 0 1 = slice v.toNat 0 1 := by
  obtain ⟨below, -⟩ := Reg.fieldsFit_spec (show R.PTP_CTRL.fieldsFit = true by decide)
  have field := slice_foldl_setBits (fieldAfter (rdReg s R.PTP_CTRL) v.toNat (2 ^ 32 - 1) (lockedReg s R.PTP_CTRL 0 0)) R.PTP_CTRL.fields
    (rdReg s R.PTP_CTRL) below ⟨0, 1, .rw, 0, 1⟩ (by decide)
  rw [ctrlValue, regAfter, show R.PTP_CTRL.align = 0 from rfl, Nat.and_zero, if_neg (by simp)]
  refine field.trans ?_
  rw [Nat.mod_eq_of_lt (fieldAfter_lt _ _ _ _ _), ← Nat.mod_eq_of_lt v.isLt, fieldAfter_rw (by decide) (.inl rfl),
    Nat.mod_eq_of_lt v.isLt, if_pos ⟨Nat.zero_le _, Nat.le_of_lt_succ (slice_lt _ _ _)⟩]

theorem bitOn_eq_slice (x i : Nat) : bitOn x i = (slice x i 1 == 1) := rfl

theorem bitOn_ctrlValue_en : bitOn (ctrlValue s v) 0 = v.toNat.testBit 0 := by
  rw [bitOn_eq_slice, slice_ctrlValue_en, ← bitOn_eq_slice, bitOn_eq_testBit]

theorem rd_ctrlWritten_en (on : v.toNat.testBit 0 = true) : rd (ctrlWritten s v) F.PTP_CTRL_EN = 1 := by
  rw [← bitOn_eq_testBit, bitOn_eq_slice, beq_iff_eq] at on
  rw [rd_ctrlWritten_apart s v (by decide), rd, show F.PTP_CTRL_EN = ⟨R.PTP_CTRL, 0, 1⟩ from rfl, rdReg_wrReg_same,
    slice_mod_word _ _ _ (by decide), slice_ctrlValue_en, on]

theorem bitOn_written (i : Nat) : bitOn (v.toNat &&& (2 ^ 32 - 1)) i = v.toNat.testBit i := by
  rw [Nat.and_two_pow_sub_one_of_lt_two_pow v.isLt, bitOn_eq_testBit]

variable {s v} (unarmed : v.toNat.testBit 21 = false)
include unarmed

theorem execPtpCtrlWrite_disable (off : v.toNat.testBit 0 = false) : exec (.ptpCtrlWrite v) s =
    .next (also (v.toNat.testBit 22) captureClock
      (setPtpState (updPtp (ctrlWritten s v) fun p => { p with byAnnounce := false }) ptpDisabled false)) := by
  change Host.Outcome.next (writePtpCtrl s v.toNat (2 ^ 32 - 1)) = _
  rw [writePtpCtrl, bitOn_written, bitOn_written, unarmed, also_false, if_pos (by rw [← ctrlValue, bitOn_ctrlValue_en, off]; rfl)]
  rfl

theorem execPtpCtrlWrite_enable (on : v.toNat.testBit 0 = true) (was : rd s F.PTP_CTRL_EN = 0) : exec (.ptpCtrlWrite v) s =
    .next (also (v.toNat.testBit 22) captureClock (restartPtp (ctrlWritten s v))) := by
  have stopped : bitOn (rdReg s R.PTP_CTRL) 0 = false := by
    rw [bitOn_eq_slice]
    exact beq_eq_false_iff_ne.2 (by rw [show slice (rdReg s R.PTP_CTRL) 0 1 = 0 from was]; decide)
  change Host.Outcome.next (writePtpCtrl s v.toNat (2 ^ 32 - 1)) = _
  rw [writePtpCtrl, bitOn_written, bitOn_written, unarmed, also_false, if_neg (by rw [← ctrlValue, bitOn_ctrlValue_en, on]; decide),
    if_pos (by rw [stopped]; rfl)]
  rfl

end

/-- What the port holds of its masters when it starts. -/
def restarted (p : Ptp) : Ptp :=
  { freshRuns p with path := none, req := none, sync := none, half := none, byAnnounce := false, masters := [], parent := none }

theorem rd_updPtp (s : State) (f : Ptp → Ptp) (g : Fld) : rd (updPtp s f) g = rd s g := rd_regs rfl g 0 0

/-- A change of STATE outside SLAVE at a write of PTP_CTRL, with the capture that the same write may ask for. -/
theorem stateSet_effect (s : State) (f : Ptp → Ptp) {st : Nat} (range : st < 8) (slave : st ≠ ptpSlave) (b : Bool) :
    let t := also b captureClock (setPtpState (updPtp s f) st false)
    rd t F.PTP_STATE_STATE = st ∧ rd t F.PTP_STATE_LOCKED = 0 ∧ t.time = s.time ∧ rd t F.PTP_CTRL_EN = rd s F.PTP_CTRL_EN ∧
      rd t F.PTP_RATE_ADJ = rd s F.PTP_RATE_ADJ := by
  refine ⟨?_, ?_, ?_, ?_, ?_⟩
  · rw [rd_also_capture _ _ (by decide), rd_setPtpState_state _ _ _ range]
  · rw [rd_also_capture _ _ (by decide), rd_setPtpState_locked _ _ slave]
  · rw [also_capture_time, setPtpState_time, updPtp]
  · rw [rd_also_capture _ _ (by decide), rd_setPtpState _ _ _ (by decide), rd_updPtp]
  · rw [rd_also_capture _ _ (by decide), rd_setPtpState _ _ _ (by decide), rd_updPtp]

/-! ### Path delay (R81, R83, R88) -/

theorem execDelayReqSend_eq {s : State} (en : rd s F.PTP_CTRL_EN = 1) :
    let port := rd s F.PTP_STATE_PORT_ACTIVE
    exec .delayReqSend s = .next (updPtp (draw (draw (sendEth s port (delayReqFrame s port s.ptp.reqSeq)))) fun p =>
      { p with req := some (s.ptp.reqSeq, (netNs s : Nat)), reqSeq := (s.ptp.reqSeq + 1) % 2 ^ 16 }) :=
  if_neg (by simp [ptpOn, rdb, en])

theorem execDelayRespRx_eq {port : Fin 16} {m : DelayResp} {s : State} {t1 t2 t3 : Int}
    (reaches : reachesClock s port m.transport m.domain = true) (mine : m.mine = true) (req : s.ptp.req = some (m.seq.toNat, t3))
    (sync : s.ptp.sync = some (t1, t2)) : exec (.delayRespRx port m) s =
      .next (updPtp s fun p => { p with path := some (((t2 - t1) + ((m.receive : Int) - m.correction - t3)) / 2), req := none }) := by
  change execDelayRespRx port m s = _
  rw [execDelayRespRx, if_neg (by simp [reaches, mine]), req, sync]
  exact if_neg (not_not.2 rfl)

end Sys2Proof.Machine
end

