-- ==== Sys2Proof/Proofs/PtpMasters.lean ====
section
/-!
The masters of the PTP clock: an Announce that the BMCA selects (R81, R84, R93), and their loss (R94); the statement about the port and them.
-/

namespace Sys2Proof.Machine

/-! ### The best master (R81, R84, R93) -/

/-- The only sender heard is the best, if it is qualified. -/
theorem bestMaster_only {s : State} {a : Announce} (masters : s.ptp.masters = [(a, s.time.cyc)]) (steps : a.steps.toNat < 255) :
    bestMaster s = some a := by
  simp [bestMaster, masters, steps]

/-- A master selected, with its UTC fields held. -/
def masterHeld (s : State) (a : Announce) : State :=
  let u := updPtp s fun p => { p with parent := some a.sender }
  wr0 (wr0 (wr0 (wr0 u F.PTP_STATE_UTC_VALID (bit a.utcValid)) F.PTP_STATE_LEAP61 (bit a.leap61)) F.PTP_STATE_LEAP59 (bit a.leap59))
    F.PTP_STATE_UTC_OFFSET a.utcOffset.toNat

section
variable {s : State} {a : Announce} (other : rd s F.PTP_GM_ID_ID ≠ a.gm.toNat)
include other

/-- The master of another grandmaster is selected. -/
theorem selectMaster_other : selectMaster s a =
    askJournal (raisePtp (wr0 (masterHeld s a) F.PTP_GM_ID_ID a.gm.toNat) K.PTP_EVENT_GM_CHANGE) rankPtp 0x0022
      (leBytes (rd s F.PTP_GM_ID_ID) 8 ++ leBytes a.gm.toNat 8) := if_neg other

theorem rd_selectMaster_other {f : Fld} (h : f.beside [F.PTP_EVENT_GM_CHANGE, F.PTP_EVENT_CNT_GM_CNT] = true) :
    rd (selectMaster s a) f = rd (wr0 (masterHeld s a) F.PTP_GM_ID_ID a.gm.toNat) f := by
  rw [selectMaster_other other, rd_regs (askJournal_regs _ _ _ _)]
  exact rd_raisePtp _ h

theorem selectMaster_gm : rd (selectMaster s a) F.PTP_GM_ID_ID = a.gm.toNat := by
  rw [rd_selectMaster_other other (by decide)]
  exact rd_wr0_same _ _ a.gm.isLt

theorem selectMaster_event : rd (selectMaster s a) F.PTP_EVENT_GM_CHANGE = 1 := by
  rw [selectMaster_other other, rd_regs (askJournal_regs _ _ _ _)]
  exact rd_raisePtp_flag _ rfl (by decide) (by decide)

theorem selectMaster_utcOffset : rd (selectMaster s a) F.PTP_STATE_UTC_OFFSET = a.utcOffset.toNat := by
  rw [rd_selectMaster_other other (by decide), rd_wr0_apart _ _ (by decide)]
  exact rd_wr0_same _ _ a.utcOffset.isLt

theorem selectMaster_state : rd (selectMaster s a) F.PTP_STATE_STATE = rd s F.PTP_STATE_STATE := by
  rw [rd_selectMaster_other other (by decide), rd_wr0_apart _ _ (by decide), masterHeld, rd_wr0_apart _ _ (by decide),
    rd_wr0_apart _ _ (by decide), rd_wr0_apart _ _ (by decide), rd_wr0_apart _ _ (by decide), rd_updPtp]

theorem selectMaster_parent : (selectMaster s a).ptp.parent = some a.sender := by
  simp [selectMaster_other other, masterHeld, updPtp]

theorem selectMaster_time : (selectMaster s a).time = s.time := by simp [selectMaster_other other, masterHeld, updPtp]

theorem selectMaster_mem : (selectMaster s a).mem = s.mem := by simp [selectMaster_other other, masterHeld, updPtp]

theorem selectMaster_asked : (selectMaster s a).jnl.asked.map (·.ty) = s.jnl.asked.map (·.ty) ++ [0x0022] := by
  simp [selectMaster_other other, askJournal, masterHeld, updPtp]

end

/-- One sender is heard, with its Announce of this cycle. -/
def heardOnly (s : State) (a : Announce) : State := updPtp s fun p => { p with masters := [(a, s.time.cyc)] }

theorem rd_heardOnly (s : State) (a : Announce) (f : Fld) : rd (heardOnly s a) f = rd s f := rd_updPtp s _ f

/-- The first Announce heard, of another grandmaster, outside HOLDOVER. -/
theorem execAnnounceRx_only {port : Fin 16} {a : Announce} {s : State} (reaches : reachesClock s port a.transport a.domain = true)
    (profile : rdb s F.PTP_CTRL_PROFILE = a.profile) (lo : -3 ≤ a.logInterval.toInt) (hi : a.logInterval.toInt ≤ 4)
    (masters : s.ptp.masters = []) (steps : a.steps.toNat < 255) (state : rd s F.PTP_STATE_STATE ≠ 4)
    (other : rd (heardOnly s a) F.PTP_GM_ID_ID ≠ a.gm.toNat) : exec (.announceRx port a) s = .next (selectMaster (heardOnly s a) a) := by
  change execAnnounceRx port a s = _
  rw [execAnnounceRx, if_neg (by simp [reaches, profile]), if_neg (by omega), masters, List.filter_nil]
  dsimp only
  rw [bestMaster_only rfl steps]
  refine congrArg _ (if_neg fun holdover => state ?_)
  rw [← rd_heardOnly s a, ← selectMaster_state other]
  exact holdover.1

/-! ### ANNOUNCE_TIMEOUT (R94) -/

/-- The HOLDOVER of R94, before its flag. -/
def withoutMasters (s : State) : State := setPtpState (updPtp s fun p => { p with byAnnounce := true, masters := [] }) ptpHoldover true

theorem execAnnounceTimeout_eq {s : State} (en : rd s F.PTP_CTRL_EN = 1) (fresh : s.ptp.byAnnounce = false) :
    exec .announceTimeout s = .next (raisePtp (withoutMasters s) K.PTP_EVENT_HOLDOVER) := if_neg (by simp [ptpOn, rdb, en, fresh])

theorem execRelock_eq {s : State} (state : rd s F.PTP_STATE_STATE ≠ 4) :
    exec .relock s = .next (updPtp s fun p => { p with relock := true }) := congrArg _ (if_neg fun holdover => state holdover.1)

/-- Settles O23: each command's answer, read field by field; where LOCKED falls, only it and LOCK_LOST are written. -/
theorem ptpPortAndMasters : Obligations.PtpPortAndMasters := by
  unfold Obligations.PtpPortAndMasters
  refine ⟨fun v s off unarmed => ?disable, fun v s on unarmed was => ?enable, fun s state => execRelock_eq state, fun s => ?capture,
    fun port a s en bound dom tran profile lo hi masters steps state other => ?announce, fun s en fresh => ?timeout, fun s en => ?request,
    fun port m s t1 t2 t3 en bound dom tran mine req sync => execDelayRespRx_eq (reachesClock_of en bound dom tran) mine req sync⟩
  case disable =>
    obtain ⟨state, locked, time, -, adj⟩ := stateSet_effect (ctrlWritten s v) (fun p => { p with byAnnounce := false }) (st := ptpDisabled)
      (by decide) (by decide) (v.toNat.testBit 22)
    exact ⟨_, execPtpCtrlWrite_disable unarmed off, state, locked, time.trans (ctrlWritten_time s v),
      adj.trans (rd_ctrlWritten s v (by decide) (by decide))⟩
  case enable =>
    obtain ⟨state, locked, time, en, adj⟩ := stateSet_effect (ctrlWritten s v) restarted (st := ptpListening)
      (by decide) (by decide) (v.toNat.testBit 22)
    exact ⟨_, execPtpCtrlWrite_enable unarmed on was, state, locked, time.trans (ctrlWritten_time s v),
      en.trans (rd_ctrlWritten_en s v on), adj.trans (rd_ctrlWritten s v (by decide) (by decide))⟩
  case capture => exact ⟨_, rfl, captureClock_sec s, captureClock_ns s, captureClock_short s, captureClock_eq s, captureClock_frame s⟩
  case announce =>
    have other : rd (heardOnly s a) F.PTP_GM_ID_ID ≠ a.gm.toNat := by rwa [rd_heardOnly]
    exact ⟨_, execAnnounceRx_only (reachesClock_of en bound dom tran) profile lo hi masters steps state other, selectMaster_gm other,
      selectMaster_event other, selectMaster_parent other, selectMaster_utcOffset other, selectMaster_time other, selectMaster_asked other,
      selectMaster_mem other⟩
  case timeout =>
    refine ⟨_, execAnnounceTimeout_eq en fresh, ?_, ?_, rd_raisePtp_flag _ rfl (by decide) (by decide), ?_, ?_, ?_, fun locked => ?_⟩
    · rw [rd_raisePtp _ (by decide), withoutMasters, rd_setPtpState_state _ _ _ (by decide), ptpHoldover]
    · rw [rd_raisePtp _ (by decide), withoutMasters, rd_setPtpState_locked _ _ (by decide)]
    · rw [rd_raisePtp _ (by decide), withoutMasters, rd_setPtpState _ _ _ (by decide), rd_updPtp]
    · rw [raisePtp_time, withoutMasters, setPtpState_time, updPtp]
    · rw [raisePtp_mem, withoutMasters, setPtpState_mem, updPtp]
    · rw [rd_raisePtp _ (by decide)]
      exact rd_setPtpState_lost _ (by decide) locked
  case request => exact ⟨_, execDelayReqSend_eq en, rfl, rfl, rfl, rfl⟩

end Sys2Proof.Machine
end

