-- ==== Sys2Proof/Proofs/PortsBesideAccess.lean ====
section
/-!
What an access of a hardware master leaves alone beside registers, DRAM and the Easel: the ports with what they have sent, and the time.
Writes among the accesses that `AccessKept` speaks of (R412, R553, R597).
-/

namespace Sys2Proof.Machine

/-! ### The ports and the time -/

/-- The part of the state that belongs to the ports: the network block, what has left the device, and the time. -/
def portSide (s : State) := (s.net, s.out, s.time)

theorem portSide_iff {s t : State} : portSide t = portSide s ↔ t.net = s.net ∧ t.out = s.out ∧ t.time = s.time := by
  simp only [portSide, Prod.mk.injEq]

@[simp] theorem portSide_wr (s : State) (f : Fld) (i j v : Nat) : portSide (wr s f i j v) = portSide s := portSide_iff.2 ⟨rfl, rfl, rfl⟩

@[simp] theorem portSide_raise (s : State) (k : Flag) (i : Nat) : portSide (raise s k i) = portSide s := portSide_iff.2 ⟨rfl, rfl, rfl⟩

@[simp] theorem portSide_dramEntry (s : State) (kind channel margin window supp addr cause : Nat) :
    portSide (dramEntry s kind channel margin window supp addr cause) = portSide s := portSide_iff.2 ⟨rfl, rfl, rfl⟩

@[simp] theorem portSide_noteCause (s : State) (cause : Nat) : portSide (noteCause s cause) = portSide s := portSide_iff.2 ⟨rfl, rfl, rfl⟩

@[simp] theorem portSide_holdAll (s : State) : portSide (holdAll s) = portSide s := each_field s portSide _ _ fun _ _ => rfl

@[simp] theorem portSide_enterHold (s : State) (cause : Nat) : portSide (enterHold s cause) = portSide s := by
  rw [enterHold]
  split <;> simp

@[simp] theorem portSide_testThreshold (s : State) (c : Nat) : portSide (testThreshold s c) = portSide s := by
  rw [testThreshold]
  split <;> simp

@[simp] theorem portSide_ueEntry (s : State) (c a : Nat) : portSide (ueEntry s c a) = portSide s := by
  rw [ueEntry]
  split <;> rfl

@[simp] theorem portSide_eccRecord (s : State) (c a : Nat) (uncorr link : Bool) : portSide (eccRecord s c a uncorr link) = portSide s :=
  portSide_iff.2 ⟨rfl, rfl, rfl⟩

@[simp] theorem portSide_eccError (s : State) (a : Nat) (uncorr link : Bool) : portSide (eccError s a uncorr link) = portSide s := by
  rw [eccError]
  split <;> simp [addSat]

theorem portSide_meetPoison (s : State) (a n : Nat) : portSide (meetPoison s a n) = portSide s := by
  rw [meetPoison]
  split
  · rfl
  · split
    · exact portSide_eccError _ _ _ _
    · rfl

theorem portSide_meetWeak (words : List Nat) (s : State) : portSide (meetWeak words s) = portSide s :=
  each_field s portSide _ _ fun _ _ => portSide_eccError _ _ _ _

theorem portSide_checkAccess (s : State) (x : Access1) : portSide (checkAccess s x).1 = portSide s := by
  obtain ⟨⟨r, p, v, e⟩, -⟩ := marks_checkAccess s x
  rw [e]
  rfl

theorem portSide_targetRead (s : State) (a n : Nat) : portSide (targetRead s a n).1 = portSide s := by
  rw [targetRead]
  split
  · split
    · exact portSide_meetWeak _ _
    · exact portSide_meetPoison _ _ _
  all_goals rfl

theorem portSide_readPiece (master : Nat) (acc : State × Nat × List Byte) (p : Nat × Nat) :
    portSide (readPiece master acc p).1 = portSide acc.1 := by
  rw [readPiece]
  split
  · rfl
  · dsimp only
    split
    · exact portSide_checkAccess _ _
    · exact (portSide_targetRead _ _ _).trans (portSide_checkAccess _ _)

theorem portSide_busRead (s : State) (master a n : Nat) : portSide (busRead s master a n).1 = portSide s :=
  foldl_field (fun acc : State × Nat × List Byte => portSide acc.1) (portSide_readPiece master) _ _

/-! ### Writes -/

/-- A DRAM write, made or not, changes bytes and what the controller knows of bad words. -/
theorem dramWriteMasked_eq (s : State) (a : Nat) (l : List Byte) (holes : List Nat) :
    ∃ m d, (dramWriteMasked s a l holes).1 = { s with mem := m, dmc := d } := by
  rcases dramWriteMasked_cases s a l holes with e | e | ⟨m, b, w, e⟩ <;> rw [e]
  · rcases dramWrite_cases s a l with e | ⟨-, -, b, w, e⟩ <;> rw [e]
    · exact ⟨_, _, rfl⟩
    · exact ⟨_, _, rfl⟩
  · exact ⟨_, _, rfl⟩
  · exact ⟨_, _, rfl⟩

theorem portSide_targetWrite (s : State) (a : Nat) (l : List Byte) : portSide (targetWrite s a l).1 = portSide s := by
  rw [targetWrite]
  split
  · obtain ⟨m, d, e⟩ := dramWriteMasked_eq s a l []
    dsimp only
    split
    · rw [e]
      exact portSide_meetWeak _ _
    · exact portSide_meetPoison _ _ _
  · rcases windowWrite_cases s ((a - 0x1010000000) / 0x80000) ((a - 0x1010000000) % 0x80000) l with ⟨q, e⟩ | e <;> rw [e] <;> rfl
  · rfl

theorem portSide_writePiece (master a : Nat) (l : List Byte) (acc : State × Nat) (p : Nat × Nat) :
    portSide (writePiece master a l acc p).1 = portSide acc.1 := by
  rw [writePiece]
  split
  · rfl
  · dsimp only
    split
    · exact portSide_checkAccess _ _
    · exact (portSide_targetWrite _ _ _).trans (portSide_checkAccess _ _)

theorem portSide_busWrite (s : State) (master a : Nat) (l : List Byte) : portSide (busWrite s master a l).1 = portSide s :=
  foldl_field (fun acc : State × Nat => portSide acc.1) (portSide_writePiece master a l) _ _

section
variable {s₀ s : State}

protected theorem AccessKept.targetWrite {a l} (h : DramKept s₀ s) : DramKept s₀ (targetWrite s a l).1 := by
  unfold targetWrite
  split
  · obtain ⟨m, d, e⟩ := dramWriteMasked_eq s a l []
    dsimp only
    split
    · rw [e]
      exact h.set.meetWeak
    · exact h.meetPoison
  · rcases windowWrite_cases s ((a - 0x1010000000) / 0x80000) ((a - 0x1010000000) % 0x80000) l with ⟨q, e⟩ | e <;> rw [e]
    · exact h.setSeq
    · exact h.raise (not_besideDram_of_le (by decide) _ 0) (not_besideDram_of_le (by decide) _ 0)
  · exact h

protected theorem AccessKept.writePiece {master a l acc p} (h : PathKept s₀ acc.1) : PathKept s₀ (writePiece master a l acc p).1 := by
  unfold writePiece
  split
  · exact h
  · dsimp only
    split
    · exact h.checkAccess
    · exact h.checkAccess.noteGrant.trans (DramKept.path (AccessKept.refl _).targetWrite)

protected theorem AccessKept.busWrite {master a l} (h : PathKept s₀ s) : PathKept s₀ (busWrite s master a l).1 :=
  AccessKept.foldl (p := Prod.fst) (b := (s, 0)) h fun _ k => k.writePiece

end

end Sys2Proof.Machine
end

