-- ==== Sys2Proof/Proofs/FlowKept.lean ====
section
/-!
What giving up an assembly leaves alone: the registers below the Sluice's, DRAM, the flow table and the state of every source. The predicate
`FlowKept`, and one rule for each operation that a landing given up calls (R147, R150, R165, R167).
-/

namespace Sys2Proof.Machine

/-- Registers above those of the fabric, the protection units and the DRAM controller, and below those of the Sluice. -/
abbrev belowSluice (a : Nat) : Prop := 0x280000 ≤ a ∧ a < 0xC00000

/-- From `s` to `t` the registers below the Sluice's, DRAM, the flow table and the state of each source stay. -/
structure FlowKept (s t : State) : Prop where
  regs : ∀ a, belowSluice a → Map.find t.regs a = Map.find s.regs a
  mem : t.mem = s.mem
  entries : t.net.entries = s.net.entries
  sources : ∀ i, (srcOf t i).st = (srcOf s i).st

section
variable {s₀ s t : State}

protected theorem FlowKept.refl (s : State) : FlowKept s s := ⟨fun _ _ => rfl, rfl, rfl, fun _ => rfl⟩

theorem FlowKept.rd_eq (h : FlowKept s t) {f : Fld} {i j : Nat} (hf : belowSluice (f.reg.addr i j)) : rd t f i j = rd s f i j := by
  simp only [rd, rdReg, Map.get, h.regs _ hf]

/-- Any change of the parts of the state that are neither registers, nor DRAM, nor the flow table, nor sources. -/
protected theorem FlowKept.set {time straps ptp net slu vdc ven eas cmp chk tnd seqs tch cpr jnl lane lnk fab prt dmc pwr out free pending}
    (h : FlowKept s₀ s) (hnet : net.entries = s.net.entries := by rfl) (heas : eas.sources = s.eas.sources := by rfl) :
    FlowKept s₀ ⟨s.regs, s.mem, time, straps, ptp, net, slu, vdc, ven, eas, cmp, chk, tnd, seqs, tch, cpr, jnl, lane, lnk, fab, prt, dmc,
      pwr, out, free, pending⟩ where
  regs := h.regs
  mem := h.mem
  entries := hnet.trans h.entries
  sources i := by rw [srcOf, heas]; exact h.sources i

protected theorem FlowKept.ite {p : Prop} {_ : Decidable p} (hs : FlowKept s₀ s) (ht : FlowKept s₀ t) : FlowKept s₀ (if p then s else t) := by
  split
  · exact hs
  · exact ht

protected theorem FlowKept.foldl {α β : Type} {p : β → State} {f : β → α → β} {l : List α} {b : β} (h : FlowKept s₀ (p b))
    (hf : ∀ {b} x, FlowKept s₀ (p b) → FlowKept s₀ (p (f b x))) : FlowKept s₀ (p (l.foldl f b)) := by
  induction l generalizing b with
  | nil => exact h
  | cons x l ih => exact ih (hf x h)

protected theorem FlowKept.each {α : Type} {f : State → α → State} {l : List α} (h : FlowKept s₀ s)
    (hf : ∀ {u} x, FlowKept s₀ u → FlowKept s₀ (f u x)) : FlowKept s₀ (each l f s) := FlowKept.foldl (p := id) h hf

protected theorem FlowKept.wr {f i j v} (h : FlowKept s₀ s) (hf : 0xC00000 ≤ f.reg.base := by decide) : FlowKept s₀ (wr s f i j v) where
  regs a ha := by
    have ne : a ≠ f.reg.addr i j := Nat.ne_of_lt (Nat.lt_of_lt_of_le ha.2 (hf.trans (f.reg.base_le_addr i j)))
    rw [wr_eq, Map.find_put_ne _ _ ne, h.regs a ha]
  mem := h.mem
  entries := h.entries
  sources := h.sources

protected theorem FlowKept.raise {k i} (h : FlowKept s₀ s) (hfld : 0xC00000 ≤ k.fld.reg.base := by decide)
    (hcnt : 0xC00000 ≤ k.cnt.reg.base := by decide) : FlowKept s₀ (raise s k i) := ((h.wr hfld).wr hcnt).set

/-- A read of a hardware master. -/
protected theorem FlowKept.busRead {master a n} (h : FlowKept s₀ s) : FlowKept s₀ (busRead s master a n).1 := by
  have path := busRead_kept s master a n
  obtain ⟨net, -, -⟩ := portSide_iff.1 (portSide_busRead s master a n)
  exact {
    regs := fun a ha => (path.regs a ⟨ha.1, Nat.lt_trans ha.2 (by decide)⟩).trans (h.regs a ha)
    mem := (busRead_mem _ _ _ _).trans h.mem
    entries := by rw [net, h.entries]
    sources := fun i => by rw [srcOf, path.eas]; exact h.sources i }

/-- A source changed beside its state. -/
protected theorem FlowKept.updSrc {n f} (h : FlowKept s₀ s) (hf : ∀ x, (f x).st = x.st) : FlowKept s₀ (updSrc s n f) where
  regs := h.regs
  mem := h.mem
  entries := h.entries
  sources i := by
    rw [updSrc_eq]
    rcases eq_or_ne i n with rfl | ne
    · rw [srcOf_setSrc, hf, h.sources]
    · rw [srcOf_setSrc_ne _ _ ne, h.sources]

/-! ### Contexts, buffers and jobs -/

protected theorem FlowKept.updRun {i f} (h : FlowKept s₀ s) : FlowKept s₀ (updRun s i f) := h.set

protected theorem FlowKept.updCtx {c f} (h : FlowKept s₀ s) : FlowKept s₀ (updCtx s c f) := h.set

protected theorem FlowKept.updDesc {d f} (h : FlowKept s₀ s) : FlowKept s₀ (updDesc s d f) := h.set

protected theorem FlowKept.showCtx {c} (h : FlowKept s₀ s) : FlowKept s₀ (showCtx s c) := by
  unfold showCtx
  dsimp only
  split
  · exact h.wr.wr.wr.wr.wr
  · exact h.wr.wr.wr.wr

protected theorem FlowKept.showPipe {p c busy} (h : FlowKept s₀ s) : FlowKept s₀ (showPipe s p c busy) := .ite h.wr.wr h.wr.wr

protected theorem FlowKept.abandonBuffer {d} (h : FlowKept s₀ s) : FlowKept s₀ (abandonBuffer s d) := h.updDesc

protected theorem FlowKept.freeOuts {outs} (h : FlowKept s₀ s) : FlowKept s₀ (freeOuts s outs) := h.each fun _ k => k.abandonBuffer

protected theorem FlowKept.parentBad {c f} (h : FlowKept s₀ s) : FlowKept s₀ (parentBad s c f) :=
  FlowKept.raise (.ite (h.updSrc fun _ => rfl) h)

protected theorem FlowKept.takeBuffer {fmt w b} (h : FlowKept s₀ s) : FlowKept s₀ (takeBuffer s fmt w b).1 := by
  unfold takeBuffer
  split
  · exact h.raise
  · exact h.updDesc (f := fun x => { x with st := .filling, ownerHost := false })

protected theorem FlowKept.takeOuts {outs} (h : FlowKept s₀ s) : FlowKept s₀ (takeOuts s outs).1 := by
  refine FlowKept.foldl (p := Prod.fst) (b := (s, some [])) h fun _ k => ?_
  split
  · exact k
  · dsimp only
    split
    · exact k.takeBuffer
    · exact k.takeBuffer.freeOuts

/-- The header that a job checks, unless its parent is live. -/
protected theorem FlowKept.header {l} (h : FlowKept s₀ s) (live : Bool) :
    FlowKept s₀ (if live then (s, true, []) else readHeader s 55 l).1 := by
  cases live
  · exact h.busRead
  · exact h

protected theorem FlowKept.startJob {c d seq live} (h : FlowKept s₀ s) : FlowKept s₀ (startJob s c d seq live) := by
  unfold startJob
  dsimp only
  split
  · exact h.updCtx
  · refine .ite h.updCtx <| .ite (h.updCtx.header live).raise.parentBad ?_
    split
    · exact (h.updCtx.header live).takeOuts.raise
    · exact (h.updCtx.header live).takeOuts.updDesc.updCtx

protected theorem FlowKept.leaveJob {c j} (h : FlowKept s₀ s) : FlowKept s₀ (leaveJob s c j) := by
  unfold leaveJob
  refine FlowKept.showCtx ?_
  have left := h.updDesc (d := j.parent.desc) (f := fun x => settle { x with leases := x.leases - 1 })
  rcases j.pipe with _ | p
  · split
    · exact left.updCtx.startJob
    · exact left.updCtx
  · split
    · exact left.showPipe.updCtx.startJob
    · exact left.showPipe.updCtx

protected theorem FlowKept.dropJob {c} (h : FlowKept s₀ s) : FlowKept s₀ (dropJob s c) := by
  unfold dropJob
  split
  · exact h
  · exact h.freeOuts.leaveJob

protected theorem FlowKept.parentLost {c d} (h : FlowKept s₀ s) : FlowKept s₀ (parentLost s c d) := by
  unfold parentLost
  dsimp only
  split
  · exact .ite h.updCtx.showCtx.dropJob h.updCtx.showCtx
  · exact h.updCtx.showCtx

protected theorem FlowKept.landAbandon {c} (h : FlowKept s₀ s) : FlowKept s₀ (landAbandon s c) := by
  unfold landAbandon
  split
  · exact h
  · split
    · exact h.updCtx.parentLost.abandonBuffer
    · exact h.updCtx

protected theorem FlowKept.discardAssembly {i} (h : FlowKept s₀ s) : FlowKept s₀ (discardAssembly s i) := by
  unfold discardAssembly
  exact FlowKept.updRun (h.each fun _ k => .ite k.landAbandon k)

end

end Sys2Proof.Machine
end

