-- ==== Sys2Proof/Proofs/FlowTable.lean ====
section
/-!
The flow table and its commands (R113 to R118): what each command does when it is written, and what it leaves at its completion.
-/

namespace Sys2Proof

/-! ### Bytes of an entry -/

theorem leNat_lt (l : List Byte) : leNat l < 256 ^ l.length := by
  induction l with
  | nil => decide
  | cons b t ih =>
    have byte := b.isLt
    rw [leNat, List.length_cons, Nat.pow_succ]
    omega

theorem bytesAt_length (l : List Byte) (a n : Nat) : (bytesAt l a n).length = n := by
  rw [bytesAt, List.length_take, List.length_append, List.length_replicate]
  omega

theorem leAt_lt (l : List Byte) (a n : Nat) : leAt l a n < 256 ^ n := by
  have lt := leNat_lt (bytesAt l a n)
  rwa [bytesAt_length] at lt

/-- A byte put in place of one that the list holds is read back, and every other one is as before. -/
theorem patchBytes_eq_set (l : List Byte) {k : Nat} (b : Byte) (h : k < l.length) : patchBytes l k [b] = l.set k b := by
  rw [patchBytes, List.set_eq_take_append_cons_drop, if_pos h, List.append_assoc, List.singleton_append, List.length_singleton]

theorem leAt_byte {l : List Byte} {k : Nat} (h : k < l.length) : leAt l k 1 = l[k].toNat := by
  have one : bytesAt l k 1 = [l[k]] := by
    rw [bytesAt, List.drop_eq_getElem_cons h, List.cons_append, List.take_succ_cons, List.take_zero]
  rw [leAt, one]
  rfl

theorem lowest_eq_some {n i : Nat} {p : Nat → Bool} (hi : i < n) (hp : p i = true) (below : ∀ j < i, p j = false) : lowest n p = some i := by
  rw [lowest, List.find?_range_eq_some]
  exact ⟨hp, List.mem_range.2 hi, fun j hj => by rw [below j hj]; rfl⟩

end Sys2Proof

namespace Sys2Proof.Machine

/-! ### Writes of NET_FLOW_CMD (R115) -/

/-- A flow command written while none is in flight. -/
def flowBegun (s : State) (op i : Nat) : State := { wr0 s F.NET_FLOW_STATUS_BUSY 1 with net := { s.net with op := some (op, i) } }

theorem flowCmdWrite_idle {s : State} {op : Nat} (i : Nat) (real : op ≠ 0) (idle : rd s F.NET_FLOW_STATUS_BUSY = 0) :
    flowCmdWrite s op i = flowBegun s op i := by
  rw [flowCmdWrite, if_neg real, if_neg (by simp [rdb, idle])]
  rfl

theorem flowCmdWrite_busy {s : State} {op : Nat} (i : Nat) (real : op ≠ 0) (busy : rd s F.NET_FLOW_STATUS_BUSY = 1) :
    flowCmdWrite s op i = flowRefuse s (5, 0) := by
  rw [flowCmdWrite, if_neg real, if_pos (by simp [rdb, busy])]

/-- What a flow command that is taken does at its write. -/
theorem flowBegun_effect (s : State) (op i : Nat) : let t := flowBegun s op i
    rd t F.NET_FLOW_STATUS_BUSY = 1 ∧ t.net = { s.net with op := some (op, i) } ∧ t = { s with regs := t.regs, net := t.net } ∧
      sameRegsBut s t [R.NET_FLOW_STATUS.base] := by
  refine ⟨?_, rfl, rfl, fun a ha => Map.find_put_ne _ _ fun e => ha (List.mem_singleton.2 e)⟩
  exact (rd_regs rfl _ 0 0).trans (rd_wr0_same s _ (by decide))

/-! ### Refusals (R116) -/

section
variable (s : State) (c : Nat × Nat)

theorem flowRefuse_net : (flowRefuse s c).net = s.net := by
  rw [flowRefuse]
  split <;> rfl

theorem flowRefuse_mem : (flowRefuse s c).mem = s.mem := by
  rw [flowRefuse]
  split <;> rfl

theorem flowRefuse_eas : (flowRefuse s c).eas = s.eas := by
  rw [flowRefuse]
  split <;> rfl

theorem rd_flowRefuse_refused : rd (flowRefuse s c) F.NET_FLOW_STATUS_REFUSED = 1 := rd_raise_flag _ _ _ rfl (by decide) (.inl (by decide))

/-- A field beside CODE, FIELD, REFUSED and its count keeps its value. -/
theorem rd_flowRefuse {f : Fld} (h : [F.NET_FLOW_STATUS_CODE, F.NET_FLOW_STATUS_FIELD, F.NET_FLOW_STATUS_REFUSED,
    F.NET_FLOW_STATUS_REFUSED_CNT].all f.apart = true) : rd (flowRefuse s c) f = rd s f := by
  simp only [List.all_cons, List.all_nil, Bool.and_true, Bool.and_eq_true] at h
  obtain ⟨code, field, refused, count⟩ := h
  rw [flowRefuse, rd_raise_apart _ refused count]
  split
  · rw [rd_wr0_apart _ _ field, rd_wr0_apart _ _ code]
  · exact rd_wr0_apart _ _ code

theorem rd_flowRefuse_code (h : c.1 < 8) : rd (flowRefuse s c) F.NET_FLOW_STATUS_CODE = c.1 := by
  have code := rd_wr0_same s F.NET_FLOW_STATUS_CODE h
  rw [flowRefuse, rd_raise_apart _ (by decide) (by decide)]
  split
  · rw [rd_wr0_apart _ _ (by decide), code]
  · exact code

end

/-- One cause more among those of a refusal keeps the bound of their codes. -/
theorem codes_ite_lt {p : Prop} {_ : Decidable p} {n : Nat} {a : Nat × Nat} {o : Option (Nat × Nat)} (ha : a.1 < n) (ho : ∀ c ∈ o, c.1 < n) :
    ∀ c ∈ (if p then some a else o), c.1 < n := by
  split
  · rintro c ⟨⟩
    exact ha
  · exact ho

/-- The codes of R116 are 1 to 7. -/
theorem installRefusal_lt {s : State} {e : List Byte} {c : Nat × Nat} (h : installRefusal s e = some c) : c.1 < 8 := by
  suffices ∀ c ∈ installRefusal s e, c.1 < 8 from this c h
  refine codes_ite_lt (by decide) <| codes_ite_lt (by decide) <| codes_ite_lt (by decide) ?_
  split
  · rintro c ⟨⟩
    exact (by decide : 4 < 8)
  · exact codes_ite_lt (by decide) <| codes_ite_lt (by decide) fun _ none => nomatch none

/-! ### Completion (R115, R116) -/

/-- The command in flight is over: BUSY is 0. -/
def flowIdle (s : State) : State := wr0 { s with net := { s.net with op := none } } F.NET_FLOW_STATUS_BUSY 0

theorem flowIdle_net (s : State) : (flowIdle s).net = { s.net with op := none } := rfl

theorem flowIdle_mem (s : State) : (flowIdle s).mem = s.mem := rfl

theorem flowIdle_eas (s : State) : (flowIdle s).eas = s.eas := rfl

theorem flowEntry_flowIdle (s : State) (i : Nat) : flowEntry (flowIdle s) i = flowEntry s i := by
  rw [flowEntry, flowIdle_net, flowEntry]

theorem runOf_flowIdle (s : State) (i : Nat) : runOf (flowIdle s) i = runOf s i := by rw [runOf, flowIdle_net, runOf]

theorem srcOf_flowIdle (s : State) (i : Nat) : srcOf (flowIdle s) i = srcOf s i := by rw [srcOf, flowIdle_eas, srcOf]

theorem rd_flowIdle_busy (s : State) : rd (flowIdle s) F.NET_FLOW_STATUS_BUSY = 0 := rd_wr0_same _ _ (by decide)

/-- A register above NET_FLOW_STATUS is as it was. -/
theorem rdReg_flowIdle (s : State) {r : Reg} (h : 0x808004 < r.base) (i j : Nat) : rdReg (flowIdle s) r i j = rdReg s r i j :=
  rdReg_wrReg_ne _ _ _ _ _ _ _ _ (Reg.addr_ne_of_lt_base (r := R.NET_FLOW_STATUS) (i := 0) (j := 0) h i j)

theorem rd_flowIdle (s : State) {f : Fld} (h : 0x808004 < f.reg.base) (i j : Nat) : rd (flowIdle s) f i j = rd s f i j := by
  rw [rd, rdReg_flowIdle s h, rd]

theorem stagedEntry_flowIdle (s : State) : stagedEntry (flowIdle s) = stagedEntry s := by
  simp only [stagedEntry, rdReg_flowIdle s (r := R.NET_FLOW_STAGE) (by decide)]

/-- The checks of INSTALL read neither BUSY nor the command in flight. -/
theorem installRefusal_flowIdle (s : State) (e : List Byte) : installRefusal (flowIdle s) e = installRefusal s e := by
  have window (id : Nat) : dupSource (flowIdle s) id = dupSource s id := by
    simp only [dupSource, inWindow, rd_flowIdle s (f := F.EAS_SRC_WINDOW_BASE) (by decide), rd_flowIdle s (f := F.EAS_SRC_WINDOW_COUNT) (by decide)]
    rfl
  have line : sendLineBytes (flowIdle s) e = sendLineBytes s e := by
    rw [sendLineBytes, canvasW, rd_flowIdle s (by decide), sendLineBytes, canvasW]
  have height (c : Nat) : canvasH (flowIdle s) c = canvasH s c := by
    rw [canvasH, rd_flowIdle s (by decide), rd_flowIdle s (by decide), canvasH]
  have ranges : entryRanges (flowIdle s) e = entryRanges s e := by
    unfold entryRanges
    rw [line, height]
  simp only [installRefusal, window, ranges]
  rfl

/-- A register beside DONE's and its count's reads as before the completion raised it. -/
theorem rd_raise_done (s : State) {f : Fld} (h : [F.NET_FLOW_STATUS_DONE, K.NET_FLOW_STATUS_DONE.cnt].all f.apart = true) :
    rd (raise s K.NET_FLOW_STATUS_DONE) f = rd s f := by
  simp only [List.all_cons, List.all_nil, Bool.and_true, Bool.and_eq_true] at h
  exact rd_raise_apart s h.1 h.2

theorem rd_raise_done_flag (s : State) : rd (raise s K.NET_FLOW_STATUS_DONE) F.NET_FLOW_STATUS_DONE = 1 :=
  rd_raise_flag _ _ _ rfl (by decide) (.inr (by decide))

/-- DONE and its count stand beside NET_FLOW_STAGE. -/
theorem rdReg_raise_done_stage (s : State) (k : Nat) :
    rdReg (raise s K.NET_FLOW_STATUS_DONE) R.NET_FLOW_STAGE 0 k = rdReg s R.NET_FLOW_STAGE 0 k :=
  rdReg_raiseIf_reg _ _ _ _ (Reg.addr_ne_of_lt_base (r := R.NET_FLOW_STATUS) (i := 0) (j := 0) (by decide) 0 k)
    (Reg.addr_ne_of_lt_base (r := R.NET_FLOW_CNT) (i := 0) (j := 0) (by decide) 0 k)

section
variable {s : State} {k : Nat}

theorem execFlowCmdDone_refused {c : Nat × Nat} (op : s.net.op = some (1, k)) (refusal : installRefusal s (stagedEntry s) = some c) :
    exec .flowCmdDone s = .next (raise (flowRefuse (flowIdle s) c) K.NET_FLOW_STATUS_DONE) := by
  rw [← installRefusal_flowIdle, ← stagedEntry_flowIdle] at refusal
  change execFlowCmdDone s = _
  rw [execFlowCmdDone, op]
  dsimp only
  rw [if_pos rfl, ← flowIdle, refusal]

theorem execFlowCmdDone_accepted (op : s.net.op = some (1, k)) (refusal : installRefusal s (stagedEntry s) = none) :
    exec .flowCmdDone s = .next (raise (installEntry (flowIdle s) (stagedEntry s)) K.NET_FLOW_STATUS_DONE) := by
  rw [← installRefusal_flowIdle, ← stagedEntry_flowIdle] at refusal
  change execFlowCmdDone s = _
  rw [execFlowCmdDone, op]
  dsimp only
  rw [if_pos rfl, ← flowIdle, refusal, stagedEntry_flowIdle]

theorem execFlowCmdDone_remove (op : s.net.op = some (2, k)) :
    exec .flowCmdDone s = .next (raise (removeEntry (flowIdle s) k) K.NET_FLOW_STATUS_DONE) := by
  change execFlowCmdDone s = _
  rw [execFlowCmdDone, op]
  rfl

theorem execFlowCmdDone_read (op : s.net.op = some (3, k)) :
    exec .flowCmdDone s = .next (raise (readEntry (flowIdle s) k) K.NET_FLOW_STATUS_DONE) := by
  change execFlowCmdDone s = _
  rw [execFlowCmdDone, op]
  rfl

end

/-! ### INSTALL (R115, R117) -/

theorem flowEntry_raise (s : State) (k : Flag) (n i : Nat) : flowEntry (raise s k n) i = flowEntry s i := rfl

/-- The table with an entry put at an index, whose counts start afresh. -/
def withEntry (s : State) (i : Nat) (e : List Byte) : State :=
  { s with net := { s.net with entries := s.net.entries.put i e, runs := s.net.runs.put i {} } }

/-- Its source bound to it, where its kind is 0. -/
def entryBound (s : State) (i : Nat) (e : List Byte) : State :=
  if flowKind e = 0 then bindSource (withEntry s i e) (flowIdent e) (.flow i) else withEntry s i e

section
variable (s : State) (i : Nat) (e : List Byte)

theorem entryBound_regs : (entryBound s i e).regs = s.regs := by
  rw [entryBound]
  split <;> rfl

theorem entryBound_mem : (entryBound s i e).mem = s.mem := by
  rw [entryBound]
  split <;> rfl

theorem entryBound_net : (entryBound s i e).net = (withEntry s i e).net := by
  rw [entryBound]
  split <;> rfl

theorem entryBound_source {e : List Byte} (kind : flowKind e = 0) : (srcOf (entryBound s i e) (flowIdent e)).st = .bound := by
  rw [entryBound, if_pos kind, bindSource, updSrc_eq, srcOf_setSrc]

theorem flowEntry_entryBound_same : flowEntry (entryBound s i e) i = e := by
  rw [flowEntry, entryBound_net]
  exact Map.get_put_same _ _ _ _

theorem flowEntry_entryBound_ne {j : Nat} (h : j ≠ i) : flowEntry (entryBound s i e) j = flowEntry s j := by
  rw [flowEntry, entryBound_net]
  exact Map.get_put_ne _ _ _ h

/-- An entry installed goes to the lowest free index. -/
theorem installEntry_eq {s : State} {i : Nat} (e : List Byte) (hi : i < 1024) (free : flowValid (flowEntry s i) = false)
    (below : ∀ j < i, flowValid (flowEntry s j) = true) : installEntry s e = wr0 (entryBound s i e) F.NET_FLOW_STATUS_INDEX i := by
  have lowest : lowest 1024 (fun i => !flowValid (flowEntry s i)) = some i :=
    lowest_eq_some hi (by rw [free]; rfl) fun j hj => by rw [below j hj]; rfl
  rw [installEntry, lowest]
  rfl

end

/-! ### REMOVE (R115, R117, R118) -/

/-- An entry with VALID cleared. -/
def clearedEntry (e : List Byte) : List Byte := patchBytes e 39 [BitVec.ofNat 8 (leAt e 39 1 / 2 * 2)]

theorem flowValid_clearedEntry {e : List Byte} (h : e.length = 64) : flowValid (clearedEntry e) = false := by
  have within : 39 < e.length := by omega
  have flags : leAt (clearedEntry e) 39 1 = leAt e 39 1 / 2 * 2 % 256 := by
    rw [clearedEntry, patchBytes_eq_set _ _ within, leAt_byte (by rwa [List.length_set]), List.getElem_set_self, BitVec.toNat_ofNat]
  rw [flowValid, flowFlag, flags, bitOn_eq_testBit, Nat.testBit_zero, decide_eq_false_iff_not]
  omega

theorem getElem?_clearedEntry {e : List Byte} (h : e.length = 64) {k : Nat} (hk : k ≠ 39) : (clearedEntry e)[k]? = e[k]? := by
  rw [clearedEntry, patchBytes_eq_set _ _ (by omega), List.getElem?_set_ne hk.symm]

/-- What an entry is doing, as its removal counts it. -/
def stoppedRun (r : FlowRun) : FlowRun :=
  { r with dropped := r.dropped + bit (r.ts.isSome || !r.window.isEmpty || !r.sending.isEmpty), sent := 0, sending := [] }

/-- What an entry assembles and sends is given up. -/
def entryStopped (s : State) (i : Nat) : State := discardAssembly (updRun s i stoppedRun) i

/-- Its source an ORPHAN, where its kind is 0. -/
def entryReleased (s : State) (i : Nat) : State :=
  if flowKind (flowEntry s i) = 0 then orphanSource (entryStopped s i) (flowIdent (flowEntry s i)) else entryStopped s i

theorem removeEntry_valid {s : State} {i : Nat} (valid : flowValid (flowEntry s i) = true) : removeEntry s i =
    { entryReleased s i with net := { (entryReleased s i).net with
        entries := (entryReleased s i).net.entries.put i (clearedEntry (flowEntry s i)) } } := by
  rw [removeEntry, valid]
  rfl

theorem orphanSource_ite_eq (s : State) (id : Nat) (p : Prop) {_ : Decidable p} :
    ∃ eas, (if p then orphanSource s id else s) = { s with eas := eas } := by
  split
  · exact ⟨_, rfl⟩
  · exact ⟨_, rfl⟩

section
variable (s : State) (i : Nat)

theorem entryStopped_kept : FlowKept s (entryStopped s i) := (FlowKept.refl s).updRun.discardAssembly

theorem entryReleased_eq : ∃ eas, entryReleased s i = { entryStopped s i with eas := eas } := orphanSource_ite_eq _ _ _

theorem entryReleased_regs : (entryReleased s i).regs = (entryStopped s i).regs := by
  obtain ⟨eas, e⟩ := entryReleased_eq s i
  rw [e]

theorem entryReleased_mem : (entryReleased s i).mem = s.mem := by
  obtain ⟨eas, e⟩ := entryReleased_eq s i
  rw [e, (entryStopped_kept s i).mem]

theorem entryReleased_entries : (entryReleased s i).net.entries = s.net.entries := by
  obtain ⟨eas, e⟩ := entryReleased_eq s i
  rw [e, (entryStopped_kept s i).entries]

theorem rd_entryReleased {f : Fld} (hf : belowSluice (f.reg.addr 0 0)) : rd (entryReleased s i) f = rd s f :=
  (rd_regs (entryReleased_regs s i) f 0 0).trans ((entryStopped_kept s i).rd_eq hf)

theorem entryReleased_source {s : State} {i : Nat} (kind : flowKind (flowEntry s i) = 0)
    (bound : (srcOf s (flowIdent (flowEntry s i))).st = .bound) : (srcOf (entryReleased s i) (flowIdent (flowEntry s i))).st = .orphan := by
  rw [← (entryStopped_kept s i).sources] at bound
  rw [entryReleased, if_pos kind, orphanSource, updSrc_eq, srcOf_setSrc, if_pos bound]

end

/-! ### READ (R115) -/

/-- Words written to NET_FLOW_STAGE one after the other. -/
def stageWords (s : State) (v : Nat → Nat) (n : Nat) : State := each (upto n) (fun s k => wrReg s R.NET_FLOW_STAGE 0 k (v k)) s

section
variable (s : State) (v : Nat → Nat)

theorem rdReg_stageWords (n k : Nat) (hk : k < n) : rdReg (stageWords s v n) R.NET_FLOW_STAGE 0 k = v k % 2 ^ 64 := by
  induction n with
  | zero => omega
  | succ n ih =>
    have last : stageWords s v (n + 1) = wrReg (stageWords s v n) R.NET_FLOW_STAGE 0 n (v n) := by
      simp only [stageWords, each, upto, List.range_succ, List.foldl_append, List.foldl_cons, List.foldl_nil]
    rw [last]
    rcases eq_or_ne k n with rfl | ne
    · exact rdReg_wrReg_same _ _ _ _ _
    · rw [rdReg_wrReg_ne _ _ _ _ _ _ _ _ (by simp only [Reg.addr, R.NET_FLOW_STAGE]; simp; omega), ih (by omega)]

theorem stageWords_eq (n : Nat) : stageWords s v n = { s with regs := (stageWords s v n).regs } :=
  each_keeps (fun t => t = { s with regs := t.regs }) _ _ (fun t k _ ht => by rw [ht]; rfl) s rfl

/-- A register below NET_FLOW_STAGE is as it was. -/
theorem rd_stageWords (n : Nat) {f : Fld} (h : f.reg.addr 0 0 < R.NET_FLOW_STAGE.base) : rd (stageWords s v n) f = rd s f :=
  each_field s (fun t => rd t f) _ _ fun t k => by
    rw [rd, rdReg_wrReg_ne _ _ _ _ _ _ _ _ (Reg.addr_ne_of_lt_base h 0 k).symm, rd]

end

/-- The words of an entry in NET_FLOW_STAGE. -/
def entryStaged (s : State) (i : Nat) : State := stageWords s (fun k => leAt (flowEntry s i) (4 * k) 4) 16

/-- NET_FLOW_STATS with what an entry has counted. -/
def withStats (s : State) (r : FlowRun) : State :=
  let s := wr0 (wr0 s F.NET_FLOW_STATS_FRAMES_FRAMES (r.frames % 2 ^ 32)) F.NET_FLOW_STATS_LOSS_LOSS (min r.loss 0xFFFFFFFF)
  let s := wr0 s F.NET_FLOW_STATS_DROP_DROPPED (min (r.dropped + r.incomplete + r.tsSplit + r.auSize) 65535)
  let s := wr0 s F.NET_FLOW_STATS_DROP_DISCARD (min (r.ptMiss + r.ssrcMiss + r.dup + r.late + r.srdBad + r.unsupNal) 65535)
  wr0 s F.NET_FLOW_STATS_SSRC_SSRC_CHANGE (min r.ssrcChange 255)

section
variable (s : State) (r : FlowRun)

theorem withStats_eq : withStats s r = { s with regs := (withStats s r).regs } := rfl

theorem rd_withStats_frames : rd (withStats s r) F.NET_FLOW_STATS_FRAMES_FRAMES = r.frames % 2 ^ 32 := by
  rw [withStats, rd_wr0_apart _ _ (by decide), rd_wr0_apart _ _ (by decide), rd_wr0_apart _ _ (by decide), rd_wr0_apart _ _ (by decide)]
  exact rd_wr0_same _ _ (Nat.mod_lt _ (by decide))

theorem rd_withStats_loss : rd (withStats s r) F.NET_FLOW_STATS_LOSS_LOSS = min r.loss 0xFFFFFFFF := by
  rw [withStats, rd_wr0_apart _ _ (by decide), rd_wr0_apart _ _ (by decide), rd_wr0_apart _ _ (by decide)]
  exact rd_wr0_same _ _ (Nat.lt_of_le_of_lt (Nat.min_le_right _ _) (by decide))

theorem rd_withStats_busy : rd (withStats s r) F.NET_FLOW_STATUS_BUSY = rd s F.NET_FLOW_STATUS_BUSY := by
  rw [withStats, rd_wr0_apart _ _ (by decide), rd_wr0_apart _ _ (by decide), rd_wr0_apart _ _ (by decide), rd_wr0_apart _ _ (by decide),
    rd_wr0_apart _ _ (by decide)]

theorem rdReg_withStats_stage (k : Nat) : rdReg (withStats s r) R.NET_FLOW_STAGE 0 k = rdReg s R.NET_FLOW_STAGE 0 k := by
  have above {f : Fld} (h : f.reg.addr 0 0 < R.NET_FLOW_STAGE.base) (t : State) (v : Nat) :
      rdReg (wr0 t f v) R.NET_FLOW_STAGE 0 k = rdReg t R.NET_FLOW_STAGE 0 k := rdReg_wrReg_ne _ _ _ _ _ _ _ _ (Reg.addr_ne_of_lt_base h 0 k)
  rw [withStats, above (by decide), above (by decide), above (by decide), above (by decide), above (by decide)]

end

section
variable (s : State) (i : Nat)

theorem readEntry_eq : readEntry s i = withStats (entryStaged s i) (runOf s i) := rfl

theorem readEntry_regs : readEntry s i = { s with regs := (readEntry s i).regs } := by
  have staged : entryStaged s i = { s with regs := (entryStaged s i).regs } := stageWords_eq s _ 16
  rw [readEntry_eq, withStats_eq, staged]

theorem rdReg_readEntry_stage {k : Nat} (hk : k < 16) : rdReg (readEntry s i) R.NET_FLOW_STAGE 0 k = leAt (flowEntry s i) (4 * k) 4 := by
  have lt := leAt_lt (flowEntry s i) (4 * k) 4
  rw [readEntry_eq, rdReg_withStats_stage, entryStaged, rdReg_stageWords _ _ _ _ hk, Nat.mod_eq_of_lt (Nat.lt_trans lt (by decide))]

theorem rd_readEntry_busy : rd (readEntry s i) F.NET_FLOW_STATUS_BUSY = rd s F.NET_FLOW_STATUS_BUSY := by
  rw [readEntry_eq, rd_withStats_busy, entryStaged, rd_stageWords _ _ _ (by decide)]

end

end Sys2Proof.Machine
end

