-- ==== Sys2Proof/Proofs/FlowCommands.lean ====
section
/-!
The statement about the flow commands.
-/

namespace Sys2Proof.Machine

/-- A flow command refused at its write, by R116's BUSY: CODE 5. -/
theorem flowBusy_effect (s : State) : let t := flowRefuse s (5, 0)
    rd t F.NET_FLOW_STATUS_REFUSED = 1 ∧ rd t F.NET_FLOW_STATUS_CODE = 5 ∧ t.net = s.net ∧ t.mem = s.mem ∧ t.eas = s.eas :=
  ⟨rd_flowRefuse_refused _ _, rd_flowRefuse_code _ _ (by decide), flowRefuse_net _ _, flowRefuse_mem _ _, flowRefuse_eas _ _⟩

section
variable {s : State} {i k : Nat}

theorem flowInstall_accepted (op : s.net.op = some (1, k)) (refusal : installRefusal s (stagedEntry s) = none) (hi : i < 1024)
    (free : flowValid (flowEntry s i) = false) (below : ∀ j < i, flowValid (flowEntry s j) = true) :
    ∃ t, exec .flowCmdDone s = .next t ∧ rd t F.NET_FLOW_STATUS_BUSY = 0 ∧ rd t F.NET_FLOW_STATUS_DONE = 1 ∧
      rd t F.NET_FLOW_STATUS_INDEX = i ∧ flowEntry t i = stagedEntry s ∧ (∀ j, j ≠ i → flowEntry t j = flowEntry s j) ∧
      (flowKind (stagedEntry s) = 0 → (srcOf t (flowIdent (stagedEntry s))).st = .bound) ∧ t.net.op = none ∧ t.mem = s.mem := by
  have answer := execFlowCmdDone_accepted op refusal
  simp only [← flowEntry_flowIdle s] at free below
  rw [installEntry_eq _ hi free below] at answer
  have busy := (rd_regs (entryBound_regs (flowIdle s) i (stagedEntry s)) F.NET_FLOW_STATUS_BUSY 0 0).trans (rd_flowIdle_busy s)
  have mem := (entryBound_mem (flowIdle s) i (stagedEntry s)).trans (flowIdle_mem s)
  have net := entryBound_net (flowIdle s) i (stagedEntry s)
  have source (kind) := entryBound_source (flowIdle s) i (e := stagedEntry s) kind
  have same := flowEntry_entryBound_same (flowIdle s) i (stagedEntry s)
  have other {j} (ne) := (flowEntry_entryBound_ne (flowIdle s) i (stagedEntry s) (j := j) ne).trans (flowEntry_flowIdle s j)
  generalize entryBound (flowIdle s) i (stagedEntry s) = u at answer busy mem net source same other
  refine ⟨_, answer, ?_, rd_raise_done_flag _, ?_, same, fun j ne => other ne, source, congrArg Net.op net, mem⟩
  · rw [rd_raise_done _ (by decide), rd_wr0_apart _ _ (by decide)]
    exact busy
  · rw [rd_raise_done _ (by decide), rd_wr0_same _ _ hi]

theorem flowInstall_refused {c : Nat × Nat} (op : s.net.op = some (1, k)) (refusal : installRefusal s (stagedEntry s) = some c) :
    ∃ t, exec .flowCmdDone s = .next t ∧ rd t F.NET_FLOW_STATUS_BUSY = 0 ∧ rd t F.NET_FLOW_STATUS_DONE = 1 ∧
      rd t F.NET_FLOW_STATUS_REFUSED = 1 ∧ rd t F.NET_FLOW_STATUS_CODE = c.1 ∧ t.net = { s.net with op := none } ∧
      t.eas = s.eas ∧ t.mem = s.mem := by
  refine ⟨_, execFlowCmdDone_refused op refusal, ?_, rd_raise_done_flag _, ?_, ?_, ?_, ?_, ?_⟩
  · rw [rd_raise_done _ (by decide), rd_flowRefuse _ _ (by decide), rd_flowIdle_busy]
  · rw [rd_raise_done _ (by decide), rd_flowRefuse_refused]
  · rw [rd_raise_done _ (by decide), rd_flowRefuse_code _ _ (installRefusal_lt refusal)]
  · rw [raise_net, flowRefuse_net, flowIdle_net]
  · rw [raise_eas, flowRefuse_eas, flowIdle_eas]
  · rw [raise_mem, flowRefuse_mem, flowIdle_mem]

theorem flowRemove_completes (op : s.net.op = some (2, i)) (valid : flowValid (flowEntry s i) = true) (whole : (flowEntry s i).length = 64) :
    ∃ t, exec .flowCmdDone s = .next t ∧ rd t F.NET_FLOW_STATUS_BUSY = 0 ∧ rd t F.NET_FLOW_STATUS_DONE = 1 ∧
      flowValid (flowEntry t i) = false ∧ (∀ k, k ≠ 39 → (flowEntry t i)[k]? = (flowEntry s i)[k]?) ∧
      (∀ j, j ≠ i → flowEntry t j = flowEntry s j) ∧ t.mem = s.mem ∧
      (flowKind (flowEntry s i) = 0 → (srcOf s (flowIdent (flowEntry s i))).st = .bound →
        (srcOf t (flowIdent (flowEntry s i))).st = .orphan) := by
  have answer := execFlowCmdDone_remove op
  have entry := flowEntry_flowIdle s i
  rw [removeEntry_valid (by rw [entry, valid]), entry] at answer
  have busy := (rd_entryReleased (flowIdle s) i (f := F.NET_FLOW_STATUS_BUSY) (by decide)).trans (rd_flowIdle_busy s)
  have mem := (entryReleased_mem (flowIdle s) i).trans (flowIdle_mem s)
  have entries := entryReleased_entries (flowIdle s) i
  have source (kind) (bound) := entryReleased_source (s := flowIdle s) (i := i) kind bound
  rw [entry, srcOf_flowIdle] at source
  generalize entryReleased (flowIdle s) i = u at answer busy mem entries source
  refine ⟨_, answer, ?_, rd_raise_done_flag _, ?_, fun k hk => ?_, fun j ne => ?_, mem, source⟩
  · rw [rd_raise_done _ (by decide)]
    exact (rd_regs rfl _ 0 0).trans busy
  · rw [flowEntry_raise, flowEntry, Map.get_put_same]
    exact flowValid_clearedEntry whole
  · rw [flowEntry_raise, flowEntry, Map.get_put_same]
    exact getElem?_clearedEntry whole hk
  · rw [flowEntry_raise, flowEntry, Map.get_put_ne _ _ _ ne, entries, flowIdle_net, flowEntry]

theorem flowRead_completes (op : s.net.op = some (3, i)) :
    ∃ t, exec .flowCmdDone s = .next t ∧ rd t F.NET_FLOW_STATUS_BUSY = 0 ∧ rd t F.NET_FLOW_STATUS_DONE = 1 ∧
      (∀ k < 16, rdReg t R.NET_FLOW_STAGE 0 k = leAt (flowEntry s i) (4 * k) 4) ∧
      rd t F.NET_FLOW_STATS_FRAMES_FRAMES = (runOf s i).frames % 2 ^ 32 ∧
      rd t F.NET_FLOW_STATS_LOSS_LOSS = min (runOf s i).loss 0xFFFFFFFF ∧
      t.net = { s.net with op := none } ∧ t.mem = s.mem ∧ t.eas = s.eas := by
  have regs := readEntry_regs (flowIdle s) i
  refine ⟨_, execFlowCmdDone_read op, ?_, rd_raise_done_flag _, fun k hk => ?_, ?_, ?_, ?_, ?_, ?_⟩
  · rw [rd_raise_done _ (by decide), rd_readEntry_busy, rd_flowIdle_busy]
  · rw [rdReg_raise_done_stage, rdReg_readEntry_stage _ _ hk, flowEntry_flowIdle]
  · rw [rd_raise_done _ (by decide), readEntry_eq, rd_withStats_frames, runOf_flowIdle]
  · rw [rd_raise_done _ (by decide), readEntry_eq, rd_withStats_loss, runOf_flowIdle]
  · rw [raise_net, regs, flowIdle_net]
  · rw [raise_mem, regs, flowIdle_mem]
  · rw [raise_eas, regs, flowIdle_eas]

end

/-- Settles O24: BUSY decides a write; a completion that installs, refuses, removes or reads is followed by DONE, which leaves the other
fields of NET_FLOW_STATUS alone. -/
theorem flowCommands : Obligations.FlowCommands := by
  unfold Obligations.FlowCommands
  refine ⟨fun index s idle => ?idle, fun index s busy => ?busy, fun s k i op refusal hi free below => flowInstall_accepted op refusal hi free below,
    fun s k c op refusal => flowInstall_refused op refusal, fun s i op valid whole => flowRemove_completes op valid whole,
    fun s i op => flowRead_completes op⟩
  case idle =>
    have taken (op i : Nat) (real : op ≠ 0) : ∃ t, Host.Outcome.next (flowCmdWrite s op i) = (.next t : Host.Outcome State Fault Refusal) ∧
        rd t F.NET_FLOW_STATUS_BUSY = 1 ∧ t.net = { s.net with op := some (op, i) } ∧ t = { s with regs := t.regs, net := t.net } ∧
        sameRegsBut s t [R.NET_FLOW_STATUS.base] :=
      ⟨_, congrArg _ (flowCmdWrite_idle i real idle), flowBegun_effect s op i⟩
    exact ⟨taken 1 0 (by decide), taken 2 index.toNat (by decide), taken 3 index.toNat (by decide)⟩
  case busy =>
    have refused (op i : Nat) (real : op ≠ 0) : (Host.Outcome.next (flowCmdWrite s op i) : Host.Outcome State Fault Refusal) =
      .next (flowRefuse s (5, 0)) := congrArg _ (flowCmdWrite_busy i real busy)
    exact ⟨_, refused 1 0 (by decide), refused 2 index.toNat (by decide), refused 3 index.toNat (by decide), flowBusy_effect s⟩

end Sys2Proof.Machine
end

