-- ==== Sys2Proof/Proofs/Frames.lean ====
section
/-!
Frames that come to a port and leave it: the MACs' checks (R107 to R110), the host queues (R132 to R134), the RTP checks (R119, R120) and the
packets of canvas frames (R129, R130).
-/

namespace Sys2Proof.Machine

/-! ### Registers of a port (R16, R135, R136) -/

/-- A register that stands once in each port's block. -/
def Reg.ofPort (r : Reg) : Bool := decide (0x800000 ≤ r.base ∧ r.base < 0x810000) && r.s1 == 0x10000 && !r.remote

theorem Reg.addr_ofPort {r : Reg} (h : r.ofPort = true) (port : Nat) :
    r.addr port 0 = r.base + port * 0x10000 ∧ 0x800000 ≤ r.base ∧ r.base < 0x810000 := by
  simp only [Reg.ofPort, Bool.and_eq_true, decide_eq_true_eq, beq_iff_eq, Bool.not_eq_true'] at h
  obtain ⟨⟨⟨lo, hi⟩, stride⟩, near⟩ := h
  simp [Reg.addr, near, stride, lo, hi]

/-- No access of a hardware master writes it. -/
theorem Reg.besideAccess_of_port {r : Reg} (h : r.ofPort = true) (port : Fin 16) : besideAccess (r.addr port.val 0) := by
  obtain ⟨addr, lo, hi⟩ := Reg.addr_ofPort h port.val
  have := port.isLt
  unfold besideAccess
  omega

theorem raise_frame (s : State) (k : Flag) (n : Nat) : sameRegsBut s (raise s k n) [k.fld.reg.addr n 0, k.cnt.reg.addr n 0] := fun a ha => by
  simp only [List.mem_cons, List.not_mem_nil, or_false, not_or] at ha
  exact (Map.find_put_ne _ _ ha.2).trans (Map.find_put_ne _ _ ha.1)

/-- A flag of a port that is raised reads 1. -/
theorem rd_raise_port (s : State) {k : Flag} (port : Nat) (hw : k.fld.w = 1) (hlo : k.fld.lo < 64)
    (apart : k.fld.reg.apart k.cnt.reg = true) : rd (raise s k port) k.fld port = 1 :=
  rd_raise_flag _ _ _ hw hlo (.inr (Reg.apart_addr apart port))

/-! ### The MAC (R101, R107, R109) -/

/-- A port's MAC has taken its receive stamp. -/
def rxStamped (s : State) (port : Nat) : State := { s with net := { s.net with rxStamp := s.net.rxStamp.put port (netNs s) } }

theorem accepts_rxStamped (s : State) (port : Nat) (b : List Byte) (p : Parsed) :
    accepts (rxStamped s port) port b p = accepts s port b p := rfl

section
variable {port : Fin 16} {b : List Byte} {ok : Bool} {s : State}

theorem execMacFrameRx_down (down : macUp s port.val = false) : exec (.macFrameRx port b ok) s = .next s := if_pos (by rw [down]; rfl)

theorem execMacFrameRx_bad (up : macUp s port.val = true) (bad : ok = false ∨ b.length < 64 ∨ 9216 < b.length) :
    exec (.macFrameRx port b ok) s = .next (raise (rxStamped s port) K.NET_MAC_EVENT_RX_BAD port) := by
  refine (if_neg (by simp [up])).trans (if_pos ?_)
  rcases bad with rfl | short | long
  · exact .inr (.inr rfl)
  · exact .inl short
  · exact .inr (.inl long)

/-- Where a frame goes that is neither refused nor the clock's: to the host queues, or to the entry that its datagram matches. -/
def frameTaken (s : State) (port : Nat) (b : List Byte) (p : Parsed) : Host.Outcome State Fault Refusal :=
  match p.dgram.bind fun d => (flowFor s port d).map fun e => (e, d) with
  | none => if accessWaits s 53 then .next s
    else .next (hostDeliver (rxStamped s port) (rd s F.NET_MAC_CTRL_HOSTQ port) port b p)
  | some (e, d) =>
    if accessWaits s (flowMaster s e.2) then .next s
    else if flowKind e.2 = 4 then .next (hostDeliver (rxStamped s port) (flowIdent e.2 % 16) port b p)
    else .next (flowRtp (rxStamped s port) e.1 e.2 d.payload)

variable (up : macUp s port.val = true) (lo : 64 ≤ b.length) (hi : b.length ≤ 9216)
  (pass : accepts s port.val (b.take (b.length - 4)) (parseFrame (b.take (b.length - 4))) = true)
  (good : (parseFrame (b.take (b.length - 4))).bad = false) (pause : (parseFrame (b.take (b.length - 4))).ty ≠ 0x8808)
  (ptp : isPtp (parseFrame (b.take (b.length - 4))) = false)
include up lo hi pass good pause ptp

/-- A frame passes the MAC's checks, in their order: the link, length and FCS, the pause frame, the address filter, the checksums, PTP. -/
theorem execMacFrameRx_taken : exec (.macFrameRx port b true) s = frameTaken s port.val b (parseFrame (b.take (b.length - 4))) := by
  refine (if_neg (by simp [up])).trans <| (if_neg (by simp [lo, hi])).trans <| (if_neg pause).trans <| (if_neg ?_).trans <|
    (if_neg (by simp [good])).trans <| (if_neg (by simp [ptp])).trans ?_
  · rw [← rxStamped, accepts_rxStamped, pass]
    decide
  · rfl

theorem execMacFrameRx_host (other : (parseFrame (b.take (b.length - 4))).dgram = none) (free : accessWaits s 53 = false) :
    exec (.macFrameRx port b true) s =
      .next (hostDeliver (rxStamped s port.val) (rd s F.NET_MAC_CTRL_HOSTQ port.val) port.val b (parseFrame (b.take (b.length - 4)))) := by
  rw [execMacFrameRx_taken up lo hi pass good pause ptp, frameTaken, other]
  exact if_neg (by simp [free])

theorem execMacFrameRx_flow {d : Datagram} {i : Nat} {e : List Byte} (dgram : (parseFrame (b.take (b.length - 4))).dgram = some d)
    (found : flowFor s port.val d = some (i, e)) (kind : flowKind e ≤ 2) (free : accessWaits s (flowMaster s e) = false) :
    exec (.macFrameRx port b true) s = .next (flowRtp (rxStamped s port.val) i e d.payload) := by
  rw [execMacFrameRx_taken up lo hi pass good pause ptp, frameTaken, dgram, Option.bind_some, found]
  exact (if_neg (by simp [free])).trans (if_neg (show flowKind e ≠ 4 by omega))

end

/-! ### Receive host queues (R132 to R134) -/

/-- The descriptor that a frame to queue `q` reads. -/
def hostDescriptor (s : State) (q : Nat) : State × Nat × List Byte := busRead s 53 (Config.hostRing q + 32 * s.net.rxPos.get q 0) 32

/-- A descriptor that cannot be read, is in use, or names too small a buffer. -/
def hostFull (r : State × Nat × List Byte) : Prop := r.2.1 ≠ 0 ∨ bitOn (leAt r.2.2 13 1) 0 = true ∨ leAt r.2.2 8 2 < 64

/-- The frame and what the descriptor says of it, written. -/
def hostWritten (s : State) (q port : Nat) (b : List Byte) (p : Parsed) : State :=
  let r := hostDescriptor s q
  let n := leAt r.2.2 8 2
  let t := netNs s
  let status := 1 + 2 * bit (decide (n < b.length)) + 4 * bit p.sumGood + 8 * bit (isPtp p)
  let u := (busWrite r.1 53 (leAt r.2.2 0 8 / 64 * 64) (b.take n)).1
  (busWrite u 53 (Config.hostRing q + 32 * s.net.rxPos.get q 0 + 10) (leBytes b.length 2 ++ [BitVec.ofNat 8 port, BitVec.ofNat 8 status, 0, 0] ++
    leBytes (t % 1000000000) 4 ++ leBytes (t / 1000000000) 6 ++ List.replicate 6 0)).1

/-- A receive queue moved on by one descriptor. -/
def hostMoved (s : State) (q : Nat) : State :=
  { s with net := { s.net with rxPos := s.net.rxPos.put q ((s.net.rxPos.get q 0 + 1) % max 1 (Config.hostSlots q)) } }

section
variable (s : State) (q port : Nat) (b : List Byte) (p : Parsed)

theorem hostDeliver_full {s : State} {q : Nat} (full : hostFull (hostDescriptor s q)) :
    hostDeliver s q port b p = raise (hostDescriptor s q).1 K.NET_MAC_EVENT_HOSTQ_FULL port := if_pos full

/-- A frame that is delivered moves the queue on by one descriptor. -/
theorem hostDeliver_free {s : State} {q : Nat} (free : ¬ hostFull (hostDescriptor s q)) :
    hostDeliver s q port b p = hostMoved (hostWritten s q port b p) q := by
  unfold hostDeliver hostMoved hostWritten hostDescriptor
  exact if_neg free

theorem hostDescriptor_net : (hostDescriptor s q).1.net = s.net := (portSide_iff.1 (portSide_busRead _ _ _ _)).1

theorem hostWritten_net : (hostWritten s q port b p).net = s.net :=
  (portSide_iff.1 (((portSide_busWrite _ _ _ _).trans (portSide_busWrite _ _ _ _)).trans (portSide_busRead _ _ _ _))).1

theorem hostWritten_kept : PathKept s (hostWritten s q port b p) := (AccessKept.refl s).busRead.busWrite.busWrite

end

section
variable (s : State) (q : Nat) (port : Fin 16) (b : List Byte) (p : Parsed)

theorem hostDeliver_full_effect {s : State} {q : Nat} (full : hostFull (hostDescriptor s q)) : let t := hostDeliver s q port b p
    rd t F.NET_MAC_EVENT_HOSTQ_FULL port.val = 1 ∧ t.net = s.net ∧ t.mem = s.mem := by
  rw [hostDeliver_full port b p full]
  exact ⟨rd_raise_port _ _ rfl (by decide) (by decide), hostDescriptor_net s q, busRead_mem _ _ _ _⟩

theorem hostDeliver_free_effect {s : State} {q : Nat} (free : ¬ hostFull (hostDescriptor s q)) : let t := hostDeliver s q port b p
    t.net.rxPos.get q 0 = (s.net.rxPos.get q 0 + 1) % max 1 (Config.hostSlots q) ∧ t.net.entries = s.net.entries ∧ t.net.runs = s.net.runs ∧
      rd t F.NET_MAC_EVENT_HOSTQ_FULL port.val = rd s F.NET_MAC_EVENT_HOSTQ_FULL port.val := by
  have net := hostWritten_net s q port b p
  have flag := (hostWritten_kept s q port b p).rd_eq (f := F.NET_MAC_EVENT_HOSTQ_FULL) (Reg.besideAccess_of_port (by decide) port)
  rw [hostDeliver_free port b p free]
  generalize hostWritten s q port b p = u at net flag
  refine ⟨?_, (congrArg Net.entries net :), (congrArg Net.runs net :), (rd_regs rfl _ _ _).trans flag⟩
  rw [← net]
  exact Map.get_put_same _ _ _ _

end

/-! ### Transmit host queues (R83, R132) -/

section
variable {queue port : Fin 16} {s : State}

theorem execHostqTxFrame_idle (h : queue ≠ port ∨ macUp s port.val = false) : exec (.hostqTxFrame queue port) s = .next s := by
  refine if_pos ?_
  rcases h with other | down
  · exact .inl other
  · exact .inr (.inl (by rw [down]; rfl))

/-- The state after the two reads of a transmit slot, with the queue moved on. -/
def txMoved (s u : State) (port : Nat) : State :=
  { u with net := { u.net with txPos := u.net.txPos.put port ((s.net.txPos.get port 0 + 1) % max 1 (Config.hostTxSlots port)) } }

/-- The descriptor of a transmit queue's next slot, and the frame that it names. -/
def txSlot (s : State) (port : Nat) : State × Nat × List Byte := busRead s 53 (Config.hostTxRing port + 32 * s.net.txPos.get port 0) 32

def txFrame (s : State) (port : Nat) : State × Nat × List Byte :=
  let d := Config.txDescriptor (txSlot s port).2.2
  busRead (txSlot s port).1 53 d.1 (d.2 % 9217)

theorem execHostqTxFrame_taken (up : macUp s port.val = true) (free : accessWaits s 53 = false) : exec (.hostqTxFrame port port) s =
    .next (if (txSlot s port).2.1 = 0 ∧ (txFrame s port).2.1 = 0 then
      sendEth (txMoved s (txFrame s port).1 port) port (txFrame s port).2.2 else txMoved s (txFrame s port).1 port) :=
  if_neg (by simp [up, free])

theorem txMoved_frame (s : State) (port : Nat) : let u := txMoved s (txFrame s port).1 port
    u.net = { s.net with txPos := s.net.txPos.put port ((s.net.txPos.get port 0 + 1) % max 1 (Config.hostTxSlots port)) } ∧
      u.out = s.out ∧ netNs u = netNs s ∧ u.mem = s.mem ∧ u.eas = s.eas := by
  have ports : portSide (txFrame s port).1 = portSide s := (portSide_busRead _ _ _ _).trans (portSide_busRead _ _ _ _)
  have mem : (txFrame s port).1.mem = s.mem := (busRead_mem _ _ _ _).trans (busRead_mem _ _ _ _)
  have eas : (txFrame s port).1.eas = s.eas := (busRead_kept _ _ _ _).eas.trans (busRead_kept _ _ _ _).eas
  generalize txFrame s port = b at ports mem eas
  obtain ⟨net, out, time⟩ := portSide_iff.1 ports
  refine ⟨?_, out, ?_, mem, eas⟩
  · rw [txMoved, net]
  · rw [netNs, netNs, ← time]
    rfl

/-- A queue's port sends the frame, unless a read errs; its slot is taken in either case. -/
theorem hostqTxFrame_sends (up : macUp s port.val = true) (free : accessWaits s 53 = false) : ∃ t, exec (.hostqTxFrame port port) s = .next t ∧
    t.net.txPos = s.net.txPos.put port.val ((s.net.txPos.get port.val 0 + 1) % max 1 (Config.hostTxSlots port.val)) ∧
    t.mem = s.mem ∧ t.eas = s.eas ∧
    ((txSlot s port).2.1 = 0 → (txFrame s port).2.1 = 0 →
      t.out = .frame port.val (txFrame s port).2.2 :: s.out ∧ t.net.txStamp = s.net.txStamp.put port.val (netNs s)) ∧
    ((txSlot s port).2.1 ≠ 0 ∨ (txFrame s port).2.1 ≠ 0 → t.out = s.out ∧ t.net.txStamp = s.net.txStamp) := by
  have answer := execHostqTxFrame_taken up free
  obtain ⟨net, out, ns, mem, eas⟩ := txMoved_frame s port
  generalize txMoved s (txFrame s port).1 port = u at answer net out ns mem eas
  by_cases read : (txSlot s port).2.1 = 0 ∧ (txFrame s port).2.1 = 0
  · rw [if_pos read] at answer
    refine ⟨_, answer, congrArg Net.txPos net, mem, eas, fun _ _ => ⟨congrArg (List.cons _) out, ?_⟩, fun err => absurd read (by omega)⟩
    change u.net.txStamp.put port (netNs u) = _
    rw [net, ns]
  · rw [if_neg read] at answer
    exact ⟨_, answer, congrArg Net.txPos net, mem, eas, fun slot frame => absurd ⟨slot, frame⟩ read,
      fun _ => ⟨out, (congrArg Net.txStamp net :)⟩⟩

end

/-! ### RTP (R119, R120) -/

/-- A packet of version 2 without padding, extension or contributing sources, and of another payload type, is counted alone. -/
theorem flowRtp_ptMiss (s : State) (i : Nat) {e p : List Byte} (head : leAt p 0 1 = 0x80) (size : 12 ≤ p.length)
    (other : leAt p 1 1 % 128 ≠ flowPt e) : flowRtp s i e p = updRun s i fun r => { r with ptMiss := r.ptMiss + 1 } := by
  have plain : ¬ (0x80 / 64 ≠ 2 ∨ p.length < 12) := by omega
  rw [flowRtp, head]
  exact (if_neg plain).trans (if_pos other)

theorem runOf_updRun_same (s : State) (i : Nat) (f : FlowRun → FlowRun) : runOf (updRun s i f) i = f (runOf s i) := Map.get_put_same _ _ _ _

theorem runOf_updRun_ne (s : State) {i j : Nat} (f : FlowRun → FlowRun) (h : j ≠ i) : runOf (updRun s i f) j = runOf s j :=
  Map.get_put_ne _ _ _ h

/-! ### Packets of canvas frames (R129, R130) -/

/-- What an entry is doing once a packet of its oldest frame has left. -/
def packetSent (r : FlowRun) (rest : List SendFrame) (last : Bool) : FlowRun :=
  { r with sent := if last then 0 else r.sent + 1, sending := if last then rest else r.sending, frames := r.frames + bit last
           rtpSeq := (r.rtpSeq + 1) % 2 ^ 32 }

theorem sendFrame_dst (s : State) (e payload : List Byte) : (sendFrame s e payload).take 6 = bytesAt e 54 6 := by
  simp only [sendFrame, List.append_assoc]
  exact List.take_left' (bytesAt_length e 54 6)

section
variable {index : BitVec 10} {s : State} {f : SendFrame} {rest : List SendFrame}

theorem execSt2110PacketSend_sends (valid : flowValid (flowEntry s index.toNat) = true) (kind : flowKind (flowEntry s index.toNat) = 3)
    (up : macUp s (sendPort (flowEntry s index.toNat)) = true) (sending : (runOf s index.toNat).sending = f :: rest)
    (held : ∀ p ∈ sendPieces (flowFlag (flowEntry s index.toNat) 6) (flowWidth (flowEntry s index.toNat)) (f.lines.headD []).length f.height
      (runOf s index.toNat).sent, p.1 < f.lines.length) :
    let e := flowEntry s index.toNat
    let r := runOf s index.toNat
    let n := (f.lines.headD []).length
    let ps := sendPieces (flowFlag e 6) (flowWidth e) n f.height r.sent
    let last := decide (sendCount (flowFlag e 6) (flowWidth e) n f.height ≤ r.sent + 1)
    exec (.st2110PacketSend index) s = .next (updRun (draw (sendEth s (sendPort e) (sendFrame s e (sendRtp e r.rtpSeq f ps last)))) index.toNat
      fun r => packetSent r rest last) := by
  have ready : (flowValid (flowEntry s index.toNat) && flowKind (flowEntry s index.toNat) == 3 && macUp s (sendPort (flowEntry s index.toNat)) &&
      (sendPieces (flowFlag (flowEntry s index.toNat) 6) (flowWidth (flowEntry s index.toNat)) (f.lines.headD []).length f.height
        (runOf s index.toNat).sent).all fun p => decide (p.1 < f.lines.length)) = true := by
    simp only [valid, kind, up, Bool.true_and, beq_self_eq_true, List.all_eq_true, decide_eq_true_eq]
    exact held
  change execSt2110PacketSend index s = _
  rw [execSt2110PacketSend]
  dsimp only
  rw [sending]
  exact if_neg (by rw [ready]; decide)

end

end Sys2Proof.Machine
end

