-- ==== Sys2Proof/Proofs/EthernetLinks.lean ====
section
/-!
Ethernet links that go down and up (R82, R131, R135, R136), and the statement about frames and links.
-/

namespace Sys2Proof.Machine

/-! ### Registers of ports and lanes -/

/-- The registers of two ports stand apart. -/
theorem Reg.addr_ne_of_port_ne {r r' : Reg} (h : r.ofPort = true) (h' : r'.ofPort = true) {i j : Nat} (ne : i ≠ j) :
    r.addr i 0 ≠ r'.addr j 0 := by
  obtain ⟨addr, lo, hi⟩ := Reg.addr_ofPort h i
  obtain ⟨addr', lo', hi'⟩ := Reg.addr_ofPort h' j
  omega

/-- The registers of the ports stand below those of the clock. -/
theorem Reg.addr_lt_ptp {r : Reg} (h : r.ofPort = true) {i : Nat} (hi : i < 16) : r.addr i 0 < 0xA00000 := by
  obtain ⟨addr, -, hi⟩ := Reg.addr_ofPort h i
  omega

/-- The registers of the lanes stand below those of the ports. -/
theorem laneStatus_lt_port {l : Nat} (hl : l < 64) : R.LANE_STATUS.addr l 0 < 0x800000 := by
  have addr : R.LANE_STATUS.addr l 0 = 0x400008 + l * 0x800 := by simp [Reg.addr, R.LANE_STATUS]
  omega

/-- An Ethernet port is served by one of the 16 quads. -/
theorem ethQuad_lt {s : State} {port q : Nat} (hp : port < 16) (h : ethQuad s port = some q) : q < 16 := by
  unfold ethQuad at h
  dsimp only at h
  split at h
  · cases h
    omega
  · have mem := List.mem_of_mem_filter (List.mem_of_getElem? h)
    exact List.mem_range.1 (List.mem_of_mem_filter mem)

/-! ### The clock's port (R82) -/

section
variable (s : State)

theorem ptpRebind_cases : ptpRebind s = s ∨ ∃ o, ptpRebind s = wr0 s F.PTP_STATE_PORT_ACTIVE o := by
  unfold ptpRebind
  exact (ite_eq_or_eq _ _ _).elim (fun moved => .inr ⟨_, moved⟩) .inl

theorem ptpRebind_eq : ptpRebind s = { s with regs := (ptpRebind s).regs } := by
  rcases ptpRebind_cases s with e | ⟨o, e⟩ <;> rw [e]
  rfl

theorem ptpRebind_frame : sameRegsBut s (ptpRebind s) [R.PTP_STATE.base] := fun a ha => by
  rcases ptpRebind_cases s with e | ⟨o, e⟩ <;> rw [e]
  exact Map.find_put_ne _ _ fun same => ha (List.mem_singleton.2 same)

theorem rd_ptpRebind {f : Fld} {i : Nat} (h : f.reg.addr i 0 ≠ R.PTP_STATE.base) : rd (ptpRebind s) f i = rd s f i := by
  simp only [rd, rdReg, Map.get, ptpRebind_frame s _ (by simpa using h)]

variable {s}

/-- The clock moves to the alternate port when the port in use, the one of PORT, is down. -/
theorem ptpRebind_alt (en : rd s F.PTP_CTRL_ALT_EN = 1) (active : rd s F.PTP_STATE_PORT_ACTIVE = rd s F.PTP_CTRL_PORT)
    (down : portUp s (rd s F.PTP_CTRL_PORT) = false) (up : portUp s (rd s F.PTP_CTRL_ALT_PORT) = true) :
    rd (ptpRebind s) F.PTP_STATE_PORT_ACTIVE = rd s F.PTP_CTRL_ALT_PORT := by
  have moves : ptpRebind s = wr0 s F.PTP_STATE_PORT_ACTIVE (rd s F.PTP_CTRL_ALT_PORT) := by
    rw [ptpRebind, active, if_pos rfl]
    exact if_pos (by simp [rdb, en, down, up])
  rw [moves]
  exact rd_wr0_same _ _ (slice_lt _ _ 4)

end

/-! ### ETH_LINK_DOWN (R82, R131, R136) -/

/-- A port's status cleared, with its flag raised. -/
def linkCleared (s : State) (port : Nat) : State :=
  raise (wr (wr s F.NET_MAC_STATUS_LINK_UP port 0 0) F.NET_MAC_STATUS_FEC_LOCK port 0 0) K.NET_MAC_EVENT_LINK_DOWN port

/-- The frames that a send entry of a port has under way are given up, and counted. -/
def cutRun (port : Nat) (s : State) (e : Nat × List Byte) : State :=
  if sendPort e.2 = port then updRun s e.1 fun r => { r with dropped := r.dropped + r.sending.length, sent := 0, sending := [] } else s

/-- A port that has gone down, before the clock looks for another. -/
def linkDropped (s : State) (port : Nat) : State := each (sendEntries s) (cutRun port) (linkCleared s port)

section
variable (s : State) (port : Nat)

theorem ethDown_up {s : State} {port : Nat} (up : rd s F.NET_MAC_STATUS_LINK_UP port = 1) :
    ethDown s port = ptpRebind (linkDropped s port) := if_neg (by simp [portUp, rdb, up])

/-- Giving up frames changes what entries do, and nothing else. -/
theorem cutRun_eq (e : Nat × List Byte) : ∃ runs, cutRun port s e = { s with net := { s.net with runs := runs } } := by
  unfold cutRun
  split
  · exact ⟨_, rfl⟩
  · exact ⟨_, rfl⟩

theorem cutRuns_eq (l : List (Nat × List Byte)) : ∃ runs, each l (cutRun port) s = { s with net := { s.net with runs := runs } } := by
  refine each_keeps (fun t => ∃ runs, t = { s with net := { s.net with runs := runs } }) _ l (fun t e _ ht => ?_) s ⟨_, rfl⟩
  obtain ⟨runs, rfl⟩ := ht
  exact cutRun_eq _ port e

theorem linkDropped_regs : (linkDropped s port).regs = (linkCleared s port).regs := by
  obtain ⟨runs, e⟩ := cutRuns_eq (linkCleared s port) port (sendEntries s)
  rw [linkDropped, e]

theorem linkDropped_kept : (linkDropped s port).mem = s.mem ∧ (linkDropped s port).eas = s.eas ∧ (linkDropped s port).out = s.out := by
  obtain ⟨runs, e⟩ := cutRuns_eq (linkCleared s port) port (sendEntries s)
  rw [linkDropped, e]
  exact ⟨rfl, rfl, rfl⟩

/-- An entry has nothing of a frame under way. -/
def runCut (i : Nat) (s : State) : Prop := (runOf s i).sent = 0 ∧ (runOf s i).sending = []

theorem runCut_cutRun {s : State} {i : Nat} (h : runCut i s) (e : Nat × List Byte) : runCut i (cutRun port s e) := by
  unfold cutRun runCut
  split
  · rcases eq_or_ne i e.1 with rfl | ne
    · rw [runOf_updRun_same]
      exact ⟨rfl, rfl⟩
    · rw [runOf_updRun_ne _ _ ne]
      exact h
  · exact h

theorem runCut_cutRun_self {e : Nat × List Byte} (h : sendPort e.2 = port) : runCut e.1 (cutRun port s e) := by
  rw [cutRun, if_pos h, runCut, runOf_updRun_same]
  exact ⟨rfl, rfl⟩

theorem linkDropped_cut {e : Nat × List Byte} (he : e ∈ sendEntries s) (h : sendPort e.2 = port) : runCut e.1 (linkDropped s port) := by
  obtain ⟨before, after, split⟩ := List.append_of_mem he
  rw [linkDropped, split, each, List.foldl_append, List.foldl_cons]
  exact each_keeps (runCut e.1) _ after (fun t x _ ht => runCut_cutRun port ht x) _ (runCut_cutRun_self _ port h)

theorem rd_linkDropped (f : Fld) (i : Nat) : rd (linkDropped s port) f i = rd (linkCleared s port) f i := rd_regs (linkDropped_regs s port) f i 0

/-- A field of another register than the port's status, its flags and their counts. -/
theorem rd_linkCleared {f : Fld} {i : Nat} (status : f.reg.addr i 0 ≠ R.NET_MAC_STATUS.addr port 0)
    (event : f.reg.addr i 0 ≠ R.NET_MAC_EVENT.addr port 0)
    (count : f.reg.addr i 0 ≠ R.NET_MAC_EVENT_CNT.addr port 0) : rd (linkCleared s port) f i = rd s f i := by
  rw [linkCleared, rd_raise_reg _ _ _ _ _ _ event count, rd_wr_reg _ _ _ _ _ _ _ _ status, rd_wr_reg _ _ _ _ _ _ _ _ status]

/-- A field of the port's status as the writes leave it. -/
theorem rd_linkCleared_status {f : Fld} (h : f.reg = R.NET_MAC_STATUS) : rd (linkCleared s port) f port =
    rd (wr (wr s F.NET_MAC_STATUS_LINK_UP port 0 0) F.NET_MAC_STATUS_FEC_LOCK port 0 0) f port := by
  refine rd_raise_reg _ _ _ _ _ _ ?_ ?_ <;> rw [h]
  · exact Reg.apart_addr (by decide) port
  · exact Reg.apart_addr (by decide) port

theorem rd_linkCleared_up : rd (linkCleared s port) F.NET_MAC_STATUS_LINK_UP port = 0 := by
  rw [rd_linkCleared_status _ _ rfl, rd_wr_field _ F.NET_MAC_STATUS_FEC_LOCK F.NET_MAC_STATUS_LINK_UP _ _ _ rfl (by decide) (by decide),
    rd_wr_same _ _ _ _ _ (by decide), Nat.zero_mod]

theorem rd_linkCleared_fec : rd (linkCleared s port) F.NET_MAC_STATUS_FEC_LOCK port = 0 := by
  rw [rd_linkCleared_status _ _ rfl, rd_wr_same _ _ _ _ _ (by decide), Nat.zero_mod]

theorem rd_linkCleared_event : rd (linkCleared s port) F.NET_MAC_EVENT_LINK_DOWN port = 1 :=
  rd_raise_port _ port rfl (by decide) (by decide)

variable {port}

/-- A register of the clock keeps its value. -/
theorem rd_linkDropped_ptp (hp : port < 16) {f : Fld} (h : 0xA00000 ≤ f.reg.base) : rd (linkDropped s port) f = rd s f := by
  have above {r : Reg} (hr : r.ofPort = true) : f.reg.addr 0 0 ≠ r.addr port 0 :=
    Reg.addr_ne_of_lt_base (Nat.lt_of_lt_of_le (Reg.addr_lt_ptp hr hp) h) 0 0
  rw [rd_linkDropped, rd_linkCleared _ _ (above (by decide)) (above (by decide)) (above (by decide))]

/-- Another port stays up or down. -/
theorem rd_linkDropped_other {o : Nat} (ne : o ≠ port) : rd (linkDropped s port) F.NET_MAC_STATUS_LINK_UP o = rd s F.NET_MAC_STATUS_LINK_UP o := by
  have other {r : Reg} (hr : r.ofPort = true) : R.NET_MAC_STATUS.addr o 0 ≠ r.addr port 0 := Reg.addr_ne_of_port_ne (by decide) hr ne
  rw [rd_linkDropped, rd_linkCleared _ _ (other (by decide)) (other (by decide)) (other (by decide))]

end

/-- A link goes down. -/
theorem ethLinkDown_effect {port : Fin 16} {s : State} (up : rd s F.NET_MAC_STATUS_LINK_UP port.val = 1) : ∃ t,
    exec (.ethLinkDown port) s = .next t ∧ rd t F.NET_MAC_STATUS_LINK_UP port.val = 0 ∧
      rd t F.NET_MAC_STATUS_FEC_LOCK port.val = 0 ∧ rd t F.NET_MAC_EVENT_LINK_DOWN port.val = 1 ∧
      (∀ x ∈ sendEntries s, sendPort x.2 = port.val → runCut x.1 t) ∧ t.mem = s.mem ∧ t.eas = s.eas ∧ t.out = s.out ∧
      (rd s F.PTP_CTRL_ALT_EN = 1 → rd s F.PTP_CTRL_PORT = port.val → rd s F.PTP_STATE_PORT_ACTIVE = port.val →
        rd s F.PTP_CTRL_ALT_PORT ≠ port.val → rd s F.NET_MAC_STATUS_LINK_UP (rd s F.PTP_CTRL_ALT_PORT) = 1 →
        rd t F.PTP_STATE_PORT_ACTIVE = rd s F.PTP_CTRL_ALT_PORT) := by
  have answer : exec (.ethLinkDown port) s = .next (ptpRebind (linkDropped s port)) := congrArg _ (ethDown_up up)
  have ofPort {f : Fld} (h : f.reg.ofPort = true) : rd (ptpRebind (linkDropped s port)) f port = rd (linkCleared s port) f port := by
    rw [rd_ptpRebind _ (Nat.ne_of_lt (Nat.lt_trans (Reg.addr_lt_ptp h port.isLt) (by decide))), rd_linkDropped]
  obtain ⟨mem, eas, out⟩ := linkDropped_kept s port
  have clock {f : Fld} (h : 0xA00000 ≤ f.reg.base) := rd_linkDropped_ptp s port.isLt h
  have cut {x} (hx : x ∈ sendEntries s) (h) := linkDropped_cut s port.val hx h
  have down : portUp (linkDropped s port) port = false := by
    rw [portUp, rdb, rd_linkDropped, rd_linkCleared_up]
    decide
  have other {o : Nat} (ne : o ≠ port) := rd_linkDropped_other s ne
  refine ⟨_, answer, ?_, ?_, ?_, fun x hx h => ?_, ?_, ?_, ?_, fun en bound active ne up => ?_⟩
  · rw [ofPort (by decide), rd_linkCleared_up]
  · rw [ofPort (by decide), rd_linkCleared_fec]
  · rw [ofPort (by decide), rd_linkCleared_event]
  · rw [ptpRebind_eq]
    exact cut hx h
  · rw [ptpRebind_eq, mem]
  · rw [ptpRebind_eq, eas]
  · rw [ptpRebind_eq, out]
  · have alt : rd (linkDropped s port) F.PTP_CTRL_ALT_PORT = rd s F.PTP_CTRL_ALT_PORT := clock (by decide)
    have bound' : rd (linkDropped s port) F.PTP_CTRL_PORT = port := (clock (by decide)).trans bound
    rw [ptpRebind_alt ((clock (by decide)).trans en) ((clock (by decide)).trans (active.trans bound'.symm)) (by rw [bound', down]), alt]
    rw [alt, portUp, rdb, other ne, up]
    decide

/-! ### ETH_LINK_UP (R82, R135, R522) -/

/-- A port and its lane locked, before the clock looks for a port. -/
def linkLocked (s : State) (port lane : Nat) : State :=
  wr (wr (wr (wr s F.LANE_STATUS_CDR_LOCK lane 0 1) F.LANE_STATUS_PCS_LOCK lane 0 1) F.NET_MAC_STATUS_LINK_UP port 0 1)
    F.NET_MAC_STATUS_FEC_LOCK port 0 (bit (rdb s F.NET_MAC_CTRL_FEC_EN port && rdb s F.NET_MAC_CTRL_RATE port))

theorem execEthLinkUp_locks {port : Fin 16} {q : Nat} {s : State} (quad : ethQuad s port.val = some q) (en : rd s F.NET_MAC_CTRL_EN port.val = 1)
    (pll : (s.lane.get q {}).pll = true) (down : rd s F.NET_MAC_STATUS_LINK_UP port.val = 0)
    (untested : testSet s (4 * q + port.val % 4) = false) :
    exec (.ethLinkUp port) s = .next (ptpRebind (linkLocked s port.val (4 * q + port.val % 4))) := by
  change execEthLinkUp port s = _
  rw [execEthLinkUp, quad]
  exact if_neg (by simp [rdb, portUp, en, pll, down, untested])

section
variable (s : State) (port lane : Nat)

theorem linkLocked_eq : linkLocked s port lane = { s with regs := (linkLocked s port lane).regs } := rfl

theorem linkLocked_frame : sameRegsBut s (linkLocked s port lane) [R.NET_MAC_STATUS.addr port 0, R.LANE_STATUS.addr lane 0] := fun a ha => by
  simp only [List.mem_cons, List.not_mem_nil, or_false, not_or] at ha
  obtain ⟨mac, lane⟩ := ha
  exact (Map.find_put_ne _ _ mac).trans ((Map.find_put_ne _ _ mac).trans ((Map.find_put_ne _ _ lane).trans (Map.find_put_ne _ _ lane)))

theorem rd_linkLocked_up : rd (linkLocked s port lane) F.NET_MAC_STATUS_LINK_UP port = 1 := by
  rw [linkLocked, rd_wr_field _ F.NET_MAC_STATUS_FEC_LOCK F.NET_MAC_STATUS_LINK_UP _ _ _ rfl (by decide) (by decide),
    rd_wr_same _ _ _ _ _ (by decide)]
  rfl

theorem rd_linkLocked_fec : rd (linkLocked s port lane) F.NET_MAC_STATUS_FEC_LOCK port =
    bit (rdb s F.NET_MAC_CTRL_FEC_EN port && rdb s F.NET_MAC_CTRL_RATE port) := by
  rw [linkLocked, rd_wr_same _ _ _ _ _ (by decide)]
  cases rdb s F.NET_MAC_CTRL_FEC_EN port && rdb s F.NET_MAC_CTRL_RATE port <;> rfl

variable {lane}

/-- A field of the lane's status as its own writes leave it. -/
theorem rd_linkLocked_lane (hl : lane < 64) {f : Fld} (h : f.reg = R.LANE_STATUS) : rd (linkLocked s port lane) f lane =
    rd (wr (wr s F.LANE_STATUS_CDR_LOCK lane 0 1) F.LANE_STATUS_PCS_LOCK lane 0 1) f lane := by
  have ne : f.reg.addr lane 0 ≠ R.NET_MAC_STATUS.addr port 0 := by
    rw [h]
    exact (Reg.addr_ne_of_lt_base (Nat.lt_trans (laneStatus_lt_port hl) (by decide)) port 0).symm
  rw [linkLocked, rd_wr_reg _ _ _ _ _ _ _ _ ne, rd_wr_reg _ _ _ _ _ _ _ _ ne]

theorem rd_linkLocked_cdr (hl : lane < 64) : rd (linkLocked s port lane) F.LANE_STATUS_CDR_LOCK lane = 1 := by
  rw [rd_linkLocked_lane _ _ hl rfl, rd_wr_field _ F.LANE_STATUS_PCS_LOCK F.LANE_STATUS_CDR_LOCK _ _ _ rfl (by decide) (by decide),
    rd_wr_same _ _ _ _ _ (by decide)]
  rfl

theorem rd_linkLocked_pcs (hl : lane < 64) : rd (linkLocked s port lane) F.LANE_STATUS_PCS_LOCK lane = 1 := by
  rw [rd_linkLocked_lane _ _ hl rfl, rd_wr_same _ _ _ _ _ (by decide)]
  rfl

end

/-- A link comes up. -/
theorem ethLinkUp_effect {port : Fin 16} {q : Nat} {s : State} (quad : ethQuad s port.val = some q) (en : rd s F.NET_MAC_CTRL_EN port.val = 1)
    (pll : (s.lane.get q {}).pll = true) (down : rd s F.NET_MAC_STATUS_LINK_UP port.val = 0)
    (untested : testSet s (4 * q + port.val % 4) = false) : ∃ t, exec (.ethLinkUp port) s = .next t ∧
      rd t F.NET_MAC_STATUS_LINK_UP port.val = 1 ∧
      rd t F.NET_MAC_STATUS_FEC_LOCK port.val = bit (rdb s F.NET_MAC_CTRL_FEC_EN port.val && rdb s F.NET_MAC_CTRL_RATE port.val) ∧
      rd t F.LANE_STATUS_CDR_LOCK (4 * q + port.val % 4) = 1 ∧ rd t F.LANE_STATUS_PCS_LOCK (4 * q + port.val % 4) = 1 ∧
      t = { s with regs := t.regs } ∧
      sameRegsBut s t [R.NET_MAC_STATUS.addr port.val 0, R.PTP_STATE.base, R.LANE_STATUS.addr (4 * q + port.val % 4) 0] := by
  have answer := execEthLinkUp_locks quad en pll down untested
  have range : 4 * q + port.val % 4 < 64 := by
    have := ethQuad_lt port.isLt quad
    omega
  generalize 4 * q + port.val % 4 = lane at answer range
  have status : R.NET_MAC_STATUS.addr port 0 ≠ R.PTP_STATE.base := Nat.ne_of_lt (Nat.lt_trans (Reg.addr_lt_ptp (by decide) port.isLt) (by decide))
  have below : R.LANE_STATUS.addr lane 0 ≠ R.PTP_STATE.base := Nat.ne_of_lt (Nat.lt_trans (laneStatus_lt_port range) (by decide))
  refine ⟨_, answer, ?_, ?_, ?_, ?_, ?_, fun a ha => ?_⟩
  · rw [rd_ptpRebind _ status, rd_linkLocked_up]
  · rw [rd_ptpRebind _ status, rd_linkLocked_fec]
  · rw [rd_ptpRebind _ below, rd_linkLocked_cdr _ _ range]
  · rw [rd_ptpRebind _ below, rd_linkLocked_pcs _ _ range]
  · rw [ptpRebind_eq, linkLocked_eq]
  · simp only [List.mem_cons, List.not_mem_nil, or_false, not_or] at ha
    obtain ⟨mac, clock, lane⟩ := ha
    exact (ptpRebind_frame _ a (by simpa using clock)).trans (linkLocked_frame _ _ _ a (by simp [mac, lane]))

/-! ### The statement -/

/-- Settles O25: each command's answer, from the MAC's checks, the queue's descriptor, the RTP header, the packet's lines or the link's
state. -/
theorem framesAndEthernetLinks : Obligations.FramesAndEthernetLinks := by
  unfold Obligations.FramesAndEthernetLinks
  refine ⟨fun port b ok s down => ⟨execMacFrameRx_down down, execHostqTxFrame_idle (.inr down)⟩,
    fun q port s other => execHostqTxFrame_idle (.inl other), fun port b ok s up bad => ?bad, fun port s up free => ?transmit,
    fun port b s up lo hi => ?host, fun port b s d i e up lo hi => ?ptMiss, fun index s f rest => ?send, fun port s up => ?linkDown,
    fun port q s quad en pll down untested => ?linkUp⟩
  case bad =>
    exact ⟨_, execMacFrameRx_bad up bad, rd_raise_port _ _ rfl (by decide) (by decide), rfl, fun a ha => raise_frame (rxStamped s port) _ _ a ha⟩
  case transmit => exact hostqTxFrame_sends up free
  case host =>
    intro p pass other good pause ptp free q slot stamped r full
    have notPtp : isPtp p = false := by simp [isPtp, ptp, other]
    have answer := execMacFrameRx_host up lo hi pass good pause notPtp other free
    exact ⟨_, answer, fun taken => hostDeliver_full_effect port b p taken, fun absent => hostDeliver_free_effect port b p absent⟩
  case ptMiss =>
    intro p pass good dgram pause ptp found kind free head size pt
    have answer := execMacFrameRx_flow up lo hi pass good pause ptp dgram found kind free
    rw [flowRtp_ptMiss _ i head size pt] at answer
    exact ⟨_, answer, runOf_updRun_same (rxStamped s port) i _, fun j ne => runOf_updRun_ne (rxStamped s port) _ ne, rfl⟩
  case send =>
    intro e r n ps last valid kind up sending held
    exact ⟨_, _, execSt2110PacketSend_sends valid kind up sending held, rfl, sendFrame_dst _ _ _, rfl, runOf_updRun_same _ _ _,
      fun k ne => runOf_updRun_ne _ _ ne, rfl⟩
  case linkDown => exact ethLinkDown_effect up
  case linkUp => exact ethLinkUp_effect quad en pll down untested

end Sys2Proof.Machine
end

