-- ==== Sys2Proof/Proofs/SluiceBesideAccess.lean ====
section
/-!
Accesses of hardware masters and the Sluice's own state: a read answers alike and does alike whatever that state is (R553, R560, R597), and
no access changes it.
-/

namespace Sys2Proof.Machine

/-- The state with the Sluice's own state replaced. -/
def withSlu (x : Sluice) (s : State) : State := { s with slu := x }

/-- What leaves every state of the Sluice as it finds it does not change it. -/
theorem slu_of_withSlu {g : State → State} {s : State} (h : ∀ x, g (withSlu x s) = withSlu x (g s)) : (g s).slu = s.slu := by
  have same : g s = withSlu s.slu (g s) := h s.slu
  rw [same]
  rfl

section
variable (x : Sluice) (s : State)

@[simp] theorem withSlu_regs : (withSlu x s).regs = s.regs := rfl
@[simp] theorem withSlu_time : (withSlu x s).time = s.time := rfl
@[simp] theorem withSlu_eas : (withSlu x s).eas = s.eas := rfl
@[simp] theorem withSlu_dmc : (withSlu x s).dmc = s.dmc := rfl

@[simp] theorem rd_withSlu (f : Fld) (i j : Nat) : rd (withSlu x s) f i j = rd s f i j := rd_regs (withSlu_regs x s) f i j
@[simp] theorem rdb_withSlu (f : Fld) (i j : Nat) : rdb (withSlu x s) f i j = rdb s f i j := by rw [rdb, rd_withSlu, rdb]
@[simp] theorem fabCyc_withSlu : fabCyc (withSlu x s) = fabCyc s := by rw [fabCyc, withSlu_time, fabCyc]
@[simp] theorem wr_withSlu (f : Fld) (i j v : Nat) : wr (withSlu x s) f i j v = withSlu x (wr s f i j v) := by cases s; rfl
@[simp] theorem raise_withSlu (k : Flag) (i : Nat) : raise (withSlu x s) k i = withSlu x (raise s k i) := by cases s; rfl
@[simp] theorem raiseIf_withSlu (b : Bool) (k : Flag) (i : Nat) : raiseIf b (withSlu x s) k i = withSlu x (raiseIf b s k i) := by
  cases s
  cases b <;> rfl
@[simp] theorem addSat_withSlu (f : Fld) (i n : Nat) : addSat (withSlu x s) f i n = withSlu x (addSat s f i n) := by
  rw [addSat, rd_withSlu, wr_withSlu, addSat]
@[simp] theorem askJournal_withSlu (rank ty : Nat) (l : List Byte) :
    askJournal (withSlu x s) rank ty l = withSlu x (askJournal s rank ty l) := by cases s; rfl

theorem each_withSlu {α : Type} {f : State → α → State} (l : List α) (h : ∀ s a, f (withSlu x s) a = withSlu x (f s a)) (s : State) :
    each l f (withSlu x s) = withSlu x (each l f s) := by
  induction l generalizing s with
  | nil => rfl
  | cons a l ih => exact (congrArg (each l f) (h s a)).trans (ih _)

/-! ### DRAM errors (R597, R611 to R613) -/

@[simp] theorem dramEntry_withSlu (kind channel margin window supp addr cause : Nat) :
    dramEntry (withSlu x s) kind channel margin window supp addr cause =
      withSlu x (dramEntry s kind channel margin window supp addr cause) := by
  rw [dramEntry, rd_withSlu, askJournal_withSlu, dramEntry]

@[simp] theorem noteCause_withSlu (cause : Nat) : noteCause (withSlu x s) cause = withSlu x (noteCause s cause) := by cases s; rfl

@[simp] theorem holdAll_withSlu : holdAll (withSlu x s) = withSlu x (holdAll s) := each_withSlu x _ (fun _ _ => rfl) s

@[simp] theorem enterHold_withSlu (cause : Nat) : enterHold (withSlu x s) cause = withSlu x (enterHold s cause) := by
  unfold enterHold
  simp only [noteCause_withSlu, rdb_withSlu, wr0_eq, wr_withSlu, holdAll_withSlu, raise_withSlu, dramEntry_withSlu]
  exact (apply_ite _ _ _ _).symm

@[simp] theorem testThreshold_withSlu (c : Nat) : testThreshold (withSlu x s) c = withSlu x (testThreshold s c) := by
  unfold testThreshold
  simp only [rdb_withSlu, rd_withSlu, withSlu_dmc, fabCyc_withSlu, wr0_eq, wr_withSlu, raise_withSlu, dramEntry_withSlu, enterHold_withSlu]
  exact (apply_ite _ _ _ _).symm

@[simp] theorem ueEntry_withSlu (c a : Nat) : ueEntry (withSlu x s) c a = withSlu x (ueEntry s c a) := by
  have recent : ueRecent (withSlu x s) c = ueRecent s c := rfl
  unfold ueEntry
  simp only [recent, withSlu_dmc, withSlu_time, rd_withSlu, dramEntry_withSlu]
  rw [apply_ite (withSlu x)]
  rfl

@[simp] theorem eccError_withSlu (a : Nat) (uncorr link : Bool) :
    eccError (withSlu x s) a uncorr link = withSlu x (eccError s a uncorr link) := by
  unfold eccError eccRecord
  cases uncorr <;> simp

theorem meetPoison_withSlu (a n : Nat) : meetPoison (withSlu x s) a n = withSlu x (meetPoison s a n) := by
  have up : dramUp (withSlu x s) = dramUp s := rfl
  have inside : inDram (withSlu x s) a n = inDram s a n := rfl
  unfold meetPoison
  rw [up, inside, withSlu_dmc]
  split
  · rfl
  · cases s.dmc.bad.find? (wordMeets a n) with
    | none => rfl
    | some w => exact eccError_withSlu x s _ _ _

theorem meetWeak_withSlu (words : List Nat) : meetWeak words (withSlu x s) = withSlu x (meetWeak words s) :=
  each_withSlu x _ (fun _ _ => eccError_withSlu x _ _ _ _) s

/-! ### The path of an access (R553, R560 to R562, R579 to R588) -/

/-- An answer with the Sluice's own state replaced in the state it comes with. -/
def sluBeside {β : Type} (r : State × β) : State × β := (withSlu x r.1, r.2)

/-- The cycle of a recorded refusal. -/
theorem violAt_withSlu (u : Nat) :
    ({ withSlu x s with prt := { (withSlu x s).prt with violAt := (withSlu x s).prt.violAt.put u (fabCyc s) } } : State) =
      withSlu x { s with prt := { s.prt with violAt := s.prt.violAt.put u (fabCyc s) } } := by cases s; rfl

theorem recordDenial_withSlu (u : Nat) (a : Access1) (d : Denial) :
    recordDenial (withSlu x s) u a d = withSlu x (recordDenial s u a d) := by
  simp only [recordDenial, wr_withSlu, fabCyc_withSlu]
  exact violAt_withSlu x _ u

theorem violate_withSlu (a : Access1) (d : Denial) : violate (withSlu x s) a d = withSlu x (violate s a d) := by
  have stands (u) : lowerStands (withSlu x s) u a.master = lowerStands s u a.master := rfl
  unfold violate
  cases unitOf a.master with
  | none => rfl
  | some u =>
    simp only [stands, recordDenial_withSlu, ← apply_ite (withSlu x), rdb_withSlu, addSat_withSlu, raiseIf_withSlu]

theorem decodeError_withSlu (a : Access1) (k : Nat) : decodeError (withSlu x s) a k = withSlu x (decodeError s a k) := by
  simp only [decodeError, wr_withSlu, raise_withSlu]

theorem checkAccess_withSlu (a : Access1) : checkAccess (withSlu x s) a = sluBeside x (checkAccess s a) := by
  have prot : protCheck (withSlu x s) a = protCheck s a := rfl
  have decode : decodeKind (withSlu x s) a = decodeKind s a := rfl
  unfold checkAccess
  rw [prot, decode]
  split
  · exact congrArg (·, 1) (violate_withSlu x s a _)
  · dsimp only
    rw [decodeError_withSlu]
    split <;> rfl

theorem targetRead_withSlu (a n : Nat) : targetRead (withSlu x s) a n = sluBeside x (targetRead s a n) := by
  have read : dramRead (withSlu x s) a n = dramRead s a n := rfl
  unfold targetRead
  rw [read]
  split
  · split
    · exact congrArg (·, 0, _) (meetWeak_withSlu x s _)
    · exact congrArg (·, 2, _) (meetPoison_withSlu x s a n)
  · rfl
  · rfl
  · rfl

theorem readPiece_withSlu (master : Nat) (acc : State × Nat × List Byte) (p : Nat × Nat) :
    readPiece master (sluBeside x acc) p = sluBeside x (readPiece master acc p) := by
  unfold readPiece
  simp only [sluBeside, checkAccess_withSlu]
  split
  · rfl
  · split
    · rfl
    · have granted : noteGrant (withSlu x (checkAccess acc.1 { master := master, addr := p.1, len := p.2, write := false }).1) (portNo p.1)
        master p.1 p.2 false = withSlu x (noteGrant (checkAccess acc.1 { master := master, addr := p.1, len := p.2, write := false }).1
          (portNo p.1) master p.1 p.2 false) := rfl
      rw [granted, targetRead_withSlu]
      rfl

theorem busRead_withSlu (master a n : Nat) : busRead (withSlu x s) master a n = sluBeside x (busRead s master a n) := by
  unfold busRead
  generalize pieces a (n / 256 + 2) n = ps
  suffices ∀ acc, ps.foldl (readPiece master) (sluBeside x acc) = sluBeside x (ps.foldl (readPiece master) acc) from this (s, 0, [])
  induction ps with
  | nil => exact fun _ => rfl
  | cons p ps ih => exact fun acc => (congrArg (ps.foldl _) (readPiece_withSlu x master acc p)).trans (ih _)

/-- A header reads alike whatever the Sluice does. -/
theorem readHeader_withSlu (master : Nat) (l : Lease) : readHeader (withSlu x s) master l = sluBeside x (readHeader s master l) := by
  have place : placeOf (withSlu x s) l = placeOf s l := rfl
  unfold readHeader
  rw [place, busRead_withSlu]
  rfl

end

/-! ### No access changes the Sluice's own state -/

section
variable (s : State)

theorem checkAccess_slu (a : Access1) : (checkAccess s a).1.slu = s.slu := by
  obtain ⟨⟨r, p, v, e⟩, -⟩ := marks_checkAccess s a
  rw [e]

theorem busRead_slu (master a n : Nat) : (busRead s master a n).1.slu = s.slu :=
  slu_of_withSlu (g := fun s => (busRead s master a n).1) fun x => congrArg Prod.fst (busRead_withSlu x s master a n)

theorem targetWrite_slu (a : Nat) (l : List Byte) : (targetWrite s a l).1.slu = s.slu := by
  have poison := slu_of_withSlu (g := fun s => meetPoison s a l.length) fun x => meetPoison_withSlu x s a _
  have weak (words) (t : State) := slu_of_withSlu (g := meetWeak words) (s := t) fun x => meetWeak_withSlu x t words
  unfold targetWrite
  split
  · obtain ⟨m, d, e⟩ := dramWriteMasked_eq s a l []
    dsimp only
    split
    · rw [weak, e]
    · exact poison
  · rcases windowWrite_cases s ((a - 0x1010000000) / 0x80000) ((a - 0x1010000000) % 0x80000) l with ⟨q, e⟩ | e <;> rw [e] <;> rfl
  · rfl

theorem writePiece_slu (master a : Nat) (l : List Byte) (acc : State × Nat) (p : Nat × Nat) :
    (writePiece master a l acc p).1.slu = acc.1.slu := by
  unfold writePiece
  split
  · rfl
  · dsimp only
    split
    · exact checkAccess_slu _ _
    · exact (targetWrite_slu _ _ _).trans (checkAccess_slu acc.1 _)

theorem busWrite_slu (master a : Nat) (l : List Byte) : (busWrite s master a l).1.slu = s.slu :=
  foldl_field (fun acc : State × Nat => acc.1.slu) (writePiece_slu master a l) _ _

theorem readHeader_slu (master : Nat) (l : Lease) : (readHeader s master l).1.slu = s.slu := busRead_slu _ _ _ _

theorem readTile_slu (master : Nat) (p : Place) (t : Nat) : (readTile s master p t).1.slu = s.slu :=
  foldl_field (fun acc : State × Bool × List Byte => acc.1.slu) (fun _ _ => busRead_slu _ _ _ _) _ _

end

end Sys2Proof.Machine
end

