-- ==== Sys2Proof/Proofs/SluiceRecords.lean ====
section
/-!
The records of the Sluice and what it shows of them: a context's state (R173), the pipelines (R172), and the buffers that a job takes and
gives back (R165, R227, R230).
-/

namespace Sys2Proof.Machine

/-! ### Registers -/

/-- A register that stands once in each context's block, other than SLU_CTX_EVENT. -/
def Reg.ofContext (r : Reg) : Bool := r.s1 == 0x400 && !r.remote && decide (0xC10000 ≤ r.base ∧ r.base % 0x400 ≠ 0x104)

/-- Where the Sluice notes what has come of commands and frames: SLU_APPLY_STATUS, and SLU_CTX_EVENT of every context. -/
abbrev sluiceNote (a : Nat) : Prop := a = 0xC00000 ∨ (0xC10000 ≤ a ∧ a < 0xC20000 ∧ a % 0x400 = 0x104)

theorem not_sluiceNote_context {r : Reg} (h : r.ofContext = true) (c : Nat) : ¬ sluiceNote (r.addr c 0) := by
  simp only [Reg.ofContext, Bool.and_eq_true, decide_eq_true_eq, beq_iff_eq, Bool.not_eq_true'] at h
  obtain ⟨⟨stride, near⟩, above, beside⟩ := h
  simp only [sluiceNote, Reg.addr, near, stride]
  simp
  omega

theorem addr_ctxEvent (c : Nat) : R.SLU_CTX_EVENT.addr c 0 = 0xC10104 + c * 0x400 := by simp [Reg.addr, R.SLU_CTX_EVENT]

theorem ctxEvent_ne {c e : Nat} (h : e ≠ c) : R.SLU_CTX_EVENT.addr e 0 ≠ R.SLU_CTX_EVENT.addr c 0 := by
  rw [addr_ctxEvent, addr_ctxEvent]
  omega

/-- A flag of a context that is raised reads 1. -/
theorem rd_raise_context (s : State) {k : Flag} (c : Nat) (hw : k.fld.w = 1) (hlo : k.fld.lo < 64)
    (apart : k.fld.reg.apart k.cnt.reg = true) : rd (raise s k c) k.fld c = 1 :=
  rd_raise_flag _ _ _ hw hlo (.inr (Reg.apart_addr apart c))

/-! ### What a context shows (R173) -/

section
variable (s : State) (c : Nat)

/-- The bits of SLU_CTX_STATE as a context stands. -/
def shownBits : State :=
  let x := ctxOf s c
  let s := wr s F.SLU_CTX_STATE_ACTIVE c 0 (bit (x.land.any (·.en) || x.pipe.any (·.en)))
  let s := wr (wr s F.SLU_CTX_STATE_JOB c 0 (bit x.job.isSome)) F.SLU_CTX_STATE_PENDING c 0 (bit x.next.isSome)
  wr s F.SLU_CTX_STATE_SET_PENDING c 0 (bit (x.pendLand || x.pendPipe))

theorem showCtx_cases : showCtx s c = shownBits s c ∨ ∃ k, showCtx s c = wr (shownBits s c) F.SLU_CTX_STATE_STRIPE c 0 k := by
  unfold showCtx
  dsimp only
  split
  · exact .inr ⟨_, rfl⟩
  · exact .inl rfl

/-- Showing a context changes registers alone. -/
theorem showCtx_eq : showCtx s c = { s with regs := (showCtx s c).regs } := by
  rcases showCtx_cases s c with e | ⟨k, e⟩ <;> rw [e] <;> rfl

@[simp] theorem showCtx_mem : (showCtx s c).mem = s.mem := by rw [showCtx_eq]
@[simp] theorem showCtx_eas : (showCtx s c).eas = s.eas := by rw [showCtx_eq]
@[simp] theorem showCtx_slu : (showCtx s c).slu = s.slu := by rw [showCtx_eq]

theorem ctxOf_slu {s t : State} (h : t.slu = s.slu) (c : Nat) : ctxOf t c = ctxOf s c := by rw [ctxOf, h, ctxOf]
theorem descOf_eas {s t : State} (h : t.eas = s.eas) (d : Nat) : descOf t d = descOf s d := by rw [descOf, h, descOf]
theorem srcOf_eas {s t : State} (h : t.eas = s.eas) (i : Nat) : srcOf t i = srcOf s i := by rw [srcOf, h, srcOf]

@[simp] theorem ctxOf_showCtx (e : Nat) : ctxOf (showCtx s c) e = ctxOf s e := ctxOf_slu (showCtx_slu s c) e
@[simp] theorem descOf_showCtx (d : Nat) : descOf (showCtx s c) d = descOf s d := descOf_eas (showCtx_eas s c) d

/-- A register that is not a context's SLU_CTX_STATE. -/
theorem rd_showCtx_reg {f : Fld} {i : Nat} (h : f.reg.addr i 0 ≠ R.SLU_CTX_STATE.addr c 0) : rd (showCtx s c) f i = rd s f i := by
  have bits : rd (shownBits s c) f i = rd s f i := by
    rw [shownBits, rd_wr_reg _ _ _ _ _ _ _ _ h, rd_wr_reg _ _ _ _ _ _ _ _ h, rd_wr_reg _ _ _ _ _ _ _ _ h, rd_wr_reg _ _ _ _ _ _ _ _ h]
  rcases showCtx_cases s c with e | ⟨k, e⟩ <;> rw [e]
  · exact bits
  · rw [rd_wr_reg _ _ _ _ _ _ _ _ h, bits]

/-- STRIPE stands above the bits. -/
theorem rd_showCtx_bits {f : Fld} (hr : f.reg = R.SLU_CTX_STATE) (hf : f.lo + f.w ≤ 8) : rd (showCtx s c) f c = rd (shownBits s c) f c := by
  rcases showCtx_cases s c with e | ⟨k, e⟩ <;> rw [e]
  exact rd_wr_field _ _ _ _ _ _ hr (by omega) (.inl hf)

theorem bit_lt (b : Bool) : bit b < 2 := by cases b <;> decide

theorem rd_wr_bit (s : State) (f : Fld) (i : Nat) (b : Bool) (hw : f.w = 1) (hf : f.lo + f.w ≤ 64 := by decide) :
    rd (wr s f i 0 (bit b)) f i = bit b := by
  rw [rd_wr_same _ _ _ _ _ hf, hw]
  exact Nat.mod_eq_of_lt (bit_lt b)

theorem rd_showCtx_setPending : rd (showCtx s c) F.SLU_CTX_STATE_SET_PENDING c = bit ((ctxOf s c).pendLand || (ctxOf s c).pendPipe) := by
  rw [rd_showCtx_bits _ _ rfl (by decide), shownBits, rd_wr_bit _ _ _ _ rfl]

theorem rd_showCtx_pending : rd (showCtx s c) F.SLU_CTX_STATE_PENDING c = bit (ctxOf s c).next.isSome := by
  rw [rd_showCtx_bits _ _ rfl (by decide), shownBits, rd_wr_field _ _ _ _ _ _ (by rfl) (by decide) (by decide), rd_wr_bit _ _ _ _ rfl]

theorem rd_showCtx_job : rd (showCtx s c) F.SLU_CTX_STATE_JOB c = bit (ctxOf s c).job.isSome := by
  rw [rd_showCtx_bits _ _ rfl (by decide), shownBits, rd_wr_field _ _ _ _ _ _ (by rfl) (by decide) (by decide),
    rd_wr_field _ _ _ _ _ _ (by rfl) (by decide) (by decide), rd_wr_bit _ _ _ _ rfl]

theorem rd_showCtx_active : rd (showCtx s c) F.SLU_CTX_STATE_ACTIVE c =
    bit ((ctxOf s c).land.any (·.en) || (ctxOf s c).pipe.any (·.en)) := by
  rw [rd_showCtx_bits _ _ rfl (by decide), shownBits, rd_wr_field _ _ _ _ _ _ (by rfl) (by decide) (by decide),
    rd_wr_field _ _ _ _ _ _ (by rfl) (by decide) (by decide), rd_wr_field _ _ _ _ _ _ (by rfl) (by decide) (by decide), rd_wr_bit _ _ _ _ rfl]

end

/-! ### What the pipelines show (R172) -/

section
variable (s : State) (p c : Nat) (busy : Bool)

theorem showPipe_eq : showPipe s p c busy = { s with regs := (showPipe s p c busy).regs } := by
  unfold showPipe
  split <;> rfl

@[simp] theorem showPipe_mem : (showPipe s p c busy).mem = s.mem := by rw [showPipe_eq]
@[simp] theorem showPipe_eas : (showPipe s p c busy).eas = s.eas := by rw [showPipe_eq]
@[simp] theorem showPipe_slu : (showPipe s p c busy).slu = s.slu := by rw [showPipe_eq]

theorem rd_showPipe_reg {f : Fld} {i : Nat} (h : f.reg.addr i 0 ≠ R.SLU_PIPE_STATUS.addr 0 0) :
    rd (showPipe s p c busy) f i = rd s f i := by
  unfold showPipe
  split
  · exact (rd_wr_reg _ _ _ _ _ _ _ _ h).trans (rd_wr_reg _ _ _ _ _ _ _ _ h)
  · exact (rd_wr_reg _ _ _ _ _ _ _ _ h).trans (rd_wr_reg _ _ _ _ _ _ _ _ h)

variable {c}

theorem rd_showPipe_zero (hc : c < 64) : rd (showPipe s 0 c busy) F.SLU_PIPE_STATUS_P0_BUSY = bit busy ∧
    rd (showPipe s 0 c busy) F.SLU_PIPE_STATUS_P0_CTX = c := by
  rw [showPipe, if_pos rfl]
  refine ⟨rd_wr0_same _ _ (bit_lt busy), ?_⟩
  rw [rd_wr0_apart _ _ (by decide)]
  exact rd_wr0_same _ _ hc

theorem rd_showPipe_one (hc : c < 64) : rd (showPipe s 1 c busy) F.SLU_PIPE_STATUS_P1_BUSY = bit busy ∧
    rd (showPipe s 1 c busy) F.SLU_PIPE_STATUS_P1_CTX = c := by
  rw [showPipe, if_neg (by decide)]
  refine ⟨rd_wr0_same _ _ (bit_lt busy), ?_⟩
  rw [rd_wr0_apart _ _ (by decide)]
  exact rd_wr0_same _ _ hc

end

/-! ### Buffers (R165, R227, R230) -/

/-- A buffer that its producer fills, or that is FREE. -/
def Desc.idle (x : Desc) : Prop := x.st = .filling ∨ x.st = .free

theorem settle_idle {x : Desc} (h : x.idle) : (settle x).idle := by
  unfold settle
  split
  · exact h
  · split
    · exact .inr rfl
    · exact h

theorem settle_free {x : Desc} (h : x.st = .free) : (settle x).st = .free := by
  unfold settle
  split
  · exact h
  · split
    · rfl
    · exact h

/-- A buffer as its producer gives it up. -/
def abandoned (x : Desc) : Desc := if x.st = .filling then toFree x else x

theorem abandoned_free {x : Desc} (h : x.idle) : (abandoned x).st = .free := by
  unfold abandoned
  split
  · rfl
  · next filling => exact h.resolve_left filling

theorem abandonBuffer_eq (s : State) (d : Nat) : abandonBuffer s d = setDesc s d (abandoned (descOf s d)) := rfl

/-- Giving buffers back changes nothing but their descriptors. -/
theorem freeOuts_eq (s : State) (outs : List (Nat × Nat)) :
    freeOuts s outs = { s with eas := { s.eas with descs := (freeOuts s outs).eas.descs } } :=
  each_keeps (fun t => t = { s with eas := { s.eas with descs := t.eas.descs } }) _ outs (fun t o _ ht => by rw [ht]; rfl) s rfl

theorem abandonBuffer_idle {s : State} {d : Nat} (h : (descOf s d).idle) (e : Nat) : (descOf (abandonBuffer s e) d).idle := by
  rw [abandonBuffer_eq]
  rcases eq_or_ne d e with rfl | ne
  · rw [descOf_setDesc]
    exact .inr (abandoned_free h)
  · rwa [descOf_setDesc_ne _ _ ne]

theorem abandonBuffer_free {s : State} {d : Nat} (h : (descOf s d).st = .free) (e : Nat) : (descOf (abandonBuffer s e) d).st = .free := by
  rw [abandonBuffer_eq]
  rcases eq_or_ne d e with rfl | ne
  · rw [descOf_setDesc]
    exact abandoned_free (.inr h)
  · rwa [descOf_setDesc_ne _ _ ne]

theorem freeOuts_idle {s : State} {d : Nat} (h : (descOf s d).idle) (outs : List (Nat × Nat)) : (descOf (freeOuts s outs) d).idle :=
  each_keeps (fun t => (descOf t d).idle) _ outs (fun _ _ _ ht => abandonBuffer_idle ht _) s h

/-- A buffer that a job was filling is FREE once its outputs are given back. -/
theorem freeOuts_free {s : State} {outs : List (Nat × Nat)} {o : Nat × Nat} (ho : o ∈ outs) (h : (descOf s o.2).idle) :
    (descOf (freeOuts s outs) o.2).st = .free := by
  obtain ⟨before, after, rfl⟩ := List.append_of_mem ho
  have freed : (descOf (abandonBuffer (freeOuts s before) o.2) o.2).st = .free := by
    rw [abandonBuffer_eq, descOf_setDesc]
    exact abandoned_free (freeOuts_idle h before)
  rw [freeOuts, each, List.foldl_append, List.foldl_cons]
  exact each_keeps (fun t => (descOf t o.2).st = .free) (fun s o => abandonBuffer s o.2) after (fun _ _ _ ht => abandonBuffer_free ht _) _ freed

theorem dropLease_free {s : State} {d : Nat} (h : (descOf s d).st = .free) (e : Nat) : (descOf (dropLease s e) d).st = .free := by
  rw [dropLease, updDesc_eq]
  rcases eq_or_ne d e with rfl | ne
  · rw [descOf_setDesc]
    exact settle_free h
  · rwa [descOf_setDesc_ne _ _ ne]

/-- A producer takes the FREE buffer that its pool offers, or none. -/
theorem takeBuffer_cases (s : State) (fmt w h : Nat) :
    ((matchPool s fmt w h).bind (freeIn s) = none ∧ takeBuffer s fmt w h = (raise s K.EAS_EVENT_POOL_EMPTY, none)) ∨
    ∃ d, (matchPool s fmt w h).bind (freeIn s) = some d ∧
      takeBuffer s fmt w h = (setDesc s d { descOf s d with st := .filling, ownerHost := false }, some d) := by
  unfold takeBuffer
  split
  · next none_ => exact .inl ⟨none_, rfl⟩
  · next d found => exact .inr ⟨d, found, rfl⟩

end Sys2Proof.Machine
end

