-- ==== Sys2Proof/Proofs/JobsKept.lean ====
section
/-!
What jobs leave alone as they start, end and are dropped (R153 to R167). The predicate `EventsKept` for the flags of SLU_APPLY_STATUS and the first
four of SLU_CTX_EVENT, and `JobsKept` for DRAM, the time, the requests for publication, the landing and the other contexts; one rule for
each operation.
-/

namespace Sys2Proof.Machine

/-- A field of SLU_APPLY_STATUS, or a flag of a context up to MISS: no operation on a job writes it. -/
def besideJobs (f : Fld) (i : Nat) : Prop :=
  f.lo + f.w ≤ 64 ∧ (f.reg = R.SLU_APPLY_STATUS ∨ (f.reg = R.SLU_CTX_EVENT ∧ i < 64 ∧ f.lo + f.w ≤ 4))

theorem besideJobs_event {f : Fld} {i : Nat} (hr : f.reg = R.SLU_CTX_EVENT) (hi : i < 64) (hf : f.lo + f.w ≤ 4 := by decide) : besideJobs f i :=
  ⟨by omega, .inr ⟨hr, hi, hf⟩⟩

theorem besideJobs_apply {f : Fld} {i : Nat} (hr : f.reg = R.SLU_APPLY_STATUS) (hf : f.lo + f.w ≤ 64 := by decide) : besideJobs f i :=
  ⟨hf, .inl hr⟩

theorem besideJobs.note {f : Fld} {i : Nat} (h : besideJobs f i) : sluiceNote (f.reg.addr i 0) := by
  rcases h with ⟨-, hr | ⟨hr, hi, -⟩⟩ <;> rw [hr]
  · left
    simp [Reg.addr, R.SLU_APPLY_STATUS]
  · rw [addr_ctxEvent]
    unfold sluiceNote
    omega

/-- From `s` to `t` the fields beside those of jobs stay. -/
structure EventsKept (s t : State) : Prop where
  rd_eq : ∀ {f i}, besideJobs f i → rd t f i = rd s f i

/-- From `s` to `t` they stay, DRAM, the time, the requests for publication, the contexts other than `c`, and of `c` the landing and the start of
the watchdog; and a buffer that is being filled or FREE is so again. -/
structure JobsKept (c : Nat) (s t : State) : Prop extends EventsKept s t where
  mem : t.mem = s.mem
  time : t.time = s.time
  requests : t.eas.requests = s.eas.requests
  others : ∀ e, e ≠ c → ctxOf t e = ctxOf s e
  landing : (ctxOf t c).landing = (ctxOf s c).landing
  wdogFrom : (ctxOf t c).wdogFrom = (ctxOf s c).wdogFrom
  idle : ∀ {d}, (descOf s d).idle → (descOf t d).idle

/-! ### Fields -/

section
variable {s₀ s t : State}

protected theorem EventsKept.refl (s : State) : EventsKept s s := ⟨fun _ => rfl⟩

protected theorem EventsKept.trans {u : State} (h : EventsKept s t) (k : EventsKept t u) : EventsKept s u :=
  ⟨fun hf => (k.rd_eq hf).trans (h.rd_eq hf)⟩

protected theorem EventsKept.ite {p : Prop} {_ : Decidable p} (hs : EventsKept s₀ s) (ht : EventsKept s₀ t) :
    EventsKept s₀ (if p then s else t) := by
  split
  · exact hs
  · exact ht

/-- Any change beside the registers. -/
protected theorem EventsKept.set (h : EventsKept s₀ s) (hr : t.regs = s.regs := by rfl) : EventsKept s₀ t :=
  ⟨fun hf => (rd_regs hr _ _ 0).trans (h.rd_eq hf)⟩

protected theorem EventsKept.foldl {α β : Type} {p : β → State} {f : β → α → β} {l : List α} {b : β} (h : EventsKept s₀ (p b))
    (hf : ∀ {b} x, EventsKept s₀ (p b) → EventsKept s₀ (p (f b x))) : EventsKept s₀ (p (l.foldl f b)) := by
  induction l generalizing b with
  | nil => exact h
  | cons x l ih => exact ih (hf x h)

protected theorem EventsKept.each {α : Type} {f : State → α → State} {l : List α} (h : EventsKept s₀ s)
    (hf : ∀ {u} x, EventsKept s₀ u → EventsKept s₀ (f u x)) : EventsKept s₀ (each l f s) := EventsKept.foldl (p := id) h hf

protected theorem EventsKept.wr {f i j v} (h : EventsKept s₀ s) (hf : ¬ sluiceNote (f.reg.addr i j)) : EventsKept s₀ (wr s f i j v) :=
  ⟨fun hg => (rd_wr_reg _ _ _ _ _ _ _ _ fun e => hf (e ▸ hg.note)).trans (h.rd_eq hg)⟩

/-- A register that stands once. -/
protected theorem EventsKept.wr0 {f v} (h : EventsKept s₀ s) (hf : ¬ sluiceNote (f.reg.addr 0 0) := by decide) :
    EventsKept s₀ (wr0 s f v) := h.wr hf

protected theorem EventsKept.raise {k i} (h : EventsKept s₀ s) (hfld : ¬ sluiceNote (k.fld.reg.addr i 0))
    (hcnt : ¬ sluiceNote (k.cnt.reg.addr i 0)) : EventsKept s₀ (raise s k i) := ((h.wr hfld).wr hcnt).set

/-- A flag that stands once, beside the Sluice. -/
protected theorem EventsKept.raise0 {k} (h : EventsKept s₀ s) (hfld : ¬ sluiceNote (k.fld.reg.addr 0 0) := by decide)
    (hcnt : ¬ sluiceNote (k.cnt.reg.addr 0 0) := by decide) : EventsKept s₀ (raise s k) := h.raise hfld hcnt

/-- A flag of a context above MISS. -/
protected theorem EventsKept.raiseEvent {k c} (h : EventsKept s₀ s) (hr : k.fld.reg = R.SLU_CTX_EVENT := by rfl) (hlo : 4 ≤ k.fld.lo := by decide)
    (hcnt : k.cnt.reg.ofContext = true := by decide) : EventsKept s₀ (raise s k c) where
  rd_eq {f i} hf := by
    have count : f.reg.addr i 0 ≠ k.cnt.reg.addr c 0 := fun e => not_sluiceNote_context hcnt c (e ▸ hf.note)
    have counted : rd (raise s k c) f i = rd (wr s k.fld c 0 1) f i := rd_wr_reg _ _ _ _ _ _ _ _ count
    rw [counted, ← h.rd_eq hf]
    obtain ⟨fits, apply | ⟨event, -, low⟩⟩ := hf
    · refine rd_wr_reg _ _ _ _ _ _ _ _ ?_
      rw [apply, hr, addr_ctxEvent]
      simp only [Reg.addr, R.SLU_APPLY_STATUS]
      simp
      omega
    · rcases eq_or_ne i c with rfl | ne
      · exact rd_wr_field _ _ _ _ _ _ (event.trans hr.symm) fits (.inl (by omega))
      · refine rd_wr_reg _ _ _ _ _ _ _ _ ?_
        rw [event, hr]
        exact ctxEvent_ne ne

/-- Accesses of hardware masters. -/
theorem PathKept.events (h : PathKept s t) : EventsKept s t :=
  ⟨fun hf => h.rd_eq (by have := hf.note; unfold sluiceNote at this; unfold besideAccess; omega)⟩

protected theorem EventsKept.showCtx {c} (h : EventsKept s₀ s) : EventsKept s₀ (showCtx s c) :=
  ⟨fun hf => (rd_showCtx_reg _ _ fun e => not_sluiceNote_context (by decide) c (e ▸ hf.note)).trans (h.rd_eq hf)⟩

protected theorem EventsKept.showPipe {p c busy} (h : EventsKept s₀ s) : EventsKept s₀ (showPipe s p c busy) :=
  ⟨fun hf => (rd_showPipe_reg _ _ _ _ fun e => absurd (e ▸ hf.note) (by decide)).trans (h.rd_eq hf)⟩

end

/-! ### Buffers and contexts -/

section
variable {c : Nat} {s₀ s t : State}

protected theorem JobsKept.refl (c : Nat) (s : State) : JobsKept c s s := ⟨.refl s, rfl, rfl, rfl, fun _ _ => rfl, rfl, rfl, id⟩

protected theorem JobsKept.ite {p : Prop} {_ : Decidable p} (hs : JobsKept c s₀ s) (ht : JobsKept c s₀ t) :
    JobsKept c s₀ (if p then s else t) := by
  split
  · exact hs
  · exact ht

protected theorem JobsKept.foldl {α β : Type} {p : β → State} {f : β → α → β} {l : List α} {b : β} (h : JobsKept c s₀ (p b))
    (hf : ∀ {b} x, JobsKept c s₀ (p b) → JobsKept c s₀ (p (f b x))) : JobsKept c s₀ (p (l.foldl f b)) := by
  induction l generalizing b with
  | nil => exact h
  | cons x l ih => exact ih (hf x h)

protected theorem JobsKept.each {α : Type} {f : State → α → State} {l : List α} (h : JobsKept c s₀ s)
    (hf : ∀ {u} x, JobsKept c s₀ u → JobsKept c s₀ (f u x)) : JobsKept c s₀ (each l f s) := JobsKept.foldl (p := id) h hf

/-- A flag raised, whose fields the rules of `EventsKept` speak of. -/
protected theorem JobsKept.raise {k i} (h : JobsKept c s₀ s) (hk : EventsKept s₀ (raise s k i)) : JobsKept c s₀ (raise s k i) :=
  { h with toEventsKept := hk }

/-- The context changed beside its landing and the start of its watchdog. -/
protected theorem JobsKept.updCtx {f} (h : JobsKept c s₀ s) (hl : (f (ctxOf s c)).landing = (ctxOf s c).landing := by rfl)
    (hw : (f (ctxOf s c)).wdogFrom = (ctxOf s c).wdogFrom := by rfl) : JobsKept c s₀ (updCtx s c f) where
  toEventsKept := h.toEventsKept.set
  mem := h.mem
  time := h.time
  requests := h.requests
  others e ne := (ctxOf_setCtx_ne _ _ ne).trans (h.others e ne)
  landing := by rw [updCtx_eq, ctxOf_setCtx, hl, h.landing]
  wdogFrom := by rw [updCtx_eq, ctxOf_setCtx, hw, h.wdogFrom]
  idle hd := h.idle hd

protected theorem JobsKept.setDesc {n x} (h : JobsKept c s₀ s) (hx : (descOf s n).idle → x.idle) : JobsKept c s₀ (setDesc s n x) :=
  { h with
    toEventsKept := h.toEventsKept.set
    idle := fun {d} hd => by
      rcases eq_or_ne d n with rfl | ne
      · rw [descOf_setDesc]
        exact hx (h.idle hd)
      · rw [descOf_setDesc_ne _ _ ne]
        exact h.idle hd }

protected theorem JobsKept.updSrc {n f} (h : JobsKept c s₀ s) : JobsKept c s₀ (updSrc s n f) := { h with toEventsKept := h.toEventsKept.set }

protected theorem JobsKept.showCtx (h : JobsKept c s₀ s) : JobsKept c s₀ (showCtx s c) := by
  have events := h.toEventsKept.showCtx (c := c)
  rw [showCtx_eq] at events ⊢
  exact { h with toEventsKept := events }

protected theorem JobsKept.showPipe {p e busy} (h : JobsKept c s₀ s) : JobsKept c s₀ (showPipe s p e busy) := by
  have events := h.toEventsKept.showPipe (p := p) (c := e) (busy := busy)
  rw [showPipe_eq] at events ⊢
  exact { h with toEventsKept := events }

protected theorem JobsKept.abandonBuffer {d} (h : JobsKept c s₀ s) : JobsKept c s₀ (abandonBuffer s d) :=
  h.setDesc fun idle => .inr (abandoned_free idle)

protected theorem JobsKept.freeOuts {outs} (h : JobsKept c s₀ s) : JobsKept c s₀ (freeOuts s outs) := h.each fun _ k => k.abandonBuffer

protected theorem JobsKept.takeLease {d} (h : JobsKept c s₀ s) : JobsKept c s₀ (takeLease s d) := h.setDesc id

protected theorem JobsKept.dropLease {d} (h : JobsKept c s₀ s) : JobsKept c s₀ (dropLease s d) := h.setDesc fun idle => settle_idle idle

protected theorem JobsKept.takeBuffer {fmt w b} (h : JobsKept c s₀ s) : JobsKept c s₀ (takeBuffer s fmt w b).1 := by
  rcases takeBuffer_cases s fmt w b with ⟨-, e⟩ | ⟨d, -, e⟩ <;> rw [e]
  · exact h.raise h.toEventsKept.raise0
  · exact h.setDesc fun _ => .inl rfl

protected theorem JobsKept.takeOuts {outs} (h : JobsKept c s₀ s) : JobsKept c s₀ (takeOuts s outs).1 := by
  refine JobsKept.foldl (p := Prod.fst) (b := (s, some [])) h fun _ k => ?_
  split
  · exact k
  · dsimp only
    split
    · exact k.takeBuffer
    · exact k.takeBuffer.freeOuts

protected theorem JobsKept.parentBad {f} (h : JobsKept c s₀ s) : JobsKept c s₀ (parentBad s c f) :=
  have marked : JobsKept c s₀ (checkFailed s f) := .ite h.updSrc h
  marked.raise marked.toEventsKept.raiseEvent

/-! ### Jobs -/

/-- A read by a hardware master. -/
protected theorem JobsKept.busRead {m a n} (h : JobsKept c s₀ s) : JobsKept c s₀ (busRead s m a n).1 := by
  have path := busRead_kept s m a n
  have slu := busRead_slu s m a n
  obtain ⟨-, -, time⟩ := portSide_iff.1 (portSide_busRead s m a n)
  exact {
    toEventsKept := h.toEventsKept.trans path.events
    mem := (busRead_mem _ _ _ _).trans h.mem
    time := time.trans h.time
    requests := by rw [path.eas, h.requests]
    others := fun e ne => (ctxOf_slu slu e).trans (h.others e ne)
    landing := by rw [ctxOf_slu slu, h.landing]
    wdogFrom := by rw [ctxOf_slu slu, h.wdogFrom]
    idle := fun hd => by rw [descOf_eas path.eas]; exact h.idle hd }

protected theorem JobsKept.readHeader {m l} (h : JobsKept c s₀ s) : JobsKept c s₀ (readHeader s m l).1 := h.busRead

protected theorem JobsKept.readTile {m p t} (h : JobsKept c s₀ s) : JobsKept c s₀ (readTile s m p t).1 :=
  JobsKept.foldl (p := Prod.fst) (b := (s, false, [])) h fun _ k => k.busRead

/-- The header that a job checks, unless its parent is live. -/
protected theorem JobsKept.header {m l} (h : JobsKept c s₀ s) (live : Bool) :
    JobsKept c s₀ (if live then (s, true, []) else readHeader s m l).1 := by
  cases live
  · exact h.readHeader
  · exact h

theorem pipeSide_landing (x : Context) (now : Nat) : (pipeSide x now).landing = x.landing := by
  unfold pipeSide
  split <;> rfl

theorem pipeSide_wdogFrom (x : Context) (now : Nat) : (pipeSide x now).wdogFrom = x.wdogFrom := by
  unfold pipeSide
  split <;> rfl

protected theorem JobsKept.startJob {d seq live} (h : JobsKept c s₀ s) : JobsKept c s₀ (startJob s c d seq live) := by
  have taken : JobsKept c s₀ (updCtx s c fun x => pipeSide x (sluCyc s)) := h.updCtx (pipeSide_landing _ _) (pipeSide_wdogFrom _ _)
  unfold startJob
  dsimp only
  split
  · exact taken
  · refine .ite taken <| .ite (JobsKept.parentBad ?bad) ?_
    case bad => exact (taken.header live).raise (taken.header live).toEventsKept.raise0
    split
    · exact (taken.header live).takeOuts.raise (taken.header live).takeOuts.toEventsKept.raiseEvent
    · exact (taken.header live).takeOuts.takeLease.updCtx

/-- A pipeline freed of a context's job. -/
def pipeFreed (s : State) (c : Nat) (p : Option Nat) : State :=
  match p with
  | some p => showPipe s p c false
  | none => s

/-- A context without the job that ends, before its pending job is released. -/
def jobEnded (s : State) (c : Nat) (j : Job) : State :=
  updCtx (pipeFreed (dropLease s j.parent.desc) c j.pipe) c fun x => { x with job := none, next := none }

theorem leaveJob_eq (s : State) (c : Nat) (j : Job) : leaveJob s c j =
    showCtx (match (ctxOf (pipeFreed (dropLease s j.parent.desc) c j.pipe) c).next with
      | some (d, seq, live) => startJob (jobEnded s c j) c d seq live
      | none => jobEnded s c j) c := rfl

protected theorem JobsKept.jobEnded {j} (h : JobsKept c s₀ s) : JobsKept c s₀ (jobEnded s c j) := by
  refine JobsKept.updCtx ?_
  unfold pipeFreed
  split
  · exact h.dropLease.showPipe
  · exact h.dropLease

protected theorem JobsKept.leaveJob {j} (h : JobsKept c s₀ s) : JobsKept c s₀ (leaveJob s c j) := by
  rw [leaveJob_eq]
  refine JobsKept.showCtx ?_
  split
  · exact h.jobEnded.startJob
  · exact h.jobEnded

protected theorem JobsKept.dropJob (h : JobsKept c s₀ s) : JobsKept c s₀ (dropJob s c) := by
  unfold dropJob
  split
  · exact h
  · exact h.freeOuts.leaveJob

protected theorem JobsKept.parentLost {d} (h : JobsKept c s₀ s) : JobsKept c s₀ (parentLost s c d) := by
  unfold parentLost
  dsimp only
  split
  · exact .ite h.updCtx.showCtx.dropJob h.updCtx.showCtx
  · exact h.updCtx.showCtx

end

/-! ### A job that ends with none pending -/

section
variable {s : State} {c : Nat} {j : Job}

theorem pipeFreed_eq (s : State) (c : Nat) (p : Option Nat) : pipeFreed s c p = { s with regs := (pipeFreed s c p).regs } := by
  unfold pipeFreed
  split
  · exact showPipe_eq _ _ _ _
  · rfl

theorem pipeFreed_slu (s : State) (c : Nat) (p : Option Nat) : (pipeFreed s c p).slu = s.slu := by rw [pipeFreed_eq]

theorem jobEnded_eas (s : State) (c : Nat) (j : Job) : (jobEnded s c j).eas = (dropLease s j.parent.desc).eas := by
  rw [jobEnded, updCtx_eq, setCtx_eas, pipeFreed_eq]

theorem ctxOf_jobEnded (s : State) (c : Nat) (j : Job) : ctxOf (jobEnded s c j) c = { ctxOf s c with job := none, next := none } := by
  rw [jobEnded, updCtx_eq, ctxOf_setCtx, ctxOf_slu (pipeFreed_slu _ _ _)]
  rfl

/-- No job is released as this one ends. -/
theorem leaveJob_of_next (j : Job) (h : (ctxOf s c).next = none) : leaveJob s c j = showCtx (jobEnded s c j) c := by
  have next : (ctxOf (pipeFreed (dropLease s j.parent.desc) c j.pipe) c).next = none := by
    rw [ctxOf_slu (pipeFreed_slu _ _ _)]
    exact h
  rw [leaveJob_eq, next]

theorem freeOuts_slu (s : State) (outs : List (Nat × Nat)) : (freeOuts s outs).slu = s.slu := by rw [freeOuts_eq]

theorem dropJob_of_next (job : (ctxOf s c).job = some j) (next : (ctxOf s c).next = none) :
    dropJob s c = showCtx (jobEnded (freeOuts s j.outs) c j) c := by
  rw [dropJob, job]
  exact leaveJob_of_next j (by rw [ctxOf_slu (freeOuts_slu _ _), next])

theorem dropJob_none (h : (ctxOf s c).job = none) : dropJob s c = s := by rw [dropJob, h]

/-- What becomes of a context whose job is dropped with none pending. -/
theorem ctxOf_dropJob (next : (ctxOf s c).next = none) : ctxOf (dropJob s c) c = { ctxOf s c with job := none, next := none } := by
  cases job : (ctxOf s c).job with
  | none =>
    rw [dropJob_none job]
    generalize ctxOf s c = x at job next
    cases x
    simp_all
  | some j => rw [dropJob_of_next job next, ctxOf_showCtx, ctxOf_jobEnded, ctxOf_slu (freeOuts_slu _ _)]

/-- A job that is dropped with none pending changes no source. -/
theorem dropJob_sources (job : (ctxOf s c).job = some j) (next : (ctxOf s c).next = none) : (dropJob s c).eas.sources = s.eas.sources := by
  rw [dropJob_of_next job next, showCtx_eas, jobEnded_eas, dropLease, updDesc, freeOuts_eq]
  rfl

/-- The buffers of a dropped job that it was filling are FREE. -/
theorem dropJob_outs (job : (ctxOf s c).job = some j) (next : (ctxOf s c).next = none) {o : Nat × Nat} (ho : o ∈ j.outs)
    (filling : (descOf s o.2).st = .filling) : (descOf (dropJob s c) o.2).st = .free := by
  rw [dropJob_of_next job next, descOf_showCtx, descOf_eas (jobEnded_eas _ _ _)]
  exact dropLease_free (freeOuts_free ho (.inl filling)) _

theorem rd_dropJob_job (job : (ctxOf s c).job = some j) (next : (ctxOf s c).next = none) : rd (dropJob s c) F.SLU_CTX_STATE_JOB c = 0 := by
  rw [dropJob_of_next job next, rd_showCtx_job, ctxOf_jobEnded]
  rfl

/-- A register that neither SLU_CTX_STATE nor SLU_PIPE_STATUS is. -/
theorem rd_dropJob_reg {f : Fld} {i : Nat} (job : (ctxOf s c).job = some j) (next : (ctxOf s c).next = none)
    (state : f.reg.addr i 0 ≠ R.SLU_CTX_STATE.addr c 0) (pipe : f.reg.addr i 0 ≠ R.SLU_PIPE_STATUS.addr 0 0) :
    rd (dropJob s c) f i = rd s f i := by
  have freed : rd (pipeFreed (dropLease (freeOuts s j.outs) j.parent.desc) c j.pipe) f i = rd s f i := by
    have given : (freeOuts s j.outs).regs = s.regs := by rw [freeOuts_eq]
    unfold pipeFreed
    split
    · exact (rd_showPipe_reg _ _ _ _ pipe).trans (rd_regs given _ _ _)
    · exact rd_regs given _ _ _
  rw [dropJob_of_next job next, rd_showCtx_reg _ _ state]
  exact (rd_regs (setCtx_regs _ _ _) _ _ _).trans freed

end

end Sys2Proof.Machine
end

