-- ==== Sys2Proof/Proofs/Landing.lean ====
section
/-!
Frames that a receiver quad lands: their start (R140, R141, R144), lines (R143, R145), end and loss (R145, R147), and the watchdog (R149, R150).
-/

namespace Sys2Proof.Machine

/-! ### Rows and records that a producer writes (R51, R52) -/

section
variable (s : State) (m : Nat) (p : Place)

theorem sealRow_kept (dom ident seq r : Nat) (lines : List (Nat × Nat × List Byte)) : PathKept s (sealRow s m p dom ident seq r lines) :=
  AccessKept.foldl (p := id) (.refl s) fun _ k => k.busWrite

theorem sealRow_slu (dom ident seq r : Nat) (lines : List (Nat × Nat × List Byte)) : (sealRow s m p dom ident seq r lines).slu = s.slu :=
  foldl_field State.slu (fun _ _ => busWrite_slu _ _ _ _) _ _

theorem writeProvisional_kept (f : Frame) : PathKept s (writeProvisional s m p f) := by
  have drawn : PathKept s (draw s) := (AccessKept.refl s).set
  unfold writeProvisional
  exact drawn.busWrite.busWrite

theorem writeProvisional_slu (f : Frame) : (writeProvisional s m p f).slu = s.slu := by
  unfold writeProvisional
  rw [busWrite_slu, busWrite_slu]
  rfl

end

/-! ### The start of a frame (R140, R141, R144) -/

section
variable (s : State) (c : Nat) (quad flow : Option Nat) (f : Frame)

/-- A context whose landing side takes its set, its watchdog started. -/
def landOpened : State := updCtx s c fun x => { landSide x (sluCyc s) with wdogFrom := s.time.cyc }

/-- The landing of a frame noted, with its buffer. -/
def landBegun (o : Option Nat) : State :=
  showCtx (updCtx s c fun x => { x with landing := some { quad := quad, flow := flow, desc := o, frame := f } }) c

/-- A buffer that a frame fills. -/
def frameTook (d : Nat) : State :=
  updDesc (setDesc s d { descOf s d with st := .filling, ownerHost := false }) d fun x => { x with frame := f }

/-- The buffer that a frame takes, unless its format bars it. -/
def landTaken (ok : Bool) : State × Option Nat :=
  if ok then takeBuffer (landOpened s c) f.format f.width f.height else (landOpened s c, none)

/-- What the start of a frame notes before its landing. -/
def landNoted (ok : Bool) : State :=
  let r := landTaken s c f ok
  let u := if !ok then raise r.1 K.SLU_CTX_EVENT_FMT c else if r.2.isNone then raise r.1 K.SLU_CTX_EVENT_NO_BUF c else r.1
  match r.2 with
  | some d => updDesc u d fun x => { x with frame := f }
  | none => u

theorem landStart_eq (ok : Bool) : landStart s c quad flow ok f = landBegun (landNoted s c f ok) c quad flow f (landTaken s c f ok).2 := rfl

theorem landTaken_format : landTaken s c f false = (landOpened s c, none) := rfl

theorem landNoted_format : landNoted s c f false = raise (landOpened s c) K.SLU_CTX_EVENT_FMT c := by
  simp only [landNoted, landTaken_format, Bool.not_false, if_true]

variable {s f}

theorem landTaken_empty (free : (matchPool s f.format f.width f.height).bind (freeIn s) = none) :
    landTaken s c f true = (raise (landOpened s c) K.EAS_EVENT_POOL_EMPTY, none) := by
  rw [landTaken, if_pos rfl]
  rcases takeBuffer_cases (landOpened s c) f.format f.width f.height with ⟨-, e⟩ | ⟨d, found, -⟩
  · exact e
  · exact absurd (found.symm.trans free) (by simp)

theorem landNoted_empty (free : (matchPool s f.format f.width f.height).bind (freeIn s) = none) :
    landNoted s c f true = raise (raise (landOpened s c) K.EAS_EVENT_POOL_EMPTY) K.SLU_CTX_EVENT_NO_BUF c := by
  simp only [landNoted, landTaken_empty c free, Bool.not_true, Bool.false_eq_true, if_false, Option.isNone_none, if_true]

theorem landTaken_takes {d : Nat} (free : (matchPool s f.format f.width f.height).bind (freeIn s) = some d) : landTaken s c f true =
    (setDesc (landOpened s c) d { descOf (landOpened s c) d with st := .filling, ownerHost := false }, some d) := by
  rw [landTaken, if_pos rfl]
  rcases takeBuffer_cases (landOpened s c) f.format f.width f.height with ⟨none_, -⟩ | ⟨d', found, e⟩
  · exact absurd (none_.symm.trans free) (by simp)
  · obtain rfl : d' = d := Option.some.inj (found.symm.trans free)
    exact e

theorem landNoted_takes {d : Nat} (free : (matchPool s f.format f.width f.height).bind (freeIn s) = some d) :
    landNoted s c f true = frameTook (landOpened s c) f d := by
  simp only [landNoted, landTaken_takes c free, Bool.not_true, Bool.false_eq_true, if_false, Option.isNone_some, frameTook]

variable (s f) (o : Option Nat)

theorem ctxOf_landBegun : ctxOf (landBegun s c quad flow f o) c =
    { ctxOf s c with landing := some { quad := quad, flow := flow, desc := o, frame := f } } := by
  rw [landBegun, ctxOf_showCtx, updCtx_eq, ctxOf_setCtx]

theorem ctxOf_landBegun_ne {e : Nat} (ne : e ≠ c) : ctxOf (landBegun s c quad flow f o) e = ctxOf s e := by
  rw [landBegun, ctxOf_showCtx, updCtx_eq, ctxOf_setCtx_ne _ _ ne]

@[simp] theorem landBegun_mem : (landBegun s c quad flow f o).mem = s.mem := by rw [landBegun, showCtx_mem, updCtx_eq, setCtx_mem]

@[simp] theorem landBegun_eas : (landBegun s c quad flow f o).eas = s.eas := by rw [landBegun, showCtx_eas, updCtx_eq, setCtx_eas]

/-- A flag of the context that is raised as its landing begins reads 1. -/
theorem rd_landBegun_flag {k : Flag} (hr : k.fld.reg = R.SLU_CTX_EVENT) (hw : k.fld.w = 1) (hlo : k.fld.lo < 64)
    (apart : k.fld.reg.apart k.cnt.reg = true) : rd (landBegun (raise s k c) c quad flow f o) k.fld c = 1 := by
  rw [landBegun, rd_showCtx_reg _ _ (by rw [hr]; exact Reg.apart_addr (by decide) c)]
  exact (rd_regs (setCtx_regs _ _ _) _ _ _).trans (rd_raise_context s c hw hlo apart)

theorem ctxOf_landOpened : ctxOf (landOpened s c) c = { landSide (ctxOf s c) (sluCyc s) with wdogFrom := s.time.cyc } := by
  rw [landOpened, updCtx_eq, ctxOf_setCtx]

theorem ctxOf_landOpened_ne {e : Nat} (ne : e ≠ c) : ctxOf (landOpened s c) e = ctxOf s e := by
  rw [landOpened, updCtx_eq, ctxOf_setCtx_ne _ _ ne]

/-- The set that a frame starting now lands under is in effect from its start (R170). -/
theorem landSide_land (x : Context) (now : Nat) : (landSide x now).land = nextLand x now := by
  unfold landSide nextLand
  cases x.pendLand && pendReady x now <;> rfl

theorem descOf_frameTook (d : Nat) : descOf (frameTook s f d) d = { descOf s d with st := .filling, ownerHost := false, frame := f } := by
  rw [frameTook, updDesc_eq, descOf_setDesc, descOf_setDesc]

theorem descOf_frameTook_ne {d e : Nat} (ne : e ≠ d) : descOf (frameTook s f d) e = descOf s e := by
  rw [frameTook, updDesc_eq, descOf_setDesc_ne _ _ ne, descOf_setDesc_ne _ _ ne]

end

section
variable {q : Fin 16} {width : BitVec 14} {format : BitVec 4} {s : State}

theorem execDpFrameStart_ignores (h : quadUse s q.val ≠ 2 ∨ rd s F.LANE_DPRX_STATUS_TRAINED q.val = 0) :
    exec (.dpFrameStart q width format) s = .next s := by
  refine if_pos ?_
  rcases h with other | untrained
  · exact .inl other
  · exact .inr (.inl (by simp [rdb, untrained]))

/-- A frame as DP_FRAME_START describes it, under a set. -/
def startedFrame (s : State) (format : BitVec 4) (set : CtxSet) : Frame :=
  { format := format.toNat, width := set.inW, height := set.inH, origin := 0, source := set.landSrc
    capture := shortStamp (sluNs s), allow := set.allow }

/-- A format of R140 at the context's width. -/
def landable (format : BitVec 4) (width : BitVec 14) (set : CtxSet) : Bool :=
  decide (2 ≤ format.toNat) && decide (format.toNat ≤ 5) && width.toNat == set.inW

theorem execDpFrameStart_starts {c : Nat} {set : CtxSet} (use : quadUse s q.val = 2) (trained : rd s F.LANE_DPRX_STATUS_TRAINED q.val = 1)
    (idle : landingOf s q.val = none) (feeds : quadContext s q.val = some c) (next : nextLand (ctxOf s c) (sluCyc s) = some set)
    (landing : (ctxOf s c).landing = none) : exec (.dpFrameStart q width format) s =
      .next (landStart (draw s) c (some q.val) none (landable format width set) (startedFrame s format set)) := by
  change execDpFrameStart q width format s = _
  simp only [execDpFrameStart, feeds, next, landing]
  exact if_neg (by simp [use, rdb, trained, idle])

/-- A frame starts: its context, and its buffer where it has one. -/
theorem dpFrameStart_effect {c : Nat} {set : CtxSet} (use : quadUse s q.val = 2) (trained : rd s F.LANE_DPRX_STATUS_TRAINED q.val = 1)
    (idle : landingOf s q.val = none) (feeds : quadContext s q.val = some c) (next : nextLand (ctxOf s c) (sluCyc s) = some set)
    (landing : (ctxOf s c).landing = none) :
    let f := startedFrame s format set
    let free := (matchPool s format.toNat set.inW set.inH).bind (freeIn s)
    ∃ v o, exec (.dpFrameStart q width format) s = .next (landBegun v c (some q.val) none f o) ∧
      v.slu = (landOpened (draw s) c).slu ∧ v.mem = s.mem ∧
      (landable format width set = false → o = none ∧ v.eas = s.eas ∧ rd (landBegun v c (some q.val) none f o) F.SLU_CTX_EVENT_FMT c = 1) ∧
      (landable format width set = true → free = none →
        o = none ∧ v.eas = s.eas ∧ rd (landBegun v c (some q.val) none f o) F.SLU_CTX_EVENT_NO_BUF c = 1) ∧
      (∀ d, landable format width set = true → free = some d →
        o = some d ∧ v.eas.sources = s.eas.sources ∧ descOf v d = { descOf s d with st := .filling, ownerHost := false, frame := f } ∧
        ∀ e, e ≠ d → descOf v e = descOf s e) := by
  intro f free
  have answer := execDpFrameStart_starts (width := width) (format := format) use trained idle feeds next landing
  have flag {k : Flag} := rd_landBegun_flag (k := k) (c := c) (quad := some q.val) (flow := none) (f := f) (o := none)
  cases ok : landable format width set with
  | false =>
    rw [ok, landStart_eq, landNoted_format, landTaken_format] at answer
    exact ⟨_, _, answer, rfl, rfl, fun _ => ⟨rfl, rfl, flag _ rfl rfl (by decide) (by decide)⟩, nofun, nofun⟩
  | true =>
    rw [ok] at answer
    cases found : free with
    | none =>
      rw [landStart_eq, landNoted_empty _ found, landTaken_empty _ found] at answer
      exact ⟨_, _, answer, rfl, rfl, nofun, fun _ _ => ⟨rfl, rfl, flag _ rfl rfl (by decide) (by decide)⟩, nofun⟩
    | some d =>
      rw [landStart_eq, landNoted_takes _ found, landTaken_takes _ found] at answer
      refine ⟨_, _, answer, rfl, rfl, nofun, nofun, fun e _ same => ?_⟩
      obtain rfl := Option.some.inj same
      exact ⟨rfl, rfl, descOf_frameTook _ _ _, fun e ne => descOf_frameTook_ne _ _ ne⟩

end

/-! ### Lines (R143, R145, R147) -/

section
variable {q : Fin 16} {px : List (BitVec 48)} {s : State} {c : Nat} {l : Landing}

theorem execDpLineRx_idle (idle : landingOf s q.val = none) : exec (.dpLineRx q px) s = .next s := by
  change execDpLineRx q px s = _
  simp only [execDpLineRx, idle, ite_self]

/-- The bytes of a line as its landing packs them. -/
def lineBytes (px : List (BitVec 48)) (l : Landing) : List Byte :=
  bytesAt (packLine l.frame.format 0 l.frame.width fun i x => slice ((px[x]?).getD 0).toNat (16 * i) 16) 0
    (spanOf l.frame.format 0 0 l.frame.width).2

/-- A line counted. -/
def lineCounted (s : State) (c n : Nat) : State := updCtx s c fun z => { z with landing := z.landing.map fun k => { k with lines := n + 1 } }

theorem execDpLineRx_taken (found : landingOf s q.val = some c) (landing : (ctxOf s c).landing = some l) (free : accessWaits s 54 = false) :
    exec (.dpLineRx q px) s =
      .next (lineCounted (if l.lines < l.frame.height then landBytes s c l.lines 0 (lineBytes px l) else s) c l.lines) := by
  change execDpLineRx q px s = _
  simp only [execDpLineRx, found, landing, free, Bool.false_eq_true, if_false]
  rfl

/-- A landing with a whole line of bytes taken in. -/
def lineHeld (l : Landing) (y : Nat) (b : List Byte) : Landing :=
  { l with data := l.data.put y (patchBytes (l.data.get y (List.replicate (spanOf l.frame.format 0 0 l.frame.width).2 0)) 0 b)
           got := l.got.put y ((0, b.length) :: l.got.get y []) }

/-- A line's bytes written to the buffer of its frame. -/
def lineWritten (s : State) (d : Nat) (f : Frame) (y : Nat) (b : List Byte) : State := (busWrite s 54 (lineAddr (placeIn s d f) 0 y 0) b).1

/-- The tile row of a line sealed provisionally. -/
def rowSealed (s : State) (d : Nat) (l : Landing) (y : Nat) (b : List Byte) : State :=
  sealRow (lineWritten s d l.frame y b) 54 (placeIn s d l.frame) domSource l.frame.source 0 (y / 16) (landLines (lineHeld l y b))

theorem landBytes_none {y x : Nat} {b : List Byte} (landing : (ctxOf s c).landing = some l) (desc : l.desc = none) : landBytes s c y x b = s := by
  simp only [landBytes, landing, desc]

theorem landBytes_line {d y : Nat} {b : List Byte} (landing : (ctxOf s c).landing = some l) (desc : l.desc = some d) :
    landBytes s c y 0 b =
      if l.rows.contains (y / 16) = false ∧ rowLanded (lineHeld l y b) (y / 16) = true then
        updCtx (rowSealed s d l y b) c fun z => { z with landing := some { lineHeld l y b with rows := l.rows ++ [y / 16] } }
      else updCtx (lineWritten s d l.frame y b) c fun z => { z with landing := some (lineHeld l y b) } := by
  simp only [landBytes, landing, desc, rowSealed, lineWritten, lineHeld, Bool.and_eq_true, Bool.not_eq_true']

/-- The landing of a context whose state is else as it was. -/
structure LandsIn (s : State) (c : Nat) (v : State) (k : Landing) : Prop where
  landing : (ctxOf v c).landing = some k
  eas : v.eas = s.eas
  others : ∀ e, e ≠ c → ctxOf v e = ctxOf s e

theorem landsIn_updCtx {v : State} (k : Landing) (eas : v.eas = s.eas) (slu : v.slu = s.slu) :
    LandsIn s c (updCtx v c fun z => { z with landing := some k }) k where
  landing := by rw [updCtx_eq, ctxOf_setCtx]
  eas := eas
  others e ne := by rw [updCtx_eq, ctxOf_setCtx_ne _ _ ne, ctxOf_slu slu]

theorem landsIn_lineCounted {v : State} {k : Landing} {n : Nat} (h : LandsIn s c v k) : LandsIn s c (lineCounted v c n) { k with lines := n + 1 } where
  landing := by rw [lineCounted, updCtx_eq, ctxOf_setCtx, h.landing]; rfl
  eas := h.eas
  others e ne := by rw [lineCounted, updCtx_eq, ctxOf_setCtx_ne _ _ ne, h.others e ne]

theorem lineWritten_eas (d : Nat) (f : Frame) (y : Nat) (b : List Byte) : (lineWritten s d f y b).eas = s.eas := (AccessKept.refl s).busWrite.eas

theorem lineWritten_slu (d : Nat) (f : Frame) (y : Nat) (b : List Byte) : (lineWritten s d f y b).slu = s.slu := busWrite_slu _ _ _ _

/-- What a line below the frame's height does to its landing and to memory. -/
theorem landBytes_effect {d y : Nat} {b : List Byte} (landing : (ctxOf s c).landing = some l) (desc : l.desc = some d) :
    let whole := l.rows.contains (y / 16) = false ∧ rowLanded (lineHeld l y b) (y / 16) = true
    ∃ k, LandsIn s c (landBytes s c y 0 b) k ∧ k.desc = l.desc ∧
      (¬ whole → (landBytes s c y 0 b).mem = (lineWritten s d l.frame y b).mem ∧ k.rows = l.rows) ∧
      (whole → (landBytes s c y 0 b).mem = (rowSealed s d l y b).mem ∧ k.rows = l.rows ++ [y / 16]) := by
  intro whole
  rw [landBytes_line landing desc]
  by_cases h : whole
  · rw [if_pos h]
    exact ⟨_, landsIn_updCtx _ ((sealRow_kept _ _ _ _ _ _ _ _).eas.trans (lineWritten_eas _ _ _ _))
      ((sealRow_slu _ _ _ _ _ _ _ _).trans (lineWritten_slu _ _ _ _)), rfl, fun not => absurd h not, fun _ => ⟨rfl, rfl⟩⟩
  · rw [if_neg h]
    exact ⟨_, landsIn_updCtx _ (lineWritten_eas _ _ _ _) (lineWritten_slu _ _ _ _), rfl, fun _ => ⟨rfl, rfl⟩, fun is => absurd is h⟩

end

/-! ### A landing given up (R147, R150, R167) -/

section
variable {s : State} {c d : Nat} {l : Landing}

/-- A context that lands nothing. -/
def landCleared (s : State) (c : Nat) : State := updCtx s c fun x => { x with landing := none }

theorem ctxOf_landCleared (s : State) (c : Nat) : ctxOf (landCleared s c) c = { ctxOf s c with landing := none } := by
  rw [landCleared, updCtx_eq, ctxOf_setCtx]

theorem landAbandon_idle (landing : (ctxOf s c).landing = none) : landAbandon s c = s := by rw [landAbandon, landing]

theorem landAbandon_none (landing : (ctxOf s c).landing = some l) (desc : l.desc = none) : landAbandon s c = landCleared s c := by
  simp only [landAbandon, landing, desc]
  rfl

theorem landAbandon_some (landing : (ctxOf s c).landing = some l) (desc : l.desc = some d) :
    landAbandon s c = abandonBuffer (parentLost (landCleared s c) c d) d := by
  simp only [landAbandon, landing, desc]
  rfl

/-- Giving up a landing leaves alone what jobs do, but for the landing itself. -/
theorem landAbandon_kept (landing : (ctxOf s c).landing = some l) : JobsKept c (landCleared s c) (landAbandon s c) := by
  cases desc : l.desc with
  | none =>
    rw [landAbandon_none landing desc]
    exact .refl _ _
  | some d =>
    rw [landAbandon_some landing desc]
    exact (JobsKept.refl c _).parentLost.abandonBuffer

theorem landAbandon_landing (s : State) (c : Nat) : (ctxOf (landAbandon s c) c).landing = none := by
  cases landing : (ctxOf s c).landing with
  | none => rw [landAbandon_idle landing, landing]
  | some l => rw [(landAbandon_kept landing).landing, ctxOf_landCleared]

theorem landAbandon_events (s : State) (c : Nat) : EventsKept s (landAbandon s c) := by
  cases landing : (ctxOf s c).landing with
  | none => rw [landAbandon_idle landing]; exact .refl s
  | some l => exact (EventsKept.refl s).set.trans (landAbandon_kept landing).toEventsKept

theorem landAbandon_mem (s : State) (c : Nat) : (landAbandon s c).mem = s.mem := by
  cases landing : (ctxOf s c).landing with
  | none => rw [landAbandon_idle landing]
  | some l => exact (landAbandon_kept landing).mem

theorem landAbandon_requests (s : State) (c : Nat) : (landAbandon s c).eas.requests = s.eas.requests := by
  cases landing : (ctxOf s c).landing with
  | none => rw [landAbandon_idle landing]
  | some l => exact (landAbandon_kept landing).requests

theorem landAbandon_time (s : State) (c : Nat) : (landAbandon s c).time = s.time := by
  cases landing : (ctxOf s c).landing with
  | none => rw [landAbandon_idle landing]
  | some l => exact (landAbandon_kept landing).time

/-- Its buffer, which it was filling, is FREE. -/
theorem landAbandon_free (landing : (ctxOf s c).landing = some l) (desc : l.desc = some d) (filling : (descOf s d).st = .filling) :
    (descOf (landAbandon s c) d).st = .free := by
  have lost : JobsKept c (landCleared s c) (parentLost (landCleared s c) c d) := (JobsKept.refl c _).parentLost
  rw [landAbandon_some landing desc, abandonBuffer_eq, descOf_setDesc]
  exact abandoned_free (lost.idle (.inl filling))

theorem parentLost_eas (d : Nat) (job : (ctxOf s c).job = none) : (parentLost s c d).eas = s.eas := by
  unfold parentLost
  dsimp only
  split
  · next found =>
    rw [ctxOf_showCtx, updCtx_eq, ctxOf_setCtx] at found
    exact absurd (job.symm.trans found) (by simp)
  · exact showCtx_eas _ _

/-- With no job on the context no source changes. -/
theorem landAbandon_sources (landing : (ctxOf s c).landing = some l) (job : (ctxOf s c).job = none) :
    (landAbandon s c).eas.sources = s.eas.sources := by
  cases desc : l.desc with
  | none => rw [landAbandon_none landing desc]; rfl
  | some d =>
    have lost := parentLost_eas (s := landCleared s c) (c := c) d (by rw [ctxOf_landCleared]; exact job)
    rw [landAbandon_some landing desc]
    exact (congrArg Easel.sources lost :)

end

/-! ### The end of a frame (R145, R147) -/

section
variable {q : Fin 16} {s : State} {c d : Nat} {l : Landing}

theorem execDpFrameEnd_idle (idle : landingOf s q.val = none) : exec (.dpFrameEnd q) s = .next s := by
  change execDpFrameEnd q s = _
  simp only [execDpFrameEnd, idle, ite_self]

theorem execDpFrameEnd_taken (found : landingOf s q.val = some c) (landing : (ctxOf s c).landing = some l) (free : accessWaits s 54 = false) :
    exec (.dpFrameEnd q) s = .next (
      if l.desc.isNone then landAbandon s c
      else if l.lines < l.frame.height then landAbandon (raise s K.SLU_CTX_EVENT_SHORT c) c
      else if l.frame.height < l.lines then landAbandon (raise s K.SLU_CTX_EVENT_LONG c) c
      else landEnd s c l.frame) := by
  change execDpFrameEnd q s = _
  simp only [execDpFrameEnd, found, landing, free, Bool.false_eq_true, if_false]
  repeat' split
  all_goals rfl

/-- The context whose landed frame is whole: it waits for the release of a job, unless one was released in its landing. -/
def landDue (s : State) (c d : Nat) (l : Landing) : State :=
  if l.released then landCleared s c else updCtx (landCleared s c) c fun x => { x with due := some (d, 0, true) }

/-- The frame with the CRC of its content. -/
def landedWhole (p : Place) (f : Frame) (l : Landing) : Frame :=
  { f with content := contentOf ((upto (tileRows f.height)).foldl (fun k r => contentRow k p r (landLines l)) 0xFFFFFFFF) }

theorem landEnd_eq {f : Frame} (landing : (ctxOf s c).landing = some l) (desc : l.desc = some d) :
    let p := placeIn (landDue s c d l) d f
    let g := landedWhole p f l
    landEnd s c f = noteAsked (requestPublish (updDesc (writeProvisional (landDue s c d l) 54 p g) d fun x => { x with frame := g }) d) d c 4 := by
  simp only [landEnd, landing, desc]
  rfl

theorem landDue_eas (s : State) (c d : Nat) (l : Landing) : (landDue s c d l).eas = s.eas := by
  unfold landDue
  split <;> rfl

theorem landDue_landing (s : State) (c d : Nat) (l : Landing) : (ctxOf (landDue s c d l) c).landing = none := by
  unfold landDue
  split
  · rw [ctxOf_landCleared]
  · rw [updCtx_eq, ctxOf_setCtx, ctxOf_landCleared]

/-- A whole frame asks for publication, its buffer as its producer left it. -/
theorem landEnd_effect {f : Frame} (landing : (ctxOf s c).landing = some l) (desc : l.desc = some d) : let t := landEnd s c f
    (ctxOf t c).landing = none ∧ t.eas.requests = s.eas.requests ++ [d] ∧ (descOf t d).st = (descOf s d).st ∧
      (descOf t d).frame.source = f.source := by
  rw [landEnd_eq landing desc]
  have due := landDue_landing s c d l
  have eas := landDue_eas s c d l
  generalize landDue s c d l = u at due eas
  have path := writeProvisional_kept u 54 (placeIn u d f) (landedWhole (placeIn u d f) f l)
  have slu := writeProvisional_slu u 54 (placeIn u d f) (landedWhole (placeIn u d f) f l)
  generalize writeProvisional u 54 (placeIn u d f) (landedWhole (placeIn u d f) f l) = v at path slu
  have whole := path.eas.trans eas
  refine ⟨?_, ?_, ?_, ?_⟩
  · change (v.slu.ctxs.get c {}).landing = none
    rw [slu]
    exact due
  · change v.eas.requests ++ [d] = _
    rw [whole]
  · refine (congrArg Desc.st (descOf_setDesc v d _)).trans ?_
    rw [descOf_eas whole]
  · exact congrArg (fun x => x.frame.source) (descOf_setDesc v d _)

/-- A frame whose lines are too few or too many is given up with a flag. -/
theorem landAbandon_raised {k : Flag} (hk : besideJobs k.fld c) (hw : k.fld.w = 1)
    (apart : k.fld.reg.apart k.cnt.reg = true) {f : Fld} (hf : besideJobs f c) (hreg : f.reg = k.fld.reg)
    (beside : f.lo + f.w ≤ k.fld.lo ∨ k.fld.lo + k.fld.w ≤ f.lo) (landing : (ctxOf s c).landing = some l) (desc : l.desc = some d)
    (filling : (descOf s d).st = .filling) : let t := landAbandon (raise s k c) c
    (ctxOf t c).landing = none ∧ (descOf t d).st = .free ∧ t.mem = s.mem ∧ t.eas.requests = s.eas.requests ∧
      ((ctxOf s c).job = none → t.eas.sources = s.eas.sources) ∧ rd t k.fld c = 1 ∧ rd t f c = rd s f c := by
  have kept := landAbandon_events (raise s k c) c
  refine ⟨landAbandon_landing _ _, landAbandon_free (s := raise s k c) landing desc filling, landAbandon_mem _ _, landAbandon_requests _ _,
    fun job => landAbandon_sources (s := raise s k c) landing job, ?_, ?_⟩
  · rw [kept.rd_eq hk]
    exact rd_raise_context s c hw (by have := hk.1; omega) apart
  · rw [kept.rd_eq hf]
    have count : rd (raise s k c) f c = rd (wr s k.fld c 0 1) f c := rd_wr_reg _ _ _ _ _ _ _ _ (by rw [hreg]; exact Reg.apart_addr apart c)
    rw [count]
    exact rd_wr_field _ _ _ _ _ _ hreg hf.1 beside

end

/-! ### The watchdog (R149, R150) -/

section
variable {s : State} {c : Fin 64}

theorem wdogDue_early (h : wdogMs (ctxOf s c) = 0 ∨ s.time.cyc < (ctxOf s c).wdogFrom + msCyc (wdogMs (ctxOf s c))) : wdogDue s c = false := by
  simp only [wdogDue, Bool.and_eq_false_iff, decide_eq_false_iff_not]
  omega

theorem wdogDue_passed (runs : 0 < wdogMs (ctxOf s c)) (passed : (ctxOf s c).wdogFrom + msCyc (wdogMs (ctxOf s c)) ≤ s.time.cyc) :
    wdogDue s c = true := by
  simp only [wdogDue, Bool.and_eq_true, decide_eq_true_eq]
  exact ⟨runs, passed⟩

theorem execWdogNoStart_idle (h : (wdogDue s c && (ctxOf s c).landing.isNone) = false) : exec (.wdogNoStart c) s = .next s :=
  if_neg (by rw [h]; decide)

theorem execWdogIncomplete_idle (h : (wdogDue s c && (ctxOf s c).landing.isSome) = false) : exec (.wdogIncomplete c) s = .next s :=
  if_neg (by rw [h]; decide)

theorem execWdogNoStart_fires (h : (wdogDue s c && (ctxOf s c).landing.isNone) = true) : exec (.wdogNoStart c) s = .next (wdogFire s c 1) :=
  if_pos h

theorem execWdogIncomplete_fires (h : (wdogDue s c && (ctxOf s c).landing.isSome) = true) :
    exec (.wdogIncomplete c) s = .next (wdogFire (landAbandon s c) c 2) := if_pos h

theorem signal_slu (s : State) (ev : Nat) : (signal s ev).slu = s.slu := by rw [signal_eq]
theorem signal_eas (s : State) (ev : Nat) : (signal s ev).eas = s.eas := by rw [signal_eq]

/-- What a watchdog that fires shows, before its event is signalled. -/
def wdogNoted (s : State) (c cause : Nat) : State := raise (wr s F.SLU_CTX_STATE_WDOG_CAUSE c 0 cause) K.SLU_CTX_EVENT_WDOG c

theorem wdogFire_eq (s : State) (c cause : Nat) :
    wdogFire s c cause = signal (updCtx (wdogNoted s c cause) c fun x => { x with wdogFrom := (wdogNoted s c cause).time.cyc }) c := rfl

theorem rd_wdogNoted_cause (s : State) (c : Nat) {cause : Nat} (h : cause < 4) :
    rd (wdogNoted s c cause) F.SLU_CTX_STATE_WDOG_CAUSE c = cause := by
  rw [wdogNoted, rd_raise_reg _ _ _ _ _ _ (Reg.apart_addr (by decide) c) (Reg.apart_addr (by decide) c), rd_wr_same _ _ _ _ _ (by decide)]
  exact Nat.mod_eq_of_lt h

/-- A signal writes no register of a context's block. -/
theorem rd_signal_context {f : Fld} {t : State} {ev : Nat} (h : f.reg.addr c.val 0 < 0xC20000 ∧ 0xC10000 ≤ f.reg.addr c.val 0) :
    rd (signal t ev) f c.val = rd t f c.val := (signal_kept t ev).rd_eq (by unfold besideDram; omega)

/-- A watchdog that fires raises WDOG with its cause, and starts again. -/
theorem wdogFire_effect (s : State) (c : Fin 64) {cause : Nat} (hcause : cause < 4) : let t := wdogFire s c cause
    rd t F.SLU_CTX_EVENT_WDOG c.val = 1 ∧ rd t F.SLU_CTX_STATE_WDOG_CAUSE c.val = cause ∧
      ctxOf t c.val = { ctxOf s c.val with wdogFrom := s.time.cyc } ∧ t.eas = s.eas ∧ t.mem = s.mem := by
  have addr : R.SLU_CTX_STATE.addr c.val 0 = 0xC10100 + c.val * 0x400 := by simp [Reg.addr, R.SLU_CTX_STATE]
  have below := c.isLt
  have flag : rd (wdogNoted s c cause) F.SLU_CTX_EVENT_WDOG c.val = 1 := rd_raise_context _ c.val rfl (by decide) (by decide)
  have shown := rd_wdogNoted_cause s c.val hcause
  have ctx : ctxOf (wdogNoted s c cause) c.val = ctxOf s c.val := rfl
  have time : (wdogNoted s c cause).time = s.time := rfl
  have eas : (wdogNoted s c cause).eas = s.eas := rfl
  have mem : (wdogNoted s c cause).mem = s.mem := rfl
  rw [wdogFire_eq]
  generalize wdogNoted s c cause = u at flag shown ctx time eas mem
  refine ⟨?_, ?_, ?_, ?_, ?_⟩
  · rw [rd_signal_context (f := F.SLU_CTX_EVENT_WDOG) (by rw [show F.SLU_CTX_EVENT_WDOG.reg = R.SLU_CTX_EVENT from rfl, addr_ctxEvent]; omega)]
    exact (rd_regs (setCtx_regs _ _ _) _ _ _).trans flag
  · rw [rd_signal_context (f := F.SLU_CTX_STATE_WDOG_CAUSE) (by rw [show F.SLU_CTX_STATE_WDOG_CAUSE.reg = R.SLU_CTX_STATE from rfl, addr]; omega)]
    exact (rd_regs (setCtx_regs _ _ _) _ _ _).trans shown
  · rw [ctxOf_slu (signal_slu _ _), updCtx_eq, ctxOf_setCtx, ctx, time]
  · rw [signal_eas, updCtx_eq, setCtx_eas, eas]
  · rw [signal_mem, updCtx_eq, setCtx_mem, mem]

end

/-! ### The statement -/

/-- The least index that a search finds is below its bound. -/
theorem lowest_lt {n i : Nat} {p : Nat → Bool} (h : lowest n p = some i) : i < n := by
  unfold lowest at h
  exact List.mem_range.1 (List.mem_of_find?_eq_some h)

section
variable {q : Fin 16} {px : List (BitVec 48)} {s : State} {c : Nat} {l : Landing}

/-- A line is counted, and below the frame's height its bytes are written (R143, R145). -/
theorem dpLineRx_effect (found : landingOf s q.val = some c) (landing : (ctxOf s c).landing = some l) (free : accessWaits s 54 = false) :
    ∃ t k, exec (.dpLineRx q px) s = .next t ∧ (ctxOf t c).landing = some k ∧ k.lines = l.lines + 1 ∧ k.desc = l.desc ∧
      t.eas = s.eas ∧ (∀ e, e ≠ c → ctxOf t e = ctxOf s e) ∧
      (l.desc = none ∨ l.frame.height ≤ l.lines → t.mem = s.mem ∧ k.rows = l.rows) ∧
      ∀ d, l.desc = some d → l.lines < l.frame.height →
        let whole := l.rows.contains (l.lines / 16) = false ∧ rowLanded (lineHeld l l.lines (lineBytes px l)) (l.lines / 16) = true
        (¬ whole → t.mem = (lineWritten s d l.frame l.lines (lineBytes px l)).mem ∧ k.rows = l.rows) ∧
        (whole → t.mem = (rowSealed s d l l.lines (lineBytes px l)).mem ∧ k.rows = l.rows ++ [l.lines / 16]) := by
  have answer := execDpLineRx_taken (px := px) found landing free
  have kept : LandsIn s c s l := ⟨landing, rfl, fun _ _ => rfl⟩
  have counted {v k} (lands : LandsIn s c v k) := landsIn_lineCounted (n := l.lines) lands
  by_cases below : l.lines < l.frame.height
  · rw [if_pos below] at answer
    cases desc : l.desc with
    | none =>
      rw [landBytes_none landing desc] at answer
      obtain ⟨lands, eas, others⟩ := counted kept
      exact ⟨_, _, answer, lands, rfl, desc, eas, others, fun _ => ⟨rfl, rfl⟩, nofun⟩
    | some d =>
      obtain ⟨k, taken, same, part, whole⟩ := landBytes_effect (y := l.lines) (b := lineBytes px l) landing desc
      obtain ⟨lands, eas, others⟩ := counted taken
      refine ⟨_, _, answer, lands, rfl, same.trans desc, eas, others, fun out => ?_, fun e he _ => ?_⟩
      · rcases out with none_ | beyond
        · cases none_
        · omega
      · obtain rfl := Option.some.inj he
        exact ⟨part, whole⟩
  · rw [if_neg below] at answer
    obtain ⟨lands, eas, others⟩ := counted kept
    exact ⟨_, _, answer, lands, rfl, rfl, eas, others, fun _ => ⟨rfl, rfl⟩, fun d _ is => absurd is below⟩

end

/-- Settles O26: a frame's start by what its format, width and pool allow; lines and ends by the landing's buffer and count; the watchdog by
its period. -/
theorem landingOfReceiverFrames : Obligations.LandingOfReceiverFrames := by
  unfold Obligations.LandingOfReceiverFrames
  refine ⟨fun q width format s ignored => execDpFrameStart_ignores ignored, ?start,
    fun q px s idle => ⟨execDpLineRx_idle idle, execDpFrameEnd_idle idle⟩,
    fun q px s c l found landing free => dpLineRx_effect found landing free, ?noBuffer, ?ended, ?watchdog⟩
  case start =>
    intro q width format s c set use trained idle feeds next landing landed free
    obtain ⟨v, o, answer, slu, mem, format_, empty, takes⟩ :=
      dpFrameStart_effect (width := width) (format := format) use trained idle feeds next landing
    have allows : landable format width set = true ↔ landed := by
      simp only [landable, Bool.and_eq_true, decide_eq_true_eq, beq_iff_eq, and_assoc, landed]
    have land : ctxOf v c = ctxOf (landOpened (draw s) c) c := ctxOf_slu slu c
    refine ⟨_, { quad := some q.val, flow := none, desc := o, frame := startedFrame s format set }, answer, ?_, rfl, rfl, rfl, ?_, ?_, rfl, rfl, rfl,
      (landBegun_mem _ _ _ _ _ _).trans mem, fun e ne => ?_, fun barred => ?_, fun ok none_ => ?_, fun d ok found => ?_⟩
    · rw [ctxOf_landBegun]
    · rw [ctxOf_landBegun, land, ctxOf_landOpened]
      exact (landSide_land _ _).trans next
    · rw [ctxOf_landBegun, land, ctxOf_landOpened]
      rfl
    · rw [ctxOf_landBegun_ne _ _ _ _ _ _ ne, ctxOf_slu slu, ctxOf_landOpened_ne _ _ ne]
      rfl
    · obtain ⟨rfl, eas, flag⟩ := format_ (Bool.eq_false_iff.2 fun ok => barred (allows.1 ok))
      exact ⟨rfl, flag, (landBegun_eas _ _ _ _ _ _).trans eas⟩
    · obtain ⟨rfl, eas, flag⟩ := empty (allows.2 ok) none_
      exact ⟨rfl, flag, (landBegun_eas _ _ _ _ _ _).trans eas⟩
    · obtain ⟨rfl, sources, took, others⟩ := takes d (allows.2 ok) found
      have same (e) : descOf (landBegun v c (some q.val) none (startedFrame s format set) (some d)) e = descOf v e :=
        descOf_eas (landBegun_eas _ _ _ _ _ _) e
      refine ⟨rfl, ?_, ?_, ?_, by rw [landBegun_eas, sources], fun e ne => by rw [same, others e ne]⟩
      all_goals rw [same, took]
  case noBuffer =>
    intro q s c l found landing desc free
    have answer := execDpFrameEnd_taken found landing free
    rw [if_pos (by rw [desc]; rfl), landAbandon_none landing desc] at answer
    exact ⟨_, answer, by rw [ctxOf_landCleared], rfl⟩
  case ended =>
    intro q s c d l found landing desc filling free
    have answer := execDpFrameEnd_taken found landing free
    have hc : c < 64 := lowest_lt found
    rw [desc, if_neg (by simp)] at answer
    refine ⟨fun whole => ?_, fun part => ?_⟩
    · rw [if_neg (by omega), if_neg (by omega)] at answer
      obtain ⟨cleared, requests, st, source⟩ := landEnd_effect (f := l.frame) landing desc
      exact ⟨_, answer, cleared, requests, st.trans filling, source⟩
    · rcases Nat.lt_or_gt_of_ne part with short | long
      · rw [if_pos short] at answer
        obtain ⟨cleared, freed, mem, requests, sources, raised, beside⟩ :=
          landAbandon_raised (k := K.SLU_CTX_EVENT_SHORT) (f := F.SLU_CTX_EVENT_LONG)
          (besideJobs_event rfl hc) rfl (by decide) (besideJobs_event rfl hc) rfl (by decide) landing desc filling
        exact ⟨_, answer, cleared, freed, mem, requests, sources, fun _ => ⟨raised, beside⟩, fun long => by omega⟩
      · rw [if_neg (by omega), if_pos long] at answer
        obtain ⟨cleared, freed, mem, requests, sources, raised, beside⟩ :=
          landAbandon_raised (k := K.SLU_CTX_EVENT_LONG) (f := F.SLU_CTX_EVENT_SHORT)
          (besideJobs_event rfl hc) rfl (by decide) (besideJobs_event rfl hc) rfl (by decide) landing desc filling
        exact ⟨_, answer, cleared, freed, mem, requests, sources, fun short => by omega, fun _ => ⟨raised, beside⟩⟩
  case watchdog =>
    intro c s x
    refine ⟨fun early => ?_, fun runs passed landing => ?_, fun l runs passed landing => ?_⟩
    · have notDue := wdogDue_early early
      exact ⟨execWdogNoStart_idle (by rw [notDue, Bool.false_and]), execWdogIncomplete_idle (by rw [notDue, Bool.false_and])⟩
    · have due := wdogDue_passed runs passed
      obtain ⟨flag, cause, ctx, eas, mem⟩ := wdogFire_effect s c (cause := 1) (by decide)
      refine ⟨execWdogIncomplete_idle ?_, _, execWdogNoStart_fires ?_, flag, cause, ctx, eas, mem⟩
      · rw [due, landing]; rfl
      · rw [due, landing]; rfl
    · have due := wdogDue_passed runs passed
      obtain ⟨flag, cause, ctx, eas, mem⟩ := wdogFire_effect (landAbandon s c) c (cause := 2) (by decide)
      refine ⟨execWdogNoStart_idle ?_, _, execWdogIncomplete_fires ?_, flag, cause, ?_, ?_, mem.trans (landAbandon_mem s c),
        fun job => ?_, fun d desc filling => ?_⟩
      · rw [due, landing]; rfl
      · rw [due, landing]; rfl
      · rw [ctx]; exact landAbandon_landing s c
      · rw [ctx, landAbandon_time]
      · rw [eas, landAbandon_sources landing job]
      · rw [descOf_eas eas]
        exact landAbandon_free landing desc filling

end Sys2Proof.Machine
end

