-- ==== Sys2Proof/Proofs/SluiceRelease.lean ====
section
/-!
Jobs of the Sluice: what becomes of those whose deadline has passed (R165), and their release (R153, R164, R166, R170).
-/

namespace Sys2Proof.Machine

/-! ### Deadlines -/

/-- Where no deadline has passed no job is dropped. -/
theorem dropOverdue_idle {s : State} (h : ∀ k, overdue s k = false) : dropOverdue s = s :=
  each_keeps (· = s) _ _ (fun t c _ ht => by rw [ht, h c]; rfl) s rfl

theorem mem_keys_of_find {α : Type} {m : Map α} {k : Nat} {v : α} (h : m.find k = some v) : k ∈ m.map (·.1) := by
  induction m with
  | nil => cases h
  | cons e m ih =>
    obtain ⟨a, b⟩ := e
    rw [List.map_cons, List.mem_cons]
    rw [Map.find] at h
    split at h
    · next same => exact .inl same
    · exact .inr (ih h)

/-- A context with a job stands in the map. -/
theorem mem_keys_of_job {s : State} {c : Nat} {j : Job} (h : (ctxOf s c).job = some j) : c ∈ s.slu.ctxs.map (·.1) := by
  cases found : s.slu.ctxs.find c with
  | none =>
    rw [ctxOf, Map.get, found] at h
    cases h
  | some x => exact mem_keys_of_find found

theorem overdue_job {s : State} {c : Nat} {j : Job} (h : (ctxOf s c).job = some j) :
    overdue s c = (decide (j.k < j.n) && decide (deadlineAt j j.k < sluCyc s)) := by
  rw [overdue, h, Option.any_some]

section
variable {s : State} {c e : Nat}

/-- The drop of a context's job whose deadline has passed. -/
def missed (s : State) (c : Nat) : State := if overdue s c then dropJob (raise s K.SLU_CTX_EVENT_MISS c) c else s

theorem missed_miss (hc : c < 64) (h : overdue s c = true) : rd (missed s c) F.SLU_CTX_EVENT_MISS c = 1 := by
  have kept : EventsKept (raise s K.SLU_CTX_EVENT_MISS c) (missed s c) := by
    rw [missed, if_pos h]
    exact (JobsKept.refl c _).dropJob.toEventsKept
  rw [kept.rd_eq (besideJobs_event rfl hc)]
  exact rd_raise_context s c rfl (by decide) (by decide)

/-- A MISS that is raised stays. -/
theorem missed_keeps_miss (hc : c < 64) (h : rd s F.SLU_CTX_EVENT_MISS c = 1) (e : Nat) : rd (missed s e) F.SLU_CTX_EVENT_MISS c = 1 := by
  unfold missed
  split
  · rw [(JobsKept.refl e (raise s K.SLU_CTX_EVENT_MISS e)).dropJob.rd_eq (besideJobs_event rfl hc)]
    rcases eq_or_ne c e with rfl | ne
    · exact rd_raise_context s c rfl (by decide) (by decide)
    · rw [← h]
      refine rd_raise_reg _ _ _ _ _ _ (ctxEvent_ne ne) fun same => ?_
      have noted := (besideJobs_event (f := F.SLU_CTX_EVENT_MISS) rfl hc).note
      exact not_sluiceNote_context (r := K.SLU_CTX_EVENT_MISS.cnt.reg) (by decide) e (same ▸ noted)
  · exact h

/-- The drop of another context's job passes no deadline by. -/
theorem missed_keeps_overdue (ne : c ≠ e) (h : overdue s c = true) : overdue (missed s e) c = true := by
  unfold missed
  split
  · have kept := (JobsKept.refl e (raise s K.SLU_CTX_EVENT_MISS e)).dropJob
    have time : sluCyc (dropJob (raise s K.SLU_CTX_EVENT_MISS e) e) = sluCyc s := by
      rw [sluCyc, kept.time]
      rfl
    rw [overdue, kept.others c ne, time]
    exact h
  · exact h

theorem dropOverdue_eq (s : State) : dropOverdue s = each (s.slu.ctxs.map (·.1)) missed s := rfl

/-- Every passed deadline raises MISS (R165). -/
theorem dropOverdue_misses (hc : c < 64) {j : Job} (job : (ctxOf s c).job = some j) (below : j.k < j.n) (passed : deadlineAt j j.k < sluCyc s) :
    rd (dropOverdue s) F.SLU_CTX_EVENT_MISS c = 1 := by
  have due : overdue s c = true := by rw [overdue_job job, decide_eq_true below, decide_eq_true passed]; rfl
  have key := mem_keys_of_job job
  rw [dropOverdue_eq]
  generalize s.slu.ctxs.map (·.1) = l at key
  clear job passed
  induction l generalizing s with
  | nil => cases key
  | cons e l ih =>
    rcases eq_or_ne c e with rfl | ne
    · exact each_keeps (fun t => rd t F.SLU_CTX_EVENT_MISS c = 1) missed l (fun _ x _ ht => missed_keeps_miss hc ht x) _ (missed_miss hc due)
    · exact ih (missed_keeps_overdue ne due) ((List.mem_cons.1 key).resolve_left ne)

end

/-! ### SLU_JOB_DROP (R165) -/

section
variable {c : Fin 64} {s : State} {j : Job}

theorem execSluJobDrop_early (job : (ctxOf s c).job = some j) (h : j.n ≤ j.k ∨ sluCyc s ≤ deadlineAt j j.k) :
    exec (.sluJobDrop c) s = .next s := by
  refine if_neg ?_
  rw [overdue_job job]
  simp only [Bool.and_eq_true, decide_eq_true_eq]
  omega

/-- A job whose deadline has passed ends with MISS. -/
theorem sluJobDrop_effect (job : (ctxOf s c).job = some j) (below : j.k < j.n) (passed : deadlineAt j j.k < sluCyc s)
    (next : (ctxOf s c).next = none) :
    ∃ t, exec (.sluJobDrop c) s = .next t ∧ (ctxOf t c.val).job = none ∧ rd t F.SLU_CTX_EVENT_MISS c.val = 1 ∧
      rd t F.SLU_CTX_STATE_JOB c.val = 0 ∧ t.eas.requests = s.eas.requests ∧ t.eas.sources = s.eas.sources ∧ t.mem = s.mem ∧
      ∀ o ∈ j.outs, (descOf s o.2).st = .filling → (descOf t o.2).st = .free := by
  have due : overdue s c = true := by rw [overdue_job job, decide_eq_true below, decide_eq_true passed]; rfl
  have drops : missed s c = dropJob (raise s K.SLU_CTX_EVENT_MISS c) c := if_pos due
  have miss := missed_miss c.isLt due
  have kept := (JobsKept.refl c.val (raise s K.SLU_CTX_EVENT_MISS c)).dropJob
  rw [drops] at miss
  refine ⟨_, if_pos due, ?_, miss, rd_dropJob_job (s := raise s K.SLU_CTX_EVENT_MISS c) job next, kept.requests,
    dropJob_sources (s := raise s K.SLU_CTX_EVENT_MISS c) job next, kept.mem,
    fun o ho filling => dropJob_outs (s := raise s K.SLU_CTX_EVENT_MISS c) job next ho filling⟩
  rw [ctxOf_dropJob (s := raise s K.SLU_CTX_EVENT_MISS c) next]

end

/-! ### SLU_JOB_RELEASE (R153, R164, R166) -/

/-- A context whose parent frame is taken for a job. -/
def parentTaken (s : State) (c : Nat) : State := updCtx s c fun x =>
  { x with due := none, landing := if x.due.isSome then x.landing else x.landing.map fun l => { l with released := true } }

section
variable {c : Fin 64} {s : State} {a : Nat × Nat × Bool}

theorem execSluJobRelease_none (early : ∀ k, overdue s k = false) (none_ : releasable s c.val = none) : exec (.sluJobRelease c) s = .next s := by
  change execSluJobRelease c s = _
  simp only [execSluJobRelease, dropOverdue_idle early, none_, ite_self]

theorem ctxOf_parentTaken (s : State) (c : Nat) : ctxOf (parentTaken s c) c = { ctxOf s c with
    due := none
    landing := if (ctxOf s c).due.isSome then (ctxOf s c).landing else (ctxOf s c).landing.map fun l => { l with released := true } } := by
  rw [parentTaken, updCtx_eq, ctxOf_setCtx]

/-- What a release does on a context with a job. -/
def jobPended (s : State) (c : Nat) (a : Nat × Nat × Bool) : State :=
  updCtx (also (ctxOf s c).next.isSome (fun s => raise s K.SLU_CTX_EVENT_SKIP c) s) c fun x => { x with next := some a }

/-- What a release on a parent does. -/
theorem execSluJobRelease_cases (free : accessWaits (dropOverdue s) 55 = false) (found : releasable (dropOverdue s) c.val = some a) :
    exec (.sluJobRelease c) s = .next (showCtx (
      if (ctxOf (dropOverdue s) c).job.isNone then startJob (parentTaken (dropOverdue s) c) c a.1 a.2.1 a.2.2
      else jobPended (parentTaken (dropOverdue s) c) c a) c) := by
  obtain ⟨d, seq, live⟩ := a
  have job : (ctxOf (parentTaken (dropOverdue s) c) c).job = (ctxOf (dropOverdue s) c).job := by rw [ctxOf_parentTaken]
  change execSluJobRelease c s = _
  simp only [execSluJobRelease, free, found, Bool.false_eq_true, if_false]
  change (if (ctxOf (parentTaken (dropOverdue s) c) c).job.isNone then _ else _) = _
  rw [job]
  split <;> rfl

end

section
variable {c : Fin 64} {s : State} {a : Nat × Nat × Bool}

theorem ctxOf_jobPended (s : State) (c : Nat) (a : Nat × Nat × Bool) : ctxOf (jobPended s c a) c = { ctxOf s c with next := some a } := by
  have raised : ctxOf (also (ctxOf s c).next.isSome (fun s => raise s K.SLU_CTX_EVENT_SKIP c) s) c = ctxOf s c := by
    cases (ctxOf s c).next.isSome <;> rfl
  rw [jobPended, updCtx_eq, ctxOf_setCtx, raised]

theorem jobPended_eas (s : State) (c : Nat) (a : Nat × Nat × Bool) : (jobPended s c a).eas = s.eas := by
  unfold jobPended
  cases (ctxOf s c).next.isSome <;> rfl

theorem jobPended_mem (s : State) (c : Nat) (a : Nat × Nat × Bool) : (jobPended s c a).mem = s.mem := by
  unfold jobPended
  cases (ctxOf s c).next.isSome <;> rfl

/-- SKIP is raised where a job was pending, and only there (R166). -/
theorem rd_jobPended_skip (s : State) (c : Nat) (a : Nat × Nat × Bool) : rd (jobPended s c a) F.SLU_CTX_EVENT_SKIP c =
    if (ctxOf s c).next.isSome then 1 else rd s F.SLU_CTX_EVENT_SKIP c := by
  rw [jobPended, updCtx_eq, rd_regs (setCtx_regs _ _ _)]
  cases (ctxOf s c).next.isSome with
  | false => rfl
  | true => exact rd_raise_context s c rfl (by decide) (by decide)

/-- With a job on its context the frame becomes the pending job. -/
theorem sluJobRelease_pends (early : ∀ k, overdue s k = false) (found : releasable s c.val = some a)
    (job : (ctxOf s c.val).job.isSome = true) (free : accessWaits s 55 = false) :
    ∃ t, exec (.sluJobRelease c) s = .next t ∧ (ctxOf t c.val).next = some a ∧ (ctxOf t c.val).job = (ctxOf s c.val).job ∧
      rd t F.SLU_CTX_STATE_PENDING c.val = 1 ∧ t.mem = s.mem ∧ t.eas = s.eas ∧
      ((ctxOf s c.val).next.isSome = true → rd t F.SLU_CTX_EVENT_SKIP c.val = 1) ∧
      ((ctxOf s c.val).next = none → rd t F.SLU_CTX_EVENT_SKIP c.val = rd s F.SLU_CTX_EVENT_SKIP c.val) := by
  have answer := execSluJobRelease_cases (c := c) (a := a) (s := s)
  rw [dropOverdue_idle early, if_neg (by rw [Option.isNone_eq_false_iff.2 job]; decide)] at answer
  have skip := rd_jobPended_skip (parentTaken s c) c a
  have next : (ctxOf (parentTaken s c) c).next = (ctxOf s c).next := by rw [ctxOf_parentTaken]
  rw [next] at skip
  have apart : F.SLU_CTX_EVENT_SKIP.reg.addr c.val 0 ≠ R.SLU_CTX_STATE.addr c.val 0 := Reg.apart_addr (by decide) c.val
  refine ⟨_, answer free found, ?_, ?_, ?_, ?_, ?_, fun waits => ?_, fun none_ => ?_⟩
  · rw [ctxOf_showCtx, ctxOf_jobPended]
  · rw [ctxOf_showCtx, ctxOf_jobPended, ctxOf_parentTaken]
  · rw [rd_showCtx_pending, ctxOf_jobPended]
    rfl
  · rw [showCtx_mem, jobPended_mem]
    rfl
  · rw [showCtx_eas, jobPended_eas]
    rfl
  · rw [rd_showCtx_reg _ _ apart, skip, if_pos waits]
  · rw [rd_showCtx_reg _ _ apart, skip, none_, if_neg (by decide)]
    exact rd_regs (setCtx_regs _ _ _) _ _ _

/-! ### The start of a job (R153, R165, R170) -/

theorem pipeSide_pipe (x : Context) (now : Nat) : (pipeSide x now).pipe = nextPipe x now := by
  unfold pipeSide nextPipe
  split <;> rfl

theorem pipeSide_job (x : Context) (now : Nat) : (pipeSide x now).job = x.job := by
  unfold pipeSide
  split <;> rfl

/-- One output's buffer taken, unless one before it was not there. -/
def outTaken (a : State × Option (List (Nat × Nat))) (o : Nat × CtxOut) : State × Option (List (Nat × Nat)) :=
  match a.2 with
  | none => a
  | some l =>
    let r := takeBuffer a.1 (outFormat o.2) o.2.width o.2.height
    match r.2 with
    | some d => (r.1, some (l ++ [(o.1, d)]))
    | none => (freeOuts r.1 l, none)

theorem takeOuts_eq (s : State) (outs : List (Nat × CtxOut)) : takeOuts s outs = outs.foldl outTaken (s, some []) := rfl

theorem outTaken_cases (t : State) (l : List (Nat × Nat)) (o : Nat × CtxOut) :
    ((matchPool t (outFormat o.2) o.2.width o.2.height).bind (freeIn t) = none ∧
      outTaken (t, some l) o = (freeOuts (raise t K.EAS_EVENT_POOL_EMPTY) l, none)) ∨
    ∃ d, (matchPool t (outFormat o.2) o.2.width o.2.height).bind (freeIn t) = some d ∧
      outTaken (t, some l) o = (setDesc t d { descOf t d with st := .filling, ownerHost := false }, some (l ++ [(o.1, d)])) := by
  rcases takeBuffer_cases t (outFormat o.2) o.2.width o.2.height with ⟨none_, e⟩ | ⟨d, found, e⟩
  · exact .inl ⟨none_, by simp only [outTaken, e]⟩
  · exact .inr ⟨d, found, by simp only [outTaken, e]⟩

theorem takeOuts_slu (s : State) (outs : List (Nat × CtxOut)) : (takeOuts s outs).1.slu = s.slu := by
  rw [takeOuts_eq]
  refine foldl_field (fun a : State × Option (List (Nat × Nat)) => a.1.slu) (f := outTaken) (fun a o => ?_) outs (s, some [])
  obtain ⟨t, _ | l⟩ := a
  · rfl
  · rcases outTaken_cases t l o with ⟨-, e⟩ | ⟨d, -, e⟩ <;> rw [e]
    · exact freeOuts_slu _ _
    · rfl

/-- Taking or giving back a buffer drops no lease. -/
theorem abandonBuffer_leases (s : State) (d e : Nat) : (descOf (abandonBuffer s e) d).leases = (descOf s d).leases := by
  rw [abandonBuffer_eq]
  rcases eq_or_ne d e with rfl | ne
  · rw [descOf_setDesc, abandoned]
    split <;> rfl
  · rw [descOf_setDesc_ne _ _ ne]

theorem freeOuts_leases (s : State) (outs : List (Nat × Nat)) (d : Nat) : (descOf (freeOuts s outs) d).leases = (descOf s d).leases :=
  foldl_field (fun t => (descOf t d).leases) (f := fun t (o : Nat × Nat) => abandonBuffer t o.2) (fun t o => abandonBuffer_leases t d o.2) outs s

theorem takeOuts_leases (s : State) (outs : List (Nat × CtxOut)) (d : Nat) : (descOf (takeOuts s outs).1 d).leases = (descOf s d).leases := by
  rw [takeOuts_eq]
  refine foldl_field (fun a : State × Option (List (Nat × Nat)) => (descOf a.1 d).leases) (f := outTaken) (fun a o => ?_) outs (s, some [])
  obtain ⟨t, _ | l⟩ := a
  · rfl
  · rcases outTaken_cases t l o with ⟨-, e⟩ | ⟨n, -, e⟩ <;> rw [e]
    · exact freeOuts_leases _ _ _
    · rcases eq_or_ne d n with rfl | ne
      · exact (congrArg Desc.leases (descOf_setDesc t d _) :)
      · exact (congrArg Desc.leases (descOf_setDesc_ne t _ ne) :)

theorem abandonBuffer_eas {s t : State} (h : t.eas = s.eas) (d : Nat) : (abandonBuffer t d).eas = (abandonBuffer s d).eas := by
  rw [abandonBuffer_eq, abandonBuffer_eq, descOf_eas h]
  simp only [setDesc, h]

theorem freeOuts_eas {s t : State} (h : t.eas = s.eas) (outs : List (Nat × Nat)) : (freeOuts t outs).eas = (freeOuts s outs).eas := by
  induction outs generalizing s t with
  | nil => exact h
  | cons o outs ih => exact ih (abandonBuffer_eas h o.2)

/-- The buffers that a producer finds are a matter of the Easel alone. -/
theorem freeBuffer_eas {s t : State} (h : t.eas = s.eas) (fmt w b : Nat) :
    (matchPool t fmt w b).bind (freeIn t) = (matchPool s fmt w b).bind (freeIn s) := by
  have free : freeIn t = freeIn s := by
    funext p
    rw [freeIn, h, freeIn]
  rw [free, matchPool, h, matchPool]

theorem outTaken_eas {a b : State × Option (List (Nat × Nat))} (h : b.1.eas = a.1.eas ∧ b.2 = a.2) (o : Nat × CtxOut) :
    (outTaken b o).1.eas = (outTaken a o).1.eas ∧ (outTaken b o).2 = (outTaken a o).2 := by
  obtain ⟨s, l⟩ := a
  obtain ⟨t, k⟩ := b
  obtain ⟨eas, rfl⟩ : t.eas = s.eas ∧ k = l := h
  have descs (d : Nat) := descOf_eas eas d
  cases k with
  | none => exact ⟨eas, rfl⟩
  | some l =>
    have found := freeBuffer_eas eas (outFormat o.2) o.2.width o.2.height
    rcases outTaken_cases s l o with ⟨none_, e⟩ | ⟨d, some_, e⟩
    · rcases outTaken_cases t l o with ⟨-, e'⟩ | ⟨d', some', -⟩
      · rw [e, e']
        refine ⟨?_, rfl⟩
        exact (freeOuts_eas (s := raise s K.EAS_EVENT_POOL_EMPTY) (t := raise t K.EAS_EVENT_POOL_EMPTY) eas l :)
      · rw [found, none_] at some'
        cases some'
    · rcases outTaken_cases t l o with ⟨none', -⟩ | ⟨d', some', e'⟩
      · rw [found, some_] at none'
        cases none'
      · rw [found, some_] at some'
        obtain rfl := Option.some.inj some'
        rw [e, e', descs]
        exact ⟨by simp only [setDesc, eas], rfl⟩

/-- The buffers that a job takes are a matter of the Easel alone. -/
theorem takeOuts_eas {s t : State} (h : t.eas = s.eas) (outs : List (Nat × CtxOut)) : (takeOuts t outs).2 = (takeOuts s outs).2 := by
  rw [takeOuts_eq, takeOuts_eq]
  suffices ∀ a b : State × Option (List (Nat × Nat)), b.1.eas = a.1.eas ∧ b.2 = a.2 → (outs.foldl outTaken b).2 = (outs.foldl outTaken a).2 from
    this (s, some []) (t, some []) ⟨h, rfl⟩
  induction outs with
  | nil => exact fun _ _ same => same.2
  | cons o outs ih => exact fun _ _ same => ih _ _ (outTaken_eas same o)

/-- A context whose pipeline side takes its set. -/
def pipeTaken (s : State) (c : Nat) : State := updCtx s c fun x => pipeSide x (sluCyc s)

/-- The identity under which a job reads its parent. -/
def parentLease (s : State) (d : Nat) : Lease :=
  if (descOf s d).st = .filling then { leaseOf s d with frame := { (leaseOf s d).frame with seq := 0 } } else leaseOf s d

/-- The state in which a job takes its buffers: that of a published parent after its header's read. -/
def parentRead (s : State) (d : Nat) (live : Bool) : State × Bool × List Byte :=
  if live then (s, true, []) else readHeader s 55 (parentLease s d)

theorem parentLease_desc (s : State) (d : Nat) : (parentLease s d).desc = d := by
  unfold parentLease
  split <;> rfl

end

section
variable {s v : State} {c d seq : Nat} {live : Bool} {set : CtxSet} {outs : List (Nat × Nat)}

/-- The start of a job, by what its parent, its header and its pools allow. -/
theorem startJob_eq (pipe : (ctxOf (pipeTaken v c) c).pipe = some set) :
    let u := pipeTaken v c
    let k := parentLease u d
    let h := parentRead u d live
    let o := takeOuts h.1 (enabledOuts set)
    startJob v c d seq live =
      if !parentThere u set d seq live then u
      else if !h.2.1 then parentBad (raise h.1 K.SEAL_EVENT_HEADER_BAD) c k.frame
      else match o.2 with
        | none => raise o.1 K.SLU_CTX_EVENT_NO_BUF c
        | some outs => updCtx (takeLease o.1 d) c fun x =>
            { x with job := some { parent := k, live := live, t0 := sluCyc u, n := stripeCount set k.frame.height, outs := outs, set := set } } := by
  intro u k h o
  unfold startJob
  change (match (ctxOf u c).pipe with | none => _ | some t => _) = _
  simp only [u, pipe]
  rfl

section
variable (pipe : (ctxOf (pipeTaken v c) c).pipe = some set)
include pipe

theorem startJob_gone (away : parentThere (pipeTaken v c) set d seq live = false) : startJob v c d seq live = pipeTaken v c :=
  (startJob_eq pipe).trans (if_pos (by rw [away]; rfl))

variable (there : parentThere (pipeTaken v c) set d seq live = true)
include there

theorem startJob_bad (fails : (parentRead (pipeTaken v c) d live).2.1 = false) : startJob v c d seq live =
    parentBad (raise (parentRead (pipeTaken v c) d live).1 K.SEAL_EVENT_HEADER_BAD) c (parentLease (pipeTaken v c) d).frame :=
  ((startJob_eq pipe).trans (if_neg (by rw [there]; decide))).trans (if_pos (by rw [fails]; rfl))

variable (passes : (parentRead (pipeTaken v c) d live).2.1 = true)
include passes

/-- The state in which a job's buffers have been taken. -/
def outsTaken (u : State) (d : Nat) (live : Bool) (set : CtxSet) : State × Option (List (Nat × Nat)) :=
  takeOuts (parentRead u d live).1 (enabledOuts set)

/-- A job as it starts on its parent. -/
def jobOf (u : State) (d : Nat) (live : Bool) (set : CtxSet) (outs : List (Nat × Nat)) : Job :=
  { parent := parentLease u d, live := live, t0 := sluCyc u, n := stripeCount set (parentLease u d).frame.height, outs := outs, set := set }

theorem startJob_empty (none_ : (outsTaken (pipeTaken v c) d live set).2 = none) :
    startJob v c d seq live = raise (outsTaken (pipeTaken v c) d live set).1 K.SLU_CTX_EVENT_NO_BUF c := by
  have eq := ((startJob_eq pipe).trans (if_neg (by rw [there]; decide))).trans (if_neg (by rw [passes]; decide))
  rw [outsTaken] at none_
  rw [eq, none_]
  rfl

theorem startJob_starts {outs : List (Nat × Nat)} (some_ : (outsTaken (pipeTaken v c) d live set).2 = some outs) :
    startJob v c d seq live = updCtx (takeLease (outsTaken (pipeTaken v c) d live set).1 d) c fun x =>
      { x with job := some (jobOf (pipeTaken v c) d live set outs) } := by
  have eq := ((startJob_eq pipe).trans (if_neg (by rw [there]; decide))).trans (if_neg (by rw [passes]; decide))
  rw [outsTaken] at some_
  rw [eq, some_]
  rfl

end

theorem parentRead_withSlu (x : Sluice) (s : State) (d : Nat) (live : Bool) :
    parentRead (withSlu x s) d live = sluBeside x (parentRead s d live) := by
  have lease : parentLease (withSlu x s) d = parentLease s d := rfl
  cases live
  · exact (congrArg (readHeader (withSlu x s) 55) lease).trans (readHeader_withSlu x s 55 _)
  · rfl

theorem parentRead_eas (s : State) (d : Nat) (live : Bool) : (parentRead s d live).1.eas = s.eas := by
  cases live
  · exact (readHeader_kept s 55 _).eas
  · rfl

theorem parentRead_slu (s : State) (d : Nat) (live : Bool) : (parentRead s d live).1.slu = s.slu := by
  cases live
  · exact readHeader_slu s 55 _
  · rfl

/-- A parent that is there passes its check where it is live, and where its header passes (R153). -/
theorem parentRead_passes (there : parentThere s set d seq live = true) :
    (parentRead s d live).2.1 = true ↔ live = true ∨ (readHeader s 55 (leaseOf s d)).2.1 = true := by
  cases live with
  | true => exact iff_of_true rfl (.inl rfl)
  | false =>
    have current : (descOf s d).st = .current := by
      simp only [parentThere, Bool.false_eq_true, if_false, Bool.and_eq_true, beq_iff_eq] at there
      exact there.1.1
    have lease : parentLease s d = leaseOf s d := if_neg (by rw [current]; decide)
    have read : parentRead s d false = readHeader s 55 (leaseOf s d) := congrArg (readHeader s 55) lease
    rw [read]
    simp only [Bool.false_eq_true, false_or]

theorem parentBad_slu (s : State) (c : Nat) (f : Frame) : (parentBad s c f).slu = s.slu := by
  unfold parentBad checkFailed
  split <;> rfl

theorem parentBad_descs (s : State) (c : Nat) (f : Frame) : (parentBad s c f).eas.descs = s.eas.descs := by
  unfold parentBad checkFailed
  split <;> rfl

theorem rd_parentBad_flag (s : State) (c : Nat) (f : Frame) : rd (parentBad s c f) F.SLU_CTX_EVENT_PARENT_BAD c = 1 :=
  rd_raise_context _ c rfl (by decide) (by decide)

theorem rd_parentBad_reg (s : State) (c : Nat) (f : Frame) {g : Fld} (event : g.reg.addr 0 0 ≠ R.SLU_CTX_EVENT.addr c 0)
    (count : g.reg.addr 0 0 ≠ K.SLU_CTX_EVENT_PARENT_BAD.cnt.reg.addr c 0) : rd (parentBad s c f) g = rd s g := by
  have marked : rd (checkFailed s f) g = rd s g := by
    unfold checkFailed
    split <;> rfl
  exact (rd_raise_reg _ _ _ _ _ _ event count).trans marked

/-- SEAL_EVENT stands above the contexts' registers. -/
theorem headerBad_ne {r : Reg} (h : (r.s1 == 0x400 && !r.remote && decide (r.base < 0xC10400)) = true) {c : Nat} (hc : c < 64) :
    F.SEAL_EVENT_HEADER_BAD.reg.addr 0 0 ≠ r.addr c 0 := by
  simp only [Bool.and_eq_true, decide_eq_true_eq, beq_iff_eq, Bool.not_eq_true'] at h
  obtain ⟨⟨stride, near⟩, below⟩ := h
  have above : 0xC20000 ≤ F.SEAL_EVENT_HEADER_BAD.reg.addr 0 0 := by decide
  simp only [Reg.addr, near, stride] at above ⊢
  simp at above ⊢
  omega

/-! ### What a release starts -/

/-- A context released on a parent, its pipeline side under the set that takes effect. -/
def jobOpened (s : State) (c : Nat) : State := pipeTaken (parentTaken s c) c

theorem jobOpened_withSlu (s : State) (c : Nat) : jobOpened s c = withSlu (jobOpened s c).slu s := rfl

theorem ctxOf_jobOpened (s : State) (c : Nat) : ctxOf (jobOpened s c) c = pipeSide (ctxOf (parentTaken s c) c) (sluCyc s) := by
  rw [jobOpened, pipeTaken, updCtx_eq, ctxOf_setCtx]
  rfl

theorem jobOpened_pipe (next : nextPipe (ctxOf s c) (sluCyc s) = some set) : (ctxOf (jobOpened s c) c).pipe = some set := by
  rw [ctxOf_jobOpened, pipeSide_pipe, ctxOf_parentTaken]
  exact next

theorem jobOpened_job (s : State) (c : Nat) : (ctxOf (jobOpened s c) c).job = (ctxOf s c).job := by
  rw [ctxOf_jobOpened, pipeSide_job, ctxOf_parentTaken]

/-- A release shown. -/
def jobReleased (s : State) (c d seq : Nat) (live : Bool) : State := showCtx (startJob (parentTaken s c) c d seq live) c

theorem jobReleased_mem (s : State) (c d seq : Nat) (live : Bool) : (jobReleased s c d seq live).mem = s.mem :=
  (JobsKept.refl c (parentTaken s c)).startJob.showCtx.mem

theorem jobOpened_read (s : State) (c d : Nat) (live : Bool) : (parentRead (jobOpened s c) d live).2 = (parentRead s d live).2 := by
  rw [jobOpened_withSlu, parentRead_withSlu]
  rfl

theorem jobOpened_takes (s : State) (c d : Nat) (live : Bool) (set : CtxSet) :
    (outsTaken (jobOpened s c) d live set).2 = (takeOuts s (enabledOuts set)).2 :=
  (takeOuts_eas (parentRead_eas (jobOpened s c) d live) _).trans (takeOuts_eas (by rfl) _)

theorem outsTaken_slu (u : State) (d : Nat) (live : Bool) (set : CtxSet) : (outsTaken u d live set).1.slu = u.slu :=
  (takeOuts_slu _ _).trans (parentRead_slu _ _ _)

theorem outsTaken_leases (u : State) (d : Nat) (live : Bool) (set : CtxSet) (e : Nat) :
    (descOf (outsTaken u d live set).1 e).leases = (descOf u e).leases := by
  rw [outsTaken, takeOuts_leases, descOf_eas (parentRead_eas u d live)]

end

section
variable {c : Fin 64} {s : State} {d seq : Nat} {live : Bool} {set : CtxSet}

/-- On a context without a job one is released, unless its parent, its header or its pools bar it. -/
theorem sluJobRelease_starts (early : ∀ k, overdue s k = false) (found : releasable s c.val = some (d, seq, live))
    (job : (ctxOf s c.val).job = none) (next : nextPipe (ctxOf s c.val) (sluCyc s) = some set) (free : accessWaits s 55 = false) :
    (parentThere s set d seq live = false →
      ∃ t, exec (.sluJobRelease c) s = .next t ∧ (ctxOf t c.val).job = none ∧ t.eas = s.eas ∧ t.mem = s.mem) ∧
    (parentThere s set d seq live = true →
    let passes := live = true ∨ (readHeader s 55 (leaseOf s d)).2.1 = true
    (∀ outs, passes → (takeOuts s (enabledOuts set)).2 = some outs →
      ∃ t j, exec (.sluJobRelease c) s = .next t ∧ (ctxOf t c.val).job = some j ∧ j.parent.desc = d ∧ j.live = live ∧ j.k = 0 ∧
        j.outs = outs ∧ j.set = set ∧ j.t0 = sluCyc s ∧ (descOf t d).leases = (descOf s d).leases + 1 ∧
        rd t F.SLU_CTX_STATE_JOB c.val = 1 ∧ t.mem = s.mem) ∧
    (passes → (takeOuts s (enabledOuts set)).2 = none →
      ∃ t, exec (.sluJobRelease c) s = .next t ∧ (ctxOf t c.val).job = none ∧ rd t F.SLU_CTX_EVENT_NO_BUF c.val = 1 ∧ t.mem = s.mem) ∧
    (¬ passes → ∃ t, exec (.sluJobRelease c) s = .next t ∧ (ctxOf t c.val).job = none ∧ rd t F.SLU_CTX_EVENT_PARENT_BAD c.val = 1 ∧
      rd t F.SEAL_EVENT_HEADER_BAD = 1 ∧ t.eas.descs = s.eas.descs ∧ t.mem = s.mem)) := by
  have answer : exec (.sluJobRelease c) s = .next (jobReleased s c d seq live) := by
    have cases_ := execSluJobRelease_cases (c := c) (s := s) (a := (d, seq, live))
    rw [dropOverdue_idle early, if_pos (by rw [job]; rfl)] at cases_
    exact cases_ free found
  have mem := jobReleased_mem s c d seq live
  have shown {f : Fld} (t : State) (h : f.reg.addr c.val 0 ≠ R.SLU_CTX_STATE.addr c.val 0) : rd (showCtx t c) f c = rd t f c := rd_showCtx_reg t c h
  have opened := (jobOpened_job s c.val).trans job
  refine ⟨fun away => ?_, fun there => ?_⟩
  · rw [jobReleased, startJob_gone (jobOpened_pipe next) away] at answer mem
    refine ⟨_, answer, ?_, showCtx_eas _ _, mem⟩
    rw [ctxOf_showCtx]
    exact opened
  · have check := parentRead_passes there
    have read := congrArg Prod.fst (jobOpened_read s c.val d live)
    have takes := jobOpened_takes s c.val d live set
    refine ⟨fun outs passes some_ => ?_, fun passes none_ => ?_, fun fails => ?_⟩
    · rw [jobReleased, startJob_starts (jobOpened_pipe next) there (read.trans (check.2 passes)) (takes.trans some_)] at answer mem
      refine ⟨_, jobOf (jobOpened s c) d live set outs, answer, ?_, parentLease_desc _ d, rfl, rfl, rfl, rfl, rfl, ?_, ?_, mem⟩
      · rw [ctxOf_showCtx, updCtx_eq, ctxOf_setCtx]
        rfl
      · rw [descOf_showCtx]
        refine (congrArg Desc.leases (descOf_setDesc (outsTaken (jobOpened s c) d live set).1 d _) :).trans ?_
        exact congrArg (· + 1) (outsTaken_leases (jobOpened s c) d live set d)
      · rw [rd_showCtx_job, updCtx_eq, ctxOf_setCtx]
        rfl
    · rw [jobReleased, startJob_empty (jobOpened_pipe next) there (read.trans (check.2 passes)) (takes.trans none_)] at answer mem
      refine ⟨_, answer, ?_, ?_, mem⟩
      · rw [ctxOf_showCtx]
        exact (congrArg Context.job (ctxOf_slu (outsTaken_slu (jobOpened s c) d live set) c.val) :).trans opened
      · exact (shown _ (Reg.apart_addr (by decide) c.val)).trans (rd_raise_context _ c.val rfl (by decide) (by decide))
    · have bad : (parentRead s d live).2.1 = false := Bool.eq_false_iff.2 fun good => fails (check.1 good)
      rw [jobReleased, startJob_bad (jobOpened_pipe next) there (read.trans bad)] at answer mem
      refine ⟨_, answer, ?_, ?_, ?_, ?_, mem⟩
      · rw [ctxOf_showCtx]
        refine (congrArg Context.job (ctxOf_slu (parentBad_slu _ _ _) c.val)).trans ?_
        exact (congrArg Context.job (ctxOf_slu (parentRead_slu (jobOpened s c) d live) c.val) :).trans opened
      · exact (shown _ (Reg.apart_addr (by decide) c.val)).trans (rd_parentBad_flag _ _ _)
      · rw [rd_showCtx_reg _ _ (headerBad_ne (by decide) c.isLt),
          rd_parentBad_reg _ _ _ (headerBad_ne (by decide) c.isLt) (headerBad_ne (by decide) c.isLt)]
        exact rd_raise_flag _ _ _ rfl (by decide) (.inl (by decide))
      · rw [showCtx_eas, parentBad_descs]
        exact congrArg Easel.descs (parentRead_eas (jobOpened s c) d live)

end

end Sys2Proof.Machine
end

