-- ==== Sys2Proof/Proofs/SluiceStripes.lean ====
section
/-!
Jobs of the Sluice: the stripes that the two pipelines take (R160, R161, R172), their tiles (R153), and the end of a job (R162, R167).
-/

namespace Sys2Proof.Machine

/-! ### The choice of a stripe (R160, R161) -/

section
variable {s : State} {c p : Nat} {j : Job}

/-- A context compared with the best of those before it. -/
def stripeBetter (s : State) (a : Option Nat) (c : Nat) : Option Nat :=
  if !stripeReady s c then a
  else match a with
    | none => some c
    | some b =>
      match (ctxOf s b).job, (ctxOf s c).job with
      | some i, some j => if deadlineAt j j.k < deadlineAt i i.k then some c else a
      | _, _ => a

theorem nextStripe_eq (s : State) : nextStripe s = (upto 64).foldl (stripeBetter s) none := rfl

theorem stripeBetter_cases (s : State) (a : Option Nat) (c : Nat) :
    stripeBetter s a c = a ∨ (stripeReady s c = true ∧ stripeBetter s a c = some c) := by
  unfold stripeBetter
  cases ready : stripeReady s c with
  | false => exact .inl rfl
  | true =>
    rw [if_neg (by decide)]
    split
    · exact .inr ⟨rfl, rfl⟩
    · split
      · split
        · exact .inr ⟨rfl, rfl⟩
        · exact .inl rfl
      · exact .inl rfl

/-- The stripe that is chosen is ready, of a context there is. -/
theorem nextStripe_ready (h : nextStripe s = some c) : c < 64 ∧ stripeReady s c = true := by
  rw [nextStripe_eq] at h
  suffices ∀ (l : List Nat) (a : Option Nat), (∀ x ∈ l, x < 64) → (∀ b, a = some b → b < 64 ∧ stripeReady s b = true) →
      ∀ b, l.foldl (stripeBetter s) a = some b → b < 64 ∧ stripeReady s b = true from
    this (upto 64) none (fun x hx => List.mem_range.1 hx) nofun c h
  intro l
  induction l with
  | nil => exact fun a _ ha => ha
  | cons x l ih =>
    intro a below ha
    refine ih _ (fun y hy => below y (List.mem_cons_of_mem _ hy)) fun b hb => ?_
    rcases stripeBetter_cases s a x with e | ⟨ready, e⟩
    · exact ha b (e ▸ hb)
    · obtain rfl : x = b := Option.some.inj (e.symm.trans hb)
      exact ⟨below x List.mem_cons_self, ready⟩

theorem stripeReady_job (h : stripeReady s c = true) : ∃ j, (ctxOf s c).job = some j := by
  unfold stripeReady at h
  split at h
  · cases h
  · exact ⟨_, by assumption⟩

/-! ### The start of a stripe (R161, R172) -/

/-- A context's stripe put on a pipeline, and shown. -/
def stripeStarted (s : State) (p c : Nat) : State :=
  showCtx (showPipe (updCtx s c fun x => { x with job := x.job.map fun j => { j with pipe := some p, last := p } }) p c true) c

theorem startStripe_busy (busy : (running s p).isSome = true) : startStripe s p = s := if_pos busy

theorem startStripe_none (next : nextStripe s = none) : startStripe s p = s := by
  unfold startStripe
  rw [next]
  split <;> rfl

theorem startStripe_starts (idle : running s p = none) (next : nextStripe s = some c) : startStripe s p = stripeStarted s p c := by
  unfold startStripe
  rw [next, if_neg (by rw [idle]; decide)]
  rfl

theorem startStripe_cases (s : State) (p : Nat) :
    startStripe s p = s ∨ ∃ c, nextStripe s = some c ∧ startStripe s p = stripeStarted s p c := by
  cases busy : running s p with
  | some b => exact .inl (startStripe_busy (by rw [busy]; rfl))
  | none =>
    cases next : nextStripe s with
    | none => exact .inl (startStripe_none next)
    | some c => exact .inr ⟨c, rfl, startStripe_starts busy next⟩

theorem stripeStarted_slu (s : State) (p c : Nat) :
    (stripeStarted s p c).slu = (updCtx s c fun x => { x with job := x.job.map fun j => { j with pipe := some p, last := p } }).slu :=
  (showCtx_slu _ _).trans (showPipe_slu _ _ _ _)

theorem ctxOf_stripeStarted (s : State) (p c : Nat) : ctxOf (stripeStarted s p c) c =
    { ctxOf s c with job := (ctxOf s c).job.map fun j => { j with pipe := some p, last := p } } := by
  rw [ctxOf_slu (stripeStarted_slu s p c), updCtx_eq, ctxOf_setCtx]

theorem ctxOf_stripeStarted_ne {e : Nat} (ne : e ≠ c) : ctxOf (stripeStarted s p c) e = ctxOf s e := by
  rw [ctxOf_slu (stripeStarted_slu s p c), updCtx_eq, ctxOf_setCtx_ne _ _ ne]

theorem stripeStarted_eq (s : State) (p c : Nat) :
    stripeStarted s p c = { s with regs := (stripeStarted s p c).regs, slu := (stripeStarted s p c).slu } := by
  rw [stripeStarted, showCtx_eq, showPipe_eq]
  rfl

theorem stripeStarted_time (s : State) (p c : Nat) : (stripeStarted s p c).time = s.time := by rw [stripeStarted_eq]

/-- No register of the pipelines is a context's. -/
theorem pipeStatus_ne {f : Fld} (h : f.reg = R.SLU_PIPE_STATUS) (c : Nat) : f.reg.addr 0 0 ≠ R.SLU_CTX_STATE.addr c 0 := by
  have above := R.SLU_CTX_STATE.base_le_addr c 0
  have below : R.SLU_PIPE_STATUS.addr 0 0 < R.SLU_CTX_STATE.base := by decide
  rw [h]
  omega

/-- A stripe that starts moves no deadline. -/
theorem overdue_startStripe (s : State) (p e : Nat) : overdue (startStripe s p) e = overdue s e := by
  rcases startStripe_cases s p with same | ⟨c, -, started⟩
  · rw [same]
  · have now : sluCyc (stripeStarted s p c) = sluCyc s := by rw [sluCyc, stripeStarted_time, sluCyc]
    rw [started, overdue, overdue, now]
    rcases eq_or_ne e c with rfl | ne
    · rw [ctxOf_stripeStarted]
      cases (ctxOf s e).job <;> rfl
    · rw [ctxOf_stripeStarted_ne ne]

/-- A pipeline that has chosen has nothing more to choose. -/
theorem startStripe_again (s : State) (p : Nat) : startStripe (startStripe s p) p = startStripe s p := by
  rcases startStripe_cases s p with same | ⟨c, next, started⟩
  · rw [same, same]
  · obtain ⟨below, ready⟩ := nextStripe_ready next
    obtain ⟨j, job⟩ := stripeReady_job ready
    rw [started]
    refine startStripe_busy ?_
    rw [running, lowest, List.find?_isSome]
    refine ⟨c, List.mem_range.2 below, ?_⟩
    rw [ctxOf_stripeStarted, job]
    simp

variable {q : Fin 2}

theorem execSluStripeStart_eq (q : Fin 2) (s : State) : exec (.sluStripeStart q) s =
    .next (if q.val = 1 then startStripe (startStripe (dropOverdue s) 0) 1 else startStripe (dropOverdue s) 0) := rfl

/-- Where both pipelines are free, pipeline 0 chooses first. -/
theorem sluStripeStart_order {u : State} (early : ∀ k, overdue s k = false) (first : exec (.sluStripeStart 0) s = .next u) :
    exec (.sluStripeStart 1) s = exec (.sluStripeStart 1) u := by
  rw [execSluStripeStart_eq, dropOverdue_idle early] at first
  obtain rfl : startStripe s 0 = u := Host.Outcome.next.inj first
  have late (k) : overdue (startStripe s 0) k = false := (overdue_startStripe s 0 k).trans (early k)
  rw [execSluStripeStart_eq, execSluStripeStart_eq, dropOverdue_idle early, dropOverdue_idle late, startStripe_again]

/-- A free pipeline takes the stripe that is chosen. -/
theorem sluStripeStart_takes (early : ∀ k, overdue s k = false) (idle : running s q.val = none)
    (first : q = 1 → (running s 0).isSome = true) (next : nextStripe s = some c) : exec (.sluStripeStart q) s = .next (stripeStarted s q.val c) := by
  rw [execSluStripeStart_eq, dropOverdue_idle early]
  by_cases one : q = 1
  · subst one
    rw [if_pos (by decide), startStripe_busy (first rfl)]
    exact congrArg _ (startStripe_starts idle next)
  · obtain rfl : q = 0 := by omega
    rw [if_neg (by decide)]
    exact congrArg _ (startStripe_starts idle next)

theorem sluStripeStart_effect (early : ∀ k, overdue s k = false) (idle : running s q.val = none)
    (first : q = 1 → (running s 0).isSome = true) (next : nextStripe s = some c) (job : (ctxOf s c).job = some j) (hc : c < 64) :
    ∃ t, exec (.sluStripeStart q) s = .next t ∧ (ctxOf t c).job = some { j with pipe := some q.val, last := q.val } ∧
      (∀ e, e ≠ c → ctxOf t e = ctxOf s e) ∧ t = { s with regs := t.regs, slu := t.slu } ∧
      (q = 0 → rd t F.SLU_PIPE_STATUS_P0_BUSY = 1 ∧ rd t F.SLU_PIPE_STATUS_P0_CTX = c) ∧
      (q = 1 → rd t F.SLU_PIPE_STATUS_P1_BUSY = 1 ∧ rd t F.SLU_PIPE_STATUS_P1_CTX = c) := by
  refine ⟨_, sluStripeStart_takes early idle first next, ?_, fun e ne => ctxOf_stripeStarted_ne ne, stripeStarted_eq _ _ _, ?_, ?_⟩
  · rw [ctxOf_stripeStarted, job]
    rfl
  all_goals
    rintro rfl
    rw [stripeStarted, rd_showCtx_reg _ _ (pipeStatus_ne rfl c), rd_showCtx_reg _ _ (pipeStatus_ne rfl c)]
  · exact rd_showPipe_zero _ true hc
  · exact rd_showPipe_one _ true hc

end

/-! ### The tiles of a stripe (R58, R60, R153) -/

section
variable {s s₀ : State} {c p : Nat} {j : Job}

theorem tileOk_slu (s : State) (m : Nat) (l : Lease) (t : Nat) : (tileOk s m l t).1.slu = s.slu :=
  (readTile_slu _ m _ t).trans (busRead_slu _ _ _ _)

theorem tileOk_eas (s : State) (m : Nat) (l : Lease) (t : Nat) : (tileOk s m l t).1.eas = s.eas :=
  (readTile_kept _ m _ t).eas.trans (busRead_kept _ _ _ _).eas

protected theorem JobsKept.tileOk {m l t} (h : JobsKept c s₀ s) : JobsKept c s₀ (tileOk s m l t).1 := h.busRead.readTile

protected theorem JobsKept.parentMismatch {t source} (h : JobsKept c s₀ s) : JobsKept c s₀ (parentMismatch s t source) :=
  have recorded (layer canvas) : EventsKept s₀ (tileMismatch s t layer canvas source) := h.toEventsKept.raise0.wr0.wr0.wr0.wr0.wr0.wr0
  { h with toEventsKept := (recorded _ _).set }

theorem parentMismatch_slu (s : State) (t source : Nat) : (parentMismatch s t source).slu = s.slu := rfl
theorem parentMismatch_eas (s : State) (t source : Nat) : (parentMismatch s t source).eas = s.eas := rfl

/-- One tile of a stripe read and checked. -/
def tileChecked (m : Nat) (l : Lease) (a : State × Bool × Map (List Byte)) (t : Nat) : State × Bool × Map (List Byte) :=
  let b := tileOk a.1 m l t
  if b.2.1 then (b.1, a.2.1, a.2.2.put t b.2.2) else (parentMismatch b.1 t l.frame.source, false, a.2.2)

theorem stripeTiles_eq (s : State) (j : Job) (m : Nat) :
    ∃ l ts, stripeTiles s j m = List.foldl (tileChecked m l) (s, true, j.tiles) ts := ⟨_, _, rfl⟩

theorem tileChecked_cases (m : Nat) (l : Lease) (a : State × Bool × Map (List Byte)) (t : Nat) :
    (tileChecked m l a t).1 = (tileOk a.1 m l t).1 ∨ (tileChecked m l a t).1 = parentMismatch (tileOk a.1 m l t).1 t l.frame.source := by
  unfold tileChecked
  dsimp only
  split
  · exact .inl rfl
  · exact .inr rfl

theorem stripeTiles_kept (s : State) (j : Job) (m c : Nat) : JobsKept c s (stripeTiles s j m).1 := by
  obtain ⟨l, ts, e⟩ := stripeTiles_eq s j m
  rw [e]
  refine JobsKept.foldl (p := Prod.fst) (b := (s, true, j.tiles)) (.refl c s) fun {b} t k => ?_
  rcases tileChecked_cases m l b t with e | e <;> rw [e]
  · exact k.tileOk
  · exact k.tileOk.parentMismatch

theorem stripeTiles_slu (s : State) (j : Job) (m : Nat) : (stripeTiles s j m).1.slu = s.slu := by
  obtain ⟨l, ts, e⟩ := stripeTiles_eq s j m
  rw [e]
  refine foldl_field (fun a : State × Bool × Map (List Byte) => a.1.slu) (fun a t => ?_) ts (s, true, j.tiles)
  rcases tileChecked_cases m l a t with e | e <;> rw [e]
  · exact tileOk_slu _ _ _ _
  · exact (parentMismatch_slu _ _ _).trans (tileOk_slu _ _ _ _)

theorem stripeTiles_eas (s : State) (j : Job) (m : Nat) : (stripeTiles s j m).1.eas = s.eas := by
  obtain ⟨l, ts, e⟩ := stripeTiles_eq s j m
  rw [e]
  refine foldl_field (fun a : State × Bool × Map (List Byte) => a.1.eas) (fun a t => ?_) ts (s, true, j.tiles)
  rcases tileChecked_cases m l a t with e | e <;> rw [e]
  · exact tileOk_eas _ _ _ _
  · exact (parentMismatch_eas _ _ _).trans (tileOk_eas _ _ _ _)

end

/-! ### The outputs of a job (R53 to R55, R167) -/

section
variable {s v : State} {c m : Nat} {j : Job}

theorem writeLines_kept (s : State) (m : Nat) (p : Place) (lines : List (Nat × Nat × List Byte)) : PathKept s (writeLines s m p lines) :=
  AccessKept.foldl (p := id) (.refl s) fun _ k => k.busWrite

theorem writeLines_slu (s : State) (m : Nat) (p : Place) (lines : List (Nat × Nat × List Byte)) : (writeLines s m p lines).slu = s.slu :=
  foldl_field State.slu (fun _ _ => busWrite_slu _ _ _ _) _ _

/-- A frame as its lines, its seals and its record are written. -/
def frameWritten (s : State) (m : Nat) (p : Place) (f : Frame) (lines : List (Nat × Nat × List Byte)) : State :=
  writeProvisional ((upto (tileRows f.height)).foldl (fun s r => sealRow s m p domSource f.source 0 r lines) (writeLines s m p lines)) m p f

theorem frameWritten_kept (s : State) (m : Nat) (p : Place) (f : Frame) (lines : List (Nat × Nat × List Byte)) :
    PathKept s (frameWritten s m p f lines) :=
  (AccessKept.foldl (p := id) (writeLines_kept s m p lines) fun _ k => k.trans (sealRow_kept _ _ _ _ _ _ _ _)).trans (writeProvisional_kept _ _ _ _)

theorem frameWritten_slu (s : State) (m : Nat) (p : Place) (f : Frame) (lines : List (Nat × Nat × List Byte)) :
    (frameWritten s m p f lines).slu = s.slu :=
  ((writeProvisional_slu _ _ _ _).trans (foldl_field State.slu (fun _ _ => sealRow_slu _ _ _ _ _ _ _ _) _ _)).trans (writeLines_slu _ _ _ _)

theorem requestPublish_slu (s : State) (d : Nat) : (requestPublish s d).slu = s.slu := rfl
theorem requestPublish_regs (s : State) (d : Nat) : (requestPublish s d).regs = s.regs := rfl
theorem requestPublish_requests (s : State) (d : Nat) : (requestPublish s d).eas.requests = s.eas.requests ++ [d] := rfl
theorem setDesc_requests (s : State) (d : Nat) (x : Desc) : (setDesc s d x).eas.requests = s.eas.requests := rfl
theorem noteAsked_regs (s : State) (d c k : Nat) : (noteAsked s d c k).regs = s.regs := rfl
theorem noteAsked_eas (s : State) (d c k : Nat) : (noteAsked s d c k).eas = s.eas := rfl
theorem noteAsked_ctxs (s : State) (d c k : Nat) : (noteAsked s d c k).slu.ctxs = s.slu.ctxs := rfl

/-- A frame with the CRC of the content that its lines give. -/
def frameOfLines (p : Place) (f : Frame) (lines : List (Nat × Nat × List Byte)) : Frame :=
  { f with content := contentOf ((upto (tileRows f.height)).foldl (fun k r => contentRow k p r lines) 0xFFFFFFFF) }

section
variable (s : State) (m d : Nat) (f : Frame) (lines : List (Nat × Nat × List Byte))

/-- A frame published: its bytes written, its descriptor set. -/
def frameDescribed (s : State) (m d : Nat) (p : Place) (g : Frame) (lines : List (Nat × Nat × List Byte)) : State :=
  updDesc (frameWritten s m p g lines) d fun x => { x with frame := g }

theorem publishLines_eq : publishLines s m d f lines =
    requestPublish (frameDescribed s m d (placeIn s d f) (frameOfLines (placeIn s d f) f lines) lines) d := by
  unfold publishLines frameDescribed frameWritten
  rfl

theorem publishLines_slu : (publishLines s m d f lines).slu = s.slu := by
  rw [publishLines_eq, requestPublish_slu, frameDescribed, updDesc_eq, setDesc_slu, frameWritten_slu]

theorem publishLines_events : EventsKept s (publishLines s m d f lines) := by
  rw [publishLines_eq]
  refine (frameWritten_kept s m (placeIn s d f) (frameOfLines (placeIn s d f) f lines) lines).events.set ?_
  rw [requestPublish_regs, frameDescribed, updDesc_eq, setDesc_regs]

theorem publishLines_requests : (publishLines s m d f lines).eas.requests = s.eas.requests ++ [d] := by
  rw [publishLines_eq, requestPublish_requests, frameDescribed, updDesc_eq, setDesc_requests, (frameWritten_kept _ _ _ _ _).eas]

end

/-- One output of a job that has its lines asks for publication. -/
def outAsked (j : Job) (c m : Nat) (p : Place) (s : State) (e : Nat × Nat) : State :=
  match j.set.outs[e.1]? with
  | some o => noteAsked (publishLines s m e.2 (outFrame s j o) (outLines (tileReader j.tiles p) j.set o p)) e.2 c e.1
  | none => s

/-- The contexts stay as they are. -/
theorem outAsked_ctxs (j : Job) (c m : Nat) (p : Place) (s : State) (e : Nat × Nat) : (outAsked j c m p s e).slu.ctxs = s.slu.ctxs := by
  unfold outAsked
  split
  · rw [noteAsked_ctxs, publishLines_slu]
  · rfl

theorem outAsked_events (j : Job) (c m : Nat) (p : Place) (s : State) (e : Nat × Nat) : EventsKept s (outAsked j c m p s e) := by
  unfold outAsked
  split
  · exact (publishLines_events _ _ _ _ _).set (noteAsked_regs _ _ _ _)
  · exact .refl s

theorem outAsked_requests {p : Place} {e : Nat × Nat} (h : e.1 < j.set.outs.length) :
    (outAsked j c m p s e).eas.requests = s.eas.requests ++ [e.2] := by
  unfold outAsked
  rw [List.getElem?_eq_getElem h]
  dsimp only
  rw [noteAsked_eas, publishLines_requests]

/-- Every output of a job asks for publication, in order. -/
theorem outsAsked_requests {p : Place} {outs : List (Nat × Nat)} (h : ∀ e ∈ outs, e.1 < j.set.outs.length) (s : State) :
    (outs.foldl (outAsked j c m p) s).eas.requests = s.eas.requests ++ outs.map (·.2) := by
  induction outs generalizing s with
  | nil => exact (List.append_nil _).symm
  | cons e outs ih =>
    rw [List.foldl_cons, ih fun x hx => h x (List.mem_cons_of_mem _ hx), outAsked_requests (h e List.mem_cons_self), List.map_cons, List.append_assoc]
    rfl

/-! ### The end of a job (R153, R167) -/

/-- The header that a live job checks at its end. -/
def endRead (s : State) (j : Job) : State × Bool × List Byte :=
  if j.live then readHeader s (55 + j.last) (leaseOf s j.parent.desc) else (s, true, [])

/-- The outputs of a job asked for. -/
def outsAsked (s : State) (c : Nat) (j : Job) : State :=
  j.outs.foldl (outAsked j c (55 + j.last) (placeOf s (leaseOf s j.parent.desc))) s

theorem finishJob_eq (s : State) (c : Nat) (j : Job) : finishJob s c j =
    if !(endRead s j).2.1 then dropJob (parentBad (raise (endRead s j).1 K.SEAL_EVENT_HEADER_BAD) c j.parent.frame) c
    else leaveJob (outsAsked (endRead s j).1 c j) c j := rfl

theorem endRead_kept (s : State) (j : Job) (c : Nat) : JobsKept c s (endRead s j).1 := by
  unfold endRead
  split
  · exact (JobsKept.refl c s).readHeader
  · exact .refl c s

theorem finishJob_events (s : State) (c : Nat) (j : Job) : EventsKept s (finishJob s c j) := by
  have read := endRead_kept s j c
  rw [finishJob_eq]
  refine .ite (JobsKept.parentBad (read.raise read.toEventsKept.raise0)).dropJob.toEventsKept ?_
  exact (read.toEventsKept.trans (EventsKept.foldl (p := id) (.refl _) fun _ k => k.trans (outAsked_events _ _ _ _ _ _))).trans
    (JobsKept.refl c _).leaveJob.toEventsKept

theorem outsAsked_ctxs (s : State) (c : Nat) (j : Job) : (outsAsked s c j).slu.ctxs = s.slu.ctxs :=
  foldl_field (fun t : State => t.slu.ctxs) (outAsked_ctxs _ _ _ _) _ _

/-- A job on a published parent ends with its outputs asked for. -/
theorem finishJob_effect (live : j.live = false) (next : (ctxOf s c).next = none) (outs : ∀ e ∈ j.outs, e.1 < j.set.outs.length) :
    (ctxOf (finishJob s c j) c).job = none ∧ (finishJob s c j).eas.requests = s.eas.requests ++ j.outs.map (·.2) := by
  have read : endRead s j = (s, true, []) := if_neg (by rw [live]; decide)
  have same : ctxOf (outsAsked s c j) c = ctxOf s c := by rw [ctxOf, outsAsked_ctxs, ctxOf]
  have eq : finishJob s c j = showCtx (jobEnded (outsAsked s c j) c j) c := by
    rw [finishJob_eq, read]
    exact leaveJob_of_next j (by rw [same, next])
  rw [eq, ctxOf_showCtx, ctxOf_jobEnded, showCtx_eas, jobEnded_eas]
  exact ⟨rfl, outsAsked_requests outs s⟩

end

/-! ### The end of a stripe (R153, R162, R167) -/

section
variable {s : State} {p : Fin 2} {c : Nat} {j : Job}

/-- A job as its stripe has ended, with the tiles that verified. -/
def jobAdvanced (j : Job) (tiles : Map (List Byte)) : Job := { j with pipe := none, k := j.k + 1, tiles := tiles }

/-- A context's pipeline freed and its job advanced, as shown. -/
def stripeEnded (s : State) (p c : Nat) (j : Job) : State := showCtx (showPipe (updCtx s c fun x => { x with job := some j }) p c false) c

/-- What the end of a stripe does once its tiles have been read. -/
def tilesTaken (r : State × Bool × Map (List Byte)) (p c : Nat) (j : Job) : State :=
  if !r.2.1 then dropJob (parentBad r.1 c j.parent.frame) c
  else if j.n ≤ j.k + 1 ∧ parentOut (stripeEnded r.1 p c (jobAdvanced j r.2.2)) (jobAdvanced j r.2.2) then
    finishJob (stripeEnded r.1 p c (jobAdvanced j r.2.2)) c (jobAdvanced j r.2.2)
  else stripeEnded r.1 p c (jobAdvanced j r.2.2)

theorem execSluStripeEnd_taken (free : accessWaits (dropOverdue s) (55 + p.val) = false) (runs : running (dropOverdue s) p.val = some c)
    (job : (ctxOf (dropOverdue s) c).job = some j) :
    exec (.sluStripeEnd p) s = .next (tilesTaken (stripeTiles (dropOverdue s) j (55 + p.val)) p.val c j) := by
  change execSluStripeEnd p s = _
  simp only [execSluStripeEnd, free, runs, job, Bool.false_eq_true, if_false]
  unfold tilesTaken
  split <;> rfl

theorem stripeEnded_eas (s : State) (p c : Nat) (j : Job) : (stripeEnded s p c j).eas = s.eas := by
  rw [stripeEnded, showCtx_eas, showPipe_eas, updCtx_eq, setCtx_eas]

theorem stripeEnded_mem (s : State) (p c : Nat) (j : Job) : (stripeEnded s p c j).mem = s.mem := by
  rw [stripeEnded, showCtx_mem, showPipe_mem, updCtx_eq, setCtx_mem]

theorem ctxOf_stripeEnded (s : State) (p c : Nat) (j : Job) : ctxOf (stripeEnded s p c j) c = { ctxOf s c with job := some j } := by
  rw [stripeEnded, ctxOf_showCtx, ctxOf_slu (showPipe_slu _ _ _ _), updCtx_eq, ctxOf_setCtx]

theorem stripeEnded_kept (s : State) (p c : Nat) (j : Job) : JobsKept c s (stripeEnded s p c j) := (JobsKept.refl c s).updCtx.showPipe.showCtx

theorem tilesTaken_events (s : State) (m p c : Nat) (j : Job) : EventsKept s (tilesTaken (stripeTiles s j m) p c j) := by
  have read := stripeTiles_kept s j m c
  have ended := read.toEventsKept.trans (stripeEnded_kept (stripeTiles s j m).1 p c (jobAdvanced j (stripeTiles s j m).2.2)).toEventsKept
  exact .ite read.parentBad.dropJob.toEventsKept (.ite (ended.trans (finishJob_events _ _ _)) ended)

/-- A tile that fails drops its job, with PARENT_BAD. -/
theorem tilesTaken_bad {m : Nat} (bad : (stripeTiles s j m).2.1 = false) (job : (ctxOf s c).job = some j) (next : (ctxOf s c).next = none) (p : Nat) :
    let t := tilesTaken (stripeTiles s j m) p c j
    (ctxOf t c).job = none ∧ rd t F.SLU_CTX_EVENT_PARENT_BAD c = 1 ∧ t.eas.requests = s.eas.requests ∧ t.mem = s.mem ∧
      ∀ o ∈ j.outs, (descOf s o.2).st = .filling → (descOf t o.2).st = .free := by
  have eq : tilesTaken (stripeTiles s j m) p c j = dropJob (parentBad (stripeTiles s j m).1 c j.parent.frame) c := if_pos (by rw [bad]; rfl)
  have kept := (stripeTiles_kept s j m c).parentBad (f := j.parent.frame)
  have flag := rd_parentBad_flag (stripeTiles s j m).1 c j.parent.frame
  have slu := (parentBad_slu (stripeTiles s j m).1 c j.parent.frame).trans (stripeTiles_slu s j m)
  have descs : (parentBad (stripeTiles s j m).1 c j.parent.frame).eas.descs = s.eas.descs := by rw [parentBad_descs, stripeTiles_eas]
  rw [eq]
  generalize parentBad (stripeTiles s j m).1 c j.parent.frame = u at kept flag slu descs
  have ctx := ctxOf_slu slu c
  rw [← ctx] at job next
  refine ⟨by rw [ctxOf_dropJob next], ?_, kept.dropJob.requests, kept.dropJob.mem, fun o ho filling => dropJob_outs job next ho ?_⟩
  · have above := addr_ctxEvent c
    have base : R.SLU_PIPE_STATUS.addr 0 0 < 0xC10000 := by decide
    rw [rd_dropJob_reg job next (Reg.apart_addr (by decide) c) (by change R.SLU_CTX_EVENT.addr c 0 ≠ _; omega), flag]
  · rw [descOf, descs]
    exact filling

/-- A stripe that verifies advances its job, where it is not the last or the parent is not published. -/
theorem tilesTaken_advances {m : Nat} (ok : (stripeTiles s j m).2.1 = true)
    (more : j.k + 1 < j.n ∨ (descOf s j.parent.desc).st = .filling) (p : Nat) :
    tilesTaken (stripeTiles s j m) p c j = stripeEnded (stripeTiles s j m).1 p c (jobAdvanced j (stripeTiles s j m).2.2) := by
  refine (if_neg (by rw [ok]; decide)).trans (if_neg ?_)
  rintro ⟨last, out⟩
  rcases more with more | filling
  · omega
  · rw [parentOut, descOf_eas ((stripeEnded_eas _ _ _ _).trans (stripeTiles_eas _ _ _)), jobAdvanced, filling] at out
    cases out

/-- The last stripe on a published parent ends its job. -/
theorem tilesTaken_ends {m : Nat} (ok : (stripeTiles s j m).2.1 = true) (last : j.n = j.k + 1)
    (out : (descOf s j.parent.desc).st ≠ .filling) (p : Nat) : tilesTaken (stripeTiles s j m) p c j =
      finishJob (stripeEnded (stripeTiles s j m).1 p c (jobAdvanced j (stripeTiles s j m).2.2)) c (jobAdvanced j (stripeTiles s j m).2.2) := by
  refine (if_neg (by rw [ok]; decide)).trans (if_pos ⟨by omega, ?_⟩)
  rw [parentOut, descOf_eas ((stripeEnded_eas _ _ _ _).trans (stripeTiles_eas _ _ _)), jobAdvanced]
  exact bne_iff_ne.2 out

theorem rd_stripeEnded_busy (s : State) (p : Fin 2) {c : Nat} (hc : c < 64) (j : Job) :
    (p = 0 → rd (stripeEnded s p.val c j) F.SLU_PIPE_STATUS_P0_BUSY = 0) ∧
      (p = 1 → rd (stripeEnded s p.val c j) F.SLU_PIPE_STATUS_P1_BUSY = 0) := by
  constructor <;> rintro rfl <;> rw [stripeEnded, rd_showCtx_reg _ _ (pipeStatus_ne rfl c)]
  · exact (rd_showPipe_zero _ false hc).1
  · exact (rd_showPipe_one _ false hc).1

theorem sluStripeEnd_effect (early : ∀ k, overdue s k = false) (runs : running s p.val = some c) (job : (ctxOf s c).job = some j) (hc : c < 64)
    (next : (ctxOf s c).next = none) (free : accessWaits s (55 + p.val) = false) :
    let r := stripeTiles s j (55 + p.val)
    let ok := r.2.1 = true
    (ok → j.k + 1 < j.n ∨ (descOf s j.parent.desc).st = .filling →
      ∃ t, exec (.sluStripeEnd p) s = .next t ∧ (ctxOf t c).job = some { j with pipe := none, k := j.k + 1, tiles := r.2.2 } ∧
      (p = 0 → rd t F.SLU_PIPE_STATUS_P0_BUSY = 0) ∧ (p = 1 → rd t F.SLU_PIPE_STATUS_P1_BUSY = 0) ∧ t.eas = s.eas ∧ t.mem = s.mem) ∧
    (ok → j.n = j.k + 1 → j.live = false → (descOf s j.parent.desc).st ≠ .filling → (∀ e ∈ j.outs, e.1 < j.set.outs.length) →
      ∃ t, exec (.sluStripeEnd p) s = .next t ∧ (ctxOf t c).job = none ∧ t.eas.requests = s.eas.requests ++ j.outs.map (·.2)) ∧
    (¬ ok → ∃ t, exec (.sluStripeEnd p) s = .next t ∧ (ctxOf t c).job = none ∧ rd t F.SLU_CTX_EVENT_PARENT_BAD c = 1 ∧
      t.eas.requests = s.eas.requests ∧ t.mem = s.mem ∧
      ∀ o ∈ j.outs, (descOf s o.2).st = .filling → (descOf t o.2).st = .free) := by
  intro r ok
  have taken := execSluStripeEnd_taken (s := s) (p := p) (c := c) (j := j)
  rw [dropOverdue_idle early] at taken
  have answer := taken free runs job
  refine ⟨fun verified more => ?_, fun verified last live out outs => ?_, fun fails => ?_⟩
  · rw [tilesTaken_advances verified more] at answer
    obtain ⟨zero, one⟩ := rd_stripeEnded_busy r.1 p hc (jobAdvanced j r.2.2)
    refine ⟨_, answer, ?_, zero, one, (stripeEnded_eas _ _ _ _).trans (stripeTiles_eas _ _ _), ?_⟩
    · rw [ctxOf_stripeEnded]
      rfl
    · rw [stripeEnded_mem, (stripeTiles_kept s j (55 + p.val) c).mem]
  · rw [tilesTaken_ends verified last out] at answer
    have waits : (ctxOf (stripeEnded r.1 p.val c (jobAdvanced j r.2.2)) c).next = none := by
      rw [ctxOf_stripeEnded, ctxOf_slu (stripeTiles_slu s j (55 + p.val))]
      exact next
    obtain ⟨ended, asked⟩ := finishJob_effect (j := jobAdvanced j r.2.2) live waits outs
    refine ⟨_, answer, ended, asked.trans ?_⟩
    rw [stripeEnded_eas, stripeTiles_eas]
    rfl
  · exact ⟨_, answer, tilesTaken_bad (Bool.eq_false_iff.2 fails) job next p.val⟩

end

/-! ### A passed deadline at any other command (R165) -/

section
variable {s : State}

theorem sluJobRelease_events (c : Fin 64) (s : State) : ∃ t, exec (.sluJobRelease c) s = .next t ∧ EventsKept (dropOverdue s) t := by
  cases waits : accessWaits (dropOverdue s) 55 with
  | true => exact ⟨_, if_pos waits, .refl _⟩
  | false =>
    cases found : releasable (dropOverdue s) c.val with
    | none =>
      refine ⟨dropOverdue s, ?_, .refl _⟩
      change execSluJobRelease c s = _
      simp only [execSluJobRelease, found, ite_self]
    | some a =>
      have taken : EventsKept (dropOverdue s) (parentTaken (dropOverdue s) c) := (EventsKept.refl _).set
      have pended : EventsKept (dropOverdue s) (jobPended (parentTaken (dropOverdue s) c) c a) := 
        (EventsKept.ite (taken.raiseEvent (k := K.SLU_CTX_EVENT_SKIP)) taken).set
      have started := taken.trans
        ((JobsKept.refl c.val (parentTaken (dropOverdue s) c)).startJob (d := a.1) (seq := a.2.1) (live := a.2.2)).toEventsKept
      exact ⟨_, execSluJobRelease_cases waits found, (EventsKept.ite started pended).showCtx⟩

theorem startStripe_events (s : State) (p : Nat) : EventsKept s (startStripe s p) := by
  rcases startStripe_cases s p with e | ⟨c, -, e⟩ <;> rw [e]
  · exact .refl s
  · exact ((EventsKept.refl s).set (t := updCtx s c _)).showPipe.showCtx

theorem sluStripeStart_events (p : Fin 2) (s : State) : ∃ t, exec (.sluStripeStart p) s = .next t ∧ EventsKept (dropOverdue s) t :=
  ⟨_, execSluStripeStart_eq p s, .ite ((startStripe_events _ 0).trans (startStripe_events _ 1)) (startStripe_events _ 0)⟩

theorem sluStripeEnd_events (p : Fin 2) (s : State) : ∃ t, exec (.sluStripeEnd p) s = .next t ∧ EventsKept (dropOverdue s) t := by
  cases waits : accessWaits (dropOverdue s) (55 + p.val) with
  | true => exact ⟨_, if_pos waits, .refl _⟩
  | false =>
    cases runs : running (dropOverdue s) p.val with
    | none =>
      refine ⟨dropOverdue s, ?_, .refl _⟩
      change execSluStripeEnd p s = _
      simp only [execSluStripeEnd, runs, ite_self]
    | some c =>
      cases job : (ctxOf (dropOverdue s) c).job with
      | none =>
        refine ⟨dropOverdue s, ?_, .refl _⟩
        change execSluStripeEnd p s = _
        simp only [execSluStripeEnd, runs, job, ite_self]
      | some j => exact ⟨_, execSluStripeEnd_taken waits runs job, tilesTaken_events _ _ _ _ _⟩

/-- What keeps the events after the drop of the jobs whose deadline has passed shows MISS for each. -/
theorem miss_shown {c : Fin 64} {j : Job} {o : Host.Outcome State Fault Refusal} (after : ∃ t, o = .next t ∧ EventsKept (dropOverdue s) t)
    (job : (ctxOf s c.val).job = some j) (below : j.k < j.n) (passed : deadlineAt j j.k < sluCyc s) :
    ∃ t, o = .next t ∧ rd t F.SLU_CTX_EVENT_MISS c.val = 1 := by
  obtain ⟨t, answer, kept⟩ := after
  exact ⟨t, answer, (kept.rd_eq (besideJobs_event rfl c.isLt)).trans (dropOverdue_misses c.isLt job below passed)⟩

end

/-- Settles O27: a release by what its context, its parent and its pools allow; a stripe's start by the choice among those ready; its end by
its tiles and its place in the job; and MISS by what no command does to the flags. -/
theorem sluiceJobsAndStripes : Obligations.SluiceJobsAndStripes := by
  unfold Obligations.SluiceJobsAndStripes
  refine ⟨fun c s => execSluJobRelease_none, fun c s d seq live => sluJobRelease_pends, fun c s d seq live set => sluJobRelease_starts,
    fun s u early _ => sluStripeStart_order early, fun p s c j => sluStripeStart_effect,
    fun p s c j early runs job hc next free => sluStripeEnd_effect early runs job hc next free, fun c s j job => ⟨?early, ?passed, ?dropped⟩⟩
  case early => exact execSluJobDrop_early job
  case passed =>
    intro p below passed
    exact ⟨miss_shown (sluJobRelease_events c s) job below passed, miss_shown (sluStripeStart_events p s) job below passed,
      miss_shown (sluStripeEnd_events p s) job below passed⟩
  case dropped => exact sluJobDrop_effect job

end Sys2Proof.Machine
end

