-- ==== Sys2Proof/Proofs/SluiceApply.lean ====
section
/-!
APPLY: the staged set that is sampled (R169), what an APPLY reports (R171, R172), and what an accepted set does to its context and its sources
(R170, R173, R242).
-/

namespace Sys2Proof.Machine

/-! ### SLU_APPLY_STATUS (R171, R172) -/

section
variable {s t : State} {c : Nat} {f : Fld}

/-- What a refused APPLY shows, before REFUSED is raised. -/
def refusalShown (s : State) (c : Nat) (r : Nat × Nat × Nat) : State :=
  let u := wr0 (wr0 s F.SLU_APPLY_STATUS_CODE r.1) F.SLU_APPLY_STATUS_CONTEXT c
  if r.1 = 1 then wr0 (wr0 u F.SLU_APPLY_STATUS_REG r.2.1) F.SLU_APPLY_STATUS_BIT r.2.2 else u

theorem applyRefuse_eq (s : State) (c : Nat) (r : Nat × Nat × Nat) :
    applyRefuse s c r = raise (refusalShown s c r) K.SLU_APPLY_STATUS_REFUSED := rfl

/-- Only a range names a register and a bit. -/
theorem refusalShown_plain {r : Nat × Nat × Nat} (h : r.1 ≠ 1) :
    refusalShown s c r = wr0 (wr0 s F.SLU_APPLY_STATUS_CODE r.1) F.SLU_APPLY_STATUS_CONTEXT c := if_neg h

theorem refusalShown_range {r : Nat × Nat × Nat} (h : r.1 = 1) : refusalShown s c r =
    wr0 (wr0 (wr0 (wr0 s F.SLU_APPLY_STATUS_CODE r.1) F.SLU_APPLY_STATUS_CONTEXT c) F.SLU_APPLY_STATUS_REG r.2.1) F.SLU_APPLY_STATUS_BIT r.2.2 :=
  if_pos h

theorem refusalShown_eq (s : State) (c : Nat) (r : Nat × Nat × Nat) : refusalShown s c r = { s with regs := (refusalShown s c r).regs } := by
  by_cases h : r.1 = 1
  · rw [refusalShown_range h]; rfl
  · rw [refusalShown_plain h]; rfl

/-- A field of the status that no refusal writes. -/
theorem rd_refusalShown {r : Nat × Nat × Nat}
    (h : [F.SLU_APPLY_STATUS_CODE, F.SLU_APPLY_STATUS_CONTEXT, F.SLU_APPLY_STATUS_REG, F.SLU_APPLY_STATUS_BIT].all f.apart = true) :
    rd (refusalShown s c r) f = rd s f := by
  simp only [List.all_cons, List.all_nil, Bool.and_true, Bool.and_eq_true] at h
  obtain ⟨code, context, reg, bit⟩ := h
  by_cases range : r.1 = 1
  · rw [refusalShown_range range, rd_wr0_apart _ _ bit, rd_wr0_apart _ _ reg, rd_wr0_apart _ _ context, rd_wr0_apart _ _ code]
  · rw [refusalShown_plain range, rd_wr0_apart _ _ context, rd_wr0_apart _ _ code]

/-- CODE and CONTEXT. -/
theorem refusalShown_code {r : Nat × Nat × Nat} (hr : r.1 < 16) (hc : c < 64) :
    rd (refusalShown s c r) F.SLU_APPLY_STATUS_CODE = r.1 ∧ rd (refusalShown s c r) F.SLU_APPLY_STATUS_CONTEXT = c := by
  have code : rd (wr0 (wr0 s F.SLU_APPLY_STATUS_CODE r.1) F.SLU_APPLY_STATUS_CONTEXT c) F.SLU_APPLY_STATUS_CODE = r.1 :=
    (rd_wr0_apart _ _ (by decide)).trans (rd_wr0_same _ _ hr)
  have context : rd (wr0 (wr0 s F.SLU_APPLY_STATUS_CODE r.1) F.SLU_APPLY_STATUS_CONTEXT c) F.SLU_APPLY_STATUS_CONTEXT = c := rd_wr0_same _ _ hc
  by_cases range : r.1 = 1
  · rw [refusalShown_range range]
    exact ⟨((rd_wr0_apart _ _ (by decide)).trans (rd_wr0_apart _ _ (by decide))).trans code,
      ((rd_wr0_apart _ _ (by decide)).trans (rd_wr0_apart _ _ (by decide))).trans context⟩
  · rw [refusalShown_plain range]
    exact ⟨code, context⟩

/-- REG and BIT, where a range is broken. -/
theorem refusalShown_reg {r : Nat × Nat × Nat} (range : r.1 = 1) (hreg : r.2.1 < 256) (hbit : r.2.2 < 32) :
    rd (refusalShown s c r) F.SLU_APPLY_STATUS_REG = r.2.1 ∧ rd (refusalShown s c r) F.SLU_APPLY_STATUS_BIT = r.2.2 := by
  rw [refusalShown_range range]
  exact ⟨(rd_wr0_apart _ _ (by decide)).trans (rd_wr0_same _ _ hreg), rd_wr0_same _ _ hbit⟩

/-- A refused APPLY raises REFUSED and shows why. -/
theorem applyRefuse_effect (s : State) {c : Nat} {r : Nat × Nat × Nat} (hr : r.1 < 16) (hc : c < 64) : let t := applyRefuse s c r
    rd t F.SLU_APPLY_STATUS_REFUSED = 1 ∧ rd t F.SLU_APPLY_STATUS_CODE = r.1 ∧ rd t F.SLU_APPLY_STATUS_CONTEXT = c ∧
      rd t F.SLU_APPLY_STATUS_BUSY = rd s F.SLU_APPLY_STATUS_BUSY ∧ t.slu = s.slu ∧ t.eas = s.eas ∧ t.mem = s.mem ∧
      (r.1 = 1 → r.2.1 < 256 → r.2.2 < 32 → rd t F.SLU_APPLY_STATUS_REG = r.2.1 ∧ rd t F.SLU_APPLY_STATUS_BIT = r.2.2) := by
  rw [applyRefuse_eq]
  have shown := refusalShown_eq s c r
  have busy : rd (refusalShown s c r) F.SLU_APPLY_STATUS_BUSY = rd s F.SLU_APPLY_STATUS_BUSY := rd_refusalShown (by decide)
  obtain ⟨code, context⟩ := refusalShown_code (s := s) hr hc
  have named (range) (hreg) (hbit) := refusalShown_reg (s := s) (c := c) (r := r) range hreg hbit
  generalize refusalShown s c r = u at shown busy code context named
  have slu : u.slu = s.slu := by rw [shown]
  have eas : u.eas = s.eas := by rw [shown]
  have mem : u.mem = s.mem := by rw [shown]
  have beside {f : Fld} (hf : f.apart F.SLU_APPLY_STATUS_REFUSED = true) (hcnt : f.apart K.SLU_APPLY_STATUS_REFUSED.cnt = true) :
      rd (raise u K.SLU_APPLY_STATUS_REFUSED) f = rd u f := rd_raise_apart u hf hcnt
  refine ⟨rd_raise_flag u _ 0 rfl (by decide) (.inr (by decide)), ?_, ?_, ?_, slu, eas, mem, fun range hreg hbit => ⟨?_, ?_⟩⟩
  · rw [beside (by decide) (by decide), code]
  · rw [beside (by decide) (by decide), context]
  · rw [beside (by decide) (by decide), busy]
  · rw [beside (by decide) (by decide), (named range hreg hbit).1]
  · rw [beside (by decide) (by decide), (named range hreg hbit).2]

/-! ### The write of APPLY (R169) -/

/-- The staged set is what the context's own registers hold. -/
theorem stagedSet_congr (h : ∀ (r : Reg) (i j : Nat), 0xC10000 ≤ r.base → rdReg t r i j = rdReg s r i j) (c : Nat) :
    stagedSet t c = stagedSet s c := by
  simp (disch := decide) only [stagedSet, rdb, rd, h]

/-- APPLY in flight, as shown. -/
def applyShown (s : State) (c : Nat) : State := wr0 (wr0 s F.SLU_APPLY_STATUS_BUSY 1) F.SLU_APPLY_STATUS_CONTEXT c

theorem applyShown_staged (s : State) (c e : Nat) : stagedSet (applyShown s c) e = stagedSet s e := by
  refine stagedSet_congr (fun r i j above => ?_) e
  have base := r.base_le_addr i j
  have status : F.SLU_APPLY_STATUS_BUSY.reg.addr 0 0 < 0xC10000 := by decide
  have ne : r.addr i j ≠ F.SLU_APPLY_STATUS_BUSY.reg.addr 0 0 := by omega
  exact (rdReg_wr_reg _ F.SLU_APPLY_STATUS_CONTEXT _ _ _ _ _ _ ne).trans (rdReg_wr_reg _ F.SLU_APPLY_STATUS_BUSY _ _ _ _ _ _ ne)

theorem applyShown_regs (s : State) (c : Nat) : sameRegsBut s (applyShown s c) [R.SLU_APPLY_STATUS.base] := by
  intro a ha
  have ne : a ≠ F.SLU_APPLY_STATUS_BUSY.reg.addr 0 0 := fun e => ha (List.mem_singleton.2 e)
  rw [applyShown, wr0_eq, wr_eq, wr0_eq, wr_eq]
  exact (Map.find_put_ne _ _ ne).trans (Map.find_put_ne _ _ ne)

theorem sluApply_effect {c : Fin 64} : (rd s F.SLU_APPLY_STATUS_BUSY = 0 → ∃ t, exec (.sluApply c) s = .next t ∧
      rd t F.SLU_APPLY_STATUS_BUSY = 1 ∧ rd t F.SLU_APPLY_STATUS_CONTEXT = c.val ∧
      t.slu = { s.slu with apply := some (c.val, stagedSet s c.val) } ∧
      t = { s with regs := t.regs, slu := t.slu } ∧ sameRegsBut s t [R.SLU_APPLY_STATUS.base]) ∧
    (rd s F.SLU_APPLY_STATUS_BUSY = 1 → ∃ t, exec (.sluApply c) s = .next t ∧ rd t F.SLU_APPLY_STATUS_REFUSED = 1 ∧
      rd t F.SLU_APPLY_STATUS_CODE = 8 ∧ rd t F.SLU_APPLY_STATUS_CONTEXT = c.val ∧ t.slu = s.slu ∧ t.eas = s.eas ∧ t.mem = s.mem) := by
  refine ⟨fun idle => ?_, fun busy => ?_⟩
  · have answer : exec (.sluApply c) s =
        .next { applyShown s c with slu := { s.slu with apply := some (c.val, stagedSet (applyShown s c) c) } } :=
      congrArg Host.Outcome.next (if_neg (by rw [rdb, idle]; decide))
    rw [applyShown_staged] at answer
    refine ⟨_, answer, ?_, ?_, rfl, rfl, applyShown_regs s c⟩
    · exact (rd_wr0_apart _ (g := F.SLU_APPLY_STATUS_CONTEXT) _ (by decide)).trans (rd_wr0_same _ _ (by decide))
    · exact rd_wr0_same _ F.SLU_APPLY_STATUS_CONTEXT c.isLt
  · obtain ⟨refused, code, context, -, slu, eas, mem, -⟩ := applyRefuse_effect s (c := c.val) (r := (8, 0, 0)) (by decide) c.isLt
    exact ⟨_, congrArg Host.Outcome.next (if_pos (by rw [rdb, busy]; rfl)), refused, code, context, slu, eas, mem⟩

end

/-! ### Why a set is refused (R139, R157, R171) -/

section
variable {s t : State} {c : Nat} {set : CtxSet}

theorem parentLoops_congr (h : t.slu.ctxs = s.slu.ctxs) (c : Nat) (own : List Nat) (fuel p : Nat) :
    parentLoops t c own fuel p = parentLoops s c own fuel p := by
  induction fuel generalizing p with
  | zero => rfl
  | succ fuel ih => simp only [parentLoops, h, ih]

/-- Of the state a refusal is a matter of the contexts, the flows, the Easel and its window, and the uses of the quads. -/
theorem setRefusal_congr (ctxs : t.slu.ctxs = s.slu.ctxs) (net : t.net = s.net) (eas : t.eas = s.eas)
    (base : rd t F.EAS_SRC_WINDOW_BASE = rd s F.EAS_SRC_WINDOW_BASE) (count : rd t F.EAS_SRC_WINDOW_COUNT = rd s F.EAS_SRC_WINDOW_COUNT)
    (use : quadUse t = quadUse s) (c : Nat) (set : CtxSet) : setRefusal t c set = setRefusal s c set := by
  have src := srcOf_eas eas
  have ctx : ctxOf t c = ctxOf s c := by rw [ctxOf, ctxs, ctxOf]
  have size : inputSize t c set = inputSize s c set := by simp only [inputSize, net, src, descOf_eas eas]
  have window (i) : inWindow t i = inWindow s i := by simp only [inWindow, base, count]
  have dup (i) : dupSource t i = dupSource s i := by simp only [dupSource, window, src]
  have owned (i) : ownedBy t c i = ownedBy s c i := by simp only [ownedBy, src]
  have active : activeSources t = activeSources s := by rw [activeSources, eas, activeSources]
  have free : (fun i => (srcOf t i).st == SrcState.free) = fun i => (srcOf s i).st == SrcState.free := by simp only [src]
  have limit (ids) : overLimit t ids = overLimit s ids := by rw [overLimit, active, free, overLimit]
  have carry : carryFree t = carryFree s := by simp only [carryFree, ctxs]
  have loops (own fuel p) := parentLoops_congr ctxs c own fuel p
  simp only [setRefusal, size, ctx, use, ctxs, dup, owned, limit, carry, loops]

theorem forall_mem_ite {α : Type} {p : Prop} {_ : Decidable p} {q : α → Prop} {a b : Option α} (ha : ∀ x ∈ a, q x) (hb : ∀ x ∈ b, q x) :
    ∀ x ∈ (if p then a else b), q x := by
  split
  · exact ha
  · exact hb

/-- Codes are 1 to 7. -/
theorem setRefusal_code {r : Nat × Nat × Nat} (h : setRefusal s c set = some r) : r.1 < 16 := by
  have code {r : Nat × Nat × Nat} (h : r.1 < 16) : ∀ x ∈ some r, x.1 < 16 := by
    rintro x ⟨⟩
    exact h
  suffices ∀ x ∈ setRefusal s c set, x.1 < 16 from this r h
  unfold setRefusal
  split
  · exact code (by change 1 < 16; decide)
  · dsimp only
    exact forall_mem_ite (code (by decide)) <| forall_mem_ite nofun <| forall_mem_ite (code (by decide)) <| forall_mem_ite (code (by decide)) <|
      forall_mem_ite (code (by decide)) <| forall_mem_ite (code (by decide)) <| forall_mem_ite (code (by decide)) nofun

/-- APPLY at its end, no longer BUSY. -/
def applyEnded (s : State) : State := wr0 { s with slu := { s.slu with apply := none } } F.SLU_APPLY_STATUS_BUSY 0

theorem rd_applyEnded_reg {f : Fld} {i : Nat} (h : f.reg.addr i 0 ≠ R.SLU_APPLY_STATUS.addr 0 0) : rd (applyEnded s) f i = rd s f i := by
  refine (rd_wr_reg _ F.SLU_APPLY_STATUS_BUSY _ _ _ _ _ _ h).trans ?_
  rfl

theorem applyEnded_refusal (s : State) (c : Nat) (set : CtxSet) : setRefusal (applyEnded s) c set = setRefusal s c set := by
  have base : rd (applyEnded s) F.EAS_SRC_WINDOW_BASE = rd s F.EAS_SRC_WINDOW_BASE := rd_applyEnded_reg (by decide)
  have count : rd (applyEnded s) F.EAS_SRC_WINDOW_COUNT = rd s F.EAS_SRC_WINDOW_COUNT := rd_applyEnded_reg (by decide)
  refine setRefusal_congr (t := applyEnded s) (s := s) rfl rfl rfl base count ?_ c set
  funext q
  have locked : rdb (applyEnded s) F.LANE_QUAD_COMMIT_LOCKED = rdb s F.LANE_QUAD_COMMIT_LOCKED := by
    rw [rdb, rd_applyEnded_reg (by decide), rdb]
  have use : rdReg (applyEnded s) R.LANE_QUAD_USE = rdReg s R.LANE_QUAD_USE :=
    rdReg_wr_reg _ F.SLU_APPLY_STATUS_BUSY _ _ _ _ _ _ (by decide)
  rw [quadUse, locked, use, quadUse]

/-! ### The end of an APPLY (R169 to R171) -/

/-- The state in which an accepted set takes effect: its sources bound, DONE raised. -/
def setBound (s : State) (c : Nat) (set : CtxSet) : State := raise (bindSet (applyEnded s) c set) K.SLU_APPLY_STATUS_DONE

theorem execSluApplyDone_refused {r : Nat × Nat × Nat} (apply : s.slu.apply = some (c, set)) (refusal : setRefusal s c set = some r) :
    exec .sluApplyDone s = .next (applyRefuse (applyEnded s) c r) := by
  change execSluApplyDone s = _
  simp only [execSluApplyDone, apply]
  change (match setRefusal (applyEnded s) c set with | some r => _ | none => _) = _
  rw [applyEnded_refusal, refusal]
  rfl

theorem execSluApplyDone_accepted (apply : s.slu.apply = some (c, set)) (refusal : setRefusal s c set = none) :
    exec .sluApplyDone s = .next (if set.en then ctxAccept (setBound s c set) c set else ctxStop (setBound s c set) c) := by
  change execSluApplyDone s = _
  simp only [execSluApplyDone, apply]
  change (match setRefusal (applyEnded s) c set with | some r => _ | none => _) = _
  rw [applyEnded_refusal, refusal]
  rfl

theorem rd_applyEnded_busy (s : State) : rd (applyEnded s) F.SLU_APPLY_STATUS_BUSY = 0 := rd_wr0_same _ _ (by decide)

theorem sluApplyDone_refused {r : Nat × Nat × Nat} (apply : s.slu.apply = some (c, set)) (hc : c < 64) (refusal : setRefusal s c set = some r) :
    ∃ t, exec .sluApplyDone s = .next t ∧ rd t F.SLU_APPLY_STATUS_BUSY = 0 ∧ rd t F.SLU_APPLY_STATUS_REFUSED = 1 ∧
      rd t F.SLU_APPLY_STATUS_CODE = r.1 ∧ rd t F.SLU_APPLY_STATUS_CONTEXT = c ∧ t.slu = { s.slu with apply := none } ∧
      t.eas = s.eas ∧ t.mem = s.mem ∧
      (r.1 = 1 → r.2.1 < 256 → r.2.2 < 32 → rd t F.SLU_APPLY_STATUS_REG = r.2.1 ∧ rd t F.SLU_APPLY_STATUS_BIT = r.2.2) := by
  obtain ⟨refused, code, context, busy, slu, eas, mem, named⟩ := applyRefuse_effect (applyEnded s) (setRefusal_code refusal) hc
  exact ⟨_, execSluApplyDone_refused apply refusal, busy.trans (rd_applyEnded_busy s), refused, code, context, slu, eas, mem, named⟩

/-- Binding a set's sources changes nothing but sources. -/
theorem bindSet_eq (s : State) (c : Nat) (set : CtxSet) :
    bindSet s c set = { s with eas := { s.eas with sources := (bindSet s c set).eas.sources } } := by
  have orphaned (gone) := each_keeps (fun t => t = { s with eas := { s.eas with sources := t.eas.sources } }) orphanSource gone
    (fun t o _ ht => by rw [ht]; rfl) s rfl
  exact each_keeps (fun t => t = { s with eas := { s.eas with sources := t.eas.sources } }) (fun s (x : Nat × Owner) => bindSource s x.1 x.2)
    (setSources c set) (fun t x _ ht => by rw [ht]; rfl) _ (orphaned _)

theorem bindSource_bound (s : State) (i : Nat) (o : Owner) : (srcOf (bindSource s i o) i).st = .bound := by
  rw [bindSource, updSrc_eq, srcOf_setSrc]

theorem bindSource_keeps {i : Nat} (h : (srcOf s i).st = .bound) (x : Nat × Owner) : (srcOf (bindSource s x.1 x.2) i).st = .bound := by
  rw [bindSource, updSrc_eq]
  rcases eq_or_ne i x.1 with rfl | ne
  · rw [srcOf_setSrc]
  · rwa [srcOf_setSrc_ne _ _ ne]

/-- Every source that a set produces is bound. -/
theorem bindSet_bound {x : Nat × Owner} (hx : x ∈ setSources c set) : (srcOf (bindSet s c set) x.1).st = .bound := by
  rw [bindSet]
  obtain ⟨before, after, e⟩ := List.append_of_mem hx
  rw [e, each, List.foldl_append, List.foldl_cons]
  exact each_keeps (fun t => (srcOf t x.1).st = .bound) (fun s (x : Nat × Owner) => bindSource s x.1 x.2) after
    (fun _ y _ ht => bindSource_keeps ht y) _ (bindSource_bound _ _ _)

theorem setBound_slu (s : State) (c : Nat) (set : CtxSet) : (setBound s c set).slu = { s.slu with apply := none } := by
  change (bindSet (applyEnded s) c set).slu = _
  rw [bindSet_eq]
  rfl

theorem setBound_mem (s : State) (c : Nat) (set : CtxSet) : (setBound s c set).mem = s.mem := by
  change (bindSet (applyEnded s) c set).mem = _
  rw [bindSet_eq]
  rfl

theorem setBound_time (s : State) (c : Nat) (set : CtxSet) : (setBound s c set).time = s.time := by
  change (bindSet (applyEnded s) c set).time = _
  rw [bindSet_eq]
  rfl

theorem setBound_bound {x : Nat × Owner} (hx : x ∈ setSources c set) : (srcOf (setBound s c set) x.1).st = .bound := bindSet_bound hx

theorem ctxOf_setBound (s : State) (c : Nat) (set : CtxSet) (e : Nat) : ctxOf (setBound s c set) e = ctxOf s e := by
  rw [ctxOf, setBound_slu, ctxOf]

theorem rd_setBound_busy (s : State) (c : Nat) (set : CtxSet) : rd (setBound s c set) F.SLU_APPLY_STATUS_BUSY = 0 := by
  rw [setBound, rd_raise_apart _ (by decide) (by decide), bindSet_eq]
  exact rd_applyEnded_busy s

theorem rd_setBound_done (s : State) (c : Nat) (set : CtxSet) : rd (setBound s c set) F.SLU_APPLY_STATUS_DONE = 1 :=
  rd_raise_flag _ _ _ rfl (by decide) (.inr (by decide))

/-- SLU_APPLY_STATUS stands below the contexts' registers. -/
theorem applyStatus_ne {f : Fld} (h : f.reg = R.SLU_APPLY_STATUS) (c : Nat) : f.reg.addr 0 0 ≠ R.SLU_CTX_STATE.addr c 0 := by
  have above := R.SLU_CTX_STATE.base_le_addr c 0
  have below : R.SLU_APPLY_STATUS.addr 0 0 < R.SLU_CTX_STATE.base := by decide
  rw [h]
  omega

/-! ### A set that becomes the pending set (R170) -/

/-- A context whose pending set is accepted. -/
def setPending (x : Context) (set : CtxSet) (s : State) : Context :=
  { x with pend := some set, pendLand := true, pendPipe := true, pendAt := sluCyc s
           wdogFrom := if x.land.any (·.en) || x.pipe.any (·.en) || x.pend.any (·.en) then x.wdogFrom else s.time.cyc }

theorem ctxAccept_eq (s : State) (c : Nat) (set : CtxSet) : ctxAccept s c set = showCtx (updCtx s c fun x => setPending x set s) c := rfl

theorem ctxOf_ctxAccept (s : State) (c : Nat) (set : CtxSet) : ctxOf (ctxAccept s c set) c = setPending (ctxOf s c) set s := by
  rw [ctxAccept_eq, ctxOf_showCtx, updCtx_eq, ctxOf_setCtx]

theorem ctxOf_ctxAccept_ne {e : Nat} (ne : e ≠ c) : ctxOf (ctxAccept s c set) e = ctxOf s e := by
  rw [ctxAccept_eq, ctxOf_showCtx, updCtx_eq, ctxOf_setCtx_ne _ _ ne]

theorem rd_ctxAccept_status {f : Fld} (h : f.reg = R.SLU_APPLY_STATUS) : rd (ctxAccept s c set) f = rd s f := by
  rw [ctxAccept_eq, rd_showCtx_reg _ _ (applyStatus_ne h c)]
  exact rd_regs (setCtx_regs _ _ _) _ _ _

theorem sluApplyDone_accepted (apply : s.slu.apply = some (c, set)) (refusal : setRefusal s c set = none) (en : set.en = true) :
    ∃ t, exec .sluApplyDone s = .next t ∧ rd t F.SLU_APPLY_STATUS_BUSY = 0 ∧ rd t F.SLU_APPLY_STATUS_DONE = 1 ∧
      (∀ x ∈ setSources c set, (srcOf t x.1).st = .bound) ∧ (∀ e, e ≠ c → ctxOf t e = ctxOf s e) ∧ t.mem = s.mem ∧
      (ctxOf t c).pend = some set ∧ (ctxOf t c).pendLand = true ∧ (ctxOf t c).pendPipe = true ∧ (ctxOf t c).pendAt = sluCyc s ∧
      (ctxOf t c).land = (ctxOf s c).land ∧ (ctxOf t c).pipe = (ctxOf s c).pipe ∧ (ctxOf t c).job = (ctxOf s c).job ∧
      rd t F.SLU_CTX_STATE_SET_PENDING c = 1 ∧
      rd t F.SLU_CTX_STATE_ACTIVE c = bit ((ctxOf s c).land.any (·.en) || (ctxOf s c).pipe.any (·.en)) := by
  have answer := execSluApplyDone_accepted apply refusal
  rw [en, if_pos rfl] at answer
  have ctx := ctxOf_ctxAccept (setBound s c set) c set
  rw [ctxOf_setBound] at ctx
  have mem : (ctxAccept (setBound s c set) c set).mem = s.mem := by
    rw [ctxAccept_eq, showCtx_mem, updCtx_eq, setCtx_mem, setBound_mem]
  have now : sluCyc (setBound s c set) = sluCyc s := by rw [sluCyc, setBound_time, sluCyc]
  refine ⟨_, answer, ?_, ?_, fun x hx => ?_, fun e ne => ?_, mem, ?_, ?_, ?_, ?_, ?_, ?_, ?_, ?_, ?_⟩
  · rw [rd_ctxAccept_status rfl, rd_setBound_busy]
  · rw [rd_ctxAccept_status rfl, rd_setBound_done]
  · have eas : (ctxAccept (setBound s c set) c set).eas = (setBound s c set).eas := by rw [ctxAccept_eq, showCtx_eas, updCtx_eq, setCtx_eas]
    rw [srcOf_eas eas, setBound_bound hx]
  · rw [ctxOf_ctxAccept_ne ne, ctxOf_setBound]
  · rw [ctx]; rfl
  · rw [ctx]; rfl
  · rw [ctx]; rfl
  · rw [ctx]; exact now
  · rw [ctx]; rfl
  · rw [ctx]; rfl
  · rw [ctx]; rfl
  · rw [ctxAccept_eq, rd_showCtx_setPending, updCtx_eq, ctxOf_setCtx]
    rfl
  · rw [ctxAccept_eq, rd_showCtx_active, updCtx_eq, ctxOf_setCtx, ctxOf_setBound]
    rfl

/-! ### A context that stops (R170) -/

/-- A context that has no set, in effect or pending, and no pending job. -/
structure Context.Stopped (x : Context) : Prop where
  next : x.next = none
  pend : x.pend = none
  land : x.land = none
  pipe : x.pipe = none

/-- Stopped contexts stay so as their job is dropped. -/
theorem dropJob_stopped (h : (ctxOf s c).Stopped) : (ctxOf (dropJob s c) c).Stopped := by
  rw [ctxOf_dropJob h.next]
  exact { h with next := rfl }

/-- A context without the jobs that wait on a parent. -/
def parentGone (s : State) (c d : Nat) : State := showCtx (updCtx s c fun x =>
  { x with next := if x.next.any fun a => a.2.2 && a.1 == d then none else x.next
           due := if x.due.any fun a => a.2.2 && a.1 == d then none else x.due }) c

theorem parentLost_cases (s : State) (c d : Nat) : parentLost s c d = parentGone s c d ∨ parentLost s c d = dropJob (parentGone s c d) c := by
  unfold parentLost
  change (match (ctxOf (parentGone s c d) c).job with | some j => _ | none => _) = _ ∨
    (match (ctxOf (parentGone s c d) c).job with | some j => _ | none => _) = _
  split
  · split
    · exact .inr rfl
    · exact .inl rfl
  · exact .inl rfl

theorem parentLost_stopped (h : (ctxOf s c).Stopped) (d : Nat) : (ctxOf (parentLost s c d) c).Stopped := by
  have lost : (ctxOf (parentGone s c d) c).Stopped := by
    rw [parentGone, ctxOf_showCtx, updCtx_eq, ctxOf_setCtx]
    refine { h with next := ?_ }
    change (if (ctxOf s c).next.any _ then none else (ctxOf s c).next) = none
    rw [h.next]
    rfl
  rcases parentLost_cases s c d with e | e <;> rw [e]
  · exact lost
  · exact dropJob_stopped lost

theorem landAbandon_stopped (h : (ctxOf s c).Stopped) : (ctxOf (landAbandon s c) c).Stopped := by
  cases landing : (ctxOf s c).landing with
  | none => rwa [landAbandon_idle landing]
  | some l =>
    have cleared : (ctxOf (landCleared s c) c).Stopped := by
      rw [ctxOf_landCleared]
      exact { h with }
    cases desc : l.desc with
    | none => rwa [landAbandon_none landing desc]
    | some d =>
      rw [landAbandon_some landing desc]
      exact parentLost_stopped cleared d

/-- A context whose sets and pending job are gone. -/
def setsGone (s : State) (c : Nat) : State :=
  updCtx s c fun x => { x with next := none, pend := none, pendLand := false, pendPipe := false, pipe := none, land := none }

theorem ctxStop_eq (s : State) (c : Nat) : ctxStop s c =
    showCtx (updCtx (dropJob (landAbandon (setsGone s c) c) c) c fun x => { x with due := none }) c := rfl

theorem setsGone_stopped (s : State) (c : Nat) : (ctxOf (setsGone s c) c).Stopped := by
  rw [setsGone, updCtx_eq, ctxOf_setCtx]
  exact ⟨rfl, rfl, rfl, rfl⟩

/-- A context that stops keeps no set, landing or job. -/
theorem ctxStop_effect (s : State) (c : Nat) : let t := ctxStop s c
    (ctxOf t c).Stopped ∧ (ctxOf t c).landing = none ∧ (ctxOf t c).job = none ∧ rd t F.SLU_CTX_STATE_ACTIVE c = 0 ∧
      rd t F.SLU_CTX_STATE_JOB c = 0 ∧ t.mem = s.mem ∧ rd t F.SLU_APPLY_STATUS_DONE = rd s F.SLU_APPLY_STATUS_DONE := by
  have abandoned := landAbandon_stopped (setsGone_stopped s c)
  have landing := landAbandon_landing (setsGone s c) c
  have mem := landAbandon_mem (setsGone s c) c
  have events := (EventsKept.refl s).set (t := setsGone s c) |>.trans (landAbandon_events (setsGone s c) c)
  rw [ctxStop_eq]
  generalize landAbandon (setsGone s c) c = u at abandoned landing mem events
  have dropped := ctxOf_dropJob abandoned.next
  have kept := (JobsKept.refl c u).dropJob
  generalize dropJob u c = v at dropped kept
  have ctx : ctxOf (showCtx (updCtx v c fun x => { x with due := none }) c) c = { ctxOf u c with job := none, next := none, due := none } := by
    rw [ctxOf_showCtx, updCtx_eq, ctxOf_setCtx, dropped]
  have shown : ctxOf (updCtx v c fun x => { x with due := none }) c = { ctxOf u c with job := none, next := none, due := none } := by
    rw [updCtx_eq, ctxOf_setCtx, dropped]
  refine ⟨?_, ?_, ?_, ?_, ?_, ?_, ?_⟩
  · rw [ctx]
    exact { abandoned with next := rfl }
  · rw [ctx]
    exact landing
  · rw [ctx]
  · rw [rd_showCtx_active, shown]
    change bit ((ctxOf u c).land.any _ || (ctxOf u c).pipe.any _) = 0
    rw [abandoned.land, abandoned.pipe]
    rfl
  · rw [rd_showCtx_job, shown]
    rfl
  · rw [showCtx_mem, updCtx_eq, setCtx_mem, kept.mem, mem]
    rfl
  · rw [rd_showCtx_reg _ _ (applyStatus_ne rfl c), updCtx_eq, rd_regs (setCtx_regs _ _ _), kept.rd_eq (besideJobs_apply rfl),
      events.rd_eq (besideJobs_apply rfl)]

theorem sluApplyDone_stops (apply : s.slu.apply = some (c, set)) (refusal : setRefusal s c set = none) (off : set.en = false) :
    ∃ t, exec .sluApplyDone s = .next t ∧ rd t F.SLU_APPLY_STATUS_DONE = 1 ∧ (ctxOf t c).land = none ∧ (ctxOf t c).pipe = none ∧
      (ctxOf t c).pend = none ∧ (ctxOf t c).landing = none ∧ (ctxOf t c).job = none ∧ (ctxOf t c).next = none ∧
      rd t F.SLU_CTX_STATE_ACTIVE c = 0 ∧ rd t F.SLU_CTX_STATE_JOB c = 0 ∧ t.mem = s.mem := by
  have answer := execSluApplyDone_accepted apply refusal
  rw [off, if_neg (by decide)] at answer
  obtain ⟨stopped, landing, job, active, shown, mem, done⟩ := ctxStop_effect (setBound s c set) c
  exact ⟨_, answer, done.trans (rd_setBound_done s c set), stopped.land, stopped.pipe, stopped.pend, landing, job, stopped.next, active, shown,
    mem.trans (setBound_mem s c set)⟩

end

/-- Settles O28: an APPLY is sampled or refused by BUSY; at its end it is refused by R171, or its set waits to take effect or stops the context by
EN. -/
theorem sluiceApply : Obligations.SluiceApply := by
  unfold Obligations.SluiceApply
  exact ⟨fun c s => sluApply_effect, fun s c set apply hc =>
    ⟨fun r refusal => sluApplyDone_refused apply hc refusal, sluApplyDone_accepted apply, sluApplyDone_stops apply⟩⟩

end Sys2Proof.Machine
end

