-- ==== Sys2Proof/Proofs/DecoderBesideAccess.lean ====
section
/-!
Accesses of hardware masters and the decoder's own state: a read answers alike whatever that state and VDC_STATUS are, and no access changes
it (R182, R553, R560, R597).
-/

namespace Sys2Proof.Machine

/-- `t` is `s` with the decoder's own state `x`, and with another VDC_STATUS at most. -/
def DecoderAside (x : Decode) (s t : State) : Prop :=
  ∃ r, t = { s with regs := r, vdc := x } ∧ ∀ a, a ≠ R.VDC_STATUS.base → Map.find r a = Map.find s.regs a

section
variable {x : Decode} {s t : State}

protected theorem DecoderAside.refl (s : State) : DecoderAside s.vdc s s := ⟨s.regs, rfl, fun _ _ => rfl⟩

protected theorem DecoderAside.rdReg_eq (h : DecoderAside x s t) {r : Reg} {i j : Nat} (hr : r.addr i j ≠ R.VDC_STATUS.base) :
    rdReg t r i j = rdReg s r i j := by
  obtain ⟨m, rfl, same⟩ := h
  simp only [rdReg, Map.get, same _ hr]

protected theorem DecoderAside.rd_eq (h : DecoderAside x s t) {f : Fld} {i j : Nat} (hf : f.reg.addr i j ≠ R.VDC_STATUS.base) :
    rd t f i j = rd s f i j := by
  rw [rd, h.rdReg_eq hf, rd]

protected theorem DecoderAside.rdb_eq (h : DecoderAside x s t) {f : Fld} {i j : Nat} (hf : f.reg.addr i j ≠ R.VDC_STATUS.base) :
    rdb t f i j = rdb s f i j := by
  rw [rdb, h.rd_eq hf, rdb]

protected theorem DecoderAside.ite {p : Prop} {_ : Decidable p} {s' t' : State} (h : DecoderAside x s t) (h' : DecoderAside x s' t') :
    DecoderAside x (if p then s else s') (if p then t else t') := by
  split
  · exact h
  · exact h'

protected theorem DecoderAside.each {α : Type} {f : State → α → State} (hf : ∀ {s t} a, DecoderAside x s t → DecoderAside x (f s a) (f t a))
    (l : List α) (h : DecoderAside x s t) : DecoderAside x (each l f s) (each l f t) := by
  induction l generalizing s t with
  | nil => exact h
  | cons a l ih => exact ih (hf a h)

/-- A field written alike, where it is not of VDC_STATUS. -/
protected theorem DecoderAside.wr {f i j v v'} (h : DecoderAside x s t) (hv : f.reg.addr i j ≠ R.VDC_STATUS.base → v' = v := by exact fun _ => rfl) :
    DecoderAside x (wr s f i j v) (wr t f i j v') := by
  have old := h.rdReg_eq (r := f.reg) (i := i) (j := j)
  obtain ⟨m, rfl, same⟩ := h
  refine ⟨_, rfl, fun a ha => ?_⟩
  simp only [wr_eq]
  rcases eq_or_ne a (f.reg.addr i j) with rfl | ne
  · rw [Map.find_put_same, Map.find_put_same, old ha, hv ha]
  · rw [Map.find_put_ne _ _ ne, Map.find_put_ne _ _ ne, same a ha]

protected theorem DecoderAside.addSat {f i n} (h : DecoderAside x s t) : DecoderAside x (addSat s f i n) (addSat t f i n) :=
  h.wr fun hf => by rw [h.rd_eq hf]

protected theorem DecoderAside.raiseIf {b k i} (h : DecoderAside x s t) : DecoderAside x (raiseIf b s k i) (raiseIf b t k i) := by
  have quiet : DecoderAside x (raiseQuiet s k i) (raiseQuiet t k i) := h.wr.wr fun hf => by rw [h.wr.rd_eq hf]
  refine .ite ?_ quiet
  obtain ⟨m, e, same⟩ := quiet
  exact ⟨m, by rw [e]; rfl, same⟩

protected theorem DecoderAside.raise {k i} (h : DecoderAside x s t) : DecoderAside x (raise s k i) (raise t k i) := h.raiseIf

/-! ### DRAM errors (R597, R611 to R613) -/

theorem channel_ne_status {r : Reg} {a : Nat} (h : r.ofChannel = true := by decide) : r.addr (dramChannel a) 0 ≠ R.VDC_STATUS.base :=
  fun e => not_besideDram_channel h (dramChannel_lt a) (e ▸ by decide)

protected theorem DecoderAside.dramEntry {kind channel margin window supp addr cause} (h : DecoderAside x s t) :
    DecoderAside x (dramEntry s kind channel margin window supp addr cause) (dramEntry t kind channel margin window supp addr cause) := by
  unfold dramEntry
  rw [h.rd_eq (by decide)]
  obtain ⟨m, rfl, same⟩ := h
  exact ⟨m, rfl, same⟩

protected theorem DecoderAside.noteCause {cause} (h : DecoderAside x s t) : DecoderAside x (noteCause s cause) (noteCause t cause) := by
  obtain ⟨m, rfl, same⟩ := h
  exact ⟨m, rfl, same⟩

protected theorem DecoderAside.holdAll (h : DecoderAside x s t) : DecoderAside x (holdAll s) (holdAll t) := by
  refine .each (fun c k => ?_) _ h
  obtain ⟨m, rfl, same⟩ := k
  exact ⟨m, rfl, same⟩

protected theorem DecoderAside.enterHold {cause} (h : DecoderAside x s t) : DecoderAside x (enterHold s cause) (enterHold t cause) := by
  unfold enterHold
  dsimp only
  rw [h.noteCause.rdb_eq (by decide)]
  exact .ite h.noteCause h.noteCause.wr.holdAll.wr.raise.dramEntry

variable {a : Nat}

protected theorem DecoderAside.testThreshold (h : DecoderAside x s t) :
    DecoderAside x (testThreshold s (dramChannel a)) (testThreshold t (dramChannel a)) := by
  have restored : (t.dmc.restored.find (dramChannel a) == some (fabCyc t)) = (s.dmc.restored.find (dramChannel a) == some (fabCyc s)) := by
    obtain ⟨m, rfl, -⟩ := h
    rfl
  have faulted := (h.wr (f := F.DMC_CH_STATUS_STATE) (i := dramChannel a) (j := 0) (v := 3)).raise (k := K.DMC_CH_EVENT_CH_FAULT)
    (i := dramChannel a)
  unfold testThreshold
  dsimp only
  rw [restored, h.rdb_eq channel_ne_status, h.rd_eq channel_ne_status, h.rd_eq channel_ne_status, faulted.rd_eq channel_ne_status]
  exact .ite faulted.dramEntry.wr.enterHold h

protected theorem DecoderAside.ueEntry {addr} (h : DecoderAside x s t) :
    DecoderAside x (ueEntry s (dramChannel a) addr) (ueEntry t (dramChannel a) addr) := by
  have count := h.rd_eq (f := F.DMC_CH_CE_WINDOW_COUNT) (channel_ne_status (a := a))
  have entry (supp : Nat) := h.dramEntry (kind := 6) (channel := dramChannel a) (margin := 0)
    (window := rd s F.DMC_CH_CE_WINDOW_COUNT (dramChannel a)) (supp := supp) (addr := addr) (cause := 0)
  unfold ueEntry
  dsimp only
  rw [count]
  obtain ⟨m, rfl, same⟩ := h
  refine .ite ⟨m, rfl, same⟩ ?_
  obtain ⟨m', e, same'⟩ := entry (s.dmc.ueHeld.get (dramChannel a) 0)
  exact ⟨m', by rw [e], same'⟩

protected theorem DecoderAside.eccError {uncorr link} (h : DecoderAside x s t) : DecoderAside x (eccError s a uncorr link) (eccError t a uncorr link) :=
  have recorded : DecoderAside x (eccRecord s (dramChannel a) a uncorr link) (eccRecord t (dramChannel a) a uncorr link) :=
    h.wr.wr.wr.wr.addSat
  (DecoderAside.ite recorded.raise.ueEntry recorded.raise.addSat).testThreshold

protected theorem DecoderAside.dramUp_eq (h : DecoderAside x s t) : dramUp t = dramUp s := by
  rw [dramUp, h.rdb_eq (by decide), h.rdb_eq (by decide), dramUp]

protected theorem DecoderAside.inDram_eq (h : DecoderAside x s t) (a n : Nat) : inDram t a n = inDram s a n := by
  obtain ⟨m, rfl, -⟩ := h
  rfl

protected theorem DecoderAside.meetPoison {n} (h : DecoderAside x s t) : DecoderAside x (meetPoison s a n) (meetPoison t a n) := by
  have bad : t.dmc.bad = s.dmc.bad := by
    obtain ⟨m, rfl, -⟩ := h
    rfl
  unfold meetPoison
  rw [h.dramUp_eq, h.inDram_eq, bad]
  refine .ite h ?_
  split
  · exact h.eccError
  · obtain ⟨m, rfl, same⟩ := h
    exact ⟨m, rfl, same⟩

protected theorem DecoderAside.meetWeak {words} (h : DecoderAside x s t) : DecoderAside x (meetWeak words s) (meetWeak words t) :=
  DecoderAside.each (f := fun s w => eccError s (w * 8) false false) (fun _ k => k.eccError) words h

/-! ### The path of an access (R553, R560 to R562, R579 to R588) -/

theorem unit_ne_status {r : Reg} {u : Nat} (hu : u ≤ 12) (h : r.ofUnit = true := by decide) : r.addr u 0 ≠ R.VDC_STATUS.base :=
  fun e => not_besideAccess_unit h hu (e ▸ by decide)

protected theorem DecoderAside.recordDenial {u y d} (h : DecoderAside x s t) : DecoderAside x (recordDenial s u y d) (recordDenial t u y d) := by
  have shown := (((h.wr (f := F.PRT_VIOL_LAST_ADDR) (i := u) (j := 0) (v := d.addr)).wr (f := F.PRT_VIOL_LAST_MASTER) (i := u) (j := 0)
    (v := y.master)).wr (f := F.PRT_VIOL_LAST_WRITE) (i := u) (j := 0) (v := bit y.write)).wr (f := F.PRT_VIOL_LAST_USER) (i := u) (j := 0)
    (v := bit y.user)
  have whole := (((shown.wr (f := F.PRT_VIOL_LAST_REGION) (i := u) (j := 0) (v := d.region)).wr (f := F.PRT_VIOL_LAST_KIND) (i := u) (j := 0)
    (v := d.kind)).wr (f := F.PRT_VIOL_LAST_UNIT) (i := u) (j := 0) (v := d.unit)).wr (f := F.PRT_VIOL_LAST_VALID) (i := u) (j := 0) (v := 1)
  obtain ⟨m, e, same⟩ := whole
  refine ⟨m, ?_, same⟩
  unfold recordDenial
  dsimp only
  rw [e]
  rfl

protected theorem DecoderAside.violate {y d} (h : DecoderAside x s t) : DecoderAside x (violate s y d) (violate t y d) := by
  unfold violate
  split
  · exact h
  · next u unit =>
    have ne {r : Reg} (hr : r.ofUnit = true) := unit_ne_status (unitOf_le unit) hr
    have stands : lowerStands t u y.master = lowerStands s u y.master := by
      unfold lowerStands
      rw [h.rd_eq (ne (by decide))]
      obtain ⟨m, rfl, -⟩ := h
      rfl
    have recorded : DecoderAside x (if lowerStands s u y.master then s else recordDenial s u y d)
        (if lowerStands s u y.master then t else recordDenial t u y d) := .ite h h.recordDenial
    dsimp only
    rw [stands, recorded.rdb_eq (ne (by decide))]
    exact recorded.addSat.raiseIf

protected theorem DecoderAside.decodeError {y k} (h : DecoderAside x s t) : DecoderAside x (decodeError s y k) (decodeError t y k) :=
  h.wr.wr.wr.wr.wr.raise

/-- Answers alike, in states that differ by the decoder's own. -/
def AnswersAside {β : Type} (x : Decode) (a b : State × β) : Prop := DecoderAside x a.1 b.1 ∧ b.2 = a.2

protected theorem DecoderAside.checkAccess (h : DecoderAside x s t) (y : Access1) : AnswersAside x (checkAccess s y) (checkAccess t y) := by
  have prot : protCheck t y = protCheck s y := by
    obtain ⟨m, rfl, -⟩ := h
    rfl
  have decode : decodeKind t y = decodeKind s y := by
    unfold decodeKind
    rw [h.dramUp_eq]
    obtain ⟨m, rfl, -⟩ := h
    rfl
  unfold checkAccess
  rw [prot, decode]
  split
  · exact ⟨h.violate, rfl⟩
  · dsimp only
    split
    · exact ⟨h, rfl⟩
    · exact ⟨h.decodeError, rfl⟩

protected theorem DecoderAside.targetRead (h : DecoderAside x s t) (a n : Nat) : AnswersAside x (targetRead s a n) (targetRead t a n) := by
  have read : dramRead t a n = dramRead s a n := by
    unfold dramRead
    rw [h.dramUp_eq, h.inDram_eq]
    obtain ⟨m, rfl, -⟩ := h
    rfl
  have weak : t.dmc.weak = s.dmc.weak := by
    obtain ⟨m, rfl, -⟩ := h
    rfl
  unfold targetRead
  rw [read, weak]
  split
  · split
    · exact ⟨h.meetWeak, rfl⟩
    · exact ⟨h.meetPoison, rfl⟩
  · obtain ⟨m, rfl, same⟩ := h
    exact ⟨⟨m, rfl, same⟩, rfl⟩
  · obtain ⟨m, rfl, same⟩ := h
    exact ⟨⟨m, rfl, same⟩, rfl⟩
  · exact ⟨h, rfl⟩

protected theorem DecoderAside.noteGrant {p m a n write} (h : DecoderAside x s t) :
    DecoderAside x (noteGrant s p m a n write) (noteGrant t p m a n write) := by
  obtain ⟨r, rfl, same⟩ := h
  exact ⟨r, rfl, same⟩

protected theorem AnswersAside.readPiece {master : Nat} {a b : State × Nat × List Byte} (h : AnswersAside x a b) (p : Nat × Nat) :
    AnswersAside x (readPiece master a p) (readPiece master b p) := by
  obtain ⟨state, answer⟩ := h
  obtain ⟨checked, error⟩ := state.checkAccess { master := master, addr := p.1, len := p.2, write := false }
  have granted := (checked.noteGrant (p := portNo p.1) (m := master) (a := p.1) (n := p.2) (write := false)).targetRead p.1 p.2
  obtain ⟨served, bytes⟩ := granted
  unfold readPiece
  dsimp only
  rw [answer, error, bytes]
  split
  · exact ⟨state, rfl⟩
  · split
    · exact ⟨checked, rfl⟩
    · exact ⟨served, rfl⟩

/-- A read answers alike whatever the decoder does. -/
protected theorem DecoderAside.busRead (h : DecoderAside x s t) (master a n : Nat) : AnswersAside x (busRead s master a n) (busRead t master a n) := by
  unfold busRead
  generalize pieces a (n / 256 + 2) n = ps
  suffices ∀ b c, AnswersAside x b c → AnswersAside x (ps.foldl (readPiece master) b) (ps.foldl (readPiece master) c) from
    this _ _ ⟨h, rfl⟩
  induction ps with
  | nil => exact fun _ _ k => k
  | cons p ps ih => exact fun _ _ k => ih _ _ (k.readPiece p)

/-- A state beside itself, with a decoder of before: that decoder has stayed. -/
protected theorem DecoderAside.vdc_eq (h : DecoderAside x s s) : s.vdc = x := by
  obtain ⟨m, e, -⟩ := h
  rw [e]

end

/-! ### No access changes the decoder's own state -/

section
variable (s : State) (master a : Nat) (l : List Byte)

theorem busRead_vdc (n : Nat) : (busRead s master a n).1.vdc = s.vdc := ((DecoderAside.refl s).busRead master a n).1.vdc_eq

theorem targetWrite_vdc : (targetWrite s a l).1.vdc = s.vdc := by
  unfold targetWrite
  split
  · obtain ⟨m, d, e⟩ := dramWriteMasked_eq s a l []
    dsimp only
    split
    · rw [(DecoderAside.refl _).meetWeak.vdc_eq, e]
    · exact (DecoderAside.refl s).meetPoison.vdc_eq
  · rcases windowWrite_cases s ((a - 0x1010000000) / 0x80000) ((a - 0x1010000000) % 0x80000) l with ⟨q, e⟩ | e <;> rw [e] <;> rfl
  · rfl

theorem writePiece_vdc (acc : State × Nat) (p : Nat × Nat) : (writePiece master a l acc p).1.vdc = acc.1.vdc := by
  have checked (y) : (checkAccess acc.1 y).1.vdc = acc.1.vdc := ((DecoderAside.refl acc.1).checkAccess y).1.vdc_eq
  unfold writePiece
  split
  · rfl
  · dsimp only
    split
    · exact checked _
    · exact (targetWrite_vdc _ _ _).trans (checked _)

theorem busWrite_vdc : (busWrite s master a l).1.vdc = s.vdc :=
  foldl_field (fun acc : State × Nat => acc.1.vdc) (writePiece_vdc master a l) _ _

theorem sealRow_vdc (p : Place) (dom ident seq r : Nat) (lines : List (Nat × Nat × List Byte)) :
    (sealRow s master p dom ident seq r lines).vdc = s.vdc := foldl_field State.vdc (fun _ _ => busWrite_vdc _ _ _ _) _ _

theorem writeLines_vdc (p : Place) (lines : List (Nat × Nat × List Byte)) : (writeLines s master p lines).vdc = s.vdc :=
  foldl_field State.vdc (fun _ _ => busWrite_vdc _ _ _ _) _ _

theorem writeProvisional_vdc (p : Place) (f : Frame) : (writeProvisional s master p f).vdc = s.vdc := by
  unfold writeProvisional
  rw [busWrite_vdc, busWrite_vdc]
  rfl

end

end Sys2Proof.Machine
end

