-- ==== Sys2Proof/Proofs/DecoderRecords.lean ====
section
/-!
The records of the decoder: what a stream shows (R196), the marks of its pictures (R191), and what its removal leaves (R183).
-/

namespace Sys2Proof.Machine

/-! ### What a stream shows (R196) -/

section
variable (s : State) (n : Nat)

theorem strOf_vdc {s t : State} (h : t.vdc = s.vdc) (n : Nat) : strOf t n = strOf s n := by rw [strOf, h, strOf]

@[simp] theorem showStr_mem : (showStr s n).mem = s.mem := rfl
@[simp] theorem showStr_eas : (showStr s n).eas = s.eas := rfl
@[simp] theorem showStr_vdc : (showStr s n).vdc = s.vdc := rfl
@[simp] theorem strOf_showStr (m : Nat) : strOf (showStr s n) m = strOf s m := strOf_vdc (showStr_vdc s n) m

/-- A register that is not the stream's VDC_STR_STATE. -/
theorem rd_showStr_reg {f : Fld} {i : Nat} (h : f.reg.addr i 0 ≠ R.VDC_STR_STATE.addr n 0) : rd (showStr s n) f i = rd s f i := by
  simp only [showStr]
  rw [rd_wr_reg _ _ _ _ _ _ _ _ h, rd_wr_reg _ _ _ _ _ _ _ _ h, rd_wr_reg _ _ _ _ _ _ _ _ h, rd_wr_reg _ _ _ _ _ _ _ _ h,
    rd_wr_reg _ _ _ _ _ _ _ _ h]

/-- LAST_OVR and UNSUP_CODE stand between the fields that are shown. -/
theorem rd_showStr_cause {f : Fld} (hr : f.reg = R.VDC_STR_STATE) (hlo : 5 ≤ f.lo) (hhi : f.lo + f.w ≤ 12) :
    rd (showStr s n) f n = rd s f n := by
  have below {g : Fld} {u : State} (v : Nat) (hg : g.reg = R.VDC_STR_STATE) (h : g.lo + g.w ≤ 5) : rd (wr u g n 0 v) f n = rd u f n :=
    rd_wr_field _ _ _ _ _ _ (hr.trans hg.symm) (by omega) (.inr (by omega))
  simp only [showStr]
  rw [rd_wr_field _ _ _ _ _ _ hr (by omega) (.inl hhi), below _ rfl (by decide), below _ rfl (by decide), below _ rfl (by decide),
    below _ rfl (by decide)]

theorem rd_showStr_taint : rd (showStr s n) F.VDC_STR_STATE_TAINT n = bit (strOf s n).taint := by
  simp only [showStr]
  rw [rd_wr_field _ _ _ _ _ _ (by rfl) (by decide) (by decide), rd_wr_bit _ _ _ _ rfl]

theorem rd_showStr_waitRap : rd (showStr s n) F.VDC_STR_STATE_WAIT_RAP n = bit ((strOf s n).waitRap || (strOf s n).ringWait) := by
  simp only [showStr]
  rw [rd_wr_field _ _ _ _ _ _ (by rfl) (by decide) (by decide), rd_wr_field _ _ _ _ _ _ (by rfl) (by decide) (by decide), rd_wr_bit _ _ _ _ rfl]

theorem rd_showStr_admitted : rd (showStr s n) F.VDC_STR_STATE_ADMITTED n = bit (strOf s n).admitted := by
  simp only [showStr]
  rw [rd_wr_field _ _ _ _ _ _ (by rfl) (by decide) (by decide), rd_wr_field _ _ _ _ _ _ (by rfl) (by decide) (by decide),
    rd_wr_field _ _ _ _ _ _ (by rfl) (by decide) (by decide), rd_wr_field _ _ _ _ _ _ (by rfl) (by decide) (by decide), rd_wr_bit _ _ _ _ rfl]

end

/-! ### Marks (R191, R233) -/

/-- What a repetition brings about in one of its rounds and no round undoes, holds at its end. -/
theorem each_reaches {α : Type} {P : State → Prop} {f : State → α → State} {l : List α} {a : α} (ha : a ∈ l) (hit : ∀ s, P (f s a))
    (keep : ∀ s b, P s → P (f s b)) (s : State) : P (each l f s) := by
  obtain ⟨before, after, rfl⟩ := List.append_of_mem ha
  rw [each, List.foldl_append, List.foldl_cons]
  exact each_keeps P f after (fun u b _ hu => keep u b hu) _ (hit _)

/-- From `s` to `t` buffers alone change. -/
def BuffersOnly (s t : State) : Prop := t = { s with eas := { s.eas with descs := t.eas.descs } }

section
variable {s t : State}

protected theorem BuffersOnly.refl (s : State) : BuffersOnly s s := rfl

protected theorem BuffersOnly.setDesc {d x} (h : BuffersOnly s t) : BuffersOnly s (setDesc t d x) := by
  rw [BuffersOnly] at h ⊢
  rw [h]
  rfl

protected theorem BuffersOnly.each {α : Type} {f : State → α → State} {l : List α} (h : BuffersOnly s t)
    (hf : ∀ {u} a, BuffersOnly s u → BuffersOnly s (f u a)) : BuffersOnly s (each l f t) := each_keeps _ _ _ (fun _ a _ k => hf a k) t h

protected theorem BuffersOnly.unref {n d} (h : BuffersOnly s t) : BuffersOnly s (unref t n d) := by
  unfold unref
  dsimp only
  split
  · exact h.setDesc
  · exact h.setDesc.setDesc

theorem BuffersOnly.regs (h : BuffersOnly s t) : t.regs = s.regs := by rw [h]
theorem BuffersOnly.mem (h : BuffersOnly s t) : t.mem = s.mem := by rw [h]
theorem BuffersOnly.vdc (h : BuffersOnly s t) : t.vdc = s.vdc := by rw [h]
theorem BuffersOnly.requests (h : BuffersOnly s t) : t.eas.requests = s.eas.requests := by rw [h]
theorem BuffersOnly.sources (h : BuffersOnly s t) : t.eas.sources = s.eas.sources := by rw [h]
theorem BuffersOnly.rd_eq (h : BuffersOnly s t) (f : Fld) (i : Nat) : rd t f i = rd s f i := rd_regs h.regs f i 0
theorem BuffersOnly.srcOf_eq (h : BuffersOnly s t) (i : Nat) : srcOf t i = srcOf s i := by rw [srcOf, h.sources, srcOf]
theorem BuffersOnly.strOf_eq (h : BuffersOnly s t) (n : Nat) : strOf t n = strOf s n := strOf_vdc h.vdc n

end

section
variable (s : State) (n : Nat) (l : List DpbPic)

/-- A picture that a RETIRING buffer bars from a mark (R233). -/
def markBarred (b : DpbPic) : Bool := b.desc.any fun d =>
  (descOf s d).st == .retiring && !(if b.long.isSome then (descOf s d).refL else (descOf s d).refS)

/-- The pictures that stay in the DPB. -/
def keptMarks : List DpbPic := (l.drop (l.length - max 1 (strOf s n).dpbMax)).filter fun b => !markBarred s b

/-- The buffers that lose their mark. -/
def goneMarks : List Nat := ((strOf s n).dpb.filterMap (·.desc)).filter fun d => !((keptMarks s n l).any fun b => b.desc == some d)

/-- The stream with its DPB replaced. -/
def dpbReplaced : State := setStr s n { strOf s n with dpb := keptMarks s n l }

/-- A kept picture marked. -/
def markSet (s : State) (b : DpbPic) : State :=
  match b.desc with
  | some d => updDesc s d fun y => { y with refS := b.long.isNone, refL := b.long.isSome }
  | none => s

theorem setDpb_steps : setDpb s n l = each (keptMarks s n l) markSet (each (goneMarks s n l) (fun s d => unref s n d) (dpbReplaced s n l)) := rfl

theorem setDpb_buffers : BuffersOnly (dpbReplaced s n l) (setDpb s n l) := by
  rw [setDpb_steps]
  refine ((BuffersOnly.refl _).each fun _ k => k.unref).each fun b k => ?_
  unfold markSet
  split
  · exact k.setDesc
  · exact k

theorem setDpb_mem : (setDpb s n l).mem = s.mem := (setDpb_buffers s n l).mem
theorem setDpb_regs : (setDpb s n l).regs = s.regs := (setDpb_buffers s n l).regs
theorem setDpb_requests : (setDpb s n l).eas.requests = s.eas.requests := (setDpb_buffers s n l).requests
theorem rd_setDpb (f : Fld) (i : Nat) : rd (setDpb s n l) f i = rd s f i := rd_regs (setDpb_regs s n l) f i 0

theorem strOf_setDpb : strOf (setDpb s n l) n = { strOf s n with dpb := keptMarks s n l } := by
  rw [(setDpb_buffers s n l).strOf_eq, dpbReplaced, strOf_setStr]

theorem strOf_setDpb_ne {m : Nat} (ne : m ≠ n) : strOf (setDpb s n l) m = strOf s m := by
  rw [(setDpb_buffers s n l).strOf_eq, dpbReplaced, strOf_setStr_ne _ _ ne]

theorem keptMarks_length : (keptMarks s n l).length ≤ max 1 (strOf s n).dpbMax := by
  refine (List.length_filter_le _ _).trans ?_
  rw [List.length_drop]
  omega

@[simp] theorem keptMarks_nil : keptMarks s n [] = [] := by rw [keptMarks, List.drop_nil, List.filter_nil]

theorem mem_of_mem_keptMarks {b : DpbPic} (h : b ∈ keptMarks s n l) : b ∈ l := List.mem_of_mem_drop (List.mem_of_mem_filter h)

end

/-! ### Marks that are gone -/

/-- A buffer without a reference mark. -/
def Desc.unmarked (x : Desc) : Prop := x.refS = false ∧ x.refL = false

theorem settle_unmarked {x : Desc} (h : x.unmarked) : (settle x).unmarked := by
  unfold settle
  split
  · exact h
  · split
    · exact h
    · exact h

theorem abandoned_unmarked {x : Desc} (h : x.unmarked) : (abandoned x).unmarked := by
  unfold abandoned
  split
  · exact h
  · exact h

section
variable {s : State} {n d : Nat}

theorem setDesc_unmarked {e : Nat} {x : Desc} (h : (descOf s d).unmarked) (hx : d = e → x.unmarked) : (descOf (setDesc s e x) d).unmarked := by
  rcases eq_or_ne d e with rfl | ne
  · rw [descOf_setDesc]
    exact hx rfl
  · rwa [descOf_setDesc_ne _ _ ne]

theorem abandonBuffer_unmarked (h : (descOf s d).unmarked) (e : Nat) : (descOf (abandonBuffer s e) d).unmarked := by
  rw [abandonBuffer_eq]
  exact setDesc_unmarked h fun same => abandoned_unmarked (same ▸ h)

theorem unmark_self (s : State) (d : Nat) : (descOf (unmark s d) d).unmarked := by
  rw [unmark, updDesc_eq, descOf_setDesc]
  exact settle_unmarked ⟨rfl, rfl⟩

theorem unmark_unmarked (h : (descOf s d).unmarked) (e : Nat) : (descOf (unmark s e) d).unmarked := by
  rw [unmark, updDesc_eq]
  exact setDesc_unmarked h fun _ => settle_unmarked ⟨rfl, rfl⟩

theorem unref_cases (s : State) (n d : Nat) : unref s n d = unmark s d ∨ unref s n d = abandonBuffer (unmark s d) d := by
  unfold unref
  dsimp only
  split
  · exact .inl rfl
  · exact .inr rfl

theorem unref_self (s : State) (n d : Nat) : (descOf (unref s n d) d).unmarked := by
  rcases unref_cases s n d with e | e <;> rw [e]
  · exact unmark_self s d
  · exact abandonBuffer_unmarked (unmark_self s d) d

theorem unref_unmarked (h : (descOf s d).unmarked) (e : Nat) : (descOf (unref s n e) d).unmarked := by
  rcases unref_cases s n e with k | k <;> rw [k]
  · exact unmark_unmarked h e
  · exact abandonBuffer_unmarked (unmark_unmarked h e) e

/-- With no picture left in the DPB, no picture that was in it is marked. -/
theorem setDpb_nil_unmarked {b : DpbPic} (hb : b ∈ (strOf s n).dpb) (hd : b.desc = some d) : (descOf (setDpb s n []) d).unmarked := by
  have gone : d ∈ goneMarks s n [] := List.mem_filter.2 ⟨List.mem_filterMap.2 ⟨b, hb, hd⟩, by rw [keptMarks_nil]; rfl⟩
  rw [setDpb_steps, keptMarks_nil]
  exact each_reaches (P := fun t => (descOf t d).unmarked) (f := fun s d => unref s n d) gone (fun u => unref_self u n d)
    (fun u e hu => unref_unmarked hu e) _

end

/-! ### Removal (R183, R242) -/

section
variable (s : State) (n : Nat)

/-- The stream's marks dropped and its pictures given back. -/
def picturesDropped : State :=
  let u := each (strOf s n).done (fun s p => abandonBuffer s p.desc) (setDpb (setStr s n { strOf s n with done := [] }) n [])
  match (strOf s n).recon with
  | some (p, _) => abandonBuffer u p.desc
  | none => u

theorem removeStream_eq : removeStream s n = showStr (orphanSource (setStr (picturesDropped s n) n {}) (strOf s n).src) n := rfl

/-- The stream without its pictures awaiting output and without its DPB. -/
def pictureless : State := dpbReplaced (setStr s n { strOf s n with done := [] }) n []

theorem picturesDropped_buffers : BuffersOnly (pictureless s n) (picturesDropped s n) := by
  have given : BuffersOnly (pictureless s n)
      (each (strOf s n).done (fun s p => abandonBuffer s p.desc) (setDpb (setStr s n { strOf s n with done := [] }) n [])) :=
    (setDpb_buffers _ _ _).each fun _ k => k.setDesc
  unfold picturesDropped
  dsimp only
  split
  · exact given.setDesc
  · exact given

variable {s n}

theorem picturesDropped_unmarked {b : DpbPic} {d : Nat} (hb : b ∈ (strOf s n).dpb) (hd : b.desc = some d) :
    (descOf (picturesDropped s n) d).unmarked := by
  have marks : (descOf (setDpb (setStr s n { strOf s n with done := [] }) n []) d).unmarked :=
    setDpb_nil_unmarked (b := b) (by rwa [strOf_setStr]) hd
  have given : (descOf (each (strOf s n).done (fun s p => abandonBuffer s p.desc)
      (setDpb (setStr s n { strOf s n with done := [] }) n [])) d).unmarked :=
    each_keeps (fun t => (descOf t d).unmarked) _ _ (fun u p _ hu => abandonBuffer_unmarked hu p.desc) _ marks
  unfold picturesDropped
  dsimp only
  split
  · exact abandonBuffer_unmarked given _
  · exact given

variable (s n)

theorem removeStream_mem : (removeStream s n).mem = s.mem := (picturesDropped_buffers s n).mem

theorem strOf_removeStream : strOf (removeStream s n) n = {} := by
  rw [removeStream_eq, strOf_showStr]
  exact strOf_setStr _ _ _

theorem strOf_removeStream_ne {m : Nat} (ne : m ≠ n) : strOf (removeStream s n) m = strOf s m := by
  rw [removeStream_eq, strOf_showStr]
  change strOf (setStr (picturesDropped s n) n {}) m = _
  rw [strOf_setStr_ne _ _ ne, (picturesDropped_buffers s n).strOf_eq, pictureless, dpbReplaced, strOf_setStr_ne _ _ ne, strOf_setStr_ne _ _ ne]

theorem rd_removeStream_admitted : rd (removeStream s n) F.VDC_STR_STATE_ADMITTED n = 0 := by
  have gone : strOf (orphanSource (setStr (picturesDropped s n) n {}) (strOf s n).src) n = {} := strOf_setStr _ _ _
  rw [removeStream_eq, rd_showStr_admitted, gone]
  rfl

theorem rd_removeStream_reg {f : Fld} {i : Nat} (h : f.reg.addr i 0 ≠ R.VDC_STR_STATE.addr n 0) : rd (removeStream s n) f i = rd s f i := by
  rw [removeStream_eq, rd_showStr_reg _ _ h]
  exact (picturesDropped_buffers s n).rd_eq f i

theorem descOf_removeStream (d : Nat) : descOf (removeStream s n) d = descOf (picturesDropped s n) d := by
  rw [removeStream_eq, descOf_eas (showStr_eas _ _)]
  rfl

/-- The source of a removed stream: ORPHAN where it was bound. -/
theorem srcOf_removeStream : srcOf (removeStream s n) (strOf s n).src =
    (if (srcOf s (strOf s n).src).st = .bound then { srcOf s (strOf s n).src with st := .orphan, owner := .none }
      else srcOf s (strOf s n).src) := by
  have before : srcOf (setStr (picturesDropped s n) n {}) (strOf s n).src = srcOf s (strOf s n).src :=
    (picturesDropped_buffers s n).srcOf_eq _
  rw [removeStream_eq, srcOf_eas (showStr_eas _ _), orphanSource, updSrc_eq, srcOf_setSrc, before]

end

end Sys2Proof.Machine
end

