-- ==== Sys2Proof/Proofs/DecoderCommands.lean ====
section
/-!
ADMIT, REMOVE and INJECT: their write, what a refusal reports (R182), and what each does as it ends (R180, R181, R183, R184).
-/

namespace Sys2Proof.Machine

/-! ### VDC_STATUS (R182, R195) -/

section
variable {s : State} {n : Nat} {c : Nat × Nat × Nat}

/-- What a refusal shows, before REFUSED is raised. -/
def vdcShown (s : State) (n : Nat) (c : Nat × Nat × Nat) : State :=
  let u := wr0 (wr0 s F.VDC_STATUS_CODE c.1) F.VDC_STATUS_STREAM n
  if c.1 = 1 then wr0 (wr0 u F.VDC_STATUS_REG c.2.1) F.VDC_STATUS_BIT c.2.2 else u

theorem vdcRefuse_eq (s : State) (n : Nat) (c : Nat × Nat × Nat) : vdcRefuse s n c = raise (vdcShown s n c) K.VDC_STATUS_REFUSED := rfl

theorem vdcShown_cases (s : State) (n : Nat) (c : Nat × Nat × Nat) : let u := wr0 (wr0 s F.VDC_STATUS_CODE c.1) F.VDC_STATUS_STREAM n
    vdcShown s n c = u ∨ vdcShown s n c = wr0 (wr0 u F.VDC_STATUS_REG c.2.1) F.VDC_STATUS_BIT c.2.2 := by
  by_cases range : c.1 = 1
  · exact .inr (if_pos range)
  · exact .inl (if_neg range)

/-- A field of the status below REG. -/
theorem rd_vdcShown_low {f : Fld} (h : [F.VDC_STATUS_REG, F.VDC_STATUS_BIT].all f.apart = true) :
    rd (vdcShown s n c) f = rd (wr0 (wr0 s F.VDC_STATUS_CODE c.1) F.VDC_STATUS_STREAM n) f := by
  simp only [List.all_cons, List.all_nil, Bool.and_true, Bool.and_eq_true] at h
  obtain ⟨reg, bit⟩ := h
  rcases vdcShown_cases s n c with e | e <;> rw [e]
  rw [rd_wr0_apart _ _ bit, rd_wr0_apart _ _ reg]

theorem vdcShown_eq (s : State) (n : Nat) (c : Nat × Nat × Nat) : vdcShown s n c = { s with regs := (vdcShown s n c).regs } := by
  rcases vdcShown_cases s n c with e | e <;> rw [e] <;> rfl

/-- A refused command raises REFUSED with its code and stream, and touches nothing else. -/
theorem vdcRefuse_effect (s : State) (hc : c.1 < 16) (hn : n < 256) : let t := vdcRefuse s n c
    rd t F.VDC_STATUS_BUSY = rd s F.VDC_STATUS_BUSY ∧ rd t F.VDC_STATUS_REFUSED = 1 ∧ rd t F.VDC_STATUS_CODE = c.1 ∧
      rd t F.VDC_STATUS_STREAM = n ∧ t.vdc = s.vdc ∧ t.eas = s.eas ∧ t.mem = s.mem := by
  have busy : rd (vdcShown s n c) F.VDC_STATUS_BUSY = rd s F.VDC_STATUS_BUSY := by
    rw [rd_vdcShown_low (by decide), rd_wr0_apart _ _ (by decide), rd_wr0_apart _ _ (by decide)]
  have code : rd (vdcShown s n c) F.VDC_STATUS_CODE = c.1 := by
    rw [rd_vdcShown_low (by decide), rd_wr0_apart _ _ (by decide), rd_wr0_same _ _ hc]
  have stream : rd (vdcShown s n c) F.VDC_STATUS_STREAM = n := by rw [rd_vdcShown_low (by decide), rd_wr0_same _ _ hn]
  have shown := vdcShown_eq s n c
  rw [vdcRefuse_eq]
  generalize vdcShown s n c = u at busy code stream shown
  have vdc : u.vdc = s.vdc := by rw [shown]
  have eas : u.eas = s.eas := by rw [shown]
  have mem : u.mem = s.mem := by rw [shown]
  refine ⟨?_, rd_raise_flag u _ 0 rfl (by decide) (.inr (by decide)), ?_, ?_, vdc, eas, mem⟩
  · rw [rd_raise_apart _ (by decide) (by decide), busy]
  · rw [rd_raise_apart _ (by decide) (by decide), code]
  · rw [rd_raise_apart _ (by decide) (by decide), stream]

/-! ### The write of a command -/

/-- A command in flight. -/
def vdcBegun (s : State) (op n : Nat) : State :=
  { wr0 (wr0 s F.VDC_STATUS_BUSY 1) F.VDC_STATUS_STREAM n with vdc := { s.vdc with op := some (op, n) } }

theorem vdcCmdWrite_begins {op : Nat} (hop : op ≠ 0) (idle : rd s F.VDC_STATUS_BUSY = 0) : vdcCmdWrite s op n = vdcBegun s op n := by
  rw [vdcCmdWrite, if_neg hop, if_neg (by rw [rdb, idle]; decide)]
  rfl

theorem vdcCmdWrite_busy {op : Nat} (hop : op ≠ 0) (busy : rd s F.VDC_STATUS_BUSY = 1) : vdcCmdWrite s op n = vdcRefuse s n (9, 0, 0) := by
  rw [vdcCmdWrite, if_neg hop, if_pos (by rw [rdb, busy]; rfl)]

theorem vdcBegun_effect (s : State) (op : Nat) (hn : n < 256) : let t := vdcBegun s op n
    rd t F.VDC_STATUS_BUSY = 1 ∧ rd t F.VDC_STATUS_STREAM = n ∧ t.vdc = { s.vdc with op := some (op, n) } ∧
      t = { s with regs := t.regs, vdc := t.vdc } ∧ sameRegsBut s t [R.VDC_STATUS.base] := by
  refine ⟨?_, rd_wr0_same _ F.VDC_STATUS_STREAM hn, rfl, rfl, fun a ha => ?_⟩
  · exact (rd_wr0_apart _ (g := F.VDC_STATUS_STREAM) _ (by decide)).trans (rd_wr0_same _ _ (by decide))
  · have ne : a ≠ F.VDC_STATUS_BUSY.reg.addr 0 0 := fun e => ha (List.mem_singleton.2 e)
    simp only [vdcBegun, wr0_eq, wr_eq]
    exact (Map.find_put_ne _ _ ne).trans (Map.find_put_ne _ _ ne)

/-! ### The end of a command (R182) -/

/-- A command at its end, no longer BUSY. -/
def vdcEnded (s : State) : State := wr0 { s with vdc := { s.vdc with op := none } } F.VDC_STATUS_BUSY 0

theorem vdcEnded_aside (s : State) : DecoderAside { s.vdc with op := none } s (vdcEnded s) := by
  refine ⟨_, rfl, fun a ha => ?_⟩
  exact Map.find_put_ne _ _ ha

theorem rd_vdcEnded_busy (s : State) : rd (vdcEnded s) F.VDC_STATUS_BUSY = 0 := rd_wr0_same _ _ (by decide)

@[simp] theorem strOf_vdcEnded (s : State) (m : Nat) : strOf (vdcEnded s) m = strOf s m := rfl

/-- A stream's registers stand above VDC_STATUS. -/
theorem rd_vdcEnded_stream (s : State) {f : Fld} (h : R.VDC_STATUS.base < f.reg.base) (i : Nat) : rd (vdcEnded s) f i = rd s f i :=
  (vdcEnded_aside s).rd_eq (Reg.addr_ne_of_lt_base (r := R.VDC_STATUS) (i := 0) (j := 0) h i 0)

theorem stagedStream_vdcEnded (s : State) (n : Nat) : stagedStream (vdcEnded s) n = stagedStream s n := by
  have best : bestEngine (vdcEnded s) = bestEngine s := rfl
  simp (disch := decide) only [stagedStream, rdb, rd_vdcEnded_stream, best]

/-- The rules of R180 and R182 look at neither VDC_STATUS nor the command in flight. -/
theorem vdcRefusal_vdcEnded (s : State) (op n : Nat) : vdcRefusal (vdcEnded s) op n = vdcRefusal s op n := by
  have ranges (x) : strRanges (vdcEnded s) n x = strRanges s n x := by
    simp (disch := decide) only [strRanges, rd_vdcEnded_stream]
  have window (i) : inWindow (vdcEnded s) i = inWindow s i := by simp (disch := decide) only [inWindow, rd_vdcEnded_stream]
  have sources (i) : srcOf (vdcEnded s) i = srcOf s i := rfl
  have dup (i) : dupSource (vdcEnded s) i = dupSource s i := by rw [dupSource, window, sources, dupSource]
  have length : rd (vdcEnded s) F.VDC_STR_PSET_LEN_LEN n = rd s F.VDC_STR_PSET_LEN_LEN n := rd_vdcEnded_stream s (by decide) n
  unfold vdcRefusal
  dsimp only
  rw [stagedStream_vdcEnded, ranges, dup, length]
  rfl

/-- Codes are 1 to 8. -/
theorem vdcRefusal_code {op : Nat} (h : vdcRefusal s op n = some c) : c.1 < 16 := by
  have code {r : Nat × Nat × Nat} (h : r.1 < 16) : ∀ x ∈ some r, x.1 < 16 := by
    rintro x ⟨⟩
    exact h
  suffices ∀ x ∈ vdcRefusal s op n, x.1 < 16 from this c h
  unfold vdcRefusal
  refine forall_mem_ite ?_ (forall_mem_ite (code (by decide)) (forall_mem_ite (code (by decide)) nofun))
  dsimp only
  split
  · exact code (by change 1 < 16; decide)
  · exact forall_mem_ite (code (by decide)) <| forall_mem_ite (code (by decide)) <| forall_mem_ite (code (by decide)) <|
      forall_mem_ite (code (by decide)) <| forall_mem_ite (code (by decide)) <| forall_mem_ite (code (by decide)) nofun

/-- Parameter sets held by a stream as if they had come in band (R184). -/
def psetsHeld (l : List (List Byte)) (x : Stream) : Stream := { x with psets := l.foldl (holdPset x.codec) x.psets }

/-- What an accepted command does as it ends. -/
def vdcAccepted (s : State) (op n : Nat) : Host.Outcome State Fault Refusal :=
  if op = 1 then
    let x := stagedStream s n
    let s := bindSource (wr (wr (setStr s n x) F.VDC_STR_STATE_LAST_OVR n 0 0) F.VDC_STR_STATE_UNSUP_CODE n 0 0) x.src (.decode n)
    .next (raise (showStr s n) K.VDC_STATUS_DONE)
  else if op = 2 then .next (raise (removeStream s n) K.VDC_STATUS_DONE)
  else match (readPsets s n).2 with
    | none => .next (vdcRefuse (readPsets s n).1 n (10, 0, 0))
    | some l => .next (raise (updStr (readPsets s n).1 n (psetsHeld l)) K.VDC_STATUS_DONE)

section
variable {op : Nat} (cmd : s.vdc.op = some (op, n)) (free : op = 3 → accessWaits s (64 + (strOf s n).engine) = false)
include cmd free

/-- A command that need not wait is judged at its end. -/
theorem execVdcCmdDone_eq : exec .vdcCmdDone s = (match vdcRefusal (vdcEnded s) op n with
    | some c => .next (vdcRefuse (vdcEnded s) n c)
    | none => vdcAccepted (vdcEnded s) op n) := by
  have goes : ¬ (decide (op = 3) && accessWaits s (64 + (strOf s n).engine)) = true := by simpa using free
  change execVdcCmdDone s = _
  unfold execVdcCmdDone
  rw [cmd]
  exact if_neg goes

theorem execVdcCmdDone_refused (refusal : vdcRefusal s op n = some c) : exec .vdcCmdDone s = .next (vdcRefuse (vdcEnded s) n c) := by
  rw [execVdcCmdDone_eq cmd free, vdcRefusal_vdcEnded, refusal]

theorem execVdcCmdDone_accepted (accepted : vdcRefusal s op n = none) : exec .vdcCmdDone s = vdcAccepted (vdcEnded s) op n := by
  rw [execVdcCmdDone_eq cmd free, vdcRefusal_vdcEnded, accepted]

end

end

/-! ### ADMIT (R180, R181, R242) -/

/-- The engine of the two with more free budget, the first where neither has. -/
def freer (s : State) (a k : Nat) : Nat := if kbpsFree s a < kbpsFree s k then k else a

theorem freer_ge (s : State) (a k : Nat) : kbpsFree s a ≤ kbpsFree s (freer s a k) ∧ kbpsFree s k ≤ kbpsFree s (freer s a k) := by
  unfold freer
  split <;> omega

/-- No engine has more free budget than the one a stream is bound to (R181). -/
theorem kbpsFree_le_bestEngine (s : State) {k : Nat} (hk : k < 4) : kbpsFree s k ≤ kbpsFree s (bestEngine s) := by
  have best : bestEngine s = freer s (freer s (freer s 0 1) 2) 3 := rfl
  obtain ⟨zero, one⟩ := freer_ge s 0 1
  obtain ⟨first, two⟩ := freer_ge s (freer s 0 1) 2
  obtain ⟨second, three⟩ := freer_ge s (freer s (freer s 0 1) 2) 3
  rw [best]
  interval_cases k <;> omega

section
variable {s : State} {n : Nat}

/-- The state with a stream admitted as it is staged, before that is shown. -/
def streamAdmitted (s : State) (n : Nat) : State :=
  bindSource (wr (wr (setStr (vdcEnded s) n (stagedStream s n)) F.VDC_STR_STATE_LAST_OVR n 0 0) F.VDC_STR_STATE_UNSUP_CODE n 0 0)
    (rd s F.VDC_STR_CFG_SRC n) (.decode n)

theorem execVdcCmdDone_admits (cmd : s.vdc.op = some (1, n)) (accepted : vdcRefusal s 1 n = none) :
    exec .vdcCmdDone s = .next (raise (showStr (streamAdmitted s n) n) K.VDC_STATUS_DONE) := by
  have source : rd (vdcEnded s) F.VDC_STR_CFG_SRC n = rd s F.VDC_STR_CFG_SRC n := rd_vdcEnded_stream s (by decide) n
  rw [execVdcCmdDone_accepted cmd nofun accepted, streamAdmitted, ← stagedStream_vdcEnded, ← source]
  rfl

/-- VDC_STATUS stands below the streams' registers. -/
theorem status_ne_stream {f : Fld} (h : f.reg = R.VDC_STATUS) {r : Reg} (hr : R.VDC_STATUS.base < r.base) (n : Nat) :
    f.reg.addr 0 0 ≠ r.addr n 0 := by
  rw [h]
  exact (Reg.addr_ne_of_lt_base (r := R.VDC_STATUS) (i := 0) (j := 0) hr n 0).symm

theorem rd_streamAdmitted_busy : rd (streamAdmitted s n) F.VDC_STATUS_BUSY = 0 := by
  have apart : F.VDC_STATUS_BUSY.reg.addr 0 0 ≠ R.VDC_STR_STATE.addr n 0 := status_ne_stream rfl (by decide) n
  refine (rd_wr_reg _ F.VDC_STR_STATE_UNSUP_CODE _ _ _ _ _ _ apart).trans ?_
  refine (rd_wr_reg _ F.VDC_STR_STATE_LAST_OVR _ _ _ _ _ _ apart).trans ?_
  exact rd_vdcEnded_busy s

/-- A flag of the status raised as a command is accepted. -/
theorem accepted_status {u : State} (busy : rd u F.VDC_STATUS_BUSY = 0) :
    rd (raise u K.VDC_STATUS_DONE) F.VDC_STATUS_BUSY = 0 ∧ rd (raise u K.VDC_STATUS_DONE) F.VDC_STATUS_DONE = 1 :=
  ⟨(rd_raise_apart _ (by decide) (by decide)).trans busy, rd_raise_flag _ _ _ rfl (by decide) (.inr (by decide))⟩

/-- A field of a stream's register, as a command is accepted. -/
theorem rd_accepted_stream (u : State) {f : Fld} (h : R.VDC_STATUS_CNT.base < f.reg.base) (i : Nat) :
    rd (raise u K.VDC_STATUS_DONE) f i = rd u f i :=
  rd_raise_reg _ _ _ _ _ _
    (Reg.addr_ne_of_lt_base (r := R.VDC_STATUS) (i := 0) (j := 0) (Nat.lt_trans (by decide) h) i 0)
    (Reg.addr_ne_of_lt_base (r := R.VDC_STATUS_CNT) (i := 0) (j := 0) h i 0)

theorem vdcCmdDone_admits (cmd : s.vdc.op = some (1, n)) (accepted : vdcRefusal s 1 n = none) :
    ∃ t, exec .vdcCmdDone s = .next t ∧ rd t F.VDC_STATUS_BUSY = 0 ∧ rd t F.VDC_STATUS_DONE = 1 ∧ strOf t n = stagedStream s n ∧
      (strOf t n).admitted = true ∧ (strOf t n).engine = bestEngine s ∧ (∀ k < 4, kbpsFree s k ≤ kbpsFree s (strOf t n).engine) ∧
      (∀ m, m ≠ n → strOf t m = strOf s m) ∧ rd t F.VDC_STR_STATE_ADMITTED n = 1 ∧ rd t F.VDC_STR_STATE_WAIT_RAP n = 1 ∧
      (srcOf t (rd s F.VDC_STR_CFG_SRC n)).st = .bound ∧ t.mem = s.mem := by
  have stream : strOf (streamAdmitted s n) n = stagedStream s n := strOf_setStr _ _ _
  have others (m) (ne : m ≠ n) : strOf (streamAdmitted s n) m = strOf s m := strOf_setStr_ne (vdcEnded s) _ ne
  have bound : (srcOf (streamAdmitted s n) (rd s F.VDC_STR_CFG_SRC n)).st = .bound := bindSource_bound _ _ _
  have mem : (streamAdmitted s n).mem = s.mem := rfl
  have busy : rd (showStr (streamAdmitted s n) n) F.VDC_STATUS_BUSY = 0 := by
    rw [rd_showStr_reg _ _ (status_ne_stream rfl (by decide) n), rd_streamAdmitted_busy]
  have answer := execVdcCmdDone_admits cmd accepted
  have admitted := rd_showStr_admitted (streamAdmitted s n) n
  have waits := rd_showStr_waitRap (streamAdmitted s n) n
  rw [stream] at admitted waits
  generalize streamAdmitted s n = u at stream others bound mem busy answer admitted waits
  have final : strOf (raise (showStr u n) K.VDC_STATUS_DONE) n = stagedStream s n := stream
  obtain ⟨idle, done⟩ := accepted_status busy
  refine ⟨_, answer, idle, done, final, ?_, ?_, fun k hk => ?_, others, ?_, ?_, bound, mem⟩
  · rw [final]
    rfl
  · rw [final]
    rfl
  · rw [final]
    exact kbpsFree_le_bestEngine s hk
  · rw [rd_accepted_stream _ (by decide), admitted]
    rfl
  · rw [rd_accepted_stream _ (by decide), waits]
    rfl

/-! ### REMOVE (R183) -/

theorem execVdcCmdDone_removes (cmd : s.vdc.op = some (2, n)) (accepted : vdcRefusal s 2 n = none) :
    exec .vdcCmdDone s = .next (raise (removeStream (vdcEnded s) n) K.VDC_STATUS_DONE) := by
  rw [execVdcCmdDone_accepted cmd nofun accepted]
  rfl

theorem vdcCmdDone_removes (cmd : s.vdc.op = some (2, n)) (accepted : vdcRefusal s 2 n = none) :
    ∃ t, exec .vdcCmdDone s = .next t ∧ rd t F.VDC_STATUS_BUSY = 0 ∧ rd t F.VDC_STATUS_DONE = 1 ∧ strOf t n = {} ∧
      (∀ m, m ≠ n → strOf t m = strOf s m) ∧ rd t F.VDC_STR_STATE_ADMITTED n = 0 ∧
      (srcOf t (strOf s n).src).cur = (srcOf s (strOf s n).src).cur ∧
      ((srcOf s (strOf s n).src).st = .bound → (srcOf t (strOf s n).src).st = .orphan) ∧
      (∀ q ∈ (strOf s n).dpb, ∀ d, q.desc = some d → (descOf t d).refS = false ∧ (descOf t d).refL = false) ∧ t.mem = s.mem := by
  have busy : rd (removeStream (vdcEnded s) n) F.VDC_STATUS_BUSY = 0 := by
    rw [rd_removeStream_reg _ _ (status_ne_stream rfl (by decide) n), rd_vdcEnded_busy]
  obtain ⟨idle, done⟩ := accepted_status busy
  have source := srcOf_removeStream (vdcEnded s) n
  rw [strOf_vdcEnded, srcOf_eas (s := s) (t := vdcEnded s) rfl] at source
  have answer := execVdcCmdDone_removes cmd accepted
  have stream := strOf_removeStream (vdcEnded s) n
  have others (m) (ne : m ≠ n) : strOf (removeStream (vdcEnded s) n) m = strOf s m := strOf_removeStream_ne (vdcEnded s) n ne
  have admitted := rd_removeStream_admitted (vdcEnded s) n
  have mem : (removeStream (vdcEnded s) n).mem = s.mem := removeStream_mem (vdcEnded s) n
  have gone {q d} (hq : q ∈ (strOf s n).dpb) (hd : q.desc = some d) : (descOf (removeStream (vdcEnded s) n) d).unmarked := by
    rw [descOf_removeStream]
    exact picturesDropped_unmarked hq hd
  generalize removeStream (vdcEnded s) n = u at answer stream others admitted mem gone source idle done
  have final : srcOf (raise u K.VDC_STATUS_DONE) (strOf s n).src = srcOf u (strOf s n).src := rfl
  rw [source] at final
  refine ⟨_, answer, idle, done, stream, others, ?_, ?_, fun bound => ?_, fun q hq d hd => gone hq hd, mem⟩
  · rw [rd_accepted_stream _ (by decide), admitted]
  · rw [final]
    split <;> rfl
  · rw [final, if_pos bound]

/-! ### INJECT (R184) -/

/-- The parameter sets read alike at the end of the command. -/
theorem readPsets_vdcEnded (s : State) (n : Nat) : (readPsets (vdcEnded s) n).2 = (readPsets s n).2 := by
  obtain ⟨-, read⟩ := (vdcEnded_aside s).busRead (64 + (strOf s n).engine) (rd s F.VDC_STR_PSET_ADDR_ADDR n) (rd s F.VDC_STR_PSET_LEN_LEN n)
  simp (disch := decide) only [readPsets, strOf_vdcEnded, rd_vdcEnded_stream, read]

theorem readPsets_kept (s : State) (n : Nat) : PathKept s (readPsets s n).1 := busRead_kept _ _ _ _
theorem readPsets_vdc (s : State) (n : Nat) : (readPsets s n).1.vdc = s.vdc := busRead_vdc _ _ _ _
theorem readPsets_mem (s : State) (n : Nat) : (readPsets s n).1.mem = s.mem := busRead_mem _ _ _ _

theorem rd_readPsets_busy (s : State) (n : Nat) : rd (readPsets (vdcEnded s) n).1 F.VDC_STATUS_BUSY = 0 := by
  rw [(readPsets_kept _ _).rd_eq (by decide), rd_vdcEnded_busy]

section
variable (cmd : s.vdc.op = some (3, n)) (accepted : vdcRefusal s 3 n = none) (free : accessWaits s (64 + (strOf s n).engine) = false)
include cmd accepted free

theorem execVdcCmdDone_injects : exec .vdcCmdDone s = (match (readPsets s n).2 with
    | none => .next (vdcRefuse (readPsets (vdcEnded s) n).1 n (10, 0, 0))
    | some l => .next (raise (updStr (readPsets (vdcEnded s) n).1 n (psetsHeld l)) K.VDC_STATUS_DONE)) := by
  rw [execVdcCmdDone_accepted cmd (fun _ => free) accepted, ← readPsets_vdcEnded]
  rfl

theorem vdcCmdDone_injects {l : List (List Byte)} (parsed : (readPsets s n).2 = some l) :
    ∃ t, exec .vdcCmdDone s = .next t ∧ rd t F.VDC_STATUS_BUSY = 0 ∧ rd t F.VDC_STATUS_DONE = 1 ∧
      strOf t n = { strOf s n with psets := l.foldl (holdPset (strOf s n).codec) (strOf s n).psets } ∧
      (∀ m, m ≠ n → strOf t m = strOf s m) ∧ t.eas = s.eas ∧ t.mem = s.mem := by
  have answer := execVdcCmdDone_injects cmd accepted free
  rw [parsed] at answer
  have streams (m) : strOf (readPsets (vdcEnded s) n).1 m = strOf s m := strOf_vdc (s := vdcEnded s) (readPsets_vdc _ _) m
  have busy : rd (updStr (readPsets (vdcEnded s) n).1 n (psetsHeld l)) F.VDC_STATUS_BUSY = 0 := rd_readPsets_busy s n
  obtain ⟨idle, done⟩ := accepted_status busy
  refine ⟨_, answer, idle, done, ?_, fun m ne => ?_, (readPsets_kept (vdcEnded s) n).eas, readPsets_mem (vdcEnded s) n⟩
  · change strOf (setStr (readPsets (vdcEnded s) n).1 n (psetsHeld l (strOf (readPsets (vdcEnded s) n).1 n))) n = _
    rw [strOf_setStr, streams, psetsHeld]
  · change strOf (setStr (readPsets (vdcEnded s) n).1 n (psetsHeld l (strOf (readPsets (vdcEnded s) n).1 n))) m = _
    rw [strOf_setStr_ne _ _ ne, streams]

theorem vdcCmdDone_injects_bad (hn : n < 256) (bad : (readPsets s n).2 = none) :
    ∃ t, exec .vdcCmdDone s = .next t ∧ rd t F.VDC_STATUS_BUSY = 0 ∧ rd t F.VDC_STATUS_REFUSED = 1 ∧ rd t F.VDC_STATUS_CODE = 10 ∧
      t.vdc = { s.vdc with op := none } ∧ t.eas = s.eas ∧ t.mem = s.mem := by
  have answer := execVdcCmdDone_injects cmd accepted free
  rw [bad] at answer
  obtain ⟨busy, refused, code, -, vdc, eas, mem⟩ := vdcRefuse_effect (c := (10, 0, 0)) (readPsets (vdcEnded s) n).1 (by decide) hn
  exact ⟨_, answer, busy.trans (rd_readPsets_busy s n), refused, code, vdc.trans (readPsets_vdc _ _), eas.trans (readPsets_kept _ _).eas,
    mem.trans (readPsets_mem _ _)⟩

end

end

/-! ### The commands together -/

section
variable {s : State}

theorem vdcWrites_begin (n : BitVec 8) (idle : rd s F.VDC_STATUS_BUSY = 0) :
    exec (.vdcAdmit n) s = .next (vdcBegun s 1 n.toNat) ∧ exec (.vdcRemove n) s = .next (vdcBegun s 2 n.toNat) ∧
      exec (.vdcInject n) s = .next (vdcBegun s 3 n.toNat) :=
  ⟨congrArg Host.Outcome.next (vdcCmdWrite_begins (by decide) idle), congrArg Host.Outcome.next (vdcCmdWrite_begins (by decide) idle),
    congrArg Host.Outcome.next (vdcCmdWrite_begins (by decide) idle)⟩

theorem vdcWrites_busy (n : BitVec 8) (busy : rd s F.VDC_STATUS_BUSY = 1) : let t := vdcRefuse s n.toNat (9, 0, 0)
    exec (.vdcAdmit n) s = .next t ∧ exec (.vdcRemove n) s = .next t ∧ exec (.vdcInject n) s = .next t :=
  ⟨congrArg Host.Outcome.next (vdcCmdWrite_busy (by decide) busy), congrArg Host.Outcome.next (vdcCmdWrite_busy (by decide) busy),
    congrArg Host.Outcome.next (vdcCmdWrite_busy (by decide) busy)⟩

theorem vdcCmdDone_refused {op n : Nat} {c : Nat × Nat × Nat} (cmd : s.vdc.op = some (op, n)) (hn : n < 256)
    (refusal : vdcRefusal s op n = some c) (free : op = 3 → accessWaits s (64 + (strOf s n).engine) = false) :
    ∃ t, exec .vdcCmdDone s = .next t ∧ rd t F.VDC_STATUS_BUSY = 0 ∧ rd t F.VDC_STATUS_REFUSED = 1 ∧ rd t F.VDC_STATUS_CODE = c.1 ∧
      rd t F.VDC_STATUS_STREAM = n ∧ t.vdc = { s.vdc with op := none } ∧ t.eas = s.eas ∧ t.mem = s.mem := by
  obtain ⟨busy, refused, code, stream, vdc, eas, mem⟩ := vdcRefuse_effect (vdcEnded s) (vdcRefusal_code refusal) hn
  exact ⟨_, execVdcCmdDone_refused cmd free refusal, busy.trans (rd_vdcEnded_busy s), refused, code, stream, vdc, eas, mem⟩

end

/-- Settles O29: a command begins or is refused by BUSY; at its end it is refused by R180 or R182, or admits, removes or injects; only the read of
INJECT leaves the decoder, and it answers as it would before the command's end. -/
theorem decoderCommands : Obligations.DecoderCommands := by
  unfold Obligations.DecoderCommands
  refine ⟨fun n s idle => ?_, fun n s busy => ?_, fun s op n c cmd hn refusal free => vdcCmdDone_refused cmd hn refusal free,
    fun s n cmd _ accepted => vdcCmdDone_admits cmd accepted, fun s n cmd _ accepted => vdcCmdDone_removes cmd accepted,
    fun s n cmd hn accepted free => ⟨fun l parsed => vdcCmdDone_injects cmd accepted free parsed, vdcCmdDone_injects_bad cmd accepted free hn⟩⟩
  · obtain ⟨admits, removes, injects⟩ := vdcWrites_begin n idle
    refine ⟨_, _, _, admits, removes, injects, fun x hx => ?_⟩
    simp only [List.mem_cons, List.not_mem_nil, or_false] at hx
    rcases hx with rfl | rfl | rfl <;> exact vdcBegun_effect s _ n.isLt
  · obtain ⟨admits, removes, injects⟩ := vdcWrites_busy n busy
    obtain ⟨-, refused, code, stream, vdc, eas, mem⟩ := vdcRefuse_effect (c := (9, 0, 0)) s (by decide) n.isLt
    exact ⟨_, admits, removes, injects, refused, code, stream, vdc, eas, mem⟩

end Sys2Proof.Machine
end

