-- ==== Sys2Proof/Proofs/DecoderOutput.lean ====
section
/-!
Pictures in output order (R188, R189, R193): what their publication leaves alone, and what an end of sequence does.
-/

namespace Sys2Proof.Machine

theorem strOf_streams {s t : State} (h : t.vdc.streams = s.vdc.streams) (n : Nat) : strOf t n = strOf s n := by rw [strOf, h, strOf]

/-! ### A stream's registers (R196, R197) -/

/-- A register of the streams' blocks. -/
def Reg.ofStream (r : Reg) : Bool := decide (0x1010000 ≤ r.base ∧ r.base < 0x1010100) && r.s1 == 0x100 && !r.remote

theorem stream_besideAccess {r : Reg} {n : Nat} (hn : n < 256) (h : r.ofStream = true := by decide) : besideAccess (r.addr n 0) := by
  simp only [Reg.ofStream, Bool.and_eq_true, decide_eq_true_eq, beq_iff_eq, Bool.not_eq_true'] at h
  obtain ⟨⟨⟨lo, hi⟩, stride⟩, near⟩ := h
  simp only [besideAccess, Reg.addr, near, stride]
  simp
  omega

section
variable {s : State} {n : Nat} {f : Fld} {k : Flag}

/-- An event flag of a stream that is raised reads 1. -/
theorem rd_raise_stream (s : State) (n : Nat) (hr : k.fld.reg = R.VDC_STR_EVENT := by rfl) (hw : k.fld.w = 1 := by rfl)
    (hlo : k.fld.lo < 64 := by decide) (hcnt : k.cnt.reg = R.VDC_STR_EVENT_CNT := by rfl) : rd (raise s k n) k.fld n = 1 :=
  rd_raise_flag _ _ _ hw hlo (.inr (by rw [hr, hcnt]; exact Reg.apart_addr (by decide) n))

/-- An event flag of a stream as another is raised. -/
theorem rd_raise_stream_other (s : State) (n : Nat) (hf : f.reg = R.VDC_STR_EVENT := by rfl) (hr : k.fld.reg = R.VDC_STR_EVENT := by rfl)
    (hcnt : k.cnt.reg = R.VDC_STR_EVENT_CNT := by rfl) (fits : f.lo + f.w ≤ 64 := by decide)
    (apart : f.lo + f.w ≤ k.fld.lo ∨ k.fld.lo + k.fld.w ≤ f.lo := by decide) : rd (raise s k n) f n = rd s f n := by
  have counted : rd (raise s k n) f n = rd (wr s k.fld n 0 1) f n :=
    rd_wr_reg _ _ _ _ _ _ _ _ (by rw [hf, hcnt]; exact Reg.apart_addr (by decide) n)
  rw [counted, rd_wr_field _ _ _ _ _ _ (hf.trans hr.symm) fits apart]

/-- A field of a stream's VDC_STR_STATE as an event flag is raised. -/
theorem rd_raise_stream_state (s : State) (n : Nat) (hf : f.reg = R.VDC_STR_STATE := by rfl) (hr : k.fld.reg = R.VDC_STR_EVENT := by rfl)
    (hcnt : k.cnt.reg = R.VDC_STR_EVENT_CNT := by rfl) : rd (raise s k n) f n = rd s f n :=
  rd_raise_reg _ _ _ _ _ _ (by rw [hf, hr]; exact Reg.apart_addr (by decide) n) (by rw [hf, hcnt]; exact Reg.apart_addr (by decide) n)

/-- An event flag of a stream as the stream is shown. -/
theorem rd_showStr_event (s : State) (n : Nat) (hf : f.reg = R.VDC_STR_EVENT := by rfl) : rd (showStr s n) f n = rd s f n :=
  rd_showStr_reg _ _ (by rw [hf]; exact Reg.apart_addr (by decide) n)

end

/-! ### What publication leaves alone (R53, R188) -/

/-- From `s` to `t` stream `n` changes in its pictures awaiting output alone, no other stream changes, and no register that accesses of hardware
masters leave alone. -/
structure OutputKept (n : Nat) (s t : State) : Prop where
  regs : ∀ a, besideAccess a → Map.find t.regs a = Map.find s.regs a
  others : ∀ m, m ≠ n → strOf t m = strOf s m
  stream : strOf t n = { strOf s n with done := (strOf t n).done }

section
variable {n : Nat} {s t : State}

protected theorem OutputKept.refl (n : Nat) (s : State) : OutputKept n s s := ⟨fun _ _ => rfl, fun _ _ => rfl, rfl⟩

protected theorem OutputKept.trans {u : State} (h : OutputKept n s t) (k : OutputKept n t u) : OutputKept n s u where
  regs a ha := (k.regs a ha).trans (h.regs a ha)
  others m ne := (k.others m ne).trans (h.others m ne)
  stream := by rw [k.stream, h.stream]

theorem OutputKept.rd_eq (h : OutputKept n s t) {f : Fld} {i : Nat} (hf : besideAccess (f.reg.addr i 0)) : rd t f i = rd s f i := by
  simp only [rd, rdReg, Map.get, h.regs _ hf]

/-- The pictures awaiting output replaced. -/
def withDone (s : State) (n : Nat) (l : List Picture) : State := setStr s n { strOf s n with done := l }

theorem withDone_kept (s : State) (n : Nat) (l : List Picture) : OutputKept n s (withDone s n l) where
  regs _ _ := rfl
  others _ ne := strOf_setStr_ne _ _ ne
  stream := by rw [withDone, strOf_setStr]

theorem strOf_withDone (s : State) (n : Nat) (l : List Picture) : strOf (withDone s n l) n = { strOf s n with done := l } := strOf_setStr _ _ _

/-- The frame that a picture is published as. -/
def outputFrame (s : State) (n : Nat) (p : Picture) : Frame := { p.frame with concealed := (strOf s n).taint || p.concealed }

/-- The provisional record of a picture written. -/
def recordWritten (s : State) (n : Nat) (p : Picture) : State :=
  writeProvisional s (68 + p.pixel) (placeIn s p.desc (outputFrame s n p)) (outputFrame s n p)

/-- The publication of a buffer as a frame requested for stream `n`. -/
def publicationAsked (s : State) (n d : Nat) (f : Frame) : State :=
  let u := requestPublish (updDesc s d fun y => { y with frame := f }) d
  { u with vdc := { u.vdc with asked := u.vdc.asked.put d n } }

theorem publishPicture_eq (s : State) (n : Nat) (p : Picture) :
    publishPicture s n p = publicationAsked (recordWritten s n p) n p.desc (outputFrame s n p) := by
  simp only [publishPicture, publicationAsked, recordWritten, outputFrame]

theorem strOf_publicationAsked (s : State) (n d : Nat) (f : Frame) (m : Nat) : strOf (publicationAsked s n d f) m = strOf s m := strOf_streams rfl m

theorem publicationAsked_frame (s : State) (n d : Nat) (f : Frame) : (descOf (publicationAsked s n d f) d).frame = f := by
  change (descOf (updDesc s d fun y => { y with frame := f }) d).frame = f
  rw [updDesc_eq, descOf_setDesc]

theorem publicationAsked_regs (s : State) (n d : Nat) (f : Frame) : (publicationAsked s n d f).regs = s.regs := rfl

theorem publicationAsked_requests (s : State) (n d : Nat) (f : Frame) : (publicationAsked s n d f).eas.requests = s.eas.requests ++ [d] := rfl

theorem recordWritten_kept (s : State) (n : Nat) (p : Picture) : PathKept s (recordWritten s n p) := writeProvisional_kept _ _ _ _

theorem strOf_publishPicture (s : State) (n : Nat) (p : Picture) (m : Nat) : strOf (publishPicture s n p) m = strOf s m := by
  rw [publishPicture_eq, strOf_publicationAsked]
  exact strOf_vdc (writeProvisional_vdc _ _ _ _) m

theorem publishPicture_kept (s : State) (n : Nat) (p : Picture) : OutputKept n s (publishPicture s n p) where
  regs := by
    rw [publishPicture_eq, publicationAsked_regs]
    exact (recordWritten_kept s n p).regs
  others m _ := strOf_publishPicture s n p m
  stream := by rw [strOf_publishPicture]

/-- A published picture's buffer is requested last. -/
theorem publishPicture_requests (s : State) (n : Nat) (p : Picture) : (publishPicture s n p).eas.requests = s.eas.requests ++ [p.desc] := by
  rw [publishPicture_eq, publicationAsked_requests, (recordWritten_kept s n p).eas]

theorem publishPicture_frame (s : State) (n : Nat) (p : Picture) : (descOf (publishPicture s n p) p.desc).frame = outputFrame s n p := by
  rw [publishPicture_eq, publicationAsked_frame]

/-! ### Pictures put out (R188) -/

theorem flushOut_nil {limit fuel : Nat} (h : (strOf s n).done = []) : flushOut limit n fuel s = s := by
  cases fuel with
  | zero => rfl
  | succ fuel => simp only [flushOut, h]

theorem flushOut_cons {limit fuel : Nat} {p : Picture} {rest : List Picture} (h : (strOf s n).done = p :: rest) :
    flushOut limit n (fuel + 1) s =
      if (strOf s n).done.length ≤ limit then s else flushOut limit n fuel (publishPicture (withDone s n rest) n p) := by
  rw [flushOut]
  split
  · next none_ => exact absurd (none_.symm.trans h) nofun
  · next q t wait =>
    obtain ⟨rfl, rfl⟩ := List.cons.inj (wait.symm.trans h)
    rfl

theorem flushOut_kept (limit n fuel : Nat) (s : State) : OutputKept n s (flushOut limit n fuel s) := by
  induction fuel generalizing s with
  | zero => exact .refl n s
  | succ fuel ih =>
    cases wait : (strOf s n).done with
    | nil =>
      rw [flushOut_nil wait]
      exact .refl n s
    | cons p rest =>
      rw [flushOut_cons wait]
      split
      · exact .refl n s
      · exact ((withDone_kept s n rest).trans (publishPicture_kept _ _ _)).trans (ih _)

theorem putOut_kept (limit : Nat) (s : State) (n : Nat) : OutputKept n s (putOut limit s n) := flushOut_kept _ _ _ _

/-- No more than the limit wait: none is published. -/
theorem putOut_idle {limit : Nat} (h : (strOf s n).done.length ≤ limit) : putOut limit s n = s := by
  cases wait : (strOf s n).done with
  | nil => exact flushOut_nil wait
  | cons p rest =>
    rw [putOut, wait, List.length_cons, flushOut_cons wait]
    exact if_pos h

/-- One waits, and none may: it is published. -/
theorem putOut_one {p : Picture} (h : (strOf s n).done = [p]) : putOut 0 s n = publishPicture (withDone s n []) n p := by
  rw [putOut, h, List.length_singleton, flushOut_cons h, h]
  exact if_neg (by simp)

theorem flushOut_empty {fuel : Nat} (h : (strOf s n).done.length ≤ fuel) : (strOf (flushOut 0 n fuel s) n).done = [] := by
  induction fuel generalizing s with
  | zero => exact List.eq_nil_of_length_eq_zero (Nat.le_zero.1 h)
  | succ fuel ih =>
    cases wait : (strOf s n).done with
    | nil => rw [flushOut_nil wait, wait]
    | cons p rest =>
      have left : (strOf (publishPicture (withDone s n rest) n p) n).done = rest := by rw [strOf_publishPicture, strOf_withDone]
      rw [wait, List.length_cons] at h
      rw [flushOut_cons wait, wait, if_neg (by simp)]
      exact ih (by rw [left]; omega)

/-- All are published where none may wait. -/
theorem putOut_empty (s : State) (n : Nat) : (strOf (putOut 0 s n) n).done = [] := flushOut_empty (Nat.le_refl _)

/-! ### An end of sequence (R188) -/

/-- The pictures waiting for reconstruction replaced. -/
def withWaiting (s : State) (n : Nat) (l : List Picture) : State := setStr s n { strOf s n with waiting := l }

/-- The picture in reconstruction replaced. -/
def withRecon (s : State) (n : Nat) (r : Option (Picture × Nat)) : State := setStr s n { strOf s n with recon := r }

theorem endSequence_waiting {l : List Picture} {p : Picture} (h : (strOf s n).waiting = l ++ [p]) :
    endSequence s n = withWaiting s n (l ++ [{ p with last := true }]) := by
  have reversed : (strOf s n).waiting.reverse = p :: l.reverse := by rw [h, List.reverse_append]; rfl
  unfold endSequence
  dsimp only
  rw [reversed]
  simp only [List.reverse_cons, List.reverse_reverse]
  rfl

theorem endSequence_recon {p : Picture} {e : Nat} (h : (strOf s n).waiting = []) (recon : (strOf s n).recon = some (p, e)) :
    endSequence s n = withRecon s n (some ({ p with last := true }, e)) := by
  have reversed : (strOf s n).waiting.reverse = [] := by rw [h, List.reverse_nil]
  unfold endSequence
  dsimp only
  rw [reversed, recon]
  rfl

theorem endSequence_idle (h : (strOf s n).waiting = []) (recon : (strOf s n).recon = none) : endSequence s n = putOut 0 s n := by
  have reversed : (strOf s n).waiting.reverse = [] := by rw [h, List.reverse_nil]
  unfold endSequence
  dsimp only
  rw [reversed, recon]

/-- What becomes of stream `n` from `s` to `t` as an end of sequence reaches it, if one does. -/
structure SequenceEnded (ends : Bool) (n : Nat) (s t : State) : Prop where
  regs : ∀ a, besideAccess a → Map.find t.regs a = Map.find s.regs a
  others : ∀ m, m ≠ n → strOf t m = strOf s m
  stream : strOf t n = { strOf s n with waiting := (strOf t n).waiting, recon := (strOf t n).recon, done := (strOf t n).done }
  goes_on : ends = false → t = s
  last : ∀ {l p}, (strOf s n).waiting = l ++ [p] → p.last = false → (strOf t n).waiting = l ++ [{ p with last := ends }]
  done : ends = true → (strOf s n).recon = none → (strOf t n).waiting = [] → (strOf t n).done = []

theorem sequenceEnded_false (n : Nat) (s : State) : SequenceEnded false n s s where
  regs _ _ := rfl
  others _ _ := rfl
  stream := rfl
  goes_on _ := rfl
  last {l p} h hp := by rw [h, ← hp]
  done := nofun

theorem sequenceEnded_endSequence (n : Nat) (s : State) : SequenceEnded true n s (endSequence s n) := by
  rcases List.eq_nil_or_concat (strOf s n).waiting with none_ | ⟨l, p, some_⟩
  · have last {l : List Picture} {p : Picture} {q : List Picture} (h : (strOf s n).waiting = l ++ [p]) : q = l ++ [{ p with last := true }] := by
      rw [none_] at h
      exact absurd h.symm (by simp)
    cases recon : (strOf s n).recon with
    | none =>
      have out := putOut_kept 0 s n
      rw [endSequence_idle none_ recon]
      exact { out with
        stream := by rw [out.stream]
        goes_on := nofun
        last := fun h _ => last h
        done := fun _ _ _ => putOut_empty s n }
    | some r =>
      rw [endSequence_recon none_ recon]
      exact {
        regs := fun _ _ => rfl
        others := fun _ ne => strOf_setStr_ne _ _ ne
        stream := by rw [withRecon, strOf_setStr]
        goes_on := nofun
        last := fun h _ => last h
        done := fun _ none_ => absurd (none_.symm.trans recon) nofun }
  · rw [List.concat_eq_append] at some_
    have shown : strOf (withWaiting s n (l ++ [{ p with last := true }])) n = { strOf s n with waiting := l ++ [{ p with last := true }] } :=
      strOf_setStr _ _ _
    rw [endSequence_waiting some_]
    exact {
      regs := fun _ _ => rfl
      others := fun _ ne => strOf_setStr_ne _ _ ne
      stream := by rw [shown]
      goes_on := nofun
      last := fun {l' p'} h _ => by
        obtain ⟨rfl, same⟩ := List.append_inj' (some_.symm.trans h) rfl
        obtain rfl := List.singleton_inj.1 same
        rw [shown]
      done := fun _ _ gone => by
        rw [shown] at gone
        exact absurd gone (by simp) }

theorem sequenceEnded_ite (ends : Bool) (n : Nat) (s : State) : SequenceEnded ends n s (if ends then endSequence s n else s) := by
  cases ends
  · exact sequenceEnded_false n s
  · exact sequenceEnded_endSequence n s

end

end Sys2Proof.Machine
end

