-- ==== Sys2Proof/Proofs/EntropyEngines.lean ====
section
/-!
Access units at the entropy engines: the one taken (R186), and what becomes of it once it is parsed (R176, R177, R185, R186, R194).
-/

namespace Sys2Proof.Machine

/-! ### An access unit taken (R186) -/

section
variable {e : Fin 4} {s : State} {n : Nat}

theorem execEntropyAuStart_takes (idle : (admittedStr s).any (fun x => x.2.engine == e.val && x.2.parsing.isSome) = false)
    (first : earliest (entropyReady s e.val) (fun n => ((strOf s n).queue.head?.map (·.arrival)).getD 0) = some n) :
    exec (.entropyAuStart e) s =
      .next (setStr s n { strOf s n with parsing := (strOf s n).queue.head?, queue := (strOf s n).queue.tail }) := by
  change execEntropyAuStart e s = _
  unfold execEntropyAuStart
  rw [idle, first]
  rfl

end

/-! ### What parsing leaves alone -/

/-- From `s` to `t` stream `n` has its access unit parsed: its queue, its pictures after it and those in reconstruction stay, and the other
streams, the Easel and DRAM. -/
structure AuKept (n : Nat) (s t : State) : Prop where
  others : ∀ m, m ≠ n → strOf t m = strOf s m
  eas : t.eas = s.eas
  mem : t.mem = s.mem
  parsing : (strOf t n).parsing = none
  queue : (strOf t n).queue = (strOf s n).queue
  done : (strOf t n).done = (strOf s n).done
  recon : (strOf t n).recon = (strOf s n).recon

section
variable {n : Nat} {s u t : State}

/-- A stream with its access unit parsed, its queue and its other pictures as they were. -/
def Stream.parsedFrom (x y : Stream) : Prop := y.parsing = none ∧ y.queue = x.queue ∧ y.done = x.done ∧ y.recon = x.recon

/-- The stream replaced by one with its access unit parsed, where only registers have changed. -/
theorem AuKept.of_setStr {y : Stream} (vdc : u.vdc = s.vdc) (eas : u.eas = s.eas) (mem : u.mem = s.mem) (h : (strOf s n).parsedFrom y) :
    AuKept n s (setStr u n y) := by
  obtain ⟨parsing, queue, done, recon⟩ := h
  exact {
    others := fun m ne => (strOf_setStr_ne _ _ ne).trans (strOf_vdc vdc m)
    eas := eas
    mem := mem
    parsing := by rw [strOf_setStr, parsing]
    queue := by rw [strOf_setStr, queue]
    done := by rw [strOf_setStr, done]
    recon := by rw [strOf_setStr, recon] }

protected theorem AuKept.wr {f i j v} (h : AuKept n s u) : AuKept n s (wr u f i j v) := { h with }

protected theorem AuKept.raise {k i} (h : AuKept n s u) : AuKept n s (raise u k i) := { h with }

protected theorem AuKept.ite {p : Prop} {_ : Decidable p} (hu : AuKept n s u) (ht : AuKept n s t) : AuKept n s (if p then u else t) := by
  split
  · exact hu
  · exact ht

protected theorem AuKept.discardAu (h : AuKept n s u) : AuKept n s (discardAu u n) := by
  unfold discardAu
  cases (strOf u n).fresh
  · exact h
  · exact h.raise

protected theorem AuKept.overrun {cause} (h : AuKept n s u) : AuKept n s (overrun u n cause) := h.wr.raise

protected theorem AuKept.pictureLost {a} (h : AuKept n s u) : AuKept n s (pictureLost u n a) where
  others m ne := (strOf_setStr_ne _ _ ne).trans (h.others m ne)
  eas := h.eas
  mem := h.mem
  parsing := by rw [pictureLost, updStr_eq, strOf_setStr]; exact h.parsing
  queue := by rw [pictureLost, updStr_eq, strOf_setStr]; exact h.queue
  done := by rw [pictureLost, updStr_eq, strOf_setStr]; exact h.done
  recon := by rw [pictureLost, updStr_eq, strOf_setStr]; exact h.recon

end

/-! ### What becomes of an access unit -/

section
variable (x : Stream) (a : AccessUnit) (i : PicInfo)

/-- The stream once its access unit is parsed, the parameter sets in it held. -/
def streamParsed : Stream := { x with parsing := none, psets := a.nals.foldl (holdPset x.codec) x.psets }

/-- The cause for which the SPS that comes with an access unit is unsupported; 0: none (R175). -/
def unsupCause : Nat := (i.sps.map (spsCause x)).getD 0

/-- The SPS in effect. -/
def spsInEffect : Option SpsInfo := if i.sps.isSome then i.sps else x.sps

/-- The access unit is not one that the stream discards (R176, R185, R194). -/
def auGoes : Bool :=
  (!x.waitRap || isRap x.codec a) && (!x.unsup || (isRap x.codec a && i.sps.isSome)) && (spsInEffect x i).isSome

/-- An access unit has been discarded since the last RAP (R177). -/
def auLost : Bool := x.lost || a.afterDrop

/-- Decoding starts at the CRA. -/
def craBegins : Bool := isRap x.codec a && isCra x.codec a && (x.waitRap || auLost x a)

/-- The stream with an unsupported SPS. -/
def streamUnsup : Stream := { streamParsed x a with unsup := true, waitRap := true }

/-- The stream whose access unit is discarded. -/
def streamDiscards : Stream := { streamParsed x a with sps := if x.unsup then x.sps else spsInEffect x i, lost := auLost x a }

/-- The stream whose access unit is decoded. -/
def streamDecodes : Stream :=
  { streamParsed x a with sps := spsInEffect x i, unsup := false, waitRap := false, fresh := false, lost := auLost x a && !isRap x.codec a
                          dropRasl := if isRap x.codec a then craBegins x a else x.dropRasl }

/-- The picture of the access unit. -/
def auPicture : Picture :=
  { au := a, info := i, sps := (spsInEffect x i).getD {}, concealed := a.lossMark || i.syntaxError
    start := craBegins x a || (isRap x.codec a && !isCra x.codec a) }

end

section
variable {s : State} {n : Nat} {a : AccessUnit} {i : PicInfo}

theorem unsupCause_eq (x : Stream) (i : PicInfo) : (match i.sps with | some p => spsCause x p | none => 0) = unsupCause x i := by
  unfold unsupCause
  cases i.sps <;> rfl

/-- What becomes of an access unit, outcome by outcome. -/
theorem auParsed_eq (s : State) (n : Nat) (a : AccessUnit) (i : PicInfo) : let x := strOf s n
    auParsed s n a i =
      if unsupCause x i ≠ 0 then
        discardAu (raise (wr (setStr s n (streamUnsup x a)) F.VDC_STR_STATE_UNSUP_CODE n 0 (unsupCause x i)) K.VDC_STR_EVENT_UNSUP n) n
      else if !auGoes x a i then discardAu (setStr s n (streamDiscards x a i)) n
      else if x.dropRasl && isRasl x.codec a then
        raise (setStr s n { streamParsed x a with lost := auLost x a }) K.VDC_STR_EVENT_DISCARD n
      else if 2 * i.symbols > x.symSize * 65536 then pictureLost (overrun (setStr s n (streamDecodes x a i)) n 2) n a
      else if (slices x.codec a).isEmpty then setStr s n (streamDecodes x a i)
      else setStr (also i.syntaxError (fun s => raise s K.VDC_STR_EVENT_SYNTAX n) s) n
        { streamDecodes x a i with waiting := x.waiting ++ [auPicture x a i] } := by
  simp only [← unsupCause_eq]
  rfl

theorem auParsed_kept (s : State) (n : Nat) (a : AccessUnit) (i : PicInfo) : AuKept n s (auParsed s n a i) := by
  have parsed {y : Stream} (h : (strOf s n).parsedFrom y) : AuKept n s (setStr s n y) := .of_setStr rfl rfl rfl h
  have unsup := parsed (y := streamUnsup (strOf s n) a) ⟨rfl, rfl, rfl, rfl⟩
  have discards := parsed (y := streamDiscards (strOf s n) a i) ⟨rfl, rfl, rfl, rfl⟩
  have skips := parsed (y := { streamParsed (strOf s n) a with lost := auLost (strOf s n) a }) ⟨rfl, rfl, rfl, rfl⟩
  have decodes := parsed (y := streamDecodes (strOf s n) a i) ⟨rfl, rfl, rfl, rfl⟩
  have joins : AuKept n s (setStr (also i.syntaxError (fun s => raise s K.VDC_STR_EVENT_SYNTAX n) s) n
      { streamDecodes (strOf s n) a i with waiting := (strOf s n).waiting ++ [auPicture (strOf s n) a i] }) := by
    cases i.syntaxError <;> exact .of_setStr rfl rfl rfl ⟨rfl, rfl, rfl, rfl⟩
  rw [auParsed_eq]
  exact .ite unsup.wr.raise.discardAu <| .ite discards.discardAu <| .ite skips.raise <| .ite decodes.overrun.pictureLost <| .ite decodes joins

theorem auParsed_unsup (cause : unsupCause (strOf s n) i ≠ 0) : auParsed s n a i =
    discardAu (raise (wr (setStr s n (streamUnsup (strOf s n) a)) F.VDC_STR_STATE_UNSUP_CODE n 0 (unsupCause (strOf s n) i))
      K.VDC_STR_EVENT_UNSUP n) n := by
  rw [auParsed_eq, if_pos cause]

theorem auParsed_discards (cause : unsupCause (strOf s n) i = 0) (goes : auGoes (strOf s n) a i = false) :
    auParsed s n a i = discardAu (setStr s n (streamDiscards (strOf s n) a i)) n := by
  rw [auParsed_eq, if_neg (not_not.2 cause), if_pos (by rw [goes]; rfl)]

section
variable (cause : unsupCause (strOf s n) i = 0) (goes : auGoes (strOf s n) a i = true) (keeps : (strOf s n).dropRasl = false)
include cause goes keeps

theorem auParsed_overrun (large : 2 * i.symbols > (strOf s n).symSize * 65536) :
    auParsed s n a i = pictureLost (overrun (setStr s n (streamDecodes (strOf s n) a i)) n 2) n a := by
  rw [auParsed_eq, if_neg (not_not.2 cause), if_neg (by simp [goes]), if_neg (by simp [keeps]), if_pos large]

theorem auParsed_joins (fits : 2 * i.symbols ≤ (strOf s n).symSize * 65536) (some_ : (slices (strOf s n).codec a).isEmpty = false) :
    auParsed s n a i = setStr (also i.syntaxError (fun s => raise s K.VDC_STR_EVENT_SYNTAX n) s) n
      { streamDecodes (strOf s n) a i with waiting := (strOf s n).waiting ++ [auPicture (strOf s n) a i] } := by
  rw [auParsed_eq, if_neg (not_not.2 cause), if_neg (by simp [goes]), if_neg (by simp [keeps]), if_neg (not_lt.2 fits), if_neg (by simp [some_])]

end

/-! ### What is shown of it (R196, R197) -/

theorem strOf_discardAu (s : State) (n m : Nat) : strOf (discardAu s n) m = strOf s m := by
  unfold discardAu
  cases (strOf s n).fresh <;> rfl

/-- A new stream counts what it discards. -/
theorem rd_discardAu (fresh : (strOf s n).fresh = true) : rd (discardAu s n) F.VDC_STR_EVENT_DISCARD n = 1 := by
  rw [discardAu, fresh]
  exact rd_raise_stream (k := K.VDC_STR_EVENT_DISCARD) s n

theorem rd_discardAu_event {f : Fld} (hf : f.reg = R.VDC_STR_EVENT) (below : f.lo + f.w ≤ 7) : rd (discardAu s n) f n = rd s f n := by
  unfold discardAu
  cases (strOf s n).fresh
  · rfl
  · exact rd_raise_stream_other (k := K.VDC_STR_EVENT_DISCARD) s n hf rfl rfl (by omega) (.inl below)

theorem rd_discardAu_state {f : Fld} (hf : f.reg = R.VDC_STR_STATE) : rd (discardAu s n) f n = rd s f n := by
  unfold discardAu
  cases (strOf s n).fresh
  · rfl
  · exact rd_raise_stream_state (k := K.VDC_STR_EVENT_DISCARD) s n hf

theorem rd_overrun_flag (s : State) (n cause : Nat) : rd (overrun s n cause) F.VDC_STR_EVENT_OVERRUN n = 1 :=
  rd_raise_stream (k := K.VDC_STR_EVENT_OVERRUN) _ n

theorem rd_overrun_cause (s : State) (n : Nat) {cause : Nat} (h : cause < 8) : rd (overrun s n cause) F.VDC_STR_STATE_LAST_OVR n = cause := by
  rw [overrun, rd_raise_stream_state, rd_wr_same _ _ _ _ _ (by decide)]
  exact Nat.mod_eq_of_lt h

/-- An access unit with an unsupported SPS. -/
theorem auParsed_unsup_effect (cause : unsupCause (strOf s n) i ≠ 0) : let u := auParsed s n a i
    strOf u n = streamUnsup (strOf s n) a ∧ rd u F.VDC_STR_EVENT_UNSUP n = 1 ∧
      rd u F.VDC_STR_STATE_UNSUP_CODE n = unsupCause (strOf s n) i % 16 ∧
      ((strOf s n).fresh = true → rd u F.VDC_STR_EVENT_DISCARD n = 1) := by
  have shown : strOf (raise (wr (setStr s n (streamUnsup (strOf s n) a)) F.VDC_STR_STATE_UNSUP_CODE n 0 (unsupCause (strOf s n) i))
      K.VDC_STR_EVENT_UNSUP n) n = streamUnsup (strOf s n) a := strOf_setStr _ _ _
  rw [auParsed_unsup cause]
  refine ⟨?_, ?_, ?_, fun fresh => rd_discardAu (by rw [shown]; exact fresh)⟩
  · rw [strOf_discardAu, shown]
  · rw [rd_discardAu_event rfl (by decide)]
    exact rd_raise_stream (k := K.VDC_STR_EVENT_UNSUP) _ n
  · rw [rd_discardAu_state rfl, rd_raise_stream_state, rd_wr_same _ _ _ _ _ (by decide)]
    rfl

/-- An access unit that the stream discards. -/
theorem auParsed_discards_effect (cause : unsupCause (strOf s n) i = 0) (goes : auGoes (strOf s n) a i = false) :
    let u := auParsed s n a i
    strOf u n = streamDiscards (strOf s n) a i ∧ ((strOf s n).fresh = true → rd u F.VDC_STR_EVENT_DISCARD n = 1) := by
  rw [auParsed_discards cause goes]
  refine ⟨?_, fun fresh => rd_discardAu ?_⟩
  · rw [strOf_discardAu, strOf_setStr]
  · rw [strOf_setStr]
    exact fresh

section
variable (cause : unsupCause (strOf s n) i = 0) (goes : auGoes (strOf s n) a i = true) (keeps : (strOf s n).dropRasl = false)
include cause goes keeps

/-- An access unit whose symbols need more than half of the buffer. -/
theorem auParsed_overrun_effect (large : 2 * i.symbols > (strOf s n).symSize * 65536) : let u := auParsed s n a i
    rd u F.VDC_STR_EVENT_OVERRUN n = 1 ∧ rd u F.VDC_STR_STATE_LAST_OVR n = 2 ∧ (strOf u n).waiting = (strOf s n).waiting := by
  rw [auParsed_overrun cause goes keeps large, pictureLost, updStr_eq]
  refine ⟨?_, ?_, ?_⟩
  · exact (rd_regs (by rfl) _ _ _).trans (rd_overrun_flag (setStr s n (streamDecodes (strOf s n) a i)) n 2)
  · exact (rd_regs (by rfl) _ _ _).trans (rd_overrun_cause (setStr s n (streamDecodes (strOf s n) a i)) n (by decide))
  · have shown : strOf (overrun (setStr s n (streamDecodes (strOf s n) a i)) n 2) n = streamDecodes (strOf s n) a i := strOf_setStr _ _ _
    rw [strOf_setStr, shown]
    rfl

/-- An access unit whose picture joins those waiting. -/
theorem auParsed_joins_effect (fits : 2 * i.symbols ≤ (strOf s n).symSize * 65536) (some_ : (slices (strOf s n).codec a).isEmpty = false) :
    let u := auParsed s n a i
    strOf u n = { streamDecodes (strOf s n) a i with waiting := (strOf s n).waiting ++ [auPicture (strOf s n) a i] } ∧
      (i.syntaxError = true → rd u F.VDC_STR_EVENT_SYNTAX n = 1) := by
  rw [auParsed_joins cause goes keeps fits some_]
  refine ⟨strOf_setStr _ _ _, fun bad => ?_⟩
  rw [bad]
  exact rd_raise_stream (k := K.VDC_STR_EVENT_SYNTAX) s n

end

/-! ### The end of parsing -/

/-- An access unit parsed, with what its end of sequence does. -/
def auEnded (s : State) (n : Nat) (a : AccessUnit) (i : PicInfo) : State :=
  if endsSequence (strOf s n).codec a then endSequence (auParsed s n a i) n else auParsed s n a i

theorem auEnded_ends (s : State) (n : Nat) (a : AccessUnit) (i : PicInfo) :
    SequenceEnded (endsSequence (strOf s n).codec a) n (auParsed s n a i) (auEnded s n a i) := sequenceEnded_ite _ _ _

theorem execEntropyAuDone_eq {e : Fin 4} (found : (admittedStr s).find? (fun x => x.2.engine == e.val && x.2.parsing.isSome) = some (n, strOf s n))
    (parsing : (strOf s n).parsing = some a) : exec (.entropyAuDone e i) s = .next (showStr (auEnded s n a i) n) := by
  change execEntropyAuDone e i s = _
  unfold execEntropyAuDone
  rw [found]
  dsimp only
  rw [parsing]
  rfl

/-- What an access unit raises is not undone by its end of sequence, nor by showing the stream. -/
theorem rd_auEnded_event {f : Fld} (hn : n < 256) (hf : f.reg = R.VDC_STR_EVENT) :
    rd (showStr (auEnded s n a i) n) f n = rd (auParsed s n a i) f n := by
  have beside : besideAccess (f.reg.addr n 0) := by rw [hf]; exact stream_besideAccess hn
  rw [rd_showStr_event _ _ hf]
  simp only [rd, rdReg, Map.get, (auEnded_ends s n a i).regs _ beside]

theorem rd_auEnded_cause {f : Fld} (hn : n < 256) (hf : f.reg = R.VDC_STR_STATE) (lo : 5 ≤ f.lo) (hi : f.lo + f.w ≤ 12) :
    rd (showStr (auEnded s n a i) n) f n = rd (auParsed s n a i) f n := by
  have beside : besideAccess (f.reg.addr n 0) := by rw [hf]; exact stream_besideAccess hn
  rw [rd_showStr_cause _ _ hf lo hi]
  simp only [rd, rdReg, Map.get, (auEnded_ends s n a i).regs _ beside]

theorem auEnded_waitRap : (strOf (auEnded s n a i) n).waitRap = (strOf (auParsed s n a i) n).waitRap := by rw [(auEnded_ends s n a i).stream]

/-- Where no sequence ends, those waiting are those that parsing leaves. -/
theorem auEnded_waiting (goes_on : endsSequence (strOf s n).codec a = false) :
    (strOf (auEnded s n a i) n).waiting = (strOf (auParsed s n a i) n).waiting := by rw [(auEnded_ends s n a i).goes_on goes_on]

/-- A picture that joins those waiting, the last of its sequence or not. -/
theorem auEnded_joins (cause : unsupCause (strOf s n) i = 0) (goes : auGoes (strOf s n) a i = true) (keeps : (strOf s n).dropRasl = false)
    (fits : 2 * i.symbols ≤ (strOf s n).symSize * 65536) (some_ : (slices (strOf s n).codec a).isEmpty = false) :
    (strOf (auEnded s n a i) n).waiting =
      (strOf s n).waiting ++ [{ auPicture (strOf s n) a i with last := endsSequence (strOf s n).codec a }] := by
  obtain ⟨stream, -⟩ := auParsed_joins_effect cause goes keeps fits some_
  exact (auEnded_ends s n a i).last (by rw [stream]) rfl

theorem auGoes_of (start : (strOf s n).waitRap = false ∨ isRap (strOf s n).codec a = true) (supported : (strOf s n).unsup = false)
    (sps : i.sps.isSome = true ∨ (strOf s n).sps.isSome = true) : auGoes (strOf s n) a i = true := by
  have effect : (spsInEffect (strOf s n) i).isSome = true := by
    unfold spsInEffect
    split
    · assumption
    · exact sps.resolve_left ‹_›
  rw [auGoes, effect, supported]
  rcases start with h | h <;> simp [h]

theorem auGoes_waits (waits : (strOf s n).waitRap = true) (rap : isRap (strOf s n).codec a = false) : auGoes (strOf s n) a i = false := by
  rw [auGoes, waits, rap]
  rfl

end

end Sys2Proof.Machine
end

