-- ==== Sys2Proof/Proofs/PixelEngines.lean ====
section
/-!
Pictures at the pixel engines: the one started, with its buffer and its references (R187, R190 to R192), and what is dropped where no buffer is
free (R177, R185, R190).
-/

namespace Sys2Proof.Machine

/-! ### The picture that is started -/

section
variable (s : State) (n : Nat) (p : Picture)

/-- The state with the marks that precede a picture made. -/
def marksMade : State := setDpb (setStr s n { strOf s n with prevFrameNum := prevNumBefore (strOf s n) p }) n (marksBefore (strOf s n) p)

/-- The buffer free for a picture. -/
def freeBuffer (m : State) : Option Nat := (matchPool m (picFormat p) p.sps.codedW p.sps.codedH).bind (freeIn m)

/-- The references of a picture that the DPB does not hold (R192). -/
def lostRefs : List Int := p.info.refs.filter fun q => !((strOf s n).dpb.any fun b => b.poc == q && b.desc.isSome)

/-- A picture as its engine takes it. -/
def pictureTaken (d e : Nat) : Picture :=
  { p with desc := d, pixel := e, concealed := p.concealed || !(lostRefs s n p).isEmpty
           standIns := (lostRefs s n p).map fun q => (q, (nearestRef (strOf s n).dpb p).bind (·.desc)) }

/-- Its buffer taken, its missing references noted. -/
def refsNoted (d : Nat) : State :=
  also (!(lostRefs s n p).isEmpty) (fun s => raise s K.VDC_STR_EVENT_REF_MISSING n)
    (setDesc s d { descOf s d with st := .filling, ownerHost := false })

/-- The picture in reconstruction. -/
def pictureStarted (rest : List Picture) (d e : Nat) : State :=
  updStr (refsNoted s n p d) n fun x => { x with waiting := rest, recon := some (pictureTaken s n p d e, e) }

theorem marksMade_mem : (marksMade s n p).mem = s.mem := setDpb_mem _ _ _

theorem rd_marksMade (f : Fld) (i : Nat) : rd (marksMade s n p) f i = rd s f i := rd_setDpb _ _ _ f i

theorem strOf_marksMade_ne {m : Nat} (ne : m ≠ n) : strOf (marksMade s n p) m = strOf s m := by
  rw [marksMade, strOf_setDpb_ne _ _ _ ne, strOf_setStr_ne _ _ ne]

/-- The stream with the marks made, in what does not change. -/
theorem strOf_marksMade : ∃ dpb, strOf (marksMade s n p) n = { strOf s n with prevFrameNum := prevNumBefore (strOf s n) p, dpb := dpb } := by
  rw [marksMade, strOf_setDpb, strOf_setStr]
  exact ⟨_, rfl⟩

end

section
variable {e : Fin 4} {s : State} {n : Nat} {p : Picture} {rest : List Picture}

/-- What an engine does with the waiting picture that it takes, once the marks before it are made. -/
def pictureMet (s : State) (n : Nat) (p : Picture) (rest : List Picture) (e : Nat) : State :=
  let r := takeBuffer s (picFormat p) p.sps.codedW p.sps.codedH
  match r.2 with
  | none => showStr (dropWaiting (raise r.1 K.VDC_STR_EVENT_NO_BUF n) n p) n
  | some d =>
    showStr (updStr (also (!(lostRefs s n p).isEmpty) (fun s => raise s K.VDC_STR_EVENT_REF_MISSING n) r.1) n fun x =>
      { x with waiting := rest, recon := some (pictureTaken s n p d e, e) }) n

theorem pictureMet_starts {d : Nat} (e : Nat) (free : freeBuffer p s = some d) :
    pictureMet s n p rest e = showStr (pictureStarted s n p rest d e) n := by
  rcases takeBuffer_cases s (picFormat p) p.sps.codedW p.sps.codedH with ⟨none_, -⟩ | ⟨d', found, taken⟩
  · exact absurd (none_.symm.trans free) nofun
  · obtain rfl : d' = d := Option.some.inj (found.symm.trans free)
    rw [pictureMet, taken]
    rfl

theorem pictureMet_drops (e : Nat) (free : freeBuffer p s = none) : pictureMet s n p rest e =
    showStr (dropWaiting (raise (raise s K.EAS_EVENT_POOL_EMPTY) K.VDC_STR_EVENT_NO_BUF n) n p) n := by
  rcases takeBuffer_cases s (picFormat p) p.sps.codedW p.sps.codedH with ⟨-, empty⟩ | ⟨d', found, -⟩
  · rw [pictureMet, empty]
  · exact absurd (free.symm.trans found) nofun

theorem execPixelEngineStart_eq (idle : (admittedStr s).any (fun x => x.2.recon.any fun r => r.2 == e.val) = false)
    (first : earliest (pixelReady s) (fun n => ((strOf s n).waiting.head?.map (·.au.arrival)).getD 0) = some n)
    (waiting : (strOf s n).waiting = p :: rest) :
    exec (.pixelEngineStart e) s = .next (pictureMet (marksMade s n p) n p rest e.val) := by
  change execPixelEngineStart e s = _
  unfold execPixelEngineStart
  rw [if_neg (by rw [idle]; decide), first]
  dsimp only
  split
  · next none_ => exact absurd (none_.symm.trans waiting) nofun
  · next q t wait =>
    obtain ⟨rfl, rfl⟩ := List.cons.inj (wait.symm.trans waiting)
    rw [marksMade]
    generalize setDpb (setStr s n { strOf s n with prevFrameNum := prevNumBefore (strOf s n) q }) n (marksBefore (strOf s n) q) = m
    unfold pictureMet pictureTaken lostRefs
    dsimp only
    generalize takeBuffer m (picFormat q) q.sps.codedW q.sps.codedH = r
    obtain ⟨u, _ | d⟩ := r
    · rfl
    · rfl

/-! ### What the start of a picture shows -/

theorem refsNoted_none {d : Nat} (h : lostRefs s n p = []) :
    refsNoted s n p d = setDesc s d { descOf s d with st := .filling, ownerHost := false } := by
  rw [refsNoted, h]
  rfl

theorem refsNoted_some {d : Nat} (h : lostRefs s n p ≠ []) : refsNoted s n p d =
    raise (setDesc s d { descOf s d with st := .filling, ownerHost := false }) K.VDC_STR_EVENT_REF_MISSING n := by
  rw [refsNoted, List.isEmpty_eq_false_iff.2 h]
  rfl

theorem refsNoted_vdc (d : Nat) : (refsNoted s n p d).vdc = s.vdc := by
  by_cases h : lostRefs s n p = []
  · rw [refsNoted_none h, setDesc_vdc]
  · rw [refsNoted_some h, raise_vdc, setDesc_vdc]

theorem refsNoted_eas (d : Nat) : (refsNoted s n p d).eas = (setDesc s d { descOf s d with st := .filling, ownerHost := false }).eas := by
  by_cases h : lostRefs s n p = []
  · rw [refsNoted_none h]
  · rw [refsNoted_some h, raise_eas]

theorem refsNoted_mem (d : Nat) : (refsNoted s n p d).mem = s.mem := by
  by_cases h : lostRefs s n p = []
  · rw [refsNoted_none h, setDesc_mem]
  · rw [refsNoted_some h, raise_mem, setDesc_mem]

theorem strOf_pictureStarted (d e : Nat) : strOf (pictureStarted s n p rest d e) n =
    { strOf s n with waiting := rest, recon := some (pictureTaken s n p d e, e) } := by
  rw [pictureStarted, updStr_eq, strOf_setStr, strOf_vdc (refsNoted_vdc d)]

theorem strOf_pictureStarted_ne {m : Nat} (d e : Nat) (ne : m ≠ n) : strOf (pictureStarted s n p rest d e) m = strOf s m := by
  rw [pictureStarted, updStr_eq, strOf_setStr_ne _ _ ne, strOf_vdc (refsNoted_vdc d)]

theorem descOf_pictureStarted (d e : Nat) : (descOf (pictureStarted s n p rest d e) d).st = .filling := by
  have eas : (pictureStarted s n p rest d e).eas = (setDesc s d { descOf s d with st := .filling, ownerHost := false }).eas := refsNoted_eas d
  rw [descOf_eas eas, descOf_setDesc]

theorem rd_pictureStarted (f : Fld) (d e i : Nat) : rd (pictureStarted s n p rest d e) f i = rd (refsNoted s n p d) f i := rd_regs rfl f i 0

/-- A missing reference raises REF_MISSING; where none is, the flag stays. -/
theorem rd_pictureStarted_missing (d e : Nat) : let u := pictureStarted s n p rest d e
    (lostRefs s n p ≠ [] → rd u F.VDC_STR_EVENT_REF_MISSING n = 1) ∧
      (lostRefs s n p = [] → rd u F.VDC_STR_EVENT_REF_MISSING n = rd s F.VDC_STR_EVENT_REF_MISSING n) := by
  refine ⟨fun some_ => ?_, fun none_ => ?_⟩
  · rw [rd_pictureStarted, refsNoted_some some_]
    exact rd_raise_stream (k := K.VDC_STR_EVENT_REF_MISSING) _ n
  · rw [rd_pictureStarted, refsNoted_none none_]
    rfl

/-! ### Pictures dropped for want of a buffer (R177, R185, R190) -/

/-- What leaves with a CRA was waiting. -/
theorem mem_of_mem_dropLeading {codec : Nat} {l : List Picture} {q : Picture} (h : q ∈ (dropLeading codec l).2) : q ∈ l := by
  unfold dropLeading at h
  dsimp only at h
  split at h
  · exact absurd h List.not_mem_nil
  · next c t after =>
    split at h
    · exact absurd h List.not_mem_nil
    · have own : q ∈ t := (List.takeWhile_subset _) (List.mem_of_mem_filter h)
      have tail : q ∈ l.drop (l.takeWhile fun q => !isRap codec q.au).length := by
        rw [after]
        exact List.mem_cons_of_mem _ own
      exact List.mem_of_mem_drop tail

/-- The waiting pictures that the loss of the first one leaves (R185). -/
def keptWaiting (codec : Nat) (p : Picture) (w : List Picture) : List Picture :=
  if isReference codec p.au then w.dropWhile fun q => !isRap codec q.au else w

theorem keptWaiting_subset (codec : Nat) (p : Picture) (w : List Picture) : keptWaiting codec p w ⊆ w := by
  unfold keptWaiting
  split
  · exact List.dropWhile_subset _
  · exact List.Subset.refl _

/-- The stream without its first waiting picture and those lost with it. -/
def streamDrops (x : Stream) (p : Picture) (rest : List Picture) : Stream :=
  let kept := keptWaiting x.codec p rest
  let raps := kept.filter fun q => isRap x.codec q.au
  { x with waiting := (dropLeading x.codec kept).1, waitRap := x.waitRap || (isReference x.codec p.au && kept.isEmpty)
           lost := x.lost || raps.isEmpty
           dropRasl := if raps.length = 1 then x.dropRasl || raps.any (fun q => isCra x.codec q.au) else x.dropRasl }

/-- The stream's pictures dropped, and each leading picture counted. -/
def picturesLost (s : State) (n : Nat) (p : Picture) (rest : List Picture) : State :=
  each (dropLeading (strOf s n).codec (keptWaiting (strOf s n).codec p rest)).2 (fun s _ => raise s K.VDC_STR_EVENT_DISCARD n)
    (setStr s n (streamDrops (strOf s n) p rest))

/-- An end of sequence stands among those dropped. -/
def endLost (s : State) (n : Nat) (p : Picture) (rest : List Picture) : Bool :=
  let kept := keptWaiting (strOf s n).codec p rest
  (p :: rest.take (rest.length - kept.length) ++ (dropLeading (strOf s n).codec kept).2).any (·.last)

theorem dropWaiting_eq (waiting : (strOf s n).waiting = p :: rest) :
    dropWaiting s n p = if endLost s n p rest then putOut 0 (picturesLost s n p rest) n else picturesLost s n p rest := by
  have tail : (strOf s n).waiting.tail = rest := by rw [waiting]; rfl
  unfold dropWaiting
  dsimp only
  rw [tail]
  rfl

theorem endLost_false (h : ∀ q ∈ p :: rest, q.last = false) : endLost s n p rest = false := by
  rw [endLost]
  refine List.any_eq_false.2 fun q hq => ?_
  rw [h q ?_]
  · decide
  · rw [List.mem_append, List.mem_cons] at hq
    rcases hq with (rfl | taken) | led
    · exact List.mem_cons_self
    · exact List.mem_cons_of_mem _ (List.mem_of_mem_take taken)
    · exact List.mem_cons_of_mem _ (keptWaiting_subset _ _ _ (mem_of_mem_dropLeading led))

/-- From `s` to `t` registers beside the stream's events, and interrupts, alone change. -/
theorem picturesLost_marks (s : State) (n : Nat) (p : Picture) (rest : List Picture) :
    marks (setStr s n (streamDrops (strOf s n) p rest)) (picturesLost s n p rest) :=
  each_keeps (marks (setStr s n (streamDrops (strOf s n) p rest))) _ _ (fun _ _ _ k => marks_trans k (marks_raise _ _ _)) _ (marks_refl _)

theorem picturesLost_vdc (s : State) (n : Nat) (p : Picture) (rest : List Picture) :
    (picturesLost s n p rest).vdc = (setStr s n (streamDrops (strOf s n) p rest)).vdc := by
  obtain ⟨⟨r, b, v, e⟩, -⟩ := picturesLost_marks s n p rest
  rw [e]

theorem picturesLost_eas (s : State) (n : Nat) (p : Picture) (rest : List Picture) : (picturesLost s n p rest).eas = s.eas := by
  obtain ⟨⟨r, b, v, e⟩, -⟩ := picturesLost_marks s n p rest
  rw [e]
  rfl

theorem picturesLost_mem (s : State) (n : Nat) (p : Picture) (rest : List Picture) : (picturesLost s n p rest).mem = s.mem :=
  (marks_mem (picturesLost_marks s n p rest)).trans rfl

theorem strOf_picturesLost (s : State) (n : Nat) (p : Picture) (rest : List Picture) :
    strOf (picturesLost s n p rest) n = streamDrops (strOf s n) p rest := by
  rw [strOf_vdc (picturesLost_vdc s n p rest), strOf_setStr]

/-- A field that no DISCARD of the stream writes. -/
theorem rd_picturesLost {f : Fld} {i : Nat} (h : ∀ u, rd (raise u K.VDC_STR_EVENT_DISCARD n) f i = rd u f i) :
    rd (picturesLost s n p rest) f i = rd s f i :=
  each_field (setStr s n (streamDrops (strOf s n) p rest)) (fun t => rd t f i) _ _ fun u _ => h u

theorem rd_discard_noBuf (u : State) (n : Nat) :
    rd (raise u K.VDC_STR_EVENT_DISCARD n) F.VDC_STR_EVENT_NO_BUF n = rd u F.VDC_STR_EVENT_NO_BUF n :=
  rd_raise_stream_other (k := K.VDC_STR_EVENT_DISCARD) u n

/-- The Easel's registers stand above the decoder's. -/
theorem rd_raise_poolEmpty {k : Flag} (u : State) (hn : n < 256) (hr : k.fld.reg = R.VDC_STR_EVENT := by rfl)
    (hcnt : k.cnt.reg = R.VDC_STR_EVENT_CNT := by rfl) : rd (raise u k n) F.EAS_EVENT_POOL_EMPTY = rd u F.EAS_EVENT_POOL_EMPTY := by
  have event : R.VDC_STR_EVENT.addr n 0 = 0x1010084 + n * 0x100 := by simp [Reg.addr, R.VDC_STR_EVENT]
  have count : R.VDC_STR_EVENT_CNT.addr n 0 = 0x1010088 + n * 0x100 := by simp [Reg.addr, R.VDC_STR_EVENT_CNT]
  have pool : 0x1020000 ≤ F.EAS_EVENT_POOL_EMPTY.reg.addr 0 0 := by decide
  refine rd_raise_reg _ _ _ _ _ _ ?_ ?_
  · rw [hr]
    omega
  · rw [hcnt]
    omega

/-- What the loss of the first waiting picture leaves. -/
theorem dropWaiting_effect (hn : n < 256) (waiting : (strOf s n).waiting = p :: rest) : let t := dropWaiting s n p
    (strOf t n).waiting = (dropLeading (strOf s n).codec (keptWaiting (strOf s n).codec p rest)).1 ∧
      (strOf t n).recon = (strOf s n).recon ∧
      (strOf t n).waitRap = ((strOf s n).waitRap || (isReference (strOf s n).codec p.au && (keptWaiting (strOf s n).codec p rest).isEmpty)) ∧
      rd t F.VDC_STR_EVENT_NO_BUF n = rd s F.VDC_STR_EVENT_NO_BUF n ∧ rd t F.EAS_EVENT_POOL_EMPTY = rd s F.EAS_EVENT_POOL_EMPTY ∧
      ((∀ q ∈ p :: rest, q.last = false) → t.eas = s.eas ∧ t.mem = s.mem) := by
  have stream := strOf_picturesLost s n p rest
  have buf : rd (picturesLost s n p rest) F.VDC_STR_EVENT_NO_BUF n = rd s F.VDC_STR_EVENT_NO_BUF n := rd_picturesLost fun u => rd_discard_noBuf u n
  have pool : rd (picturesLost s n p rest) F.EAS_EVENT_POOL_EMPTY = rd s F.EAS_EVENT_POOL_EMPTY :=
    rd_picturesLost fun u => rd_raise_poolEmpty (k := K.VDC_STR_EVENT_DISCARD) u hn
  have out : OutputKept n (picturesLost s n p rest) (dropWaiting s n p) := by
    rw [dropWaiting_eq waiting]
    split
    · exact putOut_kept _ _ _
    · exact .refl n _
  refine ⟨?_, ?_, ?_, ?_, ?_, fun going => ?_⟩
  · rw [out.stream, stream]
    rfl
  · rw [out.stream, stream]
    rfl
  · rw [out.stream, stream]
    rfl
  · rw [out.rd_eq (stream_besideAccess hn), buf]
  · rw [out.rd_eq (by decide), pool]
  · rw [dropWaiting_eq waiting, endLost_false going]
    exact ⟨picturesLost_eas s n p rest, picturesLost_mem s n p rest⟩

theorem keptWaiting_reference {codec : Nat} (h : isReference codec p.au = true) :
    keptWaiting codec p rest = rest.dropWhile fun q => !isRap codec q.au := if_pos h

theorem keptWaiting_other {codec : Nat} (h : isReference codec p.au = false) : keptWaiting codec p rest = rest :=
  if_neg (by rw [h]; decide)

/-- A reference picture takes all after it where none is a RAP. -/
theorem keptWaiting_empty {codec : Nat} (h : isReference codec p.au = true) (none_ : ∀ q ∈ rest, isRap codec q.au = false) :
    keptWaiting codec p rest = [] := by
  rw [keptWaiting_reference h, List.dropWhile_eq_nil_iff]
  intro q hq
  rw [none_ q hq]
  rfl

end

end Sys2Proof.Machine
end

