-- ==== Sys2Proof/Proofs/Reconstruction.lean ====
section
/-!
The end of a picture's reconstruction: its lines and seals written (R178, R192), its marks made (R191), and what is put out after it (R188, R193).
-/

namespace Sys2Proof.Machine

/-! ### The accesses of a pixel engine (R178, R192) -/

/-- From `s` to `t` accesses of hardware masters alone, which leave the decoder's own state. -/
structure PixelAccesses (s t : State) : Prop where
  kept : PathKept s t
  vdc : t.vdc = s.vdc

section
variable {s t : State} {m : Nat}

protected theorem PixelAccesses.refl (s : State) : PixelAccesses s s := ⟨.refl s, rfl⟩

protected theorem PixelAccesses.trans {u : State} (h : PixelAccesses s t) (k : PixelAccesses t u) : PixelAccesses s u :=
  ⟨h.kept.trans k.kept, k.vdc.trans h.vdc⟩

protected theorem PixelAccesses.foldl {α β : Type} {p : β → State} {f : β → α → β} {l : List α} {b : β} (h : PixelAccesses s (p b))
    (hf : ∀ b a, PixelAccesses (p b) (p (f b a))) : PixelAccesses s (p (l.foldl f b)) := by
  induction l generalizing b with
  | nil => exact h
  | cons a l ih => exact ih (h.trans (hf b a))

theorem readRef_accesses (s : State) (m fmt : Nat) (place : Option Place) (k y o n : Nat) : PixelAccesses s (readRef s m fmt place k y o n).1 := by
  cases place with
  | none => exact .refl s
  | some p => exact ⟨busRead_kept _ _ _ _, busRead_vdc _ _ _ _⟩

theorem concealLine_accesses (s : State) (m fmt : Nat) (place : Option Place) (missing : List (Nat × Nat × Nat × Nat)) (k y w : Nat)
    (line : List Byte) : PixelAccesses s (concealLine s m fmt place missing k y w line).1 := by
  refine PixelAccesses.foldl (p := Prod.fst) (.refl s) fun b a => ?_
  generalize (if k = 0 then 1 else 2) = v
  dsimp only
  split
  · exact .refl _
  · exact readRef_accesses _ _ _ _ _ _ _ _

theorem readStandIns_accesses (s : State) (m : Nat) (p : Picture) : PixelAccesses s (readStandIns s m p).1 :=
  PixelAccesses.foldl (p := Prod.fst) (.refl s) fun b _ =>
    PixelAccesses.foldl (p := Prod.fst) (b := (b.1, [])) (.refl _) fun _ _ => readRef_accesses _ _ _ _ _ _ _ _

theorem picLines_accesses (s : State) (m : Nat) (p : Picture) (x : Stream) (r : Recon) : PixelAccesses s (picLines s m p x r).1 :=
  PixelAccesses.foldl (p := Prod.fst) (b := ((readStandIns s m p).1, [])) (readStandIns_accesses s m p) fun _ _ =>
    concealLine_accesses _ _ _ _ _ _ _ _ _

theorem writeLines_accesses (s : State) (m : Nat) (p : Place) (lines : List (Nat × Nat × List Byte)) : PixelAccesses s (writeLines s m p lines) :=
  ⟨writeLines_kept s m p lines, writeLines_vdc s m p lines⟩

theorem sealRow_accesses (s : State) (m : Nat) (p : Place) (dom ident seq r : Nat) (lines : List (Nat × Nat × List Byte)) :
    PixelAccesses s (sealRow s m p dom ident seq r lines) := ⟨sealRow_kept _ _ _ _ _ _ _ _, sealRow_vdc _ _ _ _ _ _ _ _⟩

end

/-! ### The picture written (R53, R178) -/

section
variable (s : State) (m : Nat) (p : Picture) (x : Stream) (r : Recon)

/-- The frame of a picture, but for its content. -/
def pictureFrame : Frame :=
  { format := picFormat p, width := cropW p.sps, height := cropH p.sps, origin := 2, rap := isRap x.codec p.au, source := x.src
    capture := p.au.capture, ptpStamp := p.au.ptpStamp, allow := p.au.allow }

/-- The frame of a picture with its content. -/
def contentFrame : Frame :=
  { pictureFrame p x with
    content := contentOf ((upto (tileRows (pictureFrame p x).height)).foldl
      (fun k row => contentRow k (placeIn s p.desc (pictureFrame p x)) row (picLines s m p x r).2) 0xFFFFFFFF) }

/-- The picture's lines and seals written. -/
def pictureWritten : State :=
  (upto (tileRows (pictureFrame p x).height)).foldl
    (fun u row => sealRow u m (placeIn s p.desc (pictureFrame p x)) domSource x.src 0 row (picLines s m p x r).2)
    (writeLines (picLines s m p x r).1 m (placeIn s p.desc (pictureFrame p x)) (picLines s m p x r).2)

theorem pictureWritten_accesses : PixelAccesses s (pictureWritten s m p x r) :=
  PixelAccesses.foldl (p := id) ((picLines_accesses s m p x r).trans (writeLines_accesses _ _ _ _)) fun _ _ => sealRow_accesses _ _ _ _ _ _ _ _

end

/-! ### What follows the writing -/

section
variable (s : State) (n : Nat) (p : Picture) (f : Frame) (hidden rap : Bool)

/-- The picture leaves its engine, and its concealment is noted. -/
def pictureLeaves : State :=
  updStr (also hidden (fun s => raise s K.VDC_STR_EVENT_CONCEAL n) s) n fun y => { y with recon := none }

/-- What a RAP does to the pictures awaiting output. -/
def rapOutput : State :=
  if rap && p.info.noOutput then dropOutput s n else if rap then putOut 0 s n else s

/-- The picture awaits output. -/
def pictureAwaits : State :=
  updStr s n fun y => { y with taint := if hidden then true else if rap then false else y.taint, done := insertPic p y.done }

/-- The picture as it awaits output. -/
def pictureDone : Picture := outputOrder (strOf s n) { p with concealed := hidden, frame := f }

/-- The number of pictures that may wait after the picture. -/
def outputLimit : Nat := if p.last then 0 else reorderLimit p.sps

/-- A picture that awaits output, its marks made and what goes out after it put out. -/
def pictureEnded : State :=
  putOut (outputLimit p) (marksAfter (pictureAwaits s n p hidden rap) n p) n

/-- All that follows the writing of a picture. -/
def reconEnded : State :=
  pictureEnded (rapOutput (pictureLeaves s n hidden) n p rap) n (pictureDone (rapOutput (pictureLeaves s n hidden) n p rap) n p f hidden) hidden rap

end

section
variable {e : Fin 4} {r : Recon} {s : State} {n k : Nat} {p : Picture}

/-- The picture, or a block of it, was concealed. -/
def pictureHidden (p : Picture) (r : Recon) : Bool := p.concealed || !r.missing.isEmpty

theorem execReconDone_eq (found : (admittedStr s).find? (fun x => x.2.recon.any fun r => r.2 == e.val) = some (n, strOf s n))
    (recon : (strOf s n).recon = some (p, k)) (runs : accessWaits s (68 + k) = false) :
    exec (.reconDone e r) s = .next (showStr (reconEnded (pictureWritten s (68 + k) p (strOf s n) r) n p (contentFrame s (68 + k) p (strOf s n) r)
      (pictureHidden p r) (isRap (strOf s n).codec p.au)) n) := by
  change execReconDone e r s = _
  unfold execReconDone
  rw [found]
  dsimp only
  rw [recon]
  dsimp only
  rw [if_neg (by rw [runs]; decide)]
  rfl

end

/-! ### The picture as it awaits output (R188) -/

section
variable (s : State) (n : Nat) (p : Picture) (f : Frame) (hidden : Bool)

/-- Its place in output order alone is new. -/
theorem pictureDone_eq : ∃ era order, pictureDone s n p f hidden = { p with concealed := hidden, frame := f, era := era, order := order } := by
  unfold pictureDone outputOrder
  split
  · exact ⟨_, _, rfl⟩
  · exact ⟨_, _, rfl⟩

end

/-! ### What a RAP puts out, or discards (R188) -/

/-- From `s` to `t` stream `n` changes in its pictures awaiting output alone, with no concealment noted; where none await output, no publication
is requested. -/
structure OutputLeft (n : Nat) (s t : State) : Prop where
  others : ∀ m, m ≠ n → strOf t m = strOf s m
  stream : strOf t n = { strOf s n with done := (strOf t n).done }
  conceal : rd t F.VDC_STR_EVENT_CONCEAL n = rd s F.VDC_STR_EVENT_CONCEAL n
  idle : (strOf s n).done = [] → t.eas.requests = s.eas.requests ∧ (strOf t n).done = []

section
variable {s : State} {n : Nat}

/-- A picture that awaits output discarded; one still marked keeps its buffer. -/
def outputDropped (x : Stream) (n : Nat) (s : State) (q : Picture) : State :=
  if x.dpb.any fun b => b.desc == some q.desc then raise s K.VDC_STR_EVENT_DISCARD n
  else abandonBuffer (raise s K.VDC_STR_EVENT_DISCARD n) q.desc

theorem dropOutput_eq (s : State) (n : Nat) : dropOutput s n = each (strOf s n).done (outputDropped (strOf s n) n) (withDone s n []) := rfl

theorem outputDropped_vdc (x : Stream) (n : Nat) (s : State) (q : Picture) : (outputDropped x n s q).vdc = s.vdc := by
  unfold outputDropped
  split
  · rw [raise_vdc]
  · rw [abandonBuffer_eq, setDesc_vdc, raise_vdc]

theorem outputDropped_conceal (x : Stream) (n : Nat) (s : State) (q : Picture) :
    rd (outputDropped x n s q) F.VDC_STR_EVENT_CONCEAL n = rd s F.VDC_STR_EVENT_CONCEAL n := by
  have discarded : rd (raise s K.VDC_STR_EVENT_DISCARD n) F.VDC_STR_EVENT_CONCEAL n = rd s F.VDC_STR_EVENT_CONCEAL n :=
    rd_raise_stream_other (k := K.VDC_STR_EVENT_DISCARD) s n
  unfold outputDropped
  split
  · exact discarded
  · rw [abandonBuffer_eq]
    exact (rd_regs (setDesc_regs _ _ _) _ _ _).trans discarded

theorem dropOutput_left (s : State) (n : Nat) : OutputLeft n s (dropOutput s n) := by
  have vdc : (dropOutput s n).vdc = (withDone s n []).vdc := each_field _ State.vdc _ _ (outputDropped_vdc _ n)
  have stream : strOf (dropOutput s n) n = { strOf s n with done := [] } := by rw [strOf_vdc vdc, strOf_withDone]
  refine ⟨fun m ne => ?_, by rw [stream], ?_, fun none_ => ⟨?_, by rw [stream]⟩⟩
  · rw [strOf_vdc vdc, withDone, strOf_setStr_ne _ _ ne]
  · exact each_field (withDone s n []) (fun t => rd t F.VDC_STR_EVENT_CONCEAL n) _ _ (outputDropped_conceal _ n)
  · rw [dropOutput_eq, none_]
    rfl

theorem putOut_left (hn : n < 256) (s : State) : OutputLeft n s (putOut 0 s n) := by
  have out := putOut_kept 0 s n
  refine ⟨out.others, out.stream, out.rd_eq (stream_besideAccess hn), fun none_ => ⟨?_, putOut_empty s n⟩⟩
  rw [putOut_idle (by rw [none_]; rfl)]

theorem rapOutput_left (hn : n < 256) (s : State) (p : Picture) (rap : Bool) : OutputLeft n s (rapOutput s n p rap) := by
  unfold rapOutput
  split
  · exact dropOutput_left s n
  · split
    · exact putOut_left hn s
    · exact ⟨fun _ _ => rfl, rfl, rfl, fun none_ => ⟨rfl, none_⟩⟩

end

/-! ### The marks that follow a picture (R191) -/

/-- From `s` to `t` marks of stream `n` alone change. -/
structure MarksFollow (n : Nat) (s t : State) : Prop where
  others : ∀ m, m ≠ n → strOf t m = strOf s m
  regs : t.regs = s.regs
  requests : t.eas.requests = s.eas.requests
  stream : strOf t n = { strOf s n with dpb := (strOf t n).dpb, maxLong := (strOf t n).maxLong, prevFrameNum := (strOf t n).prevFrameNum
                                        era := (strOf t n).era }

section
variable {s : State} {n : Nat} {p : Picture}

/-- The mark of a picture itself. -/
def pictureMark (p : Picture) : DpbPic :=
  { poc := p.info.poc, desc := some p.desc, frameNum := p.info.frameNum, format := picFormat p, width := p.sps.codedW, height := p.sps.codedH }

/-- The marking of an H.264 reference picture. -/
def avcFollows (x : Stream) (p : Picture) : Marks := avcMarks p.sps p.start p.info x.dpb x.maxLong

/-- The mark of an H.264 reference picture itself. -/
def avcMark (x : Stream) (p : Picture) : DpbPic :=
  let k := avcFollows x p
  { pictureMark p with long := k.long, poc := if k.reset then 0 else p.info.poc, frameNum := if k.reset then 0 else p.info.frameNum }

/-- The stream with the numbers that the marking of an H.264 reference picture leaves. -/
def avcStream (x : Stream) (p : Picture) : Stream :=
  { x with maxLong := (avcFollows x p).maxLong, prevFrameNum := (avcMark x p).frameNum, era := x.era + bit (avcFollows x p).reset }

theorem marksAfter_hevc (h : (strOf s n).codec = 1) : marksAfter s n p = setDpb s n ((strOf s n).dpb ++ [pictureMark p]) := by
  rw [marksAfter, if_pos h]
  rfl

theorem marksAfter_other (h : (strOf s n).codec ≠ 1) (ref : isReference (strOf s n).codec p.au = false) : marksAfter s n p = s := by
  rw [marksAfter, if_neg h, if_pos (by rw [ref]; rfl)]

theorem marksAfter_avc (h : (strOf s n).codec ≠ 1) (ref : isReference (strOf s n).codec p.au = true) : marksAfter s n p =
    setDpb (setStr s n (avcStream (strOf s n) p)) n ((avcFollows (strOf s n) p).pics ++ [avcMark (strOf s n) p]) := by
  rw [marksAfter, if_neg h, if_neg (by rw [ref]; decide)]
  rfl

/-- The pictures that the marking of a picture leaves beside it. -/
def marksLeft (x : Stream) (p : Picture) : List DpbPic := if x.codec = 1 then x.dpb else (avcFollows x p).pics

theorem marksAfter_follow (s : State) (n : Nat) (p : Picture) : MarksFollow n s (marksAfter s n p) := by
  by_cases hevc : (strOf s n).codec = 1
  · rw [marksAfter_hevc hevc]
    exact ⟨fun m ne => strOf_setDpb_ne _ _ _ ne, setDpb_regs _ _ _, setDpb_requests _ _ _, by rw [strOf_setDpb]⟩
  · cases ref : isReference (strOf s n).codec p.au
    · rw [marksAfter_other hevc ref]
      exact ⟨fun _ _ => rfl, rfl, rfl, rfl⟩
    · rw [marksAfter_avc hevc ref]
      exact ⟨fun m ne => (strOf_setDpb_ne _ _ _ ne).trans (strOf_setStr_ne _ _ ne), setDpb_regs _ _ _, setDpb_requests _ _ _,
        by rw [strOf_setDpb, strOf_setStr]; rfl⟩

/-- A picture with a mark: those that its marking leaves, and itself, stay in the DPB at most, DPB_MAX of them. -/
theorem marksAfter_dpb (marked : (strOf s n).codec = 1 ∨ isReference (strOf s n).codec p.au = true) :
    (∀ b ∈ (strOf (marksAfter s n p) n).dpb, b.desc = some p.desc ∨ b ∈ marksLeft (strOf s n) p) ∧
      (strOf (marksAfter s n p) n).dpb.length ≤ max 1 (strOf s n).dpbMax := by
  have joined {l : List DpbPic} {own b : DpbPic} (h : b ∈ l ++ [own]) (hown : own.desc = some p.desc) : b.desc = some p.desc ∨ b ∈ l := by
    rcases List.mem_append.1 h with before | self
    · exact .inr before
    · exact .inl (List.mem_singleton.1 self ▸ hown)
  by_cases hevc : (strOf s n).codec = 1
  · rw [marksAfter_hevc hevc, strOf_setDpb, marksLeft, if_pos hevc]
    exact ⟨fun b hb => joined (mem_of_mem_keptMarks _ _ _ hb) rfl, keptMarks_length _ _ _⟩
  · rw [marksAfter_avc hevc (marked.resolve_left hevc), strOf_setDpb, marksLeft, if_neg hevc]
    refine ⟨fun b hb => joined (mem_of_mem_keptMarks _ _ _ hb) rfl, (keptMarks_length _ _ _).trans ?_⟩
    rw [strOf_setStr]
    exact Nat.le_refl _

end

end Sys2Proof.Machine
end

