-- ==== Sys2Proof/Proofs/ReconstructionEnd.lean ====
section
/-!
What the end of a picture's reconstruction leaves: its stream, its marks, and its place in output (R187 to R194).
-/

namespace Sys2Proof.Machine

section
variable {s : State} {n : Nat} {p : Picture} {f : Frame} {hidden rap : Bool}

/-! ### The picture leaves its engine -/

theorem strOf_pictureLeaves : strOf (pictureLeaves s n hidden) n = { strOf s n with recon := none } := by
  rw [pictureLeaves, updStr_eq, strOf_setStr]
  cases hidden <;> rfl

theorem strOf_pictureLeaves_ne {m : Nat} (ne : m ≠ n) : strOf (pictureLeaves s n hidden) m = strOf s m := by
  rw [pictureLeaves, updStr_eq, strOf_setStr_ne _ _ ne]
  cases hidden <;> rfl

theorem pictureLeaves_eas : (pictureLeaves s n hidden).eas = s.eas := by cases hidden <;> rfl

theorem pictureLeaves_conceal (s : State) (n : Nat) : rd (pictureLeaves s n true) F.VDC_STR_EVENT_CONCEAL n = 1 := by
  rw [pictureLeaves, updStr_eq]
  exact (rd_regs (by rfl) _ _ _).trans (rd_raise_stream (k := K.VDC_STR_EVENT_CONCEAL) s n)

/-! ### The picture awaits output -/

/-- A stream's TAINT after a picture (R193). -/
def taintAfter (x : Stream) (hidden rap : Bool) : Bool := hidden || (!rap && x.taint)

theorem strOf_pictureAwaits : strOf (pictureAwaits s n p hidden rap) n =
    { strOf s n with taint := taintAfter (strOf s n) hidden rap, done := insertPic p (strOf s n).done } := by
  rw [pictureAwaits, updStr_eq, strOf_setStr, taintAfter]
  cases hidden <;> cases rap <;> rfl

theorem strOf_pictureAwaits_ne {m : Nat} (ne : m ≠ n) : strOf (pictureAwaits s n p hidden rap) m = strOf s m := by
  rw [pictureAwaits, updStr_eq, strOf_setStr_ne _ _ ne]

end

section
variable (s : State) (n : Nat) (p : Picture) (f : Frame) (hidden rap : Bool)

/-- The state in which the picture joins those that await output. -/
def reconLeft : State := rapOutput (pictureLeaves s n hidden) n p rap

/-- The picture that joins them. -/
def reconPicture : Picture := pictureDone (reconLeft s n p hidden rap) n p f hidden

/-- The state in which its marks are made. -/
def reconAwaits : State := pictureAwaits (reconLeft s n p hidden rap) n (reconPicture s n p f hidden rap) hidden rap

/-- The state in which pictures are put out. -/
def reconMarked : State := marksAfter (reconAwaits s n p f hidden rap) n (reconPicture s n p f hidden rap)

theorem reconEnded_eq : reconEnded s n p f hidden rap =
    putOut (outputLimit (reconPicture s n p f hidden rap)) (reconMarked s n p f hidden rap) n := rfl

/-- What is put out leaves the marks. -/
theorem reconEnded_dpb : (strOf (reconEnded s n p f hidden rap) n).dpb = (strOf (reconMarked s n p f hidden rap) n).dpb := by
  rw [reconEnded_eq, (putOut_kept _ _ _).stream]

/-- The picture in what its place in output order leaves alone. -/
theorem reconPicture_eq :
    ∃ era order, reconPicture s n p f hidden rap = { p with concealed := hidden, frame := f, era := era, order := order } := pictureDone_eq _ _ _ _ _

end

section
variable {n : Nat} (hn : n < 256) (s : State) (p : Picture) (f : Frame) (hidden rap : Bool)
include hn

theorem reconLeft_left : OutputLeft n (pictureLeaves s n hidden) (reconLeft s n p hidden rap) := rapOutput_left hn _ _ _

/-- The stream as the marks are made. -/
theorem strOf_reconAwaits : ∃ l, strOf (reconAwaits s n p f hidden rap) n =
    { strOf s n with recon := none, taint := taintAfter (strOf s n) hidden rap, done := l } ∧
      ((strOf s n).done = [] → l = [reconPicture s n p f hidden rap]) := by
  have left := reconLeft_left hn s p hidden rap
  refine ⟨insertPic (reconPicture s n p f hidden rap) (strOf (reconLeft s n p hidden rap) n).done, ?_, fun none_ => ?_⟩
  · rw [reconAwaits, strOf_pictureAwaits, left.stream, strOf_pictureLeaves]
    rfl
  · obtain ⟨-, empty⟩ := left.idle (by rw [strOf_pictureLeaves]; exact none_)
    rw [empty]
    rfl

/-- The stream as pictures are put out: its marks, and those that await output. -/
theorem strOf_reconMarked : ∃ l dpb maxLong num era, strOf (reconMarked s n p f hidden rap) n =
    { strOf s n with recon := none, taint := taintAfter (strOf s n) hidden rap, done := l, dpb := dpb, maxLong := maxLong, prevFrameNum := num
                     era := era } ∧
      ((strOf s n).done = [] → l = [reconPicture s n p f hidden rap]) := by
  obtain ⟨l, stream, idle⟩ := strOf_reconAwaits hn s p f hidden rap
  have follow := (marksAfter_follow (reconAwaits s n p f hidden rap) n (reconPicture s n p f hidden rap)).stream
  rw [stream] at follow
  exact ⟨l, _, _, _, _, follow, idle⟩

theorem reconMarked_done (none_ : (strOf s n).done = []) :
    (strOf (reconMarked s n p f hidden rap) n).done = [reconPicture s n p f hidden rap] := by
  obtain ⟨l, _, _, _, _, stream, idle⟩ := strOf_reconMarked hn s p f hidden rap
  rw [stream]
  exact idle none_

/-! ### The stream, once the picture's reconstruction ends -/

theorem reconEnded_others {m : Nat} (ne : m ≠ n) : strOf (reconEnded s n p f hidden rap) m = strOf s m := by
  have left := reconLeft_left hn s p hidden rap
  rw [reconEnded_eq, (putOut_kept _ _ _).others m ne, reconMarked, (marksAfter_follow _ _ _).others m ne, reconAwaits, strOf_pictureAwaits_ne ne,
    left.others m ne, strOf_pictureLeaves_ne ne]

theorem reconEnded_recon : (strOf (reconEnded s n p f hidden rap) n).recon = none := by
  obtain ⟨_, _, _, _, _, stream, -⟩ := strOf_reconMarked hn s p f hidden rap
  rw [reconEnded_eq, (putOut_kept _ _ _).stream, stream]

theorem reconEnded_taint : (strOf (reconEnded s n p f hidden rap) n).taint = taintAfter (strOf s n) hidden rap := by
  obtain ⟨_, _, _, _, _, stream, -⟩ := strOf_reconMarked hn s p f hidden rap
  rw [reconEnded_eq, (putOut_kept _ _ _).stream, stream]

theorem reconEnded_conceal : rd (reconEnded s n p f true rap) F.VDC_STR_EVENT_CONCEAL n = 1 := by
  have left := reconLeft_left hn s p true rap
  rw [reconEnded_eq, (putOut_kept _ _ _).rd_eq (stream_besideAccess hn), reconMarked, rd_regs (marksAfter_follow _ _ _).regs]
  exact (rd_regs (by rfl) _ _ _).trans (left.conceal.trans (pictureLeaves_conceal s n))

/-! ### Its marks -/

theorem reconAwaits_codec : (strOf (reconAwaits s n p f hidden rap) n).codec = (strOf s n).codec := by
  obtain ⟨_, stream, -⟩ := strOf_reconAwaits hn s p f hidden rap
  rw [stream]

theorem reconPicture_reference : isReference (strOf (reconAwaits s n p f hidden rap) n).codec (reconPicture s n p f hidden rap).au =
    isReference (strOf s n).codec p.au := by
  obtain ⟨_, _, same⟩ := reconPicture_eq s n p f hidden rap
  rw [reconAwaits_codec hn, same]

theorem reconAwaits_marksLeft : marksLeft (strOf (reconAwaits s n p f hidden rap) n) (reconPicture s n p f hidden rap) =
    marksLeft (strOf s n) p := by
  obtain ⟨_, stream, -⟩ := strOf_reconAwaits hn s p f hidden rap
  obtain ⟨_, _, same⟩ := reconPicture_eq s n p f hidden rap
  rw [stream, same]
  rfl

/-- A picture with no mark of its own leaves the DPB. -/
theorem reconEnded_unmarked (avc : (strOf s n).codec ≠ 1) (other : isReference (strOf s n).codec p.au = false) :
    (strOf (reconEnded s n p f hidden rap) n).dpb = (strOf s n).dpb := by
  obtain ⟨_, stream, -⟩ := strOf_reconAwaits hn s p f hidden rap
  rw [reconEnded_dpb, reconMarked, marksAfter_other (by rwa [reconAwaits_codec hn]) (by rwa [reconPicture_reference hn]), stream]

theorem reconEnded_marked (marked : (strOf s n).codec = 1 ∨ isReference (strOf s n).codec p.au = true) :
    (∀ b ∈ (strOf (reconEnded s n p f hidden rap) n).dpb, b.desc = some p.desc ∨ b ∈ marksLeft (strOf s n) p) ∧
      (strOf (reconEnded s n p f hidden rap) n).dpb.length ≤ max 1 (strOf s n).dpbMax := by
  obtain ⟨_, stream, -⟩ := strOf_reconAwaits hn s p f hidden rap
  obtain ⟨_, _, same⟩ := reconPicture_eq s n p f hidden rap
  have dpbMax : (strOf (reconAwaits s n p f hidden rap) n).dpbMax = (strOf s n).dpbMax := by rw [stream]
  have desc : (reconPicture s n p f hidden rap).desc = p.desc := by rw [same]
  have marks := marksAfter_dpb (s := reconAwaits s n p f hidden rap) (n := n) (p := reconPicture s n p f hidden rap)
    (by rwa [reconPicture_reference hn, reconAwaits_codec hn])
  rw [dpbMax, desc, reconAwaits_marksLeft hn] at marks
  rw [reconEnded_dpb]
  exact marks

/-! ### Its output (R188) -/

theorem reconMarked_requests (none_ : (strOf s n).done = []) : (reconMarked s n p f hidden rap).eas.requests = s.eas.requests := by
  obtain ⟨requests, -⟩ := (reconLeft_left hn s p hidden rap).idle (by rw [strOf_pictureLeaves]; exact none_)
  rw [reconMarked, (marksAfter_follow _ _ _).requests]
  exact requests.trans (by rw [pictureLeaves_eas])

/-- With none awaiting output and none that may, the picture is requested for publication. -/
theorem reconEnded_published (none_ : (strOf s n).done = []) (now : outputLimit p = 0) : let t := reconEnded s n p f hidden rap
    t.eas.requests = s.eas.requests ++ [p.desc] ∧ (strOf t n).done = [] ∧
      (descOf t p.desc).frame = { f with concealed := taintAfter (strOf s n) hidden rap || hidden } := by
  obtain ⟨_, _, _, _, _, stream, -⟩ := strOf_reconMarked hn s p f hidden rap
  obtain ⟨_, _, same⟩ := reconPicture_eq s n p f hidden rap
  have limit : outputLimit (reconPicture s n p f hidden rap) = 0 := by rw [same]; exact now
  have desc : (reconPicture s n p f hidden rap).desc = p.desc := by rw [same]
  have out : reconEnded s n p f hidden rap =
      publishPicture (withDone (reconMarked s n p f hidden rap) n []) n (reconPicture s n p f hidden rap) := by
    rw [reconEnded_eq, limit, putOut_one (reconMarked_done hn s p f hidden rap none_)]
  dsimp only
  refine ⟨?_, ?_, ?_⟩
  · rw [out, publishPicture_requests, desc]
    exact congrArg (· ++ [p.desc]) (reconMarked_requests hn s p f hidden rap none_)
  · rw [out, strOf_publishPicture, strOf_withDone]
  · rw [out, ← desc, publishPicture_frame, outputFrame, strOf_withDone, stream, same]

/-- With none awaiting output, and one that may, the picture waits. -/
theorem reconEnded_waits (none_ : (strOf s n).done = []) (later : 1 ≤ outputLimit p) : let t := reconEnded s n p f hidden rap
    t.eas.requests = s.eas.requests ∧ (strOf t n).done.map (·.desc) = [p.desc] := by
  obtain ⟨_, _, same⟩ := reconPicture_eq s n p f hidden rap
  have done := reconMarked_done hn s p f hidden rap none_
  have limit : outputLimit (reconPicture s n p f hidden rap) = outputLimit p := by rw [same]; rfl
  have idle : reconEnded s n p f hidden rap = reconMarked s n p f hidden rap := by
    rw [reconEnded_eq, limit, putOut_idle (by rw [done]; exact later)]
  dsimp only
  rw [idle, done, same]
  exact ⟨reconMarked_requests hn s p f hidden rap none_, rfl⟩

end

end Sys2Proof.Machine
end

