-- ==== Sys2Proof/Proofs/DecoderPictures.lean ====
section
/-!
The life of a picture in the decoder: the outcomes of its four steps, and the statement that they make (R186 to R194).
-/

namespace Sys2Proof.Machine

/-! ### ENTROPY_AU_DONE -/

section
variable {s : State} {n : Nat} {a : AccessUnit} {i : PicInfo}

/-- The state in which an access unit's parsing ends. -/
def auShown (s : State) (n : Nat) (a : AccessUnit) (i : PicInfo) : State := showStr (auEnded s n a i) n

theorem strOf_auShown (m : Nat) : strOf (auShown s n a i) m = strOf (auEnded s n a i) m := strOf_showStr _ _ _

/-- Where no sequence ends, the stream is as parsing leaves it. -/
theorem auShown_goes_on (goes_on : endsSequence (strOf s n).codec a = false) : auShown s n a i = showStr (auParsed s n a i) n := by
  rw [auShown, (auEnded_ends s n a i).goes_on goes_on]

/-- What holds of every access unit parsed. -/
theorem auShown_kept : let t := auShown s n a i
    (strOf t n).parsing = none ∧ (strOf t n).queue = (strOf s n).queue ∧ (∀ m, m ≠ n → strOf t m = strOf s m) ∧
      (endsSequence (strOf s n).codec a = false → t.eas = s.eas ∧ t.mem = s.mem ∧ (strOf t n).done = (strOf s n).done) ∧
      (endsSequence (strOf s n).codec a = true → (strOf s n).recon = none → (strOf t n).waiting = [] → (strOf t n).done = []) := by
  have kept := auParsed_kept s n a i
  have ends := auEnded_ends s n a i
  dsimp only
  refine ⟨?_, ?_, fun m ne => ?_, fun goes_on => ?_, fun last recon gone => ?_⟩
  · rw [strOf_auShown, ends.stream, kept.parsing]
  · rw [strOf_auShown, ends.stream]
    exact kept.queue
  · rw [strOf_auShown, ends.others m ne, kept.others m ne]
  · rw [auShown_goes_on goes_on, showStr_eas, showStr_mem, strOf_showStr]
    exact ⟨kept.eas, kept.mem, kept.done⟩
  · rw [strOf_auShown] at gone ⊢
    exact ends.done last (kept.recon.trans recon) gone

/-- The waiting pictures, where no sequence ends and parsing leaves them. -/
theorem auShown_waiting (same : (strOf (auParsed s n a i) n).waiting = (strOf s n).waiting) (goes_on : endsSequence (strOf s n).codec a = false) :
    (strOf (auShown s n a i) n).waiting = (strOf s n).waiting := by
  rw [strOf_auShown, auEnded_waiting goes_on, same]

theorem auShown_unsup (hn : n < 256) (cause : unsupCause (strOf s n) i ≠ 0) : let t := auShown s n a i
    rd t F.VDC_STR_EVENT_UNSUP n = 1 ∧ rd t F.VDC_STR_STATE_UNSUP_CODE n = unsupCause (strOf s n) i % 16 ∧
      rd t F.VDC_STR_STATE_WAIT_RAP n = 1 ∧ ((strOf s n).fresh = true → rd t F.VDC_STR_EVENT_DISCARD n = 1) ∧
      (endsSequence (strOf s n).codec a = false → (strOf t n).waiting = (strOf s n).waiting) := by
  obtain ⟨stream, flag, code, discard⟩ := auParsed_unsup_effect (a := a) cause
  refine ⟨?_, ?_, ?_, fun fresh => ?_, fun goes_on => auShown_waiting (by rw [stream]; rfl) goes_on⟩
  · rw [auShown, rd_auEnded_event hn rfl, flag]
  · rw [auShown, rd_auEnded_cause hn rfl (by decide) (by decide), code]
  · rw [auShown, rd_showStr_waitRap, auEnded_waitRap, stream]
    rfl
  · rw [auShown, rd_auEnded_event hn rfl, discard fresh]

theorem auShown_discards (hn : n < 256) (cause : unsupCause (strOf s n) i = 0) (fresh : (strOf s n).fresh = true)
    (waits : (strOf s n).waitRap = true) (rap : isRap (strOf s n).codec a = false) : let t := auShown s n a i
    rd t F.VDC_STR_EVENT_DISCARD n = 1 ∧ (strOf t n).waitRap = true ∧
      (endsSequence (strOf s n).codec a = false → (strOf t n).waiting = (strOf s n).waiting) := by
  obtain ⟨stream, discard⟩ := auParsed_discards_effect cause (auGoes_waits (i := i) waits rap)
  refine ⟨?_, ?_, fun goes_on => auShown_waiting (by rw [stream]; rfl) goes_on⟩
  · rw [auShown, rd_auEnded_event hn rfl, discard fresh]
  · rw [strOf_auShown, auEnded_waitRap, stream]
    exact waits

section
variable (hn : n < 256) (cause : unsupCause (strOf s n) i = 0) (goes : auGoes (strOf s n) a i = true) (keeps : (strOf s n).dropRasl = false)
include hn cause goes keeps

theorem auShown_overrun (large : 2 * i.symbols > (strOf s n).symSize * 65536) : let t := auShown s n a i
    rd t F.VDC_STR_EVENT_OVERRUN n = 1 ∧ rd t F.VDC_STR_STATE_LAST_OVR n = 2 ∧
      (endsSequence (strOf s n).codec a = false → (strOf t n).waiting = (strOf s n).waiting) := by
  obtain ⟨flag, code, waiting⟩ := auParsed_overrun_effect cause goes keeps large
  refine ⟨?_, ?_, auShown_waiting waiting⟩
  · rw [auShown, rd_auEnded_event hn rfl, flag]
  · rw [auShown, rd_auEnded_cause hn rfl (by decide) (by decide), code]

theorem auShown_joins (fits : 2 * i.symbols ≤ (strOf s n).symSize * 65536) (some_ : (slices (strOf s n).codec a).isEmpty = false) :
    let t := auShown s n a i
    ∃ p, (strOf t n).waiting = (strOf s n).waiting ++ [p] ∧ p.au = a ∧ p.info = i ∧ p.last = endsSequence (strOf s n).codec a ∧
      (strOf t n).waitRap = false ∧ p.concealed = (a.lossMark || i.syntaxError) ∧
      (i.syntaxError = true → rd t F.VDC_STR_EVENT_SYNTAX n = 1) := by
  obtain ⟨stream, noted⟩ := auParsed_joins_effect cause goes keeps fits some_
  refine ⟨_, (congrArg Stream.waiting (strOf_auShown n)).trans (auEnded_joins cause goes keeps fits some_), rfl, rfl, rfl, ?_, rfl, fun bad => ?_⟩
  · rw [strOf_auShown, auEnded_waitRap, stream]
    rfl
  · rw [auShown, rd_auEnded_event hn rfl, noted bad]

end

end

/-! ### PIXEL_ENGINE_START -/

section
variable {s : State} {n : Nat} {p : Picture} {rest : List Picture}

/-- A picture with a buffer. -/
theorem pictureMet_started (e : Nat) {d : Nat} (free : freeBuffer p (marksMade s n p) = some d) :
    let m := marksMade s n p
    let t := pictureMet m n p rest e
    (strOf t n).recon = some (pictureTaken m n p d e, e) ∧ (strOf t n).waiting = rest ∧ (strOf t n).dpb = (strOf m n).dpb ∧
      (∀ k, k ≠ n → strOf t k = strOf s k) ∧ (descOf t d).st = .filling ∧
      (lostRefs m n p ≠ [] → rd t F.VDC_STR_EVENT_REF_MISSING n = 1) ∧
      (lostRefs m n p = [] → rd t F.VDC_STR_EVENT_REF_MISSING n = rd s F.VDC_STR_EVENT_REF_MISSING n) ∧ t.mem = s.mem := by
  obtain ⟨missing, kept⟩ := rd_pictureStarted_missing (s := marksMade s n p) (n := n) (p := p) (rest := rest) d e
  dsimp only
  rw [pictureMet_starts e free, strOf_showStr, strOf_pictureStarted, rd_showStr_event]
  refine ⟨rfl, rfl, rfl, fun k ne => ?_, ?_, missing, fun none_ => ?_, ?_⟩
  · rw [strOf_showStr, strOf_pictureStarted_ne _ _ ne, strOf_marksMade_ne _ _ _ ne]
  · rw [descOf_eas (showStr_eas _ _), descOf_pictureStarted]
  · rw [kept none_, rd_marksMade]
  · rw [showStr_mem]
    exact (refsNoted_mem d).trans (marksMade_mem s n p)

/-- The want of a buffer noted. -/
def bufferMissed (s : State) (n : Nat) : State := raise (raise s K.EAS_EVENT_POOL_EMPTY) K.VDC_STR_EVENT_NO_BUF n

theorem bufferMissed_noBuf (s : State) (n : Nat) : rd (bufferMissed s n) F.VDC_STR_EVENT_NO_BUF n = 1 :=
  rd_raise_stream (k := K.VDC_STR_EVENT_NO_BUF) _ n

theorem bufferMissed_poolEmpty (hn : n < 256) (s : State) : rd (bufferMissed s n) F.EAS_EVENT_POOL_EMPTY = 1 := by
  rw [bufferMissed, rd_raise_poolEmpty _ hn]
  exact rd_raise_flag s K.EAS_EVENT_POOL_EMPTY 0 rfl (by decide) (.inr (by decide))

/-- The stream that a picture meets the want of a buffer in, in what its waiting pictures depend on. -/
theorem strOf_bufferMissed (s : State) (n : Nat) (p : Picture) : ∃ dpb, strOf (bufferMissed (marksMade s n p) n) n =
    { strOf s n with prevFrameNum := prevNumBefore (strOf s n) p, dpb := dpb } := by
  obtain ⟨dpb, stream⟩ := strOf_marksMade s n p
  refine ⟨dpb, Eq.trans (strOf_vdc ?_ n) stream⟩
  rw [bufferMissed, raise_vdc, raise_vdc]

/-- A picture with no buffer free for it. -/
theorem pictureMet_dropped (hn : n < 256) (e : Nat) (waiting : (strOf s n).waiting = p :: rest) (free : freeBuffer p (marksMade s n p) = none) :
    let m := marksMade s n p
    let t := pictureMet m n p rest e
    rd t F.VDC_STR_EVENT_NO_BUF n = 1 ∧ (strOf t n).recon = (strOf s n).recon ∧ rd t F.EAS_EVENT_POOL_EMPTY = 1 ∧
      (strOf t n).waiting = (dropLeading (strOf s n).codec (keptWaiting (strOf s n).codec p rest)).1 ∧
      (isReference (strOf s n).codec p.au = true → keptWaiting (strOf s n).codec p rest = [] → rd t F.VDC_STR_STATE_WAIT_RAP n = 1) ∧
      ((∀ q ∈ p :: rest, q.last = false) → t.eas = m.eas ∧ t.mem = s.mem) := by
  obtain ⟨dpb, stream⟩ := strOf_bufferMissed s n p
  obtain ⟨left, recon, waits, noBuf, poolEmpty, going⟩ :=
    dropWaiting_effect (s := bufferMissed (marksMade s n p) n) hn (by rw [stream]; exact waiting)
  rw [stream] at left recon waits
  dsimp only at left recon waits ⊢
  rw [pictureMet_drops e free, strOf_showStr, ← bufferMissed]
  refine ⟨?_, recon, ?_, left, fun reference empty => ?_, fun last => ?_⟩
  · rw [rd_showStr_event, noBuf, bufferMissed_noBuf]
  · rw [rd_showStr_reg _ _ (by simp [Reg.addr, F.EAS_EVENT_POOL_EMPTY, R.EAS_EVENT, R.VDC_STR_STATE]; omega), poolEmpty,
      bufferMissed_poolEmpty hn]
  · rw [rd_showStr_waitRap, waits, reference, empty]
    simp [bit]
  · obtain ⟨eas, mem⟩ := going last
    rw [showStr_eas, showStr_mem]
    refine ⟨eas.trans ?_, mem.trans ?_⟩
    · rw [bufferMissed, raise_eas, raise_eas]
    · rw [bufferMissed, raise_mem, raise_mem, marksMade_mem]

end

/-! ### RECON_DONE -/

section
variable {s : State} {n k : Nat} {p : Picture} {r : Recon}

/-- The state in which a picture's reconstruction ends. -/
def reconShown (s : State) (n k : Nat) (p : Picture) (r : Recon) : State :=
  showStr (reconEnded (pictureWritten s (68 + k) p (strOf s n) r) n p (contentFrame s (68 + k) p (strOf s n) r)
    (pictureHidden p r) (isRap (strOf s n).codec p.au)) n

theorem strOf_pictureWritten (s : State) (n k : Nat) (p : Picture) (r : Recon) (m : Nat) :
    strOf (pictureWritten s (68 + k) p (strOf s n) r) m = strOf s m := strOf_vdc (pictureWritten_accesses _ _ _ _ _).vdc m

theorem pictureWritten_requests (s : State) (n k : Nat) (p : Picture) (r : Recon) :
    (pictureWritten s (68 + k) p (strOf s n) r).eas.requests = s.eas.requests := by
  rw [(pictureWritten_accesses _ _ _ _ _).kept.eas]

theorem reconShown_stream (hn : n < 256) (s : State) (k : Nat) (p : Picture) (r : Recon) :
    let t := reconShown s n k p r
    let taint := taintAfter (strOf s n) (pictureHidden p r) (isRap (strOf s n).codec p.au)
    (strOf t n).recon = none ∧ (∀ m, m ≠ n → strOf t m = strOf s m) ∧ (strOf t n).taint = taint ∧ rd t F.VDC_STR_STATE_TAINT n = bit taint ∧
      (pictureHidden p r = true → rd t F.VDC_STR_EVENT_CONCEAL n = 1) := by
  dsimp only
  rw [reconShown, strOf_showStr, rd_showStr_taint, rd_showStr_event, reconEnded_taint hn, strOf_pictureWritten]
  refine ⟨reconEnded_recon hn _ _ _ _ _, fun m ne => ?_, rfl, rfl, fun hidden => ?_⟩
  · rw [strOf_showStr, reconEnded_others hn _ _ _ _ _ ne, strOf_pictureWritten]
  · rw [hidden, reconEnded_conceal hn]

theorem reconShown_unmarked (hn : n < 256) (s : State) (k : Nat) (p : Picture) (r : Recon) (avc : (strOf s n).codec ≠ 1)
    (other : isReference (strOf s n).codec p.au = false) : (strOf (reconShown s n k p r) n).dpb = (strOf s n).dpb := by
  have same := strOf_pictureWritten s n k p r n
  rw [reconShown, strOf_showStr, reconEnded_unmarked hn _ _ _ _ _ (by rwa [same]) (by rwa [same]), same]

theorem reconShown_marked (hn : n < 256) (s : State) (k : Nat) (p : Picture) (r : Recon)
    (marked : (strOf s n).codec = 1 ∨ isReference (strOf s n).codec p.au = true) : let t := reconShown s n k p r
    (∀ b ∈ (strOf t n).dpb, b.desc = some p.desc ∨ b ∈ marksLeft (strOf s n) p) ∧ (strOf t n).dpb.length ≤ max 1 (strOf s n).dpbMax := by
  have same := strOf_pictureWritten s n k p r n
  have marks := reconEnded_marked hn (pictureWritten s (68 + k) p (strOf s n) r) p (contentFrame s (68 + k) p (strOf s n) r)
    (pictureHidden p r) (isRap (strOf s n).codec p.au) (by rwa [same])
  rw [same] at marks
  dsimp only
  rw [reconShown, strOf_showStr]
  exact marks

theorem reconShown_published (hn : n < 256) (s : State) (k : Nat) (p : Picture) (r : Recon) (none_ : (strOf s n).done = [])
    (now : outputLimit p = 0) : let t := reconShown s n k p r
    t.eas.requests = s.eas.requests ++ [p.desc] ∧ (strOf t n).done = [] ∧ (descOf t p.desc).frame.source = (strOf s n).src ∧
      (descOf t p.desc).frame.concealed = taintAfter (strOf s n) (pictureHidden p r) (isRap (strOf s n).codec p.au) := by
  have same := strOf_pictureWritten s n k p r n
  obtain ⟨requests, done, frame⟩ := reconEnded_published hn (pictureWritten s (68 + k) p (strOf s n) r) p
    (contentFrame s (68 + k) p (strOf s n) r) (pictureHidden p r) (isRap (strOf s n).codec p.au) (by rwa [same]) now
  dsimp only
  rw [reconShown, strOf_showStr, showStr_eas, descOf_eas (showStr_eas _ _), frame, requests, pictureWritten_requests, same]
  refine ⟨rfl, done, rfl, ?_⟩
  unfold taintAfter
  cases pictureHidden p r <;> simp

theorem reconShown_waits (hn : n < 256) (s : State) (k : Nat) (p : Picture) (r : Recon) (none_ : (strOf s n).done = [])
    (later : 1 ≤ outputLimit p) : let t := reconShown s n k p r
    t.eas.requests = s.eas.requests ∧ (strOf t n).done.map (·.desc) = [p.desc] := by
  obtain ⟨requests, done⟩ := reconEnded_waits hn (pictureWritten s (68 + k) p (strOf s n) r) p
    (contentFrame s (68 + k) p (strOf s n) r) (pictureHidden p r) (isRap (strOf s n).codec p.au) (by rwa [strOf_pictureWritten]) later
  dsimp only
  rw [reconShown, strOf_showStr, showStr_eas, requests, pictureWritten_requests]
  exact ⟨rfl, done⟩

end

/-! ### The statement -/

/-- Settles O30: a lemma for each outcome of the four steps, over the stream that the step leaves. -/
theorem decoderPictures : Obligations.DecoderPictures := by
  unfold Obligations.DecoderPictures
  refine ⟨fun e s n => execEntropyAuStart_takes, ?_, ?_, ?_⟩
  · rintro e i s n x a found rfl parsing hn
    obtain ⟨gone, queue, others, goes_on, ends⟩ := auShown_kept (s := s) (n := n) (a := a) (i := i)
    refine ⟨auShown s n a i, execEntropyAuDone_eq found parsing, gone, queue, others, goes_on, ends, auShown_unsup hn, auShown_discards hn, ?_⟩
    intro cause start supported keeps sps
    have goes := auGoes_of start supported sps
    exact ⟨auShown_overrun hn cause goes keeps, auShown_joins hn cause goes keeps⟩
  · intro e s n p rest idle first waiting hn m free lost
    have runs := execPixelEngineStart_eq idle first waiting
    refine ⟨fun d found => ⟨_, runs, pictureMet_started e.val found⟩, fun none_ => ?_⟩
    obtain ⟨noBuf, recon, poolEmpty, left, waits, going⟩ := pictureMet_dropped hn e.val waiting none_
    refine ⟨_, runs, noBuf, recon, poolEmpty, fun other => ?_, fun reference => ⟨?_, fun noRap => ?_⟩, going⟩
    · rw [left, keptWaiting_other other]
    · rw [left, keptWaiting_reference reference]
    · exact waits reference (keptWaiting_empty reference noRap)
  · rintro e r s n k x p found rfl recon hn runs
    obtain ⟨gone, others, taint, shown, conceal⟩ := reconShown_stream hn s k p r
    refine ⟨reconShown s n k p r, execReconDone_eq found recon runs, gone, others, taint, shown, conceal, fun b hb => ?_,
      reconShown_unmarked hn s k p r, fun marked => (reconShown_marked hn s k p r marked).2, fun none_ now => ?_, fun none_ one more => ?_⟩
    · cases reference : isReference (strOf s n).codec p.au
      · exact .inr (.inr rfl)
      · rcases (reconShown_marked hn s k p r (.inr reference)).1 b hb with own | before
        · exact .inl own
        · exact .inr (.inl before)
    · refine reconShown_published hn s k p r none_ ?_
      rcases now with limit | last
      · rw [outputLimit, limit, ite_self]
      · rw [outputLimit, last, if_pos rfl]
    · refine reconShown_waits hn s k p r none_ ?_
      rw [outputLimit, one, more]
      decide

end Sys2Proof.Machine
end

