-- ==== Sys2Proof/Proofs/UnitsBesideAccess.lean ====
section
/-!
Writes of hardware masters and the units that they pass by: a write looks at and changes registers, memories and what the fabric, the protection
units and the DRAM controller hold; it answers alike and does alike whatever the other units hold, and leaves that as it is (R553, R560 to
R562, R597).
-/

namespace Sys2Proof.Machine

/-- What no write of a hardware master looks at or changes. -/
structure Bystanders where
  straps : Straps
  ptp : Ptp
  net : Net
  slu : Sluice
  vdc : Decode
  ven : Encode
  eas : Easel
  chk : Map CheckJob
  tnd : Tandem
  tch : Map Touch
  cpr : Cpr
  lane : Map Quad
  lnk : Map Port
  pwr : Power
  out : List Output
  free : Nat
  pending : List Instr

/-- What stands by in a state. -/
def bystanders (s : State) : Bystanders :=
  ⟨s.straps, s.ptp, s.net, s.slu, s.vdc, s.ven, s.eas, s.chk, s.tnd, s.tch, s.cpr, s.lane, s.lnk, s.pwr, s.out, s.free, s.pending⟩

/-- The state with what stands by replaced. -/
def standingBy (b : Bystanders) (s : State) : State :=
  ⟨s.regs, s.mem, s.time, b.straps, b.ptp, b.net, b.slu, b.vdc, b.ven, b.eas, s.cmp, b.chk, b.tnd, s.seqs, b.tch, b.cpr, s.jnl, b.lane, b.lnk,
    s.fab, s.prt, s.dmc, b.pwr, b.out, b.free, b.pending⟩

theorem bystanders_standingBy (b : Bystanders) (s : State) : bystanders (standingBy b s) = b := rfl

/-- What does its work beside any bystanders leaves them as they are. -/
theorem bystanders_of_standingBy {g : State → State} {s : State} (h : ∀ b, g (standingBy b s) = standingBy b (g s)) :
    bystanders (g s) = bystanders s := by
  have same : g s = standingBy (bystanders s) (g s) := h (bystanders s)
  rw [same, bystanders_standingBy]

section
variable (b : Bystanders) (s : State)

@[simp] theorem standingBy_time : (standingBy b s).time = s.time := rfl
@[simp] theorem standingBy_dmc : (standingBy b s).dmc = s.dmc := rfl
@[simp] theorem rd_standingBy (f : Fld) (i j : Nat) : rd (standingBy b s) f i j = rd s f i j :=
  rd_regs (s := s) (t := standingBy b s) rfl f i j
@[simp] theorem rdb_standingBy (f : Fld) (i j : Nat) : rdb (standingBy b s) f i j = rdb s f i j := by
  rw [rdb, rd_standingBy, rdb]
@[simp] theorem fabCyc_standingBy : fabCyc (standingBy b s) = fabCyc s := by
  rw [fabCyc, standingBy_time, fabCyc]
@[simp] theorem wr_standingBy (f : Fld) (i j v : Nat) : wr (standingBy b s) f i j v = standingBy b (wr s f i j v) := by
  cases s; rfl
@[simp] theorem raise_standingBy (k : Flag) (i : Nat) : raise (standingBy b s) k i = standingBy b (raise s k i) := by
  cases s; rfl
@[simp] theorem addSat_standingBy (f : Fld) (i n : Nat) : addSat (standingBy b s) f i n = standingBy b (addSat s f i n) := by
  rw [addSat, rd_standingBy, wr_standingBy, addSat]

@[simp] theorem raiseIf_standingBy (en : Bool) (k : Flag) (i : Nat) :
    raiseIf en (standingBy b s) k i = standingBy b (raiseIf en s k i) := by
  cases s
  cases en <;> rfl

theorem each_standingBy {α : Type} {f : State → α → State} (l : List α) (h : ∀ s a, f (standingBy b s) a = standingBy b (f s a))
    (s : State) : each l f (standingBy b s) = standingBy b (each l f s) := by
  induction l generalizing s with
  | nil => rfl
  | cons a l ih => exact (congrArg (each l f) (h s a)).trans (ih _)

/-! ### DRAM errors (R597, R611 to R613) -/

@[simp] theorem dramEntry_standingBy (kind channel margin window supp addr cause : Nat) :
    dramEntry (standingBy b s) kind channel margin window supp addr cause =
      standingBy b (dramEntry s kind channel margin window supp addr cause) := by
  have asked (rank ty : Nat) (l : List Byte) : askJournal (standingBy b s) rank ty l = standingBy b (askJournal s rank ty l) := by
    cases s; rfl
  rw [dramEntry, rd_standingBy, asked, dramEntry]

@[simp] theorem holdAll_standingBy : holdAll (standingBy b s) = standingBy b (holdAll s) := each_standingBy b _ (fun _ _ => rfl) s

@[simp] theorem enterHold_standingBy (cause : Nat) : enterHold (standingBy b s) cause = standingBy b (enterHold s cause) := by
  have noted : noteCause (standingBy b s) cause = standingBy b (noteCause s cause) := by cases s; rfl
  unfold enterHold
  simp only [noted, rdb_standingBy, wr0_eq, wr_standingBy, holdAll_standingBy, raise_standingBy, dramEntry_standingBy]
  exact (apply_ite (standingBy b) _ _ _).symm

@[simp] theorem testThreshold_standingBy (c : Nat) : testThreshold (standingBy b s) c = standingBy b (testThreshold s c) := by
  unfold testThreshold
  simp only [rdb_standingBy, rd_standingBy, standingBy_dmc, fabCyc_standingBy, wr0_eq, wr_standingBy, raise_standingBy,
    dramEntry_standingBy, enterHold_standingBy]
  exact (apply_ite (standingBy b) _ _ _).symm

@[simp] theorem ueEntry_standingBy (c a : Nat) : ueEntry (standingBy b s) c a = standingBy b (ueEntry s c a) := by
  have recent : ueRecent (standingBy b s) c = ueRecent s c := rfl
  unfold ueEntry
  simp only [recent, standingBy_dmc, standingBy_time, rd_standingBy, dramEntry_standingBy]
  rw [apply_ite (standingBy b)]
  rfl

@[simp] theorem eccError_standingBy (a : Nat) (uncorr link : Bool) :
    eccError (standingBy b s) a uncorr link = standingBy b (eccError s a uncorr link) := by
  unfold eccError eccRecord
  cases uncorr <;> simp

theorem meetPoison_standingBy (a n : Nat) : meetPoison (standingBy b s) a n = standingBy b (meetPoison s a n) := by
  have up : dramUp (standingBy b s) = dramUp s := rfl
  have inside : inDram (standingBy b s) a n = inDram s a n := rfl
  unfold meetPoison
  rw [up, inside, standingBy_dmc, apply_ite (standingBy b)]
  cases s.dmc.bad.find? (wordMeets a n) with
  | none => rfl
  | some w => simp only [eccError_standingBy]

theorem meetWeak_standingBy (words : List Nat) : meetWeak words (standingBy b s) = standingBy b (meetWeak words s) :=
  each_standingBy b _ (fun _ _ => eccError_standingBy b _ _ _ _) s

/-! ### Checks (R560 to R562, R579 to R588) -/

/-- An answer with what stands by replaced in the state it comes with. -/
def answerBy {β : Type} (b : Bystanders) (r : State × β) : State × β := (standingBy b r.1, r.2)

/-- The cycle of a recorded refusal. -/
theorem violAt_standingBy (u cyc : Nat) :
    ({ standingBy b s with prt := { (standingBy b s).prt with violAt := (standingBy b s).prt.violAt.put u cyc } } : State) =
      standingBy b { s with prt := { s.prt with violAt := s.prt.violAt.put u cyc } } := by cases s; rfl

theorem violate_standingBy (x : Access1) (d : Denial) : violate (standingBy b s) x d = standingBy b (violate s x d) := by
  have stands (u) : lowerStands (standingBy b s) u x.master = lowerStands s u x.master := rfl
  have recorded (u) : recordDenial (standingBy b s) u x d = standingBy b (recordDenial s u x d) := by
    simp only [recordDenial, wr_standingBy, fabCyc_standingBy]
    exact violAt_standingBy b _ u _
  unfold violate
  cases unitOf x.master with
  | none => rfl
  | some u => simp only [stands, recorded, ← apply_ite (standingBy b), rdb_standingBy, addSat_standingBy, raiseIf_standingBy]

theorem checkAccess_standingBy (x : Access1) : checkAccess (standingBy b s) x = answerBy b (checkAccess s x) := by
  have prot : protCheck (standingBy b s) x = protCheck s x := rfl
  have decode : decodeKind (standingBy b s) x = decodeKind s x := rfl
  unfold checkAccess
  rw [prot, decode]
  cases protCheck s x with
  | some d => exact congrArg (·, 1) (violate_standingBy b s x d)
  | none =>
    have error (k) : decodeError (standingBy b s) x k = standingBy b (decodeError s x k) := by
      simp only [decodeError, wr_standingBy, raise_standingBy]
    dsimp only
    rw [error, apply_ite (answerBy b)]
    rfl

/-! ### Writes (R412, R553, R596) -/

theorem noteGrant_standingBy (p m a n : Nat) (write : Bool) :
    noteGrant (standingBy b s) p m a n write = standingBy b (noteGrant s p m a n write) := by cases s; rfl

theorem dramWriteMasked_standingBy (a : Nat) (l : List Byte) (holes : List Nat) :
    dramWriteMasked (standingBy b s) a l holes = answerBy b (dramWriteMasked s a l holes) := by
  have up : dramUp (standingBy b s) = dramUp s := rfl
  have inside : inDram (standingBy b s) a l.length = inDram s a l.length := rfl
  have whole : dramWrite (standingBy b s) a l = answerBy b (dramWrite s a l) := by
    simp only [dramWrite, up, inside, standingBy_dmc, apply_ite (answerBy b)]
    rfl
  simp only [dramWriteMasked, whole, up, inside, standingBy_dmc, apply_ite (answerBy b)]
  rfl

theorem windowWrite_standingBy (n off : Nat) (l : List Byte) :
    windowWrite (standingBy b s) n off l = answerBy b (windowWrite s n off l) := by
  have written (q) : setSeq (standingBy b s) n q = standingBy b (setSeq s n q) := by cases s; rfl
  have same : seqOf (standingBy b s) n = seqOf s n := rfl
  unfold windowWrite
  simp only [same, written, raise_standingBy, apply_ite (answerBy b)]
  rfl

theorem targetWrite_standingBy (a : Nat) (l : List Byte) : targetWrite (standingBy b s) a l = answerBy b (targetWrite s a l) := by
  unfold targetWrite
  split
  · rw [dramWriteMasked_standingBy, apply_ite (answerBy b), meetPoison_standingBy]
    simp only [answerBy, meetWeak_standingBy]
    rfl
  · exact windowWrite_standingBy b s _ _ l
  · rfl

theorem writePiece_standingBy (master a : Nat) (l : List Byte) (acc : State × Nat) (p : Nat × Nat) :
    writePiece master a l (answerBy b acc) p = answerBy b (writePiece master a l acc p) := by
  unfold writePiece
  simp only [answerBy, checkAccess_standingBy]
  split
  · rfl
  · split
    · rfl
    · rw [noteGrant_standingBy, targetWrite_standingBy]
      rfl

theorem busWrite_standingBy (master a : Nat) (l : List Byte) : busWrite (standingBy b s) master a l = answerBy b (busWrite s master a l) :=
  List.foldl_hom (init := (s, 0)) (answerBy b) (writePiece_standingBy b master a l)

end

/-! ### No write changes what stands by -/

theorem busWrite_bystanders (s : State) (master a : Nat) (l : List Byte) : bystanders (busWrite s master a l).1 = bystanders s :=
  bystanders_of_standingBy (g := fun s => (busWrite s master a l).1) fun b => congrArg Prod.fst (busWrite_standingBy b s master a l)

end Sys2Proof.Machine
end

