-- ==== Sys2Proof/Proofs/EncoderRecords.lean ====
section
/-!
The records of the encoder: fields of a session's registers, what a session shows (R221), and what its removal leaves (R200, R202).
-/

namespace Sys2Proof.Machine

/-! ### Fields of a block's registers that share no bit -/

/-- Two fields of registers of one kind of block share no bit in any copy of the block: their registers stand apart, or one is above the
other. -/
def Fld.apartInBlock (f g : Fld) : Bool :=
  f.reg.apart g.reg || (f.reg == g.reg && decide (f.lo + f.w ≤ 64) && decide (f.lo + f.w ≤ g.lo ∨ g.lo + g.w ≤ f.lo))

section
variable (s : State) {f g : Fld} (i : Nat)

theorem rd_wr_apartInBlock (v : Nat) (h : f.apartInBlock g = true) : rd (wr s g i 0 v) f i = rd s f i := by
  simp only [Fld.apartInBlock, Bool.or_eq_true, Bool.and_eq_true, beq_iff_eq, decide_eq_true_eq] at h
  rcases h with other | ⟨⟨same, fits⟩, apart⟩
  · exact rd_wr_reg _ _ _ _ _ _ _ _ (Reg.apart_addr other i)
  · exact rd_wr_field _ _ _ _ _ _ same fits apart

theorem rd_raise_apartInBlock {k : Flag} (hfld : f.apartInBlock k.fld = true) (hcnt : f.apartInBlock k.cnt = true) :
    rd (raise s k i) f i = rd s f i :=
  (rd_wr_apartInBlock (wr s k.fld i 0 1) i _ hcnt).trans (rd_wr_apartInBlock s i _ hfld)

end

/-! ### A session's registers (R221, R222) -/

/-- An event of a session reads 1 once it is raised. -/
theorem rd_raise_session (s : State) (n : Nat) {k : Flag} (hw : k.fld.w = 1) (hlo : k.fld.lo < 64) (h : k.fld.reg.apart k.cnt.reg = true) :
    rd (raise s k n) k.fld n = 1 := rd_raise_flag s k n hw hlo (.inr (Reg.apart_addr h n))

/-! ### What a session shows (R221) -/

section
variable (s : State) (n : Nat)

theorem sesOf_ven {s t : State} (h : t.ven = s.ven) (n : Nat) : sesOf t n = sesOf s n := by rw [sesOf, h, sesOf]

@[simp] theorem showSes_mem : (showSes s n).mem = s.mem := rfl
@[simp] theorem showSes_eas : (showSes s n).eas = s.eas := rfl
@[simp] theorem showSes_ven : (showSes s n).ven = s.ven := rfl
@[simp] theorem sesOf_showSes (m : Nat) : sesOf (showSes s n) m = sesOf s m := sesOf_ven (showSes_ven s n) m
@[simp] theorem descOf_showSes (d : Nat) : descOf (showSes s n) d = descOf s d := descOf_eas (showSes_eas s n) d

/-- A register that is not the session's VEN_SES_STATE. -/
theorem rd_showSes_reg {f : Fld} {i : Nat} (h : f.reg.addr i 0 ≠ R.VEN_SES_STATE.addr n 0) : rd (showSes s n) f i = rd s f i := by
  simp only [showSes]
  rw [rd_wr_reg _ _ _ _ _ _ _ _ h, rd_wr_reg _ _ _ _ _ _ _ _ h, rd_wr_reg _ _ _ _ _ _ _ _ h]

theorem rd_showSes_admitted : rd (showSes s n) F.VEN_SES_STATE_ADMITTED n = bit (sesOf s n).admitted := by
  simp only [showSes]
  rw [rd_wr_apartInBlock _ _ _ (by decide), rd_wr_apartInBlock _ _ _ (by decide), rd_wr_bit _ _ _ _ rfl]

theorem rd_showSes_waiting : rd (showSes s n) F.VEN_SES_STATE_WAITING n = bit (sesOf s n).waiting.isSome := by
  simp only [showSes]
  rw [rd_wr_apartInBlock _ _ _ (by decide), rd_wr_bit _ _ _ _ rfl]

theorem rd_showSes_coding : rd (showSes s n) F.VEN_SES_STATE_CODING n = bit (sesOf s n).coding.isSome := by
  simp only [showSes]
  rw [rd_wr_bit _ _ _ _ rfl]

end

/-! ### A dropped lease (R230, R234) -/

theorem settle_leases (x : Desc) : (settle x).leases = x.leases := by
  unfold settle
  split
  · rfl
  · split <;> rfl

theorem dropLease_leases (s : State) (d : Nat) : (descOf (dropLease s d) d).leases = (descOf s d).leases - 1 := by
  rw [dropLease, updDesc_eq, descOf_setDesc, settle_leases]

/-! ### Removal (R200, R202) -/

section
variable (s : State) (n : Nat)

/-- The leases of a session's frames dropped, of the one that waits and of the one being coded. -/
def framesDropped : State :=
  let u := match (sesOf s n).waiting with | some (_, w) => dropLease s w.desc | none => s
  match (sesOf s n).coding with | some c => dropLease u c.desc | none => u

/-- A canvas whose write-back frame is selected by no session. -/
def unselected (y : Canvas) : Canvas := { y with wb := y.wb.map fun w => { w with coded := false } }

theorem removeSession_eq : removeSession s n = showSes (setSes (updCnv (framesDropped s n) n unselected) n {}) n := rfl

theorem framesDropped_buffers : BuffersOnly s (framesDropped s n) := by
  have waiting : BuffersOnly s (match (sesOf s n).waiting with | some (_, w) => dropLease s w.desc | none => s) := by
    split
    · exact (BuffersOnly.refl s).setDesc
    · exact .refl s
  unfold framesDropped
  dsimp only
  split
  · exact waiting.setDesc
  · exact waiting

theorem framesDropped_ven : (framesDropped s n).ven = s.ven := by rw [framesDropped_buffers s n]

theorem removeSession_mem : (removeSession s n).mem = s.mem := (framesDropped_buffers s n).mem

theorem sesOf_removeSession : sesOf (removeSession s n) n = {} := by
  rw [removeSession_eq, sesOf_showSes, sesOf_setSes]

theorem sesOf_removeSession_ne {m : Nat} (ne : m ≠ n) : sesOf (removeSession s n) m = sesOf s m := by
  rw [removeSession_eq, sesOf_showSes, sesOf_setSes_ne _ _ ne]
  exact sesOf_ven (framesDropped_ven s n) m

theorem rd_removeSession_admitted : rd (removeSession s n) F.VEN_SES_STATE_ADMITTED n = 0 := by
  rw [removeSession_eq, rd_showSes_admitted, sesOf_setSes]
  rfl

theorem rd_removeSession_reg {f : Fld} {i : Nat} (h : f.reg.addr i 0 ≠ R.VEN_SES_STATE.addr n 0) : rd (removeSession s n) f i = rd s f i := by
  rw [removeSession_eq, rd_showSes_reg _ _ h]
  exact (framesDropped_buffers s n).rd_eq f i

theorem wb_removeSession {w : WriteBack} (h : (cnvOf (removeSession s n) n).wb = some w) : w.coded = false := by
  have canvas : cnvOf (removeSession s n) n = unselected (cnvOf (framesDropped s n) n) := cnvOf_setCnv _ _ _
  rw [canvas, unselected, Option.map_eq_some_iff] at h
  obtain ⟨_, -, rfl⟩ := h
  rfl

theorem leases_removeSession {c : Coding} (coding : (sesOf s n).coding = some c) (waiting : (sesOf s n).waiting = none) :
    (descOf (removeSession s n) c.desc).leases = (descOf s c.desc).leases - 1 := by
  have dropped : framesDropped s n = dropLease s c.desc := by rw [framesDropped, waiting, coding]
  rw [removeSession_eq, dropped, descOf_showSes]
  exact dropLease_leases s c.desc

end

end Sys2Proof.Machine
end

