-- ==== Sys2Proof/Proofs/EncoderCommands.lean ====
section
/-!
VEN_ADMIT, VEN_REMOVE and VEN_IDR: their write, what a refusal reports (R199), and what each does as it ends (R199, R200, R203).
-/

namespace Sys2Proof.Machine

/-! ### VEN_STATUS (R199, R220) -/

section
variable {s : State} {n : Nat} {c : Nat × Nat × Nat}

/-- What a refusal shows, before REFUSED is raised. -/
def venShown (s : State) (n : Nat) (c : Nat × Nat × Nat) : State :=
  let u := wr0 (wr0 s F.VEN_STATUS_CODE c.1) F.VEN_STATUS_SESSION n
  if c.1 = 1 then wr0 (wr0 u F.VEN_STATUS_REG c.2.1) F.VEN_STATUS_BIT c.2.2 else u

theorem venRefuse_eq (s : State) (n : Nat) (c : Nat × Nat × Nat) : venRefuse s n c = raise (venShown s n c) K.VEN_STATUS_REFUSED := rfl

/-- A field of the status below REG. -/
theorem rd_venShown_low {f : Fld} (reg : f.apart F.VEN_STATUS_REG = true) (bit : f.apart F.VEN_STATUS_BIT = true) :
    rd (venShown s n c) f = rd (wr0 (wr0 s F.VEN_STATUS_CODE c.1) F.VEN_STATUS_SESSION n) f := by
  unfold venShown
  dsimp only
  split
  · rw [rd_wr0_apart _ _ bit, rd_wr0_apart _ _ reg]
  · rfl

theorem venShown_eq (s : State) (n : Nat) (c : Nat × Nat × Nat) : venShown s n c = { s with regs := (venShown s n c).regs } := by
  unfold venShown
  dsimp only
  split <;> rfl

/-- A refused command raises REFUSED with its code and session, and touches nothing else. -/
theorem venRefuse_effect (s : State) (hc : c.1 < 16) (hn : n < 32) : let t := venRefuse s n c
    rd t F.VEN_STATUS_BUSY = rd s F.VEN_STATUS_BUSY ∧ rd t F.VEN_STATUS_REFUSED = 1 ∧ rd t F.VEN_STATUS_CODE = c.1 ∧
      rd t F.VEN_STATUS_SESSION = n ∧ t.ven = s.ven ∧ t.eas = s.eas ∧ t.mem = s.mem := by
  have busy : rd (venShown s n c) F.VEN_STATUS_BUSY = rd s F.VEN_STATUS_BUSY := by
    rw [rd_venShown_low (by decide) (by decide), rd_wr0_apart _ _ (by decide), rd_wr0_apart _ _ (by decide)]
  have code : rd (venShown s n c) F.VEN_STATUS_CODE = c.1 := by
    rw [rd_venShown_low (by decide) (by decide), rd_wr0_apart _ _ (by decide), rd_wr0_same _ _ hc]
  have session : rd (venShown s n c) F.VEN_STATUS_SESSION = n := by
    rw [rd_venShown_low (by decide) (by decide), rd_wr0_same _ _ hn]
  have shown := venShown_eq s n c
  rw [venRefuse_eq]
  generalize venShown s n c = u at busy code session shown
  have ven : u.ven = s.ven := by rw [shown]
  have eas : u.eas = s.eas := by rw [shown]
  have mem : u.mem = s.mem := by rw [shown]
  refine ⟨?_, rd_raise_flag u _ 0 rfl (by decide) (.inr (by decide)), ?_, ?_, ven, eas, mem⟩
  · rw [rd_raise_apart _ (by decide) (by decide), busy]
  · rw [rd_raise_apart _ (by decide) (by decide), code]
  · rw [rd_raise_apart _ (by decide) (by decide), session]

/-! ### The write of a command (R199, R200) -/

/-- A command in flight. -/
def venBegun (s : State) (op n : Nat) : State := { wr0 s F.VEN_STATUS_BUSY 1 with ven := { s.ven with op := some (op, n) } }

theorem venCmdWrite_begins {op : Nat} (hop : op ≠ 0) (idle : rd s F.VEN_STATUS_BUSY = 0) : venCmdWrite s op n = venBegun s op n := by
  rw [venCmdWrite, if_neg hop, if_neg (by rw [rdb, idle]; decide)]
  rfl

theorem venCmdWrite_busy {op : Nat} (hop : op ≠ 0) (busy : rd s F.VEN_STATUS_BUSY = 1) : venCmdWrite s op n = venRefuse s n (8, 0, 0) := by
  rw [venCmdWrite, if_neg hop, if_pos (by rw [rdb, busy]; rfl)]

theorem venBegun_effect (s : State) (op n : Nat) : let t := venBegun s op n
    rd t F.VEN_STATUS_BUSY = 1 ∧ t.ven = { s.ven with op := some (op, n) } ∧ t = { s with regs := t.regs, ven := t.ven } ∧
      sameRegsBut s t [R.VEN_STATUS.base] :=
  ⟨rd_wr0_same s F.VEN_STATUS_BUSY (by decide), rfl, rfl, fun _ ha => Map.find_put_ne _ _ fun e => ha (List.mem_singleton.2 e)⟩

/-! ### The end of a command (R199) -/

/-- A command at its end, no longer BUSY. -/
def venEnded (s : State) : State := wr0 { s with ven := { s.ven with op := none } } F.VEN_STATUS_BUSY 0

theorem rd_venEnded_busy (s : State) : rd (venEnded s) F.VEN_STATUS_BUSY = 0 := rd_wr0_same _ _ (by decide)

/-- The registers that stage a session, and those of the canvases and galleries, stand above VEN_STATUS. -/
theorem rd_venEnded_above (s : State) {f : Fld} (h : R.VEN_STATUS.base < f.reg.base) (i : Nat) : rd (venEnded s) f i = rd s f i :=
  rd_wr_reg _ _ _ _ _ _ _ _ (Reg.addr_ne_of_lt_base (r := R.VEN_STATUS) (i := 0) (j := 0) h i 0)

/-- A session is staged by registers above VEN_STATUS alone. -/
theorem stagedSession_congr {t : State} (above : ∀ {f : Fld}, R.VEN_STATUS.base < f.reg.base → ∀ i, rd t f i = rd s f i) (n : Nat) :
    stagedSession t n = stagedSession s n := by
  simp (disch := decide) only [stagedSession, refreshRate, canvasW, canvasH, galleryOf, rdb, above]

/-- The rules of R199 look at neither VEN_STATUS nor the command in flight. -/
theorem venRefusal_venEnded (s : State) (op n : Nat) : venRefusal (venEnded s) op n = venRefusal s op n := by
  unfold venRefusal
  rw [stagedSession_congr (rd_venEnded_above s)]
  rfl

/-- Codes are 1 to 7. -/
theorem venRefusal_code {op : Nat} (h : venRefusal s op n = some c) : c.1 < 16 := by
  have code {r : Nat × Nat × Nat} (h : r.1 < 16) : ∀ x ∈ some r, x.1 < 16 := by
    rintro x ⟨⟩
    exact h
  suffices ∀ x ∈ venRefusal s op n, x.1 < 16 from this c h
  unfold venRefusal
  refine forall_mem_ite ?_ (forall_mem_ite nofun (code (by decide)))
  split
  · exact code (by change 1 < 16; decide)
  · exact forall_mem_ite (code (by decide)) <| forall_mem_ite (code (by decide)) <| forall_mem_ite (code (by decide)) <|
      forall_mem_ite (code (by decide)) <| forall_mem_ite (code (by decide)) nofun

/-- The session of a command that ends is shown. -/
def venNamed (s : State) (n : Nat) : State := wr0 (venEnded s) F.VEN_STATUS_SESSION n

/-- The state with a session admitted as it is staged. -/
def sessionAdmitted (s : State) (n : Nat) : State := showSes (wr (setSes s n (stagedSession s n)) F.VEN_SES_WPTR_PTR n 0 0) n

/-- What an accepted command does as it ends, before DONE is raised. -/
def venAccepted (s : State) (op n : Nat) : State :=
  if op = 1 then sessionAdmitted s n else if op = 2 then removeSession s n else updSes s n fun x => { x with idrPend := true }

section
variable {op : Nat} (cmd : s.ven.op = some (op, n))
include cmd

theorem execVenCmdDone_refused (refusal : venRefusal s op n = some c) : exec .venCmdDone s = .next (venRefuse (venEnded s) n c) := by
  change execVenCmdDone s = _
  rw [← venRefusal_venEnded] at refusal
  unfold execVenCmdDone
  rw [cmd]
  dsimp only
  rw [← venEnded, refusal]

theorem execVenCmdDone_accepted (accepted : venRefusal s op n = none) :
    exec .venCmdDone s = .next (raise (venAccepted (venNamed s n) op n) K.VEN_STATUS_DONE) := by
  change execVenCmdDone s = _
  rw [← venRefusal_venEnded] at accepted
  unfold execVenCmdDone
  rw [cmd]
  dsimp only
  rw [← venEnded, accepted]
  rfl

end

/-! ### What an accepted command does (R199, R200, R203) -/

/-- VEN_STATUS stands below the sessions' registers. -/
theorem status_ne_session {f : Fld} (h : f.reg = R.VEN_STATUS) {r : Reg} (hr : R.VEN_STATUS.base < r.base) (n : Nat) :
    f.reg.addr 0 0 ≠ r.addr n 0 := by
  rw [h]
  exact (Reg.addr_ne_of_lt_base (r := R.VEN_STATUS) (i := 0) (j := 0) hr n 0).symm

theorem rd_sessionAdmitted_status (s : State) (n : Nat) {f : Fld} (h : f.reg = R.VEN_STATUS) : rd (sessionAdmitted s n) f = rd s f := by
  rw [sessionAdmitted, rd_showSes_reg _ _ (status_ne_session h (by decide) n)]
  exact rd_wr_reg _ _ _ _ _ _ _ _ (status_ne_session h (by decide) n)

theorem rd_venAccepted_status (s : State) (op n : Nat) {f : Fld} (h : f.reg = R.VEN_STATUS) : rd (venAccepted s op n) f = rd s f := by
  unfold venAccepted
  split
  · exact rd_sessionAdmitted_status s n h
  · split
    · exact rd_removeSession_reg s n (status_ne_session h (by decide) n)
    · rfl

theorem venAccepted_mem (s : State) (op n : Nat) : (venAccepted s op n).mem = s.mem := by
  unfold venAccepted
  split
  · rfl
  · split
    · exact removeSession_mem s n
    · rfl

theorem sesOf_venAccepted_ne (s : State) (op : Nat) {n m : Nat} (ne : m ≠ n) : sesOf (venAccepted s op n) m = sesOf s m := by
  unfold venAccepted
  split
  · rw [sessionAdmitted, sesOf_showSes]
    exact sesOf_setSes_ne s _ ne
  · split
    · exact sesOf_removeSession_ne s n ne
    · exact sesOf_setSes_ne s _ ne

/-- Of any accepted command: VEN_STATUS, and what else stays. -/
theorem venDone_effect (s : State) (op : Nat) (hn : n < 32) : let t := raise (venAccepted (venNamed s n) op n) K.VEN_STATUS_DONE
    rd t F.VEN_STATUS_BUSY = 0 ∧ rd t F.VEN_STATUS_DONE = 1 ∧ rd t F.VEN_STATUS_SESSION = n ∧ (∀ m, m ≠ n → sesOf t m = sesOf s m) ∧
      t.mem = s.mem := by
  have busy : rd (venNamed s n) F.VEN_STATUS_BUSY = 0 := (rd_wr0_apart _ _ (by decide)).trans (rd_venEnded_busy s)
  have session : rd (venNamed s n) F.VEN_STATUS_SESSION = n := rd_wr0_same _ _ hn
  refine ⟨?_, rd_raise_flag _ _ 0 rfl (by decide) (.inr (by decide)), ?_, fun m ne => sesOf_venAccepted_ne _ op ne,
    venAccepted_mem _ op n⟩
  · rw [rd_raise_apart _ (by decide) (by decide), rd_venAccepted_status _ _ _ rfl, busy]
  · rw [rd_raise_apart _ (by decide) (by decide), rd_venAccepted_status _ _ _ rfl, session]

/-- A field of a session's register, as a command is accepted. -/
theorem rd_accepted_session (u : State) {f : Fld} (h : R.VEN_STATUS_CNT.base < f.reg.base) (i : Nat) :
    rd (raise u K.VEN_STATUS_DONE) f i = rd u f i :=
  rd_raise_reg _ _ _ _ _ _
    (Reg.addr_ne_of_lt_base (r := R.VEN_STATUS) (i := 0) (j := 0) (Nat.lt_trans (by decide) h) i 0)
    (Reg.addr_ne_of_lt_base (r := R.VEN_STATUS_CNT) (i := 0) (j := 0) h i 0)

theorem rd_venNamed_above (s : State) (n : Nat) {f : Fld} (h : R.VEN_STATUS.base < f.reg.base) (i : Nat) :
    rd (venNamed s n) f i = rd s f i :=
  (rd_wr_reg _ _ _ _ _ _ _ _ (Reg.addr_ne_of_lt_base (r := R.VEN_STATUS) (i := 0) (j := 0) h i 0)).trans (rd_venEnded_above s h i)

/-- The session is that of its staged registers, its CPB full and WPTR 0. -/
theorem venDone_admits (s : State) (n : Nat) : let t := raise (sessionAdmitted (venNamed s n) n) K.VEN_STATUS_DONE
    sesOf t n = stagedSession s n ∧ (sesOf t n).cpb = rd s F.VEN_SES_CPB_CPB_KBIT n * 1000 ∧ rd t F.VEN_SES_WPTR_PTR n = 0 ∧
      rd t F.VEN_SES_STATE_ADMITTED n = 1 ∧ t.eas = s.eas := by
  have staged : sesOf (raise (sessionAdmitted (venNamed s n) n) K.VEN_STATUS_DONE) n = stagedSession s n := by
    rw [← stagedSession_congr (rd_venNamed_above s n)]
    exact sesOf_setSes _ _ _
  refine ⟨staged, by rw [staged, stagedSession], ?_, ?_, rfl⟩
  · rw [rd_accepted_session _ (by decide), sessionAdmitted, rd_showSes_reg _ _ (Reg.apart_addr (by decide) n),
      rd_wr_same _ _ _ _ _ (by decide), Nat.zero_mod]
  · rw [rd_accepted_session _ (by decide), sessionAdmitted, rd_showSes_admitted]
    change bit (sesOf (setSes _ n (stagedSession _ n)) n).admitted = 1
    rw [sesOf_setSes]
    rfl

/-- The session is empty, its picture's lease dropped and its canvas's write-back frame unselected. -/
theorem venDone_removes (s : State) (n : Nat) : let t := raise (removeSession (venNamed s n) n) K.VEN_STATUS_DONE
    sesOf t n = {} ∧ rd t F.VEN_SES_STATE_ADMITTED n = 0 ∧ (∀ w, (cnvOf t n).wb = some w → w.coded = false) ∧
      ∀ c, (sesOf s n).coding = some c → (sesOf s n).waiting = none → (descOf t c.desc).leases = (descOf s c.desc).leases - 1 := by
  refine ⟨sesOf_removeSession _ n, ?_, fun w hw => wb_removeSession _ n hw,
    fun c coding waiting => leases_removeSession (venNamed s n) n coding waiting⟩
  rw [rd_accepted_session _ (by decide), rd_removeSession_admitted]

end

/-! ### The statement -/

section
variable {s : State}

theorem venWrites_begin (n : BitVec 5) (idle : rd s F.VEN_STATUS_BUSY = 0) :
    exec (.venAdmit n) s = .next (venBegun s 1 n.toNat) ∧ exec (.venRemove n) s = .next (venBegun s 2 n.toNat) ∧
      exec (.venIdr n) s = .next (venBegun s 3 n.toNat) :=
  ⟨congrArg Host.Outcome.next (venCmdWrite_begins (by decide) idle), congrArg Host.Outcome.next (venCmdWrite_begins (by decide) idle),
    congrArg Host.Outcome.next (venCmdWrite_begins (by decide) idle)⟩

theorem venWrites_busy (n : BitVec 5) (busy : rd s F.VEN_STATUS_BUSY = 1) : let t := venRefuse s n.toNat (8, 0, 0)
    exec (.venAdmit n) s = .next t ∧ exec (.venRemove n) s = .next t ∧ exec (.venIdr n) s = .next t :=
  ⟨congrArg Host.Outcome.next (venCmdWrite_busy (by decide) busy), congrArg Host.Outcome.next (venCmdWrite_busy (by decide) busy),
    congrArg Host.Outcome.next (venCmdWrite_busy (by decide) busy)⟩

end

/-- Settles O31: a command begins or is refused by BUSY; at its end it is refused by R199, or admits, removes or leaves an IDR pending, and the
rules of R199 read the same registers at its end as before it. -/
theorem encoderSessions : Obligations.EncoderSessions := by
  unfold Obligations.EncoderSessions
  refine ⟨fun n s idle => ?_, fun n s busy => ?_, fun s op n c cmd hn refusal => ?_, fun s op n cmd hn accepted => ?_⟩
  · obtain ⟨admits, removes, idrs⟩ := venWrites_begin n idle
    refine ⟨_, _, _, admits, removes, idrs, fun x hx => ?_⟩
    simp only [List.mem_cons, List.not_mem_nil, or_false] at hx
    rcases hx with rfl | rfl | rfl <;> exact venBegun_effect s _ _
  · obtain ⟨admits, removes, idrs⟩ := venWrites_busy n busy
    obtain ⟨-, refused, code, session, ven, eas, mem⟩ := venRefuse_effect (c := (8, 0, 0)) s (by decide) n.isLt
    exact ⟨_, admits, removes, idrs, refused, code, session, ven, eas, mem⟩
  · obtain ⟨busy, refused, code, session, ven, eas, mem⟩ := venRefuse_effect (venEnded s) (venRefusal_code refusal) hn
    exact ⟨_, execVenCmdDone_refused cmd refusal, busy.trans (rd_venEnded_busy s), refused, code, session, ven, eas, mem⟩
  · obtain ⟨busy, done, session, others, mem⟩ := venDone_effect s op hn
    refine ⟨_, execVenCmdDone_accepted cmd accepted, busy, done, session, others, mem, ?_, ?_, ?_⟩
    · rintro rfl
      exact venDone_admits s n
    · rintro rfl
      exact venDone_removes s n
    · rintro rfl
      exact ⟨sesOf_setSes (venNamed s n) n _, rfl⟩

end Sys2Proof.Machine
end

