-- ==== Sys2Proof/Proofs/EncoderStart.lean ====
section
/-!
A picture starts: the session, its type and what the encoder codes (R203, R205, R207, R210, R211).
-/

namespace Sys2Proof.Machine

section
variable (s : State) (n : Nat) (w : WriteBack)

/-- The session as a picture of its waiting frame starts, before the encoder takes it: of the frame's size, and with none waiting. -/
def waitingTaken : Session := { sesOf s n with width := (wbPlace s w.desc).w, height := (wbPlace s w.desc).h, waiting := none }

/-- The causes for which the next picture is an IDR (R203). -/
def startsIdr : Bool :=
  let x := sesOf s n
  x.first || (x.gop != 0 && decide (x.gop ≤ x.sinceIdr)) || x.idrPend || x.notWritten ||
    (decide (x.width ≠ (wbPlace s w.desc).w) || decide (x.height ≠ (wbPlace s w.desc).h))

/-- The write-back header as the encoder reads it (R205). -/
def headerRead : State × Nat × List Byte := busRead s 72 (recordAddr (wbPlace s w.desc)) 64

/-- The write-back header fails its check (R205). -/
def headerBad : Bool :=
  (headerRead s w).2.1 != 0 ||
    !headerPasses (headerRead s w).2.2 s.straps.device domWriteBack n (w.frame % 2 ^ 32) (wbPlace s w.desc).base

/-- The picture that starts, before its parameter sets. -/
def codingBegun : Coding :=
  let x := waitingTaken s n w
  { desc := w.desc, frame := w.frame, idr := startsIdr s n w, gap := x.gapBefore, qp := nextQp (headerRead s w).1 x (startsIdr s n w)
    cap := capOf x w.ord, ord := w.ord, reference := if startsIdr s n w then none else x.reference, rows := rowCount x.codec x.height
    floorBits := floorSize x.codec x.width, hdrBad := headerBad s n w, map := w.map, sources := w.sources, latch := w.latch
    epoch := w.epoch }

/-- A picture with the parameter sets of its session, as far as they keep to H (R203, R211). -/
def withParams (u : State) (n : Nat) (x : Session) (c : Coding) : Coding :=
  { c with info := some (paramInfo x)
           params := (paramNals (paramInfo x)).take ((headBound x.width x.height - headBits u n x c) / 8) }

/-- The picture that starts. -/
def codingStarted : Coding :=
  if startsIdr s n w then withParams (headerRead s w).1 n (waitingTaken s n w) (codingBegun s n w) else codingBegun s n w

/-- The session with the picture started. -/
def sessionStarted : Session :=
  { waitingTaken s n w with coding := some (codingStarted s n w), idrPend := false, notWritten := false, gapBefore := false }

/-- The state with the picture started. -/
def encoderStarted : State := showSes (setSes (headerRead s w).1 n (sessionStarted s n w)) n

/-- The parameter sets leave the rest of the picture, and come with an IDR alone. -/
theorem codingStarted_eq : ∃ i p, codingStarted s n w = { codingBegun s n w with info := i, params := p } ∧ i.isSome = startsIdr s n w := by
  unfold codingStarted
  cases startsIdr s n w
  · exact ⟨none, [], rfl, rfl⟩
  · exact ⟨_, _, rfl, rfl⟩

/-- A CQP session (R210). -/
theorem codingBegun_cqp (cqp : (sesOf s n).mode = 2) :
    (codingBegun s n w).qp = (if startsIdr s n w then (sesOf s n).qpI else (sesOf s n).qpP) ∧
      (codingBegun s n w).cap = (sesOf s n).picMax * 1000 := by
  have mode : (waitingTaken s n w).mode = 2 := cqp
  refine ⟨if_pos mode, ?_⟩
  simp only [codingBegun, capOf, mode]
  rfl

theorem sesOf_encoderStarted : sesOf (encoderStarted s n w) n = sessionStarted s n w := by
  rw [encoderStarted, sesOf_showSes, sesOf_setSes]

theorem encoderStarted_mem : (encoderStarted s n w).mem = s.mem := busRead_mem s 72 _ 64
theorem encoderStarted_eas : (encoderStarted s n w).eas = s.eas := (busRead_kept s 72 _ 64).eas

theorem rd_encoderStarted : rd (encoderStarted s n w) F.VEN_SES_STATE_CODING n = 1 ∧
    rd (encoderStarted s n w) F.VEN_SES_STATE_WAITING n = 0 := by
  rw [encoderStarted, rd_showSes_coding, rd_showSes_waiting, sesOf_setSes]
  exact ⟨rfl, rfl⟩

end

section
variable {s : State} {n k : Nat} {w : WriteBack}

theorem execEncPictureStart_eq (free : encoderBusy s = false) (next : nextWaiting s = some n) (waiting : (sesOf s n).waiting = some (k, w))
    (runs : accessWaits s 72 = false) : exec .encPictureStart s = .next (encoderStarted s n w) := by
  change execEncPictureStart s = _
  unfold execEncPictureStart
  rw [free, runs, next]
  dsimp only
  rw [waiting]
  rfl

end

end Sys2Proof.Machine
end

