-- ==== Sys2Proof/Proofs/EncoderRows.lean ====
section
/-!
A coding-block row is read and coded: the check of its tiles, and the row accepted, discarded or a floor row (R204, R205, R211).
-/

namespace Sys2Proof.Machine

/-! ### The tiles of a row are checked (R205) -/

section
variable (s : State) (n : Nat) (x : Session) (c : Coding) (err : Bool)

/-- The tiles of the picture's next row. -/
def tilesOfRow : List Nat := ((codedTileRows x.codec x.height c.row).map fun r => rowTiles (wbPlace s c.desc) r).flatten

/-- What the check of tiles has come to: the state, the picture and the tiles read. -/
abbrev RowCheck := State × Coding × TileInput

/-- The seal of a tile as it stands in the write-back record. -/
def sealRead (a : RowCheck) (t : Nat) : State × Nat × List Byte := busRead a.1 72 (recordAddr (wbPlace s c.desc) + 64 + 4 * t) 4

/-- A tile of the write-back frame as it is read, after its seal. -/
def rowTileRead (a : RowCheck) (t : Nat) : State × Bool × List Byte := readTile (sealRead s c a t).1 72 (wbPlace s c.desc) t

/-- A tile that is read without an error passes its check. -/
def tilePasses (a : RowCheck) (t : Nat) : Bool :=
  !c.hdrBad && !err && (sealRead s c a t).2.1 == 0 && !(rowTileRead s c a t).2.1 &&
    tileSeal s.straps.device domWriteBack n (c.frame % 2 ^ 32) t (wbPlace s c.desc).base (rowTileRead s c a t).2.2 ==
      leNat (sealRead s c a t).2.2

/-- The check of one more tile. -/
def rowTileChecked (a : RowCheck) (t : Nat) : RowCheck :=
  let u := (rowTileRead s c a t).1
  if tilePasses s n c err a t then (u, a.2.1, a.2.2.put t (some (rowTileRead s c a t).2.2))
  else (raise u K.VEN_SES_EVENT_SEAL_FAIL n, { a.2.1 with sealFail := true, map := a.2.1.map.set t (verdictCode .unverified) },
    a.2.2.put t none)

theorem checkCodedRow_eq : checkCodedRow s n x c err = (tilesOfRow s x c).foldl (rowTileChecked s n c err) (s, c, []) := rfl

theorem rowTileRead_kept (a : RowCheck) (t : Nat) : PathKept a.1 (rowTileRead s c a t).1 := (busRead_kept _ _ _ _).trans (readTile_kept _ _ _ _)

theorem rowTileRead_mem (a : RowCheck) (t : Nat) : (rowTileRead s c a t).1.mem = a.1.mem := (readTile_mem _ _ _ _).trans (busRead_mem _ _ _ _)

theorem rowTileChecked_mem (a : RowCheck) (t : Nat) : (rowTileChecked s n c err a t).1.mem = a.1.mem := by
  unfold rowTileChecked
  dsimp only
  split <;> exact rowTileRead_mem s c a t

theorem rowTileChecked_eas (a : RowCheck) (t : Nat) : (rowTileChecked s n c err a t).1.eas = a.1.eas := by
  unfold rowTileChecked
  dsimp only
  split <;> exact (rowTileRead_kept s c a t).eas

/-- A picture without what the check of its tiles marks. -/
def Coding.unmarked (c : Coding) : Coding := { c with sealFail := false, map := [] }

theorem rowTileChecked_unmarked (a : RowCheck) (t : Nat) : (rowTileChecked s n c err a t).2.1.unmarked = a.2.1.unmarked := by
  unfold rowTileChecked
  dsimp only
  split <;> rfl

theorem checkCodedRow_mem : (checkCodedRow s n x c err).1.mem = s.mem :=
  foldl_field (fun a : RowCheck => a.1.mem) (rowTileChecked_mem s n c err) _ _

theorem checkCodedRow_eas : (checkCodedRow s n x c err).1.eas = s.eas :=
  foldl_field (fun a : RowCheck => a.1.eas) (rowTileChecked_eas s n c err) _ _

theorem checkCodedRow_unmarked : (checkCodedRow s n x c err).2.1.unmarked = c.unmarked :=
  foldl_field (fun a : RowCheck => a.2.1.unmarked) (rowTileChecked_unmarked s n c err) _ _

/-- After a read error every tile fails, so the last one marks the picture. -/
theorem checkCodedRow_fails (tiles : tilesOfRow s x c ≠ []) :
    rd (checkCodedRow s n x c true).1 F.VEN_SES_EVENT_SEAL_FAIL n = 1 ∧ (checkCodedRow s n x c true).2.1.sealFail = true := by
  have round (a : RowCheck) (t : Nat) : rd (rowTileChecked s n c true a t).1 F.VEN_SES_EVENT_SEAL_FAIL n = 1 ∧
      (rowTileChecked s n c true a t).2.1.sealFail = true := by
    have bad : tilePasses s n c true a t = false := by simp [tilePasses]
    rw [rowTileChecked, bad]
    exact ⟨rd_raise_session _ n rfl (by decide) (by decide), rfl⟩
  rw [checkCodedRow_eq, ← List.dropLast_append_getLast tiles, List.foldl_append]
  exact round _ _

end

/-! ### A row is read once (R204, R205) -/

/-- A picture without what the reading of a row marks. -/
def Coding.unread (c : Coding) : Coding := { c.unmarked with checked := 0, input := [] }

section
variable {s : State} {n : Nat} {x : Session} {c : Coding} {err : Bool}

theorem readCodedRow_again (again : c.row < c.checked) : readCodedRow s n x c err = (s, c) := if_pos again

theorem readCodedRow_first (first : c.checked ≤ c.row) : ∃ l, readCodedRow s n x c err =
    ((checkCodedRow s n x c err).1, { (checkCodedRow s n x c err).2.1 with checked := c.row + 1, input := l }) :=
  ⟨_, if_neg (Nat.not_lt.2 first)⟩

theorem readCodedRow_kept (s : State) (n : Nat) (x : Session) (c : Coding) (err : Bool) : let r := readCodedRow s n x c err
    r.1.mem = s.mem ∧ r.1.eas = s.eas ∧ r.2.unread = c.unread := by
  rcases Nat.lt_or_ge c.row c.checked with again | first
  · rw [readCodedRow_again again]
    exact ⟨rfl, rfl, rfl⟩
  · obtain ⟨l, read⟩ := readCodedRow_first (s := s) (n := n) (x := x) (err := err) first
    rw [read]
    exact ⟨checkCodedRow_mem s n x c err, checkCodedRow_eas s n x c err,
      (congrArg (fun d : Coding => ({ d with checked := 0, input := [] } : Coding)) (checkCodedRow_unmarked s n x c err) :)⟩

/-- Reading a row leaves what has been coded. -/
theorem readCodedRow_coded (s : State) (n : Nat) (x : Session) (c : Coding) (err : Bool) : let d := (readCodedRow s n x c err).2
    d.row = c.row ∧ d.floors = c.floors ∧ d.floored = c.floored ∧ d.stream = c.stream ∧ d.codes = c.codes ∧ d.idr = c.idr ∧
      d.floorBits = c.floorBits := by
  obtain ⟨-, -, same⟩ := readCodedRow_kept s n x c err
  exact ⟨(congrArg Coding.row same :), (congrArg Coding.floors same :), (congrArg Coding.floored same :), (congrArg Coding.stream same :),
    (congrArg Coding.codes same :), (congrArg Coding.idr same :), (congrArg Coding.floorBits same :)⟩

theorem readCodedRow_checked (first : c.checked ≤ c.row) : (readCodedRow s n x c err).2.checked = c.row + 1 := by
  obtain ⟨l, read⟩ := readCodedRow_first (s := s) (n := n) (x := x) (err := err) first
  rw [read]

theorem readCodedRow_fails (first : c.checked ≤ c.row) (tiles : tilesOfRow s x c ≠ []) :
    rd (readCodedRow s n x c true).1 F.VEN_SES_EVENT_SEAL_FAIL n = 1 ∧ (readCodedRow s n x c true).2.sealFail = true := by
  obtain ⟨l, read⟩ := readCodedRow_first (s := s) (n := n) (x := x) (err := true) first
  rw [read]
  exact checkCodedRow_fails s n x c tiles

end

/-! ### Bits of rows -/

theorem msbBits_length (l : List Byte) : (msbBits l).length = 8 * l.length := by
  induction l with
  | nil => rfl
  | cons b l ih =>
    have byte : (msbBits (b :: l)).length = 8 + (msbBits l).length := by simp [msbBits, upto]
    rw [byte, ih, List.length_cons]
    omega

theorem rowBits_length (l : List Byte) (n : Nat) : (rowBits l n).length = n := by
  rw [rowBits, List.length_take, List.length_append, List.length_replicate]
  omega

/-- A floor row is one more row of at most F bits after those accepted: skip, or DC in an I picture (R211). -/
theorem floorRow_effect (x : Session) (d : Coding) : let e := floorRow x d
    e.row = d.row + 1 ∧ e.floors = d.floors + 1 ∧ e.bits ≤ d.bits + d.floorBits ∧ d.stream <+: e.stream ∧
      e.codes = d.codes ++ [if d.idr then .dcFloor else .skip] := by
  refine ⟨rfl, rfl, ?_, ⟨_, rfl⟩, rfl⟩
  simp only [Coding.bits, floorRow, List.length_append, msbBits_length, List.length_take]
  omega

/-! ### The row is coded (R211) -/

section
variable (s : State) (n : Nat) (c : Coding) (bits : Nat) (l : List Byte) (err : Bool)

/-- With the row, floor rows for all that follow would not keep the picture within its cap. -/
abbrev rowTooBig : Prop :=
  headBits s n (sesOf s n) (readCodedRow s n (sesOf s n) c err).2 + c.bits + bits + (c.rows - c.row - 1) * c.floorBits > c.cap

/-- The picture with a row accepted. -/
def rowAccepted (d : Coding) : Coding :=
  { d with row := c.row + 1, stream := c.stream ++ rowBits l bits, codes := c.codes ++ [.coded] }

/-- The picture after a row: a floor row once rows are discarded, this row discarded, or accepted. -/
def rowTaken : Coding :=
  let d := (readCodedRow s n (sesOf s n) c err).2
  if c.floored then floorRow (sesOf s n) d else if rowTooBig s n c bits err then { d with floored := true } else rowAccepted c bits l d

/-- The state after a row. -/
def encoderRow : State :=
  setSes (readCodedRow s n (sesOf s n) c err).1 n { sesOf s n with coding := some (rowTaken s n c bits l err) }

variable {s n c bits l err}

theorem rowTaken_floor (floored : c.floored = true) :
    rowTaken s n c bits l err = floorRow (sesOf s n) (readCodedRow s n (sesOf s n) c err).2 := if_pos floored

theorem rowTaken_discarded (floored : c.floored = false) (big : rowTooBig s n c bits err) :
    rowTaken s n c bits l err = { (readCodedRow s n (sesOf s n) c err).2 with floored := true } := by
  simp only [rowTaken, floored, Bool.false_eq_true, if_false, if_pos big]

theorem rowTaken_accepted (floored : c.floored = false) (fits : ¬ rowTooBig s n c bits err) :
    rowTaken s n c bits l err = rowAccepted c bits l (readCodedRow s n (sesOf s n) c err).2 := by
  simp only [rowTaken, floored, Bool.false_eq_true, if_false, if_neg fits]

/-- A floor row after the rows that the picture had before its tiles were checked. -/
theorem rowTaken_floor_effect (floored : c.floored = true) : let d := rowTaken s n c bits l err
    d.row = c.row + 1 ∧ d.floors = c.floors + 1 ∧ d.bits ≤ c.bits + c.floorBits ∧ c.stream <+: d.stream ∧
      d.codes = c.codes ++ [if c.idr then .dcFloor else .skip] := by
  obtain ⟨row, floors, -, stream, codes, idr, floorBits⟩ := readCodedRow_coded s n (sesOf s n) c err
  have bits : (readCodedRow s n (sesOf s n) c err).2.bits = c.bits := congrArg List.length stream
  rw [rowTaken_floor floored, ← row, ← floors, ← bits, ← stream, ← codes, ← idr, ← floorBits]
  exact floorRow_effect (sesOf s n) _

theorem rowTaken_discarded_effect (floored : c.floored = false) (big : rowTooBig s n c bits err) : let d := rowTaken s n c bits l err
    d.row = c.row ∧ d.stream = c.stream ∧ d.floored = true := by
  obtain ⟨row, -, -, stream, -⟩ := readCodedRow_coded s n (sesOf s n) c err
  rw [rowTaken_discarded floored big]
  exact ⟨row, stream, rfl⟩

theorem rowTaken_accepted_effect (floored : c.floored = false) (fits : ¬ rowTooBig s n c bits err) : let d := rowTaken s n c bits l err
    d.row = c.row + 1 ∧ d.floors = c.floors ∧ d.bits = c.bits + bits ∧ d.stream = c.stream ++ rowBits l bits ∧ d.floored = false ∧
      d.codes = c.codes ++ [.coded] := by
  obtain ⟨-, floors, still, -⟩ := readCodedRow_coded s n (sesOf s n) c err
  rw [rowTaken_accepted floored fits]
  refine ⟨rfl, floors, ?_, rfl, still.trans floored, rfl⟩
  rw [Coding.bits, rowAccepted, List.length_append, rowBits_length, Coding.bits]

/-- Coding a row leaves what the check of its tiles has marked. -/
theorem rowTaken_marks : (rowTaken s n c bits l err).map = (readCodedRow s n (sesOf s n) c err).2.map ∧
    (rowTaken s n c bits l err).sealFail = (readCodedRow s n (sesOf s n) c err).2.sealFail ∧
    (rowTaken s n c bits l err).checked = (readCodedRow s n (sesOf s n) c err).2.checked := by
  unfold rowTaken
  dsimp only
  split
  · exact ⟨rfl, rfl, rfl⟩
  · split <;> exact ⟨rfl, rfl, rfl⟩

theorem execEncRowDone_eq {bits : BitVec 32} (coding : codingSession s = some (n, c)) (more : c.row < c.rows) (runs : accessWaits s 72 = false) :
    exec (.encRowDone bits l err) s = .next (encoderRow s n c bits.toNat l err) := by
  have goes : ¬ (c.rows ≤ c.row ∨ accessWaits s 72 = true) := by simp [runs, more]
  change execEncRowDone bits l err s = _
  unfold execEncRowDone
  rw [coding]
  dsimp only
  rw [if_neg goes, encoderRow]
  by_cases floored : c.floored = true
  · rw [if_pos floored, rowTaken_floor floored]
  · have kept : c.floored = false := Bool.eq_false_iff.2 floored
    rw [if_neg floored]
    by_cases big : rowTooBig s n c bits.toNat err
    · rw [rowTaken_discarded kept big]
      exact if_pos big
    · rw [rowTaken_accepted kept big]
      exact if_neg big

end

end Sys2Proof.Machine
end

