-- ==== Sys2Proof/Proofs/EncoderRing.lean ====
section
/-!
A picture is done and its access unit goes to the ring (R203, R208 to R215): the unit and its filler, the session that it leaves, the place of
its entry and its write.
-/

namespace Sys2Proof.Machine

/-! ### Filler (R210, R212) -/

section
variable {codec n : Nat}

theorem fillerNal_length (h : n = 0 ∨ (fillerHead codec).length + 1 ≤ n) : (fillerNal codec n).length = n := by
  unfold fillerNal
  rcases h with rfl | least
  · rfl
  · rw [if_neg (by omega), List.length_append, List.length_append, List.length_replicate, List.length_singleton]
    omega

variable {excess room : Nat}

/-- A filler NAL unit has at least its head and its trailing bits, or there is none. -/
theorem fillerBytes_least : fillerBytes codec excess room = 0 ∨ (fillerHead codec).length + 1 ≤ fillerBytes codec excess room := by
  unfold fillerBytes
  dsimp only
  split
  · exact .inl rfl
  · omega

/-- Where a NAL unit fits, filler takes the excess, or all but a part of a byte of the room. -/
theorem fillerBytes_enough (fits : 8 * ((fillerHead codec).length + 1) ≤ room) :
    excess ≤ 8 * fillerBytes codec excess room ∨ room < 8 * fillerBytes codec excess room + 8 := by
  unfold fillerBytes ceilDiv
  dsimp only
  split <;> omega

end

/-! ### The picture is done (R203, R208 to R212) -/

section
variable (s : State) (n : Nat) (c : Coding)

/-- The picture's bytes: parameter sets, SEI message and rows. -/
def pictureBytes : List Byte :=
  c.params ++ seiNal (sesOf s n).codec (seiPayload s n (sesOf s n) c) ++ bitsToBytes c.stream

/-- The filler after the picture. -/
def unitFiller : List Byte :=
  let x := sesOf s n
  let bits := 8 * (pictureBytes s n c).length
  let full := cpbFull x c.ord
  fillerNal x.codec (if x.mode = 0 then fillerBytes x.codec (full - bits + periodBits x - x.cpbKbit * 1000) (full - bits) else 0)

/-- The access unit. -/
def unitBytes : List Byte := pictureBytes s n c ++ unitFiller s n c

/-- The place of the unit's entry in the ring. -/
def unitPlace : Option Nat :=
  ringPlace ((sesOf s n).mib * 2 ^ 20) (rd s F.VEN_SES_WPTR_PTR n) (rd s F.VEN_SES_RPTR_PTR n) (entryLen (unitBytes s n c))

/-- The session after the picture. -/
def sessionDone : Session :=
  let x := sesOf s n
  let bits := 8 * (pictureBytes s n c).length
  { x with
    coding := none
    ready := some ({ c with bytes := unitBytes s n c }, unitPlace s n c)
    reference := some c.frame
    notWritten := (unitPlace s n c).isNone
    first := false
    sinceIdr := if c.idr then 1 else x.sinceIdr + 1
    lastI := if c.idr then some (bits, c.qp) else x.lastI
    lastP := if c.idr then x.lastP else some (bits, c.qp)
    cpb := cpbFull x c.ord - 8 * (unitBytes s n c).length
    cpbAt := c.ord
    recent := (s.time.cyc, bits) :: x.recent.filter fun e => decide (s.time.cyc < e.1 + msCyc 1000) }

/-- The state after the picture, before FLOOR may be raised. -/
def pictureShown : State :=
  let u := showSes (setSes (dropLease s c.desc) n (sessionDone s n c)) n
  wr (wr u F.VEN_SES_STATE_QP_LAST n 0 c.qp) F.VEN_SES_STATE_FLOOR_LAST n 0 c.floors

/-- The state after the picture. -/
def encoderDone : State := also (decide (0 < c.floors)) (fun s => raise s K.VEN_SES_EVENT_FLOOR n) (pictureShown s n c)

theorem encoderDone_cases : (0 < c.floors ∧ encoderDone s n c = raise (pictureShown s n c) K.VEN_SES_EVENT_FLOOR n) ∨
    (c.floors = 0 ∧ encoderDone s n c = pictureShown s n c) := by
  rcases Nat.eq_zero_or_pos c.floors with none_ | some_
  · exact .inr ⟨none_, by rw [encoderDone, none_]; rfl⟩
  · exact .inl ⟨some_, by rw [encoderDone, decide_eq_true some_]; rfl⟩

theorem sesOf_encoderDone : sesOf (encoderDone s n c) n = sessionDone s n c := by
  rcases encoderDone_cases s n c with ⟨-, e⟩ | ⟨-, e⟩ <;> rw [e] <;> exact sesOf_setSes _ _ _

theorem encoderDone_mem : (encoderDone s n c).mem = s.mem := by
  rcases encoderDone_cases s n c with ⟨-, e⟩ | ⟨-, e⟩ <;> rw [e] <;> rfl

theorem encoderDone_leases : (descOf (encoderDone s n c) c.desc).leases = (descOf s c.desc).leases - 1 := by
  rcases encoderDone_cases s n c with ⟨-, e⟩ | ⟨-, e⟩ <;> rw [e] <;> exact dropLease_leases s c.desc

/-- A field of VEN_SES_STATE, which FLOOR leaves alone. -/
theorem rd_encoderDone_state {f : Fld} (h : f.reg = R.VEN_SES_STATE) : rd (encoderDone s n c) f n = rd (pictureShown s n c) f n := by
  rcases encoderDone_cases s n c with ⟨-, e⟩ | ⟨-, e⟩ <;> rw [e]
  exact rd_raise_reg _ _ _ _ _ _ (by rw [h]; exact Reg.apart_addr (by decide) n) (by rw [h]; exact Reg.apart_addr (by decide) n)

theorem rd_encoderDone : rd (encoderDone s n c) F.VEN_SES_STATE_QP_LAST n = c.qp % 64 ∧
    rd (encoderDone s n c) F.VEN_SES_STATE_FLOOR_LAST n = c.floors % 256 ∧ rd (encoderDone s n c) F.VEN_SES_STATE_CODING n = 0 := by
  rw [rd_encoderDone_state _ _ _ rfl, rd_encoderDone_state _ _ _ rfl, rd_encoderDone_state _ _ _ rfl, pictureShown]
  refine ⟨?_, rd_wr_same _ _ _ _ _ (by decide), ?_⟩
  · rw [rd_wr_apartInBlock _ _ _ (by decide)]
    exact rd_wr_same _ _ _ _ _ (by decide)
  · rw [rd_wr_apartInBlock _ _ _ (by decide), rd_wr_apartInBlock _ _ _ (by decide), rd_showSes_coding, sesOf_setSes]
    rfl

theorem rd_pictureShown_floor : rd (pictureShown s n c) F.VEN_SES_EVENT_FLOOR n = rd s F.VEN_SES_EVENT_FLOOR n := by
  rw [pictureShown, rd_wr_apartInBlock _ _ _ (by decide), rd_wr_apartInBlock _ _ _ (by decide),
    rd_showSes_reg _ _ (Reg.apart_addr (by decide) n)]
  rfl

theorem rd_encoderDone_floor : (0 < c.floors → rd (encoderDone s n c) F.VEN_SES_EVENT_FLOOR n = 1) ∧
    (c.floors = 0 → rd (encoderDone s n c) F.VEN_SES_EVENT_FLOOR n = rd s F.VEN_SES_EVENT_FLOOR n) := by
  rcases encoderDone_cases s n c with ⟨some_, e⟩ | ⟨none_, e⟩ <;> rw [e]
  · exact ⟨fun _ => rd_raise_session _ n rfl (by decide) (by decide), fun none_ => absurd none_ (Nat.ne_of_gt some_)⟩
  · exact ⟨fun some_ => absurd none_ (Nat.ne_of_gt some_), fun _ => rd_pictureShown_floor s n c⟩

theorem unitFiller_other (other : (sesOf s n).mode ≠ 0) : unitFiller s n c = [] := by
  rw [unitFiller, if_neg other]
  rfl

/-- In CBR the filler leaves the CPB room for a period's bits, where the picture leaves room for a filler NAL unit (R210, R212). -/
theorem unitFiller_leaves_room (cbr : (sesOf s n).mode = 0) (period : periodBits (sesOf s n) + 8 ≤ (sesOf s n).cpbKbit * 1000)
    (fits : 8 * (pictureBytes s n c).length + 8 * ((fillerHead (sesOf s n).codec).length + 1) ≤ cpbFull (sesOf s n) c.ord) :
    cpbFull (sesOf s n) c.ord - 8 * (unitBytes s n c).length + periodBits (sesOf s n) ≤ (sesOf s n).cpbKbit * 1000 := by
  have least := fillerBytes_least (codec := (sesOf s n).codec)
    (excess := cpbFull (sesOf s n) c.ord - 8 * (pictureBytes s n c).length + periodBits (sesOf s n) - (sesOf s n).cpbKbit * 1000)
    (room := cpbFull (sesOf s n) c.ord - 8 * (pictureBytes s n c).length)
  have enough := fillerBytes_enough (codec := (sesOf s n).codec)
    (excess := cpbFull (sesOf s n) c.ord - 8 * (pictureBytes s n c).length + periodBits (sesOf s n) - (sesOf s n).cpbKbit * 1000)
    (room := cpbFull (sesOf s n) c.ord - 8 * (pictureBytes s n c).length) (by omega)
  rw [unitBytes, List.length_append, unitFiller, if_pos cbr, fillerNal_length least]
  omega

end

theorem execEncPictureDone_eq {s : State} {n : Nat} {c : Coding} (coding : codingSession s = some (n, c)) (all : c.rows ≤ c.row)
    (free : (sesOf s n).ready = none) : exec .encPictureDone s = .next (encoderDone s n c) := by
  have goes : ¬ (c.row < c.rows ∨ (sesOf s n).ready.isSome = true) := by simp [free, all]
  change execEncPictureDone s = _
  unfold execEncPictureDone
  rw [coding]
  exact if_neg goes

/-! ### The unit goes to the ring (R209, R213 to R215) -/

/-- What stands by in a state, with a session replaced. -/
def Bystanders.withSession (b : Bystanders) (n : Nat) (y : Session) : Bystanders :=
  { b with ven := { b.ven with sessions := b.ven.sessions.put n y } }

theorem setSes_standingBy (s : State) (n : Nat) (y : Session) : setSes s n y = standingBy ((bystanders s).withSession n y) s := rfl

/-- A write does alike whatever the sessions are. -/
theorem busWrite_setSes (s : State) (n : Nat) (y : Session) (master a : Nat) (l : List Byte) :
    (busWrite (setSes s n y) master a l).1 = setSes (busWrite s master a l).1 n y := by
  rw [setSes_standingBy, busWrite_standingBy, setSes_standingBy (busWrite s master a l).1, busWrite_bystanders]
  rfl

section
variable {s : State} {n : BitVec 5} {c : Coding} {place : Option Nat}

/-- The entry of a unit in the ring: its header and bytes, padded to 64 bytes. -/
def ringEntry (c : Coding) : List Byte :=
  let e := entryHeader c.bytes.length c.frame (bit c.idr + 2 * bit (decide (0 < c.floors)) + 4 * bit c.sealFail) c.qp c.floors ++ c.bytes
  e ++ List.replicate (entryLen c.bytes - e.length) 0

/-- The session once its unit has left the encoder. -/
def unitTaken (s : State) (n : Nat) : Session := { sesOf s n with ready := none }

/-- The state with an entry written at an offset of the ring, and WPTR behind it. -/
def entryWritten (s u : State) (n at_ : Nat) (c : Coding) : State :=
  wr (setSes (busWrite u 72 ((sesOf s n).addr + at_) (ringEntry c)).1 n (unitTaken s n)) F.VEN_SES_WPTR_PTR n 0
    ((at_ + entryLen c.bytes) % ((sesOf s n).mib * 2 ^ 20))

/-- The padding before an entry that starts anew at the ring's base. -/
def paddingWritten (s : State) (n pad : Nat) : State :=
  (busWrite s 72 ((sesOf s n).addr + rd s F.VEN_SES_WPTR_PTR n) (entryHeader (pad - 16) 0 0x80 0 0)).1

theorem execEncAuWritten_none (ready : (sesOf s n.toNat).ready = none) : exec (.encAuWritten n) s = .next s := by
  change execEncAuWritten n s = _
  unfold execEncAuWritten
  dsimp only
  rw [ready]

variable (runs : accessWaits s 72 = false)
include runs

theorem execEncAuWritten_full (ready : (sesOf s n.toNat).ready = some (c, none)) :
    exec (.encAuWritten n) s = .next (raise (setSes s n.toNat (unitTaken s n.toNat)) K.VEN_SES_EVENT_RING_FULL n.toNat) := by
  change execEncAuWritten n s = _
  unfold execEncAuWritten
  dsimp only
  rw [ready]
  dsimp only
  rw [if_neg (by rw [runs]; decide)]
  rfl

theorem execEncAuWritten_placed (ready : (sesOf s n.toNat).ready = some (c, some 0)) :
    exec (.encAuWritten n) s = .next (entryWritten s s n.toNat (rd s F.VEN_SES_WPTR_PTR n.toNat) c) := by
  rw [entryWritten, ← busWrite_setSes]
  change execEncAuWritten n s = _
  unfold execEncAuWritten
  dsimp only
  rw [ready]
  dsimp only
  rw [if_neg (by rw [runs]; decide)]
  rfl

theorem execEncAuWritten_padded {pad : Nat} (ready : (sesOf s n.toNat).ready = some (c, some pad)) (padded : 0 < pad) :
    exec (.encAuWritten n) s = .next (entryWritten s (paddingWritten s n.toNat pad) n.toNat 0 c) := by
  rw [entryWritten, ← busWrite_setSes, paddingWritten, ← busWrite_setSes]
  change execEncAuWritten n s = _
  unfold execEncAuWritten
  dsimp only
  rw [ready]
  dsimp only
  rw [if_neg (by rw [runs]; decide), if_neg (Nat.ne_of_gt padded), if_neg (Nat.ne_of_gt padded)]
  rfl

omit runs

/-- An entry written: WPTR behind it, within the ring, and the session without its unit. -/
theorem entryWritten_effect (s u : State) (at_ : Nat) (c : Coding) {n : Nat} (some_ : 1 ≤ (sesOf s n).mib) (small : (sesOf s n).mib ≤ 255) :
    rd (entryWritten s u n at_ c) F.VEN_SES_WPTR_PTR n = (at_ + entryLen c.bytes) % ((sesOf s n).mib * 2 ^ 20) ∧
      sesOf (entryWritten s u n at_ c) n = unitTaken s n ∧
      (entryWritten s u n at_ c).mem = (busWrite u 72 ((sesOf s n).addr + at_) (ringEntry c)).1.mem := by
  have within : (at_ + entryLen c.bytes) % ((sesOf s n).mib * 2 ^ 20) < (sesOf s n).mib * 2 ^ 20 := Nat.mod_lt _ (by omega)
  have fits : (at_ + entryLen c.bytes) % ((sesOf s n).mib * 2 ^ 20) < 2 ^ F.VEN_SES_WPTR_PTR.w := by
    change _ < 2 ^ 28
    omega
  unfold entryWritten
  generalize (at_ + entryLen c.bytes) % ((sesOf s n).mib * 2 ^ 20) = wptr at fits ⊢
  refine ⟨?_, sesOf_setSes _ _ _, by rw [wr_mem, setSes_mem]⟩
  rw [rd_wr_same _ _ _ _ _ (by decide), Nat.mod_eq_of_lt fits]

/-- A unit without a place: RING_FULL, and WPTR as it was. -/
theorem ringFull_effect (s : State) (n : Nat) : let t := raise (setSes s n (unitTaken s n)) K.VEN_SES_EVENT_RING_FULL n
    rd t F.VEN_SES_EVENT_RING_FULL n = 1 ∧ sesOf t n = unitTaken s n ∧ rd t F.VEN_SES_WPTR_PTR n = rd s F.VEN_SES_WPTR_PTR n ∧
      t.mem = s.mem :=
  ⟨rd_raise_session _ n rfl (by decide) (by decide), sesOf_setSes _ _ _, rd_raise_apartInBlock _ _ (by decide) (by decide), rfl⟩

end

end Sys2Proof.Machine
end

