-- ==== Sys2Proof/Proofs/EncoderPictures.lean ====
section
/-!
The encoder's pictures from start to ring (R203 to R215).
-/

namespace Sys2Proof.Machine

/-- Settles O32: a lemma for each of the picture's steps, over the state that the step leaves; an entry is written beside the session that changes
meanwhile, which no write looks at. -/
theorem encoderPictures : Obligations.EncoderPictures := by
  unfold Obligations.EncoderPictures
  refine ⟨?_, ?_, ?_, fun n s none_ => execEncAuWritten_none none_, ?_⟩
  · intro s n k w free next waiting _ runs
    obtain ⟨i, params, started, info⟩ := codingStarted_eq s n w
    obtain ⟨coding, idle⟩ := rd_encoderStarted s n w
    refine ⟨encoderStarted s n w, codingStarted s n w, execEncPictureStart_eq free next waiting runs, ?_⟩
    rw [sesOf_encoderStarted, started]
    exact ⟨congrArg some started, rfl, rfl, rfl, rfl, rfl, rfl, info, rfl, rfl, rfl, rfl, rfl, rfl, codingBegun_cqp s n w, coding, idle,
      encoderStarted_mem s n w, encoderStarted_eas s n w⟩
  · intro bits l err s n c coding more _ runs
    obtain ⟨mem, eas, -⟩ := readCodedRow_kept s n (sesOf s n) c err
    obtain ⟨map, sealFail, checked⟩ := rowTaken_marks (s := s) (n := n) (c := c) (bits := bits.toNat) (l := l) (err := err)
    refine ⟨encoderRow s n c bits.toNat l err, rowTaken s n c bits.toNat l err, execEncRowDone_eq coding more runs, ?_, mem, eas,
      rowTaken_floor_effect, rowTaken_discarded_effect, rowTaken_accepted_effect, fun again => ?_, fun first => ?_, ?_⟩
    · rw [encoderRow, sesOf_setSes]
    · rw [map, sealFail, checked, readCodedRow_again again]
      exact ⟨rfl, rfl, rfl⟩
    · rw [checked, readCodedRow_checked first]
    · rintro first rfl tiles
      obtain ⟨flag, marked⟩ := readCodedRow_fails (s := s) (n := n) first tiles
      exact ⟨flag, sealFail.trans marked⟩
  · intro s n c coding all free _
    obtain ⟨qp, floors, idle⟩ := rd_encoderDone s n c
    obtain ⟨raised, stays⟩ := rd_encoderDone_floor s n c
    refine ⟨encoderDone s n c, { c with bytes := unitBytes s n c }, unitPlace s n c, unitFiller s n c, execEncPictureDone_eq coding all free, ?_⟩
    rw [sesOf_encoderDone]
    refine ⟨rfl, rfl, rfl, rfl, rfl, rfl, rfl, rfl, unitFiller_other s n c, fun cbr period fits => ?_, qp, floors, idle, raised, stays,
      encoderDone_leases s n c, encoderDone_mem s n c⟩
    refine unitFiller_leaves_room s n c cbr period ?_
    rwa [show (unitBytes s n c).length - (unitFiller s n c).length = (pictureBytes s n c).length by
      rw [unitBytes, List.length_append, Nat.add_sub_cancel]] at fits
  · intro n s c place ready some_ small runs
    refine ⟨?_, ?_, fun pad padded => ?_⟩
    · rintro rfl
      exact ⟨_, execEncAuWritten_full runs ready, ringFull_effect s n.toNat⟩
    · rintro rfl
      exact ⟨_, execEncAuWritten_placed runs ready, entryWritten_effect s s _ c some_ small⟩
    · rintro rfl
      obtain ⟨wptr, session, mem⟩ := entryWritten_effect s (paddingWritten s n.toNat pad) 0 c some_ small
      rw [Nat.zero_add] at wptr
      exact ⟨_, execEncAuWritten_padded runs ready padded, wptr, session, mem⟩

end Sys2Proof.Machine
end
